-- ==== Sys2Proof/Word.lean ====
section
/-! DEFINITION. The word types of the Chophor C3 (spec/00_scope.md R8, spec/03_on_chip_memories.md R68). -/

namespace Sys2Proof

/-- One byte of memory, buffer or instruction word. -/
abbrev Byte := BitVec 8

/-- One lane of a vector register (R68). -/
abbrev Word := BitVec 32

/-- A uniform register, a pointer's image, a queue-block word (R68, R13). -/
abbrev DWord := BitVec 64

/-- A pointer: RID in [63:56], VA in [55:0] (R13). -/
abbrev Ptr := BitVec 64

/-- One bit per lane of a group (R153). -/
abbrev LaneMask := BitVec 32

/-- An instruction word (R174). -/
abbrev InsWord := BitVec 96

/-- A stream command word (R194). -/
abbrev StreamWord := BitVec 128

/-- A queue command (R405). -/
abbrev CmdWord := BitVec 512

end Sys2Proof
end

