-- ==== Sys2Proof/Syntax.lean ====
section
/-! DEFINITION. The steps of the Chophor C3: one constructor of `Instr` for each row of
spec/opcode_table.json. The instruction forms carry the operand fields of spec/07_instruction_format.md and of
the chapter that defines their class; the commands and events carry the names of the agents they concern. -/

namespace Sys2Proof

/-- An operand field of ten bits (R177): vector register, uniform register, special operand (selector and
index), signed short immediate. -/
inductive Opnd where
  | v (n : BitVec 8)
  | g (n : BitVec 6)
  | sp (sel idx : BitVec 4)
  | im (w : BitVec 8)
  deriving DecidableEq, Repr, Inhabited

/-- What every word carries beside its operands (R174): guard (R181) and scheduling fields (R182 to R185). -/
structure Hdr where
  neg : Bool
  gp  : BitVec 3
  sw  : Bool
  lr  : BitVec 2
  yh  : Bool
  dly : BitVec 4
  deriving DecidableEq, Repr, Inhabited

/-- The type codes of R220. -/
inductive Ty where
  | s8 | s16 | s32 | s64 | n8 | n16 | n32 | n64 | f32 | bf16 | f16 | e4m3 | e5m2 | e2m1 | e8m0
  deriving DecidableEq, Repr, Inhabited

/-- The rounding modes of R208. -/
inductive Rnd where
  | rne | rz | ru | rd | sr
  deriving DecidableEq, Repr, Inhabited

/-- The conditions of FCMP (R236). -/
inductive FCond where
  | eq | ne | lt | le | gt | ge | num | nan
  deriving DecidableEq, Repr, Inhabited

/-- The widths of MOV and BCAST (R244, R263). -/
inductive MovW where
  | b32 | b64 | b128
  deriving DecidableEq, Repr, Inhabited

/-- The operations of PSET (R248). -/
inductive PsetOp where
  | and | or | xor
  deriving DecidableEq, Repr, Inhabited

/-- The special values of SREAD (R250). -/
inductive Special where
  | laneid | groupid | teamid | teamx | teamy | teamz | ngroups | member | gridid | core | cluster | die
  | ldid | cycles | rootgen | bndflag | srstate | entrymask
  deriving DecidableEq, Repr, Inhabited

/-- The partition sizes of PART (R166, R263). -/
inductive PartSz where
  | sz4 | sz8 | sz16
  deriving DecidableEq, Repr, Inhabited

/-- The modes of VOTE (R266). -/
inductive VoteMode where
  | all | any | uni | ballot
  deriving DecidableEq, Repr, Inhabited

/-- The modes of SHFL (R266). -/
inductive ShflMode where
  | idx | up | down | xor
  deriving DecidableEq, Repr, Inhabited

/-- The combining operations of REDUCE and SCAN (R267). -/
inductive RedOp where
  | add | min | max | and | or | xor
  deriving DecidableEq, Repr, Inhabited

/-- The sizes of buffer, stack and far accesses (R274). -/
inductive Sz where
  | b8 | b16 | b32 | b64 | b128 | s8 | s16
  deriving DecidableEq, Repr, Inhabited

/-- The full/empty forms of buffer loads (R274, R82). -/
inductive Fe where
  | plain | fe | clr | feclr
  deriving DecidableEq, Repr, Inhabited

/-- The element formats of tag checks (R274). -/
inductive Tf where
  | none | f32 | bf16 | f16
  deriving DecidableEq, Repr, Inhabited

/-- The addressing modes of R274 and R275 with what IMM holds in each. -/
inductive Addr where
  | off (o : BitVec 32)
  | post (inc : BitVec 32)
  | modulo (t : Opnd) (inc : BitVec 22)
  deriving DecidableEq, Repr, Inhabited

/-- The kinds of fragment of R282. -/
inductive FragKind where
  | op | opt16 | opt8 | acc
  deriving DecidableEq, Repr, Inhabited

/-- The typed buffers of R25. -/
inductive Buf where
  | w | a | c
  deriving DecidableEq, Repr, Inhabited

/-- The scopes of R123 and R286. -/
inductive Scope where
  | grp | team | gang | die | dev | sys
  deriving DecidableEq, Repr, Inhabited

/-- The ordering qualifiers of R286. -/
inductive Ord where
  | none | acq | rel | ar
  deriving DecidableEq, Repr, Inhabited

/-- The far atomic operations of R290. -/
inductive AtomOp where
  | add | smin | smax | umin | umax | and | or | xor | exch | fadd
  deriving DecidableEq, Repr, Inhabited

/-- The formats of MMA and MMAM (R303). -/
inductive MKind where
  | f16 | bf16 | e4m3 | e4m3e5m2 | e5m2e4m3 | e5m2 | e2m1 | e4m3cb2 | e5m2cb2
  deriving DecidableEq, Repr, Inhabited

/-- What LSTAT reads (R373). -/
inductive LstatSel where
  | base | arr | bin | drop
  deriving DecidableEq, Repr, Inhabited

/-! The operand groups, one structure per shape. -/

/-- Integer instruction with D and A (R225, R226). -/
structure IUn where
  h : Hdr
  x : BitVec 3
  sat : Bool
  ty : Ty
  d : Opnd
  a : Opnd
  deriving DecidableEq, Repr, Inhabited

/-- Integer instruction with D, A and B. -/
structure IBin where
  h : Hdr
  x : BitVec 3
  sat : Bool
  ty : Ty
  d : Opnd
  a : Opnd
  b : Opnd
  deriving DecidableEq, Repr, Inhabited

/-- Integer instruction with D, A, B and T. -/
structure ITern where
  h : Hdr
  x : BitVec 3
  sat : Bool
  ty : Ty
  d : Opnd
  a : Opnd
  b : Opnd
  t : Opnd
  deriving DecidableEq, Repr, Inhabited

/-- BSEL: its control stands in IMM (R229). -/
structure IBsel where
  h : Hdr
  x : BitVec 3
  sat : Bool
  ty : Ty
  d : Opnd
  a : Opnd
  b : Opnd
  ctl : BitVec 20
  deriving DecidableEq, Repr, Inhabited

/-- Float instruction with D and A (R232). -/
structure FUn where
  h : Hdr
  rnd : Rnd
  ty : Ty
  d : Opnd
  a : Opnd
  deriving DecidableEq, Repr, Inhabited

/-- Float instruction with D, A and B. -/
structure FBin where
  h : Hdr
  rnd : Rnd
  ty : Ty
  d : Opnd
  a : Opnd
  b : Opnd
  deriving DecidableEq, Repr, Inhabited

/-- Float instruction with D, A, B and T. -/
structure FTern where
  h : Hdr
  rnd : Rnd
  ty : Ty
  d : Opnd
  a : Opnd
  b : Opnd
  t : Opnd
  deriving DecidableEq, Repr, Inhabited

/-- FCMP (R236). -/
structure FCmpA where
  h : Hdr
  cond : FCond
  ty : Ty
  d : Opnd
  a : Opnd
  b : Opnd
  deriving DecidableEq, Repr, Inhabited

/-- FCLASS (R237). -/
structure FClassA where
  h : Hdr
  rnd : Rnd
  ty : Ty
  d : Opnd
  a : Opnd
  mask : BitVec 9
  deriving DecidableEq, Repr, Inhabited

/-- CVT (R239). -/
structure CvtA where
  h : Hdr
  sat : Bool
  rnd : Rnd
  dty : Ty
  sty : Ty
  dsel : BitVec 3
  ssel : BitVec 3
  d : Opnd
  a : Opnd
  deriving DecidableEq, Repr, Inhabited

/-- MOV (R245). -/
structure MovA where
  h : Hdr
  w : MovW
  d : Opnd
  a : Opnd
  deriving DecidableEq, Repr, Inhabited

/-- MOVI (R246). -/
structure MoviA where
  h : Hdr
  hi : Bool
  wide : Bool
  d : Opnd
  imm : BitVec 32
  deriving DecidableEq, Repr, Inhabited

/-- SEL (R247). -/
structure SelA where
  h : Hdr
  wide : Bool
  d : Opnd
  a : Opnd
  b : Opnd
  t : Opnd
  deriving DecidableEq, Repr, Inhabited

/-- PSET (R248). -/
structure PsetA where
  h : Hdr
  nb : Bool
  na : Bool
  op : PsetOp
  d : Opnd
  a : Opnd
  b : Opnd
  deriving DecidableEq, Repr, Inhabited

/-- An instruction with D alone. -/
structure OneD where
  h : Hdr
  d : Opnd
  deriving DecidableEq, Repr, Inhabited

/-- An instruction with A alone. -/
structure OneA where
  h : Hdr
  a : Opnd
  deriving DecidableEq, Repr, Inhabited

/-- An instruction with B alone. -/
structure OneB where
  h : Hdr
  b : Opnd
  deriving DecidableEq, Repr, Inhabited

/-- An instruction with A and B. -/
structure TwoAB where
  h : Hdr
  a : Opnd
  b : Opnd
  deriving DecidableEq, Repr, Inhabited

/-- An instruction with D, A and B. -/
structure ThreeDAB where
  h : Hdr
  d : Opnd
  a : Opnd
  b : Opnd
  deriving DecidableEq, Repr, Inhabited

/-- An instruction with D, A, B and T. -/
structure FourDABT where
  h : Hdr
  d : Opnd
  a : Opnd
  b : Opnd
  t : Opnd
  deriving DecidableEq, Repr, Inhabited

/-- PMOV.fromv (R249). -/
structure PmovFromA where
  h : Hdr
  a : Opnd
  mask : BitVec 7
  deriving DecidableEq, Repr, Inhabited

/-- SREAD (R250). -/
structure SreadA where
  h : Hdr
  sel : Special
  d : Opnd
  deriving DecidableEq, Repr, Inhabited

/-- MODSET (R252). -/
structure ModsetA where
  h : Hdr
  raw : Bool
  d : Opnd
  a : Opnd
  b : Opnd
  deriving DecidableEq, Repr, Inhabited

/-- BRA (R254). -/
structure BraA where
  h : Hdr
  tprio : BitVec 8
  off : BitVec 32
  deriving DecidableEq, Repr, Inhabited

/-- BRX (R254). -/
structure BrxA where
  h : Hdr
  tprio : BitVec 8
  a : Opnd
  deriving DecidableEq, Repr, Inhabited

/-- CALL (R254). -/
structure CallA where
  h : Hdr
  tprio : BitVec 8
  d : Opnd
  off : BitVec 23
  fs : BitVec 9
  deriving DecidableEq, Repr, Inhabited

/-- CALLX (R254). -/
structure CallxA where
  h : Hdr
  tprio : BitVec 8
  d : Opnd
  a : Opnd
  fs : BitVec 9
  deriving DecidableEq, Repr, Inhabited

/-- SLEEP (R254). -/
structure SleepA where
  h : Hdr
  n : BitVec 24
  deriving DecidableEq, Repr, Inhabited

/-- PART (R263). -/
structure PartA where
  h : Hdr
  size : PartSz
  d : Opnd
  deriving DecidableEq, Repr, Inhabited

/-- VOTE (R263). -/
structure VoteA where
  h : Hdr
  mode : VoteMode
  d : Opnd
  a : Opnd
  t : Opnd
  deriving DecidableEq, Repr, Inhabited

/-- SHFL (R263). -/
structure ShflA where
  h : Hdr
  mode : ShflMode
  wide : Bool
  d : Opnd
  a : Opnd
  b : Opnd
  t : Opnd
  deriving DecidableEq, Repr, Inhabited

/-- REDUCE (R263). -/
structure ReduceA where
  h : Hdr
  op : RedOp
  ty : Ty
  d : Opnd
  a : Opnd
  t : Opnd
  deriving DecidableEq, Repr, Inhabited

/-- SCAN (R263). -/
structure ScanA where
  h : Hdr
  op : RedOp
  ty : Ty
  excl : Bool
  d : Opnd
  a : Opnd
  t : Opnd
  deriving DecidableEq, Repr, Inhabited

/-- BCAST (R263). -/
structure BcastA where
  h : Hdr
  w : MovW
  d : Opnd
  a : Opnd
  b : Opnd
  t : Opnd
  deriving DecidableEq, Repr, Inhabited

/-- BARA, BARW, BARS (R268). -/
structure BarA where
  h : Hdr
  a : Opnd
  b : Opnd
  id : BitVec 12
  deriving DecidableEq, Repr, Inhabited

/-- TBAR (R271). -/
structure TbarA where
  h : Hdr
  refresh : Bool
  deriving DecidableEq, Repr, Inhabited

/-- Buffer load (R274, R275). -/
structure LdA where
  h : Hdr
  mem : Bool
  fe : Fe
  sz : Sz
  d : Opnd
  a : Opnd
  addr : Addr
  deriving DecidableEq, Repr, Inhabited

/-- Buffer store and ACC (R274, R275). -/
structure StA where
  h : Hdr
  mem : Bool
  tf : Tf
  sz : Sz
  d : Opnd
  a : Opnd
  b : Opnd
  addr : Addr
  deriving DecidableEq, Repr, Inhabited

/-- LDFRAG (R282). -/
structure LdfragA where
  h : Hdr
  few : Bool
  mem : Bool
  buf : Buf
  kind : FragKind
  d : Opnd
  a : Opnd
  b : Opnd
  off : BitVec 22
  deriving DecidableEq, Repr, Inhabited

/-- STFRAG (R282). -/
structure StfragA where
  h : Hdr
  mem : Bool
  buf : Buf
  kind : FragKind
  d : Opnd
  a : Opnd
  b : Opnd
  t : Opnd
  off : BitVec 22
  deriving DecidableEq, Repr, Inhabited

/-- FESET, FECLR (R284). -/
structure FesA where
  h : Hdr
  mem : Bool
  bufA : Bool
  a : Opnd
  b : Opnd
  off : BitVec 32
  deriving DecidableEq, Repr, Inhabited

/-- FEPROBE (R284). -/
structure FeprobeA where
  h : Hdr
  mem : Bool
  bufA : Bool
  d : Opnd
  a : Opnd
  b : Opnd
  off : BitVec 32
  deriving DecidableEq, Repr, Inhabited

/-- LDS (R285). -/
structure LdsA where
  h : Hdr
  sz : Sz
  d : Opnd
  a : Opnd
  off : BitVec 32
  deriving DecidableEq, Repr, Inhabited

/-- STS (R285). -/
structure StsA where
  h : Hdr
  sz : Sz
  a : Opnd
  b : Opnd
  off : BitVec 32
  deriving DecidableEq, Repr, Inhabited

/-- FLD (R286, R287). -/
structure FldA where
  h : Hdr
  scope : Scope
  ord : Ord
  sz : Sz
  d : Opnd
  a : Opnd
  off : BitVec 22
  deriving DecidableEq, Repr, Inhabited

/-- FST (R286, R287). -/
structure FstA where
  h : Hdr
  scope : Scope
  ord : Ord
  sz : Sz
  tf : Tf
  d : Opnd
  a : Opnd
  b : Opnd
  off : BitVec 22
  deriving DecidableEq, Repr, Inhabited

/-- FATOM (R286, R287). -/
structure FatomA where
  h : Hdr
  scope : Scope
  ord : Ord
  sz : Sz
  op : AtomOp
  d : Opnd
  a : Opnd
  b : Opnd
  off : BitVec 22
  deriving DecidableEq, Repr, Inhabited

/-- FCAS (R286, R287). -/
structure FcasA where
  h : Hdr
  scope : Scope
  ord : Ord
  sz : Sz
  d : Opnd
  a : Opnd
  b : Opnd
  t : Opnd
  off : BitVec 22
  deriving DecidableEq, Repr, Inhabited

/-- FENCE (R286). -/
structure FenceA where
  h : Hdr
  scope : Scope
  ord : Ord
  deriving DecidableEq, Repr, Inhabited

/-- MMA (R305). -/
structure MmaA where
  h : Hdr
  kind : MKind
  z : Bool
  d : Opnd
  a : Opnd
  b : Opnd
  deriving DecidableEq, Repr, Inhabited

/-- MMAM (R305). -/
structure MmamA where
  h : Hdr
  kind : MKind
  z : Bool
  d : Opnd
  a : Opnd
  b : Opnd
  t : Opnd
  deriving DecidableEq, Repr, Inhabited

/-- CBLD (R311). -/
structure CbldA where
  h : Hdr
  few : Bool
  bufA : Bool
  a : Opnd
  off : BitVec 22
  deriving DecidableEq, Repr, Inhabited

/-- MDRAIN (R313). -/
structure MdrainA where
  h : Hdr
  acc : Bool
  d : Opnd
  a : Opnd
  b : Opnd
  t : Opnd
  off : BitVec 22
  deriving DecidableEq, Repr, Inhabited

/-- MDRAIN.raw (R313). -/
structure MdrainRawA where
  h : Hdr
  d : Opnd
  a : Opnd
  t : Opnd
  off : BitVec 22
  deriving DecidableEq, Repr, Inhabited

/-- MFILL (R313). -/
structure MfillA where
  h : Hdr
  d : Opnd
  a : Opnd
  b : Opnd
  off : BitVec 22
  deriving DecidableEq, Repr, Inhabited

/-- MFILL.raw (R313). -/
structure MfillRawA where
  h : Hdr
  d : Opnd
  a : Opnd
  off : BitVec 22
  deriving DecidableEq, Repr, Inhabited

/-- CREQ and KICK (R323). -/
structure CreqA where
  h : Hdr
  a : Opnd
  b : Opnd
  addr : Addr
  deriving DecidableEq, Repr, Inhabited

/-- SBIND (R340). -/
structure SbindA where
  h : Hdr
  a : Opnd
  win : BitVec 3
  deriving DecidableEq, Repr, Inhabited

/-- SGO (R340). -/
structure SgoA where
  h : Hdr
  win : BitVec 3
  deriving DecidableEq, Repr, Inhabited

/-- SREL and AWAIT.slot (R340). -/
structure TileA where
  h : Hdr
  b : Opnd
  win : BitVec 3
  deriving DecidableEq, Repr, Inhabited

/-- AWAIT.obj (R340). -/
structure AwaitObjA where
  h : Hdr
  mem : Bool
  a : Opnd
  off : BitVec 32
  deriving DecidableEq, Repr, Inhabited

/-- ASTAT.obj (R340). -/
structure AstatObjA where
  h : Hdr
  mem : Bool
  d : Opnd
  a : Opnd
  off : BitVec 32
  deriving DecidableEq, Repr, Inhabited

/-- ASTAT.slot (R340). -/
structure AstatSlotA where
  h : Hdr
  d : Opnd
  b : Opnd
  win : BitVec 3
  deriving DecidableEq, Repr, Inhabited

/-- NBREQ and ATTQ (R351). -/
structure NbreqA where
  h : Hdr
  a : Opnd
  off : BitVec 32
  deriving DecidableEq, Repr, Inhabited

/-- LSPAWN (R368). -/
structure LspawnA where
  h : Hdr
  lad : BitVec 2
  a : Opnd
  b : Opnd
  off : BitVec 32
  deriving DecidableEq, Repr, Inhabited

/-- LSPAWN.close (R368). -/
structure LcloseA where
  h : Hdr
  lad : BitVec 2
  deriving DecidableEq, Repr, Inhabited

/-- LDONE (R368). -/
structure LdoneA where
  h : Hdr
  tf : Tf
  sz : Sz
  d : Opnd
  b : Opnd
  deriving DecidableEq, Repr, Inhabited

/-- LSTAT (R368). -/
structure LstatA where
  h : Hdr
  sel : LstatSel
  lad : BitVec 2
  d : Opnd
  rung : BitVec 2
  deriving DecidableEq, Repr, Inhabited

/-- SYSCALL (R385). -/
structure SyscallA where
  h : Hdr
  d : Opnd
  a : Opnd
  b : Opnd
  svc : BitVec 16
  deriving DecidableEq, Repr, Inhabited

/-- TRAP and BKPT (R385). -/
structure TrapA where
  h : Hdr
  code : BitVec 16
  deriving DecidableEq, Repr, Inhabited

/-- FEATQ (R385). -/
structure FeatqA where
  h : Hdr
  d : Opnd
  word : BitVec 8
  deriving DecidableEq, Repr, Inhabited

/-- TNODE (R385). -/
structure TnodeA where
  h : Hdr
  zero : Bool
  a : Opnd
  b : Opnd
  deriving DecidableEq, Repr, Inhabited

/-- TSET (R385). -/
structure TsetA where
  h : Hdr
  level : BitVec 2
  a : Opnd
  b : Opnd
  idx : BitVec 10
  deriving DecidableEq, Repr, Inhabited

/-- SWRITE (R385). -/
structure SwriteA where
  h : Hdr
  a : Opnd
  b : Opnd
  num : BitVec 16
  ld : BitVec 4
  deriving DecidableEq, Repr, Inhabited

/-- PRIVRD (R385). -/
structure PrivrdA where
  h : Hdr
  d : Opnd
  b : Opnd
  num : BitVec 16
  ld : BitVec 4
  deriving DecidableEq, Repr, Inhabited

/-! The names of agents that commands and events carry. -/

/-- A team: logical device, GRIDID, linear team index (R150). -/
structure TeamRef where
  ld : Nat
  grid : Nat
  team : Nat
  deriving DecidableEq, Repr, Inhabited

/-- A gang: logical device, GRIDID, gang index (R168). -/
structure GangRef where
  ld : Nat
  grid : Nat
  gang : Nat
  deriving DecidableEq, Repr, Inhabited

/-- A group of a team, by GROUPID (R150). -/
structure GroupRef where
  team : TeamRef
  g : Nat
  deriving DecidableEq, Repr, Inhabited

/-- A queue of a logical device (R402). -/
structure QueueRef where
  ld : Nat
  q : Nat
  deriving DecidableEq, Repr, Inhabited

/-- What a hart does in one memory access (R145). -/
inductive HartOp where
  | load (pa size : Nat)
  | store (pa size : Nat) (v : BitVec 64)
  | amo (op : AtomOp) (pa size : Nat) (v : BitVec 64) (aq rl : Bool)
  | lr (pa size : Nat)
  | sc (pa size : Nat) (v : BitVec 64) (aq rl : Bool)
  | fence (pr pw sr sw : Bool)
  deriving DecidableEq, Repr, Inhabited

/-- A network packet that brings this package a transfer's payload, or the request of a READ for some of its bytes (R455). -/
structure Packet where
  rld : Nat
  rslot : Nat
  rcq : Nat
  remote : Ptr
  notify : Bool
  qpn : Option Nat
  wrid : DWord
  op : BitVec 8
  payload : List Byte
  /-- The bytes that a READ asks for. -/
  want : Nat
  deriving DecidableEq, Repr, Inhabited

/-- The steps of the machine: a constructor for each row of spec/opcode_table.json. -/
inductive Instr where
  -- package
  | powerOn | powerDown | cxlConventionalReset
  | pkgrst (v : DWord)
  | powerLimitExceeded
  | thermalIssueLimit (die : Nat)
  | thermalHalt (die : Nat)
  | expanderLinkDown (port : Nat)
  | explink (port : Nat) (v : DWord)
  | expanderLinkTrained (port : Nat)
  | networkPortLinkChange (eth : Bool) (port : Nat) (up : Bool)
  | driveError (req : Nat) (status : BitVec 16)
  -- issue
  | issue (core quarter : Nat)
  | switchMarkerUnpark (r : GroupRef)
  | issueDelayExpire (r : GroupRef)
  -- integer
  | iadd (x : IBin) | isub (x : IBin) | imul (x : IBin) | imulh (x : IBin) | imad (x : ITern)
  | imin (x : IBin) | imax (x : IBin) | iabs (x : IUn) | ineg (x : IUn)
  | and (x : IBin) | or (x : IBin) | xor (x : IBin) | andn (x : IBin) | not (x : IUn)
  | shl (x : IBin) | shr (x : IBin) | sar (x : IBin) | rol (x : IBin)
  | popc (x : IUn) | clz (x : IUn) | brev (x : IUn) | bfx (x : IBin) | bfi (x : ITern)
  | bsel (x : IBsel) | icmp (x : IBin) | lea (x : IBin) | iaddx (x : ITern)
  -- float and conversion
  | fadd (x : FBin) | fsub (x : FBin) | fmul (x : FBin) | ffma (x : FTern) | fmin (x : FBin)
  | fmax (x : FBin) | fcmp (x : FCmpA) | frcp (x : FUn) | frsq (x : FUn) | fsqrt (x : FUn)
  | fex2 (x : FUn) | flg2 (x : FUn) | fsin (x : FUn) | fcos (x : FUn) | fclass (x : FClassA)
  | fscale (x : FBin) | cvt (x : CvtA) | padd2 (x : FBin) | pmul2 (x : FBin) | pfma2 (x : FTern)
  | lsemrg (x : FBin)
  -- moves
  | mov (x : MovA) | movi (x : MoviA) | sel (x : SelA) | pset (x : PsetA) | pmovTov (x : OneD)
  | pmovFromv (x : PmovFromA) | sread (x : SreadA) | modset (x : ModsetA) | bndset (x : ThreeDAB)
  -- control
  | bra (x : BraA) | brx (x : BrxA) | call (x : CallA) | callx (x : CallxA) | ret (x : OneA)
  | exit (x : Hdr) | rcv (x : Hdr) | rcvComplete (r : GroupRef) (pc : Ptr)
  | yield (x : Hdr) | sleep (x : SleepA)
  -- collectives and barriers
  | part (x : PartA) | vote (x : VoteA) | shfl (x : ShflA) | reduce (x : ReduceA) | scan (x : ScanA)
  | bcast (x : BcastA) | collectiveConverge (r : GroupRef) (lane : Nat)
  | bara (x : BarA) | barw (x : BarA) | bars (x : BarA) | tbar (x : TbarA) | gbar (x : Hdr)
  -- buffers
  | ldw (x : LdA) | lda (x : LdA) | ldc (x : LdA) | sta (x : StA) | stc (x : StA) | acc (x : StA)
  | feWaitSatisfied (r : GroupRef) (lane : Nat)
  | ldfrag (x : LdfragA) | stfrag (x : StfragA) | feset (x : FesA) | feclr (x : FesA)
  | feprobe (x : FeprobeA) | lds (x : LdsA) | sts (x : StsA)
  | stackSpill (r : GroupRef) (lane : Nat) | stackFill (r : GroupRef) (lane : Nat)
  -- far
  | fld (x : FldA) | fst (x : FstA) | fatom (x : FatomA) | fcas (x : FcasA) | fence (x : FenceA)
  | farAccessPerformed (id : Nat) | farTimeout (id : Nat) | hostRefusal (id : Nat)
  -- matrix
  | mma (x : MmaA) | mmam (x : MmamA) | scacc (x : FourDABT) | cbld (x : CbldA)
  | mdrain (x : MdrainA) | mdrainRaw (x : MdrainRawA) | mfill (x : MfillA) | mfillRaw (x : MfillRawA)
  -- copy requests
  | creq (x : CreqA) | kick (x : CreqA) | kickRoom (r : GroupRef) (lane : Nat)
  | cseal (x : OneD) | csealRoom (r : GroupRef) (lane : Nat)
  | cwait (x : OneB) | cwaitReturn (r : GroupRef) (lane : Nat)
  | copyLinear (core : Nat) | copyTiled (core : Nat) | copyGather (core : Nat)
  | copyScatter (core : Nat) | copyImage (core : Nat) | stread (core : Nat) | stwrite (core : Nat)
  | stflush (core : Nat) | copyRequestDone (req : Nat) | arrivalDecrement (op : Nat)
  -- streams
  | sbind (x : SbindA) | sgo (x : SgoA) | srel (x : TileA) | awaitObj (x : AwaitObjA)
  | awaitSlot (x : TileA) | awaitReturn (r : GroupRef) (lane : Nat)
  | astatObj (x : AstatObjA) | astatSlot (x : AstatSlotA)
  | stile (t : TeamRef) (w : Nat) | stileFillDone (t : TeamRef) (w : Nat)
  | sgather (t : TeamRef) (w : Nat) | sloop (t : TeamRef) (w : Nat) | snext (t : TeamRef) (w : Nat)
  | scond (t : TeamRef) (w : Nat) | sjmp (t : TeamRef) (w : Nat) | swaitr (t : TeamRef) (w : Nat)
  | swaitrReleased (t : TeamRef) (w : Nat) | swaitp (t : TeamRef) (w : Nat)
  | swaitpLatched (t : TeamRef) (w : Nat) | ssig (t : TeamRef) (w : Nat)
  | shalt (t : TeamRef) (w : Nat) | snop (t : TeamRef) (w : Nat)
  | streamBadWord (t : TeamRef) (w : Nat) | streamAutoEnd (t : TeamRef) (w : Nat)
  -- near-bank, attention, KV
  | nbreq (x : NbreqA) | nbCopy (op : Nat) | nbRelayout (op : Nat) | nbReduce (op : Nat)
  | nbScale (op : Nat) | attq (x : NbreqA) | attentionCommand (op : Nat)
  | kvget (x : ThreeDAB) | kvput (x : OneA) | kvlnkSucc (x : TwoAB) | kvlnkTok (x : TwoAB)
  -- ladders
  | lspawn (x : LspawnA) | lspawnClose (x : LcloseA) | lspawnRoom (r : GroupRef) (lane : Nat)
  | lesc (x : NbreqA) | lescRoom (r : GroupRef) (lane : Nat) | ldone (x : LdoneA) | lstat (x : LstatA)
  | binLaunch (k : GangRef) (lad rung : Nat) | binStarveExpire (k : GangRef) (lad rung : Nat)
  | commitRun (t : TeamRef) (lad : Nat) | ladderPatch (t : TeamRef) (lad rung : Nat)
  -- user system
  | syscall (x : SyscallA) | syscallPost (t : TeamRef) | syscallSwapOut (k : GangRef)
  | syscallGangReturn (k : GangRef) | replytok (hart ld : Nat) (token : DWord)
  | trap (x : TrapA) | bkpt (x : TrapA) | featq (x : FeatqA) | refresh (x : Hdr) | nop (x : Hdr)
  -- supervisor
  | eret (x : Hdr) | eretSkip (x : Hdr) | handlerWatchdog (r : GroupRef)
  | tnode (x : TnodeA) | tset (x : TsetA) | rswap (x : FourDABT) | rcopy (x : ThreeDAB)
  | rdrop (x : OneA) | rdropNode (x : OneA) | tinv (x : OneA)
  | reclaimRelease (ld : Nat) | rqcons (ld : Nat) (v : DWord)
  | treeportTnode (hart : Nat) (w : DWord) | treeportTset (hart : Nat) (w : DWord)
  | treeportRswap (hart : Nat) (w : DWord) | treeportRcopy (hart : Nat) (w : DWord)
  | treeportRdrop (hart : Nat) (w : DWord) | treeportTinv (hart : Nat) (w : DWord)
  | ldreset (x : OneA) | ldresetComplete (ld : Nat) | clearPendingLine (line : Nat)
  | diagstHbm (x : TwoAB) | diagstSram (x : TwoAB) | diagldHbm (x : TwoAB) | diagldSram (x : TwoAB)
  | swrite (x : SwriteA) | privrd (x : PrivrdA) | registerWrite (pa : Nat) (v : DWord)
  -- queues
  | queueDescriptorWrite (k : QueueRef) (word : Nat) (v : DWord) | queueDoorbell (k : QueueRef) (tail : Word)
  | launch (k : QueueRef) | loop (k : QueueRef) | endloop (k : QueueRef) | cond (k : QueueRef)
  | jump (k : QueueRef) | wait (k : QueueRef) | waitSatisfied (k : QueueRef) | write (k : QueueRef)
  | drain (k : QueueRef) | drainDone (k : QueueRef) | halt (k : QueueRef) | pswapOut (k : QueueRef)
  | pswapIn (k : QueueRef) | migrate (k : QueueRef) | migrateResult (req : Nat)
  | invalidCommand (k : QueueRef)
  -- dispatch and life
  | gridDependencesMet (ld grid : Nat) | dispatchPlace | teamStart (t : TeamRef) | teamExit (t : TeamRef)
  | writeback (t : TeamRef) | gridComplete (ld grid : Nat) | preemptTrigger (ld : Nat)
  | preemptSafeSave (r : GroupRef) | prewinExpire (k : GangRef) | preemptRetry (k : GangRef)
  | preemptReturn (k : GangRef) | deadlockTest (k : GangRef) | gangRelaunch (k : GangRef)
  | endgrid (ld : Nat) (grid : DWord)
  -- host, network, memory side
  | hostHdmRead (ld off size : Nat) | hostHdmWrite (ld off : Nat) (bytes : List Byte)
  | netTailWrite (ld pair : Nat) (tail : DWord) | netWrite (op : Nat) | netWriteNotify (op : Nat)
  | netRead (op : Nat) | netReceive (p : Packet) | netCompletion (op : Nat)
  | netRetransmitTimeout (op : Nat)
  | hotnessIntervalEnd (stack : Nat) | patrolScrub (stack pc : Nat) | hotListScrub (stack pc : Nat)
  | rowCloseTimeout (stack pc bank : Nat) | dieCooled (die : Nat) | powerDrawWithinLimit
  | nimbusHartAccess (hart : Nat) (op : HartOp) | dramRefresh (stack pc bank : Nat)
  deriving DecidableEq, Repr, Inhabited

end Sys2Proof
end

