-- ==== Sys2Proof/Machine/Checks.lean ====
section
/-! DEFINITION. What an instruction word's fields must satisfy beside their layout: MOD combinations (R191),
operand classes (R177, R221 and the tables of each class), register alignment (R69), and the registers an
instruction reads and writes (for R70, R187 and R188). -/

namespace Sys2Proof

/-- The kinds of type (R220). -/
inductive TyKind where
  | sint | uint | flt | scale
  deriving DecidableEq, Repr

/-- Width of a type in bits (R220). -/
def Ty.width : Ty → Nat
  | .s8 | .n8 | .e4m3 | .e5m2 | .e8m0 => 8
  | .s16 | .n16 | .bf16 | .f16 => 16
  | .s32 | .n32 | .f32 => 32
  | .s64 | .n64 => 64
  | .e2m1 => 4

/-- Kind of a type (R220). -/
def Ty.kind : Ty → TyKind
  | .s8 | .s16 | .s32 | .s64 => .sint
  | .n8 | .n16 | .n32 | .n64 => .uint
  | .f32 | .bf16 | .f16 | .e4m3 | .e5m2 | .e2m1 => .flt
  | .e8m0 => .scale

/-- Is the type an integer type. -/
def Ty.isInt (t : Ty) : Bool := t.kind == .sint || t.kind == .uint

/-- Is the type a signed integer type. -/
def Ty.isSigned (t : Ty) : Bool := t.kind == .sint

/-- Is the type an integer type of 32 or 64 bits. -/
def Ty.isWide (t : Ty) : Bool := t.isInt && (t.width == 32 || t.width == 64)

/-- Vector registers an operand of a type occupies (R69, R221). -/
def Ty.regs (t : Ty) : Nat := if t.width == 64 then 2 else 1

/-- Slots of a type in one register (R239). -/
def Ty.slots (t : Ty) : Nat := if t.width < 32 then 32 / t.width else 1

/-- Bytes of a size (R274). -/
def Sz.bytes : Sz → Nat
  | .b8 | .s8 => 1
  | .b16 | .s16 => 2
  | .b32 => 4
  | .b64 => 8
  | .b128 => 16

/-- Vector registers an operand of a size occupies (R275). -/
def Sz.regs : Sz → Nat
  | .b64 => 2
  | .b128 => 4
  | _ => 1

/-- Does the size sign-extend. -/
def Sz.signed : Sz → Bool
  | .s8 | .s16 => true
  | _ => false

/-- Vector registers of a move width (R245). -/
def MovW.regs : MovW → Nat
  | .b32 => 1
  | .b64 => 2
  | .b128 => 4

/-- Element width of a tag format in bits; 0 for none (R274). -/
def Tf.bits : Tf → Nat
  | .none => 0
  | .f32 => 32
  | .bf16 | .f16 => 16

/-- Registers of the A and the B fragment (R303). -/
def MKind.regsA : MKind → Nat
  | .e4m3cb2 | .e5m2cb2 => 8
  | _ => 4

/-- Registers of the B fragment (R303). -/
def MKind.regsB : MKind → Nat
  | .e4m3cb2 | .e5m2cb2 => 2
  | _ => 4

/-- Registers of a fragment kind (R282). -/
def FragKind.regs : FragKind → Nat
  | .acc => 8
  | _ => 4

/-- The classes of operand (R177); `zero` is a field left zero where a table allows that. -/
inductive Cls where
  | vec | uni | imm | pred | modr | bnd | part | zero | bad
  deriving DecidableEq, Repr

/-- The class of an operand (R177): selectors 4 to 15, and predicate or partition indices 8 to 15, are no class. -/
def Opnd.cls : Opnd → Cls
  | .v _ => .vec
  | .g _ => .uni
  | .im _ => .imm
  | .sp sel idx =>
    if sel = 0 then (if idx.toNat < 8 then .pred else .bad)
    else if sel = 1 then .modr
    else if sel = 2 then .bnd
    else if sel = 3 then (if idx.toNat < 8 then .part else .bad)
    else .bad

/-- Is the operand a vector register. -/
def Opnd.isV (o : Opnd) : Bool := o.cls == .vec

/-- Is the operand a uniform register. -/
def Opnd.isG (o : Opnd) : Bool := o.cls == .uni

/-- The tag of a store: the bound register's index (R275); 0 otherwise. -/
def Opnd.tag : Opnd → Nat
  | .sp _ idx => idx.toNat
  | _ => 0

/-- One use of an operand field: field number of R192 (0 D, 1 A, 2 B, 3 T, 4 IMM), the operand, the classes the
opcode accepts there, the vector registers it spans, whether it is read and whether it is written. -/
structure Arg where
  f : Nat
  o : Opnd
  acc : List Cls
  w : Nat
  rd : Bool
  wr : Bool
  deriving DecidableEq, Repr

/-- A destination. -/
def aD (o : Opnd) (acc : List Cls) (w : Nat) : Arg := ⟨0, o, acc, w, false, true⟩
/-- Source A. -/
def aA (o : Opnd) (acc : List Cls) (w : Nat) : Arg := ⟨1, o, acc, w, true, false⟩
/-- Source B. -/
def aB (o : Opnd) (acc : List Cls) (w : Nat) : Arg := ⟨2, o, acc, w, true, false⟩
/-- Source T. -/
def aT (o : Opnd) (acc : List Cls) (w : Nat) : Arg := ⟨3, o, acc, w, true, false⟩

/-- The classes of R221. -/
def cSrc : List Cls := [.vec, .uni, .imm]
/-- A value: uniform register or short immediate. -/
def cVal : List Cls := [.uni, .imm]
/-- Vector or uniform. -/
def cVU : List Cls := [.vec, .uni]

/-- Uses of the integer shapes (R221). -/
def IUn.args (x : IUn) : List Arg := [aD x.d cVU x.ty.regs, aA x.a cSrc x.ty.regs]
/-- Uses of the integer shapes (R221). -/
def IBin.args (x : IBin) : List Arg :=
  [aD x.d cVU x.ty.regs, aA x.a cSrc x.ty.regs, aB x.b cSrc x.ty.regs]
/-- Uses of the integer shapes (R221). -/
def ITern.args (x : ITern) : List Arg :=
  [aD x.d cVU x.ty.regs, aA x.a cSrc x.ty.regs, aB x.b cSrc x.ty.regs, aT x.t cSrc x.ty.regs]
/-- Uses of the float shapes. -/
def FUn.args (x : FUn) : List Arg := [aD x.d cVU 1, aA x.a cSrc 1]
/-- Uses of the float shapes. -/
def FBin.args (x : FBin) : List Arg := [aD x.d cVU 1, aA x.a cSrc 1, aB x.b cSrc 1]
/-- Uses of the float shapes. -/
def FTern.args (x : FTern) : List Arg := [aD x.d cVU 1, aA x.a cSrc 1, aB x.b cSrc 1, aT x.t cSrc 1]

/-- The address register of a buffer access and its modulo register (R275): with AM 00 any of three classes, else a
register, which is also written. -/
def Addr.args (a : Opnd) (vecOk : Bool) : Addr → List Arg
  | .off _ => [aA a (if vecOk then cSrc else cVal) 1]
  | .post _ => [⟨1, a, if vecOk then cVU else [.uni], 1, true, true⟩]
  | .modulo t _ => [⟨1, a, if vecOk then cVU else [.uni], 1, true, true⟩, aT t [.modr] 1]

/-- Uses of a buffer load (R275). -/
def LdA.args (x : LdA) : List Arg :=
  aD x.d (if x.sz = .b128 then [.vec] else cVU) x.sz.regs :: x.addr.args x.a true

/-- Data operand of a store (R275). -/
def dataCls (sz : Sz) : List Cls := if sz = .b128 then [.vec] else cSrc

/-- Uses of a buffer store or ACC (R275). The tag register is read. -/
def StA.args (x : StA) : List Arg :=
  [⟨0, x.d, [.bnd], 1, true, false⟩, aB x.b (dataCls x.sz) x.sz.regs] ++ x.addr.args x.a true

/-- Predicate writes of PMOV.fromv and reads of PMOV.tov, which no operand field names. -/
def predArgs (f : Nat) (mask : BitVec 7) (rd : Bool) : List Arg :=
  (List.range 7).filterMap fun i =>
    if mask.getLsbD i then some ⟨f, .sp 0 (BitVec.ofNat 4 i), [.pred], 1, rd, !rd⟩ else none

/-- Width in bits of a special value (R250). -/
def Special.wide : Special → Bool
  | .gridid | .cycles | .rootgen | .bndflag => true
  | _ => false

/-- Is a special value per lane (R250). -/
def Special.perLane : Special → Bool
  | .laneid | .srstate => true
  | _ => false

/-- The operand fields an instruction uses, with their classes. -/
def args : Instr → List Arg
  | .iadd x | .isub x | .imul x | .imulh x | .imin x | .imax x | .and x | .or x | .xor x | .andn x
  | .shl x | .shr x | .sar x | .rol x | .bfx x | .lea x => x.args
  | .imad x | .bfi x => x.args
  | .iabs x | .ineg x | .not x | .popc x | .clz x | .brev x => x.args
  | .bsel x => [aD x.d cVU 1, aA x.a cSrc 1, aB x.b cSrc 1]
  | .icmp x => [aD x.d [.pred] 1, aA x.a cSrc x.ty.regs, aB x.b cSrc x.ty.regs]
  | .iaddx x =>
    [aD x.d [.vec] x.ty.regs, aA x.a cSrc x.ty.regs, aB x.b cSrc x.ty.regs, ⟨3, x.t, [.pred], 1, true, true⟩]
  | .fadd x | .fsub x | .fmul x | .fmin x | .fmax x | .fscale x | .padd2 x | .pmul2 x => x.args
  | .ffma x | .pfma2 x => x.args
  | .frcp x | .frsq x | .fsqrt x | .fex2 x | .flg2 x | .fsin x | .fcos x => x.args
  | .fcmp x => [aD x.d [.pred] 1, aA x.a cSrc 1, aB x.b cSrc 1]
  | .fclass x => [aD x.d [.pred] 1, aA x.a cSrc 1]
  | .cvt x => [⟨0, x.d, cVU, x.dty.regs, x.dty.width < 32, true⟩, aA x.a cSrc x.sty.regs]
  | .lsemrg x => [aD x.d [.vec] 4, aA x.a [.vec] 4, aB x.b [.vec] 4]
  | .mov x =>
    [aD x.d (if x.w = .b128 then [.vec] else cVU) x.w.regs,
     aA x.a (match x.w with | .b32 => cSrc | .b64 => [.vec, .uni, .imm, .modr] | .b128 => [.vec]) x.w.regs]
  | .movi x => [⟨0, x.d, cVU, if x.wide then 2 else 1, x.hi, true⟩]
  | .sel x =>
    let n := if x.wide then 2 else 1
    [aD x.d cVU n, aA x.a cSrc n, aB x.b cSrc n, aT x.t [.pred] 1]
  | .pset x => [aD x.d [.pred] 1, aA x.a [.pred] 1, aB x.b [.pred] 1]
  | .pmovTov x => aD x.d [.vec] 1 :: predArgs 0 0x7F true
  | .pmovFromv x => aA x.a [.vec] 1 :: predArgs 4 x.mask false
  | .sread x => [aD x.d (if x.sel.perLane then [.vec] else cVU) (if x.sel.wide then 2 else 1)]
  | .modset x => [aD x.d [.modr] 1, aA x.a cVal 1, aB x.b (if x.raw then [.zero] else cVal) 1]
  | .bndset x => [aD x.d [.bnd] 1, aA x.a [.uni] 1, aB x.b cVal 1]
  | .brx x => [aA x.a cVU 2]
  | .call x => [aD x.d [.vec] 4]
  | .callx x => [aD x.d [.vec] 4, aA x.a cVU 2]
  | .ret x => [aA x.a [.vec] 4]
  | .part x => [⟨0, x.d, [.part], 1, false, false⟩]
  | .vote x => [aD x.d (if x.mode = .ballot then [.vec] else [.pred]) 1, aA x.a [.pred] 1, ⟨3, x.t, [.part], 1, false, false⟩]
  | .shfl x =>
    let n := if x.wide then 2 else 1
    [aD x.d [.vec] n, aA x.a [.vec] n, aB x.b cSrc 1, ⟨3, x.t, [.part], 1, false, false⟩]
  | .reduce x => [aD x.d [.vec] x.ty.regs, aA x.a cVU x.ty.regs, ⟨3, x.t, [.part], 1, false, false⟩]
  | .scan x => [aD x.d [.vec] x.ty.regs, aA x.a cVU x.ty.regs, ⟨3, x.t, [.part], 1, false, false⟩]
  | .bcast x => [aD x.d [.vec] x.w.regs, aA x.a [.vec] x.w.regs, aB x.b cVal 1, ⟨3, x.t, [.part], 1, false, false⟩]
  | .bara x | .barw x | .bars x => [aA x.a [.uni] 1, aB x.b cVal 1]
  | .ldw x | .lda x | .ldc x => x.args
  | .sta x | .stc x | .acc x => x.args
  | .ldfrag x => [aD x.d [.vec] x.kind.regs, aA x.a [.uni] 1, aB x.b cVal 1]
  | .stfrag x => [⟨0, x.d, [.bnd], 1, true, false⟩, aA x.a [.uni] 1, aB x.b cVal 1, aT x.t [.vec] x.kind.regs]
  | .feset x | .feclr x => [aA x.a cSrc 1, aB x.b cVal 1]
  | .feprobe x => [aD x.d cVU 1, aA x.a cSrc 1, aB x.b cVal 1]
  | .lds x => [aD x.d [.vec] x.sz.regs, aA x.a cSrc 1]
  | .sts x => [aA x.a cSrc 1, aB x.b (dataCls x.sz) x.sz.regs]
  | .fld x => [aD x.d (if x.sz = .b128 then [.vec] else cVU) x.sz.regs, aA x.a cVU 2]
  | .fst x => [⟨0, x.d, [.bnd], 1, true, false⟩, aA x.a cVU 2, aB x.b (dataCls x.sz) x.sz.regs]
  | .fatom x => [aD x.d cVU x.sz.regs, aA x.a cVU 2, aB x.b cSrc x.sz.regs]
  | .fcas x =>
    [aD x.d (if x.sz = .b128 then [.vec] else cVU) x.sz.regs, aA x.a cVU 2, aB x.b (dataCls x.sz) x.sz.regs,
     aT x.t (dataCls x.sz) x.sz.regs]
  | .mma x => [⟨0, x.d, [.vec], 8, true, true⟩, aA x.a [.vec] x.kind.regsA, aB x.b [.vec] x.kind.regsB]
  | .mmam x =>
    [⟨0, x.d, [.vec], 8, true, true⟩, aA x.a [.vec] x.kind.regsA, aB x.b [.vec] x.kind.regsB, aT x.t [.uni] 1]
  | .scacc x => [⟨0, x.d, [.vec], 8, true, true⟩, ⟨1, x.a, [.vec], 8, true, true⟩, aB x.b [.vec] 2, aT x.t [.vec] 1]
  | .cbld x => [aA x.a [.uni] 1]
  | .mdrain x => [⟨0, x.d, [.bnd], 1, true, false⟩, aA x.a [.uni] 1, aB x.b cVal 1, ⟨3, x.t, [.vec], 8, true, true⟩]
  | .mdrainRaw x => [⟨0, x.d, [.bnd], 1, false, false⟩, aA x.a [.uni] 1, aT x.t [.vec] 8]
  | .mfill x => [aD x.d [.vec] 8, aA x.a [.uni] 1, aB x.b cVal 1]
  | .mfillRaw x => [aD x.d [.vec] 8, aA x.a [.uni] 1]
  | .creq x => aB x.b [.vec] 1 :: x.addr.args x.a false
  | .kick x =>
    aB x.b cVal 1 :: (match x.addr with
      | .modulo t _ => [aA x.a [.uni] 1, aT t [.modr] 1]
      | _ => [aA x.a cVal 1])
  | .cseal x => [aD x.d [.uni] 1]
  | .cwait x => [aB x.b cVal 1]
  | .sbind x => [aA x.a cVal 1]
  | .srel x | .awaitSlot x => [aB x.b cVal 1]
  | .awaitObj x => [aA x.a cVal 1]
  | .astatObj x => [aD x.d [.uni] 1, aA x.a cVal 1]
  | .astatSlot x => [aD x.d [.uni] 1, aB x.b cVal 1]
  | .nbreq x | .attq x => [aA x.a cVal 1]
  | .kvget x => [aD x.d [.uni] 1, aA x.a cVal 1, aB x.b cVal 1]
  | .kvput x => [aA x.a cVal 1]
  | .kvlnkSucc x | .kvlnkTok x => [aA x.a cVal 1, aB x.b cVal 1]
  | .lspawn x => [aA x.a cSrc 1, aB x.b cSrc 1]
  | .lesc x => [aA x.a cSrc 1]
  | .ldone x => [⟨0, x.d, [.bnd], 1, true, false⟩, aB x.b [.vec, .uni, .imm] x.sz.regs]
  | .lstat x => [aD x.d [.uni] 1]
  | .syscall x => [aD x.d [.uni] 1, aA x.a cSrc 2, aB x.b cSrc 2]
  | .featq x => [aD x.d [.uni] 1]
  | .tnode x => [aA x.a cVal 1, aB x.b (if x.zero then [.zero] else cVal) 1]
  | .tset x => [aA x.a cVal 1, aB x.b cVal 1]
  | .rswap x => [aD x.d [.uni] 1, aA x.a cVal 1, aB x.b cVal 1, aT x.t cVal 1]
  | .rcopy x => [aD x.d [.uni] 1, aA x.a cVal 1, aB x.b cVal 1]
  | .rdrop x | .rdropNode x | .tinv x | .ldreset x => [aA x.a cVal 1]
  | .diagstHbm x | .diagstSram x | .diagldHbm x | .diagldSram x => [aA x.a cVal 1, aB x.b cVal 1]
  | .swrite x => [aA x.a cVal 1, aB x.b [.uni, .imm, .zero] 1]
  | .privrd x => [aD x.d [.uni] 1, aB x.b [.uni, .imm, .zero] 1]
  | _ => []

/-- Does the opcode take an operand of this class in this field (R177): `zero` accepts the zero field. -/
def Arg.classOk (a : Arg) : Bool := a.acc.contains a.o.cls || (a.acc.contains .zero && a.o == .v 0)

/-- May a uniform destination stand beside a vector source (R180, R221, R245, R250). -/
def mixOk : Instr → Bool
  | .mov _ | .syscall _ => true
  | _ => false

/-- Do two spans of vector registers share a register. -/
def spansMeet (a : Nat) (n : Nat) (b : Nat) (m : Nat) : Bool := a < b + m && b < a + n

/-- The first register of a vector operand. -/
def Opnd.vIdx : Opnd → Nat
  | .v n => n.toNat
  | _ => 0

/-- The matrix operands that may not share registers (R305). -/
def octetClash (d a b : Opnd) (k : MKind) : Bool :=
  d.isV && ((a.isV && spansMeet d.vIdx 8 a.vIdx k.regsA) || (b.isV && spansMeet d.vIdx 8 b.vIdx k.regsB))

/-- Fields that break a class rule. -/
def classErrs (i : Instr) : List Nat :=
  let as := args i
  let bad := (as.filter fun a => !a.classOk).map Arg.f
  let uniD := as.any fun a => a.f == 0 && a.wr && a.o.isG
  let mix := if uniD && !mixOk i then (as.filter fun a => a.f != 0 && a.o.isV && !a.acc.contains .zero).map Arg.f else []
  let clash := match i with
    | .mma x => if octetClash x.d x.a x.b x.kind then [0] else []
    | .mmam x => if octetClash x.d x.a x.b x.kind then [0] else []
    | _ => []
  bad ++ mix ++ clash

/-- The least of a list of fields, if any. -/
def leastField : List Nat → Option Nat
  | [] => none
  | f :: fs => match leastField fs with
    | none => some f
    | some g => some (min f g)

/-- OPCLASS, with its detail (R192). -/
def classErr (i : Instr) : Option Nat := leastField (classErrs i)

/-- REGALIGN, with its detail (R69, R192): a span of w registers begins at a multiple of w. -/
def alignErr (i : Instr) : Option Nat :=
  leastField (((args i).filter fun a => a.o.isV && a.o.vIdx % a.w != 0).map Arg.f)

/-- REGBUDGET, with its detail (R70). -/
def budgetErr (budget : Nat) (i : Instr) : Option Nat :=
  leastField (((args i).filter fun a => a.o.isV && a.o.vIdx + a.w > budget && !a.acc.contains .zero).map Arg.f)

/-- The integer types of R226 where all are allowed, without .sat or X. -/
def intOk (x : BitVec 3) (sat : Bool) (ty : Ty) (satOk : Bool) (types : Ty → Bool) : Bool :=
  x == 0 && (!sat || satOk) && types ty

/-- MOD of a float instruction (R232). -/
def fltOk (rnd : Rnd) (ty : Ty) (rndOk : Bool) : Bool := ty == .f32 && rnd != .sr && (rndOk || rnd == .rne)

/-- MOD of a packed instruction (R232, R238). -/
def pckOk (rnd : Rnd) (ty : Ty) : Bool := (ty == .bf16 || ty == .f16) && rnd != .sr

/-- The pairs and modifiers CVT defines (R239, R240, R242, R208). -/
def cvtOk (x : CvtA) : Bool :=
  let d := x.dty
  let s := x.sty
  x.dsel.toNat < d.slots && x.ssel.toNat < s.slots &&
  (x.a.cls != .imm || x.ssel == 0) &&
  (if d == .e8m0 || s == .e8m0 then
    !x.sat && ((d == .e8m0 && s == .f32 && (x.rnd == .rz || x.rnd == .ru)) || (d == .f32 && s == .e8m0 && x.rnd == .rne))
  else
    (d != .e2m1 || s == .f32 || s == .bf16 || s == .f16) &&
    (s != .e2m1 || d == .f32 || d == .bf16 || d == .f16) &&
    (x.rnd == .rne || !((d.isInt && s.isInt) || (d.kind == .flt && s.kind == .flt && s.width < d.width))) &&
    (x.rnd != .sr || d == .bf16 || d == .e4m3 || d == .e5m2) &&
    (!x.sat || !(d.isInt == s.isInt && s.width ≤ d.width)))

/-- A tag format and size of a store (R274), with a tag (R275). -/
def tagOk (tf : Tf) (sz : Sz) (d : Opnd) : Bool :=
  !sz.signed && tf.bits ≤ 8 * sz.bytes && (tf != .none || d.cls != .bnd || d.tag == 0)

/-- Far qualifiers (R286): a scope needs an ordering. -/
def ordOk (sc : Scope) (o : Ord) (os : List Ord) : Bool := os.contains o && (o != .none || sc == .grp)

/-- MOD of a REDUCE or SCAN (R263). -/
def redOk (op : RedOp) (ty : Ty) : Bool :=
  (ty.isWide || ty == .f32) && !(ty == .f32 && (op == .and || op == .or || op == .xor))

/-- Is the addressing mode one with a member (R274). -/
def Addr.isModulo : Addr → Bool
  | .modulo _ _ => true
  | _ => false

/-- The modifier values an opcode's chapter defines (R191 and the tables of each class) (DEDUCED, log 18). -/
def modOk : Instr → Bool
  | .iadd x | .isub x | .imul x => intOk x.x x.sat x.ty true Ty.isInt
  | .imulh x | .imin x | .imax x | .and x | .or x | .xor x | .andn x => intOk x.x x.sat x.ty false Ty.isInt
  | .imad x => intOk x.x x.sat x.ty true Ty.isInt
  | .iabs x | .ineg x => intOk x.x x.sat x.ty true Ty.isSigned
  | .not x => intOk x.x x.sat x.ty false Ty.isInt
  | .shl x | .shr x | .sar x | .rol x | .bfx x => intOk x.x x.sat x.ty false Ty.isWide
  | .popc x | .clz x | .brev x => intOk x.x x.sat x.ty false Ty.isWide
  | .bfi x => intOk x.x x.sat x.ty false Ty.isWide
  | .bsel x => intOk x.x x.sat x.ty false (· == .n32)
  | .icmp x => x.x.toNat < 6 && !x.sat && x.ty.isInt
  | .lea x => !x.sat && x.ty.isWide
  | .iaddx x => x.x.toNat < 2 && !x.sat && (x.ty == .n32 || x.ty == .n64)
  | .fadd x | .fsub x | .fmul x | .fscale x => fltOk x.rnd x.ty true
  | .ffma x => fltOk x.rnd x.ty true
  | .fmin x | .fmax x | .lsemrg x => fltOk x.rnd x.ty false
  | .fcmp x => x.ty == .f32
  | .frcp x | .frsq x | .fsqrt x | .fex2 x | .flg2 x | .fsin x | .fcos x => fltOk x.rnd x.ty false
  | .fclass x => fltOk x.rnd x.ty false
  | .padd2 x | .pmul2 x => pckOk x.rnd x.ty
  | .pfma2 x => pckOk x.rnd x.ty
  | .cvt x => cvtOk x
  | .movi x => !x.hi || x.wide
  | .reduce x => redOk x.op x.ty
  | .scan x => redOk x.op x.ty
  | .ldw x => !x.mem
  | .lda x => !(x.mem && x.addr.isModulo)
  | .ldc x => !x.mem && x.fe == .plain
  | .sta x => !(x.mem && x.addr.isModulo) && tagOk x.tf x.sz x.d
  | .stc x => !x.mem && tagOk x.tf x.sz x.d
  | .acc x => !x.mem && x.tf == .f32 && tagOk x.tf x.sz x.d
  | .ldfrag x => (!x.mem || x.buf == .a) && !(x.few && x.buf == .c)
  | .stfrag x =>
    x.buf != .w && (x.kind == .op || x.kind == .acc) && (!x.mem || x.buf == .a) &&
    (x.kind == .acc || x.d.cls != .bnd || x.d.tag == 0)
  | .feset x | .feclr x => !x.mem || x.bufA
  | .feprobe x => !x.mem || x.bufA
  | .sts x => !x.sz.signed
  | .fld x => ordOk x.scope x.ord [.none, .acq]
  | .fst x => ordOk x.scope x.ord [.none, .rel] && tagOk x.tf x.sz x.d
  | .fatom x =>
    ordOk x.scope x.ord [.none, .acq, .rel, .ar] && (x.sz == .b32 || x.sz == .b64) &&
    (x.op != .fadd || x.sz == .b32)
  | .fcas x => ordOk x.scope x.ord [.none, .acq, .rel, .ar] && (x.sz == .b32 || x.sz == .b64 || x.sz == .b128)
  | .fence x => x.ord != .none
  | .mdrainRaw x => x.d.cls != .bnd || x.d.tag == 0
  | .ldone x => (x.sz == .b32 || x.sz == .b64 || x.sz == .b128) && tagOk x.tf x.sz x.d
  | .kick x => match x.addr with
    | .post _ => false
    | _ => true
  | _ => true

/-- The guard that RCV, TBAR and GBAR require (R260). -/
def guardOk : Instr → Bool
  | .rcv h | .gbar h => h.gp == 7 && !h.neg
  | .tbar x => x.h.gp == 7 && !x.h.neg
  | _ => true

/-! Privileged registers (R397). -/

/-- Level and scope of a privileged register. -/
structure PrivReg where
  pkg : Bool
  mgmt : Bool
  ro : Bool
  deriving DecidableEq, Repr

/-- The register of a number, none where it is unassigned (R397). -/
def privReg (n : Nat) : Option PrivReg :=
  if n = 1 ∨ n = 3 then some ⟨false, false, false⟩
  else if n = 2 ∨ n = 4 ∨ n = 5 ∨ (0x100 ≤ n ∧ n < 0x180) ∨ (0x200 ≤ n ∧ n < 0x400) then some ⟨false, false, true⟩
  else if n = 6 ∨ n = 7 ∨ n = 0x400 ∨ n = 0x401 ∨ n = 0x405 ∨ (0x410 ≤ n ∧ n < 0x420) then some ⟨false, true, false⟩
  else if (0x402 ≤ n ∧ n ≤ 0x404) ∨ (0x800 ≤ n ∧ n < 0x808) ∨ (0x810 ≤ n ∧ n ≤ 0x814) ∨ n = 0x816 ∨ n = 0x818 ∨ n = 0x819
      ∨ n = 0x81B ∨ (0x820 ≤ n ∧ n < 0x824) ∨ n = 0x830 ∨ n = 0x831 ∨ (0x840 ≤ n ∧ n < 0x848) then some ⟨true, true, false⟩
  else if n = 0x815 ∨ n = 0x817 ∨ n = 0x81A ∨ n = 0x81C ∨ (0x900 ≤ n ∧ n < 0xA68) then some ⟨true, true, true⟩
  else none

/-- RSVFLD of SWRITE and PRIVRD (R397, R398): a nonzero B where the register takes no index, a logical device where it has package
scope. -/
def privField (num ld : Nat) (b : Opnd) : Option Nat :=
  match privReg num with
  | none => none
  | some r => if num ≠ 0x404 ∧ b ≠ .v 0 then some 2 else if r.pkg ∧ ld ≠ 0 then some 4 else none

/-- ILLOP of SWRITE and PRIVRD that the word alone shows (R398): 5 for an unassigned number, 6 for an SWRITE to a read-only
register. -/
def privNum : Instr → Option Nat
  | .swrite x => match privReg x.num.toNat with
    | none => some 5
    | some r => if r.ro then some 6 else none
  | .privrd x => if (privReg x.num.toNat).isNone then some 5 else none
  | _ => none

/-- Fields that a form leaves zero, as syntax: the window of values the encoding can hold. -/
def canonical : Instr → Bool
  | .kick x => match x.addr with
    | .modulo _ inc => inc == 0
    | _ => true
  | .call x => x.fs.toNat ≤ 256
  | .callx x => x.fs.toNat ≤ 256
  | .lstat x => x.sel == .arr || x.sel == .bin || x.rung == 0
  | .tnode x => !x.zero || x.b == .v 0
  | .swrite x => (privField x.num.toNat x.ld.toNat x.b).isNone
  | .privrd x => (privField x.num.toNat x.ld.toNat x.b).isNone
  | _ => true

/-- Level that may issue the instruction (R385). -/
inductive Level where
  | user | sup | mgmt
  deriving DecidableEq, Repr, Inhabited

/-- The level an instruction needs (R383, R385). -/
def levelOf : Instr → Level
  | .eret _ | .eretSkip _ | .tnode _ | .tset _ | .rswap _ | .rcopy _ | .rdrop _ | .rdropNode _ | .tinv _
  | .swrite _ | .privrd _ => .sup
  | .ldreset _ | .diagstHbm _ | .diagstSram _ | .diagldHbm _ | .diagldSram _ => .mgmt
  | _ => .user

/-- PRIV with detail 1: an opcode of 0xC0 to 0xCB issued at user level (R192, R383). PRIV with detail 2 is a check of
the instruction itself. -/
def privErr (l : Level) (i : Instr) : Bool := l == .user && levelOf i != .user

end Sys2Proof
end

