-- ==== Sys2Proof/WellFormed.lean ====
section
/-! DEFINITION. Well-formed instructions: the instruction forms whose fields the encodings of spec/07 to spec/20 admit and
which trap on no encoding check of R192 but PRIV, REGBUDGET, RUNHAZ and FRONTIER. -/

namespace Sys2Proof

/-- Is the row an instruction form, held in a 96-bit word, rather than a command or an event. -/
def isWord : Instr → Bool
  | .powerOn | .powerDown | .cxlConventionalReset | .pkgrst _ | .powerLimitExceeded | .thermalIssueLimit _
  | .thermalHalt _ | .expanderLinkDown _ | .explink _ _ | .expanderLinkTrained _ | .networkPortLinkChange _ _ _
  | .driveError _ _ | .issue _ _ | .switchMarkerUnpark _ | .issueDelayExpire _ | .rcvComplete _ _
  | .collectiveConverge _ _ | .feWaitSatisfied _ _ | .stackSpill _ _ | .stackFill _ _ | .farAccessPerformed _
  | .farTimeout _ | .hostRefusal _ | .kickRoom _ _ | .csealRoom _ _ | .cwaitReturn _ _ | .copyLinear _ | .copyTiled _
  | .copyGather _ | .copyScatter _ | .copyImage _ | .stread _ | .stwrite _ | .stflush _ | .copyRequestDone _
  | .arrivalDecrement _ | .awaitReturn _ _ | .stile _ _ | .stileFillDone _ _ | .sgather _ _ | .sloop _ _ | .snext _ _
  | .scond _ _ | .sjmp _ _ | .swaitr _ _ | .swaitrReleased _ _ | .swaitp _ _ | .swaitpLatched _ _ | .ssig _ _
  | .shalt _ _ | .snop _ _ | .streamBadWord _ _ | .streamAutoEnd _ _ | .nbCopy _ | .nbRelayout _ | .nbReduce _
  | .nbScale _ | .attentionCommand _ | .lspawnRoom _ _ | .lescRoom _ _ | .binLaunch _ _ _ | .binStarveExpire _ _ _
  | .commitRun _ _ | .ladderPatch _ _ _ | .syscallPost _ | .syscallSwapOut _ | .syscallGangReturn _ | .replytok _ _ _
  | .handlerWatchdog _ | .reclaimRelease _ | .rqcons _ _ | .treeportTnode _ _ | .treeportTset _ _
  | .treeportRswap _ _ | .treeportRcopy _ _ | .treeportRdrop _ _ | .treeportTinv _ _ | .ldresetComplete _
  | .clearPendingLine _ | .registerWrite _ _ | .queueDescriptorWrite _ _ _ | .queueDoorbell _ _ | .launch _ | .loop _
  | .endloop _ | .cond _ | .jump _ | .wait _ | .waitSatisfied _ | .write _ | .drain _ | .drainDone _ | .halt _
  | .pswapOut _ | .pswapIn _ | .migrate _ | .migrateResult _ | .invalidCommand _ | .gridDependencesMet _ _
  | .dispatchPlace | .teamStart _ | .teamExit _ | .writeback _ | .gridComplete _ _ | .preemptTrigger _
  | .preemptSafeSave _ | .prewinExpire _ | .preemptRetry _ | .preemptReturn _ | .deadlockTest _ | .gangRelaunch _
  | .endgrid _ _ | .hostHdmRead _ _ _ | .hostHdmWrite _ _ _ | .netTailWrite _ _ _ | .netWrite _ | .netWriteNotify _
  | .netRead _ | .netReceive _ | .netCompletion _ | .netRetransmitTimeout _ | .hotnessIntervalEnd _ | .patrolScrub _ _
  | .hotListScrub _ _ | .rowCloseTimeout _ _ _ | .dieCooled _ | .powerDrawWithinLimit | .nimbusHartAccess _ _
  | .dramRefresh _ _ _ => false
  | _ => true

/-- The instruction has a word, and that word traps on no check that its fields alone decide. -/
def WellFormed (i : Instr) : Bool :=
  isWord i && modOk i && guardOk i && canonical i && (classErr i).isNone && (alignErr i).isNone

end Sys2Proof
end

