-- ==== Sys2Proof/Decode.lean ====
section
/-! DEFINITION. The decoder of instruction words (spec/07_instruction_format.md R174 to R192 and the encoding tables of the
class chapters), the encoder written from the same tables, and the layout of a word in memory (R175). -/

namespace Sys2Proof

/-- The fields of an instruction word (R174). -/
structure Raw where
  opc : BitVec 8
  md : BitVec 8
  d : BitVec 10
  a : BitVec 10
  b : BitVec 10
  imm : BitVec 32
  gp : BitVec 3
  neg : Bool
  sw : Bool
  lr : BitVec 2
  yh : Bool
  dly : BitVec 4
  top : BitVec 6
  deriving DecidableEq, Repr

/-- The fields of a word (R174). -/
def Raw.ofWord (w : InsWord) : Raw where
  opc := w.extractLsb' 0 8
  md := w.extractLsb' 8 8
  d := w.extractLsb' 16 10
  a := w.extractLsb' 26 10
  b := w.extractLsb' 36 10
  imm := w.extractLsb' 46 32
  gp := w.extractLsb' 78 3
  neg := w.getLsbD 81
  sw := w.getLsbD 82
  lr := w.extractLsb' 83 2
  yh := w.getLsbD 85
  dly := w.extractLsb' 86 4
  top := w.extractLsb' 90 6

/-- The word of given fields (R174). -/
def Raw.toWord (r : Raw) : InsWord :=
  (r.top ++ r.dly ++ BitVec.ofBool r.yh ++ r.lr ++ BitVec.ofBool r.sw ++ BitVec.ofBool r.neg ++ r.gp ++ r.imm ++ r.b
    ++ r.a ++ r.d ++ r.md ++ r.opc).cast (by decide)

/-- The three 32-bit words of R175, each little-endian, are the 12 bytes of the word from the lowest. -/
def wordBytes (w : InsWord) : List Byte := (List.range 12).map fun i => w.extractLsb' (8 * i) 8

/-- The word that 12 bytes hold (R175). -/
def wordOfBytes (bs : List Byte) : InsWord :=
  bs.reverse.foldl (fun (acc : InsWord) b => (acc <<< 8) ||| b.zeroExtend 96) 0#96

/-! Operand fields (R177). -/

/-- The operand a field names. A uniform field's bits [7:6] are not part of it. -/
def Opnd.ofBits (f : BitVec 10) : Opnd :=
  let c := f.extractLsb' 8 2
  if c = 0 then .v (f.extractLsb' 0 8)
  else if c = 1 then .g (f.extractLsb' 0 6)
  else if c = 2 then .sp (f.extractLsb' 4 4) (f.extractLsb' 0 4)
  else .im (f.extractLsb' 0 8)

/-- The field of an operand. -/
def Opnd.bits : Opnd → BitVec 10
  | .v n => 0#2 ++ n
  | .g n => 4#4 ++ n
  | .sp s i => 2#2 ++ s ++ i
  | .im w => 3#2 ++ w

/-! Enumerations. Each pair names a code in both directions. -/

def Ty.code : Ty → BitVec 4
  | .s8 => 0 | .s16 => 1 | .s32 => 2 | .s64 => 3 | .n8 => 4 | .n16 => 5 | .n32 => 6 | .n64 => 7
  | .f32 => 8 | .bf16 => 9 | .f16 => 10 | .e4m3 => 11 | .e5m2 => 12 | .e2m1 => 13 | .e8m0 => 14

/-- R220: code 0xF is undefined. -/
def Ty.of (c : BitVec 4) : Option Ty :=
  [Ty.s8, .s16, .s32, .s64, .n8, .n16, .n32, .n64, .f32, .bf16, .f16, .e4m3, .e5m2, .e2m1, .e8m0][c.toNat]?

def Rnd.code : Rnd → BitVec 3
  | .rne => 0 | .rz => 1 | .ru => 2 | .rd => 3 | .sr => 4

/-- R208: codes 101 to 111 are undefined. -/
def Rnd.of (c : BitVec 3) : Option Rnd := [Rnd.rne, .rz, .ru, .rd, .sr][c.toNat]?

def FCond.code : FCond → BitVec 4
  | .eq => 0 | .ne => 1 | .lt => 2 | .le => 3 | .gt => 4 | .ge => 5 | .num => 6 | .nan => 7

/-- R236. -/
def FCond.of (c : BitVec 4) : Option FCond := [FCond.eq, .ne, .lt, .le, .gt, .ge, .num, .nan][c.toNat]?

def MovW.code : MovW → BitVec 2
  | .b32 => 0 | .b64 => 1 | .b128 => 2

/-- R244, R263. -/
def MovW.of (c : BitVec 2) : Option MovW := [MovW.b32, .b64, .b128][c.toNat]?

def PsetOp.code : PsetOp → BitVec 2
  | .and => 0 | .or => 1 | .xor => 2

/-- R244. -/
def PsetOp.of (c : BitVec 2) : Option PsetOp := [PsetOp.and, .or, .xor][c.toNat]?

def Special.code : Special → BitVec 8
  | .laneid => 0 | .groupid => 1 | .teamid => 2 | .teamx => 3 | .teamy => 4 | .teamz => 5 | .ngroups => 6
  | .member => 7 | .gridid => 8 | .core => 9 | .cluster => 10 | .die => 11 | .ldid => 12 | .cycles => 13
  | .rootgen => 14 | .bndflag => 15 | .srstate => 16 | .entrymask => 17

/-- R250: 0x12 to 0xFF are undefined. -/
def Special.of (c : BitVec 8) : Option Special :=
  [Special.laneid, .groupid, .teamid, .teamx, .teamy, .teamz, .ngroups, .member, .gridid, .core, .cluster, .die,
    .ldid, .cycles, .rootgen, .bndflag, .srstate, .entrymask][c.toNat]?

def PartSz.code : PartSz → BitVec 2
  | .sz4 => 1 | .sz8 => 2 | .sz16 => 3

/-- R263: 00 is undefined. -/
def PartSz.of (c : BitVec 2) : Option PartSz := [none, some PartSz.sz4, some .sz8, some .sz16][c.toNat]?.join

def VoteMode.code : VoteMode → BitVec 4
  | .all => 0 | .any => 1 | .uni => 2 | .ballot => 3

/-- R263. -/
def VoteMode.of (c : BitVec 4) : Option VoteMode := [VoteMode.all, .any, .uni, .ballot][c.toNat]?

def ShflMode.code : ShflMode → BitVec 4
  | .idx => 0 | .up => 1 | .down => 2 | .xor => 3

/-- R263. -/
def ShflMode.of (c : BitVec 4) : Option ShflMode := [ShflMode.idx, .up, .down, .xor][c.toNat]?

def RedOp.code : RedOp → BitVec 4
  | .add => 0 | .min => 1 | .max => 2 | .and => 3 | .or => 4 | .xor => 5

/-- R263. -/
def RedOp.of (c : BitVec 4) : Option RedOp := [RedOp.add, .min, .max, .and, .or, .xor][c.toNat]?

def Sz.code : Sz → BitVec 3
  | .b8 => 0 | .b16 => 1 | .b32 => 2 | .b64 => 3 | .b128 => 4 | .s8 => 5 | .s16 => 6

/-- R274: 111 is undefined. -/
def Sz.of (c : BitVec 3) : Option Sz := [Sz.b8, .b16, .b32, .b64, .b128, .s8, .s16][c.toNat]?

def Fe.code : Fe → BitVec 2
  | .plain => 0 | .fe => 1 | .clr => 2 | .feclr => 3

/-- R274. -/
def Fe.of (c : BitVec 2) : Option Fe := [Fe.plain, .fe, .clr, .feclr][c.toNat]?

def Tf.code : Tf → BitVec 2
  | .none => 0 | .f32 => 1 | .bf16 => 2 | .f16 => 3

/-- R274. -/
def Tf.of (c : BitVec 2) : Option Tf := [Tf.none, .f32, .bf16, .f16][c.toNat]?

def FragKind.code : FragKind → BitVec 2
  | .op => 0 | .opt16 => 1 | .opt8 => 2 | .acc => 3

/-- R282. -/
def FragKind.of (c : BitVec 2) : Option FragKind := [FragKind.op, .opt16, .opt8, .acc][c.toNat]?

def Buf.code : Buf → BitVec 2
  | .w => 0 | .a => 1 | .c => 2

/-- R282: 11 is undefined. -/
def Buf.of (c : BitVec 2) : Option Buf := [Buf.w, .a, .c][c.toNat]?

def Scope.code : Scope → BitVec 3
  | .grp => 0 | .team => 1 | .gang => 2 | .die => 3 | .dev => 4 | .sys => 5

/-- R286: 110 and 111 are undefined. -/
def Scope.of (c : BitVec 3) : Option Scope := [Scope.grp, .team, .gang, .die, .dev, .sys][c.toNat]?

def Ord.code : Ord → BitVec 2
  | .none => 0 | .acq => 1 | .rel => 2 | .ar => 3

/-- R286. -/
def Ord.of (c : BitVec 2) : Option Ord := [Ord.none, .acq, .rel, .ar][c.toNat]?

def AtomOp.code : AtomOp → BitVec 4
  | .add => 0 | .smin => 1 | .smax => 2 | .umin => 3 | .umax => 4 | .and => 5 | .or => 6 | .xor => 7 | .exch => 8
  | .fadd => 9

/-- R290: 0xA to 0xF are undefined. -/
def AtomOp.of (c : BitVec 4) : Option AtomOp :=
  [AtomOp.add, .smin, .smax, .umin, .umax, .and, .or, .xor, .exch, .fadd][c.toNat]?

def MKind.code : MKind → BitVec 5
  | .f16 => 0 | .bf16 => 1 | .e4m3 => 2 | .e4m3e5m2 => 3 | .e5m2e4m3 => 4 | .e5m2 => 5 | .e2m1 => 6 | .e4m3cb2 => 7
  | .e5m2cb2 => 8

/-- R303: 0x09 to 0x1F are undefined. -/
def MKind.of (c : BitVec 5) : Option MKind :=
  [MKind.f16, .bf16, .e4m3, .e4m3e5m2, .e5m2e4m3, .e5m2, .e2m1, .e4m3cb2, .e5m2cb2][c.toNat]?

def LstatSel.code : LstatSel → BitVec 2
  | .base => 0 | .arr => 1 | .bin => 2 | .drop => 3

/-- R368. -/
def LstatSel.of (c : BitVec 2) : Option LstatSel := [LstatSel.base, .arr, .bin, .drop][c.toNat]?

/-! The decoder. -/

/-- Guard and scheduling fields. -/
def Raw.h (r : Raw) : Hdr := ⟨r.neg, r.gp, r.sw, r.lr, r.yh, r.dly⟩
/-- Operand D. -/
def Raw.oD (r : Raw) : Opnd := .ofBits r.d
/-- Operand A. -/
def Raw.oA (r : Raw) : Opnd := .ofBits r.a
/-- Operand B. -/
def Raw.oB (r : Raw) : Opnd := .ofBits r.b
/-- IMM[9:0]. -/
def Raw.tbits (r : Raw) : BitVec 10 := r.imm.extractLsb' 0 10
/-- Operand T (R174). -/
def Raw.oT (r : Raw) : Opnd := .ofBits r.tbits
/-- IMM[31:10]. -/
def Raw.ext (r : Raw) : BitVec 22 := r.imm.extractLsb' 10 22
/-- MOD[3:0] of the byte: word bits [11:8]. -/
def Raw.m03 (r : Raw) : BitVec 4 := r.md.extractLsb' 0 4
/-- Word bits [15:12]. -/
def Raw.m47 (r : Raw) : BitVec 4 := r.md.extractLsb' 4 4
/-- Word bits [9:8]. -/
def Raw.m01 (r : Raw) : BitVec 2 := r.md.extractLsb' 0 2
/-- Word bits [10:8]. -/
def Raw.m02 (r : Raw) : BitVec 3 := r.md.extractLsb' 0 3
/-- Word bits [12:11]. -/
def Raw.m34 (r : Raw) : BitVec 2 := r.md.extractLsb' 3 2
/-- One bit of MOD, numbered from word bit 8. -/
def Raw.mb (r : Raw) (i : Nat) : Bool := r.md.getLsbD i

def Raw.iUn (r : Raw) : Option IUn :=
  (Ty.of r.m03).map fun ty => ⟨r.h, r.md.extractLsb' 5 3, r.mb 4, ty, r.oD, r.oA⟩

def Raw.iBin (r : Raw) : Option IBin :=
  (Ty.of r.m03).map fun ty => ⟨r.h, r.md.extractLsb' 5 3, r.mb 4, ty, r.oD, r.oA, r.oB⟩

def Raw.iTern (r : Raw) : Option ITern :=
  (Ty.of r.m03).map fun ty => ⟨r.h, r.md.extractLsb' 5 3, r.mb 4, ty, r.oD, r.oA, r.oB, r.oT⟩

def Raw.iBsel (r : Raw) : Option IBsel :=
  (Ty.of r.m03).map fun ty => ⟨r.h, r.md.extractLsb' 5 3, r.mb 4, ty, r.oD, r.oA, r.oB, r.imm.extractLsb' 0 20⟩

def Raw.fUn (r : Raw) : Option FUn :=
  (Rnd.of (r.md.extractLsb' 4 3)).bind fun rnd => (Ty.of r.m03).map fun ty => ⟨r.h, rnd, ty, r.oD, r.oA⟩

def Raw.fBin (r : Raw) : Option FBin :=
  (Rnd.of (r.md.extractLsb' 4 3)).bind fun rnd => (Ty.of r.m03).map fun ty => ⟨r.h, rnd, ty, r.oD, r.oA, r.oB⟩

def Raw.fTern (r : Raw) : Option FTern :=
  (Rnd.of (r.md.extractLsb' 4 3)).bind fun rnd =>
    (Ty.of r.m03).map fun ty => ⟨r.h, rnd, ty, r.oD, r.oA, r.oB, r.oT⟩

def Raw.fCmp (r : Raw) : Option FCmpA :=
  (FCond.of r.m47).bind fun c => (Ty.of r.m03).map fun ty => ⟨r.h, c, ty, r.oD, r.oA, r.oB⟩

def Raw.fClass (r : Raw) : Option FClassA :=
  (Rnd.of (r.md.extractLsb' 4 3)).bind fun rnd =>
    (Ty.of r.m03).map fun ty => ⟨r.h, rnd, ty, r.oD, r.oA, r.imm.extractLsb' 0 9⟩

def Raw.cvt (r : Raw) : Option CvtA :=
  (Rnd.of (r.md.extractLsb' 4 3)).bind fun rnd => (Ty.of r.m03).bind fun dty =>
    (Ty.of (r.imm.extractLsb' 0 4)).map fun sty =>
      ⟨r.h, r.mb 7, rnd, dty, sty, r.imm.extractLsb' 7 3, r.imm.extractLsb' 4 3, r.oD, r.oA⟩

/-- The addressing mode of R274, or none for AM 11. -/
def Raw.addr (r : Raw) : Option Addr :=
  let am : BitVec 2 := r.md.extractLsb' 5 2
  if am = 0 then some (.off r.imm)
  else if am = 1 then some (.post r.imm)
  else if am = 2 then some (.modulo r.oT r.ext)
  else none

def Raw.ld (r : Raw) : Option LdA :=
  r.addr.bind fun ad => (Fe.of r.m34).bind fun f => (Sz.of r.m02).map fun sz => ⟨r.h, r.mb 7, f, sz, r.oD, r.oA, ad⟩

def Raw.st (r : Raw) : Option StA :=
  r.addr.bind fun ad => (Tf.of r.m34).bind fun tf =>
    (Sz.of r.m02).map fun sz => ⟨r.h, r.mb 7, tf, sz, r.oD, r.oA, r.oB, ad⟩

def Raw.bar (r : Raw) : Option BarA :=
  if r.md = 0 then some ⟨r.h, r.oA, r.oB, r.imm.extractLsb' 0 12⟩ else none

def Raw.fes (r : Raw) : FesA := ⟨r.h, r.mb 7, r.mb 0, r.oA, r.oB, r.imm⟩

def Raw.scopeOrd (r : Raw) : Option (Scope × Ord × Sz) :=
  (Scope.of (r.md.extractLsb' 5 3)).bind fun sc => (Ord.of r.m34).bind fun o => (Sz.of r.m02).map fun sz => (sc, o, sz)

/-- MOD 0x00 where a chapter defines no other value (R191). -/
def Raw.zeroMod {α : Type} (r : Raw) (x : α) : Option α := if r.md = 0 then some x else none

/-- Integer class (R225, R226). -/
def buildInt (r : Raw) : Option Instr :=
  match r.opc.toNat with
  | 0x00 => r.iBin.map .iadd
  | 0x01 => r.iBin.map .isub
  | 0x02 => r.iBin.map .imul
  | 0x03 => r.iBin.map .imulh
  | 0x04 => r.iTern.map .imad
  | 0x05 => r.iBin.map .imin
  | 0x06 => r.iBin.map .imax
  | 0x07 => r.iUn.map .iabs
  | 0x08 => r.iUn.map .ineg
  | 0x09 => r.iBin.map .and
  | 0x0A => r.iBin.map .or
  | 0x0B => r.iBin.map .xor
  | 0x0C => r.iBin.map .andn
  | 0x0D => r.iUn.map .not
  | 0x0E => r.iBin.map .shl
  | 0x0F => r.iBin.map .shr
  | 0x10 => r.iBin.map .sar
  | 0x11 => r.iBin.map .rol
  | 0x12 => r.iUn.map .popc
  | 0x13 => r.iUn.map .clz
  | 0x14 => r.iUn.map .brev
  | 0x15 => r.iBin.map .bfx
  | 0x16 => r.iTern.map .bfi
  | 0x17 => r.iBsel.map .bsel
  | 0x18 => r.iBin.map .icmp
  | 0x19 => r.iBin.map .lea
  | 0x1A => r.iTern.map .iaddx
  | _ => none

/-- Float and conversion class (R232, R236, R237, R239). -/
def buildFloat (r : Raw) : Option Instr :=
  match r.opc.toNat with
  | 0x20 => r.fBin.map .fadd
  | 0x21 => r.fBin.map .fsub
  | 0x22 => r.fBin.map .fmul
  | 0x23 => r.fTern.map .ffma
  | 0x24 => r.fBin.map .fmin
  | 0x25 => r.fBin.map .fmax
  | 0x26 => r.fCmp.map .fcmp
  | 0x27 => r.fUn.map .frcp
  | 0x28 => r.fUn.map .frsq
  | 0x29 => r.fUn.map .fsqrt
  | 0x2A => r.fUn.map .fex2
  | 0x2B => r.fUn.map .flg2
  | 0x2C => r.fUn.map .fsin
  | 0x2D => r.fUn.map .fcos
  | 0x2E => r.fClass.map .fclass
  | 0x2F => r.fBin.map .fscale
  | 0x30 => r.cvt.map .cvt
  | 0x31 => r.fBin.map .padd2
  | 0x32 => r.fBin.map .pmul2
  | 0x33 => r.fTern.map .pfma2
  | 0x34 => r.fBin.map .lsemrg
  | _ => none

/-- Move class (R244). -/
def buildMove (r : Raw) : Option Instr :=
  match r.opc.toNat with
  | 0x40 => (MovW.of r.m01).map fun w => .mov ⟨r.h, w, r.oD, r.oA⟩
  | 0x41 => some (.movi ⟨r.h, r.mb 2, r.mb 0, r.oD, r.imm⟩)
  | 0x42 => some (.sel ⟨r.h, r.mb 0, r.oD, r.oA, r.oB, r.oT⟩)
  | 0x43 => (PsetOp.of r.m01).map fun op => .pset ⟨r.h, r.mb 4, r.mb 3, op, r.oD, r.oA, r.oB⟩
  | 0x44 => if r.mb 0 then some (.pmovFromv ⟨r.h, r.oA, r.imm.extractLsb' 0 7⟩) else some (.pmovTov ⟨r.h, r.oD⟩)
  | 0x45 => (Special.of r.md).map fun s => .sread ⟨r.h, s, r.oD⟩
  | 0x46 => some (.modset ⟨r.h, r.mb 0, r.oD, r.oA, if r.mb 0 then .v 0 else r.oB⟩)
  | 0x47 => some (.bndset ⟨r.h, r.oD, r.oA, r.oB⟩)
  | _ => none

/-- Control class (R254). -/
def buildControl (r : Raw) : Option Instr :=
  match r.opc.toNat with
  | 0x50 => some (.bra ⟨r.h, r.md, r.imm⟩)
  | 0x51 => some (.brx ⟨r.h, r.md, r.oA⟩)
  | 0x52 => some (.call ⟨r.h, r.md, r.oD, r.imm.extractLsb' 9 23, r.imm.extractLsb' 0 9⟩)
  | 0x53 => some (.callx ⟨r.h, r.md, r.oD, r.oA, r.imm.extractLsb' 0 9⟩)
  | 0x54 => r.zeroMod (.ret ⟨r.h, r.oA⟩)
  | 0x55 => r.zeroMod (.exit r.h)
  | 0x56 => r.zeroMod (.rcv r.h)
  | 0x57 => r.zeroMod (.yield r.h)
  | 0x58 => r.zeroMod (.sleep ⟨r.h, r.imm.extractLsb' 0 24⟩)
  | _ => none

/-- Collectives and barriers (R263, R268, R271). -/
def buildColl (r : Raw) : Option Instr :=
  match r.opc.toNat with
  | 0x60 => (PartSz.of r.m01).map fun z => .part ⟨r.h, z, r.oD⟩
  | 0x61 => (VoteMode.of r.m47).map fun m => .vote ⟨r.h, m, r.oD, r.oA, r.oT⟩
  | 0x62 => (ShflMode.of r.m47).map fun m => .shfl ⟨r.h, m, r.mb 0, r.oD, r.oA, r.oB, r.oT⟩
  | 0x63 => (RedOp.of r.m47).bind fun op => (Ty.of r.m03).map fun ty => .reduce ⟨r.h, op, ty, r.oD, r.oA, r.oT⟩
  | 0x64 => (RedOp.of r.m47).bind fun op =>
      (Ty.of r.m03).map fun ty => .scan ⟨r.h, op, ty, r.imm.getLsbD 10, r.oD, r.oA, r.oT⟩
  | 0x65 => (MovW.of r.m01).map fun w => .bcast ⟨r.h, w, r.oD, r.oA, r.oB, r.oT⟩
  | 0x66 => r.bar.map .bara
  | 0x67 => r.bar.map .barw
  | 0x68 => r.bar.map .bars
  | 0x69 => some (.tbar ⟨r.h, r.mb 0⟩)
  | 0x6A => if r.mb 0 then none else some (.gbar r.h)
  | _ => none

/-- Buffer memory class (R274, R275, R282, R284, R285). -/
def buildBuf (r : Raw) : Option Instr :=
  match r.opc.toNat with
  | 0x70 => r.ld.map .ldw
  | 0x71 => r.ld.map .lda
  | 0x72 => r.st.map .sta
  | 0x73 => r.ld.map .ldc
  | 0x74 => r.st.map .stc
  | 0x75 => r.st.map .acc
  | 0x76 => (Buf.of r.m34).bind fun b =>
      (FragKind.of r.m01).map fun k => .ldfrag ⟨r.h, r.mb 6, r.mb 5, b, k, r.oD, r.oA, r.oB, r.ext⟩
  | 0x77 => (Buf.of r.m34).bind fun b =>
      if r.mb 6 then none else
        (FragKind.of r.m01).map fun k => .stfrag ⟨r.h, r.mb 5, b, k, r.oD, r.oA, r.oB, r.oT, r.ext⟩
  | 0x78 => some (.feset r.fes)
  | 0x79 => some (.feclr r.fes)
  | 0x7A => some (.feprobe ⟨r.h, r.mb 7, r.mb 0, r.oD, r.oA, r.oB, r.imm⟩)
  | 0x7B => (Sz.of r.m02).map fun sz => .lds ⟨r.h, sz, r.oD, r.oA, r.imm⟩
  | 0x7C => (Sz.of r.m02).map fun sz => .sts ⟨r.h, sz, r.oA, r.oB, r.imm⟩
  | _ => none

/-- Far memory class (R286, R287). -/
def buildFar (r : Raw) : Option Instr :=
  match r.opc.toNat with
  | 0x80 => r.scopeOrd.map fun (sc, o, sz) => .fld ⟨r.h, sc, o, sz, r.oD, r.oA, r.ext⟩
  | 0x81 => r.scopeOrd.bind fun (sc, o, sz) =>
      (Tf.of (r.imm.extractLsb' 0 2)).map fun tf => .fst ⟨r.h, sc, o, sz, tf, r.oD, r.oA, r.oB, r.ext⟩
  | 0x82 => r.scopeOrd.bind fun (sc, o, sz) =>
      (AtomOp.of (r.imm.extractLsb' 0 4)).map fun op => .fatom ⟨r.h, sc, o, sz, op, r.oD, r.oA, r.oB, r.ext⟩
  | 0x83 => r.scopeOrd.map fun (sc, o, sz) => .fcas ⟨r.h, sc, o, sz, r.oD, r.oA, r.oB, r.oT, r.ext⟩
  | 0x84 => r.scopeOrd.bind fun (sc, o, sz) => if sz = .b8 then some (.fence ⟨r.h, sc, o⟩) else none
  | _ => none

/-- Matrix class (R305, R309, R311, R313). -/
def buildMat (r : Raw) : Option Instr :=
  match r.opc.toNat with
  | 0x90 => (MKind.of (r.md.extractLsb' 3 5)).map fun k => .mma ⟨r.h, k, r.mb 2, r.oD, r.oA, r.oB⟩
  | 0x91 => (MKind.of (r.md.extractLsb' 3 5)).map fun k => .mmam ⟨r.h, k, r.mb 2, r.oD, r.oA, r.oB, r.oT⟩
  | 0x92 => some (.scacc ⟨r.h, r.oD, r.oA, r.oB, r.oT⟩)
  | 0x93 =>
    if r.m34 = 0 then some (.cbld ⟨r.h, r.mb 7, false, r.oA, r.ext⟩)
    else if r.m34 = 1 then some (.cbld ⟨r.h, r.mb 7, true, r.oA, r.ext⟩)
    else none
  | 0x94 =>
    if r.mb 7 then (if r.mb 6 then none else some (.mdrainRaw ⟨r.h, r.oD, r.oA, r.oT, r.ext⟩))
    else some (.mdrain ⟨r.h, r.mb 6, r.oD, r.oA, r.oB, r.oT, r.ext⟩)
  | 0x95 =>
    if r.mb 6 then none
    else if r.mb 7 then some (.mfillRaw ⟨r.h, r.oD, r.oA, r.ext⟩)
    else some (.mfill ⟨r.h, r.oD, r.oA, r.oB, r.ext⟩)
  | _ => none

/-- Engine class (R323, R340, R351, R357). -/
def buildEng (r : Raw) : Option Instr :=
  match r.opc.toNat with
  | 0xA0 => r.addr.map fun ad => .creq ⟨r.h, r.oA, r.oB, ad⟩
  | 0xA1 => r.addr.map fun ad => .kick ⟨r.h, r.oA, r.oB, match ad with
      | .modulo t _ => .modulo t 0
      | x => x⟩
  | 0xA2 => some (.cseal ⟨r.h, r.oD⟩)
  | 0xA3 => some (.cwait ⟨r.h, r.oB⟩)
  | 0xA4 => some (.sbind ⟨r.h, r.oA, r.imm.extractLsb' 0 3⟩)
  | 0xA5 => some (.sgo ⟨r.h, r.imm.extractLsb' 0 3⟩)
  | 0xA6 => some (.srel ⟨r.h, r.oB, r.imm.extractLsb' 0 3⟩)
  | 0xA7 =>
    if r.mb 0 then (if r.mb 7 then none else some (.awaitSlot ⟨r.h, r.oB, r.imm.extractLsb' 0 3⟩))
    else some (.awaitObj ⟨r.h, r.mb 7, r.oA, r.imm⟩)
  | 0xA8 =>
    if r.mb 0 then (if r.mb 7 then none else some (.astatSlot ⟨r.h, r.oD, r.oB, r.imm.extractLsb' 0 3⟩))
    else some (.astatObj ⟨r.h, r.mb 7, r.oD, r.oA, r.imm⟩)
  | 0xA9 => r.zeroMod (.nbreq ⟨r.h, r.oA, r.imm⟩)
  | 0xAA => r.zeroMod (.attq ⟨r.h, r.oA, r.imm⟩)
  | 0xAB => r.zeroMod (.kvget ⟨r.h, r.oD, r.oA, r.oB⟩)
  | 0xAC => r.zeroMod (.kvput ⟨r.h, r.oA⟩)
  | 0xAD =>
    if r.md = 0 then some (.kvlnkSucc ⟨r.h, r.oA, r.oB⟩)
    else if r.md = 1 then some (.kvlnkTok ⟨r.h, r.oA, r.oB⟩)
    else none
  | _ => none

/-- Ladder and system classes (R368, R385). -/
def buildSys (r : Raw) : Option Instr :=
  match r.opc.toNat with
  | 0xB0 =>
    if r.mb 0 then some (.lspawnClose ⟨r.h, r.md.extractLsb' 1 2⟩)
    else some (.lspawn ⟨r.h, r.md.extractLsb' 1 2, r.oA, r.oB, r.imm⟩)
  | 0xB1 => some (.lesc ⟨r.h, r.oA, r.imm⟩)
  | 0xB2 => (Tf.of r.m34).bind fun tf => (Sz.of r.m02).map fun sz => .ldone ⟨r.h, tf, sz, r.oD, r.oB⟩
  | 0xB3 => (LstatSel.of r.m34).map fun s =>
      .lstat ⟨r.h, s, r.md.extractLsb' 1 2, r.oD, if s = .arr ∨ s = .bin then r.imm.extractLsb' 0 2 else 0⟩
  | 0xB8 => some (.syscall ⟨r.h, r.oD, r.oA, r.oB, r.imm.extractLsb' 0 16⟩)
  | 0xB9 => some (.trap ⟨r.h, r.imm.extractLsb' 0 16⟩)
  | 0xBA => some (.featq ⟨r.h, r.oD, r.imm.extractLsb' 0 8⟩)
  | 0xBB => some (.refresh r.h)
  | 0xBC => some (.bkpt ⟨r.h, r.imm.extractLsb' 0 16⟩)
  | 0xBD => some (.nop r.h)
  | 0xC0 => some (if r.mb 0 then .eretSkip r.h else .eret r.h)
  | 0xC1 => some (.tnode ⟨r.h, r.mb 0, r.oA, if r.mb 0 then .v 0 else r.oB⟩)
  | 0xC2 => some (.tset ⟨r.h, r.m01, r.oA, r.oB, r.tbits⟩)
  | 0xC3 => some (.rswap ⟨r.h, r.oD, r.oA, r.oB, r.oT⟩)
  | 0xC4 => some (.rcopy ⟨r.h, r.oD, r.oA, r.oB⟩)
  | 0xC5 => some (if r.mb 0 then .rdropNode ⟨r.h, r.oA⟩ else .rdrop ⟨r.h, r.oA⟩)
  | 0xC6 => some (.tinv ⟨r.h, r.oA⟩)
  | 0xC7 => some (.ldreset ⟨r.h, r.oA⟩)
  | 0xC8 => some (if r.mb 0 then .diagstSram ⟨r.h, r.oA, r.oB⟩ else .diagstHbm ⟨r.h, r.oA, r.oB⟩)
  | 0xC9 => some (if r.mb 0 then .diagldSram ⟨r.h, r.oA, r.oB⟩ else .diagldHbm ⟨r.h, r.oA, r.oB⟩)
  | 0xCA => some (.swrite ⟨r.h, r.oA, r.oB, r.imm.extractLsb' 0 16, r.imm.extractLsb' 16 4⟩)
  | 0xCB => some (.privrd ⟨r.h, r.oD, r.oB, r.imm.extractLsb' 0 16, r.imm.extractLsb' 16 4⟩)
  | _ => none

/-- The instruction a word's fields give, if the opcode is assigned and every subfield of MOD and IMM that names one
of a list of things is defined. -/
def build (r : Raw) : Option Instr :=
  let n := r.opc.toNat
  if n < 0x20 then buildInt r
  else if n < 0x40 then buildFloat r
  else if n < 0x50 then buildMove r
  else if n < 0x60 then buildControl r
  else if n < 0x70 then buildColl r
  else if n < 0x80 then buildBuf r
  else if n < 0x90 then buildFar r
  else if n < 0xA0 then buildMat r
  else if n < 0xB0 then buildEng r
  else buildSys r

/-- The unassigned primary opcodes of R190 are the others. -/
def assigned (opc : BitVec 8) : Bool :=
  let n := opc.toNat
  n ≤ 0x1A || (0x20 ≤ n && n ≤ 0x34) || (0x40 ≤ n && n ≤ 0x47) || (0x50 ≤ n && n ≤ 0x58) ||
  (0x60 ≤ n && n ≤ 0x6A) || (0x70 ≤ n && n ≤ 0x7C) || (0x80 ≤ n && n ≤ 0x84) || (0x90 ≤ n && n ≤ 0x95) ||
  (0xA0 ≤ n && n ≤ 0xAD) || (0xB0 ≤ n && n ≤ 0xB3) || (0xB8 ≤ n && n ≤ 0xBD) || (0xC0 ≤ n && n ≤ 0xCB)

/-! The encoder. -/

/-- Fields from their parts; what is not given is zero (R178). -/
def mk (opc : BitVec 8) (md : BitVec 8) (h : Hdr) (d a b : BitVec 10) (imm : BitVec 32) : Raw :=
  ⟨opc, md, d, a, b, imm, h.gp, h.neg, h.sw, h.lr, h.yh, h.dly, 0⟩

/-- IMM from its extended field and T. -/
def immT (e : BitVec 22) (t : BitVec 10) : BitVec 32 := e ++ t

def modInt (x : BitVec 3) (sat : Bool) (ty : Ty) : BitVec 8 := x ++ BitVec.ofBool sat ++ ty.code
def modFlt (rnd : Rnd) (ty : Ty) : BitVec 8 := 0#1 ++ rnd.code ++ ty.code

def encIUn (opc : BitVec 8) (x : IUn) : Raw := mk opc (modInt x.x x.sat x.ty) x.h x.d.bits x.a.bits 0 0
def encIBin (opc : BitVec 8) (x : IBin) : Raw := mk opc (modInt x.x x.sat x.ty) x.h x.d.bits x.a.bits x.b.bits 0
def encITern (opc : BitVec 8) (x : ITern) : Raw :=
  mk opc (modInt x.x x.sat x.ty) x.h x.d.bits x.a.bits x.b.bits (immT 0 x.t.bits)
def encFUn (opc : BitVec 8) (x : FUn) : Raw := mk opc (modFlt x.rnd x.ty) x.h x.d.bits x.a.bits 0 0
def encFBin (opc : BitVec 8) (x : FBin) : Raw := mk opc (modFlt x.rnd x.ty) x.h x.d.bits x.a.bits x.b.bits 0
def encFTern (opc : BitVec 8) (x : FTern) : Raw :=
  mk opc (modFlt x.rnd x.ty) x.h x.d.bits x.a.bits x.b.bits (immT 0 x.t.bits)

/-- AM of an addressing mode (R274). -/
def Addr.am : Addr → BitVec 2
  | .off _ => 0
  | .post _ => 1
  | .modulo _ _ => 2

/-- IMM of an addressing mode (R275). -/
def Addr.imm : Addr → BitVec 32
  | .off o => o
  | .post i => i
  | .modulo t i => immT i t.bits

def encLd (opc : BitVec 8) (x : LdA) : Raw :=
  mk opc (BitVec.ofBool x.mem ++ x.addr.am ++ x.fe.code ++ x.sz.code) x.h x.d.bits x.a.bits 0 x.addr.imm
def encSt (opc : BitVec 8) (x : StA) : Raw :=
  mk opc (BitVec.ofBool x.mem ++ x.addr.am ++ x.tf.code ++ x.sz.code) x.h x.d.bits x.a.bits x.b.bits x.addr.imm
def encBar (opc : BitVec 8) (x : BarA) : Raw := mk opc 0 x.h 0 x.a.bits x.b.bits (0#20 ++ x.id)
def encFes (opc : BitVec 8) (x : FesA) : Raw :=
  mk opc (BitVec.ofBool x.mem ++ 0#6 ++ BitVec.ofBool x.bufA) x.h 0 x.a.bits x.b.bits x.off
/-- MOD of a far instruction (R286). -/
def modFar (sc : Scope) (o : Ord) (sz : Sz) : BitVec 8 := sc.code ++ o.code ++ sz.code
def modBit (b : Bool) : BitVec 8 := 0#7 ++ BitVec.ofBool b
def encPlain (opc : BitVec 8) (md : BitVec 8) (h : Hdr) : Raw := mk opc md h 0 0 0 0
def encReg (opc : BitVec 8) (h : Hdr) (d a b : BitVec 10) (num : BitVec 16) (ld : BitVec 4) : Raw :=
  mk opc 0 h d a b (0#12 ++ ld ++ num)

/-- The fields of an instruction form; none for a command or an event. -/
def encRaw : Instr → Option Raw
  | .iadd x => some (encIBin 0x00 x)
  | .isub x => some (encIBin 0x01 x)
  | .imul x => some (encIBin 0x02 x)
  | .imulh x => some (encIBin 0x03 x)
  | .imad x => some (encITern 0x04 x)
  | .imin x => some (encIBin 0x05 x)
  | .imax x => some (encIBin 0x06 x)
  | .iabs x => some (encIUn 0x07 x)
  | .ineg x => some (encIUn 0x08 x)
  | .and x => some (encIBin 0x09 x)
  | .or x => some (encIBin 0x0A x)
  | .xor x => some (encIBin 0x0B x)
  | .andn x => some (encIBin 0x0C x)
  | .not x => some (encIUn 0x0D x)
  | .shl x => some (encIBin 0x0E x)
  | .shr x => some (encIBin 0x0F x)
  | .sar x => some (encIBin 0x10 x)
  | .rol x => some (encIBin 0x11 x)
  | .popc x => some (encIUn 0x12 x)
  | .clz x => some (encIUn 0x13 x)
  | .brev x => some (encIUn 0x14 x)
  | .bfx x => some (encIBin 0x15 x)
  | .bfi x => some (encITern 0x16 x)
  | .bsel x => some (mk 0x17 (modInt x.x x.sat x.ty) x.h x.d.bits x.a.bits x.b.bits (0#12 ++ x.ctl))
  | .icmp x => some (encIBin 0x18 x)
  | .lea x => some (encIBin 0x19 x)
  | .iaddx x => some (encITern 0x1A x)
  | .fadd x => some (encFBin 0x20 x)
  | .fsub x => some (encFBin 0x21 x)
  | .fmul x => some (encFBin 0x22 x)
  | .ffma x => some (encFTern 0x23 x)
  | .fmin x => some (encFBin 0x24 x)
  | .fmax x => some (encFBin 0x25 x)
  | .fcmp x => some (mk 0x26 (x.cond.code ++ x.ty.code) x.h x.d.bits x.a.bits x.b.bits 0)
  | .frcp x => some (encFUn 0x27 x)
  | .frsq x => some (encFUn 0x28 x)
  | .fsqrt x => some (encFUn 0x29 x)
  | .fex2 x => some (encFUn 0x2A x)
  | .flg2 x => some (encFUn 0x2B x)
  | .fsin x => some (encFUn 0x2C x)
  | .fcos x => some (encFUn 0x2D x)
  | .fclass x => some (mk 0x2E (modFlt x.rnd x.ty) x.h x.d.bits x.a.bits 0 (0#23 ++ x.mask))
  | .fscale x => some (encFBin 0x2F x)
  | .cvt x => some (mk 0x30 (BitVec.ofBool x.sat ++ x.rnd.code ++ x.dty.code) x.h x.d.bits x.a.bits 0
      (0#22 ++ x.dsel ++ x.ssel ++ x.sty.code))
  | .padd2 x => some (encFBin 0x31 x)
  | .pmul2 x => some (encFBin 0x32 x)
  | .pfma2 x => some (encFTern 0x33 x)
  | .lsemrg x => some (encFBin 0x34 x)
  | .mov x => some (mk 0x40 (0#6 ++ x.w.code) x.h x.d.bits x.a.bits 0 0)
  | .movi x => some (mk 0x41 (0#5 ++ BitVec.ofBool x.hi ++ 0#1 ++ BitVec.ofBool x.wide) x.h x.d.bits 0 0 x.imm)
  | .sel x => some (mk 0x42 (modBit x.wide) x.h x.d.bits x.a.bits x.b.bits (immT 0 x.t.bits))
  | .pset x => some (mk 0x43 (0#3 ++ BitVec.ofBool x.nb ++ BitVec.ofBool x.na ++ 0#1 ++ x.op.code) x.h x.d.bits x.a.bits
      x.b.bits 0)
  | .pmovTov x => some (mk 0x44 0 x.h x.d.bits 0 0 0)
  | .pmovFromv x => some (mk 0x44 1 x.h 0 x.a.bits 0 (0#25 ++ x.mask))
  | .sread x => some (mk 0x45 x.sel.code x.h x.d.bits 0 0 0)
  | .modset x => some (mk 0x46 (modBit x.raw) x.h x.d.bits x.a.bits x.b.bits 0)
  | .bndset x => some (mk 0x47 0 x.h x.d.bits x.a.bits x.b.bits 0)
  | .bra x => some (mk 0x50 x.tprio x.h 0 0 0 x.off)
  | .brx x => some (mk 0x51 x.tprio x.h 0 x.a.bits 0 0)
  | .call x => some (mk 0x52 x.tprio x.h x.d.bits 0 0 (x.off ++ x.fs))
  | .callx x => some (mk 0x53 x.tprio x.h x.d.bits x.a.bits 0 (0#23 ++ x.fs))
  | .ret x => some (mk 0x54 0 x.h 0 x.a.bits 0 0)
  | .exit h => some (encPlain 0x55 0 h)
  | .rcv h => some (encPlain 0x56 0 h)
  | .yield h => some (encPlain 0x57 0 h)
  | .sleep x => some (mk 0x58 0 x.h 0 0 0 (0#8 ++ x.n))
  | .part x => some (mk 0x60 (0#6 ++ x.size.code) x.h x.d.bits 0 0 0)
  | .vote x => some (mk 0x61 (x.mode.code ++ 0#4) x.h x.d.bits x.a.bits 0 (immT 0 x.t.bits))
  | .shfl x => some (mk 0x62 (x.mode.code ++ 0#3 ++ BitVec.ofBool x.wide) x.h x.d.bits x.a.bits x.b.bits
      (immT 0 x.t.bits))
  | .reduce x => some (mk 0x63 (x.op.code ++ x.ty.code) x.h x.d.bits x.a.bits 0 (immT 0 x.t.bits))
  | .scan x => some (mk 0x64 (x.op.code ++ x.ty.code) x.h x.d.bits x.a.bits 0
      (immT (0#21 ++ BitVec.ofBool x.excl) x.t.bits))
  | .bcast x => some (mk 0x65 (0#6 ++ x.w.code) x.h x.d.bits x.a.bits x.b.bits (immT 0 x.t.bits))
  | .bara x => some (encBar 0x66 x)
  | .barw x => some (encBar 0x67 x)
  | .bars x => some (encBar 0x68 x)
  | .tbar x => some (encPlain 0x69 (modBit x.refresh) x.h)
  | .gbar h => some (encPlain 0x6A 0 h)
  | .ldw x => some (encLd 0x70 x)
  | .lda x => some (encLd 0x71 x)
  | .sta x => some (encSt 0x72 x)
  | .ldc x => some (encLd 0x73 x)
  | .stc x => some (encSt 0x74 x)
  | .acc x => some (encSt 0x75 x)
  | .ldfrag x => some (mk 0x76 (0#1 ++ BitVec.ofBool x.few ++ BitVec.ofBool x.mem ++ x.buf.code ++ 0#1 ++ x.kind.code) x.h
      x.d.bits x.a.bits x.b.bits (immT x.off 0))
  | .stfrag x => some (mk 0x77 (0#2 ++ BitVec.ofBool x.mem ++ x.buf.code ++ 0#1 ++ x.kind.code) x.h
      x.d.bits x.a.bits x.b.bits (immT x.off x.t.bits))
  | .feset x => some (encFes 0x78 x)
  | .feclr x => some (encFes 0x79 x)
  | .feprobe x => some (mk 0x7A (BitVec.ofBool x.mem ++ 0#6 ++ BitVec.ofBool x.bufA) x.h x.d.bits x.a.bits x.b.bits x.off)
  | .lds x => some (mk 0x7B (0#5 ++ x.sz.code) x.h x.d.bits x.a.bits 0 x.off)
  | .sts x => some (mk 0x7C (0#5 ++ x.sz.code) x.h 0 x.a.bits x.b.bits x.off)
  | .fld x => some (mk 0x80 (modFar x.scope x.ord x.sz) x.h x.d.bits x.a.bits 0 (immT x.off 0))
  | .fst x => some (mk 0x81 (modFar x.scope x.ord x.sz) x.h x.d.bits x.a.bits x.b.bits (immT x.off (0#8 ++ x.tf.code)))
  | .fatom x => some (mk 0x82 (modFar x.scope x.ord x.sz) x.h x.d.bits x.a.bits x.b.bits
      (immT x.off (0#6 ++ x.op.code)))
  | .fcas x => some (mk 0x83 (modFar x.scope x.ord x.sz) x.h x.d.bits x.a.bits x.b.bits (immT x.off x.t.bits))
  | .fence x => some (encPlain 0x84 (modFar x.scope x.ord .b8) x.h)
  | .mma x => some (mk 0x90 (x.kind.code ++ BitVec.ofBool x.z ++ 0#2) x.h x.d.bits x.a.bits x.b.bits 0)
  | .mmam x => some (mk 0x91 (x.kind.code ++ BitVec.ofBool x.z ++ 0#2) x.h x.d.bits x.a.bits x.b.bits (immT 0 x.t.bits))
  | .scacc x => some (mk 0x92 0 x.h x.d.bits x.a.bits x.b.bits (immT 0 x.t.bits))
  | .cbld x => some (mk 0x93 (BitVec.ofBool x.few ++ 0#3 ++ BitVec.ofBool x.bufA ++ 0#3) x.h 0 x.a.bits 0 (immT x.off 0))
  | .mdrain x => some (mk 0x94 (0#1 ++ BitVec.ofBool x.acc ++ 0#6) x.h x.d.bits x.a.bits x.b.bits (immT x.off x.t.bits))
  | .mdrainRaw x => some (mk 0x94 0x80 x.h x.d.bits x.a.bits 0 (immT x.off x.t.bits))
  | .mfill x => some (mk 0x95 0 x.h x.d.bits x.a.bits x.b.bits (immT x.off 0))
  | .mfillRaw x => some (mk 0x95 0x80 x.h x.d.bits x.a.bits 0 (immT x.off 0))
  | .creq x => some (mk 0xA0 (0#1 ++ x.addr.am ++ 0#5) x.h 0 x.a.bits x.b.bits x.addr.imm)
  | .kick x => some (mk 0xA1 (0#1 ++ x.addr.am ++ 0#5) x.h 0 x.a.bits x.b.bits x.addr.imm)
  | .cseal x => some (mk 0xA2 0 x.h x.d.bits 0 0 0)
  | .cwait x => some (mk 0xA3 0 x.h 0 0 x.b.bits 0)
  | .sbind x => some (mk 0xA4 0 x.h 0 x.a.bits 0 (0#29 ++ x.win))
  | .sgo x => some (mk 0xA5 0 x.h 0 0 0 (0#29 ++ x.win))
  | .srel x => some (mk 0xA6 0 x.h 0 0 x.b.bits (0#29 ++ x.win))
  | .awaitObj x => some (mk 0xA7 (BitVec.ofBool x.mem ++ 0#7) x.h 0 x.a.bits 0 x.off)
  | .awaitSlot x => some (mk 0xA7 1 x.h 0 0 x.b.bits (0#29 ++ x.win))
  | .astatObj x => some (mk 0xA8 (BitVec.ofBool x.mem ++ 0#7) x.h x.d.bits x.a.bits 0 x.off)
  | .astatSlot x => some (mk 0xA8 1 x.h x.d.bits 0 x.b.bits (0#29 ++ x.win))
  | .nbreq x => some (mk 0xA9 0 x.h 0 x.a.bits 0 x.off)
  | .attq x => some (mk 0xAA 0 x.h 0 x.a.bits 0 x.off)
  | .kvget x => some (mk 0xAB 0 x.h x.d.bits x.a.bits x.b.bits 0)
  | .kvput x => some (mk 0xAC 0 x.h 0 x.a.bits 0 0)
  | .kvlnkSucc x => some (mk 0xAD 0 x.h 0 x.a.bits x.b.bits 0)
  | .kvlnkTok x => some (mk 0xAD 1 x.h 0 x.a.bits x.b.bits 0)
  | .lspawn x => some (mk 0xB0 (0#5 ++ x.lad ++ 0#1) x.h 0 x.a.bits x.b.bits x.off)
  | .lspawnClose x => some (mk 0xB0 (0#5 ++ x.lad ++ 1#1) x.h 0 0 0 0)
  | .lesc x => some (mk 0xB1 0 x.h 0 x.a.bits 0 x.off)
  | .ldone x => some (mk 0xB2 (0#3 ++ x.tf.code ++ x.sz.code) x.h x.d.bits 0 x.b.bits 0)
  | .lstat x => some (mk 0xB3 (0#3 ++ x.sel.code ++ x.lad ++ 0#1) x.h x.d.bits 0 0 (0#30 ++ x.rung))
  | .syscall x => some (mk 0xB8 0 x.h x.d.bits x.a.bits x.b.bits (0#16 ++ x.svc))
  | .trap x => some (mk 0xB9 0 x.h 0 0 0 (0#16 ++ x.code))
  | .featq x => some (mk 0xBA 0 x.h x.d.bits 0 0 (0#24 ++ x.word))
  | .refresh h => some (encPlain 0xBB 0 h)
  | .bkpt x => some (mk 0xBC 0 x.h 0 0 0 (0#16 ++ x.code))
  | .nop h => some (encPlain 0xBD 0 h)
  | .eret h => some (encPlain 0xC0 0 h)
  | .eretSkip h => some (encPlain 0xC0 1 h)
  | .tnode x => some (mk 0xC1 (modBit x.zero) x.h 0 x.a.bits x.b.bits 0)
  | .tset x => some (mk 0xC2 (0#6 ++ x.level) x.h 0 x.a.bits x.b.bits (immT 0 x.idx))
  | .rswap x => some (mk 0xC3 0 x.h x.d.bits x.a.bits x.b.bits (immT 0 x.t.bits))
  | .rcopy x => some (mk 0xC4 0 x.h x.d.bits x.a.bits x.b.bits 0)
  | .rdrop x => some (mk 0xC5 0 x.h 0 x.a.bits 0 0)
  | .rdropNode x => some (mk 0xC5 1 x.h 0 x.a.bits 0 0)
  | .tinv x => some (mk 0xC6 0 x.h 0 x.a.bits 0 0)
  | .ldreset x => some (mk 0xC7 0 x.h 0 x.a.bits 0 0)
  | .diagstHbm x => some (mk 0xC8 0 x.h 0 x.a.bits x.b.bits 0)
  | .diagstSram x => some (mk 0xC8 1 x.h 0 x.a.bits x.b.bits 0)
  | .diagldHbm x => some (mk 0xC9 0 x.h 0 x.a.bits x.b.bits 0)
  | .diagldSram x => some (mk 0xC9 1 x.h 0 x.a.bits x.b.bits 0)
  | .swrite x => some (encReg 0xCA x.h 0 x.a.bits x.b.bits x.num x.ld)
  | .privrd x => some (encReg 0xCB x.h x.d.bits 0 x.b.bits x.num x.ld)
  | _ => none

/-- The word of an instruction form. -/
def encode (i : Instr) : Option InsWord := (encRaw i).map Raw.toWord

/-! The checks of R192 that the word alone decides. -/

/-- Why a word is no instruction that issues: the cause and its detail (R192). -/
inductive Reject where
  /-- ILLOP: 1 an unassigned opcode, 2 an undefined value of MOD, 4 a guard that RCV, TBAR or GBAR does not allow. -/
  | illop (detail : Nat)
  /-- PRIV with detail 1. -/
  | priv
  /-- RSVFLD: the detail names the field. -/
  | rsvfld (field : Nat)
  /-- OPCLASS: the detail names the field. -/
  | opclass (field : Nat)
  /-- REGALIGN: the detail names the field. -/
  | regalign (field : Nat)
  deriving DecidableEq, Repr

/-- Does the opcode's word hold an operand T in IMM[9:0] (R174). -/
def usesT : Instr → Bool
  | .imad _ | .bfi _ | .iaddx _ | .ffma _ | .pfma2 _ | .sel _ | .vote _ | .shfl _ | .reduce _ | .scan _ | .bcast _
  | .stfrag _ | .fcas _ | .mmam _ | .scacc _ | .mdrain _ | .mdrainRaw _ | .rswap _ => true
  | .ldw x | .lda x | .ldc x => x.addr.isModulo
  | .sta x | .stc x | .acc x => x.addr.isModulo
  | .creq x | .kick x => x.addr.isModulo
  | _ => false

/-- A frame size beyond 256 traps RSVFLD with detail 4 (R254). -/
def fsOver : Instr → Bool
  | .call x => x.fs.toNat > 256
  | .callx x => x.fs.toNat > 256
  | _ => false

/-- RSVFLD of SWRITE and PRIVRD (R398). -/
def privFieldOf : Instr → Option Nat
  | .swrite x => privField x.num.toNat x.ld.toNat x.b
  | .privrd x => privField x.num.toNat x.ld.toNat x.b
  | _ => none

/-- RSVFLD (R178, R191, R192): the least-numbered field in which a word holds something its instruction's own
encoding does not. -/
def rsvErr (r : Raw) (i : Instr) : Option Nat :=
  let p := privFieldOf i
  match encRaw i with
  | none => none
  | some e =>
    let t := r.imm.extractLsb' 0 10 != e.imm.extractLsb' 0 10
    let hi := r.imm.extractLsb' 10 22 != e.imm.extractLsb' 10 22
    if r.d != e.d then some 0
    else if r.a != e.a then some 1
    else if r.b != e.b || p == some 2 then some 2
    else if usesT i && t then some 3
    else if t || hi || fsOver i || p == some 4 then some 4
    else if r.md != e.md then some 5
    else if r.top != e.top then some 6
    else none

/-- The privileged register that a word misuses, before any other cause but its own ILLOP 1, 2 and 4 (R192, R398): the detail. -/
def wordMisuse (w : InsWord) : Option Nat :=
  match build (Raw.ofWord w) with
  | none => none
  | some i => if modOk i && guardOk i then privNum i else none

/-- The instruction of a word at a level, or the first cause of R192 up to REGALIGN (DESIGN CHOICE, log 73). -/
def decodeAt (l : Level) (w : InsWord) : Except Reject Instr :=
  let r := Raw.ofWord w
  if !assigned r.opc then .error (.illop 1)
  else match build r with
    | none => .error (.illop 2)
    | some i =>
      if !modOk i then .error (.illop 2)
      else if !guardOk i then .error (.illop 4)
      else if privErr l i then .error .priv
      else match rsvErr r i with
        | some f => .error (.rsvfld f)
        | none => match classErr i with
          | some f => .error (.opclass f)
          | none => match alignErr i with
            | some f => .error (.regalign f)
            | none => .ok i

/-- The decoder, whatever the level. -/
def decodeWord (w : InsWord) : Except Reject Instr := decodeAt .mgmt w

/-- The decoder of bytes: the instruction and the bytes after it, or none where fewer than 12 bytes stand or the word
is rejected. -/
def decodeBytes (bs : List Byte) : Option (Instr × List Byte) :=
  if bs.length < 12 then none
  else match decodeWord (wordOfBytes (bs.take 12)) with
    | .ok i => some (i, bs.drop 12)
    | .error _ => none

/-- The bytes of an instruction form (R175). -/
def encodeBytes (i : Instr) : Option (List Byte) := (encode i).map wordBytes

/-- The instruction of a word numbered as spec/opcode_table.json numbers it: the word's 96 bits in their own order; a
row of more than 96 bits is no instruction word. -/
def decodeTableWord (nbits w : Nat) : Option Instr :=
  if nbits ≤ 96 then
    match decodeBytes (wordBytes (BitVec.ofNat 96 w)) with
    | some (i, _) => some i
    | none => none
  else none

end Sys2Proof
end

