-- ==== Sys2Proof/Config.lean ====
section
/-! DEFINITION. What the specification leaves open: opaque constants, of which nothing can be proved but their type
(notes/assumptions). Each is applied to a counter of the state or to the operands it depends on. -/

namespace Sys2Proof.Config

/-- Which step comes about next when no step is asked for: the order of the agents' moves (DESIGN CHOICE, log 3). -/
opaque nextEvent : Nat → Instr

/-- A choice between two outcomes that the specification allows (DESIGN CHOICE, log 25). -/
opaque freeBool : Nat → Bool

/-- Does the host refuse an access of a stream program (R23, DESIGN CHOICE, log 25). -/
opaque hostRefuses : Nat → Bool

/-- A number that the specification leaves open (DESIGN CHOICE, log 8, DESIGN CHOICE, log 25). -/
opaque freeNat : Nat → Nat

/-- A 64-bit value that the specification leaves open (DESIGN CHOICE, log 25). -/
opaque freeWord : Nat → DWord

/-- Which of the entries of a 2 MiB mapping an access uses, by a counter of the state and the page (R41; DESIGN CHOICE, log 61). -/
opaque largeEntry : (n page : Nat) → Nat

/-- Which of the values that a translation cache and the tree give an entry a walk uses, by a counter of the state and the entry
(R59; DESIGN CHOICE, log 64). -/
opaque cachePick : (n entry : Nat) → Nat

/-- Does a translation cache spare a walk its reads, by a counter of the state and the page (R59; DESIGN CHOICE, log 64). -/
opaque cacheHit : (n page : Nat) → Bool

/-- A byte that the specification leaves open (DESIGN CHOICE, log 24). -/
opaque freeByte : Nat → Byte

/-- Cycles a result of an instruction without a fixed latency takes (R186, DESIGN CHOICE, log 8). -/
opaque freeLatency : Nat → Nat

/-- The check bits an SRAM word's data has: the SEC-DED code is not given (R91, DESIGN CHOICE, log 10). -/
opaque sramCode : (bits : Nat) → Nat → Nat

/-- What an SRAM word with given data and check bits decodes to: none where it is uncorrectable, else the data
(R91, DESIGN CHOICE, log 10). -/
opaque sramDecode : (bits : Nat) → Nat → Nat → Option Nat

/-- Which of the 524,288 lines of a die cache a line of memory takes when it is filled, by the cycle and the line: the set is a
function of the line and the way is the replacement's choice; neither is given (R98, DESIGN CHOICE, log 62). -/
opaque diePlace : (cycle line : Nat) → Nat

/-- Which of the stacks cached on a core, and which of its bytes, a word of the core's stack cache holds: the placement is not given
(R86, R400, DESIGN CHOICE, log 75). -/
opaque stackPlace : (core word : Nat) → Nat

/-- Which group of a core, and which of its registers, a word of the core's control state holds: the placement is not given
(R400, DESIGN CHOICE, log 75). -/
opaque controlPlace : (core word : Nat) → Nat

/-- What a drive's byte holds before anything was written to it (DESIGN CHOICE, log 24). -/
opaque driveByte : (drive addr : Nat) → Byte

/-- The 4,096-byte blocks of a drive's namespace, 0 for a drive number without one (R458, DESIGN CHOICE, log 24). -/
opaque driveBlocks : (drive : Nat) → Nat

/-- The hardware identity of a team that waits in a system call (R388, DESIGN CHOICE, log 30): the TOKEN its record carries. -/
opaque teamToken : (ld grid team : Nat) → DWord

/-- The root slot through which the pointers of a network queue pair are translated: not given (R454, DESIGN CHOICE, log 36). -/
opaque netSlot : (ld pair : Nat) → Nat

/-- The expander port behind which a frame lies, below 4: the assignment is not given (R459, DESIGN CHOICE, log 28). -/
opaque expanderPort : (frame : Nat) → Nat

end Sys2Proof.Config
end

