-- ==== Sys2Proof/Machine/Num.lean ====
section
/-! DEFINITION. Number formats and rounding (spec/08_number_formats.md R201 to R219): exact values, DecodeF, Round, RoundInt,
SrNext, E8M0, the codebook weights. A finite value is a sign, a natural mantissa and a power of two, so that no step but
Round and RoundInt loses anything. -/

namespace Sys2Proof.Machine

/-- A float format (R201, R203): mantissa bits, total bits, bias, pattern of the largest finite value, canonical NaN,
whether it has infinities. -/
structure Fmt where
  mbits : Nat
  bits : Nat
  bias : Nat
  maxPat : Nat
  nan : Nat
  hasInf : Bool
  deriving DecidableEq, Repr

def fF32 : Fmt := ⟨23, 32, 127, 0x7F7FFFFF, 0x7FC00000, true⟩
def fBf16 : Fmt := ⟨7, 16, 127, 0x7F7F, 0x7FC0, true⟩
def fF16 : Fmt := ⟨10, 16, 15, 0x7BFF, 0x7E00, true⟩
def fE4m3 : Fmt := ⟨3, 8, 7, 0x7E, 0x7F, false⟩
def fE5m2 : Fmt := ⟨2, 8, 15, 0x7B, 0x7E, true⟩
/-- E2M1 has no NaN: a NaN rounds to +0 (R209). -/
def fE2m1 : Fmt := ⟨1, 4, 1, 0x7, 0x0, false⟩

/-- The format of a float type; FP32 for the types that are none. -/
def Ty.fmt : Ty → Fmt
  | .bf16 => fBf16
  | .f16 => fF16
  | .e4m3 => fE4m3
  | .e5m2 => fE5m2
  | .e2m1 => fE2m1
  | _ => fF32

/-- An exact value, infinity or NaN (R219). `fin neg m e` is (−1)^neg × m × 2^e; m = 0 is a signed zero. -/
inductive FVal where
  | nan
  | inf (neg : Bool)
  | fin (neg : Bool) (m : Nat) (e : Int)
  deriving DecidableEq, Repr, Inhabited

/-- Bits below the sign. -/
def Fmt.signBit (f : Fmt) : Nat := 2 ^ (f.bits - 1)

/-- Minimum normal exponent (R201). -/
def Fmt.emin (f : Fmt) : Int := 1 - (f.bias : Int)

/-- The magnitude pattern of infinity: one above the largest finite value where the format has infinities. -/
def Fmt.infPat (f : Fmt) : Nat := f.maxPat + 1

/-- DecodeF (R202, R203). -/
def decodeF (f : Fmt) (bits : Nat) : FVal :=
  let b := bits % 2 ^ f.bits
  let neg := f.signBit ≤ b
  let mag := b % f.signBit
  if f.maxPat < mag then
    (if f.hasInf && mag = f.infPat then .inf neg else .nan)
  else
    let e := mag / 2 ^ f.mbits
    let m := mag % 2 ^ f.mbits
    if e = 0 then .fin neg m (f.emin - f.mbits)
    else .fin neg (2 ^ f.mbits + m) ((e : Int) - f.bias - f.mbits)

/-- Sign and magnitude to a pattern. -/
def Fmt.signed (f : Fmt) (neg : Bool) (mag : Nat) : Nat := if neg then f.signBit + mag else mag

/-- floor(log2 m) for m > 0. -/
def ilog2 (m : Nat) : Nat := Nat.log2 m

/-- How many units a magnitude rounds to, from the quotient, the remainder over 2^k and whether something is left
below it (R209). `r` is the draw of stochastic rounding. -/
def roundUnits (mode : Rnd) (neg : Bool) (r : Nat) (q rem k : Nat) (rest : Bool) : Nat :=
  let den := 2 ^ k
  let some' := rem ≠ 0 || rest
  match mode with
  | .rne =>
    if 2 * rem > den || (2 * rem = den && rest) || (2 * rem = den && !rest && q % 2 = 1) then q + 1 else q
  | .rz => q
  | .ru => if some' && !neg then q + 1 else q
  | .rd => if some' && neg then q + 1 else q
  | .sr => if rem * 2 ^ 32 > r * den || (rem * 2 ^ 32 = r * den && rest) then q + 1 else q

/-- What overflow delivers (R209). -/
def overflowPat (f : Fmt) (mode : Rnd) (sat neg : Bool) : Nat :=
  if sat || f = fE2m1 then f.signed neg f.maxPat
  else if mode = .rz || (mode = .ru && neg) || (mode = .rd && !neg) then f.signed neg f.maxPat
  else if f.hasInf then f.signed neg f.infPat
  else f.nan

/-- Round (R209) of a finite magnitude (m + δ) × 2^e, with 0 < δ < 1 where `rest` holds and δ = 0 otherwise. -/
def roundMag (f : Fmt) (mode : Rnd) (r : Nat) (sat neg : Bool) (m : Nat) (e : Int) (rest : Bool) : Nat :=
  let lg := (ilog2 m : Int) + e
  let e0 := max lg f.emin
  let ue := e0 - f.mbits
  let k := ue - e
  if lg > 2 * (f.bias : Int) + 4 then overflowPat f mode sat neg
  else
    let n :=
      if k ≤ 0 then m * 2 ^ (-k).toNat
      else if k > (ilog2 m : Int) + 40 then roundUnits mode neg r 0 1 40 false
      else roundUnits mode neg r (m / 2 ^ k.toNat) (m % 2 ^ k.toNat) k.toNat rest
    let pat := if n < 2 ^ f.mbits then n else ((e0 + f.bias).toNat) * 2 ^ f.mbits + (n - 2 ^ f.mbits)
    if pat > f.maxPat then overflowPat f mode sat neg else f.signed neg pat

/-- Round(x, fmt, mode, sat) of R209; `r` is what SrNext drew. -/
def roundF (f : Fmt) (mode : Rnd) (r : Nat) (sat : Bool) : FVal → Nat
  | .nan => f.nan
  | .inf neg =>
    if sat || f = fE2m1 then f.signed neg f.maxPat
    else if f.hasInf then f.signed neg f.infPat
    else f.nan
  | .fin neg m e => if m = 0 then f.signed neg 0 else roundMag f mode r sat neg m e false

/-- Round to FP32, nearest even. -/
def roundN32 (x : FVal) : Nat := roundF fF32 .rne 0 false x

/-! Exact arithmetic (R206, R207). -/

/-- The value of an integer. -/
def FVal.ofInt (z : Int) : FVal := .fin (decide (z < 0)) z.natAbs 0

/-- Negation. -/
def FVal.neg : FVal → FVal
  | .nan => .nan
  | .inf s => .inf (!s)
  | .fin s m e => .fin (!s) m e

/-- Product: a NaN, or 0 × ∞, is a NaN. -/
def FVal.mul : FVal → FVal → FVal
  | .nan, _ | _, .nan => .nan
  | .inf s, .inf t => .inf (s != t)
  | .inf s, .fin t m _ => if m = 0 then .nan else .inf (s != t)
  | .fin t m _, .inf s => if m = 0 then .nan else .inf (s != t)
  | .fin s m e, .fin t n g => .fin (s != t) (m * n) (e + g)

/-- The signed integer of a finite value in units of 2^u, for u at most its exponent. -/
def scaled (neg : Bool) (m : Nat) (e u : Int) : Int :=
  let z : Int := (m * 2 ^ (e - u).toNat : Nat)
  if neg then -z else z

/-- Sum, with the sign of an exact zero that R207 gives for the rounding mode. -/
def FVal.add (mode : Rnd) : FVal → FVal → FVal
  | .nan, _ | _, .nan => .nan
  | .inf s, .inf t => if s = t then .inf s else .nan
  | .inf s, .fin _ _ _ => .inf s
  | .fin _ _ _, .inf t => .inf t
  | .fin s m e, .fin t n g =>
    if m = 0 && n = 0 then (if s = t then .fin s 0 0 else .fin (mode = .rd) 0 0)
    else if m = 0 then .fin t n g
    else if n = 0 then .fin s m e
    else
      let u := min e g
      let z := scaled s m e u + scaled t n g u
      if z = 0 then .fin (mode = .rd) 0 0 else .fin (decide (z < 0)) z.natAbs u

/-- The order of two values that are no NaN: −1, 0 or 1; zeros are equal. -/
def FVal.cmp : FVal → FVal → Int
  | .nan, _ | _, .nan => 0
  | .inf s, .inf t => if s = t then 0 else if s then -1 else 1
  | .inf s, .fin _ _ _ => if s then -1 else 1
  | .fin _ _ _, .inf t => if t then 1 else -1
  | .fin s m e, .fin t n g =>
    let u := min e g
    let z := scaled s m e u - scaled t n g u
    if z < 0 then -1 else if z = 0 then 0 else 1

/-- Is the value a NaN. -/
def FVal.isNan : FVal → Bool
  | .nan => true
  | _ => false

/-- Is the value a NaN or an infinity (R306). -/
def FVal.isSpecial : FVal → Bool
  | .fin _ _ _ => false
  | _ => true

/-- x × 2^k. -/
def FVal.scale (x : FVal) (k : Int) : FVal :=
  match x with
  | .fin s m e => .fin s m (e + k)
  | y => y

/-! Conversions to integers. -/

/-- The range of an n-bit type, its least and greatest value (R205). -/
def intRange (n : Nat) (signed : Bool) : Int × Int :=
  if signed then (-(2 ^ (n - 1) : Nat), (2 ^ (n - 1) : Nat) - 1) else (0, (2 ^ n : Nat) - 1)

/-- x clamped to a range: SatS and SatU of R200. -/
def clampInt (n : Nat) (signed : Bool) (x : Int) : Int :=
  let r := intRange n signed
  if x < r.1 then r.1 else if r.2 < x then r.2 else x

/-- RoundInt (R210, R219): NaN gives 0, a result outside the range its nearest limit. -/
def roundInt (mode : Rnd) (n : Nat) (signed : Bool) : FVal → Int
  | .nan => 0
  | .inf neg => if neg then (intRange n signed).1 else (intRange n signed).2
  | .fin neg m e =>
    let mag : Nat :=
      if e ≥ 0 then m * 2 ^ e.toNat
      else roundUnits mode neg 0 (m / 2 ^ (-e).toNat) (m % 2 ^ (-e).toNat) (-e).toNat false
    clampInt n signed (if neg then -(mag : Int) else mag)

/-- The integer an n-bit pattern stands for (R205). -/
def toIntN (n : Nat) (signed : Bool) (b : Nat) : Int :=
  let x := b % 2 ^ n
  if signed && 2 ^ (n - 1) ≤ x then (x : Int) - (2 ^ n : Nat) else x

/-- The n-bit pattern of an integer: x mod 2^n. -/
def ofIntN (n : Nat) (x : Int) : Nat := (x % (2 ^ n : Nat)).toNat

/-! E8M0 (R204, R242). -/

/-- E8m0Value. -/
def e8m0Value (e : Nat) : FVal := if e = 0xFF then .nan else .fin false 1 ((e : Int) - 127)

/-- CVT to .e8m0 (R242); `up` is .ru. -/
def toE8m0 (up : Bool) : FVal → Nat
  | .nan | .inf _ => 0xFF
  | .fin _ m e =>
    if m = 0 then 0
    else
      let fl := (ilog2 m : Int) + e
      let k := if up && m ≠ 2 ^ ilog2 m then fl + 1 else fl
      ((max (-127) (min 127 k)) + 127).toNat

/-! Stochastic rounding (R211, R212). -/

/-- One xorshift32 step with shifts 13, 17 and 5. -/
def srStep (x : Word) : Word :=
  let x := x ^^^ (x <<< 13)
  let x := x ^^^ (x >>> 17)
  x ^^^ (x <<< 5)

/-- SRSTATE at group start (R212). -/
def srInit (gridId : Nat) (team group lane : Nat) : Word :=
  let s : Word := (BitVec.ofNat 32 gridId * 0xC2B2AE3D#32) ^^^ (BitVec.ofNat 32 team * 0x9E3779B1#32)
    ^^^ (BitVec.ofNat 32 (32 * group + lane + 1) * 0x85EBCA77#32)
  if s = 0 then 0x2545F491#32 else s

/-! The codebook (R214 to R216). -/

/-- Parity (R219). -/
def parity (n : Nat) (x : Nat) : Bool := (List.range n).foldl (fun p i => p != x.testBit i) false

/-- Default table entry (R216). -/
def cbDefault (i : Nat) : DWord :=
  let h := i.testBit 8
  let mag (k : Nat) : Nat :=
    if h then (if i.testBit k then 0x44 else 0x38) else (if i.testBit k then 0x3C else 0x30)
  let body := (List.range 8).foldl (fun acc k => acc + mag k * 2 ^ (8 * k)) 0
  BitVec.ofNat 64 (body + if parity 8 i then 2 ^ 63 else 0)

/-- The table entry with its reserved bits cleared (R215). -/
def cbClean (e : DWord) : DWord := e &&& 0xFF7F7F7F7F7F7F7F#64

/-- Weight k of a codeword whose table entry is T (R214). -/
def cb2Weight (t : DWord) (cw : Nat) (k : Nat) : FVal :=
  let mag := (t.toNat / 2 ^ (8 * k)) % 128
  let sign := if k < 7 then cw.testBit (9 + k) else (parity 7 (cw / 512 % 128) != t.getLsbD 63)
  match decodeF fE4m3 mag with
  | .fin _ m e => .fin sign m e
  | v => v

/-- The arithmetic of SCACC on one element (R213). -/
def scaccElem (d p : Nat) (sa sb : Nat) : Nat :=
  let dv := decodeF fF32 d
  let pv := decodeF fF32 p
  if sa = 0xFF || sb = 0xFF || pv.isNan || dv.isNan then fF32.nan
  else roundN32 (FVal.add .rne dv (pv.scale ((sa : Int) - 127 + ((sb : Int) - 127))))

end Sys2Proof.Machine
end

