-- ==== Sys2Proof/Machine/Store.lean ====
section
/-! DEFINITION. Sparse stores: a list of (key, value) pairs with strictly rising keys and no zero value; an unlisted key
reads as zero. Memory, register files, buffers and tables are all held so, in one canonical form. -/

namespace Sys2Proof.Machine

/-- A sparse store of n-bit values; an unlisted key reads as zero. -/
abbrev Store (n : Nat) := List (Nat × BitVec n)

/-- The value at a key (DESIGN CHOICE, log 2). -/
def stGet {n : Nat} : Store n → Nat → BitVec n
  | [], _ => 0
  | (k, v) :: r, a => if a = k then v else stGet r a

/-- The store with an entry at a key, before every greater key. -/
def stPut {n : Nat} : Store n → Nat → BitVec n → Store n
  | [], a, x => [(a, x)]
  | (k, v) :: r, a, x => if a < k then (a, x) :: (k, v) :: r else if a = k then (a, x) :: r else (k, v) :: stPut r a x

/-- The store with a value written at a key; writing zero removes the entry. -/
def stSet {n : Nat} (s : Store n) (a : Nat) (x : BitVec n) : Store n :=
  if x = 0 then s.filter fun kv => kv.1 != a else stPut s a x

/-- Are all keys above a bound. -/
def stAbove {n : Nat} (b : Nat) : Store n → Bool
  | [] => true
  | (k, _) :: r => b < k && stAbove b r

/-- The canonical form: keys strictly rising, no value zero. -/
def stWf {n : Nat} : Store n → Bool
  | [] => true
  | (k, v) :: r => v != 0 && stAbove k r && stWf r

/-- Write several values. -/
def stSetAll {n : Nat} (s : Store n) (kvs : List (Nat × BitVec n)) : Store n := kvs.foldl (fun t kv => stSet t kv.1 kv.2) s

/-- Clear the keys from lo up to hi. -/
def stClear {n : Nat} (s : Store n) (lo hi : Nat) : Store n := s.filter fun kv => kv.1 < lo || hi ≤ kv.1

/-- The little-endian value of the k bytes from a. -/
def stBytes (s : Store 8) (a k : Nat) : Nat := (List.range k).foldl (fun acc i => acc + (stGet s (a + i)).toNat * 256 ^ i) 0

/-- The store with the k low bytes of a value written from a, little-endian. -/
def stSetBytes (s : Store 8) (a k : Nat) (x : Nat) : Store 8 :=
  stSetAll s ((List.range k).map fun i => (a + i, BitVec.ofNat 8 (x / 256 ^ i)))

/-- Bits [lo + n − 1 : lo] of a natural number. -/
def fld (x lo n : Nat) : Nat := x / 2 ^ lo % 2 ^ n

/-- One bit of a natural number. -/
def bit1 (x i : Nat) : Bool := x.testBit i

/-- Replace element i of a list. -/
def lset {α : Type} : List α → Nat → α → List α
  | [], _, _ => []
  | _ :: r, 0, y => y :: r
  | x :: r, i + 1, y => x :: lset r i y

/-- The bytes of a number, little-endian. -/
def bytesOf (x k : Nat) : List Byte := (List.range k).map fun i => BitVec.ofNat 8 (x / 256 ^ i)

/-- The number that bytes hold, little-endian. -/
def ofBytes (bs : List Byte) : Nat := bs.foldr (fun b acc => b.toNat + 256 * acc) 0

end Sys2Proof.Machine
end

