-- ==== Sys2Proof/Machine/State.lean ====
section
/-! DEFINITION. The state of a Chophor C3 package: everything spec/ gives the machine (INVENTORY.md lists it with its
rules and reset values), as plain data; the fault and refusal reasons; the state after power-on reset. -/

namespace Sys2Proof.Machine

/-! Frontiers (R153, R162, R163). -/

/-- A ladder item (R361, R365, R366): owner member and team, ladder, rung, sequence number, frame bytes, the far accesses
before its hand-over (R374). -/
structure Item where
  member : Nat
  team : Nat
  lad : Nat
  rung : Nat
  seq : Nat
  frame : List Byte
  past : List Nat
  deriving DecidableEq, Repr, Inhabited

/-- What a waiting entry waits for, with the operands it read when it issued (R162, R185). -/
inductive Wait where
  /-- RCV (R164). -/
  | rcv
  /-- A collective's convergence (R265): active lanes, and A and B as each active lane read them. -/
  | coll (i : Instr) (act : LaneMask) (av bv : List (Nat × BitVec 128))
  /-- A buffer load with .fe (R278): per lane that waits its granules' member, offset and address-register update, and per
  lane that has taken its step the bytes it read and its address-register update. -/
  | feLoad (i : Instr) (lanes : List (Nat × Nat × Nat × DWord)) (got : List (Nat × BitVec 128 × DWord))
  /-- LDFRAG.fe (R282): member, offset and pitch. -/
  | feFrag (i : Instr) (mem off pitch : Nat)
  /-- CBLD.fe (R311): offset. -/
  | feCbld (i : Instr) (off : Nat)
  /-- BARS or BARW (R269): barrier id and phase. -/
  | bar (id phase : Nat)
  /-- TBAR (R271). -/
  | tbar (refresh : Bool)
  /-- GBAR (R271). -/
  | gbar
  /-- AWAIT.obj (R349): member and offset of the arrival object. -/
  | obj (mem off : Nat)
  /-- AWAIT.slot (R349). -/
  | slot (win t : Nat)
  /-- CWAIT (R331). -/
  | cwait (n : Nat)
  /-- KICK that does not fit (R329): its records with their offsets, and the address register's update. -/
  | kick (i : Instr) (recs : List (Nat × Nat)) (upd : DWord)
  /-- CSEAL that would make a 33rd unfinished batch (R330). -/
  | cseal (i : Instr)
  /-- LSPAWN without room (R369): (lane, A offset, sequence number). -/
  | lspawn (lad : Nat) (items : List (Nat × Nat × Nat))
  /-- LESC without room (R370): (lane, A offset). -/
  | lesc (items : List (Nat × Nat))
  /-- LDS or STS whose bytes are not yet filled (R86): per lane the first stack byte, and the datum of STS. -/
  | stack (i : Instr) (lanes : List (Nat × Nat × BitVec 128))
  /-- FENCE.ar (R127) and SC accesses (R132): the far accesses that must be performed first. -/
  | far (ids : List Nat)
  /-- SYSCALL (R387): active lanes, destination, service, and the arguments of the lowest active lane. -/
  | sys (act : LaneMask) (d : Opnd) (svc : Nat) (arg0 arg1 : DWord)
  /-- An engine instruction of a group in which CBLD.fe waits (R300): it issues again once that has taken effect (DEDUCED, log 76). -/
  | engine
  /-- LDRESET (R399) of a logical device. -/
  | ldreset (ld : Nat)
  /-- Nothing any more: what it waited for has come about while its group holds a trap (R428, R430). -/
  | met
  deriving DecidableEq, Repr, Inhabited

/-- The state of an entry (R153). A parked entry holds its cause (R161), and detail, address and lane for its trap. -/
inductive EntrySt where
  | ready
  | waiting (w : Wait) (since : Nat)
  | parked (cause detail : Nat) (addr : DWord) (lane : Nat)
  deriving DecidableEq, Repr, Inhabited

/-- A frontier entry (R153). -/
structure Entry where
  pc : Ptr
  prio : BitVec 8
  mask : LaneMask
  age : Nat
  st : EntrySt
  deriving DecidableEq, Repr, Inhabited

/-- A trap to be taken (R426, R428). -/
structure Trap where
  cause : Nat
  detail : Nat
  mask : LaneMask
  lane : Nat
  pc : Ptr
  prio : BitVec 8
  addr : DWord
  lmask : BitVec 32
  coll : Bool
  parked : Bool
  staging : Bool
  deriving DecidableEq, Repr, Inhabited

/-- The registers a handler's bank replaces (R428). -/
structure Bank where
  g : Store 64
  p : Store 32
  m : Store 64
  deriving DecidableEq, Repr, Inhabited

/-- A running handler: the group's bank and frontier, the trap, resident cycles used (R428, R429). -/
structure Handler where
  bank : Bank
  frontier : List Entry
  trap : Trap
  since : Nat
  deriving DecidableEq, Repr, Inhabited

/-- The register a result goes to (R183): vector, uniform, predicate, modulo, bound. -/
inductive RegKey where
  | v (n : Nat) | g (n : Nat) | p (n : Nat) | m (n : Nat) | b (n : Nat)
  deriving DecidableEq, Repr, Inhabited

/-- When an outstanding result is written: at a cycle, or when a far access is performed. -/
inductive Due where
  | cycle (n : Nat)
  | far (id : Nat)
  deriving DecidableEq, Repr, Inhabited

/-- A result outstanding (R183, R186); `eng` marks an engine instruction's accumulator (R307). -/
structure Outst where
  key : RegKey
  due : Due
  eng : Bool
  deriving DecidableEq, Repr, Inhabited

/-- A pin on a root (R49). -/
structure Pin where
  slot : Nat
  gen : Nat
  root : Nat
  deriving DecidableEq, Repr, Inhabited

/-- A partition record (R166): SIZE code and members. -/
structure Part where
  size : Nat
  mem : LaneMask
  deriving DecidableEq, Repr, Inhabited

/-- An open accumulator octet (R301). -/
structure Octet where
  x : Nat
  rf : BitVec 16
  cf : BitVec 16
  deriving DecidableEq, Repr, Inhabited

/-- A sealed batch (R330, R331): its requests, in submission order. -/
structure Batch where
  b : Nat
  reqs : List Nat
  deriving DecidableEq, Repr, Inhabited

/-- Who takes part in an order (R123): a lane or engine operation of a team, with the core it runs on; a service thread (a Nimbus
hart or the command processor); a host thread of a logical device. -/
inductive Party where
  | lane (r : GroupRef) (core : Nat)
  | service
  | host (ld : Nat)
  deriving DecidableEq, Repr, Inhabited

/-- A release recorded at a location (R124): the access that released, who it was, at which scope, and
the accesses that happen before what an acquirer does later. -/
structure RelTag where
  id : Nat
  pa : Nat
  size : Nat
  who : Party
  scope : Scope
  past : List Nat
  deriving DecidableEq, Repr, Inhabited

/-- What orders a lane's accesses (R119, R125 to R127): the accesses that happen before its later ones, what its later writes
release (a fence's scope and the accesses before it), the releases its reads have seen, and the performed writes that it has
made or seen. -/
structure LaneOrd where
  lane : Nat
  past : List Nat
  fences : List (Scope × List Nat)
  seen : List RelTag
  obs : List Nat
  deriving DecidableEq, Repr, Inhabited

/-- A performed write that a later read may still miss, because nothing has ordered it before that read (R128, R135): the access
or operation that wrote, the location of its first byte (a physical address, or a place in a buffer), what the bytes held
before and which releases stood there. An engine's write may be missed byte by byte (`loose`, R136). `grp` is the group that
stored to a buffer, `pre` what an acquirer of the granule's full bit gains (R136), `team` the team that it is of (DESIGN CHOICE,
log 6). -/
structure Wr where
  id : Nat
  loc : Nat
  old : List Byte
  tags : List RelTag
  loose : Bool
  grp : Option GroupRef
  pre : List Nat
  team : Option TeamRef
  deriving DecidableEq, Repr, Inhabited

/-- A group (spec/06, spec/03, spec/07, spec/22). -/
structure Group where
  id : Nat
  /-- The rung slot a rung group runs in: ladder, rung, slot; none for a launch group (R365). -/
  rung : Option (Nat × Nat × Nat)
  budget : Nat
  vbase : Nat
  depth : Nat
  /-- Vector registers, key 32 × register + lane (R68). -/
  v : Store 32
  bank : Bank
  frontier : List Entry
  parts : List Part
  /-- Lanes whose collective at a PC and PRIO a handler skipped, counted as having taken part (R430). -/
  skipped : List (Ptr × BitVec 8 × LaneMask)
  /-- Stack pointer of each lane (R85). -/
  sp : Store 64
  /-- Sizes of each lane's open frames, innermost first (R285). -/
  frames : List (List Nat)
  slimit : Nat
  /-- Stack-cache units of 2 KiB (R86). -/
  stkUnits : Nat
  /-- Cached stack bytes, key 2^32 × lane + stack byte, with bit 8 set (R86); a byte without an entry is undefined. -/
  stk : Store 9
  /-- First cached stack byte of each lane (R86). -/
  stkLo : Store 64
  /-- Generator state of each lane (R211). -/
  sr : Store 32
  octets : List Octet
  outst : List Outst
  /-- Switch-marker park (R183, R184). -/
  swPark : Bool
  /-- The cycle from which the issue delay has elapsed (R185, R262). -/
  delay : Nat
  /-- Lanes of the entry last issued (R184). -/
  last : LaneMask
  /-- When the group last issued (R152). -/
  stamp : Nat
  pin : Option Pin
  handler : Option Handler
  /-- A trap that waits for the group's outstanding results (R426). -/
  pendTrap : Option Trap
  /-- Batch counter, sealed batches, unsealed requests, failures already reported (R330, R331). -/
  batchNo : Nat
  batches : List Batch
  unsealed : List Nat
  reported : List Nat
  /-- Items that lanes of a rung group hold (R365). -/
  items : List (Nat × Item)
  /-- The group stops at safe points (R418), and has stopped there or fully (R419). -/
  toSafe : Bool
  saved : Bool
  full : Bool
  /-- The live masks of the safe points at which it was saved, or'ed (R199): raw side-table bits. -/
  live : Nat
  /-- Held at its first instruction while group 0's staging trap is handled (R433). -/
  held : Bool
  /-- NOTMAPPED with detail 10 to be taken at the next instruction (R391). -/
  emptySlot : Bool
  ords : List LaneOrd
  /-- ASTAT has read an object in error with this cause, POISON or UECONS (R355). -/
  polled : Option Nat
  /-- Words fetched ahead of issue (R176), by pointer, with bit 32 set. -/
  ahead : Store 33
  deriving DecidableEq, Repr, Inhabited

/-! Pieces of a move. -/

/-- A place of bytes: memory, a member's buffer, a pad pattern of two bytes, a drive. -/
inductive Loc where
  | mem (p : Ptr)
  | buf (t : TeamRef) (b : Buf) (off : Int)
  | pad (v : Nat)
  | drive (d addr : Nat)
  deriving DecidableEq, Repr, Inhabited

/-- A run of bytes that an engine moves from a place to a place, within one sector of each. -/
structure Piece where
  src : Loc
  dst : Loc
  n : Nat
  deriving DecidableEq, Repr, Inhabited

/-! Teams. -/

/-- The state of a window (R337). -/
inductive WinSt where
  | unbound | bound | running | ended | error
  deriving DecidableEq, Repr, Inhabited

/-- A binding (R339). -/
structure Binding where
  any : Bool
  stk : Nat
  noerr : Bool
  errarr : Nat
  ssz : Nat
  rc : Nat
  slots : Nat
  inA : Bool
  wbase : Nat
  sbase : Ptr
  prog : Ptr
  deriving DecidableEq, Repr, Inhabited

/-- A window (R337). -/
structure Window where
  st : WinSt
  b : Binding
  f : Nat
  fills : List Nat
  rels : List Nat
  pc : Ptr
  /-- Open loops, innermost first: first command, count, index. -/
  loops : List (Ptr × Nat × Nat)
  pv : Word
  latch : Option Word
  cause : Nat
  detail : Nat
  errPc : Ptr
  /-- The root and bounds table its program uses (R342). -/
  pin : Option Pin
  bounds : Store 128
  /-- The slot of a fill whose completion is still to be counted (R344), the pieces it has still to move, and the rows whose index
  it has still to read. -/
  filling : Option Nat
  todo : List Piece
  rows : Nat
  /-- Where the program waits: 1 at SWAITR, 2 at SWAITP. -/
  waiting : Nat
  /-- Far accesses before SGO, and before the releases of each slot's current fill (R138, R142). -/
  after : List Nat
  rpast : List (List Nat)
  /-- The numbers of the program, of its latest fill and of each slot's latest fill, for who joins them (R139). -/
  pid : Nat
  fid : Nat
  fops : List Nat
  /-- Command words fetched ahead (R342), by pointer, with bit 128 set. -/
  ahead : Store 129
  deriving DecidableEq, Repr, Inhabited

/-- A named barrier's open phase (R269). -/
structure Bar where
  id : Nat
  expect : Nat
  arrived : Nat
  phase : Nat
  /-- Far accesses before the arrivals (R126). -/
  past : List Nat
  deriving DecidableEq, Repr, Inhabited

/-- A done entry of a commit window (R371, R372): sequence number, the result while it is unwritten, whether its rung is
any-order, the rung, the far accesses before its commit (R374). -/
structure Done where
  seq : Nat
  res : Option (List Byte)
  any : Bool
  rung : Nat
  after : List Nat
  deriving DecidableEq, Repr, Inhabited

/-- A team's part of a ladder instance (R361, R372, R375): BASE, spawn state, ARRIVED, dropped items, done entries,
sequence numbers that an item holds, rungs whose patch has gone out. -/
structure LadWin where
  base : Nat
  closed : Bool
  arrived : List Nat
  dropped : Nat
  done : List Done
  held : List Nat
  patched : List Nat
  deriving DecidableEq, Repr, Inhabited

/-- A team's system call (R387, R388). -/
inductive SysSt where
  | none
  /-- All groups have arrived; the record waits for room in the ring. -/
  | posting
  /-- The record is posted; the TOKEN it carries. -/
  | waiting (token : DWord)
  /-- The reply has come while the gang is out (R389). -/
  | replied (v : DWord)
  deriving DecidableEq, Repr, Inhabited

/-- The stages of a team's life (R172). -/
inductive Stage where
  | placed | running | exited | written | released
  deriving DecidableEq, Repr, Inhabited

/-- A team. -/
structure Team where
  r : TeamRef
  member : Nat
  core : Nat
  stage : Stage
  /-- Allocation bases on the core and lengths, in bytes (R26, R78). -/
  wbase : Nat
  wlen : Nat
  abase : Nat
  alen : Nat
  cbase : Nat
  clen : Nat
  barBase : Nat
  w : Store 8
  a : Store 8
  c : Store 8
  /-- Full/empty bits, key = granule (R82). -/
  wfe : Store 1
  afe : Store 1
  bounds : Store 128
  tenant : Nat
  bnd : Store 128
  bflags : BitVec 16
  bars : List Bar
  /-- The codebook where CBLD has replaced the default (R215). -/
  cb : Option (Store 64)
  wins : List Window
  pin : Option Pin
  sys : SysSt
  lads : List LadWin
  groups : List Group
  /-- The first fault of a commit or of write-back (R37, R372): cause, detail, index, address. -/
  wbFault : Option (Nat × Nat × Nat × DWord)
  /-- Vector registers of its core that the team holds (R68, R71): base and size, by GROUPID, rung slots included. -/
  vregs : List (Nat × Nat)
  /-- The far accesses before the ends of its groups, which its write-back follows (R138). -/
  exits : List Nat
  /-- What the last group of each rung slot did, by GROUPID: it happens before the next group's frames are written (R381). -/
  rungPast : List (Nat × List Nat)
  deriving DecidableEq, Repr, Inhabited

/-! Grids and gangs. -/

/-- The launch record (R170), as its raw bits, with the dimensions in force (R406). -/
structure Grid where
  ld : Nat
  id : Nat
  queue : Nat
  /-- The pointer of the LAUNCH command (R410). -/
  cmdPtr : Ptr
  raw : Nat
  gx : Nat
  gy : Nat
  gz : Nat
  prio : Nat
  sup : Bool
  /-- The kernel-table entry (R473) and the pointer of the code section chosen. -/
  kern : Nat
  code : Ptr
  /-- The native words that the loader made of a Dweique code section; none for native code (R6, R414). -/
  words : List InsWord
  /-- Entries of the kernel's side table (R197), as read by the loader. -/
  safe : List Nat
  /-- Region entries, kernel arguments, ladder descriptors as read at launch (R31, R170, R361). -/
  regions : List Nat
  argv : List DWord
  ladders : List Nat
  /-- Dependences still unmet; none pending once the grid is in dispatch. -/
  inDispatch : Bool
  readySeq : Nat
  /-- The next unplaced team, and teams whose write-back is done. -/
  next : Nat
  finished : Nat
  /-- The first failure: status, cause, detail, index, team, address (R409). -/
  fail : Option (Nat × Nat × Nat × Nat × Nat × DWord)
  bflags : BitVec 16
  relaunch : Nat
  /-- What happens before its launch, and the accesses and operations of its teams that have ended, which the completion record
  follows (R138, R404, R410). -/
  past : List Nat
  ends : List Nat
  deriving DecidableEq, Repr, Inhabited

/-- Where a gang is (R419, R421, R423) (DESIGN CHOICE, log 13). -/
inductive Where where
  | resident
  /-- Killed, waiting for relaunch (R436). -/
  | relaunch
  /-- In the save pool after a pre-emption. -/
  | preempted
  /-- In a shadow store by partition swap, cluster named. -/
  | partition (cluster : Nat)
  /-- In a cluster's shadow store or, without one, in the save pool, waiting in SYSCALL. -/
  | call (cluster : Option Nat)
  deriving DecidableEq, Repr, Inhabited

/-- A bin of a ladder instance (R366). -/
structure Bin where
  items : List Item
  /-- The cycle at which the timer passes STARVE × 64; none while stopped. -/
  due : Option Nat
  deriving DecidableEq, Repr, Inhabited

/-- A gang (R168). -/
structure Gang where
  r : GangRef
  size : Nat
  place : Where
  relaunches : Nat
  /-- Bins, by ladder then rung. -/
  bins : List (List Bin)
  /-- Being pre-empted, with the cycle at which PREWIN ends (R418, R419). -/
  preempt : Option Nat
  /-- A reply has come for some member while the gang is out (R389). -/
  wanted : Bool
  /-- The cycle from which a failed pre-emption is tried again (R419). -/
  retry : Nat
  /-- The first fault of a member's commits or write-back (R37, R372): cause, detail, index, team, address. -/
  fault : Option (Nat × Nat × Nat × Nat × DWord)
  /-- A word of its save has a double-bit error (R434). -/
  ue : Bool
  /-- What its members did before it was killed, which its relaunch follows (R149). -/
  past : List Nat
  deriving DecidableEq, Repr, Inhabited

/-! Engine operations. -/

/-- The status of a copy request (R330, R331). -/
inductive ReqSt where
  | queued | moving | done | failed (cause detail : Nat)
  deriving DecidableEq, Repr, Inhabited

/-- A copy request (R324, R329): its record, the producer group, core, root and bounds at KICK. `after` are the accesses before its
fork, `left` counts bytes moved and not yet subtracted from the arrival object, `todo` are the pieces still to be moved, `rows` the rows whose
index is still to be read (R333). -/
structure Req where
  id : Nat
  r : GroupRef
  core : Nat
  raw : Nat
  addr : Nat
  st : ReqSt
  pin : Option Pin
  bounds : Store 128
  after : List Nat
  left : Nat
  todo : List Piece
  rows : Nat
  deriving DecidableEq, Repr, Inhabited

/-- Is a request not yet finished (R330): queued, moving, or failed with bytes still to be subtracted. -/
def Req.underway (q : Req) : Bool := match q.st with
  | .queued | .moving => true
  | .done => false
  | .failed _ _ => q.left != 0

/-- A near-bank or attention command (R351): kind 0 near-bank, 1 attention. -/
structure MemOp where
  id : Nat
  att : Bool
  t : TeamRef
  member : Nat
  raw : Nat
  pin : Option Pin
  bounds : Store 128
  tenant : Nat
  after : List Nat
  /-- Bytes to subtract from the arrival object once performed; none while the command has not run. -/
  left : Option Nat
  deriving DecidableEq, Repr, Inhabited

/-- A network transfer (R454): its queue pair and request number, the request once it has been read, the status to
report once it has ended with the bytes moved and its writes; the retries of an Ethernet transfer and when its timer expires (R457). -/
structure NetOp where
  id : Nat
  ld : Nat
  pair : Nat
  req : Nat
  raw : Option Nat
  status : Option Nat
  bytes : Nat
  wrote : List Nat
  retries : Nat
  due : Nat
  deriving DecidableEq, Repr, Inhabited

/-- Bytes that a drive has accepted and may hold in its volatile cache (R335): the request that wrote them, and do they survive power
loss. -/
structure DriveWrite where
  drive : Nat
  addr : Nat
  bytes : List Byte
  req : Nat
  sure : Bool
  deriving DecidableEq, Repr, Inhabited

/-! Far accesses (R116 to R133, R288 to R297). -/

/-- What a far access does at its home. -/
inductive FarKind where
  | load
  | store (x : BitVec 128)
  | amo (op : AtomOp) (x : BitVec 128)
  | cas (e x : BitVec 128)
  deriving DecidableEq, Repr, Inhabited

/-- A far access issued and not yet performed. `req` is the first access of its request (R292), `after` the accesses that happen
before it, `acqs` and `rls` the scopes at which it acquires and what it releases, `dst` and `lanes` the register and lanes that
receive the result (DESIGN CHOICE, log 6). -/
structure Far where
  id : Nat
  req : Nat
  r : GroupRef
  core : Nat
  lane : Nat
  kind : FarKind
  pa : Nat
  sz : Sz
  acqs : List Scope
  rls : List (Scope × List Nat)
  after : List Nat
  dst : Option Opnd
  lanes : LaneMask
  pc : Ptr
  prio : BitVec 8
  ptr : Ptr
  due : Nat
  sc : Bool
  /-- A write through a COW leaf (R56). -/
  cow : Bool
  /-- Issued by a trap handler. -/
  hand : Bool
  deriving DecidableEq, Repr, Inhabited

/-! Logical devices. -/

/-- A root slot or a retired-root record (R48), with the accesses that its publisher made before it published (R51). -/
structure RootRec where
  full : Bool
  gen : Nat
  pins : Nat
  slot : Nat
  root : Nat
  past : List Nat
  deriving DecidableEq, Repr, Inhabited

/-- A queue of the queue block (R402) and its run state (R406) (DEDUCED, log 23). -/
structure Queue where
  eaddr : DWord
  estat : BitVec 8
  err : Bool
  en : Bool
  slot : BitVec 6
  tail : Word
  head : Word
  size : Word
  base : DWord
  /-- Open loops: first command, passes, index. -/
  loops : List (Nat × Nat × Nat)
  /-- Launches of the queue that have not completed, by GRIDID. -/
  live : List Nat
  /-- The command at HEAD, where it has been read and waits (WAIT, DRAIN, WAITPREV, PSWAP). -/
  waiting : Option Nat
  /-- What happens before its commands: what writes of TAIL have released and reads of its commands acquired (R404, R406). -/
  past : List Nat
  deriving DecidableEq, Repr, Inhabited

/-- Reclamation to be done (R57): append a record, or let an entry of a released node give up its count. -/
inductive Reclaim where
  | append (w : DWord)
  | dropEntry (e : DWord)
  deriving DecidableEq, Repr, Inhabited

/-- An image loaded under a root generation (R413, R414): its pointer, supervisor attribute, code section and size, the
native words made of Dweique code, ladder section, kernel-table entries with their side tables (DEDUCED, log 15). -/
structure Image where
  gen : Nat
  img : Ptr
  sup : Bool
  code : Ptr
  csize : Nat
  words : List InsWord
  lads : Option Ptr
  kernels : List (Nat × List Nat)
  deriving DecidableEq, Repr, Inhabited

/-- A translation-cache entry (R59) that may differ from the tree: `gen` is the generation a leaf translation is tagged with, none
for a walk-cache entry; entry `idx` of a node was `e` when it was read (DESIGN CHOICE, log 64). -/
structure Cached where
  gen : Option Nat
  node : Nat
  idx : Nat
  e : Nat
  deriving DecidableEq, Repr, Inhabited

/-- A logical device. -/
structure LDev where
  id : Nat
  pubNext : Nat
  slots : List RootRec
  retired : List RootRec
  /-- Privileged registers of LD scope by number (R397). -/
  preg : Store 64
  queues : List Queue
  /-- Other words of the queue block by offset (R403, R427, R451, network pairs). -/
  qb : Store 64
  gridCtr : Nat
  reclaim : List Reclaim
  /-- Posted and completed counts of the network pairs (R454, R455). -/
  netPosted : List Nat
  netDone : List Nat
  /-- What writes of a pair's TAIL have released (R143). -/
  netPast : List (List Nat)
  /-- What its host's reads have brought (R146). -/
  hostPast : List Nat
  /-- An LDRESET under way (R440). -/
  resetting : Bool
  images : List Image
  /-- Translation caches (R59): entries that may differ from the trees. -/
  tcache : List Cached
  deriving DecidableEq, Repr, Inhabited

/-! Memory side. -/

/-- The hotness monitor of a controller (R61, R62): counters by 4096 × row + column, the list, the interval number. -/
structure Hot where
  ctr : Store 16
  list : List (Nat × Nat)
  ivl : Nat
  deriving DecidableEq, Repr, Inhabited

/-- Scrub state of a pseudo-channel (R104 to R106): scores (row, bank, score) in order of entry, hot list, the
sector of the pass that the patrol reads next. -/
structure Scrub where
  scores : List (Nat × Nat × Nat)
  hot : List (Nat × Nat)
  pos : Nat
  deriving DecidableEq, Repr, Inhabited

/-- A bank (R97): open row, and close timeout in ns. -/
structure BankRow where
  key : Nat
  row : Option Nat
  timeout : Nat
  deriving DecidableEq, Repr, Inhabited

/-- A line of a die cache (R98): die, its place (16 × set + way), the line of memory, its valid and its dirty sectors. What it
holds is what memory holds, but for words that DIAGST.sram has written (DESIGN CHOICE, log 62). -/
structure DLine where
  die : Nat
  slot : Nat
  line : Nat
  valid : Nat
  dirty : Nat
  deriving DecidableEq, Repr, Inhabited

/-- Words of an SRAM store that an ended group or team of a logical device has left (R92, R400): what they hold is not kept. -/
structure Stale where
  ld : Nat
  store : Nat
  unit : Nat
  lo : Nat
  hi : Nat
  deriving DecidableEq, Repr, Inhabited

/-- Power and thermal state (R11, R12, R461). -/
structure Power where
  on : Bool
  halted : Bool
  limited : Bool
  hotDies : List Nat
  /-- A package reset that waits for the dies to cool (R461). -/
  resetWait : Bool
  deriving DecidableEq, Repr, Inhabited

/-- A Nimbus hart's latch and tree port (R451, R453). -/
structure Hart where
  replyval : DWord
  opA : DWord
  opB : DWord
  opT : DWord
  d : DWord
  status : DWord
  /-- What its last read of memory gave (R145). -/
  rd : DWord
  /-- The order of its accesses (R124, R145), and its load reservation: address, size, what was read. -/
  ord : LaneOrd
  resv : Option (Nat × Nat × List Byte)
  deriving DecidableEq, Repr, Inhabited

/-- How a migration request stands (R65): asked for, moved, or lost to a competing request. -/
inductive MoveSt where
  | asked | won | lost
  deriving DecidableEq, Repr, Inhabited

/-- A migration request held by the arbiter (R65, R406): LD, slot, VA, towards the host, target, was the page already there, the
grid whose fault asked for it (none for a MIGRATE command), when it reached the arbiter, how it stands; result pointer, queue,
its slot and the command's pointer. -/
structure Migration where
  id : Nat
  ld : Nat
  slot : Nat
  va : Nat
  toHost : Bool
  frame : Nat
  was : Bool
  grid : Option Nat
  since : Nat
  st : MoveSt
  result : Ptr
  queue : Nat
  qslot : Nat
  cmd : Ptr
  deriving DecidableEq, Repr, Inhabited

/-- The entry an instruction is issuing from. -/
structure Issuing where
  r : GroupRef
  pc : Ptr
  prio : BitVec 8
  mask : LaneMask
  deriving DecidableEq, Repr, Inhabited

/-- The package. -/
structure State where
  /-- CYCLES (R250). -/
  cycle : Nat
  /-- Memory by physical address: HBM, host windows, expanders (R21). -/
  mem : List Host.Cell
  /-- Check bytes of sectors where they are not the computed ones, with bit 32 set (R100, R401). -/
  ecc : Store 33
  /-- Clear-pending lines, as ranges of line numbers (R441). -/
  clearPend : List (Nat × Nat)
  /-- Privileged registers of package scope by number (R397). -/
  preg : Store 64
  /-- Stacks whose CCBASE has been written (R107). -/
  ccSet : List Nat
  lds : List LDev
  grids : List Grid
  gangs : List Gang
  teams : List Team
  /-- Teams that have been stopped and whose far accesses or engine operations have not all ended (R432, R435). -/
  dying : List Team
  reqs : List Req
  memOps : List MemOp
  netOps : List NetOp
  far : List Far
  rels : List RelTag
  /-- Performed writes that readers may miss, oldest first; what performed acquires, reads and operations bring with them;
  completed FENCE.ar in their order F (R127). -/
  hist : List Wr
  joins : List (Nat × List Nat)
  arDone : List RelTag
  harts : List Hart
  hot : List Hot
  scrub : List (Nat × Scrub)
  banks : List BankRow
  dcache : List DLine
  power : Power
  /-- Strait ports and Ethernet ports with their link up; expander ports retraining (R392, R457, R459). -/
  straitUp : List Nat
  ethUp : List Nat
  retrain : List Nat
  /-- MSI-X vectors raised: LD, vector (R450). -/
  msix : List (Nat × Nat)
  /-- The last answer to a host's read through an HDM window (R24): LD, bytes; none for data with poison set. -/
  hdmRead : Option (Nat × Option (List Byte))
  /-- SRAM words given by DIAGST, by (store, unit, word): data and check bits (R400, R401). -/
  sram : List (Nat × Nat × Nat × Nat × Nat)
  stale : List Stale
  /-- Frames that KVGET has given and that no KVPUT has returned (R112, R358). -/
  kvPages : List Nat
  /-- Shadow stores in Partition state: cluster, LD (R88). -/
  shadow : List (Nat × Nat)
  migrations : List Migration
  /-- Pages that have moved (R65): LD, slot, page, and the sampling interval in which they did. -/
  moved : List (Nat × Nat × Nat × Nat)
  drives : Store 8
  driveCache : List DriveWrite
  driveWritten : Store 1
  /-- Ready sequence, last LD served, last core placed on, candidates that fit nowhere: LD, grid, gang, since which cycle
  (R415 to R417). -/
  readySeq : Nat
  lastLd : Nat
  lastCore : Nat
  unfit : List (Nat × Nat × Nat × Nat)
  /-- The number of the next far access, request, command or transfer. -/
  nextId : Nat
  /-- The model's own: steps asked for, counter of free choices, counter of free values, the entry that issues. -/
  agenda : List Instr
  choices : Nat
  frees : Nat
  issuing : Option Issuing
  deriving DecidableEq, Repr, Inhabited

/-- Why the machine stops (DESIGN CHOICE, log 57). -/
inductive Fault where
  /-- Raised by exec of a group's instruction when no entry is issuing: such an instruction runs only when its group
  issues it (R152). Safe: the model stops. -/
  | noIssue
  deriving DecidableEq, Repr

/-- Why a step has no meaning. -/
inductive Refusal where
  /-- Raised by an arm of exec that has no meaning yet. Safe: the model stops. -/
  | notModelled (mnemonic : String)
  deriving DecidableEq, Repr

/-! Reset. -/

/-- An empty root slot (R52). -/
def emptyRoot : RootRec := ⟨false, 0, 0, 0, 0, []⟩

/-- A queue after reset (DESIGN CHOICE, log 1). -/
def resetQueue : Queue := ⟨0, 0, false, false, 0, 0, 0, 0, 0, [], [], none, []⟩

/-- Privileged registers of a logical device after reset: FARTMO 100 (R397); the others 0 (DESIGN CHOICE, log 1). -/
def resetLdRegs : Store 64 := [(0x400, 100)]

/-- Queue-block words after reset: PREWIN 50 (R403); the others 0. -/
def resetQb : Store 64 := [(0x250, 50)]

/-- A logical device after power-on reset. -/
def resetLd (n : Nat) : LDev :=
  ⟨n, 1, List.replicate 64 emptyRoot, List.replicate 256 emptyRoot, resetLdRegs, List.replicate 9 resetQueue, resetQb, 1,
    [], List.replicate 8 0, List.replicate 8 0, List.replicate 8 [], [], false, [], []⟩

/-- Package registers after reset: CCBASE 2^36 on every stack (R107), HOTINT 4, POWERLIM 4500 (R397, R11); others 0. -/
def resetRegs : Store 64 :=
  [(0x800, 0x1000000000), (0x801, 0x1000000000), (0x802, 0x1000000000), (0x803, 0x1000000000), (0x804, 0x1000000000),
    (0x805, 0x1000000000), (0x806, 0x1000000000), (0x807, 0x1000000000), (0x810, 4), (0x811, 4500)]

/-- The machine right after power-on reset (R92, R397, R440, R460): no grid, every slot empty, memory with nothing
listed. -/
def State.reset : State where
  cycle := 0
  mem := []
  ecc := []
  clearPend := []
  preg := resetRegs
  ccSet := []
  lds := (List.range 16).map resetLd
  grids := []
  gangs := []
  teams := []
  dying := []
  reqs := []
  memOps := []
  netOps := []
  far := []
  rels := []
  hist := []
  joins := []
  arDone := []
  harts := List.replicate 20 ⟨0, 0, 0, 0, 0, 0, 0, ⟨0, [], [], [], []⟩, none⟩
  hot := List.replicate 8 ⟨[], [], 0⟩
  scrub := []
  banks := []
  dcache := []
  power := ⟨true, false, false, [], false⟩
  straitUp := []
  ethUp := []
  retrain := []
  msix := []
  hdmRead := none
  sram := []
  stale := []
  kvPages := []
  shadow := []
  migrations := []
  moved := []
  drives := []
  driveCache := []
  driveWritten := []
  readySeq := 0
  lastLd := 15
  lastCore := 351
  unfit := []
  nextId := 0
  agenda := []
  choices := 0
  frees := 0
  issuing := none

end Sys2Proof.Machine
end

