-- ==== Sys2Proof/Machine/Mem.lean ====
section
/-! DEFINITION. Physical memory (spec/04_device_memory.md R93 to R106, R441; spec/01_address_spaces.md R21): sectors and their
check bytes, poison, clear-pending lines, the hotness sketch, row state, the event log (R462), and the reads and
writes of bytes that every agent goes through. -/

namespace Sys2Proof.Machine

/-! The map of R21. -/

/-- The areas of physical space (R21). -/
inductive Area where
  | hbm (stack : Nat) | regs | host (ld : Nat) | expander | reserved
  deriving DecidableEq, Repr

/-- The area of a physical address (R21). -/
def areaOf (pa : Nat) : Area :=
  let top := pa / 2 ^ 48
  if pa < 2 ^ 39 then .hbm (pa / 2 ^ 36)
  else if top = 0 then (if 0xFF0000000000 ≤ pa then .regs else .reserved)
  else if top = 1 then .host (pa / 2 ^ 44 % 16)
  else if top = 2 ∨ top = 3 then .expander
  else .reserved

/-- Is the address in HBM. -/
def isHbm (pa : Nat) : Bool := pa < 2 ^ 39

/-! GF(2^8) and the Reed-Solomon code (R100). -/

/-- Multiplication by x modulo x^8 + x^4 + x^3 + x^2 + 1. -/
def gfX (a : Nat) : Nat := if a < 128 then 2 * a else (2 * a) ^^^ 0x11D

/-- Product of two symbols. -/
def gfMul (a b : Nat) : Nat :=
  ((List.range 8).foldl (fun (st : Nat × Nat) i => (if b.testBit i then st.1 ^^^ st.2 else st.1, gfX st.2)) (0, a)).1

/-- α^i. -/
def gfExp (i : Nat) : Nat := (List.range i).foldl (fun a _ => gfX a) 1

/-- The check bytes of 32 data bytes, check byte 0 lowest: the remainder of d(x)·x^4 by
g(x) = x^4 + 0x0F x^3 + 0x36 x^2 + 0x78 x + 0x40. -/
def rsCheck (data : List Byte) : Nat :=
  let r := data.foldl (fun (c : Nat × Nat × Nat × Nat) d =>
    let f := d.toNat ^^^ c.1
    (c.2.1 ^^^ gfMul f 0x0F, c.2.2.1 ^^^ gfMul f 0x36, c.2.2.2 ^^^ gfMul f 0x78, gfMul f 0x40)) (0, 0, 0, 0)
  r.1 + 256 * r.2.1 + 65536 * r.2.2.1 + 16777216 * r.2.2.2

/-- Syndrome k of the 36 symbols, first symbol the coefficient of x^35. -/
def rsSyn (sym : List Nat) (k : Nat) : Nat := sym.foldl (fun acc c => gfMul acc (gfExp k) ^^^ c) 0

/-- The decoder (R100): the corrected symbols with whether something was corrected, or none where the error is not
correctable (DEDUCED, log 60). -/
def rsDecode (sym : List Nat) : Option (List Nat × Bool) :=
  let s0 := rsSyn sym 0
  let s1 := rsSyn sym 1
  let s2 := rsSyn sym 2
  let s3 := rsSyn sym 3
  if s0 = 0 ∧ s1 = 0 ∧ s2 = 0 ∧ s3 = 0 then some (sym, false)
  else
    match (List.range 36).find? fun i =>
        let x := gfExp (35 - i)
        s0 ≠ 0 && s1 = gfMul s0 x && s2 = gfMul s1 x && s3 = gfMul s2 x with
    | none => none
    | some i => some (lset sym i ((sym.getD i 0) ^^^ s0), true)

/-! Stored bytes. -/

/-- Is a line clear-pending (R441). -/
def isPend (s : State) (line : Nat) : Bool := s.clearPend.any fun r => r.1 ≤ line && line < r.2

/-- Ranges without one line. -/
def dropLine (rs : List (Nat × Nat)) (line : Nat) : List (Nat × Nat) :=
  rs.flatMap fun r =>
    if r.1 ≤ line ∧ line < r.2 then
      (if r.1 < line then [(r.1, line)] else []) ++ (if line + 1 < r.2 then [(line + 1, r.2)] else [])
    else [r]

/-- The stored bytes from a physical address, whatever their check bytes. -/
def storedBytes (s : State) (pa k : Nat) : List Byte := (List.range k).map fun i => stGet s.mem (pa + i)

/-- The stored check bytes of a sector. -/
def storedCheck (s : State) (sec : Nat) : Nat :=
  let e := stGet s.ecc sec
  if e.getLsbD 32 then e.toNat % 2 ^ 32 else rsCheck (storedBytes s (32 * sec) 32)

/-- What a sector decodes to. -/
inductive SecSt where
  | good (bytes : List Byte)
  | corrected (bytes : List Byte)
  | poisoned
  | bad
  deriving DecidableEq, Repr

/-- Decode a sector (R100, R101, R441): a clear-pending line reads zeros, the poison pattern is tested first. -/
def secDecode (s : State) (sec : Nat) : SecSt :=
  if isPend s (sec / 4) then .good (List.replicate 32 0)
  else
    let e := stGet s.ecc sec
    let d := storedBytes s (32 * sec) 32
    if !e.getLsbD 32 then .good d
    else
      let chk := e.toNat % 2 ^ 32
      if chk = 0xFFFFFFFF ∧ d.all (· == 0) then .poisoned
      else
        match rsDecode (d.map BitVec.toNat ++ (bytesOf chk 4).map BitVec.toNat) with
        | none => .bad
        | some (sym, fixed) =>
          let b := (sym.take 32).map (BitVec.ofNat 8)
          if fixed then .corrected b else .good b

/-- Store bytes as they are. -/
def pokeBytes (s : State) (pa : Nat) (bs : List Byte) : State :=
  { s with mem := stSetAll s.mem ((List.range bs.length).map fun i => (pa + i, bs.getD i 0)) }

/-- Begin a write to a line: zeros where it is clear-pending (R441). -/
def openLine (s : State) (line : Nat) : State :=
  if isPend s line then
    { s with
      mem := stClear s.mem (128 * line) (128 * line + 128)
      ecc := stClear s.ecc (4 * line) (4 * line + 4)
      clearPend := dropLine s.clearPend line }
  else s

/-- Give a sector the poison pattern (R101). -/
def poisonSec (s : State) (sec : Nat) : State :=
  let s := openLine s (sec / 4)
  { s with mem := stClear s.mem (32 * sec) (32 * sec + 32), ecc := stSet s.ecc sec 0x1FFFFFFFF#33 }

/-- Give a sector 32 bytes and fresh check bytes. -/
def freshSec (s : State) (sec : Nat) (bs : List Byte) : State :=
  let s := pokeBytes s (32 * sec) bs
  { s with ecc := stSet s.ecc sec 0 }

/-! Registers that memory operations touch. -/

/-- A package register (R397). -/
def pkgReg (s : State) (n : Nat) : Nat := (stGet s.preg n).toNat

/-- The package registers with one written. -/
def setPkgReg (s : State) (n : Nat) (x : Nat) : State := { s with preg := stSet s.preg n (BitVec.ofNat 64 x) }

/-- Raise an MSI-X vector (R450); one already pending may be merged with it. -/
def raiseMsix (s : State) (ld vec : Nat) : State :=
  if s.msix.contains (ld, vec) then s else { s with msix := s.msix ++ [(ld, vec)] }

/-- Write whole sectors with fresh check bytes: records of the event log, which are sectors of their own (R462). -/
def sectorWrite (s : State) (pa : Nat) (bs : List Byte) : State :=
  let s := (List.range ((pa + bs.length + 127) / 128 - pa / 128)).foldl (fun s i => openLine s (pa / 128 + i)) s
  let s := pokeBytes s pa bs
  { s with ecc := stClear s.ecc (pa / 32) ((pa + bs.length + 31) / 32) }

/-- The frame-table entry's address of a physical address, where it has one (R43). -/
def frameEntPa (s : State) (pa : Nat) : Option Nat :=
  let base := pkgReg s 0x402
  if isHbm pa then some (base + 8 * (pa / 2 ^ 16))
  else if pa / 2 ^ 49 = 1 then
    let k := pa % 2 ^ 50 / 2 ^ 16 - 2 ^ 33
    if k < pkgReg s 0x812 then some (base + 2 ^ 26 + 8 * k) else none
  else none

/-- Decoded bytes of memory as hardware reads its tables: what an access at this moment would be given. -/
def peekBytes (s : State) (pa k : Nat) : List Byte :=
  (List.range k).map fun i =>
    if isPend s ((pa + i) / 128) then 0
    else if isHbm (pa + i) then
      if (stGet s.ecc ((pa + i) / 32)).getLsbD 32 then
        match secDecode s ((pa + i) / 32) with
        | .good b => b.getD ((pa + i) % 32) 0
        | .corrected b => b.getD ((pa + i) % 32) 0
        | _ => 0
      else stGet s.mem (pa + i)
    else stGet s.mem (pa + i)

/-- A little-endian number that hardware reads from its tables. -/
def peek (s : State) (pa k : Nat) : Nat := ofBytes (peekBytes s pa k)

/-- The frame-table entry of a physical address, 0 where it has none (R43, R44). -/
def frameEnt (s : State) (pa : Nat) : Nat :=
  match frameEntPa s pa with
  | none => 0
  | some a => peek s a 8

/-! DRAM geometry (R94), row state (R97), scores (R105, R106), the sketch (R61, R62). -/

/-- Row, bank, pseudo-channel and column of an HBM address (R94). -/
def dramLoc (s : State) (pa : Nat) : Nat × Nat × Nat × Nat :=
  let o := pa % 2 ^ 36
  let row := fld o 22 14
  if o ≥ pkgReg s (0x800 + pa / 2 ^ 36) then
    (row, 16 * fld o 21 1 + fld o 17 4, fld o 11 6, fld o 0 11)
  else
    (row, fld o 17 5 ^^^ fld o 28 5, fld o 7 6 ^^^ fld o 22 6, fld o 13 4 * 128 + fld o 0 7)

/-- The banks after a column command (R97): the open-page policy. -/
def rowsAfter (s : State) (pa : Nat) : List BankRow :=
  let l := dramLoc s pa
  let key := (pa / 2 ^ 36 * 64 + l.2.2.1) * 32 + l.2.1
  let old := (s.banks.find? (·.key == key)).getD ⟨key, none, 128⟩
  let t := match old.row with
    | none => old.timeout
    | some r => if r = l.1 then min 512 (2 * old.timeout) else max 16 (old.timeout / 2)
  ⟨key, some l.1, t⟩ :: s.banks.filter (·.key != key)

/-- The column of row i of the sketch for a frame (R61). -/
def hotCol (i x : Nat) : Nat :=
  let m := [0x9E3779B1, 0x85EBCA77, 0xC2B2AE3D, 0x27D4EB2F].getD i 0
  fld (x * m) 20 12

/-- Is a listed frame a better victim: smaller estimate, then higher frame (R62). -/
def hotWorse (a b : Nat × Nat) : Bool := a.2 < b.2 || (a.2 == b.2 && b.1 < a.1)

/-- The list after a frame's new estimate (R62). -/
def hotList (l : List (Nat × Nat)) (x est : Nat) : List (Nat × Nat) :=
  if l.any (·.1 == x) then l.map fun e => if e.1 = x then (x, est) else e
  else if l.length < 32 then l ++ [(x, est)]
  else
    match l with
    | [] => [(x, est)]
    | e :: r =>
      let v := r.foldl (fun v y => if hotWorse y v then y else v) e
      if v.2 < est then l.map fun y => if y = v then (x, est) else y else l

/-- The monitors after one column command (R61, R62) (DEDUCED, log 55). -/
def hotAfter (s : State) (pa : Nat) : List Hot :=
  let st := pa / 2 ^ 36
  let x := pa / 2 ^ 16
  let h := s.hot.getD st ⟨[], [], 0⟩
  let ctr := (List.range 4).foldl (fun c i =>
    let k := 4096 * i + hotCol i x
    let v := (stGet c k).toNat
    stSet c k (BitVec.ofNat 16 (min 65535 (v + 1)))) h.ctr
  let est := (List.range 4).foldl (fun m i => min m (stGet ctr (4096 * i + hotCol i x)).toNat) 65535
  lset s.hot st { h with ctr := ctr, list := hotList h.list x est }

/-- A column command at a controller, where one is made: the sketch and the row (R61, R62, R95, R97). -/
def colCmd (s : State) (b : Bool) (pa : Nat) : State :=
  { s with hot := if b then hotAfter s pa else s.hot, banks := if b then rowsAfter s pa else s.banks }

/-! SRAM words that DIAGST.sram has written (R91, R400). -/

/-- A word of an SRAM store: store, unit, word (R400). -/
abbrev SramKey := Nat × Nat × Nat

/-- The data and check bits listed for a word. -/
def sramAt (s : State) (k : SramKey) : Option (Nat × Nat) :=
  (s.sram.find? fun w => (w.1, w.2.1, w.2.2.1) = k).map fun w => (w.2.2.2.1, w.2.2.2.2)

/-- A word is listed no more. -/
def sramDrop (s : State) (k : SramKey) : State :=
  { s with sram := s.sram.filter fun w => !decide ((w.1, w.2.1, w.2.2.1) = k) }

/-! The die caches (R98, R99). -/

/-- The die whose cache holds a line. -/
def dieOf (line : Nat) : Nat := line / 2 ^ 30

/-- The line of a die cache that holds a line of memory. -/
def dieLine (s : State) (line : Nat) : Option DLine := s.dcache.find? fun d => d.line == line

/-- The words of store 0x07 that hold a sector of a cached line (R400) (DESIGN CHOICE, log 62). -/
def dieWords (d : DLine) (sec : Nat) : List SramKey := (List.range 4).map fun i => (7, d.die, 16 * d.slot + 4 * (sec % 4) + i)

/-- The sectors of a line that a run of bytes within it meets, as a mask, and those it covers whole. -/
def sectorMask (pa k : Nat) : Nat :=
  (List.range 4).foldl (fun m i => if pa % 128 < 32 * i + 32 ∧ 32 * i < pa % 128 + k then m + 2 ^ i else m) 0
def wholeMask (pa k : Nat) : Nat :=
  (List.range 4).foldl (fun m i => if pa % 128 ≤ 32 * i ∧ 32 * i + 32 ≤ pa % 128 + k then m + 2 ^ i else m) 0

/-- The sectors of a mask that another lacks. -/
def maskLess (a b : Nat) : Nat := a - (a &&& b)

/-- A word that leaves a die cache: what DIAGST gave it reaches memory with a dirty sector, and is gone with a clean one; an
uncorrectable one poisons its sector (R99). -/
def dieWordOut (s : State) (d : DLine) (k : SramKey) : State :=
  match sramAt s k with
  | none => s
  | some (x, chk) =>
    let i := k.2.2 % 16
    let s := sramDrop s k
    if !d.dirty.testBit (i / 4) then s
    else match Config.sramDecode 64 x chk with
      | some y => pokeBytes s (128 * d.line + 8 * i) (bytesOf y 8)
      | none => poisonSec s (4 * d.line + i / 4)

/-- What DIAGST gave the words of a cached line leaves with it. -/
def dieOut (s : State) (d : DLine) : State :=
  if s.sram.isEmpty then s else (List.range 16).foldl (fun s i => dieWordOut s d (7, d.die, 16 * d.slot + i)) s

/-- A request passes through the die cache (R98): the sectors it needs are filled where they are not valid, the sectors it
writes become dirty. A miss is one column command, as the write-back of the dirty sectors of a line that is displaced is (R95).
Which way of its set a line takes is open (DESIGN CHOICE, log 62). -/
def dieAccess (s : State) (line need put : Nat) : State :=
  let old := dieLine s line
  let held := (old.map DLine.valid).getD 0
  let slot := match old with
    | some d => d.slot
    | none => Config.diePlace s.cycle line % 2 ^ 19
  let victim := s.dcache.find? fun d => d.die == dieOf line && d.slot == slot && d.line != line
  let s := if s.sram.isEmpty then s else match victim with
    | none => s
    | some d => dieOut s d
  let s := colCmd s (maskLess need held != 0) (128 * line)
  let s := colCmd s ((victim.map DLine.dirty).getD 0 != 0) (128 * (victim.map DLine.line).getD 0)
  { s with dcache := ⟨dieOf line, slot, line, held ||| need ||| put, (old.map DLine.dirty).getD 0 ||| put⟩ ::
      s.dcache.filter fun d => !(d.die == dieOf line && d.slot == slot) }

/-- The die cache gives up some sectors of a line, with a write-back of the dirty ones or without (R99, R401). -/
def dieDrop (s : State) (line mask : Nat) (back : Bool) : State :=
  match dieLine s line with
  | none => s
  | some d =>
    let s := (List.range 4).foldl (fun s i => if mask.testBit i then (dieWords d i).foldl (fun s k =>
      if back then dieWordOut s d k else sramDrop s k) s else s) s
    let s := colCmd s (back && (d.dirty &&& mask) != 0) (128 * line)
    let y : DLine := { d with valid := maskLess d.valid mask, dirty := maskLess d.dirty mask }
    { s with dcache := (if y.valid = 0 then [] else [y]) ++ s.dcache.filter fun x => x.line != line }

/-- The dirty sectors of a range are written back, and stay cached (R99). -/
def dieClean (s : State) (pa k : Nat) : State :=
  let lo := pa / 128
  let hi := (pa + k + 127) / 128
  (s.dcache.filter fun d => lo ≤ d.line && d.line < hi && d.dirty != 0).foldl (fun s d =>
    let s := colCmd (dieOut s d) true (128 * d.line)
    { s with dcache := s.dcache.map fun x => if x.line = d.line then { x with dirty := 0 } else x }) s

/-- A range is invalid in the die cache (R99). -/
def dieInval (s : State) (pa k : Nat) : State :=
  let lo := pa / 128
  let hi := (pa + k + 127) / 128
  let gone (d : DLine) : Bool := lo ≤ d.line && d.line < hi
  let s := (s.dcache.filter gone).foldl (fun s d => (List.range 16).foldl (fun s i => sramDrop s (7, d.die, 16 * d.slot + i)) s) s
  { s with dcache := s.dcache.filter fun d => !gone d }

/-- Post an event to the log (R462). -/
def logEvent (s : State) (kind cause detail ld addr aux : Nat) : State :=
  let size := pkgReg s 0x819
  let prod := pkgReg s 0x81A
  if (prod + 2 ^ 64 - pkgReg s 0x81B) % 2 ^ 32 < size then
    let x := kind + cause * 2 ^ 8 + detail % 256 * 2 ^ 16 + ld * 2 ^ 28 + addr % 2 ^ 64 * 2 ^ 64 + aux % 2 ^ 64 * 2 ^ 128
      + s.cycle % 2 ^ 64 * 2 ^ 192
    let at' := pkgReg s 0x818 + 32 * (prod % size)
    let s := dieAccess s (at' / 128) 0 (sectorMask at' 32)
    let s := sectorWrite s at' (bytesOf x 32)
    raiseMsix (setPkgReg s 0x81A ((prod + 1) % 2 ^ 32)) 0 2
  else setPkgReg s 0x81C (pkgReg s 0x81C + 1)

/-- The scrub record of a pseudo-channel, key 64 × stack + pc. -/
def scrubOf (s : State) (k : Nat) : Scrub := ((s.scrub.find? (·.1 == k)).map (·.2)).getD ⟨[], [], 0⟩

/-- Replace it. -/
def setScrub (s : State) (k : Nat) (x : Scrub) : State := { s with scrub := (k, x) :: s.scrub.filter (·.1 != k) }

/-- The score of a row, 0 where it has none. -/
def scoreOf (x : Scrub) (row bank : Nat) : Nat :=
  ((x.scores.find? fun e => e.1 == row && e.2.1 == bank).map (·.2.2)).getD 0

/-- The lowest-scored entry of a full table, the earliest on a tie (R105). -/
def lowestScore : List (Nat × Nat × Nat) → Option (Nat × Nat × Nat)
  | [] => none
  | e :: r => match lowestScore r with
    | none => some e
    | some f => if f.2.2 < e.2.2 then some f else some e

/-- Set a row's score, entering both lists (R105). Of several lowest entries the earliest in the hot list is replaced, and a row
that the score table evicts stays on the hot list until the patrol passes it (DESIGN CHOICE, log 63). -/
def putScore (x : Scrub) (row bank sc : Nat) : Scrub :=
  let present := x.scores.any fun e => e.1 == row && e.2.1 == bank
  let scores :=
    if present then x.scores.map fun e => if e.1 = row ∧ e.2.1 = bank then (row, bank, sc) else e
    else
      let l := if x.scores.length < 256 then x.scores
        else match lowestScore x.scores with
          | none => x.scores
          | some v => x.scores.erase v
      l ++ [(row, bank, sc)]
  let x := { x with scores := scores }
  if x.hot.contains (row, bank) then x
  else if x.hot.length < 64 then { x with hot := x.hot ++ [(row, bank)] }
  else
    match lowestScore (x.hot.map fun h => (h.1, h.2, scoreOf x h.1 h.2)) with
    | none => x
    | some v => { x with hot := (x.hot.erase (v.1, v.2.1)) ++ [(row, bank)] }

/-- The frames whose bytes lie in the row of an address (R106), by physical address. -/
def rowFrames (s : State) (pa : Nat) : List Nat :=
  if pa % 2 ^ 36 ≥ pkgReg s (0x800 + pa / 2 ^ 36) then [pa / 2 ^ 21 * 2 ^ 21]
  else
    let f := pa / 2 ^ 16 * 2 ^ 16
    let lo := f - fld f 16 1 * 2 ^ 16
    [lo, lo + 2 ^ 16]

/-- A corrected error (R103, R105, R106): the counter, the row's score, a retirement request at 64. -/
def corrected (s : State) (pa : Nat) : State :=
  let st := pa / 2 ^ 36
  let s := setPkgReg s (0xA60 + st) (pkgReg s (0xA60 + st) + 1)
  let l := dramLoc s pa
  let k := 64 * st + l.2.2.1
  let x := scrubOf s k
  let old := scoreOf x l.1 l.2.1
  let new := min 255 (old + 16)
  if old < 64 ∧ 64 ≤ new then
    let s := setScrub s k (putScore x l.1 l.2.1 255)
    (rowFrames s pa).foldl (fun s f => logEvent s 0x02 0 0 (fld (frameEnt s f) 60 4) f new) s
  else setScrub s k (putScore x l.1 l.2.1 new)

/-! Accesses. -/

/-- How a read ended. -/
inductive RdSt where
  | ok | poison | uncorr
  deriving DecidableEq, Repr, Inhabited

/-- The words of a sector as its die cache holds them, where DIAGST.sram has written one (R98, R99, R401): the bytes, or none
where one is uncorrectable. -/
def dieBytes (s : State) (d : DLine) (sec : Nat) (bs : List Byte) : Option (List Byte) :=
  (dieWords d sec).zipIdx.foldl (fun o k => o.bind fun bs => match sramAt s k.1 with
    | none => some bs
    | some (x, chk) => (Config.sramDecode 64 x chk).map fun y => bs.take (8 * k.2) ++ bytesOf y 8 ++ bs.drop (8 * k.2 + 8)) (some bs)

/-- The event of an uncorrectable sector (R101, R462). -/
def logBad (s : State) (sec : Nat) : State :=
  logEvent (poisonSec s sec) 0x01 0 0 (fld (frameEnt s (32 * sec)) 60 4) (32 * sec) 0

/-- Pass a sector through the decoders as a read does (R99, R101, R103) (DEDUCED, log 12). -/
def readSec (s : State) (sec : Nat) : List Byte × RdSt × State :=
  match secDecode s sec with
  | .poisoned => (List.replicate 32 0, .poison, s)
  | .bad => (List.replicate 32 0, .uncorr, logBad s sec)
  | .corrected b => (b, .ok, corrected (freshSec s sec b) (32 * sec))
  | .good b =>
    if s.sram.isEmpty then (b, .ok, s)
    else match dieLine s (sec / 4) with
      | none => (b, .ok, s)
      | some d => match dieBytes s d sec b with
        | some b => (b, .ok, s)
        | none => (List.replicate 32 0, .uncorr, logBad ((dieWords d sec).foldl sramDrop s) sec)

/-- Split a run of bytes at boundaries of n bytes: (address, length) pieces; `fuel` bounds their number. -/
def piecesBy (n : Nat) : Nat → Nat → Nat → List (Nat × Nat)
  | 0, _, _ => []
  | fuel + 1, pa, k =>
    if k = 0 then []
    else
      let m := min k (n - pa % n)
      (pa, m) :: piecesBy n fuel (pa + m) (k - m)

/-- Split a run of bytes at sector boundaries. -/
def pieces (fuel pa k : Nat) : List (Nat × Nat) := piecesBy 32 fuel pa k

/-- A read of bytes within one sector that its request has brought into the die cache, or outside HBM (R95, R102). -/
def readIn (s : State) (pa k : Nat) : List Byte × RdSt × State :=
  if isHbm pa then
    let r := readSec s (pa / 32)
    ((r.1.drop (pa % 32)).take k, r.2.1, r.2.2)
  else (if isPend s (pa / 128) then List.replicate k 0 else (List.range k).map fun i => stGet s.mem (pa + i), .ok, s)

/-- The line requests of a run of bytes (R95); a clear-pending line is not read (R441). -/
def readLines (s : State) (pa k : Nat) : State :=
  (piecesBy 128 (k / 128 + 2) pa k).foldl (fun s p =>
    if isHbm p.1 && !isPend s (p.1 / 128) then dieAccess s (p.1 / 128) (sectorMask p.1 p.2) 0 else s) s

/-- A read of any run of bytes; its status is the first that is not ok. -/
def readMem (s : State) (pa k : Nat) : List Byte × RdSt × State :=
  (pieces (k / 32 + 2) pa k).foldl (fun acc p =>
    let r := readIn acc.2.2 p.1 p.2
    (acc.1 ++ r.1, if acc.2.1 = .ok then r.2.1 else acc.2.1, r.2.2)) ([], .ok, readLines s pa k)

/-- What DIAGST gave the words of a cached sector is in memory before the sector is written in part. -/
def dieMerge (s : State) (sec : Nat) (bs : List Byte) : State :=
  if s.sram.isEmpty then s
  else match dieLine s (sec / 4) with
    | none => s
    | some d => pokeBytes ((dieWords d sec).foldl sramDrop s) (32 * sec) bs

/-- A write of bytes within one sector, or outside HBM (R96, R101, R441). -/
def writeIn (s : State) (pa : Nat) (bs : List Byte) : State :=
  if isHbm pa then
    let s := openLine s (pa / 128)
    let sec := pa / 32
    if bs.length = 32 then freshSec (dieMerge s sec bs) sec bs
    else if !(stGet s.ecc sec).getLsbD 32 && s.sram.isEmpty then pokeBytes s pa bs
    else
      let r := readSec s sec
      match r.2.1 with
      | .ok => freshSec (dieMerge r.2.2 sec r.1) sec (r.1.take (pa % 32) ++ bs ++ r.1.drop (pa % 32 + bs.length))
      | _ => r.2.2
  else pokeBytes (openLine s (pa / 128)) pa bs

/-- The line requests of a write (R95, R96): sectors written in part are read first, but for those of a clear-pending line. -/
def writeLines (s : State) (pa k : Nat) : State :=
  (piecesBy 128 (k / 128 + 2) pa k).foldl (fun s p =>
    if isHbm p.1 then
      let m := sectorMask p.1 p.2
      dieAccess s (p.1 / 128) (if isPend s (p.1 / 128) then 0 else maskLess m (wholeMask p.1 p.2)) m
    else s) s

/-- A write of any run of bytes. -/
def writeMem (s : State) (pa : Nat) (bs : List Byte) : State :=
  ((pieces (bs.length / 32 + 2) pa bs.length).foldl (fun (acc : State × List Byte) p =>
    (writeIn acc.1 p.1 (acc.2.take p.2), acc.2.drop p.2)) (writeLines s pa bs.length, bs)).1

/-- Write bytes that hardware itself writes for a table: a write like any other (R96). -/
def hwWrite (s : State) (pa : Nat) (bs : List Byte) : State := writeMem s pa bs

/-- Hardware reads bytes of a table at the controller (R101, R103): what the read leaves behind; the bytes are what `peek`
gives. -/
def tableRead (s : State) (pa k : Nat) : State := (readMem s pa k).2.2

end Sys2Proof.Machine
end

