-- ==== Sys2Proof/Machine/Xlate.lean ====
section
/-! DEFINITION. Pointers, bounds and translation (spec/01_address_spaces.md R13 to R24, spec/02_translation_trees.md R38 to
R60): captured bounds tables, walks, the sole-path rule, root slots, pins and reclamation. -/

namespace Sys2Proof.Machine

/-! Causes (R424). -/
def cILLOP : Nat := 0x01
def cRSVFLD : Nat := 0x02
def cPRIV : Nat := 0x03
def cOPCLASS : Nat := 0x04
def cRUNHAZ : Nat := 0x05
def cREGALIGN : Nat := 0x06
def cGENCODE : Nat := 0x07
def cREGBUDGET : Nat := 0x10
def cFRONTIER : Nat := 0x11
def cSTKLIM : Nat := 0x12
def cBARID : Nat := 0x13
def cROLE : Nat := 0x14
def cPARTN : Nat := 0x15
def cBUFRANGE : Nat := 0x20
def cFEPROTO : Nat := 0x21
def cMODREG : Nat := 0x22
def cGANGADDR : Nat := 0x23
def cNOTMAPPED : Nat := 0x30
def cNOPERM : Nat := 0x31
def cREGIONID : Nat := 0x32
def cREGIONBND : Nat := 0x33
def cNOEXEC : Nat := 0x34
def cFARALIGN : Nat := 0x35
def cFARTIMEOUT : Nat := 0x36
def cPOISON : Nat := 0x37
def cCPYVAL : Nat := 0x40
def cCPYBOUND : Nat := 0x41
def cCPYFAULT : Nat := 0x42
def cWINOVF : Nat := 0x43
def cSTRPROG : Nat := 0x44
def cNBCROSS : Nat := 0x45
def cNBATTR : Nat := 0x46
def cKVDRY : Nat := 0x47
def cLADFRAME : Nat := 0x48
def cLADRUNG : Nat := 0x49
def cBOUND : Nat := 0x50
def cUECONS : Nat := 0x51
def cTREEOP : Nat := 0x52
def cSWTRAP : Nat := 0x53
def cBKPT : Nat := 0x54
def cWATCHDOG : Nat := 0x55

/-- The kinds of access (R19). -/
inductive Acc where
  | read | write | atomic | fetch
  deriving DecidableEq, Repr

/-! Pointers (R13). -/

def ptrRid (p : Ptr) : Nat := (p.extractLsb' 56 8).toNat
def ptrVa (p : Ptr) : Nat := (p.extractLsb' 0 56).toNat
/-- A pointer of a region and an address modulo 2^56. -/
def mkPtr (rid va : Nat) : Ptr := BitVec.ofNat 64 (rid % 256 * 2 ^ 56 + va % 2 ^ 56)
/-- A pointer moved by a signed amount: the RID is kept, the VA taken modulo 2^56. -/
def ptrAdd (p : Ptr) (d : Int) : Ptr := mkPtr (ptrRid p) (((ptrVa p : Int) + d) % (2 ^ 56 : Nat)).toNat

/-! Logical devices. -/

/-- A logical device. -/
def ldOf (s : State) (n : Nat) : LDev := s.lds.getD n (resetLd n)

/-- Change one logical device. -/
def modLd (s : State) (n : Nat) (f : LDev → LDev) : State := { s with lds := lset s.lds n (f (ldOf s n)) }

/-- A privileged register of a logical device (R397). -/
def ldReg (s : State) (ld n : Nat) : Nat := (stGet (ldOf s ld).preg n).toNat

/-- Write one. -/
def setLdReg (s : State) (ld n x : Nat) : State := modLd s ld fun d => { d with preg := stSet d.preg n (BitVec.ofNat 64 x) }

/-- A queue-block word of a logical device (R403, R427, R451). -/
def qbWord (s : State) (ld off : Nat) : DWord := stGet (ldOf s ld).qb off

/-- Write one. -/
def setQb (s : State) (ld off : Nat) (x : DWord) : State := modLd s ld fun d => { d with qb := stSet d.qb off x }

/-! Bounds (R16, R19). -/

/-- The bounds check of R19 on a captured entry: none where it passes, else the cause and detail. -/
def boundsErr (e : BitVec 128) (rid va size : Nat) (k : Acc) : Option (Nat × Nat) :=
  let x := e.toNat
  let low := fld x 0 56
  let lim := fld x 64 56
  if rid = 0 ∨ !bit1 x 63 ∨ fld x 56 3 ≠ 0 ∨ fld x 120 8 ≠ 0 then some (cREGIONID, 0)
  else if va < low ∨ lim < va + size then some (cREGIONBND, 1)
  else
    let r := bit1 x 62
    let w := bit1 x 61
    let ok := match k with
      | .read => r
      | .write => w
      | .atomic => r && w && bit1 x 59
      | .fetch => bit1 x 60
    if ok then none else some (cREGIONBND, 2)

/-- The bounds table of a slot as it stands in memory (R16, R395): every entry invalid while a reserved field of the
header or of the slot's entry is nonzero. All 256 entries are those of one moment (DESIGN CHOICE, log 69). -/
def readBounds (s : State) (ld slot : Nat) : Store 128 × Nat :=
  let ctx := ldReg s ld 0x1
  let hdr := peek s ctx 32
  let ent := peek s (ctx + 32 + 16 * slot) 16
  let ten := fld ent 112 16
  if fld hdr 64 192 ≠ 0 ∨ fld hdr 52 12 ≠ 0 ∨ fld ent 52 60 ≠ 0 ∨ fld ent 0 12 ≠ 0 then ([], ten)
  else
    let btab := fld ent 12 40 * 2 ^ 12
    (stSetAll [] ((List.range 256).map fun i => (i, BitVec.ofNat 128 (peek s (btab + 16 * i) 16))), ten)

/-- What the capture of a slot's bounds table leaves at the memory controllers (R17, R103). -/
def boundsRead (s : State) (ld slot : Nat) : State :=
  let ctx := ldReg s ld 0x1
  let ent := peek s (ctx + 32 + 16 * slot) 16
  tableRead (tableRead (tableRead s ctx 32) (ctx + 32 + 16 * slot) 16) (fld ent 12 40 * 2 ^ 12) 4096

/-- One entry of a slot's table at this moment. -/
def readBoundsEnt (s : State) (ld slot rid : Nat) : BitVec 128 :=
  let ctx := ldReg s ld 0x1
  let hdr := peek s ctx 32
  let ent := peek s (ctx + 32 + 16 * slot) 16
  if fld hdr 64 192 ≠ 0 ∨ fld hdr 52 12 ≠ 0 ∨ fld ent 52 60 ≠ 0 ∨ fld ent 0 12 ≠ 0 then 0
  else BitVec.ofNat 128 (peek s (fld ent 12 40 * 2 ^ 12 + 16 * rid) 16)

/-! Frames and nodes (R43, R44, R45). -/

/-- KIND of a frame (R43, R46): 0 for a frame without an entry. -/
def frameKind (s : State) (pa : Nat) : Nat := fld (frameEnt s pa) 58 2
/-- OWNER of a frame. -/
def frameOwner (s : State) (pa : Nat) : Nat := fld (frameEnt s pa) 60 4
/-- COUNT of a frame. -/
def frameCount (s : State) (pa : Nat) : Nat := fld (frameEnt s pa) 0 32
/-- Has the frame a frame-table entry, and so a count (R45). -/
def frameCounted (s : State) (pa : Nat) : Bool := (frameEntPa s pa).isSome

/-- Write a frame's COUNT. -/
def setFrameCount (s : State) (pa c : Nat) : State :=
  match frameEntPa s pa with
  | none => s
  | some a => hwWrite s a (bytesOf (frameEnt s pa / 2 ^ 32 * 2 ^ 32 + c % 2 ^ 32) 8)

/-- The node-table entry's address of a node. -/
def nodeEntPa (s : State) (pa : Nat) : Nat := pkgReg s 0x403 + 8 * fld pa 13 26
/-- The node-table entry. -/
def nodeEnt (s : State) (pa : Nat) : Nat := peek s (nodeEntPa s pa) 8
/-- STATE of a node: 0 free, 1 private, 2 published (R44). -/
def nodeState (s : State) (pa : Nat) : Nat := fld (nodeEnt s pa) 62 2 % 3
/-- COUNT of a node. -/
def nodeCount (s : State) (pa : Nat) : Nat := fld (nodeEnt s pa) 0 32
/-- Write a node's STATE and COUNT. -/
def setNode (s : State) (pa st c : Nat) : State := hwWrite s (nodeEntPa s pa) (bytesOf (st * 2 ^ 62 + c % 2 ^ 32) 8)

/-- Entry i of a node (R38). -/
def nodeEntry (s : State) (node i : Nat) : Nat := peek s (node + 8 * i) 8

/-- Does a valid entry name a node (R394): its bits [51:13] lie in a frame of KIND 01. -/
def namesNode (s : State) (e : Nat) : Bool := isHbm (fld e 13 39 * 2 ^ 13) && frameKind s (fld e 13 39 * 2 ^ 13) == 1

/-- The node an interior entry names (R39). -/
def entNode (e : Nat) : Nat := fld e 13 39 * 2 ^ 13
/-- The frame a leaf entry names (R40). -/
def entFrame (e : Nat) : Nat := fld e 16 36 * 2 ^ 16

/-- Is an address a node of the logical device (R394). -/
def isNodeOf (s : State) (ld pa : Nat) : Bool :=
  pa % 2 ^ 13 == 0 && pa < 2 ^ 52 && isHbm pa && frameKind s pa == 1 && frameOwner s pa == ld

/-! Walks (R55). -/

/-- How a walk ends: the leaf and the nodes walked, or a cause and detail. -/
inductive WalkRes where
  | leaf (e : Nat) (nodes : List Nat)
  | err (cause detail : Nat)
  deriving DecidableEq, Repr, Inhabited

/-- The translation-cache entries that a walk through the root of a generation may use for an entry of a node in place of what
the node now holds (R59). -/
def cachedFor (s : State) (ld gen n i : Nat) : List Cached :=
  (ldOf s ld).tcache.filter fun c => c.node == n && c.idx == i && (match c.gen with
    | none => true
    | some g => g == gen)

/-- Entry i of a node as a walk through the root of a generation has it: from the node, or from a translation cache (R59;
DESIGN CHOICE, log 64). -/
def walkEntry (s : State) (ld gen n i : Nat) : Nat :=
  match cachedFor s ld gen n i with
  | [] => nodeEntry s n i
  | cs => (nodeEntry s n i :: cs.map Cached.e).getD (Config.cachePick s.frees (n / 8 + i) % (cs.length + 1)) 0

/-- The leaf entry an access to a page uses: its own, or, where that belongs to a 2 MiB mapping, any of the mapping's entries
(R41; DESIGN CHOICE, log 61). -/
def leafEntry (s : State) (ld gen n va : Nat) : Nat :=
  let i := fld va 16 10
  let e := walkEntry s ld gen n i
  if bit1 e 0 && bit1 e 8 then
    let l := ((List.range 32).map fun k => walkEntry s ld gen n (i / 32 * 32 + k)).filter fun x => bit1 x 0 && bit1 x 8
    l.getD (Config.largeEntry s.frees (va / 2 ^ 16) % l.length) e
  else e

/-- Levels 0 to 2, and the leaf. -/
def walkDown (s : State) (ld gen va : Nat) : Nat → Nat → List Nat → WalkRes
  | 0, n, path => .leaf (leafEntry s ld gen n va) (path ++ [n])
  | k + 1, n, path =>
    let e := walkEntry s ld gen n (fld va (16 + 10 * (k + 1)) 10)
    if !bit1 e 0 ∨ !namesNode s e then .err cNOTMAPPED 0 else walkDown s ld gen va k (entNode e) (path ++ [n])

/-- A root as a holder walks it: generation and level-0 node. -/
abbrev RootKey := Nat × Nat

/-- The root of a slot or record. -/
def RootRec.key (r : RootRec) : RootKey := (r.gen, r.root)

/-- The nodes that a walk comes to. -/
def walkPath (s : State) (ld gen va : Nat) : Nat → Nat → List Nat
  | 0, n => [n]
  | k + 1, n =>
    let e := walkEntry s ld gen n (fld va (16 + 10 * (k + 1)) 10)
    if !bit1 e 0 ∨ !namesNode s e then [n] else n :: walkPath s ld gen va k (entNode e)

/-- What the reads of a walk leave at the memory controllers (R61, R103): those of its entries, as far as it comes, and of its frame's
entry in the frame table. -/
def walkReads (s : State) (ld : Nat) (r : RootKey) (va : Nat) : State :=
  let t := (walkPath s ld r.1 va 3 r.2).zipIdx.foldl (fun s n => tableRead s (n.1 + 8 * fld va (46 - 10 * n.2) 10) 8) s
  match walkDown s ld r.1 va 3 r.2 [] with
  | .err _ _ => t
  | .leaf e _ => match frameEntPa s (entFrame e) with
    | none => t
    | some a => tableRead t a 8

/-- A walk, which a translation cache may spare its reads (R59; DESIGN CHOICE, log 64). -/
def walkRead (s : State) (ld : Nat) (r : RootKey) (va : Nat) : State :=
  let hit := Config.cacheHit s.frees (va / 2 ^ 16)
  let w := walkReads s ld r va
  if s.ecc.isEmpty && s.sram.isEmpty then
    { s with
      hot := if hit then s.hot else w.hot
      banks := if hit then s.banks else w.banks
      dcache := if hit then s.dcache else w.dcache }
  else if hit then s else w

/-- The area a TIER names agrees with the frame's (R55, R46). -/
def tierOk (e : Nat) : Bool :=
  match areaOf (entFrame e), fld e 9 2 with
  | .hbm _, 0 => true
  | .regs, 0 => true
  | .expander, 1 => true
  | .host _, 2 => true
  | _, _ => false

/-- The checks of R22 on a frame: is it another's, or in the device-register area for a user. -/
def ownerDenied (s : State) (ld : Nat) (user : Bool) (e : Nat) : Bool :=
  let f := entFrame e
  match areaOf f with
  | .regs => user
  | .host n => n != ld
  | .hbm _ => frameOwner s f != ld
  | .expander => frameOwner s f != ld
  | .reserved => false

/-- The physical address of an access through a leaf (R40, R41). -/
def leafPa (e va : Nat) : Nat := if bit1 e 8 then fld e 21 31 * 2 ^ 21 + va % 2 ^ 21 else entFrame e + va % 2 ^ 16

/-- SolePath (R55). -/
def solePath (s : State) (ld root : Nat) (nodes : List Nat) (e : Nat) : Bool :=
  let leafNode := nodes.getLastD root
  let f := entFrame e
  let same := ((List.range 1024).filter fun i =>
    let x := nodeEntry s leafNode i
    bit1 x 0 && entFrame x == f).length
  nodes.all (fun n => nodeCount s n == 1) &&
  (!frameCounted s f || frameCount s f == same) &&
  ((ldOf s ld).retired.filter fun r => r.full && r.root == root).length ≤ (if (ldOf s ld).slots.any fun r => r.full && r.root == root then 0 else 1)

/-- The translation of an access (R55, R42): the physical address and the leaf, or the cause and detail. -/
def translate (s : State) (ld : Nat) (root : RootKey) (user : Bool) (va : Nat) (k : Acc) : Except (Nat × Nat) (Nat × Nat) :=
  match walkDown s ld root.1 va 3 root.2 [] with
  | .err c d => .error (c, d)
  | .leaf e nodes =>
    if !bit1 e 0 ∨ fld e 9 2 = 3 ∨ !tierOk e then .error (cNOTMAPPED, 0)
    else if frameKind s (entFrame e) = 1 then .error (cNOPERM, 2)
    else if areaOf (entFrame e) = .expander ∧ !frameCounted s (entFrame e) then .error (cNOTMAPPED, 0)
    else if ownerDenied s ld user e then .error (cNOPERM, 2)
    else
      let r := bit1 e 1
      let w := bit1 e 2
      let denied := match k with
        | .read => !r
        | .write => !w
        | .atomic => !(r && w)
        | .fetch => false
      if denied then .error (cNOPERM, 1)
      else if k = .fetch ∧ !bit1 e 3 then .error (cNOEXEC, 0)
      else if (k = .write ∨ k = .atomic) ∧ bit1 e 7 ∧ !solePath s ld root.2 nodes e then .error (cNOPERM, 3)
      else .ok (leafPa e va, e)

/-- FarCheck (R200): bounds first, then translation, in the order of R20. An access never crosses a page unless it is a
fetch. -/
def farCheck (s : State) (ld : Nat) (root : RootKey) (bounds : Store 128) (user : Bool) (p : Ptr) (size : Nat) (k : Acc) :
    Except (Nat × Nat) (Nat × Nat) :=
  match boundsErr (stGet bounds (ptrRid p)) (ptrRid p) (ptrVa p) size k with
  | some e => .error e
  | none => translate s ld root user (ptrVa p) k

/-- Does an address lie behind an expander port whose link is down (R438, R459). -/
def linkDown (s : State) (pa : Nat) : Bool :=
  areaOf pa == .expander && pkgReg s (0x820 + Config.expanderPort (pa / 2 ^ 16) % 4) % 2 == 0

/-! Pins and reclamation (R47 to R60). -/

/-- Translation-cache entries are removed. -/
def dropCached (s : State) (ld : Nat) (p : Cached → Bool) : State :=
  modLd s ld fun d => { d with tcache := d.tcache.filter fun c => !p c }

/-- A node is released (R57): its walk-cache entries are removed, its entries are copied, it becomes free; what is still to be
done is its record and the counts of what it names. -/
def releaseNode (s : State) (ld n : Nat) : State × List Reclaim :=
  let es := ((List.range 1024).map fun i => nodeEntry s n i).filter fun e => bit1 e 0
  (setNode (tableRead (dropCached s ld fun c => c.node == n) n 8192) n 0 0,
    .append (BitVec.ofNat 64 (n + 1)) :: es.map fun e => .dropEntry (BitVec.ofNat 64 e))

/-- Work is added at the end of a logical device's reclamation. -/
def addReclaim (s : State) (ld : Nat) (ws : List Reclaim) : State := modLd s ld fun d => { d with reclaim := d.reclaim ++ ws }

/-- A node gives up one count; where none is left it is released (R57). -/
def dropNodeCount (s : State) (ld node : Nat) : State :=
  let c := nodeCount s node - 1
  let s := setNode s node (nodeState s node) c
  if c = 0 then
    let r := releaseNode s ld node
    addReclaim r.1 ld r.2
  else s

/-- A root of a generation gives up its count on its node: the leaf translations of the generation are removed (R57). -/
def giveUpRoot (s : State) (ld gen node : Nat) : State := dropNodeCount (dropCached s ld fun c => c.gen == some gen) ld node

/-- Change the PINS of the root of a generation by f, in its slot or its retired record; a retired root whose PINS
reaches zero is emptied and gives up its count (R54), but for a logical device that is being reset (R440). -/
def changePins (s : State) (ld gen : Nat) (f : Nat → Nat) : State :=
  let d := ldOf s ld
  if d.slots.any fun r => r.full && r.gen == gen then
    modLd s ld fun d => { d with slots := d.slots.map fun r => if r.full && r.gen == gen then { r with pins := f r.pins } else r }
  else
    match d.retired.find? fun r => r.full && r.gen == gen with
    | none => s
    | some r =>
      let n := f r.pins
      if n = 0 ∧ !d.resetting then
        let s := modLd s ld fun d =>
          { d with retired := d.retired.map fun x => if x.full && x.gen == gen then emptyRoot else x }
        giveUpRoot s ld r.gen r.root
      else modLd s ld fun d =>
        { d with retired := d.retired.map fun x => if x.full && x.gen == gen then { x with pins := n } else x }

/-- Take a pin on a slot's current root (R49); none where the slot is empty. -/
def takePin (s : State) (ld slot : Nat) : Option Pin × State :=
  let r := (ldOf s ld).slots.getD slot emptyRoot
  if r.full then (some ⟨slot, r.gen, r.root⟩, changePins s ld r.gen (· + 1)) else (none, s)

/-- Another pin on the root a holder has pinned. -/
def copyPin (s : State) (ld : Nat) : Option Pin → State
  | none => s
  | some p => changePins s ld p.gen (· + 1)

/-- Drop a pin. -/
def dropPin (s : State) (ld : Nat) : Option Pin → State
  | none => s
  | some p => changePins s ld p.gen (· - 1)

/-- The root of a pin; the node at address 0 where there is none (DESIGN CHOICE, log 68). -/
def pinRoot (p : Option Pin) : RootKey := (p.map fun p => (p.gen, p.root)).getD (0, 0)

/-- The accesses before the publication of a pinned root, which what its holder does from now on follows (R51). -/
def pinPast (s : State) (ld : Nat) : Option Pin → List Nat
  | none => []
  | some p => ((((ldOf s ld).slots ++ (ldOf s ld).retired).find? fun r => r.full && r.gen == p.gen).map RootRec.past).getD []

/-- Can the reclaim ring take a record (R58, R395). -/
def ringRoom (s : State) (ld : Nat) : Bool :=
  let hdr := peek s (ldReg s ld 0x1) 32
  fld hdr 64 192 == 0 && fld hdr 52 12 == 0 && (ldReg s ld 0x2 + 2 ^ 64 - ldReg s ld 0x3) % 2 ^ 32 < 4096

/-- Append a record to the reclaim ring. -/
def ringAppend (s : State) (ld : Nat) (w : DWord) : State :=
  let base := fld (peek s (ldReg s ld 0x1) 8) 0 52
  let prod := ldReg s ld 0x2
  setLdReg (hwWrite s (base + 8 * (prod % 4096)) (bytesOf w.toNat 8)) ld 0x2 ((prod + 1) % 2 ^ 32)

/-- The record of a data frame (R58). -/
def frameRecord (s : State) (f : Nat) : DWord := BitVec.ofNat 64 (f + if frameKind s f ≥ 2 then 3 else 2)

/-- A counted frame gives up one count; the record to append where none is left (R57). -/
def dropFrameCount (s : State) (f : Nat) : State × List Reclaim :=
  let c := frameCount s f - 1
  let s := setFrameCount s f c
  (s, if c = 0 then [.append (frameRecord s f)] else [])

/-- One step of reclamation (R57): the work at the head of the list; an append pauses while the ring is full. -/
def reclaimStep (s : State) (ld : Nat) : State :=
  match (ldOf s ld).reclaim with
  | [] => s
  | w :: rest =>
    let put (s : State) (more : List Reclaim) : State := modLd s ld fun d => { d with reclaim := more ++ rest }
    match w with
    | .append r => if ringRoom s ld then put (ringAppend s ld r) [] else s
    | .dropEntry e =>
      let e := e.toNat
      if namesNode s e then
        let n := entNode e
        let c := nodeCount s n - 1
        let s := setNode s n (nodeState s n) c
        if c = 0 then let r := releaseNode s ld n; put r.1 r.2 else put s []
      else if frameCounted s (entFrame e) then
        let r := dropFrameCount s (entFrame e)
        match r.2 with
        | [.append w] => if ringRoom r.1 ld then put (ringAppend r.1 ld w) [] else put r.1 r.2
        | ws => put r.1 ws
      else put s []

/-- A root leaves its slot (R54): with no pins it gives up its count at once, else it moves into a free retired record, the lowest
one (DESIGN CHOICE, log 67). The caller has seen that one is free. -/
def retireRoot (s : State) (ld slot : Nat) : State :=
  let r := (ldOf s ld).slots.getD slot emptyRoot
  let s := modLd s ld fun d => { d with slots := lset d.slots slot emptyRoot }
  if r.pins = 0 then giveUpRoot s ld r.gen r.root
  else
    match (ldOf s ld).retired.findIdx? fun x => !x.full with
    | none => s
    | some i => modLd s ld fun d => { d with retired := lset d.retired i { r with slot := slot } }

/-- Is a retired-root record free (R53, detail 4). -/
def retiredFree (s : State) (ld : Nat) : Bool := (ldOf s ld).retired.any fun x => !x.full

end Sys2Proof.Machine
end

