-- ==== Sys2Proof/Machine/Regs.lean ====
section
/-! DEFINITION. Finding and changing grids, gangs, teams and groups, and the register files (spec/03_on_chip_memories.md R68 to
R74): the one place where a hard-wired register (g0, p7, b0) reads and writes as the specification says. -/

namespace Sys2Proof.Machine

/-! Records. -/

/-- The team of a name. -/
def teamOf (s : State) (r : TeamRef) : Option Team := s.teams.find? fun t => t.r == r

/-- The group of a team by GROUPID. -/
def groupIn (t : Team) (id : Nat) : Option Group := t.groups.find? fun g => g.id == id

/-- The group of a name. -/
def groupOf (s : State) (r : GroupRef) : Option Group := (teamOf s r.team).bind fun t => groupIn t r.g

/-- Change one team. -/
def modTeam (s : State) (r : TeamRef) (f : Team → Team) : State :=
  { s with teams := s.teams.map fun t => if t.r == r then f t else t }

/-- Change one group of a team. -/
def Team.modGroup (t : Team) (id : Nat) (f : Group → Group) : Team :=
  { t with groups := t.groups.map fun g => if g.id == id then f g else g }

/-- Change one group. -/
def modGroup (s : State) (r : GroupRef) (f : Group → Group) : State := modTeam s r.team fun t => t.modGroup r.g f

/-- The grid of a logical device by GRIDID. -/
def gridOf (s : State) (ld id : Nat) : Option Grid := s.grids.find? fun g => g.ld == ld && g.id == id

/-- Change one grid. -/
def modGrid (s : State) (ld id : Nat) (f : Grid → Grid) : State :=
  { s with grids := s.grids.map fun g => if g.ld == ld && g.id == id then f g else g }

/-- The gang of a name. -/
def gangOf (s : State) (k : GangRef) : Option Gang := s.gangs.find? fun g => g.r == k

/-- Change one gang. -/
def modGang (s : State) (k : GangRef) (f : Gang → Gang) : State :=
  { s with gangs := s.gangs.map fun g => if g.r == k then f g else g }

/-! Fields of the launch record (R170). -/

def Grid.ndep (g : Grid) : Nat := fld g.raw 606 4
def Grid.relaunchFlag (g : Grid) : Bool := bit1 g.raw 605
def Grid.slot (g : Grid) : Nat := fld g.raw 599 6
/-- Gang size. -/
def Grid.gangN (g : Grid) : Nat := 2 ^ fld g.raw 594 2
def Grid.nregion (g : Grid) : Nat := fld g.raw 588 6
def Grid.nbar (g : Grid) : Nat := fld g.raw 576 12
def Grid.narg (g : Grid) : Nat := fld g.raw 570 6
def Grid.csk (g : Grid) : Nat := fld g.raw 565 5
def Grid.psk (g : Grid) : Nat := fld g.raw 560 5
def Grid.cu (g : Grid) : Nat := fld g.raw 552 7
def Grid.au (g : Grid) : Nat := fld g.raw 544 8
def Grid.wu (g : Grid) : Nat := fld g.raw 536 8
def Grid.cbud (g : Grid) : Nat := 8 * fld g.raw 528 8
def Grid.pbud (g : Grid) : Nat := 8 * fld g.raw 520 8
def Grid.cgrp (g : Grid) : Nat := fld g.raw 512 8
def Grid.slice (g : Grid) : Nat := fld g.raw 496 16
def Grid.kernIx (g : Grid) : Nat := fld g.raw 480 16
def Grid.done (g : Grid) : Ptr := BitVec.ofNat 64 (fld g.raw 320 64)
def Grid.deps (g : Grid) : Ptr := BitVec.ofNat 64 (fld g.raw 256 64)
def Grid.args (g : Grid) : Ptr := BitVec.ofNat 64 (fld g.raw 192 64)
def Grid.stack (g : Grid) : Ptr := BitVec.ofNat 64 (fld g.raw 128 64)
def Grid.regPtr (g : Grid) : Ptr := BitVec.ofNat 64 (fld g.raw 64 64)
def Grid.image (g : Grid) : Ptr := BitVec.ofNat 64 (fld g.raw 0 64)
/-- Teams of the grid. -/
def Grid.teamCount (g : Grid) : Nat := g.gx * g.gy * g.gz

/-- The gang a team belongs to (R168). -/
def gangRefOf (gr : Grid) (t : TeamRef) : GangRef := ⟨t.ld, t.grid, t.team / gr.gangN⟩

/-- The name of member m of a team's gang. -/
def memberRef (t : Team) (m : Nat) : TeamRef := { t.r with team := t.r.team - t.member + m }

/-- The team a group belongs to is a member of a gang of this size (R168). -/
def gangSize (s : State) (t : TeamRef) : Nat := ((gridOf s t.ld t.grid).map Grid.gangN).getD 1

/-- The teams of a gang that are on the machine. -/
def gangTeams (s : State) (k : GangRef) : List Team :=
  s.teams.filter fun t => t.r.ld == k.ld && t.r.grid == k.grid && t.r.team / gangSize s t.r == k.gang

/-! Register files (R68). -/

/-- A vector register in a lane. -/
def getV (g : Group) (n l : Nat) : Word := stGet g.v (32 * n + l)

/-- Write one. -/
def setV (g : Group) (n l : Nat) (x : Word) : Group := { g with v := stSet g.v (32 * n + l) x }

/-- The bank in force: a running handler's, else the group's own (R428). -/
def bankOf (g : Group) : Bank := match g.handler with
  | some h => h.bank
  | none => g.bank

/-- Replace the bank in force. -/
def setBank (g : Group) (b : Bank) : Group := match g.handler with
  | some h => { g with handler := some { h with bank := b } }
  | none => { g with bank := b }

/-- A uniform register; g0 reads as zero. -/
def getG (g : Group) (n : Nat) : DWord := if n = 0 then 0 else stGet (bankOf g).g n

/-- Write a uniform register; a write to g0 is discarded. -/
def setG (g : Group) (n : Nat) (x : DWord) : Group :=
  if n = 0 then g else setBank g { bankOf g with g := stSet (bankOf g).g n x }

/-- A predicate in a lane; p7 reads as true. -/
def getP (g : Group) (n l : Nat) : Bool := n == 7 || (stGet (bankOf g).p n).getLsbD l

/-- A word with one bit replaced. -/
def setBit (w : BitVec 32) (l : Nat) (b : Bool) : BitVec 32 :=
  if b then w ||| BitVec.twoPow 32 l else w &&& ~~~ BitVec.twoPow 32 l

/-- Write a predicate in a lane; a write to p7 is discarded. -/
def setP (g : Group) (n l : Nat) (b : Bool) : Group :=
  if n = 7 then g
  else setBank g { bankOf g with p := stSet (bankOf g).p n (setBit (stGet (bankOf g).p n) l b) }

/-- A modulo register. -/
def getM (g : Group) (n : Nat) : DWord := stGet (bankOf g).m n

/-- Write a modulo register. -/
def setM (g : Group) (n : Nat) (x : DWord) : Group := setBank g { bankOf g with m := stSet (bankOf g).m n x }

/-- A bound register of a team; b0 reads as zero (R74). -/
def getB (t : Team) (n : Nat) : BitVec 128 := if n = 0 then 0 else stGet t.bnd n

/-! Frontiers. -/

/-- The frontier in force (R428). -/
def frontOf (g : Group) : List Entry := match g.handler with
  | some h => h.frontier
  | none => g.frontier

/-- Replace the frontier in force. -/
def setFront (g : Group) (f : List Entry) : Group := match g.handler with
  | some h => { g with handler := some { h with frontier := f } }
  | none => { g with frontier := f }

/-- Depth of the frontier in force: 8 in a handler (R428). -/
def depthOf (g : Group) : Nat := if g.handler.isSome then 8 else g.depth

/-- Has the group ended: all its lanes have left (R172). -/
def Group.ended (g : Group) : Bool := g.frontier.isEmpty && g.handler.isNone

/-- The lanes that have not exited. -/
def liveLanes (g : Group) : LaneMask := g.frontier.foldl (fun m e => m ||| e.mask) 0

/-- The lowest lane of a mask; 0 for an empty one. -/
def lowest (m : LaneMask) : Nat := ((List.range 32).find? fun l => m.getLsbD l).getD 0

/-- The lanes of a mask, ascending. -/
def lanesOf (m : LaneMask) : List Nat := (List.range 32).filter fun l => m.getLsbD l

/-- The mask of a list of lanes. -/
def maskOf (ls : List Nat) : LaneMask := ls.foldl (fun m l => m ||| BitVec.twoPow 32 l) 0

/-- Rank of entries: PRIO descending, then PC ascending (R153). -/
def outranks (a b : Entry) : Bool := b.prio < a.prio || (a.prio == b.prio && a.pc < b.pc)

/-- The highest-ranked entry of a list. -/
def topEntry : List Entry → Option Entry
  | [] => none
  | e :: r => match topEntry r with
    | none => some e
    | some f => if outranks f e then some f else some e

/-- Put a ready entry into a frontier, merging it with the ready entry at its PC and PRIO (R155). -/
def addReady : List Entry → Entry → List Entry
  | [], e => [e]
  | f :: r, e =>
    if f.st = .ready ∧ f.pc = e.pc ∧ f.prio = e.prio then { f with mask := f.mask ||| e.mask, age := min f.age e.age } :: r
    else f :: addReady r e

/-- PC + 12 (R155). -/
def nextPc (p : Ptr) : Ptr := ptrAdd p 12

/-! Levels (R383). -/

/-- The level a group runs at. -/
def levelFor (s : State) (t : TeamRef) (g : Group) : Level :=
  if g.handler.isSome || ((gridOf s t.ld t.grid).map Grid.sup).getD false then (if t.ld = 0 then .mgmt else .sup) else .user

/-! Octets (R301). -/

/-- The open octet that begins at a register. -/
def octetAt (g : Group) (x : Nat) : Option Octet := g.octets.find? fun o => o.x == x

/-- Element (i, j) of an octet's registers. -/
def octElem (g : Group) (x i j : Nat) : Word := getV g (x + i % 8) (j + 16 * (i / 8))

/-- Element (i, j) of the drained value (R301). -/
def drainElem (g : Group) (x i j : Nat) : Word := match octetAt g x with
  | some o => if o.rf.getLsbD i || o.cf.getLsbD j then 0x7FC00000 else octElem g x i j
  | none => octElem g x i j

/-- Write a 16 by 16 matrix into an octet's registers. -/
def putOct (g : Group) (x : Nat) (y : Nat → Nat → Word) : Group :=
  { g with v := stSetAll g.v ((List.range 8).flatMap fun m => (List.range 32).map fun l =>
      (32 * (x + m) + l, y (m + 8 * (l / 16)) (l % 16))) }

/-- Close an octet: write its drained value (R301). -/
def closeOct (g : Group) (x : Nat) : Group := match octetAt g x with
  | none => g
  | some _ => { putOct g x (drainElem g x) with octets := g.octets.filter fun o => o.x != x }

/-- Make an octet open with flags. -/
def openOct (g : Group) (o : Octet) : Group := { g with octets := o :: g.octets.filter fun p => p.x != o.x }

end Sys2Proof.Machine
end

