-- ==== Sys2Proof/Machine/Flags.lean ====
section
/-! DEFINITION. The conditions instructions compute: integer and float comparisons and classes
(spec/09_scalar_vector_instructions.md R230, R236, R237), carry and borrow (R231), and the tag check of stores with the team's sticky
bound flags (spec/03_on_chip_memories.md R75, R76). -/

namespace Sys2Proof.Machine

/-- The comparison of ICMP (R230). -/
def icmpCond (x : BitVec 3) (a b : Int) : Bool :=
  if x = 0 then decide (a = b)
  else if x = 1 then decide (a ≠ b)
  else if x = 2 then decide (a < b)
  else if x = 3 then decide (a ≤ b)
  else if x = 4 then decide (b < a)
  else decide (b ≤ a)

/-- The condition of FCMP (R236): -0 and +0 compare equal; a NaN makes every condition false but .ne and .nan. -/
def fcmpCond (c : FCond) (a b : FVal) : Bool :=
  let u := a.isNan || b.isNan
  let z := FVal.cmp a b
  match c with
  | .eq => !u && z == 0
  | .ne => u || z != 0
  | .lt => !u && decide (z < 0)
  | .le => !u && decide (z ≤ 0)
  | .gt => !u && decide (0 < z)
  | .ge => !u && decide (0 ≤ z)
  | .num => !u
  | .nan => u

/-- The class of an FP32 pattern, as a bit number of R237. -/
def fclassBit (p : Nat) : Nat :=
  let neg := decide (2 ^ 31 ≤ p % 2 ^ 32)
  let mag := p % 2 ^ 31
  if mag > 0x7F800000 then 8
  else if mag = 0x7F800000 then (if neg then 0 else 7)
  else if mag ≥ 0x800000 then (if neg then 1 else 6)
  else if mag ≠ 0 then (if neg then 2 else 5)
  else if neg then 3 else 4

/-- Sum or difference with carry or borrow (R231): the result mod 2^n and the carry out. -/
def addCarry (n : Nat) (sub : Bool) (a b : Nat) (cin : Bool) : Nat × Bool :=
  let k : Nat := if cin then 1 else 0
  if sub then (ofIntN n ((a : Int) - b - k), decide (a < b + k))
  else ((a + b + k) % 2 ^ n, decide (2 ^ n ≤ a + b + k))

/-! Tag checks. -/

/-- The format a tag check reads (R274). -/
def tfFmt : Tf → Fmt
  | .bf16 => fBf16
  | .f16 => fF16
  | _ => fF32

/-- MODE of a bound register (R74). -/
def bndMode (b : BitVec 128) : Nat := fld b.toNat 0 2

/-- One element against a bound register (R75): is it a violation, and the pattern to write if the write goes on. -/
def tagElem (b : BitVec 128) (f : Fmt) (x : Nat) : Bool × Nat :=
  let mx := decodeF fF32 (fld b.toNat 96 32)
  let mn := decodeF fF32 (fld b.toNat 64 32)
  let v := decodeF f x
  if bndMode b = 0 then (false, x)
  else if v.isNan then
    (if b.getLsbD 4 then (true, if bndMode b = 2 then 0 else x) else (false, x))
  else
    let low := !mn.isNan && FVal.cmp v mn < 0
    let high := !mx.isNan && FVal.cmp mx v < 0
    if low || high then
      (true, if bndMode b = 2 then (if low then roundF f .ru 0 false mn else roundF f .rd 0 false mx) else x)
    else (false, x)

/-- The elements of a store's bytes against a bound register (R279): is there a violation, and the bytes to write. -/
def tagBytes (b : BitVec 128) (tf : Tf) (size : Nat) (x : Nat) : Bool × Nat :=
  if tf.bits = 0 then (false, x)
  else
    (List.range (8 * size / tf.bits)).foldl (fun (acc : Bool × Nat) i =>
      let r := tagElem b (tfFmt tf) (fld x (i * tf.bits) tf.bits)
      (acc.1 || r.1, acc.2 + r.2 * 2 ^ (i * tf.bits))) (false, 0)

/-- Does a violation trap (R75). -/
def tagTraps (b : BitVec 128) : Bool := bndMode b == 3

/-- Set bit t of a team's bound flags (R75, R76); bit 0 is always zero. -/
def flagBound (t : Nat) (x : Team) : Team :=
  if t = 0 then x else { x with bflags := x.bflags ||| BitVec.twoPow 16 t }

end Sys2Proof.Machine
end

