-- ==== Sys2Proof/Machine/Order.lean ====
section
/-! DEFINITION. Order between accesses (spec/05_consistency.md R116 to R137): what happens before what a lane does, what a write
releases and a read acquires, the edges of barriers, and the performed writes that a read which nothing has ordered after
them may still miss. Happens-before is kept as lists of the numbers of accesses and operations. -/

namespace Sys2Proof.Machine

/-! Numbers of accesses and operations. -/

/-- Union of two lists. -/
def union (a b : List Nat) : List Nat := b.foldl (fun l x => if l.contains x then l else l ++ [x]) a

/-- Is a number still of consequence: an access that is not performed, a write that may be missed, data in a drive's cache, or
something that brings such numbers with it. -/
def idLive (s : State) (i : Nat) : Bool :=
  s.far.any (fun f => f.id == i) || s.hist.any (fun w => w.id == i) || s.joins.any (fun j => j.1 == i) ||
    s.driveCache.any fun w => w.req == i

/-- Those of some numbers that are still of consequence. -/
def farLive (s : State) (ids : List Nat) : List Nat := ids.filter (idLive s)

/-- Numbers with what the performed among them bring with them; `fuel` bounds the chain. -/
def expandBy (s : State) : Nat → List Nat → List Nat
  | 0, ids => ids
  | n + 1, ids => expandBy s n (union ids ((s.joins.filter fun j => ids.contains j.1).flatMap Prod.snd))

/-- Everything that happens before what some numbers happen before. -/
def expand (s : State) (ids : List Nat) : List Nat := if s.joins.isEmpty then ids else expandBy s s.joins.length ids

/-- The accesses not yet performed that some numbers stand for. -/
def pending (s : State) (ids : List Nat) : List Nat := (expand s ids).filter fun i => s.far.any fun f => f.id == i

/-- A number brings others with it. -/
def addJoin (s : State) (i : Nat) (ids : List Nat) : State :=
  let ids := farLive s ids
  if ids.isEmpty then s else { s with joins := s.joins ++ [(i, ids)] }

/-- What brings nothing of consequence any more is forgotten. -/
def trimOrd (s : State) : State :=
  let kept (j : Nat × List Nat) : Bool := j.2.any fun i => i != j.1 && idLive s i
  { s with
    joins := s.joins.filter kept
    arDone := s.arDone.filter fun t => t.past.any (idLive s) }

/-! Lanes. -/

/-- The order of a lane. -/
def laneOrd (g : Group) (l : Nat) : LaneOrd := (g.ords.find? fun o => o.lane == l).getD ⟨l, [], [], [], []⟩

/-- Replace it. -/
def setOrd (g : Group) (o : LaneOrd) : Group :=
  let rest := g.ords.filter fun x => x.lane != o.lane
  { g with ords := if o.past.isEmpty && o.fences.isEmpty && o.seen.isEmpty && o.obs.isEmpty then rest else o :: rest }

/-- The far accesses of a lane that are not yet performed. -/
def pendOf (s : State) (r : GroupRef) (l : Nat) : List Nat := (s.far.filter fun f => f.r == r && f.lane == l).map Far.id

/-- What happens before everything that a lane does from now on (R125). -/
def pastOf (s : State) (g : Group) (l : Nat) : List Nat := farLive s (laneOrd g l).past

/-- The performed writes that a lane has made or seen. -/
def obsOf (s : State) (g : Group) (l : Nat) : List Nat := farLive s (laneOrd g l).obs

/-- The accesses before the fences that a lane's later writes release (R124). -/
def fencedOf (s : State) (g : Group) (l : Nat) : List Nat :=
  farLive s ((laneOrd g l).fences.foldl (fun a f => union a f.2) [])

/-- Is nothing of consequence to any order. -/
def noOrder (s : State) : Bool := s.far.isEmpty && s.hist.isEmpty && s.joins.isEmpty && s.driveCache.isEmpty

/-- What happens before an engine operation that some lanes fork (R138, R125). -/
def forkOf (s : State) (g : Group) (m : LaneMask) : List Nat :=
  if noOrder s then [] else (lanesOf m).foldl (fun a l => union a (union (pastOf s g l) (fencedOf s g l))) []

/-- Every access that a lane has made or that happens before such a one. -/
def beforeLane (s : State) (r : GroupRef) (g : Group) (l : Nat) : List Nat :=
  union (union (pendOf s r l) (obsOf s g l)) (union (pastOf s g l) (fencedOf s g l))

/-- Every access that precedes a moment in some lanes (R126). -/
def beforeOf (s : State) (r : GroupRef) (g : Group) (m : LaneMask) : List Nat :=
  if noOrder s then [] else (lanesOf m).foldl (fun a l => union a (beforeLane s r g l)) []

/-- Later accesses of some lanes follow further accesses. -/
def addPast (m : LaneMask) (ids : List Nat) (g : Group) : Group :=
  if ids.isEmpty then g
  else (lanesOf m).foldl (fun g l => let o := laneOrd g l; setOrd g { o with past := union o.past ids }) g

/-- Some lanes have made or seen performed writes. -/
def addObs (s : State) (m : LaneMask) (ids : List Nat) (g : Group) : Group :=
  if ids.isEmpty then g
  else (lanesOf m).foldl (fun g l => let o := laneOrd g l; setOrd g { o with obs := union (farLive s o.obs) ids }) g

/-! Scopes (R123). -/

/-- Does a party lie in the instance of another's scope: the scope's instance seen from `a` holds `b` (R123). -/
def inScope (s : State) (sc : Scope) (a b : Party) : Bool :=
  match sc, a, b with
  | .sys, .host n, .lane r _ => r.team.ld == n
  | .sys, .lane r _, .host n => r.team.ld == n
  | .sys, .host n, .host m => n == m
  | _, .host _, _ => sc == .sys
  | _, _, .host _ => sc == .sys
  | .dev, _, _ | .sys, _, _ => true
  | .grp, .lane x _, .lane y _ => x == y
  | .team, .lane x _, .lane y _ => x.team == y.team
  | .gang, .lane x _, .lane y _ =>
    let n := gangSize s x.team
    x.team.ld == y.team.ld && x.team.grid == y.team.grid && x.team.team / n == y.team.team / n
  | .die, .lane _ c, .lane _ d => c / 88 == d / 88
  | _, _, _ => false

/-- What a read acquires from releases, at some scopes (R124) (DEDUCED, log 48). -/
def acquired (s : State) (who : Party) (scs : List Scope) (tags : List RelTag) : List Nat :=
  tags.foldl (fun a t =>
    if inScope s t.scope t.who who && scs.any (fun sc => inScope s sc who t.who) then union a (farLive s (t.id :: t.past)) else a) []

/-! Locations, releases and missed writes. -/

/-- The location of a byte of a buffer, past every physical address (R117). -/
def bufLoc (t : TeamRef) (b : Buf) (off : Nat) : Nat :=
  let k := match b with
    | .w => 0
    | .a => 1
    | .c => 2
  2 ^ 64 * (1 + ((t.grid * 2 ^ 40 + t.team) * 16 + t.ld) * 4 + k) + off

/-- Do two runs of bytes meet. -/
def overlap (a n b m : Nat) : Bool := a < b + m && b < a + n

/-- Does an address lie in the TAIL of a queue (R402). -/
def isTail (pa : Nat) : Bool :=
  0xFF0000000000 ≤ pa && pa < 0xFF0000100000 && pa % 2 ^ 16 < 576 && 16 ≤ pa % 64 && pa % 64 < 20

/-- The releases recorded where a run of bytes lies. -/
def tagsAt (s : State) (loc n : Nat) : List RelTag := s.rels.filter fun t => overlap t.pa t.size loc n

/-- A plain write ends the release sequences of what it overwrites whole (R124). -/
def dropTags (s : State) (loc n : Nat) : State := { s with rels := s.rels.filter fun t => !(loc ≤ t.pa && t.pa + t.size ≤ loc + n) }

/-- A write that every reader sees at once: it ends release sequences, and no earlier write to its bytes can be missed
without it. -/
def endTags (s : State) (loc n : Nat) : State :=
  let s := dropTags s loc n
  { s with hist := s.hist.filter fun w => !overlap w.loc w.old.length loc n }

/-- A release by a write that every reader sees at once is recorded at its location (R124). -/
def addTag (s : State) (who : Party) (sc : Scope) (past : List Nat) (loc n : Nat) : State :=
  let p := farLive s past
  if p.isEmpty then s else { s with rels := s.rels ++ [⟨s.nextId, loc, n, who, sc, p⟩], nextId := s.nextId + 1 }

/-- What a party that acquires at a scope gains by a read of what stands at a location (R124). -/
def acquiredAt (s : State) (who : Party) (sc : Scope) (loc n : Nat) : List Nat :=
  if noOrder s then [] else acquired s who [sc] (tagsAt s loc n)

/-- The writes that a read of what stands at a location sees. -/
def seenAt (s : State) (loc n : Nat) : List Nat := (s.hist.filter fun w => overlap w.loc w.old.length loc n).map Wr.id

/-- A performed write is kept as one that readers may miss (R128): `s0` is the machine before it. -/
def keepWrite (s0 s : State) (id loc : Nat) (old : List Byte) (loose : Bool) (grp : Option GroupRef) (pre : List Nat)
    (team : Option TeamRef) : State :=
  { s with hist := s0.hist ++ [⟨id, loc, old, tagsAt s0 loc old.length, loose, grp, pre, team⟩] }

/-- What a read finds: bytes, which of them are settled, writes that it sees, releases that it reads from. -/
structure View where
  bytes : List Byte
  fixed : List Nat
  kept : List Nat
  tags : List RelTag
  deriving Repr

/-- One write, from the latest on: the read sees it, or misses it where it does not know of it and sees no later write to the
same bytes; an engine's write counts byte by byte (R119, R128, R135, R136). -/
def viewStep (s : State) (known : List Nat) (loc n : Nat) (v : View) (x : Wr × Nat) : View :=
  let w := x.1
  let at' := (List.range n).filter fun i => w.loc ≤ loc + i && loc + i < w.loc + w.old.length
  let free (i : Nat) : Bool := !known.contains w.id && Config.freeBool (s.frees + 16 * x.2 + i)
  let miss := if w.loose then at'.filter fun i => !v.fixed.contains i && free (i % 16)
    else if !at'.any (v.fixed.contains ·) && free 0 then at' else []
  let seen := at'.filter fun i => !miss.contains i
  { bytes := miss.foldl (fun b i => lset b i (w.old.getD (loc + i - w.loc) 0)) v.bytes
    fixed := v.fixed ++ seen
    kept := if seen.isEmpty then v.kept else w.id :: v.kept
    tags := if at'.isEmpty || !seen.isEmpty then v.tags
      else (v.tags.filter fun t => !overlap t.pa t.size w.loc w.old.length) ++ w.tags.filter fun t => overlap t.pa t.size loc n }

/-- What a read of a location finds that knows of some writes, where the location now holds some bytes. -/
def viewOf (s : State) (known : List Nat) (loc : Nat) (bs : List Byte) : View :=
  let v : View := ⟨bs, [], [], tagsAt s loc bs.length⟩
  if s.hist.isEmpty then v else s.hist.zipIdx.reverse.foldl (viewStep s known loc bs.length) v

/-- The free choices that a view has used. -/
def viewTick (s : State) : State := if s.hist.isEmpty then s else { s with frees := s.frees + 16 * s.hist.length }

/-- What a lane's read knows of: what happens before it, and what the lane has made or seen. -/
def knownBy (s : State) (g : Group) (l : Nat) (after : List Nat) : List Nat :=
  if s.hist.isEmpty then [] else union (obsOf s g l) (expand s (union after (pastOf s g l)))

/-- The oldest write that a reader may miss is missed no longer (R121). -/
def forgetWrite (s : State) : State := trimOrd { s with hist := s.hist.tail }

/-! Readiness and barriers. -/

/-- May an access be performed: what happens before it is performed, but for the members of its own request. -/
def farReady (s : State) (f : Far) : Bool :=
  (expand s f.after).all fun i => s.far.all fun x => x.id != i || (x.req == f.req && x.id < f.id)

/-- May an operation act: every access that happens before it is performed (R138). -/
def forkReady (s : State) (after : List Nat) : Bool := (pending s after).isEmpty

/-- What has lowered an arrival object, with what that brings (R139). -/
def arrOps (s : State) (loc : Nat) : List Nat := expand s ((s.joins.filter fun j => j.1 == loc).flatMap Prod.snd)

/-- The edges of a barrier (R126): later accesses of the waiting groups follow everything before the arrivals. -/
def joinPast (ids : List Nat) (g : Group) : Group := addPast (BitVec.allOnes 32) ids g

/-- Every access before a barrier that all groups of some teams have reached. -/
def beforeTeams (s : State) (ts : List Team) : List Nat :=
  if noOrder s then []
  else ts.foldl (fun a t => t.groups.foldl (fun a g => union a (beforeOf s ⟨t.r, g.id⟩ g (BitVec.allOnes 32))) a) []

/-- The performed writes of the teams that satisfy p. -/
def writesOf (s : State) (p : TeamRef → Bool) : List Nat := (s.hist.filter fun w => w.team.any p).map Wr.id

end Sys2Proof.Machine
end

