-- ==== Sys2Proof/Machine/Sram.lean ====
section
/-! DEFINITION. The SRAM stores as DIAGST.sram and DIAGLD.sram see them (spec/20_system_instructions.md R400, R401;
spec/03_on_chip_memories.md R91, R92; spec/06_execution_model.md R161): which word holds what, and the words that pass through
their decoder when an instruction reads or writes what they hold. -/

namespace Sys2Proof.Machine

/-! SEC-DED words (R91); the unit of a core's stores is the core (DEDUCED, log 49). -/

/-- A read of a word (R91): none where it is uncorrectable; else the corrected data is put back by `put`, and counted where
it differed from what was stored. -/
def sramRead (s : State) (k : SramKey) (core : Nat) (put : State → Nat → State) : Option State :=
  match sramAt s k with
  | none => some s
  | some (d, chk) => match Config.sramDecode 64 d chk with
    | none => none
    | some x =>
      let s := put (sramDrop s k) x
      if x = d ∧ chk = Config.sramCode 64 d then some s
      else some (setPkgReg s (0x900 + core) (pkgReg s (0x900 + core) + 1))

/-- A write into a word (R91): what is kept of it is its corrected data where that can be had. -/
def sramWrite (s : State) (k : SramKey) (put : State → Nat → State) : State :=
  match sramAt s k with
  | none => s
  | some (d, chk) => match Config.sramDecode 64 d chk with
    | none => sramDrop s k
    | some x => put (sramDrop s k) x

/-! Allocations (R25 to R28, R71). -/

/-- Registers of the frontier reserve of a group of some depth (R71). -/
def reserveOf (depth : Nat) : Nat := if depth ≤ 8 then 0 else ((depth - 8 + 3) / 4 + 7) / 8 * 8

/-- The bytes of a buffer. -/
def bufOf (t : Team) : Buf → Store 8
  | .w => t.w
  | .a => t.a
  | .c => t.c

/-- Length of the allocation (R26). -/
def bufLen (t : Team) : Buf → Nat
  | .w => t.wlen
  | .a => t.alen
  | .c => t.clen

/-- Start of the allocation in the core's buffer. -/
def bufBase (t : Team) : Buf → Nat
  | .w => t.wbase
  | .a => t.abase
  | .c => t.cbase

/-- Store number of a buffer (R400). -/
def bufStore : Buf → Nat
  | .w => 1
  | .a => 2
  | .c => 3

/-- Replace the bytes of a buffer. -/
def setBuf (t : Team) (b : Buf) (x : Store 8) : Team := match b with
  | .w => { t with w := x }
  | .a => { t with a := x }
  | .c => { t with c := x }

/-! Which word holds what. -/

/-- Is the gang of a team on its cores. -/
def gangHere (s : State) (t : Team) : Bool :=
  match gangOf s ⟨t.r.ld, t.r.grid, t.r.team / gangSize s t.r⟩ with
  | some k => k.place == .resident
  | none => false

/-- The teams on a core. -/
def coreTeams (s : State) (core : Nat) : List Team := s.teams.filter fun t => t.core == core && gangHere s t

/-- The groups on a core. -/
def coreGroups (s : State) (core : Nat) : List (TeamRef × Group) :=
  (coreTeams s core).flatMap fun t => t.groups.map fun g => (t.r, g)

/-- The group whose allocation holds a physical register of a core, and which of its registers it is (R400): one past the budget
lies in the reserve (R71). -/
def regHolder (s : State) (core p : Nat) : Option (GroupRef × Group × Nat) :=
  (coreGroups s core).findSome? fun x =>
    if x.2.vbase ≤ p ∧ p < x.2.vbase + x.2.budget + reserveOf x.2.depth then some (⟨x.1, x.2.id⟩, x.2, p - x.2.vbase) else none

/-- The buffer of a store number. -/
def storeBufOf (st : Nat) : Option Buf := if st = 1 then some .w else if st = 2 then some .a else if st = 3 then some .c else none

/-- The team whose allocation holds a word of a buffer. -/
def bufHolder (s : State) (b : Buf) (core w : Nat) : Option Team :=
  (coreTeams s core).find? fun t => bufBase t b ≤ 8 * w && 8 * w + 8 ≤ bufBase t b + bufLen t b

/-- The cached stack bytes that a word of a core's stack cache holds: the group, and the key of the first of eight in `Group.stk`
(DESIGN CHOICE, log 75). -/
def stackHolder (s : State) (core w : Nat) : Option (GroupRef × Group × Nat) :=
  let x := Config.stackPlace core w
  ((coreGroups s core).find? fun g => g.2.stkUnits != 0 && g.2.vbase / 8 == x % 512).map fun g =>
    (⟨g.1, g.2.id⟩, g.2, 2 ^ 32 * (x / 512 % 32) + 8 * (x / 16384 % (g.2.slimit / 8 + 1)))

/-- The group whose control state a word holds, and the uniform register it is; register 0 for any other part of the state
(DESIGN CHOICE, log 75). -/
def controlHolder (s : State) (core w : Nat) : Option (GroupRef × Group × Nat) :=
  let x := Config.controlPlace core w
  ((coreGroups s core).find? fun g => g.2.vbase / 8 == x % 512).map fun g => (⟨g.1, g.2.id⟩, g.2, x / 512 % 64)

/-- An entry as it lies in the frontier reserve (R161). -/
def entryBits (e : Entry) : Nat :=
  let st := match e.st with
    | .ready => 0
    | .waiting _ _ => 2 ^ 139
    | .parked cause _ _ _ => 2 ^ 140 + cause % 256 * 2 ^ 131
  e.pc.toNat * 2 ^ 192 + e.mask.toNat * 2 ^ 160 + e.prio.toNat * 2 ^ 152 + e.age % 2 ^ 11 * 2 ^ 141 + st

/-- Entries in rank order (R153). -/
def rankIn (e : Entry) : List Entry → List Entry
  | [] => [e]
  | f :: r => if outranks e f then e :: f :: r else f :: rankIn e r

/-- The entries below the eighth, in rank order (R159). -/
def spilled (f : List Entry) : List Entry := (f.foldl (fun l e => rankIn e l) []).drop 8

/-- Lanes l and l + 1 of register n of a group's reserve (R161); what no spilled entry fills is free. -/
def reserveWord (s : State) (g : Group) (n l : Nat) : Nat :=
  match (spilled g.frontier)[4 * n + l / 8]? with
  | some e => fld (entryBits e) (32 * (l % 8)) 64
  | none => (Config.freeWord s.frees).toNat

/-- Did a group or team that is gone leave a word. -/
def isStale (s : State) (k : SramKey) : Bool :=
  s.stale.any fun x => x.store == k.1 && x.unit == k.2.1 && x.lo ≤ k.2.2 && k.2.2 < x.hi

/-- The cluster whose shadow store holds a gang that is out (R88). -/
def Where.cluster : Where → Option Nat
  | .call c => c
  | .partition c => some c
  | .preempted | .resident | .relaunch => none

/-- Does a shadow store hold a save (R88). -/
def shadowInUse (s : State) (cluster : Nat) : Bool :=
  s.shadow.any (fun x => x.1 == cluster) || s.gangs.any fun g => g.place.cluster == some cluster

/-- The data that a word with fresh check bits holds (R92, R161, R400): zero where nothing has been put since power-on; free where
what was put is not kept. -/
def sramPlain (s : State) (k : SramKey) : Nat :=
  let free := (Config.freeWord s.frees).toNat
  let rest := if isStale s k then free else 0
  if k.1 = 0 then match regHolder s k.2.1 (k.2.2 / 16) with
    | some (_, g, n) =>
      let l := k.2.2 % 16 * 2
      if n < g.budget then (getV g n l).toNat + (getV g n (l + 1)).toNat * 2 ^ 32 else reserveWord s g (n - g.budget) l
    | none => rest
  else if k.1 = 4 then match stackHolder s k.2.1 k.2.2 with
    | some (_, g, key) => ofBytes ((List.range 8).map fun i => (stGet g.stk (key + i)).setWidth 8)
    | none => rest
  else if k.1 = 5 then match controlHolder s k.2.1 k.2.2 with
    | some (_, g, n) => if n = 0 then free else (stGet g.bank.g n).toNat
    | none => rest
  else if k.1 = 6 then (if shadowInUse s k.2.1 then free else rest)
  else if k.1 = 7 then match s.dcache.find? fun d => d.die == k.2.1 && 16 * d.slot ≤ k.2.2 && k.2.2 < 16 * d.slot + 16 with
    | some d => ofBytes (peekBytes s (128 * d.line + 8 * (k.2.2 % 16)) 8)
    | none => free
  else match storeBufOf k.1 with
    | none => rest
    | some b => match bufHolder s b k.2.1 k.2.2 with
      | some t => stBytes (bufOf t b) (8 * k.2.2 - bufBase t b) 8
      | none => rest

/-- Is what a word holds open: what was left in it, or state whose bits are not given. -/
def sramOpen (s : State) (k : SramKey) : Bool :=
  if k.1 = 0 then match regHolder s k.2.1 (k.2.2 / 16) with
    | some _ => false
    | none => isStale s k
  else if k.1 = 4 then (stackHolder s k.2.1 k.2.2).isNone && isStale s k
  else if k.1 = 5 then (controlHolder s k.2.1 k.2.2).isNone && isStale s k
  else if k.1 = 6 then isStale s k
  else if k.1 = 7 then (s.dcache.find? fun d => d.die == k.2.1 && 16 * d.slot ≤ k.2.2 && k.2.2 < 16 * d.slot + 16).isNone
  else match storeBufOf k.1 with
    | none => isStale s k
    | some b => (bufHolder s b k.2.1 k.2.2).isNone && isStale s k

/-- Put data where a word's place in the state is known; a frontier entry, and other control state, is not changed by it
(DESIGN CHOICE, log 75). -/
def sramPoke (s : State) (k : SramKey) (x : Nat) : State :=
  if k.1 = 0 then match regHolder s k.2.1 (k.2.2 / 16) with
    | none => s
    | some (r, _, n) => modGroup s r fun g =>
      let l := k.2.2 % 16 * 2
      if n < g.budget then setV (setV g n l (BitVec.ofNat 32 x)) n (l + 1) (BitVec.ofNat 32 (x / 2 ^ 32)) else g
  else if k.1 = 4 then match stackHolder s k.2.1 k.2.2 with
    | none => s
    | some (r, _, key) => modGroup s r fun g =>
      { g with stk := stSetAll g.stk ((List.range 8).map fun i => (key + i, BitVec.ofNat 9 (256 + fld x (8 * i) 8))) }
  else if k.1 = 5 then match controlHolder s k.2.1 k.2.2 with
    | none => s
    | some (r, _, n) => if n = 0 then s else modGroup s r fun g =>
      { g with bank := { g.bank with g := stSet g.bank.g n (BitVec.ofNat 64 x) } }
  else match storeBufOf k.1 with
    | none => s
    | some b => match bufHolder s b k.2.1 k.2.2 with
      | none => s
      | some t => modTeam s t.r fun t => setBuf t b (stSetBytes (bufOf t b) (8 * k.2.2 - bufBase t b) 8 x)

/-! Words of a running group (R91, R434). -/

/-- The listed words of some of a group's vector registers, in some lanes. -/
def regWords (t : Team) (g : Group) (ps : List (Nat × Nat)) : List SramKey :=
  (ps.map fun p => (0, t.core, 16 * (g.vbase + p.1) + p.2 / 2)).dedup

/-- Words pass through their decoder; none where one is uncorrectable. -/
def readWords (s : State) (core : Nat) (ks : List SramKey) : Option State :=
  ks.foldl (fun (o : Option State) k => o.bind fun s => sramRead s k core fun s x => sramPoke s k x) (some s)

/-- One of a group's words after a write of some of its registers in some lanes: it has fresh check bits, over the corrected
contents of a lane that is not written. -/
def freshWord (ps : List (Nat × Nat)) (r : GroupRef) (s : State) (p : Nat × Nat × SramKey) : State :=
  match sramAt s p.2.2 with
  | none => s
  | some (d, chk) =>
    let s := sramDrop s p.2.2
    match Config.sramDecode 64 d chk with
    | none => s
    | some x =>
      let put (g : Group) (l half : Nat) : Group := if ps.contains (p.1, l) then g else setV g p.1 l (BitVec.ofNat 32 half)
      modGroup s r fun g => put (put g (p.2.1 / 2 * 2) x) (p.2.1 / 2 * 2 + 1) (x / 2 ^ 32)

/-- A group's vector registers have been written, each in a lane (R91). -/
def freshRegs (s : State) (r : GroupRef) (ps : List (Nat × Nat)) : State :=
  if s.sram.isEmpty then s
  else match teamOf s r.team, groupOf s r with
    | some t, some g => ps.foldl (fun s p => freshWord ps r s (p.1, p.2, (0, t.core, 16 * (g.vbase + p.1) + p.2 / 2))) s
    | _, _ => s

/-- A destination has been written in some lanes. -/
def freshDst (s : State) (r : GroupRef) (d : Opnd) (w : Nat) (ls : List Nat) : State :=
  match d with
  | .v n => freshRegs s r ((List.range w).flatMap fun i => ls.map fun l => (n.toNat + i, l))
  | _ => s

/-- The listed words that hold some of a group's cached stack bytes. -/
def stackWords (s : State) (r : GroupRef) (core key k : Nat) : List SramKey :=
  (s.sram.filter fun w => w.1 == 4 && w.2.1 == core && (match stackHolder s core w.2.2.1 with
    | some h => h.1 == r && overlap h.2.2 8 key k
    | none => false)).map fun w => (w.1, w.2.1, w.2.2.1)

/-- Cached stack bytes are read: the words that hold them pass through their decoder (R91). -/
def touchStack (s : State) (r : GroupRef) (key k : Nat) : Option State :=
  if s.sram.isEmpty then some s
  else match teamOf s r.team with
    | none => some s
    | some t => readWords s t.core (stackWords s r t.core key k)

/-- Cached stack bytes are about to be written: the words that hold them get fresh check bits. -/
def freshStack (s : State) (r : GroupRef) (key k : Nat) : State :=
  if s.sram.isEmpty then s
  else match teamOf s r.team with
    | none => s
    | some t => (stackWords s r t.core key k).foldl (fun s w => sramWrite s w fun s x => sramPoke s w x) s

/-! What is left in the SRAM stores (R92, R400). -/

/-- Nothing is left in a run of words of a store. -/
def dropStale (s : State) (store unit lo hi : Nat) : State :=
  { s with stale := s.stale.flatMap fun x =>
      if x.store == store && x.unit == unit && lo < x.hi && x.lo < hi then
        (if x.lo < lo then [{ x with hi := lo }] else []) ++ (if hi < x.hi then [{ x with lo := hi }] else [])
      else [x] }

/-- What a run of words of a store holds is not kept. -/
def addStale (s : State) (ld store unit lo hi : Nat) : State :=
  let s := dropStale s store unit lo hi
  if lo < hi then { s with stale := ⟨ld, store, unit, lo, hi⟩ :: s.stale } else s

/-- The listed words of a run are listed no more. -/
def dropListed (s : State) (store unit lo hi : Nat) : State :=
  { s with sram := s.sram.filter fun e => !(e.1 == store && e.2.1 == unit && lo ≤ e.2.2.1 && e.2.2.1 < hi) }

/-- A run of words of a store is written with zeros (R92): none of them is listed, and nothing is left in them. -/
def zeroWords (s : State) (store unit lo hi : Nat) : State := dropStale (dropListed s store unit lo hi) store unit lo hi

/-- A run of words goes out of use, and what it holds is not kept. -/
def leaveWords (s : State) (ld store unit lo hi : Nat) : State := addStale (dropListed s store unit lo hi) ld store unit lo hi

/-- The words of a core's vector registers from one register on (R400). -/
def leaveRegs (s : State) (ld core base n : Nat) : State := leaveWords s ld 0 core (16 * base) (16 * (base + n))

/-- The listed words of a core's stack cache and control state that belong to the teams that satisfy p, or to none, are listed no more. -/
def dropHeld (s : State) (core : Nat) (p : TeamRef → Bool) : State :=
  if s.sram.isEmpty then s
  else
    let mine (h : Option (GroupRef × Group × Nat)) : Bool := match h with
      | some x => p x.1.team
      | none => true
    { s with sram := s.sram.filter fun e => !(e.2.1 == core && (e.1 == 4 && mine (stackHolder s core e.2.2.1) ||
        e.1 == 5 && mine (controlHolder s core e.2.2.1))) }

/-- A team is gone from its core: what its registers, buffers, stack cache and control state held stays behind. -/
def leaveTeam (s : State) (t : Team) : State :=
  let s := t.vregs.foldl (fun s v => leaveRegs s t.r.ld t.core v.1 v.2) s
  let s := [(1, t.wbase, t.wlen), (2, t.abase, t.alen), (3, t.cbase, t.clen)].foldl (fun s b =>
    leaveWords s t.r.ld b.1 t.core (b.2.1 / 8) ((b.2.1 + b.2.2) / 8)) s
  let s := dropHeld s t.core fun r => r == t.r
  addStale (addStale s t.r.ld 4 t.core 0 16384) t.r.ld 5 t.core 0 16384

/-- Everything that a logical device has left in the stores is zero (R92). -/
def zeroLd (s : State) (ld : Nat) : State :=
  let gone (e : Nat × Nat × Nat × Nat × Nat) : Bool :=
    s.stale.any fun x => x.ld == ld && x.store == e.1 && x.unit == e.2.1 && x.lo ≤ e.2.2.1 && e.2.2.1 < x.hi
  let held (e : Nat × Nat × Nat × Nat × Nat) : Bool :=
    e.1 == 4 && (stackHolder s e.2.1 e.2.2.1).isSome || e.1 == 5 && (controlHolder s e.2.1 e.2.2.1).isSome
  { s with sram := s.sram.filter fun e => held e || !gone e, stale := s.stale.filter fun x => x.ld != ld }

end Sys2Proof.Machine
end

