-- ==== Sys2Proof/Machine/Stack.lean ====
section
/-! DEFINITION. The lane stacks (spec/03_on_chip_memories.md R85 to R87; spec/01_address_spaces.md R30): what the stack cache holds of
them, their checks, spills and fills, and the words of the stack cache that DIAGST.sram has written (R91, R400). -/

namespace Sys2Proof.Machine

/-! Lane stacks. -/

/-- Bytes of a lane's stack the cache holds (R86). -/
def stackCap (g : Group) : Nat := g.stkUnits * 64

/-- The pointer of a byte of a lane's stack (R30). -/
def stackPtr (gr : Grid) (t : TeamRef) (g : Group) (l byte : Nat) : Ptr :=
  let slice := gr.slice * 2 ^ 16
  ptrAdd gr.stack ((t.team * slice * (gr.cgrp + 1) + g.id * slice + l * (slice / 32) + byte : Nat) : Int)

/-- The stack pointer of a lane (R85). -/
def spOf (g : Group) (l : Nat) : Nat := (stGet g.sp l).toNat

/-- The first cached stack byte of a lane (R86). -/
def loOf (g : Group) (l : Nat) : Nat := (stGet g.stkLo l).toNat

/-- The runs of a lane's stack bytes, cut at pages: byte and length. -/
def stackRuns (gr : Grid) (t : TeamRef) (g : Group) (l : Nat) : Nat → Nat → Nat → List (Nat × Nat)
  | 0, _, _ => []
  | fuel + 1, lo, hi =>
    if hi ≤ lo then []
    else
      let n := min (hi - lo) (2 ^ 16 - ptrVa (stackPtr gr t g l lo) % 2 ^ 16)
      (lo, n) :: stackRuns gr t g l fuel (lo + n) hi

/-- The first fault of a spill or fill of stack bytes from lo up to hi, through the team's pinned root (R30). -/
def stackFault (s : State) (t : Team) (gr : Grid) (g : Group) (l lo hi : Nat) (k : Acc) : Option ((Nat × Nat) × Ptr) :=
  (stackRuns gr t.r g l ((hi - lo) / 2 ^ 16 + 2) lo hi).foldl (fun o r => match o with
    | some e => some e
    | none =>
      let p := stackPtr gr t.r g l r.1
      match farCheck s t.r.ld (pinRoot t.pin) t.bounds (levelFor s t.r g == .user) p r.2 k with
      | .error e => some (e, p)
      | .ok x => if linkDown s x.1 then some ((cFARTIMEOUT, 0), p) else none) none

/-- The first lane whose transfer faults. -/
def firstFault (ls : List Nat) (f : Nat → Option ((Nat × Nat) × Ptr)) : Option (Nat × (Nat × Nat) × Ptr) :=
  ls.foldl (fun o l => match o with
    | some e => some e
    | none => (f l).map fun e => (l, e)) none

/-- A cached stack byte; what a frame's bytes hold before they are written the specification leaves open (DESIGN CHOICE, log 29). -/
def stkByte (s : State) (g : Group) (key : Nat) : Byte :=
  let e := stGet g.stk key
  if e.getLsbD 8 then e.setWidth 8 else Config.freeByte (s.frees + key)

/-- Put stack bytes into the cache. -/
def stkPut (g : Group) (key : Nat) (bs : List Byte) : Group :=
  { g with stk := stSetAll g.stk ((List.range bs.length).map fun i => (key + i, BitVec.twoPow 9 8 ||| (bs.getD i 0).setWidth 9)) }

/-- A frame pushed in a lane (R85). -/
def pushFrame (f : Nat) (g : Group) (l : Nat) : Group :=
  { g with sp := stSet g.sp l (BitVec.ofNat 64 (spOf g l + f)), frames := lset g.frames l (f :: g.frames.getD l []) }

/-- A frame popped in a lane (R258): cached bytes above the new top are gone. -/
def popFrame (f : Nat) (g : Group) (l : Nat) : Group :=
  let sp := spOf g l - f
  { g with
    sp := stSet g.sp l (BitVec.ofNat 64 sp)
    frames := lset g.frames l (g.frames.getD l []).tail
    stk := stClear g.stk (2 ^ 32 * l + sp) (2 ^ 32 * l + 2 ^ 32)
    stkLo := stSet g.stkLo l (BitVec.ofNat 64 (min (loOf g l) sp)) }

/-! Spills and fills (R86, R87). -/

/-- The bytes a spill has to write for a lane: from the first cached byte up to the capacity below the top. -/
def spillRange (g : Group) (l : Nat) : Nat × Nat := (loOf g l, spOf g l - stackCap g)

/-- Where stack bytes lie in memory: the transfer was checked when its push or pop issued, and what it translates through has not moved
since (R30). -/
def stackPa (s : State) (t : Team) (gr : Grid) (g : Group) (l byte k : Nat) (a : Acc) : Option Nat :=
  match farCheck s t.r.ld (pinRoot t.pin) t.bounds (levelFor s t.r g == .user) (stackPtr gr t.r g l byte) k a with
  | .ok x => some x.1
  | .error _ => none

/-- A lane's oldest cached bytes go to memory in ascending order (R87); a word of the cache that is uncorrectable poisons what it is written
to (DESIGN CHOICE, log 75). -/
def spillLane (s : State) (r : GroupRef) (lane : Nat) : State :=
  match teamOf s r.team, groupOf s r, gridOf s r.team.ld r.team.grid with
  | some t, some g, some gr =>
    let (lo, hi) := spillRange g lane
    if lo < hi then
      let s := (stackRuns gr t.r g lane ((hi - lo) / 2 ^ 16 + 2) lo hi).foldl (fun s p =>
        match stackPa s t gr g lane p.1 p.2 .write with
        | none => s
        | some pa =>
          let key := 2 ^ 32 * lane + p.1
          let x := match touchStack s r key p.2 with
            | none => (true, s)
            | some s => (false, s)
          let g := (groupOf x.2 r).getD g
          let s := endTags (writeMem (walkRead x.2 t.r.ld (pinRoot t.pin) (ptrVa (stackPtr gr t.r g lane p.1))) pa ((List.range p.2).map fun i => stkByte s g (key + i))) pa p.2
          if x.1 && isHbm pa then (List.range ((pa + p.2 + 31) / 32 - pa / 32)).foldl (fun s i => poisonSec s (pa / 32 + i)) s else s) s
      modGroup s r fun g => { g with
        stk := stClear g.stk (2 ^ 32 * lane + lo) (2 ^ 32 * lane + hi)
        stkLo := stSet g.stkLo lane (BitVec.ofNat 64 hi) }
    else s
  | _, _, _ => s

/-- Does a group owe a spill (R87). -/
def owesSpill (g : Group) : Bool := (List.range 32).any fun l => (spillRange g l).1 < (spillRange g l).2

/-- The bytes a fill has to bring for a lane: what the capacity covers below the first cached byte. -/
def fillRange (g : Group) (l : Nat) : Nat × Nat := (spOf g l - stackCap g, loOf g l)

/-- Bring a lane's stack bytes back: the group, the machine and whether the data was good. -/
def fillLane (s : State) (t : Team) (gr : Grid) (g : Group) (l : Nat) : State × Group × RdSt × Nat :=
  let (lo, hi) := fillRange g l
  let r := (stackRuns gr t.r g l ((hi - lo) / 2 ^ 16 + 2) lo hi).foldl (fun (a : State × Group × RdSt × Nat) p =>
    match stackPa a.1 t gr g l p.1 p.2 .read with
    | none => a
    | some pa =>
      let r := readMem (walkRead a.1 t.r.ld (pinRoot t.pin) (ptrVa (stackPtr gr t.r g l p.1))) pa p.2
      (r.2.2, stkPut a.2.1 (2 ^ 32 * l + p.1) r.1,
        if a.2.2.1 = .ok then r.2.1 else a.2.2.1, if a.2.2.1 = .ok then pa else a.2.2.2)) (s, g, .ok, 0)
  (r.1, { r.2.1 with stkLo := stSet r.2.1.stkLo l (BitVec.ofNat 64 lo) }, r.2.2.1, r.2.2.2)

/-- The transfers that some group's pushes and pops have started are made before the root and table that they were checked with move (R30,
R86); data that is not good ends the transfers of its lane, and is found by the fill's own step. -/
def drainStacks (s : State) (t : TeamRef) : State :=
  match teamOf s t with
  | none => s
  | some u => u.groups.foldl (fun s g => if g.stkUnits = 0 then s else (List.range 32).foldl (fun s l =>
    let s := spillLane s ⟨t, g.id⟩ l
    match teamOf s t, groupOf s ⟨t, g.id⟩, gridOf s t.ld t.grid with
    | some u, some g, some gr =>
      if (fillRange g l).1 < (fillRange g l).2 then
        let q := fillLane s u gr g l
        if q.2.2.1 = .ok then modGroup q.1 ⟨t, g.id⟩ fun _ => q.2.1 else s
      else s
    | _, _, _ => s) s) s

end Sys2Proof.Machine
end

