-- ==== Sys2Proof/Machine/Ops.lean ====
section
/-! DEFINITION. The operations every instruction of a group shares: the context it issues in, the ways it can end, the
frontier's next state (spec/06_execution_model.md R153 to R165), taking a trap and returning from one
(spec/22_traps_faults.md R426 to R433), the failure of a grid and the kill of a gang (R432, R435, R436), team, gang and
system-call barriers (spec/10_control_instructions.md R272, spec/20_system_instructions.md R387). -/

namespace Sys2Proof.Machine

/-! Ends of teams, grids and gangs. -/

/-- Drop every pin a team and its groups and windows hold (R49). -/
def dropTeamPins (s : State) (t : Team) : State :=
  let s := dropPin s t.r.ld t.pin
  let s := t.groups.foldl (fun s g => dropPin s t.r.ld g.pin) s
  t.wins.foldl (fun s w => dropPin s t.r.ld w.pin) s

/-- Does something that a team issued still come about: a far access, or an engine operation (R149, R432, R435). -/
def teamOwes (s : State) (r : TeamRef) : Bool :=
  s.far.any (fun f => f.r.team == r) || s.reqs.any (fun q => q.r.team == r && q.underway) || s.memOps.any fun m => m.t == r

/-- The allocations of stopped teams are freed and their pins dropped once everything they issued has ended (R432, R435). -/
def bury (s : State) : State :=
  if s.dying.isEmpty then s
  else
    let s' := (s.dying.filter fun t => !teamOwes s t.r).foldl (fun s t =>
      let s := dropTeamPins s t
      if t.core < 352 then leaveTeam s t else s) s
    { s' with
      dying := s.dying.filter fun t => teamOwes s t.r
      reqs := s'.reqs.filter fun q => q.underway || !s.dying.any fun t => t.r == q.r.team }

/-- Teams stop: nothing of theirs issues any more, their buffers are gone. One that is not on its core holds nothing there. -/
def removeTeams (s : State) (p : Team → Bool) : State :=
  let gone := (s.teams.filter p).map fun t => if gangHere s t then t else { t with core := 352 }
  bury { s with
    teams := s.teams.filter fun t => !p t
    dying := s.dying ++ gone
    hist := s.hist.filter fun w => !gone.any fun t => [Buf.w, .a, .c].any fun b => w.loc / 2 ^ 64 == bufLoc t.r b 0 / 2 ^ 64 }

/-- A team whose write-back is done leaves its core (R172): its allocations are freed and its pins dropped. What it issued that writes only
device memory goes on. -/
def freeTeam (s : State) (t : Team) : State :=
  let s := leaveTeam (dropTeamPins s t) t
  let u : Team := { t with
    stage := .released, core := 352, pin := none
    groups := t.groups.map fun g => { g with pin := none }, wins := t.wins.map fun w => { w with pin := none } }
  bury { s with
    teams := s.teams.filter fun u => u.r != t.r
    dying := s.dying ++ [u]
    hist := s.hist.filter fun w => !([Buf.w, .a, .c].any fun b => w.loc / 2 ^ 64 == bufLoc t.r b 0 / 2 ^ 64) }

/-- Has a team been stopped, so that what it issued comes about or not (R149, R432, R435). -/
def teamStopped (s : State) (r : TeamRef) : Bool :=
  (teamOf s r).isNone && !s.dying.any fun u => u.r == r && u.stage == .released

/-- The completion record of a grid follows what some team did (R36, R409). -/
def addEnds (s : State) (t : TeamRef) (ids : List Nat) : State :=
  if ids.isEmpty then s else modGrid s t.ld t.grid fun g => { g with ends := union g.ends ids }

/-- The bound flags of stopped teams, and what they did, reach their grid's record (R409). -/
def keepFlags (s : State) (p : Team → Bool) : State :=
  (s.teams.filter p).foldl (fun s t =>
    addEnds (modGrid s t.r.ld t.r.grid fun g => { g with bflags := g.bflags ||| t.bflags }) t.r (beforeTeams s [t])) s

/-- A grid fails or is ended (R432): its teams stop, unwritten teams are not written back, and the first failure (status,
cause, detail, index, team, address) is kept for the record. What its engine operations and far accesses still do is
decided when each comes about (R149) (DEDUCED, log 20). -/
def failGrid (s : State) (ld id : Nat) (x : Nat × Nat × Nat × Nat × Nat × DWord) : State :=
  let p (t : Team) : Bool := t.r.ld == ld && t.r.grid == id
  let s := removeTeams (keepFlags s p) p
  let s := { s with gangs := s.gangs.filter fun k => !(k.r.ld == ld && k.r.grid == id) }
  modGrid s ld id fun g => { g with fail := some (g.fail.getD x) }

/-- May a killed gang be relaunched (R436). -/
def mayRelaunch (gr : Grid) (k : Gang) : Bool := gr.relaunchFlag && !bit1 gr.kern 35 && k.relaunches < 2

/-- Stop every member of a gang (R435): nothing more issues, its state is discarded. -/
def stopGang (s : State) (k : GangRef) : State :=
  let p (t : Team) : Bool := (gangTeams s k).any fun u => u.r == t.r
  removeTeams (keepFlags s p) p

/-- A gang is killed (R435, R436): logged, stopped, and left for relaunch, for which all its teams count as unfinished again, or
its grid failed with status 0x09. -/
def killGang (s : State) (k : GangRef) (cause pa : Nat) : State :=
  let s := logEvent s 0x03 cause 0 k.ld pa k.grid
  match gridOf s k.ld k.grid, gangOf s k with
  | some gr, some g =>
    let ts := gangTeams s k
    let past := union g.past (beforeTeams s ts)
    let s := stopGang s k
    if mayRelaunch gr g then
      let n := g.relaunches + 1
      let s := modGrid s k.ld k.grid fun x => { x with relaunch := max x.relaunch n, finished := x.finished + ts.length - g.size }
      modGang s k fun g =>
        { g with place := .relaunch, relaunches := n, bins := g.bins.map fun l => l.map fun _ => ⟨[], none⟩, preempt := none, past := past }
    else failGrid s k.ld k.grid (0x09, cause, 0, 0, k.gang * gr.gangN, 0)
  | _, _ => stopGang s k

/-- The gang of a team is killed. -/
def killTeam (s : State) (t : TeamRef) (cause pa : Nat) : State :=
  killGang s ⟨t.ld, t.grid, t.team / gangSize s t⟩ cause pa

/-! Taking a trap (R426 to R431). -/

/-- The bank a handler starts with (R428). -/
def handlerBank (s : State) (t : Team) (g : Group) (x : Trap) : Bank :=
  let g1 := x.mask.toNat * 2 ^ 32 + x.lane * 2 ^ 26 + (if x.coll then 2 ^ 25 else 0) + (if x.parked then 2 ^ 24 else 0)
    + x.detail % 2 ^ 16 * 2 ^ 8 + x.cause % 256
  let g4 := x.lmask.toNat * 2 ^ 32 + x.prio.toNat * 2 ^ 24 + t.member * 2 ^ 21 + t.r.ld * 2 ^ 17 + g.id * 2 ^ 12 + g.vbase % 2 ^ 12
  let g5 := t.core * 2 ^ 32 + t.r.team % 2 ^ 32
  ⟨stSetAll [] [(1, BitVec.ofNat 64 g1), (2, x.pc), (3, x.addr), (4, BitVec.ofNat 64 g4), (5, BitVec.ofNat 64 g5),
    (6, qbWord s t.r.ld 0x268)], [], []⟩

/-- The cycle by which every timed result has been written. -/
def lastDue (g : Group) (now : Nat) : Nat := g.outst.foldl (fun m o => match o.due with
  | .cycle n => max m n
  | .far _ => m) now

/-- Is a far access's result outstanding. -/
def awaitsFar (g : Group) : Bool := g.outst.any fun o => match o.due with
  | .far _ => true
  | .cycle _ => false

/-- The handler is entered (R428), or without one the grid fails with status 0x08 (R431). -/
def enterTrap (s : State) (r : GroupRef) (x : Trap) : State :=
  match teamOf s r.team, groupOf s r with
  | some t, some g =>
    let pc := qbWord s r.team.ld 0x260
    if pc = 0 then failGrid s r.team.ld r.team.grid (0x08, x.cause, x.detail % 256, 0, r.team.team, x.pc)
    else
      let s := { s with cycle := lastDue g s.cycle }
      modGroup s r fun g => { g with
        outst := [], swPark := false, delay := 0, pendTrap := none, last := BitVec.allOnes 32
        handler := some ⟨handlerBank s t g x, [⟨pc, 128, BitVec.allOnes 32, 0, .ready⟩], x, s.cycle⟩ }
  | _, _ => s

/-- A trap is raised (R426): inside a handler it is nested and fails the grid (R429); else the group first completes what
it issued, and the handler is entered. A group holds one trap at a time. -/
def raiseTrap (s : State) (r : GroupRef) (x : Trap) : State :=
  match groupOf s r with
  | none => s
  | some g =>
    match g.handler with
    | some h => failGrid s r.team.ld r.team.grid (0x08, x.cause, x.detail % 256, 0, r.team.team, h.trap.pc)
    | none =>
      if g.pendTrap.isSome then s
      else if awaitsFar g then modGroup s r fun g => { g with pendTrap := some x }
      else enterTrap s r x

/-- A Whole trap of an entry (R424). -/
def trapEntry (s : State) (r : GroupRef) (e : Entry) (cause detail : Nat) (addr : DWord) : State :=
  let coll := match e.st with
    | .waiting (.coll _ _ _ _) _ => true
    | _ => false
  raiseTrap s r ⟨cause, detail, e.mask, lowest e.mask, e.pc, e.prio, addr, 0, coll, false, false⟩

/-- The trap of a parked entry (R163). -/
def parkTrap (e : Entry) : Option Trap := match e.st with
  | .parked cause detail addr lane => some ⟨cause, detail, e.mask, lane, e.pc, e.prio, addr, 0, false, true, false⟩
  | _ => none

/-- Raise the trap of the highest-ranked parked entry, where no trap is held. -/
def raiseParked (s : State) (r : GroupRef) : State :=
  match groupOf s r with
  | none => s
  | some g =>
    if g.handler.isSome || g.pendTrap.isSome then s
    else match (topEntry (g.frontier.filter fun e => (parkTrap e).isSome)).bind parkTrap with
      | none => s
      | some x => raiseTrap s r x

/-- A trap that waited for results is taken once they are written (R426). -/
def takePending (s : State) (r : GroupRef) : State :=
  match groupOf s r with
  | none => s
  | some g => match g.pendTrap with
    | none => s
    | some x => if awaitsFar g then s else enterTrap s r x

/-! Waking entries (R162). -/

/-- Entries that satisfy p become ready at PC + 12 with AGE 0 and merge (R155). -/
def wakeList (p : Entry → Bool) (f : List Entry) : List Entry :=
  (f.filter p).foldl (fun a e => addReady a ⟨nextPc e.pc, e.prio, e.mask, 0, .ready⟩) (f.filter fun e => !p e)

/-- Entries that satisfy p wait for nothing any more, and stand as they stood until the group's trap is over (R428, R430). -/
def meetList (p : Entry → Bool) (f : List Entry) : List Entry :=
  f.map fun e => match e.st with
    | .waiting _ since => if p e then { e with st := .waiting .met since } else e
    | _ => e

/-- Wake the entries of a group that satisfy p: at once, or when the trap that the group holds is over; the frontier that a
handler has set aside is kept (R428). -/
def wakeIf (p : Entry → Bool) (g : Group) : Group :=
  { g with
    frontier := if g.handler.isSome || g.pendTrap.isSome then meetList p g.frontier else wakeList p g.frontier
    handler := g.handler.map fun h => { h with frontier := wakeList p h.frontier } }

/-- Does an entry wait for something that satisfies q. -/
def Entry.waits (e : Entry) (q : Wait → Bool) : Bool := match e.st with
  | .waiting w _ => q w
  | _ => false

/-! Team, gang and system-call barriers. -/

def Wait.isMet : Wait → Bool
  | .met => true
  | _ => false

def Wait.isTbar : Wait → Bool
  | .tbar _ => true
  | _ => false

def Wait.isRefresh : Wait → Bool
  | .tbar b => b
  | _ => false

def Wait.isGbar : Wait → Bool
  | .gbar => true
  | _ => false

def Wait.isSys : Wait → Bool
  | .sys _ _ _ _ _ => true
  | _ => false

/-- Is the group a launch group. -/
def Group.isLaunch (g : Group) : Bool := g.rung.isNone

/-- Has a group arrived: every live lane waits so, none is parked, no handler runs (R272, R387, R429, R173). -/
def arrivedAt (q : Wait → Bool) (g : Group) : Bool :=
  g.ended || (g.handler.isNone && g.pendTrap.isNone && g.frontier.all fun e => e.waits q)

/-- Has every launch group of a team arrived, and some group waits. -/
def teamArrived (q : Wait → Bool) (t : Team) : Bool :=
  let gs := t.groups.filter Group.isLaunch
  gs.all (arrivedAt q) && gs.any fun g => !g.ended

/-- Move a pin to the slot's current root (R49). -/
def movePin (s : State) (ld slot : Nat) (p : Option Pin) : Option Pin × State :=
  let n := takePin s ld slot
  (n.1, dropPin n.2 ld p)

/-- REFRESH of a team and those of its groups that satisfy p (R49, R17, R391): pins move, each an acquire of the root's publication
(R51), and the bounds table is captured, after the stack transfers that have started (R30); none where the slot is empty. -/
def refreshTeam (s : State) (r : TeamRef) (slot : Nat) (p : Group → Bool) : Option State :=
  match teamOf s r with
  | none => some s
  | some t =>
    if !((ldOf s r.ld).slots.getD slot emptyRoot).full then none
    else
      let m := movePin (drainStacks s r) r.ld slot t.pin
      let s := modTeam m.2 r fun t => { t with pin := m.1 }
      let s := (t.groups.filter fun g => p g && !g.ended).foldl (fun s g =>
        let m := movePin s r.ld slot g.pin
        modGroup m.2 ⟨r, g.id⟩ fun g => joinPast (pinPast m.2 r.ld m.1) { g with pin := m.1, ahead := [] }) s
      let b := readBounds s r.ld slot
      let s := boundsRead s r.ld slot
      some (modTeam s r fun t => { t with bounds := b.1, tenant := b.2 })

/-- The team barrier, where every group has arrived (R272, R273, R391). -/
def settleTbar (s : State) (r : TeamRef) : State :=
  match teamOf s r with
  | none => s
  | some t =>
    if teamArrived Wait.isTbar t then
      let fresh := t.groups.any fun g => g.frontier.any fun e => e.waits Wait.isRefresh
      let slot := ((gridOf s r.ld r.grid).map Grid.slot).getD 0
      let s := if fresh then
          match refreshTeam s r slot fun _ => true with
          | some s => s
          | none => modTeam s r fun t => { t with groups := t.groups.map fun g => { g with emptySlot := !g.ended } }
        else s
      let ids := beforeTeams s [t]
      modTeam s r fun t => { t with groups := t.groups.map fun g => joinPast ids (wakeIf (fun e => e.waits Wait.isTbar) g) }
    else s

/-- Has a team arrived at a gang barrier: it has exited, or every group waits (R272, R173). -/
def gbarTeam (t : Team) : Bool := t.stage == .exited || (t.groups.filter Group.isLaunch).all (arrivedAt Wait.isGbar)

/-- The gang barrier, where every team has arrived (R272). -/
def settleGbar (s : State) (k : GangRef) : State :=
  let ts := gangTeams s k
  let waits := ts.any fun t => t.groups.any fun g => g.frontier.any fun e => e.waits Wait.isGbar
  if waits && ts.all gbarTeam then
    let ids := beforeTeams s ts
    ts.foldl (fun s t => modTeam s t.r fun t =>
      { t with groups := t.groups.map fun g => joinPast ids (wakeIf (fun e => e.waits Wait.isGbar) g) }) s
  else s

/-- Has an entry an active lane at its SYSCALL. -/
def Entry.sysActive (e : Entry) : Bool := e.waits fun w => match w with
  | .sys act _ _ _ _ => act != 0
  | _ => false

/-- The implicit barrier before a system call (R387): with no active lane in any group every entry moves on, else the
team posts its request. -/
def settleSys (s : State) (r : TeamRef) : State :=
  match teamOf s r with
  | none => s
  | some t =>
    if t.sys == .none && teamArrived Wait.isSys t then
      if t.groups.any fun g => g.frontier.any Entry.sysActive then modTeam s r fun t => { t with sys := .posting }
      else
        let ids := beforeTeams s [t]
        modTeam s r fun t => { t with groups := t.groups.map fun g => joinPast ids (wakeIf (fun e => e.waits Wait.isSys) g) }
    else s

/-- Every barrier that an arrival or an end may complete. -/
def settle (s : State) (r : TeamRef) : State :=
  let s := settleSys (settleTbar s r) r
  settleGbar s ⟨r.ld, r.grid, r.team / gangSize s r⟩

/-! Lanes that leave, groups that end. -/

/-- A ladder window at its start (R361). -/
def freeLad : LadWin := ⟨0, false, [0, 0, 0, 0], 0, [], [], []⟩

/-- The owner's window entry of a dropped item is done (R380). -/
def dropItem (s : State) (t : TeamRef) (it : Item) : State :=
  modTeam s { t with team := it.team } fun o =>
    let w := o.lads.getD it.lad freeLad
    { o with lads := lset o.lads it.lad { w with dropped := w.dropped + 1, done := w.done ++ [⟨it.seq, none, false, it.rung, []⟩] } }

/-- Drop the items that some lanes hold (R380). -/
def dropItems (s : State) (r : GroupRef) (m : LaneMask) : State :=
  match groupOf s r with
  | none => s
  | some g =>
    let s := (g.items.filter fun p => m.getLsbD p.1).foldl (fun s p => dropItem s r.team p.2) s
    modGroup s r fun g => { g with items := g.items.filter fun p => !m.getLsbD p.1 }

/-- The name that the accesses of a rung group keep once it has ended and its GROUPID may go to another. -/
def goneGroup (r : GroupRef) : GroupRef := ⟨r.team, r.g + 4096⟩

/-- What a rung group has under way goes by the name of a group that is there no more (R381). -/
def detach (s : State) (r : GroupRef) : State :=
  let who (p : Party) : Party := match p with
    | .lane x c => if x == r then .lane (goneGroup r) c else p
    | _ => p
  { s with
    far := s.far.map fun f => if f.r == r then { f with r := goneGroup r } else f
    rels := s.rels.map fun t => { t with who := who t.who }
    arDone := s.arDone.map fun t => { t with who := who t.who }
    hist := s.hist.map fun w => if w.grp == some r then { w with grp := some (goneGroup r) } else w
    reqs := s.reqs.map fun q => if q.r == r then { q with r := goneGroup r } else q }

/-- A group whose last lane has left ends (R172): its pin is dropped, its octets are discarded; a rung group leaves its
slot; the spawn states close with the last launch group (R369). -/
def endGroup (s : State) (r : GroupRef) : State :=
  match groupOf s r with
  | none => s
  | some g =>
    if g.ended then
      let ids := forkOf s g (BitVec.allOnes 32)
      let s := dropPin s r.team.ld g.pin
      let s := leaveRegs s r.team.ld (((teamOf s r.team).map Team.core).getD 0) g.vbase (g.budget + reserveOf g.depth)
      let before := beforeOf s r g (BitVec.allOnes 32)
      let s := addEnds s r.team before
      let s := modTeam s r.team fun t => { t with exits := union t.exits ids }
      let s := if g.isLaunch then s else detach s r
      let s := modTeam s r.team fun t =>
        if g.isLaunch then
          { t.modGroup r.g fun g => { g with pin := none, octets := [], outst := [], swPark := false } with
            vregs := if r.g < t.vregs.length then lset t.vregs r.g (0, 0) else t.vregs }
        else { t with
          groups := t.groups.filter fun x => x.id != r.g
          rungPast := (r.g, before) :: t.rungPast.filter fun x => x.1 != r.g }
      modTeam s r.team fun t =>
        if t.groups.all fun g => !g.isLaunch || g.ended then { t with lads := t.lads.map fun w => { w with closed := true } }
        else t
    else s

/-- A group in which something may come about of itself: the package runs, and the group's state is not being saved
(R12, R419). -/
def wakeable (s : State) (r : GroupRef) : Option Group :=
  if s.power.on && !s.power.halted then (groupOf s r).filter fun g => !g.saved else none

/-! Stuck groups (R164, R165). -/

/-- The partition a collective names. -/
def collPart : Instr → Nat
  | .vote x => x.t.tag
  | .shfl x => x.t.tag
  | .reduce x => x.t.tag
  | .scan x => x.t.tag
  | .bcast x => x.t.tag
  | _ => 8

/-- Lanes of a sub-group. -/
def subMask (size base : Nat) : LaneMask := BitVec.ofNat 32 ((2 ^ size - 1) * 2 ^ base)

/-- A partition's sub-group size (R166). -/
def Part.lanes (p : Part) : Nat := match p.size with
  | 1 => 4
  | 2 => 8
  | 3 => 16
  | _ => 0

/-- The record of a partition. -/
def partOf (g : Group) (p : Nat) : Part := g.parts.getD p ⟨0, 0⟩

/-- The bases of a partition's sub-groups. -/
def Part.bases (p : Part) : List Nat := if p.lanes = 0 then [] else (List.range (32 / p.lanes)).map (· * p.lanes)

/-- Lanes whose collective at a PC and PRIO was skipped. -/
def skippedAt (g : Group) (pc : Ptr) (prio : BitVec 8) : LaneMask :=
  g.skipped.foldl (fun m x => if x.1 = pc ∧ x.2.1 = prio then m ||| x.2.2 else m) 0

/-- Has every sub-group that holds a lane of the entry converged: each member lane that has not exited is in it
(R167, R265). -/
def converged (g : Group) (f : List Entry) (pc : Ptr) (prio : BitVec 8) (mask : LaneMask) (part : Nat) : Bool :=
  let p := partOf g part
  let live := f.foldl (fun m e => m ||| e.mask) 0
  p.bases.all fun b =>
    let sub := subMask p.lanes b
    mask &&& sub == 0 || sub &&& p.mem &&& live &&& ~~~(mask ||| skippedAt g pc prio) == 0

/-- Can a waiting collective go on. -/
def collReady (g : Group) (f : List Entry) (e : Entry) : Bool := match e.st with
  | .waiting (.coll i _ _ _) _ => converged g f e.pc e.prio e.mask (collPart i)
  | _ => false

def Wait.isRcv : Wait → Bool
  | .rcv => true
  | _ => false

/-- Can an RCV complete: every entry waits at it, at one address (R164). -/
def rcvReady (f : List Entry) : Bool := match f with
  | [] => false
  | e :: _ => f.all fun x => x.waits Wait.isRcv && x.pc == e.pc

/-- Can no entry ever be issued again without software's help (R165). -/
def stuck (g : Group) : Bool :=
  let f := frontOf g
  !f.isEmpty && f.all (fun e => e.waits fun w => match w with
    | .rcv => true
    | .coll _ _ _ _ => true
    | _ => false) && !rcvReady f && !f.any (collReady g f)

/-- A stuck group traps FRONTIER with detail 3 at its highest-ranked entry (R165). -/
def stuckTest (s : State) (r : GroupRef) : State :=
  match groupOf s r with
  | none => s
  | some g =>
    if stuck g && g.pendTrap.isNone then
      match topEntry (frontOf g) with
      | none => s
      | some e => trapEntry s r e cFRONTIER 3 0
    else s

/-! The context of an instruction. -/

/-- What an instruction issues with: the machine, its team, group and grid, the issuing entry, the active lanes (R181). -/
structure Ctx where
  s : State
  t : Team
  g : Group
  gr : Grid
  u : Issuing
  act : LaneMask
  deriving Repr

/-- The guard in a lane (R181). -/
def guardIn (g : Group) (h : Hdr) (l : Nat) : Bool := getP g h.gp.toNat l != h.neg

/-- The active lanes (R181). -/
def activeMask (g : Group) (h : Hdr) (mask : LaneMask) : LaneMask :=
  maskOf ((List.range 32).filter fun l => mask.getLsbD l && guardIn g h l)

/-- AnyActive (R200). -/
def Ctx.any (c : Ctx) : Bool := c.act != 0
/-- LowestActive (R200). -/
def Ctx.low (c : Ctx) : Nat := lowest c.act
/-- The active lanes, ascending. -/
def Ctx.lanes (c : Ctx) : List Nat := lanesOf c.act
/-- The issuing group's name. -/
def Ctx.r (c : Ctx) : GroupRef := c.u.r
/-- The logical device. -/
def Ctx.ld (c : Ctx) : Nat := c.u.r.team.ld
/-- The level (R383). -/
def Ctx.level (c : Ctx) : Level := levelFor c.s c.t.r c.g
/-- Is the group running a handler. -/
def Ctx.inHandler (c : Ctx) : Bool := c.g.handler.isSome

/-- A trap an instruction raises Whole: cause, detail, the lane it describes, address, lane mask, is it a collective. -/
structure TrapInfo where
  cause : Nat
  detail : Nat
  lane : Option Nat
  addr : DWord
  lmask : BitVec 32
  coll : Bool
  deriving Repr

/-- What the lanes of the entry do next (R155, R162, R163). -/
inductive Move where
  | next
  | goto (dest : List (Nat × Ptr × BitVec 8))
  | exit (m : LaneMask)
  | wait (w : Wait)
  | split (bad : LaneMask) (cause detail : Nat) (addr : DWord) (lane : Nat) (w : Option Wait)
  /-- The meaning gives the frontier itself. -/
  | placed (f : List Entry)
  /-- The meaning has made the whole next state: the handler has ended. -/
  | left
  deriving Repr

/-- Does only a collective move so (R265). -/
def Move.coll : Move → Bool
  | .placed _ => true
  | _ => false

/-- How an instruction ends. -/
inductive Res where
  | trap (x : TrapInfo)
  /-- A trap that leaves an effect of its own: the bound flag of R75. -/
  | trapIn (s : State) (x : TrapInfo)
  | kill (s : State) (cause pa : Nat)
  | ok (s : State) (m : Move) (outs : List Outst) (delay : Option Nat)
  deriving Repr

/-- A trap of the whole entry for a cause that no lane is named for. -/
def trapW (cause detail : Nat) : Res := .trap ⟨cause, detail, none, 0, 0, false⟩

/-- A trap that one lane's own check raises. -/
def trapL (cause detail lane : Nat) (addr : DWord) : Res := .trap ⟨cause, detail, some lane, addr, 0, false⟩

/-- The instruction is done and every lane goes to PC + 12. -/
def done (s : State) (outs : List Outst) : Res := .ok s .next outs none

/-- A frontier without the lanes of the issuing entry. -/
def others (u : Issuing) (f : List Entry) : List Entry :=
  (f.map fun e => if e.st == .ready && e.pc == u.pc && e.prio == u.prio then { e with mask := e.mask &&& ~~~u.mask } else e).filter
    fun e => e.mask != 0

/-- The frontier after a move, from the group's frontier once the effect is made (R155, R162, R163). -/
def advance (c : Ctx) (front : List Entry) (m : Move) : List Entry :=
  let u := c.u
  let base := others u front
  let nx := nextPc u.pc
  match m with
  | .next => addReady base ⟨nx, u.prio, u.mask, 0, .ready⟩
  | .goto dest =>
    (lanesOf u.mask).foldl (fun f l => match dest.find? fun x => x.1 == l with
      | some x => addReady f ⟨x.2.1, x.2.2, maskOf [l], 0, .ready⟩
      | none => addReady f ⟨nx, u.prio, maskOf [l], 0, .ready⟩) base
  | .exit m =>
    let left := u.mask &&& ~~~m
    if left = 0 then base else addReady base ⟨nx, u.prio, left, 0, .ready⟩
  | .wait w => base ++ [⟨u.pc, u.prio, u.mask, 0, .waiting w c.s.cycle⟩]
  | .split bad cause detail addr lane w =>
    let base := base ++ [⟨u.pc, u.prio, bad, 0, .parked cause detail addr lane⟩]
    let good := u.mask &&& ~~~bad
    if good = 0 then base
    else match w with
      | none => addReady base ⟨nx, u.prio, good, 0, .ready⟩
      | some w => base ++ [⟨u.pc, u.prio, good, 0, .waiting w c.s.cycle⟩]
  | .placed f => f
  | .left => front

/-- The group after its issue (R183 to R185): frontier, results outstanding, park, delay. -/
def retire (c : Ctx) (h : Hdr) (sw : Bool) (f : List Entry) (outs : List Outst) (delay : Option Nat) (g : Group) : Group :=
  let g := setFront g f
  { g with
    outst := g.outst ++ outs
    swPark := (h.sw || sw) && !(g.outst ++ outs).isEmpty
    delay := c.s.cycle + 1 + delay.getD h.dly.toNat
    last := c.u.mask
    stamp := c.s.cycle }

/-- The Whole trap of an issuing entry (R424). -/
def takeTrap (s : State) (u : Issuing) (x : TrapInfo) : State :=
  raiseTrap { s with issuing := none } u.r
    ⟨x.cause, x.detail, u.mask, x.lane.getD (lowest u.mask), u.pc, u.prio, x.addr, x.lmask, x.coll, false, false⟩

/-- Lanes have left: items dropped, the group ended, barriers settled. -/
def afterExit (s : State) (r : GroupRef) (m : LaneMask) : State := settle (endGroup (dropItems s r m) r) r.team

/-- What follows an instruction's effect: the frontier moves, unless the group would then hold more entries than its
depth (R160) (DEDUCED, log 19). -/
def complete (c : Ctx) (h : Hdr) (sw : Bool) (x : Res) : State :=
  match x with
  | .trap t => takeTrap c.s c.u t
  | .trapIn s t => takeTrap s c.u t
  | .kill s cause pa => killTeam { s with issuing := none } c.r.team cause pa
  | .ok s .next outs delay =>
    { (modGroup s c.r fun g => retire c h sw (advance c (frontOf g) .next) outs delay g) with issuing := none }
  | .ok s .left _ _ => { s with issuing := none }
  | .ok s m outs delay =>
    let f := advance c (frontOf ((groupOf s c.r).getD c.g)) m
    if f.length > depthOf c.g then takeTrap c.s c.u ⟨cFRONTIER, 1, none, 0, 0, m.coll⟩
    else
      let s := { modGroup s c.r (retire c h sw f outs delay) with issuing := none }
      match m with
      | .exit m => stuckTest (afterExit s c.r m) c.r
      | .wait _ => stuckTest (settle s c.r.team) c.r
      | .split bad cause detail addr lane _ =>
        if c.inHandler then raiseTrap s c.r ⟨cause, detail, bad, lane, c.u.pc, c.u.prio, addr, 0, false, true, false⟩
        else raiseParked s c.r
      | .placed _ => stuckTest s c.r
      | _ => s

/-- Run an instruction of the issuing entry: `sw` says that it acts as though it carried SW (R183). -/
def withIssue (h : Hdr) (sw : Bool) (s : State) (k : Ctx → Res) : Host.Outcome State Fault Refusal :=
  match s.issuing with
  | none => .fault .noIssue
  | some u =>
    match teamOf s u.r.team, groupOf s u.r, gridOf s u.r.team.ld u.r.team.grid with
    | some t, some g, some gr =>
      let c : Ctx := ⟨s, t, g, gr, u, activeMask g h u.mask⟩
      .next (complete c h sw (k c))
    | _, _, _ => .fault .noIssue

/-! Returning from a trap (R393, R430). -/

/-- The vector results outstanding: those of a bank that is given up are gone with it. -/
def vecOuts (l : List Outst) : List Outst := l.filter fun o => match o.key with
  | .v _ => true
  | _ => false

/-- The frontier that a handler had set aside without the trapping entry, once the handler is over: what waited for something
that has come about meanwhile is ready (R430). -/
def keptFront (x : Trap) (g : Group) : List Entry :=
  wakeList (fun e => e.waits Wait.isMet) (g.frontier.filter fun e => e.mask != x.mask)

/-- The group after its handler: the bank is restored and the trapping entry resumes at a pointer. -/
def resumeGroup (x : Trap) (pc : Ptr) (g : Group) : Group :=
  { g with
    handler := none, outst := vecOuts g.outst, swPark := false, delay := 0, last := x.mask
    frontier := addReady (keptFront x g) ⟨pc, x.prio, x.mask, 0, .ready⟩ }

/-- Groups held by a staging trap start (R433). -/
def startHeld (s : State) (r : TeamRef) : State :=
  modTeam s r fun t => { t with groups := t.groups.map fun g => { g with held := false } }

/-- ERET and ERET.skip (R430, R433): a staging trap resumes at the kernel's first instruction either way; a skipped
collective counts its lanes as having taken part. -/
def eret (s : State) (r : GroupRef) (skip : Bool) : State :=
  match (groupOf s r).bind Group.handler with
  | none => s
  | some h =>
    let x := h.trap
    let s := modGroup s r fun g =>
      let g := resumeGroup x (if skip && !x.staging then nextPc x.pc else x.pc) g
      if skip && x.coll then { g with skipped := g.skipped ++ [(x.pc, x.prio, x.mask)] } else g
    let s := if x.staging then startHeld s r.team else s
    stuckTest (raiseParked s r) r

/-- EXIT in a handler (R430): the lanes of the trapping entry exit, the others go on. -/
def handlerExit (s : State) (r : GroupRef) : State :=
  match (groupOf s r).bind Group.handler with
  | none => s
  | some h =>
    let x := h.trap
    let s := modGroup s r fun g => { g with
      handler := none, outst := vecOuts g.outst, swPark := false, delay := 0
      frontier := keptFront x g }
    let s := if x.staging then startHeld s r.team else s
    stuckTest (raiseParked (afterExit s r x.mask) r) r

end Sys2Proof.Machine
end

