-- ==== Sys2Proof/Machine/Operands.lean ====
section
/-! DEFINITION. Operand forms: Src and SetDst (spec/07_instruction_format.md R177 to R180, R200), results outstanding
(R183, R186), buffer addresses and their checks (spec/01_address_spaces.md R25 to R28, spec/03_on_chip_memories.md R73,
spec/11_memory_instructions.md R276), buffer bytes and full/empty bits (R82). -/

namespace Sys2Proof.Machine

/-! Src. -/

/-- Src at up to 64 bits (R200): a vector register zero-extended or a pair, a uniform register, a short immediate
sign-extended (R179), a predicate as 0 or 1, a modulo register's image. -/
def srcD (g : Group) (o : Opnd) (regs : Nat) (l : Nat) : DWord :=
  match o with
  | .v n =>
    if 2 ≤ regs then getV g (n.toNat + 1) l ++ getV g n.toNat l else (getV g n.toNat l).setWidth 64
  | .g n => getG g n.toNat
  | .im w => w.signExtend 64
  | .sp sel idx =>
    if sel = 0 then (if getP g idx.toNat l then 1 else 0)
    else if sel = 1 then getM g idx.toNat
    else 0

/-- A quad of vector registers (R69). -/
def srcQ (g : Group) (o : Opnd) (l : Nat) : BitVec 128 :=
  let n := o.vIdx
  (getV g (n + 3) l ++ getV g (n + 2) l) ++ (getV g (n + 1) l ++ getV g n l)

/-- The data operand of a store (R275). -/
def srcData (g : Group) (o : Opnd) (sz : Sz) (l : Nat) : BitVec 128 :=
  if sz = .b128 then match o with
    | .v _ => srcQ g o l
    | .im w => w.signExtend 128
    | _ => (srcD g o 1 l).setWidth 128
  else (srcD g o sz.regs l).setWidth 128

/-- The low n bits of a source, as a number. -/
def srcN (g : Group) (o : Opnd) (n : Nat) (l : Nat) : Nat := (srcD g o (if n = 64 then 2 else 1) l).toNat % 2 ^ n

/-- A source read as an integer of a type (R222). -/
def srcI (g : Group) (o : Opnd) (ty : Ty) (l : Nat) : Int := toIntN ty.width ty.isSigned (srcD g o ty.regs l).toNat

/-- A predicate operand in a lane. -/
def srcP (g : Group) (o : Opnd) (l : Nat) : Bool := getP g o.tag l

/-! SetDst. -/

/-- SetDst at up to 64 bits (R200): a vector register takes the low 32 bits, a pair both halves, a uniform register all
64. -/
def setDst (g : Group) (o : Opnd) (regs : Nat) (l : Nat) (x : DWord) : Group :=
  match o with
  | .v n =>
    let g := setV g n.toNat l (x.setWidth 32)
    if 2 ≤ regs then setV g (n.toNat + 1) l (x.extractLsb' 32 32) else g
  | .g n => setG g n.toNat x
  | .im _ => g
  | .sp sel idx =>
    if sel = 0 then setP g idx.toNat l (x.getLsbD 0)
    else if sel = 1 then setM g idx.toNat x
    else g

/-- SetDst of a quad. -/
def setQ (g : Group) (o : Opnd) (l : Nat) (x : BitVec 128) : Group :=
  let n := o.vIdx
  (List.range 4).foldl (fun g i => setV g (n + i) l (x.extractLsb' (32 * i) 32)) g

/-- SetDst of the bytes a load returned (R278): extended to the register's width. -/
def setLoad (g : Group) (d : Opnd) (sz : Sz) (l : Nat) (x : BitVec 128) : Group :=
  if sz = .b128 then setQ g d l x
  else
    let n := 8 * sz.bytes
    let v := x.toNat % 2 ^ n
    let v := if sz.signed then BitVec.ofInt 64 (toIntN n true v) else BitVec.ofNat 64 v
    setDst g d sz.regs l v

/-- Put a group's new state into the machine. -/
def putGroup (s : State) (r : GroupRef) (g : Group) : State := modGroup s r fun _ => g

/-- Run a step in each active lane, or once as the lowest active lane for a destination that is neither vector register
nor predicate (R180). -/
def runLanes (c : Ctx) (d : Opnd) (f : Group → Nat → Group) : Group :=
  if d.isV || d.cls == .pred then c.lanes.foldl f c.g
  else if c.any then f c.g c.low
  else c.g

/-- The registers an operand spans. -/
def keysOf (o : Opnd) (w : Nat) : List RegKey :=
  match o with
  | .v n => (List.range w).map fun i => .v (n.toNat + i)
  | .g n => if n = 0 then [] else [.g n.toNat]
  | .im _ => []
  | .sp sel idx =>
    if sel = 0 then (if idx = 7 then [] else [.p idx.toNat])
    else if sel = 1 then [.m idx.toNat]
    else if sel = 2 then (if idx = 0 then [] else [.b idx.toNat])
    else []

/-- Results outstanding for a fixed latency (R186). -/
def outFixed (s : State) (ks : List RegKey) (lat : Nat) : List Outst := ks.map fun k => ⟨k, .cycle (s.cycle + lat), false⟩

/-- Results outstanding for an instruction with no fixed latency: due after a number of cycles the specification leaves
open (DESIGN CHOICE, log 8). -/
def outFree (s : State) (ks : List RegKey) : List Outst :=
  ks.map fun k => ⟨k, .cycle (s.cycle + 1 + Config.freeLatency s.frees), false⟩

/-- The counter of free values moves on. -/
def tick (s : State) : State := { s with frees := s.frees + 1 }

/-- End of an instruction that wrote the registers of D with a fixed latency, in the group's new state. -/
def resFixed (c : Ctx) (d : Opnd) (w lat : Nat) (g : Group) : Res :=
  done (putGroup c.s c.r g) (if c.any then outFixed c.s (keysOf d w) lat else [])

/-- End of an instruction without a fixed latency. -/
def resFree (c : Ctx) (ks : List RegKey) (g : Group) : Res :=
  done (tick (putGroup c.s c.r g)) (if c.any then outFree c.s ks else [])

/-! Buffers (R25 to R28). -/

/-- Width of a buffer address (R25). -/
def bufWidth : Buf → Nat
  | .w => 20
  | .a => 23
  | .c => 18

/-- Full/empty bits of a buffer; C has none (R82). -/
def feOf (t : Team) : Buf → Store 1
  | .w => t.wfe
  | .a => t.afe
  | .c => []

/-- Replace them. -/
def setFeOf (t : Team) (b : Buf) (x : Store 1) : Team := match b with
  | .w => { t with wfe := x }
  | .a => { t with afe := x }
  | .c => t

/-- The granules of a run of bytes. -/
def granules (off k : Nat) : List Nat := if k = 0 then [] else (List.range ((off + k - 1) / 16 - off / 16 + 1)).map (off / 16 + ·)

/-- Set or clear the bits of a run of bytes. -/
def markFe (t : Team) (b : Buf) (off k : Nat) (full : Bool) : Team :=
  setFeOf t b (stSetAll (feOf t b) ((granules off k).map fun i => (i, if full then 1 else 0)))

/-- Are all granules of a run full. -/
def allFull (t : Team) (b : Buf) (off k : Nat) : Bool := (granules off k).all fun i => stGet (feOf t b) i == 1

/-- The words of a core's store that bytes of an allocation lie in. -/
def bufWords (t : Team) (b : Buf) (off k : Nat) : List Nat :=
  if k = 0 then [] else (List.range ((bufBase t b + off + k - 1) / 8 - (bufBase t b + off) / 8 + 1)).map
    ((bufBase t b + off) / 8 + ·)

/-- Put a corrected word back into a buffer. -/
def putBufWord (r : TeamRef) (b : Buf) (w : Nat) (s : State) (x : Nat) : State :=
  modTeam s r fun t => if bufBase t b ≤ 8 * w then setBuf t b (stSetBytes (bufOf t b) (8 * w - bufBase t b) 8 x) else t

/-- Pass the words of a run of bytes through their decoder as a lane's read does (R91): none for an uncorrectable one. -/
def bufTouch (s : State) (r : TeamRef) (b : Buf) (off k : Nat) : Option State :=
  if s.sram.isEmpty then some s
  else match teamOf s r with
    | none => some s
    | some t => (bufWords t b off k).foldl (fun (o : Option State) w => o.bind fun s =>
        sramRead s (bufStore b, t.core, w) t.core (putBufWord r b w)) (some s)

/-- Bytes of a team's buffer, as a number. -/
def bufGet (s : State) (r : TeamRef) (b : Buf) (off k : Nat) : Nat := match teamOf s r with
  | none => 0
  | some t => stBytes (bufOf t b) off k

/-- Write bytes to a team's buffer, whose full/empty bits stay; no earlier write to them can be missed without this one. -/
def bufWrite (s : State) (r : TeamRef) (b : Buf) (off k : Nat) (x : Nat) : State :=
  let s := if s.sram.isEmpty then s else match teamOf s r with
    | none => s
    | some t => (bufWords t b off k).foldl (fun s w => sramWrite s (bufStore b, t.core, w) (putBufWord r b w)) s
  let s := if s.hist.isEmpty && s.rels.isEmpty then s else endTags s (bufLoc r b off) k
  modTeam s r fun t => setBuf t b (stSetBytes (bufOf t b) off k x)

/-- Write bytes to a team's buffer and set the full bits of their granules, where it has them (R82). -/
def bufPut (s : State) (r : TeamRef) (b : Buf) (off k : Nat) (x : Nat) : State :=
  modTeam (bufWrite s r b off k x) r fun t => markFe t b off k true

/-- The check of a buffer access against the member's allocation (R28, R26, R27): GANGADDR, BUFRANGE 1, BUFRANGE 2. -/
def bufCheck (s : State) (t : Team) (b : Buf) (m off size align : Nat) : Option (Nat × Nat) :=
  if gangSize s t.r ≤ m then some (cGANGADDR, 0)
  else match teamOf s (memberRef t m) with
    | none => some (cGANGADDR, 0)
    | some u =>
      if bufLen u b < off + size then some (cBUFRANGE, 1)
      else if off % align ≠ 0 then some (cBUFRANGE, 2)
      else none

/-- Where a lane's buffer access goes: member, offset, and the address register's new value. -/
structure BufAt where
  m : Nat
  off : Nat
  upd : DWord
  deriving DecidableEq, Repr

/-- A failed check: cause, detail, the buffer address. -/
structure BufErr where
  cause : Nat
  detail : Nat
  addr : DWord
  deriving DecidableEq, Repr

/-- Is a modulo register valid (R72). -/
def modValid (m : DWord) : Bool :=
  let x := m.toNat
  let len := fld x 24 20
  let base := fld x 0 20
  bit1 x 63 && fld x 44 19 == 0 && fld x 20 4 == 0 && len != 0 && len % 16 == 0 && base % 16 == 0 && base + len ≤ 2 ^ 20

/-- ModAccess (R73): the updated register, or the detail of MODREG. -/
def modAccess (m : DWord) (x : Nat) (inc : Int) (size : Nat) : Except Nat Nat :=
  if !modValid m then .error 1
  else
    let base := fld m.toNat 0 20
    let len := fld m.toNat 24 20
    let off := (x + 2 ^ 64 - base) % 2 ^ 64
    if len ≤ off then .error 2
    else if len < off + size then .error 3
    else .ok (base + (((off : Int) + inc) % (len : Int)).toNat)

/-- The address of a checked run of bytes of a buffer: range of a, member, allocation, alignment (R276). -/
def bufPlace (s : State) (t : Team) (b : Buf) (mem : Bool) (a : Int) (size align : Nat) (upd : DWord) : Except BufErr BufAt :=
  if a < 0 ∨ (2 ^ bufWidth b : Nat) ≤ a then .error ⟨cBUFRANGE, 1, BitVec.ofInt 64 a⟩
  else
    let n := a.toNat
    let m := if b = .a ∧ mem then n / 2 ^ 20 else t.member
    let off := if b = .a then n % 2 ^ 20 else n
    match bufCheck s t b m off size align with
    | some e => .error ⟨e.1, e.2, BitVec.ofNat 64 (if b = .a then m * 2 ^ 20 + off else off)⟩
    | none => .ok ⟨m, off, upd⟩

/-- BufAddr (R276) in a lane. -/
def bufAddr (s : State) (t : Team) (g : Group) (b : Buf) (mem : Bool) (ao : Opnd) (addr : Addr) (size : Nat) (l : Nat) :
    Except BufErr BufAt :=
  let x := (srcD g ao 1 l).toNat
  match addr with
  | .off o =>
    let x : Int := match ao with
      | .im w => w.toInt
      | _ => x
    bufPlace s t b mem (x + o.toInt) size size 0
  | .post inc => bufPlace s t b mem x size size (BitVec.ofNat 64 x + inc.signExtend 64)
  | .modulo m inc => match modAccess (srcD g m 1 l) x inc.toInt size with
    | .error d => .error ⟨cMODREG, d, BitVec.ofNat 64 x⟩
    | .ok y => bufPlace s t b mem x size size (BitVec.ofNat 64 y)

/-- Does the addressing mode update its register. -/
def addrUpdates : Addr → Bool
  | .off _ => false
  | _ => true

/-- Update the address register (R276): in each active lane, or once (DEDUCED, log 46). -/
def bumpAddr (ao : Opnd) (addr : Addr) (ats : List (Nat × DWord)) (g : Group) : Group :=
  if !(addrUpdates addr) then g
  else match ao with
    | .v n => ats.foldl (fun g p => setV g n.toNat p.1 (p.2.setWidth 32)) g
    | .g n => match ats with
      | [] => g
      | p :: _ => setG g n.toNat p.2
    | _ => g

/-- The registers an addressing mode writes. -/
def addrKeys (ao : Opnd) (addr : Addr) : List RegKey := if addrUpdates addr then keysOf ao 1 else []

/-- The lanes in which an access is made: each active lane, or the lowest one where nothing is per lane (R278, R279). -/
def accLanes (c : Ctx) (perLane : Bool) : List Nat := if perLane then c.lanes else if c.any then [c.low] else []

/-- Addresses of all lanes, or the first failure with its lane (R276, R277). -/
def placeAll {α : Type} : List Nat → (Nat → Except BufErr α) → Except (Nat × BufErr) (List (Nat × α))
  | [], _ => .ok []
  | l :: r, f => match f l with
    | .error e => .error (l, e)
    | .ok a => match placeAll r f with
      | .error e => .error e
      | .ok as => .ok ((l, a) :: as)

/-- The trap of a failed buffer check (R277). -/
def bufTrap (e : Nat × BufErr) : Res := trapL e.2.cause e.2.detail e.1 e.2.addr

/-- Pass lists of buffer runs through the decoder, then go on; an uncorrectable word kills the gang (R91, R434). -/
def withTouch (c : Ctx) (runs : List (TeamRef × Buf × Nat × Nat)) (k : State → Res) : Res :=
  match runs.foldl (fun (o : Option State) x => o.bind fun s => bufTouch s x.1 x.2.1 x.2.2.1 x.2.2.2) (some c.s) with
  | none => .kill c.s cUECONS 0
  | some s => k s

end Sys2Proof.Machine
end

