-- ==== Sys2Proof/Machine/Issue.lean ====
section
/-! DEFINITION. Issue (spec/06_execution_model.md R152 to R157, spec/07_instruction_format.md R174 to R192): the choice of
group and entry, parks and delays, the fetch of an instruction's bytes (R175, R15), the checks of a word before it
acts, the closing of octets (R302), and the small resident team in which a given word is fetched. -/

namespace Sys2Proof.Machine

/-! The choice of a group and of an entry. -/

/-- The safe point at a pointer, if any (R197, R418): the raw side-table entry. -/
def safeAt (gr : Grid) (pc : Ptr) : Option Nat := gr.safe.find? fun e => mkPtr (ptrRid gr.code) (ptrVa gr.code + fld gr.kern 128 32 + fld e 0 32) == pc

/-- May an entry issue: ready, and not stopped at a safe point for a pre-emption (R162, R418). -/
def issuable (gr : Grid) (g : Group) (e : Entry) : Bool :=
  e.st == .ready && !(g.toSafe && g.handler.isNone && (safeAt gr e.pc).isSome)

/-- Is a group ready (R152), at a cycle. -/
def groupReady (gr : Grid) (g : Group) (now : Nat) : Bool :=
  !g.swPark && !g.held && !g.saved && g.pendTrap.isNone && g.delay ≤ now && (frontOf g).any (issuable gr g)

/-- The entry a group issues (R154). -/
def chooseEntry (gr : Grid) (g : Group) : Option Entry :=
  let f := (frontOf g).filter (issuable gr g)
  match topEntry (f.filter fun e => 1024 ≤ e.age) with
  | some e => some e
  | none => topEntry f

/-- Ages after a choice (R154). -/
def ageAll (f : List Entry) (c : Entry) : List Entry :=
  f.map fun e =>
    if e.st = .ready then (if e.pc = c.pc ∧ e.prio = c.prio then { e with age := 0 } else { e with age := min 1024 (e.age + 1) })
    else e

/-- The results still outstanding at a cycle (R186). -/
def stillOut (l : List Outst) (now : Nat) : List Outst := l.filter fun o => match o.due with
  | .cycle n => now < n
  | .far _ => true

/-- The ready groups of an issue quarter (R152). -/
def quarterGroups (s : State) (core q now : Nat) : List (Grid × Team × Group) :=
  (s.teams.filter fun t => t.core == core && t.stage == .running && gangHere s t).flatMap fun t =>
    match gridOf s t.r.ld t.r.grid with
    | none => []
    | some gr => (t.groups.filter fun g => g.id % 4 == q && groupReady gr g now).map fun g => (gr, t, g)

/-- The group that issued least recently. -/
def leastRecent : List (Grid × Team × Group) → Option (Grid × Team × Group)
  | [] => none
  | x :: r => match leastRecent r with
    | none => some x
    | some y => if y.2.2.stamp < x.2.2.stamp then some y else some x

/-- The end of a switch-marker park (R183): every outstanding result has been written. -/
def unpark (s : State) (r : GroupRef) : State :=
  match wakeable s r with
  | none => s
  | some g =>
    if g.swPark && !awaitsFar g then
      modGroup { s with cycle := lastDue g s.cycle } r fun g => { g with swPark := false, outst := [] }
    else s

/-- The end of an issue delay (R185). -/
def delayEnd (s : State) (r : GroupRef) : State :=
  match wakeable s r with
  | none => s
  | some g => { s with cycle := max s.cycle (g.delay - 1) }

/-! Fetch (R175, R15). -/

/-- The parts of an instruction's bytes by page, lower page first (R175). -/
def fetchParts (pc : Ptr) : List (Ptr × Nat) :=
  let n := 2 ^ 16 - ptrVa pc % 2 ^ 16
  if n < 12 then [(pc, n), (ptrAdd pc n, 12 - n)] else [(pc, 12)]

/-- How a fetch ends. -/
inductive Fetched where
  | bytes (bs : List Byte) (s : State)
  | fault (cause detail : Nat)
  | kill (s : State) (cause pa : Nat)
  deriving Repr

/-- The walks of a fetch, one for each page that passes its bounds check (R20, R61). -/
def fetchWalks (s : State) (t : Team) (g : Group) (pc : Ptr) : State :=
  (fetchParts pc).foldl (fun s p =>
    if (boundsErr (stGet t.bounds (ptrRid p.1)) (ptrRid p.1) (ptrVa p.1) p.2 .fetch).isSome then s
    else walkRead s t.r.ld (pinRoot g.pin) (ptrVa p.1)) s

/-- A byte of a kernel's code: where the loader has made native code of a Dweique section, its byte stands in place of the
section's (R6, R414). -/
def loadedByte (gr : Grid) (pc : Ptr) (i : Nat) (b : Byte) : Byte :=
  let off := (ptrVa pc + i + 2 ^ 56 - ptrVa gr.code) % 2 ^ 56
  match (if ptrRid pc = ptrRid gr.code then gr.words[off / 12]? else none) with
  | none => b
  | some w => w.extractLsb' (8 * (off % 12)) 8

/-- Fetched bytes as the group's kernel has them (R6, R414) (DEDUCED, log 14). -/
def asLoaded (s : State) (r : TeamRef) (pc : Ptr) (bs : List Byte) : List Byte := match gridOf s r.ld r.grid with
  | some gr => if gr.words.isEmpty then bs else bs.zipIdx.map fun p => loadedByte gr pc p.2 p.1
  | none => bs

/-- The key of the i-th word of an instruction fetched ahead. -/
def aheadKey (pc : Ptr) (i : Nat) : Nat := (ptrAdd pc (4 * i : Nat)).toNat

/-- The bytes of an instruction as a group has them: a word fetched ahead stands as it was then (R176). -/
def withAhead (g : Group) (pc : Ptr) (bs : List Byte) : List Byte :=
  if g.ahead.isEmpty then bs
  else (List.range 3).flatMap fun i =>
    let w := stGet g.ahead (aheadKey pc i)
    if w.getLsbD 32 then bytesOf (w.toNat % 2 ^ 32) 4 else (bs.drop (4 * i)).take 4

/-- Has a group fetched all of an instruction ahead. -/
def allAhead (g : Group) (pc : Ptr) : Bool :=
  !g.ahead.isEmpty && (List.range 3).all fun i => (stGet g.ahead (aheadKey pc i)).getLsbD 32

/-- Fetch the bytes at a pointer through the group's pinned root and the team's captured bounds (R15, R18, R428, R434,
R438). -/
def fetchBytes (s : State) (t : Team) (g : Group) (pc : Ptr) : Fetched :=
  let user := levelFor s t.r g == .user
  let parts := fetchParts pc
  let checks := parts.map fun p => farCheck s t.r.ld (pinRoot g.pin) t.bounds user p.1 p.2 .fetch
  match checks.find? fun r => match r with
      | .error _ => true
      | .ok x => linkDown s x.1 with
  | some (.error e) => .fault e.1 e.2
  | some (.ok _) => if allAhead g pc then .bytes (withAhead g pc []) s else .fault cFARTIMEOUT 0
  | none =>
    if allAhead g pc then .bytes (withAhead g pc []) s
    else
      let pas := checks.map fun r => match r with
        | .ok x => x.1
        | .error _ => 0
      let r := (pas.zip parts).foldl (fun (acc : List Byte × RdSt × Nat × State) x =>
        let r := readMem acc.2.2.2 x.1 x.2.2
        (acc.1 ++ r.1, if acc.2.1 = .ok then r.2.1 else acc.2.1, if acc.2.1 = .ok then x.1 else acc.2.2.1, r.2.2))
        ([], .ok, 0, s)
      match r.2.1 with
      | .ok => .bytes (withAhead g pc (asLoaded s t.r pc r.1)) r.2.2.2
      | .poison => .kill r.2.2.2 cPOISON r.2.2.1
      | .uncorr => .kill r.2.2.2 cUECONS r.2.2.1

/-- A group fetches a word ahead of issue (R176): which group does, and from where, is free; one that cannot be fetched is
left alone (DESIGN CHOICE, log 11). -/
def fetchAhead (s : State) : State :=
  let gs := s.teams.flatMap fun t => t.groups.map fun g => (t, g)
  let pick := Config.freeNat s.frees
  match gs[pick % gs.length]? with
  | none => s
  | some (t, g) =>
    let p : Ptr := (Config.freeWord s.frees) &&& ~~~3
    match farCheck s t.r.ld (pinRoot g.pin) t.bounds (levelFor s t.r g == .user) p 4 .fetch with
    | .error _ => tick s
    | .ok x =>
      let r := readMem (walkRead s t.r.ld (pinRoot g.pin) (ptrVa p)) x.1 4
      if linkDown s x.1 || r.2.1 != .ok then tick s
      else
        let w := BitVec.ofNat 33 (2 ^ 32 + ofBytes (asLoaded s t.r p r.1))
        tick (modGroup r.2.2 ⟨t.r, g.id⟩ fun g => { g with ahead := stSet g.ahead p.toNat w })

/-- The level of a team's operations (DEDUCED, log 44). -/
def engUser (s : State) (t : TeamRef) : Bool := !((gridOf s t.ld t.grid).map Grid.sup).getD false

/-- A running program's engine, which may act once what happens before its fork has come about (R138), fetches a command word ahead
(R342): which window's, and from where, is free (DESIGN
CHOICE, log 11). -/
def fetchCommand (s : State) : State :=
  let ws := s.teams.flatMap fun t => (t.wins.zipIdx.filter fun w => w.1.st == .running && forkReady s w.1.after).map fun w => (t, w)
  let pick := Config.freeNat s.frees
  match ws[pick % ws.length]? with
  | none => s
  | some (t, w, i) =>
    let p : Ptr := (Config.freeWord s.frees) &&& ~~~15
    match farCheck s t.r.ld (pinRoot w.pin) w.bounds (engUser s t.r) p 16 .read with
    | .error _ => tick s
    | .ok x =>
      let r := readMem (walkRead s t.r.ld (pinRoot w.pin) (ptrVa p)) x.1 16
      if linkDown s x.1 || areaOf x.1 == .regs || r.2.1 != .ok then tick s
      else tick (modTeam r.2.2 t.r fun t => { t with wins := lset t.wins i { w with
        ahead := stSet w.ahead p.toNat (BitVec.ofNat 129 (2 ^ 128 + ofBytes r.1)) } })

/-- A host stores to its own memory, which lies behind a host window (R21): what and where is free (DESIGN CHOICE, log 9). -/
def hostStore (s : State) : State :=
  let n := 2 ^ (Config.freeNat s.frees % 4)
  let pa := 2 ^ 48 + Config.freeNat (s.frees + 1) % 2 ^ 48 / n * n
  tick (writeMem (endTags s pa n) pa (bytesOf (Config.freeWord s.frees).toNat n))

/-- What else may come about in a cycle in which a quarter issues nothing: a group or a stream engine
fetches ahead, a host stores, or a performed write reaches every reader (R121). -/
def idleCycle (s : State) : State :=
  match Config.freeNat (s.frees + 2) % 4 with
  | 0 => fetchAhead s
  | 1 => fetchCommand s
  | 2 => tick (forgetWrite s)
  | _ => hostStore s

/-- One cycle of an issue quarter (R152, R154, R184); where it issues nothing, `idleCycle` comes about. -/
def issueCycle (s : State) (core q : Nat) : State :=
  let now := s.cycle + 1
  let s := { s with cycle := now }
  if !s.power.on || s.power.halted then s
  else match leastRecent (quarterGroups s core q now) with
    | none => idleCycle s
    | some (gr, t, g) =>
      match chooseEntry gr g with
      | none => s
      | some e =>
        let r : GroupRef := ⟨t.r, g.id⟩
        let out := stillOut g.outst now
        if e.mask &&& g.last == 0 && !out.isEmpty then
          modGroup s r fun g => { g with outst := out, swPark := true }
        else
          let s := modGroup s r fun g => { setFront g (ageAll (frontOf g) e) with outst := out, stamp := now }
          { s with issuing := some ⟨r, e.pc, e.prio, e.mask⟩ }

/-! Run hazards (R188, R307). -/

/-- The engine instructions (R300). -/
def isEngine : Instr → Bool
  | .mma _ | .mmam _ | .scacc _ | .cbld _ | .mdrain _ | .mdrainRaw _ | .mfill _ | .mfillRaw _ => true
  | _ => false

/-- Does a field name its octet in a role in which engine instructions chain (R307). -/
def chains : Instr → Nat → Bool
  | .mma _, f | .mmam _, f => f == 0
  | .scacc _, f => f == 0 || f == 1
  | .mdrain _, f | .mdrainRaw _, f => f == 3
  | .mfill _, f | .mfillRaw _, f => f == 0
  | _, _ => false

/-- The header of an instruction form. -/
def hdrOf : Instr → Hdr
  | .iadd x | .isub x | .imul x | .imulh x | .imin x | .imax x | .and x | .or x | .xor x | .andn x | .shl x | .shr x
  | .sar x | .rol x | .bfx x | .icmp x | .lea x => x.h
  | .imad x | .bfi x | .iaddx x => x.h
  | .iabs x | .ineg x | .not x | .popc x | .clz x | .brev x => x.h
  | .bsel x => x.h
  | .fadd x | .fsub x | .fmul x | .fmin x | .fmax x | .fscale x | .padd2 x | .pmul2 x | .lsemrg x => x.h
  | .ffma x | .pfma2 x => x.h
  | .frcp x | .frsq x | .fsqrt x | .fex2 x | .flg2 x | .fsin x | .fcos x => x.h
  | .fcmp x => x.h
  | .fclass x => x.h
  | .cvt x => x.h
  | .mov x => x.h
  | .movi x => x.h
  | .sel x => x.h
  | .pset x => x.h
  | .pmovTov x => x.h
  | .pmovFromv x => x.h
  | .sread x => x.h
  | .modset x => x.h
  | .bndset x => x.h
  | .bra x => x.h
  | .brx x => x.h
  | .call x => x.h
  | .callx x => x.h
  | .ret x => x.h
  | .sleep x => x.h
  | .part x => x.h
  | .vote x => x.h
  | .shfl x => x.h
  | .reduce x => x.h
  | .scan x => x.h
  | .bcast x => x.h
  | .bara x | .barw x | .bars x => x.h
  | .tbar x => x.h
  | .ldw x | .lda x | .ldc x => x.h
  | .sta x | .stc x | .acc x => x.h
  | .ldfrag x => x.h
  | .stfrag x => x.h
  | .feset x | .feclr x => x.h
  | .feprobe x => x.h
  | .lds x => x.h
  | .sts x => x.h
  | .fld x => x.h
  | .fst x => x.h
  | .fatom x => x.h
  | .fcas x => x.h
  | .fence x => x.h
  | .mma x => x.h
  | .mmam x => x.h
  | .scacc x => x.h
  | .cbld x => x.h
  | .mdrain x => x.h
  | .mdrainRaw x => x.h
  | .mfill x => x.h
  | .mfillRaw x => x.h
  | .creq x | .kick x => x.h
  | .cseal x => x.h
  | .cwait x => x.h
  | .sbind x => x.h
  | .sgo x => x.h
  | .srel x | .awaitSlot x => x.h
  | .awaitObj x => x.h
  | .astatObj x => x.h
  | .astatSlot x => x.h
  | .nbreq x | .attq x | .lesc x => x.h
  | .kvget x => x.h
  | .kvput x => x.h
  | .kvlnkSucc x | .kvlnkTok x => x.h
  | .lspawn x => x.h
  | .lspawnClose x => x.h
  | .ldone x => x.h
  | .lstat x => x.h
  | .syscall x => x.h
  | .trap x | .bkpt x => x.h
  | .featq x => x.h
  | .tnode x => x.h
  | .tset x => x.h
  | .rswap x => x.h
  | .rcopy x => x.h
  | .rdrop x | .rdropNode x | .tinv x | .ldreset x => x.h
  | .diagstHbm x | .diagstSram x | .diagldHbm x | .diagldSram x => x.h
  | .swrite x => x.h
  | .privrd x => x.h
  | .exit h | .rcv h | .yield h | .gbar h | .refresh h | .nop h | .eret h | .eretSkip h => h
  | _ => ⟨false, 7, false, 0, false, 0⟩

/-- Is an operand field left zero where its table allows that. -/
def Arg.absent (a : Arg) : Bool := a.acc.contains .zero && a.o == .v 0

/-- RUNHAZ, with its detail (R188, R192): the least field whose registers have a result outstanding; 7 for the guard
alone. -/
def runHaz (out : List Outst) (i : Instr) : Option Nat :=
  let hit (ks : List RegKey) (skip : Bool) : Bool := out.any fun o => ks.contains o.key && !(skip && o.eng)
  let fs := ((args i).filter fun a => (a.rd || a.wr) && !Arg.absent a && hit (keysOf a.o a.w) (isEngine i && chains i a.f)).map
    Sys2Proof.Arg.f
  match leastField fs with
  | some f => some f
  | none =>
    let h := hdrOf i
    if h.gp ≠ 7 && hit [.p h.gp.toNat] false then some 7 else none

/-! What a word does before it acts. -/

/-- The octets an instruction closes (R302): those it touches, but in an accumulator role of an engine instruction or as
the octet MDRAIN drains itself or MFILL overwrites. -/
def closes (g : Group) (i : Instr) : List Nat :=
  (g.octets.map Octet.x).filter fun x => (args i).any fun a =>
    a.o.isV && (a.rd || a.wr) && !Arg.absent a && !(isEngine i && chains i a.f) && spansMeet a.o.vIdx a.w x 8

/-- The octets that an instruction touches are closed (R302). -/
def closeAll (i : Instr) (g : Group) : Group := (closes g i).foldl closeOct g

/-- Does an instruction read a uniform register. -/
def readsG (i : Instr) (n : Nat) : Bool := (args i).any fun a => a.rd && (match a.o with
  | .g m => m.toNat == n
  | _ => false)

/-- The listed words that an instruction reads (R91): of the vector registers that it names, in the lanes that read, and of the
group's control state (DESIGN CHOICE, log 75). -/
def wordsRead (s : State) (t : Team) (g : Group) (i : Instr) (act : LaneMask) : List SramKey :=
  let regs := ((args i).filter fun a => a.o.isV && a.rd && !Arg.absent a).flatMap fun a => (List.range a.w).map (a.o.vIdx + ·)
  let ls := if isEngine i then List.range 32 else match i with
    | .creq _ => List.range 16
    | _ => lanesOf act
  regWords t g (regs.flatMap fun n => ls.map fun l => (n, l)) ++ (s.sram.filter fun w => w.1 == 5 && w.2.1 == t.core &&
    (match controlHolder s t.core w.2.2.1 with
      | some h => h.1 == ⟨t.r, g.id⟩ && (h.2.2 == 0 || readsG i h.2.2)
      | none => false)).map fun w => (w.1, w.2.1, w.2.2.1)

/-- Pass the words an instruction reads through their decoder (R91); none for an uncorrectable one. -/
def touchRegs (s : State) (t : Team) (g : Group) (i : Instr) (act : LaneMask) : Option State :=
  if s.sram.isEmpty then some s else readWords s t.core (wordsRead s t g i act)

/-- The registers that an instruction has written once it has issued, each in a lane: those of its destinations, and those of the
octets it has closed. -/
def regsWritten (g : Group) (i : Instr) (act : LaneMask) : List (Nat × Nat) :=
  let regs := ((args i).filter fun a => a.o.isV && a.wr && !Arg.absent a).flatMap fun a => (List.range a.w).map (a.o.vIdx + ·)
  let ls := if isEngine i then List.range 32 else lanesOf act
  (regs.flatMap fun n => ls.map fun l => (n, l)) ++
    (closes g i).flatMap fun x => (List.range 8).flatMap fun n => (List.range 32).map fun l => (x + n, l)

/-- How the issue of an entry goes on. -/
inductive Issued where
  /-- A trap or a kill has been taken. -/
  | stop (s : State)
  /-- The instruction acts. -/
  | run (i : Instr) (s : State)
  deriving Repr

/-- The trap of a rejected word (R192). -/
def rejectTrap : Reject → Nat × Nat
  | .illop d => (cILLOP, d)
  | .priv => (cPRIV, 1)
  | .rsvfld f => (cRSVFLD, f)
  | .opclass f => (cOPCLASS, f)
  | .regalign f => (cREGALIGN, f)

/-- Is a form a collective (R265). -/
def isCollective (i : Instr) : Bool := collPart i != 8

/-- Is a word's opcode that of a collective, VOTE to BCAST. -/
def collWord (w : InsWord) : Bool := 0x61 ≤ (w.extractLsb' 0 8).toNat && (w.extractLsb' 0 8).toNat ≤ 0x65

/-- The instructions that reach buffers or observe an engine's objects. -/
def reachesBuffers : Instr → Bool
  | .ldw _ | .lda _ | .ldc _ | .sta _ | .stc _ | .acc _ | .ldfrag _ | .stfrag _ | .feset _ | .feclr _ | .feprobe _
  | .cbld _ | .mdrain _ | .mdrainRaw _ | .mfill _ | .mfillRaw _ | .creq _ | .cwait _ | .awaitObj _ | .awaitSlot _
  | .astatObj _ | .astatSlot _ | .srel _ | .lspawn _ | .lesc _ | .ldone _ | .lstat _ => true
  | _ => false

/-- The KV commands, which act when they issue. -/
def isKv : Instr → Bool
  | .kvget _ | .kvput _ | .kvlnkSucc _ | .kvlnkTok _ => true
  | _ => false

/-- The checks between decoding and effect, REGBUDGET and RUNHAZ (R70, R188). -/
def issueWord (s : State) (u : Issuing) (t : Team) (g : Group) (i : Instr) : Issued :=
  match budgetErr g.budget i with
  | some f => .stop (takeTrap s u ⟨cREGBUDGET, f, none, 0, 0, isCollective i⟩)
  | none => match runHaz (stillOut g.outst s.cycle) i with
    | some f => .stop (takeTrap s u ⟨cRUNHAZ, f, none, 0, 0, isCollective i⟩)
    | none => match touchRegs s t g i (activeMask g (hdrOf i) u.mask) with
      | none => .stop (killTeam { s with issuing := none } u.r.team cUECONS 0)
      | some s => .run i s

/-- Fetch and decode the issuing entry's instruction (R175, R192, R391). -/
def issueFetch (s : State) (u : Issuing) : Issued :=
  match teamOf s u.r.team, groupOf s u.r with
  | some t, some g =>
    if g.emptySlot then
      .stop (takeTrap (modGroup s u.r fun g => { g with emptySlot := false }) u ⟨cNOTMAPPED, 10, none, 0, 0, false⟩)
    else if u.pc.extractLsb' 0 2 ≠ 0 then .stop (takeTrap s u ⟨cILLOP, 3, none, 0, 0, false⟩)
    else match fetchBytes (fetchWalks s t g u.pc) t g u.pc with
      | .fault c d => .stop (takeTrap (fetchWalks s t g u.pc) u ⟨c, d, none, u.pc, 0, false⟩)
      | .kill s c pa => .stop (killTeam { s with issuing := none } u.r.team c pa)
      | .bytes bs s => match wordMisuse (wordOfBytes bs) with
        | some d => .stop (takeTrap s u ⟨cILLOP, d, none, 0, 0, false⟩)
        | none => match decodeAt (levelFor s t.r g) (wordOfBytes bs) with
        | .error e => .stop (takeTrap s u ⟨(rejectTrap e).1, (rejectTrap e).2, none, 0, 0, collWord (wordOfBytes bs)⟩)
        | .ok i => issueWord s u t g i
  | _, _ => .stop { s with issuing := none }

/-! A resident team for a given word. -/

/-- SRSTATE of a lane at group start (R212). -/
def srSeed (r : TeamRef) (id l : Nat) : Word :=
  let s := (BitVec.ofNat 32 r.grid * 0xC2B2AE3D) ^^^ (BitVec.ofNat 32 r.team * 0x9E3779B1) ^^^ (BitVec.ofNat 32 (32 * id + l + 1) * 0x85EBCA77)
  if s = 0 then 0x2545F491 else s

/-- A group at its start (R92, R153, R172, R212): budget, vector base, frontier depth, entry pointer, stack limit and units,
pin. -/
def newGroup (r : TeamRef) (id : Nat) (rung : Option (Nat × Nat × Nat)) (budget vbase depth : Nat) (entry : Ptr) (mask : LaneMask)
    (slimit units : Nat) (pin : Option Pin) : Group where
  id := id
  rung := rung
  budget := budget
  vbase := vbase
  depth := depth
  v := []
  bank := ⟨[], [], []⟩
  frontier := [⟨entry, 128, mask, 0, .ready⟩]
  parts := List.replicate 8 ⟨0, 0⟩
  skipped := []
  sp := []
  frames := List.replicate 32 []
  slimit := slimit
  stkUnits := units
  stk := []
  stkLo := []
  sr := (List.range 32).map fun l => (l, srSeed r id l)
  octets := []
  outst := []
  swPark := false
  delay := 0
  last := mask
  stamp := 0
  pin := pin
  handler := none
  pendTrap := none
  batchNo := 0
  batches := []
  unsealed := []
  reported := []
  items := []
  toSafe := false
  saved := false
  full := false
  live := 0
  held := false
  emptySlot := false
  ords := []
  polled := none
  ahead := []

/-- An unbound window (R337). -/
def freeWindow : Window :=
  ⟨.unbound, ⟨false, 0, false, 0, 0, 0, 0, false, 0, 0, 0⟩, 0, [], [], 0, [], 0, none, 0, 0, 0, none, [], none, [], 0, 0, [], [], 0, 0, [], []⟩

/-- A team at its start (R172): core, allocation bases and lengths, bounds, pin, groups. -/
def newTeam (r : TeamRef) (member core : Nat) (al : Nat × Nat × Nat × Nat × Nat × Nat × Nat) (bounds : Store 128) (tenant : Nat)
    (pin : Option Pin) (nlad : Nat) (groups : List Group) : Team where
  r := r
  member := member
  core := core
  stage := .placed
  wbase := al.1
  wlen := al.2.1
  abase := al.2.2.1
  alen := al.2.2.2.1
  cbase := al.2.2.2.2.1
  clen := al.2.2.2.2.2.1
  barBase := al.2.2.2.2.2.2
  w := []
  a := []
  c := []
  wfe := []
  afe := []
  bounds := bounds
  tenant := tenant
  bnd := []
  bflags := 0
  bars := []
  cb := none
  wins := List.replicate 8 freeWindow
  pin := pin
  sys := .none
  lads := List.replicate nlad freeLad
  groups := groups
  wbFault := none
  vregs := []
  exits := []
  rungPast := []

/-- The grid of the bench: gang of one, supervisor of LD 0, whole buffers, 32 barriers, no ladder. -/
def benchGrid : Grid where
  ld := 0
  id := 0
  queue := 8
  cmdPtr := 0
  raw := 32 * 2 ^ 576 + 63 * 2 ^ 599
  gx := 1
  gy := 1
  gz := 1
  prio := 0
  sup := true
  kern := 0
  code := mkPtr 1 0
  words := []
  safe := []
  regions := []
  argv := []
  ladders := []
  inDispatch := true
  readySeq := 0
  next := 1
  finished := 0
  fail := none
  bflags := 0
  relaunch := 0
  past := []
  ends := []

/-- The machine with the twelve bytes of a word at the bench team's first instruction, which issues next: a tree of four
nodes maps one page, and the bounds entry of RID 1 admits every access. -/
def bench (s : State) (bs : List Byte) : State :=
  let ft := pkgReg s 0x402
  let s := sectorWrite s (ft + 8 * 16) (bytesOf (2 ^ 58 + 4) 8)
  let s := sectorWrite s (ft + 8 * 17) (bytesOf 1 8)
  let s := sectorWrite s 0x100000 (bytesOf (0x102000 + 1) 8)
  let s := sectorWrite s 0x102000 (bytesOf (0x104000 + 1) 8)
  let s := sectorWrite s 0x104000 (bytesOf (0x106000 + 1) 8)
  let s := sectorWrite s 0x106000 (bytesOf (0x110000 + 0xF) 8)
  let s := sectorWrite s 0x110000 bs
  let e : BitVec 128 := BitVec.ofNat 128 ((2 ^ 56 - 1) * 2 ^ 64 + 31 * 2 ^ 59)
  let pin : Option Pin := some ⟨63, 1, 0x100000⟩
  let r : TeamRef := ⟨0, 0, 0⟩
  let g := newGroup r 0 none 256 0 32 (mkPtr 1 0) (BitVec.allOnes 32) 65536 16 pin
  let t := newTeam r 0 0 (0, 786432, 0, 786432, 0, 262144, 0) [(1, e)] 0 pin 0 [g]
  { s with
    grids := benchGrid :: s.grids
    gangs := ⟨⟨0, 0, 0⟩, 1, .resident, 0, [], none, false, 0, none, false, []⟩ :: s.gangs
    teams := { t with stage := .running } :: s.teams
    issuing := some ⟨⟨r, 0⟩, mkPtr 1 0, 128, BitVec.allOnes 32⟩ }

/-- The bench with the word of a table row (R175): its bits above nbits are zero. -/
def benchWord (s : State) (nbits w : Nat) : State := bench s (wordBytes (BitVec.ofNat 96 (w % 2 ^ nbits)))

/-! What comes about where no entry issues. -/

/-- The steps that act for the group that issues, and so are no agent's move of their own. -/
def isGroupStep (i : Instr) : Bool := isWord i

/-- The step that comes next and the machine in which it does (DESIGN CHOICE, log 3): the agenda's first, else a free one; an instruction
form that no entry issues is passed over for a cycle in which the first quarter of core 0 issues. -/
def nextOf (s : State) : Instr × State :=
  match s.agenda with
  | i :: r => (if isGroupStep i then .issue 0 0 else i, { s with agenda := r })
  | [] =>
    let i := Config.nextEvent s.choices
    (if isGroupStep i then .issue 0 0 else i, { s with choices := s.choices + 1 })

end Sys2Proof.Machine
end

