-- ==== Sys2Proof/Machine/Barrier.lean ====
section
/-! DEFINITION. Named, team and gang barriers and the deadlock test (spec/10_control_instructions.md R268 to R273;
spec/03_on_chip_memories.md R84; spec/16_stream_engines.md R360). -/

namespace Sys2Proof.Machine

/-- A named barrier of a team; idle where it has no open phase (R269). -/
def barOf (t : Team) (id : Nat) : Bar := (t.bars.find? fun b => b.id == id).getD ⟨id, 0, 0, 0, []⟩

/-- Replace a named barrier. -/
def setBar (t : Team) (b : Bar) : Team := { t with bars := b :: t.bars.filter fun x => x.id != b.id }

/-- Does an entry wait for a phase of a named barrier. -/
def barWaits (id phase : Nat) (e : Entry) : Bool := e.waits fun w => match w with
  | .bar i p => i == id && p == phase
  | _ => false

/-- The lanes of a group that wait for a phase of a named barrier. -/
def barMask (b : Bar) (g : Group) : LaneMask :=
  ((g.frontier ++ (g.handler.map Handler.frontier).getD []).filter (barWaits b.id b.phase)).foldl (fun m e => m ||| e.mask) 0

/-- The edges of a named barrier reach the lanes that wait for its phase (R126). -/
def barJoin (b : Bar) (g : Group) : Group := addPast (barMask b g) b.past g

/-- The phase completes once its arrivals reach its expected count (R269): waiters wake, the counts return to idle. -/
def barFinish (t : Team) (b : Bar) : Team :=
  if b.expect ≠ 0 ∧ b.expect ≤ b.arrived then
    let t := setBar t ⟨b.id, 0, 0, b.phase + 1, []⟩
    { t with groups := t.groups.map fun g => wakeIf (barWaits b.id b.phase) (barJoin b g) }
  else setBar t b

/-- The id of a named barrier instruction (R268). -/
def barId (c : Ctx) (x : BarA) : Nat := (srcD c.g x.a 1 c.low).toNat + x.id.toNat

/-- Its count. -/
def barCount (c : Ctx) (x : BarA) : Int := match x.b with
  | .im w => w.toInt
  | o => (srcD c.g o 1 c.low).toNat

/-- A named barrier instruction (R268, R269, R429): does it arrive, does it wait. -/
def barOp (c : Ctx) (x : BarA) (arrive wait : Bool) : Res :=
  if !c.any then done c.s []
  else if c.inHandler then trapW cPRIV 5
  else
    let id := barId c x
    let n := barCount c x
    let b := barOf c.t id
    if c.gr.nbar ≤ id then trapW cBARID 1
    else if n < 1 ∨ 1024 < n then trapW cBARID 3
    else if b.expect ≠ 0 ∧ (b.expect : Int) ≠ n then trapW cBARID 2
    else
      let b : Bar := ⟨id, n.toNat, b.arrived + (if arrive then 1 else 0), b.phase,
        if arrive then union b.past (beforeOf c.s c.r c.g c.u.mask) else b.past⟩
      if b.expect ≤ b.arrived then
        let s := modTeam c.s c.t.r fun t => barFinish t b
        .ok (if wait then modGroup s c.r (addPast c.u.mask b.past) else s) .next [] none
      else .ok (modTeam c.s c.t.r fun t => setBar t b) (if wait then .wait (.bar id b.phase) else .next) [] none

/-- BARA (R269): arrives and moves on. -/
def execBara (x : BarA) (s : State) : Host.Outcome State Fault Refusal :=
  withIssue x.h false s fun c => barOp c x true false

/-- BARW (R269): waits for the open phase. -/
def execBarw (x : BarA) (s : State) : Host.Outcome State Fault Refusal :=
  withIssue x.h false s fun c => barOp c x false true

/-- BARS (R269): arrives and waits. -/
def execBars (x : BarA) (s : State) : Host.Outcome State Fault Refusal :=
  withIssue x.h false s fun c => barOp c x true true

/-- A team or gang barrier (R271, R272): not for a handler (R429) nor a rung group (R365). -/
def teamBar (c : Ctx) (w : Wait) : Res :=
  if c.inHandler then trapW cPRIV 5
  else if c.g.rung.isSome then trapW cLADFRAME 4
  else .ok c.s (.wait w) [] none

/-- TBAR (R272, R273). -/
def execTbar (x : TbarA) (s : State) : Host.Outcome State Fault Refusal :=
  withIssue x.h false s fun c => teamBar c (.tbar x.refresh)

/-- GBAR (R272). -/
def execGbar (h : Hdr) (s : State) : Host.Outcome State Fault Refusal :=
  withIssue h false s fun c => teamBar c .gbar

/-! The deadlock test (R84, R360). -/

/-- The detail of FEPROTO for a wait, where it is one the test covers. -/
def feDetail : Wait → Option Nat
  | .feLoad _ _ _ | .feFrag _ _ _ _ | .feCbld _ _ => some 1
  | .bar _ _ | .tbar _ | .gbar => some 2
  | .obj _ _ | .slot _ _ | .cwait _ => some 3
  | _ => none

/-- The detail of an entry's wait. -/
def Entry.feDetail (e : Entry) : Option Nat := match e.st with
  | .waiting w _ => Machine.feDetail w
  | _ => none

/-- Has an entry's wait reached 65,536 cycles. -/
def Entry.longWait (e : Entry) (now : Nat) : Bool := match e.st with
  | .waiting w since => (Machine.feDetail w).isSome && since + 65536 ≤ now
  | _ => false

/-- Does a group stand as the test asks: ended, or no handler and only covered waits. -/
def deadGroup (g : Group) : Bool :=
  g.ended || (g.handler.isNone && g.pendTrap.isNone && g.frontier.all fun e => e.feDetail.isSome)

/-- Is an engine operation of a team outstanding: copy requests, near-bank and attention commands, a running program,
also one that waits at SWAITR or SWAITP (R360). -/
def teamBusy (s : State) (t : Team) : Bool :=
  (s.reqs.any fun q => q.r.team == t.r && q.underway) ||
  (s.memOps.any fun m => m.t == t.r) ||
  (t.wins.any fun w => w.st == .running)

/-- Is a launch of a ladder's bin pending: the bin holds items. -/
def gangBinsHold (k : Gang) : Bool := k.bins.any fun l => l.any fun b => !b.items.isEmpty

/-- Does the test succeed (R84). -/
def deadlocked (s : State) (k : Gang) : Bool :=
  let ts := gangTeams s k.r
  ts.all (fun t => t.groups.all deadGroup && !teamBusy s t && t.sys == .none) && !gangBinsHold k

/-- Start the waits of a gang's groups over: the test is repeated after another 65,536 cycles (R84). -/
def restartWaits (now : Nat) (t : Team) : Team :=
  { t with groups := t.groups.map fun g => { g with frontier := g.frontier.map fun e => match e.st with
      | .waiting w since => if since + 65536 ≤ now then { e with st := .waiting w now } else e
      | _ => e } }

/-- DEADLOCK_TEST (R84, R360): a wait has reached 65,536 cycles; every waiting group traps FEPROTO where the gang is
deadlocked, else the test comes again. -/
def execDeadlockTest (k : GangRef) (s : State) : Host.Outcome State Fault Refusal :=
  match gangOf s k with
  | none => .next s
  | some g =>
    let ts := gangTeams s k
    let since := ts.flatMap fun t => t.groups.flatMap fun x => x.frontier.filterMap fun e => match e.st with
      | .waiting w since => if (feDetail w).isSome then some since else none
      | _ => none
    match since.min? with
    | none => .next s
    | some first =>
      if g.place != .resident || s.power.halted then .next s
      else
        let s := { s with cycle := max s.cycle (first + 65536) }
        if deadlocked s g then
          .next (ts.foldl (fun s t => t.groups.foldl (fun s x =>
            if x.ended then s
            else match topEntry x.frontier with
              | none => s
              | some e => trapEntry s ⟨t.r, x.id⟩ e cFEPROTO (e.feDetail.getD 0) 0) s) s)
        else .next (ts.foldl (fun s t => modTeam s t.r (restartWaits s.cycle)) s)

end Sys2Proof.Machine
end

