-- ==== Sys2Proof/Machine/Control.lean ====
section
/-! DEFINITION. Control flow and the lane stacks (spec/10_control_instructions.md R254 to R262; spec/03_on_chip_memories.md R85 to R87). -/

namespace Sys2Proof.Machine

/-- The link quad (R257). -/
def linkQuad (ret : Ptr) (fs : Nat) (prio : BitVec 8) : BitVec 128 :=
  BitVec.ofNat 128 (ret.toNat + (fs * 2 ^ 8 + prio.toNat) * 2 ^ 64)

/-! Transfers. -/

/-- BRA's and CALL's target (R256): an offset in words from the next instruction. -/
def relTarget (pc : Ptr) (off : Int) : Ptr := ptrAdd pc (12 + 4 * off)

/-- Each active lane goes to a target. -/
def goLanes (c : Ctx) (prio : BitVec 8) (f : Nat → Ptr) : Move := .goto (c.lanes.map fun l => (l, f l, prio))

/-- BRA (R256). -/
def execBra (x : BraA) (s : State) : Host.Outcome State Fault Refusal :=
  withIssue x.h true s fun c => .ok c.s (goLanes c x.tprio fun _ => relTarget c.u.pc x.off.toInt) [] none

/-- BRX (R256). -/
def execBrx (x : BrxA) (s : State) : Host.Outcome State Fault Refusal :=
  withIssue x.h true s fun c => .ok c.s (goLanes c x.tprio (srcD c.g x.a 2)) [] none

/-- CALL and CALLX (R256): frame checks of all active lanes, R86 before R85; then Push, WriteLink and the move. -/
def callTo (c : Ctx) (d : Opnd) (tprio : BitVec 8) (fs : Nat) (f : Nat → Ptr) : Res :=
  let sz := 16 * fs
  let above := c.lanes.filter fun l => c.g.slimit < spOf c.g l + sz
  if !c.any then .ok c.s .next [] none
  else if stackCap c.g < sz then trapW cSTKLIM 2
  else if !above.isEmpty then .trap ⟨cSTKLIM, 1, above.head?, 0, maskOf above, false⟩
  else
    let spill (l : Nat) := stackFault c.s c.t c.gr c.g l
      (max (loOf c.g l) (spOf c.g l - stackCap c.g)) (spOf c.g l + sz - stackCap c.g) .write
    match firstFault c.lanes spill with
    | some (l, e, p) => trapL e.1 e.2 l p
    | none =>
      let g := c.lanes.foldl (fun g l =>
        setQ (pushFrame sz g l) d l (linkQuad (nextPc c.u.pc) fs c.u.prio)) c.g
      .ok (tick (putGroup c.s c.r g)) (goLanes c tprio f) (outFree c.s (keysOf d 4)) none

/-- CALL (R256). -/
def execCall (x : CallA) (s : State) : Host.Outcome State Fault Refusal :=
  withIssue x.h true s fun c => callTo c x.d x.tprio x.fs.toNat fun _ => relTarget c.u.pc x.off.toInt

/-- CALLX (R256). -/
def execCallx (x : CallxA) (s : State) : Host.Outcome State Fault Refusal :=
  withIssue x.h true s fun c => callTo c x.d x.tprio x.fs.toNat (srcD c.g x.a 2)

/-- The fields of a link quad (R257): return pointer, priority, FS, and whether RET's checks pass in a lane (R258). -/
def linkOk (q : BitVec 128) (sp : Nat) : Bool :=
  let x := q.toNat
  fld x 81 15 == 0 && fld x 96 32 == 0 && fld x 72 9 ≤ 256 && 16 * fld x 72 9 ≤ sp

/-- RET (R258). -/
def execRet (x : OneA) (s : State) : Host.Outcome State Fault Refusal :=
  withIssue x.h true s fun c =>
    let q (l : Nat) := srcQ c.g x.a l
    let fs (l : Nat) := 16 * fld (q l).toNat 72 9
    match c.lanes.find? fun l => !linkOk (q l) (spOf c.g l) with
    | some l => trapL cSTKLIM 4 l 0
    | none =>
      let fill (l : Nat) :=
        let sp := spOf c.g l - fs l
        stackFault c.s c.t c.gr c.g l (sp - stackCap c.g) (min sp (loOf c.g l)) .read
      match firstFault c.lanes fill with
      | some (l, e, p) => trapL e.1 e.2 l p
      | none =>
        let g := c.lanes.foldl (fun g l => popFrame (fs l) g l) c.g
        .ok (putGroup c.s c.r g)
          (.goto (c.lanes.map fun l => (l, BitVec.ofNat 64 (fld (q l).toNat 0 64), BitVec.ofNat 8 (fld (q l).toNat 64 8)))) [] none

/-- EXIT (R259); in a handler it ends the handler and the lanes of the trapping entry (R430). -/
def execExit (h : Hdr) (s : State) : Host.Outcome State Fault Refusal :=
  withIssue h true s fun c =>
    if !c.any then .ok c.s .next [] none
    else if c.inHandler then .ok (handlerExit c.s c.r) .left [] none
    else .ok c.s (.exit c.act) [] none

/-- RCV (R164, R260). -/
def execRcv (h : Hdr) (s : State) : Host.Outcome State Fault Refusal :=
  withIssue h true s fun c => .ok c.s (.wait .rcv) [] none

/-- The merged entry of a completing RCV (R164): every lane, the highest PRIO, AGE 0. -/
def rcvMerge (f : List Entry) (pc : Ptr) : Entry :=
  ⟨nextPc pc, f.foldl (fun p e => if p < e.prio then e.prio else p) 0, f.foldl (fun m e => m ||| e.mask) 0, 0, .ready⟩

/-- The RCV at a pointer completes: no entry is parked, and every live lane waits at it (R164). -/
def execRcvComplete (r : GroupRef) (pc : Ptr) (s : State) : Host.Outcome State Fault Refusal :=
  match wakeable s r with
  | none => .next s
  | some g =>
    let f := frontOf g
    if rcvReady f && f.all (fun e => e.pc == pc) then .next (modGroup s r fun g => setFront g [rcvMerge f pc])
    else .next s

/-- YIELD (R261). -/
def execYield (h : Hdr) (s : State) : Host.Outcome State Fault Refusal :=
  withIssue h true s fun c => .ok c.s .next [] none

/-- SLEEP (R262): the delay replaces DLY. -/
def execSleep (x : SleepA) (s : State) : Host.Outcome State Fault Refusal :=
  withIssue x.h true s fun c => .ok c.s .next [] (if c.any then some x.n.toNat else none)

/-! Issue events (R152, R183 to R185). -/

/-- ISSUE (R152, R154): one cycle of a quarter. -/
def execIssue (core quarter : Nat) (s : State) : Host.Outcome State Fault Refusal := .next (issueCycle s core quarter)

/-- SWITCH_MARKER_UNPARK (R183). -/
def execSwitchMarkerUnpark (r : GroupRef) (s : State) : Host.Outcome State Fault Refusal := .next (unpark s r)

/-- ISSUE_DELAY_EXPIRE (R185). -/
def execIssueDelayExpire (r : GroupRef) (s : State) : Host.Outcome State Fault Refusal := .next (delayEnd s r)

/-- STACK_SPILL (R86, R87): a lane's oldest cached bytes go to memory in ascending order. -/
def execStackSpill (r : GroupRef) (lane : Nat) (s : State) : Host.Outcome State Fault Refusal :=
  match wakeable s r with
  | none => .next s
  | some _ => .next (spillLane s r lane)

end Sys2Proof.Machine
end

