-- ==== Sys2Proof/Machine/BufOps.lean ====
section
/-! DEFINITION. Buffer loads and stores, accumulation, fragments, full/empty instructions, stack frames
(spec/11_memory_instructions.md R274 to R285; spec/03_on_chip_memories.md R75, R80, R82, R83, R85, R86). -/

namespace Sys2Proof.Machine

/-! Waiting entries that finish. -/

/-- The waiting entry in force that holds a lane; none goes on while the group is saved (R419). -/
def waitAt (g : Group) (lane : Nat) : Option (Entry × Wait) :=
  if g.saved then none
  else match (frontOf g).find? fun e => e.mask.getLsbD lane && e.waits fun _ => true with
  | none => none
  | some e => match e.st with
    | .waiting w _ => some (e, w)
    | _ => none

/-- The entry of some lanes moves on to PC + 12 (R155), or stands as it stood until a trap that its group holds is over (R426). -/
def moveOn (m : LaneMask) (g : Group) : Group :=
  let p (e : Entry) : Bool := e.mask == m && e.waits fun _ => true
  setFront g (if g.pendTrap.isSome then meetList p (frontOf g) else wakeList p (frontOf g))

/-- The entry of some lanes waits for something else. -/
def rewait (m : LaneMask) (w : Wait) (g : Group) : Group :=
  setFront g ((frontOf g).map fun e => match e.st with
    | .waiting _ since => if e.mask == m then { e with st := .waiting w since } else e
    | _ => e)

/-! What lanes find in buffers, and what they leave there (R134 to R137). -/

/-- What a plain read of a buffer by a lane finds: the bytes as they stand, or as they stood before writes that the lane does not know
of (R135, R136). -/
def bufView (s : State) (r : GroupRef) (l : Nat) (m : TeamRef) (b : Buf) (off k : Nat) : View :=
  let known := match groupOf s r with
    | none => []
    | some g => knownBy s g l []
  viewOf s known (bufLoc m b off) (bytesOf (bufGet s m b off k) k)

/-- Some lanes have read: they have seen writes and read from releases. -/
def noteRead (s : State) (r : GroupRef) (m : LaneMask) (kept : List Nat) (tags : List RelTag) : State :=
  if kept.isEmpty && tags.isEmpty then s
  else modGroup s r fun g => (lanesOf m).foldl (fun g l =>
    let o := laneOrd g l
    setOrd g { o with seen := o.seen ++ tags }) (addObs s m kept g)

/-- The writes kept of a run of bytes of a buffer. -/
def writesAt (s : State) (m : TeamRef) (b : Buf) (off k : Nat) : List Wr :=
  s.hist.filter fun w => overlap w.loc w.old.length (bufLoc m b off) k

/-- What a load that found its granules full gains (R136, R139): for each of them the write that set its bit, and what that brings. -/
def gained (s : State) (m : TeamRef) (b : Buf) (off k : Nat) : List Nat :=
  (granules off k).foldl (fun a i => match (writesAt s m b (16 * i) 16).getLast? with
    | none => a
    | some w => union a (w.id :: w.pre)) []

/-- What precedes a lane's store to a buffer (R136): the buffer accesses of its group before it, and what happens before them. -/
def storePre (s : State) (r : GroupRef) (g : Group) : List Nat :=
  let inBuf := (s.hist.filter fun w => 2 ^ 64 ≤ w.loc).map Wr.id
  (List.range 32).foldl (fun a l => union a (union ((obsOf s g l).filter inBuf.contains) (pastOf s g l)))
    ((s.hist.filter fun w => w.grp == some r).map Wr.id)

/-- A lane stores to a buffer (R82, R124, R135): the write is one that others may miss, and releases what the lane's fences say. -/
def bufStoreAs (r : GroupRef) (core l : Nat) (m : TeamRef) (b : Buf) (off k x : Nat) (s : State) : State :=
  let t := bufPut s m b off k x
  match groupOf s r with
  | none => t
  | some g =>
    let id := s.nextId
    let t := keepWrite s { t with nextId := id + 1 } id (bufLoc m b off) (bytesOf (bufGet s m b off k) k) false (some r) (storePre s r g) (some r.team)
    let tags := (laneOrd g l).fences.filterMap fun f =>
      let p := farLive s f.2
      if p.isEmpty then none else some ⟨id, bufLoc m b off, k, .lane r core, f.1, p⟩
    modGroup { t with rels := t.rels ++ tags } r (addObs t (BitVec.twoPow 32 l) [id])

/-- What the fences of some lanes say is released where an instruction has written runs of bytes of a buffer (R124). -/
def relBuf (r : GroupRef) (core : Nat) (ls : List Nat) (m : TeamRef) (b : Buf) (runs : List (Nat × Nat)) (s : State) : State :=
  let fs := match groupOf s r with
    | none => []
    | some g => ls.flatMap fun l => (laneOrd g l).fences
  if fs.isEmpty then s
  else
    let tags := runs.flatMap fun o => fs.filterMap fun f =>
      let p := farLive s f.2
      if p.isEmpty then none else some ⟨s.nextId, bufLoc m b o.1, o.2, .lane r core, f.1, p⟩
    { s with rels := s.rels ++ tags, nextId := s.nextId + 1 }

/-- An instruction has read runs of bytes of a buffer as they stand, for some lanes. -/
def seeBuf (r : GroupRef) (ls : LaneMask) (m : TeamRef) (b : Buf) (runs : List (Nat × Nat)) (s : State) : State :=
  if s.hist.isEmpty && s.rels.isEmpty then s
  else runs.foldl (fun s o => noteRead s r ls ((writesAt s m b o.1 o.2).map Wr.id) (tagsAt s (bufLoc m b o.1) o.2)) s

/-! Loads (R278). -/

/-- Does a load wait for its granules. -/
def Fe.waits : Fe → Bool
  | .fe | .feclr => true
  | _ => false

/-- Does a load clear its granules' bits. -/
def Fe.clears : Fe → Bool
  | .clr | .feclr => true
  | _ => false

/-- The lanes that a read receives it for. -/
def loadLanes (x : LdA) (act : LaneMask) (l : Nat) : List Nat :=
  if x.a.isV then [l] else if x.d.isV then lanesOf act else [l]

/-- One lane's step (R278, R83): its bytes are read and its bits cleared; none where a word is uncorrectable. A load that waits for its
granules, or clears their bits, reads what stands there, and one that has waited acquires (R136) (DEDUCED, log 7). -/
def loadStep (b : Buf) (x : LdA) (r : GroupRef) (act : LaneMask) (s : State) (l : Nat) (p : BufAt) : Option (State × BitVec 128) :=
  match teamOf s r.team with
  | none => some (s, 0)
  | some t =>
    let m := memberRef t p.m
    let k := x.sz.bytes
    (bufTouch s m b p.off k).map fun s =>
      let s' := if Fe.clears x.fe then modTeam s m fun t => markFe t b p.off k false else s
      if s.hist.isEmpty && s.rels.isEmpty then (s', BitVec.ofNat 128 (bufGet s m b p.off k))
      else
        let ls := maskOf (loadLanes x act l)
        if Fe.waits x.fe || Fe.clears x.fe then
          let s' := noteRead s' r ls ((writesAt s m b p.off k).map Wr.id) (tagsAt s (bufLoc m b p.off) k)
          (if Fe.waits x.fe then modGroup s' r (addPast (BitVec.allOnes 32) (gained s m b p.off k)) else s',
            BitVec.ofNat 128 (bufGet s m b p.off k))
        else
          let v := bufView s r l m b p.off k
          (noteRead (viewTick s') r ls v.kept v.tags, BitVec.ofNat 128 (ofBytes v.bytes))

/-- The end of a load (R278): destination and address register of every lane. -/
def loadEnd (x : LdA) (act : LaneMask) (got : List (Nat × BitVec 128 × DWord)) (g : Group) : Group :=
  bumpAddr x.a x.addr (got.map fun v => (v.1, v.2.2))
    (got.foldl (fun g v => (loadLanes x act v.1).foldl (fun g l => setLoad g x.d x.sz l v.2.1) g) g)

/-- Are the granules of a lane's load full, where it waits for them (DEDUCED, log 47). -/
def loadFull (b : Buf) (f : Fe) (size : Nat) (s : State) (r : GroupRef) (p : BufAt) : Bool :=
  !Fe.waits f || match teamOf s r.team with
    | none => false
    | some t => match teamOf s (memberRef t p.m) with
      | none => false
      | some u => allFull u b p.off size

/-- Lanes take their steps in ascending order, those whose granules are full; the machine, the lanes that still wait, and
what the others read. -/
def loadRun (b : Buf) (x : LdA) (r : GroupRef) (act : LaneMask) :
    List (Nat × BufAt) → State → Option (State × List (Nat × BufAt) × List (Nat × BitVec 128 × DWord))
  | [], s => some (s, [], [])
  | (l, p) :: rest, s =>
    if loadFull b x.fe x.sz.bytes s r p then
      match loadStep b x r act s l p with
      | none => none
      | some (s, v) => (loadRun b x r act rest s).map fun q => (q.1, q.2.1, (l, v, p.upd) :: q.2.2)
    else (loadRun b x r act rest s).map fun q => (q.1, (l, p) :: q.2.1, q.2.2)

/-- What a wait keeps of a lane's load. -/
def BufAt.pack (l : Nat) (p : BufAt) : Nat × Nat × Nat × DWord := (l, p.m, p.off, p.upd)

/-- A buffer load (R276 to R278). -/
def loadBuf (b : Buf) (i : Instr) (x : LdA) (c : Ctx) : Res :=
  if !c.any then done c.s []
  else
    match placeAll (accLanes c x.a.isV) (bufAddr c.s c.t c.g b x.mem x.a x.addr x.sz.bytes) with
    | .error e => bufTrap e
    | .ok ps => match loadRun b x c.r c.act ps c.s with
      | none => .kill c.s cUECONS 0
      | some (s, [], got) =>
        done (tick (modGroup s c.r (loadEnd x c.act got))) (outFree s (keysOf x.d x.sz.regs ++ addrKeys x.a x.addr))
      | some (s, left, got) => .ok s (.wait (.feLoad i (left.map fun p => BufAt.pack p.1 p.2) got)) [] none

/-- LDW (R278). -/
def execLdw (x : LdA) (s : State) : Host.Outcome State Fault Refusal := withIssue x.h false s (loadBuf .w (.ldw x) x)

/-- LDA (R278). -/
def execLda (x : LdA) (s : State) : Host.Outcome State Fault Refusal := withIssue x.h false s (loadBuf .a (.lda x) x)

/-- LDC (R278). -/
def execLdc (x : LdA) (s : State) : Host.Outcome State Fault Refusal := withIssue x.h false s (loadBuf .c (.ldc x) x)

/-! Stores and accumulation (R279, R280). -/

/-- The buffer address a trap frame names (R428). -/
def bufFrame (b : Buf) (p : BufAt) : DWord := BitVec.ofNat 64 (if b = .a then p.m * 2 ^ 20 + p.off else p.off)

/-- The BOUND trap of a lane (R75, R433), the flag already set. -/
def boundTrap (c : Ctx) (t : Nat) (lane : Option Nat) (addr : DWord) : Res :=
  .trapIn (modTeam c.s c.t.r (flagBound t)) ⟨cBOUND, t, lane, addr, 0, false⟩

/-- The flag of a tag is set where something violated it. -/
def flagIf (c : Ctx) (t : Nat) (v : Bool) (s : State) : State := if v then modTeam s c.t.r (flagBound t) else s

/-- A buffer store (R279): every lane's data is checked before any lane writes. -/
def storeBuf (b : Buf) (x : StA) (c : Ctx) : Res :=
  let t := x.d.tag
  let bnd := getB c.t t
  match placeAll (accLanes c (x.a.isV || x.b.isV)) (bufAddr c.s c.t c.g b x.mem x.a x.addr x.sz.bytes) with
  | .error e => bufTrap e
  | .ok ps =>
    let ws := ps.map fun p => (p, if t = 0 then (false, fld (srcData c.g x.b x.sz p.1).toNat 0 (8 * x.sz.bytes))
      else tagBytes bnd x.tf x.sz.bytes (srcData c.g x.b x.sz p.1).toNat)
    match ws.find? fun w => w.2.1 with
    | some w =>
      if tagTraps bnd then boundTrap c t (some w.1.1) (bufFrame b w.1.2) else storeAll b x c ps ws
    | none => storeAll b x c ps ws
where
  /-- The writes, in ascending lane order (R118), and the address register's update. -/
  storeAll (b : Buf) (x : StA) (c : Ctx) (ps : List (Nat × BufAt)) (ws : List ((Nat × BufAt) × Bool × Nat)) : Res :=
    let s := ws.foldl (fun s w => bufStoreAs c.r c.t.core w.1.1 (memberRef c.t w.1.2.m) b w.1.2.off x.sz.bytes w.2.2 s) c.s
    let s := flagIf c x.d.tag (ws.any fun w => w.2.1) s
    let s := modGroup s c.r (bumpAddr x.a x.addr (ps.map fun p => (p.1, p.2.upd)))
    done (tick s) (if c.any then outFree c.s (addrKeys x.a x.addr) else [])

/-- STA (R279). -/
def execSta (x : StA) (s : State) : Host.Outcome State Fault Refusal := withIssue x.h false s (storeBuf .a x)

/-- STC (R279). -/
def execStc (x : StA) (s : State) : Host.Outcome State Fault Refusal := withIssue x.h false s (storeBuf .c x)

/-- The words of an ACC (R280), ascending lanes and offsets: lane, C offset, addend. -/
def accWords (x : StA) (c : Ctx) (ps : List (Nat × BufAt)) : List (Nat × Nat × Nat) :=
  ps.flatMap fun p => (List.range (x.sz.bytes / 4)).map fun i =>
    (p.1, p.2.off + 4 * i, fld (srcData c.g x.b x.sz p.1).toNat (32 * i) 32)

/-- One accumulation (R280): the rounded sum, whether it violates the tag, what is written. -/
def accSum (s : State) (t : TeamRef) (bnd : BitVec 128) (off x : Nat) : Bool × Nat :=
  tagElem bnd fF32 (roundN32 (FVal.add .rne (decodeF fF32 (bufGet s t .c off 4)) (decodeF fF32 x)))

/-- All accumulations, in order; the violations seen, as lane and offset. -/
def accRun (c : Ctx) (bnd : BitVec 128) : List (Nat × Nat × Nat) → State → State × List (Nat × Nat)
  | [], s => (s, [])
  | (l, off, x) :: rest, s =>
    let v := accSum s c.t.r bnd off x
    let q := accRun c bnd rest (bufStoreAs c.r c.t.core l c.t.r .c off 4 v.2 s)
    (q.1, if v.1 then (l, off) :: q.2 else q.2)

/-- ACC (R280). -/
def execAcc (x : StA) (s : State) : Host.Outcome State Fault Refusal :=
  withIssue x.h false s fun c =>
    let bnd := getB c.t x.d.tag
    match placeAll c.lanes (bufAddr c.s c.t c.g .c x.mem x.a x.addr x.sz.bytes) with
    | .error e => bufTrap e
    | .ok ps =>
      withTouch c (ps.map fun p => (c.t.r, Buf.c, p.2.off, x.sz.bytes)) fun s =>
        let r := accRun c bnd (accWords x c ps) s
        match r.2, tagTraps bnd with
        | (l, off) :: _, true => boundTrap c x.d.tag (some l) (BitVec.ofNat 64 off)
        | _, _ =>
          let s := flagIf c x.d.tag (!r.2.isEmpty) r.1
          let s := modGroup s c.r (bumpAddr x.a x.addr (ps.map fun p => (p.1, p.2.upd)))
          done (tick s) (if c.any then outFree c.s (addrKeys x.a x.addr) else [])

/-! Fragments (R282, R283). -/

/-- Where byte b of register j in a lane lies, from the fragment's address (R283). -/
def fragByte (k : FragKind) (pitch j l b : Nat) : Nat :=
  let r := l % 16
  let h := l / 16
  match k with
  | .op => r * pitch + 16 * h + 4 * j + b
  | .opt16 => (8 * h + 2 * j + b / 2) * pitch + 2 * r + b % 2
  | .opt8 => (16 * h + 4 * j + b) * pitch + r
  | .acc => (j + 8 * h) * pitch + 4 * r + b

/-- The least pitch of a kind. -/
def fragMin : FragKind → Nat
  | .op | .opt16 => 32
  | .opt8 => 16
  | .acc => 64

/-- The extent of a fragment. -/
def fragExtent (k : FragKind) (pitch : Nat) : Nat := match k with
  | .op | .opt16 => 15 * pitch + 32
  | .opt8 => 31 * pitch + 16
  | .acc => 15 * pitch + 64

/-- The place of a fragment (R283): member and offset, or the first failed check. -/
def fragPlace (s : State) (t : Team) (b : Buf) (mem : Bool) (k : FragKind) (a : Int) (pitch : Nat) : Except BufErr (Nat × Nat) :=
  if a < 0 ∨ (2 ^ bufWidth b : Nat) ≤ a then .error ⟨cBUFRANGE, 1, BitVec.ofInt 64 a⟩
  else
    let n := a.toNat
    let m := if b = .a ∧ mem then n / 2 ^ 20 else t.member
    let off := if b = .a then n % 2 ^ 20 else n
    let addr : DWord := BitVec.ofNat 64 (if b = .a then m * 2 ^ 20 + off else off)
    if gangSize s t.r ≤ m then .error ⟨cGANGADDR, 0, addr⟩
    else match teamOf s (memberRef t m) with
      | none => .error ⟨cGANGADDR, 0, addr⟩
      | some u =>
        if off % 16 ≠ 0 then .error ⟨cBUFRANGE, 2, addr⟩
        else if pitch < fragMin k ∨ pitch % 16 ≠ 0 then .error ⟨cBUFRANGE, 4, addr⟩
        else if bufLen u b < off + fragExtent k pitch then .error ⟨cBUFRANGE, 1, addr⟩
        else .ok (m, off)

/-- The registers and lanes of a fragment. -/
def fragElems (k : FragKind) : List (Nat × Nat) := (List.range k.regs).flatMap fun j => (List.range 32).map fun l => (j, l)

/-- The granules a fragment's bytes lie in. -/
def fragFull (t : Team) (b : Buf) (k : FragKind) (off pitch : Nat) : Bool :=
  (fragElems k).all fun p => (List.range 4).all fun i => stGet (feOf t b) ((off + fragByte k pitch p.1 p.2 i) / 16) == 1

/-- A trap that no lane is named for, with a buffer address. -/
def fragTrap (e : BufErr) : Res := .trap ⟨e.cause, e.detail, none, e.addr, 0, false⟩

/-- Pass the words of a fragment's bytes through their decoder (R91). -/
def fragTouch (x : LdfragA) (m : TeamRef) (off pitch : Nat) (s : State) : Option State :=
  if s.sram.isEmpty then some s
  else (fragElems x.kind).foldl (fun (o : Option State) p => (List.range 4).foldl (fun (o : Option State) b =>
    o.bind fun s => bufTouch s m x.buf (off + fragByte x.kind pitch p.1 p.2 b) 1) o) (some s)

/-- The word of a fragment's register in a lane. -/
def fragWord (u : Team) (b : Buf) (k : FragKind) (off pitch j l : Nat) : Word :=
  BitVec.ofNat 32 (ofBytes ((List.range 4).map fun i => stGet (bufOf u b) (off + fragByte k pitch j l i)))

/-- Bytes of a register's word that lie together in the buffer. -/
def fragUnit : FragKind → Nat
  | .op | .acc => 4
  | .opt16 => 2
  | .opt8 => 1

/-- The runs of a fragment's bytes that one lane's registers hold. -/
def fragRuns (k : FragKind) (off pitch l : Nat) : List (Nat × Nat) :=
  (List.range k.regs).flatMap fun j => (List.range (4 / fragUnit k)).map fun i => (off + fragByte k pitch j l (fragUnit k * i), fragUnit k)

/-- What a lane finds of a fragment's register, piece by piece; each piece makes its own choices. -/
def fragViews (s : State) (x : LdfragA) (r : GroupRef) (m : TeamRef) (off pitch j l : Nat) : List View :=
  let n := fragUnit x.kind
  (List.range (4 / n)).map fun i =>
    bufView { s with frees := s.frees + 16 * s.hist.length * (4 * (32 * j + l) + i) } r l m x.buf (off + fragByte x.kind pitch j l (n * i)) n

/-- The words of a fragment as its lanes find them, and the machine in which they have found them: LDFRAG.fe reads what stands there, and
acquires (R136). -/
def fragFound (s : State) (x : LdfragA) (r : GroupRef) (u : Team) (off pitch : Nat) : (Nat × Nat → Word) × State :=
  if s.hist.isEmpty && s.rels.isEmpty then (fun p => fragWord u x.buf x.kind off pitch p.1 p.2, s)
  else if x.few then
    (fun p => fragWord u x.buf x.kind off pitch p.1 p.2, modGroup s r (addPast (BitVec.allOnes 32)
      ((fragElems x.kind).foldl (fun a p => union a (gained s u.r x.buf (off + fragByte x.kind pitch p.1 p.2 0) 1)) [])))
  else
    let vs (p : Nat × Nat) : List View := fragViews s x r u.r off pitch p.1 p.2
    let s' := (fragElems x.kind).foldl (fun s p => (vs p).foldl (fun s v =>
      noteRead s r (BitVec.twoPow 32 p.2) v.kept v.tags) s) s
    (fun p => BitVec.ofNat 32 (ofBytes ((vs p).flatMap View.bytes)), { s' with frees := s.frees + 16 * s.hist.length * 2048 })

/-- The read of a fragment (R283): all registers of the group in every lane. -/
def fragRead (x : LdfragA) (r : GroupRef) (m : TeamRef) (off pitch : Nat) (s : State) : Option State :=
  (fragTouch x m off pitch s).map fun s => match teamOf s m with
    | none => s
    | some u =>
      let f := fragFound s x r u off pitch
      modGroup f.2 r fun g =>
        let g := closeAll (.ldfrag x) g
        { g with v := stSetAll g.v ((fragElems x.kind).map fun p => (32 * (x.d.vIdx + p.1) + p.2, f.1 p)) }

/-- The base address of a fragment instruction. -/
def fragBase (c : Ctx) (a : Opnd) (off : BitVec 22) : Int := (srcD c.g a 1 c.low).toNat + off.toInt

/-- The pitch of a fragment instruction: a register's unsigned value, or a signed immediate (R177), of which a negative one
is below every bound, as 0 is. -/
def fragPitch (c : Ctx) (b : Opnd) : Nat := match b with
  | .im w => w.toInt.toNat
  | o => (srcD c.g o 1 c.low).toNat

/-- LDFRAG (R282, R283). -/
def execLdfrag (x : LdfragA) (s : State) : Host.Outcome State Fault Refusal :=
  withIssue x.h false s fun c =>
    if !c.any then done c.s []
    else
      let pitch := fragPitch c x.b
      match fragPlace c.s c.t x.buf x.mem x.kind (fragBase c x.a x.off) pitch with
      | .error e => fragTrap e
      | .ok (m, off) =>
        let mt := memberRef c.t m
        if x.few && !(match teamOf c.s mt with
            | none => false
            | some u => fragFull u x.buf x.kind off pitch) then .ok c.s (.wait (.feFrag (.ldfrag x) m off pitch)) [] none
        else match fragRead x c.r mt off pitch c.s with
          | none => .kill c.s cUECONS 0
          | some s => done (tick s) (outFree s (keysOf x.d x.kind.regs))

/-- STFRAG (R282, R283). -/
def execStfrag (x : StfragA) (s : State) : Host.Outcome State Fault Refusal :=
  withIssue x.h false s fun c =>
    if !c.any then done c.s []
    else
      let pitch := fragPitch c x.b
      match fragPlace c.s c.t x.buf x.mem x.kind (fragBase c x.a x.off) pitch with
      | .error e => fragTrap e
      | .ok (m, off) =>
        let mt := memberRef c.t m
        let bnd := getB c.t x.d.tag
        let ws := (fragElems x.kind).map fun p => (p, tagElem bnd fF32 (getV c.g (x.t.vIdx + p.1) p.2).toNat)
        let viol := ws.any fun w => w.2.1
        if viol && tagTraps bnd then
          boundTrap c x.d.tag none (BitVec.ofNat 64 (if x.buf = .a then m * 2 ^ 20 + off else off))
        else
          let s := ws.foldl (fun s w => (List.range 4).foldl (fun s b =>
            bufPut s mt x.buf (off + fragByte x.kind pitch w.1.1 w.1.2 b) 1 (fld w.2.2 (8 * b) 8)) s) c.s
          let s := (List.range 32).foldl (fun s l => relBuf c.r c.t.core [l] mt x.buf (fragRuns x.kind off pitch l) s) s
          done (flagIf c x.d.tag viol s) []

/-! Full/empty bits (R284). -/

/-- The checks of a full/empty instruction: the count, then each active lane's address. -/
def fePlaces (c : Ctx) (mem bufA : Bool) (a b : Opnd) (off : BitVec 32) (limit : Nat) (perLane : Bool) :
    Except Res (Nat × List (Nat × BufAt)) :=
  let n := (srcD c.g b 1 c.low).toNat
  let buf : Buf := if bufA then .a else .w
  if limit < n then .error (trapW cBUFRANGE 3)
  else match placeAll (accLanes c perLane) fun l =>
      let x : Int := match a with
        | .im w => w.toInt
        | o => (srcD c.g o 1 l).toNat
      bufPlace c.s c.t buf mem (x + off.toInt) (16 * n) 16 0 with
    | .error e => .error (bufTrap e)
    | .ok ps => .ok (n, ps)

/-- FESET and FECLR: set or clear the bits of n granules. -/
def feOp (x : FesA) (full : Bool) (c : Ctx) : Res :=
  if !c.any then done c.s []
  else match fePlaces c x.mem x.bufA x.a x.b x.off 4096 x.a.isV with
    | .error e => e
    | .ok (n, ps) =>
      done (ps.foldl (fun s p => modTeam s (memberRef c.t p.2.m) fun t =>
        markFe t (if x.bufA then .a else .w) p.2.off (16 * n) full) c.s) []

/-- FESET (R284). -/
def execFeset (x : FesA) (s : State) : Host.Outcome State Fault Refusal := withIssue x.h false s (feOp x true)

/-- FECLR (R284). -/
def execFeclr (x : FesA) (s : State) : Host.Outcome State Fault Refusal := withIssue x.h false s (feOp x false)

/-- The bits of n granules (R284). -/
def feBits (s : State) (t : TeamRef) (b : Buf) (off n : Nat) : Nat := match teamOf s t with
  | none => 0
  | some u => (List.range n).foldl (fun a i => a + (stGet (feOf u b) (off / 16 + i)).toNat * 2 ^ i) 0

/-- FEPROBE (R284). -/
def execFeprobe (x : FeprobeA) (s : State) : Host.Outcome State Fault Refusal :=
  withIssue x.h false s fun c =>
    if !c.any then done c.s []
    else match fePlaces c x.mem x.bufA x.a x.b x.off 32 x.a.isV with
      | .error e => e
      | .ok (n, ps) =>
        resFree c (keysOf x.d 1) (ps.foldl (fun g p =>
          let v : DWord := BitVec.ofNat 64 (feBits c.s (memberRef c.t p.2.m) (if x.bufA then .a else .w) p.2.off n)
          (if x.a.isV then [p.1] else if x.d.isV then c.lanes else [p.1]).foldl (fun g l => setDst g x.d 1 l v) g) c.g)

/-! Stack frames (R285). -/

/-- The stack byte of a frame access in a lane, or the detail of STKLIM. -/
def framePlace (g : Group) (a : Opnd) (off : BitVec 32) (size : Nat) (l : Nat) : Except BufErr Nat :=
  let f := (g.frames.getD l []).headD 0
  let x : Int := match a with
    | .im w => w.toInt
    | o => (srcD g o 1 l).toNat
  let o := x + off.toInt
  if o < 0 ∨ (f : Int) < o + size then .error ⟨cSTKLIM, 3, 0⟩
  else if o % size ≠ 0 then .error ⟨cSTKLIM, 5, 0⟩
  else .ok (spOf g l - f + o.toNat)

/-- LDS or STS in a lane, where its bytes are in the cache. -/
def frameStep (i : Instr) (s : State) (g : Group) (l byte : Nat) (v : BitVec 128) : Group :=
  match i with
  | .lds x => setLoad g x.d x.sz l (BitVec.ofNat 128 (ofBytes ((List.range x.sz.bytes).map fun k =>
      stkByte s g (2 ^ 32 * l + byte + k))))
  | .sts x => stkPut g (2 ^ 32 * l + byte) (bytesOf v.toNat x.sz.bytes)
  | _ => g

/-- The words that frame accesses read or write pass through their decoder (R91); none where one that is read is uncorrectable. -/
def frameTouch (s : State) (r : GroupRef) (i : Instr) (ps : List (Nat × Nat × BitVec 128)) : Option State :=
  if s.sram.isEmpty then some s
  else match i with
    | .lds x => ps.foldl (fun (o : Option State) p => o.bind fun s => touchStack s r (2 ^ 32 * p.1 + p.2.1) x.sz.bytes) (some s)
    | .sts x => some (ps.foldl (fun s p => freshStack s r (2 ^ 32 * p.1 + p.2.1) x.sz.bytes) s)
    | _ => some s

/-- The frame accesses of a group: at once where every lane's bytes are in the cache, else the entry waits (R86). -/
def frameRun (c : Ctx) (i : Instr) (ps : List (Nat × Nat × BitVec 128)) (ks : List RegKey) : Res :=
  if ps.all fun p => loOf c.g p.1 ≤ p.2.1 then
    match frameTouch c.s c.r i ps with
    | none => .kill c.s cUECONS 0
    | some s =>
      let s := modGroup s c.r fun g => ps.foldl (fun g p => frameStep i s g p.1 p.2.1 p.2.2) g
      done (tick s) (if c.any then outFree c.s ks else [])
  else .ok c.s (.wait (.stack i ps)) [] none

/-- LDS (R285). -/
def execLds (x : LdsA) (s : State) : Host.Outcome State Fault Refusal :=
  withIssue x.h false s fun c =>
    match placeAll c.lanes (framePlace c.g x.a x.off x.sz.bytes) with
    | .error e => bufTrap e
    | .ok ps => frameRun c (.lds x) (ps.map fun p => (p.1, p.2, 0)) (keysOf x.d x.sz.regs)

/-- STS (R285). -/
def execSts (x : StsA) (s : State) : Host.Outcome State Fault Refusal :=
  withIssue x.h false s fun c =>
    match placeAll c.lanes (framePlace c.g x.a x.off x.sz.bytes) with
    | .error e => bufTrap e
    | .ok ps => frameRun c (.sts x) (ps.map fun p => (p.1, p.2, srcData c.g x.b x.sz p.1)) []

/-- Frame accesses that waited for a fill and whose bytes are now in the cache. -/
def frameWake (s : State) (r : GroupRef) : State :=
  match groupOf s r with
  | none => s
  | some g =>
    (frontOf g).foldl (fun s e => match e.st with
      | .waiting (.stack i ps) _ =>
        if ps.all fun p => loOf ((groupOf s r).getD g) p.1 ≤ p.2.1 then
          match frameTouch s r i ps with
          | none => killTeam s r.team cUECONS 0
          | some s =>
            let s := modGroup s r fun g => moveOn e.mask (ps.foldl (fun g p => frameStep i s g p.1 p.2.1 p.2.2) (closeAll i g))
            freshRegs s r (regsWritten g i (maskOf (ps.map Prod.fst)))
        else s
      | _ => s) s

/-- STACK_FILL (R86): bytes that a pop has uncovered come back; accesses that waited for them go on (DEDUCED, log 39). -/
def execStackFill (r : GroupRef) (lane : Nat) (s : State) : Host.Outcome State Fault Refusal :=
  match teamOf s r.team, wakeable s r, gridOf s r.team.ld r.team.grid with
  | some t, some g, some gr =>
    if (fillRange g lane).1 < (fillRange g lane).2 then
      let q := fillLane s t gr g lane
      match q.2.2.1 with
      | .ok => .next (frameWake (putGroup q.1 r q.2.1) r)
      | .poison => .next (killTeam q.1 r.team cPOISON q.2.2.2)
      | .uncorr => .next (killTeam q.1 r.team cUECONS q.2.2.2)
    else .next s
  | _, _, _ => .next s

/-! The end of a full/empty wait (R83, R84). -/

/-- The buffer of a load. -/
def loadForm : Instr → Option (Buf × LdA)
  | .ldw x => some (.w, x)
  | .lda x => some (.a, x)
  | .ldc x => some (.c, x)
  | _ => none

/-- A lane whose granules are full takes its step; after the last the registers are written and the entry moves on. -/
def feLoadLane (s : State) (r : GroupRef) (e : Entry) (i : Instr) (ls : List (Nat × Nat × Nat × DWord))
    (got : List (Nat × BitVec 128 × DWord)) (lane : Nat) : State :=
  match loadForm i, ls.find? fun p => p.1 == lane with
  | some (b, x), some p =>
    let at' : BufAt := ⟨p.2.1, p.2.2.1, p.2.2.2⟩
    if loadFull b x.fe x.sz.bytes s r at' then
      let act := match groupOf s r with
        | none => 0
        | some g => activeMask g x.h e.mask
      match loadStep b x r act s lane at' with
      | none => killTeam s r.team cUECONS 0
      | some (s, v) =>
        let left := ls.filter fun p => p.1 != lane
        let got := got ++ [(lane, v, at'.upd)]
        if left.isEmpty then
          let g := (groupOf s r).map fun g => regsWritten g i act
          freshRegs (modGroup s r fun g => moveOn e.mask (loadEnd x act got (closeAll i g))) r (g.getD [])
        else modGroup s r (rewait e.mask (.feLoad i left got))
    else s
  | _, _ => s

/-- LDFRAG.fe reads once every granule it reads is full. -/
def feFragLane (s : State) (r : GroupRef) (e : Entry) (i : Instr) (m off pitch : Nat) : State :=
  match i, teamOf s r.team with
  | .ldfrag x, some t =>
    match teamOf s (memberRef t m) with
    | none => s
    | some u =>
      if fragFull u x.buf x.kind off pitch then
        match fragRead x r u.r off pitch s with
        | none => killTeam s r.team cUECONS 0
        | some s => freshRegs (modGroup s r (moveOn e.mask)) r ((fragElems x.kind).map fun p => (x.d.vIdx + p.1, p.2))
      else s
  | _, _ => s

end Sys2Proof.Machine
end

