-- ==== Sys2Proof/Machine/Func.lean ====
section
/-! DEFINITION. The function instructions (spec/09_scalar_vector_instructions.md R235, R243): the correctly rounded FP32 value of
1/a, 1/√a, √a, 2^a, log2 a, sin(πa) and cos(πa). Quotients and square roots are exact. The transcendental values are
evaluated in fixed point with 320 fraction bits, far beyond the distance at which an FP32 argument's value can lie from a
rounding boundary; each such value is irrational, so it is never on one (DEDUCED, log 27). -/

namespace Sys2Proof.Machine

/-- Integer square root by binary digits: `r` holds the root so far, `k` digits remain. -/
def isqrtLoop (n : Nat) : Nat → Nat → Nat
  | 0, r => r
  | k + 1, r =>
    let t := r + 2 ^ k
    isqrtLoop n k (if t * t ≤ n then t else r)

/-- floor(√n). -/
def isqrt (n : Nat) : Nat := isqrtLoop n (ilog2 n / 2 + 1) 0

/-- 1 / a for finite nonzero a, to nearest even. -/
def recipPat (neg : Bool) (m : Nat) (e : Int) : Nat :=
  let k := ilog2 m + 64
  roundMag fF32 .rne 0 false neg (2 ^ k / m) (-e - k) (decide (2 ^ k % m ≠ 0))

/-- √(m × 2^e) as (root, exponent, whether something is left). -/
def sqrtParts (m : Nat) (e : Int) : Nat × Int × Bool :=
  let m' := if e % 2 = 0 then m else 2 * m
  let e' := if e % 2 = 0 then e else e - 1
  let r := isqrt (m' * 2 ^ 128)
  (r, e' / 2 - 64, decide (r * r ≠ m' * 2 ^ 128))

/-- √a for finite positive a. -/
def sqrtPat (m : Nat) (e : Int) : Nat :=
  let (r, x, rest) := sqrtParts m e
  roundMag fF32 .rne 0 false false r x rest

/-- 1 / √a for finite positive a. -/
def rsqrtPat (m : Nat) (e : Int) : Nat :=
  let m' := if e % 2 = 0 then m else 2 * m
  let e' := if e % 2 = 0 then e else e - 1
  let k := ilog2 m' + 64
  let r := isqrt (2 ^ (2 * k) / m')
  roundMag fF32 .rne 0 false false r (-(e' / 2) - k) (decide (r * r * m' ≠ 2 ^ (2 * k)))

/-- Fraction bits of the fixed-point evaluations. -/
def fixP : Nat := 320

/-- One in fixed point. -/
def fixOne : Nat := 2 ^ fixP

/-- ln 2 in fixed point: the sum of 1/(k 2^k). -/
def ln2Fix : Nat := (List.range 330).foldl (fun s k => s + fixOne / ((k + 1) * 2 ^ (k + 1))) 0

/-- The sum of z^(2j+1)/(2j+1) for j below n, with signs alternating where `alt` holds: arctangent or its hyperbolic
form. -/
def atanLoop (alt : Bool) (z2 : Nat) : Nat → Nat → Nat → Nat → Nat → Int
  | 0, _, _, p, q => (p : Int) - q
  | n + 1, j, w, p, q =>
    let t := w / (2 * j + 1)
    let w' := w * z2 / fixOne
    if alt && j % 2 = 1 then atanLoop alt z2 n (j + 1) w' p (q + t) else atanLoop alt z2 n (j + 1) w' (p + t) q

/-- atan(1/d) in fixed point. -/
def atanInv (d : Nat) : Int := atanLoop true (fixOne / (d * d)) 140 0 (fixOne / d) 0 0

/-- π in fixed point (Machin). -/
def piFix : Nat := (16 * atanInv 5 - 4 * atanInv 239).toNat

/-- e^x in fixed point for 0 ≤ x < 1: the sum of x^k/k!. -/
def expLoop (x : Nat) : Nat → Nat → Nat → Nat → Nat
  | 0, _, _, s => s
  | n + 1, k, t, s => expLoop x n (k + 1) (t * x / fixOne / (k + 1)) (s + t)

/-- sin x in fixed point for 0 ≤ x ≤ 2. -/
def sinLoop (x2 : Nat) : Nat → Nat → Nat → Nat → Nat → Nat
  | 0, _, _, p, q => p - q
  | n + 1, j, t, p, q =>
    let t' := t * x2 / fixOne / ((2 * j + 2) * (2 * j + 3))
    if j % 2 = 0 then sinLoop x2 n (j + 1) t' (p + t) q else sinLoop x2 n (j + 1) t' p (q + t)

/-- A finite value in fixed point, rounded down; exact for every FP32 value. -/
def toFix (m : Nat) (e : Int) : Nat := if e ≥ 0 then m * 2 ^ e.toNat * fixOne else m * fixOne / 2 ^ (-e).toNat

/-- 2^a for finite a (R235). -/
def exp2Pat (neg : Bool) (m : Nat) (e : Int) : Nat :=
  if m = 0 then roundMag fF32 .rne 0 false false 1 0 false
  else if (ilog2 m : Int) + e ≥ 9 then
    (if neg then 0 else fF32.infPat)
  else
    let x : Int := if neg then -(toFix m e : Int) else toFix m e
    let i := x / (fixOne : Int)
    let f := (x % (fixOne : Int)).toNat
    if f = 0 then roundMag fF32 .rne 0 false false 1 i false
    else roundMag fF32 .rne 0 false false (expLoop (f * ln2Fix / fixOne) 90 0 fixOne 0) (i - fixP) true

/-- log2 a for finite positive a (R235). -/
def log2Pat (m : Nat) (e : Int) : Nat :=
  let lg := (ilog2 m : Int) + e
  if m = 2 ^ ilog2 m then roundF fF32 .rne 0 false (FVal.ofInt lg)
  else
    let x := m * fixOne / 2 ^ ilog2 m
    let z := (x - fixOne) * fixOne / (x + fixOne)
    let ln := 2 * (atanLoop false (z * z / fixOne) 110 0 z 0 0)
    let v := lg * fixOne + ln * fixOne / ln2Fix
    roundMag fF32 .rne 0 false (decide (v < 0)) v.natAbs (-(fixP : Int)) true

/-- sin(π × t / 2^p) for a natural t and fraction bits p, as a pattern; `zneg` is the sign of a zero result. -/
def sinPiPat (zneg neg : Bool) (t p : Nat) : Nat :=
  let one := 2 ^ p
  let r := t % (2 * one)
  let flip := neg != decide (r ≥ one)
  let u := r % one
  let v := if 2 * u > one then one - u else u
  if v = 0 then fF32.signed zneg 0
  else if 2 * v = one then roundMag fF32 .rne 0 false flip 1 0 false
  else
    let x := v * piFix / one
    roundMag fF32 .rne 0 false flip (sinLoop (x * x / fixOne) 50 0 x 0 0) (-(fixP : Int)) true

/-- A magnitude m × 2^e as t / 2^p with p at least 1. -/
def asFrac (m : Nat) (e : Int) : Nat × Nat := if e ≥ 0 then (m * 2 ^ e.toNat * 2, 1) else (m * 2, (-e).toNat + 1)

/-- FRCP (R235). -/
def frcpPat : FVal → Nat
  | .nan => fF32.nan
  | .inf s => fF32.signed s 0
  | .fin s m e => if m = 0 then fF32.signed s fF32.infPat else recipPat s m e

/-- FRSQ (R235). -/
def frsqPat : FVal → Nat
  | .nan => fF32.nan
  | .inf s => if s then fF32.nan else 0
  | .fin s m e => if m = 0 then fF32.signed s fF32.infPat else if s then fF32.nan else rsqrtPat m e

/-- FSQRT (R235). -/
def fsqrtPat : FVal → Nat
  | .nan => fF32.nan
  | .inf s => if s then fF32.nan else fF32.infPat
  | .fin s m e => if m = 0 then fF32.signed s 0 else if s then fF32.nan else sqrtPat m e

/-- FEX2 (R235). -/
def fex2Pat : FVal → Nat
  | .nan => fF32.nan
  | .inf s => if s then 0 else fF32.infPat
  | .fin s m e => exp2Pat s m e

/-- FLG2 (R235). -/
def flg2Pat : FVal → Nat
  | .nan => fF32.nan
  | .inf s => if s then fF32.nan else fF32.infPat
  | .fin s m e => if m = 0 then fF32.signed true fF32.infPat else if s then fF32.nan else log2Pat m e

/-- FSIN (R235): an integer argument gives a zero with its sign. -/
def fsinPat : FVal → Nat
  | .nan | .inf _ => fF32.nan
  | .fin s m e =>
    if m = 0 then fF32.signed s 0
    else let (t, p) := asFrac m e; sinPiPat s s t p

/-- FCOS (R235), as sin(π(|a| + 1/2)); an odd multiple of 1/2 gives +0. -/
def fcosPat : FVal → Nat
  | .nan | .inf _ => fF32.nan
  | .fin _ m e => let (t, p) := asFrac m e; sinPiPat false false (t + 2 ^ (p - 1)) p

/-- Round(2^(x), f32, rne, 0) of an exact difference x (R243). -/
def exp2Of : FVal → Nat
  | .nan => fF32.nan
  | .inf s => if s then 0 else fF32.infPat
  | .fin s m e => exp2Pat s m e

/-- LSEMRG on one lane (R243): two quads of FP32 patterns (m, s, a0, a1) give the merged quad (DEDUCED, log 50). -/
def lseMerge (qa qb : Nat × Nat × Nat × Nat) : Nat × Nat × Nat × Nat :=
  let (ma, sa, a0, a1) := qa
  let (mb, sb, b0, b1) := qb
  let d := decodeF fF32
  let anyNan := [ma, sa, a0, a1, mb, sb, b0, b1].any fun x => (d x).isNan
  if anyNan || d ma = .inf false || d mb = .inf false then (fF32.nan, fF32.nan, fF32.nan, fF32.nan)
  else
    let m := if FVal.cmp (d ma) (d mb) < 0 then mb
      else if FVal.cmp (d ma) (d mb) = 0 then (if ma ≥ mb then mb else ma) else ma
    let w (x : Nat) : FVal :=
      if d x = .inf true then .fin false 0 0
      else decodeF fF32 (exp2Of (FVal.add .rne (d x) (d m).neg))
    let ca := w ma
    let cb := w mb
    let mix (x y : Nat) : Nat := roundN32 (FVal.add .rne (FVal.mul (d x) ca) (FVal.mul (d y) cb))
    (m, mix sa sb, mix a0 b0, mix a1 b1)

end Sys2Proof.Machine
end

