-- ==== Sys2Proof/Machine/FloatOps.lean ====
section
/-! DEFINITION. Float and conversion instructions (spec/09_scalar_vector_instructions.md R223, R232 to R243; spec/08_number_formats.md R206 to
R211). -/

namespace Sys2Proof.Machine

/-- A float source (R223): a short immediate is the integer it holds. -/
def srcF (g : Group) (o : Opnd) (l : Nat) : FVal := match o with
  | .im w => FVal.ofInt w.toInt
  | o => decodeF fF32 (srcN g o 32 l)

/-- The FP32 pattern of a source that an instruction returns unrounded (R234). -/
def srcPat (g : Group) (o : Opnd) (l : Nat) : Nat := match o with
  | .im w => roundN32 (FVal.ofInt w.toInt)
  | o => srcN g o 32 l

/-- An instruction that computes a 32-bit D in each active lane (R222: zero-extended in a uniform register). -/
def runF (h : Hdr) (d : Opnd) (lat : Nat) (s : State) (f : Group → Nat → Nat) : Host.Outcome State Fault Refusal :=
  withIssue h false s fun c =>
    resFixed c d 1 lat (runLanes c d fun g l => setDst g d 1 l (BitVec.ofNat 64 (f c.g l)))

/-- FADD (R233). -/
def execFadd (x : FBin) (s : State) : Host.Outcome State Fault Refusal :=
  runF x.h x.d 5 s fun g l => roundF fF32 x.rnd 0 false (FVal.add x.rnd (srcF g x.a l) (srcF g x.b l))

/-- FSUB (R233). -/
def execFsub (x : FBin) (s : State) : Host.Outcome State Fault Refusal :=
  runF x.h x.d 5 s fun g l => roundF fF32 x.rnd 0 false (FVal.add x.rnd (srcF g x.a l) (srcF g x.b l).neg)

/-- FMUL (R233). -/
def execFmul (x : FBin) (s : State) : Host.Outcome State Fault Refusal :=
  runF x.h x.d 5 s fun g l => roundF fF32 x.rnd 0 false (FVal.mul (srcF g x.a l) (srcF g x.b l))

/-- FFMA (R233): the product is not rounded. -/
def execFfma (x : FTern) (s : State) : Host.Outcome State Fault Refusal :=
  runF x.h x.d 5 s fun g l =>
    roundF fF32 x.rnd 0 false (FVal.add x.rnd (FVal.mul (srcF g x.a l) (srcF g x.b l)) (srcF g x.t l))

/-- The lesser or greater operand (R234), of two FP32 patterns. -/
def minMax (greater : Bool) (p q : Nat) : Nat :=
  let a := decodeF fF32 p
  let b := decodeF fF32 q
  if a.isNan && b.isNan then fF32.nan
  else if a.isNan then q
  else if b.isNan then p
  else
    let z := FVal.cmp a b
    let less := if z = 0 then decide (2 ^ 31 ≤ p) else decide (z < 0)
    if less == greater then q else p

/-- FMIN (R234). -/
def execFmin (x : FBin) (s : State) : Host.Outcome State Fault Refusal :=
  runF x.h x.d 5 s fun g l => minMax false (srcPat g x.a l) (srcPat g x.b l)

/-- FMAX (R234). -/
def execFmax (x : FBin) (s : State) : Host.Outcome State Fault Refusal :=
  runF x.h x.d 5 s fun g l => minMax true (srcPat g x.a l) (srcPat g x.b l)

/-- FCMP (R236). -/
def execFcmp (x : FCmpA) (s : State) : Host.Outcome State Fault Refusal :=
  withIssue x.h false s fun c => resFixed c x.d 1 5 (runLanes c x.d fun g l =>
    setP g x.d.tag l (fcmpCond x.cond (srcF c.g x.a l) (srcF c.g x.b l)))

/-- FRCP (R235). -/
def execFrcp (x : FUn) (s : State) : Host.Outcome State Fault Refusal :=
  runF x.h x.d 14 s fun g l => frcpPat (srcF g x.a l)

/-- FRSQ (R235). -/
def execFrsq (x : FUn) (s : State) : Host.Outcome State Fault Refusal :=
  runF x.h x.d 14 s fun g l => frsqPat (srcF g x.a l)

/-- FSQRT (R235). -/
def execFsqrt (x : FUn) (s : State) : Host.Outcome State Fault Refusal :=
  runF x.h x.d 14 s fun g l => fsqrtPat (srcF g x.a l)

/-- FEX2 (R235). -/
def execFex2 (x : FUn) (s : State) : Host.Outcome State Fault Refusal :=
  runF x.h x.d 14 s fun g l => fex2Pat (srcF g x.a l)

/-- FLG2 (R235). -/
def execFlg2 (x : FUn) (s : State) : Host.Outcome State Fault Refusal :=
  runF x.h x.d 14 s fun g l => flg2Pat (srcF g x.a l)

/-- FSIN (R235). -/
def execFsin (x : FUn) (s : State) : Host.Outcome State Fault Refusal :=
  runF x.h x.d 14 s fun g l => fsinPat (srcF g x.a l)

/-- FCOS (R235). -/
def execFcos (x : FUn) (s : State) : Host.Outcome State Fault Refusal :=
  runF x.h x.d 14 s fun g l => fcosPat (srcF g x.a l)

/-- FCLASS (R237). -/
def execFclass (x : FClassA) (s : State) : Host.Outcome State Fault Refusal :=
  withIssue x.h false s fun c => resFixed c x.d 1 5 (runLanes c x.d fun g l =>
    setP g x.d.tag l (x.mask.getLsbD (fclassBit (srcPat c.g x.a l))))

/-- FSCALE (R233): a × 2^k, k being B read as .s32. -/
def execFscale (x : FBin) (s : State) : Host.Outcome State Fault Refusal :=
  runF x.h x.d 5 s fun g l => roundF fF32 x.rnd 0 false ((srcF g x.a l).scale (srcI g x.b .s32 l))

/-! Packed pairs (R238). -/

/-- Element e of a packed source. -/
def srcHalf (f : Fmt) (g : Group) (o : Opnd) (e l : Nat) : FVal := match o with
  | .im w => FVal.ofInt w.toInt
  | o => decodeF f (fld (srcN g o 32 l) (16 * e) 16)

/-- Two results packed. -/
def packHalves (f : Nat → Nat) : Nat := f 0 + f 1 * 2 ^ 16

/-- PADD2 (R238). -/
def execPadd2 (x : FBin) (s : State) : Host.Outcome State Fault Refusal :=
  let f := Ty.fmt x.ty
  runF x.h x.d 5 s fun g l => packHalves fun e =>
    roundF f x.rnd 0 false (FVal.add x.rnd (srcHalf f g x.a e l) (srcHalf f g x.b e l))

/-- PMUL2 (R238). -/
def execPmul2 (x : FBin) (s : State) : Host.Outcome State Fault Refusal :=
  let f := Ty.fmt x.ty
  runF x.h x.d 5 s fun g l => packHalves fun e =>
    roundF f x.rnd 0 false (FVal.mul (srcHalf f g x.a e l) (srcHalf f g x.b e l))

/-- PFMA2 (R238). -/
def execPfma2 (x : FTern) (s : State) : Host.Outcome State Fault Refusal :=
  let f := Ty.fmt x.ty
  runF x.h x.d 5 s fun g l => packHalves fun e =>
    roundF f x.rnd 0 false
      (FVal.add x.rnd (FVal.mul (srcHalf f g x.a e l) (srcHalf f g x.b e l)) (srcHalf f g x.t e l))

/-! CVT (R239 to R242). -/

/-- The source of CVT (R241): an integer or a float value. -/
inductive CvtSrc where
  | int (z : Int)
  | flt (v : FVal)
  deriving DecidableEq, Repr

/-- Slot SSEL of the source (R239, R241). -/
def cvtSrc (g : Group) (x : CvtA) (l : Nat) : CvtSrc :=
  let w := x.sty.width
  let p := if w = 64 then (srcD g x.a 2 l).toNat else fld (srcD g x.a 1 l).toNat (w * x.ssel.toNat) w
  if x.sty.isInt then .int (toIntN w x.sty.isSigned p)
  else if x.sty = .e8m0 then .flt (e8m0Value p)
  else match x.a with
    | .im i => .flt (FVal.ofInt i.toInt)
    | _ => .flt (decodeF (Ty.fmt x.sty) p)

/-- The pattern CVT delivers at the destination's width, with the draw of stochastic rounding (R241, R242, R210). -/
def cvtPat (x : CvtA) (v : CvtSrc) (draw : Nat) : Nat :=
  let n := x.dty.width
  match v with
  | .int z =>
    if x.dty.isInt then ofIntN n (if x.sat then clampInt n x.dty.isSigned z else z)
    else roundF (Ty.fmt x.dty) x.rnd draw x.sat (FVal.ofInt z)
  | .flt v =>
    if x.dty = .e8m0 then toE8m0 (x.rnd == .ru) v
    else if x.dty.isInt then ofIntN n (roundInt x.rnd n x.dty.isSigned v)
    else roundF (Ty.fmt x.dty) x.rnd draw x.sat v

/-- Does a conversion draw from the generator: a stochastic rounding (R208, R211). -/
def cvtDraws (x : CvtA) : Bool := x.rnd == .sr

/-- CVT's write (R241): a narrow result goes into its slot, a wider one is extended. -/
def cvtPut (g : Group) (x : CvtA) (l p : Nat) : Group :=
  let n := x.dty.width
  if n < 32 then
    let old := (srcD g x.d 1 l).toNat
    let lo := n * x.dsel.toNat
    setDst g x.d 1 l (BitVec.ofNat 64 (old - fld old lo n * 2 ^ lo + p * 2 ^ lo))
  else if x.dty.isInt then setDst g x.d x.dty.regs l (BitVec.ofInt 64 (toIntN n x.dty.isSigned p))
  else setDst g x.d x.dty.regs l (BitVec.ofNat 64 p)

/-- CVT in one lane: a stochastic rounding advances the lane's SRSTATE (R211). -/
def cvtLane (x : CvtA) (g0 g : Group) (l : Nat) : Group :=
  let v := cvtSrc g0 x l
  if cvtDraws x then
    let r := srStep (stGet g0.sr l)
    cvtPut { g with sr := stSet g.sr l r } x l (cvtPat x v r.toNat)
  else cvtPut g x l (cvtPat x v 0)

/-- CVT (R239 to R242). -/
def execCvt (x : CvtA) (s : State) : Host.Outcome State Fault Refusal :=
  withIssue x.h false s fun c => resFixed c x.d x.dty.regs 6 (runLanes c x.d (cvtLane x c.g))

/-- The four FP32 patterns of a quad. -/
def quadOf (g : Group) (o : Opnd) (l : Nat) : Nat × Nat × Nat × Nat :=
  let n := o.vIdx
  ((getV g n l).toNat, (getV g (n + 1) l).toNat, (getV g (n + 2) l).toNat, (getV g (n + 3) l).toNat)

/-- Write four FP32 patterns to a quad. -/
def putQuad (g : Group) (o : Opnd) (l : Nat) (r : Nat × Nat × Nat × Nat) : Group :=
  let n := o.vIdx
  let put (g : Group) (i p : Nat) : Group := setV g (n + i) l (BitVec.ofNat 32 p)
  put (put (put (put g 0 r.1) 1 r.2.1) 2 r.2.2.1) 3 r.2.2.2

/-- LSEMRG (R243). -/
def execLsemrg (x : FBin) (s : State) : Host.Outcome State Fault Refusal :=
  withIssue x.h false s fun c => resFixed c x.d 4 16 (runLanes c x.d fun g l =>
    putQuad g x.d l (lseMerge (quadOf c.g x.a l) (quadOf c.g x.b l)))

end Sys2Proof.Machine
end

