-- ==== Sys2Proof/Machine/IntOps.lean ====
section
/-! DEFINITION. Integer instructions (spec/09_scalar_vector_instructions.md R222, R225 to R231). -/

namespace Sys2Proof.Machine

/-- An n-bit pattern extended to a register as its type says (R222). -/
def extendI (ty : Ty) (p : Nat) : DWord := BitVec.ofInt 64 (toIntN ty.width ty.isSigned p)

/-- The delivery of an exact value (R226): saturated or taken mod 2^n, then extended. -/
def deliverI (ty : Ty) (sat : Bool) (x : Int) : DWord :=
  extendI ty (ofIntN ty.width (if sat then clampInt ty.width ty.isSigned x else x))

/-- Latency of the simple integer instructions on a type (R186). -/
def intLat (ty : Ty) : Nat := if ty.width = 64 then 3 else 2

/-- An instruction that computes D in each active lane from the group's registers. -/
def runI (h : Hdr) (d : Opnd) (ty : Ty) (lat : Nat) (s : State) (f : Group → Nat → DWord) :
    Host.Outcome State Fault Refusal :=
  withIssue h false s fun c => resFixed c d ty.regs lat (runLanes c d fun g l => setDst g d ty.regs l (f c.g l))

/-- D A B on exact integers. -/
def intBin (x : IBin) (lat : Nat) (s : State) (f : Int → Int → Int) : Host.Outcome State Fault Refusal :=
  runI x.h x.d x.ty lat s fun g l => deliverI x.ty x.sat (f (srcI g x.a x.ty l) (srcI g x.b x.ty l))

/-- D A on exact integers. -/
def intUn (x : IUn) (lat : Nat) (s : State) (f : Int → Int) : Host.Outcome State Fault Refusal :=
  runI x.h x.d x.ty lat s fun g l => deliverI x.ty x.sat (f (srcI g x.a x.ty l))

/-- D A B on n-bit patterns. -/
def patBin (x : IBin) (lat : Nat) (s : State) (f : Nat → Nat → Nat) : Host.Outcome State Fault Refusal :=
  runI x.h x.d x.ty lat s fun g l => extendI x.ty (f (srcN g x.a x.ty.width l) (srcN g x.b x.ty.width l))

/-- D A on n-bit patterns. -/
def patUn (x : IUn) (lat : Nat) (s : State) (f : Nat → Nat) : Host.Outcome State Fault Refusal :=
  runI x.h x.d x.ty lat s fun g l => extendI x.ty (f (srcN g x.a x.ty.width l))

/-- IADD (R226). -/
def execIadd (x : IBin) (s : State) : Host.Outcome State Fault Refusal := intBin x (intLat x.ty) s fun a b => a + b

/-- ISUB (R226). -/
def execIsub (x : IBin) (s : State) : Host.Outcome State Fault Refusal := intBin x (intLat x.ty) s fun a b => a - b

/-- IMUL (R226). -/
def execImul (x : IBin) (s : State) : Host.Outcome State Fault Refusal := intBin x 5 s fun a b => a * b

/-- IMULH (R226): floor(a × b / 2^n). -/
def execImulh (x : IBin) (s : State) : Host.Outcome State Fault Refusal :=
  intBin x 5 s fun a b => a * b / (2 ^ x.ty.width : Nat)

/-- IMAD (R226). -/
def execImad (x : ITern) (s : State) : Host.Outcome State Fault Refusal :=
  runI x.h x.d x.ty 5 s fun g l =>
    deliverI x.ty x.sat (srcI g x.a x.ty l * srcI g x.b x.ty l + srcI g x.t x.ty l)

/-- IMIN (R226). -/
def execImin (x : IBin) (s : State) : Host.Outcome State Fault Refusal := intBin x (intLat x.ty) s fun a b => min a b

/-- IMAX (R226). -/
def execImax (x : IBin) (s : State) : Host.Outcome State Fault Refusal := intBin x (intLat x.ty) s fun a b => max a b

/-- IABS (R226). -/
def execIabs (x : IUn) (s : State) : Host.Outcome State Fault Refusal := intUn x (intLat x.ty) s fun a => a.natAbs

/-- INEG (R226). -/
def execIneg (x : IUn) (s : State) : Host.Outcome State Fault Refusal := intUn x (intLat x.ty) s fun a => -a

/-- AND (R226). -/
def execAnd (x : IBin) (s : State) : Host.Outcome State Fault Refusal := patBin x (intLat x.ty) s fun a b => a &&& b

/-- OR (R226). -/
def execOr (x : IBin) (s : State) : Host.Outcome State Fault Refusal := patBin x (intLat x.ty) s fun a b => a ||| b

/-- XOR (R226). -/
def execXor (x : IBin) (s : State) : Host.Outcome State Fault Refusal := patBin x (intLat x.ty) s fun a b => a ^^^ b

/-- ANDN (R226): a AND NOT b. -/
def execAndn (x : IBin) (s : State) : Host.Outcome State Fault Refusal :=
  patBin x (intLat x.ty) s fun a b => a &&& (2 ^ x.ty.width - 1 - b)

/-- NOT (R226). -/
def execNot (x : IUn) (s : State) : Host.Outcome State Fault Refusal :=
  patUn x (intLat x.ty) s fun a => 2 ^ x.ty.width - 1 - a

/-! Shifts and rotates (R227): the count is B[7:0]. -/

/-- SHL: 0 for a count of the width or more. -/
def shlN (n a c : Nat) : Nat := if n ≤ c then 0 else a * 2 ^ c % 2 ^ n
/-- SHR. -/
def shrN (n a c : Nat) : Nat := if n ≤ c then 0 else a / 2 ^ c
/-- SAR, whatever the type's signedness. -/
def sarN (n a c : Nat) : Nat := ofIntN n (toIntN n true a / (2 ^ min c n : Nat))
/-- ROL by the count mod n. -/
def rolN (n a c : Nat) : Nat := a * 2 ^ (c % n) % 2 ^ n + a / 2 ^ (n - c % n)

/-- A shift by B[7:0]. -/
def shiftOp (x : IBin) (s : State) (f : Nat → Nat → Nat → Nat) : Host.Outcome State Fault Refusal :=
  patBin x (intLat x.ty) s fun a b => f x.ty.width a (b % 256)

/-- SHL (R227). -/
def execShl (x : IBin) (s : State) : Host.Outcome State Fault Refusal := shiftOp x s shlN

/-- SHR (R227). -/
def execShr (x : IBin) (s : State) : Host.Outcome State Fault Refusal := shiftOp x s shrN

/-- SAR (R227). -/
def execSar (x : IBin) (s : State) : Host.Outcome State Fault Refusal := shiftOp x s sarN

/-- ROL (R227). -/
def execRol (x : IBin) (s : State) : Host.Outcome State Fault Refusal := shiftOp x s rolN

/-! Bit counts and fields. -/

/-- Number of one bits. -/
def popcN (n a : Nat) : Nat := ((List.range n).filter fun i => a.testBit i).length
/-- Leading zero bits; n for 0. -/
def clzN (n a : Nat) : Nat := if a = 0 then n else n - 1 - ilog2 a
/-- Bit n − 1 − i moved to bit i. -/
def brevN (n a : Nat) : Nat := (List.range n).foldl (fun r i => r + if a.testBit (n - 1 - i) then 2 ^ i else 0) 0
/-- BFX (R228) of pos and len. -/
def bfxN (n : Nat) (signed : Bool) (a pos len : Nat) : Nat :=
  if len = 0 ∨ n ≤ pos then 0
  else
    let l := min len (n - pos)
    ofIntN n (toIntN l signed (a / 2 ^ pos))
/-- BFI (R228). -/
def bfiN (n a t pos len : Nat) : Nat :=
  if len = 0 ∨ n ≤ pos then t
  else
    let l := min len (n - pos)
    t - fld t pos l * 2 ^ pos + fld a 0 l * 2 ^ pos

/-- POPC (R226). -/
def execPopc (x : IUn) (s : State) : Host.Outcome State Fault Refusal := patUn x 3 s fun a => popcN x.ty.width a

/-- CLZ (R226). -/
def execClz (x : IUn) (s : State) : Host.Outcome State Fault Refusal := patUn x 3 s fun a => clzN x.ty.width a

/-- BREV (R226). -/
def execBrev (x : IUn) (s : State) : Host.Outcome State Fault Refusal := patUn x 3 s fun a => brevN x.ty.width a

/-- BFX (R228). -/
def execBfx (x : IBin) (s : State) : Host.Outcome State Fault Refusal :=
  patBin x 3 s fun a b => bfxN x.ty.width x.ty.isSigned a (b % 256) (b / 256 % 256)

/-- BFI (R228). -/
def execBfi (x : ITern) (s : State) : Host.Outcome State Fault Refusal :=
  runI x.h x.d x.ty 3 s fun g l =>
    let n := x.ty.width
    let b := srcN g x.b n l
    extendI x.ty (bfiN n (srcN g x.a n l) (srcN g x.t n l) (b % 256) (b / 256 % 256))

/-- BSEL (R229): the result bytes, ascending. -/
def bselN (ctl a b : Nat) : Nat :=
  let byte (i : Nat) : Nat := if i < 4 then fld a (8 * i) 8 else fld b (8 * (i - 4)) 8
  let r := (List.range 4).foldl (fun (acc : Nat × Nat) i =>
    let v := if ctl.testBit (12 + i) then 0
      else if 1 ≤ i ∧ ctl.testBit (16 + i) then acc.2
      else byte (fld ctl (3 * i) 3)
    (acc.1 + v * 2 ^ (8 * i), v)) (0, 0)
  r.1

/-- BSEL (R229). -/
def execBsel (x : IBsel) (s : State) : Host.Outcome State Fault Refusal :=
  runI x.h x.d .n32 3 s fun g l => extendI .n32 (bselN x.ctl.toNat (srcN g x.a 32 l) (srcN g x.b 32 l))

/-- ICMP (R230). -/
def execIcmp (x : IBin) (s : State) : Host.Outcome State Fault Refusal :=
  withIssue x.h false s fun c => resFixed c x.d 1 (intLat x.ty) (runLanes c x.d fun g l =>
    setP g x.d.tag l (icmpCond x.x (srcI c.g x.a x.ty l) (srcI c.g x.b x.ty l)))

/-- LEA (R226): a + b × 2^s. -/
def execLea (x : IBin) (s : State) : Host.Outcome State Fault Refusal :=
  intBin x (intLat x.ty) s fun a b => a + b * (2 ^ x.x.toNat : Nat)

/-- IADDX (R231). -/
def execIaddx (x : ITern) (s : State) : Host.Outcome State Fault Refusal :=
  withIssue x.h false s fun c =>
    let n := x.ty.width
    let g := c.lanes.foldl (fun g l =>
      let r := addCarry n (x.x.getLsbD 0) (srcN c.g x.a n l) (srcN c.g x.b n l) (srcP c.g x.t l)
      setP (setDst g x.d x.ty.regs l (BitVec.ofNat 64 r.1)) x.t.tag l r.2) c.g
    done (putGroup c.s c.r g)
      (if c.any then outFixed c.s (keysOf x.d x.ty.regs ++ keysOf x.t 1) (intLat x.ty) else [])

end Sys2Proof.Machine
end

