-- ==== Sys2Proof/Machine/Collect.lean ====
section
/-! DEFINITION. Partitions and collectives (spec/06_execution_model.md R166, R167; spec/10_control_instructions.md R263 to R267). -/

namespace Sys2Proof.Machine

/-- SIZE code of a partition record (R166). -/
def partCode : PartSz → Nat
  | .sz4 => 1
  | .sz8 => 2
  | .sz16 => 3

/-- Does an entry wait in a collective on a partition. -/
def collOn (p : Nat) (e : Entry) : Bool := e.waits fun w => match w with
  | .coll i _ _ _ => collPart i == p
  | _ => false

/-- PART (R264). -/
def execPart (x : PartA) (s : State) : Host.Outcome State Fault Refusal :=
  withIssue x.h false s fun c =>
    let p := x.d.tag
    let fs := c.g.frontier ++ ((c.g.handler.map Handler.frontier).getD [])
    if !c.any then done c.s []
    else if fs.any (collOn p) then trapW cPARTN 2
    else done (modGroup c.s c.r fun g => { g with parts := lset g.parts p ⟨partCode x.size, c.act⟩ }) []

/-! Combination (R266, R267). -/

/-- A captured value of a lane. -/
def capOf (vs : List (Nat × BitVec 128)) (l : Nat) : BitVec 128 := ((vs.find? fun v => v.1 == l).map (·.2)).getD 0

/-- Combine on integers (R267): patterns of a type, ascending lanes. -/
def combineI (op : RedOp) (ty : Ty) (vs : List Nat) : Nat :=
  let n := ty.width
  let z (p : Nat) : Int := toIntN n ty.isSigned p
  let r := intRange n ty.isSigned
  match op with
  | .add => vs.foldl (fun a v => (a + v) % 2 ^ n) 0
  | .min => ofIntN n (vs.foldl (fun a v => min a (z v)) r.2)
  | .max => ofIntN n (vs.foldl (fun a v => max a (z v)) r.1)
  | .and => vs.foldl (fun a v => a &&& v) (2 ^ n - 1)
  | .or => vs.foldl (fun a v => a ||| v) 0
  | .xor => vs.foldl (fun a v => a ^^^ v) 0

/-- Combine on FP32 (R267): one rounding of the exact sum; R234 pairwise for the least and greatest. -/
def combineF (op : RedOp) (vs : List Nat) : Nat :=
  match op, vs with
  | .add, [] => 0
  | .add, v :: r => roundN32 (r.foldl (fun a w => FVal.add .rne a (decodeF fF32 w)) (decodeF fF32 v))
  | .min, [] => 0x7F800000
  | .min, v :: r => r.foldl (minMax false) v
  | .max, [] => 0xFF800000
  | .max, v :: r => r.foldl (minMax true) v
  | _, _ => 0

/-- Combine (R267), extended to the register's width. -/
def combine (op : RedOp) (ty : Ty) (vs : List (BitVec 128)) : DWord :=
  let ps := vs.map fun v => v.toNat % 2 ^ ty.width
  if ty = .f32 then BitVec.ofNat 64 (combineF op ps) else extendI ty (combineI op ty ps)

/-- The source lane of SHFL (R266), where it is a natural number. -/
def shflLane (m : ShflMode) (size base l b : Nat) : Option Nat := match m with
  | .idx => some (base + b % size)
  | .up => if b ≤ l then some (l - b) else none
  | .down => some (l + b)
  | .xor => some (base + ((l - base) ^^^ b))

/-- The result of a collective in a participant (R266): `q` are the participants of its sub-group, ascending. -/
def collLane (i : Instr) (size base : Nat) (q : List Nat) (av bv : List (Nat × BitVec 128)) (g : Group) (l : Nat) : Group :=
  let a := capOf av
  let b := (capOf bv l).toNat % 2 ^ 32
  let t (j : Nat) : Bool := (a j).getLsbD 0
  match i with
  | .vote x => match x.mode with
    | .all => setP g x.d.tag l (q.all t)
    | .any => setP g x.d.tag l (q.any t)
    | .uni => setP g x.d.tag l (q.all t || !q.any t)
    | .ballot => setDst g x.d 1 l ((maskOf (q.filter t)).setWidth 64)
  | .shfl x =>
    let src := match shflLane x.mode size base l b with
      | some j => if q.contains j then j else l
      | none => l
    setDst g x.d (if x.wide then 2 else 1) l ((a src).setWidth 64)
  | .bcast x =>
    let j := base + b % size
    if !q.contains j then g
    else match x.w with
      | .b32 => setDst g x.d 1 l ((a j).setWidth 64)
      | .b64 => setDst g x.d 2 l ((a j).setWidth 64)
      | .b128 => setQ g x.d l (a j)
  | .reduce x => setDst g x.d x.ty.regs l (combine x.op x.ty (q.map a))
  | .scan x =>
    let before := q.filter fun j => if x.excl then decide (j < l) else decide (j ≤ l)
    setDst g x.d x.ty.regs l (combine x.op x.ty (before.map a))
  | _ => g

/-- The combination in every sub-group that the entry's lanes stand in (R265). -/
def collRun (i : Instr) (g : Group) (act : LaneMask) (av bv : List (Nat × BitVec 128)) : Group :=
  let p := partOf g (collPart i)
  p.bases.foldl (fun g b =>
    let q := lanesOf (act &&& p.mem &&& subMask p.lanes b)
    q.foldl (collLane i p.lanes b q av bv) g) g

/-- The lanes of the sub-groups that a mask touches. -/
def subsOf (p : Part) (mask : LaneMask) : LaneMask :=
  p.bases.foldl (fun m b => if mask &&& subMask p.lanes b = 0 then m else m ||| subMask p.lanes b) 0

/-- The edges of a collective (R158; DEDUCED, log 74): in each sub-group, what its participants do from now on follows what each of
them had done. -/
def collJoin (s : State) (r : GroupRef) (i : Instr) (act : LaneMask) (g : Group) : Group :=
  if noOrder s then g
  else
    let p := partOf g (collPart i)
    p.bases.foldl (fun g' b =>
      let q := act &&& p.mem &&& subMask p.lanes b
      addPast q (beforeOf s r g q) g') g

/-- A collective is over in a group (R265, R430): results written, skips used up. -/
def collEnd (i : Instr) (g : Group) (e : Entry) (act : LaneMask) (av bv : List (Nat × BitVec 128)) : Group :=
  let g' := collRun i g act av bv
  let subs := subsOf (partOf g (collPart i)) e.mask
  let left := g'.skipped.map fun x => if x.1 = e.pc ∧ x.2.1 = e.prio then (x.1, x.2.1, x.2.2 &&& ~~~subs) else x
  { g' with skipped := left.filter fun x => x.2.2 != 0 }

/-- The destination's registers of a collective. -/
def collKeys : Instr → List RegKey
  | .vote x => keysOf x.d 1
  | .shfl x => keysOf x.d (if x.wide then 2 else 1)
  | .bcast x => keysOf x.d x.w.regs
  | .reduce x => keysOf x.d x.ty.regs
  | .scan x => keysOf x.d x.ty.regs
  | _ => []

/-- What an entry brings to a collective: its lanes, those that are active, and A and B as each active lane read them. -/
structure Arrived where
  e : Entry
  act : LaneMask
  av : List (Nat × BitVec 128)
  bv : List (Nat × BitVec 128)
  rest : List Entry

/-- The entries of a frontier that wait in a collective where an entry stands and share a sub-group with it join it (R167). -/
def joinOnce (p : Part) (a : Arrived) : Arrived :=
  a.rest.foldl (fun acc x => match x.st with
    | .waiting (.coll _ act av bv) _ =>
      if x.pc = a.e.pc ∧ x.prio = a.e.prio ∧ x.mask &&& subsOf p acc.e.mask ≠ 0 then
        { acc with e := { acc.e with mask := acc.e.mask ||| x.mask }, act := acc.act ||| act, av := acc.av ++ av, bv := acc.bv ++ bv }
      else { acc with rest := acc.rest ++ [x] }
    | _ => { acc with rest := acc.rest ++ [x] }) { a with rest := [] }

/-- Every entry joins that can. -/
def joinColl (p : Part) (a : Arrived) : Arrived := (List.range a.rest.length).foldl (fun a _ => joinOnce p a) a

/-- A collective (R265): an undefined partition traps, whatever the guard but for one that is true in no lane (R181); the
operands of each active lane are read at issue; the entries at its PC and PRIO join; with every sub-group converged it
completes, else the joined entry waits (DEDUCED, log 38). -/
def collective (c : Ctx) (i : Instr) (a : Nat → BitVec 128) (b : Nat → BitVec 128) : Res :=
  let p := partOf c.g (collPart i)
  if p.lanes = 0 then (if (hdrOf i).neg && (hdrOf i).gp = 7 then done c.s [] else .trap ⟨cPARTN, 1, none, 0, 0, true⟩)
  else
    let j := joinColl p ⟨⟨c.u.pc, c.u.prio, c.u.mask, 0, .ready⟩, c.act, c.lanes.map (fun l => (l, a l)), c.lanes.map (fun l => (l, b l)),
      others c.u (frontOf c.g)⟩
    let e := j.e
    if converged c.g (e :: j.rest) e.pc e.prio e.mask (collPart i) then
      .ok (tick (putGroup c.s c.r (collJoin c.s c.r i j.act (collEnd i c.g e j.act j.av j.bv))))
        (.placed (addReady j.rest ⟨nextPc e.pc, e.prio, e.mask, 0, .ready⟩))
        (if j.act = 0 then [] else outFree c.s (collKeys i)) none
    else .ok c.s (.placed (j.rest ++ [{ e with st := .waiting (.coll i j.act j.av j.bv) c.s.cycle }])) [] none

/-- VOTE (R266). -/
def execVote (x : VoteA) (s : State) : Host.Outcome State Fault Refusal :=
  withIssue x.h false s fun c => collective c (.vote x) (fun l => if srcP c.g x.a l then 1 else 0) (fun _ => 0)

/-- SHFL (R266). -/
def execShfl (x : ShflA) (s : State) : Host.Outcome State Fault Refusal :=
  withIssue x.h false s fun c =>
    collective c (.shfl x) (fun l => (srcD c.g x.a (if x.wide then 2 else 1) l).setWidth 128)
      (fun l => (srcD c.g x.b 1 l).setWidth 128)

/-- REDUCE (R266, R267). -/
def execReduce (x : ReduceA) (s : State) : Host.Outcome State Fault Refusal :=
  withIssue x.h false s fun c =>
    collective c (.reduce x) (fun l => (srcD c.g x.a x.ty.regs l).setWidth 128) (fun _ => 0)

/-- SCAN (R266, R267). -/
def execScan (x : ScanA) (s : State) : Host.Outcome State Fault Refusal :=
  withIssue x.h false s fun c =>
    collective c (.scan x) (fun l => (srcD c.g x.a x.ty.regs l).setWidth 128) (fun _ => 0)

/-- BCAST (R266). -/
def execBcast (x : BcastA) (s : State) : Host.Outcome State Fault Refusal :=
  withIssue x.h false s fun c =>
    collective c (.bcast x)
      (fun l => if x.w = .b128 then srcQ c.g x.a l else (srcD c.g x.a x.w.regs l).setWidth 128)
      (fun l => (srcD c.g x.b 1 l).setWidth 128)

/-- COLLECTIVE_CONVERGE (R167): the entry of a lane that waits in a converged collective goes on. -/
def execCollectiveConverge (r : GroupRef) (lane : Nat) (s : State) : Host.Outcome State Fault Refusal :=
  match wakeable s r with
  | none => .next s
  | some g =>
    let f := frontOf g
    match f.find? fun e => e.mask.getLsbD lane && g.pendTrap.isNone && collReady g f e with
    | none => .next s
    | some e => match e.st with
      | .waiting (.coll i act av bv) _ =>
        let s' := modGroup s r fun _ => setFront (collJoin s r i act (collEnd i (closeAll i g) e act av bv))
          (addReady (f.filter fun x => x != e) ⟨nextPc e.pc, e.prio, e.mask, 0, .ready⟩)
        .next (freshRegs s' r (regsWritten g i act))
      | _ => .next s

end Sys2Proof.Machine
end

