-- ==== Sys2Proof/Machine/Tree.lean ====
section
/-! DEFINITION. The tree operations on a logical device (spec/02_translation_trees.md R47 to R60;
spec/20_system_instructions.md R394), shared by the instructions and by the harts' ports. -/

namespace Sys2Proof.Machine

/-- A tree operation's end: a cause and detail, or the next machine. -/
abbrev TreeRes := Except (Nat × Nat) State

/-- TREEOP with the lowest failing detail (R53), or none. -/
def treeErr (checks : List (Nat × Bool)) : Option (Nat × Nat) :=
  ((checks.filter (·.2)).map (·.1)).min?.map fun d => (cTREEOP, d)

/-- What a valid entry names (R394): a node, a counted frame, or something without a count. -/
inductive Named where
  | node (pa : Nat) | frame (pa : Nat) | other
  deriving DecidableEq, Repr

/-- The class of an entry; an entry with V 0 names nothing. -/
def entNames (s : State) (e : Nat) : Named :=
  if !bit1 e 0 then .other
  else if namesNode s e then .node (entNode e)
  else if frameCounted s (entFrame e) then .frame (entFrame e)
  else .other

/-- The COUNT of what an entry names. -/
def namedCount (s : State) : Named → Nat
  | .node n => nodeCount s n
  | .frame f => frameCount s f
  | .other => 0

/-- Set it. -/
def setNamedCount (s : State) (x : Named) (c : Nat) : State := match x with
  | .node n => setNode s n (nodeState s n) c
  | .frame f => setFrameCount s f c
  | .other => s

/-- Is an address no node of the logical device, or a free one. -/
def nodeFree (s : State) (ld pa : Nat) : Bool := !isNodeOf s ld pa || nodeState s pa == 0

/-- The valid entries of a node. -/
def nodeEntries (s : State) (n : Nat) : List Nat := ((List.range 1024).map fun i => nodeEntry s n i).filter fun e => bit1 e 0

/-- TNODE (R52): a private copy of a node, or a zeroed node. -/
def treeTnode (s : State) (ld d : Nat) (src : Option Nat) : TreeRes :=
  let es := match src with
    | none => []
    | some n => nodeEntries s n
  let badDst := !isNodeOf s ld d || nodeState s d != 0
  let badSrc := match src with
    | none => false
    | some n => nodeFree s ld n
  let big := !badSrc && es.any fun e =>
    let x := entNames s e
    x != .other && 2 ^ 32 ≤ namedCount s x + (es.filter fun y => entNames s y == x).length
  match treeErr [(1, badDst), (2, badSrc), (6, big)] with
  | some e => .error e
  | none =>
    let s := match src with
      | none => hwWrite s d (List.replicate 8192 0)
      | some n => hwWrite (tableRead s n 8192) d (peekBytes s n 8192)
    let s := es.foldl (fun s e => let x := entNames s e; setNamedCount s x (namedCount s x + 1)) s
    .ok (setNode s d 1 0)

/-- Reserved bits of an entry at a level (R39, R40). -/
def entReserved (level e : Nat) : Bool := fld e 52 12 != 0 || (if level = 3 then fld e 11 5 != 0 else fld e 1 12 != 0)

/-- Does a valid leaf not fit (R53, detail 3; R46): management code may map every device register, others their own queue
block. An operation on LD 0 is management code's, whoever performs it (DESIGN CHOICE, log 65). -/
def leafUnfit (s : State) (ld : Nat) (e : Nat) : Bool :=
  let f := entFrame e
  let tier := fld e 9 2
  let size := bit1 e 8
  let regs := areaOf f == .regs
  (frameCounted s f && (frameKind s f != 0 || frameOwner s f != ld)) ||
  (regs && (tier != 0 || size || bit1 e 5 || bit1 e 7 || !bit1 e 6 || bit1 e 3 || (ld != 0 && f != 0xFF0000000000 + ld * 2 ^ 16))) ||
  tier == 3 || (size && fld f 16 5 != 0) || (bit1 e 5 && !(size && bit1 e 6 && tier == 0))

/-- A count falls by one (R52): at zero a node is released and a frame's record appended. -/
def dropNamed (s : State) (ld : Nat) (x : Named) : State :=
  match x with
  | .node n => dropNodeCount s ld n
  | .frame f =>
    let r := dropFrameCount s f
    match (ldOf r.1 ld).reclaim, r.2 with
    | [], [.append w] => if ringRoom r.1 ld then ringAppend r.1 ld w else addReclaim r.1 ld r.2
    | _, ws => addReclaim r.1 ld ws
  | .other => s

/-- TSET (R52). -/
def treeTset (s : State) (ld n : Nat) (idx : Nat) (level : Nat) (e : Nat) : TreeRes :=
  if entReserved level e then .error (cRSVFLD, 2)
  else
    let old := entNames s (nodeEntry s n idx)
    let new := entNames s e
    let unfit := bit1 e 0 && (if level = 3 then leafUnfit s ld e else nodeFree s ld (entNode e))
    let badNode := !isNodeOf s ld n || nodeState s n != 1
    match treeErr [(1, badNode), (3, decide (1023 < idx) || unfit),
        (6, new != .other && new != old && 2 ^ 32 ≤ namedCount s new + 1)] with
    | some x => .error x
    | none =>
      let s := hwWrite s (n + 8 * idx) (bytesOf e 8)
      if new = old then .ok s
      else .ok (dropNamed (setNamedCount s new (namedCount s new + 1)) ld old)

/-- Publish the private nodes of a list and what they lead to through private nodes (R52); `fuel` bounds the entries of all
nodes. -/
def publishAll : Nat → List Nat → State → State
  | 0, _, s => s
  | _, [], s => s
  | fuel + 1, n :: rest, s =>
    if nodeState s n = 1 then
      let kids := (nodeEntries s n).filterMap fun e => match entNames s e with
        | .node k => some k
        | _ => none
      publishAll fuel (kids ++ rest) (setNode s n 2 (nodeCount s n))
    else publishAll fuel rest s

/-- Would another generation pass the publish counter's end (R53, detail 5). -/
def pubFull (d : LDev) : Bool := 2 ^ 48 - 1 < d.pubNext + 1

/-- A slot receives a root with the next generation (R47, R52) and the accesses that its publisher made before (R51). -/
def fillSlot (s : State) (ld k n : Nat) (past : List Nat) : State :=
  let s := setNode s n (nodeState s n) (nodeCount s n + 1)
  modLd s ld fun d => { d with pubNext := d.pubNext + 1, slots := lset d.slots k ⟨true, d.pubNext, 0, k, n, past⟩ }

/-- Must a slot's root go to a retired record while none is free (R53, detail 4). -/
def retireFull (s : State) (ld k : Nat) : Bool :=
  let r := (ldOf s ld).slots.getD k emptyRoot
  r.full && r.pins != 0 && !retiredFree s ld

/-- RSWAP (R52): the machine and the generation, 0 where the expected one does not match; `past` are the accesses that the
publishing thread made before (R51). -/
def treeRswap (s : State) (ld k n x : Nat) (past : List Nat) : Except (Nat × Nat) (State × Nat) :=
  let d := ldOf s ld
  let r := d.slots.getD k emptyRoot
  let hit := k < 64 && (if r.full then r.gen == x else x == 0)
  match treeErr [(2, nodeFree s ld n), (4, hit && retireFull s ld k), (5, hit && pubFull d),
      (6, hit && !nodeFree s ld n && decide (2 ^ 32 ≤ nodeCount s n + 1)), (7, decide (63 < k))] with
  | some e => .error e
  | none =>
    if hit then
      let s := publishAll (2 ^ 37) [n] s
      let s := setNode s n (nodeState s n) (nodeCount s n + 1)
      let s := if r.full then retireRoot s ld k else s
      let s := setNode s n (nodeState s n) (nodeCount s n - 1)
      .ok (fillSlot s ld k n past, d.pubNext)
    else .ok (s, 0)

/-- RCOPY (R52): the machine and the new generation. -/
def treeRcopy (s : State) (ld j k : Nat) (past : List Nat) : Except (Nat × Nat) (State × Nat) :=
  let d := ldOf s ld
  let src := d.slots.getD k emptyRoot
  let bad := decide (63 < j) || decide (63 < k) || (d.slots.getD j emptyRoot).full || !src.full
  match treeErr [(5, pubFull d), (6, !bad && decide (2 ^ 32 ≤ nodeCount s src.root + 1)), (7, bad)] with
  | some e => .error e
  | none => .ok (fillSlot s ld j src.root past, d.pubNext)

/-- RDROP, slot form (R52). -/
def treeRdrop (s : State) (ld k : Nat) : TreeRes :=
  match treeErr [(4, decide (k < 64) && retireFull s ld k),
      (7, decide (63 < k) || !((ldOf s ld).slots.getD k emptyRoot).full)] with
  | some e => .error e
  | none => .ok (retireRoot s ld k)

/-- RDROP, node form (R52): a private node with COUNT 0 is released. -/
def treeRdropNode (s : State) (ld n : Nat) : TreeRes :=
  if !isNodeOf s ld n || nodeState s n != 1 || nodeCount s n != 0 then .error (cTREEOP, 1)
  else
    let r := releaseNode s ld n
    .ok (addReclaim r.1 ld r.2)

/-- TINV (R60): generation 0 removes every leaf translation and walk-cache entry of the logical device, another the leaf
translations tagged with it. -/
def treeTinv (s : State) (ld gen : Nat) : TreeRes :=
  .ok (dropCached s ld fun c => gen = 0 || c.gen == some gen)

/-! Moves of pages (R64 to R66). -/

/-- The leaf that maps an address in the current root of a slot. -/
def slotLeaf (s : State) (ld slot va : Nat) : Option Nat :=
  let r := (ldOf s ld).slots.getD slot emptyRoot
  if !r.full then none
  else match walkDown s ld r.gen va 3 r.root [] with
    | .leaf e _ => if bit1 e 0 then some e else none
    | .err _ _ => none

/-- Does a leaf map its page where a move would take it. -/
def leafThere (toHost : Bool) (frame e : Nat) : Bool := if toHost then entFrame e == frame else isHbm (entFrame e)

/-- Are two requests for one page. -/
def samePage (m n : Migration) : Bool := m.ld == n.ld && m.slot == n.slot && m.va / 2 ^ 16 == n.va / 2 ^ 16

/-- Does a request reach the arbiter before another of the opposite side: a tie goes to the host (R65). -/
def asksFirst (m n : Migration) : Bool :=
  m.since < n.since || (m.since == n.since && (m.toHost || (!n.toHost && m.id < n.id)))

/-- Has a page moved within the last two sampling intervals (R65) (DEDUCED, log 22). -/
def movedLately (s : State) (m : Migration) : Bool :=
  s.moved.any fun p => p.1 == m.ld && p.2.1 == m.slot && p.2.2.1 == m.va / 2 ^ 16 && (s.hot.getD 0 ⟨[], [], 0⟩).ivl < p.2.2.2 + 2

/-- One request after a root has been published for its slot (R65, R66): where its page now lies where it wants it, it has moved
it, unless it was there before or is held; a competing request loses; a promotion whose launch has completed is late. -/
def settleMove (s : State) (m : Migration) : State :=
  let there := match slotLeaf s m.ld m.slot m.va with
    | some e => leafThere m.toHost m.frame e
    | none => false
  let beaten := s.migrations.any fun n => samePage m n && n.toHost != m.toHost && n.st == .asked && asksFirst n m
  if !there || m.was || m.st != .asked || movedLately s m || beaten then s
  else
    let s := { s with
      migrations := (s.migrations.map fun n =>
        if n.id == m.id then { n with st := .won }
        else if samePage m n && n.toHost != m.toHost && n.st == .asked then { n with st := .lost } else n).filter fun n =>
          !(n.grid.isSome && n.st != .asked)
      moved := (m.ld, m.slot, m.va / 2 ^ 16, (s.hot.getD 0 ⟨[], [], 0⟩).ivl) ::
        s.moved.filter fun p => !(p.1 == m.ld && p.2.1 == m.slot && p.2.2.1 == m.va / 2 ^ 16) }
    match m.grid with
    | none => s
    | some g =>
      if m.toHost || s.grids.any fun x => x.ld == m.ld && x.id == g then s
      else setLdReg s m.ld 5 (ldReg s m.ld 5 + 1)

/-- The requests for a slot's pages after a root has been published there. -/
def settleMoves (s : State) (ld slot : Nat) : State :=
  (s.migrations.filter fun m => m.ld == ld && m.slot == slot).foldl settleMove s

/-- A far access of a grid has met a page that lies outside the device and does not permit it: its fault may ask for the page to be moved
towards the device (R65). Which faults ask is open (DEDUCED, log 22). -/
def askMove (s : State) (ld slot va grid : Nat) : State :=
  match slotLeaf s ld slot va with
  | none => s
  | some e =>
    let asked := s.migrations.any fun m => m.ld == ld && m.slot == slot && m.va / 2 ^ 16 == va / 2 ^ 16 && m.grid == some grid
    if isHbm (entFrame e) || bit1 e 5 || bit1 e 6 || asked then s
    else if Config.freeBool s.frees then
      let m : Migration := ⟨s.nextId, ld, slot, va, false, 0, false, some grid, s.cycle, .asked, 0, 0, 0, 0⟩
      { s with frees := s.frees + 1, nextId := s.nextId + 1, migrations := s.migrations ++ [m] }
    else { s with frees := s.frees + 1 }

/-- What translation caches may hold of a sector that is about to be written past the tree operations (R59, R60): its entries as
walk-cache entries, and as leaf translations of every generation that is pinned. -/
def cacheSector (s : State) (sec : Nat) : State :=
  let pa := 32 * sec
  let n := pa / 2 ^ 13 * 2 ^ 13
  if frameKind s pa ≠ 1 ∨ nodeState s n ≠ 2 then s
  else
    let ld := frameOwner s pa
    let gens := (((ldOf s ld).slots ++ (ldOf s ld).retired).filter RootRec.full).map fun r => some r.gen
    let new := (List.range 4).flatMap fun i => (none :: gens).map fun g =>
      (⟨g, n, pa % 2 ^ 13 / 8 + i, nodeEntry s n (pa % 2 ^ 13 / 8 + i)⟩ : Cached)
    modLd s ld fun d => { d with tcache := d.tcache ++ new.filter fun c => !d.tcache.contains c }

end Sys2Proof.Machine
end

