-- ==== Sys2Proof/Machine/Reset.lean ====
section
/-! DEFINITION. Power, package reset, reset of a logical device, system-call replies: the operations shared by instructions,
registers and events (spec/00_scope.md R11, R12; spec/22_traps_faults.md R440, R441; spec/25_host_and_fabric.md R449 to R461;
spec/20_system_instructions.md R388). -/

namespace Sys2Proof.Machine

/-- A move of an agent of the package: nothing comes about while the package is off or halted (R12). -/
def agent (s : State) (f : State → State) : Host.Outcome State Fault Refusal :=
  .next (if s.power.on && !s.power.halted then f s else s)

/-! The package. -/

/-- The package after power-on (R460): memory outside the package keeps its bytes, HBM lists none. -/
def powered (s : State) (on : Bool) : State :=
  { State.reset with
    mem := s.mem.filter fun c => !isHbm c.1
    drives := s.drives, driveWritten := s.driveWritten
    power := ⟨on, false, false, [], false⟩
    agenda := s.agenda, choices := s.choices, frees := s.frees, nextId := s.nextId }

/-- Step 1 of a package reset (R461): everything stops. -/
def packageStop (s : State) : State :=
  { s with
    grids := [], gangs := [], teams := [], dying := [], reqs := [], memOps := [], netOps := [], far := [], rels := [], hist := [], joins := []
    arDone := [], migrations := []
    lds := s.lds.map fun d => { d with queues := d.queues.map fun q => { q with en := false, live := [], loops := [], waiting := none } }
    issuing := none
    power := { s.power with halted := true, resetWait := true } }

/-- Steps 3 and 4 (R461): power-on contents, every HBM line clear-pending. -/
def packageBoot (s : State) : State :=
  { State.reset with
    cycle := s.cycle
    mem := s.mem, ecc := s.ecc, clearPend := [(0, 2 ^ 32)]
    straitUp := s.straitUp, ethUp := s.ethUp
    drives := s.drives, driveCache := s.driveCache, driveWritten := s.driveWritten
    agenda := s.agenda, choices := s.choices, frees := s.frees, nextId := s.nextId }

/-- A package reset goes on once no die is at or above 105 °C (R461, step 2). -/
def packageCool (s : State) : State := if s.power.resetWait && s.power.hotDies.isEmpty then packageBoot s else s

/-- A package reset starts (R461). -/
def packageReset (s : State) : State := if s.power.on then packageCool (packageStop s) else s

/-! Reset of a logical device (R440). -/

/-- The saves of a logical device's gangs in shadow stores, and its stores in Partition state, are to be zeroed (R92). -/
def leaveShadow (s : State) (n : Nat) : State :=
  ((s.gangs.filter fun k => k.r.ld == n).filterMap (fun k => k.place.cluster) ++ (s.shadow.filter fun p => p.2 == n).map Prod.fst).foldl
    (fun s c => addStale s n 6 c 0 2621440) s

/-- Quiesce and Stop: queues, grids, gangs and teams of a logical device. What its teams have issued is performed or discarded (R149); its
pins go without reclamation. -/
def ldStop (s : State) (n : Nat) : State :=
  let s := modLd s n fun d => { d with
    queues := d.queues.map fun q =>
      { q with en := false, head := 0, tail := 0, err := false, loops := [], live := [], waiting := none, past := [] }
    reclaim := [], resetting := true }
  let s := removeTeams (leaveShadow s n) fun t => t.r.ld == n
  { s with
    grids := s.grids.filter fun g => g.ld != n
    gangs := s.gangs.filter fun k => k.r.ld != n
    unfit := s.unfit.filter fun x => x.1 != n
    migrations := s.migrations.filter fun m => m.ld != n
    moved := s.moved.filter fun m => m.1 != n
    issuing := s.issuing.filter fun u => u.r.team.ld != n }

/-- Are requests of a logical device still to be performed or discarded (Drain). -/
def ldBusy (s : State) (n : Nat) : Bool :=
  s.far.any (fun f => f.r.team.ld == n) || s.reqs.any (fun q => q.r.team.ld == n && q.underway) || s.memOps.any (fun m => m.t.ld == n) ||
  s.netOps.any (fun o => o.ld == n) || s.dying.any fun t => t.r.ld == n

/-- Frames, by physical address, whose frame-table entry may be nonzero: those with a listed byte or check word (R43). -/
def listedFrames (s : State) : List Nat :=
  let base := pkgReg s 0x402
  let top := base + 2 ^ 26 + 8 * pkgReg s 0x812
  let as := s.mem.map (·.1) ++ s.ecc.flatMap fun c => (List.range 4).map fun i => 32 * c.1 + 8 * i
  ((as.filter fun a => base ≤ a && a < top).map fun a =>
    let k := (a - base) / 8
    if k < 2 ^ 23 then k * 2 ^ 16 else (k - 2 ^ 23 + 2 ^ 33) * 2 ^ 16).dedup

/-- Trees: slots and records empty, nodes free, every COUNT 0. -/
def ldTrees (s : State) (n : Nat) (frames : List Nat) : State :=
  let s := frames.foldl (fun s f =>
    let s := if frameKind s f = 1 then (List.range 8).foldl (fun s i => setNode s (f + 8192 * i) 0 0) s else s
    setFrameCount s f 0) s
  modLd s n fun d => { d with
    pubNext := 1, slots := List.replicate 64 emptyRoot, retired := List.replicate 256 emptyRoot, reclaim := [], images := [], gridCtr := 1
    tcache := [] }

/-- Registers: the supervisor registers of R397 and five words of the queue block. -/
def ldRegs (s : State) (n : Nat) : State :=
  modLd s n fun d => { d with
    preg := stSetAll d.preg [(0x1, 0), (0x2, 0), (0x3, 0), (0x5, 0)]
    qb := stSetAll d.qb [(0x240, 0), (0x248, 0), (0x250, 50), (0x260, 0), (0x268, 0)] }

/-- Clear: frames become clear-pending; no read finds what they held, in a die cache or before a write. -/
def ldClear (s : State) (frames : List Nat) : State :=
  let mine (pa : Nat) : Bool := frames.contains (pa / 65536 * 65536)
  { s with
    clearPend := s.clearPend ++ frames.map fun f => (f / 128, f / 128 + 512)
    dcache := s.dcache.filter fun d => !mine (128 * d.line)
    hist := s.hist.filter fun w => !mine w.loc
    rels := s.rels.filter fun t => !mine t.pa
    kvPages := s.kvPages.filter fun f => !mine (65536 * f) }

/-- Scrub, Trees, Registers, Clear: the reset completes (R440, R92, R399, R450, R462): waiting entries move on. -/
def ldFinish (s : State) (n : Nat) : State :=
  let frames := (listedFrames s).filter fun f => frameOwner s f == n
  let s := ldClear (ldRegs (ldTrees { zeroLd s n with shadow := s.shadow.filter fun p => p.2 != n } n frames) n) frames
  let s := modLd s n fun d => { d with resetting := false }
  let s := { s with teams := s.teams.map fun t => { t with groups := t.groups.map (wakeIf fun e => e.waits fun w => match w with
      | .ldreset k => k == n
      | _ => false) } }
  raiseMsix (logEvent s 0x0B 0 0 n 0 0) n 1

/-! Replies to system calls (R388, R390). -/

/-- The calls of a group with an active lane: lowest active lane, service and arguments. -/
def sysCalls (g : Group) : List (Nat × Nat × DWord × DWord) := g.frontier.filterMap fun e => match e.st with
  | .waiting (.sys act _ svc a0 a1) _ => if act = 0 then none else some (lowest act, svc, a0, a1)
  | _ => none

/-- The call of the lowest lane. -/
def lowestCall : List (Nat × Nat × DWord × DWord) → Option (Nat × Nat × DWord × DWord)
  | [] => none
  | x :: r => match lowestCall r with
    | none => some x
    | some y => if y.1 < x.1 then some y else some x

/-- The supplying group's calls: the lowest-numbered group that has an active lane (R387). -/
def supplyingCall (t : Team) : Option (Nat × Nat × DWord × DWord) :=
  let gs := t.groups.filter fun g => !(sysCalls g).isEmpty
  ((gs.map Group.id).min?.bind (groupIn t)).bind fun g => lowestCall (sysCalls g)

/-- The value goes to D of the entries that had an active lane; the implicit barrier completes. -/
def sysDeliver (s : State) (r : TeamRef) (v : DWord) : State :=
  match teamOf s r with
  | none => s
  | some t =>
    let ids := beforeTeams s [t]
    modTeam s r fun t => { t with
      sys := .none
      groups := t.groups.map fun g =>
        let g := g.frontier.foldl (fun g e => match e.st with
          | .waiting (.sys act d _ _ _) _ => if act = 0 then g else match d with
            | .g n => setG g n.toNat v
            | _ => g
          | _ => g) g
        joinPast ids (wakeIf (fun e => e.waits Wait.isSys) g) }

/-- The value that a team's call has for its reply (R388): service 0 gives back the first argument (DEDUCED, log 77). -/
def replyValue (t : Team) (v : DWord) : DWord := match supplyingCall t with
  | some x => if x.2.1 = 0 then x.2.2.1 else v
  | none => v

/-- A reply with a TOKEN through the block of a logical device (R452): a team that waits takes it, at once where its gang is
on its cores, else when the gang is back (R389); it acquires what the serving hart has released (R390). A TOKEN of no waiting
team is logged. -/
def sysReply (s : State) (ld : Nat) (token v : DWord) (past : List Nat) : State :=
  match s.teams.find? fun t => t.r.ld == ld && t.sys == .waiting token with
  | none => logEvent s 0x05 0 0 ld 0 token.toNat
  | some t =>
    let v := replyValue t v
    let s := modTeam s t.r fun t => { t with groups := t.groups.map (joinPast past) }
    let k : GangRef := ⟨t.r.ld, t.r.grid, t.r.team / gangSize s t.r⟩
    match gangOf s k with
    | some g =>
      if g.place = .resident ∧ !(t.groups.any Group.saved) then sysDeliver s t.r v
      else modGang (modTeam s t.r fun t => { t with sys := .replied v }) k fun g => { g with wanted := true }
    | none => s

end Sys2Proof.Machine
end

