-- ==== Sys2Proof/Machine/Devregs.lean ====
section
/-! DEFINITION. Device registers: queue blocks, tree-operation ports (spec/02_translation_trees.md R46;
spec/21_scheduling.md R402 to R404; spec/22_traps_faults.md R427; spec/25_host_and_fabric.md R451 to R453, R461), and the
privileged registers (spec/20_system_instructions.md R397, R398). -/

namespace Sys2Proof.Machine

/-- Who makes an access. -/
inductive Who where
  /-- Supervisor code of a logical device; of LD 0, management code. -/
  | sup (ld : Nat)
  /-- A logical device's host, through BAR 0. -/
  | host (ld : Nat)
  /-- A Nimbus or command-processor hart. -/
  | hart (n : Nat)
  deriving DecidableEq, Repr, Inhabited

/-- Is the accessor management code or a service hart. -/
def Who.mgmt : Who → Bool
  | .sup ld => ld == 0
  | .hart _ => true
  | .host _ => false

/-- May the accessor write what the tables give to supervisor code (R403, R427). -/
def Who.super : Who → Bool
  | .host _ => false
  | _ => true

/-- What an accessor has learned of by acquiring (R124, R145); a lane's is held with its group. -/
def whoPast (s : State) : Who → List Nat
  | .hart n => let o := (s.harts.getD n default).ord; farLive s (union o.past o.obs)
  | .host n => farLive s (ldOf s n).hostPast
  | .sup _ => []

/-! Queue descriptors (R402). -/

/-- Queue q of a logical device. -/
def queueOf (s : State) (ld q : Nat) : Queue := (ldOf s ld).queues.getD q resetQueue

/-- Change it. -/
def modQueue (s : State) (ld q : Nat) (f : Queue → Queue) : State :=
  modLd s ld fun d => { d with queues := lset d.queues q (f (d.queues.getD q resetQueue)) }

/-- Word k of a descriptor. -/
def queueWord (s : State) (ld q k : Nat) : DWord :=
  let x := queueOf s ld q
  if k = 0 then x.base
  else if k = 1 then x.head ++ x.size
  else if k = 2 then
    BitVec.ofNat 64 (x.tail.toNat + x.slot.toNat * 2 ^ 32 + (if x.en then 2 ^ 38 else 0) + (if x.err then 2 ^ 39 else 0)
      + x.estat.toNat * 2 ^ 48) ||| qbWord s ld (64 * q + 16)
  else if k = 3 then x.eaddr
  else qbWord s ld (64 * q + 8 * k)

/-- The releases of a write of a queue's TAIL reach the command processor (R404). -/
def tailGain (s : State) (pa : Nat) (ids : List Nat) : State :=
  if isTail pa && !ids.isEmpty then
    modQueue s (pa / 2 ^ 16 % 16) (pa % 2 ^ 16 / 64) fun x => { x with past := union (farLive s x.past) ids }
  else s

/-- The root slot of a network pair's pointers (DESIGN CHOICE, log 36). -/
def pairSlot (ld pair : Nat) : Nat := Config.netSlot ld pair % 63

/-- Where the TAIL of a pair lies, through the root of its slot (R454). -/
def pairTail (s : State) (ld pair : Nat) : Option Nat :=
  let r := (ldOf s ld).slots.getD (pairSlot ld pair) emptyRoot
  let p := qbWord s ld (0x318 + 32 * pair)
  if !r.full then none
  else match farCheck s ld r.key [(ptrRid p, readBoundsEnt s ld (pairSlot ld pair) (ptrRid p))] false p 8 .read with
    | .ok x => if isHbm x.1 then some x.1 else none
    | .error _ => none

/-- What a pair's engine knows of after a write that releases some accesses. -/
def pairGain (s : State) (pa k : Nat) (ids : List Nat) (d : LDev) (p : Nat) : List Nat :=
  let old := d.netPast.getD p []
  match pairTail s d.id p with
  | some t => if overlap t 8 pa k then union (farLive s old) ids else old
  | none => old

/-- The controller that homes the TAIL of a pair forwards what a write of it releases to the network engine (R143, R454). -/
def netGain (s : State) (pa k : Nat) (ids : List Nat) : State :=
  if ids.isEmpty then s
  else { s with lds := s.lds.map fun d => { d with netPast := (List.range 8).map (pairGain s pa k ids d) } }

/-- What a write releases to the service threads (R123) reaches the engines that it tells. -/
def tellEngines (s : State) (pa k : Nat) (tags : List RelTag) : State :=
  let ids := (tags.filter fun t => t.scope == .dev || t.scope == .sys).foldl (fun a t => union a t.past) []
  netGain (tailGain s pa ids) pa k ids

/-- A write of TAIL alone (R404). -/
def setTail (s : State) (ld q : Nat) (v : Word) : State := modQueue s ld q fun x => { x with tail := v }

/-- A write of word k of a descriptor (R402): read-only fields keep their value; a write that sets EN clears ERR; reserved
fields are held so that the descriptor can be found invalid (R404). -/
def setQueueWord (s : State) (ld q k : Nat) (v : DWord) : State :=
  if k = 0 then modQueue s ld q fun x => { x with base := v }
  else if k = 1 then modQueue s ld q fun x => { x with size := v.extractLsb' 0 32 }
  else if k = 2 then
    let s := modQueue s ld q fun x =>
      { x with
        tail := v.extractLsb' 0 32, slot := v.extractLsb' 32 6, en := v.getLsbD 38
        waiting := if v.getLsbD 38 then x.waiting else none
        err := x.err && !v.getLsbD 38 }
    setQb s ld (64 * q + 16) (v &&& 0x0000FF0000000000#64)
  else if k = 3 then s
  else setQb s ld (64 * q + 8 * k) v

/-! Tree-operation ports (R453). -/

/-- The end of a port's operation: status, and D where the operation gives a value. -/
def portDone (s : State) (h : Nat) (r : Except (Nat × Nat) (State × Option Nat)) : State :=
  let put (s : State) (st : Nat) (d : Option Nat) : State :=
    let x := s.harts.getD h default
    { s with harts := lset s.harts h { x with status := BitVec.ofNat 64 st, d := (d.map (BitVec.ofNat 64)).getD x.d } }
  match r with
  | .error e => put s (e.1 + e.2 * 2 ^ 8) none
  | .ok x => put x.1 0 x.2

/-- The logical device an operation word names. -/
def portLd (w : DWord) : Nat := fld w.toNat 16 4

/-- A port's operation word of one opcode (R453): its other bits and MOD bits must be zero, as for the instruction. -/
def portOp (s : State) (h : Nat) (w : DWord) (opc : Nat) (mods : Nat) (f : Hart → Nat → Except (Nat × Nat) (State × Option Nat)) :
    State :=
  let x := s.harts.getD h default
  let md := fld w.toNat 8 8
  if fld w.toNat 0 8 ≠ opc then s
  else if mods < md then portDone s h (.error (cRSVFLD, 5))
  else if fld w.toNat 20 44 ≠ 0 then portDone s h (.error (cRSVFLD, 6))
  else portDone s h (f x md)

/-- A tree operation without a value. -/
def noVal (r : TreeRes) : Except (Nat × Nat) (State × Option Nat) := r.map fun s => (s, none)

/-- A tree operation with one. -/
def withVal (r : Except (Nat × Nat) (State × Nat)) : Except (Nat × Nat) (State × Option Nat) := r.map fun x => (x.1, some x.2)

/-- TNODE through a port. -/
def portTnode (s : State) (h : Nat) (w : DWord) : State := portOp s h w 0xC1 1 fun x md =>
  noVal (treeTnode s (portLd w) x.opA.toNat (if md = 1 then none else some x.opB.toNat))

/-- TSET through a port: T holds the index. -/
def portTset (s : State) (h : Nat) (w : DWord) : State := portOp s h w 0xC2 3 fun x md =>
  noVal (treeTset s (portLd w) x.opA.toNat x.opT.toNat md x.opB.toNat)

/-- RSWAP through a port: one that returns 0 publishes nothing. -/
def portRswap (s : State) (h : Nat) (w : DWord) : State := portOp s h w 0xC3 0 fun x _ =>
  withVal ((treeRswap s (portLd w) x.opA.toNat x.opB.toNat (x.opT.toNat % 2 ^ 48) (whoPast s (.hart h))).map fun r =>
    (if r.2 = 0 then r.1 else settleMoves r.1 (portLd w) x.opA.toNat, r.2))

/-- RCOPY through a port. -/
def portRcopy (s : State) (h : Nat) (w : DWord) : State := portOp s h w 0xC4 0 fun x _ =>
  withVal (treeRcopy s (portLd w) x.opA.toNat x.opB.toNat (whoPast s (.hart h)))

/-- RDROP through a port. -/
def portRdrop (s : State) (h : Nat) (w : DWord) : State := portOp s h w 0xC5 1 fun x md =>
  noVal (if md = 1 then treeRdropNode s (portLd w) x.opA.toNat else treeRdrop s (portLd w) x.opA.toNat)

/-- TINV through a port. -/
def portTinv (s : State) (h : Nat) (w : DWord) : State := portOp s h w 0xC6 0 fun x _ => noVal (treeTinv s (portLd w) (x.opA.toNat % 2 ^ 48))

/-- An operation word of any opcode; one that names none starts nothing and reports ILLOP. -/
def portWrite (s : State) (h : Nat) (w : DWord) : State :=
  let o := fld w.toNat 0 8
  if o = 0xC1 then portTnode s h w
  else if o = 0xC2 then portTset s h w
  else if o = 0xC3 then portRswap s h w
  else if o = 0xC4 then portRcopy s h w
  else if o = 0xC5 then portRdrop s h w
  else if o = 0xC6 then portTinv s h w
  else portDone s h (.error (cILLOP, 1))

/-! The device-register area (R46, R21). -/

/-- What an 8-byte word of the area is. -/
inductive DevWord where
  | desc (ld q k : Nat)
  | qb (ld off : Nat)
  | port (h k : Nat)
  | none
  deriving DecidableEq, Repr

/-- The word at an 8-byte-aligned physical address. -/
def devWord (pa : Nat) : DevWord :=
  if 0xFF0000000000 ≤ pa ∧ pa < 0xFF0000100000 then
    let ld := (pa - 0xFF0000000000) / 2 ^ 16
    let off := pa % 2 ^ 16
    if off < 576 then .desc ld (off / 64) (off % 64 / 8)
    else if (0x240 ≤ off ∧ off ≤ 0x270) ∨ (0x280 ≤ off ∧ off ≤ 0x2B0) ∨ (0x300 ≤ off ∧ off < 0x400) then .qb ld off
    else .none
  else if 0xFF1000000000 ≤ pa ∧ pa < 0xFF1000000000 + 64 * 20 then .port ((pa - 0xFF1000000000) / 64) (pa % 64 / 8)
  else .none

/-- A word read (R46): write-only and unassigned words read as zero. -/
def devRead (s : State) (who : Who) (pa : Nat) : DWord :=
  match devWord pa with
  | .none => 0
  | .desc ld q k => queueWord s ld q k
  | .qb ld off =>
    if off = 0x270 ∨ off = 0x2A0 ∨ off = 0x2B0 then 0
    else if off = 0x2A8 then match who with
      | .hart n => (s.harts.getD n default).replyval
      | _ => 0
    else qbWord s ld off
  | .port h k =>
    let x := s.harts.getD h default
    if k = 1 then x.opA else if k = 2 then x.opB else if k = 3 then x.opT else if k = 4 then x.d
    else if k = 5 then x.status else 0

/-- ENDGRID (R427): the running grid of that number ends with status 0x0A. -/
def endGrid (s : State) (ld : Nat) (id : DWord) : State :=
  if (gridOf s ld id.toNat).isSome then failGrid s ld id.toNat (0x0A, 0, 0, 0, 0, 0) else s

/-- A write of a queue-block word outside the descriptors (R403, R427, R451, R461) (DEDUCED, log 59). -/
def qbWrite (s : State) (who : Who) (ld off : Nat) (v : DWord) : State :=
  if off = 0x270 then (if who.super || who == .host ld then endGrid s ld v else s)
  else if off = 0x258 then (if who.mgmt then setQb s ld off (v &&& 0x00000FFFFFFFFFFF#64) else s)
  else if off = 0x260 then (if who.super then setQb s ld off (v &&& ~~~3#64) else s)
  else if off = 0x290 then s
  else if off = 0x298 then match who with
    | .hart _ => setQb s ld off (v &&& 0xFFFFFFFF#64)
    | _ => s
  else if off = 0x2A0 then match who with
    | .hart n => sysReply s ld v (s.harts.getD n default).replyval (whoPast s who)
    | _ => s
  else if off = 0x2A8 then match who with
    | .hart n => { s with harts := lset s.harts n { s.harts.getD n default with replyval := v } }
    | _ => s
  else if off = 0x2B0 then
    (if ld = 0 ∧ who = .host 0 ∧ v = 0x52535445#64 then packageReset s else s)
  else if 0x300 ≤ off then setQb s ld off v
  else if who.super then setQb s ld off v
  else s

/-- A word written (R46): read-only and unassigned words discard it. -/
def devWrite (s : State) (who : Who) (pa : Nat) (v : DWord) : State :=
  match devWord pa with
  | .none => s
  | .desc ld q k => setQueueWord s ld q k v
  | .qb ld off => qbWrite s who ld off v
  | .port h k =>
    let x := s.harts.getD h default
    let put (y : Hart) : State := { s with harts := lset s.harts h y }
    if k = 0 then portWrite s h v
    else if k = 1 then put { x with opA := v }
    else if k = 2 then put { x with opB := v }
    else if k = 3 then put { x with opT := v }
    else s

/-- Bytes read from the area: only those named. -/
def devBytes (s : State) (who : Who) (pa k : Nat) : List Byte :=
  (List.range k).map fun i =>
    let a := pa + i
    (devRead s who (a / 8 * 8)).extractLsb' (8 * (a % 8)) 8

/-- Bytes written to the area, word by word: bytes that are not named keep what the word reads as. -/
def devPut (s : State) (who : Who) (pa : Nat) (bs : List Byte) : State :=
  let first := pa / 8
  (List.range ((pa + bs.length + 7) / 8 - first)).foldl (fun s i =>
    let w := 8 * (first + i)
    let old := (devRead s who w).toNat
    let v := (List.range 8).foldl (fun acc j =>
      let a := w + j
      acc + (if pa ≤ a ∧ a < pa + bs.length then (bs.getD (a - pa) 0).toNat else fld old (8 * j) 8) * 256 ^ j) 0
    devWrite s who w (BitVec.ofNat 64 v)) s

/-! Any physical address. -/

/-- A read by an agent: memory through its home, device registers at the register. -/
def busRead (s : State) (who : Who) (pa k : Nat) : List Byte × RdSt × State :=
  if areaOf pa = .regs then (devBytes s who pa k, .ok, s) else readMem s pa k

/-- A write by an agent. -/
def busPut (s : State) (who : Who) (pa : Nat) (bs : List Byte) : State :=
  if areaOf pa = .regs then devPut s who pa bs else writeMem s pa bs

/-- A plain write by an agent that every reader sees at once (R124). -/
def busWrite (s : State) (who : Who) (pa : Nat) (bs : List Byte) : State := busPut (endTags s pa bs.length) who pa bs

/-- Such a write by a party, as a release at a scope (R124). -/
def busRelease (s : State) (who : Who) (by' : Party) (sc : Scope) (past : List Nat) (pa : Nat) (bs : List Byte) : State :=
  addTag (busWrite s who pa bs) by' sc past pa bs.length

/-! Privileged registers (R397, R398). -/

/-- A root record as PRIVRD reads it (R48); every field of an empty one reads as 0, but for the number of a slot (DESIGN CHOICE, log 66). -/
def rootBits (r : RootRec) : Nat :=
  r.gen * 2 ^ 80 + r.pins % 2 ^ 32 * 2 ^ 48 + r.slot % 64 * 2 ^ 42 + fld r.root 13 39 * 4 + (if r.full then 1 else 0)

/-- The value PRIVRD reads; `idx` is the frame number of FRAMEENT. -/
def privRead (s : State) (ld n idx : Nat) : DWord :=
  let d := ldOf s ld
  if n = 4 then BitVec.ofNat 64 (d.pubNext - 1)
  else if 0x100 ≤ n ∧ n < 0x180 then
    let k := (n - 0x100) / 2
    BitVec.ofNat 64 (rootBits { d.slots.getD k emptyRoot with slot := k } / 2 ^ (64 * (n % 2)))
  else if 0x200 ≤ n ∧ n < 0x400 then
    BitVec.ofNat 64 (rootBits (d.retired.getD ((n - 0x200) / 2) emptyRoot) / 2 ^ (64 * (n % 2)))
  else if n = 0x404 then 
    let e := frameEnt s (idx * 2 ^ 16)
    BitVec.ofNat 64 (fld e 58 6 * 2 ^ 58 + fld e 0 32)
  else match privReg n with
    | some r => if r.pkg then stGet s.preg n else stGet d.preg n
    | none => 0

/-- Is a power of two between two bounds, or zero. -/
def pow2In (v lo hi : Nat) : Bool := v == 0 || (lo ≤ v && v ≤ hi && 2 ^ Nat.log2 v == v)

/-- Is a value in a register's range, with its reserved bits zero (R398; the ranges of R397 and of the rules it names) (DEDUCED, log 45). -/
def privFits (n v : Nat) : Bool :=
  if n = 1 then v % 64 == 0 && v < 2 ^ 52
  else if n = 6 then v % 64 == 0
  else if n = 7 then v ≤ 4096
  else if n = 0x400 then 1 ≤ v && v ≤ 20000
  else if n = 0x401 then v ≤ 262144
  else if n = 0x402 ∨ n = 0x403 ∨ n = 0x831 then v % 2 ^ 16 == 0
  else if n = 0x404 then fld v 32 26 == 0
  else if 0x410 ≤ n ∧ n < 0x420 then n % 2 == 1 || v % 64 == 0
  else if n = 0x405 ∨ n = 0x830 then v < 2 ^ 16
  else if 0x800 ≤ n ∧ n < 0x808 then v % 2 ^ 22 == 0 && v ≤ 2 ^ 36
  else if n = 0x810 then 1 ≤ v && v ≤ 64
  else if n = 0x811 then 2000 ≤ v && v ≤ 4500
  else if n = 0x812 then v ≤ 2 ^ 26
  else if n = 0x813 ∨ n = 0x818 then v % 4096 == 0
  else if n = 0x814 then pow2In v 256 (2 ^ 20)
  else if n = 0x819 then pow2In v 64 (2 ^ 20)
  else if 0x820 ≤ n ∧ n < 0x824 then v ≤ 1
  else if n = 0x840 ∨ n = 0x844 then v < 2 ^ 48
  else if n = 0x841 ∨ n = 0x845 then v < 2 ^ 32
  else true

/-- SWRITE of a register whose checks have passed (R397, R107, R459). -/
def privWrite (s : State) (ld n v idx : Nat) : State :=
  if n = 0x404 then
    match frameEntPa s (idx * 2 ^ 16) with
    | none => s
    | some a => hwWrite s a (bytesOf (fld (frameEnt s (idx * 2 ^ 16)) 0 32 + fld v 58 6 * 2 ^ 58) 8)
  else if 0x800 ≤ n ∧ n < 0x808 then
    (if s.ccSet.contains (n - 0x800) then s else { setPkgReg s n v with ccSet := (n - 0x800) :: s.ccSet })
  else if 0x820 ≤ n ∧ n < 0x824 then
    (if v = 1 ∧ pkgReg s n = 0 then { s with retrain := if s.retrain.contains (n - 0x820) then s.retrain else (n - 0x820) :: s.retrain } else s)
  else match privReg n with
    | some r => if r.pkg then setPkgReg s n v else setLdReg s ld n v
    | none => s

end Sys2Proof.Machine
end

