-- ==== Sys2Proof/Machine/Kv.lean ====
section
/-! DEFINITION. Headers of KV pages (spec/04_device_memory.md R111, R112): their fields, their reads and writes as one unit, and what an
uncorrectable error does to its page. -/

namespace Sys2Proof.Machine

/-- The physical address of a frame number. -/
def kvPa (f : Nat) : Nat := f * 2 ^ 16

/-- A page header's fields. -/
def kvSucc (h : Nat) : Nat := fld h 0 36
def kvTokens (h : Nat) : Nat := fld h 128 32
def kvSharers (h : Nat) : Nat := fld h 160 32
def kvTenant (h : Nat) : Nat := fld h 192 16
def kvHome (h : Nat) : Nat := fld h 208 3
/-- STATE, the reserved value treated as poisoned. -/
def kvState (h : Nat) : Nat := min 2 (fld h 214 2)

/-- A header read as one unit. -/
def kvRead (s : State) (f : Nat) : Nat × RdSt × State :=
  let r := readMem s (kvPa f) 64
  (ofBytes r.1, r.2.1, r.2.2)

/-- A header as hardware writes it: its reserved bits are zero. -/
def kvClean (h : Nat) : Nat := fld h 0 36 + fld h 64 147 * 2 ^ 64 + fld h 214 2 * 2 ^ 214 + fld h 256 256 * 2 ^ 256

/-- A header written as one unit. -/
def kvWrite (s : State) (f h : Nat) : State := writeMem s (kvPa f) (bytesOf (kvClean h) 64)

/-- A header with one field replaced. -/
def kvSet (h lo n x : Nat) : Nat := h - fld h lo n * 2 ^ lo + x % 2 ^ n * 2 ^ lo

/-- A page that has consumed an error is poisoned. -/
def kvPoison (s : State) (f : Nat) : State :=
  let h := kvRead s f
  if h.2.1 = .ok then kvWrite h.2.2 f (kvSet h.1 214 2 2) else h.2.2

/-- A read has consumed a poisoned or uncorrectable sector: where it lies in a page that KVGET has given, the page is poisoned. -/
def kvConsume (s : State) (pa : Nat) : State :=
  if isHbm pa && s.kvPages.contains (pa / 2 ^ 16) then kvPoison s (pa / 2 ^ 16) else s

end Sys2Proof.Machine
end

