-- ==== Sys2Proof/Machine/Engine.lean ====
section
/-! DEFINITION. What engine operations share (spec/15_copy_engine.md R324 to R327, R332; spec/05_consistency.md R138 to R142, R149;
spec/01_address_spaces.md R18): the context in which an operation reaches memory, pieces of a move and their faults, arrival
objects. A move makes its accesses piece by piece, in any order. -/

namespace Sys2Proof.Machine

/-- The context of an operation's accesses: its team, the root and the bounds table it was issued with, its level (the
grid's), whether the host refuses it, its number, and what happens before it. -/
structure Eng where
  t : TeamRef
  root : RootKey
  bounds : Store 128
  user : Bool
  refuse : Bool
  id : Nat
  after : List Nat
  deriving Repr

/-- Is an address in a host window. -/
def isHost (pa : Nat) : Bool := match areaOf pa with
  | .host _ => true
  | _ => false

/-- The check of one access (R18, R23, R438): the physical address, or the underlying cause. -/
def engPlace (s : State) (e : Eng) (p : Ptr) (n : Nat) (k : Acc) : Except Nat Nat :=
  match farCheck s e.t.ld e.root e.bounds e.user p n k with
  | .error x => .error x.1
  | .ok x => if linkDown s x.1 ∨ (isHost x.1 ∧ e.refuse) then .error cFARTIMEOUT else .ok x.1

/-- Bytes at a pointer, cut where sectors end: (offset, length) pieces; `fuel` bounds their number. -/
def cutMem : Nat → Nat → Nat → Nat → List (Nat × Nat)
  | 0, _, _, _ => []
  | fuel + 1, va, d, n =>
    if n = 0 then []
    else
      let k := min n (32 - (va + d) % 32)
      (d, k) :: cutMem fuel va (d + k) (n - k)

/-- What an operation's read has found: bytes, how the read ended with the sector concerned, the writes it has seen, the machine. -/
structure EngRd where
  bytes : List Byte
  st : RdSt
  sec : Nat
  kept : List Nat
  s : State

/-- One access of an operation within a sector: the location as it stands, or as it stood before writes that the operation does not know
of (R128, R141). -/
def engGet (s : State) (e : Eng) (pa n : Nat) : List Byte × RdSt × List Nat × State :=
  let r := busRead s (.sup e.t.ld) pa n
  if s.hist.isEmpty || areaOf pa == .regs then (r.1, r.2.1, [], r.2.2)
  else
    let v := viewOf s (expand s (e.id :: e.after)) pa r.1
    (v.bytes, r.2.1, v.kept, viewTick r.2.2)

/-- A read through a context, checked access by access: the first fault's cause, or what it finds. -/
def engRead (s : State) (e : Eng) (p : Ptr) (n : Nat) : Except Nat EngRd :=
  (cutMem (n / 32 + 2) (ptrVa p) 0 n).foldl (fun acc c => acc.bind fun x =>
    (engPlace x.s e (ptrAdd p c.1) c.2 .read).map fun pa =>
      let r := engGet (walkRead x.s e.t.ld e.root (ptrVa p + c.1)) e pa c.2
      let ok := x.st == .ok
      ⟨x.bytes ++ r.1, if ok then r.2.1 else x.st, if ok then pa / 32 * 32 else x.sec, union x.kept r.2.2.1, r.2.2.2⟩)
    (.ok ⟨[], .ok, 0, [], s⟩)

/-- An operation has made a write (R139, R140): who has joined neither the operation nor this write may still miss it; it carries what
its values were read from. `s0` is the machine before it. -/
def engWrote (s0 s : State) (e : Eng) (loc : Nat) (old : List Byte) (kept : List Nat) : State :=
  let id := s0.nextId
  let s := keepWrite s0 { s with nextId := id + 1 } id loc old true none (farLive s0 (union kept e.after)) (some e.t)
  addJoin (addJoin s id (union kept e.after)) e.id (id :: kept)

/-- An operation's write to a physical run of bytes within a sector. -/
def engPut (s : State) (e : Eng) (pa : Nat) (bs : List Byte) (kept : List Nat) : State :=
  let t := dropTags (busPut s (.sup e.t.ld) pa bs) pa bs.length
  if areaOf pa == .regs then tailGain t pa (farLive t (union kept e.after)) else engWrote s t e pa (storedBytes s pa bs.length) kept

/-- A write through a context that every later read sees: the first fault's cause, or the machine. Every access is checked before any is
made. -/
def engWrite (s : State) (e : Eng) (p : Ptr) (bs : List Byte) : Except Nat State :=
  let cs := cutMem (bs.length / 32 + 2) (ptrVa p) 0 bs.length
  (cs.foldl (fun (acc : Except Nat (List (Nat × Nat × Nat))) c => acc.bind fun l =>
      (engPlace s e (ptrAdd p c.1) c.2 .write).map fun pa => l ++ [(pa, c.1, c.2)]) (.ok [])).map fun l =>
    l.foldl (fun s x => busWrite (walkRead s e.t.ld e.root (ptrVa p + x.2.1)) (.sup e.t.ld) x.1 ((bs.drop x.2.1).take x.2.2)) s

/-! Places and pieces. -/

/-- A place moved by a signed amount. -/
def Loc.move (l : Loc) (d : Int) : Loc := match l with
  | .mem p => .mem (ptrAdd p d)
  | .buf t b off => .buf t b (off + d)
  | .pad v => .pad v
  | .drive k a => .drive k (a + d.toNat)

/-- Bytes to the end of the sector at a place. -/
def Loc.room (l : Loc) : Nat := match l with
  | .mem p => 32 - ptrVa p % 32
  | .buf _ _ off => (32 - off % 32).toNat
  | .pad _ | .drive _ _ => 32

/-- A run of bytes cut into pieces; `fuel` bounds their number. -/
def cutRun : Nat → Loc → Loc → Nat → List Piece
  | 0, _, _, _ => []
  | fuel + 1, a, b, n =>
    if n = 0 then []
    else
      let k := min n (min a.room b.room)
      ⟨a, b, k⟩ :: cutRun fuel (a.move k) (b.move k) (n - k)

/-! Drives (R335, R458). -/

/-- The key of a drive's byte. -/
def driveKey (d a : Nat) : Nat := d * 2 ^ 61 + a

/-- A byte on a drive's medium: what it held before anything was written is not given (DESIGN CHOICE, log 24). -/
def mediumByte (s : State) (d a : Nat) : Byte :=
  if stGet s.driveWritten (driveKey d a) = 1 then stGet s.drives (driveKey d a) else Config.driveByte d a

/-- A byte of a drive as its reads see it: the latest write its cache holds, else the medium. -/
def driveByteAt (s : State) (d a : Nat) : Byte :=
  s.driveCache.foldl (fun v w => if w.drive = d ∧ w.addr ≤ a ∧ a < w.addr + w.bytes.length then w.bytes.getD (a - w.addr) 0 else v)
    (mediumByte s d a)

/-- Bytes written to the medium. -/
def mediumWrite (s : State) (w : DriveWrite) : State :=
  let ks := (List.range w.bytes.length).map fun i => (driveKey w.drive (w.addr + i), w.bytes.getD i 0)
  { s with drives := stSetAll s.drives ks, driveWritten := stSetAll s.driveWritten (ks.map fun k => (k.1, 1)) }

/-- The oldest of the accepted data reaches the medium as far as it survives power loss anyway. -/
def driveSettle (s : State) : State :=
  { (s.driveCache.takeWhile DriveWrite.sure).foldl mediumWrite s with driveCache := s.driveCache.dropWhile DriveWrite.sure }

/-- Accepted data survives power loss from now on where it is of some kind (R335). -/
def driveSure (s : State) (p : DriveWrite → Bool) : State :=
  driveSettle { s with driveCache := s.driveCache.map fun w => if p w then { w with sure := true } else w }

/-- A flush of a drive is done: the data of requests whose completion happens before the flush is durable; any other data that the drive has
accepted may be (R335). -/
def driveFlush (s : State) (d : Nat) (after : List Nat) : State :=
  let known := expand s after
  { driveSure s fun w => w.drive == d && (known.contains w.req || Config.freeBool (s.frees + w.req)) with
    frees := s.frees + s.nextId }

/-- Power is lost (R335): data that no flush or FUA has made durable reaches the medium or is lost. -/
def drivePowerLoss (s : State) : State :=
  let s := s.driveCache.foldl (fun s w =>
    if w.sure then mediumWrite s w else if Config.freeBool s.frees then mediumWrite (tick s) w else tick s) s
  { s with driveCache := [] }

/-! Moving a piece. -/

/-- A team on its core, or one that has been stopped and whose buffers its operations may still read (R435). -/
def anyTeam (s : State) (t : TeamRef) : Option Team := (s.teams ++ s.dying).find? fun u => u.r == t

/-- The checks of a piece's two accesses (R332): the cause of the fault that ends its operation. -/
def pieceErr (s : State) (e : Eng) (x : Piece) : Option Nat :=
  let one (l : Loc) (k : Acc) : Option Nat := match l with
    | .mem p => match engPlace s e p x.n k with
      | .error c => some c
      | .ok _ => none
    | _ => none
  (one x.src .read).or (one x.dst .write)

/-- What a read of a buffer by an engine finds (R91, R128, R134); of a team that is off its core nothing fixes it (DESIGN CHOICE, log 31). -/
def bufRd (s : State) (e : Eng) (t : TeamRef) (b : Buf) (off n : Nat) : EngRd :=
  match bufTouch s t b off n with
  | none => ⟨List.replicate n 0, .uncorr, 0, [], s⟩
  | some s =>
    let bs := match anyTeam s t with
      | none => List.replicate n 0
      | some u => if u.core < 352 then bytesOf (stBytes (bufOf u b) off n) n else (List.range n).map fun i => Config.freeByte (s.frees + i)
    if s.hist.isEmpty then ⟨bs, .ok, 0, [], s⟩
    else
      let v := viewOf s (expand s (e.id :: e.after)) (bufLoc t b off) bs
      ⟨v.bytes, .ok, 0, v.kept, viewTick s⟩

/-- The bytes at a source; an access that faults is not made. -/
def locRead (s : State) (e : Eng) (l : Loc) (n : Nat) : EngRd := match l with
  | .mem p => match engRead s e p n with
    | .ok x => x
    | .error _ => ⟨List.replicate n 0, .ok, 0, [], s⟩
  | .buf t b off => bufRd s e t b off.toNat n
  | .pad v => ⟨(List.range n).map fun i => BitVec.ofNat 8 (if i % 2 = 0 then v % 256 else v / 256), .ok, 0, [], s⟩
  | .drive d a => ⟨(List.range n).map fun i => driveByteAt s d (a + i), .ok, 0, [], s⟩

/-- Does a piece write a granule of a buffer. -/
def Piece.touches (x : Piece) (t : TeamRef) (b : Buf) (i : Nat) : Bool := match x.dst with
  | .buf u d off => u == t && d == b && overlap off.toNat x.n (16 * i) 16
  | _ => false

/-- An engine's bytes land in a buffer: the bit of a granule is set with the last byte that the operation writes there (R82); `rest` are its
pieces that are still to be moved. -/
def bufLand (s : State) (e : Eng) (t : TeamRef) (b : Buf) (off : Nat) (bs : List Byte) (kept : List Nat) (rest : List Piece) : State :=
  let k := bs.length
  let s1 := modTeam (bufWrite s t b off k (ofBytes bs)) t fun u =>
    ((granules off k).filter fun i => !rest.any fun x => x.touches t b i).foldl (fun u i => markFe u b (16 * i) 1 true) u
  engWrote s s1 e (bufLoc t b off) (bytesOf (bufGet s t b off k) k) kept

/-- Bytes written to a destination, within a sector. -/
def locWrite (s : State) (e : Eng) (l : Loc) (bs : List Byte) (kept : List Nat) (rest : List Piece) : State := match l with
  | .mem p => match engPlace s e p bs.length .write with
    | .ok pa => engPut (walkRead s e.t.ld e.root (ptrVa p)) e pa bs kept
    | .error _ => s
  | .buf t b off => bufLand s e t b off.toNat bs kept rest
  | .drive d a => { s with driveCache := s.driveCache ++ [⟨d, a, bs, e.id, false⟩] }
  | .pad _ => s

/-- The sectors of a destination in memory take the poison pattern (R332, R101). -/
def locPoison (s : State) (e : Eng) (l : Loc) (n : Nat) : State := match l with
  | .mem p => match engPlace s e p n .write with
    | .ok pa => if isHbm pa then poisonSec s (pa / 32) else s
    | .error _ => s
  | _ => s

/-- What moving a piece has come to: moved; its operation ends with a cause; the gang has been killed (R332, R345). -/
inductive Moved where
  | moved (s : State)
  | fault (s : State) (cause : Nat)
  | killed (s : State)

/-- One piece is moved; `rest` are its operation's other pieces that are still to be moved. -/
def pieceMove (s : State) (e : Eng) (rest : List Piece) (x : Piece) : Moved :=
  match pieceErr s e x with
  | some c => .fault s c
  | none =>
    let r := locRead s e x.src x.n
    if r.st = .ok then .moved (locWrite r.s e x.dst r.bytes r.kept rest)
    else
      let s := kvConsume r.s r.sec
      match x.dst with
      | .buf _ _ _ => .killed (killTeam s e.t (if r.st = .poison then cPOISON else cUECONS) r.sec)
      | _ => .fault (locPoison s e x.dst x.n) cPOISON

/-- Which of n things comes next. -/
def pickIx (s : State) (n : Nat) : Nat := if n ≤ 1 then 0 else Config.freeNat s.frees % n

/-! Arrival objects (R327). -/

/-- The place of an arrival object: the member's team and the offset, where it lies in its allocation. -/
def arrAt (s : State) (t : TeamRef) (arr : Nat) : Option (TeamRef × Nat) :=
  match teamOf s t with
  | none => none
  | some u =>
    let m := fld arr 20 3
    let off := fld arr 0 20
    match teamOf s (memberRef u m) with
    | none => none
    | some v => if m < gangSize s t ∧ arr < 2 ^ 23 ∧ arr % 8 = 0 ∧ off + 8 ≤ v.alen then some (v.r, off) else none

/-- Replace an object's value, in one step; its reserved bits are written as zero. -/
def arrMod (s : State) (t : TeamRef) (arr : Nat) (f : Nat → Nat) : State :=
  match arrAt s t arr with
  | none => s
  | some (u, off) =>
    let v := f (bufGet s u .a off 8)
    bufPut s u .a off 8 (v - fld v 56 5 * 2 ^ 56)

/-- An object with an error recorded, where it holds none. -/
def arrErrVal (cause detail : Nat) (ipt : Bool) (v : Nat) : Nat :=
  if bit1 v 63 then v
  else fld v 62 1 * 2 ^ 62 + 2 ^ 63 + (if ipt then 2 ^ 61 else 0) + cause % 256 * 2 ^ 48 + detail % 256 * 2 ^ 40 + fld v 0 40

/-- Record an error. -/
def arrError (s : State) (t : TeamRef) (arr cause detail : Nat) (ipt : Bool) : State :=
  arrMod s t arr (arrErrVal cause detail ipt)

/-- Set OVR (R334). -/
def arrOvr (s : State) (t : TeamRef) (arr : Nat) : State := arrMod s t arr fun v => if bit1 v 62 then v else v + 2 ^ 62

/-- An operation has lowered an object: who observes its completion joins it (R139). -/
def arrJoin (s : State) (t : TeamRef) (arr op : Nat) : State := match arrAt s t arr with
  | none => s
  | some p => addJoin s (bufLoc p.1 .a p.2) (expand s [op])

/-- A decrement by an operation: more than COUNT leaves 0 and records an error. -/
def arrDec (s : State) (t : TeamRef) (arr op n cause detail : Nat) : State :=
  arrMod (arrJoin s t arr op) t arr fun v =>
    let c := fld v 0 40
    if c < n then arrErrVal cause detail false (v - c) else v - n

end Sys2Proof.Machine
end

