-- ==== Sys2Proof/Machine/Copy.lean ====
section
/-! DEFINITION. Copy requests (spec/15_copy_engine.md R322 to R336): CREQ, KICK, CSEAL, CWAIT, the request engine, batches. -/

namespace Sys2Proof.Machine

/-! The record (R324). -/

def Req.src (q : Req) : Nat := fld q.raw 0 64
def Req.dst (q : Req) : Nat := fld q.raw 64 64
def Req.aux (q : Req) : Nat := fld q.raw 128 64
def Req.e0 (q : Req) : Nat := fld q.raw 192 32
def Req.e1 (q : Req) : Nat := fld q.raw 224 16
def Req.e2 (q : Req) : Nat := fld q.raw 240 16
def Req.ss1 (q : Req) : Int := toIntN 32 true (fld q.raw 256 32)
def Req.ss2 (q : Req) : Int := toIntN 32 true (fld q.raw 288 32)
def Req.ds1 (q : Req) : Int := toIntN 32 true (fld q.raw 320 32)
def Req.ds2 (q : Req) : Int := toIntN 32 true (fld q.raw 352 32)
def Req.arr (q : Req) : Nat := fld q.raw 384 23
def Req.noarr (q : Req) : Bool := bit1 q.raw 407
def Req.kind (q : Req) : Nat := fld q.raw 408 4
def Req.ssp (q : Req) : Nat := fld q.raw 412 2
def Req.dsp (q : Req) : Nat := fld q.raw 414 2
def Req.fua (q : Req) : Bool := bit1 q.raw 416
def Req.padv (q : Req) : Nat := fld q.raw 432 16
/-- Bytes per pixel and images of an IMAGE record (R334). -/
def Req.pb (q : Req) : Nat := q.e0 % 2 ^ 16
def Req.ni (q : Req) : Nat := q.e0 / 2 ^ 16
/-- Drive and first block of a storage record (R325). -/
def Req.drive (q : Req) : Nat := fld q.aux 48 4
def Req.lba (q : Req) : Nat := fld q.aux 0 48

/-- The buffer of a source space. -/
def srcBuf (sp : Nat) : Option Buf := if sp = 1 then some .a else if sp = 2 then some .c else none

/-- The buffer of a destination space. -/
def dstBuf (sp : Nat) : Option Buf := if sp = 1 then some .w else if sp = 2 then some .a else none

/-- The member a buffer address names. -/
def bufMember (t : Team) (b : Buf) (addr : Nat) : Nat := if b = .a then fld addr 20 3 else t.member

/-- The offset it names: bits above the buffer's width lie past every allocation. -/
def bufOffset (b : Buf) (addr : Nat) : Nat :=
  if b = .a then addr % 2 ^ 20 + addr / 2 ^ 23 * 2 ^ 23 else addr

/-- The place of a buffer or memory address. -/
def locOf (t : Team) (b : Option Buf) (addr : Nat) : Loc := match b with
  | none => .mem (BitVec.ofNat 64 addr)
  | some b => .buf (memberRef t (bufMember t b addr)) b (bufOffset b addr)

/-! Validation (R326). -/

/-- Check 1: kind, reserved bits, spaces allowed for the kind. -/
def reqCheck1 (q : Req) : Bool :=
  let k := q.kind
  let spaces :=
    if k = 1 ∨ k = 2 then q.ssp ≠ 3 && q.dsp ≠ 3
    else if k = 3 then q.ssp = 0 && q.dsp ≠ 3
    else if k = 4 then q.dsp = 0 && q.ssp ≠ 3
    else if k = 5 then q.ssp = 0 && (q.dsp = 1 || q.dsp = 2)
    else if k = 6 then q.dsp ≠ 3
    else if k = 7 then q.ssp ≠ 3
    else true
  1 ≤ k && k ≤ 8 && fld q.raw 448 64 = 0 && fld q.raw 417 15 = 0 && spaces && (k < 6 || fld q.aux 52 12 = 0)

/-- Check 2: extents and alignment. -/
def reqCheck2 (q : Req) : Bool :=
  let k := q.kind
  let sb := (srcBuf q.ssp).isSome
  let db := (dstBuf q.dsp).isSome
  let m (x : Int) : Bool := x % 16 == 0
  if k = 8 then true
  else if k = 6 ∨ k = 7 then
    1 ≤ q.e0 && q.e0 % 4096 = 0 && q.e0 ≤ 2 ^ 24 && (k = 7 || !db || q.dst % 16 = 0) && (k = 6 || !sb || q.src % 16 = 0)
  else if k = 5 then
    2 ≤ q.pb && q.pb ≤ 4096 && q.pb % 2 = 0 && 1 ≤ q.ni && 1 ≤ q.e1 && 1 ≤ q.e2 && 1 ≤ fld q.aux 0 16 && 1 ≤ fld q.aux 16 16 &&
      1 ≤ fld q.aux 32 16 && q.dst % 16 = 0 && m q.ds1 && m q.ds2
  else
    1 ≤ q.e0 && (k = 1 || 1 ≤ q.e1) && (k ≠ 2 || 1 ≤ q.e2) && (k = 1 || !(sb || db) || q.e0 % 16 = 0) &&
      (!sb || (q.src % 16 = 0 && (k = 1 || m q.ss1) && (k ≠ 2 || m q.ss2))) &&
      (!db || (q.dst % 16 = 0 && (k = 1 || m q.ds1) && (k ≠ 2 || m q.ds2)))

/-- Check 3: the arrival object. -/
def reqCheck3 (s : State) (t : Team) (q : Req) : Bool :=
  q.noarr || (q.arr % 8 = 0 && match teamOf s (memberRef t (fld q.arr 20 3)) with
    | none => true
    | some u => gangSize s t.r ≤ fld q.arr 20 3 || q.arr % 2 ^ 20 + 8 ≤ u.alen)

/-- Check 4: the members named. -/
def reqCheck4 (s : State) (t : Team) (q : Req) : Bool :=
  let n := gangSize s t.r
  let k := q.kind
  (q.noarr || fld q.arr 20 3 < n) && (k = 8 || k = 6 || q.ssp ≠ 1 || fld q.src 20 3 < n) &&
    (k = 8 || k = 7 || q.dsp ≠ 2 || fld q.dst 20 3 < n)

/-- Check 5: the drive and its blocks. -/
def reqCheck5 (s : State) (q : Req) : Bool :=
  q.kind < 6 || (bit1 (ldReg s q.r.team.ld 0x405) q.drive &&
    (q.kind = 8 || q.lba + q.e0 / 4096 ≤ Config.driveBlocks q.drive))

/-- Least and greatest byte offsets of a strided side: counts and strides, and the width of a run. -/
def spanOf (dims : List (Nat × Int)) (w : Nat) : Int × Int :=
  dims.foldl (fun a d => let x := ((d.1 : Int) - 1) * d.2; (a.1 + min 0 x, a.2 + max 0 x)) (0, (w : Int))

/-- Do the bytes of a side lie in the allocation. -/
def sideFits (s : State) (t : Team) (b : Option Buf) (addr : Nat) (x : Int × Int) : Bool := match b with
  | none => true
  | some b => match teamOf s (memberRef t (bufMember t b addr)) with
    | none => false
    | some u => 0 ≤ (bufOffset b addr : Int) + x.1 && (bufOffset b addr : Int) + x.2 ≤ bufLen u b

/-- Check 6: source bytes. -/
def reqCheck6 (s : State) (t : Team) (q : Req) : Bool :=
  let k := q.kind
  if k = 8 ∨ k = 6 then true
  else sideFits s t (srcBuf q.ssp) q.src (spanOf (
    if k = 2 then [(q.e1, q.ss1), (q.e2, q.ss2)] else if k = 4 then [(q.e1, q.ss1)] else []) q.e0)

/-- Check 7: destination bytes. -/
def reqCheck7 (s : State) (t : Team) (q : Req) : Bool :=
  let k := q.kind
  if k = 8 ∨ k = 7 then true
  else if k = 5 then
    sideFits s t (dstBuf q.dsp) q.dst (spanOf [(q.e1, q.ds1), (q.ni, q.ds2), (q.e2, q.pb)] q.pb)
  else sideFits s t (dstBuf q.dsp) q.dst (spanOf (
    if k = 2 then [(q.e1, q.ds1), (q.e2, q.ds2)] else if k = 3 then [(q.e1, q.ds1)] else []) q.e0)

/-- The first failing check (R326). -/
def reqErr (s : State) (t : Team) (q : Req) : Option (Nat × Nat) :=
  if !reqCheck1 q then some (cCPYVAL, 1)
  else if !reqCheck2 q then some (cCPYVAL, 2)
  else if !reqCheck3 s t q then some (cCPYVAL, 3)
  else if !reqCheck4 s t q then some (cCPYVAL, 4)
  else if !reqCheck5 s q then some (cCPYVAL, 5)
  else if !reqCheck6 s t q then some (cCPYBOUND, 2)
  else if !reqCheck7 s t q then some (cCPYBOUND, 1)
  else none

/-! Ends of a request. -/

/-- Change a request. -/
def modReq (s : State) (id : Nat) (f : Req → Req) : State :=
  { s with reqs := s.reqs.map fun q => if q.id == id then f q else q }

/-- A request leaves the machine (R149, R435): its pin is dropped. -/
def reqGone (s : State) (q : Req) : State :=
  let s := dropPin s q.r.team.ld q.pin
  bury { s with reqs := s.reqs.filter fun x => x.id != q.id }

/-- A request fails: its error is recorded in the object, and what it has moved is still subtracted (R327). -/
def reqFail (s : State) (q : Req) (cause detail left : Nat) (ipt : Bool) : State :=
  let t := q.r.team
  if (teamOf s t).isNone then reqGone s q
  else
    let s := if q.noarr then s else arrError s t q.arr cause detail ipt
    modReq (dropPin s t.ld q.pin) q.id fun x =>
      { x with st := .failed cause detail, left := if q.noarr then 0 else left, pin := none, todo := [], rows := 0 }

/-- The context of a request's accesses. -/
def reqEng (s : State) (q : Req) (refuse : Bool) : Eng :=
  ⟨q.r.team, pinRoot q.pin, q.bounds, engUser s q.r.team, refuse, q.id, q.after⟩

/-! Moves. -/

/-- The places of a request's two sides; of a storage kind one is the drive. -/
def reqLocs (t : Team) (q : Req) : Loc × Loc :=
  (if q.kind = 6 then .drive q.drive (4096 * q.lba) else locOf t (srcBuf q.ssp) q.src,
    if q.kind = 7 then .drive q.drive (4096 * q.lba) else locOf t (dstBuf q.dsp) q.dst)

/-- The runs of LINEAR and TILED, and of the storage kinds (R325). -/
def tiledRuns (q : Req) (a b : Loc) : List Piece :=
  if q.kind ≠ 2 then cutRun q.e0 a b q.e0
  else (List.range q.e2).flatMap fun (i2 : Nat) => (List.range q.e1).flatMap fun (i1 : Nat) =>
    cutRun q.e0 (a.move (i1 * q.ss1 + i2 * q.ss2)) (b.move (i1 * q.ds1 + i2 * q.ds2)) q.e0

/-- Does an IMAGE window pass the batch's end (R334). -/
def imageOver (q : Req) : Bool := fld q.aux 32 16 < fld q.aux 48 16 + q.ni

/-- The runs of an IMAGE window (R334). -/
def imageRuns (q : Req) (a b : Loc) : List Piece :=
  let iw := fld q.aux 0 16
  let ih := fld q.aux 16 16
  let n := fld q.aux 32 16
  let n0 := fld q.aux 48 16
  (List.range q.ni).flatMap fun (i : Nat) => (List.range q.e1).flatMap fun (r : Nat) => (List.range q.e2).flatMap fun (c : Nat) =>
    let x := q.ss1 + c
    let y := q.ss2 + r
    let inside := n0 + i < n && 0 ≤ x && x < iw && 0 ≤ y && y < ih
    let src := if inside then a.move (q.pb * (x + iw * (y + ih * ((n0 + i : Nat) : Int)))) else .pad q.padv
    cutRun q.pb src (b.move (i * q.ds2 + r * q.ds1 + c * q.pb)) q.pb

/-- The runs of row i of a GATHER or SCATTER whose index is j (R325). -/
def indexedRun (q : Req) (a b : Loc) (i j : Int) : List Piece :=
  if q.kind = 3 then cutRun q.e0 (a.move (j * q.ss1)) (b.move (i * q.ds1)) q.e0
  else cutRun q.e0 (a.move (i * q.ss1)) (b.move (j * q.ds1)) q.e0

/-- What a validated request has to move from the start: pieces, and rows whose index it reads first (R325, R333, R334). -/
def reqWork (t : Team) (q : Req) : List Piece × Nat :=
  let l := reqLocs t q
  let k := q.kind
  if k = 3 ∨ k = 4 then ([], q.e1)
  else if k = 5 then (imageRuns q l.1 l.2, 0)
  else if k = 8 then ([], 0)
  else (tiledRuns q l.1 l.2, 0)

/-- An index list's entry is read (R333, R345): the index, or the cause that ends the operation. -/
def readIndex (s : State) (e : Eng) (p : Ptr) : State × Except Nat Nat := match engRead s e p 4 with
  | .error c => (s, .error c)
  | .ok x => if x.st = .ok then (addJoin x.s e.id x.kept, .ok (ofBytes x.bytes)) else (kvConsume x.s x.sec, .error cPOISON)

/-- The engine reads the next index of a GATHER or SCATTER (R333): the row's pieces may move from now on, or the request ends. -/
def reqIndex (s : State) (e : Eng) (t : Team) (q : Req) : State :=
  let i := q.e1 - q.rows
  let x := readIndex (tick s) e (ptrAdd (BitVec.ofNat 64 q.aux) (4 * i : Nat))
  match x.2 with
  | .error c => reqFail x.1 q cCPYFAULT c q.left true
  | .ok j =>
    let l := reqLocs t q
    modReq x.1 q.id fun y => { y with rows := y.rows - 1, todo := y.todo ++ indexedRun q l.1 l.2 i j }

/-- The engine moves one of a request's pieces (R332): it is gone from what is to be moved, and COUNT is still to fall by it; a fault ends
the request. A piece of a team that has been stopped is moved or dropped (R149, R435). -/
def reqPiece (s : State) (e : Eng) (q : Req) (i : Nat) (x : Piece) : State :=
  let rest := q.todo.eraseIdx i
  let gone := teamStopped s q.r.team
  if gone && Config.freeBool s.frees then modReq (tick s) q.id fun y => { y with todo := rest }
  else match pieceMove (tick s) e rest x with
    | .moved s => modReq s q.id fun y => { y with todo := rest, left := y.left + if q.noarr || gone then 0 else x.n }
    | .fault s c => reqFail s q cCPYFAULT c q.left false
    | .killed s => reqGone s q

/-- One step of a request under way: one of its pieces, or its next index, whichever comes next. -/
def reqStep (s : State) (refuse : Bool) (t : Team) (q : Req) : State :=
  let e := reqEng s q refuse
  let i := pickIx s (q.todo.length + if q.rows = 0 then 0 else 1)
  match q.todo[i]? with
  | some x => reqPiece s e q i x
  | none => if q.rows = 0 then s else reqIndex s e t q

/-- A request is taken from its queue (R326): it has moved nothing yet. -/
def reqBegin (s : State) (t : Team) (q : Req) : State :=
  let w := reqWork t q
  let s := modReq s q.id fun x => { x with st := .moving, todo := w.1, rows := w.2 }
  if q.kind = 5 && imageOver q && !q.noarr then arrOvr s q.r.team q.arr else s

/-! The request engine. -/

/-- The kinds that a step of the engine takes; a record of no kind is taken by the step of LINEAR (DESIGN CHOICE, log 31). -/
def kindTaken (step kind : Nat) : Bool := step == kind || (step == 1 && (kind == 0 || 8 < kind))

/-- May a queued request start (R329, R138): requests of its group before it have, and what it follows is performed. -/
def reqStarts (s : State) (q : Req) : Bool :=
  q.st == .queued && forkReady s q.after && !s.reqs.any fun p => p.r == q.r && p.id < q.id && p.st == .queued

/-- Has a request that is under way something left to move. -/
def reqMoves (q : Req) : Bool := q.st == .moving && (!q.todo.isEmpty || q.rows != 0)

/-- May an operation of a team that is gone still be performed: one that writes no buffer (R435, R149). -/
def reqFree (q : Req) : Bool := q.kind = 7 || q.kind = 8 || (dstBuf q.dsp).isNone

/-- A queued request is taken (R326): validated, and rejected or begun; one of a team that has been stopped is performed or discarded
(R149). -/
def reqTake (s : State) (q : Req) : State :=
  match teamOf s q.r.team with
  | none => match s.dying.find? fun t => t.r == q.r.team with
    | none => reqGone s q
    | some t =>
      let ok := reqFree q && reqCheck1 q && reqCheck2 q && reqCheck5 s q
      if !teamStopped s q.r.team then (if ok then reqBegin s t q else reqGone s q)
      else if ok && Config.freeBool s.frees then reqBegin (tick s) t q
      else reqGone (tick s) q
  | some t => match reqErr s t q with
    | some x => reqFail s q x.1 x.2 0 false
    | none => reqBegin s t q

/-- A request under way goes on: one of a team that has been stopped is cancelled where it writes a buffer (R435). -/
def reqGo (s : State) (refuse : Bool) (q : Req) : State :=
  match anyTeam s q.r.team with
  | none => reqGone s q
  | some t => if teamStopped s q.r.team && !reqFree q then reqGone s q else reqStep s refuse t q

/-- A request, by number, is taken, where it is queued, and makes its next step. -/
def reqNext (s : State) (refuse : Bool) (id : Nat) : State :=
  match s.reqs.find? fun q => q.id == id with
  | none => s
  | some q =>
    let s := if q.st == .queued then reqTake s q else s
    match s.reqs.find? fun q => q.id == id with
    | none => s
    | some q => if reqMoves q then reqGo s refuse q else s

/-- The requests of a core that a step of a kind may take or move on. -/
def reqsNext (s : State) (core step : Nat) : List Req :=
  s.reqs.filter fun q => q.core == core && kindTaken step q.kind && (reqStarts s q || reqMoves q)

/-- The engine takes a request of a core, or moves one that is under way on (R326, R329, R332). -/
def engineStep (s : State) (core step : Nat) : State :=
  let qs := reqsNext s core step
  match qs[pickIx s qs.length]? with
  | none => s
  | some q => reqNext (tick s) false q.id

/-- COPY_LINEAR. -/
def execCopyLinear (core : Nat) (s : State) : Host.Outcome State Fault Refusal := agent s fun s => engineStep s core 1

/-- COPY_TILED. -/
def execCopyTiled (core : Nat) (s : State) : Host.Outcome State Fault Refusal := agent s fun s => engineStep s core 2

/-- COPY_GATHER. -/
def execCopyGather (core : Nat) (s : State) : Host.Outcome State Fault Refusal := agent s fun s => engineStep s core 3

/-- COPY_SCATTER. -/
def execCopyScatter (core : Nat) (s : State) : Host.Outcome State Fault Refusal := agent s fun s => engineStep s core 4

/-- COPY_IMAGE. -/
def execCopyImage (core : Nat) (s : State) : Host.Outcome State Fault Refusal := agent s fun s => engineStep s core 5

/-- STREAD. -/
def execStread (core : Nat) (s : State) : Host.Outcome State Fault Refusal := agent s fun s => engineStep s core 6

/-- STWRITE. -/
def execStwrite (core : Nat) (s : State) : Host.Outcome State Fault Refusal := agent s fun s => engineStep s core 7

/-- STFLUSH. -/
def execStflush (core : Nat) (s : State) : Host.Outcome State Fault Refusal := agent s fun s => engineStep s core 8

/-- DRIVE_ERROR (R332): the drive reports an error for a storage request, which ends with CPYFAULT 0xFF. -/
def execDriveError (req : Nat) (status : BitVec 16) (s : State) : Host.Outcome State Fault Refusal :=
  agent s fun s => match s.reqs.find? fun q => q.id == req with
  | none => s
  | some q =>
    if 6 ≤ q.kind ∧ q.kind ≤ 8 ∧ q.st = .moving then
      reqFail (logEvent s 0x06 0 0 q.r.team.ld 0 (status.toNat + q.drive * 2 ^ 16)) q cCPYFAULT 0xFF q.left false
    else s

/-- COPY_REQUEST_DONE (R330, R335): the last byte is performed, or the drive reports the write or the flush done. -/
def execCopyRequestDone (req : Nat) (s : State) : Host.Outcome State Fault Refusal :=
  agent s fun s => match s.reqs.find? fun q => q.id == req with
  | none => s
  | some q =>
    if q.st ≠ .moving ∨ reqMoves q ∨ (q.left ≠ 0 ∧ (groupOf s q.r).isSome) then s
    else
      let s := if q.kind = 8 then driveFlush s q.drive q.after
        else if q.kind = 7 && q.fua then driveSure s fun w => w.req == q.id else s
      if (groupOf s q.r).isNone then reqGone s q
      else modReq (dropPin s q.r.team.ld q.pin) req fun x => { x with st := .done, pin := none }

/-- How much of what is left an update subtracts (R327): all, or a part. -/
def stepOf (s : State) (left : Nat) : Nat := if Config.freeBool s.frees then left else 1 + Config.freeNat s.frees % left

/-- ARRIVAL_DECREMENT (R327): a request or a memory-side command subtracts bytes from its object. -/
def execArrivalDecrement (op : Nat) (s : State) : Host.Outcome State Fault Refusal :=
  agent s fun s => match s.reqs.find? fun q => q.id == op with
  | some q =>
    if q.st = .queued ∨ q.left = 0 then s
    else
      let n := stepOf s q.left
      modReq (arrDec (tick s) q.r.team q.arr op n cCPYVAL 6) op fun x => { x with left := x.left - n }
  | none => match s.memOps.find? fun m => m.id == op with
    | none => s
    | some m => match m.left with
      | none => s
      | some left =>
        let arr := fld m.raw (if m.att then 112 else 296) 23
        let n := stepOf s left
        let s := if left = 0 then s else arrDec (tick s) m.t arr op n cCPYVAL 6
        if left ≤ n then bury { dropPin s m.t.ld m.pin with memOps := s.memOps.filter fun x => x.id != op }
        else { s with memOps := s.memOps.map fun x => if x.id == op then { x with left := some (left - n) } else x }

/-! CREQ, KICK (R328, R329). -/

/-- A trap of an instruction that acts once for its entry, with a buffer address. -/
def trapA (cause detail : Nat) (addr : DWord) : Res := .trap ⟨cause, detail, none, addr, 0, false⟩

/-- Not for a consumer group (R322, R151): group 0 of the launch is the producer. -/
def producer (c : Ctx) (k : Res) : Res :=
  if !c.any then done c.s [] else if c.g.id ≠ 0 ∨ c.g.rung.isSome then trapW cROLE 0 else k

/-- The address of CREQ and KICK and the register's update: the detail of MODREG, or both. -/
def reqAddr (c : Ctx) (x : CreqA) (n : Nat) : Except Nat (Int × DWord) :=
  let v := srcD c.g x.a 1 c.low
  match x.addr with
  | .off o => .ok ((match x.a with
      | .im w => w.toInt
      | _ => (v.toNat : Int)) + o.toInt, 0)
  | .post inc => .ok (v.toNat, v + inc.signExtend 64)
  | .modulo m inc => (modAccess (srcD c.g m 1 c.low) v.toNat (inc.toInt + 64 * n) 64).map fun y => (v.toNat, BitVec.ofNat 64 y)

/-- The check of a record's place (R328, R329): a multiple of 64 within the team's own allocation. -/
def recPlace (c : Ctx) (a : Int) : Except BufErr Nat :=
  let addr := BitVec.ofInt 64 a
  if a % 64 ≠ 0 then .error ⟨cBUFRANGE, 2, addr⟩
  else if a < 0 ∨ (c.t.alen : Int) < a + 64 then .error ⟨cBUFRANGE, 1, addr⟩
  else .ok a.toNat

/-- CREQ (R328): sixteen lanes of a register become a record. -/
def execCreq (x : CreqA) (s : State) : Host.Outcome State Fault Refusal :=
  withIssue x.h false s fun c =>
    producer c (match reqAddr c x 0 with
      | .error d => trapA cMODREG d (srcD c.g x.a 1 c.low)
      | .ok a => match recPlace c a.1 with
        | .error e => trapA e.cause e.detail e.addr
        | .ok off =>
          let v := ofBytes ((List.range 16).flatMap fun i => bytesOf (srcD c.g x.b 1 i).toNat 4)
          let s := relBuf c.r c.t.core c.lanes c.t.r .a [(off, 64)] (bufPut c.s c.t.r .a off 64 v)
          let s := modGroup s c.r (bumpAddr x.a x.addr [(c.low, a.2)])
          done (tick s) (outFree c.s (addrKeys x.a x.addr)))

/-- The places of a KICK's records, in order (R329). -/
def kickPlaces (c : Ctx) (x : CreqA) (n : Nat) : Except BufErr (List Nat) :=
  (List.range n).foldl (fun acc i => acc.bind fun l =>
    let v := srcD c.g x.a 1 c.low
    let at' : Except BufErr Int := match x.addr with
      | .modulo m _ => match modAccess (srcD c.g m 1 c.low) v.toNat (64 * i : Nat) 64 with
        | .error d => .error ⟨cMODREG, d, v⟩
        | .ok y => match modAccess (srcD c.g m 1 c.low) y 0 64 with
          | .error d => .error ⟨cMODREG, d, BitVec.ofNat 64 y⟩
          | .ok y => .ok y
      | _ => match reqAddr c x 0 with
        | .error d => .error ⟨cMODREG, d, v⟩
        | .ok a => .ok (a.1 + 64 * i)
    at'.bind fun a => (recPlace c a).map fun o => l ++ [o]) (.ok [])

/-- Requests a core's queue holds. -/
def queueLoad (s : State) (core : Nat) : Nat := (s.reqs.filter fun q => q.core == core && q.st == .queued).length

/-- The records are copied into the queue, in one step (R329, R138, R49). -/
def submit (s : State) (r : GroupRef) (m : LaneMask) (recs : List (Nat × Nat)) : State :=
  match teamOf s r.team, groupOf s r with
  | some t, some g =>
    let after := forkOf s g m
    let s := recs.foldl (fun s o =>
      let q : Req := ⟨s.nextId, r, t.core, o.2, t.member * 2 ^ 20 + o.1, .queued, g.pin, t.bounds, after, 0, [], 0⟩
      { copyPin s r.team.ld g.pin with reqs := s.reqs ++ [q], nextId := s.nextId + 1 }) s
    modGroup s r fun g => { g with unsealed := g.unsealed ++ (List.range recs.length).map (s.nextId - recs.length + ·) }
  | _, _ => s

/-- KICK (R329): the records are read when it issues. -/
def execKick (x : CreqA) (s : State) : Host.Outcome State Fault Refusal :=
  withIssue x.h false s fun c =>
    producer c (
      let n := (srcD c.g x.b 1 c.low).toNat % 2 ^ 32
      if 64 < n then trapA cCPYVAL 7 0
      else if n = 0 then done c.s []
      else match kickPlaces c x n with
        | .error e => trapA e.cause e.detail e.addr
        | .ok offs => withTouch c (offs.map fun o => (c.t.r, Buf.a, o, 64)) fun s =>
          let recs := offs.map fun o => (o, bufGet s c.t.r .a o 64)
          let upd := match reqAddr c x n with
            | .ok a => a.2
            | .error _ => srcD c.g x.a 1 c.low
          if 256 < queueLoad s c.t.core + n then .ok s (.wait (.kick (.kick x) recs upd)) [] none
          else
            let s := submit s c.r c.act recs
            done (tick (modGroup s c.r (bumpAddr x.a x.addr [(c.low, upd)]))) (outFree c.s (addrKeys x.a x.addr)))

/-- KICK_ROOM (R329): a waiting KICK submits its records. -/
def execKickRoom (r : GroupRef) (lane : Nat) (s : State) : Host.Outcome State Fault Refusal :=
  agent s fun s => match teamOf s r.team, groupOf s r with
  | some t, some g => match waitAt g lane with
    | some (e, .kick (.kick x) recs upd) =>
      if 256 < queueLoad s t.core + recs.length then s
      else
        let act := activeMask g x.h e.mask
        let s := submit s r act recs
        modGroup s r fun g => moveOn e.mask (bumpAddr x.a x.addr [(lowest act, upd)] g)
    | _ => s
  | _, _ => s

/-! Batches (R330, R331). -/

/-- Is a request, by number, finished. -/
def reqFinished (s : State) (id : Nat) : Bool := !(s.reqs.any fun q => q.id == id && q.underway)

/-- Is a batch finished. -/
def batchDone (s : State) (b : Batch) : Bool := b.reqs.all (reqFinished s)

/-- Unfinished batches of a group. -/
def openBatches (s : State) (g : Group) : Nat := (g.batches.filter fun b => !batchDone s b).length

/-- Must a CSEAL wait: it would make a 33rd unfinished batch. -/
def sealWaits (s : State) (g : Group) : Bool := 32 ≤ openBatches s g && !g.unsealed.all (reqFinished s)

/-- Requests submitted since the last CSEAL become a batch. -/
def sealBatch (d : Opnd) (lane : Nat) (g : Group) : Group :=
  let g := setDst g d 1 lane (BitVec.ofNat 64 g.batchNo)
  { g with batches := g.batches ++ [⟨g.batchNo, g.unsealed⟩], unsealed := [], batchNo := g.batchNo + 1 }

/-- CSEAL (R330). -/
def execCseal (x : OneD) (s : State) : Host.Outcome State Fault Refusal :=
  withIssue x.h false s fun c =>
    producer c (
      if sealWaits c.s c.g then .ok c.s (.wait (.cseal (.cseal x))) [] none
      else done (tick (modGroup c.s c.r (sealBatch x.d c.low))) (outFree c.s (keysOf x.d 1)))

/-- CSEAL_ROOM (R330): a batch has finished, and a waiting CSEAL seals. -/
def execCsealRoom (r : GroupRef) (lane : Nat) (s : State) : Host.Outcome State Fault Refusal :=
  agent s fun s => match groupOf s r with
  | none => s
  | some g => match waitAt g lane with
    | some (e, .cseal (.cseal x)) =>
      if sealWaits s g then s else modGroup s r fun g => moveOn e.mask (sealBatch x.d (lowest e.mask) g)
    | _ => s

/-- The first failed request of the finished batches that has not been reported (R331). -/
def firstFailure (s : State) (g : Group) : Option (Req × Nat × Nat) :=
  ((g.batches.filter (batchDone s)).flatMap Batch.reqs).findSome? fun id =>
    if g.reported.contains id then none
    else (s.reqs.find? fun q => q.id == id).bind fun q => match q.st with
      | .failed c d => some (q, c, d)
      | _ => none

/-- Finished batches with nothing left to report are dropped, and their requests. -/
def dropBatches (s : State) (r : GroupRef) : State :=
  match groupOf s r with
  | none => s
  | some g =>
    let spent (b : Batch) : Bool := batchDone s b && b.reqs.all fun id =>
      g.reported.contains id || (s.reqs.all fun q => q.id != id || (match q.st with
        | .failed _ _ => false
        | _ => true))
    let ids := (g.batches.filter spent).flatMap Batch.reqs
    let s := modGroup s r fun g => { g with
      batches := g.batches.filter fun b => !spent b, reported := g.reported.filter fun i => !ids.contains i }
    { s with reqs := s.reqs.filter fun q => !ids.contains q.id }

/-- What CWAIT finds (R331): the machine, and the trap's cause, detail and record address where it reports a failure. The lanes that wait
join the finished batches, but for the one whose failure is reported (R139, R140). -/
def joinBatches (s : State) (r : GroupRef) (m : LaneMask) (g : Group) : State × Option (Nat × Nat × Nat) :=
  let bad := firstFailure s g
  let ids := ((g.batches.filter fun b => batchDone s b && !bad.any fun q => b.reqs.contains q.1.id).flatMap Batch.reqs)
  let s := modGroup s r (addPast m (farLive s ids))
  match bad with
  | none => (dropBatches s r, none)
  | some (q, c, d) =>
    (dropBatches (modGroup s r fun g => { g with reported := g.reported ++ [q.id] }) r, some (c, d, q.addr))

/-- CWAIT (R331): a consumer group has no batches and returns at once. -/
def execCwait (x : OneB) (s : State) : Host.Outcome State Fault Refusal :=
  withIssue x.h false s fun c =>
    if !c.any then done c.s []
    else
      let n := (srcD c.g x.b 1 c.low).toNat % 2 ^ 32
      if n < openBatches c.s c.g then .ok c.s (.wait (.cwait n)) [] none
      else match joinBatches c.s c.r c.act c.g with
        | (s, none) => done s []
        | (s, some (cause, d, a)) => .trapIn s ⟨cause, d, none, BitVec.ofNat 64 a, 0, false⟩

/-- CWAIT_RETURN (R331). -/
def execCwaitReturn (r : GroupRef) (lane : Nat) (s : State) : Host.Outcome State Fault Refusal :=
  agent s fun s => match groupOf s r with
  | none => s
  | some g => match waitAt g lane with
    | some (e, .cwait n) =>
      if n < openBatches s g || g.pendTrap.isSome then s
      else match joinBatches s r e.mask g with
        | (s, none) => modGroup s r (moveOn e.mask)
        | (s, some (cause, d, a)) => trapEntry s r e cause d (BitVec.ofNat 64 a)
    | _ => s

end Sys2Proof.Machine
end

