-- ==== Sys2Proof/Machine/Far.lean ====
section
/-! DEFINITION. Issue of the far instructions (spec/11_memory_instructions.md R286 to R297): pointers and their checks, the
split of faulting lanes, the accesses handed to their homes with what they must follow (spec/05_consistency.md R119 to
R132). -/

namespace Sys2Proof.Machine

/-- What a lane's check leaves: physical address, leaf entry, pointer; or cause, detail, pointer. -/
abbrev FarAt := Except (Nat × Nat × Ptr) (Nat × Nat × Ptr)

/-- The pointer of a far access in a lane (R288). -/
def farPtr (g : Group) (a : Opnd) (off : BitVec 22) (l : Nat) : Ptr := ptrAdd (srcD g a 2 l) off.toInt

/-- The check of one lane (R288, R20, R438). -/
def farPlace (c : Ctx) (a : Opnd) (off : BitVec 22) (size : Nat) (k : Acc) (l : Nat) : FarAt :=
  let p := farPtr c.g a off l
  if ptrVa p % size ≠ 0 then .error (cFARALIGN, 0, p)
  else match farCheck c.s c.ld (pinRoot c.g.pin) c.t.bounds (c.level == .user) p size k with
    | .error e => .error (e.1, e.2, p)
    | .ok x => if linkDown c.s x.1 then .error (cFARTIMEOUT, 0, p) else .ok (x.1, x.2, p)

/-- What all accesses of one far instruction share. -/
structure FarOp where
  a : Opnd
  off : BitVec 22
  sz : Sz
  acc : Acc
  scope : Scope
  ord : Ord
  dst : Option Opnd

/-- Is the access an acquire. -/
def ordAcq : Ord → Bool
  | .acq | .ar => true
  | _ => false

/-- Is the access a release. -/
def ordRel : Ord → Bool
  | .rel | .ar => true
  | _ => false

/-- Is the access one of a request of atomics (R292). -/
def FarKind.atomic : FarKind → Bool
  | .amo _ _ | .cas _ _ => true
  | _ => false

/-- Does the access write. -/
def FarKind.writes : FarKind → Bool
  | .load => false
  | _ => true

/-- Cycles of the far timeout (R294): FARTMO in units of 50 µs, at 3.0 GHz. -/
def farTimeout (s : State) (ld : Nat) : Nat := ldReg s ld 0x400 * 150000

/-- What a far access releases at its location (R124, R404): what its own qualifier and the lane's fences say; a write of a queue's
TAIL is a release to the command processor and to hosts. -/
def farRels (op : FarOp) (k : FarKind) (pa : Nat) (o : LaneOrd) (before : List Nat) : List (Scope × List Nat) :=
  (if ordRel op.ord then [(op.scope, before)] else []) ++ (if k.writes then o.fences else []) ++
    if k.writes && isTail pa then [(.sys, before)] else []

/-- One lane's access is handed over (R119, R125, R292): a release follows what it releases. -/
def farIssue (c : Ctx) (op : FarOp) (base : Nat) (s : State) (l : Nat) (m : LaneMask) (k : FarKind) (pa leaf : Nat) (p : Ptr) : State :=
  match groupOf s c.r with
  | none => s
  | some g =>
    let id := s.nextId
    let size := op.sz.bytes
    let mine := s.far.filter fun f => (f.r == c.r && f.lane == l || base ≤ f.id) && overlap f.pa f.sz.bytes pa size
    let req := if k.atomic then
        match s.far.find? fun f => base ≤ f.id && f.pa == pa with
        | some f => f.req
        | none => id
      else id
    let o := laneOrd g l
    let before := union (union (pendOf s c.r l) (obsOf s g l)) (pastOf s g l)
    let rls := farRels op k pa o before
    let f : Far := ⟨id, req, c.r, c.t.core, l, k, pa, op.sz, if ordAcq op.ord then [op.scope] else [], rls,
      rls.foldl (fun a x => union a x.2) (union (pastOf s g l) (mine.map Far.id)), op.dst, m, c.u.pc, c.u.prio, p,
      s.cycle + farTimeout s c.ld, bit1 leaf 4, bit1 leaf 7 && k.writes, c.inHandler⟩
    let past := if op.ord = .ar then union before [id] else if ordAcq op.ord then union (pastOf s g l) [id] else pastOf s g l
    let s := modGroup s c.r fun g => setOrd g { laneOrd g l with past := past }
    { s with far := s.far ++ [f], nextId := id + 1 }

/-- The results outstanding of accesses: every register of D for each of them. -/
def outFar (d : Option Opnd) (sz : Sz) (ids : List Nat) : List Outst := match d with
  | none => []
  | some d => ids.flatMap fun i => (keysOf d sz.regs).map fun k => ⟨k, .far i, false⟩

/-- The lanes of a far instruction that make an access: one where nothing is per lane (R292). -/
def farLanes (c : Ctx) (single : Bool) : List Nat := accLanes c !single

/-- A far instruction after its data has been read (R288, R293, R296): `kind` gives each lane's access, `note` acts on the
machine for the lanes that go on. -/
def farRun (c : Ctx) (op : FarOp) (single : Bool) (kind : Nat → FarKind) (note : List Nat → State → State) : Res :=
  let at' := (farLanes c single).map fun l => (l, farPlace c op.a op.off op.sz.bytes op.acc l)
  let good := at'.filterMap fun x => match x.2 with
    | .ok y => some (x.1, y)
    | .error _ => none
  let bad := at'.filterMap fun x => match x.2 with
    | .ok _ => none
    | .error e => some (x.1, e)
  let base := c.s.nextId
  let s := at'.foldl (fun s x => walkRead s c.ld (pinRoot c.g.pin) (ptrVa (farPtr c.g op.a op.off x.1))) c.s
  let s := good.foldl (fun s x => farIssue c op base s x.1 (if single then c.act else maskOf [x.1]) (kind x.1) x.2.1 x.2.2.1 x.2.2.2) s
  let s := note (good.map (·.1)) s
  let s := bad.foldl (fun s x => if x.2.1 == cNOPERM && x.2.2.1 == 1 then
    askMove s c.ld c.gr.slot (ptrVa (farPtr c.g op.a op.off x.1)) c.gr.id else s) s
  let ids := (List.range good.length).map (base + ·)
  let wait : Option Wait := if good.any fun x => bit1 x.2.2.1 4 then some (.far ids) else none
  let outs := outFar op.dst op.sz ids
  match bad with
  | [] => match wait with
    | none => .ok s .next outs none
    | some w => .ok s (.wait w) outs none
  | (l, e) :: _ =>
    .ok s (.split (if single then c.act else maskOf (bad.map (·.1))) e.1 e.2.1 e.2.2 l wait) outs none

/-- FLD (R289). -/
def execFld (x : FldA) (s : State) : Host.Outcome State Fault Refusal :=
  withIssue x.h false s fun c =>
    if !c.any then done c.s []
    else farRun c ⟨x.a, x.off, x.sz, .read, x.scope, x.ord, some x.d⟩ (!x.a.isV && !x.d.isV) (fun _ => .load) fun _ s => s

/-- The data of FST in a lane after its tag check (R289): does it violate, and what is written. -/
def fstData (c : Ctx) (x : FstA) (l : Nat) : Bool × Nat :=
  let v := (srcData c.g x.b x.sz l).toNat
  if x.d.tag = 0 then (false, fld v 0 (8 * x.sz.bytes)) else tagBytes (getB c.t x.d.tag) x.tf x.sz.bytes v

/-- FST (R289). -/
def execFst (x : FstA) (s : State) : Host.Outcome State Fault Refusal :=
  withIssue x.h false s fun c =>
    let single := !x.a.isV && !x.b.isV
    let t := x.d.tag
    if !c.any then done c.s []
    else match (farLanes c single).find? fun l => tagTraps (getB c.t t) && (fstData c x l).1 with
      | some l => .trapIn (modTeam c.s c.t.r (flagBound t)) ⟨cBOUND, t, some l, farPtr c.g x.a x.off l, 0, false⟩
      | none =>
        farRun c ⟨x.a, x.off, x.sz, .write, x.scope, x.ord, none⟩ single
          (fun l => .store (BitVec.ofNat 128 (fstData c x l).2))
          fun ls s => if ls.any fun l => (fstData c x l).1 then modTeam s c.t.r (flagBound t) else s

/-- FATOM (R290). -/
def execFatom (x : FatomA) (s : State) : Host.Outcome State Fault Refusal :=
  withIssue x.h false s fun c =>
    if !c.any then done c.s []
    else farRun c ⟨x.a, x.off, x.sz, .atomic, x.scope, x.ord, some x.d⟩ (!x.a.isV && !x.b.isV && !x.d.isV)
      (fun l => .amo x.op (srcData c.g x.b x.sz l)) fun _ s => s

/-- FCAS (R291). -/
def execFcas (x : FcasA) (s : State) : Host.Outcome State Fault Refusal :=
  withIssue x.h false s fun c =>
    if !c.any then done c.s []
    else farRun c ⟨x.a, x.off, x.sz, .atomic, x.scope, x.ord, some x.d⟩ (!x.a.isV && !x.b.isV && !x.t.isV && !x.d.isV)
      (fun l => .cas (srcData c.g x.b x.sz l) (srcData c.g x.t x.sz l)) fun _ s => s

/-! FENCE (R297, R125, R127). -/

/-- What a group's stores to buffers that a lane has seen bring with them: the group's earlier stores (R135) (DEDUCED, log 7). -/
def storesSeen (s : State) (obs : List Nat) : List Nat :=
  (s.hist.filter fun w => w.grp.isSome && obs.contains w.id).flatMap fun w =>
    (s.hist.filter fun x => x.grp == w.grp && x.id < w.id).map Wr.id

/-- A fence in a lane: reads before it acquire at its scope, writes after it release at its scope. -/
def fenceLane (x : FenceA) (r : GroupRef) (core : Nat) (s : State) (l : Nat) : State :=
  match groupOf s r with
  | none => s
  | some g =>
    let o := laneOrd g l
    let acq := ordAcq x.ord
    let reads := (s.far.filter fun f => f.r == r && f.lane == l && (match f.kind with
      | .store _ => false
      | _ => true)).map Far.id
    let s := if acq then
        { s with far := s.far.map fun f => if reads.contains f.id then { f with acqs := f.acqs ++ [x.scope] } else f } else s
    let who : Party := .lane r core
    let seen := if acq then union (acquired s who [x.scope] o.seen) (union (obsOf s g l) (storesSeen s o.obs)) else []
    let earlier := if x.ord = .ar then acquired s who [x.scope] s.arDone else []
    let past := union (pastOf s g l) (union earlier (if acq then union reads seen else []))
    let before := union (union (pendOf s r l) (obsOf s g l)) past
    let fences := if ordRel x.ord && !before.isEmpty then o.fences ++ [(x.scope, before)] else o.fences
    let past := if x.ord = .ar then before else past
    let s := if x.ord = .ar && !before.isEmpty then { s with arDone := s.arDone ++ [⟨s.nextId, 0, 0, who, x.scope, before⟩] } else s
    modGroup s r fun g => setOrd g { o with past := past, fences := fences }

/-- FENCE (R297): only FENCE.ar holds its entry, until every earlier access is performed; an acquire after an ASTAT of a
poisoned object consumes the error (R355). -/
def execFence (x : FenceA) (s : State) : Host.Outcome State Fault Refusal :=
  withIssue x.h false s fun c =>
    match (if c.any && ordAcq x.ord && x.scope != .grp then c.g.polled else none) with
    | some cause => .kill c.s cause 0
    | none =>
    let s := c.lanes.foldl (fenceLane x c.r c.t.core) c.s
    let ids := match groupOf s c.r with
      | none => []
      | some g => pending s (beforeOf s c.r g c.act)
    if x.ord = .ar && !ids.isEmpty then .ok s (.wait (.far ids)) [] none else done s []

end Sys2Proof.Machine
end

