-- ==== Sys2Proof/Machine/Perform.lean ====
section
/-! DEFINITION. Far accesses at their homes (spec/05_consistency.md R117 to R132; spec/11_memory_instructions.md R288 to R296;
spec/04_device_memory.md R101, R102): performing them, their results, timeouts. -/

namespace Sys2Proof.Machine

/-- The new value of a far atomic (R290), at n bits. -/
def amoVal (op : AtomOp) (n o b : Nat) : Nat :=
  let z (x : Nat) := toIntN n true x
  match op with
  | .add => (o + b) % 2 ^ n
  | .smin => if z o ≤ z b then o else b
  | .smax => if z o < z b then b else o
  | .umin => min o b
  | .umax => max o b
  | .and => o &&& b
  | .or => o ||| b
  | .xor => o ^^^ b
  | .exch => b
  | .fadd => roundN32 (FVal.add .rne (decodeF fF32 o) (decodeF fF32 b))

/-- An access at its home: the value read, how the read ended, and what it wrote (R289 to R291): none, a plain write (false)
or a read-modify-write (true). -/
def farHome (s : State) (f : Far) : State × Nat × RdSt × Option Bool :=
  let k := f.sz.bytes
  let who : Who := .sup f.r.team.ld
  match f.kind with
  | .load => let r := busRead s who f.pa k; (r.2.2, ofBytes r.1, r.2.1, none)
  | .store x => (busPut s who f.pa (bytesOf x.toNat k), 0, .ok, some false)
  | .amo op x =>
    let r := busRead s who f.pa k
    let o := ofBytes r.1
    if r.2.1 = .ok then
      (busPut r.2.2 who f.pa (bytesOf (amoVal op (8 * k) o (x.toNat % 2 ^ (8 * k))) k), o, .ok, some true)
    else (r.2.2, o, r.2.1, none)
  | .cas e x =>
    let r := busRead s who f.pa k
    let o := ofBytes r.1
    if r.2.1 = .ok ∧ o = e.toNat % 2 ^ (8 * k) then (busPut r.2.2 who f.pa (bytesOf x.toNat k), o, .ok, some true)
    else (r.2.2, o, r.2.1, none)

/-- Does an access read. -/
def FarKind.reads : FarKind → Bool
  | .store _ => false
  | _ => true

/-- What a far load finds (R119, R128): the location as it stands or as it stood before writes that the load does not know of. An
atomic, an SC access and a device register read what stands there. -/
def farView (s : State) (f : Far) (v : Nat) : View :=
  let known := match groupOf s f.r with
    | none => expand s f.after
    | some g => knownBy s g f.lane f.after
  if f.kind == .load && !f.sc && areaOf f.pa != .regs then viewOf s known f.pa (bytesOf v f.sz.bytes)
  else ⟨bytesOf v f.sz.bytes, [], ((s.hist.filter fun w => overlap w.loc w.old.length f.pa f.sz.bytes).map Wr.id),
    tagsAt s f.pa f.sz.bytes⟩

/-- A write ends the release sequences of what it overwrites whole, unless it is a read-modify-write (R124), records its own
releases, and is one that readers may miss (R128). -/
def recordWrite (s0 s : State) (f : Far) (rmw : Bool) : State :=
  let k := f.sz.bytes
  let s := if areaOf f.pa = .regs then s else keepWrite s0 s f.id f.pa (storedBytes s0 f.pa k) false none [] (some f.r.team)
  let s := if rmw then s else dropTags s f.pa k
  let new := f.rls.filterMap fun x =>
    let p := farLive s x.2
    if p.isEmpty then none else some ⟨f.id, f.pa, k, .lane f.r f.core, x.1, p⟩
  tellEngines { s with rels := s.rels ++ new } f.pa k new

/-- What an access does to the order of others once performed (R124, R125); `s0` is the machine before it. -/
def farOrder (s0 s : State) (f : Far) (wrote : Option Bool) (v : View) : State :=
  let tags := if f.kind.reads then v.tags else []
  let got := acquired s (.lane f.r f.core) f.acqs tags
  let s := match wrote with
    | none => s
    | some rmw => recordWrite s0 s f rmw
  let obs := v.kept ++ (if wrote.isSome && areaOf f.pa != .regs then [f.id] else [])
  let s := if tags.isEmpty && obs.isEmpty then s else modGroup s f.r fun g =>
    let g := addObs s (BitVec.twoPow 32 f.lane) obs g
    let o := laneOrd g f.lane
    setOrd g { o with seen := o.seen ++ tags }
  let s := addJoin s f.id (union (union v.kept got) f.after)
  trimOrd { s with far := s.far.filter fun x => x.id != f.id }

/-- Is a result of an access outstanding in a group. -/
def owes (g : Group) (id : Nat) : Bool := g.outst.any fun o => o.due == .far id

/-- The results of an access are no longer outstanding. -/
def settled (id : Nat) (g : Group) : Group := { g with outst := g.outst.filter fun o => o.due != .far id }

/-- The destination of an access is written (R289). -/
def farResult (s : State) (f : Far) (v : Nat) : State :=
  let t := modGroup s f.r fun g =>
    if owes g f.id then
      settled f.id (match f.dst with
        | none => g
        | some d => (lanesOf f.lanes).foldl (fun g l => setLoad g d f.sz l (BitVec.ofNat 128 v)) g)
    else g
  if s.sram.isEmpty then t
  else match f.dst, groupOf s f.r with
    | some d, some g => if owes g f.id then freshDst t f.r d f.sz.regs (lanesOf f.lanes) else t
    | _, _ => t

/-- Entries that waited for accesses which are now performed move on; traps held for results are taken (R426). -/
def farWake (s : State) : State :=
  let over' (e : Entry) : Bool := e.waits fun w => match w with
    | .far ids => (pending s ids).isEmpty
    | _ => false
  let one (g : Group) : Group :=
    if (g.frontier ++ (g.handler.map Handler.frontier).getD []).any over' then wakeIf over' g else g
  let s : State := { s with teams := s.teams.map fun (t : Team) => { t with groups := t.groups.map one } }
  s.teams.foldl (fun s t => t.groups.foldl (fun s g => if g.pendTrap.isSome then takePending s ⟨t.r, g.id⟩ else s) s) s

/-- One access is performed: a consumed error kills the gang (R295, R434). -/
def farPerform (s0 : State) (f : Far) : State :=
  let x := farHome s0 f
  let v := farView s0 f x.2.1
  let s := viewTick (farOrder s0 x.1 f x.2.2.2 v)
  let s := if x.2.2.1 = .ok then s else kvConsume s f.pa
  match x.2.2.1 with
  | .ok => farResult s f (ofBytes v.bytes)
  | .poison => if (teamOf s f.r.team).isSome then killTeam s f.r.team cPOISON (f.pa / 32 * 32) else s
  | .uncorr => if (teamOf s f.r.team).isSome then killTeam s f.r.team cUECONS (f.pa / 32 * 32) else s

/-- An access is gone without being performed. -/
def farDrop (s : State) (f : Far) : State :=
  trimOrd { s with far := s.far.filter fun x => x.id != f.id }

/-- The members of an access's request that are still to be performed (R292). -/
def farRequest (s : State) (f : Far) : List Far := s.far.filter fun x => x.req == f.req

/-- A request comes about (R288): one whose team is gone is performed or discarded (R149, R432, R440). -/
def farCome (s : State) (rs : List Far) : State :=
  if rs.any (fun f => teamStopped s f.r.team) && Config.freeBool s.frees then bury (farWake (tick (rs.foldl farDrop s)))
  else bury (farWake (tick (rs.foldl (fun s f => if s.far.any fun x => x.id == f.id then farPerform s f else s) s)))

/-- The lanes of an access leave the entries they stand in and park at the access's instruction (DEDUCED, log 52). -/
def farPull (f : Far) (cause : Nat) (fs : List Entry) : List Entry :=
  let live := fs.foldl (fun m e => m ||| e.mask) 0
  let m := f.lanes &&& live
  if m = 0 then fs
  else ((fs.map fun e => { e with mask := e.mask &&& ~~~m }).filter fun e => e.mask != 0) ++
    [⟨f.pc, f.prio, m, 0, .parked cause 0 f.ptr (lowest m)⟩]

/-- May an access end in a timeout now: its group's frontier is in force and has room for the parked entry (R160, R163, R428)
(DEDUCED, log 52). -/
def farFails (s : State) (f : Far) : Bool := match groupOf s f.r with
  | none => true
  | some g => f.hand || (g.handler.isNone && (farPull f cFARTIMEOUT g.frontier).length ≤ g.depth)

/-- Is an access cut off behind a link that is down (R438): it is not performed any more, unless its group has no room for the parked entry
(DEDUCED, log 52). -/
def farCut (s : State) (f : Far) : Bool :=
  f.lanes != 0 && linkDown s f.pa && (farFails s f || ((groupOf s f.r).bind Group.handler).isSome)

/-- FAR_ACCESS_PERFORMED (R288): an access's request comes about once everything it must follow has; one behind a link that is down ends in
FARTIMEOUT (R438). -/
def execFarAccessPerformed (id : Nat) (s : State) : Host.Outcome State Fault Refusal :=
  match s.far.find? fun f => f.id == id with
  | none => .next s
  | some f =>
    let rs := farRequest s f
    if !rs.all (farReady s) || farCut s f then .next s else .next (farCome s rs)

/-- Accesses with those that happen before them; `fuel` bounds the chain. -/
def farBefore (s : State) : Nat → List Nat → List Nat
  | 0, ids => ids
  | n + 1, ids => farBefore s n (union ids ((s.far.filter fun f => ids.contains f.id).flatMap fun f => pending s f.after))

/-- The access of some numbers that may be performed next. -/
def farNext (s : State) (ids : List Nat) : Option Far :=
  s.far.find? fun f => (farBefore s s.far.length (pending s ids)).contains f.id && (farRequest s f).all (farReady s)

/-- Accesses are performed now, with what happens before them: what must not come about before them then can; `fuel` bounds
their number. -/
def forceFar : Nat → List Nat → State → State
  | 0, _, s => s
  | n + 1, ids, s => match farNext s ids with
    | none => s
    | some f => forceFar n ids (farCome s (farRequest s f))

/-- Every access that happens before a moment is performed. -/
def forceAll (s : State) (ids : List Nat) : State := if (pending s ids).isEmpty then s else forceFar s.far.length ids s

/-- Writes of a logical device through COW leaves come before a tree operation that may end their permission (R56). -/
def forceCow (s : State) (ld : Nat) : State :=
  forceAll s ((s.far.filter fun f => f.cow && f.r.team.ld == ld).map Far.id)

/-- Does a word at an address start a tree operation of a port: writes through COW leaves come before it (R56, R453). -/
def beforePort (s : State) (pa : Nat) (v : DWord) : State := match devWord (pa / 8 * 8) with
  | .port _ _ => forceCow s (portLd v)
  | _ => s

/-! The issue of an instruction. -/

/-- What an instruction that reaches buffers, or that acts on memory when it issues, follows has come about by then (R125, R135, R138)
(DEDUCED, log 7). -/
def forceIssue (s : State) (u : Issuing) (i : Instr) : State :=
  if s.far.isEmpty then s
  else match groupOf s u.r with
    | none => s
    | some g =>
      let act := activeMask g (hdrOf i) u.mask
      if reachesBuffers i then
        forceAll s (if noOrder s then [] else (lanesOf act).foldl (fun a l => union a (pastOf s g l)) [])
      else if isKv i then forceAll s (forkOf s g act)
      else s

/-- Fetch, decode, check (R175, R192, R391), and what must have come about before the instruction acts: where that ends its gang, it
does not act. -/
def issueStep (s : State) (u : Issuing) : Issued :=
  match issueFetch s u with
  | .stop s => .stop s
  | .run i s =>
    if s.far.isEmpty then .run i s
    else
      let s := forceIssue s u i
      if (groupOf s u.r).isSome then .run i s else .stop { s with issuing := none }

/-- The octets that an instruction touches are closed before it acts (R302). -/
def closeFor (s : State) (u : Issuing) (i : Instr) : State := match groupOf s u.r with
  | none => s
  | some g =>
    if g.octets.isEmpty || activeMask g (hdrOf i) u.mask == 0 then s else modGroup s u.r fun g => (closes g i).foldl closeOct g

/-- Has a group taken, or does it hold, a Whole trap of the entry that issued (R424, R426). -/
def trappedAt (u : Issuing) (g : Group) : Bool :=
  let here (x : Trap) : Bool := x.pc == u.pc && x.mask == u.mask && !x.parked && !x.staging
  (g.handler.map Handler.trap).any here || g.pendTrap.any here

/-- Does an entry wait where one has issued. -/
def waitsAt (u : Issuing) (g : Group) : Bool := (frontOf g).any fun e => e.pc == u.pc && e.prio == u.prio && e.mask &&& u.mask != 0 && e.st != .ready

/-- After an instruction has acted: one that has trapped Whole has had no effect, so its octets stay open (R192, R426); the words of the
registers that one has written have fresh check bits (R91). `s` is the machine in which it was about to act. -/
def afterIssue (s : State) (u : Issuing) (i : Instr) (x : Host.Outcome State Fault Refusal) : Host.Outcome State Fault Refusal :=
  match x, groupOf s u.r with
  | .next t, some g =>
    if g.octets.isEmpty && s.sram.isEmpty then .next t
    else match groupOf t u.r with
      | none => .next t
      | some h =>
        if g.handler.isNone && g.pendTrap.isNone && trappedAt u h then
          .next (modGroup t u.r fun h => { h with v := g.v, octets := g.octets })
        else if waitsAt u h then .next t
        else .next (freshRegs t u.r (regsWritten g i (activeMask g (hdrOf i) u.mask)))
  | x, _ => x

/-! Accesses that end in FARTIMEOUT (R294, R23, R438). -/

/-- The lanes of an access park; a trap that the group holds until results are written gives way to theirs, and is raised again when its
entry comes to issue or wait again (R426; DEDUCED, log 52). -/
def parkFar (f : Far) (g : Group) : Group :=
  let fs := farPull f cFARTIMEOUT g.frontier
  if fs = g.frontier then g else { g with frontier := fs, pendTrap := none }

/-- An access traps FARTIMEOUT in its lanes; its destination is not written. -/
def farFail (s : State) (f : Far) : State :=
  match groupOf s f.r with
  | none => s
  | some g =>
    let s := modGroup s f.r (settled f.id)
    if f.hand then
      match g.handler with
      | none => s
      | some h => raiseTrap s f.r ⟨cFARTIMEOUT, 0, f.lanes, lowest f.lanes, f.pc, h.trap.prio, f.ptr, 0, false, true, false⟩
    else raiseParked (modGroup s f.r (parkFar f)) f.r

/-- What becomes of an access that has timed out or lost its link (R294): a load is gone; a store or atomic is performed,
never performed, or performed later, as nothing fixes. -/
def farLose (s : State) (f : Far) : State :=
  if !f.kind.writes then farDrop s f
  else if Config.freeBool s.frees then farDrop (tick s) f
  else if Config.freeBool (s.frees + 1) && farReady s f then
    let s0 : State := { s with frees := s.frees + 2 }
    let x := farHome s0 f
    farOrder s0 x.1 f x.2.2.2 (farView s0 f x.2.1)
  else { s with frees := s.frees + 2, far := s.far.map fun x => if x.id == f.id then { x with dst := none, lanes := 0 } else x }

/-- The expander port behind which a physical address lies. -/
def portOf (pa : Nat) : Option Nat :=
  if areaOf pa = .expander then some (Config.expanderPort (pa / 2 ^ 16) % 4) else none

/-- An expander link is lost (R438): it is marked down and logged, and every access that is under way behind it ends, some of them once
their group can take the trap (log 52). -/
def linkLost (s : State) (port : Nat) : State :=
  if pkgReg s (0x820 + port) % 2 = 0 then s
  else
    let s := logEvent (setPkgReg s (0x820 + port) 0) 0x04 0 0 0 0 port
    farWake ((s.far.filter fun f => portOf f.pa == some port && f.lanes != 0).foldl (fun s f =>
      if (s.far.any fun x => x.id == f.id) && farFails s f then farFail (farLose s f) f else s) s)

/-- FAR_TIMEOUT (R294); one behind an expander link loses the link (R438). -/
def execFarTimeout (id : Nat) (s : State) : Host.Outcome State Fault Refusal :=
  match s.far.find? fun f => f.id == id && f.lanes != 0 && farFails s f with
  | none => .next s
  | some f =>
    let s := farWake (farFail (farLose { s with cycle := max s.cycle f.due } f) f)
    .next (match portOf f.pa with
      | none => s
      | some p => linkLost s p)

end Sys2Proof.Machine
end

