-- ==== Sys2Proof/Machine/Dram.lean ====
section
/-! DEFINITION. The memory controllers' own steps: hotness intervals, scrubbing, open rows (spec/02_translation_trees.md R61 to R63;
spec/04_device_memory.md R94, R97, R103 to R106, R108). -/

namespace Sys2Proof.Machine

/-! Hotness (R61 to R63). -/

/-- Does a listed frame come first: estimate descending, frame ascending. -/
def hotterThan (a b : Nat × Nat) : Bool := b.2 < a.2 || (a.2 == b.2 && a.1 < b.1)

/-- Insert into a sorted list. -/
def hotInsert (x : Nat × Nat) : List (Nat × Nat) → List (Nat × Nat)
  | [] => [x]
  | y :: r => if hotterThan x y then x :: y :: r else y :: hotInsert x r

/-- The list sorted. -/
def hotSort (l : List (Nat × Nat)) : List (Nat × Nat) := l.foldl (fun a x => hotInsert x a) []

/-- A record of the ring. -/
def hotRecord (ivl stack frame est : Nat) : Nat := ivl % 256 * 2 ^ 56 + stack * 2 ^ 52 + frame % 2 ^ 36 * 2 ^ 16 + est % 2 ^ 16

/-- The 32 records of a controller; the frame of a position that the list does not fill is left open. -/
def hotRecords (s : State) (stack : Nat) (h : Hot) : List Nat :=
  let l := hotSort h.list
  (List.range 32).map fun i => match l[i]? with
    | some e => hotRecord h.ivl stack e.1 e.2
    | none => hotRecord h.ivl stack (Config.freeNat (s.frees + i)) 0

/-- HOTNESS_INTERVAL_END: the batch is appended whole or discarded, then sketch and list are cleared (DEDUCED, log 41). -/
def execHotnessIntervalEnd (stack : Nat) (s : State) : Host.Outcome State Fault Refusal :=
  agent s fun s =>
    if 8 ≤ stack then s
    else
      let h := s.hot.getD stack ⟨[], [], 0⟩
      let size := pkgReg s 0x814
      let prod := pkgReg s 0x815
      let s' :=
        if (prod + 2 ^ 64 - pkgReg s 0x816) % 2 ^ 32 + 32 ≤ size then
          let s' := (hotRecords s stack h).zipIdx.foldl (fun s r =>
            hwWrite s (pkgReg s 0x813 + 8 * ((prod + r.2) % 2 ^ 32 % size)) (bytesOf r.1 8)) s
          setPkgReg { s' with frees := s.frees + 32 } 0x815 ((prod + 32) % 2 ^ 32)
        else setPkgReg s 0x817 (pkgReg s 0x817 + 1)
      { s' with hot := lset s'.hot stack ⟨[], [], h.ivl + 1⟩ }

/-! Scrubbing (R103 to R106). -/

/-- The physical address of a column of a row (R94, R108). -/
def dramAddr (s : State) (stack pc row bank col : Nat) : Nat :=
  stack * 2 ^ 36 + row * 2 ^ 22 +
    if pkgReg s (0x800 + stack) ≤ row * 2 ^ 22 then bank / 16 * 2 ^ 21 + bank % 16 * 2 ^ 17 + pc * 2 ^ 11 + col
    else (bank ^^^ fld row 6 5) * 2 ^ 17 + col / 128 * 2 ^ 13 + (pc ^^^ fld row 0 6) * 2 ^ 7 + col % 128

/-- A scrub read of a sector, which passes through the die cache (R98): clear-pending lines are passed over (R441). -/
def scrubSec (s : State) (pa : Nat) : State :=
  if isPend s (pa / 128) then s else (readSec (dieAccess s (pa / 128) (sectorMask pa 32) 0) (pa / 32)).2.2

/-- A row's score is replaced; one whose score reaches 0 leaves both lists. -/
def setScore (x : Scrub) (row bank sc : Nat) : Scrub :=
  if sc = 0 then
    { x with
      scores := x.scores.filter fun e => !(e.1 == row && e.2.1 == bank)
      hot := x.hot.filter fun h => h != (row, bank) }
  else { x with scores := x.scores.map fun e => if e.1 = row ∧ e.2.1 = bank then (row, bank, sc) else e }

/-- The patrol passes a row: its score halves, but for one that stays at 255 (R105, R106). -/
def passRow (x : Scrub) (row bank : Nat) : Scrub :=
  let sc := scoreOf x row bank
  if sc = 255 then x else setScore x row bank (sc / 2)

/-- PATROL_SCRUB: the next sector in ascending (row, bank, column) order, 64 to a row. -/
def execPatrolScrub (stack pc : Nat) (s : State) : Host.Outcome State Fault Refusal :=
  agent s fun s =>
    if 8 ≤ stack || 64 ≤ pc then s
    else
      let k := 64 * stack + pc
      let p := (scrubOf s k).pos
      let bank := p / 64 % 32
      let row := p / 2048
      let s := scrubSec s (dramAddr s stack pc row bank (32 * (p % 64)))
      let x := { scrubOf s k with pos := (p + 1) % 2 ^ 25 }
      setScrub s k (if p % 64 = 63 then passRow x row bank else x)

/-- HOT_LIST_SCRUB: every sector of the rows on the hot list. -/
def execHotListScrub (stack pc : Nat) (s : State) : Host.Outcome State Fault Refusal :=
  agent s fun s =>
    if 8 ≤ stack || 64 ≤ pc then s
    else (scrubOf s (64 * stack + pc)).hot.foldl (fun s h =>
      (List.range 64).foldl (fun s i => scrubSec s (dramAddr s stack pc h.1 h.2 (32 * i))) s) s

/-! Open rows (R97). -/

/-- A bank's open row closes. -/
def closeRow (s : State) (stack pc bank : Nat) : State :=
  { s with banks := s.banks.map fun b => if b.key = (64 * stack + pc) * 32 + bank then { b with row := none } else b }

/-- ROW_CLOSE_TIMEOUT. -/
def execRowCloseTimeout (stack pc bank : Nat) (s : State) : Host.Outcome State Fault Refusal :=
  agent s fun s => if stack < 8 ∧ pc < 64 ∧ bank < 32 then closeRow s stack pc bank else s

/-- DRAM_REFRESH. -/
def execDramRefresh (stack pc bank : Nat) (s : State) : Host.Outcome State Fault Refusal :=
  agent s fun s => if stack < 8 ∧ pc < 64 ∧ bank < 32 then closeRow s stack pc bank else s

end Sys2Proof.Machine
end

