-- ==== Sys2Proof/Machine/Stream.lean ====
section
/-! DEFINITION. Stream windows and their programs (spec/16_stream_engines.md R337 to R350; spec/07_instruction_format.md R194,
R195): SBIND, SGO, SREL, AWAIT, ASTAT, the stream commands; and what ladders and windows share (spec/18_ladders.md R361 to
R363, R375). -/

namespace Sys2Proof.Machine

/-! Ladder descriptors (R362, R363). -/

/-- A descriptor of the kernel's, as read at launch. -/
def ladRaw (gr : Grid) (lad : Nat) : Nat := gr.ladders.getD lad 0
/-- Rungs of a ladder. -/
def ladRungs (x : Nat) : Nat := fld x 0 2 + 1
/-- Result bytes. -/
def ladRsz (x : Nat) : Nat := 4 * 2 ^ fld x 6 2
def ladResult (x : Nat) : Ptr := BitVec.ofNat 64 (fld x 64 64)
def ladStride (x : Nat) : Nat := fld x 128 40
def ladArgp (x : Nat) : DWord := BitVec.ofNat 64 (fld x 192 64)
/-- Rung k's entry. -/
def rungRaw (x k : Nat) : Nat := fld x (512 + 384 * k) 384
def rungPwin (e : Nat) : Nat := fld e 261 3
def rungPen (e : Nat) : Bool := bit1 e 264
def rungAny (e : Nat) : Bool := bit1 e 265
def rungSlots (e : Nat) : Nat := fld e 266 4
def rungFs (e : Nat) : Nat := 16 * fld e 270 6
def rungBud (e : Nat) : Nat := 8 * fld e 276 8
def rungStarve (e : Nat) : Nat := 64 * fld e 284 16
def rungFoff (e : Nat) : Nat := fld e 300 20
def rungEntry (e : Nat) : Nat := fld e 320 64

/-- A team's part of a ladder. -/
def ladOf (t : Team) (lad : Nat) : LadWin := t.lads.getD lad freeLad

/-- Items in bins or rung groups of a gang that satisfy p. -/
def anyItem (s : State) (k : GangRef) (p : Item → Bool) : Bool :=
  (match gangOf s k with
    | none => false
    | some g => g.bins.any fun l => l.any fun b => b.items.any p) ||
  (gangTeams s k).any fun t => t.groups.any fun g => g.items.any fun x => p x.2

/-- The gang of a team. -/
def gangKey (s : State) (r : TeamRef) : GangRef := ⟨r.ld, r.grid, r.team / gangSize s r⟩

/-- Rungs of a ladder whose patch is owed and has not gone out. -/
def owedRungs (gr : Grid) (t : Team) (lad : Nat) : List Nat :=
  (List.range (ladRungs (ladRaw gr lad))).filter fun r =>
    rungPen (rungRaw (ladRaw gr lad) r) && !(ladOf t lad).patched.contains r

/-- Can a team's programs hear of nothing more: its groups have ended and no patch is to come (R347). -/
def teamIdle (s : State) (t : Team) : Bool := match gridOf s t.r.ld t.r.grid with
  | none => false
  | some gr =>
    t.groups.all Group.ended && t.lads.all LadWin.closed && !anyItem s (gangKey s t.r) (fun i => i.team == t.r.team) &&
      (List.range t.lads.length).all fun l => (owedRungs gr t l).isEmpty

/-! Windows (R337). -/

/-- A window of a team. -/
def winOf (t : Team) (w : Nat) : Window := t.wins.getD w freeWindow

/-- Change a window. -/
def modWin (s : State) (r : TeamRef) (w : Nat) (f : Window → Window) : State :=
  modTeam s r fun t => { t with wins := lset t.wins w (f (winOf t w)) }

/-- Bytes of a slot. -/
def Binding.slotLen (b : Binding) : Nat := 16 * b.ssz

/-- The buffer of a window. -/
def Binding.buf (b : Binding) : Buf := if b.inA then .a else .w

/-- A binding record's fields (R339). -/
def bindingOf (x : Nat) : Binding :=
  ⟨bit1 x 212, fld x 208 3, bit1 x 207, fld x 184 23, fld x 160 16, fld x 156 4 + 1, fld x 152 4 + 1, bit1 x 148, fld x 128 20,
    BitVec.ofNat 64 (fld x 64 64), BitVec.ofNat 64 (fld x 0 64)⟩

/-- Check 4 of R341. -/
def bindingBad (x : Nat) (b : Binding) : Bool :=
  fld x 213 299 != 0 || bit1 x 211 || fld x 176 8 != 0 || fld x 149 3 != 0 || b.slots == 1 || b.ssz == 0 || b.wbase % 16 != 0 ||
    b.prog.toNat % 16 != 0 || (!b.noerr && b.errarr % 8 != 0)

/-- Checks 5 and 6 of R341. -/
def bindingFits (s : State) (t : Team) (b : Binding) : Option BufErr :=
  if !b.noerr ∧ gangSize s t.r ≤ b.errarr / 2 ^ 20 then some ⟨cGANGADDR, 0, BitVec.ofNat 64 b.errarr⟩
  else if bufLen t b.buf < b.wbase + b.slotLen * b.slots then
    some ⟨cBUFRANGE, 1, BitVec.ofNat 64 (if b.inA then t.member * 2 ^ 20 + b.wbase else b.wbase)⟩
  else if !b.noerr ∧ (arrAt s t.r b.errarr).isNone then some ⟨cBUFRANGE, 1, BitVec.ofNat 64 b.errarr⟩
  else none

/-- A window just bound. -/
def boundWindow (b : Binding) : Window :=
  { freeWindow with
    st := .bound, b := b, fills := List.replicate b.slots 0, rels := List.replicate b.slots 0
    rpast := List.replicate b.slots [], fops := List.replicate b.slots 0, pc := b.prog }

/-- SBIND (R341). -/
def execSbind (x : SbindA) (s : State) : Host.Outcome State Fault Refusal :=
  withIssue x.h false s fun c =>
    producer c (
      let a : Int := match x.a with
        | .im w => w.toInt
        | o => (srcD c.g o 1 c.low).toNat
      match recPlace c a with
      | .error e => trapA e.cause e.detail e.addr
      | .ok off =>
        if (winOf c.t x.win.toNat).st = .running then trapW cSTRPROG 5
        else withTouch c [(c.t.r, .a, off, 64)] fun s =>
          let raw := bufGet s c.t.r .a off 64
          let b := bindingOf raw
          if bindingBad raw b then trapW cSTRPROG 7
          else match bindingFits s c.t b with
            | some e => trapA e.cause e.detail e.addr
            | none => done (modWin s c.t.r x.win.toNat fun _ => boundWindow b) [])

/-- SGO (R342, R138, R49, R18). -/
def execSgo (x : SgoA) (s : State) : Host.Outcome State Fault Refusal :=
  withIssue x.h false s fun c =>
    producer c (
      if (winOf c.t x.win.toNat).st ≠ .bound then trapW cSTRPROG 5
      else
        let after := forkOf c.s c.g c.u.mask
        let s := copyPin c.s c.ld c.g.pin
        done { modWin s c.t.r x.win.toNat fun w =>
          { w with st := .running, pin := c.g.pin, bounds := c.t.bounds, after := after, pid := s.nextId, ahead := [] } with
          nextId := s.nextId + 1 } [])

/-- Has a window a program that has been started. -/
def Window.started (w : Window) : Bool := match w.st with
  | .unbound | .bound => false
  | _ => true

/-- A tile number, read as .n32 (R340). -/
def tileNo (c : Ctx) (b : Opnd) : Nat := (srcD c.g b 1 c.low).toNat % 2 ^ 32

/-- SREL (R348, R142): the refill follows every access that the group has made, by whichever of its lanes. -/
def execSrel (x : TileA) (s : State) : Host.Outcome State Fault Refusal :=
  withIssue x.h false s fun c =>
    if !c.any then done c.s []
    else
      let w := winOf c.t x.win.toNat
      let t := tileNo c x.b
      let k := t % w.b.slots
      if !w.started then trapW cSTRPROG 5
      else if w.fills.getD k 0 ≠ t / w.b.slots + 1 ∨ w.b.rc ≤ w.rels.getD k 0 then trapW cWINOVF 2
      else
        let ids := beforeOf c.s c.r c.g (BitVec.allOnes 32)
        done (modWin c.s c.t.r x.win.toNat fun w => { w with
          rels := lset w.rels k (w.rels.getD k 0 + 1)
          rpast := lset w.rpast k (union (w.rpast.getD k []) ids) }) []

/-! AWAIT and ASTAT (R349, R350). -/

/-- What an observer of an arrival object finds: nothing yet, or completion, with the error where there is one. -/
def objFound (s : State) (t : Team) (m off : Nat) : Option (Option (Nat × Nat)) :=
  let v := bufGet s (memberRef t m) .a off 8
  if bit1 v 63 then some (some (fld v 48 8, fld v 40 8)) else if fld v 0 40 = 0 then some none else none

/-- What an observer of tile t of a window finds. -/
def slotFound (w : Window) (t : Nat) : Option (Option (Nat × Nat)) :=
  let k := t % w.b.slots
  let n := t / w.b.slots
  let f := w.fills.getD k 0
  if n + 1 < f then some (some (cWINOVF, 3))
  else if f = n + 1 then some none
  else match w.st with
    | .error => some (some (w.cause, w.detail))
    | .ended => some (some (cSTRPROG, 9))
    | _ => none

/-- The address of an AWAIT.obj or ASTAT.obj (R276, R340). -/
def objPlace (c : Ctx) (mem : Bool) (a : Opnd) (off : BitVec 32) : Except BufErr BufAt :=
  let x : Int := match a with
    | .im w => w.toInt
    | o => (srcD c.g o 1 c.low).toNat
  bufPlace c.s c.t .a mem (x + off.toInt) 8 8 0

/-- Is a cause that of a consumed error (R349). -/
def isPoison (cause : Nat) : Bool := cause == cPOISON || cause == cUECONS

/-- What the lanes that observe an arrival object at zero, or a filled slot, join (R139, R140). -/
def objOps (s : State) (t : Team) (m off : Nat) : List Nat := arrOps s (bufLoc (memberRef t m) .a off)
def slotOps (s : State) (w : Window) (n : Nat) : List Nat := farLive s [w.fops.getD (n % w.b.slots) 0]

/-- The result of an AWAIT that issues: it joins what it has waited for and goes on, traps or kills, or waits. -/
def awaitRes (c : Ctx) (s : State) (x : Option (Option (Nat × Nat))) (ops : List Nat) (addr : DWord) (w : Wait) : Res := match x with
  | none => .ok s (.wait w) [] none
  | some none => done (modGroup s c.r (addPast c.act ops)) []
  | some (some e) => if isPoison e.1 then .kill s e.1 0 else .trapIn s ⟨e.1, e.2, none, addr, 0, false⟩

/-- AWAIT.obj (R349). -/
def execAwaitObj (x : AwaitObjA) (s : State) : Host.Outcome State Fault Refusal :=
  withIssue x.h false s fun c =>
    if !c.any then done c.s []
    else match objPlace c x.mem x.a x.off with
      | .error e => trapA e.cause e.detail e.addr
      | .ok p => withTouch c [(memberRef c.t p.m, .a, p.off, 8)] fun s =>
        awaitRes c s (objFound s c.t p.m p.off) (objOps s c.t p.m p.off) (BitVec.ofNat 64 (p.m * 2 ^ 20 + p.off)) (.obj p.m p.off)

/-- AWAIT.slot (R349). -/
def execAwaitSlot (x : TileA) (s : State) : Host.Outcome State Fault Refusal :=
  withIssue x.h false s fun c =>
    if !c.any then done c.s []
    else
      let w := winOf c.t x.win.toNat
      if !w.started then trapW cSTRPROG 5
      else awaitRes c c.s (slotFound w (tileNo c x.b)) (slotOps c.s w (tileNo c x.b)) 0 (.slot x.win.toNat (tileNo c x.b))

/-- AWAIT_RETURN (R349): what a waiting AWAIT observes has come about. -/
def execAwaitReturn (r : GroupRef) (lane : Nat) (s : State) : Host.Outcome State Fault Refusal :=
  agent s fun s => match teamOf s r.team, groupOf s r with
  | some t, some g =>
    let go (e : Entry) (x : Option (Option (Nat × Nat))) (ops : List Nat) (addr : Nat) : State := match x with
      | none => s
      | some none => modGroup s r fun g => moveOn e.mask (addPast e.mask ops g)
      | some (some y) => if isPoison y.1 then killTeam s r.team y.1 0 else trapEntry s r e y.1 y.2 (BitVec.ofNat 64 addr)
    if g.pendTrap.isSome || !gangHere s t then s
    else match waitAt g lane with
      | some (e, .obj m off) => go e (objFound s t m off) (objOps s t m off) (m * 2 ^ 20 + off)
      | some (e, .slot w n) => go e (slotFound (winOf t w) n) (slotOps s (winOf t w) n) 0
      | _ => s
  | _, _ => s

/-- What a lane that has read an object at zero has of the operations that lowered it, until an acquire at .team scope or wider (R139). -/
def objTag (s : State) (c : Ctx) (m off : Nat) : List RelTag :=
  let ids := objOps s c.t m off
  if ids.isEmpty then [] else [⟨s.nextId, bufLoc (memberRef c.t m) .a off, 8, .lane c.r c.t.core, .team, ids⟩]

/-- ASTAT.obj (R350): the object's bits; what it tells of a consumed error takes effect at an acquire (R355). -/
def execAstatObj (x : AstatObjA) (s : State) : Host.Outcome State Fault Refusal :=
  withIssue x.h false s fun c =>
    if !c.any then done c.s []
    else match objPlace c x.mem x.a x.off with
      | .error e => trapA e.cause e.detail e.addr
      | .ok p => withTouch c [(memberRef c.t p.m, .a, p.off, 8)] fun s =>
        let v := bufGet s (memberRef c.t p.m) .a p.off 8
        let seen : Option Nat := if bit1 v 63 && isPoison (fld v 48 8) then some (fld v 48 8) else none
        let tags := if fld v 0 40 = 0 && !bit1 v 63 then objTag s c p.m p.off else []
        let s := noteRead (modGroup s c.r fun g =>
          { setDst g x.d 2 c.low (BitVec.ofNat 64 v) with polled := if seen.isSome then seen else g.polled }) c.r c.act [] tags
        done (tick s) (outFree c.s (keysOf x.d 1))

/-- The word of ASTAT.slot (R350). -/
def slotWord (w : Window) (k : Nat) : Nat :=
  (if w.st = .error then 2 ^ 63 else 0) + (if w.st = .ended then 2 ^ 62 else 0) + w.cause % 256 * 2 ^ 48 + w.detail % 256 * 2 ^ 40 +
    w.rels.getD k 0 % 256 * 2 ^ 32 + w.fills.getD k 0 % 2 ^ 32

/-- ASTAT.slot (R350). -/
def execAstatSlot (x : AstatSlotA) (s : State) : Host.Outcome State Fault Refusal :=
  withIssue x.h false s fun c =>
    if !c.any then done c.s []
    else
      let w := winOf c.t x.win.toNat
      if !w.started then trapW cSTRPROG 5
      else resFree c (keysOf x.d 1) (setDst c.g x.d 2 c.low (BitVec.ofNat 64 (slotWord w (tileNo c x.b % w.b.slots))))

/-! The commands of a program (R343 to R345). -/

/-- The encoding error of a command word (R195, R343): 1 for a code, 2 for a field. -/
def cmdErr (v : Nat) : Option Nat :=
  let code := fld v 0 8
  let m := fld v 8 8
  let rest (lo : Nat) : Bool := v / 2 ^ lo == 0
  let plain (b : Bool) : Option Nat := if b then none else some 2
  if code = 1 then plain (m = 0)
  else if code = 2 then plain (m = 0 && rest 120)
  else if code = 3 then plain (m < 16 && (bit1 m 0 || m = 0) && rest 72)
  else if code = 4 ∨ code = 7 ∨ code = 8 ∨ code = 10 ∨ code = 11 then plain (m = 0 && rest 16)
  else if code = 5 then plain (fld m 0 3 < 4 && m < 24 && (fld m 3 2 = 2 || fld v 48 32 = 0) && rest 104)
  else if code = 6 then plain (m = 0 && rest 40)
  else if code = 9 then plain (m = 0 && !bit1 v 39 && rest 80)
  else some 1

/-- The context of a program's accesses (R18, R342). -/
def winEng (s : State) (t : TeamRef) (w : Window) : Eng :=
  ⟨t, pinRoot w.pin, w.bounds, engUser s t, Config.hostRefuses s.frees, w.pid, w.after⟩

/-- A read by a program that feeds no window byte (R345): the number read, or the detail of STRPROG. -/
def winRead (s : State) (e : Eng) (p : Ptr) (n : Nat) : State × Except Nat Nat := match engRead (tick s) e p n with
  | .error c => (tick s, .error c)
  | .ok x => if x.st = .ok then (addJoin x.s e.id x.kept, .ok (ofBytes x.bytes)) else (kvConsume x.s x.sec, .error cPOISON)

/-- The command word at a window's pc: the one that was fetched ahead (R342), else the one read now. -/
def winFetch (s : State) (e : Eng) (x : Window) : State × Except Nat Nat :=
  let w := stGet x.ahead x.pc.toNat
  if w.getLsbD 128 then (tick s, .ok (w.toNat % 2 ^ 128)) else winRead s e x.pc 16

/-- A program ends without error. -/
def winEnd (s : State) (r : TeamRef) (w : Nat) : State := match teamOf s r with
  | none => s
  | some t => modWin (dropPin s r.ld (winOf t w).pin) r w fun x => { x with st := .ended, pin := none, waiting := 0 }

/-- A program stops in the error state (R345). -/
def winStop (s : State) (r : TeamRef) (w cause detail : Nat) : State := match teamOf s r with
  | none => s
  | some t =>
    let x := winOf t w
    let s := modWin (dropPin s r.ld x.pin) r w fun x =>
      { x with
        st := .error, cause := cause, detail := detail, errPc := x.pc, pin := none, waiting := 0, filling := none, todo := [], rows := 0 }
    if x.b.noerr then s else arrError s r x.b.errarr cause detail false

/-- The program goes on at a pointer. -/
def winGo (s : State) (r : TeamRef) (w : Nat) (pc : Ptr) : State := modWin s r w fun x => { x with pc := pc, waiting := 0 }

/-- Does a program stand at a command it may begin: what came before it is performed. -/
def winReady (s : State) (x : Window) : Bool := x.st == .running && x.waiting == 0 && x.filling.isNone && forkReady s x.after

/-- A running program fetches the command at its pc; where it is a whole word of a code, the command acts. -/
def command (code : Nat) (r : TeamRef) (w : Nat) (s : State) (k : State → Team → Window → Nat → State) :
    Host.Outcome State Fault Refusal :=
  agent s fun s => match teamOf s r with
  | none => s
  | some t =>
    let x := winOf t w
    if !winReady s x then s
    else
      let f := winFetch s (winEng s r x) x
      match f.2 with
      | .ok v => if cmdErr v = none ∧ fld v 0 8 = code then k f.1 t x v else s
      | .error _ => s

/-- STREAM_BAD_WORD (R195, R345): a word that cannot be fetched, has no code, or an undefined field. -/
def execStreamBadWord (t : TeamRef) (w : Nat) (s : State) : Host.Outcome State Fault Refusal :=
  agent s fun s => match teamOf s t with
  | none => s
  | some u =>
    let x := winOf u w
    if !winReady s x then s
    else
      let f := winFetch s (winEng s t x) x
      match f.2 with
      | .error d => winStop f.1 t w cSTRPROG d
      | .ok v => match cmdErr v with
        | some d => winStop f.1 t w cSTRPROG d
        | none => s

/-- Index of the innermost open loop, and of the loop around it (R343). -/
def loopIx (x : Window) (i : Nat) : Nat := match x.loops[i]? with
  | some l => l.2.2
  | none => 0

/-- The slot a fill goes to. -/
def tileSlot (x : Window) : Nat := x.f % x.b.slots

/-- The checks of a fill (R344): cause and detail of the stop. -/
def fillErr (x : Window) (bytes : Nat) : Option (Nat × Nat) :=
  let k := tileSlot x
  if x.fills.getD k 0 ≠ 0 ∧ x.rels.getD k 0 < x.b.rc then some (cWINOVF, 1)
  else if x.b.slotLen < bytes then some (cSTRPROG, 6)
  else none

/-- May a fill write its slot: the releasers' accesses are performed, and the team is on its core (R142, R347). -/
def fillReady (s : State) (t : Team) (x : Window) : Bool := forkReady s (x.rpast.getD (tileSlot x) []) && gangHere s t

/-- The pieces of row i of a fill, from a source offset in bytes. -/
def rowPieces (t : Team) (x : Window) (rb i : Nat) (off : Int) : List Piece :=
  cutRun rb (.mem (ptrAdd x.b.sbase off)) (.buf t.r x.b.buf (x.b.wbase + x.b.slotLen * tileSlot x + i * rb : Nat)) rb

/-- The context of a fill's accesses: they follow what the program has read, and the releases of the slot (R141, R142). -/
def fillEng (s : State) (t : TeamRef) (w : Window) : Eng :=
  { winEng s t w with id := w.fid, after := w.pid :: union w.after (w.rpast.getD (tileSlot w) []) }

/-- A fill is under way: pieces to move, and rows whose index is still to be read. -/
def fillBegin (s : State) (t : TeamRef) (w : Nat) (x : Window) (ps : List Piece) (rows : Nat) : State :=
  { modWin s t w fun y => { y with filling := some (tileSlot x), todo := ps, rows := rows, fid := s.nextId } with nextId := s.nextId + 1 }

/-- One piece of a fill is moved (R344, R345): a fault stops the program, a poisoned read kills the gang. -/
def fillPiece (s : State) (t : TeamRef) (w : Nat) (x : Window) (i : Nat) (p : Piece) : State :=
  let rest := x.todo.eraseIdx i
  match pieceMove (tick s) (fillEng s t x) rest p with
  | .moved s => modWin s t w fun y => { y with todo := rest }
  | .fault s c => winStop s t w cSTRPROG c
  | .killed s => s

/-- One step of a fill: one of its pieces, or `index`, the read of its next row's index, whichever comes next. -/
def fillStep (s : State) (t : TeamRef) (w : Nat) (x : Window) (index : State → State) : State :=
  let i := pickIx s (x.todo.length + if x.rows = 0 then 0 else 1)
  match x.todo[i]? with
  | some p => fillPiece s t w x i p
  | none => if x.rows = 0 then s else index (tick s)

/-- A running program's fill makes its next step; `code` is its command's. The word is read once: what the program fetched stays as it
was (R342). -/
def fillMore (code : Nat) (s : State) (t : TeamRef) (w : Nat) (index : State → Team → Window → Nat → State) : State :=
  match teamOf s t with
  | none => s
  | some u =>
    let x := winOf u w
    let v := (stGet x.ahead x.pc.toNat).toNat % 2 ^ 128
    if x.st = .running ∧ x.filling.isSome ∧ fld v 0 8 = code ∧ fillReady s u x then fillStep s t w x fun s => index s u x v else s

/-- A fill's command: its checks, and its first step where it may write its slot (R344). The word is kept for the fill's later steps. -/
def fillCommand (code : Nat) (bytes : Nat → Nat) (work : Team → Window → Nat → List Piece × Nat)
    (index : State → TeamRef → Nat → Team → Window → Nat → State) (t : TeamRef) (w : Nat) (s : State) : Host.Outcome State Fault Refusal :=
  match teamOf s t with
  | some u =>
    if (winOf u w).filling.isSome then agent s fun s => fillMore code s t w fun s u x v => index s t w u x v
    else command code t w s fun s u x v => match fillErr x (bytes v) with
      | some e => winStop s t w e.1 e.2
      | none =>
        if !fillReady s u x then s
        else
          let k := work u x v
          let s := fillBegin (modWin s t w fun y => { y with ahead := stSet y.ahead y.pc.toNat (BitVec.ofNat 129 (2 ^ 128 + v)) }) t w x k.1 k.2
          fillMore code s t w fun s u x v => index s t w u x v
  | none => .next s

/-- The bytes of a tile: its rows and the bytes of each. -/
def tileRows (lo : Nat) (v : Nat) : Nat × Nat := (fld v lo 8 + 1, 16 * (fld v (lo + 8) 8 + 1))

/-- The source offset of row i of an STILE. -/
def stileOff (x : Window) (v i : Nat) : Int :=
  16 * (fld v 16 32 + toIntN 24 true (fld v 48 24) * loopIx x 0 + toIntN 24 true (fld v 72 24) * loopIx x 1 + fld v 112 16 * i)

/-- STILE (R344) (DEDUCED, log 54). -/
def execStile (t : TeamRef) (w : Nat) (s : State) : Host.Outcome State Fault Refusal :=
  fillCommand 1 (fun v => (tileRows 96 v).1 * (tileRows 96 v).2)
    (fun u x v => ((List.range (tileRows 96 v).1).flatMap fun i => rowPieces u x (tileRows 96 v).2 i (stileOff x v i), 0))
    (fun s _ _ _ _ _ => s) t w s

/-- STILE_FILL_DONE (R344): every byte of the fill is performed. -/
def execStileFillDone (t : TeamRef) (w : Nat) (s : State) : Host.Outcome State Fault Refusal :=
  agent s fun s => match teamOf s t with
  | none => s
  | some u =>
    let x := winOf u w
    match x.filling with
    | none => s
    | some k =>
      if !x.todo.isEmpty ∨ x.rows ≠ 0 then s
      else
        let s := addJoin s x.pid (expand s [x.fid])
        modWin s t w fun x => { x with
          fills := lset x.fills k (x.fills.getD k 0 + 1), rels := lset x.rels k 0, rpast := lset x.rpast k []
          fops := lset x.fops k x.fid, f := x.f + 1, filling := none, pc := ptrAdd x.pc 16 }

/-- The index of an SGATHER's next row is read (R344, R345): the row's bytes may move from now on; one that faults or is poisoned stops
the program. -/
def gatherIndex (s : State) (t : TeamRef) (w : Nat) (u : Team) (x : Window) (v : Nat) : State :=
  let n := tileRows 104 v
  let i := n.1 - x.rows
  let ix := readIndex s (fillEng s t x) (ptrAdd x.b.sbase (16 * fld v 48 32 + 4 * n.1 * loopIx x 0 + 4 * i : Nat))
  match ix.2 with
  | .error c => winStop ix.1 t w cSTRPROG c
  | .ok j => modWin ix.1 t w fun y =>
    { y with rows := y.rows - 1, todo := y.todo ++ rowPieces u x n.2 i (16 * (fld v 16 32 + fld v 80 24 * j) : Nat) }

/-- SGATHER (R344, R345): indices are read in row order. -/
def execSgather (t : TeamRef) (w : Nat) (s : State) : Host.Outcome State Fault Refusal :=
  fillCommand 2 (fun v => (tileRows 104 v).1 * (tileRows 104 v).2) (fun _ _ v => ([], (tileRows 104 v).1)) gatherIndex t w s

/-- SLOOP (R344). -/
def execSloop (t : TeamRef) (w : Nat) (s : State) : Host.Outcome State Fault Refusal :=
  command 3 t w s fun s _ x v =>
    let m := fld v 8 8
    let sh := 2 ^ fld m 1 3
    let n := if bit1 m 0 then (x.pv.toNat + sh - 1) / sh else fld v 16 32
    let nx := ptrAdd x.pc 16
    if n = 0 then winGo s t w (ptrAdd x.pc (16 * (fld v 48 24 + 1) : Nat))
    else if 4 ≤ x.loops.length then winStop s t w cSTRPROG 3
    else modWin s t w fun x => { x with pc := nx, loops := (nx, n, 0) :: x.loops }

/-- SNEXT (R344). -/
def execSnext (t : TeamRef) (w : Nat) (s : State) : Host.Outcome State Fault Refusal :=
  command 4 t w s fun s _ x _ => match x.loops with
    | [] => winStop s t w cSTRPROG 4
    | l :: rest =>
      if l.2.2 + 1 < l.2.1 then modWin s t w fun x => { x with pc := l.1, loops := (l.1, l.2.1, l.2.2 + 1) :: rest }
      else modWin s t w fun x => { x with pc := ptrAdd x.pc 16, loops := rest }

/-- SCOND (R344). -/
def execScond (t : TeamRef) (w : Nat) (s : State) : Host.Outcome State Fault Refusal :=
  command 5 t w s fun s _ x v =>
    let m := fld v 8 8
    let sel := fld m 3 2
    let r : State × Except Nat Nat :=
      if sel = 0 then (s, .ok x.pv.toNat)
      else if sel = 1 then (s, .ok (loopIx x 0 % 2 ^ 32))
      else winRead s (winEng s t x) (ptrAdd x.b.sbase (16 * fld v 48 32 : Nat)) 4
    match r.2 with
    | .error d => winStop r.1 t w cSTRPROG d
    | .ok a =>
      let b := fld v 16 32
      let cmp := fld m 0 3
      let yes := if cmp = 0 then a = b else if cmp = 1 then a ≠ b else if cmp = 2 then a < b else b ≤ a
      winGo r.1 t w (ptrAdd x.pc (if yes then 16 * toIntN 24 true (fld v 80 24) else 16))

/-- SJMP (R344). -/
def execSjmp (t : TeamRef) (w : Nat) (s : State) : Host.Outcome State Fault Refusal :=
  command 6 t w s fun s _ x v => winGo s t w (ptrAdd x.pc (16 * toIntN 24 true (fld v 16 24)))

/-- Is the slot of the next fill free (R344). -/
def slotFree (x : Window) : Bool :=
  let k := tileSlot x
  x.fills.getD k 0 == 0 || x.rels.getD k 0 == x.b.rc

/-- SWAITR (R344, R347). -/
def execSwaitr (t : TeamRef) (w : Nat) (s : State) : Host.Outcome State Fault Refusal :=
  command 7 t w s fun s u x _ =>
    if teamIdle s u then winEnd s t w
    else if slotFree x then winGo s t w (ptrAdd x.pc 16)
    else modWin s t w fun x => { x with waiting := 1 }

/-- SWAITR_RELEASED: the release count is reached. -/
def execSwaitrReleased (t : TeamRef) (w : Nat) (s : State) : Host.Outcome State Fault Refusal :=
  agent s fun s => match teamOf s t with
  | none => s
  | some u =>
    let x := winOf u w
    if x.st = .running ∧ x.waiting = 1 ∧ slotFree x ∧ !teamIdle s u then winGo s t w (ptrAdd x.pc 16) else s

/-- PV takes the latched value (R344, R346). -/
def takeLatch (s : State) (t : TeamRef) (w : Nat) (pv : Word) : State :=
  modWin s t w fun x => { x with pv := pv, latch := none, waiting := 0, pc := ptrAdd x.pc 16 }

/-- SWAITP (R344, R347). -/
def execSwaitp (t : TeamRef) (w : Nat) (s : State) : Host.Outcome State Fault Refusal :=
  command 8 t w s fun s u x _ =>
    if teamIdle s u then winEnd s t w
    else match x.latch with
      | some v => takeLatch s t w v
      | none => modWin s t w fun x => { x with waiting := 2 }

/-- SWAITP_LATCHED: a patch has set the latch. -/
def execSwaitpLatched (t : TeamRef) (w : Nat) (s : State) : Host.Outcome State Fault Refusal :=
  agent s fun s => match teamOf s t with
  | none => s
  | some u =>
    let x := winOf u w
    match x.latch with
    | some v => if x.st = .running ∧ x.waiting = 2 ∧ !teamIdle s u then takeLatch s t w v else s
    | none => s

/-- SSIG (R344): an object that is not there, or holds less than DEC, stops the program. -/
def execSsig (t : TeamRef) (w : Nat) (s : State) : Host.Outcome State Fault Refusal :=
  command 9 t w s fun s _ x v =>
    let arr := fld v 16 23
    let dec := fld v 40 40
    match arrAt s t arr with
    | none => winStop s t w cSTRPROG 8
    | some p =>
      let short := fld (bufGet s p.1 .a p.2 8) 0 40 < dec
      let s := arrDec s t arr x.pid dec cSTRPROG 8
      if short then winStop s t w cSTRPROG 8 else winGo s t w (ptrAdd x.pc 16)

/-- SHALT (R344). -/
def execShalt (t : TeamRef) (w : Nat) (s : State) : Host.Outcome State Fault Refusal :=
  command 10 t w s fun s _ _ _ => winEnd s t w

/-- SNOP (R344). -/
def execSnop (t : TeamRef) (w : Nat) (s : State) : Host.Outcome State Fault Refusal :=
  command 11 t w s fun s _ x _ => winGo s t w (ptrAdd x.pc 16)

/-- STREAM_AUTO_END (R347): a program that waits ends once nothing can release it. -/
def execStreamAutoEnd (t : TeamRef) (w : Nat) (s : State) : Host.Outcome State Fault Refusal :=
  agent s fun s => match teamOf s t with
  | none => s
  | some u =>
    let x := winOf u w
    if x.st = .running ∧ x.waiting ≠ 0 ∧ teamIdle s u then winEnd s t w else s

end Sys2Proof.Machine
end

