-- ==== Sys2Proof/Machine/Ladder.lean ====
section
/-! DEFINITION. Ladders (spec/18_ladders.md R361 to R380, spec/19_program_ladder.md R382): LSPAWN, LESC, LDONE, LSTAT, the launch
of rung groups, commits, patches. -/

namespace Sys2Proof.Machine

/-- Ladders the kernel of a team names. -/
def hasLad (t : Team) (lad : Nat) : Bool := lad < t.lads.length

/-- Change a team's part of a ladder. -/
def modLad (s : State) (r : TeamRef) (lad : Nat) (f : LadWin → LadWin) : State :=
  modTeam s r fun t => { t with lads := lset t.lads lad (f (ladOf t lad)) }

/-- Change the commit window of an item's owner. -/
def modOwner (s : State) (host : TeamRef) (it : Item) (f : LadWin → LadWin) : State := modLad s { host with team := it.team } it.lad f

/-- ARRIVED rises. -/
def bumpArrived (rung n : Nat) (w : LadWin) : LadWin := { w with arrived := lset w.arrived rung (w.arrived.getD rung 0 + n) }

/-- A bin of a gang's instance (R366). -/
def binOf (k : Gang) (lad rung : Nat) : Bin := (k.bins.getD lad []).getD rung ⟨[], none⟩

/-- Replace a bin. -/
def setBin (lad rung : Nat) (b : Bin) (k : Gang) : Gang := { k with bins := lset k.bins lad (lset (k.bins.getD lad []) rung b) }

/-- Items of a bin, 0 for a gang that is not there. -/
def binLoad (s : State) (t : Team) (lad rung : Nat) : Nat := match gangOf s (gangKey s t.r) with
  | none => 0
  | some k => (binOf k lad rung).items.length

/-- Items enter a bin, which starts its timer where the bin was empty (R366). -/
def enterBin (s : State) (t : Team) (lad rung : Nat) (its : List Item) : State :=
  let starve := ((gridOf s t.r.ld t.r.grid).map fun gr => rungStarve (rungRaw (ladRaw gr lad) rung)).getD 0
  modGang s (gangKey s t.r) fun k =>
    let b := binOf k lad rung
    setBin lad rung ⟨b.items ++ its, if b.items.isEmpty && !its.isEmpty then some (s.cycle + starve) else b.due⟩ k

/-- The frame address of LSPAWN and LESC in a lane (R275): the AM 00 forms. -/
def ladAddr (g : Group) (a : Opnd) (off : BitVec 32) (l : Nat) : Int :=
  (match a with
    | .im w => w.toInt
    | o => ((srcD g o 1 l).toNat : Int)) + off.toInt

/-- The checks of a frame address (R369, R370): the detail of LADFRAME. -/
def frameErr (t : Team) (a : Int) (fs : Nat) : Option Nat :=
  if a % 16 ≠ 0 then some 1 else if a < 0 ∨ (t.alen : Int) < a + fs then some 2 else none

/-- The bytes of a frame. -/
def frameBytes (s : State) (r : TeamRef) (off fs : Nat) : List Byte := bytesOf (bufGet s r .a off fs) fs

/-- The first failing lane of a list of lanes, with its trap: cause, detail, address. -/
def firstBad (ls : List Nat) (f : Nat → Option (Nat × Nat × Int)) : Option Res :=
  (ls.findSome? fun l => (f l).map fun e => (l, e)).map fun x => trapL x.2.1 x.2.2.1 x.1 (BitVec.ofInt 64 x.2.2.2)

/-! LSPAWN (R369). -/

/-- The frame size of a rung of the team's kernel. -/
def frameSize (gr : Grid) (lad rung : Nat) : Nat := rungFs (rungRaw (ladRaw gr lad) rung)

/-- May LSPAWN submit: bin 0 has room, and every sequence number is below BASE + 256. -/
def spawnRoom (s : State) (t : Team) (lad : Nat) (its : List (Nat × Nat × Nat)) : Bool :=
  binLoad s t lad 0 + its.length ≤ 64 && its.all fun i => i.2.2 < (ladOf t lad).base + 256

/-- Items of (lane, A offset, sequence number) are read and submitted, in one step. -/
def spawn (s : State) (r : GroupRef) (lad : Nat) (its : List (Nat × Nat × Nat)) : State :=
  match teamOf s r.team, groupOf s r, gridOf s r.team.ld r.team.grid with
  | some t, some g, some gr =>
    let new := its.map fun i =>
      (⟨t.member, t.r.team, lad, 0, i.2.2, frameBytes s t.r i.2.1 (frameSize gr lad 0), forkOf s g (maskOf [i.1])⟩ : Item)
    let s := modLad s t.r lad fun w =>
      bumpArrived 0 its.length { w with held := w.held ++ its.map fun i => i.2.2 }
    enterBin s t lad 0 new
  | _, _, _ => s

/-- The per-lane checks of LSPAWN, each over every lane before the next: detail and address of LADFRAME. -/
def spawnChecks (t : Team) (fs base : Nat) (held : List Nat) (ls : List Nat) (addr : Nat → Int) (seq : Nat → Nat) : Option Res :=
  ([fun l => if addr l % 16 ≠ 0 then some (cLADFRAME, 1, addr l) else none,
    fun l => (frameErr t (addr l) fs).map fun d => (cLADFRAME, d, addr l),
    fun l => if seq l < base || held.contains (seq l) || ls.any fun m => m != l && seq m == seq l then some (cLADFRAME, 5, 0) else none]
    : List (Nat → Option (Nat × Nat × Int))).findSome? (firstBad ls)

/-- R429's check and the first three of LSPAWN. -/
def spawnErr (c : Ctx) (lad : Nat) : Option (Nat × Nat) :=
  if c.inHandler then some (cPRIV, 5)
  else if !hasLad c.t lad then some (cLADFRAME, 8)
  else if c.g.rung.isSome then some (cLADFRAME, 4)
  else if (ladOf c.t lad).closed then some (cLADFRAME, 6)
  else none

/-- LSPAWN (DEDUCED, log 17). -/
def execLspawn (x : LspawnA) (s : State) : Host.Outcome State Fault Refusal :=
  withIssue x.h false s fun c =>
    let lad := x.lad.toNat
    if !c.any then done c.s []
    else match spawnErr c lad with
      | some e => trapW e.1 e.2
      | none =>
        let w := ladOf c.t lad
        let fs := frameSize c.gr lad 0
        let seq (l : Nat) : Nat := (srcD c.g x.b 1 l).toNat % 2 ^ 32
        match spawnChecks c.t fs w.base w.held c.lanes (ladAddr c.g x.a x.off) seq with
        | some t => t
        | none =>
          let its := c.lanes.map fun l => (l, (ladAddr c.g x.a x.off l).toNat, seq l)
          if spawnRoom c.s c.t lad its then
            withTouch c (its.map fun i => (c.t.r, .a, i.2.1, fs)) fun s => done (spawn s c.r lad its) []
          else .ok c.s (.wait (.lspawn lad its)) [] none

/-- LSPAWN.close. -/
def execLspawnClose (x : LcloseA) (s : State) : Host.Outcome State Fault Refusal :=
  withIssue x.h false s fun c =>
    let lad := x.lad.toNat
    if !c.any then done c.s []
    else match spawnErr c lad with
      | some e => trapW e.1 e.2
      | none => done (modLad c.s c.t.r lad fun w => { w with closed := true }) []

/-- Frames are read through their decoder when an entry that waited goes on (R91). -/
def wakeTouch (s : State) (r : GroupRef) (runs : List (Nat × Nat)) (k : State → State) : State :=
  match runs.foldl (fun (o : Option State) x => o.bind fun s => bufTouch s r.team .a x.1 x.2) (some s) with
  | none => killTeam s r.team cUECONS 0
  | some s => k s

/-- LSPAWN_ROOM: a waiting LSPAWN submits its items. -/
def execLspawnRoom (r : GroupRef) (lane : Nat) (s : State) : Host.Outcome State Fault Refusal :=
  agent s fun s => match teamOf s r.team, groupOf s r, gridOf s r.team.ld r.team.grid with
  | some t, some g, some gr => match waitAt g lane with
    | some (e, .lspawn lad its) =>
      if gangHere s t && spawnRoom s t lad its then
        wakeTouch s r (its.map fun i => (i.2.1, frameSize gr lad 0)) fun s => modGroup (spawn s r lad its) r (moveOn e.mask)
      else s
    | _ => s
  | _, _, _ => s

/-! LESC (R370). -/

/-- The item a lane holds. -/
def itemOf (g : Group) (l : Nat) : Option Item := (g.items.find? fun p => p.1 == l).map fun p => p.2

/-- Lanes give up their items. -/
def giveUp (ls : List Nat) (g : Group) : Group := { g with items := g.items.filter fun p => !ls.contains p.1 }

/-- Has the next bin of a rung group room for its items. -/
def escRoom (s : State) (t : Team) (g : Group) (its : List (Nat × Nat)) : Bool := match g.rung with
  | some (lad, rung, _) => binLoad s t lad (rung + 1) + its.length ≤ 64
  | none => false

/-- Items of (lane, A offset) go to the next rung, in one step. -/
def escalate (s : State) (r : GroupRef) (its : List (Nat × Nat)) : State :=
  match teamOf s r.team, groupOf s r, gridOf s r.team.ld r.team.grid with
  | some t, some g, some gr => match g.rung with
    | none => s
    | some (lad, rung, _) =>
      let new := its.filterMap fun i => (itemOf g i.1).map fun it =>
        { it with rung := rung + 1, frame := frameBytes s t.r i.2 (frameSize gr lad (rung + 1)), past := forkOf s g (maskOf [i.1]) }
      let s := modGroup s r (giveUp (its.map fun i => i.1))
      enterBin (new.foldl (fun s it => modOwner s r.team it (bumpArrived (rung + 1) 1)) s) t lad (rung + 1) new
  | _, _, _ => s

/-- LESC. -/
def execLesc (x : NbreqA) (s : State) : Host.Outcome State Fault Refusal :=
  withIssue x.h false s fun c =>
    if !c.any then done c.s []
    else if c.inHandler then trapW cPRIV 5
    else
      let at' := c.g.rung.getD (0, 0, 0)
      let lad := at'.1
      let rung := at'.2.1
      let fs := frameSize c.gr lad (rung + 1)
      let bad := firstBad c.lanes fun l =>
        if (itemOf c.g l).isNone then some (cLADFRAME, 3, 0)
        else if ladRungs (ladRaw c.gr lad) ≤ rung + 1 then some (cLADRUNG, 0, 0)
        else
          let a := ladAddr c.g x.a x.off l
          (frameErr c.t a fs).map fun d => (cLADFRAME, d, a)
      match bad with
      | some t => t
      | none =>
        let its := c.lanes.map fun l => (l, (ladAddr c.g x.a x.off l).toNat)
        if escRoom c.s c.t c.g its then
          withTouch c (its.map fun i => (c.t.r, .a, i.2, fs)) fun s => done (escalate s c.r its) []
        else .ok c.s (.wait (.lesc its)) [] none

/-- LESC_ROOM: a waiting LESC submits its items. -/
def execLescRoom (r : GroupRef) (lane : Nat) (s : State) : Host.Outcome State Fault Refusal :=
  agent s fun s => match teamOf s r.team, groupOf s r, gridOf s r.team.ld r.team.grid with
  | some t, some g, some gr => match waitAt g lane, g.rung with
    | some (e, .lesc its), some (lad, rung, _) =>
      if gangHere s t && escRoom s t g its then
        wakeTouch s r (its.map fun i => (i.2, frameSize gr lad (rung + 1))) fun s => modGroup (escalate s r its) r (moveOn e.mask)
      else s
    | _, _ => s
  | _, _, _ => s

/-! LDONE and commits (R371, R372). -/

/-- The result an LDONE gives in a lane: is there a violation, and the bytes (R75, R279). -/
def doneData (c : Ctx) (x : LdoneA) (l : Nat) : Bool × Nat :=
  let v := (srcData c.g x.b x.sz l).toNat
  let k := x.sz.bytes
  if x.d.tag = 0 then (false, v % 2 ^ (8 * k)) else tagBytes (getB c.t x.d.tag) x.tf k v

/-- The result address of an item (R362). -/
def resultPtr (gr : Grid) (team lad seq : Nat) : Ptr :=
  let x := ladRaw gr lad
  ptrAdd (ladResult x) (team * ladStride x + seq * ladRsz x : Nat)

/-- LDONE: each item's entry is done, with the result that is still to be written; a BOUND trap names where LANE's result goes
(R433). -/
def execLdone (x : LdoneA) (s : State) : Host.Outcome State Fault Refusal :=
  withIssue x.h false s fun c =>
    let t := x.d.tag
    if !c.any then done c.s []
    else if c.inHandler then trapW cPRIV 5
    else
      let at' := c.g.rung.getD (0, 0, 0)
      let lad := at'.1
      let rung := at'.2.1
      let viol (l : Nat) : Bool := (doneData c x l).1
      let bad := firstBad c.lanes fun l =>
        if (itemOf c.g l).isNone then some (cLADFRAME, 3, 0)
        else if ladRsz (ladRaw c.gr lad) ≠ x.sz.bytes then some (cLADFRAME, 7, 0)
        else if tagTraps (getB c.t t) && viol l then
          some (cBOUND, t, ((itemOf c.g l).map fun it => ((resultPtr c.gr it.team lad it.seq).toNat : Int)).getD 0)
        else none
      match bad with
      | some (.trap i) => if i.cause = cBOUND then .trapIn (modTeam c.s c.t.r (flagBound t)) i else .trap i
      | some r => r
      | none =>
        let any := rungAny (rungRaw (ladRaw c.gr lad) rung)
        let s := c.lanes.foldl (fun s l => match itemOf c.g l with
          | none => s
          | some it => modOwner s c.t.r it fun w =>
            { w with done := w.done ++ [⟨it.seq, some (bytesOf (doneData c x l).2 x.sz.bytes), any, rung, forkOf c.s c.g (maskOf [l])⟩] }) c.s
        let s := modGroup s c.r (giveUp c.lanes)
        done (if c.lanes.any viol then modTeam s c.t.r (flagBound t) else s) []

/-- A result is written; the first fault is kept (R372, R37, R409). -/
def commitWrite (s : State) (t : Team) (gr : Grid) (lad : Nat) (e : Done) (bs : List Byte) : State :=
  let p := resultPtr gr t.r.team lad e.seq
  let cx : Eng := ⟨t.r, pinRoot t.pin, t.bounds, engUser s t.r, false, s.nextId, e.after⟩
  let keep (cause detail : Nat) : State :=
    modTeam s t.r fun t => { t with wbFault := some (t.wbFault.getD (cause, detail, 4 * lad + e.rung, p)) }
  match farCheck s t.r.ld cx.root cx.bounds cx.user p bs.length .write with
  | .error x => keep x.1 x.2
  | .ok x =>
    if linkDown s x.1 then keep cFARTIMEOUT 0
    else match engWrite s cx p bs with
      | .error c => keep c 0
      | .ok s => s

/-- The unbroken run of done entries that starts at a sequence number; `fuel` bounds its length. -/
def doneRun (w : LadWin) : Nat → Nat → List Done
  | 0, _ => []
  | fuel + 1, n => match w.done.find? fun e => e.seq == n with
    | none => []
    | some e => e :: doneRun w fuel (n + 1)

/-- The result that is written next: the first unwritten one of the run, else one that an any-order rung has given
(R371, R372). -/
def nextWrite (s : State) (w : LadWin) (run : List Done) : Option Done :=
  match run.find? fun e => e.res.isSome with
  | some e => if forkReady s e.after then some e else w.done.find? fun e => e.any && e.res.isSome && forkReady s e.after
  | none => w.done.find? fun e => e.any && e.res.isSome && forkReady s e.after

/-- COMMIT_RUN: the next result of the run is written, each in a step of its own; once all are, BASE advances past the
run. -/
def execCommitRun (t : TeamRef) (lad : Nat) (s : State) : Host.Outcome State Fault Refusal :=
  agent s fun s => match teamOf s t, gridOf s t.ld t.grid with
  | some u, some gr =>
    if !(gangHere s u && hasLad u lad) then s
    else
      let w := ladOf u lad
      let run := doneRun w w.done.length w.base
      match nextWrite s w run with
      | some e =>
        let s := commitWrite s u gr lad e (e.res.getD [])
        modLad s t lad fun w => { w with done := w.done.map fun d => if d.seq == e.seq then { d with res := none } else d }
      | none =>
        if run.all fun e => e.res.isNone && forkReady s e.after then
          let seqs := run.map Done.seq
          modLad s t lad fun w => { w with
            base := w.base + run.length
            done := w.done.filter fun e => !seqs.contains e.seq
            held := w.held.filter fun n => !seqs.contains n }
        else s
  | _, _ => s

/-! LSTAT (R373). -/

/-- LSTAT. -/
def execLstat (x : LstatA) (s : State) : Host.Outcome State Fault Refusal :=
  withIssue x.h false s fun c =>
    let lad := x.lad.toNat
    let r := x.rung.toNat
    let w := ladOf c.t lad
    if !c.any then done c.s []
    else if !hasLad c.t lad then trapW cLADFRAME 8
    else if ladRungs (ladRaw c.gr lad) ≤ r then trapW cLADRUNG 1
    else
      let v := match x.sel with
        | .base => w.base
        | .arr => w.arrived.getD r 0
        | .bin => binLoad c.s c.t lad r
        | .drop => w.dropped
      resFree c (keysOf x.d 1) (setDst c.g x.d 2 c.low (BitVec.ofNat 64 v))

/-! Launch of rung groups (R365 to R367, R374). -/

/-- Slots of the rungs before a rung (R365). -/
def slotBase (gr : Grid) (lad rung : Nat) : Nat :=
  ((List.range (lad + 1)).map fun l =>
    ((List.range (if l = lad then rung else ladRungs (ladRaw gr l))).map fun r => rungSlots (rungRaw (ladRaw gr l) r)).sum).sum

/-- The frontier depth of the kernel (R473). -/
def Grid.depth (gr : Grid) : Nat := fld gr.kern 29 6

/-- The GROUPID of a rung slot. -/
def rungGroup (gr : Grid) (lad rung j : Nat) : Nat := gr.cgrp + 1 + slotBase gr lad rung + j

/-- Is a rung slot of a team free: its last group has ended (R381). -/
def slotOpen (t : Team) (id : Nat) : Bool := (groupIn t id).isNone

/-- The slot a launch takes: the lowest member with a free one, and its lowest. -/
def freeRung (gr : Grid) (ts : List Team) (lad rung : Nat) : Option (Team × Nat) :=
  (List.range 8).findSome? fun m => (ts.find? fun t => t.member == m && t.stage == .running).bind fun t =>
    ((List.range (rungSlots (rungRaw (ladRaw gr lad) rung))).find? fun j => slotOpen t (rungGroup gr lad rung j)).map fun j => (t, j)

/-- Does every team of a gang wait in a system call or has it exited (R389). -/
def inSyscall (ts : List Team) : Bool :=
  ts.any (fun t => t.sys != .none) && ts.all fun t => t.stage == .exited || match t.sys with
    | .waiting _ | .replied _ => true
    | _ => false

/-- A rung group at its start (R365). -/
def rungStart (gr : Grid) (t : Team) (lad rung j : Nat) (its : List Item) (pin : Option Pin) : Group :=
  let e := rungRaw (ladRaw gr lad) rung
  let id := rungGroup gr lad rung j
  let mask := BitVec.ofNat 32 (2 ^ its.length - 1)
  let g := newGroup t.r id (some (lad, rung, j)) (rungBud e) (t.vregs.getD id (0, 0)).1 gr.depth (ptrAdd gr.code (rungEntry e)) mask 0 0 pin
  let fill (g : Group) (n : Nat) (f : Nat → Item → Nat) : Group :=
    (its.zipIdx).foldl (fun g p => setV g n p.2 (BitVec.ofNat 32 (f p.2 p.1))) g
  let g := fill (fill (fill g 0 fun _ i => i.seq) 1 fun l _ => rungFoff e + (32 * j + l) * rungFs e) 2 fun _ i => i.member
  let g := joinPast (((t.rungPast.find? fun x => x.1 == id).map Prod.snd).getD []) g
  let g := (its.zipIdx).foldl (fun g p => addPast (maskOf [p.2]) p.1.past g) { g with items := its.zipIdx.map fun p => (p.2, p.1) }
  setG g 1 (ladArgp (ladRaw gr lad))

/-- A group of up to 32 items is launched on a slot, whose registers are zero (R92); it takes its pin as a launch group does, and has
none where the team's slot is empty (DESIGN CHOICE, log 68). -/
def launchRung (s : State) (k : GangRef) (gr : Grid) (b : Bin) (t : Team) (lad rung j : Nat) : State :=
  let e := rungRaw (ladRaw gr lad) rung
  let its := b.items.take 32
  let rest := b.items.drop 32
  let s := (its.zipIdx).foldl (fun s p => bufPut s t.r .a (rungFoff e + (32 * j + p.2) * rungFs e) (rungFs e) (ofBytes p.1.frame)) s
  let v := t.vregs.getD (rungGroup gr lad rung j) (0, 0)
  let p := takePin (zeroWords s 0 t.core (16 * v.1) (16 * (v.1 + v.2))) t.r.ld gr.slot
  let g := joinPast (pinPast p.2 t.r.ld p.1) (rungStart gr t lad rung j its p.1)
  let s := modTeam p.2 t.r fun t => { t with groups := t.groups ++ [g] }
  modGang s k (setBin lad rung ⟨rest, if rest.isEmpty then none else some (s.cycle + rungStarve e)⟩)

/-- BIN_LAUNCH. -/
def execBinLaunch (k : GangRef) (lad rung : Nat) (s : State) : Host.Outcome State Fault Refusal :=
  agent s fun s => match gangOf s k, gridOf s k.ld k.grid with
  | some g, some gr =>
    let ts := gangTeams s k
    let b := binOf g lad rung
    let ripe := 32 ≤ b.items.length || match b.due with
      | some d => !b.items.isEmpty && d ≤ s.cycle
      | none => false
    if !(g.place == .resident && g.preempt.isNone && !inSyscall ts && !(ts.any fun t => t.groups.any Group.saved) && ripe) then s
    else match freeRung gr ts lad rung with
      | none => s
      | some (t, j) => launchRung s k gr b t lad rung j
  | _, _ => s

/-- BIN_STARVE_EXPIRE: cycles pass until a bin's timer has run out (R366). -/
def execBinStarveExpire (k : GangRef) (lad rung : Nat) (s : State) : Host.Outcome State Fault Refusal :=
  agent s fun s => match gangOf s k with
  | none => s
  | some g => match (binOf g lad rung).due with
    | some d => if g.place = .resident then { s with cycle := max s.cycle d } else s
    | none => s

/-! Patches (R375, R346). -/

/-- Is ARRIVED of a rung final. -/
def arrivedFinal (s : State) (t : Team) (lad rung : Nat) : Bool :=
  (ladOf t lad).closed && !anyItem s (gangKey s t.r) fun i => i.team == t.r.team && i.lad == lad && i.rung < rung

/-- LADDER_PATCH: the count is latched by the window, where it is bound; patches go out in ascending rung order. -/
def execLadderPatch (t : TeamRef) (lad rung : Nat) (s : State) : Host.Outcome State Fault Refusal :=
  agent s fun s => match teamOf s t, gridOf s t.ld t.grid with
  | some u, some gr =>
    let owed := owedRungs gr u lad
    if !(gangHere s u && hasLad u lad && owed.head? == some rung && arrivedFinal s u lad rung) then s
    else
      let w := ladOf u lad
      let x := rungPwin (rungRaw (ladRaw gr lad) rung)
      let s := modLad s t lad fun w => { w with patched := w.patched ++ [rung] }
      if (winOf u x).st = .unbound then s else modWin s t x fun v => { v with latch := some (BitVec.ofNat 32 (w.arrived.getD rung 0)) }
  | _, _ => s

end Sys2Proof.Machine
end

