-- ==== Sys2Proof/Machine/Command.lean ====
section
/-! DEFINITION. What the command processor does itself (spec/21_scheduling.md R404, R405, R408, R475): its accesses through a
slot, the checks of a queue, the read of a command, the stop of a queue. -/

namespace Sys2Proof.Machine

/-! Accesses (R475). -/

/-- A fault of an access: cause, detail, pointer, and the machine it leaves. -/
structure CpErr where
  cause : Nat
  detail : Nat
  ptr : Ptr
  s : State
  deriving Repr

/-- The check of one access against the current root of a slot and its bounds table (R19, R55, R49); an access to a host
window may be refused (R23). -/
def cpPlace (s : State) (ld slot : Nat) (p : Ptr) (n : Nat) (k : Acc) : Except CpErr Nat :=
  let root := (ldOf s ld).slots.getD slot emptyRoot
  if !root.full then .error ⟨cNOTMAPPED, 10, p, s⟩
  else match farCheck s ld root.key [(ptrRid p, readBoundsEnt s ld slot (ptrRid p))] false p n k with
    | .error e => .error ⟨e.1, e.2, p, s⟩
    | .ok x => if linkDown s x.1 || (isHost x.1 && Config.freeBool s.frees) then .error ⟨cFARTIMEOUT, 0, p, tick s⟩ else .ok x.1

/-- What the check of an access through a slot leaves at the memory controllers: the reads of the slot's context and bounds entry, and of the
walk (R17, R61, R103). -/
def cpWalk (s : State) (ld slot : Nat) (p : Ptr) : State :=
  let ctx := ldReg s ld 0x1
  let ent := peek s (ctx + 32 + 16 * slot) 16
  let s := tableRead (tableRead (tableRead s ctx 32) (ctx + 32 + 16 * slot) 16) (fld ent 12 40 * 2 ^ 12 + 16 * ptrRid p) 16
  walkRead s ld ((ldOf s ld).slots.getD slot emptyRoot).key (ptrVa p)

/-- What a service thread finds at a location: what stands there, or, where it knows of only some writes, what stood there before others
(R128). -/
def cpSee (s : State) (known : Option (List Nat)) (pa : Nat) (bs : List Byte) : List Byte × State :=
  match known with
  | none => (bs, s)
  | some ids => if s.hist.isEmpty then (bs, s) else ((viewOf s (expand s ids) pa bs).bytes, viewTick s)

/-- Bytes read through a slot, sector by sector: the first failure, or the bytes. An uncorrectable error that is consumed leaves its
poison and its log (R101). -/
def cpReadBy (known : Option (List Nat)) (s : State) (ld slot : Nat) (p : Ptr) (n : Nat) : Except CpErr (List Byte × State) :=
  (cutMem (n / 32 + 2) (ptrVa p) 0 n).foldl (fun acc c => acc.bind fun x =>
    let q := ptrAdd p c.1
    (cpPlace x.2 ld slot q c.2 .read).bind fun pa =>
      let s := cpWalk (tick x.2) ld slot q
      let r := busRead s (.sup ld) pa c.2
      match r.2.1 with
      | .ok => let v := cpSee r.2.2 known pa r.1; .ok (x.1 ++ v.1, v.2)
      | .poison => .error ⟨cPOISON, 0, q, kvConsume r.2.2 pa⟩
      | .uncorr => .error ⟨cUECONS, 0, q, kvConsume r.2.2 pa⟩) (.ok ([], s))

/-- Such a read that sees what stands in memory (DESIGN CHOICE, log 6). -/
def cpRead (s : State) (ld slot : Nat) (p : Ptr) (n : Nat) : Except CpErr (List Byte × State) := cpReadBy none s ld slot p n

/-- The places of a write through a slot, all checked before any is made: pointer, physical address and bytes. -/
def cpPlaces (s : State) (ld slot : Nat) (p : Ptr) (bs : List Byte) : Except CpErr (List (Ptr × Nat × List Byte)) :=
  (cutMem (bs.length / 32 + 2) (ptrVa p) 0 bs.length).foldl (fun acc c => acc.bind fun l =>
    (cpPlace s ld slot (ptrAdd p c.1) c.2 .write).map fun pa => l ++ [(ptrAdd p c.1, pa, (bs.drop c.1).take c.2)]) (.ok [])

/-- Bytes written through a slot, as a release at a scope of what happens before it (R124). -/
def cpRelease (s : State) (ld slot : Nat) (p : Ptr) (bs : List Byte) (sc : Scope) (past : List Nat) : Except CpErr State :=
  (cpPlaces s ld slot p bs).map fun l => l.foldl (fun s x =>
    busRelease (cpWalk s ld slot x.1) (.sup ld) .service sc past x.2.1 x.2.2) (tick s)

/-- Bytes written through a slot. -/
def cpWrite (s : State) (ld slot : Nat) (p : Ptr) (bs : List Byte) : Except CpErr State := cpRelease s ld slot p bs .sys []

/-- A number read through a slot. -/
def cpNat (s : State) (ld slot : Nat) (p : Ptr) (n : Nat) : Except CpErr (Nat × State) :=
  (cpRead s ld slot p n).map fun r => (ofBytes r.1, r.2)

/-- What an acquire at .sys of the bytes at a pointer brings the command processor (R124, R406, R412). -/
def cpGained (s : State) (ld slot : Nat) (p : Ptr) (n : Nat) : List Nat :=
  if noOrder s then []
  else (cutMem (n / 32 + 2) (ptrVa p) 0 n).foldl (fun a c => match cpPlace s ld slot (ptrAdd p c.1) c.2 .read with
    | .ok pa => union a (acquiredAt s .service .sys pa c.2)
    | .error _ => a) []

/-! Queues (R402, R404, R408). -/

/-- The queue stops (R408, R450). -/
def stopQueue (s : State) (k : QueueRef) (code : Nat) (ptr : Ptr) : State :=
  raiseMsix (modQueue s k.ld k.q fun x =>
    { x with err := true, estat := BitVec.ofNat 8 code, eaddr := ptr, en := false, waiting := none }) k.ld 0

/-- The pointer of a command. -/
def commandPtr (x : Queue) (i : Nat) : Ptr := ptrAdd x.base (64 * (i % x.size.toNat) : Nat)

/-- Is a descriptor invalid, or TAIL too far ahead (R404). -/
def descBad (s : State) (k : QueueRef) (x : Queue) : Bool :=
  !((List.range 17).any fun i => x.size.toNat == 2 ^ (i + 4)) || x.base.toNat % 64 != 0 || x.slot.toNat == 63 || x.size.toNat < (x.tail - x.head).toNat ||
  qbWord s k.ld (64 * k.q + 16) != 0 || (List.range 4).any fun i => qbWord s k.ld (64 * k.q + 32 + 8 * i) != 0

/-- Fields of a command (R405). -/
def cmdCode (c : Nat) : Nat := fld c 0 8
def cmdFlags (c : Nat) : Nat := fld c 8 8
def cmdImm (c : Nat) : Nat := fld c 32 32
def cmdP (c : Nat) : Ptr := BitVec.ofNat 64 (fld c 64 64)
def cmdVal (c : Nat) : Nat := fld c 128 64
def cmdP2 (c : Nat) : Ptr := BitVec.ofNat 64 (fld c 192 64)

/-- The FLAGS bits a command defines (R406). -/
def cmdMask : Nat → Nat
  | 1 | 4 => 3
  | 2 | 10 | 11 => 1
  | _ => 0

/-- Has a command a nonzero reserved or undefined bit (R405). -/
def cmdBad (c : Nat) : Bool := c / 2 ^ 256 != 0 || fld c 16 16 != 0 || ((List.range 8).any fun i => bit1 (cmdFlags c) i && !bit1 (cmdMask (cmdCode c)) i)

/-- Is there a command to read. -/
def queueBusy (x : Queue) : Bool := x.en && x.tail != x.head

/-- A check or read of a queue that fails stops it (R404, R408): else the command at HEAD, read anew unless it waits. -/
def readCommand (s : State) (k : QueueRef) : Except State (Nat × State) :=
  let x := queueOf s k.ld k.q
  match x.waiting with
  | some c => .ok (c, s)
  | none =>
    let p := commandPtr x x.head.toNat
    if descBad s k x then .error (stopQueue s k 0x0B p)
    else match cpNat s k.ld x.slot.toNat p 64 with
      | .error e => .error (stopQueue e.s k 0x0D p)
      | .ok r => .ok r

/-- The command processor reads the command at HEAD of a queue; where its code is the one asked for, it acts: an invalid
one stops the queue. `f` gets the machine, the queue, the command and its pointer. -/
def queueCommand (k : QueueRef) (sel : Nat → Bool) (s : State) (f : State → Queue → Nat → Ptr → State) :
    Host.Outcome State Fault Refusal :=
  agent s fun s =>
    let x := queueOf s k.ld k.q
    if !(queueBusy x && k.ld < 16 && k.q < 9 && !(ldOf s k.ld).resetting) then s
    else match readCommand s k with
      | .error s => s
      | .ok (c, s') =>
        let p := commandPtr x x.head.toNat
        if !sel c then s
        else if cmdBad c then stopQueue s' k 0x0C p
        else f s' (queueOf s' k.ld k.q) c p

/-- The queue goes on at a command. -/
def queueGo (s : State) (k : QueueRef) (i : Int) : State :=
  modQueue s k.ld k.q fun x => { x with head := BitVec.ofInt 32 i, waiting := none }

/-- The commands of a queue follow what a read has acquired (R406). -/
def queueGain (s : State) (k : QueueRef) (ids : List Nat) : State :=
  if ids.isEmpty then s else modQueue s k.ld k.q fun x => { x with past := union (farLive s x.past) ids }

/-- A command's read of a number, an acquire at .sys (R406). -/
def queueNat (s : State) (k : QueueRef) (slot : Nat) (p : Ptr) (n : Nat) : Except CpErr (Nat × State) :=
  let ids := cpGained s k.ld slot p n
  (cpNat s k.ld slot p n).map fun r => (r.1, queueGain r.2 k ids)

/-- The next command. -/
def queueNext (s : State) (k : QueueRef) : State :=
  modQueue s k.ld k.q fun x => { x with head := x.head + 1, waiting := none }

/-- The command at HEAD waits. -/
def queueWait (s : State) (k : QueueRef) (c : Nat) : State := modQueue s k.ld k.q fun x => { x with waiting := some c }

end Sys2Proof.Machine
end

