-- ==== Sys2Proof/Machine/Fabric.lean ====
section
/-! DEFINITION. Hosts, Nimbus harts and network transfers (spec/01_address_spaces.md R24; spec/05_consistency.md R143 to R146;
spec/25_host_and_fabric.md R449, R454 to R457). -/

namespace Sys2Proof.Machine

/-! HDM accesses (R24, R449). -/

/-- Where a host access of up to a line lies: none past the window's end, or while the logical device is being reset (R440); the
fault of slot 63's root, or the address. -/
def hdmPlace (s : State) (ld off size : Nat) (k : Acc) : Option (Except (Nat × Nat) Nat) :=
  if !(ld < 16 && 0 < size && off % 64 + size ≤ 64 && off + size ≤ 2 ^ 21 * ldReg s ld 0x401) || (ldOf s ld).resetting then none
  else
    let r := (ldOf s ld).slots.getD 63 emptyRoot
    some (if !r.full then .error (cNOTMAPPED, 10) else (translate s ld r.key true off k).map Prod.fst)

/-- The walk of a host access (R61). -/
def hdmWalk (s : State) (ld off : Nat) : State :=
  let r := (ldOf s ld).slots.getD 63 emptyRoot
  if r.full then walkRead s ld r.key off else s

/-- A host's reads have brought something (R146). -/
def hostGain (s : State) (ld pa n : Nat) : State :=
  let ids := union (acquiredAt s (.host ld) .sys pa n) (seenAt s pa n)
  if ids.isEmpty then s else modLd s ld fun d => { d with hostPast := union (farLive s d.hostPast) ids }

/-- HOST_HDM_READ: data, or data with poison set where the page cannot be read, its link is down, or its sector is bad (DEDUCED, log 40). -/
def execHostHdmRead (ld off size : Nat) (s : State) : Host.Outcome State Fault Refusal :=
  agent s fun s => match hdmPlace s ld off size .read with
  | none => s
  | some (.error _) => { logEvent (hdmWalk s ld off) 0x07 0 1 ld off 0 with hdmRead := some (ld, none) }
  | some (.ok pa) =>
    let s := hdmWalk s ld off
    if linkDown s pa then { s with hdmRead := some (ld, none) }
    else
      let r := readMem (hostGain s ld pa size) pa size
      let s := if r.2.1 = .ok then r.2.2 else kvConsume r.2.2 pa
      { s with hdmRead := some (ld, if r.2.1 = .ok then some r.1 else none) }

/-- HOST_HDM_WRITE: discarded where the page cannot be written. It releases what the host's reads have brought (R146). -/
def execHostHdmWrite (ld off : Nat) (bytes : List Byte) (s : State) : Host.Outcome State Fault Refusal :=
  agent s fun s => match hdmPlace s ld off bytes.length .write with
  | none => s
  | some (.error _) => logEvent (hdmWalk s ld off) 0x07 0 2 ld off 0
  | some (.ok pa) =>
    let s := hdmWalk s ld off
    if linkDown s pa then s else busRelease s (.host ld) (.host ld) .sys (whoPast s (.host ld)) pa bytes

/-! NIMBUS_HART_ACCESS (R145, R451, R452). -/

/-- A hart. -/
def hartOf (s : State) (h : Nat) : Hart := s.harts.getD h default

/-- Change it. -/
def modHart (s : State) (h : Nat) (f : Hart → Hart) : State := { s with harts := lset s.harts h (f (hartOf s h)) }

/-- What a read gives a hart; where it consumed an error the value is left open. -/
def hartRead (s : State) (h pa v : Nat) (st : RdSt) : State :=
  let v : DWord := if st = .ok then BitVec.ofNat 64 v else Config.freeWord s.frees
  let s := if st = .ok then s else kvConsume s pa
  modHart (tick s) h fun x => { x with rd := v }

/-- A hart has read what stands at a location; an acquire brings what has been released there (R124, R145). -/
def hartSaw (s : State) (h pa n : Nat) (aq : Bool) : State :=
  if noOrder s then s
  else
    let tags := tagsAt s pa n
    modHart s h fun x => { x with ord := { x.ord with
      seen := x.ord.seen ++ tags, obs := union (farLive s x.ord.obs) (seenAt s pa n)
      past := if aq then union x.ord.past (acquired s .service [.dev] tags) else x.ord.past } }

/-- A hart has written to a location: the releases of its fences and of an rl bit are recorded there (R124, R145); a write of a queue's
TAIL is one (R404). -/
def hartWrote (s : State) (h pa n : Nat) (rl : Bool) : State :=
  let before := whoPast s (.hart h)
  let rels := (if rl then [(Scope.dev, before)] else []) ++ (hartOf s h).ord.fences
  let s := rels.foldl (fun s r => addTag s .service r.1 r.2 pa n) s
  netGain (tailGain s pa before) pa n (farLive s (rels.foldl (fun a r => union a r.2) []))

/-- A fence of a hart (R145): one of r before rw acquires, one of rw before w releases, one of rw before rw does both and takes its place among
the FENCE.ar of the package (R127); any other makes no edge with other threads. -/
def hartFence (s : State) (h : Nat) (pr pw sr sw : Bool) : State :=
  let o := (hartOf s h).ord
  let acq := pr && sr && sw
  let rel := pr && pw && sw
  let got := if acq then union (acquired s .service [.dev] o.seen) (if rel then acquired s .service [.dev] s.arDone else []) else []
  let past := union (farLive s o.past) got
  let before := union past (farLive s o.obs)
  let s := if acq && rel && !before.isEmpty then { s with arDone := s.arDone ++ [⟨s.nextId, 0, 0, .service, .dev, before⟩] } else s
  modHart s h fun x => { x with ord := { o with
    past := if acq && rel then before else past
    fences := if rel && !before.isEmpty then o.fences ++ [(.dev, before)] else o.fences } }

/-- Is an access of a hart one that reaches memory or a register: aligned, of 1 to 8 bytes, at an address that exists. -/
def hartReaches (s : State) (pa size : Nat) : Bool :=
  [1, 2, 4, 8].contains size && pa % size == 0 && pa < 2 ^ 52 && areaOf pa != .reserved && !linkDown s pa

/-- A hart's load. -/
def hartLoad (s : State) (h pa size : Nat) (aq : Bool) : State × Nat × RdSt :=
  let r := busRead (hartSaw s h pa size aq) (.hart h) pa size
  (hartRead r.2.2 h pa (ofBytes r.1) r.2.1, ofBytes r.1, r.2.1)

/-- A hart's plain store: writes through COW leaves come before a tree operation that it starts (R56). -/
def hartStore (s : State) (h pa size : Nat) (v : DWord) (rl : Bool) : State :=
  hartWrote (busWrite (beforePort s pa v) (.hart h) pa (bytesOf v.toNat size)) h pa size rl

/-- The write of a hart's read-modify-write, which goes on with the release sequences that it meets (R124). -/
def hartModify (s : State) (h pa size v : Nat) (rl : Bool) : State :=
  let s := { s with hist := s.hist.filter fun w => !overlap w.loc w.old.length pa size }
  hartWrote (busPut s (.hart h) pa (bytesOf v size)) h pa size rl

/-- NIMBUS_HART_ACCESS. Each access comes about in one step; a store-conditional whose reservation stands succeeds or fails, as nothing
fixes (DEDUCED, log 37). -/
def execNimbusHartAccess (hart : Nat) (op : HartOp) (s : State) : Host.Outcome State Fault Refusal :=
  agent s fun s => match op with
  | .fence pr pw sr sw => hartFence s hart pr pw sr sw
  | .load pa size => if hartReaches s pa size then (hartLoad s hart pa size false).1 else s
  | .store pa size v => if hartReaches s pa size then hartStore s hart pa size v false else s
  | .amo o pa size v aq rl =>
    if !hartReaches s pa size || size < 4 then s
    else
      let r := hartLoad s hart pa size aq
      if r.2.2 = .ok then hartModify r.1 hart pa size (amoVal o (8 * size) r.2.1 (v.toNat % 2 ^ (8 * size))) rl else r.1
  | .lr pa size =>
    if !hartReaches s pa size || size < 4 then s
    else
      let r := hartLoad s hart pa size false
      modHart r.1 hart fun x => { x with resv := if r.2.2 = .ok then some (pa, size, bytesOf r.2.1 size) else none }
  | .sc pa size v aq rl =>
    if !hartReaches s pa size || size < 4 then s
    else
      let held := match (hartOf s hart).resv with
        | some (a, n, bs) => a == pa && n == size && (busRead s (.hart hart) pa size).1 == bs
        | none => false
      let ok := held && Config.freeBool s.frees
      let s := modHart (tick s) hart fun x => { x with resv := none, rd := if ok then 0 else 1 }
      if ok then hartModify (hartSaw s hart pa size aq) hart pa size v.toNat rl else s

/-! Queue pairs (R454, R455). -/

/-- Word k of a pair: 0 SQBASE, 1 CQBASE, 2 the sizes, 3 TAILPTR. -/
def pairWord (s : State) (ld pair k : Nat) : DWord := qbWord s ld (0x300 + 32 * pair + 8 * k)

/-- Entries of a pair's send ring, and of its completion queue. -/
def pairSq (s : State) (ld pair : Nat) : Nat := 2 ^ fld (pairWord s ld pair 2).toNat 0 16
def pairCq (s : State) (ld pair : Nat) : Nat := 2 ^ fld (pairWord s ld pair 2).toNat 32 16

/-- Change a transfer. -/
def modNet (s : State) (id : Nat) (f : NetOp → NetOp) : State :=
  { s with netOps := s.netOps.map fun o => if o.id == id then f o else o }

/-- NET_TAIL_WRITE: the engine is told a write of TAIL, which the word now holds; a raise posts the requests up to it. -/
def execNetTailWrite (ld pair : Nat) (tail : DWord) (s : State) : Host.Outcome State Fault Refusal :=
  agent s fun s =>
    if !(ld < 16 && pair < 8 && !(ldOf s ld).resetting) then s
    else match pairTail s ld pair with
      | none => s
      | some pa =>
        if peek s pa 8 != tail.toNat then s
        else
          let old := (ldOf s ld).netPosted.getD pair 0
          let new := (List.range (tail.toNat - old)).map fun i => (⟨s.nextId + i, ld, pair, old + i, none, none, 0, [], 0, 0⟩ : NetOp)
          let s := modLd s ld fun d => { d with netPosted := lset d.netPosted pair tail.toNat }
          { s with netOps := s.netOps ++ new, nextId := s.nextId + new.length }

/-! Work requests (R454). -/

def reqOp (x : Nat) : Nat := fld x 0 7
def reqEther (x : Nat) : Bool := bit1 x 7
def reqDest (x : Nat) : Nat := fld x 8 24
def reqLen (x : Nat) : Nat := fld x 32 32
def reqLocal (x : Nat) : Ptr := BitVec.ofNat 64 (fld x 64 64)
def reqWrid (x : Nat) : Nat := fld x 256 64

/-- Is a field of a request invalid. -/
def netBad (x : Nat) : Bool :=
  !(1 ≤ reqOp x && reqOp x ≤ 3) || !(1 ≤ reqLen x && reqLen x ≤ 2 ^ 31) || fld x 192 27 != 0 || fld x 222 6 == 63 || fld x 232 24 != 0 ||
  fld x 320 192 != 0 || (if reqEther x then 4096 ≤ reqDest x else 65536 ≤ reqDest x)

/-- The route of a Strait transfer (R457): the status that ends it, if any. -/
def straitRoute (s : State) (dest : Nat) : Option Nat :=
  let e := peek s (pkgReg s 0x831 + 8 * dest) 8
  let ports := (List.range 36).filter fun i => bit1 e i
  if !bit1 e 63 || ports.isEmpty || dest == pkgReg s 0x830 then some 3
  else if ports.all fun i => !s.straitUp.contains i then some 4 else none

/-- The context of a connection (R457): its address, where it is in use. -/
def rocePa (s : State) (ld i : Nat) : Option Nat :=
  let a := ldReg s ld 6 + 64 * i
  if i < ldReg s ld 7 && bit1 (peek s a 64) 304 then some a else none

/-- The status that ends a request before it moves anything. -/
def netRefused (s : State) (ld x : Nat) : Option Nat :=
  if netBad x then some 3
  else if reqEther x then (if (rocePa s ld (reqDest x)).isNone then some 3 else none)
  else straitRoute s (reqDest x)

/-- The reads of the tables that a transfer's start needs (R457, R103). -/
def netTables (s : State) (ld x : Nat) : State :=
  if netBad x then s
  else if reqEther x then tableRead s (ldReg s ld 6 + 64 * reqDest x) 64 else tableRead s (pkgReg s 0x831 + 8 * reqDest x) 8

/-- A transfer ends with a status and the bytes moved. -/
def netEnd (s : State) (id st n : Nat) : State := modNet s id fun o => { o with status := some st, bytes := n }

/-- What a pair's engine has acquired (R143): of what it has not, it may read old bytes (R454). -/
def netKnown (s : State) (ld pair : Nat) : Option (List Nat) := some ((ldOf s ld).netPast.getD pair [])

/-- A step of the engine for a posted request: it is read, and refused or moved. `sel` says which operations the step
takes. -/
def netStart (op : Nat) (sel : Nat → Bool) (s : State) (f : State → NetOp → Nat → State) : Host.Outcome State Fault Refusal :=
  agent s fun s => match s.netOps.find? fun o => o.id == op && o.raw.isNone && o.status.isNone with
  | none => s
  | some o =>
    let slot := pairSlot o.ld o.pair
    match cpReadBy (netKnown s o.ld o.pair) s o.ld slot (ptrAdd (pairWord s o.ld o.pair 0) (64 * (o.req % pairSq s o.ld o.pair) : Nat)) 64 with
    | .error e => if sel 0 then netEnd e.s op 3 0 else s
    | .ok (bs, s') =>
      let x := ofBytes bs
      if !sel (reqOp x) then s
      else
        let s := modNet (netTables s' o.ld x) op fun o => { o with raw := some x, due := s.cycle + 3000000 }
        match netRefused s o.ld x with
        | some st => netEnd s op st 0
        | none => f s o x

/-- The payload of a send is read; a fault of a local read ends the transfer, part of it having moved or not. -/
def netSend (s : State) (o : NetOp) (x : Nat) : State :=
  match cpReadBy (netKnown s o.ld o.pair) s o.ld (pairSlot o.ld o.pair) (reqLocal x) (reqLen x) with
  | .error e => netEnd (tick e.s) o.id 3 (Config.freeNat e.s.frees % reqLen x)
  | .ok r => modNet r.2 o.id fun o => { o with bytes := reqLen x }

/-- NET_WRITE; a request that names no operation, or cannot be read, is taken by this step. -/
def execNetWrite (op : Nat) (s : State) : Host.Outcome State Fault Refusal :=
  netStart op (fun k => k == 1 || k == 0 || 3 < k) s netSend

/-- NET_WRITE_NOTIFY. -/
def execNetWriteNotify (op : Nat) (s : State) : Host.Outcome State Fault Refusal := netStart op (fun k => k == 2) s netSend

/-- What a transfer has written: bytes, writes, the first fault. -/
structure NetPut where
  s : State
  bytes : Nat
  ids : List Nat
  bad : Option CpErr

/-- A run of bytes of a payload is written: who has not acquired the transfer's record may still miss it (R144). -/
def netWrote (a : NetPut) (ld pa : Nat) (bs : List Byte) : NetPut :=
  let s := a.s
  let t := dropTags (busPut s (.sup ld) pa bs) pa bs.length
  let u := if areaOf pa == .regs then t
    else keepWrite s { t with nextId := s.nextId + 1 } s.nextId pa (storedBytes s pa bs.length) true none [] none
  { a with s := u, bytes := a.bytes + bs.length, ids := a.ids ++ [s.nextId] }

/-- Bytes written through a slot piece by piece, each of which is made where it may be: what was written, and the first fault. -/
def netPut (s : State) (ld slot : Nat) (p : Ptr) (bs : List Byte) : NetPut :=
  let cs := cutMem (bs.length / 32 + 2) (ptrVa p) 0 bs.length
  let bad := cs.filterMap fun c => match cpPlace s ld slot (ptrAdd p c.1) c.2 .write with
    | .error e => some e
    | .ok _ => none
  cs.foldl (fun a c => match cpPlace a.s ld slot (ptrAdd p c.1) c.2 .write with
    | .error _ => { a with s := tick a.s }
    | .ok pa =>
      let s := cpWalk (tick a.s) ld slot (ptrAdd p c.1)
      if bad.isEmpty || Config.freeBool a.s.frees then netWrote { a with s := s } ld pa ((bs.drop c.1).take c.2) else { a with s := s })
    ⟨s, 0, [], bad.head?⟩

/-- NET_READ: what another package's memory holds is no part of this one: the bytes are left open (DESIGN CHOICE, log 36). -/
def execNetRead (op : Nat) (s : State) : Host.Outcome State Fault Refusal :=
  netStart op (fun k => k == 3) s fun s o x =>
    if Config.freeBool s.frees then tick s
    else
      let bs := (List.range (reqLen x)).map fun i => Config.freeByte (s.frees + 1 + i)
      let r := netPut { s with frees := s.frees + 1 + reqLen x } o.ld (pairSlot o.ld o.pair) (reqLocal x) bs
      modNet (netEnd r.s op (if r.bad.isSome then 3 else 1) r.bytes) op fun o => { o with wrote := r.ids }

/-! Ends of transfers (R455, R457). -/

/-- A completion record is written into the next place of a pair's queue, and brings an acquirer at .dev the transfer's writes (R144); one
that cannot be written is lost (DESIGN CHOICE, log 36). -/
def netRecord (s : State) (ld pair wrid len st op : Nat) (ids : List Nat) : State :=
  let n := (ldOf s ld).netDone.getD pair 0
  let q := pairCq s ld pair
  let v := wrid * 2 ^ 64 + len % 2 ^ 32 * 2 ^ 32 + st * 2 ^ 24 + op % 256 * 2 ^ 16 + (1 + n / q) % 2
  let s := modLd s ld fun d => { d with netDone := lset d.netDone pair (n + 1) }
  match cpRelease s ld (pairSlot ld pair) (ptrAdd (pairWord s ld pair 1) (16 * (n % q) : Nat)) (bytesOf v 16) .dev ids with
  | .ok s => s
  | .error e => e.s

/-- Have all the ports of a Strait transfer gone down (R457) (DESIGN CHOICE, log 36). -/
def netCut (s : State) (o : NetOp) : Bool := match o.raw with
  | some x => !reqEther x && straitRoute s (reqDest x) == some 4
  | none => false

/-- The status of a transfer: its own, else what the remote side answers, where no loss of its ports came first (DESIGN CHOICE, log 36). -/
def netStatus (s : State) (o : NetOp) : Nat :=
  o.status.getD (if netCut s o && Config.freeBool (s.frees + 3) then 4 else if Config.freeBool s.frees then 1 else 2)

/-- Does a transfer that is still under way come to its end: its payload has gone, or its request has been answered. -/
def netOver (o : NetOp) : Bool := o.status.isSome || o.raw.isSome

/-- NET_COMPLETION: the record goes into the sender's own queue; a transfer of a logical device that is being reset is
discarded (R440). -/
def execNetCompletion (op : Nat) (s : State) : Host.Outcome State Fault Refusal :=
  agent s fun s => match s.netOps.find? fun o => o.id == op with
  | none => s
  | some o =>
    let s' := { s with netOps := s.netOps.filter fun x => x.id != op }
    if (ldOf s o.ld).resetting then s'
    else if !netOver o then s
    else
      let st := netStatus s o
      let x := o.raw.getD (Config.freeNat (s.frees + 1))
      let len := if st = 2 ∨ (st = 4 ∧ o.status.isNone) then Config.freeNat (s.frees + 2) % (reqLen x + 1) else o.bytes
      netRecord { s' with frees := s.frees + 4 } o.ld o.pair (reqWrid x) len st (reqOp x) o.wrote

/-- NET_RETRANSMIT_TIMEOUT (R457): after the eighth retry the transfer ends and its context is cleared. -/
def execNetRetransmitTimeout (op : Nat) (s : State) : Host.Outcome State Fault Refusal :=
  agent s fun s => match s.netOps.find? fun o => o.id == op && o.status.isNone with
  | none => s
  | some o => match o.raw with
    | none => s
    | some x =>
      if !reqEther x then s
      else
        let s : State := { s with cycle := max s.cycle o.due }
        if o.retries < 8 then
          modNet s op fun o => { o with retries := o.retries + 1, due := s.cycle + 3000000 * 2 ^ (o.retries + 1) }
        else
          let s := netEnd (tick s) op 4 (Config.freeNat s.frees % (reqLen x + 1))
          match rocePa s o.ld (reqDest x) with
          | none => s
          | some a => hwWrite s a (bytesOf (peek s a 64 - 2 ^ 304) 64)

/-! NET_RECEIVE (R455, R457). -/

/-- The logical device that a packet goes to: named by a Strait request, else the owner of the context with its
queue-pair number. -/
def packetLd (s : State) (p : Packet) : Option Nat := match p.qpn with
  | none => if p.rld < 16 then some p.rld else none
  | some q => (List.range 16).find? fun ld => (List.range (ldReg s ld 7)).any fun i => match rocePa s ld i with
    | none => false
    | some a => fld (peek s a 64) 128 24 == q

/-- The request of a READ, whose packet has no payload: its bytes are read for the remote side, and a fault is logged (DESIGN CHOICE,
log 36). -/
def netServe (s : State) (ld : Nat) (p : Packet) : State := match cpRead s ld p.rslot p.remote p.want with
  | .error e => logEvent e.s 0x09 e.cause 0 ld p.remote.toNat p.wrid.toNat
  | .ok r => r.2

/-- NET_RECEIVE: a packet for no context is dropped; a fault is logged, and nothing more is written; a notification's
record follows the payload. One for a logical device that is being reset is dropped (DESIGN CHOICE, log 36). -/
def execNetReceive (p : Packet) (s : State) : Host.Outcome State Fault Refusal :=
  agent s fun s => match packetLd s p with
  | none => s
  | some ld =>
    if (ldOf s ld).resetting || 64 ≤ p.rslot then s
    else if p.op.toNat = 3 ∧ p.payload = [] then netServe s ld p
    else
      let r := netPut s ld p.rslot p.remote p.payload
      match r.bad with
      | some e => logEvent r.s 0x09 e.cause 0 ld p.remote.toNat p.wrid.toNat
      | none => if p.notify && p.rcq < 8 then netRecord r.s ld p.rcq p.wrid.toNat p.payload.length 1 p.op.toNat r.ids else r.s

end Sys2Proof.Machine
end

