-- ==== Sys2Proof/Machine/Loader.lean ====
section
/-! DEFINITION. The checks of a launch and the loader (spec/21_scheduling.md R413, R414, R475, R476; spec/06_execution_model.md
R159, R168, R170, R171; spec/07_instruction_format.md R186, R187, R196 to R198; spec/13_matrix_instructions.md R307;
spec/01_address_spaces.md R31 to R33; spec/18_ladders.md R362 to R364; spec/26_assembly_grammar.md R472 to R474). -/

namespace Sys2Proof.Machine

/-- Why a launch is rejected (R409, R411): status, cause, detail, index, address; the machine that its checks leave. -/
structure Rejected where
  status : Nat
  cause : Nat
  detail : Nat
  index : Nat
  ptr : Ptr
  s : State
  deriving Repr

/-- A rejection that a failed access causes (R475). -/
def Rejected.ofErr (status index : Nat) (e : CpErr) : Rejected := ⟨status, e.cause, e.detail, index, e.ptr, e.s⟩

/-- A rejection of the image (R414). -/
def badImage (s : State) (detail : Nat) : Rejected := ⟨0x05, 0, detail, 0, 0, s⟩

/-- A failed read of the image (R414, R475). -/
def badImageRead (e : CpErr) : Rejected := ⟨0x05, e.cause, 7, 0, e.ptr, e.s⟩

/-- A read of the image. -/
def ioOf {α : Type} (r : Except CpErr α) : Except Rejected α := match r with
  | .ok x => .ok x
  | .error e => .error (badImageRead e)

/-! The run check (R183, R186, R187, R307). -/

/-- The fixed latency of an instruction (R186). -/
def latencyOf : Instr → Option Nat
  | .iadd x | .isub x | .imin x | .imax x | .and x | .or x | .xor x | .andn x | .shl x | .shr x | .sar x | .rol x | .icmp x
  | .lea x => some (if x.ty.width = 64 then 3 else 2)
  | .iaddx x => some (if x.ty.width = 64 then 3 else 2)
  | .iabs x | .ineg x | .not x => some (if x.ty.width = 64 then 3 else 2)
  | .popc _ | .clz _ | .brev _ | .bfx _ | .bfi _ | .bsel _ => some 3
  | .imul _ | .imulh _ | .imad _ => some 5
  | .fadd _ | .fsub _ | .fmul _ | .ffma _ | .fmin _ | .fmax _ | .fcmp _ | .fclass _ | .fscale _ | .padd2 _ | .pmul2 _
  | .pfma2 _ => some 5
  | .cvt _ => some 6
  | .frcp _ | .frsq _ | .fsqrt _ | .fex2 _ | .flg2 _ | .fsin _ | .fcos _ => some 14
  | .lsemrg _ => some 16
  | _ => none

/-- What the run check knows of a word: registers read or written, those written, those named where engine instructions
chain, latency, is it an engine instruction. A word that is no instruction touches no register. -/
structure RunWord where
  all : List RegKey
  wr : List RegKey
  chain : List RegKey
  lat : Option Nat
  eng : Bool
  deriving Repr

/-- Does an instruction write the register of an argument: an octet that it only drains is no result of it (R302, R307). -/
def destArg (i : Instr) (a : Arg) : Bool := a.wr && match i with
  | .scacc _ => a.f != 1
  | .mdrain _ => a.f != 3
  | _ => true

/-- The run check's view of a word. -/
def runWord (w : InsWord) : RunWord := match decodeAt .mgmt w with
  | .error _ => ⟨[], [], [], none, false⟩
  | .ok i =>
    let ks (p : Arg → Bool) : List RegKey := ((args i).filter fun a => p a && !Arg.absent a).flatMap fun a => keysOf a.o a.w
    let gp := (hdrOf i).gp.toNat
    ⟨ks (fun a => a.rd || a.wr) ++ (if gp = 7 then [] else [.p gp]), ks (destArg i), ks fun a => chains i a.f, latencyOf i,
      isEngine i⟩

/-- Does a word end its run (R183): SW, or an opcode of the control class. -/
def endsRun (w : InsWord) : Bool :=
  let r := Raw.ofWord w
  r.sw || (0x50 ≤ r.opc.toNat && r.opc.toNat < 0x60)

/-- May word j, at a position, follow word i of its run (R187, R307). -/
def pairOk (i : RunWord × Nat) (j : RunWord) (pos : Nat) : Bool :=
  let shared := i.1.wr.filter fun k => j.all.contains k
  shared.isEmpty || (i.1.eng && j.eng && shared.all fun k => j.chain.contains k) || match i.1.lat with
    | some l => i.2 + l ≤ pos
    | none => false

/-- The runs of a kernel's code: the offset of the instruction at which a run fails R187, or the offsets at which runs begin. -/
def runStarts (ws : List InsWord) : Except Nat (List Nat) :=
  (ws.zipIdx.foldl (fun (acc : Except Nat (Nat × List (RunWord × Nat) × List Nat)) x => acc.bind fun a =>
    let j := runWord x.1
    if a.2.1.all fun i => pairOk i j a.1 then
      let pos := a.1 + 1 + (Raw.ofWord x.1).dly.toNat
      if endsRun x.1 then .ok (pos, [], a.2.2 ++ [12 * (x.2 + 1)]) else .ok (pos, a.2.1 ++ [(j, a.1)], a.2.2)
    else .error (12 * x.2)) (.ok (0, [], [0]))).map fun a => a.2.2

/-! Kernel-table entries (R473). -/

def kernEntry (k : Nat) : Nat := fld k 128 32
def kernSize (k : Nat) : Nat := fld k 160 32
def kernSide (k : Nat) : Nat := fld k 192 32
def kernLads (k : Nat) : Nat := fld k 224 32
def kernNbar (k : Nat) : Nat := fld k 48 12
def kernTgrp (k : Nat) : Nat := fld k 42 6
def kernGset (k : Nat) : Bool := bit1 k 41
def kernGlog (k : Nat) : Nat := fld k 39 2
def kernNlad (k : Nat) : Nat := fld k 36 3
def kernDepth (k : Nat) : Nat := fld k 29 6
def kernCdecl (k : Nat) : Nat := 8 * fld k 23 6
def kernPdecl (k : Nat) : Nat := 8 * fld k 17 6

/-! Side tables (R196 to R198). -/

/-- Is a side-table entry in order: above the one before, at the start of a run, within the code, its live registers
declared. -/
def sideOk (k : Nat) (starts : List Nat) (prev : Option Nat) (e : Nat) : Bool :=
  let off := fld e 0 32
  fld e 164 4 == 0 && fld e 32 128 == 0 && (match prev with
    | some p => p < off
    | none => true) && starts.contains off && off < kernSize k && fld e 256 256 / 2 ^ max (kernPdecl k) (kernCdecl k) == 0

/-- Are the entries of a side table in order. -/
def sideAll (k : Nat) (starts : List Nat) : Option Nat → List Nat → Bool
  | _, [] => true
  | prev, e :: r => sideOk k starts prev e && sideAll k starts (some (fld e 0 32)) r

/-- The entries of a kernel's side table, in a side-table section. -/
def readSide (s : State) (ld slot : Nat) (sec : Option Ptr) (k : Nat) (starts : List Nat) : Except Rejected (List Nat × State) :=
  match sec with
  | none => .ok ([], s)
  | some p =>
    let at' := ptrAdd p (kernSide k)
    match cpNat s ld slot at' 16 with
    | .error e => .error (badImageRead e)
    | .ok (h, s) =>
      if fld h 48 80 ≠ 0 ∨ 2 ^ 20 < fld h 0 32 then .error (badImage s 4)
      else match cpRead s ld slot (ptrAdd at' 16) (64 * fld h 0 32) with
        | .error e => .error (badImageRead e)
        | .ok (bs, s) =>
          let es := (List.range (fld h 0 32)).map fun i => ofBytes ((bs.drop (64 * i)).take 64)
          if sideAll k starts none es then .ok (es, s) else .error (badImage s 4)

/-! Images (R413, R414). -/

/-- A section entry (R413). -/
def secKind (e : Nat) : Nat := fld e 0 8
def secGen (e : Nat) : Nat := fld e 8 8
def secOff (e : Nat) : Nat := fld e 64 64
def secSize (e : Nat) : Nat := fld e 128 64
def secLoad (e : Nat) : Ptr := BitVec.ofNat 64 (fld e 192 64)

/-- The code section the loader chooses (R414, R3): native code of the third generation, of the second, Dweique code. -/
def chooseCode (es : List Nat) : Option Nat :=
  let pick (kind gen : Nat) : Option Nat := es.find? fun e => secKind e == kind && secGen e == gen
  (pick 1 3).or ((pick 1 2).or (pick 2 1))

/-- Where a section lies. -/
def secPlace (img : Ptr) (e : Nat) : Ptr := if secLoad e = 0 then ptrAdd img (secOff e) else secLoad e

/-- A section with a LOAD pointer is placed there; one that cannot be written there has an invalid field. -/
def placeSec (s : State) (ld slot : Nat) (img : Ptr) (e : Nat) : Except Rejected State :=
  if secLoad e = 0 then .ok s
  else match cpRead s ld slot (ptrAdd img (secOff e)) (secSize e) with
    | .error x => .error (badImageRead x)
    | .ok (bs, s) => match cpWrite s ld slot (secLoad e) bs with
      | .error x => .error (badImage x.s 1)
      | .ok s => .ok s

/-- The words of a run of bytes. -/
def wordsOf (bs : List Byte) : List InsWord := (List.range (bs.length / 12)).map fun i => wordOfBytes ((bs.drop (12 * i)).take 12)

/-- Can a word of Dweique code not be used (R414, detail 6) (DEDUCED, log 14). -/
def dweiqueBad (w : InsWord) : Bool := w.extractLsb' 82 8 != 0 || match decodeAt .mgmt w with
  | .error (.illop _) | .error (.rsvfld _) | .error (.opclass _) => true
  | _ => false

/-- A word of Dweique code as it runs: each word ends its run. -/
def dweiqueWord (w : InsWord) : InsWord := w ||| BitVec.twoPow 96 82

/-- Is the entry of a kernel in the kernel table in order (R413, R473). -/
def kernBad (csize : Nat) (lads : Bool) (k : Nat) : Bool :=
  fld k 60 68 != 0 || fld k 0 17 != 0 || kernSize k % 12 != 0 || csize < kernEntry k + kernSize k || 4 < kernNlad k || (kernNlad k != 0 && !lads)

/-- Where the runs of a kernel begin; a run that fails R187 names its instruction. -/
def kernRuns (s : State) (code : Ptr) (bytes : List Byte) (k : Nat) : Except Rejected (List Nat) :=
  match runStarts (wordsOf ((bytes.drop (kernEntry k)).take (kernSize k))) with
  | .ok l => .ok l
  | .error off => .error { badImage s 3 with ptr := ptrAdd code (kernEntry k + off : Nat) }

/-- The kernels of an image are checked: runs, side tables, frontier depths (R476, R414). -/
def loadKernels (s : State) (ld slot : Nat) (code : Ptr) (bytes : List Byte) (side : Option Ptr) (ks : List Nat) :
    Except Rejected (List (Nat × List Nat) × State) :=
  (ks.foldl (fun (acc : Except Rejected (List (Nat × List Nat))) k => acc.bind fun l =>
      (kernRuns s code bytes k).map fun r => l ++ [(k, r)]) (.ok [])).bind fun runs =>
  (runs.foldl (fun (acc : Except Rejected (List (Nat × List Nat) × State)) k => acc.bind fun a =>
      (readSide a.2 ld slot side k.1 k.2).map fun r => (a.1 ++ [(k.1, r.1)], r.2)) (.ok ([], s))).bind fun r =>
  if ks.any fun k => kernDepth k == 0 || 32 < kernDepth k then .error (badImage r.2 5) else .ok r

/-- The sections and the kernel table of an image whose code section is chosen: placed, translated, checked. -/
def loadCode (s : State) (ld slot : Nat) (img : Ptr) (h : Nat) (es : List Nat) (c : Nat) : Except Rejected (Image × State) :=
  ((c :: es.filter fun e => 3 ≤ secKind e).foldl (fun (acc : Except Rejected State) e =>
    acc.bind fun s => placeSec s ld slot img e) (.ok s)).bind fun s =>
  (ioOf (cpRead s ld slot (secPlace img c) (secSize c))).bind fun r =>
  let raw := wordsOf r.1
  let dw := secKind c == 2
  if dw && raw.any dweiqueBad then .error (badImage r.2 6)
  else
    let words := if dw then raw.map dweiqueWord else []
    let bytes := if dw then words.flatMap wordBytes else r.1
    let sec (kind : Nat) : Option Ptr := (es.find? fun e => secKind e == kind).map (secPlace img)
    let nkern := fld h 64 16
    (ioOf (cpRead r.2 ld slot (ptrAdd img (fld h 192 64)) (32 * nkern))).bind fun r =>
    let ks := (List.range nkern).map fun i => ofBytes ((r.1.drop (32 * i)).take 32)
    if ks.any (kernBad (secSize c) (sec 4).isSome) then .error (badImage r.2 1)
    else (loadKernels r.2 ld slot (secPlace img c) bytes (sec 3) ks).map fun a =>
      (⟨((ldOf s ld).slots.getD slot emptyRoot).gen, img, bit1 h 48, secPlace img c, secSize c, words, sec 4, a.1⟩, a.2)

/-- The loader (R413, R414): an image under the current root of a slot (DEDUCED, log 43). -/
def loadImage (s : State) (ld slot : Nat) (img : Ptr) : Except Rejected (Image × State) :=
  (ioOf (cpNat s ld slot img 64)).bind fun r =>
  let h := r.1
  let nsect := fld h 80 16
  let nkern := fld h 64 16
  if fld h 0 32 ≠ 0x44524F57 ∨ fld h 32 16 ≠ 1 ∨ fld h 256 256 ≠ 0 ∨ fld h 96 32 ≠ 0 ∨ fld h 49 15 ≠ 0 ∨ nsect = 0 ∨ 64 < nsect ∨
      nkern = 0 ∨ 4096 < nkern then .error (badImage r.2 1)
  else
    (ioOf (cpRead r.2 ld slot (ptrAdd img (fld h 128 64)) (32 * nsect))).bind fun r =>
    let es := (List.range nsect).map fun i => ofBytes ((r.1.drop (32 * i)).take 32)
    if es.any fun e => fld e 16 48 != 0 || secKind e == 0 || 5 < secKind e then .error (badImage r.2 1)
    else match chooseCode es with
      | none => .error { badImage r.2 2 with cause := cGENCODE }
      | some c => loadCode r.2 ld slot img h es c

/-- The image of a launch: loaded the first time it is named under a root generation. -/
def imageOf (s : State) (ld slot : Nat) (img : Ptr) : Except Rejected (Image × State) :=
  let gen := ((ldOf s ld).slots.getD slot emptyRoot).gen
  match (ldOf s ld).images.find? fun i => i.gen == gen && i.img == img with
  | some i => .ok (i, s)
  | none => (loadImage s ld slot img).map fun r => (r.1, modLd r.2 ld fun d => { d with images := r.1 :: d.images })

/-! The launch record (R170, R171). -/

/-- Step 1 of R476: is the record in order by itself, with the dimensions in force. -/
def recordOk (g : Grid) : Bool :=
  let teams := g.teamCount
  fld g.raw 610 414 == 0 && !bit1 g.raw 559 && g.nregion ≤ 32 && g.nbar ≤ 2048 && g.csk ≤ 16 && g.psk ≤ 16 && g.cu ≤ 64 &&
    g.au ≤ 192 && g.wu ≤ 192 && 8 ≤ g.pbud && g.pbud ≤ 256 && g.cgrp ≤ 31 && (g.cgrp == 0 || (8 ≤ g.cbud && g.cbud ≤ 256)) &&
    g.slot ≤ 62 && 1 ≤ g.gx && 1 ≤ g.gy && 1 ≤ g.gz && teams < 2 ^ 32 && teams % g.gangN == 0 &&
    (g.slice == 0 || (g.stack.toNat % 2 ^ 16 == 0 && ptrVa g.stack + teams * g.slice * 2 ^ 16 * (g.cgrp + 1) ≤ 2 ^ 56))

/-- Step 3: the record against its kernel, but for the read of ARGS (R171, R403, R474). -/
def kernelOk (g : Grid) (i : Image) (k : Nat) : Bool :=
  let res := reserveOf (kernDepth k)
  (!i.sup || g.queue == 8) && kernPdecl k ≤ g.pbud && (g.cgrp == 0 || kernCdecl k ≤ g.cbud) &&
    g.pbud + res + g.cgrp * (g.cbud + res) ≤ 4096 && (kernTgrp k == 0 || kernTgrp k == g.cgrp + 1) &&
    (!kernGset k || 2 ^ kernGlog k == g.gangN) && kernNbar k ≤ g.nbar

/-! Region entries (R31 to R33). -/

def regTstride (x : Nat) : Nat := fld x 472 40
def regPitch (x : Nat) : Nat := fld x 448 20
/-- Stride of a dimension above 0. -/
def regS (x d : Nat) : Nat := fld x (256 + 64 * (d - 1)) 40
/-- Extent of a dimension. -/
def regE (x d : Nat) : Nat := fld x (128 + 32 * d) 32
def regOff (x : Nat) : Nat := fld x 96 20
def regBuf (x : Nat) : Nat := fld x 94 2
def regDir (x : Nat) : Nat := fld x 92 2
def regNdim (x : Nat) : Nat := fld x 90 2 + 1
/-- Bytes of an element. -/
def regZ (x : Nat) : Nat := 2 ^ fld x 87 3
def regTag (x : Nat) : Nat := fld x 83 4
def regBase (x : Nat) : Ptr := BitVec.ofNat 64 (fld x 0 64)
/-- Bytes of the buffer area (R32). -/
def regArea (x : Nat) : Nat := regPitch x * regE x 1 * regE x 2 * regE x 3

/-- Is an entry in order, next to the entries before it (R33). -/
def regionOk (g : Grid) (prev : List Nat) (x : Nat) : Bool :=
  let alloc := 4096 * (if regBuf x = 0 then g.wu else g.au)
  fld x 468 4 == 0 && fld x 424 24 == 0 && fld x 360 24 == 0 && fld x 296 24 == 0 && fld x 116 12 == 0 && fld x 64 19 == 0 &&
    regBuf x ≤ 1 && regDir x != 0 && fld x 87 3 ≤ 4 && regPitch x % 16 == 0 && regOff x % 16 == 0 && 1 ≤ regE x 3 &&
    regE x 0 * regZ x ≤ regPitch x && ((List.range 4).all fun d => d < regNdim x || (regE x d == 1 && regS x d == 0)) &&
    (regBuf x == 1 || regDir x == 1) && (regTag x == 0 || fld x 87 3 == 1 || fld x 87 3 == 2) && regOff x + regArea x ≤ alloc &&
    prev.all fun y => !(regBuf y == regBuf x && overlap (regOff y) (regArea y) (regOff x) (regArea x) && regArea x != 0 && regArea y != 0)

/-- Step 4: the entries in list order. -/
def readRegions (s : State) (g : Grid) : Except Rejected (List Nat × State) :=
  (List.range g.nregion).foldl (fun acc i => acc.bind fun a =>
    match cpNat a.2 g.ld g.slot (ptrAdd g.regPtr (64 * i : Nat)) 64 with
    | .error e => .error (Rejected.ofErr 0x03 i e)
    | .ok r => if regionOk g a.1 r.1 then .ok (a.1 ++ [r.1], r.2) else .error ⟨0x03, 0, 0, i, 0, r.2⟩) (.ok ([], s))

/-! Ladder descriptors (R362 to R364). -/

/-- What the rungs checked so far take: frame areas, slots, vector registers. -/
structure LadUse where
  areas : List (Nat × Nat)
  slots : Nat
  regs : Nat
  deriving Repr

/-- Is a rung's entry in order, and what the rungs then take. -/
def rungOk (g : Grid) (csize : Nat) (u : LadUse) (e : Nat) : Option LadUse :=
  let size := rungSlots e * 32 * rungFs e
  let v : LadUse := ⟨u.areas ++ [(rungFoff e, size)], u.slots + rungSlots e, u.regs + rungSlots e * (rungBud e + reserveOf g.depth)⟩
  if fld e 0 261 == 0 && 1 ≤ fld e 284 16 && 8 ≤ rungBud e && rungBud e ≤ 256 && rungFs e ≤ 512 && 1 ≤ rungSlots e && rungSlots e ≤ 8 &&
      rungFoff e % 16 == 0 && rungEntry e % 4 == 0 && rungEntry e < csize && rungFoff e + size ≤ 4096 * g.au &&
      (u.areas.all fun a => !(overlap a.1 a.2 (rungFoff e) size && a.2 != 0 && size != 0)) && g.cgrp + 1 + v.slots ≤ 32 && v.regs ≤ 4096
  then some v else none

/-- Is a descriptor in order: the INDEX of the fault, or what the rungs then take. -/
def ladderOk (g : Grid) (csize lad : Nat) (u : LadUse) (x : Nat) : Except Nat LadUse :=
  if fld x 256 256 ≠ 0 ∨ fld x 168 24 ≠ 0 ∨ fld x 8 56 ≠ 0 ∨ fld x 2 4 ≠ 0 ∨ fld x 6 2 = 3 then .error (4 * lad)
  else (List.range 4).foldl (fun acc r => acc.bind fun u =>
    if ladRungs x ≤ r then (if rungRaw x r = 0 then .ok u else .error (4 * lad + r))
    else match rungOk g csize u (rungRaw x r) with
      | some v => .ok v
      | none => .error (4 * lad + r)) (.ok u)

/-- Step 5: the descriptors in ladder order. -/
def readLadders (s : State) (g : Grid) (i : Image) (k : Nat) : Except Rejected (List Nat × State) :=
  let res := reserveOf (kernDepth k)
  ((List.range (kernNlad k)).foldl (fun (acc : Except Rejected (List Nat × LadUse × State)) l => acc.bind fun a =>
    match cpNat a.2.2 g.ld g.slot (ptrAdd (i.lads.getD 0) (kernLads k + 256 * l : Nat)) 256 with
    | .error e => .error (Rejected.ofErr 0x04 (4 * l) e)
    | .ok r => match ladderOk g i.csize l a.2.1 r.1 with
      | .error ix => .error ⟨0x04, 0, 0, ix, 0, r.2⟩
      | .ok u => .ok (a.1 ++ [r.1], u, r.2)) (.ok ([], ⟨[], 0, g.pbud + res + g.cgrp * (g.cbud + res)⟩, s))).map fun a => (a.1, a.2.2)

/-! All checks of a launch (R476). -/

/-- The checks in their order: the grid with all that was read, or the first failure. -/
def checkLaunch (s : State) (g : Grid) : Except Rejected (Grid × State) :=
  let bad (s : State) : Rejected := ⟨0x02, 0, 0, 0, 0, s⟩
  if !recordOk g then .error (bad s)
  else (imageOf s g.ld g.slot g.image).bind fun r =>
    let i := r.1
    match i.kernels[g.kernIx]? with
    | none => .error (bad r.2)
    | some (k, side) =>
      if !kernelOk g i k then .error (bad r.2)
      else match cpRead r.2 g.ld g.slot g.args (8 * g.narg) with
        | .error e => .error (Rejected.ofErr 0x02 0 e)
        | .ok a =>
          let argv := (List.range g.narg).map fun j => BitVec.ofNat 64 (ofBytes ((a.1.drop (8 * j)).take 8))
          let g : Grid := { g with sup := i.sup, kern := k, code := i.code, words := i.words, safe := side, argv := argv }
          (readRegions a.2 g).bind fun r =>
          (readLadders r.2 g i k).map fun l => ({ g with regions := r.1, ladders := l.1 }, l.2)

end Sys2Proof.Machine
end

