-- ==== Sys2Proof/Machine/Queue.lean ====
section
/-! DEFINITION. Queue descriptors, doorbells and the commands of queues but partition swap (spec/21_scheduling.md R402 to R408,
R412; spec/02_translation_trees.md R64, R65). -/

namespace Sys2Proof.Machine

/-! Descriptors (R402, R404). -/

/-- A host's write of TAIL releases what its reads have brought (R146, R404). -/
def hostTail (s : State) (k : QueueRef) : State := queueGain s k (whoPast s (.host k.ld))

/-- QUEUE_DESCRIPTOR_WRITE: a word of a descriptor is written from outside the cores. -/
def execQueueDescriptorWrite (k : QueueRef) (word : Nat) (v : DWord) (s : State) : Host.Outcome State Fault Refusal :=
  agent s fun s => if k.ld < 16 ∧ k.q < 9 ∧ word < 8 then setQueueWord (if word = 2 then hostTail s k else s) k.ld k.q word v else s

/-- QUEUE_DOORBELL: TAIL is written, and the command processor reads the queue. -/
def execQueueDoorbell (k : QueueRef) (tail : Word) (s : State) : Host.Outcome State Fault Refusal :=
  agent s fun s =>
    if !(k.ld < 16 && k.q < 9) then s
    else
      let s := setTail (hostTail s k) k.ld k.q tail
      if queueBusy (queueOf s k.ld k.q) then match readCommand s k with
        | .error s => s
        | .ok _ => s
      else s

/-! LAUNCH (R406, R412, R476). -/

/-- A grid as its launch names it, before any check. -/
def newGrid (ld id q : Nat) (cmd : Ptr) (raw : Nat) (dims : Nat × Nat × Nat) (past : List Nat) : Grid where
  ld := ld
  id := id
  queue := q
  cmdPtr := cmd
  raw := raw
  gx := dims.1
  gy := dims.2.1
  gz := dims.2.2
  prio := if q = 8 then fld raw 596 3 else q
  sup := false
  kern := 0
  code := 0
  words := []
  safe := []
  regions := []
  argv := []
  ladders := []
  inDispatch := false
  readySeq := 0
  next := 0
  finished := 0
  fail := none
  bflags := 0
  relaunch := 0
  past := past
  ends := []

/-- The dimensions in force: those of the record, or the three words of an indirect launch. -/
def launchDims (s : State) (k : QueueRef) (slot c raw : Nat) : Except CpErr ((Nat × Nat × Nat) × State) :=
  if bit1 (cmdFlags c) 0 then
    (queueNat s k slot (cmdP2 c) 12).map fun r => ((fld r.1 0 32, fld r.1 32 32, fld r.1 64 32), r.2)
  else .ok ((fld raw 384 32, fld raw 416 32, fld raw 448 32), s)

/-- The grid of a launch that has read its record joins the machine, checked; a rejected one is to complete. -/
def startGrid (s : State) (g : Grid) : State :=
  match checkLaunch s g with
  | .ok r => { r.2 with grids := r.2.grids ++ [r.1] }
  | .error e =>
    let s := tick e.s
    { s with grids := s.grids ++ [{ g with fail := some (e.status, e.cause, e.detail, e.index, 0, e.ptr) }] }

/-- LAUNCH. -/
def execLaunch (k : QueueRef) (s : State) : Host.Outcome State Fault Refusal :=
  queueCommand k (fun c => cmdCode c == 1) s fun s x c p =>
    if bit1 (cmdFlags c) 1 && !x.live.isEmpty then queueWait s k c
    else match cpNat s k.ld x.slot.toNat (cmdP c) 128 with
      | .error e => stopQueue e.s k 0x0E p
      | .ok (raw, s) => match launchDims s k x.slot.toNat c raw with
        | .error e => stopQueue e.s k 0x0E p
        | .ok (dims, s) =>
          let id := (ldOf s k.ld).gridCtr
          let s := modLd s k.ld fun d => { d with gridCtr := id + 1 }
          let s := modQueue s k.ld k.q fun x => { x with live := x.live ++ [id] }
          queueNext (startGrid s (newGrid k.ld id k.q p raw dims (queueOf s k.ld k.q).past)) k

/-! Control of the stream. -/

/-- LOOP. -/
def execLoop (k : QueueRef) (s : State) : Host.Outcome State Fault Refusal :=
  queueCommand k (fun c => cmdCode c == 2) s fun s x c p =>
    let go (s : State) (n : Nat) : State :=
      if n = 0 then queueGo s k (x.head.toNat + fld (cmdVal c) 0 16 + 1 : Nat)
      else if 4 ≤ x.loops.length then stopQueue s k 0x0C p
      else queueNext (modQueue s k.ld k.q fun x => { x with loops := ((x.head + 1).toNat, n, 0) :: x.loops }) k
    if bit1 (cmdFlags c) 0 then
      match queueNat s k x.slot.toNat (cmdP c) 4 with
      | .error e => stopQueue e.s k 0x0E p
      | .ok r => go r.2 r.1
    else go s (cmdImm c)

/-- ENDLOOP. -/
def execEndloop (k : QueueRef) (s : State) : Host.Outcome State Fault Refusal :=
  queueCommand k (fun c => cmdCode c == 3) s fun s x _ p =>
    match x.loops with
    | [] => stopQueue s k 0x0C p
    | (first, n, i) :: r =>
      if i + 1 < n then queueGo (modQueue s k.ld k.q fun x => { x with loops := (first, n, i + 1) :: r }) k first
      else queueNext (modQueue s k.ld k.q fun x => { x with loops := r }) k

/-- COND. -/
def execCond (k : QueueRef) (s : State) : Host.Outcome State Fault Refusal :=
  queueCommand k (fun c => cmdCode c == 4) s fun s x c p =>
    match queueNat s k x.slot.toNat (cmdP c) 8 with
    | .error e => stopQueue e.s k 0x0E p
    | .ok (v, s) =>
      let w := cmdVal c
      let ok := match cmdFlags c with
        | 0 => v == w
        | 1 => v != w
        | 2 => v < w
        | _ => w ≤ v
      if ok then queueNext s k else queueGo s k (x.head.toNat + 1 + cmdImm c : Nat)

/-- JUMP. -/
def execJump (k : QueueRef) (s : State) : Host.Outcome State Fault Refusal :=
  queueCommand k (fun c => cmdCode c == 5) s fun s x c p =>
    if cmdImm c = 0 then stopQueue s k 0x0C p else queueGo s k (x.head.toNat + toIntN 32 true (cmdImm c))

/-- HALT. -/
def execHalt (k : QueueRef) (s : State) : Host.Outcome State Fault Refusal :=
  queueCommand k (fun c => cmdCode c == 9) s fun s _ _ _ => modQueue s k.ld k.q fun x => { x with en := false }

/-- INVALID_COMMAND. -/
def execInvalidCommand (k : QueueRef) (s : State) : Host.Outcome State Fault Refusal :=
  queueCommand k (fun c => cmdCode c == 0 || 0x0C ≤ cmdCode c) s fun s _ _ p => stopQueue s k 0x0C p

/-! Words of memory. -/

/-- The word of a WAIT is read: the queue goes on once it is high enough, else waits. -/
def waitWord (s : State) (k : QueueRef) (x : Queue) (c : Nat) (p : Ptr) : State :=
  match queueNat s k x.slot.toNat (cmdP c) 8 with
  | .error e => stopQueue e.s k 0x0E p
  | .ok (v, s) => if cmdVal c ≤ v then queueNext s k else queueWait s k c

/-- WAIT. -/
def execWait (k : QueueRef) (s : State) : Host.Outcome State Fault Refusal :=
  queueCommand k (fun c => cmdCode c == 6) s fun s x c p => if x.waiting.isSome then s else waitWord s k x c p

/-- WAIT_SATISFIED: the word of a WAIT that waits is read again. -/
def execWaitSatisfied (k : QueueRef) (s : State) : Host.Outcome State Fault Refusal :=
  queueCommand k (fun c => cmdCode c == 6) s fun s x c p => if x.waiting.isSome then waitWord s k x c p else s

/-- WRITE. -/
def execWrite (k : QueueRef) (s : State) : Host.Outcome State Fault Refusal :=
  queueCommand k (fun c => cmdCode c == 7) s fun s x c p =>
    match cpRelease s k.ld x.slot.toNat (cmdP c) (bytesOf (cmdVal c) 8) .sys x.past with
    | .error e => stopQueue e.s k 0x0E p
    | .ok s => queueNext s k

/-! DRAIN (R407). -/

/-- DRAIN. -/
def execDrain (k : QueueRef) (s : State) : Host.Outcome State Fault Refusal :=
  queueCommand k (fun c => cmdCode c == 8) s fun s x c _ => if x.live.isEmpty then queueNext s k else queueWait s k c

/-- DRAIN_DONE: every earlier launch of a queue that drains has completed. -/
def execDrainDone (k : QueueRef) (s : State) : Host.Outcome State Fault Refusal :=
  queueCommand k (fun c => cmdCode c == 8) s fun s x _ _ => if x.waiting.isSome && x.live.isEmpty then queueNext s k else s

/-! MIGRATE (R406, R64, R65). -/

/-- MIGRATE: the arbiter holds the request (DEDUCED, log 22). -/
def execMigrate (k : QueueRef) (s : State) : Host.Outcome State Fault Refusal :=
  queueCommand k (fun c => cmdCode c == 11) s fun s x c p =>
    let host := bit1 (cmdFlags c) 0
    let frame := (cmdP2 c).toNat
    if host && (frame % 2 ^ 16 != 0 || areaOf frame != .host k.ld) then stopQueue s k 0x0C p
    else
      let va := fld (cmdVal c) 0 56
      let slot := fld (cmdImm c) 0 6
      let was := match slotLeaf s k.ld slot va with
        | some e => leafThere host frame e
        | none => false
      let m : Migration := ⟨s.nextId, k.ld, slot, va, host, frame, was, none, s.cycle, .asked, cmdP c, k.q, x.slot.toNat, p⟩
      queueNext { s with migrations := s.migrations ++ [m], nextId := s.nextId + 1 } k

/-- The result of a migration request, where it has one (R406, R65): 4 where a competing request has won, 3 where the page may not
move, 2 or 1 where it lies where the request wanted it. -/
def migrationResult (s : State) (m : Migration) : Option Nat :=
  if m.st = .lost then some 4
  else match slotLeaf s m.ld m.slot m.va with
  | none => some 3
  | some e =>
    if bit1 e 6 ∨ bit1 e 5 then some 3
    else if m.st = .won then some 1
    else if leafThere m.toHost m.frame e then some 2 else none

/-- MIGRATE_RESULT. -/
def execMigrateResult (req : Nat) (s : State) : Host.Outcome State Fault Refusal :=
  agent s fun s => match s.migrations.find? fun m => m.id == req with
  | none => s
  | some m => match migrationResult s m with
    | none => s
    | some v =>
      let s := { s with migrations := s.migrations.filter fun n => n.id != req }
      match cpRelease s m.ld m.qslot m.result (bytesOf v 8) .sys (queueOf s m.ld m.queue).past with
      | .ok s => s
      | .error e => stopQueue e.s ⟨m.ld, m.queue⟩ 0x0E m.cmd

end Sys2Proof.Machine
end

