-- ==== Sys2Proof/Machine/Place.lean ====
section
/-! DEFINITION. Dispatch (spec/21_scheduling.md R412, R415, R416, R475): dependences, candidates, cores that fit, allocation and the
start of a team (spec/06_execution_model.md R172; spec/03_on_chip_memories.md R71, R78, R92), staging
(spec/01_address_spaces.md R34, R37; spec/22_traps_faults.md R433). -/

namespace Sys2Proof.Machine

/-! Dependences (R412). -/

/-- STATUS of the record that dependence k of a grid names, and what its reads, acquires at .sys, bring. -/
def depStatus (s : State) (g : Grid) (k : Nat) : Except CpErr ((Nat × List Nat) × State) :=
  let at' := ptrAdd g.deps (8 * k : Nat)
  let ids := cpGained s g.ld g.slot at' 8
  (cpNat s g.ld g.slot at' 8).bind fun r =>
    let p : Ptr := BitVec.ofNat 64 r.1
    let ids := union ids (cpGained r.2 g.ld g.slot p 1)
    (cpNat r.2 g.ld g.slot p 1).map fun r => ((r.1, ids), r.2)

/-- What the dependences of a grid, read in order, say. -/
inductive Deps where
  | pending
  | met
  | failed (k cause detail : Nat) (ptr : Ptr)
  deriving Repr

/-- The first dependence that did not complete is kept. -/
def Deps.orFail (d : Deps) (k cause detail : Nat) (ptr : Ptr) : Deps := match d with
  | .met => .failed k cause detail ptr
  | _ => d

/-- One more dependence is read. -/
def readDep (g : Grid) (acc : Deps × State) (k : Nat) : Deps × State := match acc.1 with
  | .pending => acc
  | d => match depStatus acc.2 g k with
    | .error e => (d.orFail k e.cause e.detail e.ptr, e.s)
    | .ok ((st, ids), s) =>
      let s := if ids.isEmpty then s else modGrid s g.ld g.id fun g => { g with past := union g.past ids }
      if st = 0 then (.pending, s) else if st = 1 then (d, s) else (d.orFail k 0 0 0, s)

/-- Read all dependences: a pending one makes the grid wait; else the first that did not complete fails it. -/
def readDeps (s : State) (g : Grid) : Deps × State := (List.range g.ndep).foldl (readDep g) (.met, s)

/-- GRID_DEPENDENCES_MET. -/
def execGridDependencesMet (ld grid : Nat) (s : State) : Host.Outcome State Fault Refusal :=
  agent s fun s => match gridOf s ld grid with
  | none => s
  | some g =>
    if g.inDispatch || g.fail.isSome then s
    else match readDeps s g with
      | (.pending, s) => s
      | (.met, s) => modGrid { s with readySeq := s.readySeq + 1 } ld grid fun g => { g with inDispatch := true, readySeq := s.readySeq }
      | (.failed k c d p, s) => failGrid s ld grid (0x06, c, d, k, 0, p)

/-! What a team needs and what a core has (R71, R78, R416). -/

/-- Vector registers of each group of a team by GROUPID: launch groups, then rung slots (R71, R365). -/
def groupRegs (g : Grid) : List Nat :=
  let res := reserveOf g.depth
  (g.pbud + res) :: (List.replicate g.cgrp (g.cbud + res)) ++ g.ladders.flatMap fun x =>
    (List.range (ladRungs x)).flatMap fun r => List.replicate (rungSlots (rungRaw x r)) (rungBud (rungRaw x r) + res)

/-- Stack-cache units of a team. -/
def stackUnits (g : Grid) : Nat := g.psk + g.cgrp * g.csk

/-- The teams on a core, but those of gangs that p takes away; one that has been stopped keeps its allocations until what it issued has
ended (R432, R435). -/
def residents (s : State) (core : Nat) (p : GangRef → Bool) : List Team :=
  (s.teams.filter fun t => t.core == core && gangHere s t && !p (gangKey s t.r)) ++ s.dying.filter fun t => t.core == core

/-- Groups of a team that reside: launch groups that have not ended, and every rung slot. -/
def teamGroups (g : Grid) (t : Team) : Nat :=
  (t.groups.filter fun x => x.isLaunch && !x.ended).length + ((groupRegs g).length - (g.cgrp + 1))

/-- Bases at which a run of units is free, next to the runs in use. -/
def freeBases (used : List (Nat × Nat)) (cap len step : Nat) : List Nat :=
  if len = 0 then [0]
  else if cap < len then []
  else ((List.range ((cap - len) / step + 1)).map fun i => i * step).filter fun b => used.all fun u => u.2 == 0 || !(overlap b len u.1 u.2)

/-- The free places of a team's W, A, C and barrier ids on a core. -/
def freePlaces (s : State) (gr : Grid) (ts : List Team) : List (List Nat) :=
  [freeBases (ts.map fun t => (t.wbase, t.wlen)) 786432 (4096 * gr.wu) 4096,
    freeBases (ts.map fun t => (t.abase, t.alen)) 786432 (4096 * gr.au) 4096,
    freeBases (ts.map fun t => (t.cbase, t.clen)) 262144 (4096 * gr.cu) 4096,
    freeBases (ts.map fun t => (t.barBase, ((gridOf s t.r.ld t.r.grid).map Grid.nbar).getD 0)) 2048 gr.nbar 1]

/-- Does a team of a grid fit on a core, with some gangs away (R416). -/
def fitsCore (s : State) (gr : Grid) (core : Nat) (p : GangRef → Bool) : Bool :=
  let ts := residents s core p
  let sum (f : Grid → Team → Nat) : Nat := (ts.map fun t => ((gridOf s t.r.ld t.r.grid).map fun g => f g t).getD 0).sum
  sum (fun _ t => (t.vregs.map Prod.snd).sum) + (groupRegs gr).sum ≤ 4096 && sum (fun g _ => stackUnits g) + stackUnits gr ≤ 64 &&
    sum teamGroups + (groupRegs gr).length ≤ 64 && (freePlaces s gr ts).all fun l => !l.isEmpty

/-- Clusters that a partition swap has named: nothing more is placed there while it goes on (R422). -/
def swapping (s : State) (cluster : Nat) : Bool := match (queueOf s 0 8).waiting with
  | some c => cmdCode c == 10 && bit1 (cmdVal c) cluster
  | none => false

/-- The cores that a gang goes on, in member order: the first core, or the first cluster with enough of them, in the walk
that starts after the core placed on last (R416, R168). `only` is the one cluster allowed, if any. -/
def fitsWhere (s : State) (gr : Grid) (only : Option Nat) (p : GangRef → Bool) : Option (List Nat) :=
  let mask := (qbWord s gr.ld 0x258).toNat
  let walk := ((List.range 352).map fun i => (s.lastCore + 1 + i) % 352).filter fun c =>
    bit1 mask (c / 8) && !swapping s (c / 8) && only.all fun k => k == c / 8
  if gr.gangN = 1 then (walk.find? fun c => fitsCore s gr c p).map fun c => [c]
  else (union [] (walk.map fun c => c / 8)).findSome? fun k =>
    let fits := ((List.range 8).map fun i => 8 * k + i).filter fun c => fitsCore s gr c p
    if gr.gangN ≤ fits.length then some (fits.take gr.gangN) else none

/-! Candidates (R415, R416, R420, R423, R436). -/

/-- Whom a logical device's turn would place: a gang of a grid, new or coming back. -/
structure Cand where
  gr : Grid
  k : GangRef
  back : Option Gang
  deriving Repr

/-- Are engine operations or far accesses of a gang still under way. -/
def gangBusy (s : State) (k : GangRef) : Bool :=
  let of (t : TeamRef) : Bool := t.ld == k.ld && t.grid == k.grid && t.team / gangSize s t == k.gang
  s.far.any (fun f => of f.r.team) || s.reqs.any (fun q => of q.r.team && q.underway) || s.memOps.any (fun m => of m.t) ||
    s.dying.any fun t => of t.r

/-- Does a gang wait to come back. -/
def comesBack (s : State) (g : Gang) : Bool := match g.place with
  | .preempted => true
  | .relaunch => !gangBusy s g.r
  | .call _ => g.wanted
  | .resident | .partition _ => false

/-- Does a candidate go ahead of another: priority, gangs that come back, the grid ready first, the gang's index. -/
def Cand.ahead (a b : Cand) : Bool :=
  let key (c : Cand) : List Nat := [7 - c.gr.prio, if c.back.isSome then 0 else 1, c.gr.readySeq, c.k.gang]
  key a < key b

/-- The candidate of a logical device. -/
def candidate (s : State) (ld : Nat) : Option Cand :=
  let backs := (s.gangs.filter fun g => g.r.ld == ld && comesBack s g).filterMap fun g =>
    (gridOf s ld g.r.grid).map fun gr => (⟨gr, g.r, some g⟩ : Cand)
  let fresh := (s.grids.filter fun g => g.ld == ld && g.inDispatch && g.fail.isNone && g.next < g.teamCount).map fun g =>
    (⟨g, ⟨ld, g.id, g.next / g.gangN⟩, none⟩ : Cand)
  (backs ++ fresh).foldl (fun o c => match o with
    | none => some c
    | some d => if c.ahead d then some c else some d) none

/-- The one cluster a gang may come back to: that of the shadow store that holds it (R389, R423). -/
def Cand.only (c : Cand) : Option Nat := match c.back with
  | some g => match g.place with
    | .call o => o
    | _ => none
  | none => none

/-- Does placing a candidate take new pins, and so need its slot full (R49). -/
def Cand.pins (c : Cand) : Bool := match c.back with
  | some g => g.place == .relaunch
  | none => true

/-- The logical devices in the order of their turns (R416). -/
def turnOrder (s : State) : List Nat := (List.range 16).map fun i => (s.lastLd + 1 + i) % 16

/-- What the next turn does: the candidate placed, with the cores, or none where its slot is empty. -/
def nextTurn (s : State) : Option (Cand × Option (List Nat)) :=
  (turnOrder s).findSome? fun ld => (candidate s ld).bind fun c =>
    if c.pins && !((ldOf s ld).slots.getD c.gr.slot emptyRoot).full then some (c, none)
    else (fitsWhere s c.gr c.only fun _ => false).map fun l => (c, some l)

/-- Candidates that fit nowhere keep, or get, the cycle since which they do (R417). -/
def noteUnfit (s : State) : State :=
  { s with unfit := (List.range 16).filterMap fun ld => (candidate s ld).bind fun c =>
      if (fitsWhere s c.gr c.only fun _ => false).isSome then none
      else some ((s.unfit.find? fun u => u.1 == ld && u.2.1 == c.k.grid && u.2.2.1 == c.k.gang).getD (ld, c.k.grid, c.k.gang, s.cycle)) }

/-! Allocation (R71, R78, R92). -/

/-- One of some free places, which one is left open (DESIGN CHOICE, log 16). -/
def pick (s : State) (l : List Nat) : Nat × State :=
  (l.getD (Config.freeNat s.frees % l.length) 0, tick s)

/-- Places for vector registers of some sizes next to runs in use; any place where no gap is large enough. -/
def pickRegs (s : State) (used : List (Nat × Nat)) : List Nat → List (Nat × Nat) × State
  | [] => ([], s)
  | n :: r =>
    let l := freeBases used 4096 n 8
    let b := if l.isEmpty then (8 * (Config.freeNat s.frees % 512), tick s) else pick s l
    let x := pickRegs b.2 (used ++ [(b.1, n)]) r
    ((b.1, n) :: x.1, x.2)

/-- Where a team goes on a core: bases of W, A, C, barriers, and the registers of its groups. -/
structure Alloc where
  w : Nat
  a : Nat
  c : Nat
  bar : Nat
  regs : List (Nat × Nat)
  deriving Repr

/-- Allocate on a core that fits. -/
def allocate (s : State) (gr : Grid) (core : Nat) : Alloc × State :=
  let ts := residents s core fun _ => false
  let l := freePlaces s gr ts
  let w := pick s (l.getD 0 [])
  let a := pick w.2 (l.getD 1 [])
  let c := pick a.2 (l.getD 2 [])
  let b := pick c.2 (l.getD 3 [])
  let r := pickRegs b.2 (ts.flatMap fun t => t.vregs.filter fun v => v.2 != 0) (groupRegs gr)
  (⟨w.1, a.1, c.1, b.1, r.1⟩, r.2)

/-- A run of bytes of a buffer store reads as zero (R78, R92). -/
def zeroBuf (s : State) (b : Buf) (core base len : Nat) : State := zeroWords s (bufStore b) core (base / 8) ((base + len) / 8)

/-- A new allocation reads as zero (R78, R92): its registers and its buffers. -/
def zeroAlloc (s : State) (gr : Grid) (core : Nat) (x : Alloc) : State :=
  let s := x.regs.foldl (fun s v => zeroWords s 0 core (16 * v.1) (16 * (v.1 + v.2))) s
  zeroBuf (zeroBuf (zeroBuf s .w core x.w (4096 * gr.wu)) .a core x.a (4096 * gr.au)) .c core x.c (4096 * gr.cu)

/-- The entry pointer of a kernel (R473). -/
def Grid.entry (g : Grid) : Ptr := ptrAdd g.code (kernEntry g.kern : Nat)

/-- A launch group at its start (R92, R172). -/
def launchGroup (gr : Grid) (r : TeamRef) (id vbase : Nat) (pin : Option Pin) : Group :=
  let g := newGroup r id none (if id = 0 then gr.pbud else gr.cbud) vbase gr.depth gr.entry (BitVec.allOnes 32) (2048 * gr.slice)
    (if id = 0 then gr.psk else gr.csk) pin
  gr.argv.zipIdx.foldl (fun g a => setG g (a.2 + 1) a.1) g

/-- What happens before a gang's launch: what the launch follows (R34, R138), and for a relaunch all that was done before the kill
(R149). -/
def launchPast (s : State) (gr : Grid) (k : GangRef) : List Nat :=
  union gr.past (match gangOf s k with
    | some g => union g.past (writesOf s fun t => g.relaunches != 0 && gangKey s t == k)
    | none => [])

/-- Place one team on a core (R172): allocation, pins, capture; its groups do not run yet. They follow some accesses, and the publication of
the root that they pin (R51). -/
def placeTeam (s : State) (gr : Grid) (r : TeamRef) (member core : Nat) (past : List Nat) : State :=
  let x := allocate s gr core
  let s := zeroAlloc x.2 gr core x.1
  let p := takePin s gr.ld gr.slot
  let b := readBounds p.2 gr.ld gr.slot
  let past := union past (pinPast p.2 gr.ld p.1)
  let gs := (List.range (gr.cgrp + 1)).foldl (fun (acc : List Group × State) id =>
    let q := takePin acc.2 gr.ld gr.slot
    (acc.1 ++ [joinPast past (launchGroup gr r id (x.1.regs.getD id (0, 0)).1 q.1)], q.2)) ([], boundsRead p.2 gr.ld gr.slot)
  let t := newTeam r member core (x.1.w, 4096 * gr.wu, x.1.a, 4096 * gr.au, x.1.c, 4096 * gr.cu, x.1.bar) b.1 b.2 p.1
    gr.ladders.length gs.1
  dropHeld { gs.2 with teams := gs.2.teams ++ [{ t with vregs := x.1.regs }] } core fun q => q == r

/-! A team's own accesses to memory (R18, R49): staging and write-back. -/

/-- The check of one access through the team's pin and captured bounds. -/
def teamPlace (s : State) (t : Team) (p : Ptr) (n : Nat) (k : Acc) : Except CpErr Nat :=
  match farCheck s t.r.ld (pinRoot t.pin) t.bounds (engUser s t.r) p n k with
  | .error e => .error ⟨e.1, e.2, p, s⟩
  | .ok x => if linkDown s x.1 || (isHost x.1 && Config.freeBool s.frees) then .error ⟨cFARTIMEOUT, 0, p, tick s⟩ else .ok x.1

/-- Bytes read, with how the read ended and the sector concerned. -/
def teamRead (s : State) (t : Team) (p : Ptr) (n : Nat) : Except CpErr (List Byte × RdSt × Nat × State) :=
  (cutMem (n / 32 + 2) (ptrVa p) 0 n).foldl (fun acc c => acc.bind fun x =>
    (teamPlace x.2.2.2 t (ptrAdd p c.1) c.2 .read).map fun pa =>
      let r := busRead (walkRead (tick x.2.2.2) t.r.ld (pinRoot t.pin) (ptrVa p + c.1)) (.sup t.r.ld) pa c.2
      (x.1 ++ r.1, if x.2.1 = .ok then r.2.1 else x.2.1, if x.2.1 = .ok then pa / 32 * 32 else x.2.2.1, r.2.2))
    (.ok ([], .ok, 0, s))

/-- Runs of bytes written, all checked before any is made. -/
def teamWrite (s : State) (t : Team) (runs : List (Ptr × List Byte)) : Except CpErr State :=
  let cut := runs.flatMap fun r => (cutMem (r.2.length / 32 + 2) (ptrVa r.1) 0 r.2.length).map fun c =>
    (ptrAdd r.1 c.1, (r.2.drop c.1).take c.2)
  (cut.foldl (fun (acc : Except CpErr (List (Ptr × Nat × List Byte))) c => acc.bind fun l =>
      (teamPlace s t c.1 c.2.length .write).map fun pa => l ++ [(c.1, pa, c.2)]) (.ok [])).map fun l =>
    l.foldl (fun s x => busWrite (walkRead s t.r.ld (pinRoot t.pin) (ptrVa x.1)) (.sup t.r.ld) x.2.1 x.2.2) (tick s)

/-! Staging (R32, R34, R37). -/

/-- The rows of an entry for a team: place in the area, and pointer; none where a row has no bytes. -/
def regRows (x team : Nat) : List (Nat × Ptr) :=
  if regE x 0 = 0 then []
  else (List.range (regE x 3)).flatMap fun i3 => (List.range (regE x 2)).flatMap fun i2 => (List.range (regE x 1)).map fun i1 =>
    ((i1 + regE x 1 * (i2 + regE x 2 * i3)) * regPitch x,
      ptrAdd (regBase x) (team * regTstride x + i1 * regS x 1 + i2 * regS x 2 + i3 * regS x 3 : Nat))

/-- The buffer of an entry. -/
def regBuffer (x : Nat) : Buf := if regBuf x = 0 then .w else .a

/-- How the staging of entries ends. -/
inductive Staged where
  | ok (s : State)
  | fault (s : State) (entry : Nat) (e : CpErr)
  | poison (s : State) (cause pa : Nat)
  deriving Repr

/-- The rows of an entry are read. -/
def stageRows (s : State) (t : Team) (x n : Nat) : List (Nat × Ptr) → Except CpErr (List (Nat × List Byte) × RdSt × Nat × State)
  | [] => .ok ([], .ok, 0, s)
  | r :: rest => (teamRead s t r.2 n).bind fun y => match y.2.1 with
    | .ok => (stageRows y.2.2.2 t x n rest).map fun z => ((r.1, y.1) :: z.1, z.2)
    | st => .ok ([], st, y.2.2.1, y.2.2.2)

/-- One entry is staged: whole, or not at all. -/
def stageEntry (s : State) (t : Team) (i x : Nat) : Staged :=
  if regDir x = 2 then .ok s
  else match stageRows s t x (regE x 0 * regZ x) (regRows x t.r.team) with
    | .error e => .fault e.s i e
    | .ok (rows, st, pa, s) => match st with
      | .poison => .poison (kvConsume s pa) cPOISON pa
      | .uncorr => .poison (kvConsume s pa) cUECONS pa
      | .ok =>
        let s := rows.foldl (fun s r => bufPut s t.r (regBuffer x) (regOff x + r.1) r.2.length (ofBytes r.2)) s
        .ok (modTeam s t.r fun t => markFe t (regBuffer x) (regOff x) (regArea x) true)

/-- Entries are staged in list order, up to the first that fails. -/
def stageAll (s : State) (t : Team) : List (Nat × Nat) → Staged
  | [] => .ok s
  | (x, i) :: r => match stageEntry s t i x with
    | .ok s => stageAll s t r
    | e => e

/-- A team is staged: a fault traps group 0 at its first instruction and holds the other groups; poison kills the gang. -/
def stageTeam (s : State) (gr : Grid) (r : TeamRef) : State := match teamOf s r with
  | none => s
  | some t => match stageAll s t gr.regions.zipIdx with
    | .ok s => s
    | .poison s c pa => killTeam s r c pa
    | .fault s i e =>
      let s := modTeam s r fun t => { t with groups := t.groups.map fun g => { g with held := g.id != 0 } }
      raiseTrap s ⟨r, 0⟩ ⟨e.cause, e.detail, BitVec.allOnes 32, 0, gr.entry, 128, e.ptr, BitVec.ofNat 32 i, false, false, true⟩

/-! Placement (R416, R168, R361). -/

/-- Empty bins of a gang's ladder instances (R361). -/
def emptyBins (gr : Grid) : List (List Bin) := gr.ladders.map fun x => List.replicate (ladRungs x) ⟨[], none⟩

/-- The members of a gang go on their cores and are staged, all entries of all of them in this one step (DESIGN CHOICE, log 70). -/
def placeGang (s : State) (gr : Grid) (k : GangRef) (cores : List Nat) : State :=
  let ref (m : Nat) : TeamRef := ⟨k.ld, k.grid, k.gang * gr.gangN + m⟩
  let past := launchPast s gr k
  let s := cores.zipIdx.foldl (fun s c => placeTeam s gr (ref c.2) c.2 c.1 past) s
  (List.range gr.gangN).foldl (fun s m => stageTeam s gr (ref m)) { s with lastCore := cores.getLastD s.lastCore, lastLd := k.ld }

/-- DISPATCH_PLACE: the turn's candidate, where it is new; one whose slot is empty fails its grid. -/
def execDispatchPlace (s : State) : Host.Outcome State Fault Refusal :=
  agent s fun s =>
    let s := noteUnfit s
    match nextTurn s with
    | none => s
    | some (c, none) => failGrid { s with lastLd := c.k.ld } c.k.ld c.k.grid (0x07, cNOTMAPPED, 0, 0, 0, 0)
    | some (c, some cores) =>
      if c.back.isSome then s
      else
        let s := modGrid s c.k.ld c.k.grid fun g => { g with next := g.next + g.gangN }
        let s := { s with gangs := s.gangs ++ [⟨c.k, c.gr.gangN, .resident, 0, emptyBins c.gr, none, false, 0, none, false, []⟩] }
        placeGang s c.gr c.k cores

/-- GANG_RELAUNCH (R436): a killed gang is placed and staged again. -/
def execGangRelaunch (k : GangRef) (s : State) : Host.Outcome State Fault Refusal :=
  agent s fun s => match nextTurn s with
  | some (c, some cores) => match c.back with
    | some g =>
      if g.r = k ∧ g.place = .relaunch then
        let s := modGang s k fun x =>
          { x with place := .resident, bins := emptyBins c.gr, preempt := none, wanted := false, retry := 0, fault := none }
        placeGang s c.gr k cores
      else s
    | none => s
  | _ => s

/-- TEAM_START (R172): staging has completed; the groups start together. -/
def execTeamStart (t : TeamRef) (s : State) : Host.Outcome State Fault Refusal :=
  agent s fun s => match teamOf s t with
  | none => s
  | some u =>
    if u.stage = .placed ∧ gangHere s u then
      modTeam s t fun u => { u with stage := .running, groups := u.groups.map fun g => { g with delay := s.cycle, stamp := s.cycle } }
    else s

end Sys2Proof.Machine
end

