-- ==== Sys2Proof/Machine/Life.lean ====
section
/-! DEFINITION. The end of teams and grids (spec/06_execution_model.md R172; spec/18_ladders.md R372, R376;
spec/01_address_spaces.md R35 to R37; spec/14_program_ragged_product.md R321; spec/21_scheduling.md R409, R410;
spec/22_traps_faults.md R427, R432). -/

namespace Sys2Proof.Machine

/-! TEAM_EXIT (R172, R376). -/

/-- Have a team's commit windows committed every item it submitted. -/
def allCommitted (t : Team) : Bool := t.lads.all fun w => w.closed && w.held.isEmpty && w.done.isEmpty

/-- Does an engine operation that the team issued still write into buffers, an arrival object among them: a copy request, a memory-side
command, or a running program. -/
def teamWrites (s : State) (t : Team) : Bool :=
  (s.reqs.any fun q => q.r.team == t.r && q.underway && !(reqFree q && q.noarr)) || (s.memOps.any fun m => m.t == t.r) ||
    t.wins.any fun w => w.st == .running

/-- Do the last spills of a team's stacks remain to be made (R87). -/
def teamSpills (t : Team) : Bool := t.groups.any owesSpill

/-- TEAM_EXIT. -/
def execTeamExit (t : TeamRef) (s : State) : Host.Outcome State Fault Refusal :=
  agent s fun s => match teamOf s t with
  | none => s
  | some u =>
    if u.stage = .running ∧ gangHere s u ∧ u.groups.all (fun g => g.ended && g.isLaunch) ∧ allCommitted u ∧
        !(!u.lads.isEmpty && anyItem s (gangKey s t) fun _ => true) ∧ !teamWrites s u ∧ !teamSpills u then
      settleGbar (modTeam s t fun u => { u with stage := .exited }) (gangKey s t)
    else s

/-! WRITEBACK (R35 to R37, R321). -/

/-- A kept fault: cause, detail, index, address. -/
abbrev WbFault := Nat × Nat × Nat × DWord

/-- What a granule's element bytes become: the runs to write, the team with its flags, the first violation that leaves an
element unwritten (R37, R75). -/
def wbRuns (t : Team) (x i : Nat) (p : Ptr) (bs : List Byte) : List (Ptr × List Byte) × Team × Option WbFault :=
  let tag := regTag x
  if tag = 0 then ([(p, bs)], t, none)
  else
    let z := regZ x
    let b := getB t tag
    let tf : Tf := if z = 2 then .bf16 else .f32
    (List.range (bs.length / z)).foldl (fun (acc : List (Ptr × List Byte) × Team × Option WbFault) j =>
      let q := ptrAdd p (z * j : Nat)
      let v := tagBytes b tf z (ofBytes ((bs.drop (z * j)).take z))
      let t := if v.1 then flagBound tag acc.2.1 else acc.2.1
      if v.1 && tagTraps b then (acc.1, t, some (acc.2.2.getD (cBOUND, tag, i, q)))
      else (acc.1 ++ [(q, bytesOf v.2 z)], t, acc.2.2)) ([], t, none)

/-- The runs of a row by granule: place in the buffer and length. -/
def wbGranules (a n : Nat) : List (Nat × Nat) := (List.range ((n + 15) / 16)).map fun j => (a + 16 * j, min 16 (n - 16 * j))

/-- The first fault is kept. -/
def keepFault (f : WbFault) (t : Team) : Team := { t with wbFault := some (t.wbFault.getD f) }

/-- The bytes of one granule go to memory: false once the entry has stopped. -/
def wbPut (s : State) (t : Team) (x i : Nat) (p : Ptr) (bs : List Byte) : State × Bool :=
  let y := wbRuns t x i p bs
  let s := modTeam s t.r fun t => { t with bflags := y.2.1.bflags }
  let s := match y.2.2 with
    | some f => modTeam s t.r (keepFault f)
    | none => s
  match teamWrite s t y.1 with
  | .ok s => (s, true)
  | .error e => (modTeam e.s t.r (keepFault (e.cause, e.detail, i, e.ptr)), false)

/-- One granule is written back, where its full bit is set; a word of it that is uncorrectable kills the gang (R91, R434). -/
def wbGranule (r : TeamRef) (x i : Nat) (acc : State × Bool) (row : Nat × Ptr) (g : Nat × Nat) : State × Bool :=
  let b := regBuffer x
  match acc.2, teamOf acc.1 r with
  | true, some t =>
    if stGet (feOf t b) (g.1 / 16) ≠ 1 then acc
    else match bufTouch acc.1 r b g.1 g.2 with
      | none => (killTeam acc.1 r cUECONS 0, false)
      | some s => match teamOf s r with
        | none => acc
        | some t => wbPut s t x i (ptrAdd row.2 (g.1 - (regOff x + row.1) : Nat)) (bytesOf (stBytes (bufOf t b) g.1 g.2) g.2)
  | _, _ => acc

/-- One entry is written back. -/
def wbEntry (r : TeamRef) (s : State) (x i : Nat) : State :=
  if regDir x = 1 then s
  else ((regRows x r.team).foldl (fun acc row =>
    (wbGranules (regOff x + row.1) (regE x 0 * regZ x)).foldl (fun acc g => wbGranule r x i acc row g) acc) (s, true)).1

/-- The gang's fault, with the team it befell. -/
def gangFault (t : Team) (g : Gang) : Gang := match t.wbFault with
  | none => g
  | some f => { g with fault := some (g.fault.getD (f.1, f.2.1, f.2.2.1, t.r.team, f.2.2.2)) }

/-- A team whose write-back is done is released (R172): its flags go to its grid. -/
def releaseTeam (s : State) (t : Team) : State :=
  modGrid (freeTeam s t) t.r.ld t.r.grid fun g => { g with finished := g.finished + 1, bflags := g.bflags ||| t.bflags }

/-- The end of a gang's last write-back: a kept fault fails the grid (R37, R372). -/
def gangEnd (s : State) (k : GangRef) : State := match gangOf s k with
  | none => s
  | some g =>
    let s := { s with gangs := s.gangs.filter fun x => x.r != k }
    match g.fault with
    | none => s
    | some (c, d, i, t, a) => failGrid s k.ld k.grid (0x08, c, d, i, t, a)

/-- WRITEBACK (DEDUCED, log 51). -/
def execWriteback (t : TeamRef) (s : State) : Host.Outcome State Fault Refusal :=
  agent s fun s => match teamOf s t, gridOf s t.ld t.grid with
  | some u, some gr =>
    let k := gangKey s t
    let ts := gangTeams s k
    if !(gangHere s u && ts.all fun v => v.stage == .exited && forkReady s v.exits) then s
    else
      let s := gr.regions.zipIdx.foldl (fun s x => wbEntry t s x.1 x.2) s
      match teamOf s t with
      | none => s
      | some u =>
        let s := releaseTeam (modGang s k (gangFault u)) u
        if (gangTeams s k).isEmpty then gangEnd s k else s
  | _, _ => s

/-! GRID_COMPLETE (R409, R410). -/

/-- Is something of a grid still under way. -/
def gridBusy (s : State) (g : Grid) : Bool :=
  let of (t : TeamRef) : Bool := t.ld == g.ld && t.grid == g.id
  s.far.any (fun f => of f.r.team) || s.reqs.any (fun q => of q.r.team && q.underway) || s.memOps.any (fun m => of m.t) ||
    s.gangs.any (fun k => k.r.ld == g.ld && k.r.grid == g.id) || (s.teams ++ s.dying).any fun t => of t.r

/-- Has a grid ended: it has failed, or every team has been written back. -/
def gridEnded (g : Grid) : Bool := g.fail.isSome || (g.inDispatch && g.next == g.teamCount && g.finished == g.teamCount)

/-- The completion record (R409). -/
def doneRecord (g : Grid) : Nat :=
  let x := g.fail.getD (0x01, 0, 0, 0, 0, 0)
  x.2.2.2.2.2.toNat * 2 ^ 192 + x.2.2.2.2.1 % 2 ^ 32 * 2 ^ 128 + g.id % 2 ^ 64 * 2 ^ 64 + g.bflags.toNat * 2 ^ 48 + x.2.2.2.1 % 2 ^ 16 * 2 ^ 32 +
    g.relaunch % 256 * 2 ^ 24 + x.2.2.1 % 256 * 2 ^ 16 + x.2.1 % 256 * 2 ^ 8 + x.1 % 256

/-- The record is written as a release at .sys of all that the grid did (R36, R409), where DONE can be written. -/
def writeRecord (s : State) (g : Grid) : Except State State :=
  if g.done.toNat % 32 ≠ 0 then .error s
  else
    let past := union (union g.past g.ends) (writesOf s fun t => t.ld == g.ld && t.grid == g.id)
    match cpRelease s g.ld g.slot g.done (bytesOf (doneRecord g) 32) .sys past with
    | .ok s => .ok s
    | .error e => .error e.s

/-- GRID_COMPLETE: a record that cannot be written is logged and stops the queue; the grid counts as completed. -/
def execGridComplete (ld grid : Nat) (s : State) : Host.Outcome State Fault Refusal :=
  agent s fun s => match gridOf s ld grid with
  | none => s
  | some g =>
    if !gridEnded g || gridBusy s g then s
    else
      let gone (s : State) : State :=
        { modQueue s ld g.queue (fun x => { x with live := x.live.filter fun i => i != grid }) with
          grids := s.grids.filter fun x => !(x.ld == ld && x.id == grid) }
      let status := (g.fail.getD (0x01, 0, 0, 0, 0, 0)).1
      match writeRecord s g with
      | .ok s => gone s
      | .error s => gone (stopQueue (logEvent s 0x0D 0 status ld grid 0) ⟨ld, g.queue⟩ 0x0F g.cmdPtr)

/-- ENDGRID (R427, R432): a running grid is ended from outside. -/
def execEndgrid (ld : Nat) (grid : DWord) (s : State) : Host.Outcome State Fault Refusal :=
  agent s fun s => if ld < 16 then endGrid s ld grid else s

end Sys2Proof.Machine
end

