-- ==== Sys2Proof/Machine/Matrix.lean ====
section
/-! DEFINITION. Matrix engine instructions and the end of full/empty waits (spec/13_matrix_instructions.md R300 to R318;
spec/08_number_formats.md R213 to R218; spec/11_memory_instructions.md R278, R283). -/

namespace Sys2Proof.Machine

/-! Shapes (R303, R304). -/

/-- Depth K of a KIND. -/
def mDepth : MKind → Nat
  | .f16 | .bf16 => 16
  | .e4m3 | .e4m3e5m2 | .e5m2e4m3 | .e5m2 => 32
  | .e2m1 | .e4m3cb2 | .e5m2cb2 => 64

/-- Depths for each bit of the depth mask. -/
def mGran (k : MKind) : Nat := mDepth k / 16

/-- Format of A. -/
def mFmtA : MKind → Fmt
  | .f16 => fF16
  | .bf16 => fBf16
  | .e4m3 | .e4m3e5m2 | .e4m3cb2 => fE4m3
  | .e5m2e4m3 | .e5m2 | .e5m2cb2 => fE5m2
  | .e2m1 => fE2m1

/-- Format of B; none for CB2. -/
def mFmtB : MKind → Option Fmt
  | .f16 => some fF16
  | .bf16 => some fBf16
  | .e4m3 | .e5m2e4m3 => some fE4m3
  | .e4m3e5m2 | .e5m2 => some fE5m2
  | .e2m1 => some fE2m1
  | .e4m3cb2 | .e5m2cb2 => none

/-- Element (i, k) of a fragment in row layout (R304). -/
def fragElem (g : Group) (base depth w i k : Nat) : Nat :=
  let h := depth / 2
  let o := k % h
  fld (getV g (base + o * w / 32) (i + 16 * (k / h))).toNat (w * (o % (32 / w))) w

/-- An entry of a team's codebook (R215, R216). -/
def cbEntry (t : Team) (i : Nat) : DWord := match t.cb with
  | none => cbDefault i
  | some c => stGet c i

/-- Element (i, k) of A, decoded. -/
def elemA (g : Group) (k : MKind) (base i d : Nat) : FVal :=
  decodeF (mFmtA k) (fragElem g base (mDepth k) (mFmtA k).bits i d)

/-- Element (k, j) of B, decoded. -/
def elemB (g : Group) (t : Team) (k : MKind) (base j d : Nat) : FVal := match mFmtB k with
  | some f => decodeF f (fragElem g base (mDepth k) f.bits j d)
  | none =>
    let c := d % 32 / 8
    let cw := fld (getV g (base + c / 2) (j + 16 * (d / 32))).toNat (16 * (c % 2)) 16
    cb2Weight (cbEntry t (cw % 512)) cw (d % 8)

/-! MMA and MMAM (R306). -/

/-- The exact sum of the active depths' products, special factors left out (R306). -/
def mmaSum (ds : List Nat) (a b : Nat → FVal) : FVal :=
  ds.foldl (fun s d => if (a d).isSpecial || (b d).isSpecial then s else FVal.add .rne s (FVal.mul (a d) (b d))) (.fin false 0 0)

/-- Flags with those of the masked rows that hold a special element (R306). -/
def mmaFlags (old mask : BitVec 16) (ds : List Nat) (e : Nat → Nat → FVal) : BitVec 16 :=
  (List.range 16).foldl (fun w i =>
    if mask.getLsbD i && ds.any (fun d => (e i d).isSpecial) then w ||| BitVec.twoPow 16 i else w) old

/-- A zero sum counts as +0. -/
def posZero : FVal → FVal
  | .fin s m e => if m = 0 then .fin false 0 0 else .fin s m e
  | v => v

/-- The effect of MMA and MMAM on a group (R306). -/
def mmaGroup (t : Team) (k : MKind) (z : Bool) (x a b : Nat) (rm cm dm : BitVec 16) (g : Group) : Group :=
  let ds := (List.range (mDepth k)).filter fun d => dm.getLsbD (d / mGran k)
  let ea (i d : Nat) := elemA g k a i d
  let eb (j d : Nat) := elemB g t k b j d
  let o := if z then ⟨x, 0, 0⟩ else (octetAt g x).getD ⟨x, 0, 0⟩
  let old (i j : Nat) : Word := if z then 0 else octElem g x i j
  let y (i j : Nat) : Word :=
    if rm.getLsbD i && cm.getLsbD j then
      BitVec.ofNat 32 (roundN32 (FVal.add .rne (decodeF fF32 (old i j).toNat) (posZero (mmaSum ds (ea i) (eb j)))))
    else old i j
  openOct (putOct g x y) ⟨x, mmaFlags o.rf rm ds ea, mmaFlags o.cf cm ds eb⟩

/-- Results outstanding of an engine instruction's octet (R306, R307). -/
def outEngine (s : State) (o : Opnd) : List Outst := (outFree s (keysOf o 8)).map fun r => { r with eng := true }

/-- The end of an engine instruction that writes an octet. -/
def engDone (o : Opnd) (s : State) : Res := done (tick s) (outEngine s o)

/-- Does an entry wait in CBLD.fe. -/
def Wait.isCbld : Wait → Bool
  | .feCbld _ _ => true
  | _ => false

/-- A group's engine instructions take effect in its issue order (R300): while CBLD.fe waits in one entry of the group, another entry's
engine instruction holds its entry (DEDUCED, log 76). -/
def engineTurn (c : Ctx) (k : Res) : Res :=
  if (frontOf c.g).any fun e => e.waits Wait.isCbld then .ok c.s (.wait .engine) [] none else k

/-- MMA (R306). -/
def execMma (x : MmaA) (s : State) : Host.Outcome State Fault Refusal :=
  withIssue x.h false s fun c =>
    if !c.any then done c.s []
    else engineTurn c <| engDone x.d (modGroup c.s c.r
      (mmaGroup c.t x.kind x.z x.d.vIdx x.a.vIdx x.b.vIdx 0xFFFF 0xFFFF 0xFFFF))

/-- MMAM (R306). -/
def execMmam (x : MmamA) (s : State) : Host.Outcome State Fault Refusal :=
  withIssue x.h false s fun c =>
    if !c.any then done c.s []
    else engineTurn c <|
      let m := srcD c.g x.t 2 c.low
      engDone x.d (modGroup c.s c.r
        (mmaGroup c.t x.kind x.z x.d.vIdx x.a.vIdx x.b.vIdx (m.extractLsb' 0 16) (m.extractLsb' 16 16) (m.extractLsb' 32 16)))

/-! SCACC (R309, R310). -/

/-- The effect of SCACC on a group. -/
def scaccGroup (d p s t : Nat) (g : Group) : Group :=
  let y (i j : Nat) : Word :=
    let l := j + 16 * (i / 8)
    let m := i % 8
    BitVec.ofNat 32 (scaccElem (drainElem g d i j).toNat (drainElem g p i j).toNat
      (fld (getV g (s + m / 4) l).toNat (8 * (m % 4)) 8) (fld (getV g t l).toNat 0 8))
  let g := putOct (closeOct g p) d y
  { g with octets := g.octets.filter fun o => o.x != d }

/-- SCACC (R310). -/
def execScacc (x : FourDABT) (s : State) : Host.Outcome State Fault Refusal :=
  withIssue x.h false s fun c =>
    if !c.any then done c.s []
    else engineTurn c <| engDone x.d (modGroup c.s c.r (scaccGroup x.d.vIdx x.a.vIdx x.b.vIdx x.t.vIdx))

/-! CBLD (R311, R312). -/

/-- The codebook read from a team's buffer; none where a word is uncorrectable. -/
def cbRead (b : Buf) (off : Nat) (t : TeamRef) (s : State) : Option State :=
  (bufTouch s t b off 4096).map fun s => modTeam s t fun u =>
    { u with cb := some (stSetAll [] ((List.range 512).map fun i =>
        (i, cbClean (BitVec.ofNat 64 (stBytes (bufOf u b) (off + 8 * i) 8))))) }

/-- CBLD (R311). -/
def execCbld (x : CbldA) (s : State) : Host.Outcome State Fault Refusal :=
  withIssue x.h false s fun c =>
    if !c.any then done c.s []
    else engineTurn c <|
      let b : Buf := if x.bufA then .a else .w
      let a := fragBase c x.a x.off
      let e (d : Nat) : Res := fragTrap ⟨cBUFRANGE, d, BitVec.ofInt 64 a⟩
      if a % 16 ≠ 0 then e 2
      else if a < 0 ∨ (bufLen c.t b : Int) < a + 4096 then e 1
      else if x.few && !allFull c.t b a.toNat 4096 then .ok c.s (.wait (.feCbld (.cbld x) a.toNat)) [] none
      else match cbRead b a.toNat c.t.r c.s with
        | none => .kill c.s cUECONS 0
        | some s => done (seeBuf c.r c.act c.t.r b [(a.toNat, 4096)] s) []

/-! Drains and fills (R313 to R316). -/

/-- The address checks of drains and fills: the C offset, or the trap. -/
def drainPlace (c : Ctx) (a : Opnd) (off : BitVec 22) (pitch : Option Nat) : Except Res Nat :=
  let x := fragBase c a off
  let e (d : Nat) : Except Res Nat := .error (fragTrap ⟨cBUFRANGE, d, BitVec.ofInt 64 x⟩)
  let bad := match pitch with
    | none => false
    | some p => decide (p < 64 ∨ p % 16 ≠ 0)
  let extent := match pitch with
    | none => 1040
    | some p => 15 * p + 64
  if x % 16 ≠ 0 then e 2
  else if bad then e 4
  else if x < 0 ∨ (c.t.clen : Int) < x + extent then e 1
  else .ok x.toNat

/-- Elements of a matrix in row order. -/
def elems16 : List (Nat × Nat) := (List.range 16).flatMap fun i => (List.range 16).map fun j => (i, j)

/-- The runs of C in which an octet's rows lie (R314). -/
def octRows (a pitch : Nat) : List (Nat × Nat) := (List.range 16).map fun i => (a + i * pitch, 64)

/-- The words a drain writes (R314): offset, whether it violates the tag, value. -/
def drainWords (c : Ctx) (s : State) (x : MdrainA) (a pitch : Nat) : List (Nat × Bool × Nat) :=
  elems16.map fun p =>
    let off := a + p.1 * pitch + 4 * p.2
    let y := (drainElem c.g x.t.vIdx p.1 p.2).toNat
    let v := if x.acc then roundN32 (FVal.add .rne (decodeF fF32 (bufGet s c.t.r .c off 4)) (decodeF fF32 y)) else y
    (off, tagElem (getB c.t x.d.tag) fF32 v)

/-- MDRAIN (R314). -/
def execMdrain (x : MdrainA) (s : State) : Host.Outcome State Fault Refusal :=
  withIssue x.h false s fun c =>
    if !c.any then done c.s []
    else engineTurn c <|
      let pitch := fragPitch c x.b
      match drainPlace c x.a x.off (some pitch) with
      | .error e => e
      | .ok a =>
        withTouch c (if x.acc then elems16.map fun p => (c.t.r, Buf.c, a + p.1 * pitch + 4 * p.2, 4) else []) fun s =>
          let ws := drainWords c s x a pitch
          let viol := ws.any fun w => w.2.1
          if viol && tagTraps (getB c.t x.d.tag) then boundTrap c x.d.tag none (BitVec.ofNat 64 a)
          else
            let s := ws.foldl (fun s w => bufPut s c.t.r .c w.1 4 w.2.2) s
            let s := relBuf c.r c.t.core c.lanes c.t.r .c (octRows a pitch) s
            done (modGroup (flagIf c x.d.tag viol s) c.r fun g => closeOct g x.t.vIdx) []

/-- MDRAIN.raw (R315). -/
def execMdrainRaw (x : MdrainRawA) (s : State) : Host.Outcome State Fault Refusal :=
  withIssue x.h false s fun c =>
    if !c.any then done c.s []
    else engineTurn c <| match drainPlace c x.a x.off none with
      | .error e => e
      | .ok a =>
        let o := octetAt c.g x.t.vIdx
        let trailer : Nat := match o with
          | none => 0
          | some o => o.rf.toNat + o.cf.toNat * 2 ^ 16 + 2 ^ 32
        let s := elems16.foldl (fun s p =>
          bufPut s c.t.r .c (a + 64 * p.1 + 4 * p.2) 4 (octElem c.g x.t.vIdx p.1 p.2).toNat) c.s
        done (relBuf c.r c.t.core c.lanes c.t.r .c [(a, 1040)] (bufPut s c.t.r .c (a + 1024) 16 trailer)) []

/-- A group's octet filled from C. -/
def fillOct (s : State) (t : TeamRef) (x a pitch : Nat) (g : Group) : Group :=
  let g := putOct g x fun i j => BitVec.ofNat 32 (bufGet s t .c (a + i * pitch + 4 * j) 4)
  { g with octets := g.octets.filter fun o => o.x != x }

/-- MFILL (R316). -/
def execMfill (x : MfillA) (s : State) : Host.Outcome State Fault Refusal :=
  withIssue x.h false s fun c =>
    if !c.any then done c.s []
    else engineTurn c <|
      let pitch := fragPitch c x.b
      match drainPlace c x.a x.off (some pitch) with
      | .error e => e
      | .ok a =>
        withTouch c (elems16.map fun p => (c.t.r, Buf.c, a + p.1 * pitch + 4 * p.2, 4)) fun s =>
          engDone x.d (seeBuf c.r c.act c.t.r .c (octRows a pitch) (modGroup s c.r (fillOct s c.t.r x.d.vIdx a pitch)))

/-- MFILL.raw (R316). -/
def execMfillRaw (x : MfillRawA) (s : State) : Host.Outcome State Fault Refusal :=
  withIssue x.h false s fun c =>
    if !c.any then done c.s []
    else engineTurn c <| match drainPlace c x.a x.off none with
      | .error e => e
      | .ok a =>
        withTouch c [(c.t.r, Buf.c, a, 1040)] fun s =>
          let tr := bufGet s c.t.r .c (a + 1024) 16
          engDone x.d (seeBuf c.r c.act c.t.r .c [(a, 1040)] <| modGroup s c.r fun g =>
            let g := fillOct s c.t.r x.d.vIdx a 64 g
            if bit1 tr 32 then openOct g ⟨x.d.vIdx, BitVec.ofNat 16 tr, BitVec.ofNat 16 (tr / 2 ^ 16)⟩ else g)

/-! The end of a full/empty wait. -/

/-- CBLD.fe loads its table once all its granules are full. -/
def feCbldLane (s : State) (r : GroupRef) (e : Entry) (i : Instr) (off : Nat) : State :=
  match i, teamOf s r.team with
  | .cbld x, some t =>
    let b : Buf := if x.bufA then .a else .w
    if allFull t b off 4096 then
      match cbRead b off r.team s with
      | none => killTeam s r.team cUECONS 0
      | some s => modGroup s r (moveOn e.mask)
    else s
  | _, _ => s

/-- An engine instruction that held its entry issues again once no CBLD.fe of its group waits (R300). -/
def engineAgain (s : State) (r : GroupRef) (e : Entry) : State := modGroup s r fun g =>
  let f := frontOf g
  if g.pendTrap.isSome || f.any fun x => x.waits Wait.isCbld then g
  else setFront g (addReady (f.filter fun x => x != e) ⟨e.pc, e.prio, e.mask, 0, .ready⟩)

/-- FE_WAIT_SATISFIED (R83): a lane whose granules have become full takes its read in one step; nothing happens while the package is
halted (R12). -/
def execFeWaitSatisfied (r : GroupRef) (lane : Nat) (s : State) : Host.Outcome State Fault Refusal :=
  match (wakeable s r).bind fun g => waitAt g lane with
  | some (e, .feLoad i ls got) => .next (feLoadLane s r e i ls got lane)
  | some (e, .feFrag i m off pitch) => .next (feFragLane s r e i m off pitch)
  | some (e, .feCbld i off) => .next (feCbldLane s r e i off)
  | some (e, .engine) => .next (engineAgain s r e)
  | _ => .next s

end Sys2Proof.Machine
end

