-- ==== Sys2Proof/Machine/MoveOps.lean ====
section
/-! DEFINITION. Moves, selects, predicates and special values (spec/09_scalar_vector_instructions.md R244 to R253). -/

namespace Sys2Proof.Machine

/-- A source of a 32- or 64-bit move (R245): 32-bit values zero-extended. -/
def srcW (g : Group) (o : Opnd) (wide : Bool) (l : Nat) : DWord :=
  if wide then srcD g o 2 l else BitVec.ofNat 64 (srcN g o 32 l)

/-- MOV (R245). -/
def execMov (x : MovA) (s : State) : Host.Outcome State Fault Refusal :=
  withIssue x.h false s fun c =>
    resFree c (keysOf x.d x.w.regs) (runLanes c x.d fun g l => match x.w with
      | .b32 => setDst g x.d 1 l (srcW c.g x.a false l)
      | .b64 => setDst g x.d 2 l (srcW c.g x.a true l)
      | .b128 => setQ g x.d l (srcQ c.g x.a l))

/-- The value of MOVI (R246), given D's old 64 bits. -/
def moviVal (x : MoviA) (old : DWord) : DWord :=
  if !x.wide then x.imm.setWidth 64
  else if x.hi then x.imm ++ old.extractLsb' 0 32
  else x.imm.signExtend 64

/-- MOVI (R246). -/
def execMovi (x : MoviA) (s : State) : Host.Outcome State Fault Refusal :=
  withIssue x.h false s fun c =>
    let n := if x.wide then 2 else 1
    resFree c (keysOf x.d n) (runLanes c x.d fun g l => setDst g x.d n l (moviVal x (srcD c.g x.d n l)))

/-- SEL (R247). -/
def execSel (x : SelA) (s : State) : Host.Outcome State Fault Refusal :=
  withIssue x.h false s fun c =>
    let n := if x.wide then 2 else 1
    resFree c (keysOf x.d n) (runLanes c x.d fun g l =>
      setDst g x.d n l (srcW c.g (if srcP c.g x.t l then x.a else x.b) x.wide l))

/-- The operation of PSET (R248). -/
def psetOp : PsetOp → Bool → Bool → Bool
  | .and, a, b => a && b
  | .or, a, b => a || b
  | .xor, a, b => a != b

/-- PSET (R248). -/
def execPset (x : PsetA) (s : State) : Host.Outcome State Fault Refusal :=
  withIssue x.h false s fun c =>
    resFree c (keysOf x.d 1) (runLanes c x.d fun g l =>
      setP g x.d.tag l (psetOp x.op (srcP c.g x.a l != x.na) (srcP c.g x.b l != x.nb)))

/-- Predicates p7 to p0 of a lane in bits [7:0] (R249). -/
def predByte (g : Group) (l : Nat) : Nat := (List.range 8).foldl (fun a i => a + if getP g i l then 2 ^ i else 0) 0

/-- PMOV.tov (R249). -/
def execPmovTov (x : OneD) (s : State) : Host.Outcome State Fault Refusal :=
  withIssue x.h false s fun c =>
    resFree c (keysOf x.d 1) (runLanes c x.d fun g l => setDst g x.d 1 l (BitVec.ofNat 64 (predByte c.g l)))

/-- PMOV.fromv (R249). -/
def execPmovFromv (x : PmovFromA) (s : State) : Host.Outcome State Fault Refusal :=
  withIssue x.h false s fun c =>
    let is := (List.range 7).filter fun i => x.mask.getLsbD i
    let g := c.lanes.foldl (fun g l => is.foldl (fun g i => setP g i l ((srcD c.g x.a 1 l).getLsbD i)) g) c.g
    resFree c (is.map fun i => .p i) g

/-- The special values (R250, R251). -/
def specialVal (c : Ctx) (sel : Special) (l : Nat) : DWord :=
  let t := c.t.r.team
  match sel with
  | .laneid => BitVec.ofNat 64 l
  | .groupid => BitVec.ofNat 64 c.g.id
  | .teamid => BitVec.ofNat 64 t
  | .teamx => BitVec.ofNat 64 (t % c.gr.gx)
  | .teamy => BitVec.ofNat 64 (t / c.gr.gx % c.gr.gy)
  | .teamz => BitVec.ofNat 64 (t / c.gr.gx / c.gr.gy)
  | .ngroups => BitVec.ofNat 64 (c.gr.cgrp + 1)
  | .member => BitVec.ofNat 64 c.t.member
  | .gridid => BitVec.ofNat 64 c.gr.id
  | .core => BitVec.ofNat 64 c.t.core
  | .cluster => BitVec.ofNat 64 (c.t.core / 8)
  | .die => BitVec.ofNat 64 (c.t.core / 88)
  | .ldid => BitVec.ofNat 64 c.ld
  | .cycles => BitVec.ofNat 64 c.s.cycle
  | .rootgen => BitVec.ofNat 64 ((c.g.pin.map Pin.gen).getD 0)
  | .bndflag => c.t.bflags.setWidth 64
  | .srstate => (stGet c.g.sr l).setWidth 64
  | .entrymask => c.u.mask.setWidth 64

/-- SREAD (R250, R251). -/
def execSread (x : SreadA) (s : State) : Host.Outcome State Fault Refusal :=
  withIssue x.h false s fun c =>
    let n := if x.sel.wide then 2 else 1
    resFree c (keysOf x.d n) (runLanes c x.d fun g l => setDst g x.d n l (specialVal c x.sel l))

/-- The image MODSET writes (R252). -/
def modImage (raw : Bool) (a b : DWord) : DWord :=
  if raw then a
  else if a.extractLsb' 20 44 ≠ 0 ∨ b.extractLsb' 20 44 ≠ 0 then
    BitVec.ofNat 64 (b.toNat % 2 ^ 20 * 2 ^ 24 + a.toNat % 2 ^ 20)
  else BitVec.ofNat 64 (2 ^ 63 + b.toNat % 2 ^ 20 * 2 ^ 24 + a.toNat % 2 ^ 20)

/-- MODSET (R252). -/
def execModset (x : ModsetA) (s : State) : Host.Outcome State Fault Refusal :=
  withIssue x.h false s fun c =>
    resFree c (keysOf x.d 1) (runLanes c x.d fun g l =>
      setM g x.d.tag (modImage x.raw (srcD c.g x.a 1 l) (srcD c.g x.b 1 l)))

/-- The image BNDSET writes (R253, R74). -/
def bndImage (a b : DWord) : BitVec 128 :=
  BitVec.ofNat 128 (a.toNat * 2 ^ 64 + fld b.toNat 4 1 * 2 ^ 4 + fld b.toNat 0 2)

/-- A bound register replaced whole and its flag cleared (R77, R253); every later check uses it (DESIGN CHOICE, log 71); b0 keeps its
zero. -/
def setBound (n : Nat) (x : BitVec 128) (t : Team) : Team :=
  if n = 0 then t else { t with bnd := stSet t.bnd n x, bflags := t.bflags &&& ~~~ BitVec.twoPow 16 n }

/-- BNDSET (R253). -/
def execBndset (x : ThreeDAB) (s : State) : Host.Outcome State Fault Refusal :=
  withIssue x.h false s fun c =>
    if c.any then
      let v := bndImage (srcD c.g x.a 1 c.low) (srcD c.g x.b 1 c.low)
      done (tick (modTeam c.s c.t.r (setBound x.d.tag v))) (outFree c.s (keysOf x.d 1))
    else done c.s []

end Sys2Proof.Machine
end

