-- ==== Sys2Proof/Machine/NearBank.lean ====
section
/-! DEFINITION. Memory-side commands (spec/16_stream_engines.md R351 to R358; spec/04_device_memory.md R107 to R115): near-bank
commands, decode attention, KV pages and their pools. -/

namespace Sys2Proof.Machine

/-! NBREQ and ATTQ (R351). -/

/-- A command is read at issue and forked. -/
def memReq (c : Ctx) (x : NbreqA) (att : Bool) : Res :=
  if !c.any then done c.s []
  else
    let a : Int := match x.a with
      | .im w => w.toInt
      | o => (srcD c.g o 1 c.low).toNat
    match recPlace c (a + x.off.toInt) with
    | .error e => trapA e.cause e.detail e.addr
    | .ok off => withTouch c [(c.t.r, .a, off, 64)] fun s =>
      let m : MemOp := ⟨s.nextId, att, c.t.r, c.t.member, bufGet s c.t.r .a off 64, c.g.pin, c.t.bounds, c.t.tenant,
        forkOf s c.g c.u.mask, none⟩
      done { copyPin s c.ld c.g.pin with memOps := s.memOps ++ [m], nextId := s.nextId + 1 } []

/-- NBREQ. -/
def execNbreq (x : NbreqA) (s : State) : Host.Outcome State Fault Refusal := withIssue x.h false s fun c => memReq c x false

/-- ATTQ. -/
def execAttq (x : NbreqA) (s : State) : Host.Outcome State Fault Refusal := withIssue x.h false s fun c => memReq c x true

/-- A command leaves the machine. -/
def memGone (s : State) (m : MemOp) : State :=
  bury { dropPin s m.t.ld m.pin with memOps := s.memOps.filter fun x => x.id != m.id }

/-- A command ends with an error in its object; where it has written bytes, COUNT is still to fall by them. -/
def memFail (s : State) (m : MemOp) (arr cause detail wrote : Nat) : State :=
  let s := arrError s m.t arr cause detail false
  if wrote = 0 then memGone s m
  else { s with memOps := s.memOps.map fun x => if x.id == m.id then { x with left := some wrote } else x }

/-- A command has written its bytes; COUNT is still to fall. -/
def memDone (s : State) (m : MemOp) (n : Nat) : State :=
  if (teamOf s m.t).isNone then memGone s m
  else { s with memOps := s.memOps.map fun x => if x.id == m.id then { x with left := some n } else x }

/-! Near-bank commands (R352, R353). -/

def nbSrc (x : Nat) : Ptr := BitVec.ofNat 64 (fld x 0 64)
def nbDst (x : Nat) : Ptr := BitVec.ofNat 64 (fld x 64 64)
def nbE0 (x : Nat) : Nat := fld x 128 32
def nbE1 (x : Nat) : Nat := fld x 160 16
def nbSs1 (x : Nat) : Int := toIntN 32 true (fld x 192 32)
def nbDs1 (x : Nat) : Int := toIntN 32 true (fld x 224 32)
def nbScalar (x : Nat) : Nat := fld x 256 32
def nbOp (x : Nat) : Nat := fld x 288 4
def nbFmt (x : Nat) : Fmt := if fld x 292 2 = 1 then fBf16 else fF32
/-- Bytes of an element. -/
def nbEsz (x : Nat) : Nat := if nbOp x < 3 then 1 else if fld x 292 2 = 1 then 2 else 4
def nbArr (x : Nat) : Nat := fld x 296 23

/-- The first check of R353. -/
def nbValid (s : State) (m : MemOp) : Bool :=
  let x := m.raw
  let op := nbOp x
  let e := nbEsz x
  fld x 319 193 = 0 && fld x 294 2 = 0 && fld x 176 16 = 0 && 1 ≤ op && op ≤ 4 && fld x 292 2 < 2 && (2 < op || fld x 292 2 = 0) &&
    1 ≤ nbE0 x && 1 ≤ nbE1 x && (op ≠ 1 || nbE1 x = 1) && nbArr x % 8 = 0 && ((teamOf s m.t).isNone || (arrAt s m.t (nbArr x)).isSome) &&
    (nbSrc x).toNat % e = 0 && (nbE1 x = 1 || nbSs1 x % e = 0) && (nbDst x).toNat % (if op = 3 then 4 else e) = 0 &&
    (op = 3 || nbE1 x = 1 || nbDs1 x % e = 0)

/-- An operand's span: its lowest byte and length. -/
def nbSpan (p : Ptr) (rows : Nat) (stride : Int) (w : Nat) : Ptr × Nat :=
  let d := ((rows : Int) - 1) * stride
  (ptrAdd p (min 0 d), d.natAbs + w)

/-- The spans of source and destination. -/
def nbSpans (x : Nat) : (Ptr × Nat) × (Ptr × Nat) :=
  let w := nbE0 x * nbEsz x
  (nbSpan (nbSrc x) (nbE1 x) (nbSs1 x) w,
    if nbOp x = 3 then (nbDst x, 4 * nbE0 x) else nbSpan (nbDst x) (nbE1 x) (nbDs1 x) w)

/-- The leaves and physical addresses of a span's pages, or the cause of a fault (R19, R55). -/
def nbPages (s : State) (e : Eng) (p : Ptr) (n : Nat) (k : Acc) : Except Nat (List (Nat × Nat)) :=
  match boundsErr (stGet e.bounds (ptrRid p)) (ptrRid p) (ptrVa p) n k with
  | some x => .error x.1
  | none =>
    (List.range ((ptrVa p + n - 1) / 2 ^ 16 - ptrVa p / 2 ^ 16 + 1)).foldl (fun acc i => acc.bind fun l =>
      match translate s e.t.ld e.root e.user ((ptrVa p / 2 ^ 16 + i) * 2 ^ 16) k with
      | .error x => .error x.1
      | .ok y => .ok (l ++ [y])) (.ok [])

/-- The checks of R353 in order: cause and detail of the first failure. -/
def nbErr (s : State) (e : Eng) (m : MemOp) : Option (Nat × Nat) :=
  if !nbValid s m then some (cNBATTR, 4)
  else
    let sp := nbSpans m.raw
    match nbPages s e sp.1.1 sp.1.2 .read, nbPages s e sp.2.1 sp.2.2 .write with
    | .error c, _ => some (c, 0)
    | _, .error c => some (c, 0)
    | .ok a, .ok b =>
      let all := a ++ b
      let stack (pa : Nat) : Nat := pa / 2 ^ 36
      let crosses (x : Ptr × Nat) : Bool := ptrVa x.1 / 2 ^ 21 != (ptrVa x.1 + x.2 - 1) / 2 ^ 21
      if all.any fun y => !bit1 y.2 5 then some (cNBATTR, 1)
      else if all.any fun y => !isHbm y.1 || y.1 % 2 ^ 36 < pkgReg s (0x800 + stack y.1) then some (cNBATTR, 2)
      else if all.any fun y => all.any fun z => stack y.1 != stack z.1 then some (cNBATTR, 3)
      else if crosses sp.1 ∨ crosses sp.2 then some (cNBCROSS, 1)
      else none

/-- A run of bytes a near-bank command writes: where, the runs of its sources, and the value they give. -/
structure NbItem where
  dst : Ptr
  n : Nat
  src : List Ptr
  m : Nat
  val : List Nat → Nat

/-- COPY and RELAYOUT: the rows' bytes, in pieces. -/
def nbMoves (x : Nat) : List NbItem :=
  (List.range (nbE1 x)).flatMap fun (i : Nat) =>
    (cutRun (nbE0 x) (.mem (ptrAdd (nbSrc x) (i * nbSs1 x))) (.mem (ptrAdd (nbDst x) (i * nbDs1 x))) (nbE0 x)).filterMap fun y =>
      match y.src, y.dst with
      | .mem a, .mem b => some ⟨b, y.n, [a], y.n, fun l => l.headD 0⟩
      | _, _ => none

/-- The exact sum of some values. -/
def sumF : List FVal → FVal
  | [] => .fin false 0 0
  | v :: r => r.foldl (FVal.add .rne) v

/-- REDUCE: element j of every row, summed exactly and rounded. -/
def nbSums (x : Nat) : List NbItem :=
  (List.range (nbE0 x)).map fun (j : Nat) =>
    ⟨ptrAdd (nbDst x) (4 * j : Nat), 4,
      (List.range (nbE1 x)).map fun (i : Nat) => ptrAdd (nbSrc x) (i * nbSs1 x + nbEsz x * j), nbEsz x,
      fun l => roundN32 (sumF (l.map (decodeF (nbFmt x))))⟩

/-- SCALE: each element by SCALAR, rounded. -/
def nbScales (x : Nat) : List NbItem :=
  let e := nbEsz x
  (List.range (nbE1 x)).flatMap fun (i : Nat) => (List.range (nbE0 x)).map fun (j : Nat) =>
    ⟨ptrAdd (nbDst x) (i * nbDs1 x + e * j), e, [ptrAdd (nbSrc x) (i * nbSs1 x + e * j)], e,
      fun l => roundF (nbFmt x) .rne 0 false (FVal.mul (decodeF (nbFmt x) (l.headD 0)) (decodeF fF32 (nbScalar x)))⟩

/-- The physical runs of an operand's pages within its span (R99). -/
def nbRuns (s : State) (e : Eng) (sp : Ptr × Nat) (k : Acc) : List (Nat × Nat) :=
  let va := ptrVa sp.1
  match nbPages s e sp.1 sp.2 k with
  | .error _ => []
  | .ok l => l.zipIdx.map fun y =>
    let lo := max va ((va / 2 ^ 16 + y.2) * 2 ^ 16)
    (y.1.1 / 2 ^ 16 * 2 ^ 16 + lo % 2 ^ 16, min (va + sp.2) ((va / 2 ^ 16 + y.2 + 1) * 2 ^ 16) - lo)

/-- What a command's reads have given: the runs with their values, none for one that a bad sector feeds; what the reads have seen. -/
structure NbRead where
  s : State
  vals : List (NbItem × Option Nat)
  kept : List Nat

/-- One run's sources are read. -/
def nbRead (e : Eng) (a : NbRead) (it : NbItem) : NbRead :=
  let v := it.src.foldl (fun (x : State × Option (List Nat) × List Nat) p => match engRead x.1 e p it.m with
    | .error _ => (x.1, none, x.2.2)
    | .ok y =>
      if y.st = .ok then (y.s, x.2.1.map (· ++ [ofBytes y.bytes]), union x.2.2 y.kept)
      else (kvConsume y.s y.sec, none, x.2.2)) (a.s, some [], a.kept)
  ⟨v.1, a.vals ++ [(it, v.2.1.map it.val)], v.2.2⟩

/-- A command's reads, all before its writes (R353); a run that a poisoned sector feeds leaves its destination's sector poisoned (DEDUCED,
log 32). Of a team that is gone each write is made or not (R149). The die cache's dirty sectors are written back before the reads, and the range written is invalid in it after the writes (R99). -/
def nbRun (s : State) (e : Eng) (gone : Bool) (raw : Nat) (items : List NbItem) : State :=
  let sp := nbSpans raw
  let s := (nbRuns s e sp.1 .read).foldl (fun s x => dieClean s x.1 x.2) s
  let out := nbRuns s e sp.2 .write
  let r := items.foldl (nbRead e) ⟨s, [], []⟩
  let put (s : State) (y : NbItem × Option Nat) : State := match y.2 with
    | some v => locWrite s e (.mem y.1.dst) (bytesOf v y.1.n) r.kept []
    | none => locPoison s e (.mem y.1.dst) y.1.n
  let s := r.vals.foldl (fun s y => if !gone then put s y else if Config.freeBool s.frees then tick s else put (tick s) y) r.s
  out.foldl (fun s x => dieInval s x.1 x.2) s

/-- The context of a command's accesses (R18). -/
def memEng (s : State) (m : MemOp) : Eng := ⟨m.t, pinRoot m.pin, m.bounds, engUser s m.t, false, m.id, m.after⟩

/-- A near-bank command runs once what it follows is performed; one of a team that is gone runs or does not (R435). -/
def nbStep (op : Nat) (takes : Nat → Bool) (items : Nat → List NbItem) (s : State) : Host.Outcome State Fault Refusal :=
  agent s fun s => match s.memOps.find? fun m => m.id == op && !m.att && m.left.isNone with
  | none => s
  | some m =>
    let e := memEng s m
    if !takes (nbOp m.raw) || !forkReady s m.after then s
    else if (teamOf s m.t).isNone && Config.freeBool s.frees then memGone (tick s) m
    else match nbErr s e m with
      | some x => memFail (tick s) m (nbArr m.raw) x.1 x.2 0
      | none =>
        let l := items m.raw
        memDone (nbRun (tick s) e (teamOf s m.t).isNone m.raw l) m (l.map NbItem.n).sum

/-- NB_COPY; it also takes a record of no operation. -/
def execNbCopy (op : Nat) (s : State) : Host.Outcome State Fault Refusal :=
  nbStep op (fun o => o == 1 || o == 0 || 4 < o) nbMoves s

/-- NB_RELAYOUT. -/
def execNbRelayout (op : Nat) (s : State) : Host.Outcome State Fault Refusal := nbStep op (· == 2) nbMoves s

/-- NB_REDUCE. -/
def execNbReduce (op : Nat) (s : State) : Host.Outcome State Fault Refusal := nbStep op (· == 3) nbSums s

/-- NB_SCALE. -/
def execNbScale (op : Nat) (s : State) : Host.Outcome State Fault Refusal := nbStep op (· == 4) nbScales s

/-! KV pages (R111 to R115). -/

/-- Is a frame number one of HBM. -/
def kvHbm (f : Nat) : Bool := f < 2 ^ 23

/-! Decode attention (R354, R355). -/

def atHead (x : Nat) : Nat := fld x 0 36
def atQ (x : Nat) : Nat := fld x 64 23
def atO (x : Nat) : Nat := fld x 88 23
def atArr (x : Nat) : Nat := fld x 112 23
def atDh (x : Nat) : Nat := 64 * 2 ^ fld x 136 2
def atScale (x : Nat) : Nat := fld x 144 32
def atMax (x : Nat) : Nat := fld x 176 32

/-- Does a run of a member's A lie in its allocation. -/
def atFits (s : State) (t : TeamRef) (a n : Nat) : Bool := match teamOf s t with
  | none => false
  | some u => a / 2 ^ 20 < gangSize s t && (match teamOf s (memberRef u (a / 2 ^ 20)) with
    | none => false
    | some v => a % 2 ^ 20 + n ≤ v.alen)

/-- The first check of R355. -/
def atValid (s : State) (m : MemOp) : Bool :=
  let x := m.raw
  fld x 208 304 = 0 && fld x 138 6 = 0 && !bit1 x 135 && !bit1 x 111 && !bit1 x 87 && fld x 36 28 = 0 && fld x 136 2 ≠ 3 &&
    atQ x % 16 = 0 && atO x % 16 = 0 && (arrAt s m.t (atArr x)).isSome && atFits s m.t (atQ x) (4 * atDh x) && atFits s m.t (atO x) (8 * atDh x)

/-- The value of a run of BF16 numbers. -/
def bf16s (bs : List Byte) (n : Nat) : List Nat := (List.range n).map fun i => ofBytes ((bs.drop (2 * i)).take 2)

/-- A page of a chain as the prefetcher has it (R115): frame, header, how the header's read ended. -/
structure AtPage where
  f : Nat
  h : Nat
  st : RdSt

/-- How a walk stands: the quads, tokens still to read, the pages held, and the error that ended it. -/
structure AtRun where
  s : State
  quads : List (Nat × Nat × Nat × Nat)
  left : Nat
  pages : List AtPage
  err : Option (Nat × Nat)

/-- One token (R355). -/
def atToken (dh scale : Nat) (q : List FVal) (f u : Nat) (r : AtRun) : AtRun :=
  if r.err.isSome then r
  else
    let d := readMem r.s (kvPa f + 64 + 4 * dh * u) (4 * dh)
    if d.2.1 ≠ .ok then { r with s := kvPoison d.2.2 f, err := some (cPOISON, 2) }
    else
      let xs := bf16s d.1 (2 * dh)
      let dot := roundN32 (sumF ((q.zip xs).map fun p => FVal.mul p.1 (decodeF fBf16 p.2)))
      let x := roundN32 (FVal.mul (decodeF fF32 dot) (decodeF fF32 scale))
      let quads := ((List.range (dh / 2)).zip r.quads).map fun p =>
        lseMerge p.2 (x, 0x3F800000, xs.getD (dh + 2 * p.1) 0 * 2 ^ 16, xs.getD (dh + 2 * p.1 + 1) 0 * 2 ^ 16)
      { r with s := d.2.2, quads := quads }

/-- The error a page gives when the computation reaches it (R355, R115, R437): in the order of R355's table. -/
def atHeadErr (p : AtPage) (tenant dh : Nat) : Option (Nat × Nat) :=
  if p.st ≠ .ok then some (cPOISON, 2)
  else if kvState p.h = 0 ∨ !kvHbm (kvSucc p.h) then some (cNOTMAPPED, 5)
  else if kvTenant p.h ≠ tenant then some (cNOPERM, 4)
  else if 65472 / (4 * dh) < kvTokens p.h then some (cNOTMAPPED, 7)
  else if kvState p.h = 2 then some (cPOISON, 1)
  else none

/-- Does the prefetcher follow a page's SUCC (R115). -/
def atFollows (p : AtPage) (tenant : Nat) : Bool :=
  p.st == .ok && kvState p.h == 1 && kvTenant p.h == tenant && kvHbm (kvSucc p.h) && kvSucc p.h != 0

/-- The prefetcher reads a page (R115): its header once, and what it holds; what it meets there is not consumed (R102). -/
def atFetch (f : Nat) (r : AtRun) : AtRun :=
  let h := kvRead r.s f
  { r with s := tableRead h.2.2 (kvPa f) (2 ^ 16), pages := r.pages ++ [⟨f, h.1, h.2.1⟩] }

/-- The prefetcher goes on until it holds four pages past the first. -/
def atAhead (tenant : Nat) : Nat → AtRun → AtRun
  | 0, r => r
  | n + 1, r => match r.pages.getLast? with
    | none => r
    | some p => if r.pages.length < 5 && atFollows p tenant then atAhead tenant n (atFetch (kvSucc p.h) r) else r

/-- The walk of a chain (R355): the computation on the first page held, then on the next; `fuel` bounds the pages. -/
def atWalk (dh scale tenant : Nat) (q : List FVal) : Nat → AtRun → AtRun
  | 0, r => if r.pages.isEmpty ∨ r.left = 0 ∨ r.err.isSome then r else { r with err := some (cNOTMAPPED, 8) }
  | fuel + 1, r => match r.pages with
    | [] => r
    | p :: _ =>
      if r.left = 0 ∨ r.err.isSome then r
      else match atHeadErr p tenant dh with
        | some e => { r with s := if p.st = .ok then r.s else kvConsume r.s (kvPa p.f), err := some e }
        | none =>
          let r := atAhead tenant 4 r
          let n := min r.left (kvTokens p.h)
          let r := (List.range n).foldl (fun r u => atToken dh scale q p.f u r) r
          atWalk dh scale tenant q fuel { r with left := r.left - n, pages := r.pages.drop 1 }

/-- A walk from its head (R354): an empty chain, a head outside HBM, or the head's page. -/
def atStart (s : State) (head : Nat) (r : AtRun) : AtRun :=
  if head = 0 then r
  else if !kvHbm head then { r with err := some (cNOTMAPPED, 5) }
  else atFetch head { r with s := s }

/-- The quads as bytes. -/
def quadBytes (l : List (Nat × Nat × Nat × Nat)) : List Byte :=
  l.flatMap fun x => bytesOf x.1 4 ++ bytesOf x.2.1 4 ++ bytesOf x.2.2.1 4 ++ bytesOf x.2.2.2 4

/-- A run of a member's A (R25). -/
def memberA (s : State) (t : TeamRef) (a : Nat) : TeamRef := match teamOf s t with
  | none => t
  | some u => memberRef u (a / 2 ^ 20)

/-- The output of a command is written to A (R355, R82). -/
def atPut (s : State) (m : MemOp) (l : List (Nat × Nat × Nat × Nat)) : State :=
  bufLand s (memEng s m) (memberA s m.t (atO m.raw)) .a (atO m.raw % 2 ^ 20) (quadBytes l) [] []

/-- ATTENTION_COMMAND (R355): poison has every quad written as NaN, and COUNT falls by what is written. -/
def execAttentionCommand (op : Nat) (s : State) : Host.Outcome State Fault Refusal :=
  agent s fun s => match s.memOps.find? fun m => m.id == op && m.att && m.left.isNone with
  | none => s
  | some m =>
    let x := m.raw
    let dh := atDh x
    if !forkReady s m.after then s
    else if (teamOf s m.t).isNone then memGone s m
    else if !atValid s m then memFail s m (atArr x) cNBATTR 4 0
    else
      let b := bufRd s (memEng s m) (memberA s m.t (atQ x)) .a (atQ x % 2 ^ 20) (4 * dh)
      let q := (List.range dh).map fun i => decodeF fF32 (ofBytes ((b.bytes.drop (4 * i)).take 4))
      let zero : List (Nat × Nat × Nat × Nat) := List.replicate (dh / 2) (0xFF800000, 0, 0, 0)
      let start := atStart b.s (atHead x) ⟨b.s, zero, if atMax x = 0 then 2 ^ 64 else atMax x, [], none⟩
      let r := if b.st = .ok then atWalk dh (atScale x) m.tenant q 65536 start else { start with s := b.s, err := some (cPOISON, 2) }
      match r.err with
      | none => memDone (atPut r.s m r.quads) m (8 * dh)
      | some e =>
        let nan : Nat × Nat × Nat × Nat := (0x7FC00000, 0x7FC00000, 0x7FC00000, 0x7FC00000)
        if e.1 = cPOISON then memFail (atPut r.s m (List.replicate (dh / 2) nan)) m (atArr x) e.1 e.2 (8 * dh)
        else memFail r.s m (atArr x) e.1 e.2 0

/-! Pools (R113, R114). -/

/-- Pool address and capacity of a stack. -/
def poolAt (s : State) (ld st : Nat) : Nat := ldReg s ld (0x410 + 2 * st)
def poolCap (s : State) (ld st : Nat) : Nat := ldReg s ld (0x411 + 2 * st)
/-- Frames in a pool's list; none where the logical device has no pool. -/
def poolCount (s : State) (ld st : Nat) : Nat := if poolCap s ld st = 0 then 0 else peek s (poolAt s ld st) 4
def setPoolCount (s : State) (ld st n : Nat) : State := hwWrite s (poolAt s ld st) (bytesOf n 8)

/-- A frame withheld or skipped is logged to LD 0 (R462). -/
def kvLog (s : State) (f : Nat) : State := logEvent s 0x08 0 0 (fld (frameEnt s (kvPa f)) 60 4) (kvPa f) 0

/-- A word of a pool's list is read (R103). -/
def poolRead (s : State) (ld st off : Nat) : State := if poolCap s ld st = 0 then s else tableRead s (poolAt s ld st + off) 8

/-- Push a frame (R114). -/
def poolPush (s : State) (ld st f : Nat) : State :=
  let n := poolCount s ld st
  let s := poolRead s ld st 0
  if poolCap s ld st ≤ n then kvLog s f
  else setPoolCount (hwWrite s (poolAt s ld st + 64 + 8 * n) (bytesOf f 8)) ld st (n + 1)

/-- Pop entries until one names a frame that may be given, at most `fuel`. -/
def poolPop (ld st : Nat) : Nat → State → Option Nat × State
  | 0, s => (none, s)
  | fuel + 1, s =>
    let n := poolCount s ld st
    let s := poolRead s ld st 0
    if n = 0 then (none, s)
    else
      let s := poolRead s ld st (64 + 8 * (n - 1))
      let f := fld (peek s (poolAt s ld st + 64 + 8 * (n - 1)) 8) 0 36
      let s := setPoolCount s ld st (n - 1)
      if kvHbm f && frameKind s (kvPa f) == 0 then (some f, s) else poolPop ld st fuel (kvLog s f)

/-- A borrow (R113): up to 64 entries of the lender, in the order popped. -/
def poolBorrow (s : State) (ld st lender : Nat) : State :=
  (List.range (min 64 (poolCount s ld lender))).foldl (fun s _ => match poolPop ld lender 1 s with
    | (some f, s) => poolPush s ld st f
    | (none, s) => s) s

/-- An allocation (R113). -/
def kvAlloc (s : State) (ld st : Nat) : Option Nat × State :=
  let all (s : State) : Nat := poolCount s ld st
  let r := poolPop ld st (all s) s
  if r.1.isSome then r
  else
    let s := poolBorrow r.2 ld st ((st + 1) % 8)
    let r := poolPop ld st (all s) s
    if r.1.isSome then r
    else
      let s := poolBorrow r.2 ld st ((st + 7) % 8)
      poolPop ld st (all s) s

/-! KV commands (R356 to R358). -/

/-- Does a frame lie in the device's pools (DEDUCED, log 33). -/
def kvPooled (s : State) (ld f : Nat) : Bool :=
  kvHbm f && frameKind s (kvPa f) == 0 && frameOwner s (kvPa f) == ld && poolCap s ld (f / 2 ^ 20) != 0

/-- The header of a page whose header cannot be read: that of a poisoned page (R112), whose other fields are open (DESIGN CHOICE, log 72). -/
def kvLost (s : State) : Nat :=
  kvSet ((List.range 8).foldl (fun x i => x + (Config.freeWord (s.frees + i)).toNat * 2 ^ (64 * i)) 0) 214 2 2

/-- A header as a KV command reads it. -/
def kvHeader (s : State) (f : Nat) : Nat × State :=
  let h := kvRead s f
  if h.2.1 = .ok then (h.1, h.2.2) else (kvLost h.2.2, { kvConsume h.2.2 (kvPa f) with frees := h.2.2.frees + 8 })

/-- The check of a named frame (R358): its header, or cause and detail; either with the machine that has read it. -/
def kvCheck (s : State) (ld tenant f : Nat) : Except (Nat × Nat × State) (Nat × State) :=
  if !kvPooled s ld f then .error (cNOTMAPPED, 6, s)
  else
    let h := kvHeader s f
    if kvState h.1 = 0 then .error (cNOTMAPPED, 5, h.2)
    else if kvTenant h.1 ≠ tenant then .error (cNOPERM, 4, h.2)
    else .ok h

/-- The trap of a failed check. -/
def kvTrap (e : Nat × Nat × State) : Res := .trapIn e.2.2 ⟨e.1, e.2.1, none, 0, 0, false⟩

/-- A page is no longer one that KVGET has given. -/
def kvGone (s : State) (f : Nat) : State := { s with kvPages := s.kvPages.filter fun x => x != f }

/-- A holder lets a page go (R358); at SHARERS 0 it goes back or is withheld, and its successor is let go of in turn.
`fuel` bounds the chain; a successor that KVPUT would not admit ends it (DEDUCED, log 33). -/
def kvFree (ld tenant : Nat) : Nat → Nat → State → State
  | 0, _, s => s
  | fuel + 1, f, s =>
    if f = 0 then s
    else match kvCheck s ld tenant f with
      | .error e => e.2.2
      | .ok (h, s) =>
        let n := (kvSharers h + 2 ^ 32 - 1) % 2 ^ 32
        let h' := kvSet h 160 32 n
        if n ≠ 0 then kvWrite s f h'
        else
          let s := kvGone s f
          let s := if kvState h = 1 then poolPush (kvWrite s f (kvSet h' 214 2 0)) ld (kvHome h) f else kvLog (kvWrite s f h') f
          kvFree ld tenant fuel (kvSucc h) s

/-- The longest chain. -/
def kvFuel : Nat := 2 ^ 23

/-- The tenant of the context, read at each KV command (R396). -/
def kvCtxTenant (c : Ctx) : Nat := (readBounds c.s c.ld c.gr.slot).2

/-- A KV operand, read as .n64 (R357). -/
def kvVal (c : Ctx) (o : Opnd) : Nat := (srcD c.g o 2 c.low).toNat

/-- KVGET (R358). -/
def execKvget (x : ThreeDAB) (s : State) : Host.Outcome State Fault Refusal :=
  withIssue x.h false s fun c =>
    let st := kvVal c x.a
    if !c.any then done c.s []
    else if 7 < st then trapW cKVDRY 2
    else match kvAlloc c.s c.ld st with
      | (none, s) => .trapIn s ⟨cKVDRY, 1, none, 0, 0, false⟩
      | (some f, s) =>
        let h := kvVal c x.b * 2 ^ 64 + 2 ^ 160 + kvCtxTenant c * 2 ^ 192 + f / 2 ^ 20 % 8 * 2 ^ 208 + 2 ^ 214
        let s := { kvWrite s f h with kvPages := f :: s.kvPages.filter fun x => x != f }
        done (tick (modGroup s c.r fun g => setDst g x.d 2 c.low (BitVec.ofNat 64 f))) (outFree c.s (keysOf x.d 1))

/-- KVPUT (R358). -/
def execKvput (x : OneA) (s : State) : Host.Outcome State Fault Refusal :=
  withIssue x.h false s fun c =>
    if !c.any then done c.s []
    else
      let f := kvVal c x.a
      match kvCheck c.s c.ld (kvCtxTenant c) f with
      | .error e => kvTrap e
      | .ok _ => done (kvFree c.ld (kvCtxTenant c) kvFuel f c.s) []

/-- KVLNK.succ (R358). -/
def execKvlnkSucc (x : TwoAB) (s : State) : Host.Outcome State Fault Refusal :=
  withIssue x.h false s fun c =>
    if !c.any then done c.s []
    else
      let ten := kvCtxTenant c
      let p := kvVal c x.a
      let n := kvVal c x.b
      match kvCheck c.s c.ld ten p with
      | .error e => kvTrap e
      | .ok (h, s) =>
        let link (s : State) : Res :=
          done (kvFree c.ld ten kvFuel (kvSucc h) (kvWrite s p (kvSet h 0 36 n))) []
        if n = 0 then link s
        else match kvCheck s c.ld ten n with
          | .error e => kvTrap e
          | .ok (hn, s) =>
            if n = p then .trapIn s ⟨cNOPERM, 8, none, 0, 0, false⟩ else link (kvWrite s n (kvSet hn 160 32 (kvSharers hn + 1)))

/-- KVLNK.tok (R358). -/
def execKvlnkTok (x : TwoAB) (s : State) : Host.Outcome State Fault Refusal :=
  withIssue x.h false s fun c =>
    if !c.any then done c.s []
    else
      let p := kvVal c x.a
      match kvCheck c.s c.ld (kvCtxTenant c) p with
      | .error e => kvTrap e
      | .ok (h, s) => done (kvWrite s p (kvSet h 128 32 (kvVal c x.b))) []

end Sys2Proof.Machine
end

