-- ==== Sys2Proof/Machine/Power.lean ====
section
/-! DEFINITION. Power, package reset, temperature, links, host refusals (spec/00_scope.md R11, R12; spec/22_traps_faults.md R438,
R439; spec/25_host_and_fabric.md R449 to R461; spec/01_address_spaces.md R23). -/

namespace Sys2Proof.Machine

/-! Power (R460, R92). -/

/-- POWER_ON: every store takes its power-on contents. -/
def execPowerOn (s : State) : Host.Outcome State Fault Refusal := .next (if s.power.on then s else powered s true)

/-- POWER_DOWN: the package is off; what lies outside it keeps its contents, drives what is durable on them. -/
def execPowerDown (s : State) : Host.Outcome State Fault Refusal :=
  .next (if s.power.on then powered (drivePowerLoss s) false else s)

/-! Package reset (R461). -/

/-- CXL_CONVENTIONAL_RESET. -/
def execCxlConventionalReset (s : State) : Host.Outcome State Fault Refusal := .next (packageReset s)

/-- PKGRST: the host of LD 0 writes its word through BAR 0. -/
def execPkgrst (v : DWord) (s : State) : Host.Outcome State Fault Refusal := .next (qbWrite s (.host 0) 0 0x2B0 v)

/-! Power limit and temperature (R11, R12). Idle issue slots change no result: issue may idle at any time (DESIGN CHOICE, log 5). -/

/-- POWER_LIMIT_EXCEEDED. -/
def execPowerLimitExceeded (s : State) : Host.Outcome State Fault Refusal :=
  agent s fun s => { s with power := { s.power with limited := true } }

/-- POWER_DRAW_WITHIN_LIMIT. -/
def execPowerDrawWithinLimit (s : State) : Host.Outcome State Fault Refusal :=
  agent s fun s => { s with power := { s.power with limited := false } }

/-- A die is at or above 105 °C (DEDUCED, log 56). -/
def dieHot (s : State) (die : Nat) : State :=
  if s.power.hotDies.contains die then s else { s with power := { s.power with hotDies := s.power.hotDies ++ [die] } }

/-- A thermal event is logged and raised to LD 0 (R450, R462) (DEDUCED, log 21). -/
def thermalEvent (s : State) (die detail : Nat) : State := raiseMsix (logEvent s 0x0C 0 detail 0 0 die) 0 3

/-- THERMAL_ISSUE_LIMIT: a die reaches 105 °C; a halted package notes the temperature alone. -/
def execThermalIssueLimit (die : Nat) (s : State) : Host.Outcome State Fault Refusal :=
  .next (if !s.power.on || 4 ≤ die || s.power.hotDies.contains die then s
    else
      let s := dieHot s die
      if s.power.halted then s else thermalEvent s die 0)

/-- THERMAL_HALT: a die reaches 115 °C; the record is written before the package halts. -/
def execThermalHalt (die : Nat) (s : State) : Host.Outcome State Fault Refusal :=
  .next (if !s.power.on || 4 ≤ die then s
    else
      let s := dieHot s die
      if s.power.halted then s
      else
        let s := thermalEvent s die 1
        { s with power := { s.power with halted := true }, issuing := none })

/-- DIE_COOLED: a die falls below 105 °C; with the last of them a package reset that waits goes on. -/
def execDieCooled (die : Nat) (s : State) : Host.Outcome State Fault Refusal :=
  .next (if s.power.on then
      packageCool { s with power := { s.power with hotDies := s.power.hotDies.filter fun d => d != die } }
    else s)

/-! Links (R438, R439, R457, R459). -/

/-- EXPANDER_LINK_DOWN. -/
def execExpanderLinkDown (port : Nat) (s : State) : Host.Outcome State Fault Refusal :=
  agent s fun s => if port < 4 then linkLost s port else s

/-- EXPLINK: management code writes the register; 1 retrains a link that is down. -/
def execExplink (port : Nat) (v : DWord) (s : State) : Host.Outcome State Fault Refusal :=
  agent s fun s => if port < 4 ∧ privFits (0x820 + port) v.toNat then privWrite s 0 (0x820 + port) v.toNat 0 else s

/-- EXPANDER_LINK_TRAINED: training under way succeeds. -/
def execExpanderLinkTrained (port : Nat) (s : State) : Host.Outcome State Fault Refusal :=
  agent s fun s =>
    if port < 4 ∧ s.retrain.contains port then
      { setPkgReg s (0x820 + port) 1 with retrain := s.retrain.filter fun p => p != port }
    else s

/-- Ports with their link up, after a change of one. -/
def portChange (l : List Nat) (port : Nat) (up : Bool) : List Nat :=
  if up then (if l.contains port then l else l ++ [port]) else l.filter fun p => p != port

/-- NETWORK_PORT_LINK_CHANGE: a Strait port (of 36) or an Ethernet port (of 2). -/
def execNetworkPortLinkChange (eth : Bool) (port : Nat) (up : Bool) (s : State) : Host.Outcome State Fault Refusal :=
  .next (if !s.power.on then s
    else if eth then (if port < 2 then { s with ethUp := portChange s.ethUp port up } else s)
    else if port < 36 then { s with straitUp := portChange s.straitUp port up } else s)

/-! HOST_REFUSAL (R23). -/

/-- A lane's far access that the host refuses traps FARTIMEOUT, and is not performed. -/
def refuseFar (s : State) (f : Far) : State := farWake (farFail (farDrop s f) f)

/-- HOST_REFUSAL: the host refuses a far access to a host window, or the next one that a copy request makes there. -/
def execHostRefusal (id : Nat) (s : State) : Host.Outcome State Fault Refusal :=
  agent s fun s => match s.far.find? fun f => f.id == id && f.lanes != 0 && farFails s f with
  | some f => if isHost f.pa && farReady s f then refuseFar s f else s
  | none => match s.reqs.find? fun q => q.id == id with
    | none => s
    | some q => if reqStarts s q || reqMoves q then reqNext s true id else s

end Sys2Proof.Machine
end

