-- ==== Sys2Proof/Machine/System.lean ====
section
/-! DEFINITION. System calls, traps and breakpoints, FEATQ, REFRESH, NOP (spec/20_system_instructions.md R386 to R392;
spec/25_host_and_fabric.md R451, R452). -/

namespace Sys2Proof.Machine

/-! SYSCALL (R387, R388). -/

/-- SYSCALL: the entry waits at the call; the arguments are those of its lowest active lane. -/
def execSyscall (x : SyscallA) (s : State) : Host.Outcome State Fault Refusal :=
  withIssue x.h false s fun c =>
    if c.inHandler then trapW cPRIV 5
    else if c.g.rung.isSome then trapW cLADFRAME 4
    else .ok c.s (.wait (.sys c.act x.d x.svc.toNat (srcD c.g x.a 2 c.low) (srcD c.g x.b 2 c.low))) [] none

/-- The request record (R388). -/
def sysRecord (t : Team) (token : DWord) (x : Nat × Nat × DWord × DWord) : Nat :=
  x.2.2.1.toNat + x.2.2.2.toNat * 2 ^ 64 + x.2.1 % 2 ^ 16 * 2 ^ 128 + t.r.ld % 16 * 2 ^ 144 + t.r.team % 2 ^ 32 * 2 ^ 160
    + t.r.grid % 2 ^ 64 * 2 ^ 192 + token.toNat * 2 ^ 256

/-- Is the request ring full (R451). -/
def requestRingFull (s : State) (ld : Nat) : Bool :=
  ((qbWord s ld 0x290).toNat + 2 ^ 64 - (qbWord s ld 0x298).toNat) % 2 ^ 32 == (qbWord s ld 0x288).toNat

/-- SYSCALL_POST (R388, R390, R451): once the accesses before the call are performed and the ring has room, the record is
written and REQTAIL rises (DEDUCED, log 53). -/
def execSyscallPost (r : TeamRef) (s : State) : Host.Outcome State Fault Refusal :=
  agent s fun s => match teamOf s r with
  | none => s
  | some t =>
    if t.sys != .posting || !gangHere s t || !(pending s (beforeTeams s [t])).isEmpty || requestRingFull s r.ld then s
    else match supplyingCall t with
      | none => s
      | some x =>
        let token := Config.teamToken r.ld r.grid r.team
        let tail := (qbWord s r.ld 0x290).toNat
        let at' := (qbWord s r.ld 0x280).toNat + 64 * (tail % (qbWord s r.ld 0x288).toNat)
        let past := beforeTeams s [t]
        let s := writeMem (endTags s at' 64) at' (bytesOf (sysRecord t token x) 64)
        let s := addTag s (.lane ⟨r, 0⟩ t.core) .dev past at' 64
        let s := addTag s (.lane ⟨r, 0⟩ t.core) .dev past (0xFF0000000290 + r.ld * 2 ^ 16) 4
        let s := setQb s r.ld 0x290 (BitVec.ofNat 64 ((tail + 1) % 2 ^ 32))
        modTeam s r fun t => { t with sys := .waiting token }

/-- REPLYTOK (R452): a hart's write of a TOKEN delivers its latch. -/
def execReplytok (hart ld : Nat) (token : DWord) (s : State) : Host.Outcome State Fault Refusal :=
  agent s fun s =>
    if hart < 20 ∧ ld < 16 then devWrite s (.hart hart) (0xFF0000000000 + ld * 2 ^ 16 + 0x2A0) token else s

/-! TRAP, BKPT, FEATQ, REFRESH, NOP (R391, R392). -/

/-- TRAP: SWTRAP with its code. -/
def execTrap (x : TrapA) (s : State) : Host.Outcome State Fault Refusal :=
  withIssue x.h false s fun c => if c.any then trapW cSWTRAP x.code.toNat else done c.s []

/-- BKPT. -/
def execBkpt (x : TrapA) (s : State) : Host.Outcome State Fault Refusal :=
  withIssue x.h false s fun c => if c.any then trapW cBKPT x.code.toNat else done c.s []

/-- Has an expander frame that the frame table covers an owner (R392): frames without a listed entry are LD 0's. -/
def ownsExpander (s : State) (ld : Nat) : Bool :=
  let fs := (listedFrames s).filter fun f => !isHbm f
  if ld = 0 then (fs.filter fun f => frameOwner s f != 0).length < pkgReg s 0x812
  else fs.any fun f => frameOwner s f == ld

/-- A feature word (R392). -/
def featWord (s : State) (ld n : Nat) : DWord :=
  if n = 0 then 0x03010160042C0000
  else if n = 1 then BitVec.ofNat 64 (0x3FF + (if s.straitUp.isEmpty then 0 else 2 ^ 10) + (if s.ethUp.isEmpty then 0 else 2 ^ 11)
    + (if ldReg s ld 0x405 = 0 then 0 else 2 ^ 12) + if ownsExpander s ld then 2 ^ 13 else 0)
  else if n = 2 then 0x2020080040080404
  else if n = 3 then BitVec.ofNat 64 (ldReg s ld 0x401 * 2 ^ 32 + ldReg s ld 0x405 * 2 ^ 16 + ldReg s ld 0x400)
  else 0

/-- FEATQ (R392). -/
def execFeatq (x : FeatqA) (s : State) : Host.Outcome State Fault Refusal :=
  withIssue x.h false s fun c =>
    resFree c (keysOf x.d 1) (if c.any then setDst c.g x.d 1 c.low (featWord c.s c.ld x.word.toNat) else c.g)

/-- REFRESH (R391, R49). -/
def execRefresh (h : Hdr) (s : State) : Host.Outcome State Fault Refusal :=
  withIssue h false s fun c =>
    if !c.any then done c.s []
    else match refreshTeam c.s c.t.r c.gr.slot fun g => g.id == c.g.id with
      | none => trapW cNOTMAPPED 10
      | some s => done s []

/-- NOP: whatever the guard. -/
def execNop (h : Hdr) (s : State) : Host.Outcome State Fault Refusal := withIssue h false s fun c => done c.s []

end Sys2Proof.Machine
end

