-- ==== Sys2Proof/Machine/Supervisor.lean ====
section
/-! DEFINITION. The supervisor class (spec/20_system_instructions.md R386, R393 to R401), handler watchdogs, reclamation, tree
ports, register writes, background clearing (spec/22_traps_faults.md R429, R440, R441; spec/25_host_and_fabric.md R453). -/

namespace Sys2Proof.Machine

/-- An operand's 64-bit value, read once (R386). -/
def sysVal (c : Ctx) (o : Opnd) : Nat := (srcD c.g o 2 c.low).toNat

/-- An instruction marked M (R383), with an active lane (R386). -/
def mgmtOp (c : Ctx) (k : Res) : Res :=
  if !c.any then done c.s [] else if c.level != .mgmt then trapW cPRIV 2 else k

/-! Returning from a handler (R393, R430). -/

/-- The end of a handler: PRIV outside one. -/
def handlerEnd (c : Ctx) (skip : Bool) : Res :=
  if !c.any then done c.s []
  else if !c.inHandler then trapW cPRIV 4
  else .ok (eret c.s c.r skip) .left [] none

/-- ERET. -/
def execEret (h : Hdr) (s : State) : Host.Outcome State Fault Refusal := withIssue h false s fun c => handlerEnd c false

/-- ERET.skip. -/
def execEretSkip (h : Hdr) (s : State) : Host.Outcome State Fault Refusal := withIssue h false s fun c => handlerEnd c true

/-- HANDLER_WATCHDOG (R429): a handler has used 2^32 resident cycles; the nested trap fails the grid. -/
def execHandlerWatchdog (r : GroupRef) (s : State) : Host.Outcome State Fault Refusal :=
  agent s fun s => match teamOf s r.team, (groupOf s r).bind Group.handler with
  | some t, some h =>
    if gangHere s t then
      raiseTrap { s with cycle := max s.cycle (h.since + 2 ^ 32) } r
        ⟨cWATCHDOG, 0, BitVec.allOnes 32, 0, 0, 0, 0, 0, false, false, false⟩
    else s
  | _, _ => s

/-! Tree operations (R394). -/

/-- The issuing lanes' accesses up to a tree operation that publishes a root (R51). -/
def treePast (c : Ctx) : List Nat := beforeOf c.s c.r c.g c.act

/-- A tree operation that may end the sole path of a page: writes through COW leaves come before it (R56). -/
def afterCow (c : Ctx) (k : State → Res) : Res :=
  let s := forceCow c.s c.ld
  if (groupOf s c.r).isSome then k s else .ok s .left [] none

/-- A tree operation without a value: it holds the entry until done. -/
def treeRun (r : TreeRes) : Res := match r with
  | .error e => trapW e.1 e.2
  | .ok s => done s []

/-- A tree operation that gives D a value. -/
def treeGive (c : Ctx) (d : Opnd) (r : Except (Nat × Nat) (State × Nat)) : Res := match r with
  | .error e => trapW e.1 e.2
  | .ok x => done (tick (modGroup x.1 c.r fun g => setDst g d 1 c.low (BitVec.ofNat 64 x.2))) (outFree c.s (keysOf d 1))

/-- TNODE. -/
def execTnode (x : TnodeA) (s : State) : Host.Outcome State Fault Refusal :=
  withIssue x.h false s fun c =>
    if !c.any then done c.s []
    else afterCow c fun s => treeRun (treeTnode s c.ld (sysVal c x.a) (if x.zero then none else some (sysVal c x.b)))

/-- TSET. -/
def execTset (x : TsetA) (s : State) : Host.Outcome State Fault Refusal :=
  withIssue x.h false s fun c =>
    if !c.any then done c.s []
    else afterCow c fun s => treeRun (treeTset s c.ld (sysVal c x.a) x.idx.toNat x.level.toNat (sysVal c x.b))

/-- RSWAP. -/
def execRswap (x : FourDABT) (s : State) : Host.Outcome State Fault Refusal :=
  withIssue x.h false s fun c =>
    if !c.any then done c.s []
    else
      let k := sysVal c x.a
      afterCow c fun s => treeGive c x.d ((treeRswap s c.ld k (sysVal c x.b) (sysVal c x.t % 2 ^ 48) (treePast c)).map fun y =>
        (if y.2 = 0 then y.1 else settleMoves y.1 c.ld k, y.2))

/-- RCOPY. -/
def execRcopy (x : ThreeDAB) (s : State) : Host.Outcome State Fault Refusal :=
  withIssue x.h false s fun c =>
    if !c.any then done c.s []
    else afterCow c fun s => treeGive c x.d (treeRcopy s c.ld (sysVal c x.a) (sysVal c x.b) (treePast c))

/-- RDROP. -/
def execRdrop (x : OneA) (s : State) : Host.Outcome State Fault Refusal :=
  withIssue x.h false s fun c => if !c.any then done c.s [] else treeRun (treeRdrop c.s c.ld (sysVal c x.a))

/-- RDROP.node. -/
def execRdropNode (x : OneA) (s : State) : Host.Outcome State Fault Refusal :=
  withIssue x.h false s fun c => if !c.any then done c.s [] else treeRun (treeRdropNode c.s c.ld (sysVal c x.a))

/-- TINV. -/
def execTinv (x : OneA) (s : State) : Host.Outcome State Fault Refusal :=
  withIssue x.h false s fun c => if !c.any then done c.s [] else treeRun (treeTinv c.s c.ld (sysVal c x.a % 2 ^ 48))

/-- RECLAIM_RELEASE (R57, R58): one step of a logical device's reclamation. -/
def execReclaimRelease (ld : Nat) (s : State) : Host.Outcome State Fault Refusal := 
  agent s fun s => if (ldOf s ld).resetting then s else reclaimStep s ld

/-- RQCONS (R58, R397): the supervisor consumes records. -/
def execRqcons (ld : Nat) (v : DWord) (s : State) : Host.Outcome State Fault Refusal :=
  agent s fun s => if ld < 16 ∧ privFits 3 v.toNat then privWrite s ld 3 v.toNat 0 else s

/-! Tree ports (R453). -/

/-- A hart's operation word at its port; writes through COW leaves come before it (R56). -/
def atPort (s : State) (h : Nat) (w : DWord) (f : State → State) : Host.Outcome State Fault Refusal :=
  agent s fun s => if h < 20 then f (forceCow s (portLd w)) else s

/-- TREEPORT_TNODE. -/
def execTreeportTnode (hart : Nat) (w : DWord) (s : State) : Host.Outcome State Fault Refusal :=
  atPort s hart w fun s => portTnode s hart w

/-- TREEPORT_TSET. -/
def execTreeportTset (hart : Nat) (w : DWord) (s : State) : Host.Outcome State Fault Refusal :=
  atPort s hart w fun s => portTset s hart w

/-- TREEPORT_RSWAP. -/
def execTreeportRswap (hart : Nat) (w : DWord) (s : State) : Host.Outcome State Fault Refusal :=
  atPort s hart w fun s => portRswap s hart w

/-- TREEPORT_RCOPY. -/
def execTreeportRcopy (hart : Nat) (w : DWord) (s : State) : Host.Outcome State Fault Refusal :=
  atPort s hart w fun s => portRcopy s hart w

/-- TREEPORT_RDROP. -/
def execTreeportRdrop (hart : Nat) (w : DWord) (s : State) : Host.Outcome State Fault Refusal :=
  atPort s hart w fun s => portRdrop s hart w

/-- TREEPORT_TINV. -/
def execTreeportTinv (hart : Nat) (w : DWord) (s : State) : Host.Outcome State Fault Refusal :=
  atPort s hart w fun s => portTinv s hart w

/-! LDRESET (R399, R440). -/

/-- LDRESET: the entry waits for the reset, its own or one under way. -/
def execLdreset (x : OneA) (s : State) : Host.Outcome State Fault Refusal :=
  withIssue x.h false s fun c =>
    mgmtOp c (
      let n := sysVal c x.a
      if n = 0 ∨ 15 < n ∨ n = c.ld then trapW cPRIV 3
      else .ok (if (ldOf c.s n).resetting then c.s else ldStop c.s n) (.wait (.ldreset n)) [] none)

/-- LDRESET_COMPLETE (R440): the requests of the logical device are drained, and the remaining steps are taken. -/
def execLdresetComplete (ld : Nat) (s : State) : Host.Outcome State Fault Refusal :=
  agent s fun s => if (ldOf s ld).resetting && !ldBusy s ld then ldFinish s ld else s

/-- CLEAR_PENDING_LINE (R441): zeros and valid check bits in one line; the end of a stack's clearing is logged. -/
def execClearPendingLine (line : Nat) (s : State) : Host.Outcome State Fault Refusal :=
  agent s fun s =>
    if isPend s line then
      let s := openLine (colCmd s true (128 * line)) line
      let st := line / 2 ^ 29
      if st < 8 ∧ !s.clearPend.any fun r => r.1 < (st + 1) * 2 ^ 29 && st * 2 ^ 29 < r.2 then logEvent s 0x0A 0 0 0 0 st else s
    else s

/-! DIAGST and DIAGLD (R400, R401). -/

/-- The data block's offset in A, or its trap. -/
def diagBlock (c : Ctx) (o : Opnd) (size : Nat) (k : Nat → Res) : Res :=
  let off := sysVal c o
  if c.t.alen < off + size then .trap ⟨cBUFRANGE, 1, none, BitVec.ofNat 64 off, 0, false⟩
  else if off % 16 ≠ 0 then .trap ⟨cBUFRANGE, 2, none, BitVec.ofNat 64 off, 0, false⟩
  else k off

/-- The block read from A. -/
def diagRead (c : Ctx) (off size : Nat) (k : State → Nat → Res) : Res :=
  withTouch c [(c.t.r, .a, off, size)] fun s => k s (bufGet s c.t.r .a off size)

/-- Is a target a sector of HBM. -/
def diagHbm (pa : Nat) : Bool := pa % 32 == 0 && isHbm pa

/-- DIAGST.hbm: data and check bytes written unchanged; the rest of a clear-pending line becomes zeros (R441). -/
def execDiagstHbm (x : TwoAB) (s : State) : Host.Outcome State Fault Refusal :=
  withIssue x.h false s fun c =>
    mgmtOp c (diagBlock c x.b 48 fun off =>
      let pa := sysVal c x.a
      if !diagHbm pa then trapW cNOTMAPPED 9
      else diagRead c off 48 fun s v =>
        let d := bytesOf v 32
        let chk := fld v 256 32
        let s := dieDrop (cacheSector s (pa / 32)) (pa / 128) (sectorMask pa 32) false
        let s := pokeBytes (openLine (colCmd s true pa) (pa / 128)) pa d
        done { endTags s pa 32 with ecc := stSet s.ecc (pa / 32) (if chk = rsCheck d then 0 else BitVec.ofNat 33 (2 ^ 32 + chk)) } [])

/-- The sector at an address is written back where it is dirty in the die cache (R401). -/
def dieBack (s : State) (pa : Nat) : State := match dieLine s (pa / 128) with
  | none => s
  | some d => if d.dirty &&& sectorMask pa 32 = 0 then s else
    let s := dieDrop s (pa / 128) (sectorMask pa 32) true
    { s with dcache := s.dcache.map fun x => if x.line = d.line then { x with valid := d.valid } else x }

/-- DIAGLD.hbm: the stored bytes, those of a clear-pending line too. -/
def execDiagldHbm (x : TwoAB) (s : State) : Host.Outcome State Fault Refusal :=
  withIssue x.h false s fun c =>
    mgmtOp c (diagBlock c x.b 48 fun off =>
      let pa := sysVal c x.a
      if !diagHbm pa then trapW cNOTMAPPED 9
      else
        let s := colCmd (dieBack c.s pa) true pa
        let v := ofBytes (storedBytes s pa 32) + storedCheck s (pa / 32) * 2 ^ 256
        done (bufPut s c.t.r .a off 48 v) [])

/-- A target word of .sram: store, unit, word; none outside the tables of R400. -/
def sramTarget (x : Nat) : Option SramKey :=
  let st := fld x 56 8
  let u := fld x 47 9
  let w := fld x 0 47
  let lim : Nat × Nat :=
    if st = 0 then (352, 65536) else if st = 1 ∨ st = 2 then (352, 98304) else if st = 3 then (352, 32768)
    else if st = 4 ∨ st = 5 then (352, 16384) else if st = 6 then (44, 2621440) else if st = 7 then (4, 8388608) else (0, 0)
  if u < lim.1 ∧ w < lim.2 then some (st, u, w) else none

/-- DIAGST.sram: data and check bits as given; what a later read decodes is the code's affair (R91, DESIGN CHOICE, log 10). -/
def execDiagstSram (x : TwoAB) (s : State) : Host.Outcome State Fault Refusal :=
  withIssue x.h false s fun c =>
    mgmtOp c (diagBlock c x.b 16 fun off =>
      match sramTarget (sysVal c x.a) with
      | none => trapW cNOTMAPPED 9
      | some k => diagRead c off 16 fun s v =>
        let d := fld v 0 64
        let s := sramPoke (sramDrop s k) k d
        done { s with sram := (k.1, k.2.1, k.2.2, d, fld v 64 8) :: s.sram } [])

/-- DIAGLD.sram: data and check bits as stored. A word whose data is open keeps what it was found to hold (DESIGN CHOICE, log 10, log
75). -/
def execDiagldSram (x : TwoAB) (s : State) : Host.Outcome State Fault Refusal :=
  withIssue x.h false s fun c =>
    mgmtOp c (diagBlock c x.b 16 fun off =>
      match sramTarget (sysVal c x.a) with
      | none => trapW cNOTMAPPED 9
      | some k =>
        let raw := (sramAt c.s k).getD (let d := sramPlain c.s k; (d, Config.sramCode 64 d))
        let s := tick c.s
        let s := if sramOpen c.s k then { sramDrop s k with sram := (k.1, k.2.1, k.2.2, raw.1, raw.2) :: s.sram } else s
        done (bufPut s c.t.r .a off 16 (raw.1 % 2 ^ 64 + raw.2 % 256 * 2 ^ 64)) [])

/-! Privileged registers (R397, R398). -/

/-- The checks that SWRITE and PRIVRD share: none where they pass, else the trap (DEDUCED, log 42). -/
def privCheck (c : Ctx) (num ld : Nat) (b : Opnd) (idx : Nat) : Option (Nat × Nat) :=
  match privReg num, privField num ld b with
  | none, _ => some (cILLOP, 5)
  | _, some f => some (cRSVFLD, f)
  | some r, none =>
    if (r.mgmt ∧ c.level ≠ .mgmt) ∨ (!r.pkg ∧ ld ≠ c.ld ∧ c.level ≠ .mgmt) then some (cPRIV, 2)
    else if num = 0x404 ∧ (frameEntPa c.s (idx * 2 ^ 16)).isNone then some (cILLOP, 7)
    else none

/-- The index operand: a zero field is no index. -/
def privIndex (c : Ctx) (b : Opnd) : Nat := if b = .v 0 then 0 else sysVal c b

/-- SWRITE (R397, R398). -/
def execSwrite (x : SwriteA) (s : State) : Host.Outcome State Fault Refusal :=
  withIssue x.h false s fun c =>
    if !c.any then done c.s []
    else
      let num := x.num.toNat
      let idx := privIndex c x.b
      let v := sysVal c x.a
      if (privReg num).any PrivReg.ro then trapW cILLOP 6
      else match privCheck c num x.ld.toNat x.b idx with
      | some e => trapW e.1 e.2
      | none =>
        if !privFits num v then trapW cILLOP 7
        else if num = 0x404 ∧ frameCount c.s (idx * 2 ^ 16) ≠ 0 then trapW cTREEOP 8
        else done (privWrite c.s x.ld.toNat num v idx) []

/-- PRIVRD (R397, R398). -/
def execPrivrd (x : PrivrdA) (s : State) : Host.Outcome State Fault Refusal :=
  withIssue x.h false s fun c =>
    if !c.any then done c.s []
    else
      let idx := privIndex c x.b
      match privCheck c x.num.toNat x.ld.toNat x.b idx with
      | some e => trapW e.1 e.2
      | none => resFree c (keysOf x.d 1) (setDst c.g x.d 1 c.low (privRead c.s x.ld.toNat x.num.toNat idx))

/-- REGISTER_WRITE (R398, R403, R46): a write by management code, or by a hart where only a hart writes, to a word of the
device-register area; an address below 2^20 stands for privileged register number pa mod 2^16 of logical device pa div 2^16
(of the package: LD 0), whose checks are those of SWRITE. -/
def execRegisterWrite (pa : Nat) (v : DWord) (s : State) : Host.Outcome State Fault Refusal :=
  agent s fun s =>
    if pa < 2 ^ 20 then
      let n := pa % 2 ^ 16
      let ld := pa / 2 ^ 16
      match privReg n with
      | none => s
      | some r => if r.ro || (r.pkg && ld != 0) || n == 0x404 || !privFits n v.toNat then s else privWrite s ld n v.toNat 0
    else
      let off := pa % 2 ^ 16
      devWrite (beforePort s pa v) (if off = 0x298 ∨ off = 0x2A8 then .hart 0 else .sup 0) (pa / 8 * 8) v

end Sys2Proof.Machine
end

