-- ==== Sys2Proof/Machine/Preempt.lean ====
section
/-! DEFINITION. Gangs leave their cores and come back: pre-emption, partition swap, system-call swap (spec/21_scheduling.md R417
to R423; spec/03_on_chip_memories.md R88 to R90; spec/07_instruction_format.md R199; spec/05_consistency.md R147;
spec/18_ladders.md R377; spec/20_system_instructions.md R389). -/

namespace Sys2Proof.Machine

/-! Room for a save (R88, R419). -/

/-- Bytes of a team's save: its allocations and the control state of a core (DEDUCED, log 34). -/
def teamSave (gr : Grid) (t : Team) : Nat := t.wlen + t.alen + t.clen + 128 * (groupRegs gr).sum + 2048 * stackUnits gr + 131072

/-- Bytes of a gang's save. -/
def gangSave (s : State) (k : GangRef) : Nat := match gridOf s k.ld k.grid with
  | none => 0
  | some gr => ((gangTeams s k).map (teamSave gr)).sum

/-- Is a gang's state in its logical device's save pool. -/
def inPool (g : Gang) : Bool := match g.place with
  | .preempted | .call none => true
  | _ => false

/-- Has a save pool room for a gang. -/
def poolRoom (s : State) (k : GangRef) : Bool :=
  ((s.gangs.filter fun g => g.r.ld == k.ld && inPool g).map fun g => gangSave s g.r).sum + gangSave s k ≤ 65536 * (qbWord s k.ld 0x248).toNat

/-- Is a cluster's shadow store in Partition state. -/
def inPartition (s : State) (c : Nat) : Bool := s.shadow.any fun p => p.1 == c

/-- The gangs whose call saves a shadow store holds. -/
def callSaves (s : State) (c : Nat) : List Gang := s.gangs.filter fun g => g.place == .call (some c)

/-- Has a shadow store room for a gang's call save (R88). -/
def shadowRoom (s : State) (c : Nat) (k : GangRef) : Bool :=
  !inPartition s c && ((callSaves s c).map fun g => gangSave s g.r).sum + gangSave s k ≤ 20971520

/-! Stopping (R418, R419, R147). -/

/-- Has a group far accesses under way. -/
def farBusy (s : State) (r : GroupRef) : Bool := s.far.any fun f => f.r == r && f.lanes != 0

/-- Change the groups of a gang. -/
def modGangGroups (s : State) (k : GangRef) (f : Group → Group) : State :=
  (gangTeams s k).foldl (fun s t => modTeam s t.r fun t => { t with groups := t.groups.map f }) s

/-- Has a group stopped for its save. -/
def stopped (g : Group) : Bool := g.ended || g.saved

/-- A group stops at an instruction boundary: all of it is to be saved. -/
def fullSave (g : Group) : Group := if stopped g then g else { g with saved := true, full := true }

/-- A gang runs on: nothing of it is to be saved. -/
def runOn (g : Group) : Group := { g with toSafe := false, saved := false, full := false, live := 0 }

/-- Have all groups of a gang stopped, with their far accesses performed. -/
def gangStopped (s : State) (k : GangRef) : Bool :=
  (gangTeams s k).all fun t => t.groups.all fun g => stopped g && !farBusy s ⟨t.r, g.id⟩

/-- Replies that came meanwhile are delivered, and what completed meanwhile is settled (R389). -/
def catchUp (s : State) (k : GangRef) : State :=
  (gangTeams s k).foldl (fun s t => match t.sys with
    | .replied v => sysDeliver s t.r v
    | _ => settle s t.r) s

/-! Live sets (R197, R199). -/

/-- A register store with only the registers of a set, numbered by key div n. -/
def keepRegs {w : Nat} (n : Nat) (live : Nat → Bool) (x : Store w) : Store w := x.filter fun c => live (c.1 / n)

/-- A group after it resumes: registers outside its live set read as zero, but for those of an open octet whose state is saved (R319). -/
def resumeRegs (mx : Bool) (g : Group) : Group :=
  if g.full then g
  else { g with
    v := keepRegs 32 (fun i => bit1 g.live (256 + i) || (mx && g.octets.any fun o => o.x ≤ i && i < o.x + 8)) g.v
    bank := ⟨keepRegs 1 (fun i => bit1 g.live (192 + i)) g.bank.g, keepRegs 1 (fun i => bit1 g.live (168 + i)) g.bank.p,
      keepRegs 1 (fun i => bit1 g.live (176 + i)) g.bank.m⟩ }

/-- Does any group of a team mark an item live, or has one taken a full save; all is kept of a team whose groups have all ended
(DEDUCED, log 35). -/
def teamLive (t : Team) (bit : Nat) : Bool := t.groups.all Group.ended || t.groups.any fun g => !g.ended && (g.full || bit1 g.live bit)

/-- The matrix state of a group where it has not been saved: no octet is open, and their registers read as zero. -/
def loseOctets (g : Group) : Group :=
  { g with v := g.v.filter fun c => !(g.octets.any fun o => o.x ≤ c.1 / 32 && c.1 / 32 < o.x + 8), octets := [] }

/-- A team after it resumes. -/
def resumeTeam (t : Team) : Team :=
  let w := teamLive t 160
  let a := teamLive t 161
  { t with
    w := if w then t.w else [], wfe := if w then t.wfe else []
    a := if a then t.a else [], afe := if a then t.afe else []
    c := if teamLive t 162 then t.c else []
    groups := t.groups.map fun g => runOn (resumeRegs (teamLive t 163) (if teamLive t 163 then g else loseOctets g)) }

/-! Leaving and coming back (R419, R377, R434). -/

/-- Timers stand still while a gang is out: what is left of a bin's time, what a handler has used. -/
def stopTimers (now : Nat) (g : Gang) : Gang :=
  { g with bins := g.bins.map fun l => l.map fun (b : Bin) => { b with due := b.due.map fun d => d - now } }

/-- They go on. -/
def startTimers (now : Nat) (g : Gang) : Gang :=
  { g with bins := g.bins.map fun l => l.map fun (b : Bin) => { b with due := b.due.map fun d => d + now } }

/-- A handler's cycles, counted from another moment. -/
def handlerClock (f : Nat → Nat) (g : Group) : Group :=
  { g with handler := g.handler.map fun h => { h with since := f h.since } }

/-- The team that a listed word is part of, and is the word part of what is saved of it. -/
def wordSaved (s : State) (k : SramKey) : Option (TeamRef × Bool) :=
  if k.1 = 0 then (regHolder s k.2.1 (k.2.2 / 16)).map fun h =>
    (h.1.team, h.2.2 ≥ h.2.1.budget || h.2.1.full || bit1 h.2.1.live (256 + h.2.2))
  else if k.1 = 4 then (stackHolder s k.2.1 k.2.2).map fun h => (h.1.team, true)
  else if k.1 = 5 then (controlHolder s k.2.1 k.2.2).map fun h => (h.1.team, h.2.2 = 0 || h.2.1.full || bit1 h.2.1.live (192 + h.2.2))
  else (storeBufOf k.1).bind fun b => (bufHolder s b k.2.1 k.2.2).map fun t => (t.r, teamLive t (match b with
    | .w => 160
    | .a => 161
    | .c => 162))

/-- The saved words of a gang pass through their decoder (R91): is one of them uncorrectable, and the machine after. -/
def saveWords (s : State) (k : GangRef) : Bool × State :=
  (s.sram.map fun e => (e.1, e.2.1, e.2.2.1)).foldl (fun acc key => match wordSaved acc.2 key with
    | none => acc
    | some (t, live) =>
      if gangKey acc.2 t != k then acc
      else if !live then (acc.1, sramDrop acc.2 key)
      else match sramRead acc.2 key key.2.1 (fun s x => sramPoke s key x) with
        | none => (true, sramDrop acc.2 key)
        | some s => (acc.1, s)) (false, s)

/-- The save of a gang goes to its logical device's pool (R419): where in the pool, and which bytes, nothing fixes (DESIGN CHOICE, log 13). -/
def poolWrite (s : State) (k : GangRef) : State :=
  let size := 65536 * (qbWord s k.ld 0x248).toNat
  let n := min size (gangSave s k)
  let base := (qbWord s k.ld 0x240).toNat + Config.freeNat s.frees % (size - n + 1)
  let bytes := (List.range n).map fun i => Config.freeByte (s.frees + 1 + i)
  let w := writeMem s base bytes
  { s with
    mem := w.mem, ecc := w.ecc, clearPend := w.clearPend, hot := w.hot, banks := w.banks, dcache := w.dcache
    hist := s.hist.filter fun x => !overlap x.loc x.old.length base n
    frees := s.frees + 1 + n }

/-- A stopped gang leaves its cores: what its places there held stays behind. -/
def leaveCores (s : State) (k : GangRef) (dest : Where) : State :=
  let s : State := { s with cycle := (gangTeams s k).foldl (fun m t => t.groups.foldl (fun m g => lastDue g m) m) s.cycle }
  let now := s.cycle
  let x := saveWords s k
  let s := modGangGroups x.2 k fun g => handlerClock (fun n => now - n) { g with outst := [], swPark := false, delay := 0 }
  let s := (gangTeams s k).foldl leaveTeam s
  let s := match dest.cluster with
    | some c => dropStale s 6 c 0 2621440
    | none => poolWrite s k
  modGang s k fun g => { stopTimers now g with place := dest, preempt := none, ue := g.ue || x.1 }

/-- Is a word of the shadow store that a gang comes back from uncorrectable, and part of its save (R91, R434) (DESIGN CHOICE, log 75). -/
def shadowBad (s : State) (w : Where) : Bool :=
  let bad (c : Nat) : Bool := s.sram.any fun e =>
    e.1 == 6 && e.2.1 == c && (Config.sramDecode 64 e.2.2.2.1 e.2.2.2.2).isNone && Config.freeBool (s.frees + e.2.2.1)
  w.cluster.any bad

/-- A team has its places on its core again: what they held before is gone. -/
def regainTeam (s : State) (t : Team) : State :=
  let s := t.vregs.foldl (fun s v => zeroWords s 0 t.core (16 * v.1) (16 * (v.1 + v.2))) s
  zeroBuf (zeroBuf (zeroBuf s .w t.core t.wbase t.wlen) .a t.core t.abase t.alen) .c t.core t.cbase t.clen

/-- A gang is on its cores again: its groups resume, its clocks go on; an uncorrectable word that it restored kills it. -/
def resumeGang (s : State) (k : GangRef) : State :=
  let now := s.cycle
  let bad := (gangOf s k).any fun g => g.ue || shadowBad s g.place
  let s := match (gangOf s k).bind fun g => g.place.cluster with
    | some c => addStale s k.ld 6 c 0 2621440
    | none => s
  let s := (gangTeams s k).foldl (fun s t => modTeam (regainTeam s t) t.r fun t =>
    resumeTeam { t with groups := t.groups.map (handlerClock fun n => now - n) }) s
  let s := modGang s k fun g => { startTimers now g with place := .resident, preempt := none, wanted := false, retry := 0, ue := false }
  if bad then killGang s k cUECONS 0 else catchUp s k

/-- A team of a gang that comes back gets its places on a core. -/
def replaceTeam (s : State) (gr : Grid) (r : TeamRef) (core : Nat) : State :=
  let x := allocate s gr core
  modTeam x.2 r fun t => { t with
    core := core, wbase := x.1.w, abase := x.1.a, cbase := x.1.c, barBase := x.1.bar
    vregs := x.1.regs.zipIdx.map fun v => if t.groups.any (fun g => g.id == v.2 && g.isLaunch && g.ended) then (0, 0) else v.1
    groups := t.groups.map fun g => { g with vbase := (x.1.regs.getD g.id (0, 0)).1 } }

/-- A gang comes back to some cores (R420, R423). -/
def comeBack (s : State) (gr : Grid) (k : GangRef) (cores : List Nat) : State :=
  let s := (gangTeams s k).foldl (fun s t => replaceTeam s gr t.r (cores.getD t.member 0)) s
  resumeGang { s with lastCore := cores.getLastD s.lastCore, lastLd := k.ld } k

/-! Pre-emption (R417 to R420). -/

/-- Once every group has stopped the gang leaves for the save pool; without room there it runs on, to be tried again after
100 µs. -/
def tryLeave (s : State) (k : GangRef) : State := match gangOf s k with
  | none => s
  | some g =>
    if g.preempt.isNone || !gangStopped s k then s
    else if poolRoom s k then leaveCores s k .preempted
    else catchUp (modGang (modGangGroups s k runOn) k fun g => { g with preempt := none, retry := s.cycle + 300000 }) k

/-- A pre-emption begins: its groups run to safe points within PREWIN. -/
def beginPreempt (s : State) (k : GangRef) : State :=
  let d := s.cycle + 3000 * (qbWord s k.ld 0x250).toNat
  tryLeave (modGang (modGangGroups s k fun g => { g with toSafe := true }) k fun g => { g with preempt := some d, retry := 0 }) k

/-- Is a gang being removed from its cores. -/
def removing (s : State) (k : GangRef) : Bool := ((gangOf s k).map fun g => g.preempt.isSome).getD false

/-- The priority and ready sequence of a gang's grid. -/
def gangRank (s : State) (g : Gang) : Nat × Nat := ((gridOf s g.r.ld g.r.grid).map fun x => (x.prio, x.readySeq)).getD (0, 0)

/-- Is a gang chosen rather than another: priority, then the grid ready last, then the gang's index. -/
def chosenBefore (s : State) (a b : Gang) : Bool :=
  let key (g : Gang) : List Int := [((gangRank s g).1 : Int), -((gangRank s g).2 : Int), -(g.r.gang : Int)]
  key a < key b

/-- The gang whose removal lets a candidate fit (R417). -/
def victim (s : State) (c : Cand) : Option Gang :=
  (s.gangs.filter fun g => g.r.ld == c.k.ld && g.place == .resident && g.preempt.isNone && (gangRank s g).1 < c.gr.prio &&
    (fitsWhere s c.gr c.only fun k => k == g.r || removing s k).isSome).foldl (fun o g => match o with
      | none => some g
      | some h => if chosenBefore s g h then some g else some h) none

/-- PREEMPT_TRIGGER: a candidate has fitted nowhere for 100 µs. One that will fit once the gangs being removed have left
chooses no further gang. -/
def execPreemptTrigger (ld : Nat) (s : State) : Host.Outcome State Fault Refusal :=
  agent s fun s =>
    let s := noteUnfit s
    match candidate s ld, s.unfit.find? fun u => u.1 == ld with
    | some c, some u =>
      if (fitsWhere s c.gr c.only (removing s)).isSome then s
      else match victim s c with
        | none => s
        | some g =>
          let s : State := { s with cycle := max s.cycle (u.2.2.2 + 300000) }
          if g.retry = 0 then beginPreempt s g.r else s
    | _, _ => s

/-- The safe points of a group's entries, where every one stands at one. -/
def safePoints (gr : Grid) (g : Group) : Option (List Nat) :=
  if g.handler.isSome || g.pendTrap.isSome then none
  else g.frontier.foldl (fun o e => o.bind fun l => (safeAt gr e.pc).map fun x => x :: l) (some [])

/-- PREEMPT_SAFE_SAVE: every entry of a group stands at a safe point. -/
def execPreemptSafeSave (r : GroupRef) (s : State) : Host.Outcome State Fault Refusal :=
  agent s fun s => match gridOf s r.team.ld r.team.grid, groupOf s r with
  | some gr, some g =>
    if !(g.toSafe && !stopped g && !farBusy s r) then s
    else match safePoints gr g with
      | none => s
      | some l =>
        let s : State := { s with cycle := lastDue g s.cycle }
        tryLeave (modGroup s r fun g =>
          { g with saved := true, live := l.foldl (fun a b => a ||| b) 0, outst := [], swPark := false, delay := 0 }) (gangKey s r.team)
  | _, _ => s

/-- PREWIN_EXPIRE: groups that have not stopped by then take a full save. -/
def execPrewinExpire (k : GangRef) (s : State) : Host.Outcome State Fault Refusal :=
  agent s fun s => match (gangOf s k).bind Gang.preempt with
  | none => s
  | some d => tryLeave (modGangGroups { s with cycle := max s.cycle d } k fullSave) k

/-- PREEMPT_RETRY: a pre-emption that found no room is tried again (DEDUCED, log 58). -/
def execPreemptRetry (k : GangRef) (s : State) : Host.Outcome State Fault Refusal :=
  agent s fun s => match gangOf s k with
  | none => s
  | some g =>
    if g.retry = 0 ∨ g.place ≠ .resident ∨ g.preempt.isSome then s
    else beginPreempt { s with cycle := max s.cycle g.retry } k

/-- The turn's candidate where it is a gang that comes back from a place that p admits. -/
def turnOf (s : State) (k : GangRef) (p : Where → Bool) : Option (Grid × List Nat) := match nextTurn s with
  | some (c, some cores) => match c.back with
    | some g => if g.r = k ∧ p g.place then some (c.gr, cores) else none
    | none => none
  | _ => none

/-- PREEMPT_RETURN. -/
def execPreemptReturn (k : GangRef) (s : State) : Host.Outcome State Fault Refusal :=
  agent s fun s => match turnOf s k fun w => w == .preempted with
  | none => s
  | some x => comeBack s x.1 k x.2

/-! System-call swap (R389, R423). -/

/-- Does a whole gang wait for replies, with nothing of it running. -/
def allWait (s : State) (k : GangRef) : Bool :=
  let ts := gangTeams s k
  inSyscall ts && ts.all fun t => t.groups.all fun g => g.isLaunch && !g.saved && !farBusy s ⟨t.r, g.id⟩

/-- SYSCALL_SWAP_OUT: to the shadow store, else to the save pool, else the gang stays. -/
def execSyscallSwapOut (k : GangRef) (s : State) : Host.Outcome State Fault Refusal :=
  agent s fun s => match gangOf s k with
  | none => s
  | some g =>
    if !(g.place == .resident && g.preempt.isNone && allWait s k) then s
    else
      let c := (((gangTeams s k).head?).map Team.core).getD 0 / 8
      let s' := modGangGroups s k fullSave
      if shadowRoom s c k then leaveCores s' k (.call (some c))
      else if poolRoom s k then leaveCores s' k (.call none) else s

/-- SYSCALL_GANG_RETURN. -/
def execSyscallGangReturn (k : GangRef) (s : State) : Host.Outcome State Fault Refusal :=
  agent s fun s => match turnOf s k fun w => match w with
    | .call _ => true
    | _ => false with
  | none => s
  | some x => comeBack s x.1 k x.2

/-! Partition swap (R421, R422). -/

/-- The clusters a PSWAP names. -/
def swapClusters (c : Nat) : List Nat := (List.range 44).filter fun i => bit1 (cmdVal c) i

/-- The gangs on some clusters. -/
def gangsOn (s : State) (cl : List Nat) : List Gang :=
  s.gangs.filter fun g => g.place == .resident && (gangTeams s g.r).any fun t => cl.contains (t.core / 8)

/-- Call saves of some clusters' stores move to save areas that have room (R89); a word that is uncorrectable is found when the gang comes
back. -/
def moveCalls (s : State) (cl : List Nat) : State :=
  (cl.flatMap (callSaves s)).foldl (fun s g =>
    if poolRoom s g.r then modGang (poolWrite s g.r) g.r fun g => { g with place := .call none, ue := g.ue || shadowBad s g.place } else s) s

/-- May a PSWAP be given in a queue, for a logical device. -/
def swapAllowed (k : QueueRef) (c : Nat) : Bool := k.ld == 0 && k.q == 8 && cmdImm c % 16 != 0

/-- One stage of a swap-out: other devices' gangs are pre-empted, call saves moved, the cores halted; once all of that is
done the gangs go to the stores. -/
def swapOut (s : State) (k : QueueRef) (c ld : Nat) (cl : List Nat) : State :=
  let others := (gangsOn s cl).filter fun g => g.r.ld != ld
  let s := (others.filter fun g => g.preempt.isNone && g.retry == 0).foldl (fun s g => beginPreempt s g.r) s
  let s := moveCalls s cl
  let left := (gangsOn s cl).any fun g => g.r.ld != ld
  if left || (cl.any fun i => inPartition s i || !(callSaves s i).isEmpty) || (gangsOn s cl).any fun g => g.preempt.isSome then s
  else
    let gs := gangsOn s cl
    let s := gs.foldl (fun s g => modGangGroups s g.r fullSave) s
    if gs.all fun g => gangStopped s g.r then
      let s := gs.foldl (fun s g => leaveCores s g.r (.partition ((((gangTeams s g.r).head?).map Team.core).getD 0 / 8))) s
      queueNext { s with shadow := s.shadow ++ cl.map fun i => (i, ld) } k
    else queueWait s k c

/-- PSWAP_OUT (DEDUCED, log 26). -/
def execPswapOut (k : QueueRef) (s : State) : Host.Outcome State Fault Refusal :=
  queueCommand k (fun c => cmdCode c == 10 && !bit1 (cmdFlags c) 0) s fun s _ c p =>
    if !swapAllowed k c then stopQueue s k 0x0C p else swapOut (queueWait s k c) k c (cmdImm c % 16) (swapClusters c)

/-- PSWAP_IN: once the clusters hold no team, their partitions of the device are restored. -/
def execPswapIn (k : QueueRef) (s : State) : Host.Outcome State Fault Refusal :=
  queueCommand k (fun c => cmdCode c == 10 && bit1 (cmdFlags c) 0) s fun s _ c p =>
    if !swapAllowed k c then stopQueue s k 0x0C p
    else
      let cl := swapClusters c
      if !(gangsOn s cl).isEmpty then queueWait s k c
      else
        let ld := cmdImm c % 16
        let mine := cl.filter fun i => s.shadow.contains (i, ld)
        let gs := s.gangs.filter fun g => g.r.ld == ld && match g.place with
          | .partition i => mine.contains i
          | _ => false
        let s := gs.foldl (fun s g => resumeGang s g.r) s
        queueNext { s with shadow := s.shadow.filter fun p => !(mine.contains p.1 && p.2 == ld) } k

end Sys2Proof.Machine
end

