-- ==== Sys2Proof/Machine/Dispatch.lean ====
section
/-! DEFINITION. The meaning of every step: one arm for each constructor of Instr, each one direct call. -/

namespace Sys2Proof.Machine

open Sys2Proof

/-- What a step does (the opcode table, row by row). -/
def exec (i : Instr) (s : State) : Host.Outcome State Fault Refusal :=
  match i with
  | .powerOn => Sys2Proof.Machine.execPowerOn s
  | .powerDown => Sys2Proof.Machine.execPowerDown s
  | .cxlConventionalReset => Sys2Proof.Machine.execCxlConventionalReset s
  | .pkgrst v => Sys2Proof.Machine.execPkgrst v s
  | .powerLimitExceeded => Sys2Proof.Machine.execPowerLimitExceeded s
  | .thermalIssueLimit die => Sys2Proof.Machine.execThermalIssueLimit die s
  | .thermalHalt die => Sys2Proof.Machine.execThermalHalt die s
  | .expanderLinkDown port => Sys2Proof.Machine.execExpanderLinkDown port s
  | .explink port v => Sys2Proof.Machine.execExplink port v s
  | .expanderLinkTrained port => Sys2Proof.Machine.execExpanderLinkTrained port s
  | .networkPortLinkChange eth port up => Sys2Proof.Machine.execNetworkPortLinkChange eth port up s
  | .driveError req status => Sys2Proof.Machine.execDriveError req status s
  | .issue core quarter => Sys2Proof.Machine.execIssue core quarter s
  | .switchMarkerUnpark r => Sys2Proof.Machine.execSwitchMarkerUnpark r s
  | .issueDelayExpire r => Sys2Proof.Machine.execIssueDelayExpire r s
  | .iadd x => Sys2Proof.Machine.execIadd x s
  | .isub x => Sys2Proof.Machine.execIsub x s
  | .imul x => Sys2Proof.Machine.execImul x s
  | .imulh x => Sys2Proof.Machine.execImulh x s
  | .imad x => Sys2Proof.Machine.execImad x s
  | .imin x => Sys2Proof.Machine.execImin x s
  | .imax x => Sys2Proof.Machine.execImax x s
  | .iabs x => Sys2Proof.Machine.execIabs x s
  | .ineg x => Sys2Proof.Machine.execIneg x s
  | .and x => Sys2Proof.Machine.execAnd x s
  | .or x => Sys2Proof.Machine.execOr x s
  | .xor x => Sys2Proof.Machine.execXor x s
  | .andn x => Sys2Proof.Machine.execAndn x s
  | .not x => Sys2Proof.Machine.execNot x s
  | .shl x => Sys2Proof.Machine.execShl x s
  | .shr x => Sys2Proof.Machine.execShr x s
  | .sar x => Sys2Proof.Machine.execSar x s
  | .rol x => Sys2Proof.Machine.execRol x s
  | .popc x => Sys2Proof.Machine.execPopc x s
  | .clz x => Sys2Proof.Machine.execClz x s
  | .brev x => Sys2Proof.Machine.execBrev x s
  | .bfx x => Sys2Proof.Machine.execBfx x s
  | .bfi x => Sys2Proof.Machine.execBfi x s
  | .bsel x => Sys2Proof.Machine.execBsel x s
  | .icmp x => Sys2Proof.Machine.execIcmp x s
  | .lea x => Sys2Proof.Machine.execLea x s
  | .iaddx x => Sys2Proof.Machine.execIaddx x s
  | .fadd x => Sys2Proof.Machine.execFadd x s
  | .fsub x => Sys2Proof.Machine.execFsub x s
  | .fmul x => Sys2Proof.Machine.execFmul x s
  | .ffma x => Sys2Proof.Machine.execFfma x s
  | .fmin x => Sys2Proof.Machine.execFmin x s
  | .fmax x => Sys2Proof.Machine.execFmax x s
  | .fcmp x => Sys2Proof.Machine.execFcmp x s
  | .frcp x => Sys2Proof.Machine.execFrcp x s
  | .frsq x => Sys2Proof.Machine.execFrsq x s
  | .fsqrt x => Sys2Proof.Machine.execFsqrt x s
  | .fex2 x => Sys2Proof.Machine.execFex2 x s
  | .flg2 x => Sys2Proof.Machine.execFlg2 x s
  | .fsin x => Sys2Proof.Machine.execFsin x s
  | .fcos x => Sys2Proof.Machine.execFcos x s
  | .fclass x => Sys2Proof.Machine.execFclass x s
  | .fscale x => Sys2Proof.Machine.execFscale x s
  | .cvt x => Sys2Proof.Machine.execCvt x s
  | .padd2 x => Sys2Proof.Machine.execPadd2 x s
  | .pmul2 x => Sys2Proof.Machine.execPmul2 x s
  | .pfma2 x => Sys2Proof.Machine.execPfma2 x s
  | .lsemrg x => Sys2Proof.Machine.execLsemrg x s
  | .mov x => Sys2Proof.Machine.execMov x s
  | .movi x => Sys2Proof.Machine.execMovi x s
  | .sel x => Sys2Proof.Machine.execSel x s
  | .pset x => Sys2Proof.Machine.execPset x s
  | .pmovTov x => Sys2Proof.Machine.execPmovTov x s
  | .pmovFromv x => Sys2Proof.Machine.execPmovFromv x s
  | .sread x => Sys2Proof.Machine.execSread x s
  | .modset x => Sys2Proof.Machine.execModset x s
  | .bndset x => Sys2Proof.Machine.execBndset x s
  | .bra x => Sys2Proof.Machine.execBra x s
  | .brx x => Sys2Proof.Machine.execBrx x s
  | .call x => Sys2Proof.Machine.execCall x s
  | .callx x => Sys2Proof.Machine.execCallx x s
  | .ret x => Sys2Proof.Machine.execRet x s
  | .exit x => Sys2Proof.Machine.execExit x s
  | .rcv x => Sys2Proof.Machine.execRcv x s
  | .rcvComplete r pc => Sys2Proof.Machine.execRcvComplete r pc s
  | .yield x => Sys2Proof.Machine.execYield x s
  | .sleep x => Sys2Proof.Machine.execSleep x s
  | .part x => Sys2Proof.Machine.execPart x s
  | .vote x => Sys2Proof.Machine.execVote x s
  | .shfl x => Sys2Proof.Machine.execShfl x s
  | .reduce x => Sys2Proof.Machine.execReduce x s
  | .scan x => Sys2Proof.Machine.execScan x s
  | .bcast x => Sys2Proof.Machine.execBcast x s
  | .collectiveConverge r lane => Sys2Proof.Machine.execCollectiveConverge r lane s
  | .bara x => Sys2Proof.Machine.execBara x s
  | .barw x => Sys2Proof.Machine.execBarw x s
  | .bars x => Sys2Proof.Machine.execBars x s
  | .tbar x => Sys2Proof.Machine.execTbar x s
  | .gbar x => Sys2Proof.Machine.execGbar x s
  | .ldw x => Sys2Proof.Machine.execLdw x s
  | .lda x => Sys2Proof.Machine.execLda x s
  | .ldc x => Sys2Proof.Machine.execLdc x s
  | .sta x => Sys2Proof.Machine.execSta x s
  | .stc x => Sys2Proof.Machine.execStc x s
  | .acc x => Sys2Proof.Machine.execAcc x s
  | .feWaitSatisfied r lane => Sys2Proof.Machine.execFeWaitSatisfied r lane s
  | .ldfrag x => Sys2Proof.Machine.execLdfrag x s
  | .stfrag x => Sys2Proof.Machine.execStfrag x s
  | .feset x => Sys2Proof.Machine.execFeset x s
  | .feclr x => Sys2Proof.Machine.execFeclr x s
  | .feprobe x => Sys2Proof.Machine.execFeprobe x s
  | .lds x => Sys2Proof.Machine.execLds x s
  | .sts x => Sys2Proof.Machine.execSts x s
  | .stackSpill r lane => Sys2Proof.Machine.execStackSpill r lane s
  | .stackFill r lane => Sys2Proof.Machine.execStackFill r lane s
  | .fld x => Sys2Proof.Machine.execFld x s
  | .fst x => Sys2Proof.Machine.execFst x s
  | .fatom x => Sys2Proof.Machine.execFatom x s
  | .fcas x => Sys2Proof.Machine.execFcas x s
  | .fence x => Sys2Proof.Machine.execFence x s
  | .farAccessPerformed id => Sys2Proof.Machine.execFarAccessPerformed id s
  | .farTimeout id => Sys2Proof.Machine.execFarTimeout id s
  | .hostRefusal id => Sys2Proof.Machine.execHostRefusal id s
  | .mma x => Sys2Proof.Machine.execMma x s
  | .mmam x => Sys2Proof.Machine.execMmam x s
  | .scacc x => Sys2Proof.Machine.execScacc x s
  | .cbld x => Sys2Proof.Machine.execCbld x s
  | .mdrain x => Sys2Proof.Machine.execMdrain x s
  | .mdrainRaw x => Sys2Proof.Machine.execMdrainRaw x s
  | .mfill x => Sys2Proof.Machine.execMfill x s
  | .mfillRaw x => Sys2Proof.Machine.execMfillRaw x s
  | .creq x => Sys2Proof.Machine.execCreq x s
  | .kick x => Sys2Proof.Machine.execKick x s
  | .kickRoom r lane => Sys2Proof.Machine.execKickRoom r lane s
  | .cseal x => Sys2Proof.Machine.execCseal x s
  | .csealRoom r lane => Sys2Proof.Machine.execCsealRoom r lane s
  | .cwait x => Sys2Proof.Machine.execCwait x s
  | .cwaitReturn r lane => Sys2Proof.Machine.execCwaitReturn r lane s
  | .copyLinear core => Sys2Proof.Machine.execCopyLinear core s
  | .copyTiled core => Sys2Proof.Machine.execCopyTiled core s
  | .copyGather core => Sys2Proof.Machine.execCopyGather core s
  | .copyScatter core => Sys2Proof.Machine.execCopyScatter core s
  | .copyImage core => Sys2Proof.Machine.execCopyImage core s
  | .stread core => Sys2Proof.Machine.execStread core s
  | .stwrite core => Sys2Proof.Machine.execStwrite core s
  | .stflush core => Sys2Proof.Machine.execStflush core s
  | .copyRequestDone req => Sys2Proof.Machine.execCopyRequestDone req s
  | .arrivalDecrement op => Sys2Proof.Machine.execArrivalDecrement op s
  | .sbind x => Sys2Proof.Machine.execSbind x s
  | .sgo x => Sys2Proof.Machine.execSgo x s
  | .srel x => Sys2Proof.Machine.execSrel x s
  | .awaitObj x => Sys2Proof.Machine.execAwaitObj x s
  | .awaitSlot x => Sys2Proof.Machine.execAwaitSlot x s
  | .awaitReturn r lane => Sys2Proof.Machine.execAwaitReturn r lane s
  | .astatObj x => Sys2Proof.Machine.execAstatObj x s
  | .astatSlot x => Sys2Proof.Machine.execAstatSlot x s
  | .stile t w => Sys2Proof.Machine.execStile t w s
  | .stileFillDone t w => Sys2Proof.Machine.execStileFillDone t w s
  | .sgather t w => Sys2Proof.Machine.execSgather t w s
  | .sloop t w => Sys2Proof.Machine.execSloop t w s
  | .snext t w => Sys2Proof.Machine.execSnext t w s
  | .scond t w => Sys2Proof.Machine.execScond t w s
  | .sjmp t w => Sys2Proof.Machine.execSjmp t w s
  | .swaitr t w => Sys2Proof.Machine.execSwaitr t w s
  | .swaitrReleased t w => Sys2Proof.Machine.execSwaitrReleased t w s
  | .swaitp t w => Sys2Proof.Machine.execSwaitp t w s
  | .swaitpLatched t w => Sys2Proof.Machine.execSwaitpLatched t w s
  | .ssig t w => Sys2Proof.Machine.execSsig t w s
  | .shalt t w => Sys2Proof.Machine.execShalt t w s
  | .snop t w => Sys2Proof.Machine.execSnop t w s
  | .streamBadWord t w => Sys2Proof.Machine.execStreamBadWord t w s
  | .streamAutoEnd t w => Sys2Proof.Machine.execStreamAutoEnd t w s
  | .nbreq x => Sys2Proof.Machine.execNbreq x s
  | .nbCopy op => Sys2Proof.Machine.execNbCopy op s
  | .nbRelayout op => Sys2Proof.Machine.execNbRelayout op s
  | .nbReduce op => Sys2Proof.Machine.execNbReduce op s
  | .nbScale op => Sys2Proof.Machine.execNbScale op s
  | .attq x => Sys2Proof.Machine.execAttq x s
  | .attentionCommand op => Sys2Proof.Machine.execAttentionCommand op s
  | .kvget x => Sys2Proof.Machine.execKvget x s
  | .kvput x => Sys2Proof.Machine.execKvput x s
  | .kvlnkSucc x => Sys2Proof.Machine.execKvlnkSucc x s
  | .kvlnkTok x => Sys2Proof.Machine.execKvlnkTok x s
  | .lspawn x => Sys2Proof.Machine.execLspawn x s
  | .lspawnClose x => Sys2Proof.Machine.execLspawnClose x s
  | .lspawnRoom r lane => Sys2Proof.Machine.execLspawnRoom r lane s
  | .lesc x => Sys2Proof.Machine.execLesc x s
  | .lescRoom r lane => Sys2Proof.Machine.execLescRoom r lane s
  | .ldone x => Sys2Proof.Machine.execLdone x s
  | .lstat x => Sys2Proof.Machine.execLstat x s
  | .binLaunch k lad rung => Sys2Proof.Machine.execBinLaunch k lad rung s
  | .binStarveExpire k lad rung => Sys2Proof.Machine.execBinStarveExpire k lad rung s
  | .commitRun t lad => Sys2Proof.Machine.execCommitRun t lad s
  | .ladderPatch t lad rung => Sys2Proof.Machine.execLadderPatch t lad rung s
  | .syscall x => Sys2Proof.Machine.execSyscall x s
  | .syscallPost t => Sys2Proof.Machine.execSyscallPost t s
  | .syscallSwapOut k => Sys2Proof.Machine.execSyscallSwapOut k s
  | .syscallGangReturn k => Sys2Proof.Machine.execSyscallGangReturn k s
  | .replytok hart ld token => Sys2Proof.Machine.execReplytok hart ld token s
  | .trap x => Sys2Proof.Machine.execTrap x s
  | .bkpt x => Sys2Proof.Machine.execBkpt x s
  | .featq x => Sys2Proof.Machine.execFeatq x s
  | .refresh x => Sys2Proof.Machine.execRefresh x s
  | .nop x => Sys2Proof.Machine.execNop x s
  | .eret x => Sys2Proof.Machine.execEret x s
  | .eretSkip x => Sys2Proof.Machine.execEretSkip x s
  | .handlerWatchdog r => Sys2Proof.Machine.execHandlerWatchdog r s
  | .tnode x => Sys2Proof.Machine.execTnode x s
  | .tset x => Sys2Proof.Machine.execTset x s
  | .rswap x => Sys2Proof.Machine.execRswap x s
  | .rcopy x => Sys2Proof.Machine.execRcopy x s
  | .rdrop x => Sys2Proof.Machine.execRdrop x s
  | .rdropNode x => Sys2Proof.Machine.execRdropNode x s
  | .tinv x => Sys2Proof.Machine.execTinv x s
  | .reclaimRelease ld => Sys2Proof.Machine.execReclaimRelease ld s
  | .rqcons ld v => Sys2Proof.Machine.execRqcons ld v s
  | .treeportTnode hart w => Sys2Proof.Machine.execTreeportTnode hart w s
  | .treeportTset hart w => Sys2Proof.Machine.execTreeportTset hart w s
  | .treeportRswap hart w => Sys2Proof.Machine.execTreeportRswap hart w s
  | .treeportRcopy hart w => Sys2Proof.Machine.execTreeportRcopy hart w s
  | .treeportRdrop hart w => Sys2Proof.Machine.execTreeportRdrop hart w s
  | .treeportTinv hart w => Sys2Proof.Machine.execTreeportTinv hart w s
  | .ldreset x => Sys2Proof.Machine.execLdreset x s
  | .ldresetComplete ld => Sys2Proof.Machine.execLdresetComplete ld s
  | .clearPendingLine line => Sys2Proof.Machine.execClearPendingLine line s
  | .diagstHbm x => Sys2Proof.Machine.execDiagstHbm x s
  | .diagstSram x => Sys2Proof.Machine.execDiagstSram x s
  | .diagldHbm x => Sys2Proof.Machine.execDiagldHbm x s
  | .diagldSram x => Sys2Proof.Machine.execDiagldSram x s
  | .swrite x => Sys2Proof.Machine.execSwrite x s
  | .privrd x => Sys2Proof.Machine.execPrivrd x s
  | .registerWrite pa v => Sys2Proof.Machine.execRegisterWrite pa v s
  | .queueDescriptorWrite k word v => Sys2Proof.Machine.execQueueDescriptorWrite k word v s
  | .queueDoorbell k tail => Sys2Proof.Machine.execQueueDoorbell k tail s
  | .launch k => Sys2Proof.Machine.execLaunch k s
  | .loop k => Sys2Proof.Machine.execLoop k s
  | .endloop k => Sys2Proof.Machine.execEndloop k s
  | .cond k => Sys2Proof.Machine.execCond k s
  | .jump k => Sys2Proof.Machine.execJump k s
  | .wait k => Sys2Proof.Machine.execWait k s
  | .waitSatisfied k => Sys2Proof.Machine.execWaitSatisfied k s
  | .write k => Sys2Proof.Machine.execWrite k s
  | .drain k => Sys2Proof.Machine.execDrain k s
  | .drainDone k => Sys2Proof.Machine.execDrainDone k s
  | .halt k => Sys2Proof.Machine.execHalt k s
  | .pswapOut k => Sys2Proof.Machine.execPswapOut k s
  | .pswapIn k => Sys2Proof.Machine.execPswapIn k s
  | .migrate k => Sys2Proof.Machine.execMigrate k s
  | .migrateResult req => Sys2Proof.Machine.execMigrateResult req s
  | .invalidCommand k => Sys2Proof.Machine.execInvalidCommand k s
  | .gridDependencesMet ld grid => Sys2Proof.Machine.execGridDependencesMet ld grid s
  | .dispatchPlace => Sys2Proof.Machine.execDispatchPlace s
  | .teamStart t => Sys2Proof.Machine.execTeamStart t s
  | .teamExit t => Sys2Proof.Machine.execTeamExit t s
  | .writeback t => Sys2Proof.Machine.execWriteback t s
  | .gridComplete ld grid => Sys2Proof.Machine.execGridComplete ld grid s
  | .preemptTrigger ld => Sys2Proof.Machine.execPreemptTrigger ld s
  | .preemptSafeSave r => Sys2Proof.Machine.execPreemptSafeSave r s
  | .prewinExpire k => Sys2Proof.Machine.execPrewinExpire k s
  | .preemptRetry k => Sys2Proof.Machine.execPreemptRetry k s
  | .preemptReturn k => Sys2Proof.Machine.execPreemptReturn k s
  | .deadlockTest k => Sys2Proof.Machine.execDeadlockTest k s
  | .gangRelaunch k => Sys2Proof.Machine.execGangRelaunch k s
  | .endgrid ld grid => Sys2Proof.Machine.execEndgrid ld grid s
  | .hostHdmRead ld off size => Sys2Proof.Machine.execHostHdmRead ld off size s
  | .hostHdmWrite ld off bytes => Sys2Proof.Machine.execHostHdmWrite ld off bytes s
  | .netTailWrite ld pair tail => Sys2Proof.Machine.execNetTailWrite ld pair tail s
  | .netWrite op => Sys2Proof.Machine.execNetWrite op s
  | .netWriteNotify op => Sys2Proof.Machine.execNetWriteNotify op s
  | .netRead op => Sys2Proof.Machine.execNetRead op s
  | .netReceive p => Sys2Proof.Machine.execNetReceive p s
  | .netCompletion op => Sys2Proof.Machine.execNetCompletion op s
  | .netRetransmitTimeout op => Sys2Proof.Machine.execNetRetransmitTimeout op s
  | .hotnessIntervalEnd stack => Sys2Proof.Machine.execHotnessIntervalEnd stack s
  | .patrolScrub stack pc => Sys2Proof.Machine.execPatrolScrub stack pc s
  | .hotListScrub stack pc => Sys2Proof.Machine.execHotListScrub stack pc s
  | .rowCloseTimeout stack pc bank => Sys2Proof.Machine.execRowCloseTimeout stack pc bank s
  | .dieCooled die => Sys2Proof.Machine.execDieCooled die s
  | .powerDrawWithinLimit => Sys2Proof.Machine.execPowerDrawWithinLimit s
  | .nimbusHartAccess hart op => Sys2Proof.Machine.execNimbusHartAccess hart op s
  | .dramRefresh stack pc bank => Sys2Proof.Machine.execDramRefresh stack pc bank s

end Sys2Proof.Machine
end

