-- ==== Sys2Proof/Machine/Step.lean ====
section
/-! DEFINITION. One step of the package: the instruction of the entry that issues, else the step asked for, else the step
that comes about next. -/

namespace Sys2Proof.Machine

/-- One step (DESIGN CHOICE, log 3): where an entry issues, its instruction is fetched, checked and acts; else the first step of the
agenda comes about; else a step that nothing fixes. -/
def step (s : State) : Host.Outcome State Fault Refusal :=
  match s.issuing with
  | some u => match issueStep s u with
    | .stop s => .next s
    | .run i s => afterIssue s u i (exec i (closeFor s u i))
  | none => match nextOf s with
    | (i, s) => exec i s

/-- The machine with an instruction stored where the next step fetches it (DESIGN CHOICE, log 4). -/
def State.withFetchWord (s : State) (nbits w : Nat) : State := benchWord s nbits w

end Sys2Proof.Machine
end

