-- ==== Sys2Proof/Safety.lean ====
section
/-! DEFINITION. The terms in which the statements speak: the canonical form of memory, the context in which an instruction
of the issuing entry runs, and what it means that the instruction ends without a trap. -/

namespace Sys2Proof.Machine

/-- The canonical form of memory: addresses strictly rising, no listed byte equal to what an unlisted one reads as. -/
def Memory.wf (m : List Host.Cell) : Bool := stWf m

/-- A state whose memory has the canonical form. -/
def Safe (s : State) : Prop := Memory.wf s.mem = true

/-- The context of an instruction with a header, in the state in which its entry issues: the issuing entry's team, group
and grid, and the lanes whose guard is true (R181); none where no entry issues. -/
def ctxOf (s : State) (h : Hdr) : Option Ctx := match s.issuing with
  | none => none
  | some u => match teamOf s u.r.team, groupOf s u.r, gridOf s u.r.team.ld u.r.team.grid with
    | some t, some g, some gr => some ⟨s, t, g, gr, u, activeMask g h u.mask⟩
    | _, _, _ => none

/-- How a step ends. -/
abbrev Out := Host.Outcome State Fault Refusal

/-- A frontier in which the lanes of the issuing entry have moved to PC + 12 and become ready (R155). -/
def movedFront (c : Ctx) (f : List Entry) : List Entry := addReady (others c.u f) ⟨nextPc c.u.pc, c.u.prio, c.u.mask, 0, .ready⟩

/-- The instruction ends without a trap: a next state t in which no entry issues and the group is g. -/
def EndsIn (c : Ctx) (o : Out) (t : State) (g : Group) : Prop := o = .next t ∧ t.issuing = none ∧ groupOf t c.r = some g

/-- The instruction ends without a trap, its lanes move to PC + 12, and P holds of the next state and the group's new
state. -/
def GoesOn (c : Ctx) (o : Out) (P : State → Group → Prop) : Prop :=
  ∃ t g, EndsIn c o t g ∧ frontOf g = movedFront c (frontOf c.g) ∧ P t g

/-- Does a register discard writes: g0, p7 and b0 (R68, R74). -/
def discards : Opnd → Bool
  | .g n => n == 0
  | .sp sel idx => (sel == 0 && idx == 7) || (sel == 2 && idx == 0)
  | _ => false

/-- What a register of w 32-bit parts reads as once a value has been written to it: a vector register keeps the low 32 bits,
g0 reads as zero. -/
def seen (d : Opnd) (w : Nat) (x : DWord) : DWord :=
  if discards d then 0 else if d.isV && w < 2 then (x.setWidth 32).setWidth 64 else x

/-- The lane for which a destination's value is computed: each active lane for a vector register, the lowest active lane
for a uniform register (R180). -/
def laneFor (c : Ctx) (d : Opnd) (l : Nat) : Nat := if d.isV then l else c.low

/-- The instruction computes its destination in every active lane and goes on. -/
def Computes (c : Ctx) (o : Out) (d : Opnd) (w : Nat) (f : Nat → DWord) : Prop :=
  GoesOn c o fun _ g => ∀ l ∈ c.lanes, srcD g d w l = seen d w (f (laneFor c d l))

/-- The instruction writes a predicate in every active lane and goes on; p7 stays true. -/
def Decides (c : Ctx) (o : Out) (n : Nat) (f : Nat → Bool) : Prop :=
  GoesOn c o fun _ g => ∀ l ∈ c.lanes, getP g n l = (n == 7 || f l)

/-! Integer results. -/

/-- An exact value as an integer instruction delivers it (R226, R222): clamped to the type's range or taken modulo 2^n into
it, then extended to a register. -/
def delivered (ty : Ty) (sat : Bool) (x : Int) : DWord :=
  let n := ty.width
  let lo : Int := if ty.isSigned then -(2 ^ (n - 1)) else 0
  let hi : Int := if ty.isSigned then 2 ^ (n - 1) - 1 else 2 ^ n - 1
  BitVec.ofInt 64 (if sat then max lo (min hi x) else if ty.isSigned then Int.bmod x (2 ^ n) else x % 2 ^ n)

/-- An integer instruction with two sources delivers an exact value of them. -/
def IntLaw (con : IBin → Instr) (f : IBin → Int → Int → Int) : Prop :=
  ∀ (s : State) (c : Ctx) (x : IBin), ctxOf s x.h = some c → WellFormed (con x) = true →
    Computes c (exec (con x) s) x.d x.ty.regs fun l => delivered x.ty x.sat (f x (srcI c.g x.a x.ty l) (srcI c.g x.b x.ty l))

/-- An integer instruction with two sources delivers a value of their n-bit patterns. -/
def PatLaw (con : IBin → Instr) (f : IBin → Nat → Nat → Int) : Prop :=
  ∀ (s : State) (c : Ctx) (x : IBin), ctxOf s x.h = some c → WellFormed (con x) = true →
    Computes c (exec (con x) s) x.d x.ty.regs fun l =>
      delivered x.ty false (f x (srcN c.g x.a x.ty.width l) (srcN c.g x.b x.ty.width l))

/-- An integer instruction with one source delivers a value of its n-bit pattern. -/
def PatLaw1 (con : IUn → Instr) (f : IUn → Nat → Int) : Prop :=
  ∀ (s : State) (c : Ctx) (x : IUn), ctxOf s x.h = some c → WellFormed (con x) = true →
    Computes c (exec (con x) s) x.d x.ty.regs fun l => delivered x.ty false (f x (srcN c.g x.a x.ty.width l))

/-! Float results. -/

/-- A float instruction with two sources delivers an FP32 pattern. -/
def FltLaw (con : FBin → Instr) (f : FBin → Group → Nat → Nat) : Prop :=
  ∀ (s : State) (c : Ctx) (x : FBin), ctxOf s x.h = some c → WellFormed (con x) = true →
    Computes c (exec (con x) s) x.d 1 fun l => BitVec.ofNat 64 (f x c.g l)

/-- A float instruction with three sources. -/
def FltLaw3 (con : FTern → Instr) (f : FTern → Group → Nat → Nat) : Prop :=
  ∀ (s : State) (c : Ctx) (x : FTern), ctxOf s x.h = some c → WellFormed (con x) = true →
    Computes c (exec (con x) s) x.d 1 fun l => BitVec.ofNat 64 (f x c.g l)

/-- A float instruction with one source. -/
def FltLaw1 (con : FUn → Instr) (f : FVal → Nat) : Prop :=
  ∀ (s : State) (c : Ctx) (x : FUn), ctxOf s x.h = some c → WellFormed (con x) = true →
    Computes c (exec (con x) s) x.d 1 fun l => BitVec.ofNat 64 (f (srcF c.g x.a l))

/-! Control. -/

/-- The issuing entry waits: no entry issues, and its lanes stand at its PC waiting for w. -/
def Waits (c : Ctx) (o : Out) (w : Wait) : Prop :=
  ∃ t g, EndsIn c o t g ∧ (⟨c.u.pc, c.u.prio, c.u.mask, 0, .waiting w c.s.cycle⟩ : Entry) ∈ frontOf g

/-- A lane stands ready at a pointer with a priority. -/
def StandsAt (f : List Entry) (l : Nat) (pc : Ptr) (prio : BitVec 8) : Prop :=
  ∃ e ∈ f, e.st = .ready ∧ e.pc = pc ∧ e.prio = prio ∧ e.mask.getLsbD l = true

/-- The frontier has room for the entries that a transfer to some pointers, or pointers and priorities, may make (R160). -/
abbrev RoomFor {α : Type} [DecidableEq α] (c : Ctx) (dest : List α) : Prop :=
  (others c.u (frontOf c.g)).length + dest.dedup.length + (if c.act = c.u.mask then 0 else 1) ≤ depthOf c.g

/-- The active lanes go to their targets with a priority, the entry's other lanes to PC + 12 with theirs, and every other
entry stays (R155, R255). -/
def GoneAs (c : Ctx) (f : List Entry) (dest : Nat → Ptr) (prio : Nat → BitVec 8) : Prop :=
  (∀ l ∈ c.lanes, StandsAt f l (dest l) (prio l)) ∧
  (∀ l < 32, c.u.mask.getLsbD l = true → l ∉ c.lanes → StandsAt f l (nextPc c.u.pc) c.u.prio) ∧
  (∀ e ∈ others c.u (frontOf c.g), ∀ l < 32, e.mask.getLsbD l = true →
    ∃ e' ∈ f, e'.st = e.st ∧ e'.pc = e.pc ∧ e'.prio = e.prio ∧ e'.mask.getLsbD l = true)

/-- A control transfer completes. -/
def Transfers (c : Ctx) (o : Out) (dest : Nat → Ptr) (prio : Nat → BitVec 8) (P : State → Group → Prop) : Prop :=
  ∃ t g, EndsIn c o t g ∧ GoneAs c (frontOf g) dest prio ∧ P t g

/-! Traps. -/

/-- A trap of the issuing group enters the handler at once (R426, R429, R431): none runs or is held, no far result is
outstanding, and VBASE names a handler. -/
abbrev CanTrap (c : Ctx) : Prop :=
  c.g.handler = none ∧ c.g.pendTrap = none ∧ awaitsFar c.g = false ∧ qbWord c.s c.ld 0x260 ≠ 0

/-- The instruction traps Whole (R424, R426, R428): the handler stands at VBASE with priority 128 and every lane, the trap
holds cause, detail, the entry and the lane described, and the group's registers and frontier are as they were. -/
def Traps (c : Ctx) (o : Out) (cause detail lane : Nat) (addr : DWord) : Prop :=
  ∃ t g h, EndsIn c o t g ∧ g.handler = some h ∧ h.frontier = [⟨qbWord c.s c.ld 0x260, 128, BitVec.allOnes 32, 0, .ready⟩] ∧
    h.trap.cause = cause ∧ h.trap.detail = detail ∧ h.trap.lane = lane ∧ h.trap.addr = addr ∧ h.trap.mask = c.u.mask ∧
    h.trap.pc = c.u.pc ∧ h.trap.prio = c.u.prio ∧ g.v = c.g.v ∧ g.bank = c.g.bank ∧ g.frontier = c.g.frontier

/-! Collectives and barriers. -/

/-- The participants of a lane's sub-group: its member lanes that are active (R265). -/
def participants (c : Ctx) (p : Part) (l : Nat) : List Nat :=
  c.lanes.filter fun k => p.mem.getLsbD k && k / p.lanes == l / p.lanes

/-- The partition is defined, and every sub-group that holds a lane of the entry has converged in it: no other entry stands
at its PC and PRIO or holds a member lane of such a sub-group (R167). The frontier has room for the entry. -/
abbrev Converged (c : Ctx) (p : Part) : Prop :=
  p.lanes ≠ 0 ∧ (others c.u (frontOf c.g)).length < depthOf c.g ∧
  ∀ e ∈ others c.u (frontOf c.g), (e.pc ≠ c.u.pc ∨ e.prio ≠ c.u.prio) ∧
    ∀ l < 32, e.mask.getLsbD l = true → p.mem.getLsbD l = true → ∀ k < 32, c.u.mask.getLsbD k = true → k / p.lanes ≠ l / p.lanes

/-- A collective on the partition T completes in the entry, and every participant has its result. -/
def Collects (con : Instr) (h : Hdr) (part : Opnd) (P : Ctx → Part → Group → Nat → Prop) : Prop :=
  ∀ (s : State) (c : Ctx), ctxOf s h = some c → WellFormed con = true → Converged c (partOf c.g part.tag) →
    GoesOn c (exec con s) fun _ g => ∀ l ∈ c.lanes, (partOf c.g part.tag).mem.getLsbD l = true → P c (partOf c.g part.tag) g l

/-- The barrier checks of an instruction of a team pass (R268, R269, R429). -/
abbrev BarOk (c : Ctx) (x : BarA) : Prop :=
  c.lanes ≠ [] ∧ c.g.handler = none ∧ barId c x < c.gr.nbar ∧ 1 ≤ barCount c x ∧ barCount c x ≤ 1024 ∧
  ((barOf c.t (barId c x)).expect = 0 ∨ ((barOf c.t (barId c x)).expect : Int) = barCount c x)

/-- The open phase of a barrier after an instruction, where it goes on (R269). -/
def BarOpen (t : State) (c : Ctx) (x : BarA) (arrived : Nat) : Prop :=
  ∃ u, teamOf t c.r.team = some u ∧ (barOf u (barId c x)).expect = (barCount c x).toNat ∧
    (barOf u (barId c x)).arrived = arrived ∧ (barOf u (barId c x)).phase = (barOf c.t (barId c x)).phase ∧
    ∀ k, k ≠ barId c x → barOf u k = barOf c.t k

/-- A barrier after its phase has completed: idle, its phase number one higher, every entry that waited for the phase ready
at PC + 12 (R269). -/
def BarDone (t : State) (c : Ctx) (x : BarA) : Prop :=
  ∃ u, teamOf t c.r.team = some u ∧ (barOf u (barId c x)).expect = 0 ∧ (barOf u (barId c x)).arrived = 0 ∧
    (barOf u (barId c x)).phase = (barOf c.t (barId c x)).phase + 1 ∧ (∀ k, k ≠ barId c x → barOf u k = barOf c.t k) ∧
    ∀ q ∈ c.t.groups, q.handler = none → q.pendTrap = none → ∀ e ∈ q.frontier, barWaits (barId c x) (barOf c.t (barId c x)).phase e = true →
      (q.id = c.g.id → e.mask &&& c.u.mask = 0) → ∃ q' ∈ u.groups, q'.id = q.id ∧ ∀ l < 32, e.mask.getLsbD l = true →
        StandsAt q'.frontier l (nextPc e.pc) e.prio

/-- Teams have different names, and so have the groups of the issuing team. -/
abbrev Apart (s : State) (c : Ctx) : Prop := (s.teams.map Team.r).Nodup ∧ (c.t.groups.map Group.id).Nodup

/-- The waits that a wait at a team or gang barrier arrives with (R272). -/
def arrivesLike (w : Wait) : Wait → Bool := if w = .gbar then Wait.isGbar else Wait.isTbar

/-! Buffers. -/

/-- A step ends in a next state of which P holds. -/
def Becomes (o : Out) (P : State → Prop) : Prop := ∃ t, o = .next t ∧ P t

/-- Every register but some keeps its value in every lane. -/
def Kept (g g' : Group) (ks : List RegKey) : Prop :=
  (∀ n l, .v n ∉ ks → getV g' n l = getV g n l) ∧ (∀ n, .g n ∉ ks → getG g' n = getG g n) ∧
  (∀ n l, .p n ∉ ks → getP g' n l = getP g n l) ∧ (∀ n, .m n ∉ ks → getM g' n = getM g n)

/-- One byte of a team's buffer. -/
def bufByte (s : State) (r : TeamRef) (b : Buf) (k : Nat) : Nat := bufGet s r b k 1

/-- A full/empty bit of a team's buffer (R82). -/
def fullBit (s : State) (r : TeamRef) (b : Buf) (i : Nat) : Bool := match teamOf s r with
  | none => false
  | some u => stGet (feOf u b) i == 1

/-- Every byte of every buffer, and memory, as before. -/
def BytesKept (s t : State) : Prop := t.mem = s.mem ∧ ∀ r b k, bufByte t r b k = bufByte s r b k

/-- A register holds the bytes a load returned, extended as its size says (R275, R278). -/
def LoadedAs (g : Group) (d : Opnd) (sz : Sz) (l x : Nat) : Prop :=
  if sz = .b128 then srcQ g d l = BitVec.ofNat 128 x
  else srcD g d sz.regs l =
    seen d sz.regs (if sz.signed then BitVec.ofInt 64 (toIntN (8 * sz.bytes) true x) else BitVec.ofNat 64 x)

/-- The lane for which an address is computed: each active lane for a vector register, else the lowest active lane. -/
def laneAt (c : Ctx) (a : Opnd) (l : Nat) : Nat := if a.isV then l else c.low

/-- The address register holds its new value in every active lane, where the mode updates it (R276). -/
def Bumped (c : Ctx) (g : Group) (a : Opnd) (addr : Addr) (ps : List (Nat × BufAt)) : Prop :=
  addrUpdates addr = true → ∀ l ∈ c.lanes, ∀ p ∈ ps, p.1 = laneAt c a l → srcD g a 1 l = seen a 1 p.2.upd

/-- A buffer load completes where its addresses are legal and, in the forms that wait, its granules are full, with the bytes that stand
there where no write can be missed; a .fe form with an empty granule waits for the lanes it is missing (R82, R83, R276, R278). -/
def LoadLaw (b : Buf) (con : LdA → Instr) : Prop :=
  ∀ (s : State) (c : Ctx) (x : LdA) (ps : List (Nat × BufAt)), ctxOf s x.h = some c → WellFormed (con x) = true → s.sram = [] →
    c.lanes ≠ [] → placeAll (accLanes c x.a.isV) (bufAddr s c.t c.g b x.mem x.a x.addr x.sz.bytes) = .ok ps →
    let isFull (p : Nat × BufAt) : Bool := fullBit s (memberRef c.t p.2.m) b (p.2.off / 16)
    (x.fe = .plain ∨ x.fe = .clr ∨
        (∀ p ∈ ps, isFull p = true) ∧ (x.fe = .feclr → (ps.map fun p => (p.2.m, p.2.off / 16)).Nodup) →
      GoesOn c (exec (con x) s) fun t g => BytesKept s t ∧ Bumped c g x.a x.addr ps ∧
        Kept c.g g (keysOf x.d x.sz.regs ++ addrKeys x.a x.addr) ∧
        (s.hist = [] → (∀ k ∈ keysOf x.d x.sz.regs, k ∉ addrKeys x.a x.addr) → ∀ l ∈ c.lanes, ∀ p ∈ ps, p.1 = laneAt c x.a l →
          LoadedAs g x.d x.sz l (bufGet s (memberRef c.t p.2.m) b p.2.off x.sz.bytes)) ∧
        ∀ r b' i, fullBit t r b' i = (fullBit s r b' i && !(Fe.clears x.fe &&
          ps.any fun p => r == memberRef c.t p.2.m && b' == b && i == p.2.off / 16))) ∧
    (x.fe = .fe → (∃ p ∈ ps, isFull p = false) → (others c.u (frontOf c.g)).length < depthOf c.g →
      ∃ left got, Waits c (exec (con x) s) (.feLoad (con x) left got) ∧
        left.map Prod.fst = (ps.filter fun p => !isFull p).map Prod.fst)

/-- What a store writes in a lane and whether that violates the tag (R75, R279). -/
def storeData (c : Ctx) (x : StA) (l : Nat) : Bool × Nat :=
  if x.d.tag = 0 then (false, (srcData c.g x.b x.sz l).toNat % 2 ^ (8 * x.sz.bytes))
  else tagBytes (getB c.t x.d.tag) x.tf x.sz.bytes (srcData c.g x.b x.sz l).toNat

/-- A team's bound flags after an instruction that may have set a tag's flag. -/
def Flagged (c : Ctx) (t : State) (tag : Nat) (viol : Bool) : Prop :=
  ∃ u, teamOf t c.r.team = some u ∧ ∀ k < 16, u.bflags.getLsbD k = (c.t.bflags.getLsbD k || (viol && tag != 0 && k == tag))

/-- A buffer store completes: its bytes, in ascending lane order, and nothing else of the buffers, of memory or of the
registers but an updated address register; the granules it writes are full; a violation sets the tag's flag. In trap mode a
violation traps BOUND with no byte written (R75, R118, R279). -/
def StoreLaw (b : Buf) (con : StA → Instr) : Prop :=
  ∀ (s : State) (c : Ctx) (x : StA) (ps : List (Nat × BufAt)), ctxOf s x.h = some c → WellFormed (con x) = true → s.sram = [] →
    c.lanes ≠ [] → placeAll (accLanes c (x.a.isV || x.b.isV)) (bufAddr s c.t c.g b x.mem x.a x.addr x.sz.bytes) = .ok ps →
    let viol (p : Nat × BufAt) : Bool := (storeData c x p.1).1
    (tagTraps (getB c.t x.d.tag) = false ∨ (∀ p ∈ ps, viol p = false) →
      GoesOn c (exec (con x) s) fun t g => t.mem = s.mem ∧ Kept c.g g (addrKeys x.a x.addr) ∧ Bumped c g x.a x.addr ps ∧
        Flagged c t x.d.tag (ps.any viol) ∧
        (∀ r b' k, bufByte t r b' k = ps.foldl (fun y p =>
          if r = memberRef c.t p.2.m ∧ b' = b ∧ p.2.off ≤ k ∧ k < p.2.off + x.sz.bytes
          then (storeData c x p.1).2 / 256 ^ (k - p.2.off) % 256 else y) (bufByte s r b' k)) ∧
        ∀ r i, fullBit t r b i = (fullBit s r b i || b != .c && ps.any fun p => r == memberRef c.t p.2.m && i == p.2.off / 16)) ∧
    (∀ p, tagTraps (getB c.t x.d.tag) = true → ps.find? viol = some p → CanTrap c →
      Traps c (exec (con x) s) cBOUND x.d.tag p.1 (BitVec.ofNat 64 (if b = .a then p.2.m * 2 ^ 20 + p.2.off else p.2.off)) ∧
      Becomes (exec (con x) s) fun t => BytesKept s t ∧ Flagged c t x.d.tag true)

/-- Where byte i of register j in lane l lies in a fragment of a pitch (R283). -/
def fragAt (k : FragKind) (pitch j l i : Nat) : Nat := match k with
  | .op => (l % 16) * pitch + 16 * (l / 16) + 4 * j + i
  | .opt16 => (8 * (l / 16) + 2 * j + i / 2) * pitch + 2 * (l % 16) + i % 2
  | .opt8 => (16 * (l / 16) + 4 * j + i) * pitch + l % 16
  | .acc => (j + 8 * (l / 16)) * pitch + 4 * (l % 16) + i

/-- Sectors of HBM whose check bytes are fresh: their bytes are their data (R100). -/
abbrev CleanAt (s : State) (pa k : Nat) : Prop :=
  ∀ i < k, isHbm (pa + i) = true → (stGet s.ecc ((pa + i) / 32)).getLsbD 32 = false

/-! Far accesses. -/

/-- What a far instruction asks of its homes (R286 to R292): the shared part, whether one access serves every lane, and each
lane's access. -/
def farForm (c : Ctx) : Instr → Option (FarOp × Bool × (Nat → FarKind))
  | .fld x => some (⟨x.a, x.off, x.sz, .read, x.scope, x.ord, some x.d⟩, !x.a.isV && !x.d.isV, fun _ => .load)
  | .fst x => some (⟨x.a, x.off, x.sz, .write, x.scope, x.ord, none⟩, !x.a.isV && !x.b.isV,
      fun l => .store (BitVec.ofNat 128 (fstData c x l).2))
  | .fatom x => some (⟨x.a, x.off, x.sz, .atomic, x.scope, x.ord, some x.d⟩, !x.a.isV && !x.b.isV && !x.d.isV,
      fun l => .amo x.op (srcData c.g x.b x.sz l))
  | .fcas x => some (⟨x.a, x.off, x.sz, .atomic, x.scope, x.ord, some x.d⟩, !x.a.isV && !x.b.isV && !x.t.isV && !x.d.isV,
      fun l => .cas (srcData c.g x.b x.sz l) (srcData c.g x.t x.sz l))
  | _ => none

/-- The tag check of an FST lets it go on (R289). -/
def fstPasses (c : Ctx) : Instr → Prop
  | .fst x => tagTraps (getB c.t x.d.tag) = false ∨ ∀ l, (fstData c x l).1 = false
  | _ => True

/-- The far accesses that an instruction hands to their homes: one for each lane that makes one, in lane order, with the
pieces R288 to R292 give it; every register of the destination is outstanding for it. -/
def Issues (c : Ctx) (op : FarOp) (single : Bool) (kind : Nat → FarKind) (ls : List Nat) (t : State) (g : Group) : Prop :=
  ∃ new, t.far = c.s.far ++ new ∧ new.length = ls.length ∧ ∀ p ∈ new.zip ls,
    p.1.r = c.r ∧ p.1.lane = p.2 ∧ p.1.kind = kind p.2 ∧ p.1.sz = op.sz ∧ p.1.dst = op.dst ∧
    p.1.lanes = (if single then c.act else maskOf [p.2]) ∧ p.1.pc = c.u.pc ∧ p.1.prio = c.u.prio ∧
    p.1.due = c.s.cycle + 150000 * ldReg c.s c.ld 0x400 ∧
    (∃ e, farPlace c op.a op.off op.sz.bytes op.acc p.2 = .ok (p.1.pa, e, p.1.ptr)) ∧
    ∀ d, op.dst = some d → ∀ k ∈ keysOf d op.sz.regs, ⟨k, .far p.1.id, false⟩ ∈ g.outst

/-- No group holds a trap that has not been entered. -/
abbrev NoneHeld (s : State) : Prop := ∀ t ∈ s.teams, ∀ g ∈ t.groups, g.pendTrap = none

/-- Some lanes of a group are parked with a trap at a pointer, to be taken (R163). -/
def Parked (g : Group) (m : LaneMask) (pc : Ptr) (prio : BitVec 8) (cause detail : Nat) (addr : Ptr) : Prop :=
  ∃ e ∈ g.frontier, e.mask = m ∧ e.pc = pc ∧ e.prio = prio ∧ ∃ lane, e.st = .parked cause detail addr lane

/-! Matrix instructions. -/

/-- No entry of the group waits in CBLD.fe: an engine instruction takes effect when it issues (R300). -/
abbrev Turn (c : Ctx) : Prop := ∀ e ∈ frontOf c.g, e.waits Wait.isCbld = false

/-- The rational number of a finite value; 0 for a special one. -/
def ratOf : FVal → ℚ
  | .fin neg m e => (if neg then -1 else 1) * m * 2 ^ e
  | _ => 0

/-- The group after a matrix product into the octet X (R217, R218, R306): under both masks an element takes one rounding of
itself and the sum over the active depths, other elements keep their values (.z: become zero), and each masked row or column
with a special element at an active depth is flagged. -/
def Multiplied (c : Ctx) (k : MKind) (z : Bool) (x a b : Nat) (rm cm dm : BitVec 16) (g : Group) : Prop :=
  let ds := (List.range (mDepth k)).filter fun d => dm.getLsbD (d / (mDepth k / 16))
  let ea (i d : Nat) := elemA c.g k a i d
  let eb (j d : Nat) := elemB c.g c.t k b j d
  let old (i j : Nat) : Word := if z then 0 else octElem c.g x i j
  (∀ i < 16, ∀ j < 16, octElem g x i j =
    if rm.getLsbD i && cm.getLsbD j then
      BitVec.ofNat 32 (roundN32 (FVal.add .rne (decodeF fF32 (old i j).toNat) (posZero (mmaSum ds (ea i) (eb j)))))
    else old i j) ∧
  ∃ o, octetAt g x = some o ∧ ∀ i < 16,
    let was (f : Octet → BitVec 16) : Bool := !z && ((octetAt c.g x).map f |>.getD 0).getLsbD i
    o.rf.getLsbD i = (was Octet.rf || rm.getLsbD i && ds.any fun d => (ea i d).isSpecial) ∧
    o.cf.getLsbD i = (was Octet.cf || cm.getLsbD i && ds.any fun d => (eb i d).isSpecial)

/-- An octet is closed with some element values (R301). -/
def ClosedAs (g : Group) (x : Nat) (y : Nat → Nat → Word) : Prop :=
  octetAt g x = none ∧ ∀ i < 16, ∀ j < 16, octElem g x i j = y i j

/-- The base address of a drain, fill or table load (R311, R313). -/
def baseAt (c : Ctx) (a : Opnd) (off : BitVec 22) : Int := (srcD c.g a 1 c.low).toNat + off.toInt

/-- The checks of a drain or fill with an extent, in their order (R313). -/
def DrainChecks (c : Ctx) (x : Int) (badPitch : Prop) (extent : Nat) (o : Out) : Prop :=
  let traps (d : Nat) : Prop := Traps c o cBUFRANGE d (lowest c.u.mask) (BitVec.ofInt 64 x)
  (x % 16 ≠ 0 → traps 2) ∧ (x % 16 = 0 → badPitch → traps 4) ∧
  (x % 16 = 0 → ¬badPitch → x < 0 ∨ (c.t.clen : Int) < x + extent → traps 1)

/-! Engine operations. -/

/-- The package runs: it is powered and not halted (R12). -/
abbrev Running (s : State) : Prop := s.power.on = true ∧ s.power.halted = false

/-- The instruction is active in the producer group (R322, R151). -/
abbrev Producer (c : Ctx) : Prop := c.lanes ≠ [] ∧ c.g.id = 0 ∧ c.g.rung = none

/-- Every lane of an entry stands at PC + 12 of the group's frontier. -/
def WentOn (t : State) (r : GroupRef) (e : Entry) (P : Group → Prop) : Prop :=
  ∃ g, groupOf t r = some g ∧ P g ∧ ∀ l < 32, e.mask.getLsbD l = true → StandsAt (frontOf g) l (nextPc e.pc) e.prio

/-- Requests have been put into a core's queue for a producer group, one for each record (offset and bits), in order (R329). -/
def Queued (s t : State) (r : GroupRef) (u : Team) (g : Group) (recs : List (Nat × Nat)) : Prop :=
  ∃ new, t.reqs = s.reqs ++ new ∧ new.length = recs.length ∧ g.unsealed = ((groupOf s r).map Group.unsealed).getD [] ++ new.map Req.id ∧
    ∀ p ∈ new.zip recs, p.1.r = r ∧ p.1.core = u.core ∧ p.1.raw = p.2.2 ∧ p.1.st = .queued ∧
      p.1.addr = u.member * 2 ^ 20 + p.2.1 ∧ p.1.bounds = u.bounds

/-- The engine's step of a kind, on a core, acts on a request (R326, R329): one that it may take, or one that is under way. -/
abbrev ActsOn (s : State) (core step : Nat) (q : Req) : Prop :=
  Running s ∧ (reqsNext s core step)[pickIx s (reqsNext s core step).length]? = some q ∧ s.reqs.find? (fun x => x.id == q.id) = some q

/-- The steps of a core's copy engine by number. -/
def copyStep (core : Nat) : List (Nat × Instr) :=
  [(1, .copyLinear core), (2, .copyTiled core), (3, .copyGather core), (4, .copyScatter core), (5, .copyImage core), (6, .stread core),
    (7, .stwrite core), (8, .stflush core)]

/-- A property of a request, by number, in a state. -/
def ReqIs (t : State) (id : Nat) (P : Req → Prop) : Prop := ∃ q, t.reqs.find? (fun x => x.id == id) = some q ∧ P q

/-- Memory has no stored check bytes, no SRAM word is overlaid, no write can be missed, and no team is about to be gone: every read
is clean and finds what stands there. -/
abbrev AllClean (s : State) : Prop := s.ecc = [] ∧ s.sram = [] ∧ s.hist = [] ∧ s.dying = []

/-- A byte that an operation reads at a pointer: memory's, at a place to which the translation leads. -/
def Reads (s : State) (e : Eng) (p : Ptr) (v : Nat) : Prop :=
  ∃ f pa, engPlace { s with frees := f } e p 1 .read = .ok pa ∧ (areaOf pa ≠ .regs → v = peek s pa 1)

/-- Byte j of a piece's source. -/
def SrcByte (s : State) (e : Eng) (x : Piece) (j v : Nat) : Prop := match x.src with
  | .mem p => Reads s e (ptrAdd p j) v
  | .buf r b off => v = bufByte s r b (off.toNat + j)
  | .pad w => v = (if j % 2 = 0 then w else w / 256) % 256
  | .drive d a => v = (driveByteAt s d (a + j)).toNat

/-- A piece has been moved (R332, R82): every byte of its destination is the byte of its source, and every other byte of the buffers, of
memory and of the drives is as before. A granule of W or A is full once none of the pieces still to be moved writes it. -/
def PieceMoved (s t : State) (e : Eng) (rest : List Piece) (x : Piece) : Prop := match x.dst with
  | .buf r b off => t.mem = s.mem ∧ (∀ d a, driveByteAt t d a = driveByteAt s d a) ∧
      (∀ r' b' k, r' ≠ r ∨ b' ≠ b ∨ k < off.toNat ∨ off.toNat + x.n ≤ k → bufByte t r' b' k = bufByte s r' b' k) ∧
      ((teamOf s r).isSome = true → (∀ j < x.n, SrcByte s e x j (bufByte t r b (off.toNat + j))) ∧
        (b ≠ .c → ∀ i, fullBit t r b i = (fullBit s r b i || x.touches r b i && !rest.any fun y => y.touches r b i)))
  | .mem p => (∀ r b k, bufByte t r b k = bufByte s r b k) ∧ (∀ d a, driveByteAt t d a = driveByteAt s d a) ∧
      ∃ f pa, engPlace { s with frees := f } e p x.n .write = .ok pa ∧ (isHbm pa = true →
        (∀ j < x.n, SrcByte s e x j (peek t (pa + j) 1)) ∧ ∀ a, a < pa ∨ pa + x.n ≤ a → peek t a 1 = peek s a 1)
  | .drive d a => t.mem = s.mem ∧ (∀ r b k, bufByte t r b k = bufByte s r b k) ∧
      (∀ j < x.n, SrcByte s e x j (driveByteAt t d (a + j)).toNat) ∧
      ∀ d' a', d' ≠ d ∨ a' < a ∨ a + x.n ≤ a' → driveByteAt t d' a' = driveByteAt s d' a'
  | .pad _ => False

/-- A piece as the engine cuts it: within one sector on each side, with a destination that can be written. -/
def Piece.Whole (x : Piece) : Prop := 0 < x.n ∧ x.n ≤ x.src.room ∧ x.n ≤ x.dst.room ∧ ∀ k, x.dst ≠ .pad k

/-- Pieces move exactly some pairs of bytes, each of a source and a destination (R325). -/
def Cover (xs : List Piece) (P : Loc → Loc → Prop) : Prop :=
  (∀ x ∈ xs, x.Whole) ∧
  ∀ a b, (∃ x ∈ xs, ∃ j < x.n, a = x.src.move j ∧ b = x.dst.move j) ↔ P a b

/-! Streams. -/

/-- A property of a team's window in a state. -/
def WinIs (t : State) (r : TeamRef) (w : Nat) (P : Window → Prop) : Prop := ∃ u, teamOf t r = some u ∧ P (winOf u w)

/-- A running program stands at a command of a code and has fetched it: v is its word, s1 the machine after the fetch
(R342, R343). -/
def Fetches (s : State) (r : TeamRef) (w : Nat) (x : Window) (s1 : State) (v code : Nat) : Prop :=
  Running s ∧ (∃ u, teamOf s r = some u ∧ x = winOf u w) ∧ winReady s x = true ∧
    winFetch s (winEng s r x) x = (s1, .ok v) ∧ cmdErr v = none ∧ v % 256 = code

/-- The program of a window has stopped in error (R345). -/
def Halts (t : State) (r : TeamRef) (w : Nat) (x : Window) (cause detail : Nat) : Prop :=
  WinIs t r w fun y => y.st = .error ∧ y.cause = cause ∧ y.detail = detail ∧ y.errPc = x.pc ∧ y.pin = none

/-- The program goes on at a pointer with its loops and patch value. -/
def RunsOn (t : State) (r : TeamRef) (w : Nat) (x : Window) (pc : Ptr) (loops : List (Ptr × Nat × Nat)) (pv : Word) : Prop :=
  WinIs t r w fun y => y.st = .running ∧ y.waiting = 0 ∧ y.pc = pc ∧ y.loops = loops ∧ y.pv = pv ∧ y.fills = x.fills ∧ y.rels = x.rels

/-- Rows and bytes of a row of an STILE (code 1) or an SGATHER, by its word (R344). -/
def fillShape (code v : Nat) : Nat × Nat :=
  if code = 1 then (v / 2 ^ 96 % 2 ^ 8 + 1, 16 * (v / 2 ^ 104 % 2 ^ 8 + 1)) else (v / 2 ^ 104 % 2 ^ 8 + 1, 16 * (v / 2 ^ 112 % 2 ^ 8 + 1))

/-- What a fill has to move at first, and the rows whose index it reads first: an STILE's rows lie at a base, which the loops' strides
move, and a pitch; an SGATHER has an index for each row (R344). -/
def fillWork (u : Team) (x : Window) (code v : Nat) : List Piece × Nat :=
  let n := fillShape code v
  let base : Int := (v / 2 ^ 16 % 2 ^ 32 : Nat) + toIntN 24 true (v / 2 ^ 48) * loopIx x 0 + toIntN 24 true (v / 2 ^ 72) * loopIx x 1
  if code = 1 then ((List.range n.1).flatMap fun i => rowPieces u x n.2 i (16 * (base + (v / 2 ^ 112 % 2 ^ 16 : Nat) * i)), 0) else ([], n.1)

/-- Where an SGATHER of n rows reads its next index while `rows` are still to be read (R344). -/
def fillIndexAt (x : Window) (v n rows : Nat) : Ptr :=
  ptrAdd x.b.sbase (16 * (v / 2 ^ 48 % 2 ^ 32) + 4 * n * loopIx x 0 + 4 * (n - rows) : Nat)

/-- The pieces of an SGATHER's row i of rb bytes once its index is known (R344). -/
def fillRow (u : Team) (x : Window) (v rb i index : Nat) : List Piece :=
  rowPieces u x rb i (16 * (v / 2 ^ 16 % 2 ^ 32 + v / 2 ^ 80 % 2 ^ 24 * index) : Nat)

/-- None of a fill's next accesses faults: no piece, nor the read of an index where rows are left. -/
def FillOk (s : State) (e : Eng) (ps : List Piece) (rows : Nat) (p : Ptr) : Prop :=
  (ps ≠ [] ∨ rows ≠ 0) ∧ (∀ x ∈ ps, x.Whole ∧ ∀ f, pieceErr { s with frees := f } e x = none) ∧
  (rows ≠ 0 → ptrVa p % 32 + 4 ≤ 32 ∧ ∀ f b, ∃ pa, engPlace { s with frees := f } { e with refuse := b } p 4 .read = .ok pa)

/-- A fill has made one step: one of its pieces is moved, or the index of its next row is read, whose pieces may move from then on
(R344, R345). -/
def FillSteps (s t : State) (r : TeamRef) (w : Nat) (e : Eng) (slot : Nat) (ps : List Piece) (rows : Nat) (p : Ptr)
    (run : Nat → List Piece) : Prop :=
  (∃ k x, ps[k]? = some x ∧ PieceMoved s t e (ps.eraseIdx k) x ∧
    WinIs t r w fun y => y.filling = some slot ∧ y.todo = ps.eraseIdx k ∧ y.rows = rows) ∨
  (rows ≠ 0 ∧ BytesKept s t ∧ ∃ j < 2 ^ 32, (∀ b : Nat, b < 4 → Reads s e (ptrAdd p b) (j / 256 ^ b % 256)) ∧
    WinIs t r w fun y => y.filling = some slot ∧ y.todo = ps ++ run j ∧ y.rows = rows - 1)

/-! Memory-side commands. -/

/-- A number that an operation reads from n bytes at a pointer, wherever the translation leads. -/
def ReadsN (s : State) (e : Eng) (p : Ptr) (n v : Nat) : Prop :=
  ∃ pa, (∀ f, engPlace { s with frees := f } e p n .read = .ok pa) ∧ pa % 32 + n ≤ 32 ∧ isHbm pa = true ∧ v = peek s pa n

/-- Where an operation writes n bytes. -/
def WritesAt (s : State) (e : Eng) (p : Ptr) (n pa : Nat) : Prop :=
  (∀ f, engPlace { s with frees := f } e p n .write = .ok pa) ∧ pa % 32 + n ≤ 32 ∧ isHbm pa = true

/-- A memory-side command that runs: the package runs, what it follows is performed, its team is there. -/
abbrev MemRuns (s : State) (id : Nat) (m : MemOp) (att : Bool) : Prop :=
  Running s ∧ s.memOps.find? (fun m => m.id == id && (m.att == att) && m.left.isNone) = some m ∧
    s.memOps.find? (fun m => m.id == id) = some m ∧ forkReady s m.after = true ∧ (teamOf s m.t).isSome = true

/-- The command has written its bytes. -/
def MemMoved (t : State) (id n : Nat) : Prop :=
  ∃ m, t.memOps.find? (fun m => m.id == id) = some m ∧ m.left = some n

/-! Ladders. -/

/-- A bin of a team's gang has taken some items at its end, one for each of some lanes (R366). -/
def BinTakes (s t : State) (r : TeamRef) (lad rung : Nat) (ls : List Nat) (P : Nat → Item → Prop) : Prop :=
  ∃ k k' new, gangOf s (gangKey s r) = some k ∧ gangOf t (gangKey s r) = some k' ∧
    (binOf k' lad rung).items = (binOf k lad rung).items ++ new ∧ new.length = ls.length ∧ ∀ p ∈ ls.zip new, P p.1 p.2

/-- The gang of a team has a bin for a rung. -/
abbrev HasBin (s : State) (r : TeamRef) (lad rung : Nat) : Prop :=
  ((gangOf s (gangKey s r)).any fun k => decide (lad < k.bins.length ∧ rung < (k.bins.getD lad []).length)) = true

/-- The checks of LSPAWN that are not about a lane pass (R369, R429). -/
abbrev SpawnOpen (c : Ctx) (lad : Nat) : Prop :=
  c.lanes ≠ [] ∧ c.g.handler = none ∧ lad < c.t.lads.length ∧ c.g.rung = none ∧ (ladOf c.t lad).closed = false

/-- A property of a team's part of a ladder. -/
def LadIs (t : State) (r : TeamRef) (lad : Nat) (P : LadWin → Prop) : Prop := ∃ u, teamOf t r = some u ∧ P (ladOf u lad)

/-! Teams, grids and logical devices. -/

/-- A property of a team in a state. -/
def TeamIs (t : State) (r : TeamRef) (P : Team → Prop) : Prop := ∃ u, teamOf t r = some u ∧ P u

/-- A property of a gang in a state. -/
def GangIs (t : State) (k : GangRef) (P : Gang → Prop) : Prop := ∃ g, gangOf t k = some g ∧ P g

/-- A property of a grid in a state. -/
def GridIs (t : State) (ld id : Nat) (P : Grid → Prop) : Prop := ∃ g, gridOf t ld id = some g ∧ P g

/-- The grid has failed or ended with a status, cause, detail, team and address, and none of its teams is left (R432). -/
def GridFails (t : State) (ld id status cause detail team : Nat) (a : DWord) : Prop :=
  GridIs t ld id (fun g => g.fail = some (status, cause, detail, 0, team, a)) ∧ ∀ u ∈ t.teams, u.r.ld = ld → u.r.grid ≠ id

/-- A logical device of the package, with its root slots, retired-root records and queues. -/
abbrev HasDev (s : State) (ld : Nat) : Prop :=
  ld < s.lds.length ∧ ld < 16 ∧ (ldOf s ld).slots.length = 64 ∧ (ldOf s ld).retired.length = 256 ∧ (ldOf s ld).queues.length = 9

/-- Does a byte lie in a sector of the frame table, or of the node table. -/
def InFrames (s : State) (a : Nat) : Prop :=
  pkgReg s 0x402 / 32 ≤ a / 32 ∧ a / 32 < (pkgReg s 0x402 + 2 ^ 26 + 8 * pkgReg s 0x812 + 31) / 32
def InNodes (s : State) (a : Nat) : Prop := pkgReg s 0x403 / 32 ≤ a / 32 ∧ a / 32 < (pkgReg s 0x403 + 2 ^ 29 + 31) / 32

/-- The frame table and the node table do not lie in each other, nor in a node, sector by sector; the check bytes of all
three are fresh, and no SRAM word is overlaid. -/
def TablesApart (s : State) (n : Nat) : Prop :=
  (∀ a, ¬(InFrames s a ∧ InNodes s a)) ∧ (∀ a, n ≤ a → a < n + 8192 → ¬InFrames s a ∧ ¬InNodes s a) ∧ s.sram = [] ∧
  ∀ a, (InFrames s a ∨ InNodes s a ∨ (n ≤ a ∧ a < n + 8192)) → (stGet s.ecc (a / 32)).getLsbD 32 = false

/-- The reclaim ring of a logical device and the words that say where it is lie in no table, nor in some other bytes. -/
def RingApart (s : State) (ld : Nat) (p : Nat → Prop) : Prop :=
  let h := ldReg s ld 0x1
  let b := fld (peek s h 8) 0 52
  ∀ a, (h ≤ a ∧ a < h + 32) ∨ (b ≤ a ∧ a < b + 2 ^ 15) → ¬InFrames s a ∧ ¬InNodes s a ∧ ¬p a

/-- No write through a copy-on-write leaf of the logical device is under way (R56). -/
abbrev NoCow (s : State) (ld : Nat) : Prop := ∀ f ∈ s.far, f.cow = true → f.r.team.ld ≠ ld

/-! Queues. -/

/-- The command processor executes a command of some code at HEAD of a queue (R404, R405): its bits are c, s1 the machine
after the read, x the queue. -/
def HasCommand (s : State) (k : QueueRef) (s1 : State) (x : Queue) (c code : Nat) : Prop :=
  Running s ∧ HasDev s k.ld ∧ k.q < 9 ∧ (ldOf s k.ld).resetting = false ∧ queueBusy (queueOf s k.ld k.q) = true ∧
    readCommand s k = .ok (c, s1) ∧ x = queueOf s1 k.ld k.q ∧ cmdCode c = code ∧ cmdBad c = false

/-- The queue has gone on to a command with its loops. -/
def GoneTo (t : State) (k : QueueRef) (head : Int) (loops : List (Nat × Nat × Nat)) : Prop :=
  (queueOf t k.ld k.q).head = BitVec.ofInt 32 head ∧ (queueOf t k.ld k.q).waiting = none ∧ (queueOf t k.ld k.q).loops = loops

/-- The queue has stopped with a status and the pointer of a command (R408). -/
def StoppedWith (t : State) (k : QueueRef) (code : Nat) (p : Ptr) : Prop :=
  (queueOf t k.ld k.q).err = true ∧ (queueOf t k.ld k.q).estat = BitVec.ofNat 8 code ∧ (queueOf t k.ld k.q).eaddr = p ∧
    (queueOf t k.ld k.q).en = false

/-- The command at HEAD waits. -/
def Holds (t : State) (k : QueueRef) (x : Queue) (c : Nat) : Prop :=
  (queueOf t k.ld k.q).waiting = some c ∧ (queueOf t k.ld k.q).head = x.head

/-! Instructions that only compute registers. -/

/-- Does the instruction only compute registers from registers (the arithmetic, conversion and move families). -/
def regOnly : Instr → Bool
  | .iadd _ | .isub _ | .imul _ | .imulh _ | .imad _ | .imin _ | .imax _ | .iabs _ | .ineg _ | .and _ | .or _ | .xor _ | .andn _
  | .not _ | .shl _ | .shr _ | .sar _ | .rol _ | .popc _ | .clz _ | .brev _ | .bfx _ | .bfi _ | .bsel _ | .icmp _ | .lea _ | .iaddx _
  | .fadd _ | .fsub _ | .fmul _ | .ffma _ | .fmin _ | .fmax _ | .fcmp _ | .frcp _ | .frsq _ | .fsqrt _ | .fex2 _ | .flg2 _ | .fsin _
  | .fcos _ | .fclass _ | .fscale _ | .cvt _ | .padd2 _ | .pmul2 _ | .pfma2 _ | .lsemrg _ | .mov _ | .movi _ | .sel _ | .pset _
  | .pmovTov _ | .pmovFromv _ | .sread _ | .modset _ | .bndset _ => true
  | _ => false

/-- The registers that an instruction's operands name as results. -/
def writtenKeys (i : Instr) : List RegKey := ((args i).filter Arg.wr).flatMap fun a => keysOf a.o a.w

end Sys2Proof.Machine
end

