-- ==== Sys2Proof/Certificates/Slice0/Obligations.lean ====
section
/-! DEFINITION. What is claimed of the model, from the numbered rules of spec/. -/

open Sys2Proof Sys2Proof.Machine

/-- R226, R230, R231: the arithmetic instructions complete, and each active lane's D is the exact value, saturated or taken modulo 2^n
and extended (R222). ICMP writes its comparison to the predicate D (a write to p7 is discarded) and completes; IADDX completes, writes
the sum or difference with the carry or borrow that T holds, and leaves the carry or borrow out in T. -/
def Obligations.IntegerArithmetic : Prop :=
  (IntLaw .iadd (fun _ a b => a + b) ∧ IntLaw .isub (fun _ a b => a - b) ∧ IntLaw .imul (fun _ a b => a * b) ∧
    IntLaw .imulh (fun x a b => Int.fdiv (a * b) (2 ^ x.ty.width)) ∧ IntLaw .imin (fun _ a b => min a b) ∧
    IntLaw .imax (fun _ a b => max a b) ∧ IntLaw .lea (fun x a b => a + b * 2 ^ x.x.toNat) ∧
    (∀ (s : State) (c : Ctx) (x : ITern), ctxOf s x.h = some c → WellFormed (.imad x) = true →
      Computes c (exec (.imad x) s) x.d x.ty.regs fun l =>
        delivered x.ty x.sat (srcI c.g x.a x.ty l * srcI c.g x.b x.ty l + srcI c.g x.t x.ty l)) ∧
    (∀ (s : State) (c : Ctx) (x : IUn), ctxOf s x.h = some c → WellFormed (.iabs x) = true →
      Computes c (exec (.iabs x) s) x.d x.ty.regs fun l => delivered x.ty x.sat |srcI c.g x.a x.ty l|) ∧
    (∀ (s : State) (c : Ctx) (x : IUn), ctxOf s x.h = some c → WellFormed (.ineg x) = true →
      Computes c (exec (.ineg x) s) x.d x.ty.regs fun l => delivered x.ty x.sat (-srcI c.g x.a x.ty l))) ∧
  ((∀ (s : State) (c : Ctx) (x : IBin), ctxOf s x.h = some c → WellFormed (.icmp x) = true →
      Decides c (exec (.icmp x) s) x.d.tag fun l =>
        let a := srcI c.g x.a x.ty l
        let b := srcI c.g x.b x.ty l
        match x.x.toNat with
        | 0 => a == b
        | 1 => a != b
        | 2 => decide (a < b)
        | 3 => decide (a ≤ b)
        | 4 => decide (a > b)
        | _ => decide (a ≥ b)) ∧
    (∀ (s : State) (c : Ctx) (x : ITern), ctxOf s x.h = some c → WellFormed (.iaddx x) = true →
      GoesOn c (exec (.iaddx x) s) fun _ g => ∀ l ∈ c.lanes,
        let n := x.ty.width
        let a : Int := srcN c.g x.a n l
        let b : Int := srcN c.g x.b n l
        let k : Int := if srcP c.g x.t l then 1 else 0
        let r := if x.x = 0 then a + b + k else a - b - k
        srcD g x.d x.ty.regs l = BitVec.ofInt 64 (r % 2 ^ n) ∧
        getP g x.t.tag l = (x.t.tag == 7 || if x.x = 0 then decide (2 ^ n ≤ r) else decide (r < 0))))

/-- R226, R227, R226, R228, R229: the bitwise instructions, shifts and rotates complete with the result of the n-bit patterns; SAR reads
its operand as signed, a count of the width or more gives zero or the sign, and ROL takes the count modulo the width. The bit counts and
fields complete; CLZ of 0 is the width; a field of length 0 or beyond the width leaves BFI's T and gives 0 for BFX; BSEL gathers the
bytes its control names. -/
def Obligations.LogicAndBitFields : Prop :=
  (PatLaw .and (fun _ a b => (a &&& b : Nat)) ∧ PatLaw .or (fun _ a b => (a ||| b : Nat)) ∧
    PatLaw .xor (fun _ a b => (a ^^^ b : Nat)) ∧
    PatLaw .andn (fun x a b => (BitVec.ofNat x.ty.width a &&& ~~~ BitVec.ofNat x.ty.width b).toNat) ∧
    PatLaw1 .not (fun x a => (~~~ BitVec.ofNat x.ty.width a).toNat) ∧
    PatLaw .shl (fun _ a b => a * 2 ^ (b % 256)) ∧ PatLaw .shr (fun _ a b => (a / 2 ^ (b % 256) : Nat)) ∧
    PatLaw .sar (fun x a b => (BitVec.ofNat x.ty.width a).toInt / 2 ^ (b % 256)) ∧
    PatLaw .rol (fun x a b => ((BitVec.ofNat x.ty.width a).rotateLeft (b % 256)).toNat)) ∧
  (PatLaw1 .popc (fun x a => ((List.range x.ty.width).countP fun i => a.testBit i : Nat)) ∧
    PatLaw1 .clz (fun x a => (if a = 0 then x.ty.width else x.ty.width - 1 - Nat.log2 a : Nat)) ∧
    PatLaw1 .brev (fun x a => ((BitVec.ofNat x.ty.width a).reverse.toNat : Nat)) ∧
    PatLaw .bfx (fun x a b =>
      let n := x.ty.width
      let pos := b % 256
      let len := b / 256 % 256
      let l := min len (n - pos)
      if len = 0 ∨ n ≤ pos then 0
      else if x.ty.isSigned then Int.bmod (a / 2 ^ pos) (2 ^ l) else (a / 2 ^ pos % 2 ^ l : Nat)) ∧
    (∀ (s : State) (c : Ctx) (x : ITern), ctxOf s x.h = some c → WellFormed (.bfi x) = true →
      Computes c (exec (.bfi x) s) x.d x.ty.regs fun l =>
        let n := x.ty.width
        let a := srcN c.g x.a n l
        let t := srcN c.g x.t n l
        let pos := srcN c.g x.b n l % 256
        let len := srcN c.g x.b n l / 256 % 256
        let m := min len (n - pos)
        delivered x.ty false (if len = 0 ∨ n ≤ pos then t
          else (t % 2 ^ pos + a % 2 ^ m * 2 ^ pos + t / 2 ^ (pos + m) * 2 ^ (pos + m) : Nat))) ∧
    (∀ (s : State) (c : Ctx) (x : IBsel), ctxOf s x.h = some c → WellFormed (.bsel x) = true →
      Computes c (exec (.bsel x) s) x.d 1 fun l =>
        let src (k : Nat) : Nat := if k < 4 then srcN c.g x.a 32 l / 256 ^ k % 256 else srcN c.g x.b 32 l / 256 ^ (k - 4) % 256
        let own (i : Nat) : Nat := if x.ctl.getLsbD (12 + i) then 0 else src (x.ctl.toNat / 2 ^ (3 * i) % 8)
        let rep (i : Nat) (prev : Nat) : Nat := if x.ctl.getLsbD (16 + i) && !x.ctl.getLsbD (12 + i) then prev else own i
        let r0 := own 0
        let r1 := rep 1 r0
        let r2 := rep 2 r1
        let r3 := rep 3 r2
        BitVec.ofNat 64 (r0 + r1 * 256 + r2 * 65536 + r3 * 16777216)))

/-- R233, R238: FADD, FSUB, FMUL, FFMA and FSCALE complete with one rounding of the exact value of their operands. The packed
instructions complete; each half is one rounding, in the type's format, of the exact value of the halves of the sources. -/
def Obligations.FloatArithmetic : Prop :=
  (FltLaw .fadd (fun x g l => roundF fF32 x.rnd 0 false (FVal.add x.rnd (srcF g x.a l) (srcF g x.b l))) ∧
    FltLaw .fsub (fun x g l => roundF fF32 x.rnd 0 false (FVal.add x.rnd (srcF g x.a l) (srcF g x.b l).neg)) ∧
    FltLaw .fmul (fun x g l => roundF fF32 x.rnd 0 false (FVal.mul (srcF g x.a l) (srcF g x.b l))) ∧
    FltLaw3 .ffma (fun x g l =>
      roundF fF32 x.rnd 0 false (FVal.add x.rnd (FVal.mul (srcF g x.a l) (srcF g x.b l)) (srcF g x.t l))) ∧
    FltLaw .fscale (fun x g l => roundF fF32 x.rnd 0 false ((srcF g x.a l).scale (srcI g x.b .s32 l)))) ∧
  (FltLaw .padd2 (fun x g l =>
      let f := Ty.fmt x.ty
      let r (e : Nat) := roundF f x.rnd 0 false (FVal.add x.rnd (srcHalf f g x.a e l) (srcHalf f g x.b e l))
      r 0 + r 1 * 65536) ∧
    FltLaw .pmul2 (fun x g l =>
      let f := Ty.fmt x.ty
      let r (e : Nat) := roundF f x.rnd 0 false (FVal.mul (srcHalf f g x.a e l) (srcHalf f g x.b e l))
      r 0 + r 1 * 65536) ∧
    FltLaw3 .pfma2 (fun x g l =>
      let f := Ty.fmt x.ty
      let r (e : Nat) := roundF f x.rnd 0 false
        (FVal.add x.rnd (FVal.mul (srcHalf f g x.a e l) (srcHalf f g x.b e l)) (srcHalf f g x.t e l))
      r 0 + r 1 * 65536))

/-- R234: FMIN and FMAX complete and return one of their operands unrounded: the other one where exactly one is a NaN, 0x7FC00000 where
both are, else the lesser or the greater, with -0 below +0. -/
def Obligations.FloatMinMax : Prop :=
  FltLaw .fmin (fun x g l => minMax false (srcPat g x.a l) (srcPat g x.b l)) ∧
  FltLaw .fmax (fun x g l => minMax true (srcPat g x.a l) (srcPat g x.b l)) ∧
  (∀ (hi : Bool) (p q : Nat), p < 2 ^ 32 → q < 2 ^ 32 →
    let a := decodeF fF32 p
    let b := decodeF fF32 q
    (a = .nan → b = .nan → minMax hi p q = 0x7FC00000) ∧ (a = .nan → b ≠ .nan → minMax hi p q = q) ∧
    (a ≠ .nan → b = .nan → minMax hi p q = p) ∧
    (a ≠ .nan → b ≠ .nan → FVal.cmp a b < 0 → minMax hi p q = if hi then q else p) ∧
    (a ≠ .nan → b ≠ .nan → FVal.cmp b a < 0 → minMax hi p q = if hi then p else q)) ∧
  minMax false 0x80000000 0 = 0x80000000 ∧ minMax false 0 0x80000000 = 0x80000000 ∧
  minMax true 0x80000000 0 = 0 ∧ minMax true 0 0x80000000 = 0

/-- R235, R236, R237: the function instructions complete with the function's pattern, and the special values are those of the table: a
NaN gives 0x7FC00000; infinities, zeros and negative operands as stated there; FLG2(1) is +0; FSIN of an integer is a zero with the
integer's sign; FCOS of an odd multiple of 1/2 is +0. FCMP and FCLASS complete and write the predicate D: a NaN makes every condition
false but .ne and .nan, and the class of a pattern is the one the table of R237 names. -/
def Obligations.FloatFunctionsAndCompare : Prop :=
  (FltLaw1 .frcp frcpPat ∧ FltLaw1 .frsq frsqPat ∧ FltLaw1 .fsqrt fsqrtPat ∧ FltLaw1 .fex2 fex2Pat ∧
    FltLaw1 .flg2 flg2Pat ∧ FltLaw1 .fsin fsinPat ∧ FltLaw1 .fcos fcosPat ∧
    (∀ f ∈ [frcpPat, frsqPat, fsqrtPat, fex2Pat, flg2Pat, fsinPat, fcosPat], f .nan = 0x7FC00000) ∧
    (∀ e : Int,
      [frcpPat, frsqPat, fsqrtPat, fex2Pat, flg2Pat, fsinPat, fcosPat].map (fun f => f (.inf true)) =
        [0x80000000, 0x7FC00000, 0x7FC00000, 0, 0x7FC00000, 0x7FC00000, 0x7FC00000] ∧
      [frcpPat, frsqPat, fsqrtPat, fex2Pat, flg2Pat, fsinPat, fcosPat].map (fun f => f (.fin true 0 e)) =
        [0xFF800000, 0xFF800000, 0x80000000, 0x3F800000, 0xFF800000, 0x80000000, 0x3F800000] ∧
      [frcpPat, frsqPat, fsqrtPat, fex2Pat, flg2Pat, fsinPat, fcosPat].map (fun f => f (.fin false 0 e)) =
        [0x7F800000, 0x7F800000, 0, 0x3F800000, 0xFF800000, 0, 0x3F800000] ∧
      [frcpPat, frsqPat, fsqrtPat, fex2Pat, flg2Pat, fsinPat, fcosPat].map (fun f => f (.inf false)) =
        [0, 0, 0x7F800000, 0x7F800000, 0x7F800000, 0x7FC00000, 0x7FC00000]) ∧
    (∀ (m : Nat) (e : Int), m ≠ 0 →
      frsqPat (.fin true m e) = 0x7FC00000 ∧ fsqrtPat (.fin true m e) = 0x7FC00000 ∧ flg2Pat (.fin true m e) = 0x7FC00000) ∧
    flg2Pat (.fin false 1 0) = 0 ∧ frcpPat (.fin false 1 1) = 0x3F000000 ∧ fsqrtPat (.fin false 1 2) = 0x40000000 ∧
    ∀ (s : Bool) (m k : Nat), fsinPat (.fin s m k) = (if s then 0x80000000 else 0) ∧
      fsinPat (.fin s (m * 2 ^ k) (-(k : Int))) = (if s then 0x80000000 else 0) ∧ fcosPat (.fin s ((2 * m + 1) * 2 ^ k) (-(k + 1 : Nat))) = 0) ∧
  ((∀ (s : State) (c : Ctx) (x : FCmpA), ctxOf s x.h = some c → WellFormed (.fcmp x) = true →
      Decides c (exec (.fcmp x) s) x.d.tag fun l =>
        let a := srcF c.g x.a l
        let b := srcF c.g x.b l
        if a = .nan ∨ b = .nan then x.cond == .ne || x.cond == .nan
        else match x.cond with
          | .eq => FVal.cmp a b == 0
          | .ne => FVal.cmp a b != 0
          | .lt => decide (FVal.cmp a b < 0)
          | .le => decide (FVal.cmp a b ≤ 0)
          | .gt => decide (FVal.cmp a b > 0)
          | .ge => decide (FVal.cmp a b ≥ 0)
          | .num => true
          | .nan => false) ∧
    (∀ (s : State) (c : Ctx) (x : FClassA), ctxOf s x.h = some c → WellFormed (.fclass x) = true →
      Decides c (exec (.fclass x) s) x.d.tag fun l => x.mask.getLsbD (
        let p := srcPat c.g x.a l % 2 ^ 32
        if p = 0xFF800000 then 0
        else if 0x80800000 ≤ p ∧ p ≤ 0xFF7FFFFF then 1
        else if 0x80000001 ≤ p ∧ p ≤ 0x807FFFFF then 2
        else if p = 0x80000000 then 3
        else if p = 0 then 4
        else if 1 ≤ p ∧ p ≤ 0x7FFFFF then 5
        else if 0x800000 ≤ p ∧ p ≤ 0x7F7FFFFF then 6
        else if p = 0x7F800000 then 7
        else 8)))

/-- R241, R209, R243: CVT completes; a wide destination is the converted value extended, a narrow one is put into its slot with the
other slots kept. Rounding a value that a format holds gives its pattern back, in every mode. LSEMRG completes with the merge of the two
quads in every active lane. The merge does not depend on their order; any NaN among the eight, or a score of +∞, gives four NaNs;
otherwise the score is one of the two and no less than either; with a score of -∞ in one quad and finite sums the other quad comes back;
the example of the rule. -/
def Obligations.ConversionAndMerge : Prop :=
  (∀ (s : State) (c : Ctx) (x : CvtA), ctxOf s x.h = some c → WellFormed (.cvt x) = true →
      GoesOn c (exec (.cvt x) s) fun _ g => ∀ l ∈ c.lanes,
        let k := laneFor c x.d l
        let n := x.dty.width
        let draw := if x.rnd = .sr then (srStep (stGet c.g.sr k)).toNat else 0
        let r := cvtPat x (cvtSrc c.g x k) draw
        let old := (srcD c.g x.d 1 k).toNat
        let lo := n * x.dsel.toNat
        srcD g x.d x.dty.regs l = seen x.d x.dty.regs (
          if n < 32 then BitVec.ofNat 64 (old - old / 2 ^ lo % 2 ^ n * 2 ^ lo + r * 2 ^ lo)
          else if x.dty.isInt then BitVec.ofInt 64 (toIntN n x.dty.isSigned r) else BitVec.ofNat 64 r)) ∧
  (∀ f ∈ [fF32, fBf16, fF16, fE4m3, fE5m2, fE2m1], ∀ (mode : Rnd) (r : Nat) (sat : Bool) (p : Nat), p < 2 ^ f.bits →
      (∀ neg, decodeF f p ≠ .inf neg) → decodeF f p ≠ .nan → roundF f mode r sat (decodeF f p) = p) ∧
  ((∀ (s : State) (c : Ctx) (x : FBin), ctxOf s x.h = some c → WellFormed (.lsemrg x) = true →
      GoesOn c (exec (.lsemrg x) s) fun _ g => ∀ l ∈ c.lanes,
        let r := lseMerge (quadOf c.g x.a l) (quadOf c.g x.b l)
        getV g x.d.vIdx l = BitVec.ofNat 32 r.1 ∧ getV g (x.d.vIdx + 1) l = BitVec.ofNat 32 r.2.1 ∧
        getV g (x.d.vIdx + 2) l = BitVec.ofNat 32 r.2.2.1 ∧ getV g (x.d.vIdx + 3) l = BitVec.ofNat 32 r.2.2.2) ∧
    let d := decodeF fF32
    let eight (q r : Nat × Nat × Nat × Nat) : List Nat := [q.1, q.2.1, q.2.2.1, q.2.2.2, r.1, r.2.1, r.2.2.1, r.2.2.2]
    (∀ q r, lseMerge q r = lseMerge r q) ∧
    (∀ q r, (∃ x ∈ eight q r, d x = .nan) ∨ d q.1 = .inf false ∨ d r.1 = .inf false →
      lseMerge q r = (0x7FC00000, 0x7FC00000, 0x7FC00000, 0x7FC00000)) ∧
    (∀ q r, (∀ x ∈ eight q r, d x ≠ .nan) → d q.1 ≠ .inf false → d r.1 ≠ .inf false →
      let m := (lseMerge q r).1
      (m = q.1 ∨ m = r.1) ∧ 0 ≤ FVal.cmp (d m) (d q.1) ∧ 0 ≤ FVal.cmp (d m) (d r.1)) ∧
    (∀ q r, (∀ x ∈ eight q r, x < 2 ^ 32) → r.1 = 0xFF800000 → (∀ x ∈ (eight q r).eraseIdx 4, (d x).isSpecial = false) →
      (∀ x ∈ [q.2.1, q.2.2.1, q.2.2.2], x ≠ 0x80000000) → lseMerge q r = q) ∧
    lseMerge (0x40400000, 0x40000000, 0x40C00000, 0x3F800000) (0x3F800000, 0x40800000, 0x41000000, 0xC0800000) =
      (0x40400000, 0x40400000, 0x41000000, 0))

/-- R245 to R247, R250, R251: MOV, MOVI and SEL complete with the value copied, written or selected; 32-bit values are zero-extended in
a uniform register, and MOVI.b64.hi keeps D[31:0]. SREAD completes with the special value that MOD names. -/
def Obligations.MovesAndSpecialValues : Prop :=
  ((∀ (s : State) (c : Ctx) (x : MovA), ctxOf s x.h = some c → WellFormed (.mov x) = true →
      (x.w = .b32 → Computes c (exec (.mov x) s) x.d 1 fun l => ((srcD c.g x.a 1 l).setWidth 32).setWidth 64) ∧
      (x.w = .b64 → Computes c (exec (.mov x) s) x.d 2 fun l => srcD c.g x.a 2 l) ∧
      (x.w = .b128 → GoesOn c (exec (.mov x) s) fun _ g => ∀ l ∈ c.lanes, ∀ i < 4,
        getV g (x.d.vIdx + i) l = getV c.g (x.a.vIdx + i) l)) ∧
    (∀ (s : State) (c : Ctx) (x : MoviA), ctxOf s x.h = some c → WellFormed (.movi x) = true →
      Computes c (exec (.movi x) s) x.d (if x.wide then 2 else 1) fun l =>
        if !x.wide then x.imm.setWidth 64
        else if x.hi then x.imm ++ (srcD c.g x.d 2 l).extractLsb' 0 32
        else x.imm.signExtend 64) ∧
    (∀ (s : State) (c : Ctx) (x : SelA), ctxOf s x.h = some c → WellFormed (.sel x) = true →
      Computes c (exec (.sel x) s) x.d (if x.wide then 2 else 1) fun l =>
        let o := if getP c.g x.t.tag l then x.a else x.b
        if x.wide then srcD c.g o 2 l else ((srcD c.g o 1 l).setWidth 32).setWidth 64)) ∧
  (∀ (s : State) (c : Ctx) (x : SreadA), ctxOf s x.h = some c → WellFormed (.sread x) = true →
      Computes c (exec (.sread x) s) x.d (if x.sel.wide then 2 else 1) fun l =>
        let t := c.r.team.team
        match x.sel with
        | .laneid => BitVec.ofNat 64 l
        | .groupid => BitVec.ofNat 64 c.g.id
        | .teamid => BitVec.ofNat 64 t
        | .teamx => BitVec.ofNat 64 (t % c.gr.gx)
        | .teamy => BitVec.ofNat 64 (t / c.gr.gx % c.gr.gy)
        | .teamz => BitVec.ofNat 64 (t / (c.gr.gx * c.gr.gy))
        | .ngroups => BitVec.ofNat 64 (c.gr.cgrp + 1)
        | .member => BitVec.ofNat 64 c.t.member
        | .gridid => BitVec.ofNat 64 c.gr.id
        | .core => BitVec.ofNat 64 c.t.core
        | .cluster => BitVec.ofNat 64 (c.t.core / 8)
        | .die => BitVec.ofNat 64 (c.t.core / 88)
        | .ldid => BitVec.ofNat 64 c.ld
        | .cycles => BitVec.ofNat 64 s.cycle
        | .rootgen => match c.g.pin with
          | some p => BitVec.ofNat 64 p.gen
          | none => 0
        | .bndflag => c.t.bflags.setWidth 64
        | .srstate => (stGet c.g.sr l).setWidth 64
        | .entrymask => c.u.mask.setWidth 64)

/-- R248, R249, R252, R253, R74, R77: PSET and PMOV complete: a predicate is the operation of two predicates, inverted where NA or NB is
set; .tov packs p7 to p0 into D[7:0]; .fromv sets the predicates p0 to p6 that its mask names from the bits of A. MODSET and BNDSET
complete: the modulo register takes its image, valid where base and length fit 20 bits; the bound register is replaced whole and its
flag cleared, and b0 keeps its zero. -/
def Obligations.PredicatesModuloBounds : Prop :=
  ((∀ (s : State) (c : Ctx) (x : PsetA), ctxOf s x.h = some c → WellFormed (.pset x) = true →
      Decides c (exec (.pset x) s) x.d.tag fun l =>
        let a := getP c.g x.a.tag l ^^ x.na
        let b := getP c.g x.b.tag l ^^ x.nb
        match x.op with
        | .and => a && b
        | .or => a || b
        | .xor => a ^^ b) ∧
    (∀ (s : State) (c : Ctx) (x : OneD), ctxOf s x.h = some c → WellFormed (.pmovTov x) = true →
      GoesOn c (exec (.pmovTov x) s) fun _ g => ∀ l ∈ c.lanes, ∀ i < 32,
        (getV g x.d.vIdx l).getLsbD i = (decide (i < 8) && getP c.g i l)) ∧
    (∀ (s : State) (c : Ctx) (x : PmovFromA), ctxOf s x.h = some c → WellFormed (.pmovFromv x) = true →
      GoesOn c (exec (.pmovFromv x) s) fun _ g => ∀ l ∈ c.lanes, ∀ i < 7,
        getP g i l = if x.mask.getLsbD i then (getV c.g x.a.vIdx l).getLsbD i else getP c.g i l)) ∧
  ((∀ (s : State) (c : Ctx) (x : ModsetA), ctxOf s x.h = some c → WellFormed (.modset x) = true → c.lanes ≠ [] →
      GoesOn c (exec (.modset x) s) fun _ g =>
        let a := (srcD c.g x.a 1 c.low).toNat
        let b := (srcD c.g x.b 1 c.low).toNat
        (getM g x.d.tag).toNat = if x.raw then a
          else (if a < 2 ^ 20 ∧ b < 2 ^ 20 then 2 ^ 63 else 0) + b % 2 ^ 20 * 2 ^ 24 + a % 2 ^ 20) ∧
    (∀ (s : State) (c : Ctx) (x : ThreeDAB), ctxOf s x.h = some c → WellFormed (.bndset x) = true → c.lanes ≠ [] →
      GoesOn c (exec (.bndset x) s) fun t _ => ∃ u, teamOf t c.r.team = some u ∧
        let a := (srcD c.g x.a 1 c.low).toNat
        let b := (srcD c.g x.b 1 c.low).toNat
        (getB u x.d.tag).toNat = (if x.d.tag = 0 then 0 else a * 2 ^ 64 + b / 16 % 2 * 16 + b % 4) ∧
        ∀ k < 16, u.bflags.getLsbD k = (c.t.bflags.getLsbD k && !(x.d.tag != 0 && k == x.d.tag))))

/-- R255, R256, R256, R85, R86: BRA, BRX, CALL and CALLX complete: each active lane goes to its target with TPRIO, the other lanes to PC
+ 12; a call raises each active lane's SP by 16 × FS and writes its link quad (R257). A call whose frame is larger than the stack cache
allows traps STKLIM with detail 2; one that takes a lane above SLIMIT traps STKLIM with detail 1. -/
def Obligations.BranchesAndCalls : Prop :=
  ((∀ (s : State) (c : Ctx) (x : BraA), ctxOf s x.h = some c → WellFormed (.bra x) = true →
      let target : Ptr := c.u.pc.extractLsb' 56 8 ++ (c.u.pc.extractLsb' 0 56 + 12 + 4 * x.off.signExtend 56)
      RoomFor c (c.lanes.map fun _ => target) → Transfers c (exec (.bra x) s) (fun _ => target) (fun _ => x.tprio) fun _ _ => True) ∧
    (∀ (s : State) (c : Ctx) (x : BrxA), ctxOf s x.h = some c → WellFormed (.brx x) = true →
      RoomFor c (c.lanes.map (srcD c.g x.a 2)) →
      Transfers c (exec (.brx x) s) (srcD c.g x.a 2) (fun _ => x.tprio) fun _ _ => True) ∧
    (∀ (s : State) (c : Ctx) (h : Hdr) (d : Opnd) (tprio : BitVec 8) (fs : BitVec 9) (i : Instr) (target : Nat → Ptr),
      ((∃ off, i = .call ⟨h, tprio, d, off, fs⟩ ∧
          target = fun _ => c.u.pc.extractLsb' 56 8 ++ (c.u.pc.extractLsb' 0 56 + 12 + 4 * off.signExtend 56)) ∨
        (∃ a, i = .callx ⟨h, tprio, d, a, fs⟩ ∧ target = srcD c.g a 2)) →
      ctxOf s h = some c → WellFormed i = true → c.lanes ≠ [] → 16 * fs.toNat ≤ stackCap c.g →
      (∀ l ∈ c.lanes, spOf c.g l + 16 * fs.toNat ≤ c.g.slimit) → (∀ l ∈ c.lanes, c.g.frames.length > l) →
      (∀ l ∈ c.lanes, stackFault s c.t c.gr c.g l (max (loOf c.g l) (spOf c.g l - stackCap c.g))
        (spOf c.g l + 16 * fs.toNat - stackCap c.g) .write = none) →
      RoomFor c (c.lanes.map target) →
      Transfers c (exec i s) target (fun _ => tprio) fun _ g => ∀ l ∈ c.lanes,
        spOf g l = (spOf c.g l + 16 * fs.toNat) % 2 ^ 64 ∧ g.frames.getD l [] = 16 * fs.toNat :: c.g.frames.getD l [] ∧
        getV g (d.vIdx + 1) l ++ getV g d.vIdx l = nextPc c.u.pc ∧
        getV g (d.vIdx + 2) l = BitVec.ofNat 32 (fs.toNat * 256 + c.u.prio.toNat) ∧ getV g (d.vIdx + 3) l = 0)) ∧
  (∀ (s : State) (c : Ctx) (i : Instr) (h : Hdr) (fs : BitVec 9), (∃ x : CallA, i = .call x ∧ h = x.h ∧ fs = x.fs) ∨
        (∃ x : CallxA, i = .callx x ∧ h = x.h ∧ fs = x.fs) → ctxOf s h = some c → WellFormed i = true → CanTrap c → c.lanes ≠ [] →
      (stackCap c.g < 16 * fs.toNat → Traps c (exec i s) cSTKLIM 2 (lowest c.u.mask) 0) ∧
      (∀ l ∈ c.lanes, 16 * fs.toNat ≤ stackCap c.g → (∀ k ∈ c.lanes, k < l → spOf c.g k + 16 * fs.toNat ≤ c.g.slimit) →
        c.g.slimit < spOf c.g l + 16 * fs.toNat → Traps c (exec i s) cSTKLIM 1 l 0))

/-- R258: RET completes where every active lane's link quad checks: SP falls by 16 × FS and the lane goes to the return pointer with the
caller's priority; where one does not check, RET traps STKLIM with detail 4 and no lane moves. -/
def Obligations.Returns : Prop :=
  ∀ (s : State) (c : Ctx) (x : OneA), ctxOf s x.h = some c → WellFormed (.ret x) = true →
    let link (l : Nat) : Ptr := getV c.g (x.a.vIdx + 1) l ++ getV c.g x.a.vIdx l
    let prio (l : Nat) : BitVec 8 := (getV c.g (x.a.vIdx + 2) l).setWidth 8
    let fs (l : Nat) : Nat := (getV c.g (x.a.vIdx + 2) l).toNat / 256 % 512
    let checks (l : Nat) : Prop := (getV c.g (x.a.vIdx + 2) l).toNat < 2 ^ 17 ∧ getV c.g (x.a.vIdx + 3) l = 0 ∧ fs l ≤ 256 ∧
      16 * fs l ≤ spOf c.g l
    ((∀ l ∈ c.lanes, checks l ∧
        stackFault s c.t c.gr c.g l (spOf c.g l - 16 * fs l - stackCap c.g) (min (spOf c.g l - 16 * fs l) (loOf c.g l)) .read = none) →
      RoomFor c (c.lanes.map fun l => (link l, prio l)) →
      Transfers c (exec (.ret x) s) link prio fun _ g => ∀ l < 32,
        spOf g l = if l ∈ c.lanes then spOf c.g l - 16 * fs l else spOf c.g l) ∧
    (CanTrap c → ∀ l ∈ c.lanes, (∀ k ∈ c.lanes, k < l → checks k) → ¬checks l → Traps c (exec (.ret x) s) cSTKLIM 4 l 0)

/-- R259, R164, R260, R261, R262: EXIT completes. With some lane of the entry left, the active lanes are in no entry of the frontier any
more and the others go on at PC + 12; a guard false in every lane changes no lane's life. RCV waits, and its completion makes one entry
at PC + 12 of every live lane, with the highest priority and AGE 0. YIELD, SLEEP and NOP complete at PC + 12 and change no register,
buffer or memory; the issue delay after SLEEP is its n cycles where a lane is active, else DLY. -/
def Obligations.ExitReconvergeYield : Prop :=
  ((∀ (s : State) (c : Ctx) (h : Hdr), ctxOf s h = some c → c.g.handler = none → c.g.rung = none → c.lanes ≠ [] →
      (∀ e ∈ others c.u (frontOf c.g), e.mask &&& c.u.mask = 0) →
      (∃ l < 32, c.u.mask.getLsbD l = true ∧ l ∉ c.lanes) → (others c.u (frontOf c.g)).length < depthOf c.g →
      ∃ t g, EndsIn c (exec (.exit h) s) t g ∧ (∀ l ∈ c.lanes, (liveLanes g).getLsbD l = false) ∧
        ∀ l < 32, c.u.mask.getLsbD l = true → l ∉ c.lanes → StandsAt g.frontier l (nextPc c.u.pc) c.u.prio) ∧
    (∀ (s : State) (c : Ctx) (h : Hdr), ctxOf s h = some c → c.lanes = [] → GoesOn c (exec (.exit h) s) fun _ g => g.v = c.g.v)) ∧
  ((∀ (s : State) (c : Ctx) (h : Hdr), ctxOf s h = some c → WellFormed (.rcv h) = true → c.g.rung = none → c.g.handler = none →
      ((∃ e ∈ others c.u (frontOf c.g), e.st = .ready) ∨
        ∀ e ∈ others c.u (frontOf c.g), e.pc = c.u.pc ∧ ∃ n, e.st = .waiting .rcv n) → (others c.u (frontOf c.g)).length < depthOf c.g →
      Waits c (exec (.rcv h) s) .rcv) ∧
    (∀ (s : State) (r : GroupRef) (g : Group) (pc : Ptr), wakeable s r = some g → frontOf g ≠ [] →
      (∀ e ∈ frontOf g, e.pc = pc ∧ ∃ n, e.st = .waiting .rcv n) →
      ∃ t g' e, exec (.rcvComplete r pc) s = .next t ∧ groupOf t r = some g' ∧ frontOf g' = [e] ∧ e.pc = nextPc pc ∧
        e.age = 0 ∧ e.st = .ready ∧ (∀ l < 32, e.mask.getLsbD l = (frontOf g).any fun x => x.mask.getLsbD l) ∧
        (∃ x ∈ frontOf g, x.prio = e.prio) ∧ ∀ x ∈ frontOf g, x.prio ≤ e.prio)) ∧
  ((∀ (s : State) (c : Ctx) (h : Hdr) (i : Instr), i = .yield h ∨ i = .nop h → ctxOf s h = some c →
      GoesOn c (exec i s) fun t g => g.v = c.g.v ∧ bankOf g = bankOf c.g ∧ t.mem = s.mem ∧ g.delay = s.cycle + 1 + h.dly.toNat) ∧
    (∀ (s : State) (c : Ctx) (x : SleepA), ctxOf s x.h = some c →
      GoesOn c (exec (.sleep x) s) fun t g => g.v = c.g.v ∧ bankOf g = bankOf c.g ∧ t.mem = s.mem ∧
        g.delay = s.cycle + 1 + if c.lanes = [] then x.h.dly.toNat else x.n.toNat))

/-- R264, R166, R265, R167: PART completes and sets the partition's size and its members, the active lanes; with no active lane it
changes nothing; with a collective waiting on the partition it traps PARTN with detail 2. Readings of the model that it rests on: log
38. A collective on an undefined partition traps PARTN with detail 1; the entry of a lane that waits in a collective whose sub-groups
have converged goes on at PC + 12 with the results written. -/
def Obligations.PartitionsAndWaits : Prop :=
  (∀ (s : State) (c : Ctx) (x : PartA), ctxOf s x.h = some c → WellFormed (.part x) = true →
      (c.lanes = [] → GoesOn c (exec (.part x) s) fun _ g => g.parts = c.g.parts) ∧
      (c.lanes ≠ [] → (∀ e ∈ c.g.frontier ++ (c.g.handler.map Handler.frontier).getD [], collOn x.d.tag e = false) →
        x.d.tag < c.g.parts.length →
        GoesOn c (exec (.part x) s) fun _ g => (∀ k, k ≠ x.d.tag → partOf g k = partOf c.g k) ∧
          (partOf g x.d.tag).mem = c.act ∧
          (partOf g x.d.tag).lanes = (match x.size with | .sz4 => 4 | .sz8 => 8 | .sz16 => 16)) ∧
      (c.lanes ≠ [] → (∃ e ∈ c.g.frontier, collOn x.d.tag e = true) → CanTrap c →
        Traps c (exec (.part x) s) cPARTN 2 (lowest c.u.mask) 0)) ∧
  ((∀ (s : State) (c : Ctx) (i : Instr) (h : Hdr) (part : Opnd),
      ((∃ x : VoteA, i = .vote x ∧ h = x.h ∧ part = x.t) ∨ (∃ x : ShflA, i = .shfl x ∧ h = x.h ∧ part = x.t) ∨
        (∃ x : ReduceA, i = .reduce x ∧ h = x.h ∧ part = x.t) ∨ (∃ x : ScanA, i = .scan x ∧ h = x.h ∧ part = x.t) ∨
        (∃ x : BcastA, i = .bcast x ∧ h = x.h ∧ part = x.t)) →
      ctxOf s h = some c → (h.gp ≠ 7 ∨ h.neg = false) → (partOf c.g part.tag).lanes = 0 → CanTrap c →
      Traps c (exec i s) cPARTN 1 (lowest c.u.mask) 0) ∧
    (∀ (s : State) (r : GroupRef) (g : Group) (lane : Nat) (e : Entry) (i : Instr) (act : LaneMask)
      (av bv : List (Nat × BitVec 128)) (n : Nat), wakeable s r = some g →
      ((frontOf g).find? fun e => e.mask.getLsbD lane && collReady g (frontOf g) e) = some e → e.st = .waiting (.coll i act av bv) n →
      ∃ t g', exec (.collectiveConverge r lane) s = .next t ∧ groupOf t r = some g' ∧ g'.v = (collRun i g act av bv).v ∧
        bankOf g' = bankOf (collRun i g act av bv) ∧
        ∀ l < 32, e.mask.getLsbD l = true → StandsAt (frontOf g') l (nextPc e.pc) e.prio))

/-- R266, R266, R267: VOTE, SHFL and BCAST complete with the results of the table, in every participant of a converged sub-group. REDUCE
and SCAN complete with the combination of the participants' values: over the sub-group, or over its lanes up to (.excl: below) the lane.
On integers the sum is modular, the least and greatest follow the type's sign, and the empty combinations are those of the table. -/
def Obligations.Collectives : Prop :=
  ((∀ x : VoteA, Collects (.vote x) x.h x.t fun c p g l =>
      let q := participants c p l
      let a (k : Nat) : Bool := getP c.g x.a.tag k
      match x.mode with
      | .all => getP g x.d.tag l = (x.d.tag == 7 || q.all a)
      | .any => getP g x.d.tag l = (x.d.tag == 7 || q.any a)
      | .uni => getP g x.d.tag l = (x.d.tag == 7 || q.all a || !q.any a)
      | .ballot => ∀ j < 32, (getV g x.d.vIdx l).getLsbD j = (q.contains j && a j)) ∧
    (∀ x : ShflA, Collects (.shfl x) x.h x.t fun c p g l =>
      let q := participants c p l
      let base := l / p.lanes * p.lanes
      let b : Nat := (srcD c.g x.b 1 l).toNat % 2 ^ 32
      let src : Int := match x.mode with
        | .idx => (base + b % p.lanes : Nat)
        | .up => (l : Int) - (b : Int)
        | .down => (l + b : Nat)
        | .xor => (base + ((l - base) ^^^ b) : Nat)
      let w := if x.wide then 2 else 1
      srcD g x.d w l = srcD c.g x.a w (if q.any fun k => (k : Int) == src then src.toNat else l)) ∧
    (∀ x : BcastA, Collects (.bcast x) x.h x.t fun c p g l =>
      let b := (srcD c.g x.b 1 l).toNat % 2 ^ 32
      let src := l / p.lanes * p.lanes + b % p.lanes
      ∀ i < x.w.regs, getV g (x.d.vIdx + i) l =
        if (participants c p l).contains src then getV c.g (x.a.vIdx + i) src else getV c.g (x.d.vIdx + i) l)) ∧
  ((∀ x : ReduceA, Collects (.reduce x) x.h x.t fun c p g l =>
      srcD g x.d x.ty.regs l = seen x.d x.ty.regs
        (combine x.op x.ty ((participants c p l).map fun k => (srcD c.g x.a x.ty.regs k).setWidth 128))) ∧
    (∀ x : ScanA, Collects (.scan x) x.h x.t fun c p g l =>
      srcD g x.d x.ty.regs l = seen x.d x.ty.regs
        (combine x.op x.ty (((participants c p l).filter fun k => if x.excl then decide (k < l) else decide (k ≤ l)).map fun k =>
          (srcD c.g x.a x.ty.regs k).setWidth 128))) ∧
    (∀ (ty : Ty) (vs : List (BitVec 128)), ty.isWide = true →
      let z (v : BitVec 128) : Int := toIntN ty.width ty.isSigned v.toNat
      combine .add ty vs = delivered ty false (vs.map z).sum ∧
      (∀ m, (∃ w ∈ vs, m = z w) → (∀ w ∈ vs, m ≤ z w) → combine .min ty vs = delivered ty false m) ∧
      (∀ m, (∃ w ∈ vs, m = z w) → (∀ w ∈ vs, z w ≤ m) → combine .max ty vs = delivered ty false m) ∧
      combine .or ty [] = 0 ∧ combine .xor ty [] = 0 ∧ combine .and ty [] = delivered ty false (2 ^ ty.width - 1) ∧
      combine .min ty [] = delivered ty false (if ty.isSigned then 2 ^ (ty.width - 1) - 1 else 2 ^ ty.width - 1) ∧
      combine .max ty [] = delivered ty false (if ty.isSigned then -2 ^ (ty.width - 1) else 0)) ∧
    combine .add .f32 [] = 0 ∧ combine .min .f32 [] = 0x7F800000 ∧ combine .max .f32 [] = 0xFF800000)

/-- R269, R268, R269, R429, R272, R273, R391: BARA, BARS and BARW complete. BARA adds an arrival and moves on, whether or not its
arrival fills the phase; BARS moves on where its arrival fills the phase, and otherwise waits; BARW adds none and waits for the open
phase. The arrival that fills a phase completes it: the barrier is idle, and every entry that waited there, at a BARS or a BARW, is
ready at its PC + 12. A named barrier instruction with an active lane traps BARID with detail 1 for an id at or beyond NBAR, 3 for a
count outside 1 to 1,024, 2 for a count that differs from the open phase's; without one it does nothing. TBAR and GBAR complete where
theirs is the last arrival: the entry's lanes, and every lane of every group of the team (for GBAR, of every team of the gang that has
not exited) that waited, move to PC + 12; with another group of the team still to come the entry waits. In a team of one group
TBAR.refresh moves the team's and the group's pins to the slot's current root; where the slot is empty the group is to trap at its next
instruction. -/
def Obligations.Barriers : Prop :=
  (∀ (s : State) (c : Ctx) (x : BarA), ctxOf s x.h = some c → BarOk c x →
      let b := barOf c.t (barId c x)
      let n := (barCount c x).toNat
      (b.arrived + 1 < n → GoesOn c (exec (.bara x) s) fun t _ => BarOpen t c x (b.arrived + 1)) ∧
      (n ≤ b.arrived + 1 → ∀ i ∈ [Instr.bara x, Instr.bars x], ∃ t g, EndsIn c (exec i s) t g ∧ BarDone t c x ∧
        ∀ l < 32, c.u.mask.getLsbD l = true → StandsAt (frontOf g) l (nextPc c.u.pc) c.u.prio) ∧
      ((others c.u (frontOf c.g)).length < depthOf c.g → c.g.rung = none →
        (b.arrived + 1 < n → Waits c (exec (.bars x) s) (.bar (barId c x) b.phase)) ∧
        (b.arrived < n → Waits c (exec (.barw x) s) (.bar (barId c x) b.phase)))) ∧
  (∀ (s : State) (c : Ctx) (x : BarA), ctxOf s x.h = some c → ∀ i ∈ [Instr.bara x, Instr.barw x, Instr.bars x],
      (c.lanes = [] → GoesOn c (exec i s) fun _ g => g.v = c.g.v) ∧
      (c.lanes ≠ [] → CanTrap c →
        (c.gr.nbar ≤ barId c x → Traps c (exec i s) cBARID 1 (lowest c.u.mask) 0) ∧
        (barId c x < c.gr.nbar → barCount c x < 1 ∨ 1024 < barCount c x → Traps c (exec i s) cBARID 3 (lowest c.u.mask) 0) ∧
        (barId c x < c.gr.nbar → 1 ≤ barCount c x → barCount c x ≤ 1024 → (barOf c.t (barId c x)).expect ≠ 0 →
          ((barOf c.t (barId c x)).expect : Int) ≠ barCount c x → Traps c (exec i s) cBARID 2 (lowest c.u.mask) 0))) ∧
  (∀ (s : State) (c : Ctx) (i : Instr) (h : Hdr) (w : Wait),
      ((∃ x : TbarA, i = .tbar x ∧ h = x.h ∧ w = .tbar x.refresh) ∨ (i = .gbar h ∧ w = .gbar)) →
      ctxOf s h = some c → WellFormed i = true → c.g.handler = none → c.g.pendTrap = none → c.g.rung = none →
      (others c.u (frontOf c.g)).length < depthOf c.g →
      ((∃ q ∈ c.t.groups, q.id ≠ c.g.id ∧ q.rung = none ∧ q.handler = none ∧ ∃ e ∈ q.frontier, e.st = .ready) → c.t.stage ≠ .exited →
        Waits c (exec i s) w) ∧
      (Apart s c → (∀ e ∈ others c.u (frontOf c.g), e.waits (arrivesLike w) = true) →
        (∀ q ∈ c.t.groups, q.id ≠ c.g.id → q.rung = none → arrivedAt (arrivesLike w) q = true) →
        (w = .gbar → ∀ v ∈ gangTeams s (gangKey s c.r.team), v.r ≠ c.r.team → gbarTeam v = true) →
        ∃ t g, EndsIn c (exec i s) t g ∧ (∀ l < 32, c.u.mask.getLsbD l = true → StandsAt (frontOf g) l (nextPc c.u.pc) c.u.prio) ∧
          (∀ e ∈ others c.u (frontOf c.g), ∀ l < 32, e.mask.getLsbD l = true → StandsAt (frontOf g) l (nextPc e.pc) e.prio) ∧
          let woken (v : Team) : Prop := TeamIs t v.r fun u => ∀ q ∈ v.groups, (v.r = c.r.team → q.id ≠ c.g.id) → q.rung = none →
            ∀ e ∈ q.frontier, ∃ q' ∈ u.groups, q'.id = q.id ∧ ∀ l < 32, e.mask.getLsbD l = true → StandsAt q'.frontier l (nextPc e.pc) e.prio
          woken c.t ∧ (w = .gbar → ∀ v ∈ gangTeams s (gangKey s c.r.team), v.r ≠ c.r.team → v.stage ≠ .exited → woken v)) ∧
      (others c.u (frontOf c.g) = [] → gangTeams s ⟨c.ld, c.r.team.grid, c.r.team.team / gangSize s c.r.team⟩ = [c.t] →
        c.t.groups = [c.g] → (s.teams.filter fun u => u.r == c.r.team) = [c.t] →
        ∃ t g u, EndsIn c (exec i s) t g ∧ teamOf t c.r.team = some u ∧
          (∀ l < 32, c.u.mask.getLsbD l = true → StandsAt (frontOf g) l (nextPc c.u.pc) c.u.prio) ∧
          let root := (ldOf s c.ld).slots.getD c.gr.slot emptyRoot
          if w = .tbar true then
            if root.full then g.pin.map Pin.gen = some root.gen ∧ u.pin.map Pin.gen = some root.gen else g.emptySlot = true ∧ g.pin = c.g.pin
          else g.pin = c.g.pin))

/-- R276 to R278, R82, R83, R83, R278: LDW, LDA and LDC complete with the addressed bytes, extended to the destination's width, and wait
where a granule of a .fe form is empty. A lane that waits for a full granule takes its load once the granule is full; with the last lane
the entry goes on at PC + 12. Readings of the model that it rests on: log 47. -/
def Obligations.BufferLoads : Prop :=
  (LoadLaw .w .ldw ∧ LoadLaw .a .lda ∧ LoadLaw .c .ldc) ∧
  (∀ (s : State) (r : GroupRef) (g : Group) (t : Team) (e : Entry) (b : Buf) (i : Instr) (x : LdA) (l m off : Nat) (upd : DWord)
      (lane : Nat), Running s → groupOf s r = some g → teamOf s r.team = some t → s.sram = [] → g.pendTrap = none → waitAt g lane = some (e, .feLoad i [(l, m, off, upd)] []) →
      (i, b) ∈ [(Instr.ldw x, Buf.w), (.lda x, .a)] → WellFormed i = true → x.fe = .fe → l = lane → x.d.isV = true → x.a.isV = true →
      addrUpdates x.addr = false → allFull ((teamOf s (memberRef t m)).getD t) b off x.sz.bytes = true →
      (teamOf s (memberRef t m)).isSome = true →
      Becomes (exec (.feWaitSatisfied r lane) s) fun u => ∃ g', groupOf u r = some g' ∧ BytesKept s u ∧
        LoadedAs g' x.d x.sz l (bufGet s (memberRef t m) b off x.sz.bytes) ∧
        ∀ k < 32, e.mask.getLsbD k = true → StandsAt (frontOf g') k (nextPc e.pc) e.prio)

/-- R279, R75, R118, R280: STA and STC complete with their bytes written; a violation in trap mode traps. ACC completes: every word of C
takes, in lane order, the rounded sums of itself and the addends that name it; a tag is applied to each sum. -/
def Obligations.BufferStores : Prop :=
  (StoreLaw .a .sta ∧ StoreLaw .c .stc) ∧
  (∀ (s : State) (c : Ctx) (x : StA) (ps : List (Nat × BufAt)), ctxOf s x.h = some c → WellFormed (.acc x) = true → s.sram = [] →
      c.lanes ≠ [] → placeAll c.lanes (bufAddr s c.t c.g .c x.mem x.a x.addr x.sz.bytes) = .ok ps →
      tagTraps (getB c.t x.d.tag) = false →
      GoesOn c (exec (.acc x) s) fun t g => t.mem = s.mem ∧ Kept c.g g (addrKeys x.a x.addr) ∧ Bumped c g x.a x.addr ps ∧
        (∀ r b k, r ≠ c.r.team ∨ b ≠ .c → bufByte t r b k = bufByte s r b k) ∧
        ∀ o, o % 4 = 0 → bufGet t c.r.team .c o 4 =
          ps.foldl (fun y p => (List.range (x.sz.bytes / 4)).foldl (fun y i =>
            if p.2.off + 4 * i = o then
              (tagElem (getB c.t x.d.tag) fF32 (roundN32 (FVal.add .rne (decodeF fF32 y)
                (decodeF fF32 ((srcData c.g x.b x.sz p.1).toNat / 2 ^ (32 * i) % 2 ^ 32))))).2
            else y) y) (bufGet s c.r.team .c o 4))

/-- R276, R277, R73, R428: a buffer load, store or ACC whose address fails a check in a lane traps Whole with the first such lane's
check. The checks are, in this order: the address within the buffer's width, the gang member, the member's allocation, alignment. -/
def Obligations.BufferChecks : Prop :=
  (∀ (s : State) (c : Ctx) (x : LdA) (e : Nat × BufErr), ctxOf s x.h = some c → c.lanes ≠ [] → CanTrap c →
    ∀ p ∈ [(Buf.w, Instr.ldw x), (.a, .lda x), (.c, .ldc x)],
      placeAll (accLanes c x.a.isV) (bufAddr s c.t c.g p.1 x.mem x.a x.addr x.sz.bytes) = .error e →
      Traps c (exec p.2 s) e.2.cause e.2.detail e.1 e.2.addr) ∧
  (∀ (s : State) (c : Ctx) (x : StA) (e : Nat × BufErr), ctxOf s x.h = some c → c.lanes ≠ [] → CanTrap c →
    (∀ p ∈ [(Buf.a, Instr.sta x), (.c, .stc x)],
      placeAll (accLanes c (x.a.isV || x.b.isV)) (bufAddr s c.t c.g p.1 x.mem x.a x.addr x.sz.bytes) = .error e →
      Traps c (exec p.2 s) e.2.cause e.2.detail e.1 e.2.addr) ∧
    (placeAll c.lanes (bufAddr s c.t c.g .c x.mem x.a x.addr x.sz.bytes) = .error e →
      Traps c (exec (.acc x) s) e.2.cause e.2.detail e.1 e.2.addr)) ∧
  (∀ (s : State) (t : Team) (b : Buf) (mem : Bool) (a : Int) (size align : Nat) (upd : DWord),
    let m := if b = .a ∧ mem = true then a.toNat / 2 ^ 20 else t.member
    let off := if b = .a then a.toNat % 2 ^ 20 else a.toNat
    let addr : DWord := BitVec.ofNat 64 (if b = .a then m * 2 ^ 20 + off else off)
    let r := bufPlace s t b mem a size align upd
    let width := match b with | .w => 20 | .a => 23 | .c => 18
    if a < 0 ∨ (2 ^ width : Nat) ≤ a then r = .error ⟨cBUFRANGE, 1, BitVec.ofInt 64 a⟩
    else match (if m < gangSize s t.r then teamOf s (memberRef t m) else none) with
      | none => r = .error ⟨cGANGADDR, 0, addr⟩
      | some u =>
        if (match b with | .w => u.wlen | .a => u.alen | .c => u.clen) < off + size then r = .error ⟨cBUFRANGE, 1, addr⟩
        else if off % align ≠ 0 then r = .error ⟨cBUFRANGE, 2, addr⟩
        else r = .ok ⟨m, off, upd⟩)

/-- R282, R283, R284, R82: LDFRAG and STFRAG complete: every register of the fragment, in every lane of the group, is loaded from, or
stored to, the bytes of the layout, an octet that the destination touches being closed before (R302); a failed check traps Whole. FESET
and FECLR complete and set or clear the bits of n granules; FEPROBE completes and reads them; a count above 4,096 (FEPROBE: 32) traps
BUFRANGE with detail 3. -/
def Obligations.FragmentsAndFullBits : Prop :=
  ((∀ (s : State) (c : Ctx) (x : LdfragA), ctxOf s x.h = some c → WellFormed (.ldfrag x) = true → s.sram = [] → c.lanes ≠ [] →
      closes c.g (.ldfrag x) = [] →
      let pitch := fragPitch c x.b
      match fragPlace s c.t x.buf x.mem x.kind ((srcD c.g x.a 1 c.low).toNat + x.off.toInt) pitch with
      | .error e => CanTrap c → Traps c (exec (.ldfrag x) s) e.cause e.detail (lowest c.u.mask) e.addr
      | .ok (m, off) =>
        let full := ∀ j < x.kind.regs, ∀ l < 32, ∀ i < 4,
          fullBit s (memberRef c.t m) x.buf ((off + fragAt x.kind pitch j l i) / 16) = true
        (x.few = false ∨ full → GoesOn c (exec (.ldfrag x) s) fun t g => BytesKept s t ∧
          Kept c.g g (keysOf x.d x.kind.regs) ∧ (s.hist = [] → ∀ j < x.kind.regs, ∀ l < 32, ∀ i < 4,
            (getV g (x.d.vIdx + j) l).toNat / 256 ^ i % 256 = bufByte s (memberRef c.t m) x.buf (off + fragAt x.kind pitch j l i))) ∧
        (x.few = true → ¬full → (others c.u (frontOf c.g)).length < depthOf c.g →
          Waits c (exec (.ldfrag x) s) (.feFrag (.ldfrag x) m off pitch))) ∧
    (∀ (s : State) (c : Ctx) (x : StfragA), ctxOf s x.h = some c → WellFormed (.stfrag x) = true → s.sram = [] → c.lanes ≠ [] →
      let pitch := fragPitch c x.b
      match fragPlace s c.t x.buf x.mem x.kind ((srcD c.g x.a 1 c.low).toNat + x.off.toInt) pitch with
      | .error e => CanTrap c → Traps c (exec (.stfrag x) s) e.cause e.detail (lowest c.u.mask) e.addr
      | .ok (m, off) => tagTraps (getB c.t x.d.tag) = false → GoesOn c (exec (.stfrag x) s) fun t g =>
        t.mem = s.mem ∧ Kept c.g g [] ∧
        (∀ j < x.kind.regs, ∀ l < 32, ∀ i < 4, bufByte t (memberRef c.t m) x.buf (off + fragAt x.kind pitch j l i) =
          (tagElem (getB c.t x.d.tag) fF32 (getV c.g (x.t.vIdx + j) l).toNat).2 / 256 ^ i % 256) ∧
        ∀ r b k, (¬∃ j < x.kind.regs, ∃ l < 32, ∃ i < 4,
          r = memberRef c.t m ∧ b = x.buf ∧ k = off + fragAt x.kind pitch j l i) → bufByte t r b k = bufByte s r b k)) ∧
  ((∀ (s : State) (c : Ctx) (x : FesA), ctxOf s x.h = some c → c.lanes ≠ [] →
      ∀ p ∈ [(Instr.feset x, true), (.feclr x, false)],
        let buf : Buf := if x.bufA then .a else .w
        (4096 < (srcD c.g x.b 1 c.low).toNat → CanTrap c → Traps c (exec p.1 s) cBUFRANGE 3 (lowest c.u.mask) 0) ∧
        ∀ n ps, fePlaces c x.mem x.bufA x.a x.b x.off 4096 x.a.isV = .ok (n, ps) →
          n = (srcD c.g x.b 1 c.low).toNat ∧ GoesOn c (exec p.1 s) fun t g => BytesKept s t ∧ Kept c.g g [] ∧ ∀ r b i,
            fullBit t r b i = if b = buf ∧ (∃ q ∈ ps, r = memberRef c.t q.2.m ∧ q.2.off / 16 ≤ i ∧ i < q.2.off / 16 + n) then p.2
              else fullBit s r b i) ∧
    (∀ (s : State) (c : Ctx) (x : FeprobeA), ctxOf s x.h = some c → WellFormed (.feprobe x) = true → c.lanes ≠ [] →
      (32 < (srcD c.g x.b 1 c.low).toNat → CanTrap c → Traps c (exec (.feprobe x) s) cBUFRANGE 3 (lowest c.u.mask) 0) ∧
      ∀ n ps, fePlaces c x.mem x.bufA x.a x.b x.off 32 x.a.isV = .ok (n, ps) →
        GoesOn c (exec (.feprobe x) s) fun t g => BytesKept s t ∧ Kept c.g g (keysOf x.d 1) ∧
          (discards x.d = false → ∀ l ∈ c.lanes, ∀ p ∈ ps, p.1 = laneAt c x.a l → ∀ i < 64,
            (srcD g x.d 1 l).getLsbD i =
              (decide (i < n) && fullBit s (memberRef c.t p.2.m) (if x.bufA then .a else .w) (p.2.off / 16 + i)))))

/-- R285, R86, R86, R87: LDS and STS complete where their bytes are in the stack cache, and wait where they are not; a frame offset
outside the frame traps STKLIM with detail 3, a misaligned one with detail 5. A spill writes a lane's oldest cached bytes to its stack
memory; a fill brings them back. -/
def Obligations.StackAccesses : Prop :=
  ((∀ (s : State) (c : Ctx) (x : LdsA), ctxOf s x.h = some c → WellFormed (.lds x) = true → s.sram = [] →
      match placeAll c.lanes (framePlace c.g x.a x.off x.sz.bytes) with
      | .error e => CanTrap c → Traps c (exec (.lds x) s) e.2.cause e.2.detail e.1 0
      | .ok ps =>
        ((∀ p ∈ ps, loOf c.g p.1 ≤ p.2) → GoesOn c (exec (.lds x) s) fun t g => BytesKept s t ∧ g.stk = c.g.stk ∧
          Kept c.g g (keysOf x.d x.sz.regs) ∧ ∀ p ∈ ps, LoadedAs g x.d x.sz p.1
            (ofBytes ((List.range x.sz.bytes).map fun k => stkByte s c.g (2 ^ 32 * p.1 + p.2 + k)))) ∧
        ((∃ p ∈ ps, p.2 < loOf c.g p.1) → (others c.u (frontOf c.g)).length < depthOf c.g →
          Waits c (exec (.lds x) s) (.stack (.lds x) (ps.map fun p => (p.1, p.2, 0))))) ∧
    (∀ (s : State) (c : Ctx) (x : StsA), ctxOf s x.h = some c → WellFormed (.sts x) = true → s.sram = [] →
      (∀ l, spOf c.g l < 2 ^ 32 ∧ (c.g.frames.getD l []).headD 0 ≤ spOf c.g l) →
      match placeAll c.lanes (framePlace c.g x.a x.off x.sz.bytes) with
      | .error e => CanTrap c → Traps c (exec (.sts x) s) e.2.cause e.2.detail e.1 0
      | .ok ps => (∀ p ∈ ps, loOf c.g p.1 ≤ p.2) → GoesOn c (exec (.sts x) s) fun t g => BytesKept s t ∧ Kept c.g g [] ∧
        (∀ p ∈ ps, ∀ k < x.sz.bytes, stkByte t g (2 ^ 32 * p.1 + p.2 + k) =
          BitVec.ofNat 8 ((srcData c.g x.b x.sz p.1).toNat / 256 ^ k)) ∧
        ∀ key, (¬∃ p ∈ ps, ∃ k < x.sz.bytes, key = 2 ^ 32 * p.1 + p.2 + k) → stGet g.stk key = stGet c.g.stk key) ∧
    (∀ (g : Group) (a : Opnd) (off : BitVec 32) (size l : Nat), 0 < size →
      let f := (g.frames.getD l []).headD 0
      let o : Int := (match a with | .im w => w.toInt | o => (srcD g o 1 l).toNat) + off.toInt
      if o < 0 ∨ (f : Int) < o + size then framePlace g a off size l = .error ⟨cSTKLIM, 3, 0⟩
      else if o % size ≠ 0 then framePlace g a off size l = .error ⟨cSTKLIM, 5, 0⟩
      else framePlace g a off size l = .ok (spOf g l - f + o.toNat))) ∧
  (∀ (s : State) (r : GroupRef) (t : Team) (g : Group) (gr : Grid) (l : Nat), teamOf s r.team = some t → wakeable s r = some g →
      gridOf s r.team.ld r.team.grid = some gr → l < 32 → spOf g l < 2 ^ 32 → s.sram = [] →
      (∀ lo hi pa, lo = loOf g l → hi = spOf g l - stackCap g → lo < hi → ptrVa (stackPtr gr t.r g l lo) % 2 ^ 16 + (hi - lo) ≤ 2 ^ 16 →
        stackPa s t gr g l lo (hi - lo) .write = some pa → s.ecc = [] →
        Becomes (exec (.stackSpill r l) s) fun u => ∃ g', groupOf u r = some g' ∧ loOf g' l = hi ∧ spOf g' l = spOf g l ∧
          (∀ i < hi - lo, stGet u.mem (pa + i) = stkByte s g (2 ^ 32 * l + lo + i)) ∧
          ∀ a, a < pa ∨ pa + (hi - lo) ≤ a → peekBytes u a 1 = peekBytes s a 1) ∧
      (∀ lo hi pa, lo = spOf g l - stackCap g → hi = loOf g l → lo < hi → hi ≤ spOf g l →
        ptrVa (stackPtr gr t.r g l lo) % 2 ^ 16 + (hi - lo) ≤ 2 ^ 16 →
        stackPa s t gr g l lo (hi - lo) .read = some pa → s.ecc = [] →
        (∀ e ∈ frontOf g, (e.waits fun w => match w with | .stack _ _ => true | _ => false) = false) →
        Becomes (exec (.stackFill r l) s) fun u => ∃ g', groupOf u r = some g' ∧ loOf g' l = lo ∧ Kept g g' [] ∧
          ∀ i < hi - lo, stkByte u g' (2 ^ 32 * l + lo + i) = (peekBytes s pa (hi - lo)).getD i 0))

/-- R288 to R293, R119, R163, R288, R293: FLD, FST, FATOM and FCAS complete where every lane's access passes its checks: each lane's
access is handed to its home and its destination stays outstanding. Where the page is strongly ordered the lanes wait for the accesses
(R132). Where the check fails in some lanes, those lanes alone are parked with the trap of the lowest of them; the others' accesses are
made. A data violation of an FST in trap mode traps Whole with no access made (R289). -/
def Obligations.FarAccessesIssue : Prop :=
  (∀ (s : State) (c : Ctx) (i : Instr) (op : FarOp) (single : Bool) (kind : Nat → FarKind), ctxOf s (hdrOf i) = some c →
      WellFormed i = true → c.lanes ≠ [] → farForm c i = some (op, single, kind) → fstPasses c i →
      let ls := if single then [c.low] else c.lanes
      let leaf (l : Nat) : Option Nat := match farPlace c op.a op.off op.sz.bytes op.acc l with
        | .ok y => some y.2.1
        | .error _ => none
      ((∀ l ∈ ls, ∃ e, leaf l = some e ∧ bit1 e 4 = false) →
        GoesOn c (exec i s) fun t g => (s.ecc = [] → s.sram = [] → BytesKept s t) ∧ Kept c.g g [] ∧ Issues c op single kind ls t g) ∧
      ((∀ l ∈ ls, (leaf l).isSome = true) → (∃ l ∈ ls, ∃ e, leaf l = some e ∧ bit1 e 4 = true) →
        (others c.u (frontOf c.g)).length < depthOf c.g → ∃ ids, Waits c (exec i s) (.far ids) ∧ ids.length = ls.length)) ∧
  ((∀ (s : State) (c : Ctx) (i : Instr) (op : FarOp) (kind : Nat → FarKind), ctxOf s (hdrOf i) = some c → c.lanes ≠ [] →
      farForm c i = some (op, false, kind) → fstPasses c i → CanTrap c → (others c.u (frontOf c.g)).length + 2 ≤ depthOf c.g →
      let bad (l : Nat) : Bool := match farPlace c op.a op.off op.sz.bytes op.acc l with
        | .ok _ => false
        | .error _ => true
      ∀ l cause detail addr, c.lanes.find? bad = some l →
        farPlace c op.a op.off op.sz.bytes op.acc l = .error (cause, detail, addr) →
        Becomes (exec i s) fun t => ∃ g, groupOf t c.r = some g ∧ (s.ecc = [] → s.sram = [] → BytesKept s t) ∧
          Parked g (maskOf (c.lanes.filter bad)) c.u.pc c.u.prio cause detail addr ∧
          t.far.length = s.far.length + (c.lanes.filter fun l => !bad l).length) ∧
    (∀ (s : State) (c : Ctx) (x : FstA) (l : Nat), ctxOf s x.h = some c → c.lanes ≠ [] → CanTrap c →
      tagTraps (getB c.t x.d.tag) = true →
      (if !x.a.isV && !x.b.isV then [c.low] else c.lanes).find? (fun l => (fstData c x l).1) = some l →
      Traps c (exec (.fst x) s) cBOUND x.d.tag l (farPtr c.g x.a x.off l) ∧
      Becomes (exec (.fst x) s) fun t => t.far = s.far ∧ Flagged c t x.d.tag true))

/-- R124, R125, R127, R297: FENCE completes. After an acquire fence a lane's later accesses follow its earlier reads; after a release
fence its later writes release what precedes it; FENCE.ar waits until every earlier access is performed. -/
def Obligations.Fences : Prop :=
  ∀ (s : State) (c : Ctx) (x : FenceA), ctxOf s x.h = some c → WellFormed (.fence x) = true →
    (c.g.polled = none ∨ x.scope = .grp) →
    ((x.ord ≠ .ar ∨ s.far = []) → GoesOn c (exec (.fence x) s) fun t g => BytesKept s t ∧ Kept c.g g [] ∧
      ∀ l ∈ c.lanes, ∀ f ∈ s.far, f.r = c.r → f.lane = l →
        (ordAcq x.ord = true → f.kind.reads = true → f.id ∈ pastOf t g l) ∧ (ordRel x.ord = true → f.id ∈ fencedOf t g l)) ∧
    (x.ord = .ar → (∃ f ∈ s.far, f.r = c.r ∧ f.lane ∈ c.lanes) → (others c.u (frontOf c.g)).length < depthOf c.g →
      ∃ ids, Waits c (exec (.fence x) s) (.far ids) ∧ ∀ f ∈ s.far, f.r = c.r → f.lane ∈ c.lanes → f.id ∈ ids)

/-- R289 to R291: an access whose predecessors have been performed is performed at its home: a load returns the bytes, a store writes
them, an atomic writes the operation of the old value and returns that, a compare-and-swap writes where the old value is the expected
one; no other byte changes, and the destination is no longer outstanding. -/
def Obligations.FarAccessesPerform : Prop :=
  (∀ (s : State) (id : Nat) (f : Far) (g : Group), s.far.find? (fun f => f.id == id) = some f →
    farRequest s f = [f] → farReady s f = true → groupOf s f.r = some g → NoneHeld s → s.dying = [] → s.sram = [] → isHbm (f.pa + f.sz.bytes) = true → CleanAt s f.pa f.sz.bytes →
    let k := f.sz.bytes
    let old := ofBytes (peekBytes s f.pa k)
    let new : Option Nat := match f.kind with
      | .load => none
      | .store x => some (x.toNat % 2 ^ (8 * k))
      | .amo op x => some (amoVal op (8 * k) old (x.toNat % 2 ^ (8 * k)))
      | .cas e x => if old = e.toNat % 2 ^ (8 * k) then some (x.toNat % 2 ^ (8 * k)) else none
    Becomes (exec (.farAccessPerformed id) s) fun t =>
      (∀ a, ofBytes (peekBytes t a 1) = match new with
        | some v => if f.pa ≤ a ∧ a < f.pa + k then v / 256 ^ (a - f.pa) % 256 else ofBytes (peekBytes s a 1)
        | none => ofBytes (peekBytes s a 1)) ∧
      ∃ g', groupOf t f.r = some g' ∧ owes g' f.id = false ∧
        (owes g f.id = true → s.hist = [] → ∀ d, f.dst = some d → d.isV = true ∨ (∃ n, d = .g n) ∧ f.sz ≠ .b128 →
          ∀ l ∈ lanesOf f.lanes, LoadedAs g' d f.sz l old)) ∧
  (∀ n o b, 0 < n → o < 2 ^ n → b < 2 ^ n →
    let z (x : Nat) : Int := toIntN n true x
    amoVal .add n o b = (o + b) % 2 ^ n ∧ z (amoVal .smin n o b) = min (z o) (z b) ∧ z (amoVal .smax n o b) = max (z o) (z b) ∧
    amoVal .umin n o b = min o b ∧ amoVal .umax n o b = max o b ∧ amoVal .and n o b = o &&& b ∧ amoVal .or n o b = o ||| b ∧
    amoVal .xor n o b = o ^^^ b ∧ amoVal .exch n o b = b)

/-- R294, R23: an access that times out, or that the host refuses, parks its lanes with FARTIMEOUT at the access's instruction; a load
or a refused access is not performed, and the destination is not written. Readings of the model that it rests on: log 52. -/
def Obligations.FarTimeouts : Prop :=
  ∀ (s : State) (id : Nat) (f : Far) (g : Group), s.far.find? (fun f => f.id == id && f.lanes != 0 && farFails s f) = some f →
    groupOf s f.r = some g → g.handler = none → f.hand = false → f.lanes &&& liveLanes g = f.lanes →
    qbWord s f.r.team.ld 0x260 ≠ 0 → NoneHeld s →
    let gone (t : State) : Prop := (∀ x ∈ t.far, x.id ≠ f.id) ∧ t.mem = s.mem ∧ ∃ g', groupOf t f.r = some g' ∧
      g'.v = g.v ∧ owes g' f.id = false ∧ Parked g' f.lanes f.pc f.prio cFARTIMEOUT 0 f.ptr
    (portOf f.pa = none → f.kind = .load → Becomes (exec (.farTimeout id) s) fun t => f.due ≤ t.cycle ∧ gone t) ∧
    (s.power.on = true → s.power.halted = false → isHost f.pa = true → farReady s f = true →
      Becomes (exec (.hostRefusal id) s) gone)

/-- R306, R217, R218: MMA and MMAM complete with the matrix product accumulated into the octet under the masks; the sum of products is
exact. -/
def Obligations.MatrixProducts : Prop :=
  (∀ (s : State) (c : Ctx) (x : MmaA), ctxOf s x.h = some c → WellFormed (.mma x) = true → c.lanes ≠ [] → Turn c →
    GoesOn c (exec (.mma x) s) fun t g => BytesKept s t ∧ Kept c.g g (keysOf x.d 8) ∧
      Multiplied c x.kind x.z x.d.vIdx x.a.vIdx x.b.vIdx 0xFFFF 0xFFFF 0xFFFF g) ∧
  (∀ (s : State) (c : Ctx) (x : MmamA), ctxOf s x.h = some c → WellFormed (.mmam x) = true → c.lanes ≠ [] → Turn c →
    let m := srcD c.g x.t 2 c.low
    GoesOn c (exec (.mmam x) s) fun t g => BytesKept s t ∧ Kept c.g g (keysOf x.d 8) ∧
      Multiplied c x.kind x.z x.d.vIdx x.a.vIdx x.b.vIdx (m.extractLsb' 0 16) (m.extractLsb' 16 16) (m.extractLsb' 32 16) g) ∧
  ∀ (ds : List Nat) (a b : Nat → FVal), (mmaSum ds a b).isSpecial = false ∧ ratOf (mmaSum ds a b) =
    (ds.map fun d => if (a d).isSpecial || (b d).isSpecial then (0 : ℚ) else ratOf (a d) * ratOf (b d)).sum

/-- R310, R213, R311, R312, R215, R300: SCACC completes: each element of D takes one rounding of its drained value and the drained
partial times the two scales; a scale of 0xFF, or a NaN, gives the NaN 0x7FC00000; both octets are closed. CBLD completes and replaces
the team's codebook by the 512 entries at its address, reserved bits cleared; it waits, or traps BUFRANGE, as the rule says. While it
waits, an engine instruction of another entry of the group holds its entry, and issues again when none waits. Readings of the model that
it rests on: log 76. -/
def Obligations.ScalesAndCodebook : Prop :=
  ((∀ (s : State) (c : Ctx) (x : FourDABT), ctxOf s x.h = some c → WellFormed (.scacc x) = true → c.lanes ≠ [] → Turn c →
      let sa (i j : Nat) : Nat := (getV c.g (x.b.vIdx + i % 8 / 4) (j + 16 * (i / 8))).toNat / 2 ^ (8 * (i % 4)) % 256
      let sb (i j : Nat) : Nat := (getV c.g x.t.vIdx (j + 16 * (i / 8))).toNat % 256
      GoesOn c (exec (.scacc x) s) fun t g => BytesKept s t ∧ Kept c.g g (keysOf x.d 8 ++ keysOf x.a 8) ∧
        ClosedAs g x.d.vIdx (fun i j => BitVec.ofNat 32 (scaccElem (drainElem c.g x.d.vIdx i j).toNat
          (drainElem c.g x.a.vIdx i j).toNat (sa i j) (sb i j))) ∧
        (x.a.vIdx ≠ x.d.vIdx → ClosedAs g x.a.vIdx (drainElem c.g x.a.vIdx))) ∧
    (∀ d p sa sb, sa = 0xFF ∨ sb = 0xFF ∨ decodeF fF32 d = .nan ∨ decodeF fF32 p = .nan → scaccElem d p sa sb = 0x7FC00000) ∧
    (∀ d p sa sb, sa ≠ 0xFF → sb ≠ 0xFF → decodeF fF32 d ≠ .nan → decodeF fF32 p ≠ .nan →
      scaccElem d p sa sb = roundN32 (FVal.add .rne (decodeF fF32 d) ((decodeF fF32 p).scale (sa + sb - 254))))) ∧
  ((∀ (s : State) (c : Ctx) (i : Instr), ctxOf s (hdrOf i) = some c → isEngine i = true → c.lanes ≠ [] → ¬Turn c →
      (others c.u (frontOf c.g)).length < depthOf c.g → Waits c (exec i s) .engine) ∧
    (∀ (s : State) (r : GroupRef) (g : Group) (lane : Nat) (e : Entry), Running s → groupOf s r = some g → waitAt g lane = some (e, .engine) →
      g.pendTrap = none → (∀ x ∈ frontOf g, x.waits Wait.isCbld = false) → Becomes (exec (.feWaitSatisfied r lane) s) fun t =>
        ∃ g', groupOf t r = some g' ∧ ∀ k < 32, e.mask.getLsbD k = true → StandsAt (frontOf g') k e.pc e.prio) ∧
    (∀ (s : State) (c : Ctx) (x : CbldA), ctxOf s x.h = some c → WellFormed (.cbld x) = true → s.sram = [] → c.lanes ≠ [] → Turn c →
      let b : Buf := if x.bufA then .a else .w
      let a := baseAt c x.a x.off
      let traps (d : Nat) : Prop := CanTrap c → Traps c (exec (.cbld x) s) cBUFRANGE d (lowest c.u.mask) (BitVec.ofInt 64 a)
      (a % 16 ≠ 0 → traps 2) ∧ (a % 16 = 0 → a < 0 ∨ (bufLen c.t b : Int) < a + 4096 → traps 1) ∧
      ∀ n : Nat, a = n → n % 16 = 0 → n + 4096 ≤ bufLen c.t b →
        (x.few = false ∨ (∀ i < 256, fullBit s c.r.team b (n / 16 + i) = true) →
          GoesOn c (exec (.cbld x) s) fun t g => BytesKept s t ∧ Kept c.g g [] ∧ ∃ u, teamOf t c.r.team = some u ∧
            ∀ i < 512, ∀ k < 64, (cbEntry u i).getLsbD k =
              ((bufByte s c.r.team b (n + 8 * i + k / 8)).testBit (k % 8) && (k % 8 != 7 || k == 63))) ∧
        (x.few = true → (∃ i < 256, fullBit s c.r.team b (n / 16 + i) = false) → (others c.u (frontOf c.g)).length < depthOf c.g →
          Waits c (exec (.cbld x) s) (.feCbld (.cbld x) n))))

/-- R313 to R315, R316: MDRAIN completes: every word of the matrix in C takes the drained element, or the rounded sum of itself and it,
after the tag's check, and the octet is closed; MDRAIN.raw writes values and a trailer and leaves the octet as it is. MFILL completes:
the octet takes the matrix in C and is closed; MFILL.raw takes the values and, where the trailer says open, the flags. -/
def Obligations.MatrixDrainsAndFills : Prop :=
  ((∀ (s : State) (c : Ctx) (x : MdrainA), ctxOf s x.h = some c → WellFormed (.mdrain x) = true → s.sram = [] → c.lanes ≠ [] → Turn c →
      let p := fragPitch c x.b
      let y (i j : Nat) : Nat := (drainElem c.g x.t.vIdx i j).toNat
      let bnd := getB c.t x.d.tag
      (CanTrap c → DrainChecks c (baseAt c x.a x.off) (p < 64 ∨ p % 16 ≠ 0) (15 * p + 64) (exec (.mdrain x) s)) ∧
      ∀ a : Nat, baseAt c x.a x.off = a → a % 16 = 0 → 64 ≤ p → p % 16 = 0 → a + 15 * p + 64 ≤ c.t.clen →
        let v (i j : Nat) : Bool × Nat := tagElem bnd fF32 (if x.acc then roundN32 (FVal.add .rne
          (decodeF fF32 (bufGet s c.r.team .c (a + i * p + 4 * j) 4)) (decodeF fF32 (y i j))) else y i j)
        (tagTraps bnd = false ∨ (∀ i < 16, ∀ j < 16, (v i j).1 = false) →
          GoesOn c (exec (.mdrain x) s) fun t g => t.mem = s.mem ∧ Kept c.g g (keysOf x.t 8) ∧
            ClosedAs g x.t.vIdx (drainElem c.g x.t.vIdx) ∧
            (∀ i < 16, ∀ j < 16, bufGet t c.r.team .c (a + i * p + 4 * j) 4 = (v i j).2) ∧
            ∀ r b k, (¬∃ i < 16, ∃ j < 64, r = c.r.team ∧ b = .c ∧ k = a + i * p + j) → bufByte t r b k = bufByte s r b k) ∧
        (tagTraps bnd = true → (∃ i < 16, ∃ j < 16, (v i j).1 = true) → CanTrap c →
          Traps c (exec (.mdrain x) s) cBOUND x.d.tag (lowest c.u.mask) (BitVec.ofNat 64 a) ∧
          Becomes (exec (.mdrain x) s) (BytesKept s))) ∧
    (∀ (s : State) (c : Ctx) (x : MdrainRawA), ctxOf s x.h = some c → WellFormed (.mdrainRaw x) = true → s.sram = [] → c.lanes ≠ [] → Turn c →
      (CanTrap c → DrainChecks c (baseAt c x.a x.off) False 1040 (exec (.mdrainRaw x) s)) ∧
      ∀ a : Nat, baseAt c x.a x.off = a → a % 16 = 0 → a + 1040 ≤ c.t.clen →
        GoesOn c (exec (.mdrainRaw x) s) fun t g => t.mem = s.mem ∧ Kept c.g g [] ∧ g.octets = c.g.octets ∧
          (∀ i < 16, ∀ j < 16, bufGet t c.r.team .c (a + 64 * i + 4 * j) 4 = (octElem c.g x.t.vIdx i j).toNat) ∧
          bufGet t c.r.team .c (a + 1024) 16 = (match octetAt c.g x.t.vIdx with
            | none => 0
            | some o => o.rf.toNat + o.cf.toNat * 2 ^ 16 + 2 ^ 32) ∧
          ∀ r b k, r ≠ c.r.team ∨ b ≠ .c ∨ k < a ∨ a + 1040 ≤ k → bufByte t r b k = bufByte s r b k)) ∧
  ((∀ (s : State) (c : Ctx) (x : MfillA), ctxOf s x.h = some c → WellFormed (.mfill x) = true → s.sram = [] → c.lanes ≠ [] → Turn c →
      let p := fragPitch c x.b
      (CanTrap c → DrainChecks c (baseAt c x.a x.off) (p < 64 ∨ p % 16 ≠ 0) (15 * p + 64) (exec (.mfill x) s)) ∧
      ∀ a : Nat, baseAt c x.a x.off = a → a % 16 = 0 → 64 ≤ p → p % 16 = 0 → a + 15 * p + 64 ≤ c.t.clen →
        GoesOn c (exec (.mfill x) s) fun t g => BytesKept s t ∧ Kept c.g g (keysOf x.d 8) ∧
          ClosedAs g x.d.vIdx (fun i j => BitVec.ofNat 32 (bufGet s c.r.team .c (a + i * p + 4 * j) 4))) ∧
    (∀ (s : State) (c : Ctx) (x : MfillRawA), ctxOf s x.h = some c → WellFormed (.mfillRaw x) = true → s.sram = [] → c.lanes ≠ [] → Turn c →
      (CanTrap c → DrainChecks c (baseAt c x.a x.off) False 1040 (exec (.mfillRaw x) s)) ∧
      ∀ a : Nat, baseAt c x.a x.off = a → a % 16 = 0 → a + 1040 ≤ c.t.clen →
        let tr := bufGet s c.r.team .c (a + 1024) 16
        GoesOn c (exec (.mfillRaw x) s) fun t g => BytesKept s t ∧ Kept c.g g (keysOf x.d 8) ∧
          (∀ i < 16, ∀ j < 16, octElem g x.d.vIdx i j = BitVec.ofNat 32 (bufGet s c.r.team .c (a + 64 * i + 4 * j) 4)) ∧
          octetAt g x.d.vIdx = if tr.testBit 32 then
            some ⟨x.d.vIdx, BitVec.ofNat 16 (tr % 2 ^ 16), BitVec.ofNat 16 (tr / 2 ^ 16 % 2 ^ 16)⟩ else none))

/-- R322, R328 to R331: CREQ writes a record, KICK queues requests or waits for room, CSEAL makes a batch, CWAIT returns once no more
than n batches are unfinished and reports the first failure; each completes, and only the producer group may use them (with SBIND and
SGO: R341, R342). -/
def Obligations.CopyRequests : Prop :=
  (∀ (s : State) (c : Ctx) (i : Instr), ctxOf s (hdrOf i) = some c →
    (∃ x, i = .creq x) ∨ (∃ x, i = .kick x) ∨ (∃ x, i = .cseal x) ∨ (∃ x, i = .sbind x) ∨ (∃ x, i = .sgo x) →
    c.lanes ≠ [] → c.g.id ≠ 0 ∨ c.g.rung ≠ none → CanTrap c → Traps c (exec i s) cROLE 0 (lowest c.u.mask) 0) ∧
  (∀ (s : State) (c : Ctx) (x : CreqA) (n : Nat) (upd : DWord), ctxOf s x.h = some c → WellFormed (.creq x) = true → Producer c →
    s.sram = [] → reqAddr c x 0 = .ok (n, upd) → n % 64 = 0 → n + 64 ≤ c.t.alen →
    GoesOn c (exec (.creq x) s) fun t g => t.mem = s.mem ∧ Kept c.g g (addrKeys x.a x.addr) ∧
      (addrUpdates x.addr = true → ∀ m, x.a = .g m → getG g m.toNat = if m = 0 then 0 else upd) ∧
      (∀ i < 16, bufGet t c.r.team .a (n + 4 * i) 4 = (srcD c.g x.b 1 i).toNat % 2 ^ 32) ∧
      (∀ i < 4, fullBit t c.r.team .a (n / 16 + i) = true) ∧
      ∀ r b k, r ≠ c.r.team ∨ b ≠ .a ∨ k < n ∨ n + 64 ≤ k → bufByte t r b k = bufByte s r b k) ∧
  (∀ (s : State) (c : Ctx) (x : CreqA), ctxOf s x.h = some c → WellFormed (.kick x) = true → Producer c →
    let n := (srcD c.g x.b 1 c.low).toNat % 2 ^ 32
    (64 < n → CanTrap c → Traps c (exec (.kick x) s) cCPYVAL 7 (lowest c.u.mask) 0) ∧
    (n = 0 → GoesOn c (exec (.kick x) s) fun t g => t.reqs = s.reqs ∧ Kept c.g g []) ∧
    ∀ offs, 0 < n → n ≤ 64 → s.sram = [] → kickPlaces c x n = .ok offs →
      let recs := offs.map fun o => (o, bufGet s c.r.team .a o 64)
      (queueLoad s c.t.core + n ≤ 256 → GoesOn c (exec (.kick x) s) fun t g => BytesKept s t ∧
        Kept c.g g (addrKeys x.a x.addr) ∧ Queued s t c.r c.t g recs ∧ recs.length = n) ∧
      (256 < queueLoad s c.t.core + n → (others c.u (frontOf c.g)).length < depthOf c.g →
        ∃ upd, Waits c (exec (.kick x) s) (.kick (.kick x) recs upd))) ∧
  (∀ (s : State) (r : GroupRef) (t : Team) (g : Group) (lane : Nat) (e : Entry) (x : CreqA) (recs : List (Nat × Nat)) (upd : DWord),
    Running s → teamOf s r.team = some t → groupOf s r = some g → waitAt g lane = some (e, .kick (.kick x) recs upd) →
    queueLoad s t.core + recs.length ≤ 256 →
    Becomes (exec (.kickRoom r lane) s) fun u => WentOn u r e fun g' => Queued s u r t g' recs) ∧
  (∀ (s : State) (c : Ctx) (x : OneD), ctxOf s x.h = some c → WellFormed (.cseal x) = true → Producer c →
    (sealWaits s c.g = false → GoesOn c (exec (.cseal x) s) fun _ g => Kept c.g g (keysOf x.d 1) ∧
      srcD g x.d 1 c.low = seen x.d 1 (BitVec.ofNat 64 c.g.batchNo) ∧ g.batches = c.g.batches ++ [⟨c.g.batchNo, c.g.unsealed⟩] ∧
      g.unsealed = [] ∧ g.batchNo = c.g.batchNo + 1) ∧
    (sealWaits s c.g = true → (others c.u (frontOf c.g)).length < depthOf c.g → Waits c (exec (.cseal x) s) (.cseal (.cseal x)))) ∧
  (∀ (s : State) (r : GroupRef) (g : Group) (lane : Nat) (e : Entry) (x : OneD), Running s → groupOf s r = some g →
    waitAt g lane = some (e, .cseal (.cseal x)) → sealWaits s g = false →
    Becomes (exec (.csealRoom r lane) s) fun u => WentOn u r e fun g' =>
      g'.batches = g.batches ++ [⟨g.batchNo, g.unsealed⟩] ∧ g'.unsealed = [] ∧ g'.batchNo = g.batchNo + 1) ∧
  (∀ (s : State) (c : Ctx) (x : OneB), ctxOf s x.h = some c → WellFormed (.cwait x) = true → c.lanes ≠ [] →
    let n := (srcD c.g x.b 1 c.low).toNat % 2 ^ 32
    (openBatches s c.g ≤ n → firstFailure s c.g = none → GoesOn c (exec (.cwait x) s) fun t g => BytesKept s t ∧ Kept c.g g []) ∧
    (∀ q cause d, openBatches s c.g ≤ n → firstFailure s c.g = some (q, cause, d) → CanTrap c →
      Traps c (exec (.cwait x) s) cause d (lowest c.u.mask) (BitVec.ofNat 64 q.addr)) ∧
    (n < openBatches s c.g → (others c.u (frontOf c.g)).length < depthOf c.g → Waits c (exec (.cwait x) s) (.cwait n))) ∧
  (∀ (s : State) (r : GroupRef) (g : Group) (lane : Nat) (e : Entry) (n : Nat), Running s → groupOf s r = some g →
    waitAt g lane = some (e, .cwait n) → openBatches s g ≤ n → g.pendTrap = none → firstFailure s g = none →
    Becomes (exec (.cwaitReturn r lane) s) fun u => WentOn u r e fun g' => Kept g g' [])

/-- R325, R326, R329, R332 to R334: each step of the copy engine completes. A queued request that fails a check is rejected with that
check's cause; one that passes them, or is under way, moves one of its pieces whole, or reads its next index. The pieces of LINEAR,
TILED, STREAD and STWRITE, of an indexed row, and of an IMAGE window are the bytes that the kind's walk moves. Readings of the model
that it rests on: log 31. -/
def Obligations.CopyMoves : Prop :=
  (∀ (s : State) (core step : Nat) (q : Req) (t : Team) (i : Instr), (step, i) ∈ copyStep core → ActsOn s core step q →
    teamOf s q.r.team = some t → q.st = .queued → ∀ cause d, reqErr s t q = some (cause, d) →
    Becomes (exec i s) fun u => ReqIs u q.id fun q' => q'.st = .failed cause d) ∧
  (∀ (s : State) (core step : Nat) (q : Req) (t : Team) (i : Instr), (step, i) ∈ copyStep core → ActsOn s core step q →
    teamOf s q.r.team = some t → AllClean s →
    (q.st = .queued ∧ reqErr s t q = none ∧ (q.kind = 5 → imageOver q = false) ∨ q.st = .moving) →
    let w := if q.st = .queued then reqWork t q else (q.todo, q.rows)
    let e := reqEng s q false
    let p := ptrAdd (BitVec.ofNat 64 q.aux) (4 * (q.e1 - w.2) : Nat)
    w.1 ≠ [] ∨ w.2 ≠ 0 → (∀ x ∈ w.1, x.Whole ∧ ∀ f, pieceErr { s with frees := f } e x = none) →
    (w.2 ≠ 0 → ptrVa p % 32 + 4 ≤ 32 ∧ ∀ f, ∃ pa, engPlace { s with frees := f } e p 4 .read = .ok pa) →
    Becomes (exec i s) fun u =>
      (∃ k x, w.1[k]? = some x ∧ PieceMoved s u e (w.1.eraseIdx k) x ∧
        ReqIs u q.id fun q' => q'.st = .moving ∧ q'.todo = w.1.eraseIdx k ∧ q'.rows = w.2 ∧
          q'.left = q.left + if q.noarr then 0 else x.n) ∨
      (w.2 ≠ 0 ∧ BytesKept s u ∧ ∃ j < 2 ^ 32, (∀ b : Nat, b < 4 → Reads s e (ptrAdd p b) (j / 256 ^ b % 256)) ∧
        ReqIs u q.id fun q' => q'.st = .moving ∧ q'.rows = w.2 - 1 ∧ q'.left = q.left ∧
          q'.todo = w.1 ++ indexedRun q (reqLocs t q).1 (reqLocs t q).2 (q.e1 - w.2 : Nat) j)) ∧
  (∀ (t : Team) (q : Req), q.kind ∈ [1, 2, 6, 7] →
    let n1 := if q.kind = 2 then q.e1 else 1
    let n2 := if q.kind = 2 then q.e2 else 1
    (reqWork t q).2 = 0 ∧ Cover (reqWork t q).1 fun a b => ∃ i2 < n2, ∃ i1 < n1, ∃ j < q.e0,
      a = (reqLocs t q).1.move (i1 * q.ss1 + i2 * q.ss2 + j) ∧ b = (reqLocs t q).2.move (i1 * q.ds1 + i2 * q.ds2 + j)) ∧
  (∀ (t : Team) (q : Req) (i k : Int), q.kind = 3 ∨ q.kind = 4 → reqWork t q = ([], q.e1) ∧
    Cover (indexedRun q (reqLocs t q).1 (reqLocs t q).2 i k) fun a b => ∃ j < q.e0,
      a = (reqLocs t q).1.move ((if q.kind = 3 then k else i) * q.ss1 + j) ∧
      b = (reqLocs t q).2.move ((if q.kind = 3 then i else k) * q.ds1 + j)) ∧
  (∀ (t : Team) (q : Req), q.kind = 5 →
    let iw : Nat := q.aux % 2 ^ 16
    let ih : Nat := q.aux / 2 ^ 16 % 2 ^ 16
    let n := q.aux / 2 ^ 32 % 2 ^ 16
    let n0 := q.aux / 2 ^ 48 % 2 ^ 16
    let pad : Loc := .pad q.padv
    (reqWork t q).2 = 0 ∧ (Cover (reqWork t q).1 fun a b => ∃ i < q.ni, ∃ r < q.e1, ∃ c < q.e2, ∃ j < q.pb,
      let x := q.ss1 + c
      let y := q.ss2 + r
      b = (reqLocs t q).2.move (i * q.ds2 + r * q.ds1 + c * q.pb + j) ∧
      a = if n0 + i < n ∧ 0 ≤ x ∧ x < iw ∧ 0 ≤ y ∧ y < ih
        then (reqLocs t q).1.move (q.pb * (x + iw * (y + ih * (n0 + i : Nat))) + j) else pad) ∧
    (q.dsp = 1 ∨ q.dsp = 2 → reqCheck2 q = true → ∀ x ∈ (reqWork t q).1, x.src = pad → ∃ i r c o : Nat,
      x.dst = (reqLocs t q).2.move (i * q.ds2 + r * q.ds1 + c * q.pb + o) ∧ o % 2 = 0 ∧ o + x.n ≤ q.pb))

/-- R325, R327, R330, R335: STFLUSH completes with nothing moved; a request with nothing left to move is done, and a flush then makes
the data of every request whose completion happens before it durable, with what drives read as before; a moved request subtracts its
bytes from its arrival object; a drive's error ends the request with CPYFAULT 0xFF. -/
def Obligations.StorageAndArrivals : Prop :=
  (∀ (s : State) (core : Nat) (q : Req) (t : Team), ActsOn s core 8 q → teamOf s q.r.team = some t → q.st = .queued →
    reqErr s t q = none → Becomes (exec (.stflush core) s) fun u =>
      BytesKept s u ∧ (∀ d a, driveByteAt u d a = driveByteAt s d a) ∧
      ReqIs u q.id fun q' => q'.st = .moving ∧ q'.todo = [] ∧ q'.rows = 0 ∧ q'.left = q.left) ∧
  (∀ (s : State) (id : Nat) (q : Req), Running s → s.reqs.find? (fun x => x.id == id) = some q → (groupOf s q.r).isSome = true →
    q.st = .moving → q.todo = [] → q.rows = 0 → q.left = 0 → (∀ w ∈ s.driveCache, w.addr + w.bytes.length ≤ 2 ^ 61) →
    Becomes (exec (.copyRequestDone id) s) fun u =>
      (ReqIs u id fun q' => q'.st = .done) ∧ (∀ a < 2 ^ 61, driveByteAt u q.drive a = driveByteAt s q.drive a) ∧
      (q.kind = 8 → ∀ w ∈ u.driveCache, w.drive = q.drive → w.req ∈ expand s q.after → w.sure = true)) ∧
  (∀ (s : State) (id : Nat) (q : Req) (r : TeamRef) (off : Nat), Running s → s.reqs.find? (fun x => x.id == id) = some q →
    q.st ≠ .queued → 0 < q.left → s.sram = [] → arrAt s q.r.team q.arr = some (r, off) → q.left ≤ bufGet s r .a off 8 % 2 ^ 40 →
    Becomes (exec (.arrivalDecrement id) s) fun u => ∃ n, 1 ≤ n ∧ n ≤ q.left ∧
      (ReqIs u id fun q' => q'.left = q.left - n) ∧
      bufGet u r .a off 8 % 2 ^ 40 = bufGet s r .a off 8 % 2 ^ 40 - n ∧
      ∀ k ∈ [61, 62, 63], (bufGet u r .a off 8).testBit k = (bufGet s r .a off 8).testBit k) ∧
  (∀ (s : State) (q : Req) (status : BitVec 16), Running s → s.reqs.find? (fun x => x.id == q.id) = some q →
    (teamOf s q.r.team).isSome = true → q.st = .moving → 6 ≤ q.kind → q.kind ≤ 8 →
    Becomes (exec (.driveError q.id status) s) fun u => ReqIs u q.id fun q' => q'.st = .failed cCPYFAULT 0xFF)

/-- R339, R341, R342, R348 to R350: SBIND binds a window to its record's fields, SGO starts its program, SREL releases a tile, AWAIT
goes on, traps or waits as the object or slot stands, ASTAT reads the object or the slot's word. -/
def Obligations.StreamControl : Prop :=
  (∀ (s : State) (c : Ctx) (x : SbindA) (n : Nat), ctxOf s x.h = some c → WellFormed (.sbind x) = true → Producer c → s.sram = [] →
    ((match x.a with | .im w => w.toInt | o => ((srcD c.g o 1 c.low).toNat : Int)) : Int) = n → n % 64 = 0 → n + 64 ≤ c.t.alen →
    let raw := bufGet s c.r.team .a n 64
    let b := bindingOf raw
    ((winOf c.t x.win.toNat).st = .running → CanTrap c → Traps c (exec (.sbind x) s) cSTRPROG 5 (lowest c.u.mask) 0) ∧
    ((winOf c.t x.win.toNat).st ≠ .running → bindingBad raw b = true → CanTrap c →
      Traps c (exec (.sbind x) s) cSTRPROG 7 (lowest c.u.mask) 0) ∧
    ((winOf c.t x.win.toNat).st ≠ .running → bindingBad raw b = false → bindingFits s c.t b = none → x.win.toNat < c.t.wins.length →
      GoesOn c (exec (.sbind x) s) fun t g => BytesKept s t ∧ Kept c.g g [] ∧ WinIs t c.r.team x.win.toNat fun w =>
        w.st = .bound ∧ w.b.prog.toNat = raw % 2 ^ 64 ∧ w.b.sbase.toNat = raw / 2 ^ 64 % 2 ^ 64 ∧ w.b.wbase = raw / 2 ^ 128 % 2 ^ 20 ∧
        w.b.slots = raw / 2 ^ 152 % 16 + 1 ∧ w.b.rc = raw / 2 ^ 156 % 16 + 1 ∧ w.b.ssz = raw / 2 ^ 160 % 2 ^ 16 ∧
        w.fills = List.replicate w.b.slots 0 ∧ w.rels = List.replicate w.b.slots 0 ∧ w.pc = w.b.prog)) ∧
  (∀ (s : State) (c : Ctx) (x : SgoA), ctxOf s x.h = some c → Producer c →
    let w := winOf c.t x.win.toNat
    (w.st ≠ .bound → CanTrap c → Traps c (exec (.sgo x) s) cSTRPROG 5 (lowest c.u.mask) 0) ∧
    (w.st = .bound → GoesOn c (exec (.sgo x) s) fun t g => BytesKept s t ∧ Kept c.g g [] ∧ WinIs t c.r.team x.win.toNat fun y =>
      y.st = .running ∧ y.b = w.b ∧ y.pc = w.pc ∧ y.pin = c.g.pin ∧ y.bounds = c.t.bounds)) ∧
  (∀ (s : State) (c : Ctx) (x : TileA), ctxOf s x.h = some c → WellFormed (.srel x) = true → c.lanes ≠ [] →
    let w := winOf c.t x.win.toNat
    let n := (srcD c.g x.b 1 c.low).toNat % 2 ^ 32
    let k := n % w.b.slots
    (w.started = false → CanTrap c → Traps c (exec (.srel x) s) cSTRPROG 5 (lowest c.u.mask) 0) ∧
    (w.started = true → w.fills.getD k 0 ≠ n / w.b.slots + 1 ∨ w.b.rc ≤ w.rels.getD k 0 → CanTrap c →
      Traps c (exec (.srel x) s) cWINOVF 2 (lowest c.u.mask) 0) ∧
    (w.started = true → w.fills.getD k 0 = n / w.b.slots + 1 → w.rels.getD k 0 < w.b.rc → k < w.rels.length →
      GoesOn c (exec (.srel x) s) fun t g => BytesKept s t ∧ Kept c.g g [] ∧ WinIs t c.r.team x.win.toNat fun y =>
        y.fills = w.fills ∧ ∀ j, y.rels.getD j 0 = w.rels.getD j 0 + if j = k then 1 else 0)) ∧
  (∀ (s : State) (c : Ctx) (i : Instr) (h : Hdr) (addr : DWord) (wt : Wait) (found : Option (Option (Nat × Nat))),
    ctxOf s h = some c → c.lanes ≠ [] → s.sram = [] →
    (∃ x p, i = .awaitObj x ∧ h = x.h ∧ objPlace c x.mem x.a x.off = .ok p ∧ found = objFound s c.t p.m p.off ∧
      addr = BitVec.ofNat 64 (p.m * 2 ^ 20 + p.off) ∧ wt = .obj p.m p.off) ∨
    (∃ x, i = .awaitSlot x ∧ h = x.h ∧ (winOf c.t x.win.toNat).started = true ∧ addr = 0 ∧
      found = slotFound (winOf c.t x.win.toNat) (tileNo c x.b) ∧ wt = .slot x.win.toNat (tileNo c x.b)) →
    (found = some none → GoesOn c (exec i s) fun t g => BytesKept s t ∧ Kept c.g g []) ∧
    (∀ cause d, found = some (some (cause, d)) → isPoison cause = false → CanTrap c →
      Traps c (exec i s) cause d (lowest c.u.mask) addr) ∧
    (found = none → (others c.u (frontOf c.g)).length < depthOf c.g → Waits c (exec i s) wt)) ∧
  (∀ (s : State) (r : GroupRef) (t : Team) (g : Group) (lane : Nat) (e : Entry), Running s → teamOf s r.team = some t →
    groupOf s r = some g → g.pendTrap = none → gangHere s t = true →
    (∃ m off, waitAt g lane = some (e, .obj m off) ∧ objFound s t m off = some none) ∨
      (∃ w n, waitAt g lane = some (e, .slot w n) ∧ slotFound (winOf t w) n = some none) →
    Becomes (exec (.awaitReturn r lane) s) fun u => WentOn u r e fun g' => Kept g g' []) ∧
  (∀ (s : State) (c : Ctx) (x : AstatObjA) (p : BufAt), ctxOf s x.h = some c → WellFormed (.astatObj x) = true → c.lanes ≠ [] →
    s.sram = [] → objPlace c x.mem x.a x.off = .ok p →
    GoesOn c (exec (.astatObj x) s) fun t g => BytesKept s t ∧ Kept c.g g (keysOf x.d 1) ∧
      srcD g x.d 2 c.low = seen x.d 2 (BitVec.ofNat 64 (bufGet s (memberRef c.t p.m) .a p.off 8))) ∧
  (∀ (s : State) (c : Ctx) (x : AstatSlotA), ctxOf s x.h = some c → WellFormed (.astatSlot x) = true → c.lanes ≠ [] →
    let w := winOf c.t x.win.toNat
    (w.started = false → CanTrap c → Traps c (exec (.astatSlot x) s) cSTRPROG 5 (lowest c.u.mask) 0) ∧
    (w.started = true → GoesOn c (exec (.astatSlot x) s) fun t g => BytesKept s t ∧ Kept c.g g (keysOf x.d 1) ∧
      srcD g x.d 2 c.low = seen x.d 2 (BitVec.ofNat 64 (slotWord w ((srcD c.g x.b 1 c.low).toNat % 2 ^ 32 % w.b.slots)))))

/-- R194, R195, R343 to R347: the commands of a running program complete: STILE and SGATHER fill the next slot, piece by piece, SGATHER
a row's bytes once its index is read, and the fill then counts; loops, conditions, jumps, waits, signals and the end act as the table
says; a bad word stops the program; a program that nothing can release ends. Readings of the model that it rests on: log 31, log 54. -/
def Obligations.StreamCommands : Prop :=
  (∀ (s : State) (r : TeamRef) (w code : Nat) (i : Instr) (u : Team) (x : Window) (s1 : State) (v : Nat), Fetches s r w x s1 v code →
    (code, i) ∈ [(1, Instr.stile r w), (2, .sgather r w)] → teamOf s1 r = some u →
    let n := fillShape code v
    let work := fillWork u x code v
    let at' := fillIndexAt x v n.1 work.2
    let e := winEng s1 r x
    (∀ cause d, fillErr x (n.1 * n.2) = some (cause, d) → Becomes (exec i s) fun t => Halts t r w x cause d) ∧
    (fillErr x (n.1 * n.2) = none → fillReady s1 u x = true → AllClean s1 → FillOk s1 e work.1 work.2 at' →
      Becomes (exec i s) fun t => FillSteps s1 t r w e (x.f % x.b.slots) work.1 work.2 at' (fillRow u x v n.2 (n.1 - work.2)))) ∧
  (∀ (s : State) (r : TeamRef) (w code : Nat) (i : Instr) (u : Team) (k : Nat), Running s → teamOf s r = some u →
    (code, i) ∈ [(1, Instr.stile r w), (2, .sgather r w)] →
    let x := winOf u w
    let v := (stGet x.ahead x.pc.toNat).toNat % 2 ^ 128
    let n := fillShape code v
    let at' := fillIndexAt x v n.1 x.rows
    let e := winEng s r x
    x.st = .running → x.filling = some k → v % 256 = code → x.todo ≠ [] ∨ x.rows ≠ 0 → (code = 1 → x.rows = 0) →
    fillReady s u x = true → AllClean s → FillOk s e x.todo x.rows at' →
    Becomes (exec i s) fun t => FillSteps s t r w e k x.todo x.rows at' (fillRow u x v n.2 (n.1 - x.rows))) ∧
  (∀ (u : Team) (x : Window) (rb i : Nat) (off : Int), Cover (rowPieces u x rb i off) fun a b => ∃ j < rb,
    a = .mem (ptrAdd x.b.sbase (off + j)) ∧
    b = .buf u.r x.b.buf (x.b.wbase + 16 * x.b.ssz * (x.f % x.b.slots) + i * rb + j : Nat)) ∧
  (∀ (s : State) (r : TeamRef) (w : Nat) (u : Team) (k : Nat), Running s → teamOf s r = some u → w < u.wins.length →
    (winOf u w).filling = some k → k < (winOf u w).fills.length → (winOf u w).todo = [] → (winOf u w).rows = 0 →
    Becomes (exec (.stileFillDone r w) s) fun t => WinIs t r w fun y => y.filling = none ∧
      y.fills.getD k 0 = (winOf u w).fills.getD k 0 + 1 ∧ y.rels.getD k 0 = 0 ∧ y.f = (winOf u w).f + 1 ∧
      y.pc = ptrAdd (winOf u w).pc 16) ∧
  (∀ (s : State) (r : TeamRef) (w : Nat) (x : Window) (s1 : State) (v : Nat),
    let next := ptrAdd x.pc 16
    (Fetches s r w x s1 v 3 → w < 8 →
      let sh := v / 2 ^ 9 % 8
      let n := if (v / 2 ^ 8) % 2 = 1 then (x.pv.toNat + 2 ^ sh - 1) / 2 ^ sh else v / 2 ^ 16 % 2 ^ 32
      Becomes (exec (.sloop r w) s) fun t =>
        if n = 0 then RunsOn t r w x (ptrAdd x.pc (16 * (v / 2 ^ 48 % 2 ^ 24 + 1) : Nat)) x.loops x.pv
        else if 4 ≤ x.loops.length then Halts t r w x cSTRPROG 3
        else RunsOn t r w x next ((next, n, 0) :: x.loops) x.pv) ∧
    (Fetches s r w x s1 v 4 → Becomes (exec (.snext r w) s) fun t => match x.loops with
      | [] => Halts t r w x cSTRPROG 4
      | l :: rest => if l.2.2 + 1 < l.2.1 then RunsOn t r w x l.1 ((l.1, l.2.1, l.2.2 + 1) :: rest) x.pv
        else RunsOn t r w x next rest x.pv) ∧
    (Fetches s r w x s1 v 5 → v / 2 ^ 11 % 4 < 2 →
      let a := if v / 2 ^ 11 % 4 = 0 then x.pv.toNat else loopIx x 0 % 2 ^ 32
      let b := v / 2 ^ 16 % 2 ^ 32
      let yes : Prop := match v / 2 ^ 8 % 8 with | 0 => a = b | 1 => a ≠ b | 2 => a < b | _ => b ≤ a
      Becomes (exec (.scond r w) s) fun t =>
        (yes → RunsOn t r w x (ptrAdd x.pc (16 * toIntN 24 true (v / 2 ^ 80))) x.loops x.pv) ∧
        (¬yes → RunsOn t r w x next x.loops x.pv)) ∧
    (Fetches s r w x s1 v 6 → Becomes (exec (.sjmp r w) s) fun t =>
      RunsOn t r w x (ptrAdd x.pc (16 * toIntN 24 true (v / 2 ^ 16))) x.loops x.pv) ∧
    (Fetches s r w x s1 v 7 → ∀ u, teamOf s1 r = some u → Becomes (exec (.swaitr r w) s) fun t =>
      if teamIdle s1 u then WinIs t r w (fun y => y.st = .ended)
      else if slotFree x then RunsOn t r w x next x.loops x.pv
      else WinIs t r w fun y => y.waiting = 1 ∧ y.pc = x.pc) ∧
    (Fetches s r w x s1 v 8 → ∀ u, teamOf s1 r = some u → Becomes (exec (.swaitp r w) s) fun t =>
      if teamIdle s1 u then WinIs t r w (fun y => y.st = .ended)
      else match x.latch with
        | some p => RunsOn t r w x next x.loops p ∧ WinIs t r w fun y => y.latch = none
        | none => WinIs t r w fun y => y.waiting = 2 ∧ y.pc = x.pc) ∧
    (Fetches s r w x s1 v 9 → s.sram = [] → ∀ q off, arrAt s1 r (v / 2 ^ 16 % 2 ^ 23) = some (q, off) →
      let old := bufGet s1 q .a off 8 % 2 ^ 40
      let dec := v / 2 ^ 40 % 2 ^ 40
      Becomes (exec (.ssig r w) s) fun t =>
        if old < dec then Halts t r w x cSTRPROG 8
        else RunsOn t r w x next x.loops x.pv ∧ bufGet t q .a off 8 % 2 ^ 40 = old - dec) ∧
    (Fetches s r w x s1 v 10 → Becomes (exec (.shalt r w) s) fun t => WinIs t r w fun y => y.st = .ended ∧ y.pin = none) ∧
    (Fetches s r w x s1 v 11 → Becomes (exec (.snop r w) s) fun t => RunsOn t r w x next x.loops x.pv)) ∧
  (∀ (s : State) (r : TeamRef) (w : Nat) (u : Team), Running s → teamOf s r = some u → w < u.wins.length →
    let x := winOf u w
    (∀ s1 v d, winReady s x = true → winFetch s (winEng s r x) x = (s1, .ok v) → cmdErr v = some d →
      Becomes (exec (.streamBadWord r w) s) fun t => Halts t r w x cSTRPROG d) ∧
    (x.st = .running → x.waiting = 1 → slotFree x = true → teamIdle s u = false →
      Becomes (exec (.swaitrReleased r w) s) fun t => RunsOn t r w x (ptrAdd x.pc 16) x.loops x.pv) ∧
    (∀ p, x.st = .running → x.waiting = 2 → x.latch = some p → teamIdle s u = false →
      Becomes (exec (.swaitpLatched r w) s) fun t => RunsOn t r w x (ptrAdd x.pc 16) x.loops p) ∧
    (x.st = .running → x.waiting ≠ 0 → teamIdle s u = true →
      Becomes (exec (.streamAutoEnd r w) s) fun t => WinIs t r w fun y => y.st = .ended ∧ y.pin = none))

/-- R351 to R355: NBREQ and ATTQ fork the command their record describes; a command that fails a check records it; COPY and RELAYOUT
move bytes, REDUCE writes the rounded exact sums, SCALE the rounded products, ATTQ merges its tokens by LSEMRG and writes the quads, all
NaN where it has met poison. Readings of the model that it rests on: log 32. -/
def Obligations.MemorySideCommands : Prop :=
  (∀ (s : State) (c : Ctx) (x : NbreqA) (n : Nat), ctxOf s x.h = some c → c.lanes ≠ [] → s.sram = [] →
    ((match x.a with | .im w => w.toInt | o => ((srcD c.g o 1 c.low).toNat : Int)) : Int) + x.off.toInt = n → n % 64 = 0 →
    n + 64 ≤ c.t.alen → ∀ p ∈ [(Instr.nbreq x, false), (.attq x, true)],
      GoesOn c (exec p.1 s) fun t g => BytesKept s t ∧ Kept c.g g [] ∧ ∃ m, t.memOps = s.memOps ++ [m] ∧ m.att = p.2 ∧
        m.t = c.r.team ∧ m.raw = bufGet s c.r.team .a n 64 ∧ m.bounds = c.t.bounds ∧ m.pin = c.g.pin ∧ m.left = none) ∧
  (∀ (s : State) (id : Nat) (m : MemOp), MemRuns s id m false → AllClean s →
    let e := memEng s m
    let x := m.raw
    let src : Ptr := BitVec.ofNat 64 (x % 2 ^ 64)
    let dst : Ptr := BitVec.ofNat 64 (x / 2 ^ 64 % 2 ^ 64)
    let e0 := x / 2 ^ 128 % 2 ^ 32
    let e1 := x / 2 ^ 160 % 2 ^ 16
    let fmt := if x / 2 ^ 292 % 4 = 1 then fBf16 else fF32
    let w := if x / 2 ^ 292 % 4 = 1 then 2 else 4
    let op := x / 2 ^ 288 % 16
    ∀ i, (op, i) ∈ [(1, Instr.nbCopy id), (2, .nbRelayout id), (3, .nbReduce id), (4, .nbScale id)] →
      (∀ cause d, nbErr s e m = some (cause, d) → Becomes (exec i s) fun t => ∀ y ∈ t.memOps, y.id ≠ id) ∧
      (nbErr s e m = none → Becomes (exec i s) fun t =>
        MemMoved t id (if op < 3 then e0 * e1 else if op = 3 then 4 * e0 else w * (e0 * e1)) ∧
        (op < 3 → e1 = 1 → ∀ v pa, ReadsN s e src e0 v → WritesAt s e dst e0 pa → peek t pa e0 = v) ∧
        (op = 3 → e0 = 1 → ∀ vs : List Nat, vs.length = e1 →
          (∀ k < e1, ReadsN s e (ptrAdd src (k * toIntN 32 true (x / 2 ^ 192))) w (vs.getD k 0)) →
          ∀ pa, WritesAt s e dst 4 pa → peek t pa 4 = roundN32 (sumF (vs.map (decodeF fmt)))) ∧
        (op = 4 → e0 = 1 → e1 = 1 → ∀ v pa, ReadsN s e src w v → WritesAt s e dst w pa → peek t pa w =
          roundF fmt .rne 0 false (FVal.mul (decodeF fmt v) (decodeF fF32 (x / 2 ^ 256 % 2 ^ 32)))))) ∧
  (∀ (s : State) (id : Nat) (m : MemOp) (t : Team), MemRuns s id m true → teamOf s m.t = some t → atValid s m = true → AllClean s →
    let x := m.raw
    let dh := 64 * 2 ^ (x / 2 ^ 136 % 4)
    let o := x / 2 ^ 88 % 2 ^ 23
    let from' := memberRef t (x / 2 ^ 64 % 2 ^ 23 / 2 ^ 20)
    let q := (List.range dh).map fun i => decodeF fF32 (bufGet s from' .a (x / 2 ^ 64 % 2 ^ 20 + 4 * i) 4)
    let none' := List.replicate (dh / 2) (0xFF800000, 0, 0, 0)
    let r := atWalk dh (x / 2 ^ 144 % 2 ^ 32) m.tenant q 65536 (atStart s (x % 2 ^ 36)
      ⟨s, none', if x / 2 ^ 176 % 2 ^ 32 = 0 then 2 ^ 64 else x / 2 ^ 176 % 2 ^ 32, [], none⟩)
    let writes (ls : List (Nat × Nat × Nat × Nat)) : Prop := Becomes (exec (.attentionCommand id) s) fun t' => MemMoved t' id (8 * dh) ∧
      ∀ i < dh / 2, ∀ k < 4, bufGet t' (memberRef t (o / 2 ^ 20)) .a (o % 2 ^ 20 + 16 * i + 4 * k) 4 =
        let v := ls.getD i (0, 0, 0, 0)
        [v.1, v.2.1, v.2.2.1, v.2.2.2].getD k 0 % 2 ^ 32
    (∀ y, teamOf s from' = some y → y.core < 352) →
    (r.err = none → writes r.quads) ∧
    (∀ d, r.err = some (cPOISON, d) → writes (List.replicate (dh / 2) (0x7FC00000, 0x7FC00000, 0x7FC00000, 0x7FC00000))) ∧
    (∀ cause d, r.err = some (cause, d) → cause ≠ cPOISON →
      Becomes (exec (.attentionCommand id) s) fun t' => ∀ y ∈ t'.memOps, y.id ≠ id) ∧
    (x % 2 ^ 36 = 0 → r.err = none ∧ r.quads = none')) ∧
  (∀ (dh scale f u : Nat) (q : List FVal) (r : AtRun), r.err = none → AllClean r.s → kvHbm f = true →
    64 + 4 * dh * (u + 1) ≤ 2 ^ 16 → 0 < dh → dh % 2 = 0 → q.length = dh → r.quads.length = dh / 2 →
    let el (i : Nat) : Nat := peek r.s (kvPa f + 64 + 4 * dh * u + 2 * i) 2
    let d := roundN32 (sumF ((List.range dh).map fun i => FVal.mul (q.getD i .nan) (decodeF fBf16 (el i))))
    let y := roundN32 (FVal.mul (decodeF fF32 d) (decodeF fF32 scale))
    let r' := atToken dh scale q f u r
    r'.err = none ∧ r'.left = r.left ∧ ∀ i < dh / 2, r'.quads.getD i (0, 0, 0, 0) =
      lseMerge (r.quads.getD i (0, 0, 0, 0)) (y, 0x3F800000, el (dh + 2 * i) * 2 ^ 16, el (dh + 2 * i + 1) * 2 ^ 16))

/-- R111, R113, R114, R358: KVGET allocates a frame, writes its header and delivers it; KVPUT lets a page go; KVLNK links a successor or
writes TOKENS; a header is written with its reserved bits zero; each check that fails traps. Readings of the model that it rests on: log
33. -/
def Obligations.KvPages : Prop :=
  (∀ (s : State) (c : Ctx) (x : ThreeDAB), ctxOf s x.h = some c → WellFormed (.kvget x) = true → c.lanes ≠ [] →
    let st := (srcD c.g x.a 2 c.low).toNat
    (7 < st → CanTrap c → Traps c (exec (.kvget x) s) cKVDRY 2 (lowest c.u.mask) 0) ∧
    (st ≤ 7 → (kvAlloc s c.ld st).1 = none → CanTrap c → Traps c (exec (.kvget x) s) cKVDRY 1 (lowest c.u.mask) 0) ∧
    ∀ f s1, st ≤ 7 → s.sram = [] → kvAlloc s c.ld st = (some f, s1) → GoesOn c (exec (.kvget x) s) fun t g =>
      Kept c.g g (keysOf x.d 1) ∧ srcD g x.d 2 c.low = seen x.d 2 (BitVec.ofNat 64 f) ∧ f ∈ t.kvPages ∧
      (kvRead t f).1 = (srcD c.g x.b 2 c.low).toNat * 2 ^ 64 + 2 ^ 160 + kvCtxTenant c % 2 ^ 16 * 2 ^ 192 + f / 2 ^ 20 % 8 * 2 ^ 208 + 2 ^ 214) ∧
  (∀ (s : State) (c : Ctx) (x : OneA), ctxOf s x.h = some c → c.lanes ≠ [] → AllClean s →
    let f := (srcD c.g x.a 2 c.low).toNat
    let h := (kvRead s f).1
    (∀ e, kvCheck s c.ld (kvCtxTenant c) f = .error e → CanTrap c → Traps c (exec (.kvput x) s) e.1 e.2.1 (lowest c.u.mask) 0) ∧
    ∀ p, kvCheck s c.ld (kvCtxTenant c) f = .ok p →
      (1 < kvSharers h → GoesOn c (exec (.kvput x) s) fun t g => Kept c.g g [] ∧ (kvRead t f).1 = kvClean (h - 2 ^ 160)) ∧
      (kvSharers h = 1 → kvState h = 1 → kvSucc h = 0 → poolCount s c.ld (kvHome h) < poolCap s c.ld (kvHome h) →
        poolAt s c.ld (kvHome h) + 4 ≤ kvPa f ∨ kvPa f + 64 ≤ poolAt s c.ld (kvHome h) → poolCount s c.ld (kvHome h) < 2 ^ 32 - 1 →
        GoesOn c (exec (.kvput x) s) fun t g => Kept c.g g [] ∧ f ∉ t.kvPages ∧
          poolCount t c.ld (kvHome h) = poolCount s c.ld (kvHome h) + 1)) ∧
  (∀ (s : State) (c : Ctx) (x : TwoAB), ctxOf s x.h = some c → c.lanes ≠ [] → AllClean s →
    let p := (srcD c.g x.a 2 c.low).toNat
    let n := (srcD c.g x.b 2 c.low).toNat
    let h := (kvRead s p).1
    (∀ e, kvCheck s c.ld (kvCtxTenant c) p = .error e → CanTrap c → ∀ i ∈ [Instr.kvlnkSucc x, .kvlnkTok x],
      Traps c (exec i s) e.1 e.2.1 (lowest c.u.mask) 0) ∧
    ∀ ok, kvCheck s c.ld (kvCtxTenant c) p = .ok ok →
      (GoesOn c (exec (.kvlnkTok x) s) fun t g => Kept c.g g [] ∧ kvTokens (kvRead t p).1 = n % 2 ^ 32 ∧
        kvSucc (kvRead t p).1 = kvSucc h ∧ kvSharers (kvRead t p).1 = kvSharers h) ∧
      (n = p → n ≠ 0 → CanTrap c → Traps c (exec (.kvlnkSucc x) s) cNOPERM 8 (lowest c.u.mask) 0) ∧
      (n = 0 → kvSucc h = 0 → GoesOn c (exec (.kvlnkSucc x) s) fun t g => Kept c.g g [] ∧ (kvRead t p).1 = kvClean h) ∧
      ∀ okn, n ≠ 0 → n ≠ p → kvSucc h = 0 → kvCheck s c.ld (kvCtxTenant c) n = .ok okn →
        GoesOn c (exec (.kvlnkSucc x) s) fun t g => Kept c.g g [] ∧ kvSucc (kvRead t p).1 = n ∧
          kvSharers (kvRead t n).1 = (kvSharers (kvRead s n).1 + 1) % 2 ^ 32) ∧
  (∀ (s : State) (ld tenant f : Nat), AllClean s →
    let h := (kvRead s f).1
    let r := kvCheck s ld tenant f
    (kvPooled s ld f = false → r = .error (cNOTMAPPED, 6, s)) ∧
    (kvPooled s ld f = true → kvState h = 0 → ∃ s1, r = .error (cNOTMAPPED, 5, s1) ∧ s1.mem = s.mem) ∧
    (kvPooled s ld f = true → kvState h ≠ 0 → kvTenant h ≠ tenant → ∃ s1, r = .error (cNOPERM, 4, s1) ∧ s1.mem = s.mem) ∧
    (kvPooled s ld f = true → kvState h ≠ 0 → kvTenant h = tenant → ∃ s1, r = .ok (h, s1) ∧ s1.mem = s.mem))

/-- R368 to R371, R373: LSPAWN and LESC put an item for each active lane into the next bin or wait for room, LSPAWN.close closes the
team's spawning, LDONE marks each item done with its result, LSTAT delivers the selected count; the frame checks trap. Readings of the
model that it rests on: log 17. -/
def Obligations.LadderInstructions : Prop :=
  (∀ (s : State) (c : Ctx) (x : LspawnA), ctxOf s x.h = some c → WellFormed (.lspawn x) = true → s.sram = [] →
    let lad := x.lad.toNat
    let w := ladOf c.t lad
    let fs := frameSize c.gr lad 0
    let a (l : Nat) : Int := ladAddr c.g x.a x.off l
    let seq (l : Nat) : Nat := (srcD c.g x.b 1 l).toNat % 2 ^ 32
    (c.lanes ≠ [] → c.g.handler = none → CanTrap c →
      (c.t.lads.length ≤ lad → Traps c (exec (.lspawn x) s) cLADFRAME 8 (lowest c.u.mask) 0) ∧
      (lad < c.t.lads.length → c.g.rung ≠ none → Traps c (exec (.lspawn x) s) cLADFRAME 4 (lowest c.u.mask) 0) ∧
      (lad < c.t.lads.length → c.g.rung = none → w.closed = true → Traps c (exec (.lspawn x) s) cLADFRAME 6 (lowest c.u.mask) 0)) ∧
    (SpawnOpen c lad → CanTrap c → ∀ l,
      (c.lanes.find? (fun l => decide (a l % 16 ≠ 0)) = some l →
        Traps c (exec (.lspawn x) s) cLADFRAME 1 l (BitVec.ofInt 64 (a l))) ∧
      ((∀ m ∈ c.lanes, a m % 16 = 0) → c.lanes.find? (fun l => decide (a l < 0 ∨ (c.t.alen : Int) < a l + fs)) = some l →
        Traps c (exec (.lspawn x) s) cLADFRAME 2 l (BitVec.ofInt 64 (a l))) ∧
      ((∀ m ∈ c.lanes, frameErr c.t (a m) fs = none) → c.lanes.find? (fun l => decide (seq l < w.base ∨ seq l ∈ w.held ∨
          ∃ m ∈ c.lanes, m ≠ l ∧ seq m = seq l)) = some l → Traps c (exec (.lspawn x) s) cLADFRAME 5 l 0)) ∧
    (SpawnOpen c lad → (∀ l ∈ c.lanes, frameErr c.t (a l) fs = none ∧ w.base ≤ seq l ∧ seq l ∉ w.held ∧
        ∀ m ∈ c.lanes, seq m = seq l → m = l) →
      (HasBin s c.r.team lad 0 → 0 < w.arrived.length → binLoad s c.t lad 0 + c.lanes.length ≤ 64 →
        (∀ l ∈ c.lanes, seq l < w.base + 256) →
        GoesOn c (exec (.lspawn x) s) fun t g => BytesKept s t ∧ Kept c.g g [] ∧
          BinTakes s t c.r.team lad 0 c.lanes (fun l it => it.seq = seq l ∧ it.team = c.r.team.team ∧ it.lad = lad ∧ it.rung = 0 ∧
            it.frame = bytesOf (bufGet s c.r.team .a (a l).toNat fs) fs) ∧
          LadIs t c.r.team lad fun y => y.arrived.getD 0 0 = w.arrived.getD 0 0 + c.lanes.length ∧ y.held = w.held ++ c.lanes.map seq ∧
            y.base = w.base) ∧
      (64 < binLoad s c.t lad 0 + c.lanes.length ∨ (∃ l ∈ c.lanes, w.base + 256 ≤ seq l) →
        (others c.u (frontOf c.g)).length < depthOf c.g →
        Waits c (exec (.lspawn x) s) (.lspawn lad (c.lanes.map fun l => (l, (a l).toNat, seq l)))))) ∧
  (∀ (s : State) (c : Ctx) (x : LcloseA), ctxOf s x.h = some c → SpawnOpen c x.lad.toNat →
    GoesOn c (exec (.lspawnClose x) s) fun t g => BytesKept s t ∧ Kept c.g g [] ∧ LadIs t c.r.team x.lad.toNat fun y => y.closed = true) ∧
  (∀ (s : State) (r : GroupRef) (t : Team) (g : Group) (gr : Grid) (lane : Nat) (e : Entry) (lad : Nat) (its : List (Nat × Nat × Nat)),
    Running s → s.sram = [] → teamOf s r.team = some t → groupOf s r = some g → gridOf s r.team.ld r.team.grid = some gr →
    waitAt g lane = some (e, .lspawn lad its) → gangHere s t = true → spawnRoom s t lad its = true → HasBin s r.team lad 0 →
    Becomes (exec (.lspawnRoom r lane) s) fun u => WentOn u r e fun _ =>
      BinTakes s u r.team lad 0 (its.map fun i => i.2.2) fun n it => it.seq = n ∧ it.rung = 0) ∧
  (∀ (s : State) (c : Ctx) (x : NbreqA) (lad rung j : Nat), ctxOf s x.h = some c → c.lanes ≠ [] → s.sram = [] → c.g.handler = none →
    c.g.rung = some (lad, rung, j) →
    let a (l : Nat) : Int := ladAddr c.g x.a x.off l
    let fs := frameSize c.gr lad (rung + 1)
    (CanTrap c → ∀ l, c.lanes.head? = some l → itemOf c.g l = none → Traps c (exec (.lesc x) s) cLADFRAME 3 l 0) ∧
    (CanTrap c → ∀ l, c.lanes.head? = some l → itemOf c.g l ≠ none → ladRungs (ladRaw c.gr lad) ≤ rung + 1 →
      Traps c (exec (.lesc x) s) cLADRUNG 0 l 0) ∧
    ((∀ l ∈ c.lanes, itemOf c.g l ≠ none ∧ frameErr c.t (a l) fs = none) → rung + 1 < ladRungs (ladRaw c.gr lad) →
      (HasBin s c.r.team lad (rung + 1) → binLoad s c.t lad (rung + 1) + c.lanes.length ≤ 64 →
        GoesOn c (exec (.lesc x) s) fun t g => BytesKept s t ∧ Kept c.g g [] ∧
          g.items = c.g.items.filter (fun p => !c.lanes.contains p.1) ∧
          BinTakes s t c.r.team lad (rung + 1) c.lanes fun l it => (itemOf c.g l).map Item.seq = some it.seq ∧ it.rung = rung + 1 ∧
            it.frame = bytesOf (bufGet s c.r.team .a (a l).toNat fs) fs) ∧
      (64 < binLoad s c.t lad (rung + 1) + c.lanes.length → (others c.u (frontOf c.g)).length < depthOf c.g →
        Waits c (exec (.lesc x) s) (.lesc (c.lanes.map fun l => (l, (a l).toNat)))))) ∧
  (∀ (s : State) (r : GroupRef) (t : Team) (g : Group) (gr : Grid) (lane lad rung j : Nat) (e : Entry) (its : List (Nat × Nat)),
    Running s → s.sram = [] → teamOf s r.team = some t → groupOf s r = some g → gridOf s r.team.ld r.team.grid = some gr →
    waitAt g lane = some (e, .lesc its) → g.rung = some (lad, rung, j) → gangHere s t = true → escRoom s t g its = true →
    HasBin s r.team lad (rung + 1) → (∀ i ∈ its, itemOf g i.1 ≠ none) →
    Becomes (exec (.lescRoom r lane) s) fun u => WentOn u r e fun g' => g'.items = g.items.filter (fun p => !(its.map Prod.fst).contains p.1) ∧
      BinTakes s u r.team lad (rung + 1) (its.map Prod.fst) fun l it => (itemOf g l).map Item.seq = some it.seq) ∧
  (∀ (s : State) (c : Ctx) (x : LdoneA) (lad rung j : Nat), ctxOf s x.h = some c → WellFormed (.ldone x) = true → c.lanes ≠ [] →
    c.g.handler = none → c.g.rung = some (lad, rung, j) →
    (CanTrap c → ∀ l, c.lanes.head? = some l → itemOf c.g l = none → Traps c (exec (.ldone x) s) cLADFRAME 3 l 0) ∧
    (CanTrap c → ∀ l, c.lanes.head? = some l → itemOf c.g l ≠ none → ladRsz (ladRaw c.gr lad) ≠ x.sz.bytes →
      Traps c (exec (.ldone x) s) cLADFRAME 7 l 0) ∧
    ((∀ l ∈ c.lanes, itemOf c.g l ≠ none) → ladRsz (ladRaw c.gr lad) = x.sz.bytes → tagTraps (getB c.t x.d.tag) = true → CanTrap c →
      ∀ l it, c.lanes.find? (fun l => (doneData c x l).1) = some l → itemOf c.g l = some it →
        Traps c (exec (.ldone x) s) cBOUND x.d.tag l (resultPtr c.gr it.team lad it.seq) ∧
        Becomes (exec (.ldone x) s) fun t => BytesKept s t ∧ Flagged c t x.d.tag true) ∧
    ((∀ l ∈ c.lanes, itemOf c.g l ≠ none) → ladRsz (ladRaw c.gr lad) = x.sz.bytes →
      tagTraps (getB c.t x.d.tag) = false ∨ (∀ l ∈ c.lanes, (doneData c x l).1 = false) →
      GoesOn c (exec (.ldone x) s) fun t g => BytesKept s t ∧ Kept c.g g [] ∧
        g.items = c.g.items.filter (fun p => !c.lanes.contains p.1) ∧ Flagged c t x.d.tag (c.lanes.any fun l => (doneData c x l).1) ∧
        ∀ l ∈ c.lanes, ∀ it, itemOf c.g l = some it → ∀ u, teamOf s { c.r.team with team := it.team } = some u → it.lad < u.lads.length →
          LadIs t { c.r.team with team := it.team } it.lad fun y => ∃ d ∈ y.done, d.seq = it.seq ∧ d.rung = rung ∧
            d.any = rungAny (rungRaw (ladRaw c.gr lad) rung) ∧ d.res = some (bytesOf (doneData c x l).2 x.sz.bytes))) ∧
  (∀ (s : State) (c : Ctx) (x : LstatA), ctxOf s x.h = some c → WellFormed (.lstat x) = true → c.lanes ≠ [] →
    let lad := x.lad.toNat
    let r := x.rung.toNat
    let w := ladOf c.t lad
    (CanTrap c → c.t.lads.length ≤ lad → Traps c (exec (.lstat x) s) cLADFRAME 8 (lowest c.u.mask) 0) ∧
    (CanTrap c → lad < c.t.lads.length → ladRungs (ladRaw c.gr lad) ≤ r → Traps c (exec (.lstat x) s) cLADRUNG 1 (lowest c.u.mask) 0) ∧
    (lad < c.t.lads.length → r < ladRungs (ladRaw c.gr lad) → GoesOn c (exec (.lstat x) s) fun t g => BytesKept s t ∧
      Kept c.g g (keysOf x.d 1) ∧ srcD g x.d 2 c.low = seen x.d 2 (BitVec.ofNat 64 (match x.sel with
        | .base => w.base
        | .arr => w.arrived.getD r 0
        | .bin => binLoad s c.t lad r
        | .drop => w.dropped))))

/-- R365 to R367, R371, R372, R375: a ripe bin launches a rung group of up to 32 items on a free slot, which starts with the item's
number, frame offset and member in v0 to v2 and ARGP in g1; a bin's timer runs out; a commit writes results in order and advances BASE
past the unbroken run; a patch latches a final count in its window. -/
def Obligations.LadderEvents : Prop :=
  (∀ (s : State) (k : GangRef) (g : Gang) (gr : Grid) (lad rung j : Nat) (t : Team), Running s → gangOf s k = some g →
    gridOf s k.ld k.grid = some gr → g.place = .resident → g.preempt = none → inSyscall (gangTeams s k) = false →
    (∀ u ∈ gangTeams s k, ∀ q ∈ u.groups, q.saved = false) →
    let b := binOf g lad rung
    let e := rungRaw (ladRaw gr lad) rung
    let n := min 32 b.items.length
    32 ≤ b.items.length ∨ (b.items ≠ [] ∧ ∃ d, b.due = some d ∧ d ≤ s.cycle) → freeRung gr (gangTeams s k) lad rung = some (t, j) →
    teamOf s t.r = some t → lad < g.bins.length → rung < (g.bins.getD lad []).length →
    Becomes (exec (.binLaunch k lad rung) s) fun u =>
      (∃ k', gangOf u k = some k' ∧ (binOf k' lad rung).items = b.items.drop 32) ∧
      ∃ q, groupOf u ⟨t.r, rungGroup gr lad rung j⟩ = some q ∧ q.rung = some (lad, rung, j) ∧
        q.items = (b.items.take 32).zipIdx.map (fun p => (p.2, p.1)) ∧
        q.frontier = [⟨ptrAdd gr.code (rungEntry e), 128, BitVec.ofNat 32 (2 ^ n - 1), 0, .ready⟩] ∧
        getG q 1 = ladArgp (ladRaw gr lad) ∧ ∀ l < n, ∀ it, b.items[l]? = some it →
          getV q 0 l = BitVec.ofNat 32 it.seq ∧ getV q 1 l = BitVec.ofNat 32 (rungFoff e + (32 * j + l) * rungFs e) ∧
          getV q 2 l = BitVec.ofNat 32 it.member) ∧
  (∀ (s : State) (k : GangRef) (g : Gang) (lad rung d : Nat), Running s → gangOf s k = some g → g.place = .resident →
    (binOf g lad rung).due = some d → Becomes (exec (.binStarveExpire k lad rung) s) fun u => u.cycle = max s.cycle d ∧ BytesKept s u) ∧
  (∀ (s : State) (r : TeamRef) (lad : Nat) (t : Team) (gr : Grid), Running s → teamOf s r = some t → gridOf s r.ld r.grid = some gr →
    gangHere s t = true → lad < t.lads.length →
    let w := ladOf t lad
    let run := doneRun w w.done.length w.base
    (∀ d pa bs, nextWrite s w run = some d → d.res = some bs →
      WritesAt s ⟨r, pinRoot t.pin, t.bounds, engUser s r, false, 0, []⟩ (ptrAdd (ladResult (ladRaw gr lad))
        (r.team * ladStride (ladRaw gr lad) + d.seq * ladRsz (ladRaw gr lad) : Nat)) bs.length pa → s.ecc = [] → s.sram = [] →
      Becomes (exec (.commitRun r lad) s) fun u => peek u pa bs.length = ofBytes bs ∧
        LadIs u r lad fun y => y.base = w.base ∧ ∀ e ∈ y.done, e.seq = d.seq → e.res = none) ∧
    (nextWrite s w run = none → (∀ e ∈ run, e.res = none ∧ forkReady s e.after = true) →
      Becomes (exec (.commitRun r lad) s) fun u => BytesKept s u ∧ LadIs u r lad fun y => y.base = w.base + run.length ∧
        ∀ e ∈ run, e.seq ∉ y.held ∧ ∀ f ∈ y.done, f.seq ≠ e.seq)) ∧
  (∀ (s : State) (r : TeamRef) (lad rung : Nat) (t : Team) (gr : Grid), Running s → teamOf s r = some t → gridOf s r.ld r.grid = some gr →
    gangHere s t = true → lad < t.lads.length → (owedRungs gr t lad).head? = some rung → arrivedFinal s t lad rung = true →
    let x := rungPwin (rungRaw (ladRaw gr lad) rung)
    Becomes (exec (.ladderPatch r lad rung) s) fun u => LadIs u r lad (fun y => y.patched = (ladOf t lad).patched ++ [rung]) ∧
      ((winOf t x).st ≠ .unbound → WinIs u r x fun v => v.latch = some (BitVec.ofNat 32 ((ladOf t lad).arrived.getD rung 0))))

/-- R387 to R390, R451, R452, R392: SYSCALL waits with its call; the request is posted with the arguments of the supplying lane; a gang
that waits whole leaves its cores; the reply, of service 0 the first argument, goes to D of every entry that had an active lane; the
gang comes back. Readings of the model that it rests on: log 53, log 77. The feature word that FEATQ gives. -/
def Obligations.SystemCalls : Prop :=
  ((∀ (s : State) (c : Ctx) (x : SyscallA), ctxOf s x.h = some c → c.lanes ≠ [] → c.g.handler = none →
      (c.g.rung = none → (others c.u (frontOf c.g)).length < depthOf c.g →
        Waits c (exec (.syscall x) s) (.sys c.act x.d x.svc.toNat (srcD c.g x.a 2 c.low) (srcD c.g x.b 2 c.low))) ∧
      (c.g.rung ≠ none → CanTrap c → Traps c (exec (.syscall x) s) cLADFRAME 4 (lowest c.u.mask) 0)) ∧
    (∀ (s : State) (r : TeamRef) (t : Team) (x : Nat × Nat × DWord × DWord), Running s → HasDev s r.ld → teamOf s r = some t →
      t.sys = .posting → gangHere s t = true → beforeTeams s [t] = [] → requestRingFull s r.ld = false → supplyingCall t = some x →
      let token := Config.teamToken r.ld r.grid r.team
      let slot := (qbWord s r.ld 0x280).toNat + 64 * ((qbWord s r.ld 0x290).toNat % (qbWord s r.ld 0x288).toNat)
      CleanAt s slot 64 → s.sram = [] → Becomes (exec (.syscallPost r) s) fun u =>
        peek u slot 8 = x.2.2.1.toNat ∧ peek u (slot + 8) 8 = x.2.2.2.toNat ∧ peek u (slot + 16) 2 = x.2.1 % 2 ^ 16 ∧
        peek u (slot + 20) 4 = t.r.team % 2 ^ 32 ∧ peek u (slot + 24) 8 = t.r.grid % 2 ^ 64 ∧ peek u (slot + 32) 8 = token.toNat ∧
        qbWord u r.ld 0x290 = BitVec.ofNat 64 (((qbWord s r.ld 0x290).toNat + 1) % 2 ^ 32) ∧ TeamIs u r fun v => v.sys = .waiting token) ∧
    (∀ (s : State) (hart ld : Nat) (token v : DWord) (t : Team), Running s → hart < 20 → ld < 16 → (s.harts.getD hart default).replyval = v →
      (s.teams.find? fun t => t.r.ld == ld && t.sys == .waiting token) = some t → teamOf s t.r = some t → gangHere s t = true →
      (∀ q ∈ t.groups, q.saved = false) →
      let out : DWord := match supplyingCall t with
        | some x => if x.2.1 = 0 then x.2.2.1 else v
        | none => v
      Becomes (exec (.replytok hart ld token) s) fun u => TeamIs u t.r fun t' => t'.sys = .none ∧
        ∀ q ∈ t.groups, q.handler = none → q.pendTrap = none → ∀ e ∈ q.frontier, ∀ act d svc a0 a1 n, e.mask ≠ 0 →
          e.st = .waiting (.sys act d svc a0 a1) n → ∃ q' ∈ t'.groups, q'.id = q.id ∧
            (∀ l < 32, e.mask.getLsbD l = true → StandsAt q'.frontier l (nextPc e.pc) e.prio) ∧
            (act ≠ 0 → ∀ k, d = .g k → getG q' k.toNat = if k.toNat = 0 then 0 else out)) ∧
    (∀ (s : State) (k : GangRef) (g : Gang), Running s → gangOf s k = some g → g.place = .resident → g.preempt = none → allWait s k = true →
      let c := (((gangTeams s k).head?).map Team.core).getD 0 / 8
      (shadowRoom s c k = true → Becomes (exec (.syscallSwapOut k) s) fun u => GangIs u k fun g' => g'.place = .call (some c)) ∧
      (shadowRoom s c k = false → poolRoom s k = true → Becomes (exec (.syscallSwapOut k) s) fun u => GangIs u k fun g' => g'.place = .call none)) ∧
    (∀ (s : State) (k : GangRef) (g : Gang) (gr : Grid) (cores : List Nat), Running s → gangOf s k = some g → g.ue = false → s.sram = [] →
      ((gangTeams s k).map Team.r).Nodup →
      turnOf s k (fun w => match w with
        | .call _ => true
        | _ => false) = some (gr, cores) → Becomes (exec (.syscallGangReturn k) s) fun u =>
      GangIs u k (fun g' => g'.place = .resident ∧ g'.wanted = false) ∧
      ∀ t ∈ gangTeams s k, TeamIs u t.r fun t' => t'.core = cores.getD t.member 0)) ∧
  (∀ (s : State) (c : Ctx) (x : FeatqA), ctxOf s x.h = some c → WellFormed (.featq x) = true → c.lanes ≠ [] →
      GoesOn c (exec (.featq x) s) fun t g => BytesKept s t ∧ Kept c.g g (keysOf x.d 1) ∧
        ∃ v : DWord, srcD g x.d 2 c.low = seen x.d 2 v ∧ (x.word.toNat = 0 → v = 0x03010160042C0000) ∧
          (x.word.toNat = 1 → v.extractLsb' 0 10 = BitVec.allOnes 10 ∧ (v.getLsbD 10 = true ↔ s.straitUp ≠ []) ∧
            (v.getLsbD 11 = true ↔ s.ethUp ≠ []) ∧ (v.getLsbD 12 = true ↔ ldReg s c.ld 0x405 ≠ 0) ∧ v.extractLsb' 14 50 = 0) ∧
          (x.word.toNat = 2 → v = 0x2020080040080404) ∧
          (x.word.toNat = 3 → ldReg s c.ld 0x401 < 2 ^ 32 → ldReg s c.ld 0x405 < 2 ^ 16 → ldReg s c.ld 0x400 < 2 ^ 16 →
            v.toNat = ldReg s c.ld 0x401 * 2 ^ 32 + ldReg s c.ld 0x405 * 2 ^ 16 + ldReg s c.ld 0x400) ∧ (4 ≤ x.word.toNat → v = 0))

/-- R391 (REFRESH), R393, R424, R426 to R431: TRAP and BKPT trap with their code; the trap frame; a nested trap, a trap without a
handler and a handler's watchdog fail the grid; ERET re-executes and ERET.skip goes on. Readings of the model that it rests on: log 52. -/
def Obligations.TrapHandling : Prop :=
  (∀ (s : State) (c : Ctx) (x : TrapA) (i : Instr) (cause : Nat), (i = .trap x ∧ cause = cSWTRAP) ∨ (i = .bkpt x ∧ cause = cBKPT) →
    ctxOf s x.h = some c →
    (c.lanes = [] → GoesOn c (exec i s) fun t g => BytesKept s t ∧ Kept c.g g []) ∧
    (c.lanes ≠ [] → CanTrap c → Traps c (exec i s) cause x.code.toNat (lowest c.u.mask) 0) ∧
    (c.lanes ≠ [] → c.gr.fail = none → ∀ k, c.g.handler = some k → Becomes (exec i s) fun t =>
      GridFails t c.ld c.r.team.grid 0x08 cause (x.code.toNat % 256) c.r.team.team k.trap.pc) ∧
    (c.lanes ≠ [] → c.gr.fail = none → c.g.handler = none → c.g.pendTrap = none → awaitsFar c.g = false → qbWord s c.ld 0x260 = 0 →
      Becomes (exec i s) fun t => GridFails t c.ld c.r.team.grid 0x08 cause (x.code.toNat % 256) c.r.team.team c.u.pc)) ∧
  (∀ (s : State) (r : GroupRef) (t : Team) (g : Group) (x : Trap), teamOf s r.team = some t → groupOf s r = some g → g.handler = none →
    g.pendTrap = none → awaitsFar g = false → qbWord s r.team.ld 0x260 ≠ 0 → x.lane < 32 → x.detail < 2 ^ 16 → x.cause < 2 ^ 8 →
    t.member < 8 → t.r.ld < 16 → g.id < 32 → g.vbase < 2 ^ 12 → t.core < 2 ^ 9 → ∃ g', groupOf (raiseTrap s r x) r = some g' ∧
      (getG g' 1).extractLsb' 32 32 = x.mask ∧ ((getG g' 1).extractLsb' 26 5).toNat = x.lane ∧ (getG g' 1).getLsbD 31 = false ∧
      (getG g' 1).getLsbD 25 = x.coll ∧ (getG g' 1).getLsbD 24 = x.parked ∧ ((getG g' 1).extractLsb' 8 16).toNat = x.detail ∧
      ((getG g' 1).extractLsb' 0 8).toNat = x.cause ∧ getG g' 2 = x.pc ∧ getG g' 3 = x.addr ∧ (getG g' 4).extractLsb' 32 32 = x.lmask ∧
      (getG g' 4).extractLsb' 24 8 = x.prio ∧ ((getG g' 4).extractLsb' 21 3).toNat = t.member ∧
      ((getG g' 4).extractLsb' 17 4).toNat = t.r.ld ∧ ((getG g' 4).extractLsb' 12 5).toNat = g.id ∧
      ((getG g' 4).extractLsb' 0 12).toNat = g.vbase ∧ ((getG g' 5).extractLsb' 32 9).toNat = t.core ∧
      (getG g' 5).extractLsb' 41 23 = 0 ∧ getG g' 6 = qbWord s r.team.ld 0x268 ∧ (∀ k, 6 < k → getG g' k = 0) ∧
      (∀ k < 7, ∀ l, getP g' k l = false) ∧ (∀ k, getM g' k = 0) ∧ g'.v = g.v ∧ g'.parts = g.parts ∧ g'.octets = g.octets ∧
      g'.frontier = g.frontier) ∧
  (∀ (s : State) (r : GroupRef) (t : Team) (g : Group) (h : Handler) (gr : Grid), Running s → teamOf s r.team = some t →
    groupOf s r = some g → g.handler = some h → gangHere s t = true → gridOf s r.team.ld r.team.grid = some gr → gr.fail = none →
    Becomes (exec (.handlerWatchdog r) s) fun u => GridFails u r.team.ld r.team.grid 0x08 cWATCHDOG 0 r.team.team h.trap.pc) ∧
  (∀ (s : State) (c : Ctx) (h : Hdr) (i : Instr) (skip : Bool), (i = .eret h ∧ skip = false) ∨ (i = .eretSkip h ∧ skip = true) →
    ctxOf s h = some c →
    (c.lanes = [] → GoesOn c (exec i s) fun t g => BytesKept s t ∧ Kept c.g g []) ∧
    (c.lanes ≠ [] → CanTrap c → Traps c (exec i s) cPRIV 4 (lowest c.u.mask) 0) ∧
    (c.lanes ≠ [] → ∀ k, c.g.handler = some k → (∀ e ∈ c.g.frontier, parkTrap e = none) → ∃ t g, EndsIn c (exec i s) t g ∧
      t.mem = s.mem ∧ g.handler = none ∧ g.v = c.g.v ∧ g.bank = c.g.bank ∧
      (∀ l < 32, k.trap.mask.getLsbD l = true →
        StandsAt g.frontier l (if skip && !k.trap.staging then nextPc k.trap.pc else k.trap.pc) k.trap.prio) ∧
      ∀ e ∈ c.g.frontier, e.mask ≠ k.trap.mask → ∀ l < 32, e.mask.getLsbD l = true → if e.waits Wait.isMet then StandsAt g.frontier l (nextPc e.pc) e.prio
        else ∃ e' ∈ g.frontier, e'.st = e.st ∧ e'.pc = e.pc ∧ e'.prio = e.prio ∧ e'.mask.getLsbD l = true)) ∧
  (∀ (s : State) (c : Ctx) (h : Hdr), ctxOf s h = some c → c.lanes ≠ [] → c.g.ended = false →
    let root := (ldOf s c.t.r.ld).slots.getD c.gr.slot emptyRoot
    (root.full = false → CanTrap c → Traps c (exec (.refresh h) s) cNOTMAPPED 10 (lowest c.u.mask) 0) ∧
    (root.full = true → s.ecc = [] → s.sram = [] → GoesOn c (exec (.refresh h) s) fun t g => Kept c.g g [] ∧ g.pin = some ⟨c.gr.slot, root.gen, root.root⟩ ∧
      TeamIs t c.r.team fun u => u.pin = some ⟨c.gr.slot, root.gen, root.root⟩ ∧ u.bounds = (readBounds t c.t.r.ld c.gr.slot).1))

/-- R52, R53, R60, R394: the tree instructions make and publish nodes, set entries, swap, copy and drop roots; a TREEOP trap names the
lowest failing detail. -/
def Obligations.TreeInstructions : Prop :=
  (∀ (s : State) (c : Ctx) (x : TnodeA), ctxOf s x.h = some c → c.lanes ≠ [] → NoCow s c.ld →
    let d := sysVal c x.a
    let n := sysVal c x.b
    let es := nodeEntries s n
    (isNodeOf s c.ld d = false ∨ nodeState s d ≠ 0 → CanTrap c → Traps c (exec (.tnode x) s) cTREEOP 1 (lowest c.u.mask) 0) ∧
    (isNodeOf s c.ld d = true → nodeState s d = 0 → TablesApart s d →
      (x.zero = true → GoesOn c (exec (.tnode x) s) fun t g => Kept c.g g [] ∧ nodeState t d = 1 ∧ nodeCount t d = 0 ∧
        ∀ i < 1024, nodeEntry t d i = 0) ∧
      (x.zero = false → nodeFree s c.ld n = true → CanTrap c → Traps c (exec (.tnode x) s) cTREEOP 2 (lowest c.u.mask) 0) ∧
      (x.zero = false → nodeFree s c.ld n = false → TablesApart s n →
        (∀ e ∈ es, entNames s e = .other ∨ namedCount s (entNames s e) + (es.filter fun y => entNames s y == entNames s e).length < 2 ^ 32) →
        GoesOn c (exec (.tnode x) s) fun t g => Kept c.g g [] ∧ nodeState t d = 1 ∧ nodeCount t d = 0 ∧
          (∀ i < 1024, nodeEntry t d i = nodeEntry s n i) ∧ ∀ e ∈ es, entNames s e ≠ .other → entNames s e ≠ .node d →
            namedCount t (entNames s e) = namedCount s (entNames s e) + (es.filter fun y => entNames s y == entNames s e).length))) ∧
  (∀ (s : State) (c : Ctx) (x : TsetA), ctxOf s x.h = some c → c.lanes ≠ [] → HasDev s c.ld → NoCow s c.ld →
    let n := sysVal c x.a
    let e := sysVal c x.b
    let i := x.idx.toNat
    let old := entNames s (nodeEntry s n i)
    let unfit := bit1 e 0 = true ∧ (if x.level.toNat = 3 then leafUnfit s c.ld e = true else nodeFree s c.ld (entNode e) = true)
    (entReserved x.level.toNat e = true → CanTrap c → Traps c (exec (.tset x) s) cRSVFLD 2 (lowest c.u.mask) 0) ∧
    (entReserved x.level.toNat e = false → isNodeOf s c.ld n = false ∨ nodeState s n ≠ 1 → CanTrap c →
      Traps c (exec (.tset x) s) cTREEOP 1 (lowest c.u.mask) 0) ∧
    (entReserved x.level.toNat e = false → isNodeOf s c.ld n = true → nodeState s n = 1 → (1024 ≤ i ∨ unfit) → CanTrap c →
      Traps c (exec (.tset x) s) cTREEOP 3 (lowest c.u.mask) 0) ∧
    (entReserved x.level.toNat e = false → isNodeOf s c.ld n = true → nodeState s n = 1 → i < 1024 → ¬unfit → TablesApart s n →
      RingApart s c.ld (fun a => n ≤ a ∧ a < n + 8192) →
      (entNames s e = old → GoesOn c (exec (.tset x) s) fun t g => Kept c.g g [] ∧ nodeEntry t n i = e ∧
        ∀ j < 1024, j ≠ i → nodeEntry t n j = nodeEntry s n j) ∧
      (entNames s e ≠ old → (entNames s e = .other ∨ namedCount s (entNames s e) + 1 < 2 ^ 32) →
        GoesOn c (exec (.tset x) s) fun t g => Kept c.g g [] ∧ nodeEntry t n i = e ∧
          (∀ j < 1024, j ≠ i → nodeEntry t n j = nodeEntry s n j) ∧
          (entNames s e ≠ .other → namedCount t (entNames s e) = namedCount s (entNames s e) + 1) ∧ namedCount t old = namedCount s old - 1))) ∧
  (∀ (s : State) (c : Ctx) (x : FourDABT), ctxOf s x.h = some c → WellFormed (.rswap x) = true → c.lanes ≠ [] → HasDev s c.ld → NoCow s c.ld → AllClean s →
    let k := sysVal c x.a
    let n := sysVal c x.b
    let g0 := sysVal c x.t % 2 ^ 48
    let r := (ldOf s c.ld).slots.getD k emptyRoot
    let hit := k < 64 ∧ (if r.full = true then r.gen = g0 else g0 = 0)
    (nodeFree s c.ld n = true → CanTrap c → Traps c (exec (.rswap x) s) cTREEOP 2 (lowest c.u.mask) 0) ∧
    (nodeFree s c.ld n = false → 64 ≤ k → CanTrap c → Traps c (exec (.rswap x) s) cTREEOP 7 (lowest c.u.mask) 0) ∧
    (nodeFree s c.ld n = false → k < 64 → ¬hit → GoesOn c (exec (.rswap x) s) fun t g => BytesKept s t ∧ Kept c.g g (keysOf x.d 1) ∧
      srcD g x.d 2 c.low = 0 ∧ (ldOf t c.ld).slots = (ldOf s c.ld).slots) ∧
    (nodeFree s c.ld n = false → hit → retireFull s c.ld k = true → CanTrap c →
      Traps c (exec (.rswap x) s) cTREEOP 4 (lowest c.u.mask) 0) ∧
    (nodeFree s c.ld n = false → hit → retireFull s c.ld k = false → pubFull (ldOf s c.ld) = true → CanTrap c →
      Traps c (exec (.rswap x) s) cTREEOP 5 (lowest c.u.mask) 0) ∧
    (nodeFree s c.ld n = false → hit → retireFull s c.ld k = false → pubFull (ldOf s c.ld) = false → nodeCount s n + 1 < 2 ^ 32 →
      (r.full = true → r.root = n → nodeCount s n ≠ 0) →
      GoesOn c (exec (.rswap x) s) fun t g => Kept c.g g (keysOf x.d 1) ∧
        srcD g x.d 2 c.low = seen x.d 2 (BitVec.ofNat 64 (ldOf s c.ld).pubNext) ∧ nodeState t n = 2 ∧
        (ldOf t c.ld).pubNext = (ldOf s c.ld).pubNext + 1 ∧
        (ldOf t c.ld).slots.getD k emptyRoot = ⟨true, (ldOf s c.ld).pubNext, 0, k, n, treePast c⟩ ∧
        ∀ j, j ≠ k → (ldOf t c.ld).slots.getD j emptyRoot = (ldOf s c.ld).slots.getD j emptyRoot)) ∧
  (∀ (s : State) (c : Ctx) (x : ThreeDAB), ctxOf s x.h = some c → WellFormed (.rcopy x) = true → c.lanes ≠ [] → HasDev s c.ld → NoCow s c.ld → AllClean s →
    let j := sysVal c x.a
    let k := sysVal c x.b
    let src := (ldOf s c.ld).slots.getD k emptyRoot
    (pubFull (ldOf s c.ld) = true → CanTrap c → Traps c (exec (.rcopy x) s) cTREEOP 5 (lowest c.u.mask) 0) ∧
    (pubFull (ldOf s c.ld) = false → (64 ≤ j ∨ 64 ≤ k ∨ ((ldOf s c.ld).slots.getD j emptyRoot).full = true ∨ src.full = false) → CanTrap c →
      Traps c (exec (.rcopy x) s) cTREEOP 7 (lowest c.u.mask) 0) ∧
    (pubFull (ldOf s c.ld) = false → j < 64 → k < 64 → ((ldOf s c.ld).slots.getD j emptyRoot).full = false → src.full = true →
      nodeCount s src.root + 1 < 2 ^ 32 → GoesOn c (exec (.rcopy x) s) fun t g => Kept c.g g (keysOf x.d 1) ∧
        srcD g x.d 2 c.low = seen x.d 2 (BitVec.ofNat 64 (ldOf s c.ld).pubNext) ∧
        nodeCount t src.root = nodeCount s src.root + 1 ∧ (ldOf t c.ld).pubNext = (ldOf s c.ld).pubNext + 1 ∧
        (ldOf t c.ld).slots = lset (ldOf s c.ld).slots j ⟨true, (ldOf s c.ld).pubNext, 0, j, src.root, treePast c⟩)) ∧
  (∀ (s : State) (c : Ctx) (x : OneA), ctxOf s x.h = some c → c.lanes ≠ [] → HasDev s c.ld → AllClean s →
    let k := sysVal c x.a
    let r := (ldOf s c.ld).slots.getD k emptyRoot
    (64 ≤ k ∨ r.full = false → CanTrap c → Traps c (exec (.rdrop x) s) cTREEOP 7 (lowest c.u.mask) 0) ∧
    (k < 64 → r.full = true → retireFull s c.ld k = true → CanTrap c → Traps c (exec (.rdrop x) s) cTREEOP 4 (lowest c.u.mask) 0) ∧
    (k < 64 → r.full = true → retireFull s c.ld k = false → GoesOn c (exec (.rdrop x) s) fun t g => Kept c.g g [] ∧
      ((ldOf t c.ld).slots.getD k emptyRoot).full = false ∧
      (r.pins = 0 → nodeCount t r.root = nodeCount s r.root - 1) ∧
      (r.pins ≠ 0 → ∃ y ∈ (ldOf t c.ld).retired, y.full = true ∧ y.gen = r.gen ∧ y.pins = r.pins ∧ y.root = r.root)) ∧
    (isNodeOf s c.ld k = false ∨ nodeState s k ≠ 1 ∨ nodeCount s k ≠ 0 → CanTrap c →
      Traps c (exec (.rdropNode x) s) cTREEOP 1 (lowest c.u.mask) 0) ∧
    (isNodeOf s c.ld k = true → nodeState s k = 1 → nodeCount s k = 0 → GoesOn c (exec (.rdropNode x) s) fun t g => Kept c.g g [] ∧
      nodeState t k = 0 ∧ nodeCount t k = 0 ∧ (ldOf t c.ld).reclaim = (ldOf s c.ld).reclaim ++
        .append (BitVec.ofNat 64 (k + 1)) :: (nodeEntries s k).map fun e => .dropEntry (BitVec.ofNat 64 e)) ∧
    GoesOn c (exec (.tinv x) s) fun t g => Kept c.g g [] ∧ BytesKept s t ∧ ∀ y, y ∈ (ldOf t c.ld).tcache ↔
      y ∈ (ldOf s c.ld).tcache ∧ k % 2 ^ 48 ≠ 0 ∧ y.gen ≠ some (k % 2 ^ 48))

/-- R453, R57, R58, R397: an operation word at a hart's port does what the instruction does on the operand words of the port, with
status 0 and its value in D, or leaves the cause and detail that the instruction would trap with. One step of reclamation appends a
record to the reclaim ring, which waits while the ring is full, or gives up the count of what an entry of a freed node names, which
frees a node and appends the record of a frame that nothing names any more; RQCONS consumes records. -/
def Obligations.TreePortsAndReclamation : Prop :=
  (∀ (s : State) (hart : Nat) (w : DWord), Running s → hart < 20 → hart < s.harts.length → w.extractLsb' 20 44 = 0 →
      let x := s.harts.getD hart default
      let md := (w.extractLsb' 8 8).toNat
      let ld := (w.extractLsb' 16 4).toNat
      let ends (o : Out) (r : Except (Nat × Nat) (State × Option Nat)) : Prop := match r with
        | .ok (u, d) => u.harts = s.harts → o = .next { u with
            harts := lset s.harts hart { x with status := 0, d := match d with
              | some n => BitVec.ofNat 64 n
              | none => x.d } }
        | .error (cause, detail) => o = .next { s with
            harts := lset s.harts hart { x with status := BitVec.ofNat 64 (cause + detail * 2 ^ 8) } }
      let noVal (r : TreeRes) := r.map fun u => (u, (none : Option Nat))
      let val (r : Except (Nat × Nat) (State × Nat)) := r.map fun y => (y.1, some y.2)
      let past := whoPast s (.hart hart)
      NoCow s ld →
      (w.extractLsb' 0 8 = 0xC1 → md ≤ 1 →
        ends (exec (.treeportTnode hart w) s) (noVal (treeTnode s ld x.opA.toNat (if md = 1 then none else some x.opB.toNat)))) ∧
      (w.extractLsb' 0 8 = 0xC2 → md ≤ 3 → ends (exec (.treeportTset hart w) s) (noVal (treeTset s ld x.opA.toNat x.opT.toNat md x.opB.toNat))) ∧
      (w.extractLsb' 0 8 = 0xC3 → md = 0 → ends (exec (.treeportRswap hart w) s)
        (val ((treeRswap s ld x.opA.toNat x.opB.toNat (x.opT.toNat % 2 ^ 48) past).map fun y =>
          (if y.2 = 0 then y.1 else settleMoves y.1 ld x.opA.toNat, y.2)))) ∧
      (w.extractLsb' 0 8 = 0xC4 → md = 0 → ends (exec (.treeportRcopy hart w) s) (val (treeRcopy s ld x.opA.toNat x.opB.toNat past))) ∧
      (w.extractLsb' 0 8 = 0xC5 → md = 0 → ends (exec (.treeportRdrop hart w) s) (noVal (treeRdrop s ld x.opA.toNat))) ∧
      (w.extractLsb' 0 8 = 0xC5 → md = 1 → ends (exec (.treeportRdrop hart w) s) (noVal (treeRdropNode s ld x.opA.toNat))) ∧
      (w.extractLsb' 0 8 = 0xC6 → md = 0 → ends (exec (.treeportTinv hart w) s) (noVal (treeTinv s ld (x.opA.toNat % 2 ^ 48))))) ∧
  ((∀ (s : State) (ld : Nat) (rest : List Reclaim), Running s → HasDev s ld → (ldOf s ld).resetting = false → AllClean s →
      (∀ v : DWord, (ldOf s ld).reclaim = .append v :: rest →
        let base := fld (peek s (ldReg s ld 0x1) 8) 0 52
        let prod := ldReg s ld 0x2
        (ringRoom s ld = true → Becomes (exec (.reclaimRelease ld) s) fun u => peek u (base + 8 * (prod % 4096)) 8 = v.toNat ∧
          ldReg u ld 0x2 = (prod + 1) % 2 ^ 32 ∧ (ldOf u ld).reclaim = rest) ∧
        (ringRoom s ld = false → exec (.reclaimRelease ld) s = .next s)) ∧
      ∀ e : DWord, (ldOf s ld).reclaim = .dropEntry e :: rest →
        let n := entNode e.toNat
        let f := entFrame e.toNat
        (namesNode s e.toNat = true → TablesApart s n → Becomes (exec (.reclaimRelease ld) s) fun u => nodeCount u n = nodeCount s n - 1 ∧
          (1 < nodeCount s n → nodeState u n = nodeState s n ∧ (ldOf u ld).reclaim = rest) ∧
          (nodeCount s n ≤ 1 → nodeState u n = 0 ∧ (ldOf u ld).reclaim =
            .append (BitVec.ofNat 64 (n + 1)) :: (nodeEntries s n).map (fun e => .dropEntry (BitVec.ofNat 64 e)) ++ rest)) ∧
        (namesNode s e.toNat = false → frameCounted s f = true → RingApart s ld (fun _ => False) →
          Becomes (exec (.reclaimRelease ld) s) fun u => frameCount u f = frameCount s f - 1 ∧
            if 1 < frameCount s f then (ldOf u ld).reclaim = rest ∧ ldReg u ld 0x2 = ldReg s ld 0x2
            else if ringRoom s ld then (ldOf u ld).reclaim = rest ∧ ldReg u ld 0x2 = (ldReg s ld 0x2 + 1) % 2 ^ 32
            else (ldOf u ld).reclaim = .append (BitVec.ofNat 64 (f + if 2 ≤ frameKind s f then 3 else 2)) :: rest)) ∧
    (∀ (s : State) (ld : Nat) (v : DWord), Running s → HasDev s ld →
      Becomes (exec (.rqcons ld v) s) fun u => u.mem = s.mem ∧ ldReg u ld 0x3 = v.toNat))

/-- R383, R397, R398, R403, R427: SWRITE writes and PRIVRD reads a privileged register after their checks; a write through the
device-register area does the same; a read-only number, then a field, then the level is checked. Readings of the model that it rests on:
log 42. -/
def Obligations.PrivilegedRegisters : Prop :=
  (∀ (s : State) (c : Ctx) (h : Hdr) (i : Instr) (num ld : Nat) (b : Opnd) (wr : Bool),
    (∃ x, i = .swrite x ∧ h = x.h ∧ num = x.num.toNat ∧ ld = x.ld.toNat ∧ b = x.b ∧ wr = true) ∨
      (∃ x, i = .privrd x ∧ h = x.h ∧ num = x.num.toNat ∧ ld = x.ld.toNat ∧ b = x.b ∧ wr = false) →
    ctxOf s h = some c → c.lanes ≠ [] → CanTrap c →
    let idx := privIndex c b
    let traps (cause detail : Nat) : Prop := Traps c (exec i s) cause detail (lowest c.u.mask) 0
    (privReg num = none → traps cILLOP 5) ∧
    ∀ r, privReg num = some r →
      (wr = true → r.ro = true → traps cILLOP 6) ∧
      ((wr = true → r.ro = false) →
        (num ≠ 0x404 → b ≠ .v 0 → traps cRSVFLD 2) ∧
        ((num ≠ 0x404 → b = .v 0) →
          (r.pkg = true → ld ≠ 0 → traps cRSVFLD 4) ∧
          ((r.pkg = true → ld = 0) → c.level ≠ .mgmt → (r.mgmt = true ∨ (r.pkg = false ∧ ld ≠ c.ld)) → traps cPRIV 2) ∧
          ((r.pkg = true → ld = 0) → (c.level = .mgmt ∨ (r.mgmt = false ∧ (r.pkg = true ∨ ld = c.ld))) →
            num = 0x404 → frameEntPa s (idx * 2 ^ 16) = none → traps cILLOP 7)))) ∧
  (∀ (s : State) (c : Ctx) (x : SwriteA) (r : PrivReg), ctxOf s x.h = some c → c.lanes ≠ [] →
    let num := x.num.toNat
    let ld := x.ld.toNat
    let idx := privIndex c x.b
    let v := sysVal c x.a
    privReg num = some r → r.ro = false → (r.pkg = true → ld = 0) → HasDev s ld →
    (c.level = .mgmt ∨ (r.mgmt = false ∧ (r.pkg = true ∨ ld = c.ld))) →
      (num ≠ 0x404 → x.b = .v 0 → privFits num v = false → CanTrap c → Traps c (exec (.swrite x) s) cILLOP 7 (lowest c.u.mask) 0) ∧
      (num ≠ 0x404 → x.b = .v 0 → privFits num v = true → ¬(0x800 ≤ num ∧ num < 0x808) → ¬(0x820 ≤ num ∧ num < 0x824) →
        GoesOn c (exec (.swrite x) s) fun t g => Kept c.g g [] ∧ BytesKept s t ∧ (privRead t ld num 0).toNat = v ∧
          ∀ m, m ≠ num → m ≠ 0x404 → privRead t ld m 0 = privRead s ld m 0) ∧
      (0x800 ≤ num → num < 0x808 → x.b = .v 0 → privFits num v = true → GoesOn c (exec (.swrite x) s) fun t g => Kept c.g g [] ∧
        (privRead t ld num 0).toNat = if s.ccSet.contains (num - 0x800) then (privRead s ld num 0).toNat else v) ∧
      (num = 0x404 → ∀ a, frameEntPa s (idx * 2 ^ 16) = some a → privFits num v = true →
        (frameCount s (idx * 2 ^ 16) ≠ 0 → CanTrap c → Traps c (exec (.swrite x) s) cTREEOP 8 (lowest c.u.mask) 0) ∧
        (frameCount s (idx * 2 ^ 16) = 0 → AllClean s → GoesOn c (exec (.swrite x) s) fun t g => Kept c.g g [] ∧
          frameKind t (idx * 2 ^ 16) = fld v 58 2 ∧ frameOwner t (idx * 2 ^ 16) = fld v 60 4 ∧ frameCount t (idx * 2 ^ 16) = 0))) ∧
  (∀ (s : State) (c : Ctx) (x : PrivrdA) (r : PrivReg), ctxOf s x.h = some c → WellFormed (.privrd x) = true → c.lanes ≠ [] →
    let num := x.num.toNat
    let ld := x.ld.toNat
    let idx := privIndex c x.b
    privReg num = some r → (r.pkg = true → ld = 0) → (c.level = .mgmt ∨ (r.mgmt = false ∧ (r.pkg = true ∨ ld = c.ld))) →
    (num ≠ 0x404 → x.b = .v 0) → (num = 0x404 → frameEntPa s (idx * 2 ^ 16) ≠ none) →
    GoesOn c (exec (.privrd x) s) fun t g => BytesKept s t ∧ Kept c.g g (keysOf x.d 1) ∧ ∃ v : DWord, srcD g x.d 2 c.low = seen x.d 2 v ∧
      (num = 4 → v = BitVec.ofNat 64 ((ldOf s ld).pubNext - 1)) ∧ (num = 0x404 →
        v.toNat = fld (frameEnt s (idx * 2 ^ 16)) 58 6 * 2 ^ 58 + fld (frameEnt s (idx * 2 ^ 16)) 0 32) ∧
      (∀ k < 64, num = 0x100 + 2 * k → v.getLsbD 0 = ((ldOf s ld).slots.getD k emptyRoot).full ∧
        (v.extractLsb' 2 39).toNat = fld ((ldOf s ld).slots.getD k emptyRoot).root 13 39 ∧ (v.extractLsb' 42 6).toNat = k % 64) ∧
      (∀ k < 64, num = 0x101 + 2 * k → (v.extractLsb' 16 48).toNat = ((ldOf s ld).slots.getD k emptyRoot).gen % 2 ^ 48) ∧
      (num < 4 ∨ (0x800 ≤ num ∧ num < 0xA68) → v = if r.pkg = true then stGet s.preg num else stGet (ldOf s ld).preg num)) ∧
  (∀ (s : State) (ld : Nat) (v : DWord), Running s → HasDev s ld →
    let at' (off : Nat) : Nat := 0xFF0000000000 + ld * 2 ^ 16 + off
    (Becomes (exec (.registerWrite (at' 0x260) v) s) fun u => BytesKept s u ∧ qbWord u ld 0x260 = v &&& ~~~3#64) ∧
    (Becomes (exec (.registerWrite (at' 0x268) v) s) fun u => BytesKept s u ∧ qbWord u ld 0x268 = v) ∧
    (Becomes (exec (.registerWrite (at' 0x258) v) s) fun u => BytesKept s u ∧ (qbWord u ld 0x258).extractLsb' 0 44 = v.extractLsb' 0 44) ∧
    ∀ num r, privReg num = some r → r.ro = false → (r.pkg = true → ld = 0) → num ≠ 0x404 → privFits num v.toNat = true →
      ¬(0x800 ≤ num ∧ num < 0x808) → ¬(0x820 ≤ num ∧ num < 0x824) →
      Becomes (exec (.registerWrite (ld * 2 ^ 16 + num) v) s) fun u => BytesKept s u ∧ privRead u ld num 0 = v)

/-- R399, R440, R441, R400, R401: LDRESET stops a logical device and waits for its reset, which once nothing of the device is under way
empties its trees and registers and lets the entry go on; a clear-pending line is cleared. DIAGST and DIAGLD move a block of A to and
from the stored bytes and check bytes of a sector, or the data and check bits of a word, after their checks. Readings of the model that
it rests on: log 10, log 49, log 62, log 75. -/
def Obligations.DeviceResetAndDiagnostics : Prop :=
  ((∀ (s : State) (c : Ctx) (x : OneA), ctxOf s x.h = some c → c.lanes ≠ [] →
      let n := sysVal c x.a
      (c.level ≠ .mgmt → CanTrap c → Traps c (exec (.ldreset x) s) cPRIV 2 (lowest c.u.mask) 0) ∧
      (c.level = .mgmt → n = 0 ∨ 15 < n ∨ n = c.ld → CanTrap c → Traps c (exec (.ldreset x) s) cPRIV 3 (lowest c.u.mask) 0) ∧
      (c.level = .mgmt → 0 < n → n ≤ 15 → n ≠ c.ld → HasDev s n → (others c.u (frontOf c.g)).length < depthOf c.g →
        Waits c (exec (.ldreset x) s) (.ldreset n) ∧ Becomes (exec (.ldreset x) s) fun t => (ldOf t n).resetting = true ∧
          ((ldOf s n).resetting = false → (∀ u ∈ t.teams, u.r.ld ≠ n) ∧ (∀ g ∈ t.grids, g.ld ≠ n) ∧
            ∀ q ∈ (ldOf t n).queues, q.en = false ∧ q.head = 0 ∧ q.tail = 0 ∧ q.err = false))) ∧
    (∀ (s : State) (n : Nat), Running s → HasDev s n → (ldOf s n).resetting = true →
      (ldBusy s n = true → exec (.ldresetComplete n) s = .next s) ∧
      (ldBusy s n = false → Becomes (exec (.ldresetComplete n) s) fun u => (ldOf u n).resetting = false ∧ (ldOf u n).pubNext = 1 ∧
        (ldOf u n).slots = List.replicate 64 emptyRoot ∧ (ldOf u n).retired = List.replicate 256 emptyRoot ∧ (ldOf u n).reclaim = [] ∧
        (∀ k, k = 1 ∨ k = 2 ∨ k = 3 ∨ k = 5 → ldReg u n k = 0) ∧ qbWord u n 0x240 = 0 ∧ qbWord u n 0x248 = 0 ∧ qbWord u n 0x250 = 50 ∧
        qbWord u n 0x260 = 0 ∧ qbWord u n 0x268 = 0 ∧ (∀ m, m ≠ n → ldOf u m = ldOf s m) ∧
        ∀ t ∈ s.teams, ∀ q ∈ t.groups, q.handler = none → q.pendTrap = none → ∀ e ∈ q.frontier, ∀ k, e.mask ≠ 0 →
          e.st = .waiting (.ldreset n) k → ∃ t' ∈ u.teams, t'.r = t.r ∧ ∃ q' ∈ t'.groups, q'.id = q.id ∧
            ∀ l < 32, e.mask.getLsbD l = true → StandsAt q'.frontier l (nextPc e.pc) e.prio)) ∧
    (∀ (s : State) (line : Nat), Running s →
      (isPend s line = false → exec (.clearPendingLine line) s = .next s) ∧
      (isPend s line = true → Becomes (exec (.clearPendingLine line) s) fun u => isPend u line = false ∧
        ∀ m, m ≠ line → m / 2 ^ 29 = line / 2 ^ 29 → isPend s m = true → ∀ i < 128, (storedBytes u (128 * line) 128).getD i 0 = 0))) ∧
  ((∀ (s : State) (c : Ctx) (x : TwoAB) (i : Instr) (size : Nat), ((i = .diagstHbm x ∨ i = .diagldHbm x) ∧ size = 48) ∨
        ((i = .diagstSram x ∨ i = .diagldSram x) ∧ size = 16) → ctxOf s x.h = some c → c.lanes ≠ [] → CanTrap c →
      let off := sysVal c x.b
      let a := sysVal c x.a
      let traps (cause detail : Nat) (p : DWord) : Prop := Traps c (exec i s) cause detail (lowest c.u.mask) p
      (c.level ≠ .mgmt → traps cPRIV 2 0) ∧
      (c.level = .mgmt → c.t.alen < off + size → traps cBUFRANGE 1 (BitVec.ofNat 64 off)) ∧
      (c.level = .mgmt → off + size ≤ c.t.alen → off % 16 ≠ 0 → traps cBUFRANGE 2 (BitVec.ofNat 64 off)) ∧
      (c.level = .mgmt → off + size ≤ c.t.alen → off % 16 = 0 →
        (if size = 48 then a % 32 ≠ 0 ∨ 2 ^ 39 ≤ a else sramTarget a = none) → traps cNOTMAPPED 9 0)) ∧
    (∀ (s : State) (c : Ctx) (x : TwoAB), ctxOf s x.h = some c → c.lanes ≠ [] → c.level = .mgmt → s.sram = [] →
      let off := sysVal c x.b
      let a := sysVal c x.a
      let blk (u : State) (i n : Nat) : Nat := bufGet u c.t.r .a (off + i) n
      let rest (t : State) : Prop := ∀ r b k, ¬(r = c.t.r ∧ b = .a ∧ off ≤ k ∧ k < off + 48) → bufByte t r b k = bufByte s r b k
      off % 16 = 0 →
      (off + 48 ≤ c.t.alen → a % 32 = 0 → a < 2 ^ 39 →
        (GoesOn c (exec (.diagstHbm x) s) fun t g => Kept c.g g [] ∧ (∀ r b k, bufByte t r b k = bufByte s r b k) ∧
          storedBytes t a 32 = bytesOf (blk s 0 32) 32 ∧ storedCheck t (a / 32) = blk s 32 4 ∧ isPend t (a / 128) = false) ∧
        (GoesOn c (exec (.diagldHbm x) s) fun t g => Kept c.g g [] ∧ t.mem = s.mem ∧ t.ecc = s.ecc ∧ rest t ∧
          blk t 0 32 = ofBytes (storedBytes s a 32) ∧ blk t 32 4 = storedCheck s (a / 32) ∧ blk t 36 12 = 0)) ∧
      (∀ k, sramTarget a = some k → off + 16 ≤ c.t.alen →
        (GoesOn c (exec (.diagstSram x) s) fun t _ => t.mem = s.mem ∧ sramAt t k = some (blk s 0 8, blk s 8 1)) ∧
        (GoesOn c (exec (.diagldSram x) s) fun t g => Kept c.g g [] ∧ t.mem = s.mem ∧ rest t ∧
          blk t 0 8 = sramPlain s k % 2 ^ 64 ∧ blk t 9 7 = 0))) ∧
    (∀ (s : State) (c : Ctx) (x : TwoAB) (k : SramKey) (d chk : Nat), ctxOf s x.h = some c → c.lanes ≠ [] → c.level = .mgmt →
      s.sram = [(k.1, k.2.1, k.2.2, d, chk)] → sramTarget (sysVal c x.a) = some k → storeBufOf k.1 ≠ some .a → sysVal c x.b % 16 = 0 →
      sysVal c x.b + 16 ≤ c.t.alen → GoesOn c (exec (.diagldSram x) s) fun t _ =>
        bufGet t c.t.r .a (sysVal c x.b) 8 = d % 2 ^ 64 ∧ bufGet t c.t.r .a (sysVal c x.b + 8) 1 = chk % 256))

/-- R402, R404, R408, R405, R406, R408: a write of a descriptor's word changes its writable fields alone, and a write that sets EN
clears ERR; a doorbell sets TAIL, and the read that follows stops a queue whose descriptor is invalid. The commands that steer a queue
and those that read and write words; an invalid command stops it. Readings of the model that it rests on: log 23. -/
def Obligations.Queues : Prop :=
  ((∀ (s : State) (k : QueueRef) (v : DWord), Running s → HasDev s k.ld → k.q < 9 →
      let x := queueOf s k.ld k.q
      let past := (queueOf (hostTail s k) k.ld k.q).past
      let after (w : Nat) (y : Queue) : Prop := Becomes (exec (.queueDescriptorWrite k w v) s) fun u => queueOf u k.ld k.q = y ∧ BytesKept s u
      after 0 { x with base := v } ∧ after 1 { x with size := v.extractLsb' 0 32 } ∧
      after 2 { x with
        tail := v.extractLsb' 0 32, slot := v.extractLsb' 32 6, en := v.getLsbD 38, err := x.err && !v.getLsbD 38
        waiting := if v.getLsbD 38 then x.waiting else none, past := past } ∧ after 3 x) ∧
    (∀ (s : State) (k : QueueRef) (tail : Word), Running s → HasDev s k.ld → k.q < 9 →
      let x := queueOf s k.ld k.q
      (x.en = false ∨ tail = x.head ∨ x.waiting ≠ none →
        Becomes (exec (.queueDoorbell k tail) s) fun u =>
          queueOf u k.ld k.q = { x with tail := tail, past := (queueOf (hostTail s k) k.ld k.q).past }) ∧
      (x.en = true → tail ≠ x.head → x.waiting = none →
        ((∀ i, 4 ≤ i → i ≤ 20 → x.size.toNat ≠ 2 ^ i) ∨ x.base.toNat % 64 ≠ 0 ∨ x.slot = 63 ∨ x.size.toNat < (tail - x.head).toNat) →
        Becomes (exec (.queueDoorbell k tail) s) fun u => StoppedWith u k 0x0B (commandPtr x x.head.toNat)))) ∧
  ((∀ (s s1 : State) (k : QueueRef) (x : Queue) (c : Nat), HasCommand s k s1 x c 2 →
      let p := commandPtr x x.head.toNat
      let n : Option Nat := if bit1 (cmdFlags c) 0 then match cpNat s1 k.ld x.slot.toNat (cmdP c) 4 with
        | .ok r => some r.1
        | .error _ => none
        else some (cmdImm c)
      (n = none → Becomes (exec (.loop k) s) fun u => StoppedWith u k 0x0E p) ∧
      (n = some 0 → Becomes (exec (.loop k) s) fun u => GoneTo u k (x.head.toNat + fld (cmdVal c) 0 16 + 1) x.loops) ∧
      (∀ m, n = some m → 0 < m → x.loops.length < 4 → Becomes (exec (.loop k) s) fun u =>
        GoneTo u k (x.head.toNat + 1) (((x.head + 1).toNat, m, 0) :: x.loops)) ∧
      (∀ m, n = some m → 0 < m → 4 ≤ x.loops.length → Becomes (exec (.loop k) s) fun u => StoppedWith u k 0x0C p)) ∧
    (∀ (s s1 : State) (k : QueueRef) (x : Queue) (c : Nat), HasCommand s k s1 x c 3 →
      (x.loops = [] → Becomes (exec (.endloop k) s) fun u => StoppedWith u k 0x0C (commandPtr x x.head.toNat)) ∧
      ∀ first n i rest, x.loops = (first, n, i) :: rest → Becomes (exec (.endloop k) s) fun u =>
        if i + 1 < n then GoneTo u k first ((first, n, i + 1) :: rest) else GoneTo u k (x.head.toNat + 1) rest) ∧
    (∀ (s s1 s2 : State) (k : QueueRef) (x : Queue) (c v : Nat), HasCommand s k s1 x c 4 →
      cpNat s1 k.ld x.slot.toNat (cmdP c) 8 = .ok (v, s2) →
      let holds : Prop := (cmdFlags c = 0 ∧ v = cmdVal c) ∨ (cmdFlags c = 1 ∧ v ≠ cmdVal c) ∨ (cmdFlags c = 2 ∧ v < cmdVal c) ∨
        (cmdFlags c = 3 ∧ cmdVal c ≤ v)
      (holds → Becomes (exec (.cond k) s) fun u => GoneTo u k (x.head.toNat + 1) x.loops) ∧
      (¬holds → Becomes (exec (.cond k) s) fun u => GoneTo u k (x.head.toNat + 1 + cmdImm c) x.loops)) ∧
    (∀ (s s1 : State) (k : QueueRef) (x : Queue) (c : Nat), HasCommand s k s1 x c 5 →
      (cmdImm c = 0 → Becomes (exec (.jump k) s) fun u => StoppedWith u k 0x0C (commandPtr x x.head.toNat)) ∧
      (cmdImm c ≠ 0 → Becomes (exec (.jump k) s) fun u => GoneTo u k (x.head.toNat + (BitVec.ofNat 32 (cmdImm c)).toInt) x.loops)) ∧
    (∀ (s s1 s2 : State) (k : QueueRef) (x : Queue) (c v : Nat), HasCommand s k s1 x c 6 →
      cpNat s1 k.ld x.slot.toNat (cmdP c) 8 = .ok (v, s2) →
      ∀ i, (i = .wait k ∧ x.waiting = none) ∨ (i = .waitSatisfied k ∧ x.waiting = some c) →
        (cmdVal c ≤ v → Becomes (exec i s) fun u => GoneTo u k (x.head.toNat + 1) x.loops) ∧
        (v < cmdVal c → Becomes (exec i s) fun u => Holds u k x c)) ∧
    (∀ (s s1 : State) (k : QueueRef) (x : Queue) (c pa : Nat), HasCommand s k s1 x c 7 →
      cpPlace s1 k.ld x.slot.toNat (cmdP c) 8 .write = .ok pa → pa % 32 + 8 ≤ 32 → isHbm pa = true → CleanAt s1 pa 8 → s1.sram = [] →
      Becomes (exec (.write k) s) fun u => GoneTo u k (x.head.toNat + 1) x.loops ∧ peek u pa 8 = cmdVal c) ∧
    (∀ (s s1 : State) (k : QueueRef) (x : Queue) (c : Nat), HasCommand s k s1 x c 8 →
      (x.live = [] → Becomes (exec (.drain k) s) fun u => GoneTo u k (x.head.toNat + 1) x.loops) ∧
      (x.live ≠ [] → Becomes (exec (.drain k) s) fun u => Holds u k x c) ∧
      (x.live = [] → x.waiting = some c → Becomes (exec (.drainDone k) s) fun u => GoneTo u k (x.head.toNat + 1) x.loops)) ∧
    (∀ (s s1 : State) (k : QueueRef) (x : Queue) (c : Nat), HasCommand s k s1 x c 9 →
      Becomes (exec (.halt k) s) fun u => queueOf u k.ld k.q = { x with en := false }) ∧
    (∀ (s s1 : State) (k : QueueRef) (x : Queue) (c : Nat) (i : Instr), Running s → HasDev s k.ld → k.q < 9 → (ldOf s k.ld).resetting = false →
      queueBusy (queueOf s k.ld k.q) = true → readCommand s k = .ok (c, s1) → x = queueOf s1 k.ld k.q →
      (i = .invalidCommand k ∧ (cmdCode c = 0 ∨ 0x0C ≤ cmdCode c)) ∨ (cmdBad c = true ∧ ((i = .launch k ∧ cmdCode c = 1) ∨
        (i = .loop k ∧ cmdCode c = 2) ∨ (i = .endloop k ∧ cmdCode c = 3) ∨ (i = .cond k ∧ cmdCode c = 4) ∨ (i = .jump k ∧ cmdCode c = 5) ∨
        (i = .wait k ∧ cmdCode c = 6) ∨ (i = .write k ∧ cmdCode c = 7) ∨ (i = .drain k ∧ cmdCode c = 8) ∨ (i = .halt k ∧ cmdCode c = 9) ∨
        (i = .migrate k ∧ cmdCode c = 11) ∨ (i = .pswapOut k ∧ cmdCode c = 10 ∧ bit1 (cmdFlags c) 0 = false) ∨
        (i = .pswapIn k ∧ cmdCode c = 10 ∧ bit1 (cmdFlags c) 0 = true))) →
      Becomes (exec i s) fun u => StoppedWith u k 0x0C (commandPtr x x.head.toNat)))

/-- R64, R65, R406, R412, R421, R422, R476: a launch gives its grid the next GRIDID; a migration is held and answered; a partition swap
takes a logical device's gangs off some clusters and brings them back. Readings of the model that it rests on: log 22, log 26. -/
def Obligations.LaunchMigrateSwap : Prop :=
  (∀ (s s1 : State) (k : QueueRef) (x : Queue) (c : Nat), HasCommand s k s1 x c 1 →
    let p := commandPtr x x.head.toNat
    let id := (ldOf s1 k.ld).gridCtr
    (bit1 (cmdFlags c) 1 = true → x.live ≠ [] → Becomes (exec (.launch k) s) fun u => Holds u k x c) ∧
    ((bit1 (cmdFlags c) 1 = false ∨ x.live = []) →
      (∀ e, cpNat s1 k.ld x.slot.toNat (cmdP c) 128 = .error e → Becomes (exec (.launch k) s) fun u => StoppedWith u k 0x0E p) ∧
      ∀ raw s2, cpNat s1 k.ld x.slot.toNat (cmdP c) 128 = .ok (raw, s2) →
        (∀ e, launchDims s2 k x.slot.toNat c raw = .error e → Becomes (exec (.launch k) s) fun u => StoppedWith u k 0x0E p) ∧
        ∀ gx gy gz s3, launchDims s2 k x.slot.toNat c raw = .ok ((gx, gy, gz), s3) →
          Becomes (exec (.launch k) s) fun u => GoneTo u k (x.head.toNat + 1) x.loops ∧ (ldOf u k.ld).gridCtr = id + 1 ∧
            (queueOf u k.ld k.q).live = x.live ++ [id] ∧ ∃ g ∈ u.grids, g.ld = k.ld ∧ g.id = id ∧ g.queue = k.q ∧ g.cmdPtr = p ∧
              g.raw = raw ∧ (g.gx, g.gy, g.gz) = (gx, gy, gz) ∧ g.prio = (if k.q = 8 then fld raw 596 3 else k.q) ∧ g.next = 0 ∧
              (bit1 (cmdFlags c) 0 = false → (gx, gy, gz) = (fld raw 384 32, fld raw 416 32, fld raw 448 32)) ∧
              (recordOk g = false → g.fail = some (0x02, 0, 0, 0, 0, 0)) ∧
              ∀ st y, g.fail = some (st, y) → st = 0x02 ∨ st = 0x03 ∨ st = 0x04 ∨ st = 0x05)) ∧
  (∀ (s s1 : State) (k : QueueRef) (x : Queue) (c : Nat), HasCommand s k s1 x c 11 →
    let frame := (cmdP2 c).toNat
    let bad := bit1 (cmdFlags c) 0 = true ∧ (frame % 2 ^ 16 ≠ 0 ∨ areaOf frame ≠ .host k.ld)
    (bad → Becomes (exec (.migrate k) s) fun u => StoppedWith u k 0x0C (commandPtr x x.head.toNat)) ∧
    (¬bad → Becomes (exec (.migrate k) s) fun u => GoneTo u k (x.head.toNat + 1) x.loops ∧ ∃ m, u.migrations = s1.migrations ++ [m] ∧
      m.ld = k.ld ∧ m.slot = fld (cmdImm c) 0 6 ∧ m.va = fld (cmdVal c) 0 56 ∧ m.toHost = bit1 (cmdFlags c) 0 ∧ m.frame = frame ∧
      m.result = cmdP c)) ∧
  (∀ (s : State) (req v pa : Nat) (m : Migration), Running s → (s.migrations.find? fun m => m.id == req) = some m →
    let leaf := slotLeaf s m.ld m.slot m.va
    (m.st = .lost ∧ v = 4) ∨ (m.st ≠ .lost ∧ (leaf = none ∧ v = 3 ∨ ∃ e, leaf = some e ∧ (((bit1 e 6 = true ∨ bit1 e 5 = true) ∧ v = 3) ∨
      (bit1 e 6 = false ∧ bit1 e 5 = false ∧ (m.st = .won ∧ v = 1 ∨ m.st = .asked ∧ leafThere m.toHost m.frame e = true ∧ v = 2))))) →
    cpPlace s m.ld m.qslot m.result 8 .write = .ok pa → pa % 32 + 8 ≤ 32 → isHbm pa = true → CleanAt s pa 8 → s.sram = [] →
    Becomes (exec (.migrateResult req) s) fun u => peek u pa 8 = v ∧ u.migrations = s.migrations.filter fun n => n.id != req) ∧
  (∀ (s s1 : State) (k : QueueRef) (x : Queue) (c : Nat), HasCommand s k s1 x c 10 →
    let cl := swapClusters c
    let ld := cmdImm c % 16
    let allowed := k.ld = 0 ∧ k.q = 8 ∧ ld ≠ 0
    let cluster (g : Gang) : Nat := (((gangTeams s1 g.r).head?).map Team.core).getD 0 / 8
    (¬allowed → Becomes (exec (if bit1 (cmdFlags c) 0 then .pswapIn k else .pswapOut k) s) fun u =>
      StoppedWith u k 0x0C (commandPtr x x.head.toNat)) ∧
    (allowed → bit1 (cmdFlags c) 0 = false → (∀ g ∈ gangsOn s1 cl, g.r.ld = ld ∧ g.preempt = none ∧
        ∀ t ∈ gangTeams s1 g.r, ∀ q ∈ t.groups, farBusy s1 ⟨t.r, q.id⟩ = false) →
      (∀ i ∈ cl, inPartition s1 i = false ∧ callSaves s1 i = []) → Becomes (exec (.pswapOut k) s) fun u =>
        GoneTo u k (x.head.toNat + 1) x.loops ∧ (∀ i ∈ cl, (i, ld) ∈ u.shadow) ∧
        ∀ g ∈ gangsOn s1 cl, GangIs u g.r fun g' => g'.place = .partition (cluster g)) ∧
    (allowed → bit1 (cmdFlags c) 0 = true → (gangsOn s1 cl ≠ [] → Becomes (exec (.pswapIn k) s) fun u => Holds u k x c) ∧
      (gangsOn s1 cl = [] → (∀ g ∈ s1.gangs, g.ue = false) → s1.sram = [] → Becomes (exec (.pswapIn k) s) fun u =>
        GoneTo u k (x.head.toNat + 1) x.loops ∧ (∀ i ∈ cl, (i, ld) ∉ u.shadow) ∧
        ∀ g ∈ s1.gangs, g.r.ld = ld → ∀ i ∈ cl, (i, ld) ∈ s1.shadow → g.place = .partition i → GangIs u g.r fun g' => g'.place = .resident)))

/-- R412, R415, R416, R49, R92, R153, R172, R436, R32, R34, R37: a grid enters dispatch once its dependences are complete; the turn's
candidate goes on its cores, every group at the kernel's entry; a killed gang is placed again; a slot found empty fails the grid.
Readings of the model that it rests on: log 16, log 43. Staging an entry reads a row into the buffer and sets its full bits; a fault
traps group 0 at the kernel's entry and holds the other groups. -/
def Obligations.DispatchAndStaging : Prop :=
  ((∀ (s : State) (ld id : Nat) (g : Grid), Running s → gridOf s ld id = some g → g.inDispatch = false → g.fail = none →
      ((readDeps s g).1 matches .met → Becomes (exec (.gridDependencesMet ld id) s) fun u =>
        GridIs u ld id fun y => y.inDispatch = true ∧ y.fail = none) ∧
      ((readDeps s g).1 matches .pending → Becomes (exec (.gridDependencesMet ld id) s) fun u =>
        GridIs u ld id fun y => y.inDispatch = false ∧ y.fail = none) ∧
      (∀ k cause detail p, (readDeps s g).1 = .failed k cause detail p → Becomes (exec (.gridDependencesMet ld id) s) fun u =>
        GridIs u ld id fun y => y.fail = some (0x06, cause, detail, k, 0, p)) ∧
      (g.ndep = 0 → Becomes (exec (.gridDependencesMet ld id) s) fun u => GridIs u ld id fun y => y.inDispatch = true) ∧
      (g.ndep = 1 → ∀ st ids s1, depStatus s g 0 = .ok ((st, ids), s1) → Becomes (exec (.gridDependencesMet ld id) s) fun u =>
        GridIs u ld id fun y => (st = 0 → y.inDispatch = false ∧ y.fail = none) ∧ (st = 1 → y.inDispatch = true ∧ y.fail = none) ∧
          (1 < st → y.fail = some (0x06, 0, 0, 0, 0, 0)))) ∧
    (∀ (s : State) (c : Cand), Running s → gridOf s c.k.ld c.k.grid = some c.gr → c.gr.fail = none →
      nextTurn (noteUnfit s) = some (c, none) →
      Becomes (exec .dispatchPlace s) fun u => GridFails u c.k.ld c.k.grid 0x07 cNOTMAPPED 0 0 0) ∧
    (∀ (s : State) (c : Cand) (cores : List Nat) (i : Instr) (n : Nat), Running s → gridOf s c.k.ld c.k.grid = some c.gr → c.gr.regions = [] →
      let ref (m : Nat) : TeamRef := ⟨c.k.ld, c.k.grid, c.k.gang * c.gr.gangN + m⟩
      (∀ m < c.gr.gangN, teamOf s (ref m) = none) →
      (i = .dispatchPlace ∧ nextTurn (noteUnfit s) = some (c, some cores) ∧ c.back = none ∧ gangOf s c.k = none ∧ n = 0) ∨
        (∃ g, i = .gangRelaunch c.k ∧ nextTurn s = some (c, some cores) ∧ c.back = some g ∧ g.r = c.k ∧ g.place = .relaunch ∧
          gangOf s c.k = some g ∧ n = g.relaunches) →
      Becomes (exec i s) fun u => GangIs u c.k (fun g => g.place = .resident ∧ g.relaunches = n) ∧
        GridIs u c.k.ld c.k.grid (fun y => y.next = c.gr.next + (if i = .dispatchPlace then c.gr.gangN else 0) ∧ y.finished = c.gr.finished) ∧
        ∀ m < c.gr.gangN, TeamIs u (ref m) fun t => t.stage = .placed ∧ t.member = m ∧ some t.core = cores[m]? ∧ t.w = [] ∧ t.a = [] ∧ t.c = [] ∧
          t.wlen = 4096 * c.gr.wu ∧ t.alen = 4096 * c.gr.au ∧ t.clen = 4096 * c.gr.cu ∧ t.groups.length = c.gr.cgrp + 1 ∧
          ∀ g ∈ t.groups, g.v = [] ∧ g.frontier = [⟨c.gr.entry, 128, BitVec.allOnes 32, 0, .ready⟩] ∧ g.rung = none ∧
            ∀ j < c.gr.argv.length, j < 127 → getG g (j + 1) = c.gr.argv.getD j 0) ∧
    (∀ (s : State) (r : TeamRef) (t : Team), Running s → teamOf s r = some t → t.stage = .placed → gangHere s t = true →
      Becomes (exec (.teamStart r) s) fun u => BytesKept s u ∧ TeamIs u r fun v => v.stage = .running)) ∧
  (∀ (s : State) (gr : Grid) (r : TeamRef) (t : Team) (x : Nat), teamOf s r = some t → gr.regions = [x] → s.sram = [] → s.ecc = [] → regDir x ≠ 2 →
      regE x 1 = 1 → regE x 2 = 1 → regE x 3 = 1 → 0 < regE x 0 * regZ x →
      let n := regE x 0 * regZ x
      let p := ptrAdd (regBase x) (r.team * regTstride x : Nat)
      ptrVa p % 32 + n ≤ 32 →
      (∀ pa, teamPlace s t p n .read = .ok pa → isHbm pa = true →
        bufGet (stageTeam s gr r) r (regBuffer x) (regOff x) n = peek s pa n ∧
        ∀ i, regOff x / 16 ≤ i → i < (regOff x + regArea x) / 16 → regOff x % 16 = 0 → fullBit (stageTeam s gr r) r (regBuffer x) i = true) ∧
      (∀ e g, teamPlace s t p n .read = .error e → groupOf s ⟨r, 0⟩ = some g → g.handler = none → g.pendTrap = none → awaitsFar g = false →
        qbWord s r.ld 0x260 ≠ 0 → ∃ u h, teamOf (stageTeam s gr r) r = some u ∧
          (groupIn u 0).bind Group.handler = some h ∧ h.trap.cause = e.cause ∧ h.trap.detail = e.detail ∧ h.trap.addr = e.ptr ∧
          h.trap.staging = true ∧ h.trap.pc = gr.entry ∧ h.trap.mask = BitVec.allOnes 32 ∧ ∀ q ∈ u.groups, q.id ≠ 0 → q.held = true))

/-- R35 to R37, R84, R172, R372, R409, R410, R427, R432: a team exits, is written back where its granules are full, and is released; a
grid's completion record is written; a deadlocked gang traps; a running grid is ended from outside. Readings of the model that it rests
on: log 20, log 51. -/
def Obligations.TeamsAndGridsEnd : Prop :=
  (∀ (s : State) (r : TeamRef) (t : Team), Running s → teamOf s r = some t → t.stage = .running → gangHere s t = true →
    (∀ g ∈ t.groups, g.ended = true ∧ g.rung = none) → (∀ w ∈ t.lads, w.closed = true ∧ w.held = [] ∧ w.done = []) →
    (t.lads = [] ∨ anyItem s (gangKey s r) (fun _ => true) = false) → teamWrites s t = false → teamSpills t = false →
    Becomes (exec (.teamExit r) s) fun u => BytesKept s u ∧ TeamIs u r fun v => v.stage = .exited) ∧
  (∀ (s : State) (r : TeamRef) (t : Team) (gr : Grid) (k : Gang), Running s → teamOf s r = some t → gridOf s r.ld r.grid = some gr →
    gangHere s t = true → gangOf s (gangKey s r) = some k → (∀ v ∈ gangTeams s (gangKey s r), v.stage = .exited ∧ forkReady s v.exits = true) →
    t.wbFault = none → k.fault = none →
    (gr.regions = [] → Becomes (exec (.writeback r) s) fun u => teamOf u r = none ∧
      (GridIs u r.ld r.grid fun y => y.finished = gr.finished + 1 ∧ y.bflags = gr.bflags ||| t.bflags) ∧
      ((∀ v ∈ gangTeams s (gangKey s r), v.r = r) → gangOf u (gangKey s r) = none)) ∧
    ∀ x, gr.regions = [x] → regDir x ≠ 1 → regTag x = 0 → regE x 1 = 1 → regE x 2 = 1 → regE x 3 = 1 → 0 < regE x 0 * regZ x →
      regE x 0 * regZ x ≤ 16 →
      let n := regE x 0 * regZ x
      let p := ptrAdd (regBase x) (r.team * regTstride x : Nat)
      (fullBit s r (regBuffer x) (regOff x / 16) = true → ∀ pa, teamPlace s t p n .write = .ok pa → pa % 32 + n ≤ 32 → isHbm pa = true →
        s.ecc = [] → s.sram = [] → (pa / 32 < pkgReg s 0x403 / 32 ∨ (pkgReg s 0x403 + 2 ^ 29 + 31) / 32 ≤ pa / 32) →
        Becomes (exec (.writeback r) s) fun u => peek u pa n = bufGet s r (regBuffer x) (regOff x) n ∧ teamOf u r = none)) ∧
  (∀ (s : State) (ld id : Nat) (g : Grid), Running s → HasDev s ld → gridOf s ld id = some g → g.queue < 9 → gridEnded g = true →
    gridBusy s g = false →
    let y := g.fail.getD (0x01, 0, 0, 0, 0, 0)
    (∀ pa, g.done.toNat % 32 = 0 → s.sram = [] → cpPlace s ld g.slot g.done 32 .write = .ok pa → isHbm pa = true →
      Becomes (exec (.gridComplete ld id) s) fun u => gridOf u ld id = none ∧
        (queueOf u ld g.queue).live = (queueOf s ld g.queue).live.filter (fun i => i != id) ∧ peek u pa 1 = y.1 % 256 ∧
        peek u (pa + 1) 1 = y.2.1 % 256 ∧ peek u (pa + 2) 1 = y.2.2.1 % 256 ∧ peek u (pa + 3) 1 = g.relaunch % 256 ∧
        peek u (pa + 4) 2 = y.2.2.2.1 % 2 ^ 16 ∧ peek u (pa + 6) 2 = g.bflags.toNat ∧ peek u (pa + 8) 8 = id % 2 ^ 64 ∧
        peek u (pa + 16) 4 = y.2.2.2.2.1 % 2 ^ 32 ∧ peek u (pa + 20) 4 = 0 ∧ peek u (pa + 24) 8 = y.2.2.2.2.2.toNat) ∧
    (g.done.toNat % 32 ≠ 0 → Becomes (exec (.gridComplete ld id) s) fun u => gridOf u ld id = none ∧
      (queueOf u ld g.queue).live = (queueOf s ld g.queue).live.filter (fun i => i != id) ∧ StoppedWith u ⟨ld, g.queue⟩ 0x0F g.cmdPtr)) ∧
  (∀ (s : State) (k : GangRef) (g : Gang) (first : Nat), gangOf s k = some g → g.place = .resident → s.power.halted = false →
    (((gangTeams s k).flatMap fun t => t.groups.flatMap fun x => x.frontier.filterMap fun e => match e.st with
      | .waiting w since => if (feDetail w).isSome then some since else none
      | _ => none).min?) = some first →
    (deadlocked { s with cycle := max s.cycle (first + 65536) } g = false →
      Becomes (exec (.deadlockTest k) s) fun u => u.cycle = max s.cycle (first + 65536) ∧ BytesKept s u) ∧
    (deadlocked { s with cycle := max s.cycle (first + 65536) } g = true → ((gangTeams s k).map Team.r).Nodup → qbWord s k.ld 0x260 ≠ 0 →
      (∀ t ∈ gangTeams s k, (t.groups.map Group.id).Nodup ∧ ∀ q ∈ t.groups, q.handler = none ∧ q.pendTrap = none ∧ awaitsFar q = false) →
      Becomes (exec (.deadlockTest k) s) fun u => ∀ t ∈ gangTeams s k, ∀ q ∈ t.groups, q.ended = false → ∀ e, topEntry q.frontier = some e →
        ∃ q' h, groupOf u ⟨t.r, q.id⟩ = some q' ∧ q'.handler = some h ∧ h.trap.cause = cFEPROTO ∧ h.trap.detail = e.feDetail.getD 0 ∧
          h.trap.pc = e.pc)) ∧
  (∀ (s : State) (ld : Nat) (id : DWord) (g : Grid), Running s → ld < 16 →
    (gridOf s ld id.toNat = some g → g.fail = none →
      Becomes (exec (.endgrid ld id) s) fun u => GridFails u ld id.toNat 0x0A 0 0 0 0) ∧
    (gridOf s ld id.toNat = none → exec (.endgrid ld id) s = .next s))

/-- R88, R197, R199, R319, R417 to R420: a candidate that has fitted nowhere starts a pre-emption of the lowest-priority gang that lets
it fit; groups save at safe points or when PREWIN expires; the gang leaves for the save pool or is tried again after 100 µs; it returns
with what its live sets name. Readings of the model that it rests on: log 13, log 34, log 35, log 58. -/
def Obligations.Preemption : Prop :=
  (∀ (s : State) (ld : Nat) (c : Cand) (y : Nat × Nat × Nat × Nat) (g : Gang), Running s →
    let s0 := noteUnfit s
    candidate s0 ld = some c → (s0.unfit.find? fun y => y.1 == ld) = some y → fitsWhere s0 c.gr c.only (removing s0) = none →
    victim s0 c = some g → gangOf s g.r = some g →
    g.r.ld = c.k.ld ∧ g.place = .resident ∧ (gangRank s g).1 < c.gr.prio ∧
    (∀ h ∈ s.gangs, h.r.ld = c.k.ld → h.place = .resident → h.preempt = none → (gangRank s h).1 < c.gr.prio →
      (fitsWhere s0 c.gr c.only fun k => k == h.r || removing s0 k).isSome → (gangRank s g).1 ≤ (gangRank s h).1) ∧
    (g.retry = 0 → gangStopped s g.r = false → Becomes (exec (.preemptTrigger ld) s) fun u =>
      GangIs u g.r (fun g' => g'.place = .resident ∧
        g'.preempt = some (max s.cycle (y.2.2.2 + 300000) + 3000 * (qbWord s g.r.ld 0x250).toNat)) ∧
      ∀ t ∈ gangTeams u g.r, ∀ q ∈ t.groups, q.toSafe = true)) ∧
  (∀ (s : State) (r : GroupRef) (gr : Grid) (g : Group) (k : Gang) (d : Nat) (l : List Nat), Running s →
    gridOf s r.team.ld r.team.grid = some gr → groupOf s r = some g → gangOf s (gangKey s r.team) = some k → k.preempt = some d →
    g.toSafe = true → stopped g = false → farBusy s r = false → safePoints gr g = some l →
    let key := gangKey s r.team
    let rest (p : Bool) : Prop := (gangTeams s key).all (fun t => t.groups.all fun q => (t.r == r.team && q.id == r.g) ||
      (stopped q && !farBusy s ⟨t.r, q.id⟩)) = p
    (rest false → Becomes (exec (.preemptSafeSave r) s) fun u => ∃ g', groupOf u r = some g' ∧ g'.saved = true ∧
      (∀ i, bit1 g'.live i = l.any fun b => bit1 b i) ∧ g'.v = g.v ∧ g'.frontier = g.frontier) ∧
    (rest true → poolRoom s key = true → Becomes (exec (.preemptSafeSave r) s) fun u => GangIs u key fun k' =>
      k'.place = .preempted ∧ k'.preempt = none) ∧
    (rest true → poolRoom s key = false → Becomes (exec (.preemptSafeSave r) s) fun u => GangIs u key fun k' =>
      k'.place = k.place ∧ k'.preempt = none ∧ k'.retry = lastDue g s.cycle + 300000)) ∧
  (∀ (s : State) (k : GangRef) (g : Gang) (d : Nat), Running s → gangOf s k = some g → g.preempt = some d →
    (∀ t ∈ gangTeams s k, ∀ q ∈ t.groups, farBusy s ⟨t.r, q.id⟩ = false) →
    (poolRoom s k = true → Becomes (exec (.prewinExpire k) s) fun u => d ≤ u.cycle ∧ GangIs u k fun g' => g'.place = .preempted ∧
      g'.preempt = none) ∧
    (poolRoom s k = false → Becomes (exec (.prewinExpire k) s) fun u => GangIs u k fun g' => g'.place = g.place ∧ g'.preempt = none ∧
      g'.retry = max s.cycle d + 300000)) ∧
  (∀ (s : State) (k : GangRef) (g : Gang), Running s → gangOf s k = some g → g.retry ≠ 0 → g.place = .resident → g.preempt = none →
    gangStopped s k = false → Becomes (exec (.preemptRetry k) s) fun u => GangIs u k fun g' => g'.retry = 0 ∧
      g'.preempt = some (max s.cycle g.retry + 3000 * (qbWord s k.ld 0x250).toNat)) ∧
  (∀ (s : State) (k : GangRef) (g : Gang) (gr : Grid) (cores : List Nat), Running s → gangOf s k = some g → g.place = .preempted → g.ue = false →
    ((gangTeams s k).map Team.r).Nodup → turnOf s k (fun w => w == .preempted) = some (gr, cores) →
    Becomes (exec (.preemptReturn k) s) fun u => GangIs u k (fun g' => g'.place = .resident ∧ g'.preempt = none) ∧
      ∀ t ∈ gangTeams s k, TeamIs u t.r fun t' => t'.core = cores.getD t.member 0 ∧ ∀ q ∈ t.groups, ∃ q' ∈ t'.groups, q'.id = q.id ∧
        q'.saved = false ∧ q'.toSafe = false ∧ ∀ n l, l < 32 →
          let octet := q.octets.any fun o => decide (o.x ≤ n ∧ n < o.x + 8)
          getV q' n l = if (if octet then teamLive t 163 else q.full || bit1 q.live (256 + n)) = true then getV q n l else 0)

/-- R11, R12, R24, R440, R441, R460, R461, R438, R439, R457, R459: power, temperature and package reset: what is left running, what the
stores hold, when the package halts and when a reset goes on. Readings of the model that it rests on: log 21. An expander link that goes
down is marked, logged and raised; management code retrains it; network ports come and go. R462: a record of the event log. -/
def Obligations.PowerLinksAndLog : Prop :=
  (let booted (s u : State) : Prop := u.power.on = true ∧ u.power.halted = false ∧ u.power.resetWait = false ∧ u.teams = [] ∧ u.grids = [] ∧
      u.preg = State.reset.preg ∧ u.lds = State.reset.lds ∧ u.mem = s.mem ∧ (∀ line < 2 ^ 32, isPend u line = true) ∧ u.issuing = none
    let stopped (u : State) : Prop := u.power.halted = true ∧ u.power.resetWait = true ∧ u.teams = [] ∧ u.grids = [] ∧ u.gangs = [] ∧
      u.far = [] ∧ u.reqs = [] ∧ u.memOps = [] ∧ u.issuing = none
    (∀ s : State, s.power.on = false → Becomes (exec .powerOn s) fun u => u.power.on = true ∧ u.power.halted = false ∧ u.teams = [] ∧
      u.grids = [] ∧ u.preg = State.reset.preg ∧ u.lds = State.reset.lds ∧
      ∀ a, stGet u.mem a = if isHbm a = true then 0 else stGet s.mem a) ∧
    (∀ s : State, s.power.on = true → Becomes (exec .powerDown s) fun u => u.power.on = false ∧ u.teams = [] ∧ u.grids = [] ∧
      ∀ a, stGet u.mem a = if isHbm a = true then 0 else stGet s.mem a) ∧
    (∀ (s : State) (i : Instr), i = .cxlConventionalReset ∨ i = .pkgrst 0x52535445 → s.power.on = true →
      (s.power.hotDies = [] → Becomes (exec i s) (booted s)) ∧
      (s.power.hotDies ≠ [] → Becomes (exec i s) fun u => stopped u ∧ u.power.hotDies = s.power.hotDies)) ∧
    (∀ (s : State) (v : DWord), v ≠ 0x52535445 → exec (.pkgrst v) s = .next s) ∧
    (∀ (s : State) (die : Nat), s.power.on = true →
      (s.power.resetWait = true → (∀ d ∈ s.power.hotDies, d = die) → Becomes (exec (.dieCooled die) s) (booted s)) ∧
      (s.power.resetWait = false ∨ (∃ d ∈ s.power.hotDies, d ≠ die) → Becomes (exec (.dieCooled die) s) fun u =>
        u.power = { s.power with hotDies := s.power.hotDies.filter fun d => d != die } ∧ u.teams = s.teams)) ∧
    (∀ (s : State) (die : Nat), s.power.on = true → s.power.halted = false → die < 4 →
      (die ∉ s.power.hotDies → Becomes (exec (.thermalIssueLimit die) s) fun u => die ∈ u.power.hotDies ∧ u.power.halted = false ∧
        u.teams = s.teams ∧ (0, 3) ∈ u.msix) ∧
      Becomes (exec (.thermalHalt die) s) fun u => u.power.halted = true ∧ die ∈ u.power.hotDies ∧ (0, 3) ∈ u.msix ∧ u.issuing = none) ∧
    (∀ s : State, Running s → (exec .powerLimitExceeded s = .next { s with power := { s.power with limited := true } }) ∧
      exec .powerDrawWithinLimit s = .next { s with power := { s.power with limited := false } }) ∧
    ∀ (s : State) (core q : Nat), s.power.halted = true → exec (.issue core q) s = .next { s with cycle := s.cycle + 1 }) ∧
  ((∀ (s : State) (port : Nat), Running s → port < 4 →
      (pkgReg s (0x820 + port) % 2 = 1 → Becomes (exec (.expanderLinkDown port) s) fun u => pkgReg u (0x820 + port) = 0) ∧
      (pkgReg s (0x820 + port) % 2 = 0 → exec (.expanderLinkDown port) s = .next s) ∧
      (pkgReg s (0x820 + port) = 0 → Becomes (exec (.explink port 1) s) fun u => port ∈ u.retrain ∧ pkgReg u (0x820 + port) = 0) ∧
      (pkgReg s (0x820 + port) ≠ 0 → exec (.explink port 1) s = .next s) ∧ exec (.explink port 0) s = .next s ∧
      (port ∈ s.retrain → Becomes (exec (.expanderLinkTrained port) s) fun u => pkgReg u (0x820 + port) = 1 ∧ port ∉ u.retrain ∧
        u.teams = s.teams) ∧
      (port ∉ s.retrain → exec (.expanderLinkTrained port) s = .next s)) ∧
    (∀ (s : State) (port : Nat) (up : Bool), s.power.on = true →
      (port < 2 → Becomes (exec (.networkPortLinkChange true port up) s) fun u => (port ∈ u.ethUp ↔ up = true) ∧
        (∀ p, p ≠ port → (p ∈ u.ethUp ↔ p ∈ s.ethUp)) ∧ u.straitUp = s.straitUp) ∧
      (port < 36 → Becomes (exec (.networkPortLinkChange false port up) s) fun u => (port ∈ u.straitUp ↔ up = true) ∧
        (∀ p, p ≠ port → (p ∈ u.straitUp ↔ p ∈ s.straitUp)) ∧ u.ethUp = s.ethUp)) ∧
    ∀ (s : State) (kind cause detail ld addr aux : Nat),
      let u := logEvent s kind cause detail ld addr aux
      let prod := pkgReg s 0x81A
      let at' := pkgReg s 0x818 + 32 * (prod % pkgReg s 0x819)
      ((prod + 2 ^ 64 - pkgReg s 0x81B) % 2 ^ 32 < pkgReg s 0x819 → kind < 2 ^ 8 → cause < 2 ^ 8 → ld < 16 →
        peek u at' 1 = kind ∧ peek u (at' + 1) 1 = cause ∧ peek u (at' + 2) 1 = detail % 256 ∧ peek u (at' + 3) 1 = 16 * ld ∧
        peek u (at' + 4) 4 = 0 ∧ peek u (at' + 8) 8 = addr % 2 ^ 64 ∧ peek u (at' + 16) 8 = aux % 2 ^ 64 ∧
        peek u (at' + 24) 8 = s.cycle % 2 ^ 64 ∧ pkgReg u 0x81A = (prod + 1) % 2 ^ 32 ∧ (0, 2) ∈ u.msix) ∧
      (¬(prod + 2 ^ 64 - pkgReg s 0x81B) % 2 ^ 32 < pkgReg s 0x819 →
        pkgReg u 0x81C = (pkgReg s 0x81C + 1) % 2 ^ 64 ∧ pkgReg u 0x81A = prod ∧ u.mem = s.mem))

/-- R24, R145, R146, R449, R61 to R63, R97, R103 to R106: a host reads and writes through its HDM window, with data poisoned and writes
discarded where the page cannot be accessed; a hart loads, stores, makes atomic accesses, loads reserved and stores conditionally.
Readings of the model that it rests on: log 37, log 40. A hotness interval's end; the patrol and the hot-list scrub correct sectors and
move scores; an open row closes. Readings of the model that it rests on: log 41. -/
def Obligations.HostHartsControllers : Prop :=
  ((∀ (s : State) (ld off size : Nat), Running s → ld < 16 → 0 < size → off % 64 + size ≤ 64 → off + size ≤ 2 ^ 21 * ldReg s ld 0x401 →
      (ldOf s ld).resetting = false → s.ecc = [] → s.sram = [] →
      let root := (ldOf s ld).slots.getD 63 emptyRoot
      let refused (k : Acc) : Prop := root.full = false ∨ ∃ e, translate s ld root.key true off k = .error e
      (refused .read → Becomes (exec (.hostHdmRead ld off size) s) fun u => u.hdmRead = some (ld, none)) ∧
      (∀ pa e, root.full = true → translate s ld root.key true off .read = .ok (pa, e) →
        (linkDown s pa = true → Becomes (exec (.hostHdmRead ld off size) s) fun u => u.hdmRead = some (ld, none) ∧ u.mem = s.mem) ∧
        (linkDown s pa = false → Becomes (exec (.hostHdmRead ld off size) s) fun u =>
          u.hdmRead = some (ld, some (peekBytes s pa size)) ∧ u.mem = s.mem)) ∧
      ∀ bs : List Byte, bs.length = size →
        (refused .write → pkgReg s 0x819 = 0 → Becomes (exec (.hostHdmWrite ld off bs) s) fun u => u.mem = s.mem) ∧
        (∀ pa e, root.full = true → translate s ld root.key true off .write = .ok (pa, e) →
          (linkDown s pa = true → Becomes (exec (.hostHdmWrite ld off bs) s) fun u => u.mem = s.mem) ∧
          (linkDown s pa = false → Becomes (exec (.hostHdmWrite ld off bs) s) fun u => peekBytes u pa size = bs ∧
            ∀ a, a < pa ∨ pa + size ≤ a → peekBytes u a 1 = peekBytes s a 1))) ∧
    (∀ (s : State) (h pa size : Nat) (v : DWord), Running s → h < s.harts.length → size ∈ [1, 2, 4, 8] → pa % size = 0 → pa < 2 ^ 52 →
      areaOf pa ≠ .reserved → areaOf pa ≠ .regs → linkDown s pa = false → CleanAt s pa size → s.sram = [] →
      let rd (u : State) : Nat := (u.harts.getD h default).rd.toNat
      let resv (u : State) := (u.harts.getD h default).resv
      let put (u : State) (x : Nat) : Prop := peek u pa size = x % 2 ^ (8 * size) ∧
        ∀ a, a < pa ∨ pa + size ≤ a → CleanAt s a 1 → peekBytes u a 1 = peekBytes s a 1
      (∀ pr pw sr sw, Becomes (exec (.nimbusHartAccess h (.fence pr pw sr sw)) s) fun u => BytesKept s u ∧ rd u = rd s) ∧
      Becomes (exec (.nimbusHartAccess h (.load pa size)) s) (fun u => rd u = peek s pa size ∧ u.mem = s.mem) ∧
      Becomes (exec (.nimbusHartAccess h (.store pa size v)) s) (fun u => put u v.toNat) ∧
      (4 ≤ size → ∀ aq rl, (∀ o, Becomes (exec (.nimbusHartAccess h (.amo o pa size v aq rl)) s) fun u => rd u = peek s pa size ∧
          put u (amoVal o (8 * size) (peek s pa size) (v.toNat % 2 ^ (8 * size)))) ∧
        Becomes (exec (.nimbusHartAccess h (.lr pa size)) s) (fun u => rd u = peek s pa size ∧ u.mem = s.mem ∧
          resv u = some (pa, size, bytesOf (peek s pa size) size)) ∧
        Becomes (exec (.nimbusHartAccess h (.sc pa size v aq rl)) s) fun u => resv u = none ∧
          ((rd u = 1 ∧ u.mem = s.mem) ∨ (rd u = 0 ∧ put u v.toNat ∧ resv s = some (pa, size, bytesOf (peek s pa size) size)))))) ∧
  ((∀ l : List (Nat × Nat), (hotSort l).Perm l ∧ (hotSort l).Pairwise fun a b => b.2 < a.2 ∨ (a.2 = b.2 ∧ a.1 ≤ b.1)) ∧
    (∀ (s : State) (stack : Nat), Running s → stack < 8 → s.hot.length = 8 →
      let h := s.hot.getD stack ⟨[], [], 0⟩
      let size := pkgReg s 0x814
      let prod := pkgReg s 0x815
      let room := (prod + 2 ^ 64 - pkgReg s 0x816) % 2 ^ 32 + 32 ≤ size
      (room → s.ecc = [] → s.sram = [] → pow2In size 256 (2 ^ 20) = true → Becomes (exec (.hotnessIntervalEnd stack) s) fun u =>
        pkgReg u 0x815 = (prod + 32) % 2 ^ 32 ∧ u.hot.getD stack ⟨[], [], 0⟩ = ⟨[], [], h.ivl + 1⟩ ∧
        ∀ i < 32, ∀ e, (hotSort h.list)[i]? = some e → peek u (pkgReg s 0x813 + 8 * ((prod + i) % 2 ^ 32 % size)) 8 =
          h.ivl % 256 * 2 ^ 56 + stack * 2 ^ 52 + e.1 % 2 ^ 36 * 2 ^ 16 + e.2 % 2 ^ 16) ∧
      (¬room → Becomes (exec (.hotnessIntervalEnd stack) s) fun u => u.mem = s.mem ∧ pkgReg u 0x815 = prod ∧
        pkgReg u 0x817 = (pkgReg s 0x817 + 1) % 2 ^ 64 ∧ u.hot.getD stack ⟨[], [], 0⟩ = ⟨[], [], h.ivl + 1⟩)) ∧
    (∀ (s : State) (stack pc : Nat), Running s → stack < 8 → pc < 64 → s.sram = [] → pkgReg s 0x819 = 0 →
      let k := 64 * stack + pc
      let p := (scrubOf s k).pos
      let bank := p / 64 % 32
      let row := p / 2048
      let sec := dramAddr s stack pc row bank (32 * (p % 64)) / 32
      Becomes (exec (.patrolScrub stack pc) s) fun u => (scrubOf u k).pos = (p + 1) % 2 ^ 25 ∧ (∀ b, secDecode u sec ≠ .corrected b) ∧
        (∀ b, secDecode s sec = .corrected b → secDecode u sec = .good b) ∧
        (∀ b, secDecode s sec = .good b → u.mem = s.mem ∧ scoreOf (scrubOf u k) row bank =
          if p % 64 = 63 then (if scoreOf (scrubOf s k) row bank = 255 then 255 else scoreOf (scrubOf s k) row bank / 2)
          else scoreOf (scrubOf s k) row bank)) ∧
    (∀ (s : State) (stack pc : Nat), Running s → stack < 8 → pc < 64 → s.sram = [] → pkgReg s 0x819 = 0 →
      Becomes (exec (.hotListScrub stack pc) s) fun u => ∀ h ∈ (scrubOf s (64 * stack + pc)).hot, ∀ i < 64, ∀ b,
        secDecode u (dramAddr s stack pc h.1 h.2 (32 * i) / 32) ≠ .corrected b) ∧
    (∀ (s : State) (stack pc bank : Nat) (i : Instr), i = .rowCloseTimeout stack pc bank ∨ i = .dramRefresh stack pc bank → Running s → stack < 8 →
      pc < 64 → bank < 32 → Becomes (exec i s) fun u => u.mem = s.mem ∧ (∀ b ∈ u.banks, b.key = (64 * stack + pc) * 32 + bank → b.row = none) ∧
        ∀ b ∈ s.banks, b.key ≠ (64 * stack + pc) * 32 + bank → b ∈ u.banks))

/-- R454, R455, R457: a write of TAIL posts requests; the engine reads a request and refuses or sends it; a transfer's completion
record; retries; packets that arrive. Readings of the model that it rests on: log 6, log 36. -/
def Obligations.NetworkTransfers : Prop :=
  let OpIs (u : State) (id : Nat) (P : NetOp → Prop) : Prop := ∃ o ∈ u.netOps, o.id = id ∧ P o
  (∀ (s : State) (ld pair pa : Nat) (tail : DWord), Running s → ld < 16 → pair < 8 → (ldOf s ld).resetting = false → ld < s.lds.length →
    pair < (ldOf s ld).netPosted.length → pairTail s ld pair = some pa → peek s pa 8 = tail.toNat →
    Becomes (exec (.netTailWrite ld pair tail) s) fun u => (ldOf u ld).netPosted.getD pair 0 = tail.toNat ∧
      ∃ new, u.netOps = s.netOps ++ new ∧
        new.map NetOp.req = (List.range (tail.toNat - (ldOf s ld).netPosted.getD pair 0)).map ((ldOf s ld).netPosted.getD pair 0 + ·) ∧
        ∀ o ∈ new, o.ld = ld ∧ o.pair = pair ∧ o.raw = none ∧ o.status = none) ∧
  (∀ (s s1 : State) (op : Nat) (bs : List Byte) (o : NetOp) (i : Instr), Running s →
    (s.netOps.find? fun o => o.id == op && o.raw.isNone && o.status.isNone) = some o →
    let slot := pairSlot o.ld o.pair
    cpReadBy (netKnown s o.ld o.pair) s o.ld slot (ptrAdd (pairWord s o.ld o.pair 0) (64 * (o.req % pairSq s o.ld o.pair) : Nat)) 64 =
      .ok (bs, s1) →
    let x := ofBytes bs
    let s2 := modNet (netTables s1 o.ld x) op fun o => { o with raw := some x, due := s.cycle + 3000000 }
    (i = .netWrite op ∧ reqOp x = 1) ∨ (i = .netWriteNotify op ∧ reqOp x = 2) ∨ (i = .netRead op ∧ reqOp x = 3) →
    (∀ st, netRefused s2 o.ld x = some st → Becomes (exec i s) fun u => OpIs u op fun y => y.raw = some x ∧ y.status = some st ∧ y.bytes = 0) ∧
    (netRefused s2 o.ld x = none → reqOp x ≠ 3 → (∃ r, cpReadBy (netKnown s2 o.ld o.pair) s2 o.ld slot (reqLocal x) (reqLen x) = .ok r) →
      Becomes (exec i s) fun u => OpIs u op fun y => y.raw = some x ∧ y.status = none ∧ y.bytes = reqLen x) ∧
    (netRefused s2 o.ld x = none → reqOp x = 3 → Becomes (exec i s) fun u => OpIs u op fun y => y.raw = some x ∧
      (y.status = none ∨ y.status = some 1 ∨ y.status = some 3))) ∧
  (∀ (s : State) (op st x : Nat) (o : NetOp), Running s → (s.netOps.find? fun o => o.id == op) = some o → (ldOf s o.ld).resetting = false →
    o.status = some st → o.raw = some x → st ≠ 2 → st < 256 → o.bytes < 2 ^ 32 →
    let n := (ldOf s o.ld).netDone.getD o.pair 0
    let q := pairCq s o.ld o.pair
    ∀ pa, cpPlace s o.ld (pairSlot o.ld o.pair) (ptrAdd (pairWord s o.ld o.pair 1) (16 * (n % q) : Nat)) 16 .write = .ok pa → isHbm pa = true →
      pa % 32 + 16 ≤ 32 → s.ecc = [] → s.sram = [] → Becomes (exec (.netCompletion op) s) fun u =>
        u.netOps = s.netOps.filter (fun y => y.id != op) ∧ peek u (pa + 8) 8 = reqWrid x ∧ peek u (pa + 4) 4 = o.bytes ∧
        peek u (pa + 3) 1 = st ∧ peek u (pa + 2) 1 = reqOp x ∧ peek u pa 2 = (1 + n / q) % 2) ∧
  (∀ (s : State) (op x : Nat) (o : NetOp), Running s → (s.netOps.find? fun o => o.id == op && o.status.isNone) = some o → o.raw = some x →
    reqEther x = true → s.ecc = [] → s.sram = [] →
    (o.retries < 8 → Becomes (exec (.netRetransmitTimeout op) s) fun u => OpIs u op fun y => y.retries = o.retries + 1 ∧ y.status = none) ∧
    (8 ≤ o.retries → Becomes (exec (.netRetransmitTimeout op) s) fun u => OpIs u op (fun y => y.status = some 4) ∧
      ∀ a, rocePa s o.ld (reqDest x) = some a → bit1 (peek u a 64) 304 = false)) ∧
  (∀ (s : State) (p : Packet) (ld pa : Nat), Running s → packetLd s p = some ld → (ldOf s ld).resetting = false → p.rslot < 64 → p.payload ≠ [] →
    ptrVa p.remote % 32 + p.payload.length ≤ 32 → p.notify = false →
    (cpPlace s ld p.rslot p.remote p.payload.length .write = .ok pa → isHbm pa = true → s.ecc = [] → s.sram = [] →
      Becomes (exec (.netReceive p) s) fun u => peekBytes u pa p.payload.length = p.payload) ∧
    (∀ e, cpPlace s ld p.rslot p.remote p.payload.length .write = .error e → pkgReg s 0x819 = 0 →
      Becomes (exec (.netReceive p) s) fun u => u.mem = s.mem ∧ pkgReg u 0x81C = (pkgReg s 0x81C + 1) % 2 ^ 64))

/-- R152, R154, R183 to R185: an issue quarter takes the least recently issued of its ready groups and that group's highest-ranked ready
entry, or one that has aged; a group whose entry does not meet its last issue waits for its results; parks and delays end. -/
def Obligations.IssueOrder : Prop :=
  (∀ (gr : Grid) (g : Group) (e : Entry), chooseEntry gr g = some e → e ∈ frontOf g ∧ issuable gr g e = true ∧
    ∀ f ∈ frontOf g, issuable gr g f = true → (1024 ≤ f.age → 1024 ≤ e.age) ∧
      ((1024 ≤ f.age ∨ e.age < 1024) → f.prio < e.prio ∨ (f.prio = e.prio ∧ e.pc ≤ f.pc))) ∧
  (∀ (s : State) (core q : Nat) (gr : Grid) (t : Team) (g : Group) (e : Entry), Running s →
    let s1 : State := { s with cycle := s.cycle + 1 }
    leastRecent (quarterGroups s1 core q (s.cycle + 1)) = some (gr, t, g) → chooseEntry gr g = some e →
    (g.id % 4 = q ∧ t.core = core ∧ ∀ y ∈ quarterGroups s1 core q (s.cycle + 1), g.stamp ≤ y.2.2.stamp) ∧
    ((e.mask &&& g.last ≠ 0 ∨ stillOut g.outst (s.cycle + 1) = []) → Becomes (exec (.issue core q) s) fun u =>
      u.issuing = some ⟨⟨t.r, g.id⟩, e.pc, e.prio, e.mask⟩ ∧ u.cycle = s.cycle + 1 ∧ BytesKept s u) ∧
    (e.mask &&& g.last = 0 → stillOut g.outst (s.cycle + 1) ≠ [] → teamOf s t.r = some t → groupIn t g.id = some g →
      Becomes (exec (.issue core q) s) fun u => u.issuing = s.issuing ∧ ∃ g', groupOf u ⟨t.r, g.id⟩ = some g' ∧ g'.swPark = true)) ∧
  (∀ (s : State) (r : GroupRef) (g : Group), wakeable s r = some g → g.swPark = true → awaitsFar g = false →
    Becomes (exec (.switchMarkerUnpark r) s) fun u => BytesKept s u ∧ ∃ g', groupOf u r = some g' ∧ g'.swPark = false ∧ g'.outst = [] ∧
      g'.v = g.v ∧ g'.frontier = g.frontier ∧ ∀ o ∈ g.outst, ∀ n, o.due = .cycle n → n ≤ u.cycle) ∧
  (∀ (s : State) (r : GroupRef) (g : Group), wakeable s r = some g →
    exec (.issueDelayExpire r) s = .next { s with cycle := max s.cycle (g.delay - 1) })

/-- R12, R92, R107, R397, R402, R403, R427, R440: the package after power-on reset, where the specification gives a value; every root
slot is empty, no grid, gang or team is there, no queue is enabled, and memory has its canonical form. -/
def Obligations.ResetState : Prop :=
  let s := State.reset
  Safe s ∧ s.grids = [] ∧ s.gangs = [] ∧ s.teams = [] ∧ s.power.on = true ∧ s.power.halted = false ∧
  (∀ k < 8, pkgReg s (0x800 + k) = 2 ^ 36) ∧ pkgReg s 0x810 = 4 ∧ pkgReg s 0x811 = 4500 ∧
  ∀ ld < 16, HasDev s ld ∧ ldReg s ld 0x400 = 100 ∧ qbWord s ld 0x250 = 50 ∧ qbWord s ld 0x260 = 0 ∧ qbWord s ld 0x268 = 0 ∧
    qbWord s ld 0x258 = 0 ∧ qbWord s ld 0x270 = 0 ∧ (ldOf s ld).pubNext = 1 ∧ (∀ k < 64, ((ldOf s ld).slots.getD k default).full = false) ∧
    ∀ q < 9, (queueOf s ld q).en = false ∧ (queueOf s ld q).head = 0 ∧ (queueOf s ld q).tail = 0

/-- R431: where TRAPPC is zero when a cause is taken, at once, after the far results it waited for, or for a parked entry, the grid
fails with status 0x08, the cause, the low eight bits of the detail, the team and the trapping PC. -/
def Obligations.NoHandler : Prop :=
  ∀ (s : State) (r : GroupRef) (t : Team) (g : Group) (gr : Grid) (x : Trap), teamOf s r.team = some t → groupOf s r = some g →
    gridOf s r.team.ld r.team.grid = some gr → gr.fail = none → g.handler = none → awaitsFar g = false → qbWord s r.team.ld 0x260 = 0 →
    let fails (u : State) : Prop := GridFails u r.team.ld r.team.grid 0x08 x.cause (x.detail % 256) r.team.team x.pc
    (g.pendTrap = none → fails (raiseTrap s r x)) ∧ (g.pendTrap = some x → fails (takePending s r)) ∧
    (g.pendTrap = none → (topEntry (g.frontier.filter fun e => (parkTrap e).isSome)).bind parkTrap = some x → fails (raiseParked s r))

/-- R146, R148, R154, R180, R202, R205, R208, R302, R425: a step at which an entry issues fetches the twelve bytes at its PC; the
instruction they decode to runs in the machine after the fetch, once what it follows has come about and the octets that it touches are
closed, or the entry takes the trap its fetch, its word or its registers call for. Elsewhere the step is the first step asked for.
Readings of the model that it rests on: log 3, log 7, log 14, log 75. -/
def Obligations.StepRunsDecoded : Prop :=
  (∀ (s : State) (u : Issuing) (t : Team) (g : Group), s.issuing = some u → teamOf s u.r.team = some t → groupOf s u.r = some g →
    g.emptySlot = false →
    let traps (s1 : State) (cause detail : Nat) (a : DWord) (coll : Bool) : Prop := step s = .next (takeTrap s1 u ⟨cause, detail, none, a, 0, coll⟩)
    let killed (s1 : State) (cause pa : Nat) : Prop := step s = .next (killTeam { s1 with issuing := none } u.r.team cause pa)
    (u.pc.extractLsb' 0 2 ≠ 0 → traps s cILLOP 3 0 false) ∧
    (u.pc.extractLsb' 0 2 = 0 →
      let s0 := fetchWalks s t g u.pc
      (∀ cause d, fetchBytes s0 t g u.pc = .fault cause d → traps s0 cause d u.pc false) ∧
      (∀ s1 cause pa, fetchBytes s0 t g u.pc = .kill s1 cause pa → killed s1 cause pa) ∧
      ∀ bs s1, fetchBytes s0 t g u.pc = .bytes bs s1 →
        let w := wordOfBytes bs
        (∀ d, wordMisuse w = some d → traps s1 cILLOP d 0 false) ∧
        (wordMisuse w = none → ∀ e, decodeAt (levelFor s1 t.r g) w = .error e →
          traps s1 (rejectTrap e).1 (rejectTrap e).2 0 (collWord w)) ∧
        ∀ i, wordMisuse w = none → decodeAt (levelFor s1 t.r g) w = .ok i →
          (∀ f, budgetErr g.budget i = some f → traps s1 cREGBUDGET f 0 (isCollective i)) ∧
          (budgetErr g.budget i = none → ∀ f, runHaz (stillOut g.outst s1.cycle) i = some f → traps s1 cRUNHAZ f 0 (isCollective i)) ∧
          (budgetErr g.budget i = none → runHaz (stillOut g.outst s1.cycle) i = none →
            let act := activeMask g (hdrOf i) u.mask
            (touchRegs s1 t g i act = none → killed s1 cUECONS 0) ∧
            (s1.far = [] → s1.sram = [] → g.octets = [] → step s = exec i s1) ∧
            ∀ s2, touchRegs s1 t g i act = some s2 →
              let s3 := forceIssue s2 u i
              (groupOf s3 u.r).isSome = true → step s = afterIssue s3 u i (exec i (closeFor s3 u i))))) ∧
  (∀ (s : State) (t : Team) (g : Group) (pc : Ptr) (gr : Grid) (pa e : Nat), gridOf s t.r.ld t.r.grid = some gr → gr.words = [] →
    ptrVa pc % 2 ^ 16 + 12 ≤ 2 ^ 16 → farCheck s t.r.ld (pinRoot g.pin) t.bounds (levelFor s t.r g == .user) pc 12 .fetch = .ok (pa, e) →
    isHbm pa = true → CleanAt s pa 12 → s.sram = [] → g.ahead = [] →
    ∃ s1, fetchBytes s t g pc = .bytes (peekBytes s pa 12) s1 ∧ BytesKept s s1) ∧
  (∀ (s : State) (i : Instr) (r : List Instr), s.issuing = none → s.agenda = i :: r →
    step s = exec (if isGroupStep i then .issue 0 0 else i) { s with agenda := r }) ∧
  ∀ s : State, s.issuing = none → s.agenda = [] →
    step s = exec (if isGroupStep (Config.nextEvent s.choices) then .issue 0 0 else Config.nextEvent s.choices)
      { s with choices := s.choices + 1 }

/-- R195 to R197, R203, R204: the word the encoder builds for a well-formed instruction decodes to that instruction, with every operand
at every value. -/
def Obligations.EncodeThenDecode : Prop :=
  ∀ i : Instr, WellFormed i = true → ∃ w, encode i = some w ∧ decodeWord w = .ok i

/-- R195 to R197, R205, R208: an instruction that a word decodes to is well formed, and its word is the one decoded: no bit is ignored. -/
def Obligations.DecodeThenEncode : Prop :=
  ∀ (w : InsWord) (i : Instr), decodeWord w = .ok i → WellFormed i = true ∧ encode i = some w

/-- R195, R197, R203: words written out from the encodings decode to the instructions they stand for. -/
def Obligations.DecodeWords : Prop :=
  let h (gp : BitVec 3) (dly : BitVec 4) : Hdr := ⟨false, gp, false, 0, false, dly⟩
  let is (bs : List Byte) (i : Instr) : Prop := decodeBytes bs = some (i, [])
  is [0x00, 0x12, 0x03, 0x04, 0x60, 0x10, 0x00, 0x00, 0x00, 0xC0, 0x40, 0x00] (.iadd ⟨h 3 1, 0, true, .s32, .v 3, .v 1, .g 6⟩) ∧
  is [0x63, 0x02, 0x03, 0x04, 0x00, 0x80, 0x8C, 0x00, 0x00, 0x40, 0x00, 0x00] (.reduce ⟨h 1 0, .add, .s32, .v 3, .v 1, .sp 3 2⟩) ∧
  is [0x90, 0x08, 0x20, 0x20, 0xC0, 0x00, 0x00, 0x00, 0x00, 0xC0, 0x01, 0x00] (.mma ⟨h 7 0, .bf16, false, .v 32, .v 8, .v 12⟩) ∧
  is [0xB8, 0x00, 0x07, 0x11, 0x60, 0x10, 0x00, 0x00, 0x00, 0x80, 0x00, 0x00] (.syscall ⟨h 2 0, .g 7, .v 4, .g 6, 0⟩) ∧
  is [0xA1, 0x00, 0x00, 0x00, 0x14, 0x30, 0x00, 0x00, 0x00, 0xC0, 0x01, 0x00] (.kick ⟨h 7 0, .g 0, .im 1, .off 0⟩) ∧
  is [0xA3, 0x00, 0x00, 0x00, 0x00, 0x30, 0x00, 0x00, 0x00, 0xC0, 0x01, 0x00] (.cwait ⟨h 7 0, .im 0⟩) ∧
  is [0xA7, 0x01, 0x00, 0x00, 0x70, 0x10, 0x00, 0x00, 0x00, 0xC0, 0x01, 0x00] (.awaitSlot ⟨h 7 0, .g 7, 0⟩) ∧
  is [0xA6, 0x00, 0x00, 0x00, 0x30, 0x70, 0x00, 0x00, 0x00, 0xC0, 0x01, 0x00] (.srel ⟨h 7 0, .im 3, 1⟩) ∧
  is [0x30, 0x8B, 0x0A, 0x10, 0x00, 0x00, 0x42, 0x00, 0x00, 0xC0, 0x41, 0x01] (.cvt ⟨h 7 5, true, .rne, .e4m3, .f32, 2, 0, .v 10, .v 4⟩) ∧
  is [0x91, 0x00, 0x20, 0x20, 0xC0, 0xC0, 0x41, 0x00, 0x00, 0xC0, 0x01, 0x00] (.mmam ⟨h 7 0, .f16, false, .v 32, .v 8, .v 12, .g 7⟩)

/-- R84, R96, R100, R101, R441: the operations that change memory keep its canonical form; a write to clean bytes reads back, and every
other clean byte reads as before. -/
def Obligations.MemoryCanonical : Prop :=
  (∀ (s : State) (pa : Nat) (bs : List Byte), Safe s → Safe (writeMem s pa bs) ∧ Safe (hwWrite s pa bs) ∧ Safe (pokeBytes s pa bs)) ∧
  (∀ (s : State) (n : Nat), Safe s → Safe (openLine s n) ∧ Safe (poisonSec s n)) ∧
  ∀ (s : State) (pa : Nat) (bs : List Byte), s.sram = [] → (∀ i < bs.length, isHbm (pa + i) = true) →
    (∀ b, CleanAt s b 1) →
    peekBytes (writeMem s pa bs) pa bs.length = bs ∧
    ∀ b, b < pa ∨ pa + bs.length ≤ b → peekBytes (writeMem s pa bs) b 1 = peekBytes s b 1

/-- The canonical form of memory is an invariant: every step that answers a next state keeps it. -/
def Obligations.StepKeepsSafe : Prop := ∀ s t : State, Safe s → step s = .next t → Safe t

/-- R15, R46, R402: the package keeps its sixteen logical devices, each with its 64 root slots, its 256 retired-root records and its
nine queues: every step that answers a next state keeps them. -/
def Obligations.StepKeepsDevices : Prop :=
  ∀ s t : State, (∀ ld < 16, HasDev s ld) → step s = .next t → ∀ ld < 16, HasDev t ld

/-- R180, R222, R226: an instruction that only computes registers, where it ends without a trap, changes no register but those its
operands name as results: every other vector, uniform, predicate, modulo and bound register, the partitions, octets, stack and frames,
every byte of memory and of the buffers, every full/empty bit and every other group is as before. -/
def Obligations.RegOnlyFrame : Prop :=
  ∀ (s : State) (c : Ctx) (i : Instr) (t : State) (g : Group), regOnly i = true → WellFormed i = true → ctxOf s (hdrOf i) = some c →
    EndsIn c (exec i s) t g → g.handler.isSome = c.g.handler.isSome →
    Kept c.g g (writtenKeys i) ∧ BytesKept s t ∧ (∀ r b k, fullBit t r b k = fullBit s r b k) ∧
    g.parts = c.g.parts ∧ g.octets = c.g.octets ∧ g.sp = c.g.sp ∧ g.frames = c.g.frames ∧ g.slimit = c.g.slimit ∧
    t.preg = s.preg ∧ t.lds = s.lds ∧ t.far = s.far ∧ t.grids = s.grids ∧ t.harts = s.harts ∧
    (∀ r, r ≠ c.r → groupOf t r = groupOf s r) ∧
    TeamIs t c.r.team fun u => ∀ k, .b k ∉ writtenKeys i → getB u k = getB c.t k ∧ u.bflags.getLsbD k = c.t.bflags.getLsbD k
end

