-- ==== Sys2Proof/Laws/State.lean ====
section
/-! SUPPORT. The state after each update, field by field: an update of one field leaves every other as it was. -/

namespace Sys2Proof.Machine

@[simp] theorem modLd_cycle (s : State) (n : Nat) (f : LDev → LDev) : (modLd s n f).cycle = s.cycle := rfl
@[simp] theorem modLd_mem (s : State) (n : Nat) (f : LDev → LDev) : (modLd s n f).mem = s.mem := rfl
@[simp] theorem modLd_ecc (s : State) (n : Nat) (f : LDev → LDev) : (modLd s n f).ecc = s.ecc := rfl
@[simp] theorem modLd_clearPend (s : State) (n : Nat) (f : LDev → LDev) : (modLd s n f).clearPend = s.clearPend := rfl
@[simp] theorem modLd_preg (s : State) (n : Nat) (f : LDev → LDev) : (modLd s n f).preg = s.preg := rfl
@[simp] theorem modLd_ccSet (s : State) (n : Nat) (f : LDev → LDev) : (modLd s n f).ccSet = s.ccSet := rfl
@[simp] theorem modLd_grids (s : State) (n : Nat) (f : LDev → LDev) : (modLd s n f).grids = s.grids := rfl
@[simp] theorem modLd_gangs (s : State) (n : Nat) (f : LDev → LDev) : (modLd s n f).gangs = s.gangs := rfl
@[simp] theorem modLd_teams (s : State) (n : Nat) (f : LDev → LDev) : (modLd s n f).teams = s.teams := rfl
@[simp] theorem modLd_dying (s : State) (n : Nat) (f : LDev → LDev) : (modLd s n f).dying = s.dying := rfl
@[simp] theorem modLd_reqs (s : State) (n : Nat) (f : LDev → LDev) : (modLd s n f).reqs = s.reqs := rfl
@[simp] theorem modLd_memOps (s : State) (n : Nat) (f : LDev → LDev) : (modLd s n f).memOps = s.memOps := rfl
@[simp] theorem modLd_netOps (s : State) (n : Nat) (f : LDev → LDev) : (modLd s n f).netOps = s.netOps := rfl
@[simp] theorem modLd_far (s : State) (n : Nat) (f : LDev → LDev) : (modLd s n f).far = s.far := rfl
@[simp] theorem modLd_rels (s : State) (n : Nat) (f : LDev → LDev) : (modLd s n f).rels = s.rels := rfl
@[simp] theorem modLd_hist (s : State) (n : Nat) (f : LDev → LDev) : (modLd s n f).hist = s.hist := rfl
@[simp] theorem modLd_joins (s : State) (n : Nat) (f : LDev → LDev) : (modLd s n f).joins = s.joins := rfl
@[simp] theorem modLd_arDone (s : State) (n : Nat) (f : LDev → LDev) : (modLd s n f).arDone = s.arDone := rfl
@[simp] theorem modLd_harts (s : State) (n : Nat) (f : LDev → LDev) : (modLd s n f).harts = s.harts := rfl
@[simp] theorem modLd_hot (s : State) (n : Nat) (f : LDev → LDev) : (modLd s n f).hot = s.hot := rfl
@[simp] theorem modLd_scrub (s : State) (n : Nat) (f : LDev → LDev) : (modLd s n f).scrub = s.scrub := rfl
@[simp] theorem modLd_banks (s : State) (n : Nat) (f : LDev → LDev) : (modLd s n f).banks = s.banks := rfl
@[simp] theorem modLd_dcache (s : State) (n : Nat) (f : LDev → LDev) : (modLd s n f).dcache = s.dcache := rfl
@[simp] theorem modLd_power (s : State) (n : Nat) (f : LDev → LDev) : (modLd s n f).power = s.power := rfl
@[simp] theorem modLd_straitUp (s : State) (n : Nat) (f : LDev → LDev) : (modLd s n f).straitUp = s.straitUp := rfl
@[simp] theorem modLd_ethUp (s : State) (n : Nat) (f : LDev → LDev) : (modLd s n f).ethUp = s.ethUp := rfl
@[simp] theorem modLd_retrain (s : State) (n : Nat) (f : LDev → LDev) : (modLd s n f).retrain = s.retrain := rfl
@[simp] theorem modLd_msix (s : State) (n : Nat) (f : LDev → LDev) : (modLd s n f).msix = s.msix := rfl
@[simp] theorem modLd_hdmRead (s : State) (n : Nat) (f : LDev → LDev) : (modLd s n f).hdmRead = s.hdmRead := rfl
@[simp] theorem modLd_sram (s : State) (n : Nat) (f : LDev → LDev) : (modLd s n f).sram = s.sram := rfl
@[simp] theorem modLd_stale (s : State) (n : Nat) (f : LDev → LDev) : (modLd s n f).stale = s.stale := rfl
@[simp] theorem modLd_kvPages (s : State) (n : Nat) (f : LDev → LDev) : (modLd s n f).kvPages = s.kvPages := rfl
@[simp] theorem modLd_shadow (s : State) (n : Nat) (f : LDev → LDev) : (modLd s n f).shadow = s.shadow := rfl
@[simp] theorem modLd_migrations (s : State) (n : Nat) (f : LDev → LDev) : (modLd s n f).migrations = s.migrations := rfl
@[simp] theorem modLd_moved (s : State) (n : Nat) (f : LDev → LDev) : (modLd s n f).moved = s.moved := rfl
@[simp] theorem modLd_drives (s : State) (n : Nat) (f : LDev → LDev) : (modLd s n f).drives = s.drives := rfl
@[simp] theorem modLd_driveCache (s : State) (n : Nat) (f : LDev → LDev) : (modLd s n f).driveCache = s.driveCache := rfl
@[simp] theorem modLd_driveWritten (s : State) (n : Nat) (f : LDev → LDev) : (modLd s n f).driveWritten = s.driveWritten := rfl
@[simp] theorem modLd_readySeq (s : State) (n : Nat) (f : LDev → LDev) : (modLd s n f).readySeq = s.readySeq := rfl
@[simp] theorem modLd_lastLd (s : State) (n : Nat) (f : LDev → LDev) : (modLd s n f).lastLd = s.lastLd := rfl
@[simp] theorem modLd_lastCore (s : State) (n : Nat) (f : LDev → LDev) : (modLd s n f).lastCore = s.lastCore := rfl
@[simp] theorem modLd_unfit (s : State) (n : Nat) (f : LDev → LDev) : (modLd s n f).unfit = s.unfit := rfl
@[simp] theorem modLd_nextId (s : State) (n : Nat) (f : LDev → LDev) : (modLd s n f).nextId = s.nextId := rfl
@[simp] theorem modLd_agenda (s : State) (n : Nat) (f : LDev → LDev) : (modLd s n f).agenda = s.agenda := rfl
@[simp] theorem modLd_choices (s : State) (n : Nat) (f : LDev → LDev) : (modLd s n f).choices = s.choices := rfl
@[simp] theorem modLd_frees (s : State) (n : Nat) (f : LDev → LDev) : (modLd s n f).frees = s.frees := rfl
@[simp] theorem modLd_issuing (s : State) (n : Nat) (f : LDev → LDev) : (modLd s n f).issuing = s.issuing := rfl

@[simp] theorem setLdReg_cycle (s : State) (ld n x : Nat) : (setLdReg s ld n x).cycle = s.cycle := rfl
@[simp] theorem setLdReg_mem (s : State) (ld n x : Nat) : (setLdReg s ld n x).mem = s.mem := rfl
@[simp] theorem setLdReg_ecc (s : State) (ld n x : Nat) : (setLdReg s ld n x).ecc = s.ecc := rfl
@[simp] theorem setLdReg_clearPend (s : State) (ld n x : Nat) : (setLdReg s ld n x).clearPend = s.clearPend := rfl
@[simp] theorem setLdReg_preg (s : State) (ld n x : Nat) : (setLdReg s ld n x).preg = s.preg := rfl
@[simp] theorem setLdReg_ccSet (s : State) (ld n x : Nat) : (setLdReg s ld n x).ccSet = s.ccSet := rfl
@[simp] theorem setLdReg_grids (s : State) (ld n x : Nat) : (setLdReg s ld n x).grids = s.grids := rfl
@[simp] theorem setLdReg_gangs (s : State) (ld n x : Nat) : (setLdReg s ld n x).gangs = s.gangs := rfl
@[simp] theorem setLdReg_teams (s : State) (ld n x : Nat) : (setLdReg s ld n x).teams = s.teams := rfl
@[simp] theorem setLdReg_dying (s : State) (ld n x : Nat) : (setLdReg s ld n x).dying = s.dying := rfl
@[simp] theorem setLdReg_reqs (s : State) (ld n x : Nat) : (setLdReg s ld n x).reqs = s.reqs := rfl
@[simp] theorem setLdReg_memOps (s : State) (ld n x : Nat) : (setLdReg s ld n x).memOps = s.memOps := rfl
@[simp] theorem setLdReg_netOps (s : State) (ld n x : Nat) : (setLdReg s ld n x).netOps = s.netOps := rfl
@[simp] theorem setLdReg_far (s : State) (ld n x : Nat) : (setLdReg s ld n x).far = s.far := rfl
@[simp] theorem setLdReg_rels (s : State) (ld n x : Nat) : (setLdReg s ld n x).rels = s.rels := rfl
@[simp] theorem setLdReg_hist (s : State) (ld n x : Nat) : (setLdReg s ld n x).hist = s.hist := rfl
@[simp] theorem setLdReg_joins (s : State) (ld n x : Nat) : (setLdReg s ld n x).joins = s.joins := rfl
@[simp] theorem setLdReg_arDone (s : State) (ld n x : Nat) : (setLdReg s ld n x).arDone = s.arDone := rfl
@[simp] theorem setLdReg_harts (s : State) (ld n x : Nat) : (setLdReg s ld n x).harts = s.harts := rfl
@[simp] theorem setLdReg_hot (s : State) (ld n x : Nat) : (setLdReg s ld n x).hot = s.hot := rfl
@[simp] theorem setLdReg_scrub (s : State) (ld n x : Nat) : (setLdReg s ld n x).scrub = s.scrub := rfl
@[simp] theorem setLdReg_banks (s : State) (ld n x : Nat) : (setLdReg s ld n x).banks = s.banks := rfl
@[simp] theorem setLdReg_dcache (s : State) (ld n x : Nat) : (setLdReg s ld n x).dcache = s.dcache := rfl
@[simp] theorem setLdReg_power (s : State) (ld n x : Nat) : (setLdReg s ld n x).power = s.power := rfl
@[simp] theorem setLdReg_straitUp (s : State) (ld n x : Nat) : (setLdReg s ld n x).straitUp = s.straitUp := rfl
@[simp] theorem setLdReg_ethUp (s : State) (ld n x : Nat) : (setLdReg s ld n x).ethUp = s.ethUp := rfl
@[simp] theorem setLdReg_retrain (s : State) (ld n x : Nat) : (setLdReg s ld n x).retrain = s.retrain := rfl
@[simp] theorem setLdReg_msix (s : State) (ld n x : Nat) : (setLdReg s ld n x).msix = s.msix := rfl
@[simp] theorem setLdReg_hdmRead (s : State) (ld n x : Nat) : (setLdReg s ld n x).hdmRead = s.hdmRead := rfl
@[simp] theorem setLdReg_sram (s : State) (ld n x : Nat) : (setLdReg s ld n x).sram = s.sram := rfl
@[simp] theorem setLdReg_stale (s : State) (ld n x : Nat) : (setLdReg s ld n x).stale = s.stale := rfl
@[simp] theorem setLdReg_kvPages (s : State) (ld n x : Nat) : (setLdReg s ld n x).kvPages = s.kvPages := rfl
@[simp] theorem setLdReg_shadow (s : State) (ld n x : Nat) : (setLdReg s ld n x).shadow = s.shadow := rfl
@[simp] theorem setLdReg_migrations (s : State) (ld n x : Nat) : (setLdReg s ld n x).migrations = s.migrations := rfl
@[simp] theorem setLdReg_moved (s : State) (ld n x : Nat) : (setLdReg s ld n x).moved = s.moved := rfl
@[simp] theorem setLdReg_drives (s : State) (ld n x : Nat) : (setLdReg s ld n x).drives = s.drives := rfl
@[simp] theorem setLdReg_driveCache (s : State) (ld n x : Nat) : (setLdReg s ld n x).driveCache = s.driveCache := rfl
@[simp] theorem setLdReg_driveWritten (s : State) (ld n x : Nat) : (setLdReg s ld n x).driveWritten = s.driveWritten := rfl
@[simp] theorem setLdReg_readySeq (s : State) (ld n x : Nat) : (setLdReg s ld n x).readySeq = s.readySeq := rfl
@[simp] theorem setLdReg_lastLd (s : State) (ld n x : Nat) : (setLdReg s ld n x).lastLd = s.lastLd := rfl
@[simp] theorem setLdReg_lastCore (s : State) (ld n x : Nat) : (setLdReg s ld n x).lastCore = s.lastCore := rfl
@[simp] theorem setLdReg_unfit (s : State) (ld n x : Nat) : (setLdReg s ld n x).unfit = s.unfit := rfl
@[simp] theorem setLdReg_nextId (s : State) (ld n x : Nat) : (setLdReg s ld n x).nextId = s.nextId := rfl
@[simp] theorem setLdReg_agenda (s : State) (ld n x : Nat) : (setLdReg s ld n x).agenda = s.agenda := rfl
@[simp] theorem setLdReg_choices (s : State) (ld n x : Nat) : (setLdReg s ld n x).choices = s.choices := rfl
@[simp] theorem setLdReg_frees (s : State) (ld n x : Nat) : (setLdReg s ld n x).frees = s.frees := rfl
@[simp] theorem setLdReg_issuing (s : State) (ld n x : Nat) : (setLdReg s ld n x).issuing = s.issuing := rfl

@[simp] theorem setQb_cycle (s : State) (ld off : Nat) (x : DWord) : (setQb s ld off x).cycle = s.cycle := rfl
@[simp] theorem setQb_mem (s : State) (ld off : Nat) (x : DWord) : (setQb s ld off x).mem = s.mem := rfl
@[simp] theorem setQb_ecc (s : State) (ld off : Nat) (x : DWord) : (setQb s ld off x).ecc = s.ecc := rfl
@[simp] theorem setQb_clearPend (s : State) (ld off : Nat) (x : DWord) : (setQb s ld off x).clearPend = s.clearPend := rfl
@[simp] theorem setQb_preg (s : State) (ld off : Nat) (x : DWord) : (setQb s ld off x).preg = s.preg := rfl
@[simp] theorem setQb_ccSet (s : State) (ld off : Nat) (x : DWord) : (setQb s ld off x).ccSet = s.ccSet := rfl
@[simp] theorem setQb_grids (s : State) (ld off : Nat) (x : DWord) : (setQb s ld off x).grids = s.grids := rfl
@[simp] theorem setQb_gangs (s : State) (ld off : Nat) (x : DWord) : (setQb s ld off x).gangs = s.gangs := rfl
@[simp] theorem setQb_teams (s : State) (ld off : Nat) (x : DWord) : (setQb s ld off x).teams = s.teams := rfl
@[simp] theorem setQb_dying (s : State) (ld off : Nat) (x : DWord) : (setQb s ld off x).dying = s.dying := rfl
@[simp] theorem setQb_reqs (s : State) (ld off : Nat) (x : DWord) : (setQb s ld off x).reqs = s.reqs := rfl
@[simp] theorem setQb_memOps (s : State) (ld off : Nat) (x : DWord) : (setQb s ld off x).memOps = s.memOps := rfl
@[simp] theorem setQb_netOps (s : State) (ld off : Nat) (x : DWord) : (setQb s ld off x).netOps = s.netOps := rfl
@[simp] theorem setQb_far (s : State) (ld off : Nat) (x : DWord) : (setQb s ld off x).far = s.far := rfl
@[simp] theorem setQb_rels (s : State) (ld off : Nat) (x : DWord) : (setQb s ld off x).rels = s.rels := rfl
@[simp] theorem setQb_hist (s : State) (ld off : Nat) (x : DWord) : (setQb s ld off x).hist = s.hist := rfl
@[simp] theorem setQb_joins (s : State) (ld off : Nat) (x : DWord) : (setQb s ld off x).joins = s.joins := rfl
@[simp] theorem setQb_arDone (s : State) (ld off : Nat) (x : DWord) : (setQb s ld off x).arDone = s.arDone := rfl
@[simp] theorem setQb_harts (s : State) (ld off : Nat) (x : DWord) : (setQb s ld off x).harts = s.harts := rfl
@[simp] theorem setQb_hot (s : State) (ld off : Nat) (x : DWord) : (setQb s ld off x).hot = s.hot := rfl
@[simp] theorem setQb_scrub (s : State) (ld off : Nat) (x : DWord) : (setQb s ld off x).scrub = s.scrub := rfl
@[simp] theorem setQb_banks (s : State) (ld off : Nat) (x : DWord) : (setQb s ld off x).banks = s.banks := rfl
@[simp] theorem setQb_dcache (s : State) (ld off : Nat) (x : DWord) : (setQb s ld off x).dcache = s.dcache := rfl
@[simp] theorem setQb_power (s : State) (ld off : Nat) (x : DWord) : (setQb s ld off x).power = s.power := rfl
@[simp] theorem setQb_straitUp (s : State) (ld off : Nat) (x : DWord) : (setQb s ld off x).straitUp = s.straitUp := rfl
@[simp] theorem setQb_ethUp (s : State) (ld off : Nat) (x : DWord) : (setQb s ld off x).ethUp = s.ethUp := rfl
@[simp] theorem setQb_retrain (s : State) (ld off : Nat) (x : DWord) : (setQb s ld off x).retrain = s.retrain := rfl
@[simp] theorem setQb_msix (s : State) (ld off : Nat) (x : DWord) : (setQb s ld off x).msix = s.msix := rfl
@[simp] theorem setQb_hdmRead (s : State) (ld off : Nat) (x : DWord) : (setQb s ld off x).hdmRead = s.hdmRead := rfl
@[simp] theorem setQb_sram (s : State) (ld off : Nat) (x : DWord) : (setQb s ld off x).sram = s.sram := rfl
@[simp] theorem setQb_stale (s : State) (ld off : Nat) (x : DWord) : (setQb s ld off x).stale = s.stale := rfl
@[simp] theorem setQb_kvPages (s : State) (ld off : Nat) (x : DWord) : (setQb s ld off x).kvPages = s.kvPages := rfl
@[simp] theorem setQb_shadow (s : State) (ld off : Nat) (x : DWord) : (setQb s ld off x).shadow = s.shadow := rfl
@[simp] theorem setQb_migrations (s : State) (ld off : Nat) (x : DWord) : (setQb s ld off x).migrations = s.migrations := rfl
@[simp] theorem setQb_moved (s : State) (ld off : Nat) (x : DWord) : (setQb s ld off x).moved = s.moved := rfl
@[simp] theorem setQb_drives (s : State) (ld off : Nat) (x : DWord) : (setQb s ld off x).drives = s.drives := rfl
@[simp] theorem setQb_driveCache (s : State) (ld off : Nat) (x : DWord) : (setQb s ld off x).driveCache = s.driveCache := rfl
@[simp] theorem setQb_driveWritten (s : State) (ld off : Nat) (x : DWord) : (setQb s ld off x).driveWritten = s.driveWritten := rfl
@[simp] theorem setQb_readySeq (s : State) (ld off : Nat) (x : DWord) : (setQb s ld off x).readySeq = s.readySeq := rfl
@[simp] theorem setQb_lastLd (s : State) (ld off : Nat) (x : DWord) : (setQb s ld off x).lastLd = s.lastLd := rfl
@[simp] theorem setQb_lastCore (s : State) (ld off : Nat) (x : DWord) : (setQb s ld off x).lastCore = s.lastCore := rfl
@[simp] theorem setQb_unfit (s : State) (ld off : Nat) (x : DWord) : (setQb s ld off x).unfit = s.unfit := rfl
@[simp] theorem setQb_nextId (s : State) (ld off : Nat) (x : DWord) : (setQb s ld off x).nextId = s.nextId := rfl
@[simp] theorem setQb_agenda (s : State) (ld off : Nat) (x : DWord) : (setQb s ld off x).agenda = s.agenda := rfl
@[simp] theorem setQb_choices (s : State) (ld off : Nat) (x : DWord) : (setQb s ld off x).choices = s.choices := rfl
@[simp] theorem setQb_frees (s : State) (ld off : Nat) (x : DWord) : (setQb s ld off x).frees = s.frees := rfl
@[simp] theorem setQb_issuing (s : State) (ld off : Nat) (x : DWord) : (setQb s ld off x).issuing = s.issuing := rfl

@[simp] theorem setPkgReg_cycle (s : State) (n x : Nat) : (setPkgReg s n x).cycle = s.cycle := rfl
@[simp] theorem setPkgReg_mem (s : State) (n x : Nat) : (setPkgReg s n x).mem = s.mem := rfl
@[simp] theorem setPkgReg_ecc (s : State) (n x : Nat) : (setPkgReg s n x).ecc = s.ecc := rfl
@[simp] theorem setPkgReg_clearPend (s : State) (n x : Nat) : (setPkgReg s n x).clearPend = s.clearPend := rfl
@[simp] theorem setPkgReg_ccSet (s : State) (n x : Nat) : (setPkgReg s n x).ccSet = s.ccSet := rfl
@[simp] theorem setPkgReg_lds (s : State) (n x : Nat) : (setPkgReg s n x).lds = s.lds := rfl
@[simp] theorem setPkgReg_grids (s : State) (n x : Nat) : (setPkgReg s n x).grids = s.grids := rfl
@[simp] theorem setPkgReg_gangs (s : State) (n x : Nat) : (setPkgReg s n x).gangs = s.gangs := rfl
@[simp] theorem setPkgReg_teams (s : State) (n x : Nat) : (setPkgReg s n x).teams = s.teams := rfl
@[simp] theorem setPkgReg_dying (s : State) (n x : Nat) : (setPkgReg s n x).dying = s.dying := rfl
@[simp] theorem setPkgReg_reqs (s : State) (n x : Nat) : (setPkgReg s n x).reqs = s.reqs := rfl
@[simp] theorem setPkgReg_memOps (s : State) (n x : Nat) : (setPkgReg s n x).memOps = s.memOps := rfl
@[simp] theorem setPkgReg_netOps (s : State) (n x : Nat) : (setPkgReg s n x).netOps = s.netOps := rfl
@[simp] theorem setPkgReg_far (s : State) (n x : Nat) : (setPkgReg s n x).far = s.far := rfl
@[simp] theorem setPkgReg_rels (s : State) (n x : Nat) : (setPkgReg s n x).rels = s.rels := rfl
@[simp] theorem setPkgReg_hist (s : State) (n x : Nat) : (setPkgReg s n x).hist = s.hist := rfl
@[simp] theorem setPkgReg_joins (s : State) (n x : Nat) : (setPkgReg s n x).joins = s.joins := rfl
@[simp] theorem setPkgReg_arDone (s : State) (n x : Nat) : (setPkgReg s n x).arDone = s.arDone := rfl
@[simp] theorem setPkgReg_harts (s : State) (n x : Nat) : (setPkgReg s n x).harts = s.harts := rfl
@[simp] theorem setPkgReg_hot (s : State) (n x : Nat) : (setPkgReg s n x).hot = s.hot := rfl
@[simp] theorem setPkgReg_scrub (s : State) (n x : Nat) : (setPkgReg s n x).scrub = s.scrub := rfl
@[simp] theorem setPkgReg_banks (s : State) (n x : Nat) : (setPkgReg s n x).banks = s.banks := rfl
@[simp] theorem setPkgReg_dcache (s : State) (n x : Nat) : (setPkgReg s n x).dcache = s.dcache := rfl
@[simp] theorem setPkgReg_power (s : State) (n x : Nat) : (setPkgReg s n x).power = s.power := rfl
@[simp] theorem setPkgReg_straitUp (s : State) (n x : Nat) : (setPkgReg s n x).straitUp = s.straitUp := rfl
@[simp] theorem setPkgReg_ethUp (s : State) (n x : Nat) : (setPkgReg s n x).ethUp = s.ethUp := rfl
@[simp] theorem setPkgReg_retrain (s : State) (n x : Nat) : (setPkgReg s n x).retrain = s.retrain := rfl
@[simp] theorem setPkgReg_msix (s : State) (n x : Nat) : (setPkgReg s n x).msix = s.msix := rfl
@[simp] theorem setPkgReg_hdmRead (s : State) (n x : Nat) : (setPkgReg s n x).hdmRead = s.hdmRead := rfl
@[simp] theorem setPkgReg_sram (s : State) (n x : Nat) : (setPkgReg s n x).sram = s.sram := rfl
@[simp] theorem setPkgReg_stale (s : State) (n x : Nat) : (setPkgReg s n x).stale = s.stale := rfl
@[simp] theorem setPkgReg_kvPages (s : State) (n x : Nat) : (setPkgReg s n x).kvPages = s.kvPages := rfl
@[simp] theorem setPkgReg_shadow (s : State) (n x : Nat) : (setPkgReg s n x).shadow = s.shadow := rfl
@[simp] theorem setPkgReg_migrations (s : State) (n x : Nat) : (setPkgReg s n x).migrations = s.migrations := rfl
@[simp] theorem setPkgReg_moved (s : State) (n x : Nat) : (setPkgReg s n x).moved = s.moved := rfl
@[simp] theorem setPkgReg_drives (s : State) (n x : Nat) : (setPkgReg s n x).drives = s.drives := rfl
@[simp] theorem setPkgReg_driveCache (s : State) (n x : Nat) : (setPkgReg s n x).driveCache = s.driveCache := rfl
@[simp] theorem setPkgReg_driveWritten (s : State) (n x : Nat) : (setPkgReg s n x).driveWritten = s.driveWritten := rfl
@[simp] theorem setPkgReg_readySeq (s : State) (n x : Nat) : (setPkgReg s n x).readySeq = s.readySeq := rfl
@[simp] theorem setPkgReg_lastLd (s : State) (n x : Nat) : (setPkgReg s n x).lastLd = s.lastLd := rfl
@[simp] theorem setPkgReg_lastCore (s : State) (n x : Nat) : (setPkgReg s n x).lastCore = s.lastCore := rfl
@[simp] theorem setPkgReg_unfit (s : State) (n x : Nat) : (setPkgReg s n x).unfit = s.unfit := rfl
@[simp] theorem setPkgReg_nextId (s : State) (n x : Nat) : (setPkgReg s n x).nextId = s.nextId := rfl
@[simp] theorem setPkgReg_agenda (s : State) (n x : Nat) : (setPkgReg s n x).agenda = s.agenda := rfl
@[simp] theorem setPkgReg_choices (s : State) (n x : Nat) : (setPkgReg s n x).choices = s.choices := rfl
@[simp] theorem setPkgReg_frees (s : State) (n x : Nat) : (setPkgReg s n x).frees = s.frees := rfl
@[simp] theorem setPkgReg_issuing (s : State) (n x : Nat) : (setPkgReg s n x).issuing = s.issuing := rfl

@[simp] theorem pokeBytes_cycle (s : State) (pa : Nat) (bs : List Byte) : (pokeBytes s pa bs).cycle = s.cycle := rfl
@[simp] theorem pokeBytes_ecc (s : State) (pa : Nat) (bs : List Byte) : (pokeBytes s pa bs).ecc = s.ecc := rfl
@[simp] theorem pokeBytes_clearPend (s : State) (pa : Nat) (bs : List Byte) : (pokeBytes s pa bs).clearPend = s.clearPend := rfl
@[simp] theorem pokeBytes_preg (s : State) (pa : Nat) (bs : List Byte) : (pokeBytes s pa bs).preg = s.preg := rfl
@[simp] theorem pokeBytes_ccSet (s : State) (pa : Nat) (bs : List Byte) : (pokeBytes s pa bs).ccSet = s.ccSet := rfl
@[simp] theorem pokeBytes_lds (s : State) (pa : Nat) (bs : List Byte) : (pokeBytes s pa bs).lds = s.lds := rfl
@[simp] theorem pokeBytes_grids (s : State) (pa : Nat) (bs : List Byte) : (pokeBytes s pa bs).grids = s.grids := rfl
@[simp] theorem pokeBytes_gangs (s : State) (pa : Nat) (bs : List Byte) : (pokeBytes s pa bs).gangs = s.gangs := rfl
@[simp] theorem pokeBytes_teams (s : State) (pa : Nat) (bs : List Byte) : (pokeBytes s pa bs).teams = s.teams := rfl
@[simp] theorem pokeBytes_dying (s : State) (pa : Nat) (bs : List Byte) : (pokeBytes s pa bs).dying = s.dying := rfl
@[simp] theorem pokeBytes_reqs (s : State) (pa : Nat) (bs : List Byte) : (pokeBytes s pa bs).reqs = s.reqs := rfl
@[simp] theorem pokeBytes_memOps (s : State) (pa : Nat) (bs : List Byte) : (pokeBytes s pa bs).memOps = s.memOps := rfl
@[simp] theorem pokeBytes_netOps (s : State) (pa : Nat) (bs : List Byte) : (pokeBytes s pa bs).netOps = s.netOps := rfl
@[simp] theorem pokeBytes_far (s : State) (pa : Nat) (bs : List Byte) : (pokeBytes s pa bs).far = s.far := rfl
@[simp] theorem pokeBytes_rels (s : State) (pa : Nat) (bs : List Byte) : (pokeBytes s pa bs).rels = s.rels := rfl
@[simp] theorem pokeBytes_hist (s : State) (pa : Nat) (bs : List Byte) : (pokeBytes s pa bs).hist = s.hist := rfl
@[simp] theorem pokeBytes_joins (s : State) (pa : Nat) (bs : List Byte) : (pokeBytes s pa bs).joins = s.joins := rfl
@[simp] theorem pokeBytes_arDone (s : State) (pa : Nat) (bs : List Byte) : (pokeBytes s pa bs).arDone = s.arDone := rfl
@[simp] theorem pokeBytes_harts (s : State) (pa : Nat) (bs : List Byte) : (pokeBytes s pa bs).harts = s.harts := rfl
@[simp] theorem pokeBytes_hot (s : State) (pa : Nat) (bs : List Byte) : (pokeBytes s pa bs).hot = s.hot := rfl
@[simp] theorem pokeBytes_scrub (s : State) (pa : Nat) (bs : List Byte) : (pokeBytes s pa bs).scrub = s.scrub := rfl
@[simp] theorem pokeBytes_banks (s : State) (pa : Nat) (bs : List Byte) : (pokeBytes s pa bs).banks = s.banks := rfl
@[simp] theorem pokeBytes_dcache (s : State) (pa : Nat) (bs : List Byte) : (pokeBytes s pa bs).dcache = s.dcache := rfl
@[simp] theorem pokeBytes_power (s : State) (pa : Nat) (bs : List Byte) : (pokeBytes s pa bs).power = s.power := rfl
@[simp] theorem pokeBytes_straitUp (s : State) (pa : Nat) (bs : List Byte) : (pokeBytes s pa bs).straitUp = s.straitUp := rfl
@[simp] theorem pokeBytes_ethUp (s : State) (pa : Nat) (bs : List Byte) : (pokeBytes s pa bs).ethUp = s.ethUp := rfl
@[simp] theorem pokeBytes_retrain (s : State) (pa : Nat) (bs : List Byte) : (pokeBytes s pa bs).retrain = s.retrain := rfl
@[simp] theorem pokeBytes_msix (s : State) (pa : Nat) (bs : List Byte) : (pokeBytes s pa bs).msix = s.msix := rfl
@[simp] theorem pokeBytes_hdmRead (s : State) (pa : Nat) (bs : List Byte) : (pokeBytes s pa bs).hdmRead = s.hdmRead := rfl
@[simp] theorem pokeBytes_sram (s : State) (pa : Nat) (bs : List Byte) : (pokeBytes s pa bs).sram = s.sram := rfl
@[simp] theorem pokeBytes_stale (s : State) (pa : Nat) (bs : List Byte) : (pokeBytes s pa bs).stale = s.stale := rfl
@[simp] theorem pokeBytes_kvPages (s : State) (pa : Nat) (bs : List Byte) : (pokeBytes s pa bs).kvPages = s.kvPages := rfl
@[simp] theorem pokeBytes_shadow (s : State) (pa : Nat) (bs : List Byte) : (pokeBytes s pa bs).shadow = s.shadow := rfl
@[simp] theorem pokeBytes_migrations (s : State) (pa : Nat) (bs : List Byte) : (pokeBytes s pa bs).migrations = s.migrations := rfl
@[simp] theorem pokeBytes_moved (s : State) (pa : Nat) (bs : List Byte) : (pokeBytes s pa bs).moved = s.moved := rfl
@[simp] theorem pokeBytes_drives (s : State) (pa : Nat) (bs : List Byte) : (pokeBytes s pa bs).drives = s.drives := rfl
@[simp] theorem pokeBytes_driveCache (s : State) (pa : Nat) (bs : List Byte) : (pokeBytes s pa bs).driveCache = s.driveCache := rfl
@[simp] theorem pokeBytes_driveWritten (s : State) (pa : Nat) (bs : List Byte) : (pokeBytes s pa bs).driveWritten = s.driveWritten := rfl
@[simp] theorem pokeBytes_readySeq (s : State) (pa : Nat) (bs : List Byte) : (pokeBytes s pa bs).readySeq = s.readySeq := rfl
@[simp] theorem pokeBytes_lastLd (s : State) (pa : Nat) (bs : List Byte) : (pokeBytes s pa bs).lastLd = s.lastLd := rfl
@[simp] theorem pokeBytes_lastCore (s : State) (pa : Nat) (bs : List Byte) : (pokeBytes s pa bs).lastCore = s.lastCore := rfl
@[simp] theorem pokeBytes_unfit (s : State) (pa : Nat) (bs : List Byte) : (pokeBytes s pa bs).unfit = s.unfit := rfl
@[simp] theorem pokeBytes_nextId (s : State) (pa : Nat) (bs : List Byte) : (pokeBytes s pa bs).nextId = s.nextId := rfl
@[simp] theorem pokeBytes_agenda (s : State) (pa : Nat) (bs : List Byte) : (pokeBytes s pa bs).agenda = s.agenda := rfl
@[simp] theorem pokeBytes_choices (s : State) (pa : Nat) (bs : List Byte) : (pokeBytes s pa bs).choices = s.choices := rfl
@[simp] theorem pokeBytes_frees (s : State) (pa : Nat) (bs : List Byte) : (pokeBytes s pa bs).frees = s.frees := rfl
@[simp] theorem pokeBytes_issuing (s : State) (pa : Nat) (bs : List Byte) : (pokeBytes s pa bs).issuing = s.issuing := rfl

@[simp] theorem modTeam_cycle (s : State) (r : TeamRef) (f : Team → Team) : (modTeam s r f).cycle = s.cycle := rfl
@[simp] theorem modTeam_mem (s : State) (r : TeamRef) (f : Team → Team) : (modTeam s r f).mem = s.mem := rfl
@[simp] theorem modTeam_ecc (s : State) (r : TeamRef) (f : Team → Team) : (modTeam s r f).ecc = s.ecc := rfl
@[simp] theorem modTeam_clearPend (s : State) (r : TeamRef) (f : Team → Team) : (modTeam s r f).clearPend = s.clearPend := rfl
@[simp] theorem modTeam_preg (s : State) (r : TeamRef) (f : Team → Team) : (modTeam s r f).preg = s.preg := rfl
@[simp] theorem modTeam_ccSet (s : State) (r : TeamRef) (f : Team → Team) : (modTeam s r f).ccSet = s.ccSet := rfl
@[simp] theorem modTeam_lds (s : State) (r : TeamRef) (f : Team → Team) : (modTeam s r f).lds = s.lds := rfl
@[simp] theorem modTeam_grids (s : State) (r : TeamRef) (f : Team → Team) : (modTeam s r f).grids = s.grids := rfl
@[simp] theorem modTeam_gangs (s : State) (r : TeamRef) (f : Team → Team) : (modTeam s r f).gangs = s.gangs := rfl
@[simp] theorem modTeam_dying (s : State) (r : TeamRef) (f : Team → Team) : (modTeam s r f).dying = s.dying := rfl
@[simp] theorem modTeam_reqs (s : State) (r : TeamRef) (f : Team → Team) : (modTeam s r f).reqs = s.reqs := rfl
@[simp] theorem modTeam_memOps (s : State) (r : TeamRef) (f : Team → Team) : (modTeam s r f).memOps = s.memOps := rfl
@[simp] theorem modTeam_netOps (s : State) (r : TeamRef) (f : Team → Team) : (modTeam s r f).netOps = s.netOps := rfl
@[simp] theorem modTeam_far (s : State) (r : TeamRef) (f : Team → Team) : (modTeam s r f).far = s.far := rfl
@[simp] theorem modTeam_rels (s : State) (r : TeamRef) (f : Team → Team) : (modTeam s r f).rels = s.rels := rfl
@[simp] theorem modTeam_hist (s : State) (r : TeamRef) (f : Team → Team) : (modTeam s r f).hist = s.hist := rfl
@[simp] theorem modTeam_joins (s : State) (r : TeamRef) (f : Team → Team) : (modTeam s r f).joins = s.joins := rfl
@[simp] theorem modTeam_arDone (s : State) (r : TeamRef) (f : Team → Team) : (modTeam s r f).arDone = s.arDone := rfl
@[simp] theorem modTeam_harts (s : State) (r : TeamRef) (f : Team → Team) : (modTeam s r f).harts = s.harts := rfl
@[simp] theorem modTeam_hot (s : State) (r : TeamRef) (f : Team → Team) : (modTeam s r f).hot = s.hot := rfl
@[simp] theorem modTeam_scrub (s : State) (r : TeamRef) (f : Team → Team) : (modTeam s r f).scrub = s.scrub := rfl
@[simp] theorem modTeam_banks (s : State) (r : TeamRef) (f : Team → Team) : (modTeam s r f).banks = s.banks := rfl
@[simp] theorem modTeam_dcache (s : State) (r : TeamRef) (f : Team → Team) : (modTeam s r f).dcache = s.dcache := rfl
@[simp] theorem modTeam_power (s : State) (r : TeamRef) (f : Team → Team) : (modTeam s r f).power = s.power := rfl
@[simp] theorem modTeam_straitUp (s : State) (r : TeamRef) (f : Team → Team) : (modTeam s r f).straitUp = s.straitUp := rfl
@[simp] theorem modTeam_ethUp (s : State) (r : TeamRef) (f : Team → Team) : (modTeam s r f).ethUp = s.ethUp := rfl
@[simp] theorem modTeam_retrain (s : State) (r : TeamRef) (f : Team → Team) : (modTeam s r f).retrain = s.retrain := rfl
@[simp] theorem modTeam_msix (s : State) (r : TeamRef) (f : Team → Team) : (modTeam s r f).msix = s.msix := rfl
@[simp] theorem modTeam_hdmRead (s : State) (r : TeamRef) (f : Team → Team) : (modTeam s r f).hdmRead = s.hdmRead := rfl
@[simp] theorem modTeam_sram (s : State) (r : TeamRef) (f : Team → Team) : (modTeam s r f).sram = s.sram := rfl
@[simp] theorem modTeam_stale (s : State) (r : TeamRef) (f : Team → Team) : (modTeam s r f).stale = s.stale := rfl
@[simp] theorem modTeam_kvPages (s : State) (r : TeamRef) (f : Team → Team) : (modTeam s r f).kvPages = s.kvPages := rfl
@[simp] theorem modTeam_shadow (s : State) (r : TeamRef) (f : Team → Team) : (modTeam s r f).shadow = s.shadow := rfl
@[simp] theorem modTeam_migrations (s : State) (r : TeamRef) (f : Team → Team) : (modTeam s r f).migrations = s.migrations := rfl
@[simp] theorem modTeam_moved (s : State) (r : TeamRef) (f : Team → Team) : (modTeam s r f).moved = s.moved := rfl
@[simp] theorem modTeam_drives (s : State) (r : TeamRef) (f : Team → Team) : (modTeam s r f).drives = s.drives := rfl
@[simp] theorem modTeam_driveCache (s : State) (r : TeamRef) (f : Team → Team) : (modTeam s r f).driveCache = s.driveCache := rfl
@[simp] theorem modTeam_driveWritten (s : State) (r : TeamRef) (f : Team → Team) : (modTeam s r f).driveWritten = s.driveWritten := rfl
@[simp] theorem modTeam_readySeq (s : State) (r : TeamRef) (f : Team → Team) : (modTeam s r f).readySeq = s.readySeq := rfl
@[simp] theorem modTeam_lastLd (s : State) (r : TeamRef) (f : Team → Team) : (modTeam s r f).lastLd = s.lastLd := rfl
@[simp] theorem modTeam_lastCore (s : State) (r : TeamRef) (f : Team → Team) : (modTeam s r f).lastCore = s.lastCore := rfl
@[simp] theorem modTeam_unfit (s : State) (r : TeamRef) (f : Team → Team) : (modTeam s r f).unfit = s.unfit := rfl
@[simp] theorem modTeam_nextId (s : State) (r : TeamRef) (f : Team → Team) : (modTeam s r f).nextId = s.nextId := rfl
@[simp] theorem modTeam_agenda (s : State) (r : TeamRef) (f : Team → Team) : (modTeam s r f).agenda = s.agenda := rfl
@[simp] theorem modTeam_choices (s : State) (r : TeamRef) (f : Team → Team) : (modTeam s r f).choices = s.choices := rfl
@[simp] theorem modTeam_frees (s : State) (r : TeamRef) (f : Team → Team) : (modTeam s r f).frees = s.frees := rfl
@[simp] theorem modTeam_issuing (s : State) (r : TeamRef) (f : Team → Team) : (modTeam s r f).issuing = s.issuing := rfl

@[simp] theorem modGroup_cycle (s : State) (r : GroupRef) (f : Group → Group) : (modGroup s r f).cycle = s.cycle := rfl
@[simp] theorem modGroup_mem (s : State) (r : GroupRef) (f : Group → Group) : (modGroup s r f).mem = s.mem := rfl
@[simp] theorem modGroup_ecc (s : State) (r : GroupRef) (f : Group → Group) : (modGroup s r f).ecc = s.ecc := rfl
@[simp] theorem modGroup_clearPend (s : State) (r : GroupRef) (f : Group → Group) : (modGroup s r f).clearPend = s.clearPend := rfl
@[simp] theorem modGroup_preg (s : State) (r : GroupRef) (f : Group → Group) : (modGroup s r f).preg = s.preg := rfl
@[simp] theorem modGroup_ccSet (s : State) (r : GroupRef) (f : Group → Group) : (modGroup s r f).ccSet = s.ccSet := rfl
@[simp] theorem modGroup_lds (s : State) (r : GroupRef) (f : Group → Group) : (modGroup s r f).lds = s.lds := rfl
@[simp] theorem modGroup_grids (s : State) (r : GroupRef) (f : Group → Group) : (modGroup s r f).grids = s.grids := rfl
@[simp] theorem modGroup_gangs (s : State) (r : GroupRef) (f : Group → Group) : (modGroup s r f).gangs = s.gangs := rfl
@[simp] theorem modGroup_dying (s : State) (r : GroupRef) (f : Group → Group) : (modGroup s r f).dying = s.dying := rfl
@[simp] theorem modGroup_reqs (s : State) (r : GroupRef) (f : Group → Group) : (modGroup s r f).reqs = s.reqs := rfl
@[simp] theorem modGroup_memOps (s : State) (r : GroupRef) (f : Group → Group) : (modGroup s r f).memOps = s.memOps := rfl
@[simp] theorem modGroup_netOps (s : State) (r : GroupRef) (f : Group → Group) : (modGroup s r f).netOps = s.netOps := rfl
@[simp] theorem modGroup_far (s : State) (r : GroupRef) (f : Group → Group) : (modGroup s r f).far = s.far := rfl
@[simp] theorem modGroup_rels (s : State) (r : GroupRef) (f : Group → Group) : (modGroup s r f).rels = s.rels := rfl
@[simp] theorem modGroup_hist (s : State) (r : GroupRef) (f : Group → Group) : (modGroup s r f).hist = s.hist := rfl
@[simp] theorem modGroup_joins (s : State) (r : GroupRef) (f : Group → Group) : (modGroup s r f).joins = s.joins := rfl
@[simp] theorem modGroup_arDone (s : State) (r : GroupRef) (f : Group → Group) : (modGroup s r f).arDone = s.arDone := rfl
@[simp] theorem modGroup_harts (s : State) (r : GroupRef) (f : Group → Group) : (modGroup s r f).harts = s.harts := rfl
@[simp] theorem modGroup_hot (s : State) (r : GroupRef) (f : Group → Group) : (modGroup s r f).hot = s.hot := rfl
@[simp] theorem modGroup_scrub (s : State) (r : GroupRef) (f : Group → Group) : (modGroup s r f).scrub = s.scrub := rfl
@[simp] theorem modGroup_banks (s : State) (r : GroupRef) (f : Group → Group) : (modGroup s r f).banks = s.banks := rfl
@[simp] theorem modGroup_dcache (s : State) (r : GroupRef) (f : Group → Group) : (modGroup s r f).dcache = s.dcache := rfl
@[simp] theorem modGroup_power (s : State) (r : GroupRef) (f : Group → Group) : (modGroup s r f).power = s.power := rfl
@[simp] theorem modGroup_straitUp (s : State) (r : GroupRef) (f : Group → Group) : (modGroup s r f).straitUp = s.straitUp := rfl
@[simp] theorem modGroup_ethUp (s : State) (r : GroupRef) (f : Group → Group) : (modGroup s r f).ethUp = s.ethUp := rfl
@[simp] theorem modGroup_retrain (s : State) (r : GroupRef) (f : Group → Group) : (modGroup s r f).retrain = s.retrain := rfl
@[simp] theorem modGroup_msix (s : State) (r : GroupRef) (f : Group → Group) : (modGroup s r f).msix = s.msix := rfl
@[simp] theorem modGroup_hdmRead (s : State) (r : GroupRef) (f : Group → Group) : (modGroup s r f).hdmRead = s.hdmRead := rfl
@[simp] theorem modGroup_sram (s : State) (r : GroupRef) (f : Group → Group) : (modGroup s r f).sram = s.sram := rfl
@[simp] theorem modGroup_stale (s : State) (r : GroupRef) (f : Group → Group) : (modGroup s r f).stale = s.stale := rfl
@[simp] theorem modGroup_kvPages (s : State) (r : GroupRef) (f : Group → Group) : (modGroup s r f).kvPages = s.kvPages := rfl
@[simp] theorem modGroup_shadow (s : State) (r : GroupRef) (f : Group → Group) : (modGroup s r f).shadow = s.shadow := rfl
@[simp] theorem modGroup_migrations (s : State) (r : GroupRef) (f : Group → Group) : (modGroup s r f).migrations = s.migrations := rfl
@[simp] theorem modGroup_moved (s : State) (r : GroupRef) (f : Group → Group) : (modGroup s r f).moved = s.moved := rfl
@[simp] theorem modGroup_drives (s : State) (r : GroupRef) (f : Group → Group) : (modGroup s r f).drives = s.drives := rfl
@[simp] theorem modGroup_driveCache (s : State) (r : GroupRef) (f : Group → Group) : (modGroup s r f).driveCache = s.driveCache := rfl
@[simp] theorem modGroup_driveWritten (s : State) (r : GroupRef) (f : Group → Group) : (modGroup s r f).driveWritten = s.driveWritten := rfl
@[simp] theorem modGroup_readySeq (s : State) (r : GroupRef) (f : Group → Group) : (modGroup s r f).readySeq = s.readySeq := rfl
@[simp] theorem modGroup_lastLd (s : State) (r : GroupRef) (f : Group → Group) : (modGroup s r f).lastLd = s.lastLd := rfl
@[simp] theorem modGroup_lastCore (s : State) (r : GroupRef) (f : Group → Group) : (modGroup s r f).lastCore = s.lastCore := rfl
@[simp] theorem modGroup_unfit (s : State) (r : GroupRef) (f : Group → Group) : (modGroup s r f).unfit = s.unfit := rfl
@[simp] theorem modGroup_nextId (s : State) (r : GroupRef) (f : Group → Group) : (modGroup s r f).nextId = s.nextId := rfl
@[simp] theorem modGroup_agenda (s : State) (r : GroupRef) (f : Group → Group) : (modGroup s r f).agenda = s.agenda := rfl
@[simp] theorem modGroup_choices (s : State) (r : GroupRef) (f : Group → Group) : (modGroup s r f).choices = s.choices := rfl
@[simp] theorem modGroup_frees (s : State) (r : GroupRef) (f : Group → Group) : (modGroup s r f).frees = s.frees := rfl
@[simp] theorem modGroup_issuing (s : State) (r : GroupRef) (f : Group → Group) : (modGroup s r f).issuing = s.issuing := rfl

@[simp] theorem putGroup_cycle (s : State) (r : GroupRef) (g : Group) : (putGroup s r g).cycle = s.cycle := rfl
@[simp] theorem putGroup_mem (s : State) (r : GroupRef) (g : Group) : (putGroup s r g).mem = s.mem := rfl
@[simp] theorem putGroup_ecc (s : State) (r : GroupRef) (g : Group) : (putGroup s r g).ecc = s.ecc := rfl
@[simp] theorem putGroup_clearPend (s : State) (r : GroupRef) (g : Group) : (putGroup s r g).clearPend = s.clearPend := rfl
@[simp] theorem putGroup_preg (s : State) (r : GroupRef) (g : Group) : (putGroup s r g).preg = s.preg := rfl
@[simp] theorem putGroup_ccSet (s : State) (r : GroupRef) (g : Group) : (putGroup s r g).ccSet = s.ccSet := rfl
@[simp] theorem putGroup_lds (s : State) (r : GroupRef) (g : Group) : (putGroup s r g).lds = s.lds := rfl
@[simp] theorem putGroup_grids (s : State) (r : GroupRef) (g : Group) : (putGroup s r g).grids = s.grids := rfl
@[simp] theorem putGroup_gangs (s : State) (r : GroupRef) (g : Group) : (putGroup s r g).gangs = s.gangs := rfl
@[simp] theorem putGroup_dying (s : State) (r : GroupRef) (g : Group) : (putGroup s r g).dying = s.dying := rfl
@[simp] theorem putGroup_reqs (s : State) (r : GroupRef) (g : Group) : (putGroup s r g).reqs = s.reqs := rfl
@[simp] theorem putGroup_memOps (s : State) (r : GroupRef) (g : Group) : (putGroup s r g).memOps = s.memOps := rfl
@[simp] theorem putGroup_netOps (s : State) (r : GroupRef) (g : Group) : (putGroup s r g).netOps = s.netOps := rfl
@[simp] theorem putGroup_far (s : State) (r : GroupRef) (g : Group) : (putGroup s r g).far = s.far := rfl
@[simp] theorem putGroup_rels (s : State) (r : GroupRef) (g : Group) : (putGroup s r g).rels = s.rels := rfl
@[simp] theorem putGroup_hist (s : State) (r : GroupRef) (g : Group) : (putGroup s r g).hist = s.hist := rfl
@[simp] theorem putGroup_joins (s : State) (r : GroupRef) (g : Group) : (putGroup s r g).joins = s.joins := rfl
@[simp] theorem putGroup_arDone (s : State) (r : GroupRef) (g : Group) : (putGroup s r g).arDone = s.arDone := rfl
@[simp] theorem putGroup_harts (s : State) (r : GroupRef) (g : Group) : (putGroup s r g).harts = s.harts := rfl
@[simp] theorem putGroup_hot (s : State) (r : GroupRef) (g : Group) : (putGroup s r g).hot = s.hot := rfl
@[simp] theorem putGroup_scrub (s : State) (r : GroupRef) (g : Group) : (putGroup s r g).scrub = s.scrub := rfl
@[simp] theorem putGroup_banks (s : State) (r : GroupRef) (g : Group) : (putGroup s r g).banks = s.banks := rfl
@[simp] theorem putGroup_dcache (s : State) (r : GroupRef) (g : Group) : (putGroup s r g).dcache = s.dcache := rfl
@[simp] theorem putGroup_power (s : State) (r : GroupRef) (g : Group) : (putGroup s r g).power = s.power := rfl
@[simp] theorem putGroup_straitUp (s : State) (r : GroupRef) (g : Group) : (putGroup s r g).straitUp = s.straitUp := rfl
@[simp] theorem putGroup_ethUp (s : State) (r : GroupRef) (g : Group) : (putGroup s r g).ethUp = s.ethUp := rfl
@[simp] theorem putGroup_retrain (s : State) (r : GroupRef) (g : Group) : (putGroup s r g).retrain = s.retrain := rfl
@[simp] theorem putGroup_msix (s : State) (r : GroupRef) (g : Group) : (putGroup s r g).msix = s.msix := rfl
@[simp] theorem putGroup_hdmRead (s : State) (r : GroupRef) (g : Group) : (putGroup s r g).hdmRead = s.hdmRead := rfl
@[simp] theorem putGroup_sram (s : State) (r : GroupRef) (g : Group) : (putGroup s r g).sram = s.sram := rfl
@[simp] theorem putGroup_stale (s : State) (r : GroupRef) (g : Group) : (putGroup s r g).stale = s.stale := rfl
@[simp] theorem putGroup_kvPages (s : State) (r : GroupRef) (g : Group) : (putGroup s r g).kvPages = s.kvPages := rfl
@[simp] theorem putGroup_shadow (s : State) (r : GroupRef) (g : Group) : (putGroup s r g).shadow = s.shadow := rfl
@[simp] theorem putGroup_migrations (s : State) (r : GroupRef) (g : Group) : (putGroup s r g).migrations = s.migrations := rfl
@[simp] theorem putGroup_moved (s : State) (r : GroupRef) (g : Group) : (putGroup s r g).moved = s.moved := rfl
@[simp] theorem putGroup_drives (s : State) (r : GroupRef) (g : Group) : (putGroup s r g).drives = s.drives := rfl
@[simp] theorem putGroup_driveCache (s : State) (r : GroupRef) (g : Group) : (putGroup s r g).driveCache = s.driveCache := rfl
@[simp] theorem putGroup_driveWritten (s : State) (r : GroupRef) (g : Group) : (putGroup s r g).driveWritten = s.driveWritten := rfl
@[simp] theorem putGroup_readySeq (s : State) (r : GroupRef) (g : Group) : (putGroup s r g).readySeq = s.readySeq := rfl
@[simp] theorem putGroup_lastLd (s : State) (r : GroupRef) (g : Group) : (putGroup s r g).lastLd = s.lastLd := rfl
@[simp] theorem putGroup_lastCore (s : State) (r : GroupRef) (g : Group) : (putGroup s r g).lastCore = s.lastCore := rfl
@[simp] theorem putGroup_unfit (s : State) (r : GroupRef) (g : Group) : (putGroup s r g).unfit = s.unfit := rfl
@[simp] theorem putGroup_nextId (s : State) (r : GroupRef) (g : Group) : (putGroup s r g).nextId = s.nextId := rfl
@[simp] theorem putGroup_agenda (s : State) (r : GroupRef) (g : Group) : (putGroup s r g).agenda = s.agenda := rfl
@[simp] theorem putGroup_choices (s : State) (r : GroupRef) (g : Group) : (putGroup s r g).choices = s.choices := rfl
@[simp] theorem putGroup_frees (s : State) (r : GroupRef) (g : Group) : (putGroup s r g).frees = s.frees := rfl
@[simp] theorem putGroup_issuing (s : State) (r : GroupRef) (g : Group) : (putGroup s r g).issuing = s.issuing := rfl

@[simp] theorem modGrid_cycle (s : State) (ld id : Nat) (f : Grid → Grid) : (modGrid s ld id f).cycle = s.cycle := rfl
@[simp] theorem modGrid_mem (s : State) (ld id : Nat) (f : Grid → Grid) : (modGrid s ld id f).mem = s.mem := rfl
@[simp] theorem modGrid_ecc (s : State) (ld id : Nat) (f : Grid → Grid) : (modGrid s ld id f).ecc = s.ecc := rfl
@[simp] theorem modGrid_clearPend (s : State) (ld id : Nat) (f : Grid → Grid) : (modGrid s ld id f).clearPend = s.clearPend := rfl
@[simp] theorem modGrid_preg (s : State) (ld id : Nat) (f : Grid → Grid) : (modGrid s ld id f).preg = s.preg := rfl
@[simp] theorem modGrid_ccSet (s : State) (ld id : Nat) (f : Grid → Grid) : (modGrid s ld id f).ccSet = s.ccSet := rfl
@[simp] theorem modGrid_lds (s : State) (ld id : Nat) (f : Grid → Grid) : (modGrid s ld id f).lds = s.lds := rfl
@[simp] theorem modGrid_gangs (s : State) (ld id : Nat) (f : Grid → Grid) : (modGrid s ld id f).gangs = s.gangs := rfl
@[simp] theorem modGrid_teams (s : State) (ld id : Nat) (f : Grid → Grid) : (modGrid s ld id f).teams = s.teams := rfl
@[simp] theorem modGrid_dying (s : State) (ld id : Nat) (f : Grid → Grid) : (modGrid s ld id f).dying = s.dying := rfl
@[simp] theorem modGrid_reqs (s : State) (ld id : Nat) (f : Grid → Grid) : (modGrid s ld id f).reqs = s.reqs := rfl
@[simp] theorem modGrid_memOps (s : State) (ld id : Nat) (f : Grid → Grid) : (modGrid s ld id f).memOps = s.memOps := rfl
@[simp] theorem modGrid_netOps (s : State) (ld id : Nat) (f : Grid → Grid) : (modGrid s ld id f).netOps = s.netOps := rfl
@[simp] theorem modGrid_far (s : State) (ld id : Nat) (f : Grid → Grid) : (modGrid s ld id f).far = s.far := rfl
@[simp] theorem modGrid_rels (s : State) (ld id : Nat) (f : Grid → Grid) : (modGrid s ld id f).rels = s.rels := rfl
@[simp] theorem modGrid_hist (s : State) (ld id : Nat) (f : Grid → Grid) : (modGrid s ld id f).hist = s.hist := rfl
@[simp] theorem modGrid_joins (s : State) (ld id : Nat) (f : Grid → Grid) : (modGrid s ld id f).joins = s.joins := rfl
@[simp] theorem modGrid_arDone (s : State) (ld id : Nat) (f : Grid → Grid) : (modGrid s ld id f).arDone = s.arDone := rfl
@[simp] theorem modGrid_harts (s : State) (ld id : Nat) (f : Grid → Grid) : (modGrid s ld id f).harts = s.harts := rfl
@[simp] theorem modGrid_hot (s : State) (ld id : Nat) (f : Grid → Grid) : (modGrid s ld id f).hot = s.hot := rfl
@[simp] theorem modGrid_scrub (s : State) (ld id : Nat) (f : Grid → Grid) : (modGrid s ld id f).scrub = s.scrub := rfl
@[simp] theorem modGrid_banks (s : State) (ld id : Nat) (f : Grid → Grid) : (modGrid s ld id f).banks = s.banks := rfl
@[simp] theorem modGrid_dcache (s : State) (ld id : Nat) (f : Grid → Grid) : (modGrid s ld id f).dcache = s.dcache := rfl
@[simp] theorem modGrid_power (s : State) (ld id : Nat) (f : Grid → Grid) : (modGrid s ld id f).power = s.power := rfl
@[simp] theorem modGrid_straitUp (s : State) (ld id : Nat) (f : Grid → Grid) : (modGrid s ld id f).straitUp = s.straitUp := rfl
@[simp] theorem modGrid_ethUp (s : State) (ld id : Nat) (f : Grid → Grid) : (modGrid s ld id f).ethUp = s.ethUp := rfl
@[simp] theorem modGrid_retrain (s : State) (ld id : Nat) (f : Grid → Grid) : (modGrid s ld id f).retrain = s.retrain := rfl
@[simp] theorem modGrid_msix (s : State) (ld id : Nat) (f : Grid → Grid) : (modGrid s ld id f).msix = s.msix := rfl
@[simp] theorem modGrid_hdmRead (s : State) (ld id : Nat) (f : Grid → Grid) : (modGrid s ld id f).hdmRead = s.hdmRead := rfl
@[simp] theorem modGrid_sram (s : State) (ld id : Nat) (f : Grid → Grid) : (modGrid s ld id f).sram = s.sram := rfl
@[simp] theorem modGrid_stale (s : State) (ld id : Nat) (f : Grid → Grid) : (modGrid s ld id f).stale = s.stale := rfl
@[simp] theorem modGrid_kvPages (s : State) (ld id : Nat) (f : Grid → Grid) : (modGrid s ld id f).kvPages = s.kvPages := rfl
@[simp] theorem modGrid_shadow (s : State) (ld id : Nat) (f : Grid → Grid) : (modGrid s ld id f).shadow = s.shadow := rfl
@[simp] theorem modGrid_migrations (s : State) (ld id : Nat) (f : Grid → Grid) : (modGrid s ld id f).migrations = s.migrations := rfl
@[simp] theorem modGrid_moved (s : State) (ld id : Nat) (f : Grid → Grid) : (modGrid s ld id f).moved = s.moved := rfl
@[simp] theorem modGrid_drives (s : State) (ld id : Nat) (f : Grid → Grid) : (modGrid s ld id f).drives = s.drives := rfl
@[simp] theorem modGrid_driveCache (s : State) (ld id : Nat) (f : Grid → Grid) : (modGrid s ld id f).driveCache = s.driveCache := rfl
@[simp] theorem modGrid_driveWritten (s : State) (ld id : Nat) (f : Grid → Grid) : (modGrid s ld id f).driveWritten = s.driveWritten := rfl
@[simp] theorem modGrid_readySeq (s : State) (ld id : Nat) (f : Grid → Grid) : (modGrid s ld id f).readySeq = s.readySeq := rfl
@[simp] theorem modGrid_lastLd (s : State) (ld id : Nat) (f : Grid → Grid) : (modGrid s ld id f).lastLd = s.lastLd := rfl
@[simp] theorem modGrid_lastCore (s : State) (ld id : Nat) (f : Grid → Grid) : (modGrid s ld id f).lastCore = s.lastCore := rfl
@[simp] theorem modGrid_unfit (s : State) (ld id : Nat) (f : Grid → Grid) : (modGrid s ld id f).unfit = s.unfit := rfl
@[simp] theorem modGrid_nextId (s : State) (ld id : Nat) (f : Grid → Grid) : (modGrid s ld id f).nextId = s.nextId := rfl
@[simp] theorem modGrid_agenda (s : State) (ld id : Nat) (f : Grid → Grid) : (modGrid s ld id f).agenda = s.agenda := rfl
@[simp] theorem modGrid_choices (s : State) (ld id : Nat) (f : Grid → Grid) : (modGrid s ld id f).choices = s.choices := rfl
@[simp] theorem modGrid_frees (s : State) (ld id : Nat) (f : Grid → Grid) : (modGrid s ld id f).frees = s.frees := rfl
@[simp] theorem modGrid_issuing (s : State) (ld id : Nat) (f : Grid → Grid) : (modGrid s ld id f).issuing = s.issuing := rfl

@[simp] theorem modGang_cycle (s : State) (k : GangRef) (f : Gang → Gang) : (modGang s k f).cycle = s.cycle := rfl
@[simp] theorem modGang_mem (s : State) (k : GangRef) (f : Gang → Gang) : (modGang s k f).mem = s.mem := rfl
@[simp] theorem modGang_ecc (s : State) (k : GangRef) (f : Gang → Gang) : (modGang s k f).ecc = s.ecc := rfl
@[simp] theorem modGang_clearPend (s : State) (k : GangRef) (f : Gang → Gang) : (modGang s k f).clearPend = s.clearPend := rfl
@[simp] theorem modGang_preg (s : State) (k : GangRef) (f : Gang → Gang) : (modGang s k f).preg = s.preg := rfl
@[simp] theorem modGang_ccSet (s : State) (k : GangRef) (f : Gang → Gang) : (modGang s k f).ccSet = s.ccSet := rfl
@[simp] theorem modGang_lds (s : State) (k : GangRef) (f : Gang → Gang) : (modGang s k f).lds = s.lds := rfl
@[simp] theorem modGang_grids (s : State) (k : GangRef) (f : Gang → Gang) : (modGang s k f).grids = s.grids := rfl
@[simp] theorem modGang_teams (s : State) (k : GangRef) (f : Gang → Gang) : (modGang s k f).teams = s.teams := rfl
@[simp] theorem modGang_dying (s : State) (k : GangRef) (f : Gang → Gang) : (modGang s k f).dying = s.dying := rfl
@[simp] theorem modGang_reqs (s : State) (k : GangRef) (f : Gang → Gang) : (modGang s k f).reqs = s.reqs := rfl
@[simp] theorem modGang_memOps (s : State) (k : GangRef) (f : Gang → Gang) : (modGang s k f).memOps = s.memOps := rfl
@[simp] theorem modGang_netOps (s : State) (k : GangRef) (f : Gang → Gang) : (modGang s k f).netOps = s.netOps := rfl
@[simp] theorem modGang_far (s : State) (k : GangRef) (f : Gang → Gang) : (modGang s k f).far = s.far := rfl
@[simp] theorem modGang_rels (s : State) (k : GangRef) (f : Gang → Gang) : (modGang s k f).rels = s.rels := rfl
@[simp] theorem modGang_hist (s : State) (k : GangRef) (f : Gang → Gang) : (modGang s k f).hist = s.hist := rfl
@[simp] theorem modGang_joins (s : State) (k : GangRef) (f : Gang → Gang) : (modGang s k f).joins = s.joins := rfl
@[simp] theorem modGang_arDone (s : State) (k : GangRef) (f : Gang → Gang) : (modGang s k f).arDone = s.arDone := rfl
@[simp] theorem modGang_harts (s : State) (k : GangRef) (f : Gang → Gang) : (modGang s k f).harts = s.harts := rfl
@[simp] theorem modGang_hot (s : State) (k : GangRef) (f : Gang → Gang) : (modGang s k f).hot = s.hot := rfl
@[simp] theorem modGang_scrub (s : State) (k : GangRef) (f : Gang → Gang) : (modGang s k f).scrub = s.scrub := rfl
@[simp] theorem modGang_banks (s : State) (k : GangRef) (f : Gang → Gang) : (modGang s k f).banks = s.banks := rfl
@[simp] theorem modGang_dcache (s : State) (k : GangRef) (f : Gang → Gang) : (modGang s k f).dcache = s.dcache := rfl
@[simp] theorem modGang_power (s : State) (k : GangRef) (f : Gang → Gang) : (modGang s k f).power = s.power := rfl
@[simp] theorem modGang_straitUp (s : State) (k : GangRef) (f : Gang → Gang) : (modGang s k f).straitUp = s.straitUp := rfl
@[simp] theorem modGang_ethUp (s : State) (k : GangRef) (f : Gang → Gang) : (modGang s k f).ethUp = s.ethUp := rfl
@[simp] theorem modGang_retrain (s : State) (k : GangRef) (f : Gang → Gang) : (modGang s k f).retrain = s.retrain := rfl
@[simp] theorem modGang_msix (s : State) (k : GangRef) (f : Gang → Gang) : (modGang s k f).msix = s.msix := rfl
@[simp] theorem modGang_hdmRead (s : State) (k : GangRef) (f : Gang → Gang) : (modGang s k f).hdmRead = s.hdmRead := rfl
@[simp] theorem modGang_sram (s : State) (k : GangRef) (f : Gang → Gang) : (modGang s k f).sram = s.sram := rfl
@[simp] theorem modGang_stale (s : State) (k : GangRef) (f : Gang → Gang) : (modGang s k f).stale = s.stale := rfl
@[simp] theorem modGang_kvPages (s : State) (k : GangRef) (f : Gang → Gang) : (modGang s k f).kvPages = s.kvPages := rfl
@[simp] theorem modGang_shadow (s : State) (k : GangRef) (f : Gang → Gang) : (modGang s k f).shadow = s.shadow := rfl
@[simp] theorem modGang_migrations (s : State) (k : GangRef) (f : Gang → Gang) : (modGang s k f).migrations = s.migrations := rfl
@[simp] theorem modGang_moved (s : State) (k : GangRef) (f : Gang → Gang) : (modGang s k f).moved = s.moved := rfl
@[simp] theorem modGang_drives (s : State) (k : GangRef) (f : Gang → Gang) : (modGang s k f).drives = s.drives := rfl
@[simp] theorem modGang_driveCache (s : State) (k : GangRef) (f : Gang → Gang) : (modGang s k f).driveCache = s.driveCache := rfl
@[simp] theorem modGang_driveWritten (s : State) (k : GangRef) (f : Gang → Gang) : (modGang s k f).driveWritten = s.driveWritten := rfl
@[simp] theorem modGang_readySeq (s : State) (k : GangRef) (f : Gang → Gang) : (modGang s k f).readySeq = s.readySeq := rfl
@[simp] theorem modGang_lastLd (s : State) (k : GangRef) (f : Gang → Gang) : (modGang s k f).lastLd = s.lastLd := rfl
@[simp] theorem modGang_lastCore (s : State) (k : GangRef) (f : Gang → Gang) : (modGang s k f).lastCore = s.lastCore := rfl
@[simp] theorem modGang_unfit (s : State) (k : GangRef) (f : Gang → Gang) : (modGang s k f).unfit = s.unfit := rfl
@[simp] theorem modGang_nextId (s : State) (k : GangRef) (f : Gang → Gang) : (modGang s k f).nextId = s.nextId := rfl
@[simp] theorem modGang_agenda (s : State) (k : GangRef) (f : Gang → Gang) : (modGang s k f).agenda = s.agenda := rfl
@[simp] theorem modGang_choices (s : State) (k : GangRef) (f : Gang → Gang) : (modGang s k f).choices = s.choices := rfl
@[simp] theorem modGang_frees (s : State) (k : GangRef) (f : Gang → Gang) : (modGang s k f).frees = s.frees := rfl
@[simp] theorem modGang_issuing (s : State) (k : GangRef) (f : Gang → Gang) : (modGang s k f).issuing = s.issuing := rfl

@[simp] theorem modQueue_cycle (s : State) (ld q : Nat) (f : Queue → Queue) : (modQueue s ld q f).cycle = s.cycle := rfl
@[simp] theorem modQueue_mem (s : State) (ld q : Nat) (f : Queue → Queue) : (modQueue s ld q f).mem = s.mem := rfl
@[simp] theorem modQueue_ecc (s : State) (ld q : Nat) (f : Queue → Queue) : (modQueue s ld q f).ecc = s.ecc := rfl
@[simp] theorem modQueue_clearPend (s : State) (ld q : Nat) (f : Queue → Queue) : (modQueue s ld q f).clearPend = s.clearPend := rfl
@[simp] theorem modQueue_preg (s : State) (ld q : Nat) (f : Queue → Queue) : (modQueue s ld q f).preg = s.preg := rfl
@[simp] theorem modQueue_ccSet (s : State) (ld q : Nat) (f : Queue → Queue) : (modQueue s ld q f).ccSet = s.ccSet := rfl
@[simp] theorem modQueue_grids (s : State) (ld q : Nat) (f : Queue → Queue) : (modQueue s ld q f).grids = s.grids := rfl
@[simp] theorem modQueue_gangs (s : State) (ld q : Nat) (f : Queue → Queue) : (modQueue s ld q f).gangs = s.gangs := rfl
@[simp] theorem modQueue_teams (s : State) (ld q : Nat) (f : Queue → Queue) : (modQueue s ld q f).teams = s.teams := rfl
@[simp] theorem modQueue_dying (s : State) (ld q : Nat) (f : Queue → Queue) : (modQueue s ld q f).dying = s.dying := rfl
@[simp] theorem modQueue_reqs (s : State) (ld q : Nat) (f : Queue → Queue) : (modQueue s ld q f).reqs = s.reqs := rfl
@[simp] theorem modQueue_memOps (s : State) (ld q : Nat) (f : Queue → Queue) : (modQueue s ld q f).memOps = s.memOps := rfl
@[simp] theorem modQueue_netOps (s : State) (ld q : Nat) (f : Queue → Queue) : (modQueue s ld q f).netOps = s.netOps := rfl
@[simp] theorem modQueue_far (s : State) (ld q : Nat) (f : Queue → Queue) : (modQueue s ld q f).far = s.far := rfl
@[simp] theorem modQueue_rels (s : State) (ld q : Nat) (f : Queue → Queue) : (modQueue s ld q f).rels = s.rels := rfl
@[simp] theorem modQueue_hist (s : State) (ld q : Nat) (f : Queue → Queue) : (modQueue s ld q f).hist = s.hist := rfl
@[simp] theorem modQueue_joins (s : State) (ld q : Nat) (f : Queue → Queue) : (modQueue s ld q f).joins = s.joins := rfl
@[simp] theorem modQueue_arDone (s : State) (ld q : Nat) (f : Queue → Queue) : (modQueue s ld q f).arDone = s.arDone := rfl
@[simp] theorem modQueue_harts (s : State) (ld q : Nat) (f : Queue → Queue) : (modQueue s ld q f).harts = s.harts := rfl
@[simp] theorem modQueue_hot (s : State) (ld q : Nat) (f : Queue → Queue) : (modQueue s ld q f).hot = s.hot := rfl
@[simp] theorem modQueue_scrub (s : State) (ld q : Nat) (f : Queue → Queue) : (modQueue s ld q f).scrub = s.scrub := rfl
@[simp] theorem modQueue_banks (s : State) (ld q : Nat) (f : Queue → Queue) : (modQueue s ld q f).banks = s.banks := rfl
@[simp] theorem modQueue_dcache (s : State) (ld q : Nat) (f : Queue → Queue) : (modQueue s ld q f).dcache = s.dcache := rfl
@[simp] theorem modQueue_power (s : State) (ld q : Nat) (f : Queue → Queue) : (modQueue s ld q f).power = s.power := rfl
@[simp] theorem modQueue_straitUp (s : State) (ld q : Nat) (f : Queue → Queue) : (modQueue s ld q f).straitUp = s.straitUp := rfl
@[simp] theorem modQueue_ethUp (s : State) (ld q : Nat) (f : Queue → Queue) : (modQueue s ld q f).ethUp = s.ethUp := rfl
@[simp] theorem modQueue_retrain (s : State) (ld q : Nat) (f : Queue → Queue) : (modQueue s ld q f).retrain = s.retrain := rfl
@[simp] theorem modQueue_msix (s : State) (ld q : Nat) (f : Queue → Queue) : (modQueue s ld q f).msix = s.msix := rfl
@[simp] theorem modQueue_hdmRead (s : State) (ld q : Nat) (f : Queue → Queue) : (modQueue s ld q f).hdmRead = s.hdmRead := rfl
@[simp] theorem modQueue_sram (s : State) (ld q : Nat) (f : Queue → Queue) : (modQueue s ld q f).sram = s.sram := rfl
@[simp] theorem modQueue_stale (s : State) (ld q : Nat) (f : Queue → Queue) : (modQueue s ld q f).stale = s.stale := rfl
@[simp] theorem modQueue_kvPages (s : State) (ld q : Nat) (f : Queue → Queue) : (modQueue s ld q f).kvPages = s.kvPages := rfl
@[simp] theorem modQueue_shadow (s : State) (ld q : Nat) (f : Queue → Queue) : (modQueue s ld q f).shadow = s.shadow := rfl
@[simp] theorem modQueue_migrations (s : State) (ld q : Nat) (f : Queue → Queue) : (modQueue s ld q f).migrations = s.migrations := rfl
@[simp] theorem modQueue_moved (s : State) (ld q : Nat) (f : Queue → Queue) : (modQueue s ld q f).moved = s.moved := rfl
@[simp] theorem modQueue_drives (s : State) (ld q : Nat) (f : Queue → Queue) : (modQueue s ld q f).drives = s.drives := rfl
@[simp] theorem modQueue_driveCache (s : State) (ld q : Nat) (f : Queue → Queue) : (modQueue s ld q f).driveCache = s.driveCache := rfl
@[simp] theorem modQueue_driveWritten (s : State) (ld q : Nat) (f : Queue → Queue) : (modQueue s ld q f).driveWritten = s.driveWritten := rfl
@[simp] theorem modQueue_readySeq (s : State) (ld q : Nat) (f : Queue → Queue) : (modQueue s ld q f).readySeq = s.readySeq := rfl
@[simp] theorem modQueue_lastLd (s : State) (ld q : Nat) (f : Queue → Queue) : (modQueue s ld q f).lastLd = s.lastLd := rfl
@[simp] theorem modQueue_lastCore (s : State) (ld q : Nat) (f : Queue → Queue) : (modQueue s ld q f).lastCore = s.lastCore := rfl
@[simp] theorem modQueue_unfit (s : State) (ld q : Nat) (f : Queue → Queue) : (modQueue s ld q f).unfit = s.unfit := rfl
@[simp] theorem modQueue_nextId (s : State) (ld q : Nat) (f : Queue → Queue) : (modQueue s ld q f).nextId = s.nextId := rfl
@[simp] theorem modQueue_agenda (s : State) (ld q : Nat) (f : Queue → Queue) : (modQueue s ld q f).agenda = s.agenda := rfl
@[simp] theorem modQueue_choices (s : State) (ld q : Nat) (f : Queue → Queue) : (modQueue s ld q f).choices = s.choices := rfl
@[simp] theorem modQueue_frees (s : State) (ld q : Nat) (f : Queue → Queue) : (modQueue s ld q f).frees = s.frees := rfl
@[simp] theorem modQueue_issuing (s : State) (ld q : Nat) (f : Queue → Queue) : (modQueue s ld q f).issuing = s.issuing := rfl

@[simp] theorem tick_cycle (s : State) : (tick s).cycle = s.cycle := rfl
@[simp] theorem tick_mem (s : State) : (tick s).mem = s.mem := rfl
@[simp] theorem tick_ecc (s : State) : (tick s).ecc = s.ecc := rfl
@[simp] theorem tick_clearPend (s : State) : (tick s).clearPend = s.clearPend := rfl
@[simp] theorem tick_preg (s : State) : (tick s).preg = s.preg := rfl
@[simp] theorem tick_ccSet (s : State) : (tick s).ccSet = s.ccSet := rfl
@[simp] theorem tick_lds (s : State) : (tick s).lds = s.lds := rfl
@[simp] theorem tick_grids (s : State) : (tick s).grids = s.grids := rfl
@[simp] theorem tick_gangs (s : State) : (tick s).gangs = s.gangs := rfl
@[simp] theorem tick_teams (s : State) : (tick s).teams = s.teams := rfl
@[simp] theorem tick_dying (s : State) : (tick s).dying = s.dying := rfl
@[simp] theorem tick_reqs (s : State) : (tick s).reqs = s.reqs := rfl
@[simp] theorem tick_memOps (s : State) : (tick s).memOps = s.memOps := rfl
@[simp] theorem tick_netOps (s : State) : (tick s).netOps = s.netOps := rfl
@[simp] theorem tick_far (s : State) : (tick s).far = s.far := rfl
@[simp] theorem tick_rels (s : State) : (tick s).rels = s.rels := rfl
@[simp] theorem tick_hist (s : State) : (tick s).hist = s.hist := rfl
@[simp] theorem tick_joins (s : State) : (tick s).joins = s.joins := rfl
@[simp] theorem tick_arDone (s : State) : (tick s).arDone = s.arDone := rfl
@[simp] theorem tick_harts (s : State) : (tick s).harts = s.harts := rfl
@[simp] theorem tick_hot (s : State) : (tick s).hot = s.hot := rfl
@[simp] theorem tick_scrub (s : State) : (tick s).scrub = s.scrub := rfl
@[simp] theorem tick_banks (s : State) : (tick s).banks = s.banks := rfl
@[simp] theorem tick_dcache (s : State) : (tick s).dcache = s.dcache := rfl
@[simp] theorem tick_power (s : State) : (tick s).power = s.power := rfl
@[simp] theorem tick_straitUp (s : State) : (tick s).straitUp = s.straitUp := rfl
@[simp] theorem tick_ethUp (s : State) : (tick s).ethUp = s.ethUp := rfl
@[simp] theorem tick_retrain (s : State) : (tick s).retrain = s.retrain := rfl
@[simp] theorem tick_msix (s : State) : (tick s).msix = s.msix := rfl
@[simp] theorem tick_hdmRead (s : State) : (tick s).hdmRead = s.hdmRead := rfl
@[simp] theorem tick_sram (s : State) : (tick s).sram = s.sram := rfl
@[simp] theorem tick_stale (s : State) : (tick s).stale = s.stale := rfl
@[simp] theorem tick_kvPages (s : State) : (tick s).kvPages = s.kvPages := rfl
@[simp] theorem tick_shadow (s : State) : (tick s).shadow = s.shadow := rfl
@[simp] theorem tick_migrations (s : State) : (tick s).migrations = s.migrations := rfl
@[simp] theorem tick_moved (s : State) : (tick s).moved = s.moved := rfl
@[simp] theorem tick_drives (s : State) : (tick s).drives = s.drives := rfl
@[simp] theorem tick_driveCache (s : State) : (tick s).driveCache = s.driveCache := rfl
@[simp] theorem tick_driveWritten (s : State) : (tick s).driveWritten = s.driveWritten := rfl
@[simp] theorem tick_readySeq (s : State) : (tick s).readySeq = s.readySeq := rfl
@[simp] theorem tick_lastLd (s : State) : (tick s).lastLd = s.lastLd := rfl
@[simp] theorem tick_lastCore (s : State) : (tick s).lastCore = s.lastCore := rfl
@[simp] theorem tick_unfit (s : State) : (tick s).unfit = s.unfit := rfl
@[simp] theorem tick_nextId (s : State) : (tick s).nextId = s.nextId := rfl
@[simp] theorem tick_agenda (s : State) : (tick s).agenda = s.agenda := rfl
@[simp] theorem tick_choices (s : State) : (tick s).choices = s.choices := rfl
@[simp] theorem tick_issuing (s : State) : (tick s).issuing = s.issuing := rfl

@[simp] theorem tick_frees (s : State) : (tick s).frees = s.frees + 1 := rfl

@[simp] theorem setV_id (g : Group) (n l : Nat) (x : Word) : (setV g n l x).id = g.id := rfl
@[simp] theorem setV_rung (g : Group) (n l : Nat) (x : Word) : (setV g n l x).rung = g.rung := rfl
@[simp] theorem setV_budget (g : Group) (n l : Nat) (x : Word) : (setV g n l x).budget = g.budget := rfl
@[simp] theorem setV_vbase (g : Group) (n l : Nat) (x : Word) : (setV g n l x).vbase = g.vbase := rfl
@[simp] theorem setV_depth (g : Group) (n l : Nat) (x : Word) : (setV g n l x).depth = g.depth := rfl
@[simp] theorem setV_bank (g : Group) (n l : Nat) (x : Word) : (setV g n l x).bank = g.bank := rfl
@[simp] theorem setV_frontier (g : Group) (n l : Nat) (x : Word) : (setV g n l x).frontier = g.frontier := rfl
@[simp] theorem setV_parts (g : Group) (n l : Nat) (x : Word) : (setV g n l x).parts = g.parts := rfl
@[simp] theorem setV_skipped (g : Group) (n l : Nat) (x : Word) : (setV g n l x).skipped = g.skipped := rfl
@[simp] theorem setV_sp (g : Group) (n l : Nat) (x : Word) : (setV g n l x).sp = g.sp := rfl
@[simp] theorem setV_frames (g : Group) (n l : Nat) (x : Word) : (setV g n l x).frames = g.frames := rfl
@[simp] theorem setV_slimit (g : Group) (n l : Nat) (x : Word) : (setV g n l x).slimit = g.slimit := rfl
@[simp] theorem setV_stkUnits (g : Group) (n l : Nat) (x : Word) : (setV g n l x).stkUnits = g.stkUnits := rfl
@[simp] theorem setV_stk (g : Group) (n l : Nat) (x : Word) : (setV g n l x).stk = g.stk := rfl
@[simp] theorem setV_stkLo (g : Group) (n l : Nat) (x : Word) : (setV g n l x).stkLo = g.stkLo := rfl
@[simp] theorem setV_sr (g : Group) (n l : Nat) (x : Word) : (setV g n l x).sr = g.sr := rfl
@[simp] theorem setV_octets (g : Group) (n l : Nat) (x : Word) : (setV g n l x).octets = g.octets := rfl
@[simp] theorem setV_outst (g : Group) (n l : Nat) (x : Word) : (setV g n l x).outst = g.outst := rfl
@[simp] theorem setV_swPark (g : Group) (n l : Nat) (x : Word) : (setV g n l x).swPark = g.swPark := rfl
@[simp] theorem setV_delay (g : Group) (n l : Nat) (x : Word) : (setV g n l x).delay = g.delay := rfl
@[simp] theorem setV_last (g : Group) (n l : Nat) (x : Word) : (setV g n l x).last = g.last := rfl
@[simp] theorem setV_stamp (g : Group) (n l : Nat) (x : Word) : (setV g n l x).stamp = g.stamp := rfl
@[simp] theorem setV_pin (g : Group) (n l : Nat) (x : Word) : (setV g n l x).pin = g.pin := rfl
@[simp] theorem setV_handler (g : Group) (n l : Nat) (x : Word) : (setV g n l x).handler = g.handler := rfl
@[simp] theorem setV_pendTrap (g : Group) (n l : Nat) (x : Word) : (setV g n l x).pendTrap = g.pendTrap := rfl
@[simp] theorem setV_batchNo (g : Group) (n l : Nat) (x : Word) : (setV g n l x).batchNo = g.batchNo := rfl
@[simp] theorem setV_batches (g : Group) (n l : Nat) (x : Word) : (setV g n l x).batches = g.batches := rfl
@[simp] theorem setV_unsealed (g : Group) (n l : Nat) (x : Word) : (setV g n l x).unsealed = g.unsealed := rfl
@[simp] theorem setV_reported (g : Group) (n l : Nat) (x : Word) : (setV g n l x).reported = g.reported := rfl
@[simp] theorem setV_items (g : Group) (n l : Nat) (x : Word) : (setV g n l x).items = g.items := rfl
@[simp] theorem setV_toSafe (g : Group) (n l : Nat) (x : Word) : (setV g n l x).toSafe = g.toSafe := rfl
@[simp] theorem setV_saved (g : Group) (n l : Nat) (x : Word) : (setV g n l x).saved = g.saved := rfl
@[simp] theorem setV_full (g : Group) (n l : Nat) (x : Word) : (setV g n l x).full = g.full := rfl
@[simp] theorem setV_live (g : Group) (n l : Nat) (x : Word) : (setV g n l x).live = g.live := rfl
@[simp] theorem setV_held (g : Group) (n l : Nat) (x : Word) : (setV g n l x).held = g.held := rfl
@[simp] theorem setV_emptySlot (g : Group) (n l : Nat) (x : Word) : (setV g n l x).emptySlot = g.emptySlot := rfl
@[simp] theorem setV_ords (g : Group) (n l : Nat) (x : Word) : (setV g n l x).ords = g.ords := rfl
@[simp] theorem setV_polled (g : Group) (n l : Nat) (x : Word) : (setV g n l x).polled = g.polled := rfl
@[simp] theorem setV_ahead (g : Group) (n l : Nat) (x : Word) : (setV g n l x).ahead = g.ahead := rfl

end Sys2Proof.Machine
end

