-- ==== Sys2Proof/Laws/Store.lean ====
section
/-! SUPPORT. Laws of sparse stores: a write is read back, leaves every other key alone, and keeps the canonical form. -/

namespace Sys2Proof.Machine

theorem stGet_put_same {n : Nat} (s : Store n) (a : Nat) (x : BitVec n) : stGet (stPut s a x) a = x := by
  induction s with
  | nil => simp [stPut, stGet]
  | cons y r ih =>
    obtain ⟨k, v⟩ := y
    simp only [stPut]
    split
    · simp [stGet]
    · split
      · simp [stGet]
      · rename_i h; simp [stGet, h, ih]

theorem stGet_put_other {n : Nat} (s : Store n) (a b : Nat) (x : BitVec n) (h : b ≠ a) : stGet (stPut s a x) b = stGet s b := by
  induction s with
  | nil => simp [stPut, stGet, h]
  | cons y r ih =>
    obtain ⟨k, v⟩ := y
    simp only [stPut]
    split
    · simp [stGet, h]
    · split
      · rename_i hk; subst hk; simp [stGet, h]
      · simp only [stGet, ih]

theorem stGet_remove_same {n : Nat} (s : Store n) (a : Nat) : stGet (s.filter fun kv => kv.1 != a) a = 0 := by
  induction s with
  | nil => rfl
  | cons y r ih =>
    obtain ⟨k, v⟩ := y
    simp only [List.filter_cons]
    by_cases hk : k = a
    · simp [hk, ih]
    · simp [hk, stGet, Ne.symm hk, ih]

theorem stGet_remove_other {n : Nat} (s : Store n) (a b : Nat) (h : b ≠ a) :
    stGet (s.filter fun kv => kv.1 != a) b = stGet s b := by
  induction s with
  | nil => rfl
  | cons y r ih =>
    obtain ⟨k, v⟩ := y
    simp only [List.filter_cons]
    by_cases hk : k = a
    · subst hk; simp [stGet, h, ih]
    · simp [hk, stGet, ih]

/-- A write is read back. -/
@[simp] theorem stGet_set_same {n : Nat} (s : Store n) (a : Nat) (x : BitVec n) : stGet (stSet s a x) a = x := by
  unfold stSet
  split
  · rename_i h; rw [stGet_remove_same, h]
  · exact stGet_put_same s a x

/-- A write leaves every other key alone. -/
theorem stGet_set_other {n : Nat} (s : Store n) (a b : Nat) (x : BitVec n) (h : b ≠ a) : stGet (stSet s a x) b = stGet s b := by
  unfold stSet
  split
  · exact stGet_remove_other s a b h
  · exact stGet_put_other s a b x h

/-- What a key holds after a write. -/
theorem stGet_set {n : Nat} (s : Store n) (a b : Nat) (x : BitVec n) :
    stGet (stSet s a x) b = if b = a then x else stGet s b := by
  split
  · rename_i h; rw [h, stGet_set_same]
  · rename_i h; exact stGet_set_other s a b x h

theorem stAbove_mono {n : Nat} (s : Store n) (b c : Nat) (h : stAbove c s = true) (hb : b ≤ c) : stAbove b s = true := by
  induction s with
  | nil => rfl
  | cons x r ih =>
    obtain ⟨k, v⟩ := x
    simp only [stAbove, Bool.and_eq_true, decide_eq_true_eq] at h ⊢
    exact ⟨by omega, ih h.2⟩

theorem stAbove_put {n : Nat} (s : Store n) (b a : Nat) (x : BitVec n) (h : stAbove b s = true) (hb : b < a) :
    stAbove b (stPut s a x) = true := by
  induction s with
  | nil => simp [stPut, stAbove, hb]
  | cons y r ih =>
    obtain ⟨k, v⟩ := y
    simp only [stAbove, Bool.and_eq_true, decide_eq_true_eq] at h
    simp only [stPut]
    split
    · simp [stAbove, h, hb]
    · split
      · simp [stAbove, h, hb]
      · simp [stAbove, h.1, ih h.2]

theorem stWf_put {n : Nat} (s : Store n) (a : Nat) (x : BitVec n) (h : stWf s = true) (hx : x ≠ 0) : stWf (stPut s a x) = true := by
  induction s with
  | nil => simpa [stPut, stWf, stAbove] using hx
  | cons y r ih =>
    obtain ⟨k, v⟩ := y
    simp only [stWf, Bool.and_eq_true] at h
    simp only [stPut]
    split
    · rename_i h1
      have : stAbove a r = true := stAbove_mono r a k h.1.2 (by omega)
      simp_all [stWf, stAbove]
    · split
      · simp_all [stWf]
      · have := stAbove_put r k a x h.1.2 (by omega)
        simp_all [stWf]

theorem stAbove_filter {n : Nat} (p : Nat × BitVec n → Bool) (b : Nat) (s : Store n) (h : stAbove b s = true) :
    stAbove b (s.filter p) = true := by
  induction s with
  | nil => rfl
  | cons x r ih =>
    obtain ⟨k, v⟩ := x
    simp only [stAbove, Bool.and_eq_true, decide_eq_true_eq] at h
    simp only [List.filter_cons]
    split
    · simp [stAbove, h.1, ih h.2]
    · exact ih h.2

/-- Dropping entries keeps the canonical form. -/
theorem stWf_filter {n : Nat} (p : Nat × BitVec n → Bool) (s : Store n) (h : stWf s = true) : stWf (s.filter p) = true := by
  induction s with
  | nil => rfl
  | cons x r ih =>
    obtain ⟨k, v⟩ := x
    simp only [stWf, Bool.and_eq_true] at h
    simp only [List.filter_cons]
    split
    · simp only [stWf, Bool.and_eq_true]
      exact ⟨⟨h.1.1, stAbove_filter p k r h.1.2⟩, ih h.2⟩
    · exact ih h.2

/-- A write keeps the canonical form. -/
theorem stWf_set {n : Nat} (s : Store n) (a : Nat) (x : BitVec n) (h : stWf s = true) : stWf (stSet s a x) = true := by
  unfold stSet
  split
  · exact stWf_filter _ s h
  · rename_i hx; exact stWf_put s a x h hx

/-- Several writes keep the canonical form. -/
theorem stWf_setAll {n : Nat} (kvs : List (Nat × BitVec n)) (s : Store n) (h : stWf s = true) : stWf (stSetAll s kvs) = true := by
  unfold stSetAll
  induction kvs generalizing s with
  | nil => exact h
  | cons x r ih => exact ih _ (stWf_set s x.1 x.2 h)

/-- Clearing a range keeps the canonical form. -/
theorem stWf_clear {n : Nat} (s : Store n) (lo hi : Nat) (h : stWf s = true) : stWf (stClear s lo hi) = true :=
  stWf_filter _ s h

/-- Writes at other keys leave a key alone. -/
theorem stGet_setAll_other {n : Nat} (kvs : List (Nat × BitVec n)) (s : Store n) (a : Nat) (ha : ∀ kv ∈ kvs, kv.1 ≠ a) :
    stGet (stSetAll s kvs) a = stGet s a := by
  unfold stSetAll
  induction kvs generalizing s with
  | nil => rfl
  | cons x r ih =>
    rw [List.foldl_cons, ih (stSet s x.1 x.2) (fun kv hkv => ha kv (List.mem_cons_of_mem _ hkv))]
    exact stGet_set_other s x.1 a x.2 (Ne.symm (ha x List.mem_cons_self))

end Sys2Proof.Machine
end

