-- ==== Sys2Proof/Laws/Regs.lean ====
section
/-! SUPPORT. Laws of the register files, of the records of teams and groups, and of the destination of an instruction. -/

namespace Sys2Proof.Machine

/-! Groups and teams. -/

/-- Looking up what an update by key has changed. -/
theorem find_map_same {α κ : Type} [DecidableEq κ] (l : List α) (key : α → κ) (r : κ) (f : α → α)
    (hf : ∀ a, key a = r → key (f a) = r) :
    (l.map fun a => if key a == r then f a else a).find? (fun a => key a == r) = (l.find? fun a => key a == r).map f := by
  induction l with
  | nil => rfl
  | cons a l ih =>
    simp only [List.map_cons, List.find?_cons]
    by_cases h : key a = r
    · have h' := hf a h
      simp [h, h']
    · simp only [beq_eq_false_iff_ne.2 h, Bool.false_eq_true, if_false]
      exact ih

/-- Looking up under another key. -/
theorem find_map_other {α κ : Type} [DecidableEq κ] (l : List α) (key : α → κ) (r q : κ) (f : α → α)
    (hf : ∀ a, key a = r → key (f a) = r) (hq : q ≠ r) :
    (l.map fun a => if key a == r then f a else a).find? (fun a => key a == q) = l.find? fun a => key a == q := by
  induction l with
  | nil => rfl
  | cons a l ih =>
    simp only [List.map_cons, List.find?_cons]
    by_cases h : key a = r
    · have h1 : key (f a) ≠ q := by rw [hf a h]; exact Ne.symm hq
      have h2 : key a ≠ q := by rw [h]; exact Ne.symm hq
      simp only [h, beq_self_eq_true, if_true, beq_eq_false_iff_ne.2 h1, beq_eq_false_iff_ne.2 (Ne.symm hq)]
      exact ih
    · simp only [beq_eq_false_iff_ne.2 h, Bool.false_eq_true, if_false]
      rw [ih]

theorem teamOf_modTeam_same (s : State) (r : TeamRef) (f : Team → Team) (hf : ∀ t, t.r = r → (f t).r = r) :
    teamOf (modTeam s r f) r = (teamOf s r).map f := find_map_same s.teams Team.r r f hf

theorem teamOf_modTeam_other (s : State) (r q : TeamRef) (f : Team → Team) (hf : ∀ t, t.r = r → (f t).r = r) (h : q ≠ r) :
    teamOf (modTeam s r f) q = teamOf s q := find_map_other s.teams Team.r r q f hf h

@[simp] theorem Team.modGroup_r (t : Team) (n : Nat) (f : Group → Group) : (t.modGroup n f).r = t.r := rfl

theorem groupIn_modGroup_same (t : Team) (n : Nat) (f : Group → Group) (hf : ∀ g, g.id = n → (f g).id = n) :
    groupIn (t.modGroup n f) n = (groupIn t n).map f := find_map_same t.groups Group.id n f hf

theorem groupIn_modGroup_other (t : Team) (n m : Nat) (f : Group → Group) (hf : ∀ g, g.id = n → (f g).id = n) (h : m ≠ n) :
    groupIn (t.modGroup n f) m = groupIn t m := find_map_other t.groups Group.id n m f hf h

theorem teamOf_modGroup_same (s : State) (r : GroupRef) (f : Group → Group) :
    teamOf (modGroup s r f) r.team = (teamOf s r.team).map fun t => t.modGroup r.g f :=
  teamOf_modTeam_same s r.team _ fun _ h => h

theorem teamOf_modGroup_other (s : State) (r : GroupRef) (q : TeamRef) (f : Group → Group) (h : q ≠ r.team) :
    teamOf (modGroup s r f) q = teamOf s q := teamOf_modTeam_other s r.team q _ (fun _ h => h) h

theorem groupOf_modGroup_same (s : State) (r : GroupRef) (f : Group → Group) (hf : ∀ g, g.id = r.g → (f g).id = r.g) :
    groupOf (modGroup s r f) r = (groupOf s r).map f := by
  unfold groupOf
  rw [teamOf_modGroup_same]
  cases teamOf s r.team with
  | none => rfl
  | some t => simpa using groupIn_modGroup_same t r.g f hf

/-- Every other group is as it was. -/
theorem groupOf_modGroup_other (s : State) (r q : GroupRef) (f : Group → Group) (hf : ∀ g, g.id = r.g → (f g).id = r.g)
    (h : q ≠ r) : groupOf (modGroup s r f) q = groupOf s q := by
  unfold groupOf
  by_cases ht : q.team = r.team
  · have hg : q.g ≠ r.g := by
      intro hg
      exact h (by cases q; cases r; simp_all)
    rw [ht, teamOf_modGroup_same]
    cases teamOf s r.team with
    | none => rfl
    | some t => simpa using groupIn_modGroup_other t r.g q.g f hf hg
  · rw [teamOf_modGroup_other s r q.team f ht]

theorem groupOf_id (s : State) (r : GroupRef) (g : Group) (h : groupOf s r = some g) : g.id = r.g := by
  unfold groupOf groupIn at h
  cases ht : teamOf s r.team with
  | none => simp [ht] at h
  | some t =>
    simp only [ht, Option.bind_some] at h
    have := List.find?_some h
    simpa using this

theorem groupOf_putGroup (s : State) (r : GroupRef) (g g' : Group) (h : groupOf s r = some g) (hg : g'.id = g.id) :
    groupOf (putGroup s r g') r = some g' := by
  unfold putGroup
  rw [groupOf_modGroup_same s r (fun _ => g') (fun _ _ => by rw [hg]; exact groupOf_id s r g h), h]
  rfl

/-! Lanes of a mask. -/

theorem mem_lanesOf (m : LaneMask) (l : Nat) : l ∈ lanesOf m ↔ l < 32 ∧ m.getLsbD l = true := by
  simp [lanesOf]

theorem lanesOf_nodup (m : LaneMask) : (lanesOf m).Nodup := List.Nodup.filter _ List.nodup_range

theorem Ctx.lanes_lt (c : Ctx) (l : Nat) (h : l ∈ c.lanes) : l < 32 := ((mem_lanesOf c.act l).1 h).1

theorem Ctx.any_of_lane (c : Ctx) (l : Nat) (h : l ∈ c.lanes) : c.any = true := by
  unfold Ctx.any
  have := ((mem_lanesOf c.act l).1 h).2
  simp only [bne_iff_ne, ne_eq]
  intro h0
  rw [h0] at this
  simp at this

theorem low_mem (m : LaneMask) (l : Nat) (h : l ∈ lanesOf m) : lowest m ∈ lanesOf m := by
  unfold lowest
  obtain ⟨hl, hm⟩ := (mem_lanesOf m l).1 h
  cases hf : (List.range 32).find? (fun l => m.getLsbD l) with
  | none =>
    have := List.find?_eq_none.1 hf l (List.mem_range.2 hl)
    simp [hm] at this
  | some k =>
    have h1 := List.find?_some hf
    have h2 := List.mem_of_find?_eq_some hf
    simpa [mem_lanesOf] using ⟨List.mem_range.1 h2, h1⟩

theorem Ctx.low_mem (c : Ctx) (l : Nat) (h : l ∈ c.lanes) : c.low ∈ c.lanes := Machine.low_mem c.act l h

/-! Register files. -/

theorem getV_setV_same (g : Group) (n l : Nat) (x : Word) : getV (setV g n l x) n l = x := stGet_set_same _ _ _

theorem getV_setV_other (g : Group) (n l m k : Nat) (x : Word) (h : 32 * m + k ≠ 32 * n + l) :
    getV (setV g n l x) m k = getV g m k := stGet_set_other _ _ _ _ h

theorem getV_setV (g : Group) (n l m k : Nat) (x : Word) (hl : l < 32) (hk : k < 32) :
    getV (setV g n l x) m k = if m = n ∧ k = l then x else getV g m k := by
  unfold getV setV
  rw [stGet_set]
  by_cases h : m = n ∧ k = l
  · simp [h]
  · rw [if_neg h, if_neg (by omega)]

@[simp] theorem bankOf_setV (g : Group) (n l : Nat) (x : Word) : bankOf (setV g n l x) = bankOf g := rfl
@[simp] theorem frontOf_setV (g : Group) (n l : Nat) (x : Word) : frontOf (setV g n l x) = frontOf g := rfl
@[simp] theorem getG_setV (g : Group) (n l m : Nat) (x : Word) : getG (setV g n l x) m = getG g m := rfl
@[simp] theorem getP_setV (g : Group) (n l m k : Nat) (x : Word) : getP (setV g n l x) m k = getP g m k := rfl
@[simp] theorem getM_setV (g : Group) (n l m : Nat) (x : Word) : getM (setV g n l x) m = getM g m := rfl

@[simp] theorem bankOf_setBank (g : Group) (b : Bank) : bankOf (setBank g b) = b := by
  unfold bankOf setBank
  cases g.handler <;> rfl

@[simp] theorem frontOf_setBank (g : Group) (b : Bank) : frontOf (setBank g b) = frontOf g := by
  unfold frontOf setBank
  cases g.handler <;> simp

@[simp] theorem id_setBank (g : Group) (b : Bank) : (setBank g b).id = g.id := by unfold setBank; split <;> rfl
@[simp] theorem v_setBank (g : Group) (b : Bank) : (setBank g b).v = g.v := by unfold setBank; split <;> rfl
@[simp] theorem getV_setBank (g : Group) (b : Bank) (n l : Nat) : getV (setBank g b) n l = getV g n l := by simp [getV]

theorem getG_setG (g : Group) (n m : Nat) (x : DWord) : getG (setG g n x) m = if m = n ∧ n ≠ 0 then x else getG g m := by
  unfold getG setG
  by_cases hn : n = 0
  · simp [hn]
  · by_cases hm : m = 0
    · simp [hm, hn, Ne.symm hn]
    · by_cases h : m = n
      · simp [hn, h]
      · simp [hn, hm, h, stGet_set]

theorem getP_setP (g : Group) (n m l k : Nat) (b : Bool) (hl : l < 32) (hk : k < 32) :
    getP (setP g n l b) m k = if m = n ∧ k = l ∧ n ≠ 7 then b else getP g m k := by
  unfold getP setP
  by_cases hn : n = 7
  · simp [hn]
  · by_cases h : m = n
    · subst h
      simp only [hn, if_false, bankOf_setBank, stGet_set_same, ne_eq, not_false_eq_true, and_true, true_and]
      unfold setBit
      by_cases hkl : k = l
      · subst hkl
        cases b <;> simp [hn, hk]
      · cases b <;> simp [hkl, hk]
    · simp [hn, h, stGet_set]

theorem getM_setM (g : Group) (n m : Nat) (x : DWord) : getM (setM g n x) m = if m = n then x else getM g m := by
  unfold getM setM
  simp [stGet_set]

@[simp] theorem getV_setG (g : Group) (n m l : Nat) (x : DWord) : getV (setG g n x) m l = getV g m l := by
  unfold setG; split <;> simp
@[simp] theorem getV_setP (g : Group) (n m l k : Nat) (b : Bool) : getV (setP g n k b) m l = getV g m l := by
  unfold setP; split <;> simp
@[simp] theorem getV_setM (g : Group) (n m l : Nat) (x : DWord) : getV (setM g n x) m l = getV g m l := by
  unfold setM; simp
@[simp] theorem id_setG (g : Group) (n : Nat) (x : DWord) : (setG g n x).id = g.id := by unfold setG; split <;> simp
@[simp] theorem id_setP (g : Group) (n k : Nat) (b : Bool) : (setP g n k b).id = g.id := by unfold setP; split <;> simp
@[simp] theorem id_setM (g : Group) (n : Nat) (x : DWord) : (setM g n x).id = g.id := by unfold setM; simp
@[simp] theorem frontOf_setG (g : Group) (n : Nat) (x : DWord) : frontOf (setG g n x) = frontOf g := by
  unfold setG; split <;> simp
@[simp] theorem frontOf_setP (g : Group) (n k : Nat) (b : Bool) : frontOf (setP g n k b) = frontOf g := by
  unfold setP; split <;> simp
@[simp] theorem frontOf_setM (g : Group) (n : Nat) (x : DWord) : frontOf (setM g n x) = frontOf g := by unfold setM; simp

/-! A destination. -/

@[simp] theorem id_setDst (g : Group) (o : Opnd) (w l : Nat) (x : DWord) : (setDst g o w l x).id = g.id := by
  unfold setDst
  cases o with
  | v n => simp only; split <;> simp
  | g n => simp
  | im _ => rfl
  | sp sel idx => simp only; split <;> [simp; (split <;> simp)]

@[simp] theorem frontOf_setDst (g : Group) (o : Opnd) (w l : Nat) (x : DWord) : frontOf (setDst g o w l x) = frontOf g := by
  unfold setDst
  cases o with
  | v n => simp only; split <;> simp
  | g n => simp
  | im _ => rfl
  | sp sel idx => simp only; split <;> [simp; (split <;> simp)]

/-- A special operand is no vector register. -/
theorem sp_notV (sel idx : BitVec 4) : (Opnd.sp sel idx).isV = false := by revert sel idx; decide

/-- A special operand is no uniform register. -/
theorem sp_notG (sel idx : BitVec 4) : (Opnd.sp sel idx).isG = false := by revert sel idx; decide

/-- A vector register written in a lane and read in that lane. -/
theorem srcD_setDst_v (g : Group) (n : BitVec 8) (w l : Nat) (x : DWord) (hl : l < 32) :
    srcD (setDst g (.v n) w l x) (.v n) w l = if w < 2 then (x.setWidth 32).setWidth 64 else x := by
  unfold srcD setDst
  by_cases hw : 2 ≤ w
  · simp only [hw, if_true, if_neg (Nat.not_lt.2 hw)]
    rw [getV_setV_same, getV_setV _ _ _ _ _ _ hl hl, if_neg (by omega), getV_setV_same]
    apply BitVec.eq_of_getLsbD_eq
    intro i hi
    simp only [BitVec.getLsbD_append, BitVec.getLsbD_extractLsb', BitVec.getLsbD_setWidth]
    by_cases h : i < 32
    · simp [h]
    · rw [show 32 + (i - 32) = i by omega]
      simp [h, show i - 32 < 32 by omega]
  · simp [hw, getV_setV_same, show w < 2 by omega]

/-- A register written in a lane and read in that lane. -/
theorem srcD_setDst_same (g : Group) (o : Opnd) (w l : Nat) (x : DWord) (hl : l < 32) (ho : o.isV = true ∨ o.isG = true) :
    srcD (setDst g o w l x) o w l = seen o w x := by
  cases o with
  | v n => rw [srcD_setDst_v g n w l x hl]; simp [seen, discards, Opnd.isV, Opnd.cls]
  | g n =>
    simp only [srcD, setDst, seen, discards, Opnd.isV, Opnd.cls]
    rw [getG_setG]
    by_cases hn : n = 0
    · simp [hn, getG]
    · have : n.toNat ≠ 0 := fun h => hn (by apply BitVec.eq_of_toNat_eq; simpa using h)
      have hn' : (n == 0#6) = false := beq_eq_false_iff_ne.2 hn
      simp [this, hn']
  | im _ => simp [Opnd.isV, Opnd.isG, Opnd.cls] at ho
  | sp sel idx => rcases ho with ho | ho <;> simp [sp_notV, sp_notG] at ho

/-- A vector register written in another lane. -/
theorem srcD_setDst_lane (g : Group) (o : Opnd) (w l k : Nat) (x : DWord) (hl : l < 32) (hk : k < 32) (h : k ≠ l)
    (ho : o.isV = true) : srcD (setDst g o w l x) o w k = srcD g o w k := by
  cases o with
  | v n =>
    unfold srcD setDst
    by_cases hw : 2 ≤ w
    · simp only [hw, if_true]
      rw [getV_setV _ _ _ _ _ _ hl hk, getV_setV _ _ _ _ _ _ hl hk, getV_setV _ _ _ _ _ _ hl hk,
        getV_setV _ _ _ _ _ _ hl hk]
      simp [h]
    · simp only [hw, if_false]
      rw [getV_setV _ _ _ _ _ _ hl hk]
      simp [h]
  | g n => simp [Opnd.isV, Opnd.cls] at ho
  | im _ => simp [Opnd.isV, Opnd.cls] at ho
  | sp sel idx => simp [sp_notV] at ho

end Sys2Proof.Machine
end

