-- ==== Sys2Proof/Laws/Issue.lean ====
section
/-! SUPPORT. Laws of the shared form of an instruction: the context it runs in, what its end does to the group's frontier
and registers, and what a destination holds once every active lane has been served. -/

namespace Sys2Proof.Machine

/-- What a context says of its state. -/
theorem ctxOf_spec {s : State} {h : Hdr} {c : Ctx} (hc : ctxOf s h = some c) :
    c.s = s ∧ s.issuing = some c.u ∧ teamOf s c.r.team = some c.t ∧ groupOf s c.r = some c.g ∧
      gridOf s c.ld c.r.team.grid = some c.gr ∧ c.act = activeMask c.g h c.u.mask := by
  unfold ctxOf at hc
  split at hc
  · cases hc
  · rename_i u hu
    split at hc
    · rename_i t g gr ht hg hgr
      cases hc
      exact ⟨rfl, hu, ht, hg, hgr, rfl⟩
    · cases hc

/-- An instruction of the issuing entry runs in its context. -/
theorem withIssue_of {s : State} {h : Hdr} {c : Ctx} (hc : ctxOf s h = some c) (sw : Bool) (k : Ctx → Res) :
    withIssue h sw s k = .next (complete c h sw (k c)) := by
  unfold ctxOf at hc
  unfold withIssue
  split at hc
  · cases hc
  · rename_i u hu
    split at hc
    · rename_i t g gr ht hg hgr
      cases hc
      simp only [hu, ht, hg, hgr]
    · cases hc

@[simp] theorem frontOf_setFront (g : Group) (f : List Entry) : frontOf (setFront g f) = f := by
  unfold frontOf setFront
  cases g.handler <;> rfl

@[simp] theorem bankOf_setFront (g : Group) (f : List Entry) : bankOf (setFront g f) = bankOf g := by
  unfold bankOf setFront
  cases g.handler <;> rfl

@[simp] theorem v_setFront (g : Group) (f : List Entry) : (setFront g f).v = g.v := by unfold setFront; split <;> rfl
@[simp] theorem id_setFront (g : Group) (f : List Entry) : (setFront g f).id = g.id := by unfold setFront; split <;> rfl

/-! The end of an issue keeps every register. -/

section retire
variable (c : Ctx) (h : Hdr) (sw : Bool) (f : List Entry) (outs : List Outst) (dl : Option Nat) (g : Group)

@[simp] theorem frontOf_retire : frontOf (retire c h sw f outs dl g) = f := frontOf_setFront g f
@[simp] theorem bankOf_retire : bankOf (retire c h sw f outs dl g) = bankOf g := bankOf_setFront g f
@[simp] theorem v_retire : (retire c h sw f outs dl g).v = g.v := v_setFront g f
@[simp] theorem id_retire : (retire c h sw f outs dl g).id = g.id := id_setFront g f
@[simp] theorem getV_retire (n l : Nat) : getV (retire c h sw f outs dl g) n l = getV g n l := by unfold getV; rw [v_retire]
@[simp] theorem getG_retire (n : Nat) : getG (retire c h sw f outs dl g) n = getG g n := by unfold getG; rw [bankOf_retire]
@[simp] theorem getP_retire (n l : Nat) : getP (retire c h sw f outs dl g) n l = getP g n l := by
  unfold getP; rw [bankOf_retire]
@[simp] theorem getM_retire (n : Nat) : getM (retire c h sw f outs dl g) n = getM g n := by unfold getM; rw [bankOf_retire]

@[simp] theorem srcD_retire (o : Opnd) (w l : Nat) : srcD (retire c h sw f outs dl g) o w l = srcD g o w l := by
  unfold srcD; cases o <;> simp

end retire

@[simp] theorem groupOf_noIssue (s : State) (r : GroupRef) : groupOf { s with issuing := none } r = groupOf s r := rfl
@[simp] theorem teamOf_noIssue (s : State) (r : TeamRef) : teamOf { s with issuing := none } r = teamOf s r := rfl
@[simp] theorem groupOf_tick (s : State) (r : GroupRef) : groupOf (tick s) r = groupOf s r := rfl
@[simp] theorem teamOf_tick (s : State) (r : TeamRef) : teamOf (tick s) r = teamOf s r := rfl

/-- The state in which an effect that is done leaves the machine. -/
abbrev afterDone (c : Ctx) (h : Hdr) (sw : Bool) (outs : List Outst) (s' : State) : State :=
  { (modGroup s' c.r fun g => retire c h sw (advance c (frontOf g) .next) outs none g) with issuing := none }

theorem complete_done (c : Ctx) (h : Hdr) (sw : Bool) (outs : List Outst) (s' : State) :
    complete c h sw (done s' outs) = afterDone c h sw outs s' := rfl

/-- The group after an effect that is done. -/
theorem groupOf_afterDone (c : Ctx) (h : Hdr) (sw : Bool) (outs : List Outst) (s' : State) (g' : Group)
    (hg : groupOf s' c.r = some g') :
    groupOf (afterDone c h sw outs s') c.r = some (retire c h sw (movedFront c (frontOf g')) outs none g') := by
  show groupOf (modGroup s' c.r _) c.r = _
  rw [groupOf_modGroup_same _ _ _ (fun g hg => by rw [id_retire]; exact hg), hg]
  rfl

/-- An effect that is done: the lanes move on, and what holds of the state and the group after it holds. -/
theorem goesOn_done (c : Ctx) (h : Hdr) (sw : Bool) (outs : List Outst) (s' : State) (g' : Group)
    (hg : groupOf s' c.r = some g') (hf : frontOf g' = frontOf c.g) {P : State → Group → Prop}
    (hP : P (afterDone c h sw outs s') (retire c h sw (movedFront c (frontOf g')) outs none g')) :
    GoesOn c (.next (complete c h sw (done s' outs))) P :=
  ⟨_, _, ⟨rfl, rfl, groupOf_afterDone c h sw outs s' g' hg⟩, by rw [frontOf_retire, hf], hP⟩

/-! A destination served lane by lane. -/

/-- The frontier and the name of the group stay while lanes are served. -/
theorem runLanes_keeps (c : Ctx) (d : Opnd) (f : Group → Nat → Group) {α : Type} (q : Group → α)
    (hf : ∀ g l, q (f g l) = q g) : q (runLanes c d f) = q c.g := by
  have hfold : ∀ (ls : List Nat) (g : Group), q (ls.foldl f g) = q g := by
    intro ls
    induction ls with
    | nil => intro g; rfl
    | cons a r ih => intro g; rw [List.foldl_cons, ih, hf]
  unfold runLanes
  split
  · exact hfold _ _
  · split
    · exact hf _ _
    · rfl

/-- A fold over lanes, each of which sets what is read in it and leaves what is read in the others. -/
theorem foldl_lane {α : Type} (ls : List Nat) (hn : ls.Nodup) (f : Group → Nat → Group) (q : Group → Nat → α) (v : Nat → α)
    (hsame : ∀ g l, l ∈ ls → q (f g l) l = v l) (hother : ∀ g l k, l ∈ ls → k ∈ ls → k ≠ l → q (f g l) k = q g k) (g : Group)
    (l : Nat) (hl : l ∈ ls) : q (ls.foldl f g) l = v l := by
  have hkeep : ∀ (rs : List Nat), (∀ k ∈ rs, k ∈ ls ∧ k ≠ l) → ∀ g, q (rs.foldl f g) l = q g l := by
    intro rs
    induction rs with
    | nil => intro _ g; rfl
    | cons a r ih =>
      intro h g
      rw [List.foldl_cons, ih (fun k hk => h k (List.mem_cons_of_mem _ hk))]
      have ha := h a (List.mem_cons_self ..)
      exact hother g a l ha.1 hl (Ne.symm ha.2)
  obtain ⟨as, bs, rfl⟩ := List.append_of_mem hl
  rw [List.foldl_append, List.foldl_cons, hkeep bs]
  · exact hsame _ _ (by simp)
  · intro k hk
    refine ⟨by simp [hk], ?_⟩
    rw [List.nodup_append] at hn
    have := (List.nodup_cons.1 hn.2.1).1
    intro hkl
    exact this (hkl ▸ hk)

/-- The same where what is set in a lane also depends on what was read in it before. -/
theorem foldl_lane_old {α β : Type} (ls : List Nat) (hn : ls.Nodup) (f : Group → Nat → Group) (o : Group → Nat → β)
    (q : Group → Nat → α) (v : Nat → α) (g : Group) (hsame : ∀ h l, l ∈ ls → o h l = o g l → q (f h l) l = v l)
    (hold : ∀ h l k, l ∈ ls → k ∈ ls → k ≠ l → o (f h l) k = o h k)
    (hother : ∀ h l k, l ∈ ls → k ∈ ls → k ≠ l → q (f h l) k = q h k) (l : Nat) (hl : l ∈ ls) : q (ls.foldl f g) l = v l := by
  have hkeep : ∀ {γ : Type} (p : Group → Nat → γ), (∀ h l k, l ∈ ls → k ∈ ls → k ≠ l → p (f h l) k = p h k) →
      ∀ (rs : List Nat), (∀ k ∈ rs, k ∈ ls ∧ k ≠ l) → ∀ g, p (rs.foldl f g) l = p g l := by
    intro γ p hp rs
    induction rs with
    | nil => intro _ g; rfl
    | cons a r ih =>
      intro h g
      rw [List.foldl_cons, ih (fun k hk => h k (List.mem_cons_of_mem _ hk))]
      have ha := h a (List.mem_cons_self ..)
      exact hp g a l ha.1 hl (Ne.symm ha.2)
  obtain ⟨as, bs, rfl⟩ := List.append_of_mem hl
  rw [List.nodup_append] at hn
  have hb := (List.nodup_cons.1 hn.2.1).1
  rw [List.foldl_append, List.foldl_cons, hkeep q hother bs]
  · apply hsame _ _ (by simp)
    apply hkeep o hold
    intro k hk
    exact ⟨by simp [hk], hn.2.2 k hk l (by simp)⟩
  · intro k hk
    exact ⟨by simp [hk], fun h => hb (h ▸ hk)⟩

/-- Serving every active lane of a vector or uniform destination gives each lane its value. -/
theorem runLanes_setDst (c : Ctx) (d : Opnd) (w : Nat) (F : Nat → DWord) (hd : d.isV = true ∨ d.isG = true) (l : Nat)
    (hl : l ∈ c.lanes) : srcD (runLanes c d fun g l => setDst g d w l (F l)) d w l = seen d w (F (laneFor c d l)) := by
  unfold runLanes laneFor
  by_cases hv : d.isV = true
  · simp only [hv, Bool.true_or, if_true]
    exact foldl_lane c.lanes (lanesOf_nodup c.act) _ (fun g l => srcD g d w l) (fun l => seen d w (F l))
      (fun g l h => srcD_setDst_same g d w l (F l) (c.lanes_lt l h) hd)
      (fun g l k h hk hne => srcD_setDst_lane g d w l k (F l) (c.lanes_lt l h) (c.lanes_lt k hk) hne hv) c.g l hl
  · have hg : d.isG = true := by simpa [hv] using hd
    have hp : (d.cls == Cls.pred) = false := by
      cases d with
      | v n => simp [Opnd.isG, Opnd.cls] at hg
      | g n => rfl
      | im _ => rfl
      | sp sel idx => simp [sp_notG] at hg
    simp only [hv, hp, Bool.or_self, if_false, Bool.false_eq_true, c.any_of_lane l hl, if_true]
    have hu : ∀ (g : Group), srcD g d w l = srcD g d w c.low := by
      intro g
      cases d with
      | v n => simp [Opnd.isV, Opnd.cls] at hv
      | g n => rfl
      | im _ => rfl
      | sp sel idx => simp [sp_notG] at hg
    rw [hu, srcD_setDst_same c.g d w c.low _ (c.lanes_lt _ (c.low_mem l hl)) hd]

/-- Serving every active lane of a predicate gives each lane its bit. -/
theorem runLanes_setP (c : Ctx) (d : Opnd) (F : Nat → Bool) (hd : d.cls = .pred) (l : Nat) (hl : l ∈ c.lanes) :
    getP (runLanes c d fun g l => setP g d.tag l (F l)) d.tag l = (d.tag == 7 || F l) := by
  unfold runLanes
  simp only [hd, beq_self_eq_true, Bool.or_true, if_true]
  refine foldl_lane c.lanes (lanesOf_nodup c.act) _ (fun g l => getP g d.tag l) (fun l => d.tag == 7 || F l) ?_ ?_ c.g l hl
  · intro g k hk
    show getP (setP g d.tag k (F k)) d.tag k = _
    rw [getP_setP _ _ _ _ _ _ (c.lanes_lt k hk) (c.lanes_lt k hk)]
    by_cases h7 : d.tag = 7
    · simp [h7, getP]
    · simp [h7]
  · intro g k m hk hm hne
    show getP (setP g d.tag k (F k)) d.tag m = getP g d.tag m
    rw [getP_setP _ _ _ _ _ _ (c.lanes_lt k hk) (c.lanes_lt m hm), if_neg (by tauto)]

/-! The two ends of a register instruction. -/

theorem groupOf_put (c : Ctx) {s : State} {h : Hdr} (hc : ctxOf s h = some c) (g : Group) (hid : g.id = c.g.id) :
    groupOf (putGroup c.s c.r g) c.r = some g := by
  obtain ⟨hs, _, _, hg, _⟩ := ctxOf_spec hc
  rw [hs]
  exact groupOf_putGroup s c.r c.g g hg hid

/-- A fixed-latency end. -/
theorem goesOn_fixed {s : State} {h : Hdr} {c : Ctx} (hc : ctxOf s h = some c) (sw : Bool) (d : Opnd) (w lat : Nat)
    (g' : Group) (hid : g'.id = c.g.id) (hf : frontOf g' = frontOf c.g) {P : State → Group → Prop}
    (hP : ∀ outs, P (afterDone c h sw outs (putGroup c.s c.r g')) (retire c h sw (movedFront c (frontOf g')) outs none g')) :
    GoesOn c (.next (complete c h sw (resFixed c d w lat g'))) P :=
  goesOn_done c h sw _ _ g' (groupOf_put c hc g' hid) hf (hP _)

/-- An end without a fixed latency. -/
theorem goesOn_free {s : State} {h : Hdr} {c : Ctx} (hc : ctxOf s h = some c) (sw : Bool) (ks : List RegKey)
    (g' : Group) (hid : g'.id = c.g.id) (hf : frontOf g' = frontOf c.g) {P : State → Group → Prop}
    (hP : ∀ outs, P (afterDone c h sw outs (tick (putGroup c.s c.r g')))
      (retire c h sw (movedFront c (frontOf g')) outs none g')) :
    GoesOn c (.next (complete c h sw (resFree c ks g'))) P :=
  goesOn_done c h sw _ (tick (putGroup c.s c.r g')) g' (groupOf_put c hc g' hid) hf (hP _)

/-- A fixed-latency instruction computes its destination. -/
theorem computes_fixed {s : State} {h : Hdr} {c : Ctx} (hc : ctxOf s h = some c) (sw : Bool) (d : Opnd) (w lat : Nat)
    (F : Nat → DWord) (hd : d.isV = true ∨ d.isG = true) :
    Computes c (.next (complete c h sw (resFixed c d w lat (runLanes c d fun g l => setDst g d w l (F l))))) d w F := by
  refine goesOn_fixed hc sw d w lat _ ?_ ?_ ?_
  · exact runLanes_keeps c d _ Group.id fun g l => id_setDst ..
  · exact runLanes_keeps c d _ frontOf fun g l => frontOf_setDst ..
  · intro outs l hl
    rw [srcD_retire]
    exact runLanes_setDst c d w F hd l hl

/-- An instruction without a fixed latency computes its destination. -/
theorem computes_free {s : State} {h : Hdr} {c : Ctx} (hc : ctxOf s h = some c) (sw : Bool) (d : Opnd) (w : Nat)
    (ks : List RegKey) (F : Nat → DWord) (hd : d.isV = true ∨ d.isG = true) :
    Computes c (.next (complete c h sw (resFree c ks (runLanes c d fun g l => setDst g d w l (F l))))) d w F := by
  refine goesOn_free hc sw ks _ ?_ ?_ ?_
  · exact runLanes_keeps c d _ Group.id fun g l => id_setDst ..
  · exact runLanes_keeps c d _ frontOf fun g l => frontOf_setDst ..
  · intro outs l hl
    rw [srcD_retire]
    exact runLanes_setDst c d w F hd l hl

/-- A fixed-latency instruction writes a predicate. -/
theorem decides_fixed {s : State} {h : Hdr} {c : Ctx} (hc : ctxOf s h = some c) (sw : Bool) (d : Opnd) (w lat : Nat)
    (F : Nat → Bool) (hd : d.cls = .pred) :
    Decides c (.next (complete c h sw (resFixed c d w lat (runLanes c d fun g l => setP g d.tag l (F l))))) d.tag F := by
  refine goesOn_fixed hc sw d w lat _ ?_ ?_ ?_
  · exact runLanes_keeps c d _ Group.id fun g l => id_setP ..
  · exact runLanes_keeps c d _ frontOf fun g l => frontOf_setP ..
  · intro outs l hl
    rw [getP_retire]
    exact runLanes_setP c d F hd l hl

/-- An instruction without a fixed latency writes a predicate. -/
theorem decides_free {s : State} {h : Hdr} {c : Ctx} (hc : ctxOf s h = some c) (sw : Bool) (d : Opnd) (ks : List RegKey)
    (F : Nat → Bool) (hd : d.cls = .pred) :
    Decides c (.next (complete c h sw (resFree c ks (runLanes c d fun g l => setP g d.tag l (F l))))) d.tag F := by
  refine goesOn_free hc sw ks _ ?_ ?_ ?_
  · exact runLanes_keeps c d _ Group.id fun g l => id_setP ..
  · exact runLanes_keeps c d _ frontOf fun g l => frontOf_setP ..
  · intro outs l hl
    rw [getP_retire]
    exact runLanes_setP c d F hd l hl

/-! What a well-formed instruction's operands are. -/

/-- Nothing breaks a class rule where the instruction is well-formed. -/
theorem wf_class {i : Instr} (h : WellFormed i = true) (a : Arg) (ha : a ∈ args i) : a.classOk = true := by
  have hn : (classErr i).isNone = true := by
    unfold WellFormed at h
    simp only [Bool.and_eq_true] at h
    exact h.1.2
  have hnil : classErrs i = [] := by
    unfold classErr at hn
    cases hl : classErrs i with
    | nil => rfl
    | cons f fs =>
      rw [hl] at hn
      unfold leastField at hn
      split at hn <;> simp at hn
  unfold classErrs at hnil
  simp only [List.append_eq_nil_iff, List.map_eq_nil_iff, List.filter_eq_nil_iff] at hnil
  have := hnil.1.1 a ha
  simpa using this

/-- A register destination of a well-formed instruction. -/
theorem wf_dst {i : Instr} (h : WellFormed i = true) (a : Arg) (ha : a ∈ args i) (hacc : a.acc = cVU) :
    a.o.isV = true ∨ a.o.isG = true := by
  have := wf_class h a ha
  unfold Arg.classOk at this
  rw [hacc] at this
  unfold Opnd.isV Opnd.isG
  cases hcls : a.o.cls <;> simp_all [cVU]

/-- A vector destination. -/
theorem wf_vec {i : Instr} (h : WellFormed i = true) (a : Arg) (ha : a ∈ args i) (hacc : a.acc = [.vec]) : a.o.isV = true := by
  have := wf_class h a ha
  unfold Arg.classOk at this
  rw [hacc] at this
  unfold Opnd.isV
  cases hcls : a.o.cls <;> simp_all

/-- A predicate destination. -/
theorem wf_pred {i : Instr} (h : WellFormed i = true) (a : Arg) (ha : a ∈ args i) (hacc : a.acc = [.pred]) :
    a.o.cls = .pred := by
  have := wf_class h a ha
  unfold Arg.classOk at this
  rw [hacc] at this
  cases hcls : a.o.cls <;> simp_all

end Sys2Proof.Machine
end

