-- ==== Sys2Proof/Laws/Mem.lean ====
section
/-! SUPPORT. Physical memory: every operation on stored bytes keeps the canonical form, and an unlisted byte reads as zero. -/

namespace Sys2Proof.Machine

/-- A key that a store does not list reads as zero. -/
theorem stGet_unlisted {n : Nat} (s : Store n) (a : Nat) (h : ∀ kv ∈ s, kv.1 ≠ a) : stGet s a = 0 := by
  induction s with
  | nil => rfl
  | cons x r ih =>
    obtain ⟨k, v⟩ := x
    have hk : a ≠ k := fun e => h (k, v) List.mem_cons_self e.symm
    simp only [stGet, if_neg hk]
    exact ih fun kv hkv => h kv (List.mem_cons_of_mem _ hkv)

/-- A number of zero bytes is zero. -/
theorem ofBytes_zero (bs : List Byte) (h : ∀ b ∈ bs, b = 0) : ofBytes bs = 0 := by
  unfold ofBytes
  induction bs with
  | nil => rfl
  | cons b r ih => simp [ih fun x hx => h x (List.mem_cons_of_mem _ hx), h b List.mem_cons_self]

/-- What hardware reads where nothing is listed and every check byte is fresh: zero. -/
theorem peek_unlisted (s : State) (pa k : Nat) (he : s.ecc = []) (h : ∀ kv ∈ s.mem, kv.1 < pa ∨ pa + k ≤ kv.1) : peek s pa k = 0 := by
  refine ofBytes_zero _ fun b hb => ?_
  obtain ⟨i, hi, rfl⟩ := List.mem_map.1 hb
  have hi := List.mem_range.1 hi
  have hm : stGet s.mem (pa + i) = 0 := stGet_unlisted _ _ fun kv hkv => by have := h kv hkv; omega
  have hz : (stGet s.ecc ((pa + i) / 32)).getLsbD 32 = false := by rw [he]; simp [stGet]
  simp only [hz, hm]; simp

/-- What hardware reads depends on the stored bytes, their check bytes and the clear-pending lines. -/
theorem peek_congr (s t : State) (pa k : Nat) (hm : s.mem = t.mem) (he : s.ecc = t.ecc) (hc : s.clearPend = t.clearPend) : peek s pa k = peek t pa k := by
  have hp (n : Nat) : isPend s n = isPend t n := by unfold isPend; rw [hc]
  have hd (n : Nat) : secDecode s n = secDecode t n := by unfold secDecode storedBytes; rw [hm, he, hp]
  unfold peek peekBytes
  simp only [hp, hd, hm, he]

/-- Storing bytes keeps the canonical form. -/
theorem pokeBytes_safe (s : State) (pa : Nat) (bs : List Byte) (h : Safe s) : Safe (pokeBytes s pa bs) := stWf_setAll _ _ h

/-- Beginning a write to a line keeps it. -/
theorem openLine_safe (s : State) (n : Nat) (h : Safe s) : Safe (openLine s n) := by
  unfold openLine; split
  · exact stWf_clear _ _ _ h
  · exact h

/-- So does beginning one to several lines. -/
theorem openLines_safe (l : List Nat) (f : Nat → Nat) (s : State) (h : Safe s) : Safe (l.foldl (fun s i => openLine s (f i)) s) := by
  induction l generalizing s with
  | nil => exact h
  | cons i r ih => exact ih _ (openLine_safe s _ h)

/-- Poisoning a sector keeps it. -/
theorem poisonSec_safe (s : State) (n : Nat) (h : Safe s) : Safe (poisonSec s n) := stWf_clear _ _ _ (openLine_safe s _ h)

/-- A write of fresh bytes to a sector keeps it. -/
theorem freshSec_safe (s : State) (n : Nat) (bs : List Byte) (h : Safe s) : Safe (freshSec s n bs) := pokeBytes_safe s _ bs h

/-- What is folded over a list keeps the form where each piece does. -/
theorem fold_safe {α : Type} (l : List α) (f : State → α → State) (hf : ∀ s x, Safe s → Safe (f s x)) (s : State) (h : Safe s) :
    Safe (l.foldl f s) := by
  induction l generalizing s with
  | nil => exact h
  | cons x r ih => exact ih _ (hf s x h)

/-- A write of whole sectors keeps it. -/
theorem sectorWrite_safe (s : State) (pa : Nat) (bs : List Byte) (h : Safe s) : Safe (sectorWrite s pa bs) :=
  pokeBytes_safe _ pa bs (openLines_safe _ _ s h)

/-- Raising a vector leaves memory alone. -/
theorem raiseMsix_mem (s : State) (ld vec : Nat) : (raiseMsix s ld vec).mem = s.mem := by unfold raiseMsix; split <;> rfl

/-- A column command leaves memory alone. -/
@[simp] theorem colCmd_mem (s : State) (b : Bool) (pa : Nat) : (colCmd s b pa).mem = s.mem := rfl

/-- A word that is listed no more leaves memory alone. -/
@[simp] theorem sramDrop_mem (s : State) (k : SramKey) : (sramDrop s k).mem = s.mem := rfl

/-- What a die cache gives up keeps the form: a word, a line. -/
theorem dieWordOut_safe (s : State) (d : DLine) (k : SramKey) (h : Safe s) : Safe (dieWordOut s d k) := by
  unfold dieWordOut; split
  · exact h
  · dsimp only; split
    · exact h
    · split
      · exact pokeBytes_safe _ _ _ h
      · exact poisonSec_safe _ _ h
theorem dieOut_safe (s : State) (d : DLine) (h : Safe s) : Safe (dieOut s d) := by
  unfold dieOut; split
  · exact h
  · exact fold_safe _ _ (fun s i hs => dieWordOut_safe s d _ hs) s h

/-- A request to a die cache keeps it. -/
theorem dieAccess_safe (s : State) (line need put : Nat) (h : Safe s) : Safe (dieAccess s line need put) := by
  simp only [dieAccess, Safe, colCmd_mem]; split
  · exact h
  · split
    · exact h
    · exact dieOut_safe _ _ h

/-- A record of the event log keeps it. -/
theorem logEvent_safe (s : State) (kind cause detail ld addr aux : Nat) (h : Safe s) : Safe (logEvent s kind cause detail ld addr aux) := by
  simp only [logEvent]; split
  · rw [Safe, raiseMsix_mem]; exact sectorWrite_safe _ _ _ (dieAccess_safe s _ _ _ h)
  · exact h

/-- A corrected error keeps it. -/
theorem corrected_safe (s : State) (pa : Nat) (h : Safe s) : Safe (corrected s pa) := by
  simp only [corrected]; split
  · exact fold_safe _ _ (fun s x hs => logEvent_safe s _ _ _ _ _ _ hs) _ h
  · exact h

/-- An uncorrectable sector that is found keeps it. -/
theorem logBad_safe (s : State) (sec : Nat) (h : Safe s) : Safe (logBad s sec) := logEvent_safe _ _ _ _ _ _ _ (poisonSec_safe s sec h)

/-- A sector that is read keeps it. -/
theorem readSec_safe (s : State) (sec : Nat) (h : Safe s) : Safe (readSec s sec).2.2 := by
  unfold readSec; split
  · exact h
  · exact logBad_safe s sec h
  · exact corrected_safe _ _ (freshSec_safe s sec _ h)
  · split
    · exact h
    · split
      · exact h
      · split
        · exact h
        · exact logBad_safe _ _ (fold_safe _ sramDrop (fun _ _ hs => hs) s h)

/-- A read keeps it. -/
theorem readIn_safe (s : State) (pa k : Nat) (h : Safe s) : Safe (readIn s pa k).2.2 := by
  unfold readIn; split
  · exact readSec_safe _ _ h
  · exact h

/-- The line requests of a read, and of a write, keep it. -/
theorem readLines_safe (s : State) (pa k : Nat) (h : Safe s) : Safe (readLines s pa k) :=
  fold_safe _ _ (fun s p hs => by split <;> [exact dieAccess_safe s _ _ _ hs; exact hs]) s h
theorem writeLines_safe (s : State) (pa k : Nat) (h : Safe s) : Safe (writeLines s pa k) :=
  fold_safe _ _ (fun s p hs => by dsimp only; split <;> [exact dieAccess_safe s _ _ _ hs; exact hs]) s h

/-- What DIAGST gave a cached sector keeps it as it reaches memory. -/
theorem dieMerge_safe (s : State) (sec : Nat) (bs : List Byte) (h : Safe s) : Safe (dieMerge s sec bs) := by
  unfold dieMerge; split
  · exact h
  · split
    · exact h
    · exact pokeBytes_safe _ _ _ (fold_safe _ sramDrop (fun _ _ hs => hs) s h)

/-- A write within a sector keeps it. -/
theorem writeIn_safe (s : State) (pa : Nat) (bs : List Byte) (h : Safe s) : Safe (writeIn s pa bs) := by
  have hc := openLine_safe s (pa / 128) h
  simp only [writeIn]; split
  · split
    · exact freshSec_safe _ _ _ (dieMerge_safe _ _ _ hc)
    · split
      · exact pokeBytes_safe _ _ _ hc
      · split
        · exact freshSec_safe _ _ _ (dieMerge_safe _ _ _ (readSec_safe _ _ hc))
        · exact readSec_safe _ _ hc
  · exact pokeBytes_safe _ _ _ hc

/-- A read of any run of bytes keeps it. -/
theorem readMem_safe (s : State) (pa k : Nat) (h : Safe s) : Safe (readMem s pa k).2.2 := by
  suffices ∀ (l : List (Nat × Nat)) (acc : List Byte × RdSt × State), Safe acc.2.2 → Safe (l.foldl (fun acc p =>
      let r := readIn acc.2.2 p.1 p.2
      (acc.1 ++ r.1, if acc.2.1 = .ok then r.2.1 else acc.2.1, r.2.2)) acc).2.2 from this _ ([], .ok, _) (readLines_safe s pa k h)
  intro l
  induction l with
  | nil => exact fun _ h => h
  | cons p r ih => exact fun acc h => ih _ (readIn_safe acc.2.2 p.1 p.2 h)

/-- A write of any run of bytes keeps it. -/
theorem writeMem_safe (s : State) (pa : Nat) (bs : List Byte) (h : Safe s) : Safe (writeMem s pa bs) := by
  suffices ∀ (l : List (Nat × Nat)) (acc : State × List Byte), Safe acc.1 → Safe (l.foldl (fun acc p =>
      (writeIn acc.1 p.1 (acc.2.take p.2), acc.2.drop p.2)) acc).1 from this _ (_, bs) (writeLines_safe s pa bs.length h)
  intro l
  induction l with
  | nil => exact fun _ h => h
  | cons p r ih => exact fun acc h => ih _ (writeIn_safe acc.1 p.1 _ h)

/-- A write of one of the hardware's tables keeps it, and so does what a read of one leaves behind. -/
theorem hwWrite_safe (s : State) (pa : Nat) (bs : List Byte) (h : Safe s) : Safe (hwWrite s pa bs) := writeMem_safe s pa bs h
theorem tableRead_safe (s : State) (pa k : Nat) (h : Safe s) : Safe (tableRead s pa k) := readMem_safe s pa k h

/-- Memory after reset has it. -/
theorem reset_safe : Safe State.reset := rfl

end Sys2Proof.Machine
end

