-- ==== Sys2Proof/Laws/Quads.lean ====
section
/-! SUPPORT. Laws of register quads and of numbers given by their bits. -/

namespace Sys2Proof.Machine

/-- Part i of four 32-bit parts put together. -/
theorem part_append (a b c d : BitVec 32) (i : Nat) (hi : i < 4) :
    BitVec.extractLsb' (32 * i) 32 ((a ++ b) ++ (c ++ d) : BitVec 128) =
      if i = 0 then d else if i = 1 then c else if i = 2 then b else a := by
  have bit : ∀ k, BitVec.getLsbD ((a ++ b) ++ (c ++ d) : BitVec 128) k =
      if k < 64 then (if k < 32 then d.getLsbD k else c.getLsbD (k - 32))
      else (if k - 64 < 32 then b.getLsbD (k - 64) else a.getLsbD (k - 64 - 32)) := by
    intro k
    have h1 := BitVec.getLsbD_append (x := (a ++ b : BitVec 64)) (y := (c ++ d : BitVec 64)) (i := k)
    have h2 := BitVec.getLsbD_append (x := c) (y := d) (i := k)
    have h3 := BitVec.getLsbD_append (x := a) (y := b) (i := k - 64)
    exact h1.trans (by rw [h2, h3])
  apply BitVec.eq_of_getLsbD_eq
  intro k hk
  rw [BitVec.getLsbD_extractLsb', bit]
  have : i = 0 ∨ i = 1 ∨ i = 2 ∨ i = 3 := by omega
  rcases this with rfl | rfl | rfl | rfl
  · simp [hk, show k < 64 by omega]
  · simp [hk, show 32 + k < 64 by omega]
  · simp [hk]
  · simp only [hk, decide_true, Bool.true_and]
    rw [if_neg (by omega), if_neg (by omega), show 32 * 3 + k - 64 - 32 = k by omega]
    simp

/-- Part i of a quad is its register i. -/
theorem part_srcQ (g : Group) (o : Opnd) (l i : Nat) (hi : i < 4) :
    BitVec.extractLsb' (32 * i) 32 (srcQ g o l) = getV g (o.vIdx + i) l := by
  unfold srcQ
  rw [part_append _ _ _ _ i hi]
  have : i = 0 ∨ i = 1 ∨ i = 2 ∨ i = 3 := by omega
  rcases this with rfl | rfl | rfl | rfl <;> simp

/-- What a quad written in a lane reads as. -/
theorem getV_setQ (g : Group) (o : Opnd) (l k m : Nat) (x : BitVec 128) (hl : l < 32) (hk : k < 32) :
    getV (setQ g o l x) m k =
      if k = l ∧ o.vIdx ≤ m ∧ m < o.vIdx + 4 then BitVec.extractLsb' (32 * (m - o.vIdx)) 32 x else getV g m k := by
  unfold setQ
  simp only [show List.range 4 = [0, 1, 2, 3] from rfl, List.foldl_cons, List.foldl_nil]
  rw [getV_setV _ _ _ _ _ _ hl hk, getV_setV _ _ _ _ _ _ hl hk, getV_setV _ _ _ _ _ _ hl hk, getV_setV _ _ _ _ _ _ hl hk]
  by_cases h : k = l
  · simp only [h, and_true, true_and]
    by_cases h0 : m = o.vIdx + 3
    · subst h0; simp
    · by_cases h1 : m = o.vIdx + 2
      · subst h1; simp
      · by_cases h2 : m = o.vIdx + 1
        · subst h2; simp
        · by_cases h3 : m = o.vIdx
          · subst h3; simp
          · rw [if_neg h0, if_neg h1, if_neg h2, if_neg (by omega), if_neg (by omega)]
  · simp [h]

@[simp] theorem id_setQ (g : Group) (o : Opnd) (l : Nat) (x : BitVec 128) : (setQ g o l x).id = g.id := rfl
@[simp] theorem frontOf_setQ (g : Group) (o : Opnd) (l : Nat) (x : BitVec 128) : frontOf (setQ g o l x) = frontOf g := by
  simp [setQ, List.range_succ]
@[simp] theorem getG_setQ (g : Group) (o : Opnd) (l n : Nat) (x : BitVec 128) : getG (setQ g o l x) n = getG g n := by
  simp [setQ, List.range_succ]
@[simp] theorem getP_setQ (g : Group) (o : Opnd) (l n k : Nat) (x : BitVec 128) : getP (setQ g o l x) n k = getP g n k := by
  simp [setQ, List.range_succ]
@[simp] theorem getM_setQ (g : Group) (o : Opnd) (l n : Nat) (x : BitVec 128) : getM (setQ g o l x) n = getM g n := by
  simp [setQ, List.range_succ]

/-- Serving every active lane of a quad gives each lane its four parts. -/
theorem runLanes_setQ (c : Ctx) (d : Opnd) (F : Nat → BitVec 128) (hd : d.isV = true) (l : Nat) (hl : l ∈ c.lanes) (i : Nat)
    (hi : i < 4) :
    getV (runLanes c d fun g l => setQ g d l (F l)) (d.vIdx + i) l = BitVec.extractLsb' (32 * i) 32 (F l) := by
  unfold runLanes
  simp only [hd, Bool.true_or, if_true]
  refine foldl_lane c.lanes (lanesOf_nodup c.act) _ (fun g l => getV g (d.vIdx + i) l)
    (fun l => BitVec.extractLsb' (32 * i) 32 (F l)) ?_ ?_ c.g l hl
  · intro g k hk
    show getV (setQ g d k (F k)) _ _ = _
    rw [getV_setQ _ _ _ _ _ _ (c.lanes_lt k hk) (c.lanes_lt k hk)]
    simp [hi]
  · intro g k m hk hm hne
    show getV (setQ g d k (F k)) _ _ = _
    rw [getV_setQ _ _ _ _ _ _ (c.lanes_lt k hk) (c.lanes_lt m hm)]
    simp [hne]

/-- A sum of distinct powers of two stays below the next. -/
theorem sumBits_lt (n : Nat) (p : Nat → Bool) : (List.range n).foldl (fun r i => r + if p i then 2 ^ i else 0) 0 < 2 ^ n := by
  induction n with
  | zero => simp
  | succ n ih =>
    rw [List.range_succ, List.foldl_append, List.foldl_cons, List.foldl_nil, pow_succ]
    split_ifs <;> omega

/-- The bits of a number given by its bits. -/
theorem testBit_sumBits (n : Nat) (p : Nat → Bool) (k : Nat) :
    ((List.range n).foldl (fun r i => r + if p i then 2 ^ i else 0) 0).testBit k = (decide (k < n) && p k) := by
  induction n with
  | zero => simp
  | succ n ih =>
    rw [List.range_succ, List.foldl_append, List.foldl_cons, List.foldl_nil]
    have hlt := sumBits_lt n p
    set S := (List.range n).foldl (fun r i => r + if p i then 2 ^ i else 0) 0
    by_cases hp : p n = true
    · simp only [hp, if_true]
      rw [show S + 2 ^ n = 2 ^ n * 1 + S by ring, Nat.two_pow_add_eq_or_of_lt hlt, Nat.testBit_or, ih, mul_one,
        Nat.testBit_two_pow]
      rcases lt_trichotomy k n with h | h | h
      · have h1 : ¬ n = k := by omega
        simp [h1, h, Nat.lt_succ_of_lt h]
      · subst h; simp [hp]
      · have h0 : ¬ n = k := by omega
        have h1 : ¬ k < n := by omega
        have h2 : ¬ k < n + 1 := by omega
        simp only [h0, h1, h2, decide_false, Bool.false_or, Bool.false_and]
    · simp only [hp, if_false, add_zero, Bool.false_eq_true]
      rw [ih]
      by_cases h : k = n
      · subst h; simp [hp]
      · by_cases h' : k < n
        · simp [h', Nat.lt_succ_of_lt h']
        · have : ¬ k < n + 1 := by omega
          simp only [h', this, decide_false, Bool.false_and]

/-- The bits of the predicates of a lane. -/
theorem predByte_bit (g : Group) (l i : Nat) : (predByte g l).testBit i = (decide (i < 8) && getP g i l) :=
  testBit_sumBits 8 (fun i => getP g i l) i

end Sys2Proof.Machine
end

