-- ==== Sys2Proof/Laws/Xlate.lean ====
section
/-! SUPPORT. What a translation depends on: memory, its check bytes, the devices and the package registers; with no translation cache and on
a page of its own, on no free value. What reads of clean memory leave behind. -/

namespace Sys2Proof.Machine

/-! Reads of clean memory. -/

/-- One state is another but for what reads of clean memory change: monitors, row state, die caches, and the counter of free values. -/
def Quiet (s t : State) : Prop := t = { s with hot := t.hot, banks := t.banks, dcache := t.dcache, frees := t.frees }

theorem Quiet.refl (s : State) : Quiet s s := rfl
theorem Quiet.trans {s t u : State} (a : Quiet s t) (b : Quiet t u) : Quiet s u := by
  unfold Quiet at *; rw [a] at b; exact b

/-- A request to a die cache is quiet where DIAGST.sram has written no word. -/
theorem dieAccess_quiet {s : State} (hs : s.sram = []) (line need put : Nat) : Quiet s (dieAccess s line need put) := by
  unfold Quiet; simp [dieAccess, hs, colCmd]

/-- A sector that is read in clean memory gives its stored bytes, or zeros where its line is clear-pending, and leaves nothing behind. -/
theorem readSec_clean {s : State} (he : s.ecc = []) (hs : s.sram = []) (sec : Nat) :
    readSec s sec = (if isPend s (sec / 4) then List.replicate 32 0 else storedBytes s (32 * sec) 32, .ok, s) := by
  have hd : secDecode s sec = .good (if isPend s (sec / 4) then List.replicate 32 0 else storedBytes s (32 * sec) 32) := by
    unfold secDecode; split <;> simp [he, stGet]
  unfold readSec; rw [hd]; simp [hs]

/-- A read within a sector leaves nothing behind. -/
theorem readIn_clean {s : State} (he : s.ecc = []) (hs : s.sram = []) (pa k : Nat) : (readIn s pa k).2 = (.ok, s) := by
  unfold readIn; split
  · rw [readSec_clean he hs]
  · rfl

/-- The line requests of a read are quiet. -/
theorem readLines_quiet {s : State} (hs : s.sram = []) (pa k : Nat) : Quiet s (readLines s pa k) := by
  suffices ∀ (l : List (Nat × Nat)) (s : State), s.sram = [] → Quiet s (l.foldl (fun s p =>
      if isHbm p.1 && !isPend s (p.1 / 128) then dieAccess s (p.1 / 128) (sectorMask p.1 p.2) 0 else s) s) from this _ s hs
  intro l
  induction l with
  | nil => exact fun s _ => .refl s
  | cons p r ih =>
    intro s hs
    refine Quiet.trans (t := if isHbm p.1 && !isPend s (p.1 / 128) then dieAccess s (p.1 / 128) (sectorMask p.1 p.2) 0 else s) ?_ (ih _ ?_)
    · split
      · exact dieAccess_quiet hs ..
      · exact .refl s
    · split
      · rw [dieAccess_quiet hs]; exact hs
      · exact hs

/-- A read of clean memory ends well and is quiet. -/
theorem readMem_quiet {s : State} (he : s.ecc = []) (hs : s.sram = []) (pa k : Nat) :
    (readMem s pa k).2.1 = .ok ∧ Quiet s (readMem s pa k).2.2 := by
  have hq := readLines_quiet hs pa k
  have he' : (readLines s pa k).ecc = [] := by rw [hq]; exact he
  have hs' : (readLines s pa k).sram = [] := by rw [hq]; exact hs
  suffices ∀ (l : List (Nat × Nat)) (acc : List Byte × RdSt × State), acc.2 = (.ok, readLines s pa k) →
      (l.foldl (fun acc p =>
        let r := readIn acc.2.2 p.1 p.2
        (acc.1 ++ r.1, if acc.2.1 = .ok then r.2.1 else acc.2.1, r.2.2)) acc).2 = (.ok, readLines s pa k) by
    unfold readMem; rw [this _ _ rfl]; exact ⟨rfl, hq⟩
  intro l
  induction l with
  | nil => exact fun _ h => h
  | cons p r ih =>
    intro acc h
    refine ih _ ?_
    show (if acc.2.1 = .ok then (readIn acc.2.2 p.1 p.2).2.1 else acc.2.1, (readIn acc.2.2 p.1 p.2).2.2) = _
    rw [h]; simp only [readIn_clean he' hs', if_true]

/-- A read of a table of clean memory is quiet. -/
theorem tableRead_quiet {s : State} (he : s.ecc = []) (hs : s.sram = []) (pa k : Nat) : Quiet s (tableRead s pa k) := (readMem_quiet he hs pa k).2

/-- Bytes read within one sector of clean memory. -/
theorem readMem_sector {s : State} {pa k : Nat} (he : s.ecc = []) (hs : s.sram = []) (hp : s.clearPend = []) (hh : isHbm pa = true)
    (h0 : 0 < k) (hk : pa % 32 + k ≤ 32) : (readMem s pa k).1 = ((storedBytes s (32 * (pa / 32)) 32).drop (pa % 32)).take k := by
  have hq := readLines_quiet hs pa k
  have he' : (readLines s pa k).ecc = [] := by rw [hq]; exact he
  have hs' : (readLines s pa k).sram = [] := by rw [hq]; exact hs
  have hm : min k (32 - pa % 32) = k := by omega
  have hpc : pieces (k / 32 + 2) pa k = [(pa, k)] := by simp [pieces, piecesBy, h0.ne', hm]
  have hpd : isPend (readLines s pa k) (pa / 32 / 4) = false := by rw [hq]; simp [isPend, hp]
  have hst : storedBytes (readLines s pa k) (32 * (pa / 32)) 32 = storedBytes s (32 * (pa / 32)) 32 := by rw [hq]; rfl
  unfold readMem
  rw [hpc]
  simp [readIn, hh, readSec_clean he' hs', hpd, hst]

/-! What a translation depends on. -/

/-- Two states have the same memory, check bytes, devices and package registers. -/
structure Alike (s t : State) : Prop where
  mem : t.mem = s.mem
  ecc : t.ecc = s.ecc
  pend : t.clearPend = s.clearPend
  lds : t.lds = s.lds
  preg : t.preg = s.preg

theorem Quiet.alike {s t : State} (h : Quiet s t) : Alike s t := by rw [h]; exact ⟨rfl, rfl, rfl, rfl, rfl⟩
theorem Alike.trans {s t u : State} (a : Alike s t) (b : Alike t u) : Alike s u :=
  ⟨b.mem.trans a.mem, b.ecc.trans a.ecc, b.pend.trans a.pend, b.lds.trans a.lds, b.preg.trans a.preg⟩

variable {s t : State} {ld gen n i va : Nat}

theorem Alike.peek (h : Alike s t) (a k : Nat) : Machine.peek t a k = Machine.peek s a k := peek_congr _ _ _ _ h.mem h.ecc h.pend
theorem Alike.ldOf (h : Alike s t) (ld : Nat) : Machine.ldOf t ld = Machine.ldOf s ld := by unfold Machine.ldOf; rw [h.lds]
theorem Alike.pkgReg (h : Alike s t) (n : Nat) : Machine.pkgReg t n = Machine.pkgReg s n := by unfold Machine.pkgReg; rw [h.preg]
theorem Alike.ldReg (h : Alike s t) (ld n : Nat) : Machine.ldReg t ld n = Machine.ldReg s ld n := by unfold Machine.ldReg; rw [h.ldOf]
theorem Alike.nodeEntry (h : Alike s t) (n i : Nat) : Machine.nodeEntry t n i = Machine.nodeEntry s n i := h.peek ..
theorem Alike.frameEntPa (h : Alike s t) (pa : Nat) : Machine.frameEntPa t pa = Machine.frameEntPa s pa := by
  unfold Machine.frameEntPa; simp only [h.pkgReg]
theorem Alike.frameEnt (h : Alike s t) (pa : Nat) : Machine.frameEnt t pa = Machine.frameEnt s pa := by
  unfold Machine.frameEnt; simp only [h.frameEntPa, h.peek]
theorem Alike.nodeCount (h : Alike s t) (pa : Nat) : Machine.nodeCount t pa = Machine.nodeCount s pa := by
  unfold Machine.nodeCount nodeEnt nodeEntPa; simp only [h.pkgReg, h.peek]
theorem Alike.namesNode (h : Alike s t) (e : Nat) : Machine.namesNode t e = Machine.namesNode s e := by
  unfold Machine.namesNode frameKind; simp only [h.frameEnt]
theorem Alike.readBoundsEnt (h : Alike s t) (ld slot rid : Nat) : Machine.readBoundsEnt t ld slot rid = Machine.readBoundsEnt s ld slot rid := by
  unfold Machine.readBoundsEnt; simp only [h.ldReg, h.peek]

/-- Without translation caches a walk has a node's own entry. -/
theorem walkEntry_own (h : (ldOf s ld).tcache = []) : walkEntry s ld gen n i = nodeEntry s n i := by
  simp [walkEntry, cachedFor, h]
theorem Alike.walkEntry (h : Alike s t) (hc : (Machine.ldOf s ld).tcache = []) : Machine.walkEntry t ld gen n i = Machine.walkEntry s ld gen n i := by
  rw [walkEntry_own hc, walkEntry_own (by rw [h.ldOf]; exact hc), h.nodeEntry]

/-- A leaf of its own page does not depend on free values. -/
theorem Alike.leafEntry (h : Alike s t) (hc : (Machine.ldOf s ld).tcache = [])
    (hl : bit1 (Machine.walkEntry s ld gen n (fld va 16 10)) 8 = false) : Machine.leafEntry t ld gen n va = Machine.leafEntry s ld gen n va := by
  simp [Machine.leafEntry, h.walkEntry hc, hl]

/-- Is a walk's end one that no free value changes: an error, or a leaf of its own page. -/
def ownPage (s : State) (ld : Nat) (r : RootKey) (va : Nat) : Bool := match walkDown s ld r.1 va 3 r.2 [] with
  | .leaf _ nodes => !bit1 (walkEntry s ld r.1 (nodes.getLastD 0) (fld va 16 10)) 8
  | .err _ _ => true

/-- A walk that ends on a page of its own does not depend on free values. -/
theorem walkDown_alike (h : Alike s t) (hc : (ldOf s ld).tcache = []) : ∀ (k n : Nat) (path : List Nat),
    (∀ e nodes, walkDown s ld gen va k n path = .leaf e nodes → bit1 (walkEntry s ld gen (nodes.getLastD 0) (fld va 16 10)) 8 = false) →
    walkDown t ld gen va k n path = walkDown s ld gen va k n path
  | 0, n, path, hl => by
    have := hl _ _ rfl
    simp only [walkDown]
    rw [h.leafEntry hc (by simpa using this)]
  | k + 1, n, path, hl => by
    simp only [walkDown, h.walkEntry hc, h.namesNode] at hl ⊢
    split
    · rfl
    · rename_i hn
      exact walkDown_alike h hc k _ _ (by simpa only [hn, if_false] using hl)

/-- The translation of an access whose page is its own depends on no free value. -/
theorem Alike.translate (h : Alike s t) {root : RootKey} {user : Bool} {k : Acc} (hc : (Machine.ldOf s ld).tcache = [])
    (hp : ownPage s ld root va = true) : Machine.translate t ld root user va k = Machine.translate s ld root user va k := by
  have hw := walkDown_alike (gen := root.1) (va := va) h hc 3 root.2 [] (by
    intro e nodes he
    simpa [ownPage, he] using hp)
  unfold Machine.translate
  rw [hw]
  simp only [frameKind, frameCounted, ownerDenied, frameOwner, solePath, frameCount, h.frameEnt, h.frameEntPa, h.nodeEntry, h.nodeCount, h.ldOf]
  rfl
theorem Alike.farCheck (h : Alike s t) {root : RootKey} {bounds : Store 128} {user : Bool} {p : Ptr} {m : Nat} {k : Acc}
    (hc : (Machine.ldOf s ld).tcache = []) (hp : ownPage s ld root (ptrVa p) = true) :
    Machine.farCheck t ld root bounds user p m k = Machine.farCheck s ld root bounds user p m k := by
  unfold Machine.farCheck
  rw [h.translate hc hp]

/-- Where an engine's access goes depends on no free value, without translation caches and on a page of its own. -/
theorem Alike.engPlace (h : Alike s t) {e : Eng} {p : Ptr} {m : Nat} {k : Acc} (hc : (Machine.ldOf s e.t.ld).tcache = [])
    (hp : ownPage s e.t.ld e.root (ptrVa p) = true) : Machine.engPlace t e p m k = Machine.engPlace s e p m k := by
  simp only [Machine.engPlace, h.farCheck hc hp, linkDown, h.pkgReg]
  rfl

/-- Is a piece's side one whose place no free value changes. -/
def Loc.own (s : State) (e : Eng) : Loc → Bool
  | .mem p => ownPage s e.t.ld e.root (ptrVa p)
  | _ => true

/-- What a piece's checks find depends on no free value. -/
theorem Alike.pieceErr (h : Alike s t) {e : Eng} {x : Piece} (hc : (Machine.ldOf s e.t.ld).tcache = []) (ha : x.src.own s e = true)
    (hb : x.dst.own s e = true) : Machine.pieceErr t e x = Machine.pieceErr s e x := by
  obtain ⟨a, b, n⟩ := x
  cases a <;> cases b <;> simp_all [Machine.pieceErr, Loc.own, h.engPlace hc]

/-- A state with other free values is alike. -/
theorem alike_frees (s : State) (f : Nat) : Alike s { s with frees := f } := ⟨rfl, rfl, rfl, rfl, rfl⟩

/-! Accesses through a slot. -/

/-- The area of an address in HBM. -/
theorem areaOf_hbm {pa : Nat} (h : isHbm pa = true) : areaOf pa = .hbm (pa / 2 ^ 36) := by
  simp only [isHbm, decide_eq_true_eq] at h
  unfold areaOf; rw [if_pos h]

/-- What a walk leaves in clean memory is quiet, whatever a translation cache spares it. -/
theorem walkRead_quiet (he : s.ecc = []) (hs : s.sram = []) (ld : Nat) (r : RootKey) (va : Nat) : Quiet s (walkRead s ld r va) := by
  unfold Quiet; simp [walkRead, he, hs]

theorem Quiet.ecc {s t : State} (h : Quiet s t) : t.ecc = s.ecc := by rw [h]
theorem Quiet.sram {s t : State} (h : Quiet s t) : t.sram = s.sram := by rw [h]

/-- What the check of an access through a slot leaves in clean memory is quiet. -/
theorem cpWalk_quiet (he : s.ecc = []) (hs : s.sram = []) (ld slot : Nat) (p : Ptr) : Quiet s (cpWalk s ld slot p) := by
  unfold cpWalk
  have a := tableRead_quiet he hs (ldReg s ld 1) 32
  have b := a.trans (tableRead_quiet (a.ecc.trans he) (a.sram.trans hs) (ldReg s ld 1 + 32 + 16 * slot) 16)
  have c := b.trans (tableRead_quiet (b.ecc.trans he) (b.sram.trans hs) (fld (peek s (ldReg s ld 1 + 32 + 16 * slot) 16) 12 40 * 2 ^ 12 + 16 * ptrRid p) 16)
  exact c.trans (walkRead_quiet (c.ecc.trans he) (c.sram.trans hs) ..)

/-- An access through a slot that goes to memory of its own page goes there from every alike state, and through every slot with the same root
and bounds entry. -/
theorem Alike.cpPlace (h : Alike s t) {j k m pa : Nat} {p : Ptr} {a : Acc} (hs : (Machine.ldOf s ld).slots.getD j emptyRoot = (Machine.ldOf s ld).slots.getD k emptyRoot)
    (hb : Machine.readBoundsEnt s ld j (ptrRid p) = Machine.readBoundsEnt s ld k (ptrRid p)) (hc : (Machine.ldOf s ld).tcache = [])
    (hp : ownPage s ld ((Machine.ldOf s ld).slots.getD k emptyRoot).key (ptrVa p) = true) (hh : isHbm pa = true)
    (hk : Machine.cpPlace s ld k p m a = .ok pa) : Machine.cpPlace t ld j p m a = .ok pa := by
  unfold Machine.cpPlace at hk ⊢
  simp only [h.ldOf, h.readBoundsEnt, hs, hb, h.farCheck hc hp] at hk ⊢
  split at hk
  · cases hk
  · rename_i hr
    simp only [hr]
    split at hk
    · cases hk
    · rename_i x hx
      split at hk
      · cases hk
      · rename_i hn
        cases hk
        have hst : isHost x.1 = false := by unfold isHost; rw [areaOf_hbm hh]
        simp only [linkDown, h.pkgReg, hst] at hn ⊢
        simp_all

/-- A read within a sector of clean memory through a slot adds the stored bytes to what has been read before. -/
theorem cpRead_sector {known : Option (List Nat)} {slot pa n : Nat} {p : Ptr} (pre : List Byte) (he : s.ecc = []) (hs : s.sram = []) (hp : s.clearPend = [])
    (hh : s.hist = []) (hm : isHbm pa = true) (h0 : 0 < n) (hn : pa % 32 + n ≤ 32) (hk : cpPlace s ld slot p n .read = .ok pa) :
    ∃ t, Quiet s t ∧ (cpPlace s ld slot p n .read).bind (fun pa =>
      let s' := cpWalk (tick s) ld slot p
      let r := busRead s' (.sup ld) pa n
      match r.2.1 with
      | .ok => let v := cpSee r.2.2 known pa r.1; .ok (pre ++ v.1, v.2)
      | .poison => .error ⟨cPOISON, 0, p, kvConsume r.2.2 pa⟩
      | .uncorr => .error ⟨cUECONS, 0, p, kvConsume r.2.2 pa⟩) =
      .ok (pre ++ ((storedBytes s (32 * (pa / 32)) 32).drop (pa % 32)).take n, t) := by
  have hw := cpWalk_quiet (s := tick s) he hs ld slot p
  have hq := readMem_quiet (s := cpWalk (tick s) ld slot p) (hw.ecc.trans he) (hw.sram.trans hs) pa n
  have hb := readMem_sector (s := cpWalk (tick s) ld slot p) (hw.ecc.trans he) (hw.sram.trans hs) (by rw [hw]; exact hp) hm h0 hn
  have ha : areaOf pa ≠ .regs := by rw [areaOf_hbm hm]; exact Area.noConfusion
  have hz : (readMem (cpWalk (tick s) ld slot p) pa n).2.2.hist = [] := by rw [hq.2, hw]; exact hh
  refine ⟨(readMem (cpWalk (tick s) ld slot p) pa n).2.2, Quiet.trans (t := tick s) rfl (hw.trans hq.2), ?_⟩
  have hst : storedBytes (cpWalk (tick s) ld slot p) (32 * (pa / 32)) 32 = storedBytes s (32 * (pa / 32)) 32 := by rw [hw]; rfl
  rw [hk]
  simp only [Except.bind, busRead, ha, if_false, hq.1]
  rw [hb, hst]
  cases known with
  | none => rfl
  | some ids => simp [cpSee, hz]

/-- A run of bytes within a sector is one piece. -/
theorem cutMem_sector {va n : Nat} (h0 : 0 < n) (hn : va % 32 + n ≤ 32) : cutMem (n / 32 + 2) va 0 n = [(0, n)] := by
  have hm : min n (32 - va % 32) = n := by omega
  simp [cutMem, h0.ne', hm]

/-- The whole of such a read. -/
theorem cpReadBy_sector {known : Option (List Nat)} {slot pa n : Nat} {p : Ptr} (he : s.ecc = []) (hs : s.sram = []) (hp : s.clearPend = [])
    (hh : s.hist = []) (hm : isHbm pa = true) (h0 : 0 < n) (hn : pa % 32 + n ≤ 32) (hv : ptrVa p % 32 + n ≤ 32)
    (hk : cpPlace s ld slot (ptrAdd p ((0 : Nat) : Int)) n .read = .ok pa) :
    ∃ t, Quiet s t ∧ cpReadBy known s ld slot p n = .ok (((storedBytes s (32 * (pa / 32)) 32).drop (pa % 32)).take n, t) := by
  obtain ⟨t, hq, h⟩ := cpRead_sector (known := known) [] he hs hp hh hm h0 hn hk
  refine ⟨t, hq, ?_⟩
  unfold cpReadBy
  rw [cutMem_sector h0 hv]
  exact h

end Sys2Proof.Machine
end

