-- ==== Sys2Proof/Tests/Slice0.lean ====
section
/-! SUPPORT. Tests: words written out from the encodings of spec/07 to spec/20 and what they decode to; ill-formed terms that are refused; a
state and operands that meet the hypotheses of each statement; single steps with results taken from the rules by hand. -/

open Sys2Proof Sys2Proof.Machine
set_option Elab.async false

namespace Sys2Proof.Tests

/-! States to test on: one team of one group in group 0's entry, all lanes active. -/

/-- The team of the tests. -/
def r0 : TeamRef := ⟨0, 0, 0⟩

/-- The group of the tests: 256 registers, stack 65,536 bytes. -/
def g0 : Group := newGroup r0 0 none 256 0 32 (mkPtr 1 0) (BitVec.allOnes 32) 65536 16 none

/-- A team of some groups, with the allocations of a whole core. -/
def tm (gs : List Group) : Team :=
  { newTeam r0 0 0 (0, 786432, 0, 786432, 0, 262144, 0) [(1, BitVec.ofNat 128 ((2 ^ 56 - 1) * 2 ^ 64 + 31 * 2 ^ 59))] 0 none 1 gs with
    stage := .running }

/-- The machine after reset with a team that has been placed, whose group 0 issues. -/
def stT (t : Team) : State :=
  { State.reset with
    grids := [benchGrid]
    gangs := [⟨⟨0, 0, 0⟩, 1, .resident, 0, [], none, false, 0, none, false, []⟩]
    teams := [t]
    issuing := some ⟨⟨r0, 0⟩, mkPtr 1 0, 128, BitVec.allOnes 32⟩ }

/-- The same with one group. -/
def st (g : Group) : State := stT (tm [g])

/-- A group with v1 = 0x7FFF_FFF0 in every lane, v2 = the lane, g6 = 0x20, p1 true in the even lanes. -/
def g1 : Group :=
  (List.range 32).foldl (fun g l =>
    setP (setV (setV g 1 l 0x7FFFFFF0) 2 l (BitVec.ofNat 32 l)) 1 l (l % 2 == 0)) (setG g0 6 0x20)

/-- The instruction is well formed and issues in a context of which p holds. -/
def meets (s : State) (i : Instr) (p : Ctx → Bool) : Bool :=
  WellFormed i && match ctxOf s (hdrOf i) with
    | some c => p c
    | none => false

/-- The instruction answers a next state in which p holds of the state and of group 0. -/
def after (s : State) (i : Instr) (p : State → Group → Bool) : Bool := match exec i s with
  | .next t => match groupOf t ⟨r0, 0⟩ with
    | some g => p t g
    | none => false
  | _ => false

/-- A step of the machine answers a next state in which p holds. -/
def afterEvent (s : State) (i : Instr) (p : State → Bool) : Bool := match exec i s with
  | .next t => p t
  | _ => false

/-! Decoding: words written out from the encoding tables of the spec (R174, R177, R225 and the tables of each class). -/

/-- A word from its fields, as R174 places them. -/
def wd (opc mod d a b imm : Nat) (gp : Nat := 7) (dly : Nat := 0) : Nat :=
  opc + mod * 2 ^ 8 + d * 2 ^ 16 + a * 2 ^ 26 + b * 2 ^ 36 + imm * 2 ^ 46 + gp * 2 ^ 78 + dly * 2 ^ 86

/-- Every word of a list decodes to its instruction. -/
def decodesAll (l : List (Nat × Instr)) : Bool := l.all fun p => decide (decodeTableWord 96 p.1 = some p.2)

/-- The unconditional header. -/
def hd : Hdr := ⟨false, 7, false, 0, false, 0⟩

/-- R225 to R231: TYPE in MOD[11:8], SAT in MOD[12], X in MOD[15:13]; T in IMM[9:0]. -/
def words_integer : List (Nat × Instr) := [
    (wd 0x00 0x12 0x003 0x001 0x106 0 3 1, .iadd ⟨⟨false, 3, false, 0, false, 1⟩, 0, true, .s32, .v 3, .v 1, .g 6⟩),
    (wd 0x01 0x03 0x004 0x106 0x3FD 0, .isub ⟨hd, 0, false, .s64, .v 4, .g 6, .im 0xFD⟩),
    (wd 0x02 0x06 0x003 0x001 0x002 0, .imul ⟨hd, 0, false, .n32, .v 3, .v 1, .v 2⟩),
    (wd 0x03 0x05 0x003 0x001 0x002 0, .imulh ⟨hd, 0, false, .n16, .v 3, .v 1, .v 2⟩),
    (wd 0x04 0x14 0x003 0x001 0x002 0x109, .imad ⟨hd, 0, true, .n8, .v 3, .v 1, .v 2, .g 9⟩),
    (wd 0x05 0x00 0x003 0x001 0x002 0, .imin ⟨hd, 0, false, .s8, .v 3, .v 1, .v 2⟩),
    (wd 0x06 0x01 0x003 0x001 0x002 0, .imax ⟨hd, 0, false, .s16, .v 3, .v 1, .v 2⟩),
    (wd 0x07 0x12 0x003 0x001 0 0, .iabs ⟨hd, 0, true, .s32, .v 3, .v 1⟩),
    (wd 0x08 0x02 0x103 0x101 0 0, .ineg ⟨hd, 0, false, .s32, .g 3, .g 1⟩),
    (wd 0x09 0x06 0x003 0x001 0x3FF 0, .and ⟨hd, 0, false, .n32, .v 3, .v 1, .im 0xFF⟩),
    (wd 0x0A 0x07 0x002 0x004 0x006 0, .or ⟨hd, 0, false, .n64, .v 2, .v 4, .v 6⟩),
    (wd 0x0B 0x06 0x003 0x001 0x002 0, .xor ⟨hd, 0, false, .n32, .v 3, .v 1, .v 2⟩),
    (wd 0x0C 0x06 0x003 0x001 0x002 0, .andn ⟨hd, 0, false, .n32, .v 3, .v 1, .v 2⟩),
    (wd 0x0D 0x06 0x003 0x001 0 0, .not ⟨hd, 0, false, .n32, .v 3, .v 1⟩),
    (wd 0x0E 0x06 0x003 0x001 0x305 0, .shl ⟨hd, 0, false, .n32, .v 3, .v 1, .im 5⟩),
    (wd 0x0F 0x07 0x102 0x101 0x305 0, .shr ⟨hd, 0, false, .n64, .g 2, .g 1, .im 5⟩),
    (wd 0x10 0x02 0x003 0x001 0x002 0, .sar ⟨hd, 0, false, .s32, .v 3, .v 1, .v 2⟩),
    (wd 0x11 0x06 0x003 0x001 0x002 0, .rol ⟨hd, 0, false, .n32, .v 3, .v 1, .v 2⟩),
    (wd 0x12 0x07 0x002 0x004 0 0, .popc ⟨hd, 0, false, .n64, .v 2, .v 4⟩),
    (wd 0x13 0x06 0x003 0x001 0 0, .clz ⟨hd, 0, false, .n32, .v 3, .v 1⟩),
    (wd 0x14 0x06 0x003 0x001 0 0, .brev ⟨hd, 0, false, .n32, .v 3, .v 1⟩),
    (wd 0x15 0x02 0x003 0x001 0x002 0, .bfx ⟨hd, 0, false, .s32, .v 3, .v 1, .v 2⟩),
    (wd 0x16 0x06 0x003 0x001 0x002 0x007, .bfi ⟨hd, 0, false, .n32, .v 3, .v 1, .v 2, .v 7⟩),
    (wd 0x17 0x06 0x003 0x001 0x100 0xE0053, .bsel ⟨hd, 0, false, .n32, .v 3, .v 1, .g 0, 0xE0053⟩),
    (wd 0x18 0xA2 0x203 0x001 0x002 0, .icmp ⟨hd, 5, false, .s32, .sp 0 3, .v 1, .v 2⟩),
    (wd 0x19 0x67 0x108 0x109 0x10A 0, .lea ⟨hd, 3, false, .n64, .g 8, .g 9, .g 10⟩),
    (wd 0x1A 0x26 0x003 0x001 0x002 0x201, .iaddx ⟨hd, 1, false, .n32, .v 3, .v 1, .v 2, .sp 0 1⟩)]

theorem test_decode_integer : decodesAll words_integer = true := by decide +kernel

/-- R232 to R243: RND in MOD[14:12], TYPE in MOD[11:8]; FCMP's COND in MOD[15:12]; CVT's slots in IMM. -/
def words_float : List (Nat × Instr) := [
    (wd 0x20 0x18 0x003 0x001 0x002 0, .fadd ⟨hd, .rz, .f32, .v 3, .v 1, .v 2⟩),
    (wd 0x21 0x28 0x003 0x001 0x002 0, .fsub ⟨hd, .ru, .f32, .v 3, .v 1, .v 2⟩),
    (wd 0x22 0x38 0x003 0x001 0x102 0, .fmul ⟨hd, .rd, .f32, .v 3, .v 1, .g 2⟩),
    (wd 0x23 0x08 0x003 0x001 0x002 0x006, .ffma ⟨hd, .rne, .f32, .v 3, .v 1, .v 2, .v 6⟩),
    (wd 0x24 0x08 0x003 0x001 0x002 0, .fmin ⟨hd, .rne, .f32, .v 3, .v 1, .v 2⟩),
    (wd 0x25 0x08 0x103 0x101 0x302 0, .fmax ⟨hd, .rne, .f32, .g 3, .g 1, .im 2⟩),
    (wd 0x26 0x78 0x201 0x002 0x003 0, .fcmp ⟨hd, .nan, .f32, .sp 0 1, .v 2, .v 3⟩),
    (wd 0x27 0x08 0x003 0x001 0 0, .frcp ⟨hd, .rne, .f32, .v 3, .v 1⟩),
    (wd 0x28 0x08 0x003 0x001 0 0, .frsq ⟨hd, .rne, .f32, .v 3, .v 1⟩),
    (wd 0x29 0x08 0x003 0x001 0 0, .fsqrt ⟨hd, .rne, .f32, .v 3, .v 1⟩),
    (wd 0x2A 0x08 0x003 0x001 0 0, .fex2 ⟨hd, .rne, .f32, .v 3, .v 1⟩),
    (wd 0x2B 0x08 0x003 0x001 0 0, .flg2 ⟨hd, .rne, .f32, .v 3, .v 1⟩),
    (wd 0x2C 0x08 0x003 0x001 0 0, .fsin ⟨hd, .rne, .f32, .v 3, .v 1⟩),
    (wd 0x2D 0x08 0x003 0x001 0 0, .fcos ⟨hd, .rne, .f32, .v 3, .v 1⟩),
    (wd 0x2E 0x08 0x202 0x007 0 0x181, .fclass ⟨hd, .rne, .f32, .sp 0 2, .v 7, 0x181⟩),
    (wd 0x2F 0x08 0x003 0x001 0x002 0, .fscale ⟨hd, .rne, .f32, .v 3, .v 1, .v 2⟩),
    (wd 0x30 0x8B 0x00A 0x004 0 0x108 7 5, .cvt ⟨⟨false, 7, false, 0, false, 5⟩, true, .rne, .e4m3, .f32, 2, 0, .v 10, .v 4⟩),
    (wd 0x31 0x09 0x003 0x001 0x002 0, .padd2 ⟨hd, .rne, .bf16, .v 3, .v 1, .v 2⟩),
    (wd 0x32 0x1A 0x003 0x001 0x002 0, .pmul2 ⟨hd, .rz, .f16, .v 3, .v 1, .v 2⟩),
    (wd 0x33 0x29 0x008 0x001 0x002 0x003, .pfma2 ⟨hd, .ru, .bf16, .v 8, .v 1, .v 2, .v 3⟩),
    (wd 0x34 0x08 0x008 0x00C 0x010 0, .lsemrg ⟨hd, .rne, .f32, .v 8, .v 12, .v 16⟩)]

theorem test_decode_float : decodesAll words_float = true := by decide +kernel

/-- R244 to R253. -/
def words_move : List (Nat × Instr) := [
    (wd 0x40 0x02 0x004 0x008 0 0, .mov ⟨hd, .b128, .v 4, .v 8⟩),
    (wd 0x41 0x05 0x102 0 0 0x3F800000, .movi ⟨hd, true, true, .g 2, 0x3F800000⟩),
    (wd 0x42 0x00 0x003 0x001 0x302 0x204, .sel ⟨hd, false, .v 3, .v 1, .im 2, .sp 0 4⟩),
    (wd 0x43 0x19 0x201 0x207 0x206 0, .pset ⟨hd, true, true, .or, .sp 0 1, .sp 0 7, .sp 0 6⟩),
    (wd 0x44 0x00 0x005 0 0 0, .pmovTov ⟨hd, .v 5⟩),
    (wd 0x44 0x01 0 0x006 0 0x41, .pmovFromv ⟨hd, .v 6, 0x41⟩),
    (wd 0x45 0x0D 0x102 0 0 0, .sread ⟨hd, .cycles, .g 2⟩),
    (wd 0x46 0x00 0x212 0x104 0x310 0, .modset ⟨hd, false, .sp 1 2, .g 4, .im 16⟩),
    (wd 0x47 0x00 0x223 0x108 0x109 0, .bndset ⟨hd, .sp 2 3, .g 8, .g 9⟩)]

theorem test_decode_move : decodesAll words_move = true := by decide +kernel

/-- R254, R256, R263, R268, R271. CALL's word is the one worked under R259. -/
def words_control : List (Nat × Instr) := [
    (wd 0x50 0x80 0 0 0 0xFFFFFFFC, .bra ⟨hd, 0x80, 0xFFFFFFFC⟩),
    (wd 0x51 0x0A 0 0x004 0 0, .brx ⟨hd, 10, .v 4⟩),
    (wd 0x52 0x80 0x008 0 0 0x0000FA04, .call ⟨hd, 128, .v 8, 0x7D, 4⟩),
    (wd 0x53 0x80 0x008 0x105 0 0x100, .callx ⟨hd, 128, .v 8, .g 5, 256⟩),
    (wd 0x54 0 0 0x008 0 0, .ret ⟨hd, .v 8⟩),
    (wd 0x55 0 0 0 0 0 0xB, .exit ⟨true, 3, false, 0, false, 0⟩),
    (wd 0x56 0 0 0 0 0, .rcv hd),
    (wd 0x57 0 0 0 0 0, .yield hd),
    (wd 0x58 0 0 0 0 0xFFFFFF, .sleep ⟨hd, 0xFFFFFF⟩),
    (wd 0x60 0x02 0x231 0 0 0, .part ⟨hd, .sz8, .sp 3 1⟩),
    (wd 0x61 0x30 0x004 0x202 0 0x232, .vote ⟨hd, .ballot, .v 4, .sp 0 2, .sp 3 2⟩),
    (wd 0x62 0x31 0x004 0x006 0x301 0x230, .shfl ⟨hd, .xor, true, .v 4, .v 6, .im 1, .sp 3 0⟩),
    (wd 0x63 0x02 0x003 0x001 0 0x232 1, .reduce ⟨⟨false, 1, false, 0, false, 0⟩, .add, .s32, .v 3, .v 1, .sp 3 2⟩),
    (wd 0x64 0x22 0x007 0x003 0 0x632, .scan ⟨hd, .max, .s32, true, .v 7, .v 3, .sp 3 2⟩),
    (wd 0x65 0x02 0x004 0x008 0x303 0x230, .bcast ⟨hd, .b128, .v 4, .v 8, .im 3, .sp 3 0⟩),
    (wd 0x66 0 0 0x105 0x302 3, .bara ⟨hd, .g 5, .im 2, 3⟩),
    (wd 0x67 0 0 0x100 0x109 7, .barw ⟨hd, .g 0, .g 9, 7⟩),
    (wd 0x68 0 0 0x100 0x304 0, .bars ⟨hd, .g 0, .im 4, 0⟩),
    (wd 0x69 0x01 0 0 0 0, .tbar ⟨hd, true⟩),
    (wd 0x6A 0 0 0 0 0, .gbar hd)]

theorem test_decode_control : decodesAll words_control = true := by decide +kernel

/-- R274, R275, R280, R282, R284, R285. -/
def words_buffer : List (Nat × Instr) := [
    (wd 0x70 0x1A 0x003 0x105 0 0xFFFFFFF0, .ldw ⟨hd, false, .feclr, .b32, .v 3, .g 5, .off 0xFFFFFFF0⟩),
    (wd 0x71 0x4C 0x008 0x104 0 (0x212 + 48 * 2 ^ 10), .lda ⟨hd, false, .fe, .b128, .v 8, .g 4, .modulo (.sp 1 2) 48⟩),
    (wd 0x71 0x82 0x003 0x105 0 0x40, .lda ⟨hd, true, .plain, .b32, .v 3, .g 5, .off 0x40⟩),
    (wd 0x72 0x0B 0x223 0x006 0x00A 8, .sta ⟨hd, false, .f32, .b64, .sp 2 3, .v 6, .v 10, .off 8⟩),
    (wd 0x73 0x25 0x104 0x105 0 4, .ldc ⟨hd, false, .plain, .s8, .g 4, .g 5, .post 4⟩),
    (wd 0x74 0x11 0x221 0x006 0x007 0, .stc ⟨hd, false, .bf16, .b16, .sp 2 1, .v 6, .v 7, .off 0⟩),
    (wd 0x75 0x0A 0x220 0x006 0x007 16, .acc ⟨hd, false, .f32, .b32, .sp 2 0, .v 6, .v 7, .off 16⟩),
    (wd 0x76 0x40 0x010 0x107 0x340 (0x1000 * 2 ^ 10), .ldfrag ⟨hd, true, false, .w, .op, .v 16, .g 7, .im 0x40, 0x1000⟩),
    (wd 0x77 0x13 0x223 0x107 0x102 (0x010 + 64 * 2 ^ 10), .stfrag ⟨hd, false, .c, .acc, .sp 2 3, .g 7, .g 2, .v 16, 64⟩),
    (wd 0x78 0x01 0 0x006 0x104 0x20, .feset ⟨hd, false, true, .v 6, .g 4, 0x20⟩),
    (wd 0x79 0x81 0 0x106 0x304 0, .feclr ⟨hd, true, true, .g 6, .im 4, 0⟩),
    (wd 0x7A 0x00 0x103 0x106 0x304 0x10, .feprobe ⟨hd, false, false, .g 3, .g 6, .im 4, 0x10⟩),
    (wd 0x7B 0x06 0x003 0x304 0 0xFFFFFFFE, .lds ⟨hd, .s16, .v 3, .im 4, 0xFFFFFFFE⟩),
    (wd 0x7C 0x03 0 0x005 0x106 8, .sts ⟨hd, .b64, .v 5, .g 6, 8⟩)]

theorem test_decode_buffer : decodesAll words_buffer = true := by decide +kernel

/-- R286, R287, R290. -/
def words_far : List (Nat × Instr) := [
    (wd 0x80 0x8A 0x002 0x106 0 (0x3FFFFF * 2 ^ 10), .fld ⟨hd, .dev, .acq, .b32, .v 2, .g 6, 0x3FFFFF⟩),
    (wd 0x81 0x52 0x223 0x00C 0x005 (1 + 8 * 2 ^ 10), .fst ⟨hd, .gang, .rel, .b32, .f32, .sp 2 3, .v 12, .v 5, 8⟩),
    (wd 0x82 0x1B 0x004 0x00C 0x301 (8 + 16 * 2 ^ 10), .fatom ⟨hd, .grp, .ar, .b64, .exch, .v 4, .v 12, .im 1, 16⟩),
    (wd 0x83 0x7A 0x103 0x106 0x107 (0x108 + 4 * 2 ^ 10), .fcas ⟨hd, .die, .ar, .b32, .g 3, .g 6, .g 7, .g 8, 4⟩),
    (wd 0x84 0xB0 0 0 0 0, .fence ⟨hd, .sys, .rel⟩)]

theorem test_decode_far : decodesAll words_far = true := by decide +kernel

/-- R303, R305, R309, R311, R313. -/
def words_matrix : List (Nat × Instr) := [
    (wd 0x90 0x0C 0x020 0x008 0x00C 0, .mma ⟨hd, .bf16, true, .v 32, .v 8, .v 12⟩),
    (wd 0x91 0x00 0x020 0x008 0x00C 0x107, .mmam ⟨hd, .f16, false, .v 32, .v 8, .v 12, .g 7⟩),
    (wd 0x92 0x00 0x020 0x028 0x004 0x006, .scacc ⟨hd, .v 32, .v 40, .v 4, .v 6⟩),
    (wd 0x93 0x88 0 0x105 0 (0x100 * 2 ^ 10), .cbld ⟨hd, true, true, .g 5, 0x100⟩),
    (wd 0x94 0x40 0x220 0x105 0x106 (0x020 + 16 * 2 ^ 10), .mdrain ⟨hd, true, .sp 2 0, .g 5, .g 6, .v 32, 16⟩),
    (wd 0x94 0x80 0x220 0x105 0 0x028, .mdrainRaw ⟨hd, .sp 2 0, .g 5, .v 40, 0⟩),
    (wd 0x95 0x00 0x028 0x105 0x340 (32 * 2 ^ 10), .mfill ⟨hd, .v 40, .g 5, .im 0x40, 32⟩),
    (wd 0x95 0x80 0x028 0x105 0 0, .mfillRaw ⟨hd, .v 40, .g 5, 0⟩)]

theorem test_decode_matrix : decodesAll words_matrix = true := by decide +kernel

/-- R322, R341, R348, R349, R351, R356. -/
def words_engine : List (Nat × Instr) := [
    (wd 0xA0 0x20 0 0x105 0x006 0x40, .creq ⟨hd, .g 5, .v 6, .post 0x40⟩),
    (wd 0xA1 0x00 0 0x105 0x104 0x40, .kick ⟨hd, .g 5, .g 4, .off 0x40⟩),
    (wd 0xA2 0x00 0x103 0 0 0, .cseal ⟨hd, .g 3⟩),
    (wd 0xA3 0x00 0 0 0x302 0, .cwait ⟨hd, .im 2⟩),
    (wd 0xA4 0x00 0 0x105 0 6, .sbind ⟨hd, .g 5, 6⟩),
    (wd 0xA5 0x00 0 0 0 5, .sgo ⟨hd, 5⟩),
    (wd 0xA6 0x00 0 0 0x303 1, .srel ⟨hd, .im 3, 1⟩),
    (wd 0xA7 0x80 0 0x105 0 0x10, .awaitObj ⟨hd, true, .g 5, 0x10⟩),
    (wd 0xA7 0x01 0 0 0x107 2, .awaitSlot ⟨hd, .g 7, 2⟩),
    (wd 0xA8 0x00 0x103 0x105 0 0x10, .astatObj ⟨hd, false, .g 3, .g 5, 0x10⟩),
    (wd 0xA8 0x01 0x103 0 0x107 2, .astatSlot ⟨hd, .g 3, .g 7, 2⟩),
    (wd 0xA9 0x00 0 0x105 0 0x40, .nbreq ⟨hd, .g 5, 0x40⟩),
    (wd 0xAA 0x00 0 0x105 0 0x80, .attq ⟨hd, .g 5, 0x80⟩),
    (wd 0xAB 0x00 0x103 0x104 0x105 0, .kvget ⟨hd, .g 3, .g 4, .g 5⟩),
    (wd 0xAC 0x00 0 0x104 0 0, .kvput ⟨hd, .g 4⟩),
    (wd 0xAD 0x00 0 0x104 0x105 0, .kvlnkSucc ⟨hd, .g 4, .g 5⟩),
    (wd 0xAD 0x01 0 0x104 0x310 0, .kvlnkTok ⟨hd, .g 4, .im 16⟩)]

theorem test_decode_engine : decodesAll words_engine = true := by decide +kernel

/-- R368: the words worked under R368. -/
def words_ladder : List (Nat × Instr) := [
    (0x0001C000_00400004_100000B0, .lspawn ⟨hd, 0, .g 4, .v 0, 0x100⟩),
    (wd 0xB0 0x03 0 0 0 0, .lspawnClose ⟨hd, 1⟩),
    (wd 0xB1 0x00 0 0x005 0 0x40, .lesc ⟨hd, .v 5, 0x40⟩),
    (wd 0xB2 0x02 0x220 0 0x005 0, .ldone ⟨hd, .none, .b32, .sp 2 0, .v 5⟩),
    (wd 0xB3 0x08 0x105 0 0 1, .lstat ⟨hd, .arr, 0, .g 5, 1⟩)]

theorem test_decode_ladder : decodesAll words_ladder = true := by decide +kernel

/-- R385. -/
def words_system : List (Nat × Instr) := [
    (wd 0xB8 0x00 0x107 0x004 0x106 0x1234, .syscall ⟨hd, .g 7, .v 4, .g 6, 0x1234⟩),
    (wd 0xB9 0x00 0 0 0 0xFFFF, .trap ⟨hd, 0xFFFF⟩),
    (wd 0xBA 0x00 0x103 0 0 2, .featq ⟨hd, .g 3, 2⟩),
    (wd 0xBB 0x00 0 0 0 0, .refresh hd),
    (wd 0xBC 0x00 0 0 0 5, .bkpt ⟨hd, 5⟩),
    (0x01668000_00000000_000000BD, .nop ⟨true, 2, true, 0, true, 5⟩),
    (wd 0xC0 0x00 0 0 0 0, .eret hd),
    (wd 0xC0 0x01 0 0 0 0, .eretSkip hd),
    (wd 0xC1 0x00 0 0x104 0x105 0, .tnode ⟨hd, false, .g 4, .g 5⟩),
    (wd 0xC1 0x01 0 0x104 0 0, .tnode ⟨hd, true, .g 4, .v 0⟩),
    (wd 0xC2 0x03 0 0x104 0x105 0x3FF, .tset ⟨hd, 3, .g 4, .g 5, 0x3FF⟩),
    (wd 0xC3 0x00 0x103 0x104 0x105 0x106, .rswap ⟨hd, .g 3, .g 4, .g 5, .g 6⟩),
    (wd 0xC4 0x00 0x103 0x304 0x305 0, .rcopy ⟨hd, .g 3, .im 4, .im 5⟩),
    (wd 0xC5 0x00 0 0x304 0 0, .rdrop ⟨hd, .im 4⟩),
    (wd 0xC5 0x01 0 0x104 0 0, .rdropNode ⟨hd, .g 4⟩),
    (wd 0xC6 0x00 0 0x104 0 0, .tinv ⟨hd, .g 4⟩),
    (wd 0xC7 0x00 0 0x304 0 0, .ldreset ⟨hd, .im 4⟩),
    (wd 0xC8 0x00 0 0x104 0x105 0, .diagstHbm ⟨hd, .g 4, .g 5⟩),
    (wd 0xC8 0x01 0 0x104 0x105 0, .diagstSram ⟨hd, .g 4, .g 5⟩),
    (wd 0xC9 0x00 0 0x104 0x105 0, .diagldHbm ⟨hd, .g 4, .g 5⟩),
    (wd 0xC9 0x01 0 0x104 0x105 0, .diagldSram ⟨hd, .g 4, .g 5⟩),
    (wd 0xCA 0x00 0 0x104 0 (0x400 + 3 * 2 ^ 16), .swrite ⟨hd, .g 4, .v 0, 0x400, 3⟩),
    (wd 0xCB 0x00 0x103 0 0x105 0x404, .privrd ⟨hd, .g 3, .g 5, 0x404, 0⟩)]

theorem test_decode_system : decodesAll words_system = true := by decide +kernel

/-! Arithmetic and moves: every hypothesis of their statements is met by the words above on a small state; results from the
worked examples of spec/09_scalar_vector_instructions.md. -/

/-- Hypotheses of IntegerArithmetic, LogicAndBitFields and RegOnlyFrame. -/
theorem test_meets_integer : (words_integer.all fun p => meets (st g1) p.2 fun c => c.any || c.act == 0) = true := by decide +kernel
/-- Hypotheses of FloatArithmetic, FloatMinMax, FloatFunctionsAndCompare, ConversionAndMerge. -/
theorem test_meets_float : (words_float.all fun p => meets (st g1) p.2 fun c => c.any) = true := by decide +kernel
/-- Hypotheses of MovesAndSpecialValues, PredicatesModuloBounds. -/
theorem test_meets_move : (words_move.all fun p => meets (st g1) p.2 fun c => c.any) = true := by decide +kernel

/-- RegOnlyFrame: the instruction ends with the same bank. -/
theorem test_meets_frame : ((words_integer ++ words_float ++ words_move).all fun p => regOnly p.2 &&
    after (st g1) p.2 fun t g => t.issuing.isNone && g.handler.isNone) = true := by decide +kernel

/-- R226: with v1 = 0x7FFF_FFF0 and g6 = 0x20, .sat gives 0x7FFF_FFFF, else 0x8000_0010. -/
theorem test_iadd_sat : (after (st g1) (.iadd ⟨hd, 0, true, .s32, .v 3, .v 1, .g 6⟩) fun _ g => getV g 3 5 == 0x7FFFFFFF) = true := by
  decide +kernel
theorem test_iadd_wraps : (after (st g1) (.iadd ⟨hd, 0, false, .s32, .v 3, .v 1, .g 6⟩) fun _ g => getV g 3 5 == 0x80000010) = true := by
  decide +kernel
/-- A lane whose guard is false keeps its destination (R224). -/
theorem test_iadd_guard : (after (st g1) (.iadd ⟨⟨false, 1, false, 0, false, 0⟩, 0, false, .s32, .v 2, .v 1, .g 6⟩) fun _ g =>
    getV g 2 4 == 0x80000010 && getV g 2 5 == 5) = true := by decide +kernel
/-- R222: a signed result is extended to 64 bits in a uniform register, an unsigned one with zeros. -/
theorem test_isub_uniform : (after (st g1) (.isub ⟨hd, 0, false, .s32, .g 3, .im 0, .g 6⟩) fun _ g =>
    getG g 3 == 0xFFFFFFFFFFFFFFE0) = true := by decide +kernel
theorem test_isub_unsigned : (after (st g1) (.isub ⟨hd, 0, false, .n32, .g 3, .im 0, .g 6⟩) fun _ g => getG g 3 == 0xFFFFFFE0) = true := by
  decide +kernel
theorem test_imulh : (after (st g1) (.imulh ⟨hd, 0, false, .s32, .v 3, .v 1, .im 0xFF⟩) fun _ g => getV g 3 0 == 0xFFFFFFFF) = true := by
  decide +kernel
theorem test_ineg_least : (after (st (setG g0 2 0x80000000)) (.ineg ⟨hd, 0, true, .s32, .g 3, .g 2⟩) fun _ g => getG g 3 == 0x7FFFFFFF) = true := by
  decide +kernel
/-- R227: SAR by the width or more leaves the sign; the count is B[7:0]. -/
theorem test_sar_long : (after (st (setG g0 2 0x80000000)) (.sar ⟨hd, 0, false, .n32, .g 3, .g 2, .im 32⟩) fun _ g => getG g 3 == 0xFFFFFFFF) = true := by
  decide +kernel
theorem test_shl_count : (after (st (setG g0 2 0x104)) (.shl ⟨hd, 0, false, .n32, .g 3, .im 1, .g 2⟩) fun _ g => getG g 3 == 0x10) = true := by
  decide +kernel
/-- R229: the examples of BSEL. -/
theorem test_bsel : ((after (st (setG g0 2 0x11223344)) (.bsel ⟨hd, 0, false, .n32, .g 3, .g 2, .g 0, 0x053⟩) fun _ g => getG g 3 == 0x44332211) &&
    (after (st (setG g0 2 0x11223344)) (.bsel ⟨hd, 0, false, .n32, .g 3, .g 2, .g 0, 0xE000⟩) fun _ g => getG g 3 == 0x44) &&
    after (st (setG g0 2 0x11223344)) (.bsel ⟨hd, 0, false, .n32, .g 3, .g 2, .g 0, 0xE0000⟩) fun _ g => getG g 3 == 0x44444444) = true := by
  decide +kernel
/-- R231: with T = p7 the carry-in is 1 and the carry-out is discarded. -/
theorem test_iaddx_p7 : (after (st g1) (.iaddx ⟨hd, 0, false, .n32, .v 3, .v 2, .im 0xFF, .sp 0 7⟩) fun _ g => getV g 3 6 == 6 && getP g 7 6) = true := by
  decide +kernel
/-- R238: the worked PFMA2, rounded to even and up. -/
theorem test_pfma2 : ((after (st (setG (setG (setG g0 1 0x40403F80) 2 0x3F004000) 3 0xBF803C00)) (.pfma2 ⟨hd, .rne, .bf16, .g 8, .g 1, .g 2, .g 3⟩)
      fun _ g => getG g 8 == 0x3F004000) &&
    after (st (setG (setG (setG g0 1 0x40403F80) 2 0x3F004000) 3 0xBF803C00)) (.pfma2 ⟨hd, .ru, .bf16, .g 8, .g 1, .g 2, .g 3⟩)
      fun _ g => getG g 8 == 0x3F004001) = true := by decide +kernel
/-- "Packing four FP8 values": the third and fourth conversions. -/
theorem test_cvt_e4m3 : ((after (st (setG (setG g0 2 0x43FA0000) 3 0xAA38)) (.cvt ⟨hd, true, .rne, .e4m3, .f32, 2, 0, .g 3, .g 2⟩)
      fun _ g => getG g 3 == 0x7EAA38) &&
    (after (st (setG (setG g0 2 0x43FA0000) 3 0xAA38)) (.cvt ⟨hd, false, .rne, .e4m3, .f32, 2, 0, .g 3, .g 2⟩) fun _ g => getG g 3 == 0x7FAA38) &&
    after (st (setG (setG g0 2 0x3A83126F) 3 0x7EAA38)) (.cvt ⟨hd, true, .rne, .e4m3, .f32, 3, 0, .g 3, .g 2⟩) fun _ g => getG g 3 == 0x17EAA38) = true := by
  decide +kernel
/-- R241: CVT.f32.n8 of the immediate −1 converts 255. -/
theorem test_cvt_imm : (after (st g0) (.cvt ⟨hd, false, .rne, .f32, .n8, 0, 0, .g 3, .im 0xFF⟩) fun _ g => getG g 3 == 0x437F0000) = true := by
  decide +kernel
/-- R252, R253: the worked BNDSET; MODSET writes V = 0 for a length of 2^20. -/
theorem test_bndset : (after (st (setG (setG g0 8 0x40800000C0800000) 9 2)) (.bndset ⟨hd, .sp 2 3, .g 8, .g 9⟩) fun t _ =>
    (teamOf t r0).any fun u => getB u 3 == 0x40800000C08000000000000000000002) = true := by decide +kernel
theorem test_modset_long : (after (st (setG g0 4 (BitVec.ofNat 64 (2 ^ 20)))) (.modset ⟨hd, false, .sp 1 2, .im 0, .g 4⟩) fun _ g =>
    (getM g 2).getLsbD 63 == false) = true := by decide +kernel
/-- R249: PMOV.tov packs p7 to p0; p7 is true. -/
theorem test_pmov_tov : (after (st g1) (.pmovTov ⟨hd, .v 5⟩) fun _ g => getV g 5 2 == 0x82 && getV g 5 3 == 0x80) = true := by decide +kernel
/-- RoundExact: a pattern that meets its hypotheses. -/
theorem test_meets_round_exact : (decodeF fE4m3 0x7E ≠ .nan ∧ ∀ neg, decodeF fE4m3 0x7E ≠ .inf neg) := by decide +kernel

/-! Control, collectives, barriers. -/

/-- The machine with a trap handler at pointer 0x01_0000_0000_2000. -/
def armed (s : State) : State := setQb s 0 0x260 (mkPtr 1 0x2000)

/-- A group whose partition 2 is of size 8 over every lane, and whose entry has left lanes 16 to 31 in another entry. -/
def gSplit : Group :=
  { g1 with
    parts := lset g1.parts 2 ⟨2, BitVec.allOnes 32⟩
    frontier := [⟨mkPtr 1 0, 128, 0xFFFF, 0, .ready⟩, ⟨mkPtr 1 0x300, 100, 0xFFFF0000, 0, .ready⟩] }

/-- Its lanes 0 to 15 issue. -/
def stSplit : State := { st gSplit with issuing := some ⟨⟨r0, 0⟩, mkPtr 1 0, 128, 0xFFFF⟩ }

/-- BranchesAndCalls: the conditions of BRA, BRX, CALL and CALLX; SLIMIT is just reached. -/
theorem test_meets_branches :
    (meets stSplit (.bra ⟨hd, 0x80, 0xFFFFFFFC⟩) (fun c => decide (RoomFor c [mkPtr 1 0])) &&
    meets stSplit (.brx ⟨⟨false, 1, false, 0, false, 0⟩, 10, .g 6⟩) (fun c => decide (RoomFor c (c.lanes.map (srcD c.g (.g 6) 2)))) &&
    [Instr.call ⟨hd, 128, .v 8, 0x7D, 4⟩, .callx ⟨hd, 128, .v 8, .g 6, 4⟩].all fun i =>
      meets (st { g1 with slimit := 64 }) i fun c => decide (c.lanes ≠ [] ∧ 16 * 4 ≤ stackCap c.g ∧ (∀ l ∈ c.lanes, spOf c.g l + 16 * 4 ≤ c.g.slimit) ∧
        (∀ l ∈ c.lanes, c.g.frames.length > l) ∧ (∀ l ∈ c.lanes, stackFault c.s c.t c.gr c.g l (max (loOf c.g l) (spOf c.g l - stackCap c.g))
          (spOf c.g l + 16 * 4 - stackCap c.g) .write = none) ∧ RoomFor c (c.lanes.map fun _ => mkPtr 1 0x200))) = true := by decide +kernel

/-- The worked CALL: FS 4 at pointer 0x0300_0000_0001_0000 with priority 160. -/
theorem test_call : (after { st g0 with issuing := some ⟨⟨r0, 0⟩, mkPtr 3 0x10000, 160, BitVec.allOnes 32⟩ } (.call ⟨hd, 128, .v 8, 0x7D, 4⟩) fun _ g =>
    getV g 8 3 == 0x0001000C && getV g 9 3 == 0x03000000 && getV g 10 3 == 0x000004A0 && getV g 11 3 == 0 && spOf g 3 == 64 &&
    (frontOf g).any fun e => e.pc == mkPtr 3 0x10200 && e.prio == 128) = true := by decide +kernel

/-- The stack traps of a call: a frame beyond the cache; a lane above SLIMIT after lanes that are not. -/
theorem test_meets_stack_traps :
    (meets (armed (st { g1 with stkUnits := 1 })) (.call ⟨hd, 128, .v 8, 0, 256⟩) (fun c => decide (CanTrap c ∧ c.lanes ≠ [] ∧ stackCap c.g < 16 * 256)) &&
    meets (armed (st { g1 with slimit := 64, sp := [(5, 16)] })) (.callx ⟨hd, 128, .v 8, .g 6, 4⟩) (fun c => decide (CanTrap c ∧ 16 * 4 ≤ stackCap c.g ∧
      5 ∈ c.lanes ∧ (∀ k ∈ c.lanes, k < 5 → spOf c.g k + 16 * 4 ≤ c.g.slimit) ∧ c.g.slimit < spOf c.g 5 + 16 * 4))) = true := by decide +kernel

/-- A group with an open call of FS 4 in every lane: its link quad in v8 to v11. -/
def gCalled : Group :=
  (List.range 32).foldl (fun g l => setV (setV (setV g 8 l 0x1000C) 9 l 0x03000000) 10 l 0x4A0)
    { g0 with sp := (List.range 32).map fun l => (l, 64), frames := List.replicate 32 [64] }

/-- Returns: a quad that checks, and one that does not (FS above SP). -/
theorem test_meets_returns :
    (meets (st gCalled) (.ret ⟨hd, .v 8⟩) (fun c => decide ((∀ l ∈ c.lanes, (getV c.g 10 l).toNat < 2 ^ 17 ∧ getV c.g 11 l = 0 ∧
        (getV c.g 10 l).toNat / 256 % 512 ≤ 256 ∧ 16 * ((getV c.g 10 l).toNat / 256 % 512) ≤ spOf c.g l ∧
        stackFault (st gCalled) c.t c.gr c.g l (spOf c.g l - 64 - stackCap c.g) (min (spOf c.g l - 64) (loOf c.g l)) .read = none) ∧
        RoomFor c (c.lanes.map fun l => (getV c.g 9 l ++ getV c.g 8 l, (getV c.g 10 l).setWidth 8)))) &&
    meets (armed (st { gCalled with sp := (List.range 32).map fun l => (l, if l = 3 then 48 else 64) })) (.ret ⟨hd, .v 8⟩) (fun c =>
      decide (CanTrap c ∧ 3 ∈ c.lanes ∧ 16 * ((getV c.g 10 2).toNat / 256 % 512) ≤ spOf c.g 2 ∧ ¬16 * ((getV c.g 10 3).toNat / 256 % 512) ≤ spOf c.g 3))) = true := by
  decide +kernel
theorem test_ret : (after (st gCalled) (.ret ⟨hd, .v 8⟩) fun _ g => spOf g 9 == 0 && (frontOf g).any fun e => e.pc == mkPtr 3 0x1000C && e.prio == 160) = true := by
  decide +kernel

/-- ExitReconvergeYield: some lanes leave and some stay; no lane is active; RCV waits with another entry ready; RCV completes. -/
theorem test_meets_exit :
    (meets stSplit (.exit ⟨false, 1, false, 0, false, 0⟩) (fun c => decide (c.g.handler = none ∧ c.g.rung = none ∧ c.lanes ≠ [] ∧
      (∀ e ∈ others c.u (frontOf c.g), e.mask &&& c.u.mask = 0) ∧ (List.range 32).any (fun l => c.u.mask.getLsbD l && !c.lanes.contains l) = true ∧
      (others c.u (frontOf c.g)).length < depthOf c.g)) &&
    meets stSplit (.exit ⟨true, 7, false, 0, false, 0⟩) (fun c => decide (c.lanes = [])) &&
    meets stSplit (.rcv hd) (fun c => decide (c.g.rung = none ∧ c.g.handler = none ∧ (∃ e ∈ others c.u (frontOf c.g), e.st = .ready) ∧
      (others c.u (frontOf c.g)).length < depthOf c.g)) &&
    (wakeable (st { g1 with frontier := [⟨mkPtr 1 0x30, 9, 0xFFFF, 3, .waiting .rcv 4⟩, ⟨mkPtr 1 0x30, 7, 0xFFFF0000, 0, .waiting .rcv 2⟩] }) ⟨r0, 0⟩).isSome &&
    [Instr.yield hd, .nop hd, .sleep ⟨hd, 100⟩].all fun i => meets stSplit i fun _ => true) = true := by decide +kernel
theorem test_rcv_complete : (afterEvent (st { g1 with frontier := [⟨mkPtr 1 0x30, 9, 0xFFFF, 3, .waiting .rcv 4⟩, ⟨mkPtr 1 0x30, 7, 0xFFFF0000, 0, .waiting .rcv 2⟩] })
    (.rcvComplete ⟨r0, 0⟩ (mkPtr 1 0x30)) fun t => (groupOf t ⟨r0, 0⟩).any fun g => g.frontier == [⟨mkPtr 1 0x3C, 9, BitVec.allOnes 32, 0, .ready⟩]) = true := by
  decide +kernel

/-- PartitionsAndWaits: with and without active lanes; a busy partition; an undefined partition; a wait that has converged. -/
theorem test_meets_partitions :
    (meets stSplit (.part ⟨⟨true, 7, false, 0, false, 0⟩, .sz8, .sp 3 1⟩) (fun c => decide (c.lanes = [])) &&
    meets stSplit (.part ⟨hd, .sz16, .sp 3 7⟩) (fun c => decide (c.lanes ≠ [] ∧ (∀ e ∈ c.g.frontier, collOn 7 e = false) ∧ 7 < c.g.parts.length)) &&
    meets (armed (st { g1 with frontier := [⟨mkPtr 1 0, 128, 0xFFFF, 0, .ready⟩, ⟨mkPtr 1 0x300, 100, 0xFFFF0000, 0,
        .waiting (.coll (.vote ⟨hd, .all, .sp 0 1, .sp 0 2, .sp 3 1⟩) 0 [] []) 0⟩] })) (.part ⟨hd, .sz8, .sp 3 1⟩)
      (fun c => decide (c.lanes ≠ [] ∧ (∃ e ∈ c.g.frontier, collOn 1 e = true) ∧ CanTrap c)) &&
    [Instr.vote ⟨hd, .all, .sp 0 1, .sp 0 2, .sp 3 1⟩, .shfl ⟨hd, .idx, false, .v 3, .v 1, .im 0, .sp 3 1⟩,
      .reduce ⟨hd, .add, .s32, .v 3, .v 1, .sp 3 1⟩, .scan ⟨hd, .add, .s32, false, .v 3, .v 1, .sp 3 1⟩,
      .bcast ⟨hd, .b32, .v 3, .v 1, .im 0, .sp 3 1⟩].all fun i => meets (armed stSplit) i fun c => decide ((partOf c.g 1).lanes = 0 ∧ CanTrap c)) = true := by
  decide +kernel

/-- A group in which lanes 0 to 15 have reached a vote on partition 2. -/
def gVote : Group :=
  { gSplit with frontier := [⟨mkPtr 1 0, 128, 0xFFFF, 0, .waiting (.coll (.vote ⟨hd, .any, .sp 0 3, .sp 0 1, .sp 3 2⟩) 0xFFFF [] []) 0⟩,
      ⟨mkPtr 1 0x300, 100, 0xFFFF0000, 0, .ready⟩] }
theorem test_meets_converge : ((wakeable (st gVote) ⟨r0, 0⟩).isSome &&
    ((frontOf gVote).find? fun e => e.mask.getLsbD 2 && collReady gVote (frontOf gVote) e).isSome) = true := by decide +kernel

/-- Every sub-group that holds a lane of the entry has converged, as Converged says. -/
def converged (c : Ctx) (p : Part) : Bool :=
  p.lanes != 0 && decide ((others c.u (frontOf c.g)).length < depthOf c.g) && (others c.u (frontOf c.g)).all fun e =>
    (e.pc != c.u.pc || e.prio != c.u.prio) && (List.range 32).all fun l => !(e.mask.getLsbD l && p.mem.getLsbD l) ||
      (List.range 32).all fun k => !c.u.mask.getLsbD k || k / p.lanes != l / p.lanes

/-- Collectives: converged sub-groups of eight, with lanes 16 to 31 elsewhere. -/
theorem test_meets_collectives :
    ([Instr.vote ⟨hd, .ballot, .v 4, .sp 0 1, .sp 3 2⟩, .vote ⟨hd, .uni, .sp 0 3, .sp 0 1, .sp 3 2⟩, .shfl ⟨hd, .up, false, .v 3, .v 2, .im 1, .sp 3 2⟩,
      .reduce ⟨hd, .add, .s32, .v 3, .v 2, .sp 3 2⟩, .scan ⟨hd, .max, .n32, true, .v 3, .v 2, .sp 3 2⟩,
      .bcast ⟨hd, .b64, .v 4, .v 2, .im 3, .sp 3 2⟩].all fun i => meets stSplit i fun c => converged c (partOf c.g 2)) = true := by decide +kernel
/-- R266: the sum over a sub-group of eight lanes; the scan below each lane; SHFL.up keeps the lane's own value at the bottom. -/
theorem test_reduce : (after stSplit (.reduce ⟨hd, .add, .s32, .v 3, .v 2, .sp 3 2⟩) fun _ g => getV g 3 1 == 28 && getV g 3 9 == 92 && getV g 3 16 == 0) = true := by
  decide +kernel
theorem test_scan_excl : (after stSplit (.scan ⟨hd, .add, .n32, true, .v 3, .v 2, .sp 3 2⟩) fun _ g => getV g 3 8 == 0 && getV g 3 10 == 17) = true := by
  decide +kernel
theorem test_shfl_up : (after stSplit (.shfl ⟨hd, .up, false, .v 3, .v 2, .im 1, .sp 3 2⟩) fun _ g => getV g 3 0 == 0 && getV g 3 9 == 8 && getV g 3 7 == 6) = true := by
  decide +kernel
theorem test_vote_ballot : (after stSplit (.vote ⟨hd, .ballot, .v 4, .sp 0 1, .sp 3 2⟩) fun _ g => getV g 4 9 == 0x5500) = true := by decide +kernel
theorem test_meets_combine : (Ty.isWide .s64 = true ∧ ((1 : BitVec 128) ∈ [1, 2])) := by decide +kernel

/-- A team with four barriers, barrier 3 with one arrival of two. -/
def tBar : Team := { tm [gSplit, { newGroup r0 1 none 256 256 32 (mkPtr 1 0) (BitVec.allOnes 32) 65536 16 none with id := 1 }] with
  bars := [⟨3, 2, 1, 7, []⟩] }
/-- Its machine; NBAR is 32. -/
def stBar : State := { stT tBar with issuing := some ⟨⟨r0, 0⟩, mkPtr 1 0, 128, 0xFFFF⟩ }

/-- Barriers: open, filling, waiting phases; the ends of the ranges of id and count; the three traps. -/
theorem test_meets_barriers :
    (meets stBar (.bara ⟨hd, .g 0, .im 3, 0⟩) (fun c => decide (BarOk c ⟨hd, .g 0, .im 3, 0⟩ ∧ (barOf c.t 0).arrived + 1 < 3)) &&
    meets stBar (.bars ⟨hd, .g 0, .im 2, 3⟩) (fun c => decide (BarOk c ⟨hd, .g 0, .im 2, 3⟩ ∧ 2 ≤ (barOf c.t 3).arrived + 1)) &&
    meets stBar (.barw ⟨hd, .g 0, .im 1, 31⟩) (fun c => decide (BarOk c ⟨hd, .g 0, .im 1, 31⟩ ∧ (barOf c.t 31).arrived < 1 ∧ c.g.rung = none ∧
      (others c.u (frontOf c.g)).length < depthOf c.g)) &&
    meets stBar (.barw ⟨⟨true, 7, false, 0, false, 0⟩, .g 0, .im 1, 31⟩) (fun c => decide (c.lanes = [])) &&
    meets (armed stBar) (.barw ⟨hd, .g 0, .im 1, 32⟩) (fun c => decide (c.lanes ≠ [] ∧ CanTrap c ∧ c.gr.nbar ≤ barId c ⟨hd, .g 0, .im 1, 32⟩)) &&
    meets (armed stBar) (.bara ⟨hd, .g 0, .g 0, 31⟩) (fun c => decide (CanTrap c ∧ barId c ⟨hd, .g 0, .g 0, 31⟩ < c.gr.nbar ∧
      barCount c ⟨hd, .g 0, .g 0, 31⟩ < 1)) &&
    meets (armed stBar) (.bars ⟨hd, .g 0, .im 3, 3⟩) (fun c => decide (CanTrap c ∧ barId c ⟨hd, .g 0, .im 3, 3⟩ < c.gr.nbar ∧
      (barOf c.t 3).expect ≠ 0 ∧ ((barOf c.t 3).expect : Int) ≠ barCount c ⟨hd, .g 0, .im 3, 3⟩))) = true := by decide +kernel
theorem test_bars_fills : (after stBar (.bars ⟨hd, .g 0, .im 2, 3⟩) fun t g => (frontOf g).any (fun e => e.pc == mkPtr 1 12 && e.mask == 0xFFFF) &&
    (teamOf t r0).any fun u => (barOf u 3).expect == 0 && (barOf u 3).phase == 8) = true := by decide +kernel
theorem test_bara_counts : (after stBar (.bara ⟨hd, .g 0, .im 3, 0⟩) fun t _ => (teamOf t r0).any fun u =>
    (barOf u 0).expect == 3 && (barOf u 0).arrived == 1) = true := by decide +kernel

/-- A group with one entry, which issues, and a slot 63 whose current root has generation 5. -/
def stLast : State := modLd (st g1) 0 fun d => { d with slots := lset d.slots 63 ⟨true, 5, 0, 63, 0x100000, []⟩ }
theorem test_meets_team_barriers :
    ([Instr.tbar ⟨hd, false⟩, .tbar ⟨hd, true⟩, .gbar hd].all (fun i => meets stLast i fun c => decide (c.g.handler = none ∧ c.g.pendTrap = none ∧ c.g.rung = none ∧
      others c.u (frontOf c.g) = [] ∧ gangTeams stLast ⟨c.ld, c.r.team.grid, c.r.team.team / gangSize stLast c.r.team⟩ = [c.t] ∧
      c.t.groups = [c.g] ∧ (stLast.teams.filter fun u => u.r == c.r.team) = [c.t])) &&
    [Instr.tbar ⟨hd, false⟩, .gbar hd].all fun i => meets stBar i fun c => decide (c.t.stage ≠ .exited ∧ (others c.u (frontOf c.g)).length < depthOf c.g ∧
      ∃ q ∈ c.t.groups, q.id ≠ c.g.id ∧ q.rung = none ∧ q.handler = none ∧ ∃ e ∈ q.frontier, e.st = .ready)) = true := by decide +kernel
theorem test_tbar_refresh : (after stLast (.tbar ⟨hd, true⟩) fun _ g => g.pin.map Pin.gen == some 5 && (frontOf g).any fun e => e.pc == mkPtr 1 12) = true := by
  decide +kernel

/-- A team whose group 1 has arrived at a barrier; groups 0 and 1 of a team of their own. -/
def stArrived (w : Wait) : State :=
  stT (tm [g1, { newGroup r0 1 none 256 256 32 (mkPtr 1 0) (BitVec.allOnes 32) 65536 16 none with frontier := [⟨mkPtr 1 0x90, 7, 0xFF, 0, .waiting w 5⟩] }])
theorem test_meets_last_arrival :
    ([(Instr.tbar ⟨hd, false⟩, Wait.tbar false), (.tbar ⟨hd, true⟩, .tbar true), (.gbar hd, .gbar)].all fun p => meets (stArrived p.2) p.1 fun c =>
      decide (Apart c.s c) && (others c.u (frontOf c.g)).isEmpty && (c.t.groups.all fun q => q.id == c.g.id || arrivedAt (arrivesLike p.2) q) &&
      decide (∀ v ∈ gangTeams c.s (gangKey c.s c.r.team), v.r ≠ c.r.team → gbarTeam v = true)) = true := by decide +kernel
theorem test_gbar_wakes : (after (stArrived .gbar) (.gbar hd) fun t _ => (groupOf t ⟨r0, 1⟩).any fun q =>
    q.frontier == [⟨mkPtr 1 0x9C, 7, 0xFF, 0, .ready⟩]) = true := by decide +kernel

/-! Buffers, stack frames, far accesses. -/

/-- A list of addresses has been formed of which p holds. -/
def placed {α : Type} (r : Except (Nat × BufErr) (List (Nat × α))) (p : List (Nat × α) → Bool) : Bool := match r with
  | .ok ps => p ps
  | .error _ => false

/-- It has failed. -/
def unplaced {α : Type} (r : Except (Nat × BufErr) (List (Nat × α))) : Bool := match r with
  | .ok _ => false
  | .error _ => true

/-- A pinned root over memory in which page 0 of region 1 is mapped, writable, at 0x110000. -/
def rootPin : Option Pin := some ⟨63, 1, 0x100000⟩
/-- The grid, with stacks from 0x01_0000_0000_8000, a slice of 64 KiB. -/
def grM : Grid := { benchGrid with raw := benchGrid.raw + (2 ^ 56 + 0x8000) * 2 ^ 128 + 2 ^ 496 }
/-- The machine of a group with that memory. -/
def stM (g : Group) : State :=
  let s := stT { tm [{ g with pin := rootPin }] with pin := rootPin }
  { s with mem := (bench State.reset []).mem, grids := [grM] }

/-- A group with v5 = 16 × the lane, g4 = 0x2000, g7 = 6.0, g8 = 4.0, g9 = 1.0 and m2 the window of 0x2000 to 0x2FFF. -/
def gBuf : Group :=
  (List.range 32).foldl (fun g l => setV g 5 l (BitVec.ofNat 32 (16 * l))) (setM (setG (setG (setG (setG g1 4 0x2000) 7 0x40C00000) 8 0x40800000) 9 0x3F800000) 2 (BitVec.ofNat 64 (2 ^ 63 + 0x1000 * 2 ^ 24 + 0x2000)))

/-- Its team, with four bytes 11 22 33 F4 at 0 of W, A and C, granule 0 of A and W full, and bound register 3 in trap mode over
[−4, 4]. -/
def tBuf : Team :=
  let b : Store 8 := [(0, 0x11), (1, 0x22), (2, 0x33), (3, 0xF4)]
  { tm [gBuf] with w := b, a := b, c := b, wfe := [(0, 1)], afe := [(0, 1)], bnd := [(3, 0x40800000C08000000000000000000003)] }
/-- Its machine. -/
def stBuf : State := stT tBuf

/-- BufferLoads: the first and the last address of each buffer; each mode; an empty granule under .fe. -/
theorem test_meets_loads :
    ([(Buf.w, Instr.ldw ⟨hd, false, .clr, .b32, .v 3, .v 5, .off 0⟩, BitVec.ofNat 32 0, false),
      (.w, .ldw ⟨hd, false, .plain, .b32, .g 3, .im 0, .off 0xBFFFC⟩, 0xBFFFC, false)].all fun p => meets stBuf p.2.1 fun c =>
        placed (placeAll (accLanes c true) (bufAddr stBuf c.t c.g p.1 false (.v 5) (.off 0) 4)) fun _ => decide (c.lanes ≠ [])) = true ∧
    (meets stBuf (.ldw ⟨hd, false, .plain, .b32, .g 3, .im 0, .off 0xBFFFC⟩) fun c =>
      placed (placeAll (accLanes c false) (bufAddr stBuf c.t c.g .w false (.im 0) (.off 0xBFFFC) 4)) fun ps => decide (ps ≠ [])) = true ∧
    (meets stBuf (.lda ⟨hd, false, .fe, .b32, .v 3, .v 5, .off 0⟩) fun c =>
      placed (placeAll (accLanes c true) (bufAddr stBuf c.t c.g .a false (.v 5) (.off 0) 4)) fun ps =>
        decide ((∃ p ∈ ps, fullBit stBuf (memberRef c.t p.2.m) .a (p.2.off / 16) = false) ∧ (others c.u (frontOf c.g)).length < depthOf c.g)) = true ∧
    (meets stBuf (.lda ⟨hd, false, .feclr, .b32, .g 3, .g 0, .off 0⟩) fun c =>
      placed (placeAll (accLanes c false) (bufAddr stBuf c.t c.g .a false (.g 0) (.off 0) 4)) fun ps =>
        decide ((∀ p ∈ ps, fullBit stBuf (memberRef c.t p.2.m) .a (p.2.off / 16) = true) ∧ (ps.map fun p => (p.2.m, p.2.off / 16)).Nodup)) = true ∧
    (meets stBuf (.ldc ⟨hd, false, .plain, .b128, .v 8, .g 4, .modulo (.sp 1 2) 48⟩) fun c =>
      placed (placeAll (accLanes c false) (bufAddr stBuf c.t c.g .c false (.g 4) (.modulo (.sp 1 2) 48) 16)) fun ps => decide (ps.length = 1)) = true := by
  refine ⟨?_, ?_, ?_, ?_, ?_⟩ <;> decide +kernel
/-- R278: .s8 extends its sign; .b32 does not. -/
theorem test_ldw_s8 : (after stBuf (.ldw ⟨hd, false, .plain, .s8, .g 3, .im 3, .off 0⟩) fun _ g => getG g 3 == 0xFFFFFFFFFFFFFFF4) = true := by decide +kernel
theorem test_lda_b32 : (after stBuf (.lda ⟨hd, false, .feclr, .b32, .g 3, .g 0, .off 0⟩) fun t g => getG g 3 == 0xF4332211 && !fullBit t r0 .a 0) = true := by
  decide +kernel
/-- The worked table of R73: a modulo access at 0x2000 by 48. -/
theorem test_ldc_modulo : (after stBuf (.ldc ⟨hd, false, .plain, .b128, .v 8, .g 4, .modulo (.sp 1 2) 48⟩) fun _ g => getG g 4 == 0x2030) = true := by
  decide +kernel
/-- A waiting load: the entry, its first lane, a full granule. -/
def stFe : State := stT { tBuf with groups := [{ gBuf with frontier := [⟨mkPtr 1 0, 128, 1, 0,
  .waiting (.feLoad (.lda ⟨hd, false, .fe, .b32, .v 3, .v 5, .off 0⟩) [(0, 0, 0, 0)] []) 0⟩] }] }
theorem test_meets_fe_wait : (((groupOf stFe ⟨r0, 0⟩).any fun g => (waitAt g 0).isSome) && (teamOf stFe r0).any (fun t => allFull t .a 0 4) &&
    WellFormed (.lda ⟨hd, false, .fe, .b32, .v 3, .v 5, .off 0⟩)) = true := by decide +kernel
theorem test_fe_wait : (afterEvent stFe (.feWaitSatisfied ⟨r0, 0⟩ 0) fun t => (groupOf t ⟨r0, 0⟩).any fun g => getV g 3 0 == 0xF4332211 &&
    (frontOf g).any fun e => e.pc == mkPtr 1 12) = true := by decide +kernel

/-- BufferStores: unchecked; in trap mode without and with a violation. ACC without a tag. -/
theorem test_meets_stores :
    (meets stBuf (.sta ⟨hd, false, .none, .b64, .sp 2 0, .v 5, .v 4, .off 0xBFDF8⟩) fun c =>
      placed (placeAll (accLanes c true) (bufAddr stBuf c.t c.g .a false (.v 5) (.off 0xBFDF8) 8)) fun ps =>
        decide (c.lanes ≠ [] ∧ tagTraps (getB c.t 0) = false ∧ ps.length = 32)) = true ∧
    (meets (armed stBuf) (.stc ⟨hd, false, .f32, .b32, .sp 2 3, .v 5, .g 8, .off 0⟩) fun c =>
      placed (placeAll (accLanes c true) (bufAddr stBuf c.t c.g .c false (.v 5) (.off 0) 4)) fun ps =>
        decide (tagTraps (getB c.t 3) = true ∧ ∀ p ∈ ps, (storeData c ⟨hd, false, .f32, .b32, .sp 2 3, .v 5, .g 8, .off 0⟩ p.1).1 = false)) = true ∧
    (meets (armed stBuf) (.stc ⟨hd, false, .f32, .b32, .sp 2 3, .v 5, .g 7, .off 0⟩) fun c =>
      placed (placeAll (accLanes c true) (bufAddr stBuf c.t c.g .c false (.v 5) (.off 0) 4)) fun ps =>
        decide (CanTrap c ∧ tagTraps (getB c.t 3) = true ∧ (ps.find? fun p => (storeData c ⟨hd, false, .f32, .b32, .sp 2 3, .v 5, .g 7, .off 0⟩ p.1).1).isSome = true)) = true ∧
    (meets stBuf (.acc ⟨hd, false, .f32, .b32, .sp 2 0, .im 0, .g 9, .off 16⟩) fun c =>
      placed (placeAll c.lanes (bufAddr stBuf c.t c.g .c false (.im 0) (.off 16) 4)) fun _ => decide (c.lanes ≠ [] ∧ tagTraps (getB c.t 0) = false)) = true := by
  refine ⟨?_, ?_, ?_, ?_⟩ <;> decide +kernel
theorem test_sta_bytes : (after stBuf (.sta ⟨hd, false, .none, .b32, .sp 2 0, .v 5, .v 1, .off 8⟩) fun t _ =>
    bufGet t r0 .a 24 4 == 0x7FFFFFF0 && fullBit t r0 .a 1 && bufGet t r0 .w 24 4 == 0) = true := by decide +kernel
theorem test_acc_lanes : (after stBuf (.acc ⟨hd, false, .f32, .b32, .sp 2 0, .im 0, .g 9, .off 16⟩) fun t _ => bufGet t r0 .c 16 4 == 0x42000000) = true := by
  decide +kernel

/-- BufferChecks: an address beyond the width, a member beyond the gang, bytes beyond the allocation, misalignment. -/
theorem test_meets_checks :
    ([(Instr.ldw ⟨hd, false, .plain, .b32, .v 3, .im 0, .off 0x100000⟩, Buf.w, false, Opnd.im 0, BitVec.ofNat 32 0x100000),
      (.lda ⟨hd, true, .plain, .b32, .v 3, .im 0, .off 0x100000⟩, .a, true, .im 0, 0x100000),
      (.sta ⟨hd, false, .none, .b32, .sp 2 0, .im 0, .im 0, .off 0xBFFFE⟩, .a, false, .im 0, 0xBFFFE),
      (.acc ⟨hd, false, .f32, .b32, .sp 2 0, .im 0, .im 0, .off 2⟩, .c, false, .im 0, 2)].all fun p => meets (armed stBuf) p.1 fun c =>
        unplaced (placeAll (accLanes c false) (bufAddr (armed stBuf) c.t c.g p.2.1 p.2.2.1 p.2.2.2.1 (.off p.2.2.2.2) 4)) && decide (CanTrap c ∧ c.lanes ≠ [])) = true := by
  decide +kernel
/-- R277, R428: the trap frame of a store beyond the allocation. -/
theorem test_sta_traps : (after (armed stBuf) (.sta ⟨hd, false, .none, .b32, .sp 2 0, .im 0, .im 0, .off 0xBFFFE⟩) fun _ g =>
    g.handler.any (fun h => h.trap.cause == cBUFRANGE && h.trap.detail == 1) && getG g 3 == 0xBFFFE) = true := by decide +kernel

/-- FragmentsAndFullBits: a fragment from W with and without .fe and all granules full or not; a failing pitch; a tagged store; FE counts. -/
theorem test_meets_fragments :
    (meets stBuf (.ldfrag ⟨hd, false, false, .w, .op, .v 16, .g 4, .im 0x40, 0⟩) fun c => match fragPlace stBuf c.t .w false .op 0x2000 (fragPitch c (.im 0x40)) with
      | .ok x => decide (x = (0, 0x2000) ∧ c.lanes ≠ [])
      | .error _ => false) = true ∧
    (meets stBuf (.ldfrag ⟨hd, true, false, .a, .op, .v 16, .g 4, .im 0x40, 0⟩) fun c => match fragPlace stBuf c.t .a false .op 0x2000 (fragPitch c (.im 0x40)) with
      | .ok x => decide ((others c.u (frontOf c.g)).length < depthOf c.g) && !fullBit stBuf (memberRef c.t x.1) .a (x.2 / 16)
      | .error _ => false) = true ∧
    (meets (armed stBuf) (.ldfrag ⟨hd, false, false, .w, .op, .v 16, .g 4, .im 0x41, 0⟩) fun c => match fragPlace stBuf c.t .w false .op 0x2000 (fragPitch c (.im 0x41)) with
      | .ok _ => false
      | .error e => decide (CanTrap c ∧ e.detail = 4)) = true ∧
    (meets stBuf (.stfrag ⟨hd, false, .c, .acc, .sp 2 0, .g 4, .im 0x40, .v 16, 0⟩) fun c => match fragPlace stBuf c.t .c false .acc 0x2000 (fragPitch c (.im 0x40)) with
      | .ok _ => decide (tagTraps (getB c.t 0) = false)
      | .error _ => false) = true ∧
    ([Instr.feset ⟨hd, false, true, .v 5, .im 1, 0⟩, .feclr ⟨hd, false, true, .v 5, .im 1, 0⟩].all fun i => meets stBuf i fun c => match fePlaces c false true (.v 5) (.im 1) 0 4096 true with
      | .ok x => decide (c.lanes ≠ [] ∧ x.1 = 1)
      | .error _ => false) = true ∧
    (meets (armed (stT { tBuf with groups := [setG gBuf 4 4097] })) (.feset ⟨hd, false, true, .v 5, .g 4, 0⟩) fun c => decide (4096 < (srcD c.g (.g 4) 1 c.low).toNat ∧ CanTrap c)) = true ∧
    (meets (armed stBuf) (.feprobe ⟨hd, false, true, .v 3, .v 5, .im 33, 0⟩) fun c => decide (32 < (srcD c.g (.im 33) 1 c.low).toNat ∧ CanTrap c)) = true ∧
    (meets stBuf (.feprobe ⟨hd, false, true, .v 3, .v 5, .im 32, 0⟩) fun c => match fePlaces c false true (.v 5) (.im 32) 0 32 true with
      | .ok x => decide (x.1 = 32)
      | .error _ => false) = true := by
  refine ⟨?_, ?_, ?_, ?_, ?_, ?_, ?_, ?_⟩ <;> decide +kernel
theorem test_feprobe : (after stBuf (.feprobe ⟨hd, false, true, .g 3, .im 0, .im 4, 0⟩) fun _ g => getG g 3 == 1) = true := by decide +kernel
/-- R283: .op, register 1 of lane 17 is bytes 20 to 23 of row 1. -/
theorem test_ldfrag_op : (after (stT { tBuf with w := [(0x2000 + 64 + 20, 0xAB)] }) (.ldfrag ⟨hd, false, false, .w, .op, .v 16, .g 4, .im 0x40, 0⟩) fun _ g => getV g 17 17 == 0xAB) = true := by
  decide +kernel

/-- StackAccesses: an open frame of 64 bytes in the cache, and one that has been spilt; the two traps. -/
def gFrame : Group := { g1 with sp := (List.range 32).map fun l => (l, 64), frames := List.replicate 32 [64], stk := [(2 ^ 32 * 3 + 8, 0x1AB)] }
theorem test_meets_stack :
    ([Instr.lds ⟨hd, .b32, .v 3, .im 8, 0⟩, .sts ⟨hd, .b32, .im 8, .v 1, 0⟩].all fun i => meets (st gFrame) i fun c => placed (placeAll c.lanes (framePlace c.g (.im 8) 0 4)) fun ps =>
      decide ((∀ p ∈ ps, loOf c.g p.1 ≤ p.2) ∧ spOf c.g 31 < 2 ^ 32 ∧ (c.g.frames.getD 31 []).headD 0 ≤ spOf c.g 31)) = true ∧
    (meets (st { gFrame with stkLo := [(3, 32)] }) (.lds ⟨hd, .b32, .v 3, .im 8, 0⟩) fun c => placed (placeAll c.lanes (framePlace c.g (.im 8) 0 4)) fun ps =>
      decide ((∃ p ∈ ps, p.2 < loOf c.g p.1) ∧ (others c.u (frontOf c.g)).length < depthOf c.g)) = true ∧
    ([(BitVec.ofNat 32 61, 3), (62, 3), (2, 5)].all fun p => meets (armed (st gFrame)) (.lds ⟨hd, .b32, .v 3, .im 0, p.1⟩) fun c =>
      match placeAll c.lanes (framePlace c.g (.im 0) p.1 4) with
      | .ok _ => false
      | .error e => decide (CanTrap c ∧ e.2.detail = p.2)) = true := by
  refine ⟨?_, ?_, ?_⟩ <;> decide +kernel
theorem test_lds : (after (st (setP gFrame 2 3 true)) (.lds ⟨⟨false, 2, false, 0, false, 0⟩, .b8, .v 3, .im 8, 0⟩) fun _ g => getV g 3 3 == 0xAB) = true := by decide +kernel

/-- A group of one stack unit with 96 bytes on lane 3's stack; all of them cached, and then 32 to fill. -/
def gSpill : Group := { g1 with stkUnits := 1, sp := [(3, 96)], frames := lset (List.replicate 32 []) 3 [96], stk := (List.range 32).map fun i => (2 ^ 32 * 3 + i, BitVec.ofNat 9 (0x1AB + i)) }
def gFill : Group := { g1 with stkUnits := 1, sp := [(3, 96)], stkLo := [(3, 64)] }
theorem test_meets_spill : ((wakeable (stM gSpill) ⟨r0, 0⟩).any fun g => loOf g 3 < spOf g 3 - stackCap g &&
      match teamOf (stM gSpill) r0 with
      | some t => decide (stackPa (stM gSpill) t grM g 3 0 32 .write = some 0x119800 ∧ (stM gSpill).ecc = [])
      | none => false) = true ∧
    ((wakeable (stM gFill) ⟨r0, 0⟩).any fun g => spOf g 3 - stackCap g < loOf g 3 && match teamOf (stM gFill) r0 with
      | some t => decide (stackPa (stM gFill) t grM g 3 32 32 .read = some 0x119820 ∧ (stM gFill).ecc = [])
      | none => false) = true := by refine ⟨?_, ?_⟩ <;> decide +kernel
theorem test_spill : (afterEvent (stM gSpill) (.stackSpill ⟨r0, 0⟩ 3) fun t => peek t 0x119800 2 == 0xACAB && (groupOf t ⟨r0, 0⟩).any fun g => loOf g 3 == 32) = true := by
  decide +kernel

/-! Far accesses, matrix instructions. -/

/-- A header whose guard p2 is true in lanes 0 and 31 of the group below. -/
def h2 : Hdr := ⟨false, 2, false, 0, false, 0⟩
/-- A group with g4 = 0x01_0000_0000_0100, in lanes 0 and 31 of v4:v5 that pointer plus 16 × the lane; lane 31's may be misaligned. -/
def gFar (bad : Bool) : Group :=
  [0, 31].foldl (fun g l => setP (setV (setV g 4 l (BitVec.ofNat 32 (0x100 + 16 * l + if bad && l == 31 then 1 else 0))) 5 l 0x01000000) 2 l true)
    (setG (setG g0 4 (mkPtr 1 0x100)) 7 0x40C00000)
/-- Its machine over mapped memory; with a strongly ordered page. -/
def stFar (bad : Bool) : State := stM (gFar bad)
def stSo : State := hwWrite (stFar false) 0x106000 (bytesOf (0x110000 + 0x1F) 8)

/-- Every lane's access passes and the page is (not) strongly ordered. -/
def farAll (so : Bool) (c : Ctx) (a : Opnd) (size : Nat) (k : Acc) : Bool := c.lanes.all fun l => match farPlace c a 0 size k l with
  | .ok y => bit1 y.2.1 4 == so
  | .error _ => false

/-- FarAccessesIssue: each instruction, for every lane or once; a strongly ordered page. -/
theorem test_meets_far_issue :
    ([(Instr.fld ⟨h2, .grp, .none, .b32, .v 3, .v 4, 0⟩, Opnd.v 4, 4, Acc.read), (.fld ⟨h2, .dev, .acq, .b64, .g 3, .g 4, 0⟩, .g 4, 8, .read),
      (.fst ⟨h2, .gang, .rel, .b32, .f32, .sp 2 0, .v 4, .v 1, 0⟩, .v 4, 4, .write), (.fatom ⟨h2, .grp, .none, .b32, .add, .v 3, .v 4, .im 1, 0⟩, .v 4, 4, .atomic),
      (.fcas ⟨h2, .sys, .ar, .b128, .v 8, .v 4, .v 12, .v 16, 0⟩, .v 4, 16, .atomic)].all fun p => meets (stFar false) p.1 fun c =>
        farAll false c p.2.1 p.2.2.1 p.2.2.2 && c.any) = true ∧
    (meets stSo (.fld ⟨h2, .grp, .none, .b32, .v 3, .v 4, 0⟩) fun c => farAll true c (.v 4) 4 .read && decide ((others c.u (frontOf c.g)).length < depthOf c.g)) = true := by
  refine ⟨?_, ?_⟩ <;> decide +kernel
theorem test_fld_outstanding : (after (stFar false) (.fld ⟨h2, .grp, .none, .b32, .v 3, .v 4, 0⟩) fun t g =>
    (t.far.map Far.pa) == [0x110100, 0x1102F0] && g.outst.length == 2 && (frontOf g).any fun e => e.pc == mkPtr 1 12) = true := by decide +kernel

/-- FarAccessesSplit: lane 31's pointer is misaligned; a violating store in trap mode. -/
def stFarTag : State := armed (stT { tm [{ gFar false with pin := rootPin }] with pin := rootPin, bnd := [(3, 0x40800000C08000000000000000000003)] })
theorem test_meets_far_split :
    (meets (armed (stFar true)) (.fld ⟨h2, .grp, .none, .b32, .v 3, .v 4, 0⟩) fun c => decide (CanTrap c ∧ (others c.u (frontOf c.g)).length + 2 ≤ depthOf c.g) &&
      match farPlace c (.v 4) 0 4 .read 31 with
      | .error e => decide (e = (cFARALIGN, 0, mkPtr 1 0x2F1))
      | .ok _ => false) = true ∧
    (meets stFarTag (.fst ⟨h2, .grp, .none, .b32, .f32, .sp 2 3, .v 4, .g 7, 0⟩) fun c => decide (CanTrap c ∧ tagTraps (getB c.t 3) = true ∧
      (c.lanes.find? fun l => (fstData c ⟨hd, .grp, .none, .b32, .f32, .sp 2 3, .v 4, .g 7, 0⟩ l).1) = some 0)) = true := by
  refine ⟨?_, ?_⟩ <;> decide +kernel

/-- A machine with one far load of lane 2 under way, at 0x110100 or at a host address. -/
def farOf (kind : FarKind) (pa : Nat) : Far :=
  ⟨7, 7, ⟨r0, 0⟩, 0, 2, kind, pa, .b32, [], [], [], some (.v 3), 4, mkPtr 1 0, 128, mkPtr 1 0x100, 100, false, false, false⟩
def stWay (kind : FarKind) (pa : Nat) : State :=
  armed { stM { g1 with outst := [⟨.v 3, .far 7, false⟩] } with far := [farOf kind pa] }

/-- Fences: acquire, release with an access under way, .ar with one and without. -/
theorem test_meets_fences :
    (meets (stWay .load 0x110100) (.fence ⟨hd, .sys, .acq⟩) fun c => decide (c.g.polled = none)) = true ∧
    (meets (stFar false) (.fence ⟨hd, .gang, .ar⟩) fun c => decide (c.s.far = [] ∧ c.g.polled = none)) = true ∧
    (meets (stWay .load 0x110100) (.fence ⟨hd, .sys, .ar⟩) fun c => decide ((∃ f ∈ c.s.far, f.r = c.r ∧ f.lane ∈ c.lanes) ∧
      (others c.u (frontOf c.g)).length < depthOf c.g)) = true := by refine ⟨?_, ?_, ?_⟩ <;> decide +kernel
/-- FarAccessesPerform, FarTimeouts. -/
theorem test_meets_perform : let s := stWay (.amo .add 5) 0x110100
    ((s.far.find? fun f => f.id == 7) = some (farOf (.amo .add 5) 0x110100) ∧ farRequest s (farOf (.amo .add 5) 0x110100) = [farOf (.amo .add 5) 0x110100] ∧
    farReady s (farOf (.amo .add 5) 0x110100) = true ∧ s.dying = [] ∧ s.sram = [] ∧ s.hist = [] ∧ (groupOf s ⟨r0, 0⟩).any (owes · 7) = true ∧ NoneHeld s ∧
    isHbm 0x110104 = true ∧ CleanAt s 0x110100 4) := by decide +kernel
theorem test_meets_timeouts : let s := stWay .load 0x110100
    ((s.far.find? fun f => f.id == 7 && f.lanes != 0 && farFails s f) = some (farOf .load 0x110100) ∧
    (groupOf s ⟨r0, 0⟩).any (fun g => g.handler.isNone && decide (4 &&& liveLanes g = 4)) = true ∧ qbWord s 0 0x260 ≠ 0 ∧ NoneHeld s ∧ portOf 0x110100 = none ∧
    isHost (farOf .load (2 ^ 48)).pa = true ∧ farReady (stWay .load (2 ^ 48)) (farOf .load (2 ^ 48)) = true) := by decide +kernel
/-- R290: the atomic adds at its home and delivers the old value. -/
theorem test_perform_amo : (afterEvent (hwWrite (stWay (.amo .add 5) 0x110100) 0x110100 (bytesOf 0xFFFFFFFE 4)) (.farAccessPerformed 7) fun t =>
    peek t 0x110100 4 == 3 && (groupOf t ⟨r0, 0⟩).any fun g => getV g 3 2 == 0xFFFFFFFE && g.outst.isEmpty) = true := by decide +kernel
/-- R294: the timed-out load is parked with FARTIMEOUT and its lane's register stays. -/
theorem test_far_timeout : (afterEvent (stWay .load 0x110100) (.farTimeout 7) fun t => t.far.isEmpty && (groupOf t ⟨r0, 0⟩).any fun g =>
    g.handler.any fun h => h.trap.cause == cFARTIMEOUT) = true := by decide +kernel

/-- Matrix: a group whose octet v32 is open with element (0, 0) = 1.0; A's first register holds BF16 2.0 at row 0. -/
def gMat : Group := setV { (setG (setG g1 4 0x2000) 7 64) with octets := [⟨32, 0, 0⟩] } 32 0 0x3F800000
def stMat : State := stT { tm [gMat] with bnd := [(3, 0x00000000000000000000000000000003)], wfe := (List.range 256).map fun i => (0x200 + i, 1) }
theorem test_meets_products :
    ([Instr.mma ⟨hd, .bf16, false, .v 32, .v 8, .v 12⟩, .mmam ⟨hd, .f16, true, .v 40, .v 8, .v 12, .g 7⟩, .scacc ⟨hd, .v 32, .v 40, .v 4, .v 6⟩,
      .scacc ⟨hd, .v 32, .v 32, .v 4, .v 6⟩].all fun i => meets stMat i fun c => c.any) = true := by decide +kernel
theorem test_meets_scale : decodeF fF32 0x3F800000 ≠ .nan := by decide +kernel
/-- R311: a load with all granules full; one that waits; bases that are misaligned or beyond the allocation. -/
theorem test_meets_codebook :
    (meets stMat (.cbld ⟨hd, true, false, .g 4, 0⟩) fun c => decide (baseAt c (.g 4) 0 = 0x2000 ∧ 0x2000 + 4096 ≤ bufLen c.t .w ∧
      (List.range 256).all (fun i => fullBit c.s c.r.team .w (0x200 + i)) = true)) = true ∧
    (meets stMat (.cbld ⟨hd, true, true, .g 4, 0⟩) fun c => decide (0x2000 + 4096 ≤ bufLen c.t .a ∧ fullBit c.s c.r.team .a 0x200 = false ∧
      (others c.u (frontOf c.g)).length < depthOf c.g)) = true ∧
    (meets (armed stMat) (.cbld ⟨hd, false, false, .g 4, 8⟩) fun c => decide (CanTrap c ∧ baseAt c (.g 4) 8 % 16 ≠ 0)) = true ∧
    (meets (armed stMat) (.cbld ⟨hd, false, false, .g 0, 0x0BF010⟩) fun c => decide (CanTrap c ∧ baseAt c (.g 0) 0x0BF010 % 16 = 0 ∧
      (bufLen c.t .w : Int) < baseAt c (.g 0) 0x0BF010 + 4096)) = true := by refine ⟨?_, ?_, ?_, ?_⟩ <;> decide +kernel
/-- R313: a drain and fill that fit exactly, and each failing check; a violation of a bound of zero. -/
theorem test_meets_drains :
    ([Instr.mdrain ⟨hd, true, .sp 2 0, .g 4, .g 7, .v 32, 0x3DC00⟩, .mfill ⟨hd, .v 40, .g 4, .g 7, 0x3DC00⟩].all fun i => meets stMat i fun c =>
      decide (baseAt c (.g 4) 0x3DC00 + 15 * 64 + 64 = c.t.clen ∧ fragPitch c (.g 7) = 64)) = true ∧
    ([Instr.mdrainRaw ⟨hd, .sp 2 0, .g 4, .v 32, 0⟩, .mfillRaw ⟨hd, .v 40, .g 4, 0⟩].all fun i => meets stMat i fun c => decide (0x2000 + 1040 ≤ c.t.clen)) = true ∧
    ([Instr.mdrain ⟨hd, false, .sp 2 0, .g 4, .im 0x41, .v 32, 0⟩, .mfill ⟨hd, .v 40, .g 4, .im 0x30, 0⟩].all fun i => meets (armed stMat) i fun c =>
      decide (CanTrap c ∧ (fragPitch c (.im 0x41) % 16 ≠ 0 ∧ fragPitch c (.im 0x30) < 64))) = true ∧
    ([Instr.mdrain ⟨hd, false, .sp 2 0, .g 4, .g 7, .v 32, 4⟩, .mfillRaw ⟨hd, .v 40, .g 4, 4⟩].all fun i => meets (armed stMat) i fun c =>
      decide (CanTrap c ∧ baseAt c (.g 4) 4 % 16 ≠ 0)) = true ∧
    (meets (armed stMat) (.mdrain ⟨hd, false, .sp 2 3, .g 4, .g 7, .v 32, 0⟩) fun c => decide (CanTrap c ∧ tagTraps (getB c.t 3) = true ∧
      (tagElem (getB c.t 3) fF32 (drainElem c.g 32 0 0).toNat).1 = true)) = true := by refine ⟨?_, ?_, ?_, ?_, ?_⟩ <;> decide +kernel
theorem test_mdrain : (after stMat (.mdrain ⟨hd, false, .sp 2 0, .g 4, .g 7, .v 32, 0⟩) fun t g => bufGet t r0 .c 0x2000 4 == 0x3F800000 && g.octets.isEmpty) = true := by
  decide +kernel
theorem test_mdrain_raw : (after stMat (.mdrainRaw ⟨hd, .sp 2 0, .g 4, .v 32, 0⟩) fun t g => bufGet t r0 .c 0x2404 1 == 1 && g.octets.length == 1) = true := by
  decide +kernel
/-- R306: the product of one row, column and depth under MMAM's masks: 2.0 × 3.0 + 1.0. -/
theorem test_mmam : (after (stT (tm [setG (setV (setV gMat 8 0 0x4000) 12 0 0x4040) 7 0x0000000100010001])) (.mmam ⟨hd, .bf16, false, .v 32, .v 8, .v 12, .g 7⟩) fun _ g =>
    octElem g 32 0 0 == 0x40E00000 && octElem g 32 1 0 == 0) = true := by decide +kernel

/-! Copy engine and streams. -/

/-- A copy record: source, destination, auxiliary word, extents, kind, spaces; no arrival object (R324). -/
def crec (src dst aux e0 e1 e2 kind ssp dsp : Nat) (ss1 ds1 : Nat := 0) : Nat :=
  src + dst * 2 ^ 64 + aux * 2 ^ 128 + e0 * 2 ^ 192 + e1 * 2 ^ 224 + e2 * 2 ^ 240 + ss1 * 2 ^ 256 + ds1 * 2 ^ 320 + 2 ^ 407 + kind * 2 ^ 408 + ssp * 2 ^ 412 + dsp * 2 ^ 414
/-- A request of the test team. -/
def reqOf (id raw : Nat) (st : ReqSt := .queued) (left : Nat := 0) : Req := ⟨id, ⟨r0, 0⟩, 0, raw, 0x40, st, rootPin, [(1, BitVec.ofNat 128 ((2 ^ 56 - 1) * 2 ^ 64 + 31 * 2 ^ 59))], [], left, [], 0⟩
/-- A user-mode machine with memory, a team whose A starts 11 22 33 F4, and some requests. -/
def stReq (rs : List Req) : State :=
  let s := stM { g1 with pin := rootPin }
  { modTeam s r0 (fun t => { t with a := [(0, 0x11), (1, 0x22), (2, 0x33), (3, 0xF4)] }) with reqs := rs, grids := [{ grM with sup := false }] }
/-- A team with some batches, unsealed requests and a waiting entry. -/
def gBatch (w : List Wait) (bs : List Batch) (un : List Nat) : Group :=
  { setG g1 4 0x40 with
    frontier := match w with
      | [] => g1.frontier
      | w :: _ => [⟨mkPtr 1 0, 128, BitVec.allOnes 32, 0, .waiting w 0⟩]
    batches := bs, unsealed := un, batchNo := bs.length }
def stBatch (w : List Wait) (bs : List Batch) (un : List Nat) (rs : List Req) : State := { st (gBatch w bs un) with reqs := rs }

/-- Another group than the producer group issues. -/
def stOther : State := armed { stT (tm [g1, { newGroup r0 1 none 256 256 32 (mkPtr 1 0) (BitVec.allOnes 32) 65536 16 none with id := 1 }]) with
  issuing := some ⟨⟨r0, 1⟩, mkPtr 1 0, 128, BitVec.allOnes 32⟩ }
theorem test_meets_role : ([Instr.creq ⟨hd, .g 4, .v 2, .off 0⟩, .kick ⟨hd, .g 4, .im 1, .off 0⟩, .cseal ⟨hd, .g 3⟩, .sbind ⟨hd, .g 4, 0⟩, .sgo ⟨hd, 0⟩].all fun i =>
    meets stOther i fun c => decide (c.lanes ≠ [] ∧ c.g.id ≠ 0 ∧ CanTrap c)) = true := by decide +kernel
/-- CopyRequests: CREQ at the last place of A; KICK of 0, 64 and 65 requests and into a full queue; CSEAL and CWAIT that go on and wait. -/
theorem test_meets_requests :
    (meets (stBatch [] [] [] []) (.creq ⟨hd, .g 0, .v 2, .off 0xBFFC0⟩) fun c => decide (Producer c ∧ 0xBFFC0 + 64 ≤ c.t.alen) &&
      match reqAddr c ⟨hd, .g 0, .v 2, .off 0xBFFC0⟩ 0 with
      | .ok x => x.1 == 0xBFFC0
      | .error _ => false) = true ∧
    ([(Opnd.im 0, 0, 0), (.im 64, 64, 64)].all fun p => meets (stBatch [] [] [] []) (.kick ⟨hd, .g 4, p.1, .off 0⟩) fun c =>
      decide (Producer c ∧ queueLoad c.s c.t.core + p.2.1 ≤ 256) && match kickPlaces c ⟨hd, .g 4, p.1, .off 0⟩ p.2.1 with
      | .ok offs => offs.length == p.2.2
      | .error _ => false) = true ∧
    (meets (armed (stBatch [] [] [] [])) (.kick ⟨hd, .g 4, .im 65, .off 0⟩) fun c => decide (Producer c ∧ CanTrap c ∧ 64 < (srcD c.g (.im 65) 1 c.low).toNat % 2 ^ 32)) = true ∧
    (meets (stBatch [] [] [] ((List.range 256).map fun i => reqOf i 0)) (.kick ⟨hd, .g 4, .im 1, .off 0⟩) fun c =>
      decide (256 < queueLoad c.s c.t.core + 1 ∧ (others c.u (frontOf c.g)).length < depthOf c.g)) = true ∧
    (meets (stBatch [] [] [5] [reqOf 5 0]) (.cseal ⟨hd, .g 3⟩) fun c => decide (Producer c ∧ sealWaits c.s c.g = false)) = true ∧
    (meets (stBatch [] ((List.range 32).map fun i => ⟨i, [5]⟩) [6] [reqOf 5 0, reqOf 6 0]) (.cseal ⟨hd, .g 3⟩) fun c => decide (Producer c ∧ sealWaits c.s c.g = true)) = true ∧
    (meets (stBatch [] [⟨0, [5]⟩] [] [reqOf 5 0 .done]) (.cwait ⟨hd, .im 0⟩) fun c => decide (openBatches c.s c.g ≤ 0 ∧ firstFailure c.s c.g = none)) = true ∧
    (meets (armed (stBatch [] [⟨0, [5]⟩] [] [reqOf 5 0 (.failed cCPYVAL 6)])) (.cwait ⟨hd, .im 0⟩) fun c => decide (openBatches c.s c.g ≤ 0 ∧ CanTrap c ∧ (firstFailure c.s c.g).isSome = true)) = true ∧
    (meets (stBatch [] [⟨0, [5]⟩] [] [reqOf 5 0]) (.cwait ⟨hd, .im 0⟩) fun c => decide (0 < openBatches c.s c.g)) = true := by
  refine ⟨?_, ?_, ?_, ?_, ?_, ?_, ?_, ?_, ?_⟩ <;> decide +kernel
theorem test_meets_request_waits :
    (let s := stBatch [.kick (.kick ⟨hd, .g 4, .im 1, .off 0⟩) [(0x40, 0)] 0] [] [] [];
      (waitAt (gBatch [.kick (.kick ⟨hd, .g 4, .im 1, .off 0⟩) [(0x40, 0)] 0] [] []) 0).isSome && decide (Running s ∧ queueLoad s 0 + 1 ≤ 256)) = true ∧
    (let s := stBatch [.cseal (.cseal ⟨hd, .g 3⟩)] [] [5] [reqOf 5 0];
      decide (Running s ∧ sealWaits s (gBatch [.cseal (.cseal ⟨hd, .g 3⟩)] [] [5]) = false)) = true ∧
    (let s := stBatch [.cwait 1] [⟨0, [5]⟩] [] [reqOf 5 0];
      decide (Running s ∧ openBatches s (gBatch [.cwait 1] [⟨0, [5]⟩] []) ≤ 1 ∧ firstFailure s (gBatch [.cwait 1] [⟨0, [5]⟩] []) = none)) = true := by
  refine ⟨?_, ?_, ?_⟩ <;> decide +kernel
theorem test_creq : (after (stBatch [] [] [] []) (.creq ⟨hd, .g 4, .v 2, .post 64⟩) fun t g => bufGet t r0 .a 0x44 4 == 1 && fullBit t r0 .a 7 && getG g 4 == 0x80) = true := by
  decide +kernel
theorem test_cwait_trap : (after (armed (stBatch [] [⟨0, [5]⟩] [] [reqOf 5 0 (.failed cCPYVAL 6)])) (.cwait ⟨hd, .im 0⟩) fun _ g =>
    g.handler.any fun h => h.trap.cause == cCPYVAL && h.trap.detail == 6 && h.trap.addr == 0x40) = true := by decide +kernel

/-- CopyMoves: a record that fails check 2, and one of each kind that passes. -/
def recLinear : Nat := crec 0 0x100 0 32 0 0 1 1 1
def recTiled : Nat := crec 0 0x100 0 16 2 2 2 1 1 16 32
def recGather : Nat := crec (2 ^ 56 + 0x4000) 0x100 (2 ^ 56 + 0x5000) 16 2 0 3 0 1 0 16
def recScatter : Nat := crec 0 (2 ^ 56 + 0x4000) (2 ^ 56 + 0x5000) 16 2 0 4 1 0 16
def recImage : Nat := crec (2 ^ 56 + 0x4000) 0x100 (4 + 4 * 2 ^ 16 + 2 ^ 32) (2 + 2 ^ 16) 2 2 5 0 1 0 16
/-- A piece whole, with accesses that pass at places that no free value changes; the place of an index, the same. -/
def pieceOk (s : State) (e : Eng) (x : Piece) : Bool :=
  (decide (0 < x.n ∧ x.n ≤ x.src.room ∧ x.n ≤ x.dst.room) && match x.dst with
    | .pad _ => false
    | _ => true) && x.src.own s e && x.dst.own s e && (pieceErr s e x).isNone
def indexOk (s : State) (e : Eng) (p : Ptr) : Bool := ownPage s e.t.ld e.root (ptrVa p) && decide (ptrVa p % 32 + 4 ≤ 32) && match engPlace s e p 4 .read with
  | .ok _ => true
  | .error _ => false
theorem pieceOk_spec {s : State} {e : Eng} {x : Piece} (h : (ldOf s e.t.ld).tcache = []) (hx : pieceOk s e x = true) :
    x.Whole ∧ ∀ f, pieceErr { s with frees := f } e x = none := by
  obtain ⟨a, b, n⟩ := x
  simp only [pieceOk, Bool.and_eq_true, Option.isNone_iff_eq_none] at hx
  refine ⟨?_, fun f => ((alike_frees s f).pieceErr h hx.1.1.2 hx.1.2).trans hx.2⟩
  cases b <;> simp_all [Piece.Whole]
theorem indexOk_spec {s : State} {e : Eng} {p : Ptr} (h : (ldOf s e.t.ld).tcache = []) (hx : indexOk s e p = true) :
    ptrVa p % 32 + 4 ≤ 32 ∧ ∀ f, ∃ pa, engPlace { s with frees := f } e p 4 .read = .ok pa := by
  simp only [indexOk, Bool.and_eq_true, decide_eq_true_eq] at hx
  refine ⟨hx.1.2, fun f => ?_⟩
  rw [(alike_frees s f).engPlace h hx.1.1]
  cases hp : engPlace s e p 4 .read with
  | ok pa => exact ⟨pa, rfl⟩
  | error c => simp [hp] at hx
/-- A request's next accesses pass: its pieces', and that of its next index. -/
def copyOk (s : State) (core step : Nat) (q : Req) : Bool := decide (ActsOn s core step q ∧ AllClean s ∧ (ldOf s 0).tcache = []) && match teamOf s q.r.team with
  | none => false
  | some t =>
    let w := if q.st = .queued then reqWork t q else (q.todo, q.rows)
    let e := reqEng s q false
    (if q.st = .queued then (reqErr s t q).isNone && (q.kind != 5 || !imageOver q) else q.st == .moving) && (!w.1.isEmpty || w.2 != 0) && w.1.all (pieceOk s e) &&
      (w.2 == 0 || indexOk s e (ptrAdd (BitVec.ofNat 64 q.aux) (4 * (q.e1 - w.2) : Nat)))
theorem test_meets_copies :
    (let q := reqOf 5 (crec 0 0x108 0 32 0 0 1 1 1);
      (teamOf (stReq [q]) r0).any fun t => decide (ActsOn (stReq [q]) 0 1 q ∧ reqErr (stReq [q]) t q = some (cCPYVAL, 2))) = true ∧
    ([(1, recLinear), (2, recTiled), (3, recGather), (4, recScatter), (5, recImage)].all fun x => copyOk (stReq [reqOf 5 x.2]) 0 x.1 (reqOf 5 x.2)) = true ∧
    (let q : Req := { reqOf 5 recGather .moving 16 with todo := [⟨.mem (BitVec.ofNat 64 (2 ^ 56 + 0x4000)), .buf r0 .w 0x100, 16⟩, ⟨.mem (BitVec.ofNat 64 (2 ^ 56 + 0x4010)), .buf r0 .w 0x110, 16⟩], rows := 1 };
      copyOk (stReq [q]) 0 3 q) = true := by
  refine ⟨?_, ?_, ?_⟩ <;> decide +kernel
/-- R326: a rejected record. -/
theorem test_copy_reject : (afterEvent (stReq [reqOf 5 (crec 0 0x108 0 32 0 0 1 1 1)]) (.copyLinear 0) fun t => t.reqs.map Req.st == [.failed cCPYVAL 2]) = true := by decide +kernel

/-- StorageAndArrivals: drives 0 to 3 present; a read, a write, a flush; a moved request; an arrival object of 64 at A 0x80. -/
def stDrive (rs : List Req) : State :=
  let s := modLd (stReq rs) 0 fun d => { d with preg := stSet d.preg 0x405 0xF }
  modTeam s r0 fun t => { t with a := stSetAll t.a [(0x80, 64)] }
theorem test_meets_storage :
    (let q := reqOf 5 (crec 0 0 0 0 0 0 8 0 0);
      (teamOf (stDrive [q]) r0).any fun t => decide (ActsOn (stDrive [q]) 0 8 q ∧ q.st = .queued ∧ reqErr (stDrive [q]) t q = none)) = true ∧
    (let q := { reqOf 5 recLinear .moving 32 with raw := recLinear - 2 ^ 407 + 0x80 * 2 ^ 384 };
      decide (Running (stDrive [q]) ∧ (stDrive [q]).sram = [] ∧ arrAt (stDrive [q]) r0 q.arr = some (r0, 0x80) ∧ q.left ≤ bufGet (stDrive [q]) r0 .a 0x80 8 % 2 ^ 40)) = true ∧
    (let q := reqOf 5 (crec 0 0 0 0 0 0 8 0 0) .moving;
      decide (Running (stDrive [q]) ∧ (stDrive [q]).reqs.find? (fun x => x.id == 5) = some q ∧ (groupOf (stDrive [q]) q.r).isSome = true ∧ q.todo = [] ∧ q.rows = 0 ∧ q.left = 0 ∧
        (∀ w ∈ (stDrive [q]).driveCache, w.addr + w.bytes.length ≤ 2 ^ 61) ∧ 6 ≤ q.kind ∧ q.kind ≤ 8)) = true := by
  refine ⟨?_, ?_, ?_⟩ <;> decide +kernel

/-! Streams, memory-side commands, KV pages, ladders. -/

/-- A window of two 1 KiB slots in W at 0x800 whose program stands at 0x01_0000_0000_7000 and whose first slot is as given. -/
def winT (st : WinSt) (fill rel : Nat) : Window :=
  { freeWindow with
    st := st, b := ⟨false, 0, true, 0, 64, 1, 2, false, 0x800, mkPtr 1 0x4000, mkPtr 1 0x7000⟩, fills := [fill, 0], rels := [rel, 0], rpast := [[], []]
    pc := mkPtr 1 0x7000, pin := rootPin, bounds := [(1, BitVec.ofNat 128 ((2 ^ 56 - 1) * 2 ^ 64 + 31 * 2 ^ 59))] }
/-- A machine with that window, a command word at its pc, and a binding record at A 0x40. -/
def stWin (w : Window) (v : Nat) : State :=
  let s := stM (setG (setG g1 4 0x40) 5 1)
  let s := modTeam s r0 fun t => { t with wins := lset t.wins 0 w, a := stSetBytes [] 0x40 64 (2 ^ 56 + 0x7000 + (2 ^ 56 + 0x4000) * 2 ^ 64 + 0x800 * 2 ^ 128 + 1 * 2 ^ 152 + 64 * 2 ^ 160 + 2 ^ 207) }
  hwWrite s 0x117000 (bytesOf v 16)
/-- A group with an entry that waits. -/
def stWinWait (w : Window) (x : Wait) : State := modGroup (stWin w 0) ⟨r0, 0⟩ fun g => { g with frontier := [⟨mkPtr 1 0, 128, BitVec.allOnes 32, 0, .waiting x 0⟩] }

/-- StreamControl: SBIND of a free and a running window; SGO of a bound and a free one; SREL in and out of order; AWAIT of an object and a slot. -/
theorem test_meets_stream_control :
    (meets (stWin freeWindow 0) (.sbind ⟨hd, .g 4, 0⟩) fun c => let raw := bufGet c.s c.r.team .a 0x40 64
      decide (Producer c ∧ 0x40 + 64 ≤ c.t.alen ∧ (winOf c.t 0).st ≠ .running ∧ bindingBad raw (bindingOf raw) = false) && (bindingFits c.s c.t (bindingOf raw)).isNone) = true ∧
    (meets (armed (stWin (winT .running 0 0) 0)) (.sbind ⟨hd, .g 4, 0⟩) fun c => decide (Producer c ∧ (winOf c.t 0).st = .running ∧ CanTrap c)) = true ∧
    (meets (armed (stWin freeWindow 0)) (.sbind ⟨hd, .g 0, 0⟩) fun c => decide (CanTrap c ∧ bindingBad (bufGet c.s c.r.team .a 0 64) (bindingOf (bufGet c.s c.r.team .a 0 64)) = true)) = true ∧
    (meets (stWin (winT .bound 0 0) 0) (.sgo ⟨hd, 0⟩) fun c => decide (Producer c ∧ (winOf c.t 0).st = .bound)) = true ∧
    (meets (armed (stWin freeWindow 0)) (.sgo ⟨hd, 0⟩) fun c => decide (Producer c ∧ CanTrap c ∧ (winOf c.t 0).st ≠ .bound)) = true ∧
    (meets (stWin (winT .running 1 0) 0) (.srel ⟨hd, .im 0, 0⟩) fun c => decide ((winOf c.t 0).started = true ∧ (winOf c.t 0).fills.getD 0 0 = 1 ∧ (winOf c.t 0).rels.getD 0 0 < (winOf c.t 0).b.rc)) = true ∧
    (meets (armed (stWin (winT .running 1 1) 0)) (.srel ⟨hd, .im 0, 0⟩) fun c => decide (CanTrap c ∧ (winOf c.t 0).b.rc ≤ (winOf c.t 0).rels.getD 0 0)) = true := by
  refine ⟨?_, ?_, ?_, ?_, ?_, ?_, ?_⟩ <;> decide +kernel
theorem test_meets_await :
    (meets (stWin freeWindow 0) (.awaitObj ⟨hd, false, .g 0, 0⟩) fun c => match objPlace c false (.g 0) 0 with
      | .ok p => decide (objFound c.s c.t p.m p.off = some none)
      | .error _ => false) = true ∧
    (meets (armed (modTeam (stWin freeWindow 0) r0 fun t => { t with a := stSetBytes t.a 0 8 (2 ^ 63 + cCPYFAULT * 2 ^ 48 + 7 * 2 ^ 40) })) (.awaitObj ⟨hd, false, .g 0, 0⟩) fun c =>
      decide (CanTrap c ∧ objFound c.s c.t 0 0 = some (some (cCPYFAULT, 7)) ∧ isPoison cCPYFAULT = false)) = true ∧
    (meets (stWin (winT .running 0 0) 0) (.awaitSlot ⟨hd, .im 0, 0⟩) fun c => decide ((winOf c.t 0).started = true ∧ slotFound (winOf c.t 0) 0 = none ∧ (others c.u (frontOf c.g)).length < depthOf c.g)) = true ∧
    (let s := stWinWait (winT .running 1 0) (.slot 0 0); (teamOf s r0).any fun t => gangHere s t && slotFound (winOf t 0) 0 == some none) = true ∧
    ([Instr.astatObj ⟨hd, false, .g 3, .g 4, 0⟩, .astatSlot ⟨hd, .g 3, .im 0, 0⟩].all fun i => meets (stWin (winT .running 1 0) 0) i fun c => (winOf c.t 0).started && c.any) = true := by
  refine ⟨?_, ?_, ?_, ?_, ?_⟩ <;> decide +kernel
theorem test_sbind : (after (stWin freeWindow 0) (.sbind ⟨hd, .g 4, 0⟩) fun t _ => (teamOf t r0).any fun u => (winOf u 0).st == .bound && (winOf u 0).b.slots == 2 && (winOf u 0).b.rc == 1 &&
    (winOf u 0).pc == mkPtr 1 0x7000) = true := by decide +kernel

/-- A running program fetches a word of a code. -/
def fetches (w : Window) (v code : Nat) : Bool :=
  let s := stWin w v
  (teamOf s r0).any fun t => winReady s (winOf t 0) && match (winFetch s (winEng s r0 (winOf t 0)) (winOf t 0)).2 with
    | .ok y => y == v && (cmdErr y).isNone && y % 256 == code
    | .error _ => false
/-- StreamCommands: each command at the pc of a running window; a filling and a waiting one. -/
theorem test_meets_stream_commands :
    ([(1, 1), (2, 2), (3 + 0 * 2 ^ 16, 3), (3 + 5 * 2 ^ 16, 3), (4, 4), (5 + 3 * 2 ^ 8 + 8 * 2 ^ 8, 5), (6 + 0xFFFFFF * 2 ^ 16, 6), (7, 7), (8, 8), (9 + 0x40 * 2 ^ 16 + 1 * 2 ^ 40, 9), (10, 10), (11, 11)].all fun p =>
      fetches (winT .running 0 0) p.1 p.2) = true ∧
    decide (fillErr (winT .running 0 0) 1024 = none ∧ fillErr (winT .running 1 0) 16 = some (cWINOVF, 1) ∧ fillErr (winT .running 0 0) 1040 = some (cSTRPROG, 6)) = true ∧
    (let s := stWin { winT .running 0 0 with filling := some 0 } 0; (teamOf s r0).any fun t => decide (Running s ∧ 0 < t.wins.length ∧ (winOf t 0).filling = some 0 ∧
      0 < (winOf t 0).fills.length ∧ (winOf t 0).todo = [] ∧ (winOf t 0).rows = 0)) = true ∧
    decide (cmdErr 0 = some 1 ∧ cmdErr (11 + 2 ^ 20) = some 2 ∧ slotFree (winT .running 0 0) = true) = true ∧
    (let s := stWin { winT .running 0 0 with waiting := 2, latch := some 4 } 0; (teamOf s r0).any fun t => !teamIdle s t && (winOf t 0).latch == some 4) = true := by
  refine ⟨?_, ?_, ?_, ?_, ?_⟩ <;> decide +kernel
/-- A fill's next accesses pass. -/
def fillOk (s : State) (e : Eng) (ps : List Piece) (rows : Nat) (p : Ptr) : Bool :=
  (!ps.isEmpty || rows != 0) && ps.all (pieceOk s e) && (rows == 0 || [false, true].all fun b => indexOk s { e with refuse := b } p)
theorem fillOk_spec {s : State} {e : Eng} {ps : List Piece} {rows : Nat} {p : Ptr} (h : (ldOf s e.t.ld).tcache = []) (hx : fillOk s e ps rows p = true) :
    FillOk s e ps rows p := by
  simp only [fillOk, Bool.and_eq_true, Bool.or_eq_true, List.all_eq_true, Bool.not_eq_true', List.isEmpty_eq_false_iff, bne_iff_ne, beq_iff_eq] at hx
  refine ⟨hx.1.1, fun x hm => pieceOk_spec h (hx.1.2 x hm), fun hr => ?_⟩
  have hi := hx.2.resolve_left hr
  refine ⟨(indexOk_spec (e := { e with refuse := false }) h (hi false (by simp))).1, fun f b => (indexOk_spec (e := { e with refuse := b }) h (hi b ?_)).2 f⟩
  cases b <;> simp
/-- The first step of an STILE and of an SGATHER; a later step of each. -/
theorem test_meets_fills :
    ([1, 2].all fun code => let s := stWin (winT .running 0 0) code
      fetches (winT .running 0 0) code code && (teamOf s r0).any fun u => let x := winOf u 0
        let s1 := (winFetch s (winEng s r0 x) x).1
        let work := fillWork u x code code
        decide (fillErr x 16 = none ∧ fillReady s1 u x = true ∧ AllClean s1 ∧ (ldOf s1 0).tcache = [] ∧ teamOf s1 r0 = some u) &&
          fillOk s1 (winEng s1 r0 x) work.1 work.2 (fillIndexAt x code 1 work.2)) = true ∧
    ([(1, [⟨.mem (mkPtr 1 0x4000), .buf r0 .w 0x800, 16⟩], 0), (2, [⟨.mem (mkPtr 1 0x4000), .buf r0 .w 0x800, 16⟩], 1)].all fun (p : Nat × List Piece × Nat) =>
      let s := stWin { winT .running 0 0 with filling := some 0, todo := p.2.1, rows := p.2.2, ahead := stSet [] (mkPtr 1 0x7000).toNat (BitVec.ofNat 129 (2 ^ 128 + p.1)) } 0
      (teamOf s r0).any fun u => let x := winOf u 0
        let v := (stGet x.ahead x.pc.toNat).toNat % 2 ^ 128
        decide (Running s ∧ x.filling = some 0 ∧ v % 256 = p.1 ∧ fillReady s u x = true ∧ AllClean s ∧ (ldOf s 0).tcache = []) &&
          fillOk s (winEng s r0 x) x.todo x.rows (fillIndexAt x v (fillShape p.1 v).1 x.rows)) = true := by
  refine ⟨?_, ?_⟩ <;> decide +kernel
/-- R344: SLOOP pushes a level; SNEXT at the last iteration leaves it; SJMP counts words of 16 bytes from its own. -/
theorem test_sloop : (afterEvent (stWin (winT .running 0 0) (3 + 5 * 2 ^ 16)) (.sloop r0 0) fun t => (teamOf t r0).any fun u => (winOf u 0).loops == [(mkPtr 1 0x7010, 5, 0)]) = true := by decide +kernel
theorem test_sjmp : (afterEvent (stWin (winT .running 0 0) (6 + 0xFFFFFF * 2 ^ 16)) (.sjmp r0 0) fun t => (teamOf t r0).any fun u => (winOf u 0).pc == mkPtr 1 0x6FF0) = true := by decide +kernel

/-- MemorySideCommands: a record at A 0x40; a queued command. -/
theorem test_meets_memory_side :
    ([Instr.nbreq ⟨hd, .g 4, 0⟩, .attq ⟨hd, .g 4, 0⟩].all fun i => meets (stWin freeWindow 0) i fun c => decide (c.lanes ≠ [] ∧ 0x40 + 64 ≤ c.t.alen)) = true ∧
    ([false, true].all fun att => let m : MemOp := ⟨3, att, r0, 0, 0, rootPin, [], 0, [], none⟩
      let s : State := { stM g1 with memOps := [m] }
      decide (MemRuns s 3 m att ∧ AllClean s)) = true := by refine ⟨?_, ?_⟩ <;> decide +kernel
theorem test_nbreq : (after (stWin freeWindow 0) (.nbreq ⟨hd, .g 4, 0⟩) fun t _ => t.memOps.map (fun m => m.raw % 2 ^ 64) == [2 ^ 56 + 0x7000]) = true := by decide +kernel

/-- A pool of LD 0's stack 0 at 0x300000, with room for four frames, that lists frame 0x45; pages 0x40 and 0x41 in use. -/
def stKv : State :=
  let s := modLd (stM (setG (setG (setG g1 4 0x40) 5 0x41) 7 8)) 0 fun d => { d with preg := stSetAll d.preg [(0x410, 0x300000), (0x411, 4)] }
  let s := hwWrite (hwWrite s 0x300000 (bytesOf 1 8)) 0x300040 (bytesOf 0x45 8)
  hwWrite (hwWrite s 0x400000 (bytesOf (2 ^ 160 + 2 ^ 214) 64)) 0x410000 (bytesOf (2 * 2 ^ 160 + 2 ^ 214) 64)
theorem test_meets_kv :
    (meets (armed stKv) (.kvget ⟨hd, .g 3, .g 7, .g 4⟩) fun c => decide (CanTrap c ∧ 7 < (srcD c.g (.g 7) 2 c.low).toNat)) = true ∧
    (meets (armed (stM g1)) (.kvget ⟨hd, .g 3, .im 7, .g 4⟩) fun c => decide (CanTrap c) && (kvAlloc c.s c.ld 7).1.isNone) = true ∧
    (meets stKv (.kvget ⟨hd, .g 3, .im 0, .g 4⟩) fun c => (kvAlloc c.s c.ld 0).1.isSome) = true ∧
    ([(Instr.kvput ⟨hd, .g 4⟩, 0x40), (.kvput ⟨hd, .g 5⟩, 0x41), (.kvlnkSucc ⟨hd, .g 4, .g 5⟩, 0x40), (.kvlnkTok ⟨hd, .g 4, .im 16⟩, 0x41)].all fun p => meets stKv p.1 fun c =>
      match kvCheck c.s c.ld (kvCtxTenant c) p.2 with
      | .ok x => kvState x.1 == 1 && kvSucc x.1 == 0
      | .error _ => false) = true ∧
    (meets (armed stKv) (.kvput ⟨hd, .g 7⟩) fun c => decide (CanTrap c) && match kvCheck c.s c.ld (kvCtxTenant c) 8 with
      | .ok _ => false
      | .error e => e.1 == cNOTMAPPED && e.2.1 == 5) = true ∧
    decide (AllClean stKv ∧ kvPooled stKv 0 (2 ^ 20) = false ∧ kvPooled stKv 0 0x42 = true ∧ kvState (kvRead stKv 0x42).1 = 0 ∧ kvPooled stKv 0 0x40 = true ∧
      kvState (kvRead stKv 0x40).1 = 1 ∧ kvTenant (kvRead stKv 0x40).1 = 0) = true := by refine ⟨?_, ?_, ?_, ?_, ?_, ?_⟩ <;> decide +kernel
theorem test_kvlnk : (after stKv (.kvlnkSucc ⟨hd, .g 4, .g 5⟩) fun t _ => kvSucc (kvRead t 0x40).1 == 0x41 && kvSharers (kvRead t 0x41).1 == 3) = true := by decide +kernel

/-- A ladder of two rungs with one slot each, frames of 16 bytes, results of 4 bytes at 0x01_0000_0000_6000; both owe their counts to window 0. -/
def ladT : Nat :=
  let r := 2 ^ 264 + 2 ^ 266 + 2 ^ 270 + 4 * 2 ^ 276 + 0x300 * 2 ^ 320
  1 + (2 ^ 56 + 0x6000) * 2 ^ 64 + 0x77 * 2 ^ 192 + r * 2 ^ 512 + r * 2 ^ 896
def itemT (n : Nat) : Item := ⟨0, 0, 0, 0, n, List.replicate 16 0xAB, []⟩
/-- The machine of a ladder with a bin of rung 0, a group that may hold items, and a window. -/
def stLad (g : Group) (bin : Bin) (w : LadWin) : State :=
  let s := modTeam (stM g) r0 fun t => { t with lads := [w] }
  { s with grids := [{ grM with ladders := [ladT] }], gangs := [⟨⟨0, 0, 0⟩, 1, .resident, 0, [[bin, ⟨[], none⟩]], none, false, 0, none, false, []⟩] }
/-- A header whose guard p2 is true in lane 0 alone, and a rung group with an item in lane 0. -/
def gRung : Group := { setP g0 2 0 true with rung := some (0, 0, 0), items := [(0, itemT 3)] }
theorem test_meets_ladders :
    (meets (stLad (setP g1 2 0 true) ⟨[], none⟩ freeLad) (.lspawn ⟨h2, 0, .g 0, .v 2, 0⟩) fun c =>
      decide (SpawnOpen c 0 ∧ HasBin c.s c.r.team 0 0 ∧ binLoad c.s c.t 0 0 + 1 ≤ 64 ∧ frameErr c.t (ladAddr c.g (.g 0) 0 0) (frameSize c.gr 0 0) = none ∧ (ladOf c.t 0).held = [])) = true ∧
    (meets (stLad (setP g1 2 0 true) ⟨(List.range 64).map itemT, none⟩ freeLad) (.lspawn ⟨h2, 0, .g 0, .v 2, 0⟩) fun c => decide (SpawnOpen c 0 ∧ 64 < binLoad c.s c.t 0 0 + c.lanes.length)) = true ∧
    (meets (armed (stLad g1 ⟨[], none⟩ { freeLad with closed := true })) (.lspawn ⟨hd, 0, .g 0, .v 2, 0⟩) fun c => decide (CanTrap c ∧ (ladOf c.t 0).closed = true)) = true ∧
    (meets (armed (stLad g1 ⟨[], none⟩ freeLad)) (.lspawn ⟨hd, 0, .g 0, .v 2, 8⟩) fun c => decide (CanTrap c ∧ SpawnOpen c 0 ∧ frameErr c.t (ladAddr c.g (.g 0) 8 0) (frameSize c.gr 0 0) = some 1)) = true ∧
    (meets (stLad g1 ⟨[], none⟩ freeLad) (.lspawnClose ⟨hd, 0⟩) fun c => decide (SpawnOpen c 0)) = true ∧
    (meets (stLad gRung ⟨[], none⟩ freeLad) (.lesc ⟨h2, .g 0, 0⟩) fun c => decide ((∀ l ∈ c.lanes, itemOf c.g l ≠ none) ∧ 0 + 1 < ladRungs (ladRaw c.gr 0) ∧ HasBin c.s c.r.team 0 1 ∧ binLoad c.s c.t 0 1 + c.lanes.length ≤ 64)) = true ∧
    (meets (stLad gRung ⟨[], none⟩ freeLad) (.ldone ⟨h2, .none, .b32, .sp 2 0, .im 5⟩) fun c => decide ((∀ l ∈ c.lanes, itemOf c.g l ≠ none) ∧ ladRsz (ladRaw c.gr 0) = 4 ∧ tagTraps (getB c.t 0) = false)) = true ∧
    ([Instr.lesc ⟨hd, .g 0, 0⟩, .ldone ⟨hd, .none, .b32, .sp 2 0, .im 5⟩].all fun i => meets (armed (stLad { gRung with items := [] } ⟨[], none⟩ freeLad)) i fun c => decide (CanTrap c ∧ itemOf c.g 0 = none)) = true ∧
    (meets (stLad g1 ⟨[], none⟩ freeLad) (.lstat ⟨hd, .drop, 0, .g 3, 0⟩) fun c => decide (0 < c.t.lads.length ∧ 0 < ladRungs (ladRaw c.gr 0))) = true := by
  refine ⟨?_, ?_, ?_, ?_, ?_, ?_, ?_, ?_, ?_⟩ <;> decide +kernel
theorem test_meets_ladder_events :
    (let s := stLad g1 ⟨(List.range 32).map itemT, none⟩ freeLad;
      (gangOf s ⟨0, 0, 0⟩).any fun k => (gridOf s 0 0).any fun gr => decide (Running s ∧ k.place = .resident ∧ k.preempt = none ∧ (∀ u ∈ gangTeams s ⟨0, 0, 0⟩, ∀ q ∈ u.groups, q.saved = false) ∧ inSyscall (gangTeams s ⟨0, 0, 0⟩) = false ∧ 32 ≤ (binOf k 0 0).items.length) && (freeRung gr (gangTeams s ⟨0, 0, 0⟩) 0 0).isSome) = true ∧
    (let s := stLad g1 ⟨[itemT 3], some 90⟩ freeLad; (gangOf s ⟨0, 0, 0⟩).any fun k => (binOf k 0 0).due == some 90) = true ∧
    (let w : LadWin := { freeLad with done := [⟨0, some [1, 2, 3, 4], false, 0, []⟩], held := [0] }; decide (nextWrite (stLad g1 ⟨[], none⟩ w) w (doneRun w 1 0) = some ⟨0, some [1, 2, 3, 4], false, 0, []⟩)) = true ∧
    (let w : LadWin := { freeLad with done := [⟨0, none, false, 0, []⟩], held := [0] }; decide (nextWrite (stLad g1 ⟨[], none⟩ w) w (doneRun w 1 0) = none)) = true ∧
    (let s := stLad g1 ⟨[], none⟩ { freeLad with closed := true }; (teamOf s r0).any fun t => (gridOf s 0 0).any fun gr => (owedRungs gr t 0).head? == some 0 && arrivedFinal s t 0 0) = true := by
  refine ⟨?_, ?_, ?_, ?_, ?_⟩ <;> decide +kernel
theorem test_bin_launch : (afterEvent (stLad g1 ⟨(List.range 33).map itemT, none⟩ freeLad) (.binLaunch ⟨0, 0, 0⟩ 0 0) fun t => (gangOf t ⟨0, 0, 0⟩).any (fun k => (binOf k 0 0).items.length == 1) &&
    (groupOf t ⟨r0, 1⟩).any fun g => getV g 0 7 == 7 && getG g 1 == 0x77 && (frontOf g).any fun e => e.pc == mkPtr 1 0x300) = true := by decide +kernel
theorem test_ldone : (after (stLad gRung ⟨[], none⟩ freeLad) (.ldone ⟨h2, .none, .b32, .sp 2 0, .im 5⟩) fun t g => g.items.isEmpty && (teamOf t r0).any fun u => (ladOf u 0).done.map Done.res == [some [5, 0, 0, 0]]) = true := by
  decide +kernel

/-- LadderInstructions: the checks about lanes; a result that violates its bound. -/
theorem test_meets_lane_checks :
    ([(Opnd.im 0, 8, 1), (.im 0, 0xC0000, 2), (.im 5, 0, 5)].all fun p => meets (armed (stLad g1 ⟨[], none⟩ freeLad)) (.lspawn ⟨hd, 0, .g 0, p.1, p.2.1⟩) fun c =>
      let a (l : Nat) : Int := ladAddr c.g (.g 0) p.2.1 l
      let seq (l : Nat) : Nat := (srcD c.g p.1 1 l).toNat % 2 ^ 32
      decide (SpawnOpen c 0 ∧ CanTrap c) && (match p.2.2 with
        | 1 => c.lanes.find? fun l => decide (a l % 16 ≠ 0)
        | 2 => if c.lanes.all fun m => a m % 16 == 0 then c.lanes.find? fun l => decide (a l < 0 ∨ (c.t.alen : Int) < a l + frameSize c.gr 0 0) else none
        | _ => if c.lanes.all fun m => frameErr c.t (a m) (frameSize c.gr 0 0) == none then
            c.lanes.find? fun l => decide (seq l < (ladOf c.t 0).base ∨ seq l ∈ (ladOf c.t 0).held ∨ ∃ m ∈ c.lanes, m ≠ l ∧ seq m = seq l) else none) == some 0) = true ∧
    (let s := modTeam (armed (stLad { setG gRung 7 0x40C00000 with pin := rootPin } ⟨[], none⟩ freeLad)) r0 fun t => { t with bnd := [(3, 0x40800000C08000000000000000000003)] };
      meets s (.ldone ⟨h2, .f32, .b32, .sp 2 3, .g 7⟩) fun c => decide (CanTrap c ∧ (∀ l ∈ c.lanes, itemOf c.g l ≠ none) ∧ ladRsz (ladRaw c.gr 0) = 4 ∧ tagTraps (getB c.t 3) = true) &&
        (c.lanes.find? fun l => (doneData c ⟨h2, .f32, .b32, .sp 2 3, .g 7⟩ l).1) == some 0) = true := by
  refine ⟨?_, ?_⟩ <;> decide +kernel
/-- R369: the first failing check, not the first lane that fails one. -/
theorem test_lspawn_order : (after (armed (stLad (setV (setV g1 8 1 8) 9 0 0) ⟨[], none⟩ freeLad)) (.lspawn ⟨hd, 0, .v 8, .im 5, 0⟩) fun _ g =>
    g.handler.any fun h => h.trap.cause == cLADFRAME && h.trap.detail == 1) = true := by decide +kernel

/-! Well-formed instructions: one refused for each check. -/

/-- A row that is no word; a type its MOD does not allow; a guard on RCV; a frame size above 256; an immediate for a destination; an
odd pair. -/
theorem test_not_a_word : WellFormed .powerOn = false ∧ WellFormed (.issue 0 0) = false := by decide +kernel
theorem test_bad_mod : modOk (.iabs ⟨hd, 0, true, .n32, .v 3, .v 1⟩) = false ∧ WellFormed (.iabs ⟨hd, 0, true, .n32, .v 3, .v 1⟩) = false := by decide +kernel
theorem test_bad_guard : guardOk (.rcv ⟨false, 2, false, 0, false, 0⟩) = false ∧ WellFormed (.rcv ⟨false, 2, false, 0, false, 0⟩) = false := by decide +kernel
theorem test_not_canonical : canonical (.call ⟨hd, 128, .v 8, 0, 257⟩) = false ∧ WellFormed (.call ⟨hd, 128, .v 8, 0, 257⟩) = false := by decide +kernel
theorem test_bad_class : classErr (.iadd ⟨hd, 0, false, .s32, .im 3, .v 1, .g 6⟩) ≠ none ∧ WellFormed (.iadd ⟨hd, 0, false, .s32, .im 3, .v 1, .g 6⟩) = false := by
  decide +kernel
theorem test_bad_pair : alignErr (.iadd ⟨hd, 0, false, .s64, .v 3, .v 2, .v 4⟩) ≠ none ∧ WellFormed (.iadd ⟨hd, 0, false, .s64, .v 3, .v 2, .v 4⟩) = false := by
  decide +kernel
theorem test_well_formed : WellFormed (.iadd ⟨hd, 0, false, .s64, .v 4, .v 2, .v 6⟩) = true := by decide +kernel

/-! System instructions, trees, privileged registers, diagnostics. -/

/-- A team whose group waits in SYSCALL 7 with arguments 5 and 6. -/
def gSys : Group := { g1 with frontier := [⟨mkPtr 1 0, 128, BitVec.allOnes 32, 0, .waiting (.sys (BitVec.allOnes 32) (.g 3) 7 5 6) 0⟩] }
/-- Its machine: a request ring of 16 records at 0x200000, every cluster enabled. -/
def stSys (st : SysSt) (w : Where) : State :=
  let s := stT { tm [gSys] with sys := st }
  { setQb (setQb (setQb s 0 0x280 0x200000) 0 0x288 16) 0 0x258 (BitVec.ofNat 64 (2 ^ 44 - 1)) with
    gangs := [⟨⟨0, 0, 0⟩, 1, w, 0, [], none, true, 0, none, false, []⟩] }
/-- SystemCalls: SYSCALL waits; in a rung group it traps; the request goes out; the reply comes; the gang leaves and comes back. -/
theorem test_meets_system_calls :
    (meets (st g1) (.syscall ⟨hd, .g 3, .v 2, .g 6, 7⟩) fun c => decide (c.lanes ≠ [] ∧ c.g.handler = none ∧ c.g.rung = none ∧
      (others c.u (frontOf c.g)).length < depthOf c.g)) = true ∧
    (meets (armed (st { g1 with rung := some (0, 0, 0) })) (.syscall ⟨hd, .g 3, .v 2, .g 6, 7⟩) fun c => decide (c.lanes ≠ [] ∧ c.g.rung ≠ none ∧ CanTrap c)) = true ∧
    (let s := stSys .posting .resident; decide (Running s ∧ HasDev s 0 ∧ requestRingFull s 0 = false ∧ CleanAt s 0x200000 64) &&
      (teamOf s r0).any fun t => decide (t.sys = .posting ∧ gangHere s t = true ∧ beforeTeams s [t] = [] ∧ supplyingCall t = some (0, 7, 5, 6))) = true ∧
    (let s := stSys (.waiting 9) .resident; decide (Running s ∧ (s.harts.getD 19 default).replyval = 0) && (s.teams.find? fun t => t.r.ld == 0 && t.sys == .waiting 9).any fun t =>
      teamOf s t.r == some t && gangHere s t && t.groups.all fun q => !q.saved) = true ∧
    (let s := stSys (.waiting 9) .resident; decide (Running s ∧ allWait s ⟨0, 0, 0⟩ = true ∧ shadowRoom s 0 ⟨0, 0, 0⟩ = true) &&
      (let s := setQb { s with shadow := [(0, 3)] } 0 0x248 1000; decide (allWait s ⟨0, 0, 0⟩ = true ∧ shadowRoom s 0 ⟨0, 0, 0⟩ = false ∧ poolRoom s ⟨0, 0, 0⟩ = true))) = true ∧
    (let s := stSys (.replied 4) (.call (some 0)); decide (((gangTeams s ⟨0, 0, 0⟩).map Team.r).Nodup) && (turnOf s ⟨0, 0, 0⟩ fun w => match w with
      | .call _ => true
      | _ => false).any fun y => y.2 == [0]) = true := by refine ⟨?_, ?_, ?_, ?_, ?_, ?_⟩ <;> decide +kernel
theorem test_reply : (afterEvent { stSys (.waiting 9) .resident with harts := List.replicate 20 { (default : Hart) with replyval := 0x55 } } (.replytok 2 0 9) fun t =>
    (groupOf t ⟨r0, 0⟩).any fun g => getG g 3 == 0x55 && (frontOf g).any fun e => e.pc == mkPtr 1 12 && e.st == .ready) = true := by decide +kernel

/-- R388: service 0's reply is its first argument. -/
theorem test_reply_zero : (afterEvent { stSys (.waiting 9) .resident with
      teams := [{ tm [{ gSys with frontier := [⟨mkPtr 1 0, 128, BitVec.allOnes 32, 0, .waiting (.sys (BitVec.allOnes 32) (.g 3) 0 5 6) 0⟩] }] with sys := .waiting 9 }],
      harts := List.replicate 20 { (default : Hart) with replyval := 0x55 } } (.replytok 2 0 9) fun t =>
    (groupOf t ⟨r0, 0⟩).any fun g => getG g 3 == 5) = true := by decide +kernel

/-- FeatureWords. -/
theorem test_meets_features : ((List.range 5).all fun n => meets (st g1) (.featq ⟨hd, .g 3, BitVec.ofNat 8 n⟩) fun c => c.any) = true := by decide +kernel
theorem test_featq : (after (st g1) (.featq ⟨hd, .g 3, 0⟩) fun _ g => getG g 3 == 0x03010160042C0000) = true := by decide +kernel

/-- A group in a handler, which trapped at 0x700 with mask 3 and priority 90, and whose frontier holds that entry and another. -/
def gHand : Group :=
  { g1 with
    frontier := [⟨mkPtr 1 0x700, 90, 3, 0, .ready⟩, ⟨mkPtr 1 0x900, 80, 0xFFFFFFFC, 0, .ready⟩]
    handler := some ⟨⟨[], [], []⟩, [⟨mkPtr 1 0, 128, BitVec.allOnes 32, 0, .ready⟩], ⟨2, 0, 3, 0, mkPtr 1 0x700, 90, 0, 0, false, false, false⟩, 0⟩ }
/-- TrapHandling: TRAP and BKPT with and without lanes, in a handler, without a handler; a trap; a watchdog; ERET; REFRESH. -/
theorem test_meets_traps :
    ([fun x => Instr.trap x, fun x => .bkpt x].all fun i =>
      (meets (st g1) (i ⟨⟨true, 7, false, 0, false, 0⟩, 1023⟩) fun c => decide (c.lanes = [])) && (meets (armed (st g1)) (i ⟨hd, 1023⟩) fun c => decide (c.lanes ≠ [] ∧ CanTrap c)) &&
      (meets (st gHand) (i ⟨hd, 1023⟩) fun c => decide (c.lanes ≠ [] ∧ c.gr.fail = none ∧ c.g.handler ≠ none)) &&
      meets (st g1) (i ⟨hd, 1023⟩) fun c => decide (c.lanes ≠ [] ∧ c.gr.fail = none ∧ c.g.handler = none ∧ c.g.pendTrap = none ∧ awaitsFar c.g = false ∧ qbWord c.s c.ld 0x260 = 0)) = true ∧
    (let s := armed (st g1); (teamOf s r0).any fun t => decide (g1.handler = none ∧ g1.pendTrap = none ∧ awaitsFar g1 = false ∧ qbWord s 0 0x260 ≠ 0 ∧
      t.member < 8 ∧ g1.id < 32 ∧ g1.vbase < 2 ^ 12 ∧ t.core < 2 ^ 9)) = true ∧
    (let s := st gHand; decide (Running s) && (teamOf s r0).any fun t => gangHere s t && decide (gHand.handler ≠ none)) = true ∧
    ([Instr.eret hd, .eretSkip hd].all fun i => (meets (armed (st g1)) i fun c => decide (c.lanes ≠ [] ∧ CanTrap c)) && (meets (st gHand) i fun c =>
      decide (c.lanes ≠ [] ∧ c.g.handler ≠ none ∧ ∀ e ∈ c.g.frontier, parkTrap e = none))) = true ∧
    ([Instr.eret ⟨true, 7, false, 0, false, 0⟩, .eretSkip ⟨true, 7, false, 0, false, 0⟩].all fun i => meets (st g1) i fun c => decide (c.lanes = [])) = true ∧
    (meets (armed (st g1)) (.refresh hd) fun c => decide (c.lanes ≠ [] ∧ c.g.ended = false ∧ CanTrap c ∧ ((ldOf c.s 0).slots.getD 63 emptyRoot).full = false ∧ c.gr.slot = 63)) = true ∧
    (meets stLast (.refresh hd) fun c => decide (c.lanes ≠ [] ∧ c.g.ended = false ∧ ((ldOf c.s 0).slots.getD 63 emptyRoot).full = true ∧ c.gr.slot = 63)) = true := by
  refine ⟨?_, ?_, ?_, ?_, ?_, ?_, ?_⟩ <;> decide +kernel
theorem test_trap_frame : (after (armed (st g1)) (.trap ⟨hd, 0x155⟩) fun _ g => getG g 1 == BitVec.ofNat 64 (0xFFFFFFFF * 2 ^ 32 + 0x155 * 2 ^ 8 + cSWTRAP) && getG g 2 == mkPtr 1 0 &&
    (frontOf g).any fun e => e.pc == mkPtr 1 0x2000) = true := by decide +kernel
/-- R430: a wait whose event came during the handler ends at ERET. -/
def gHandMet : Group := { gHand with frontier := [⟨mkPtr 1 0x700, 90, 3, 0, .ready⟩, ⟨mkPtr 1 0x900, 80, 0xFFFFFFFC, 0, .waiting .met 7⟩] }
theorem test_meets_eret_met : (meets (st gHandMet) (.eret hd) fun c => decide (c.g.handler ≠ none) && c.g.frontier.any fun e => e.waits Wait.isMet && e.mask != 3) = true := by decide +kernel
theorem test_eret_met : (after (st gHandMet) (.eret hd) fun _ g => (frontOf g).any fun e => e.pc == mkPtr 1 0x90C && e.mask == 0xFFFFFFFC && e.st == .ready) = true := by decide +kernel
theorem test_eret_skip : (after (st gHand) (.eretSkip hd) fun _ g => g.handler.isNone && (frontOf g).any fun e => e.pc == mkPtr 1 0x70C && e.mask == 3) = true := by decide +kernel

/-! Trees, privileged registers, reset of a device, diagnostics. -/

/-- A machine with its frame table at 0x40000000 and its node table at 0x80000000. Frames 0x40 (nodes of LD 0), 0x41 (data); node
0x400000 published with count 1, its entry 5 a leaf of frame 0x41 (count 1); node 0x402000 private, count 0; node 0x404000 free; the
slots 63 (generation 5) and 62 (generation 4) have roots; g4 to g6 are given. -/
def treeBase : State :=
  let s := armed (st g1)
  let s := { s with preg := stSetAll s.preg [(0x402, 0x40000000), (0x403, 0x80000000)] }
  let s := hwWrite (hwWrite s (0x40000000 + 8 * 0x40) (bytesOf (2 ^ 58 + 3) 8)) (0x40000000 + 8 * 0x41) (bytesOf 1 8)
  let s := hwWrite (hwWrite s (0x80000000 + 8 * 0x200) (bytesOf (2 * 2 ^ 62 + 1) 8)) (0x80000000 + 8 * 0x201) (bytesOf (2 ^ 62) 8)
  let s := hwWrite s (0x400000 + 40) (bytesOf (0x410000 + 15) 8)
  modLd s 0 fun d => { d with pubNext := 6, slots := lset (lset d.slots 63 ⟨true, 5, 0, 63, 0x400000, []⟩) 62 ⟨true, 4, 1, 62, 0x400000, []⟩ }
def stTree (a b t : Nat) : State :=
  { treeBase with teams := [tm [setG (setG (setG g1 4 (BitVec.ofNat 64 a)) 5 (BitVec.ofNat 64 b)) 6 (BitVec.ofNat 64 t)]] }
/-- Its tables lie apart from a node. -/
theorem test_tables_apart (a b t n : Nat) (h : n + 8192 ≤ 0x40000000) : TablesApart (stTree a b t) n := by
  have hp : (stTree a b t).preg = treeBase.preg := by unfold stTree; rfl
  have h2 : pkgReg (stTree a b t) 0x402 = 0x40000000 := by rw [pkgReg, hp]; decide +kernel
  have h3 : pkgReg (stTree a b t) 0x403 = 0x80000000 := by rw [pkgReg, hp]; decide +kernel
  have h4 : pkgReg (stTree a b t) 0x812 = 0 := by rw [pkgReg, hp]; decide +kernel
  have h5 : (stTree a b t).ecc = [] := (by unfold stTree; rfl : (stTree a b t).ecc = treeBase.ecc).trans (by decide +kernel)
  have h6 : (stTree a b t).sram = [] := (by unfold stTree; rfl : (stTree a b t).sram = treeBase.sram).trans (by decide +kernel)
  simp only [TablesApart, InFrames, InNodes, h2, h3, h4, h5, h6]
  refine ⟨by omega, by omega, trivial, fun x _ => by simp [stGet]⟩
/-- TreeInstructions: TNODE of a free and of a published node, with and without a source. -/
theorem test_meets_tnode :
    (meets (stTree 0x404000 0x400000 0) (.tnode ⟨hd, true, .g 4, .v 0⟩) fun c => decide (c.lanes ≠ [] ∧ isNodeOf c.s c.ld 0x404000 = true ∧ nodeState c.s 0x404000 = 0 ∧ sysVal c (.g 4) = 0x404000)) = true ∧
    (meets (stTree 0x404000 0x400000 0) (.tnode ⟨hd, false, .g 4, .g 5⟩) fun c => decide (isNodeOf c.s c.ld 0x404000 = true ∧ nodeState c.s 0x404000 = 0 ∧ nodeFree c.s c.ld 0x400000 = false ∧ sysVal c (.g 5) = 0x400000 ∧
      entNames c.s (nodeEntry c.s 0x400000 5) = .frame 0x410000 ∧ namedCount c.s (.frame 0x410000) = 1)) = true ∧
    (meets (stTree 0x400000 0 0) (.tnode ⟨hd, true, .g 4, .v 0⟩) fun c => decide (CanTrap c ∧ nodeState c.s 0x400000 ≠ 0)) = true ∧
    (meets (stTree 0x404000 0x404000 0) (.tnode ⟨hd, false, .g 4, .g 5⟩) fun c => decide (CanTrap c ∧ nodeFree c.s c.ld 0x404000 = true)) = true := by
  refine ⟨?_, ?_, ?_, ?_⟩ <;> decide +kernel
/-- The valid entries of node 0x400000: entry 5 alone, which names frame 0x41 with count 1. -/
theorem test_node_entries : ∀ e ∈ nodeEntries (stTree 0x404000 0x400000 0) 0x400000, e = 0x41000F := by
  intro e he
  obtain ⟨he, hb⟩ := List.mem_filter.1 he
  obtain ⟨i, hi, rfl⟩ := List.mem_map.1 he
  have hm : ∀ kv ∈ (stTree 0x404000 0x400000 0).mem, (0x400028 ≤ kv.1 ∧ kv.1 < 0x400030) ∨ 0x402000 ≤ kv.1 := by decide +kernel
  have hi := List.mem_range.1 hi
  by_cases h5 : i = 5
  · subst h5; decide +kernel
  · have hz : nodeEntry (stTree 0x404000 0x400000 0) 0x400000 i = 0 := peek_unlisted _ _ 8 rfl fun kv hkv => by have := hm kv hkv; omega
    rw [hz] at hb; exact absurd hb (by decide)
/-- TSET: a reserved bit; a published node; an index past the end; a leaf that does not fit; the same and another name. -/
theorem test_meets_tset :
    ([(0x402000, 2 ^ 52, 0, 3, 0), (0x400000, 0x41000F, 5, 3, 1), (0x402000, 0x40000F, 1023, 3, 3), (0x402000, 0x410000, 1023, 3, 4), (0x402000, 0x41000F, 0, 3, 5), (0x402000, 0x400001, 1, 2, 5)].all fun p =>
      meets (stTree p.1 p.2.1 0) (.tset ⟨hd, BitVec.ofNat 2 p.2.2.2.1, .g 4, .g 5, BitVec.ofNat 10 p.2.2.1⟩) fun c =>
        let bad : Bool := decide (bit1 p.2.1 0 = true ∧ if p.2.2.2.1 = 3 then leafUnfit c.s c.ld p.2.1 = true else nodeFree c.s c.ld (entNode p.2.1) = true)
        let ok : Bool := isNodeOf c.s c.ld p.1 && nodeState c.s p.1 == 1
        let r : Bool := entReserved p.2.2.2.1 p.2.1
        decide (CanTrap c ∧ HasDev c.s c.ld ∧ sysVal c (.g 4) = p.1 ∧ sysVal c (.g 5) = p.2.1) && match p.2.2.2.2 with
        | 0 => r
        | 1 => !r && !ok
        | 3 => !r && ok && bad
        | 4 => !r && ok && !bad && entNames c.s p.2.1 == entNames c.s (nodeEntry c.s p.1 p.2.2.1)
        | _ => !r && ok && !bad && entNames c.s p.2.1 != entNames c.s (nodeEntry c.s p.1 p.2.2.1)) = true := by decide +kernel
theorem test_tset : (after (stTree 0x402000 0x41000F 0) (.tset ⟨hd, 3, .g 4, .g 5, 9⟩) fun t g => nodeEntry t 0x402000 9 == 0x41000F && frameCount t 0x410000 == 2 &&
    (frontOf g).any fun e => e.pc == mkPtr 1 12) = true := by decide +kernel
/-- RSWAP: a free node, a slot past the end, another generation, full records, full generations, a swap; RCOPY; RDROP. -/
def fullRet (s : State) : State := modLd s 0 fun d => { d with
  slots := lset d.slots 63 ⟨true, 5, 2, 63, 0x400000, []⟩
  retired := List.replicate 256 ⟨true, 1, 1, 63, 0x400000, []⟩ }
def fullPub (s : State) : State := modLd s 0 fun d => { d with pubNext := 2 ^ 48 - 1 }
theorem test_meets_roots :
    ([(stTree 63 0x404000 5, true, 2), (stTree 64 0x400000 5, false, 7), (stTree 63 0x400000 4, false, 0), (fullRet (stTree 63 0x400000 5), false, 4), (fullPub (stTree 63 0x400000 5), false, 5),
      (stTree 63 0x400000 5, false, 1), (stTree 0 0x402000 0, false, 1)].all fun p => meets p.1 (.rswap ⟨hd, .g 3, .g 4, .g 5, .g 6⟩) fun c =>
        let k := sysVal c (.g 4)
        let r := (ldOf c.s 0).slots.getD k emptyRoot
        let hit : Bool := decide (k < 64 ∧ if r.full = true then r.gen = sysVal c (.g 6) % 2 ^ 48 else sysVal c (.g 6) % 2 ^ 48 = 0)
        decide (CanTrap c ∧ HasDev c.s 0 ∧ nodeFree c.s 0 (sysVal c (.g 5)) = p.2.1) && match p.2.2 with
        | 2 => true
        | 7 => decide (64 ≤ k)
        | 0 => decide (k < 64) && !hit
        | 4 => hit && retireFull c.s 0 k
        | 5 => hit && !retireFull c.s 0 k && pubFull (ldOf c.s 0)
        | _ => hit && !retireFull c.s 0 k && !pubFull (ldOf c.s 0) && decide (nodeCount c.s (sysVal c (.g 5)) + 1 < 2 ^ 32)) = true ∧
    ([(fullPub (stTree 0 63 0), 5), (stTree 62 63 0, 7), (stTree 0 64 0, 7), (stTree 61 63 0, 1)].all fun p => meets p.1 (.rcopy ⟨hd, .g 3, .g 4, .g 5⟩) fun c =>
        let j := sysVal c (.g 4)
        let k := sysVal c (.g 5)
        let full (i : Nat) : Bool := ((ldOf c.s 0).slots.getD i emptyRoot).full
        decide (CanTrap c ∧ HasDev c.s 0) && match p.2 with
        | 5 => pubFull (ldOf c.s 0)
        | 7 => !pubFull (ldOf c.s 0) && (decide (64 ≤ j ∨ 64 ≤ k) || full j || !full k)
        | _ => !pubFull (ldOf c.s 0) && decide (j < 64 ∧ k < 64) && !full j && full k) = true ∧
    ([(stTree 64 0 0, 7), (stTree 0 0 0, 7), (fullRet (stTree 63 0 0), 4), (stTree 63 0 0, 1), (stTree 62 0 0, 2)].all fun p => meets p.1 (.rdrop ⟨hd, .g 4⟩) fun c =>
        let k := sysVal c (.g 4)
        let r := (ldOf c.s 0).slots.getD k emptyRoot
        decide (CanTrap c ∧ HasDev c.s 0) && match p.2 with
        | 7 => decide (64 ≤ k) || !r.full
        | 4 => r.full && retireFull c.s 0 k
        | 1 => r.full && !retireFull c.s 0 k && r.pins == 0
        | _ => r.full && !retireFull c.s 0 k && r.pins != 0) = true ∧
    (meets (stTree 0x400000 0 0) (.rdropNode ⟨hd, .g 4⟩) fun c => decide (CanTrap c ∧ nodeState c.s 0x400000 ≠ 1)) = true ∧
    (meets (stTree 0x402000 0 0) (.rdropNode ⟨hd, .g 4⟩) fun c => decide (isNodeOf c.s 0 0x402000 = true ∧ nodeState c.s 0x402000 = 1 ∧ nodeCount c.s 0x402000 = 0)) = true ∧
    (meets (stTree 1 0 0) (.tinv ⟨hd, .g 4⟩) fun c => decide (c.lanes ≠ [] ∧ HasDev c.s 0)) = true := by refine ⟨?_, ?_, ?_, ?_, ?_, ?_⟩ <;> decide +kernel
theorem test_rcopy : (after (stTree 61 63 0) (.rcopy ⟨hd, .g 3, .g 4, .g 5⟩) fun t g => getG g 3 == 6 && (ldOf t 0).slots.getD 61 emptyRoot == ⟨true, 6, 0, 61, 0x400000, []⟩ &&
    nodeCount t 0x400000 == 2) = true := by decide +kernel

/-- TreePorts: a word for each operation, the hart's registers those of the instruction. Reclamation: each kind of step; a full ring. -/
def stHart (a b t : Nat) : State := { stTree 0 0 0 with harts := List.replicate 20 { (default : Hart) with opA := BitVec.ofNat 64 a, opB := BitVec.ofNat 64 b, opT := BitVec.ofNat 64 t, d := 7, status := 99 } }
theorem test_meets_ports : decide (Running (stHart 0 0 0) ∧ (19 : Nat) < (stHart 0 0 0).harts.length ∧ ((0x1C1 : DWord).extractLsb' 20 44 = 0 ∧ (0x1C1 : DWord).extractLsb' 0 8 = 0xC1) ∧
    (0x3C2 : DWord).extractLsb' 0 8 = 0xC2 ∧ (0xF00C6 : DWord).extractLsb' 16 4 = 15) = true := by decide +kernel
theorem test_port_rdrop : (afterEvent (stHart 0x402000 0 0) (.treeportRdrop 19 0x1C5) fun t => (t.harts.getD 19 default).status == 0 && (ldOf t 0).reclaim == [.append 0x402001] && nodeState t 0x402000 == 0) = true := by
  decide +kernel
theorem test_port_error : (afterEvent (stHart 64 0 0) (.treeportRdrop 3 0xC5) fun t => (t.harts.getD 3 default).status == BitVec.ofNat 64 (cTREEOP + 7 * 256)) = true := by decide +kernel
/-- A reclaim ring of 4,096 records at 0x600000, its pointer in register 1. -/
def stRing (r : List Reclaim) (prod : Nat) : State :=
  let s := modLd (stTree 0 0 0) 0 fun d => { d with reclaim := r, preg := stSetAll d.preg [(1, 0x500000), (2, BitVec.ofNat 64 prod)] }
  hwWrite s 0x500000 (bytesOf 0x600000 32)
theorem test_meets_reclaim :
    decide (Running (stRing [.append 5] 4095) ∧ HasDev (stRing [.append 5] 4095) 0 ∧ ringRoom (stRing [.append 5] 4095) 0 = true ∧ ringRoom (stRing [.append 5] 4096) 0 = false ∧
      entNames (stRing [] 0) (0x402000 / 2 * 2 + 1) = .node 0x402000 ∧ entNames (stRing [] 0) (0x41000F / 2 * 2 + 1) = .frame 0x410000 ∧ nodeCount (stRing [] 0) 0x402000 ≤ 1) = true := by decide +kernel
theorem test_reclaim_append : (afterEvent (stRing [.append 5] 4095) (.reclaimRelease 0) fun t => peek t 0x607FF8 8 == 5 && ldReg t 0 2 == 0x1000 && (ldOf t 0).reclaim.isEmpty) = true := by
  decide +kernel

/-- Reclamation: an entry that names a node with one count, and one that names a frame. -/
theorem test_meets_drops :
    decide ((ldOf (stRing [.dropEntry 0x402001] 0) 0).reclaim = [.dropEntry 0x402001] ∧ (ldOf (stRing [] 0) 0).resetting = false ∧ AllClean (stRing [.dropEntry 0x402001] 0) ∧
      namesNode (stRing [.dropEntry 0x402001] 0) 0x402001 = true ∧ namesNode (stRing [.dropEntry 0x41000F] 0) 0x41000F = false ∧
      frameCounted (stRing [.dropEntry 0x41000F] 0) 0x410000 = true ∧ frameCount (stRing [.dropEntry 0x41000F] 0) 0x410000 = 1) = true := by decide +kernel
theorem test_ring_apart : RingApart (stRing [.dropEntry 0x41000F] 0) 0 fun a => 0x402000 ≤ a ∧ a < 0x404000 := by
  have h1 : ldReg (stRing [.dropEntry 0x41000F] 0) 0 1 = 0x500000 := by decide +kernel
  have h2 : pkgReg (stRing [.dropEntry 0x41000F] 0) 0x402 = 0x40000000 := by decide +kernel
  have h3 : pkgReg (stRing [.dropEntry 0x41000F] 0) 0x403 = 0x80000000 := by decide +kernel
  have h4 : fld (peek (stRing [.dropEntry 0x41000F] 0) 0x500000 8) 0 52 = 0x600000 := by decide +kernel
  intro a ha
  simp only [h1, h4] at ha
  simp only [InFrames, InNodes, h2, h3]
  omega
/-- R57: a frame that nothing names any more is recorded with 2 added to its address. -/
theorem test_drop_frame : (afterEvent (stRing [.dropEntry 0x41000F] 0) (.reclaimRelease 0) fun t => frameCount t 0x410000 == 0 && peek t 0x600000 8 == 0x410002 && ldReg t 0 2 == 1) = true := by
  decide +kernel

/-! Privileged registers, reset of a device, diagnostics. -/

/-- A machine with g4 and g5 given, at management level; and the same in logical device 1, at supervisor level. -/
def stMg (a b : Nat) : State := armed (st (setG (setG g1 4 (BitVec.ofNat 64 a)) 5 (BitVec.ofNat 64 b)))
def stSup (a b : Nat) : State :=
  let s := setQb (stMg a b) 1 0x260 (mkPtr 1 0x2000)
  let r : TeamRef := ⟨1, 0, 0⟩
  { s with
    grids := [{ benchGrid with ld := 1 }], gangs := [⟨⟨1, 0, 0⟩, 1, .resident, 0, [], none, false, 0, none, false, []⟩]
    teams := s.teams.map fun t => { t with r := r }, issuing := some ⟨⟨r, 0⟩, mkPtr 1 0, 128, BitVec.allOnes 32⟩ }
/-- PrivilegedRegisters: each check of SWRITE and PRIVRD: an unassigned number, a device of a package register, a management
register and another device's, an index, a frame without an entry, a read-only register. -/
theorem test_meets_priv_traps :
    ([(fun (n : Nat) (d : Nat) (b : Opnd) => Instr.swrite ⟨hd, .g 4, b, BitVec.ofNat 16 n, BitVec.ofNat 4 d⟩, true),
      (fun n d b => .privrd ⟨hd, .g 3, b, BitVec.ofNat 16 n, BitVec.ofNat 4 d⟩, false)].all fun i =>
      let chk (s : State) (n d : Nat) (b : Opnd) (p : Ctx → PrivReg → Bool) : Bool := meets s (i.1 n d b) fun c => decide (c.lanes ≠ [] ∧ CanTrap c) && (privReg n).any (p c)
      let raw (s : State) (n d : Nat) (b : Opnd) (p : Ctx → PrivReg → Bool) : Bool := !WellFormed (i.1 n d b) && (ctxOf s hd).any fun c =>
        decide (c.lanes ≠ [] ∧ CanTrap c) && (privReg n).any (p c)
      meets (stMg 0 0) (i.1 0x7FF 0 (.v 0)) (fun c => decide (CanTrap c) && (privReg 0x7FF).isNone) &&
      raw (stMg 0 0) 0x402 1 (.v 0) (fun _ r => r.pkg) &&
      chk (stSup 0 0) 0x402 0 (.v 0) (fun c r => c.level != .mgmt && r.mgmt) && chk (stSup 0 0) 0x1 2 (.v 0) (fun c r => c.level != .mgmt && !r.pkg && c.ld != 2) &&
      raw (stMg 0 3) 0x402 0 (.g 5) (fun c r => c.level == .mgmt && r.pkg && privIndex c (.g 5) == 3) &&
      chk (stMg 0 (2 ^ 36 + 2 ^ 33)) 0x404 0 (.g 5) (fun c _ => (frameEntPa c.s (privIndex c (.g 5) * 2 ^ 16)).isNone) &&
      (!i.2 || chk (stMg 0 0) 0x4 0 (.v 0) fun _ r => r.ro)) = true := by decide +kernel
/-- SWRITE: a value that does not fit; a register at each level; CCBASE; a frame in use and one not. PRIVRD: PUBNEXT, a frame, the slot records. -/
theorem test_meets_priv_runs :
    (let chk (s : State) (n d : Nat) (b : Opnd) (p : Ctx → Bool) : Bool := meets s (.swrite ⟨hd, .g 4, b, BitVec.ofNat 16 n, BitVec.ofNat 4 d⟩) fun c =>
      decide (c.lanes ≠ [] ∧ HasDev c.s d) && (privReg n).any (fun r => !r.ro && (!r.pkg || d == 0) && (c.level == .mgmt || !r.mgmt && (r.pkg || d == c.ld))) && p c;
      chk (stMg 1 0) 1 15 (.v 0) (fun c => decide (CanTrap c) && !privFits 1 1) && chk (stSup 64 0) 1 1 (.v 0) (fun _ => privFits 1 64) && chk (stMg 0 0) 0x807 0 (.v 0) (fun _ => privFits 0x807 0) &&
      chk (stMg (2 ^ 58 + 2 ^ 60) 0x55) 0x404 0 (.g 5) (fun c => (frameEntPa c.s 0x550000).isSome && privFits 0x404 (2 ^ 58 + 2 ^ 60) && frameCount c.s 0x550000 == 0) &&
      chk (hwWrite (stMg (2 ^ 58) 0x55) (8 * 0x55) [1]) 0x404 0 (.g 5) (fun c => decide (CanTrap c) && privFits 0x404 (2 ^ 58) && frameCount c.s 0x550000 == 1)) = true ∧
    (let chk (s : State) (n d : Nat) (b : Opnd) (p : Ctx → Bool) : Bool := meets s (.privrd ⟨hd, .g 3, b, BitVec.ofNat 16 n, BitVec.ofNat 4 d⟩) fun c =>
      decide (c.lanes ≠ []) && (privReg n).any (fun r => (!r.pkg || d == 0) && (c.level == .mgmt || !r.mgmt && (r.pkg || d == c.ld))) && p c;
      [4, 0x100, 0x101, 0x17E, 0x17F, 3].all (fun n => chk (stSup 0 0) n 1 (.v 0) fun _ => true) && chk (stMg 0 0) 0xA67 0 (.v 0) (fun _ => true) &&
      chk (stMg 0 0x55) 0x404 0 (.g 5) fun c => (frameEntPa c.s 0x550000).isSome) = true ∧
    (Running (stMg 0 0) ∧ HasDev (stMg 0 0) 15 ∧ (privReg 0x400).any (fun r => !r.ro && !r.pkg) = true ∧ privFits 0x400 20000 = true) := by refine ⟨?_, ?_, ?_⟩ <;> decide +kernel
theorem test_swrite_frame : (after (stMg (2 ^ 58 + 2 ^ 60) 0x55) (.swrite ⟨hd, .g 4, .g 5, 0x404, 0⟩) fun t _ => frameKind t 0x550000 == 1 && frameOwner t 0x550000 == 1) = true := by
  decide +kernel
theorem test_privrd : (after stLast (.privrd ⟨hd, .g 3, .v 0, 0x17F, 0⟩) fun _ g => getG g 3 == 0x50000) = true := by decide +kernel
/-- R9, R43: the dash field of a frame's entry reads as zero. -/
theorem test_privrd_frame : (after (hwWrite (stMg 0 0x55) (8 * 0x55) (bytesOf (2 ^ 60 + 2 ^ 57 + 2 ^ 40 + 9) 8)) (.privrd ⟨hd, .g 3, .g 5, 0x404, 0⟩) fun _ g =>
    getG g 3 == 2 ^ 60 + 9) = true := by decide +kernel
theorem test_register_write : (afterEvent (stMg 0 0) (.registerWrite 0xFF0000050260 0x0100000000002003) fun t => qbWord t 5 0x260 == 0x0100000000002000) = true := by decide +kernel

/-- LogicalDeviceReset: of oneself, of 0, of 16, at supervisor level; of device 15; the end of a reset, busy and not; a clear-pending line. -/
def stRst (busy : Bool) : State :=
  let s := modLd (st { g1 with frontier := [⟨mkPtr 1 0, 128, BitVec.allOnes 32, 0, .waiting (.ldreset 15) 0⟩] }) 15 fun d => { d with resetting := true, pubNext := 9 }
  if busy then { s with memOps := [⟨3, false, ⟨15, 0, 0⟩, 0, 0, none, [], 0, [], none⟩] } else s
theorem test_meets_ldreset :
    (meets (stSup 15 0) (.ldreset ⟨hd, .g 4⟩) fun c => decide (c.lanes ≠ [] ∧ c.level ≠ .mgmt ∧ CanTrap c)) = true ∧
    ([0, 16].all fun n => meets (stMg n 0) (.ldreset ⟨hd, .g 4⟩) fun c => decide (c.level = .mgmt ∧ CanTrap c ∧ sysVal c (.g 4) = n)) = true ∧
    (meets (stMg 15 0) (.ldreset ⟨hd, .g 4⟩) fun c => decide (c.level = .mgmt ∧ 15 ≠ c.ld ∧ HasDev c.s 15 ∧ (others c.u (frontOf c.g)).length < depthOf c.g ∧ (ldOf c.s 15).resetting = false)) = true ∧
    (Running (stRst true) ∧ HasDev (stRst true) 15 ∧ (ldOf (stRst true) 15).resetting = true ∧ ldBusy (stRst true) 15 = true ∧ ldBusy (stRst false) 15 = false) ∧
    (let s := { State.reset with clearPend := [(0, 2 ^ 32)] }; Running s ∧ isPend s 5 = true ∧ isPend s (2 ^ 32) = false) := by refine ⟨?_, ?_, ?_, ?_, ?_⟩ <;> decide +kernel
theorem test_ldreset_complete : (afterEvent (stRst false) (.ldresetComplete 15) fun t => (ldOf t 15).pubNext == 1 && !(ldOf t 15).resetting &&
    (groupOf t ⟨r0, 0⟩).any fun g => (frontOf g).any fun e => e.pc == mkPtr 1 12 && e.st == .ready) = true := by decide +kernel
theorem test_clear_line : (afterEvent { State.reset with clearPend := [(0, 2 ^ 32)] } (.clearPendingLine 5) fun t => t.clearPend == [(0, 5), (6, 2 ^ 32)]) = true := by decide +kernel

/-- Diagnostics: each check at its bound; HBM; SRAM plain and overlaid. -/
theorem test_meets_diag :
    ([(fun x => Instr.diagstHbm x, 48), (fun x => .diagldHbm x, 48), (fun x => .diagstSram x, 16), (fun x => .diagldSram x, 16)].all fun i =>
      meets (stSup 0 0) (i.1 ⟨hd, .g 4, .g 5⟩) (fun c => decide (c.level ≠ .mgmt ∧ CanTrap c)) &&
      meets (stMg 0 (786432 - i.2 + 16)) (i.1 ⟨hd, .g 4, .g 5⟩) (fun c => decide (c.level = .mgmt ∧ CanTrap c ∧ c.t.alen < sysVal c (.g 5) + i.2)) &&
      meets (stMg 0 8) (i.1 ⟨hd, .g 4, .g 5⟩) (fun c => decide (sysVal c (.g 5) % 16 ≠ 0 ∧ sysVal c (.g 5) + i.2 ≤ c.t.alen)) &&
      meets (stMg (if i.2 = 48 then 2 ^ 39 else 2 ^ 56 + 98304) 0) (i.1 ⟨hd, .g 4, .g 5⟩) (fun c => if i.2 = 48 then decide (2 ^ 39 ≤ sysVal c (.g 4)) else (sramTarget (sysVal c (.g 4))).isNone) &&
      meets (stMg (if i.2 = 48 then 2 ^ 39 - 32 else 2 ^ 56 + 98303) (786432 - i.2)) (i.1 ⟨hd, .g 4, .g 5⟩) fun c => decide (c.s.sram = [] ∧ sysVal c (.g 5) + i.2 ≤ c.t.alen) &&
        (if i.2 = 48 then decide (sysVal c (.g 4) < 2 ^ 39 ∧ sysVal c (.g 4) % 32 = 0) else sramTarget (sysVal c (.g 4)) == some (1, 0, 98303))) = true ∧
    (meets { stMg (2 ^ 56) 0 with sram := [(1, 0, 0, 5, 7)] } (.diagldSram ⟨hd, .g 4, .g 5⟩) fun c => decide (c.level = .mgmt ∧ c.s.sram = [(1, 0, 0, 5, 7)] ∧ sramTarget (sysVal c (.g 4)) = some (1, 0, 0) ∧
      storeBufOf 1 ≠ some .a)) = true := by refine ⟨?_, ?_⟩ <;> decide +kernel
theorem test_diagld_sram : (after { stMg (2 ^ 56) 0 with sram := [(1, 0, 0, 5, 7)] } (.diagldSram ⟨hd, .g 4, .g 5⟩) fun t _ => bufGet t r0 .a 0 16 == 5 + 7 * 2 ^ 64) = true := by decide +kernel

/-! Queues, launches, migration, partition swap. -/

/-- A queue that is enabled on slot 0 with base 0x01_0000_0000_4000 and 16 commands, HEAD 15 and TAIL 16. -/
def qT : Queue := ⟨0, 0, false, true, 0, 16, 15, 16, mkPtr 1 0x4000, [], [], none, []⟩
/-- The tree of a page mapped at VA 0 and a bounds table; three words 5, 6, 7 at 0x01_0000_0000_5000. -/
def lowQ : List Host.Cell :=
  [(128, 4), (135, 4), (136, 1), (0x100000, 1), (0x100001, 32), (0x100002, 16), (0x102000, 1), (0x102001, 64), (0x102002, 16),
    (0x104000, 1), (0x104001, 96), (0x104002, 16), (0x106000, 15), (0x106002, 17)]
def highQ : List Host.Cell :=
  [(0x115000, 5), (0x115008, 6), (0x115010, 7), (5242914, 81), (0x510017, 248)] ++ (List.range 7).map fun i => (0x510018 + i, 255)
/-- A machine whose slot 0 of LD 0 has that tree and table; the last command of queue q stands at HEAD. -/
def stQ (q : Nat) (x : Queue) (c : Nat) : State :=
  let s : State := { State.reset with
    mem := lowQ ++ ((List.range 64).filterMap fun i => if c / 256 ^ i % 256 = 0 then none else some (0x1143C0 + i, BitVec.ofNat 8 (c / 256 ^ i))) ++ highQ }
  modLd s 0 fun d => { d with
    slots := lset d.slots 0 ⟨true, 1, 0, 0, 0x100000, []⟩, preg := stSet d.preg 1 0x500000
    queues := lset d.queues q x }
/-- The same where the command has been read and waits. -/
def stC (q : Nat) (x : Queue) (c : Nat) : State := stQ q { x with waiting := some c } 0
/-- A command's bits: code, flags, IMM, P, VAL, P2. -/
def cmdOf (code flags imm p v p2 : Nat) : Nat := code + flags * 2 ^ 8 + imm * 2 ^ 32 + p * 2 ^ 64 + v * 2 ^ 128 + p2 * 2 ^ 192
/-- The word at 0x01_0000_0000_5000. -/
def pW : Nat := 2 ^ 56 + 0x5000
/-- The command at HEAD is read, of a code, and p holds of it. -/
def commands (s : State) (q code : Nat) (p : State → Queue → Nat → Bool) : Bool :=
  decide (Running s ∧ HasDev s 0 ∧ q < 9 ∧ (ldOf s 0).resetting = false ∧ queueBusy (queueOf s 0 q) = true) && match readCommand s ⟨0, q⟩ with
  | .ok (c, s1) => cmdCode c == code && p s1 (queueOf s1 0 q) c
  | .error _ => false
/-- The word a command reads. -/
def reads (s1 : State) (x : Queue) (c n : Nat) (p : Nat → Bool) : Bool := match cpNat s1 0 x.slot.toNat (cmdP c) n with
  | .ok r => p r.1
  | .error _ => false
/-- QueueDescriptors: any descriptor; doorbells of a queue that is idle, and of queues with each bad descriptor. -/
theorem test_meets_descriptors :
    (Running State.reset ∧ HasDev State.reset 15 ∧ (queueOf State.reset 15 8).en = false) ∧
    (let bad (x : Queue) : Bool := let s := stQ 3 x 0; decide (HasDev s 0 ∧ (queueOf s 0 3).en = true ∧ (queueOf s 0 3).waiting = none);
      bad { qT with size := 48 } && bad { qT with base := mkPtr 1 0x4010 } && bad { qT with slot := 63 } && decide (qT.size.toNat < ((32 : Word) - qT.head).toNat)) = true := by
  refine ⟨?_, ?_⟩ <;> decide +kernel
theorem test_doorbell_bad : (afterEvent (stQ 3 { qT with size := 48 } 0) (.queueDoorbell ⟨0, 3⟩ 20) fun t => (queueOf t 0 3).err && (queueOf t 0 3).estat == 0x0B && !(queueOf t 0 3).en) = true := by
  decide +kernel
theorem test_enable_clears : (afterEvent (stQ 3 { qT with en := false, err := true } 0) (.queueDescriptorWrite ⟨0, 3⟩ 2 (2 ^ 38 + 7)) fun t => !(queueOf t 0 3).err && (queueOf t 0 3).tail == 7) = true := by
  decide +kernel

/-- QueueCommands: each command, for each clause. -/
theorem test_meets_loops :
    (commands (stC 0 qT (cmdOf 2 0 0 0 9 0)) 0 2 fun _ _ c => cmdImm c == 0 && !bit1 (cmdFlags c) 0 && !cmdBad c) = true ∧
    (commands (stC 0 qT (cmdOf 2 1 0 pW 9 0)) 0 2 fun s x c => bit1 (cmdFlags c) 0 && x.loops.length < 4 && !cmdBad c && reads s x c 4 (· == 5)) = true ∧
    (commands (stC 0 { qT with loops := List.replicate 4 (0, 2, 0) } (cmdOf 2 0 1 0 9 0)) 0 2 fun _ x c => cmdImm c == 1 && x.loops.length == 4 && !cmdBad c) = true ∧
    (commands (stC 0 qT (cmdOf 2 1 0 0 9 0)) 0 2 fun s x c => !cmdBad c && !reads s x c 4 fun _ => true) = true ∧
    (commands (stC 0 qT (cmdOf 3 0 0 0 0 0)) 0 3 fun _ x c => x.loops.isEmpty && !cmdBad c) = true ∧
    (commands (stC 0 { qT with loops := [(4, 3, 1)] } (cmdOf 3 0 0 0 0 0)) 0 3 fun _ x c => x.loops == [(4, 3, 1)] && !cmdBad c) = true := by
  refine ⟨?_, ?_, ?_, ?_, ?_, ?_⟩ <;> decide +kernel
theorem test_meets_words :
    ([(0, 5, true), (0, 4, false), (1, 4, true), (2, 6, true), (3, 5, true)].all fun p => commands (stC 0 qT (cmdOf 4 p.1 2 pW p.2.1 0)) 0 4 fun s x c => !cmdBad c && reads s x c 8 fun v =>
      (match cmdFlags c with
      | 0 => v == cmdVal c
      | 1 => v != cmdVal c
      | 2 => v < cmdVal c
      | _ => cmdVal c ≤ v) == p.2.2) = true ∧
    ([0, 0xFFFFFFFF].all fun i => commands (stC 0 qT (cmdOf 5 0 i 0 0 0)) 0 5 fun _ _ c => cmdImm c == i && !cmdBad c) = true ∧
    ([5, 6].all fun v => (commands (stQ 0 qT (cmdOf 6 0 0 pW v 0)) 0 6 fun s x c => !cmdBad c && x.waiting.isNone && reads s x c 8 (· == 5)) &&
      commands (stC 0 qT (cmdOf 6 0 0 pW v 0)) 0 6 fun s x c => x.waiting == some c && reads s x c 8 (· == 5)) = true ∧
    (commands (stC 0 qT (cmdOf 7 0 0 pW 77 0)) 0 7 fun s x c => !cmdBad c && match cpPlace s 0 x.slot.toNat (cmdP c) 8 .write with
      | .ok pa => decide (pa % 32 + 8 ≤ 32 ∧ isHbm pa = true ∧ CleanAt s pa 8)
      | .error _ => false) = true := by refine ⟨?_, ?_, ?_, ?_⟩ <;> decide +kernel
theorem test_meets_drain :
    ([[], [4]].all fun l => commands (stC 0 { qT with live := l } (cmdOf 8 0 0 0 0 0)) 0 8 fun _ x c => x.live == l && x.waiting == some c && !cmdBad c) = true ∧
    (commands (stC 0 qT (cmdOf 9 0 0 0 0 0)) 0 9 fun _ _ c => !cmdBad c) = true ∧
    ([0, 0x0C, 0xFF].all fun k => commands (stC 0 qT (cmdOf k 0 0 0 0 0)) 0 k fun _ _ c => c == k) = true ∧
    ([1, 2, 3, 4, 5, 6, 7, 8, 9, 11].all fun k => commands (stC 0 qT (cmdOf k 4 0 0 0 0)) 0 k fun _ _ c => cmdBad c) = true := by refine ⟨?_, ?_, ?_, ?_⟩ <;> decide +kernel
theorem test_cond_skips : (afterEvent (stQ 0 qT (cmdOf 4 2 7 pW 5 0)) (.cond ⟨0, 0⟩) fun t => (queueOf t 0 0).head == 23) = true := by decide +kernel
theorem test_write : (afterEvent (stQ 0 qT (cmdOf 7 0 0 pW 77 0)) (.write ⟨0, 0⟩) fun t => peek t 0x115000 8 == 77 && (queueOf t 0 0).head == 16) = true := by decide +kernel

/-- LaunchMigrateSwap: a launch that waits, one whose record cannot be read, one rejected by its record (NREGION 33), an indirect one. -/
theorem test_meets_launch :
    (commands (stC 0 { qT with live := [3] } (cmdOf 1 2 0 pW 0 0)) 0 1 fun _ x c => bit1 (cmdFlags c) 1 && !x.live.isEmpty && !cmdBad c) = true ∧
    (commands (stC 0 qT (cmdOf 1 0 0 0 0 0)) 0 1 fun s x c => !cmdBad c && !bit1 (cmdFlags c) 1 && match cpNat s 0 x.slot.toNat (cmdP c) 128 with
      | .ok _ => false
      | .error _ => true) = true ∧
    (commands (stC 0 qT (cmdOf 1 0 0 pW 0 0)) 0 1 fun s x c => !cmdBad c && match cpNat s 0 x.slot.toNat (cmdP c) 128 with
      | .ok (raw, s2) => (match launchDims s2 ⟨0, 0⟩ x.slot.toNat c raw with
        | .ok (d, _) => !recordOk (newGrid 0 1 0 0 raw d [])
        | _ => false)
      | .error _ => false) = true ∧
    ([(pW, true), (0, false)].all fun p => commands (stC 0 qT (cmdOf 1 1 0 pW 0 p.1)) 0 1 fun s x c => !cmdBad c && match cpNat s 0 x.slot.toNat (cmdP c) 128 with
      | .ok (raw, s2) => (match launchDims s2 ⟨0, 0⟩ x.slot.toNat c raw with
        | .ok (d, _) => p.2 && d == (5, 0, 6)
        | .error _ => !p.2)
      | .error _ => false) = true := by refine ⟨?_, ?_, ?_, ?_⟩ <;> decide +kernel
theorem test_launch : (afterEvent (stQ 0 qT (cmdOf 1 0 0 pW 0 0)) (.launch ⟨0, 0⟩) fun t => (ldOf t 0).gridCtr == 2 && (queueOf t 0 0).live == [1] && (queueOf t 0 0).head == 16 &&
    t.grids.any fun g => g.id == 1 && g.fail == some (0x02, 0, 0, 0, 0, 0)) = true := by decide +kernel

/-- Migration: a bad frame, a good one, each result. -/
def migT (host : Bool) (va : Nat) (was : Bool) : Migration := ⟨4, 0, 0, va, host, 0x110000, was, none, 0, .asked, BitVec.ofNat 64 pW, 0, 0, 0⟩
def stMig (m : Migration) : State := { stQ 0 qT 0 with migrations := [m] }
theorem test_meets_migrate :
    ([(1, 2 ^ 48 + 8, true), (1, 2 ^ 48 + 2 ^ 44, true), (1, 2 ^ 48 + 2 ^ 16, false), (0, 8, false)].all fun p => commands (stC 0 qT (cmdOf 11 p.1 0 pW 0 p.2.1)) 0 11 fun _ _ c => !cmdBad c &&
      decide (bit1 (cmdFlags c) 0 = true ∧ ((cmdP2 c).toNat % 2 ^ 16 ≠ 0 ∨ areaOf (cmdP2 c).toNat ≠ .host 0)) == p.2.2) = true ∧
    (slotLeaf (stMig (migT true 0 true)) 0 0 0 = some 0x11000F ∧ bit1 0x11000F 6 = false ∧ bit1 0x11000F 5 = false ∧ leafThere true 0x110000 0x11000F = true ∧ leafThere false 0 0x11000F = true ∧
      slotLeaf (stMig (migT true 0x10000 true)) 0 0 0x10000 = none) ∧
    (match cpPlace (stMig (migT true 0 true)) 0 0 (BitVec.ofNat 64 pW) 8 .write with
      | .ok pa => decide (pa % 32 + 8 ≤ 32 ∧ isHbm pa = true ∧ CleanAt (stMig (migT true 0 true)) pa 8)
      | .error _ => false) = true ∧
    ([(0, 0, false), (8, 0, false), (8, 3, true)].all fun p => [0, 1].all fun f => commands (stC p.1 qT (cmdOf 10 f p.2.1 0 1 0)) p.1 10 fun s _ c => !cmdBad c &&
      decide (p.1 = 8 ∧ cmdImm c % 16 ≠ 0) == p.2.2 && (gangsOn s (swapClusters c)).isEmpty && !inPartition s 0) = true := by refine ⟨?_, ?_, ?_, ?_⟩ <;> decide +kernel
theorem test_migrate_result : ([(MoveSt.asked, 2), (.won, 1), (.lost, 4)].all fun p => afterEvent (stMig { migT true 0 true with st := p.1 }) (.migrateResult 4) fun t =>
    peek t 0x115000 8 == p.2 && t.migrations.isEmpty) = true := by decide +kernel
/-- Swapping a gang of LD 3 on core 5 out, and back from the store of cluster 0. -/
def stSwap (w : Where) (sh : List (Nat × Nat)) (f : Nat) : State :=
  { stC 8 qT (cmdOf 10 f 3 0 1 0) with
    grids := [{ benchGrid with ld := 3 }], gangs := [⟨⟨3, 0, 0⟩, 1, w, 0, [], none, false, 0, none, false, []⟩]
    teams := [{ tm [g1] with r := ⟨3, 0, 0⟩, core := 5 }], shadow := sh }
theorem test_meets_swap :
    (commands (stSwap .resident [] 0) 8 10 fun s _ c => (gangsOn s (swapClusters c)).map (fun g => (g.r.ld, g.preempt)) == [(3, none)] && !inPartition s 0 && (callSaves s 0).isEmpty &&
      !farBusy s ⟨⟨3, 0, 0⟩, 0⟩) = true ∧
    (commands (stSwap .resident [] 1) 8 10 fun s _ c => !(gangsOn s (swapClusters c)).isEmpty) = true ∧
    (commands (stSwap (.partition 0) [(0, 3)] 1) 8 10 fun s _ c => (gangsOn s (swapClusters c)).isEmpty && s.shadow == [(0, 3)] && s.gangs.all fun g => !g.ue) = true := by
  refine ⟨?_, ?_, ?_⟩ <;> decide +kernel
theorem test_swap_out : (afterEvent (stSwap .resident [] 0) (.pswapOut ⟨0, 8⟩) fun t => t.shadow == [(0, 3)] && (t.gangs.map Gang.place) == [.partition 0] && (queueOf t 0 8).head == 16) = true := by
  decide +kernel
theorem test_swap_in : (afterEvent (stSwap (.partition 0) [(0, 3)] 1) (.pswapIn ⟨0, 8⟩) fun t => t.shadow.isEmpty && (t.gangs.map Gang.place) == [.resident]) = true := by decide +kernel

/-! Dispatch, staging, the ends of teams and grids. -/

/-- A grid of LD 0 on slot 0 with NDEP, DEPS, DONE, gang size code and extent. -/
def grD (ndep deps done gang n : Nat) : Grid :=
  { benchGrid with raw := deps * 2 ^ 256 + done * 2 ^ 320 + 2 * 2 ^ 520 + 32 * 2 ^ 576 + gang * 2 ^ 594 + ndep * 2 ^ 606, gx := n, next := 0, sup := false }
/-- Its machine: dependence 0 at 0x5020 names a status byte; the clusters are enabled. -/
def stD (g : Grid) (status : Nat) : State :=
  let s := setQb (stQ 0 qT 0) 0 0x258 (BitVec.ofNat 64 (2 ^ 44 - 1))
  { hwWrite s 0x115020 (bytesOf (2 ^ 56 + 0x5028 + status * 2 ^ 64) 16) with grids := [g] }
/-- Dispatch: each outcome of the dependences; a candidate with an empty slot, one placed, one relaunched; a team that starts. -/
theorem test_meets_dependences :
    ([(grD 0 0 0 0 1, 0, 1), (grD 1 (2 ^ 56 + 0x5020) 0 0 1, 0, 0), (grD 1 (2 ^ 56 + 0x5020) 0 0 1, 1, 1), (grD 1 (2 ^ 56 + 0x5020) 0 0 1, 2, 2), (grD 1 0 0 0 1, 0, 3)].all fun p =>
      let g : Grid := { p.1 with inDispatch := false }
      let s := stD g p.2.1
      decide (Running s ∧ gridOf s 0 0 = some g ∧ g.fail = none) && match (readDeps s g).1, p.2.2 with
      | .pending, 0 => true
      | .met, 1 => true
      | .failed 0 cause _ _, 2 => cause == 0
      | .failed 0 cause _ _, 3 => cause != 0
      | _, _ => false) = true := by decide +kernel
theorem test_meets_place :
    (let s := modLd (stD (grD 0 0 0 0 1) 0) 0 fun d => { d with slots := lset d.slots 0 emptyRoot }; (nextTurn (noteUnfit s)).any fun y => y.2.isNone && y.1.gr == grD 0 0 0 0 1) = true ∧
    (let s := stD (grD 0 0 0 1 4) 0; (nextTurn (noteUnfit s)).any fun y => y.2 == some [0, 1] && y.1.back.isNone && y.1.k == ⟨0, 0, 0⟩ && (gangOf s y.1.k).isNone && y.1.gr.regions.isEmpty) = true ∧
    (let g : Gang := ⟨⟨0, 0, 0⟩, 2, .relaunch, 1, [], none, false, 0, none, false, []⟩
      let s : State := { stD { grD 0 0 0 1 2 with next := 2 } 0 with gangs := [g] };
      (nextTurn s).any fun y => y.2 == some [0, 1] && y.1.back == some g && y.1.k == g.r && (teamOf s ⟨0, 0, 1⟩).isNone) = true ∧
    (let s := stT { tm [g1] with stage := .placed }; Running s && (teamOf s r0).any fun t => t.stage == .placed && gangHere s t) = true := by
  refine ⟨?_, ?_, ?_, ?_⟩ <;> decide +kernel
theorem test_team_start : (afterEvent (stT { tm [g1] with stage := .placed }) (.teamStart r0) fun t => (teamOf t r0).any fun u => u.stage == .running) = true := by decide +kernel

/-- A region of two 4-byte elements at 0x01_0000_0000_5000 and place 0x20 of A. -/
def regT (dir base : Nat) : Nat := base + 2 * 2 ^ 87 + dir * 2 ^ 92 + 2 ^ 94 + 0x20 * 2 ^ 96 + 2 * 2 ^ 128 + 2 ^ 160 + 2 ^ 192 + 2 ^ 224 + 16 * 2 ^ 448
/-- A team with bounds over the mapped page, at a stage. -/
def stG (x : Nat) (stage : Stage) (gs : List Group) : State :=
  let s := armed (stM g1)
  { modTeam (hwWrite s 0x115000 (bytesOf (5 + 6 * 2 ^ 32) 8)) r0 fun t => { t with stage := stage, groups := gs, a := [(0x20, 9)], afe := [(2, 1)] } with
    grids := [{ grM with regions := [x] }] }
/-- Staging: a region that can be read, and one that cannot. -/
theorem test_meets_staging :
    (let x := regT 0 (2 ^ 56 + 0x5000)
      let s := stG x .placed [g1]; decide (s.sram = [] ∧ s.ecc = [] ∧ regDir x ≠ 2 ∧ regE x 1 = 1 ∧ regE x 2 = 1 ∧ regE x 3 = 1 ∧ regE x 0 * regZ x = 8 ∧ regOff x % 16 = 0) && (teamOf s r0).any fun t =>
        match teamPlace s t (mkPtr 1 0x5000) 8 .read with
        | .ok pa => pa == 0x115000 && isHbm pa && !(stGet s.ecc (pa / 32)).getLsbD 32
        | .error _ => false) = true ∧
    (let x := regT 0 (2 ^ 56 + 0x15000)
      let s := stG x .placed [g1]; (teamOf s r0).any fun t => (groupOf s ⟨r0, 0⟩).any fun g => decide (g.handler = none ∧ g.pendTrap = none ∧ awaitsFar g = false ∧ qbWord s 0 0x260 ≠ 0) &&
        match teamPlace s t (mkPtr 1 0x15000) 8 .read with
        | .ok _ => false
        | .error e => e.cause == cNOTMAPPED) = true := by refine ⟨?_, ?_⟩ <;> decide +kernel
theorem test_stage : let x := regT 0 (2 ^ 56 + 0x5000); let s := stG x .placed [g1]; (let t := stageTeam s { grM with regions := [x] } r0; bufGet t r0 .a 0x20 8 = 5 + 6 * 2 ^ 32 ∧ fullBit t r0 .a 2 = true) := by
  decide +kernel

/-- TeamsAndGridsEnd: a team that exits; write-back with and without a region; completion records; the deadlock test; ENDGRID. -/
def gEnd : Group := { g1 with frontier := [] }
theorem test_meets_team_end :
    (let s := modTeam (stG 0 .running [gEnd]) r0 fun t => { t with lads := [] }; decide (Running s) && (teamOf s r0).any fun t => decide (t.stage = .running ∧ gangHere s t = true ∧ (∀ g ∈ t.groups, g.ended = true ∧ g.rung = none) ∧ t.lads = [] ∧
      teamWrites s t = false ∧ teamSpills t = false)) = true ∧
    (let s := stT { tm [gEnd] with stage := .exited }; decide (Running s) && (teamOf s r0).any fun t => decide (gangHere s t = true ∧ t.wbFault = none ∧ (∀ v ∈ gangTeams s ⟨0, 0, 0⟩, v.stage = .exited ∧ forkReady s v.exits = true)) &&
      (gangOf s ⟨0, 0, 0⟩).any (fun k => k.fault == none) && (gridOf s 0 0).any fun g => g.regions.isEmpty) = true ∧
    (let x := regT 2 (2 ^ 56 + 0x5000)
      let s := stG x .exited [gEnd]; decide (regDir x ≠ 1 ∧ regTag x = 0 ∧ regE x 0 * regZ x = 8 ∧ fullBit s r0 (regBuffer x) (regOff x / 16) = true ∧ s.ecc = [] ∧ s.sram = [] ∧ pkgReg s 0x403 + 2 ^ 29 + 31 > 0) &&
        (teamOf s r0).any fun t => match teamPlace { s with preg := stSet s.preg 0x403 0x80000000 } t (mkPtr 1 0x5000) 8 .write with
        | .ok pa => pa == 0x115000 && pa / 32 < 0x80000000 / 32
        | .error _ => false) = true := by refine ⟨?_, ?_, ?_⟩ <;> decide +kernel
theorem test_writeback : (afterEvent (stG (regT 2 (2 ^ 56 + 0x5000)) .exited [gEnd]) (.writeback r0) fun t => peek t 0x115000 8 == 9 && t.teams.isEmpty) = true := by decide +kernel
theorem test_meets_grid_end :
    ([(grD 0 0 (2 ^ 56 + 0x5040) 0 1, true), (grD 0 0 (2 ^ 56 + 0x5041) 0 1, false)].all fun p =>
      let g : Grid := { p.1 with next := 1, finished := 1 }
      let s := stD g 0
      decide (Running s ∧ HasDev s 0 ∧ gridOf s 0 0 = some g ∧ g.queue < 9 ∧ gridEnded g = true ∧ gridBusy s g = false) && decide (g.done.toNat % 32 = 0) == p.2 &&
        (!p.2 || match cpPlace s 0 g.slot g.done 32 .write with
          | .ok pa => isHbm pa
          | .error _ => false)) = true ∧
    (let s := stD { grD 0 0 0 0 1 with fail := some (8, 1, 2, 3, 4, 5) } 0; (gridOf s 0 0).any fun g => gridEnded g && !gridBusy s g) = true ∧
    (let s := armed (stT (tm [{ g1 with frontier := [⟨mkPtr 1 0, 128, BitVec.allOnes 32, 0, .waiting (.bar 0 0) 3⟩] }])); decide (qbWord s 0 0x260 ≠ 0 ∧ ((gangTeams s ⟨0, 0, 0⟩).map Team.r).Nodup) &&
      (gangOf s ⟨0, 0, 0⟩).any (fun g => g.place == .resident && deadlocked { s with cycle := 65539 } g && !deadlocked { s with cycle := 65539, memOps := [⟨3, false, r0, 0, 0, none, [], 0, [], none⟩] } g) &&
      (gangTeams s ⟨0, 0, 0⟩).all fun t => decide ((t.groups.map Group.id).Nodup) && t.groups.all fun q => q.handler.isNone && q.pendTrap.isNone && !awaitsFar q) = true ∧
    (Running (st g1) ∧ gridOf (st g1) 0 0 = some benchGrid ∧ gridOf (st g1) 0 7 = none) := by refine ⟨?_, ?_, ?_, ?_⟩ <;> decide +kernel
theorem test_grid_complete : (afterEvent (stD { grD 0 0 (2 ^ 56 + 0x5040) 0 1 with next := 1, finished := 1, bflags := 0x12 } 0) (.gridComplete 0 0) fun t =>
    peek t 0x115040 8 == 0x0012000000000001 && t.grids.isEmpty) = true := by decide +kernel
theorem test_deadlock : (afterEvent (armed (stT (tm [{ g1 with frontier := [⟨mkPtr 1 0, 128, BitVec.allOnes 32, 0, .waiting (.bar 0 0) 3⟩] }]))) (.deadlockTest ⟨0, 0, 0⟩) fun t =>
    t.cycle == 65539 && (groupOf t ⟨r0, 0⟩).any fun g => g.handler.any fun h => h.trap.cause == cFEPROTO && h.trap.detail == 2) = true := by decide +kernel

/-! Pre-emption, power, links, the host and the harts. -/

/-- LD 0's grid 1, priority 3, asks for a gang of eight whole cores; grid 0's gang, of priority 0, has core 0 of cluster 0, the only one enabled. -/
def stPre (g : Gang) (q : Group) : State :=
  let s := setQb (setQb (armed (st q)) 0 0x258 1) 0 0x248 1000
  { s with
    grids := [{ benchGrid with safe := [2 ^ 256 + 2 ^ 163], raw := benchGrid.raw + 192 * 2 ^ 536 }, { benchGrid with id := 1, prio := 3, gx := 8, next := 0, raw := 192 * 2 ^ 536 + 2 * 2 ^ 520 + 3 * 2 ^ 594 }]
    gangs := [g] }
def gangT : Gang := ⟨⟨0, 0, 0⟩, 1, .resident, 0, [], none, false, 0, none, false, []⟩
/-- Preemption: the trigger; a save at a safe point, of the last group and of another, with and without room; PREWIN; a retry; a return. -/
theorem test_meets_preempt :
    (let s := stPre gangT g1
      let s0 := noteUnfit s; decide (Running s ∧ gangT.retry = 0 ∧ gangStopped s ⟨0, 0, 0⟩ = false ∧ gangOf s ⟨0, 0, 0⟩ = some gangT) && (s0.unfit.find? fun y => y.1 == 0) == some (0, 1, 0, 0) && (candidate s0 0).any fun c =>
        (fitsWhere s0 c.gr c.only (removing s0)).isNone && victim s0 c == some gangT) = true ∧
    (let s := stPre { gangT with preempt := some 99 } { g1 with toSafe := true }; (gridOf s 0 0).any fun gr => (groupOf s ⟨r0, 0⟩).any fun g => g.toSafe && !stopped g && !farBusy s ⟨r0, 0⟩ &&
      safePoints gr g == some [2 ^ 256 + 2 ^ 163] && poolRoom s ⟨0, 0, 0⟩ && !poolRoom (setQb s 0 0x248 0) ⟨0, 0, 0⟩ && (gangTeams s ⟨0, 0, 0⟩).all fun t => t.groups.all fun q => q.id == 0) = true ∧
    (let s := { stPre { gangT with preempt := some 99 } g1 with teams := [tm [{ g1 with toSafe := true }, { g1 with id := 1 }]] }; (gangTeams s ⟨0, 0, 0⟩).any fun t => t.groups.any fun q => q.id == 1 && !stopped q) = true ∧
    (let s := stPre { gangT with retry := 500 } g1; decide (Running s ∧ gangStopped s ⟨0, 0, 0⟩ = false) && (gangOf s ⟨0, 0, 0⟩).any fun g => g.retry == 500 && g.place == .resident && g.preempt.isNone) = true ∧
    (let s := stPre { gangT with place := .preempted } g1
      let s := modGrid s 0 1 fun g => { g with next := 8 }; decide (((gangTeams s ⟨0, 0, 0⟩).map Team.r).Nodup) && (turnOf s ⟨0, 0, 0⟩ fun w => w == .preempted).any fun y => y.2 == [0]) = true := by
  refine ⟨?_, ?_, ?_, ?_, ?_⟩ <;> decide +kernel
theorem test_trigger : (afterEvent (stPre gangT g1) (.preemptTrigger 0) fun t => t.cycle == 300000 && (gangOf t ⟨0, 0, 0⟩).any fun g => g.preempt == some 450000) = true := by decide +kernel
theorem test_safe_save : (afterEvent (stPre { gangT with preempt := some 99 } { g1 with toSafe := true }) (.preemptSafeSave ⟨r0, 0⟩) fun t => (gangOf t ⟨0, 0, 0⟩).any fun g => g.place == .preempted) = true := by
  decide +kernel

/-- PowerAndReset. -/
theorem test_meets_power :
    (State.reset.power.on = true ∧ State.reset.power.hotDies = [] ∧ Running State.reset) ∧ ({ State.reset with power := ⟨false, false, false, [], false⟩ }.power.on = false) ∧
    (let s := { State.reset with power := ⟨true, true, false, [2], true⟩ }; s.power.hotDies ≠ [] ∧ s.power.resetWait = true ∧ (∀ d ∈ s.power.hotDies, d = 2) ∧ (∃ d ∈ s.power.hotDies, d ≠ 3) ∧ s.power.halted = true) ∧
    (3 : Nat) ∉ State.reset.power.hotDies := by decide +kernel
theorem test_power_on : (afterEvent { State.reset with power := ⟨false, false, false, [], false⟩, mem := [(5, 1), (2 ^ 48, 2)] } .powerOn fun t => t.mem == [(2 ^ 48, 2)] && t.power.on) = true := by decide +kernel
theorem test_hot_reset : (afterEvent { st g1 with power := ⟨true, false, false, [2], false⟩ } .cxlConventionalReset fun t => t.power.halted && t.power.resetWait && t.teams.isEmpty) = true := by decide +kernel
theorem test_cooled : (afterEvent { State.reset with power := ⟨true, true, false, [2], true⟩ } (.dieCooled 2) fun t => !t.power.halted && t.clearPend == [(0, 2 ^ 32)]) = true := by decide +kernel

/-- LinksAndEventLog: a port up, down, retraining; a log with room, and one that is full. -/
def stLog (prod cons : Nat) : State := { State.reset with preg := stSetAll State.reset.preg [(0x818, 0x700000), (0x819, 64), (0x81A, BitVec.ofNat 64 prod), (0x81B, BitVec.ofNat 64 cons), (0x823, 1)] }
theorem test_meets_links :
    (Running (stLog 0 0) ∧ pkgReg (stLog 0 0) 0x823 % 2 = 1 ∧ pkgReg (stLog 0 0) 0x820 = 0 ∧ (3 : Nat) ∈ { stLog 0 0 with retrain := [3] }.retrain ∧ (2 : Nat) ∉ (stLog 0 0).retrain ∧ (stLog 0 0).power.on = true) ∧
    (0x3F + 2 ^ 64 - pkgReg (stLog 0x3F 0) 0x81B) % 2 ^ 32 < pkgReg (stLog 0x3F 0) 0x819 ∧ ¬(0x40 + 2 ^ 64 - pkgReg (stLog 0x40 0) 0x81B) % 2 ^ 32 < pkgReg (stLog 0x40 0) 0x819 := by decide +kernel
theorem test_link_down : (afterEvent (stLog 0 0) (.expanderLinkDown 3) fun t => pkgReg t 0x823 == 0) = true := by decide +kernel
theorem test_log : peek (logEvent (stLog 0x41 2) 6 7 8 9 10 11) 0x700020 8 = 0x90080706 ∧ pkgReg (logEvent (stLog 0x41 2) 6 7 8 9 10 11) 0x81A = 0x42 := by decide +kernel

/-- HostAndHartAccesses: the HDM window of LD 0, its first page mapped, its second not; a hart's word. -/
def stHdm : State := modLd (stQ 0 qT 0) 0 fun d => { d with slots := lset d.slots 63 ⟨true, 1, 0, 63, 0x100000, []⟩, preg := stSet d.preg 0x401 1 }
theorem test_meets_hdm :
    (Running stHdm ∧ 0x5000 % 64 + 64 ≤ 64 ∧ 0x5000 + 64 ≤ 2 ^ 21 * ldReg stHdm 0 0x401 ∧ ((ldOf stHdm 0).slots.getD 63 emptyRoot).full = true ∧ (ldOf stHdm 0).resetting = false ∧ stHdm.ecc = [] ∧ stHdm.sram = [] ∧ linkDown stHdm 0x115000 = false ∧
      CleanAt stHdm 0x115000 64 ∧ pkgReg stHdm 0x819 = 0) ∧
    ([Acc.read, .write].all fun k => (match translate stHdm 0 (1, 0x100000) true 0x5000 k with
      | .ok x => x.1 == 0x115000
      | .error _ => false) && match translate stHdm 0 (1, 0x100000) true 0x15000 k with
      | .ok _ => false
      | .error _ => true) = true ∧
    ([1, 2, 4, 8].all fun n => decide (19 < stHdm.harts.length ∧ 0x115000 % n = 0 ∧ areaOf 0x115000 ≠ .reserved ∧ areaOf 0x115000 ≠ .regs ∧ CleanAt stHdm 0x115000 n ∧ linkDown stHdm 0x115000 = false ∧ stHdm.sram = [])) = true := by
  refine ⟨?_, ?_, ?_⟩ <;> decide +kernel
theorem test_hdm_read : (afterEvent stHdm (.hostHdmRead 0 0x5008 2) fun t => t.hdmRead == some (0, some [6, 0])) = true := by decide +kernel
theorem test_hdm_poison : (afterEvent stHdm (.hostHdmRead 0 0x15000 2) fun t => t.hdmRead == some (0, none)) = true := by decide +kernel
theorem test_hart_amo : (afterEvent stHdm (.nimbusHartAccess 3 (.amo .add 0x115000 4 7 false false)) fun t => (t.harts.getD 3 default).rd == 5 && peek t 0x115000 4 == 12) = true := by decide +kernel

/-- R145: a conditional store after a load reserved of the same word, with and without a store to it in between. -/
theorem test_hart_sc :
    (let s := afterEvent stHdm (.nimbusHartAccess 3 (.lr 0x115000 4)) fun t => (t.harts.getD 3 default).resv == some (0x115000, 4, bytesOf 5 4) &&
        afterEvent (hwWrite t 0x115000 (bytesOf 9 4)) (.nimbusHartAccess 3 (.sc 0x115000 4 12 false false)) fun u => (u.harts.getD 3 default).rd == 1 && peek u 0x115000 4 == 9;
      s) = true := by decide +kernel

/-! The network engine, the controllers, the order of issue, and the machine as a whole. -/

/-- A machine with some transfers: every slot of LD 0 has the same root, and, in a context of zeros, the bounds table at 0; pair 0's send ring
of four requests at 0x5100, its completion queue of sixteen records at 0x5080, its TAIL at 0x5000 (5); context 0 is in use; port 0 is up. -/
def stNet (ops : List NetOp) (req : Nat) : State :=
  let s := modLd { State.reset with preg := stSetAll State.reset.preg [(0x403, 0x80000000), (0x830, 1), (0x831, 0x700000)] } 0 fun d => { d with
    slots := List.replicate 64 ⟨true, 1, 0, 0, 0x100000, []⟩
    preg := stSetAll d.preg [(1, 0x500000), (6, 0x600000), (7, 4)]
    qb := stSetAll d.qb [(0x300, mkPtr 1 0x5100), (0x308, mkPtr 1 0x5080), (0x310, 0x400000002), (0x318, mkPtr 1 0x5000)] }
  { s with
    mem := [(0x17, 248), (0x18, 255), (0x19, 255), (0x1A, 255), (0x1B, 255), (0x1C, 255), (0x1D, 255), (0x1E, 255)] ++ lowQ ++ [(0x115000, 5)] ++
      ((List.range 64).filterMap fun i => if req / 256 ^ i % 256 = 0 then none else some (0x115100 + i, BitVec.ofNat 8 (req / 256 ^ i))) ++ [(0x600026, 1), (0x700010, 1), (0x700017, 0x80)]
    netOps := ops, straitUp := [0] }
/-- A request: operation, network, destination 2 or connection 0, 32 bytes at 0x5000. -/
def netReq (op : Nat) (ether : Bool) : Nat := op + (if ether then 2 ^ 7 else 2 * 2 ^ 8) + 32 * 2 ^ 32 + (2 ^ 56 + 0x5000) * 2 ^ 64 + 77 * 2 ^ 256
def netOp (raw : Option Nat) (status : Option Nat) (retries : Nat) : NetOp := ⟨4, 0, 0, 0, raw, status, 9, [], retries, 0⟩
/-- A result is there and p holds of it. -/
def okIs {ε α : Type} (x : Except ε α) (p : α → Bool) : Bool := match x with
  | .ok y => p y
  | .error _ => false
/-- Every slot has slot 0's root, and bounds entry 1 of its table. -/
theorem netSlots_spec (ops : List NetOp) (req k : Nat) (hk : k < 63) : (ldOf (stNet ops req) 0).slots.getD k emptyRoot = ⟨true, 1, 0, 0, 0x100000, []⟩ := by
  have : ∀ k < 63, (List.replicate 64 (⟨true, 1, 0, 0, 0x100000, []⟩ : RootRec)).getD k emptyRoot = ⟨true, 1, 0, 0, 0x100000, []⟩ := by decide
  exact this k hk
theorem netBounds_spec (ops : List NetOp) (req k : Nat) (hk : k < 63) : readBoundsEnt (stNet ops req) 0 k 1 = readBoundsEnt (stNet ops req) 0 0 1 := by
  have z (k : Nat) (hk : k < 63) : peek (stNet ops req) (0x500000 + 32 + 16 * k) 16 = 0 := by
    refine peek_unlisted _ _ _ rfl fun kv hkv => ?_
    have h : kv ∈ _ ++ _ ++ _ ++ _ ++ _ := hkv
    simp only [List.mem_append, List.mem_filterMap, List.mem_range, lowQ, List.mem_cons, List.not_mem_nil, or_false] at h
    rcases h with ((((h | h) | h) | ⟨i, hi, h⟩) | h)
    · rcases h with h | h | h | h | h | h | h | h <;> subst h <;> dsimp only <;> omega
    · rcases h with h | h | h | h | h | h | h | h | h | h | h | h | h | h <;> subst h <;> dsimp only <;> omega
    · subst h; dsimp only; omega
    · split at h
      · cases h
      · cases h; dsimp only; omega
    · rcases h with h | h | h <;> subst h <;> dsimp only <;> omega
  have hc : ldReg (stNet ops req) 0 1 = 0x500000 := rfl
  simp only [readBoundsEnt, hc, z k hk, z 0 (by omega)]
/-- An access of pair 0 goes where one through slot 0 goes. -/
theorem netPlace_spec {t : State} {ops : List NetOp} {req m pa : Nat} {p : Ptr} {a : Acc} (h : Alike (stNet ops req) t) (hp : ptrRid p = 1)
    (ho : ownPage (stNet ops req) 0 (1, 0x100000) (ptrVa p) = true) (hh : isHbm pa = true) (hk : okIs (cpPlace (stNet ops req) 0 0 p m a) (· == pa) = true) :
    cpPlace t 0 (pairSlot 0 0) p m a = .ok pa := by
  have hs : pairSlot 0 0 < 63 := Nat.mod_lt _ (by decide)
  have hk' : cpPlace (stNet ops req) 0 0 p m a = .ok pa := by
    unfold okIs at hk; split at hk
    · rename_i y hy; rw [hy, beq_iff_eq.1 hk]
    · cases hk
  have hz := netSlots_spec ops req 0 (by decide)
  refine h.cpPlace (k := 0) ?_ ?_ rfl (by rw [hz]; exact ho) hh hk'
  · rw [netSlots_spec _ _ _ hs, hz]
  · rw [hp]; exact netBounds_spec _ _ _ hs
/-- NetworkTransfers: a write of TAIL. -/
theorem test_meets_net_tail : pairTail (stNet [] 0) 0 0 = some 0x115000 ∧ peek (stNet [] 0) 0x115000 8 = (5 : DWord).toNat ∧ 0 < (stNet [] 0).lds.length ∧
    0 < (ldOf (stNet [] 0) 0).netPosted.length ∧ (ldOf (stNet [] 0) 0).resetting = false ∧ Running (stNet [] 0) := by
  have hk : pairSlot 0 0 < 63 := Nat.mod_lt _ (by decide)
  refine ⟨?_, by decide +kernel⟩
  have hr : ptrRid (qbWord (stNet [] 0) 0 (0x318 + 32 * 0)) = 1 := by decide +kernel
  unfold pairTail
  simp only [netSlots_spec _ _ _ hk, hr, netBounds_spec _ _ _ hk]
  decide +kernel
/-- A completion record of transfer 4. -/
theorem test_meets_net_done : let s := stNet [netOp (some (netReq 1 false)) (some 1) 0] 0
    (Running s ∧ (s.netOps.find? fun o => o.id == 4) = some (netOp (some (netReq 1 false)) (some 1) 0) ∧ (ldOf s 0).resetting = false ∧ isHbm 0x115080 = true ∧ 0x115080 % 32 + 16 ≤ 32 ∧
      s.ecc = [] ∧ s.sram = []) ∧
    cpPlace s 0 (pairSlot 0 0) (ptrAdd (pairWord s 0 0 1) (16 * ((ldOf s 0).netDone.getD 0 0 % pairCq s 0 0) : Nat)) 16 .write = .ok 0x115080 :=
  ⟨by decide +kernel, netPlace_spec ⟨rfl, rfl, rfl, rfl, rfl⟩ (by decide +kernel) (by decide +kernel) rfl (by decide +kernel)⟩
/-- The machine of a transfer whose request stands at 0x5100: an invalid operation, and each operation. -/
def stNr (op : Nat) (ether : Bool) : State := stNet [netOp none none 0] (netReq op ether)
def reqCases : List (Nat × Bool) := [(0, false), (1, false), (2, true), (3, false), (3, true)]
/-- What its reads depend on. -/
theorem netCases_spec : ∀ c ∈ reqCases, let s := stNr c.1 c.2
    (ownPage s 0 (1, 0x100000) 0x5100 && ownPage s 0 (1, 0x100000) 0x5120 && ownPage s 0 (1, 0x100000) 0x5000 && okIs (cpPlace s 0 0 (mkPtr 1 0x5100) 32 .read) (· == 0x115100) &&
      okIs (cpPlace s 0 0 (mkPtr 1 0x5120) 32 .read) (· == 0x115120) && okIs (cpPlace s 0 0 (mkPtr 1 0x5000) 32 .read) (· == 0x115000)) = true := by decide +kernel
theorem netBytes_spec : ∀ c ∈ reqCases, let s := stNr c.1 c.2
    ofBytes (((storedBytes s 0x115100 32).drop 0).take 32 ++ ((storedBytes s 0x115120 32).drop 0).take 32) = netReq c.1 c.2 ∧ s.ecc = [] ∧ s.sram = [] ∧ s.clearPend = [] ∧ s.hist = [] := by
  decide +kernel
/-- The engine reads the request of pair 0, whatever slot it has; what it then has is the machine but for what reads of clean memory change. -/
theorem netRead_spec (op : Nat) (ether : Bool) (hc : (op, ether) ∈ reqCases) : ∃ bs t, Quiet (stNr op ether) t ∧ ofBytes bs = netReq op ether ∧
    cpReadBy (netKnown (stNr op ether) 0 0) (stNr op ether) 0 (pairSlot 0 0) (mkPtr 1 0x5100) 64 = .ok (bs, t) := by
  have hp := netCases_spec _ hc
  obtain ⟨hv, he, hs, hq, hh⟩ := netBytes_spec _ hc
  simp only [Bool.and_eq_true] at hp
  obtain ⟨⟨⟨⟨⟨o1, o2⟩, o3⟩, k1⟩, k2⟩, k3⟩ := hp
  generalize hS : stNr op ether = S at *
  have al : Alike (stNet [netOp none none 0] (netReq op ether)) S := by rw [← hS]; exact ⟨rfl, rfl, rfl, rfl, rfl⟩
  have p1 : cpPlace S 0 (pairSlot 0 0) (mkPtr 1 0x5100) 32 .read = .ok 0x115100 :=
    netPlace_spec al (by decide +kernel) (by rw [← hS] at o1; exact o1) (by decide +kernel) (by rw [← hS] at k1; exact k1)
  obtain ⟨t, h1, h2⟩ := cpRead_sector (known := netKnown S 0 0) [] he hs hq hh (by decide +kernel) (by decide +kernel) (by decide +kernel) p1
  have p2 : cpPlace t 0 (pairSlot 0 0) (mkPtr 1 0x5120) 32 .read = .ok 0x115120 :=
    netPlace_spec (al.trans h1.alike) (by decide +kernel) (by rw [← hS] at o2; exact o2) (by decide +kernel) (by rw [← hS] at k2; exact k2)
  obtain ⟨u, h3, h4⟩ := cpRead_sector (s := t) (known := netKnown S 0 0) ([] ++ ((storedBytes S (32 * (0x115100 / 32)) 32).drop (0x115100 % 32)).take 32) (h1.ecc.trans he) (h1.sram.trans hs) (by rw [h1]; exact hq) (by rw [h1]; exact hh) (by decide +kernel)
    (by decide +kernel) (by decide +kernel) p2
  refine ⟨_, u, h1.trans h3, hv, ?_⟩
  have hcut : cutMem (64 / 32 + 2) (ptrVa (mkPtr 1 0x5100)) 0 64 = [(0, 32), (32, 32)] := by decide +kernel
  have ha : ptrAdd (mkPtr 1 0x5100) ((0 : Nat) : Int) = mkPtr 1 0x5100 := by decide +kernel
  have hb : ptrAdd (mkPtr 1 0x5100) ((32 : Nat) : Int) = mkPtr 1 0x5120 := by decide +kernel
  have h5 : storedBytes t 0x115120 32 = storedBytes S 0x115120 32 := by rw [h1]; rfl
  unfold cpReadBy
  rw [hcut]
  simp only [List.foldl_cons, List.foldl_nil, ha, hb]
  refine (congrArg (Except.bind · _) h2).trans ?_
  refine h4.trans ?_
  rw [h5]; rfl
theorem netRefusal_spec : ∀ c ∈ reqCases, netRefused (stNr c.1 c.2) 0 (netReq c.1 c.2) = if c.1 = 0 then some 3 else none := by decide +kernel
theorem netLocal_spec : ∀ c ∈ reqCases, (reqLocal (netReq c.1 c.2), reqLen (netReq c.1 c.2)) = (mkPtr 1 0x5000, 32) := by decide +kernel
theorem netOp_spec : ∀ c ∈ reqCases, reqOp (netReq c.1 c.2) = c.1 := by decide +kernel
theorem netRefused_spec {s t : State} (h : Alike s t) (hu : t.straitUp = s.straitUp) (ld x : Nat) : netRefused t ld x = netRefused s ld x := by
  unfold netRefused rocePa straitRoute; simp only [h.ldReg, h.peek, h.pkgReg, hu]
/-- The request that has been read is not refused, but for an invalid operation, and the bytes to be sent can be read. -/
theorem netSent_spec (op : Nat) (ether : Bool) (hc : (op, ether) ∈ reqCases) (t : State) (hq : Quiet (stNr op ether) t) (f : NetOp → NetOp) :
    netRefused (modNet (netTables t 0 (netReq op ether)) 4 f) 0 (netReq op ether) = (if op = 0 then some 3 else none) ∧
    ∃ r, cpReadBy (netKnown (modNet (netTables t 0 (netReq op ether)) 4 f) 0 0) (modNet (netTables t 0 (netReq op ether)) 4 f) 0 (pairSlot 0 0)
      (reqLocal (netReq op ether)) (reqLen (netReq op ether)) = .ok r := by
  have hn := netRefusal_spec _ hc
  obtain ⟨hv, he, hs, hp, hh⟩ := netBytes_spec _ hc
  have k := netCases_spec _ hc
  simp only [Bool.and_eq_true] at k
  obtain ⟨⟨⟨⟨⟨_, _⟩, o3⟩, _⟩, _⟩, k3⟩ := k
  have hl := netLocal_spec _ hc
  simp only [Prod.mk.injEq] at hl
  dsimp only at hn
  generalize hS : stNr op ether = S at *
  have al : Alike (stNet [netOp none none 0] (netReq op ether)) S := by rw [← hS]; exact ⟨rfl, rfl, rfl, rfl, rfl⟩
  have p0 (w : State) (hy : Alike S w) : cpPlace w 0 (pairSlot 0 0) (mkPtr 1 0x5000) 32 .read = .ok 0x115000 :=
    netPlace_spec (al.trans hy) (by decide +kernel) (by rw [← hS] at o3; exact o3) (by decide +kernel) (by rw [← hS] at k3; exact k3)
  have hw : Quiet t (netTables t 0 (netReq op ether)) := by
    unfold netTables; split
    · exact .refl t
    · split <;> exact tableRead_quiet (hq.ecc.trans he) (hq.sram.trans hs) ..
  have hz := hq.trans hw
  generalize netTables t 0 (netReq op ether) = v at hz
  have hy : Alike S (modNet v 4 f) ∧ (modNet v 4 f).straitUp = S.straitUp ∧ (modNet v 4 f).ecc = S.ecc ∧
      (modNet v 4 f).sram = S.sram ∧ (modNet v 4 f).clearPend = S.clearPend ∧ (modNet v 4 f).hist = S.hist := by
    rw [hz]; exact ⟨⟨rfl, rfl, rfl, rfl, rfl⟩, rfl, rfl, rfl, rfl, rfl⟩
  generalize modNet v 4 f = w at hy
  refine ⟨(netRefused_spec hy.1 hy.2.1 ..).trans hn, ?_⟩
  rw [hl.1, hl.2]
  have ha : ptrAdd (mkPtr 1 0x5000) ((0 : Nat) : Int) = mkPtr 1 0x5000 := by decide +kernel
  obtain ⟨u, _, h2⟩ := cpReadBy_sector (s := w) (known := netKnown w 0 0) (hy.2.2.1.trans he) (hy.2.2.2.1.trans hs) (hy.2.2.2.2.1.trans hp) (hy.2.2.2.2.2.trans hh)
    (by decide +kernel) (by decide +kernel) (by decide +kernel) (by decide +kernel) ((congrArg (cpPlace w 0 (pairSlot 0 0) · 32 .read) ha).trans (p0 w hy.1))
  exact ⟨_, h2⟩
theorem test_meets_net_read (op : Nat) (ether : Bool) (hc : (op, ether) ∈ reqCases) :
    Running (stNr op ether) ∧ ((stNr op ether).netOps.find? fun o => o.id == 4 && o.raw.isNone && o.status.isNone) = some (netOp none none 0) ∧ reqOp (netReq op ether) = op ∧
    ∃ bs s1, cpReadBy (netKnown (stNr op ether) 0 0) (stNr op ether) 0 (pairSlot 0 0) (mkPtr 1 0x5100) 64 = .ok (bs, s1) ∧ ofBytes bs = netReq op ether ∧ ∀ f,
      netRefused (modNet (netTables s1 0 (netReq op ether)) 4 f) 0 (netReq op ether) = (if op = 0 then some 3 else none) ∧
      ∃ r, cpReadBy (netKnown (modNet (netTables s1 0 (netReq op ether)) 4 f) 0 0) (modNet (netTables s1 0 (netReq op ether)) 4 f) 0 (pairSlot 0 0)
        (reqLocal (netReq op ether)) (reqLen (netReq op ether)) = .ok r := by
  obtain ⟨bs, t, hq, hb, hr⟩ := netRead_spec op ether hc
  exact ⟨⟨rfl, rfl⟩, rfl, netOp_spec _ hc, bs, t, hr, hb, fun f => netSent_spec op ether hc t hq f⟩
/-- A retransmission; a packet; a fault of one. -/
def packT (va : Nat) : Packet := ⟨0, 5, 0, mkPtr 1 va, false, none, 0, 1, [1, 2, 3], 0⟩
theorem test_meets_net :
    ([0, 7, 8].all fun n => let s := stNet [netOp (some (netReq 1 true)) none n] 0; (s.netOps.find? fun o => o.id == 4 && o.status.isNone) == some (netOp (some (netReq 1 true)) none n) &&
      reqEther (netReq 1 true) && (rocePa s 0 (reqDest (netReq 1 true))).isSome) = true ∧
    (let s := stNet [] 0; packetLd s (packT 0x5040) = some 0 ∧ (ldOf s 0).resetting = false ∧ ptrVa (packT 0x5040).remote % 32 + 3 ≤ 32 ∧ s.ecc = [] ∧ s.sram = [] ∧ pkgReg s 0x819 = 0) ∧
    (match cpPlace (stNet [] 0) 0 5 (mkPtr 1 0x5040) 3 .write with
      | .ok pa => pa == 0x115040 && isHbm pa
      | .error _ => false) = true ∧ (match cpPlace (stNet [] 0) 0 5 (mkPtr 1 0x15040) 3 .write with
      | .ok _ => false
      | .error e => e.cause == cNOTMAPPED) = true := by refine ⟨?_, ?_, ?_, ?_⟩ <;> decide +kernel
theorem test_net_receive : (afterEvent (stNet [] 0) (.netReceive (packT 0x5040)) fun t => peek t 0x115040 4 == 0x030201) = true := by decide +kernel
theorem test_retransmit : (afterEvent (stNet [netOp (some (netReq 1 true)) none 8] 0) (.netRetransmitTimeout 4) fun t => t.netOps.map NetOp.status == [some 4]) = true := by decide +kernel
/-- R455: the request of a READ that no page answers is logged; nothing is written. -/
theorem test_net_serve : (afterEvent (stNet [] 0) (.netReceive ⟨0, 5, 0, mkPtr 1 0x15040, false, none, 0, 3, [], 16⟩) fun t =>
    pkgReg t 0x81C == 1 && t.mem == (stNet [] 0).mem) = true := by decide +kernel

/-- MemoryControllers: a ring with room and one without; a sector that the patrol corrects, and a good one; a row. -/
def stHot (size : Nat) : State := { State.reset with preg := stSetAll State.reset.preg [(0x813, 0x900000), (0x814, BitVec.ofNat 64 size)], hot := ⟨[(5, 3)], [(7, 4), (9, 6), (3, 6)], 2⟩ :: List.replicate 7 ⟨[], [], 0⟩ }
theorem test_meets_controllers :
    (Running (stHot 256) ∧ (stHot 256).hot.length = 8 ∧ (pkgReg (stHot 256) 0x815 + 2 ^ 64 - pkgReg (stHot 256) 0x816) % 2 ^ 32 + 32 ≤ 256 ∧ pow2In 256 256 (2 ^ 20) = true ∧ ¬(pkgReg (stHot 0) 0x815 + 2 ^ 64 - pkgReg (stHot 0) 0x816) % 2 ^ 32 + 32 ≤ 0) ∧
    (let s : State := { State.reset with mem := [(5, 1)], ecc := [(0, 0x100000000)] }; pkgReg s 0x819 = 0 ∧ dramAddr s 0 0 0 0 0 / 32 = 0 ∧ secDecode s 0 = .corrected (List.replicate 32 0) ∧ secDecode State.reset 0 = .good (List.replicate 32 0)) := by decide +kernel
theorem test_hot_sort : hotSort [(7, 4), (9, 6), (3, 6)] = [(3, 6), (9, 6), (7, 4)] := by decide +kernel
theorem test_hot_end : (afterEvent (stHot 256) (.hotnessIntervalEnd 0) fun t => pkgReg t 0x815 == 32) = true ∧
    (afterEvent (stHot 0) (.hotnessIntervalEnd 0) fun t => pkgReg t 0x817 == 1 && (t.hot.getD 0 ⟨[], [], 9⟩) == ⟨[], [], 3⟩) = true := by refine ⟨?_, ?_⟩ <;> decide +kernel
theorem test_patrol : (afterEvent { State.reset with mem := [(5, 1)], ecc := [(0, 0x100000000)] } (.patrolScrub 0 0) fun t => t.mem.isEmpty && t.ecc.isEmpty && (scrubOf t 0).pos == 1 && pkgReg t 0xA60 == 1) = true := by
  decide +kernel

/-- IssueOrder: a choice between two entries, an aged one; a group that issues, and one that parks; a park and a delay that end. -/
def gTwo (age : Nat) : Group := { g1 with frontier := [⟨mkPtr 1 0x30, 9, 0xFFFF, 0, .ready⟩, ⟨mkPtr 1 0x40, 5, 0xFFFF0000, age, .ready⟩], last := 0xFFFF0000 }
def stRun (g : Group) : State := { st g with issuing := none }
theorem test_meets_issue :
    ((chooseEntry benchGrid (gTwo 3)).map Entry.prio = some 9 ∧ (chooseEntry benchGrid (gTwo 1024)).map Entry.prio = some 5) ∧
    (let s := stRun (gTwo 3); decide (Running s) && (leastRecent (quarterGroups { s with cycle := 1 } 0 0 1)).any fun y => y.2.2 == gTwo 3 && (stillOut (gTwo 3).outst 1).isEmpty) = true ∧
    (let s := stRun { gTwo 3 with outst := [⟨.v 3, .cycle 9, false⟩] }; (leastRecent (quarterGroups { s with cycle := 1 } 0 0 1)).any fun y => (stillOut y.2.2.outst 1).length == 1 && (chooseEntry y.1 y.2.2).any fun e => e.mask &&& y.2.2.last == 0) = true ∧
    (let s := stRun { gTwo 3 with swPark := true, outst := [⟨.v 3, .cycle 9, false⟩] }; (wakeable s ⟨r0, 0⟩).any fun g => g.swPark && !awaitsFar g) = true := by refine ⟨?_, ?_, ?_, ?_⟩ <;> decide +kernel
theorem test_issue : (afterEvent (stRun (gTwo 3)) (.issue 0 0) fun t => t.issuing == some ⟨⟨r0, 0⟩, mkPtr 1 0x30, 9, 0xFFFF⟩ && t.cycle == 1) = true := by decide +kernel
theorem test_switch : (afterEvent (stRun { gTwo 3 with outst := [⟨.v 3, .cycle 9, false⟩] }) (.issue 0 0) fun t => t.issuing.isNone && (groupOf t ⟨r0, 0⟩).any Group.swPark) = true := by decide +kernel

/-- NoHandler: no trap held; one held; a parked entry. -/
def trapT : Trap := ⟨cILLOP, 2, 1, 0, mkPtr 1 0x30, 9, 0, 0, false, false, false⟩
def gPark : Group := { g1 with frontier := [⟨mkPtr 1 0x30, 9, 1, 0, .parked cFARALIGN 0 (mkPtr 1 5) 0⟩, ⟨mkPtr 1 0x30, 9, 2, 0, .ready⟩] }
theorem test_meets_no_handler :
    ([g1, { g1 with pendTrap := some trapT }, gPark].all fun g => let s := st g; (teamOf s r0).isSome && (groupOf s ⟨r0, 0⟩ == some g) && (gridOf s 0 0).any (fun gr => gr.fail.isNone) && g.handler.isNone && !awaitsFar g && qbWord s 0 0x260 == 0) = true ∧
    (((topEntry (gPark.frontier.filter fun e => (parkTrap e).isSome)).bind parkTrap).map Trap.cause = some cFARALIGN) := by refine ⟨?_, ?_⟩ <;> decide +kernel

/-- A machine that issues a word at a pc. -/
def stW (w : List Byte) : State := bench State.reset w
def wAdd : List Byte := [0x00, 0x12, 0x03, 0x04, 0x60, 0x10, 0x00, 0x00, 0x00, 0xC0, 0x40, 0x00]
/-- What the issue of the next entry does, step by step. -/
def issues (s : State) (p : Team → Group → Issuing → Bool) : Bool := s.issuing.any fun u => (teamOf s u.r.team).any fun t => (groupOf s u.r).any fun g => !g.emptySlot && p t g u
def fetched (s : State) (t : Team) (g : Group) (u : Issuing) (p : List Byte → State → Bool) : Bool := u.pc.extractLsb' 0 2 == 0 && match fetchBytes (fetchWalks s t g u.pc) t g u.pc with
  | .bytes bs s1 => p bs s1
  | _ => false
def decoded (s : State) (p : Group → Instr → State → LaneMask → Bool) : Bool := issues s fun t g u => fetched s t g u fun bs s1 => match wordMisuse (wordOfBytes bs), decodeAt (levelFor s1 t.r g) (wordOfBytes bs) with
  | none, .ok i => p g i s1 (activeMask g (hdrOf i) u.mask)
  | _, _ => false
def withG (s : State) (f : Group → Group) : State := modGroup s ⟨r0, 0⟩ f
/-- StepRunsDecoded: a misaligned pc; an unmapped one; a poisoned sector; a word of zeros; a register above the budget; a result outstanding;
no active lane; an instruction that runs, with and without an open octet; a step asked for. -/
theorem test_meets_step :
    (issues { stW wAdd with issuing := some ⟨⟨r0, 0⟩, mkPtr 1 1, 128, BitVec.allOnes 32⟩ } fun _ _ u => u.pc.extractLsb' 0 2 != 0) = true ∧
    (let s := { stW wAdd with issuing := some ⟨⟨r0, 0⟩, mkPtr 1 0x10000, 128, BitVec.allOnes 32⟩ }; issues s fun t g u => match fetchBytes (fetchWalks s t g u.pc) t g u.pc with
      | .fault c _ => c == cNOTMAPPED
      | _ => false) = true ∧
    (let s := stW (List.replicate 12 0xFF); issues s fun t g u => fetched s t g u fun bs s1 => match decodeAt (levelFor s1 t.r g) (wordOfBytes bs) with
      | .ok _ => false
      | .error _ => true) = true ∧
    (decoded (withG (stW wAdd) fun g => { g with budget := 2 }) fun g i _ _ => (budgetErr g.budget i).isSome) = true ∧
    (decoded (withG (stW wAdd) fun g => { g with outst := [⟨.v 1, .cycle 9, false⟩] }) fun g i s1 _ => (budgetErr g.budget i).isNone && (runHaz (stillOut g.outst s1.cycle) i).isSome) = true ∧
    (decoded (stW wAdd) fun g i s1 act => act == 0 && (budgetErr g.budget i).isNone && (runHaz (stillOut g.outst s1.cycle) i).isNone) = true ∧
    (decoded (withG (stW wAdd) fun g => setP g 3 5 true) fun g i s1 act => act != 0 && s1.far.isEmpty && s1.sram.isEmpty && g.octets.isEmpty) = true ∧
    (decoded (withG (stW wAdd) fun g => { setP g 3 5 true with octets := [⟨3, 0, 0⟩] }) fun g i s1 act => act != 0 && !g.octets.isEmpty && issues s1 fun t _ _ => (touchRegs s1 t g i act).isSome) = true ∧
    ((stRun g1).issuing = none ∧ isGroupStep (.issue 0 0) = false) := by
  refine ⟨?_, ?_, ?_, ?_, ?_, ?_, ?_, ?_, ?_⟩ <;> decide +kernel
/-- The same of a poisoned sector, whether or not a translation cache spares the walk its reads. -/
def stKill : State := { stW [] with ecc := [(0x110000 / 32, 0x1FFFFFFFF)] }
def teamKill : Team := (teamOf stKill r0).getD default
def groupKill : Group := (groupOf stKill ⟨r0, 0⟩).getD default
theorem test_meets_kill : fetchWalks stKill teamKill groupKill (mkPtr 1 0) = walkRead stKill 0 (pinRoot groupKill.pin) 0 ∧
    ∀ hit : Bool, (match fetchBytes (if hit then stKill else walkReads stKill 0 (pinRoot groupKill.pin) 0) teamKill groupKill (mkPtr 1 0) with
      | .kill _ c _ => c == cPOISON
      | _ => false) = true := ⟨rfl, by decide +kernel⟩
/-- A word that names an unassigned privileged register. -/
theorem test_misuse : (encode (.privrd ⟨hd, .g 3, .v 0, 0x7FF, 0⟩)).bind wordMisuse = some 5 := by decide +kernel
/-- R125, R134: a buffer load that an acquire precedes acts after it. -/
theorem test_force : (forceIssue { stWay .load 0x110100 with teams := [tm [{ g1 with outst := [⟨.v 3, .far 7, false⟩], ords := [⟨2, [7], [], [], []⟩] }]] }
    ⟨⟨r0, 0⟩, mkPtr 1 0, 128, BitVec.allOnes 32⟩ (.lda ⟨hd, false, .plain, .b32, .v 3, .v 5, .off 0⟩)).far.isEmpty = true := by decide +kernel
/-- The step runs the word that stands at the pc. -/
theorem test_step : (match step (withG (stW wAdd) fun g => setG (setV (setP g 3 5 true) 1 5 7) 6 3) with
    | .next t => t.issuing.isNone && (groupOf t ⟨r0, 0⟩).any fun g => getV g 3 5 == 10
    | _ => false) = true := by decide +kernel
theorem test_no_issue : exec (.nop hd) State.reset = .fault .noIssue := rfl
/-- The invariants hold somewhere: in the machine after reset, which has its devices. -/
theorem test_reset_inv : Safe State.reset ∧ ∀ ld < 16, HasDev State.reset ld := ⟨rfl, by decide +kernel⟩
/-- StepRunsDecoded: a clean fetch of a group that has fetched nothing ahead. -/
theorem test_meets_fetch : (let s := stW wAdd; issues s fun t g u => (gridOf s t.r.ld t.r.grid).any (fun gr => gr.words.isEmpty) && s.sram.isEmpty &&
    decide (ptrVa u.pc % 2 ^ 16 + 12 ≤ 2 ^ 16) && g.ahead.isEmpty && match farCheck s t.r.ld (pinRoot g.pin) t.bounds (levelFor s t.r g == .user) u.pc 12 .fetch with
      | .ok (pa, _) => decide (isHbm pa = true ∧ CleanAt s pa 12)
      | .error _ => false) = true := by decide +kernel
/-- A word fetched ahead stands beside words fetched at issue (R176). -/
theorem test_fetched_ahead : withAhead { g1 with ahead := [((mkPtr 1 4).toNat, 0x1AABBCCDD)] } (mkPtr 1 0) wAdd =
    [0x00, 0x12, 0x03, 0x04, 0xDD, 0xCC, 0xBB, 0xAA, 0x00, 0xC0, 0x40, 0x00] := by decide +kernel

end Sys2Proof.Tests
end

section
/-! PROOFS. FMIN and FMAX (spec/09_scalar_vector_instructions.md R234): what a float instruction with a fixed latency computes, the order
of exact values, and the operand that `minMax` returns. -/

namespace Sys2Proof.Machine

/-- A float instruction with a fixed latency computes a vector or uniform destination. -/
theorem computes_runF {s : State} {h : Hdr} {c : Ctx} (hc : ctxOf s h = some c) (d : Opnd) (lat : Nat) (f : Group → Nat → Nat)
    (hd : d.isV = true ∨ d.isG = true) : Computes c (runF h d lat s f) d 1 fun l => BitVec.ofNat 64 (f c.g l) := by
  unfold runF
  rw [withIssue_of hc]
  exact computes_fixed hc false d 1 lat _ hd

/-- A float instruction with two sources that runs as `runF` delivers the pattern that `runF` is given. -/
theorem fltLaw_of_runF {con : FBin → Instr} {f : FBin → Group → Nat → Nat} (lat : Nat)
    (hexec : ∀ x s, exec (con x) s = runF x.h x.d lat s (f x)) (hargs : ∀ x, args (con x) = x.args) : FltLaw con f := by
  intro s c x hc hwf
  have hmem : aD x.d cVU 1 ∈ args (con x) := by simp [hargs, FBin.args]
  rw [hexec]
  exact computes_runF hc x.d lat (f x) (wf_dst hwf _ hmem rfl)

theorem exec_fmin (x : FBin) (s : State) :
    exec (.fmin x) s = runF x.h x.d 5 s fun g l => minMax false (srcPat g x.a l) (srcPat g x.b l) := rfl

theorem exec_fmax (x : FBin) (s : State) :
    exec (.fmax x) s = runF x.h x.d 5 s fun g l => minMax true (srcPat g x.a l) (srcPat g x.b l) := rfl

/-! The order of exact values. -/

theorem FVal.isNan_iff (a : FVal) : a.isNan = true ↔ a = .nan := by
  cases a <;> simp [FVal.isNan]

/-- The comparison is antisymmetric; a NaN compares as 0 both ways. -/
theorem FVal.cmp_swap (a b : FVal) : FVal.cmp b a = -FVal.cmp a b := by
  cases a with
  | nan => cases b <;> rfl
  | inf s => cases b with
    | nan => rfl
    | inf t => cases s <;> cases t <;> rfl
    | fin t n g => cases s <;> rfl
  | fin s m e => cases b with
    | nan => rfl
    | inf t => cases t <;> rfl
    | fin t n g =>
      simp only [FVal.cmp, min_comm g e]
      generalize scaled s m e (min e g) = y
      generalize scaled t n g (min e g) = z
      split <;> split <;> omega

/-! The operand returned, of two patterns p and q. -/

section
variable (hi : Bool) {p q : Nat}

theorem minMax_both_nan (hp : decodeF fF32 p = .nan) (hq : decodeF fF32 q = .nan) : minMax hi p q = 0x7FC00000 := by
  have h : minMax hi p q = fF32.nan := by simp [minMax, FVal.isNan_iff, hp, hq]
  exact h

theorem minMax_left_nan (hp : decodeF fF32 p = .nan) (hq : decodeF fF32 q ≠ .nan) : minMax hi p q = q := by
  simp [minMax, FVal.isNan_iff, hp, hq]

theorem minMax_right_nan (hp : decodeF fF32 p ≠ .nan) (hq : decodeF fF32 q = .nan) : minMax hi p q = p := by
  simp [minMax, FVal.isNan_iff, hp, hq]

/-- Of two numbers that differ, FMAX returns q and FMIN p exactly where p is the lesser. -/
theorem minMax_differ (hp : decodeF fF32 p ≠ .nan) (hq : decodeF fF32 q ≠ .nan)
    (hz : FVal.cmp (decodeF fF32 p) (decodeF fF32 q) ≠ 0) :
    minMax hi p q = if decide (FVal.cmp (decodeF fF32 p) (decodeF fF32 q) < 0) = hi then q else p := by
  simp [minMax, FVal.isNan_iff, hp, hq, hz]

theorem minMax_left_lesser (hp : decodeF fF32 p ≠ .nan) (hq : decodeF fF32 q ≠ .nan)
    (hlt : FVal.cmp (decodeF fF32 p) (decodeF fF32 q) < 0) : minMax hi p q = if hi then q else p := by
  rw [minMax_differ hi hp hq (by omega), decide_eq_true hlt]
  cases hi <;> rfl

theorem minMax_right_lesser (hp : decodeF fF32 p ≠ .nan) (hq : decodeF fF32 q ≠ .nan)
    (hlt : FVal.cmp (decodeF fF32 q) (decodeF fF32 p) < 0) : minMax hi p q = if hi then p else q := by
  have hgt := FVal.cmp_swap (decodeF fF32 p) (decodeF fF32 q)
  rw [minMax_differ hi hp hq (by omega), decide_eq_false (by omega)]
  cases hi <;> rfl

end

/-- The pattern of -0 lies below that of +0 in either place (R234). -/
theorem minMax_zeros : minMax false 0x80000000 0 = 0x80000000 ∧ minMax false 0 0x80000000 = 0x80000000 ∧
    minMax true 0x80000000 0 = 0 ∧ minMax true 0 0x80000000 = 0 := by decide

/-- Settles O4: both instructions run as float instructions with a fixed latency, and `minMax` decides by which operands are NaNs,
then by the antisymmetric order of their values. -/
theorem floatMinMax : Obligations.FloatMinMax := by
  unfold Obligations.FloatMinMax
  refine ⟨fltLaw_of_runF 5 exec_fmin fun _ => rfl, fltLaw_of_runF 5 exec_fmax fun _ => rfl, ?_, minMax_zeros⟩
  intro hi p q _ _
  exact ⟨minMax_both_nan hi, minMax_left_nan hi, minMax_right_nan hi, minMax_left_lesser hi, minMax_right_lesser hi⟩

end Sys2Proof.Machine
end

section
/-! PROOFS. What a frontier holds once lanes have been put into it one by one (R155), how many entries it then has (R160), and the
end of an instruction that sends its active lanes to targets. -/

namespace Sys2Proof.Machine

/-! Entries that stay while others are put in. -/

/-- Every entry of a frontier is still there, with its lanes and perhaps more. -/
def Keeps (f f' : List Entry) : Prop :=
  ∀ e ∈ f, ∃ e' ∈ f', e'.st = e.st ∧ e'.pc = e.pc ∧ e'.prio = e.prio ∧ ∀ l, e.mask.getLsbD l = true → e'.mask.getLsbD l = true

theorem Keeps.refl (f : List Entry) : Keeps f f := fun e he => ⟨e, he, rfl, rfl, rfl, fun _ h => h⟩

theorem Keeps.trans {f g h : List Entry} (hfg : Keeps f g) (hgh : Keeps g h) : Keeps f h := by
  intro e he
  obtain ⟨e₁, he₁, hst₁, hpc₁, hprio₁, hmask₁⟩ := hfg e he
  obtain ⟨e₂, he₂, hst₂, hpc₂, hprio₂, hmask₂⟩ := hgh e₁ he₁
  exact ⟨e₂, he₂, hst₂.trans hst₁, hpc₂.trans hpc₁, hprio₂.trans hprio₁, fun l hl => hmask₂ l (hmask₁ l hl)⟩

theorem Keeps.standsAt {f f' : List Entry} (hk : Keeps f f') {l : Nat} {pc : Ptr} {prio : BitVec 8} (h : StandsAt f l pc prio) :
    StandsAt f' l pc prio := by
  obtain ⟨e, he, hst, hpc, hprio, hmask⟩ := h
  obtain ⟨e', he', hst', hpc', hprio', hmask'⟩ := hk e he
  exact ⟨e', he', hst'.trans hst, hpc'.trans hpc, hprio'.trans hprio, hmask' l hmask⟩

theorem keeps_addReady (f : List Entry) (e : Entry) : Keeps f (addReady f e) := by
  induction f with
  | nil => simp [Keeps]
  | cons a r ih =>
    unfold addReady
    split
    · intro x hx
      rcases List.mem_cons.1 hx with rfl | hx
      · exact ⟨_, List.mem_cons_self, rfl, rfl, rfl, fun l hl => by simp [hl]⟩
      · exact ⟨x, List.mem_cons_of_mem _ hx, rfl, rfl, rfl, fun _ h => h⟩
    · intro x hx
      rcases List.mem_cons.1 hx with rfl | hx
      · exact ⟨x, List.mem_cons_self, rfl, rfl, rfl, fun _ h => h⟩
      · obtain ⟨y, hy, hkeep⟩ := ih x hx
        exact ⟨y, List.mem_cons_of_mem _ hy, hkeep⟩

/-- The lanes of an entry that is put in stand where it stands. -/
theorem standsAt_addReady (f : List Entry) (e : Entry) (hst : e.st = .ready) (l : Nat) (hl : e.mask.getLsbD l = true) :
    StandsAt (addReady f e) l e.pc e.prio := by
  induction f with
  | nil => exact ⟨e, List.mem_cons_self, hst, rfl, rfl, hl⟩
  | cons a r ih =>
    unfold addReady
    split
    · rename_i hmerge
      obtain ⟨hready, hpc, hprio⟩ := hmerge
      exact ⟨_, List.mem_cons_self, hready, hpc, hprio, by simp [hl]⟩
    · obtain ⟨x, hx, hstands⟩ := ih
      exact ⟨x, List.mem_cons_of_mem _ hx, hstands⟩

theorem length_addReady_le (f : List Entry) (e : Entry) : (addReady f e).length ≤ f.length + 1 := by
  induction f with
  | nil => simp [addReady]
  | cons a r ih => unfold addReady; split <;> simp [ih]

/-- Where a ready entry stands at the PC and priority already, the frontier grows by none. -/
theorem length_addReady_merged (f : List Entry) (e : Entry) {l : Nat} (h : StandsAt f l e.pc e.prio) :
    (addReady f e).length = f.length := by
  obtain ⟨x, hx, hst, hpc, hprio, -⟩ := h
  induction f with
  | nil => simp at hx
  | cons a r ih =>
    unfold addReady
    split
    · rfl
    · rename_i ha
      rcases List.mem_cons.1 hx with rfl | hx
      · exact absurd ⟨hst, hpc, hprio⟩ ha
      · simp [ih hx]

/-! Lanes put in one by one. -/

/-- The lanes of the mask of a list of lanes. -/
theorem getLsbD_maskOf (ls : List Nat) (l : Nat) : (maskOf ls).getLsbD l = (decide (l < 32) && decide (l ∈ ls)) := by
  have hfold : ∀ m : LaneMask, (ls.foldl (fun m l => m ||| BitVec.twoPow 32 l) m).getLsbD l =
      (m.getLsbD l || (decide (l < 32) && decide (l ∈ ls))) := by
    induction ls with
    | nil => simp
    | cons a r ih =>
      intro m
      rw [List.foldl_cons, ih, BitVec.getLsbD_or, BitVec.getLsbD_twoPow, Bool.or_assoc]
      by_cases hla : l = a
      · subst hla; cases decide (l < 32) <;> simp
      · simp [hla, Ne.symm hla]
  rw [maskOf, hfold]
  simp

/-- The ready entry of one lane at a pointer with a priority. -/
def laneEntry (p : Ptr × BitVec 8) (l : Nat) : Entry := ⟨p.1, p.2, maskOf [l], 0, .ready⟩

/-- A frontier into which lanes are put, each where `goal` says. -/
def placeLanes (goal : Nat → Ptr × BitVec 8) (ls : List Nat) (f : List Entry) : List Entry :=
  ls.foldl (fun f l => addReady f (laneEntry (goal l) l)) f

theorem laneEntry_mask (p : Ptr × BitVec 8) (l : Nat) (hl : l < 32) : (laneEntry p l).mask.getLsbD l = true := by
  simp [laneEntry, getLsbD_maskOf, hl]

section placeLanes
variable (goal : Nat → Ptr × BitVec 8)

theorem placeLanes_concat (ls : List Nat) (l : Nat) (f : List Entry) :
    placeLanes goal (ls ++ [l]) f = addReady (placeLanes goal ls f) (laneEntry (goal l) l) := by
  simp [placeLanes]

theorem keeps_placeLanes (ls : List Nat) (f : List Entry) : Keeps f (placeLanes goal ls f) := by
  induction ls generalizing f with
  | nil => exact Keeps.refl f
  | cons a r ih => exact (keeps_addReady f _).trans (ih _)

theorem standsAt_placeLanes (ls : List Nat) (hls : ∀ l ∈ ls, l < 32) (f : List Entry) (l : Nat) (hl : l ∈ ls) :
    StandsAt (placeLanes goal ls f) l (goal l).1 (goal l).2 := by
  induction ls generalizing f with
  | nil => cases hl
  | cons a r ih =>
    rcases List.mem_cons.1 hl with rfl | hr
    · exact (keeps_placeLanes goal r _).standsAt (standsAt_addReady f _ rfl l (laneEntry_mask _ l (hls l hl)))
    · exact ih (fun k hk => hls k (List.mem_cons_of_mem _ hk)) _ hr

/-- The frontier grows by at most one entry for each pointer and priority. -/
theorem length_placeLanes_le (ls : List Nat) (hls : ∀ l ∈ ls, l < 32) (f : List Entry) :
    (placeLanes goal ls f).length ≤ f.length + (ls.map goal).toFinset.card := by
  induction ls using List.reverseRecOn with
  | nil => simp [placeLanes]
  | append_singleton ls l ih =>
    have hlt : ∀ k ∈ ls, k < 32 := fun k hk => hls k (List.mem_append_left _ hk)
    have ih := ih hlt
    have hset : ((ls ++ [l]).map goal).toFinset = insert (goal l) (ls.map goal).toFinset := by
      ext; simp
    rw [placeLanes_concat, hset]
    by_cases hseen : goal l ∈ (ls.map goal).toFinset
    · obtain ⟨k, hk, hkl⟩ : ∃ k ∈ ls, goal k = goal l := by simpa using hseen
      have hstands := standsAt_placeLanes goal ls hlt f k hk
      rw [hkl] at hstands
      rw [length_addReady_merged _ (laneEntry (goal l) l) hstands, Finset.insert_eq_of_mem hseen]
      exact ih
    · have hgrow := length_addReady_le (placeLanes goal ls f) (laneEntry (goal l) l)
      rw [Finset.card_insert_of_notMem hseen]
      omega

end placeLanes

/-! A move to targets (R155). -/

/-- Where a lane of the issuing entry goes when the active lanes go to targets. -/
def landing (c : Ctx) (dest : Nat → Ptr) (prio : Nat → BitVec 8) (l : Nat) : Ptr × BitVec 8 :=
  if l ∈ c.lanes then (dest l, prio l) else (nextPc c.u.pc, c.u.prio)

/-- The frontier after the active lanes have gone to targets. -/
abbrev goneFront (c : Ctx) (dest : Nat → Ptr) (prio : Nat → BitVec 8) (f : List Entry) : List Entry :=
  placeLanes (landing c dest prio) (lanesOf c.u.mask) (others c.u f)

/-- The move of the active lanes to targets, each with a priority. -/
abbrev gotoEach (c : Ctx) (dest : Nat → Ptr) (prio : Nat → BitVec 8) : Move := .goto (c.lanes.map fun l => (l, dest l, prio l))

theorem find_map_lane {β : Type} (ls : List Nat) (b : Nat → β) (l : Nat) :
    (ls.map fun k => (k, b k)).find? (fun x => x.1 == l) = if l ∈ ls then some (l, b l) else none := by
  induction ls with
  | nil => rfl
  | cons a r ih =>
    rw [List.map_cons, List.find?_cons, ih]
    by_cases h : a = l
    · simp [h]
    · simp [Ne.symm h, beq_eq_false_iff_ne.2 h]

theorem advance_gotoEach (c : Ctx) (f : List Entry) (dest : Nat → Ptr) (prio : Nat → BitVec 8) :
    advance c f (gotoEach c dest prio) = goneFront c dest prio f := by
  refine congrArg (fun put => (lanesOf c.u.mask).foldl put (others c.u f)) ?_
  funext f l
  rw [find_map_lane c.lanes (fun l => (dest l, prio l)) l]
  unfold landing laneEntry
  split_ifs <;> rfl

/-- The active lanes are lanes of the issuing entry. -/
theorem mem_mask_of_lane {s : State} {h : Hdr} {c : Ctx} (hc : ctxOf s h = some c) {l : Nat} (hl : l ∈ c.lanes) :
    l ∈ lanesOf c.u.mask := by
  obtain ⟨-, -, -, -, -, hact⟩ := ctxOf_spec hc
  obtain ⟨hlt, hbit⟩ := (mem_lanesOf c.act l).1 hl
  rw [hact, activeMask, getLsbD_maskOf] at hbit
  have hmask : c.u.mask.getLsbD l = true ∧ guardIn c.g h l = true := by simpa [hlt] using hbit
  exact (mem_lanesOf c.u.mask l).2 ⟨hlt, hmask.1⟩

/-- An active lane goes to its target, another lane of the entry to PC + 12, and every other entry stays. -/
theorem goneAs_goneFront {s : State} {h : Hdr} {c : Ctx} (hc : ctxOf s h = some c) (dest : Nat → Ptr) (prio : Nat → BitVec 8) :
    GoneAs c (goneFront c dest prio (frontOf c.g)) dest prio := by
  have hstands := standsAt_placeLanes (landing c dest prio) (lanesOf c.u.mask) (fun l hl => ((mem_lanesOf _ l).1 hl).1)
    (others c.u (frontOf c.g))
  refine ⟨fun l hl => ?_, fun l hlt hmask hl => ?_, fun e he l _ hmask => ?_⟩
  · simpa [landing, hl] using hstands l (mem_mask_of_lane hc hl)
  · simpa [landing, hl] using hstands l ((mem_lanesOf _ l).2 ⟨hlt, hmask⟩)
  · obtain ⟨e', he', hst, hpc, hprio, hkeep⟩ := keeps_placeLanes (landing c dest prio) (lanesOf c.u.mask) _ e he
    exact ⟨e', he', hst, hpc, hprio, hkeep l hmask⟩

/-- The lanes of the entry go to the active lanes' targets and, where some lane is not active, to PC + 12. -/
theorem landings_subset (c : Ctx) (dest : Nat → Ptr) (prio : Nat → BitVec 8) :
    ((lanesOf c.u.mask).map (landing c dest prio)).toFinset ⊆
      (c.lanes.map fun l => (dest l, prio l)).toFinset ∪ if c.act = c.u.mask then ∅ else {(nextPc c.u.pc, c.u.prio)} := by
  intro p hp
  obtain ⟨l, hl, rfl⟩ : ∃ l ∈ lanesOf c.u.mask, landing c dest prio l = p := by simpa using hp
  by_cases hact : l ∈ c.lanes
  · exact Finset.mem_union_left _ (List.mem_toFinset.2 (List.mem_map.2 ⟨l, hact, by simp [landing, hact]⟩))
  · have hne : c.act ≠ c.u.mask := fun heq => hact (by rwa [Ctx.lanes, heq])
    simp [landing, hact, hne]

/-- With room for its targets a transfer leaves no more entries than the frontier holds. -/
theorem length_goneFront_le (c : Ctx) (dest : Nat → Ptr) (prio : Nat → BitVec 8)
    (room : RoomFor c (c.lanes.map fun l => (dest l, prio l))) : (goneFront c dest prio (frontOf c.g)).length ≤ depthOf c.g := by
  have hcard : ((lanesOf c.u.mask).map (landing c dest prio)).toFinset.card ≤
      (c.lanes.map fun l => (dest l, prio l)).dedup.length + (if c.act = c.u.mask then 0 else 1) := by
    refine (Finset.card_le_card (landings_subset c dest prio)).trans ((Finset.card_union_le _ _).trans (le_of_eq ?_))
    rw [List.card_toFinset]
    split_ifs <;> rfl
  calc (goneFront c dest prio (frontOf c.g)).length
      ≤ (others c.u (frontOf c.g)).length + ((lanesOf c.u.mask).map (landing c dest prio)).toFinset.card :=
        length_placeLanes_le _ _ (fun l hl => ((mem_lanesOf _ l).1 hl).1) _
    _ ≤ (others c.u (frontOf c.g)).length + ((c.lanes.map fun l => (dest l, prio l)).dedup.length +
        (if c.act = c.u.mask then 0 else 1)) := Nat.add_le_add_left hcard _
    _ ≤ depthOf c.g := by rw [← Nat.add_assoc]; exact room

/-- The end of a transfer: the effect is kept, and the lanes have gone to their targets. -/
theorem complete_gotoEach {c : Ctx} (h : Hdr) (sw : Bool) (outs : List Outst) (dl : Option Nat) {s' : State} {g' : Group}
    (hg : groupOf s' c.r = some g') (hf : frontOf g' = frontOf c.g) (dest : Nat → Ptr) (prio : Nat → BitVec 8)
    (room : RoomFor c (c.lanes.map fun l => (dest l, prio l))) :
    complete c h sw (.ok s' (gotoEach c dest prio) outs dl) =
      { modGroup s' c.r (retire c h sw (goneFront c dest prio (frontOf c.g)) outs dl) with issuing := none } := by
  have hlen := length_goneFront_le c dest prio room
  simp only [complete, hg, Option.getD_some, hf, advance_gotoEach, gt_iff_lt, Nat.not_lt.2 hlen, if_false]

/-- An effect whose active lanes go to targets: a transfer completes, and what holds of the group after it holds. -/
theorem transfers_gotoEach {s : State} {h : Hdr} {c : Ctx} (hc : ctxOf s h = some c) (sw : Bool) (outs : List Outst)
    (dl : Option Nat) {s' : State} {g' : Group} (hg : groupOf s' c.r = some g') (hf : frontOf g' = frontOf c.g)
    (dest : Nat → Ptr) (prio : Nat → BitVec 8) (room : RoomFor c (c.lanes.map fun l => (dest l, prio l)))
    {P : State → Group → Prop} (hP : ∀ t f, P t (retire c h sw f outs dl g')) :
    Transfers c (.next (complete c h sw (.ok s' (gotoEach c dest prio) outs dl))) dest prio P := by
  have hgroup : groupOf (modGroup s' c.r (retire c h sw (goneFront c dest prio (frontOf c.g)) outs dl)) c.r =
      some (retire c h sw (goneFront c dest prio (frontOf c.g)) outs dl g') := by
    rw [groupOf_modGroup_same _ _ _ (fun g hid => by rw [id_retire]; exact hid), hg]
    rfl
  rw [complete_gotoEach h sw outs dl hg hf dest prio room]
  refine ⟨_, _, ⟨rfl, rfl, hgroup⟩, ?_, hP _ _⟩
  rw [frontOf_retire]
  exact goneAs_goneFront hc dest prio

end Sys2Proof.Machine
end

section
/-! PROOFS. Taking a trap (R424, R426, R428): what the group and the machine are once its handler stands at VBASE. -/

namespace Sys2Proof.Machine

/-- The group once its handler has been entered, in the cycle by which its timed results are written (R428). -/
def enteredGroup (s : State) (t : Team) (x : Trap) (pc : Ptr) (now : Nat) (g : Group) : Group :=
  { g with
    outst := [], swPark := false, delay := 0, pendTrap := none, last := BitVec.allOnes 32
    handler := some ⟨handlerBank s t g x, [⟨pc, 128, BitVec.allOnes 32, 0, .ready⟩], x, now⟩ }

section enter
variable {s : State} {r : GroupRef} {t : Team} {g : Group} (x : Trap)

theorem enterTrap_of (ht : teamOf s r.team = some t) (hg : groupOf s r = some g) (hpc : qbWord s r.team.ld 0x260 ≠ 0) :
    enterTrap s r x = modGroup { s with cycle := lastDue g s.cycle } r
      (enteredGroup s t x (qbWord s r.team.ld 0x260) (lastDue g s.cycle)) := by
  simp only [enterTrap, ht, hg, hpc, if_false]
  rfl

theorem groupOf_enterTrap (ht : teamOf s r.team = some t) (hg : groupOf s r = some g) (hpc : qbWord s r.team.ld 0x260 ≠ 0) :
    groupOf (enterTrap s r x) r = some (enteredGroup s t x (qbWord s r.team.ld 0x260) (lastDue g s.cycle) g) := by
  rw [enterTrap_of x ht hg hpc]
  refine (groupOf_modGroup_same _ r (enteredGroup s t x _ _) fun _ hid => hid).trans ?_
  exact congrArg (Option.map (enteredGroup s t x _ _)) hg

theorem issuing_enterTrap (ht : teamOf s r.team = some t) (hg : groupOf s r = some g) (hpc : qbWord s r.team.ld 0x260 ≠ 0) :
    (enterTrap s r x).issuing = s.issuing := by
  rw [enterTrap_of x ht hg hpc]
  rfl

/-- A trap enters the handler at once where none runs, no trap is held and no far result is outstanding (R426). -/
theorem raiseTrap_of (hg : groupOf s r = some g) (hhandler : g.handler = none) (hpend : g.pendTrap = none)
    (hfar : awaitsFar g = false) : raiseTrap s r x = enterTrap s r x := by
  simp [raiseTrap, hg, hhandler, hpend, hfar]

end enter

/-- An instruction that ends in a trap that can be taken at once traps Whole (R424). -/
theorem traps_of_trap {s : State} {h : Hdr} {c : Ctx} (hc : ctxOf s h = some c) (can : CanTrap c) (sw : Bool) (x : TrapInfo) :
    Traps c (.next (complete c h sw (.trap x))) x.cause x.detail (x.lane.getD (lowest c.u.mask)) x.addr := by
  obtain ⟨rfl, -, ht, hg, -, -⟩ := ctxOf_spec hc
  obtain ⟨hhandler, hpend, hfar, hvbase⟩ := can
  let s₀ : State := { c.s with issuing := none }
  have ht₀ : teamOf s₀ c.r.team = some c.t := ht
  have hg₀ : groupOf s₀ c.r = some c.g := hg
  have hraise := fun y => raiseTrap_of y hg₀ hhandler hpend hfar
  have hpc₀ : qbWord s₀ c.r.team.ld 0x260 ≠ 0 := hvbase
  refine ⟨_, _, _, ⟨congrArg _ (hraise _), issuing_enterTrap _ ht₀ hg₀ hpc₀, groupOf_enterTrap _ ht₀ hg₀ hpc₀⟩, rfl, ?_⟩
  exact ⟨rfl, rfl, rfl, rfl, rfl, rfl, rfl, rfl, rfl, rfl, rfl⟩

end Sys2Proof.Machine
end

section
/-! PROOFS. RET (spec/10_control_instructions.md R257, R258): the fields of a link quad, the frames that its active lanes pop, and its two
ends. -/

namespace Sys2Proof.Machine

/-! The fields of a link quad (R257). -/

/-- The return pointer of a lane's link quad. -/
def linkPtr (g : Group) (o : Opnd) (l : Nat) : Ptr := getV g (o.vIdx + 1) l ++ getV g o.vIdx l

/-- The caller's priority in a lane's link quad. -/
def linkPrio (g : Group) (o : Opnd) (l : Nat) : BitVec 8 := (getV g (o.vIdx + 2) l).setWidth 8

/-- FS of a lane's link quad. -/
def linkFs (g : Group) (o : Opnd) (l : Nat) : Nat := (getV g (o.vIdx + 2) l).toNat / 256 % 512

/-- RET's checks of a lane's link quad, by its registers (R258). -/
def LinkChecks (g : Group) (o : Opnd) (l : Nat) : Prop :=
  (getV g (o.vIdx + 2) l).toNat < 2 ^ 17 ∧ getV g (o.vIdx + 3) l = 0 ∧ linkFs g o l ≤ 256 ∧ 16 * linkFs g o l ≤ spOf g l

theorem toNat_append_add {m n : Nat} (a : BitVec m) (b : BitVec n) : (a ++ b).toNat = 2 ^ n * a.toNat + b.toNat := by
  rw [BitVec.toNat_append, Nat.shiftLeft_eq, Nat.mul_comm, ← Nat.two_pow_add_eq_or_of_lt b.isLt]

section link
variable (g : Group) (o : Opnd) (l : Nat)

theorem toNat_srcQ : (srcQ g o l).toNat = (getV g o.vIdx l).toNat + 2 ^ 32 * (getV g (o.vIdx + 1) l).toNat +
    2 ^ 64 * (getV g (o.vIdx + 2) l).toNat + 2 ^ 96 * (getV g (o.vIdx + 3) l).toNat := by
  have hquad := toNat_append_add (getV g (o.vIdx + 3) l ++ getV g (o.vIdx + 2) l) (getV g (o.vIdx + 1) l ++ getV g o.vIdx l)
  have hlow := toNat_append_add (getV g (o.vIdx + 1) l) (getV g o.vIdx l)
  have hhigh := toNat_append_add (getV g (o.vIdx + 3) l) (getV g (o.vIdx + 2) l)
  refine hquad.trans ?_
  rw [hlow, hhigh]
  ring

theorem ofNat_fld_linkPtr : BitVec.ofNat 64 (fld (srcQ g o l).toNat 0 64) = linkPtr g o l := by
  have h₀ := (getV g o.vIdx l).isLt
  have h₁ := (getV g (o.vIdx + 1) l).isLt
  apply BitVec.eq_of_toNat_eq
  rw [linkPtr, toNat_append_add, BitVec.toNat_ofNat, fld, toNat_srcQ]
  omega

theorem ofNat_fld_linkPrio : BitVec.ofNat 8 (fld (srcQ g o l).toNat 64 8) = linkPrio g o l := by
  have h₀ := (getV g o.vIdx l).isLt
  have h₁ := (getV g (o.vIdx + 1) l).isLt
  apply BitVec.eq_of_toNat_eq
  rw [linkPrio, BitVec.toNat_ofNat, BitVec.toNat_setWidth, fld, toNat_srcQ]
  omega

theorem fld_linkFs : fld (srcQ g o l).toNat 72 9 = linkFs g o l := by
  have h₀ := (getV g o.vIdx l).isLt
  have h₁ := (getV g (o.vIdx + 1) l).isLt
  rw [linkFs, fld, toNat_srcQ]
  omega

theorem fld_reserved_iff : fld (srcQ g o l).toNat 81 15 = 0 ↔ (getV g (o.vIdx + 2) l).toNat < 2 ^ 17 := by
  have h₀ := (getV g o.vIdx l).isLt
  have h₁ := (getV g (o.vIdx + 1) l).isLt
  have h₂ := (getV g (o.vIdx + 2) l).isLt
  rw [fld, toNat_srcQ]
  omega

theorem fld_top_iff : fld (srcQ g o l).toNat 96 32 = 0 ↔ getV g (o.vIdx + 3) l = 0 := by
  have h₀ := (getV g o.vIdx l).isLt
  have h₁ := (getV g (o.vIdx + 1) l).isLt
  have h₂ := (getV g (o.vIdx + 2) l).isLt
  have h₃ := (getV g (o.vIdx + 3) l).isLt
  have hzero : getV g (o.vIdx + 3) l = 0 ↔ (getV g (o.vIdx + 3) l).toNat = 0 := BitVec.toNat_inj.symm
  rw [fld, toNat_srcQ, hzero]
  omega

theorem linkOk_iff_linkChecks : linkOk (srcQ g o l) (spOf g l) = true ↔ LinkChecks g o l := by
  simp only [linkOk, LinkChecks, Bool.and_eq_true, beq_iff_eq, decide_eq_true_eq, fld_reserved_iff, fld_top_iff, fld_linkFs,
    and_assoc]

end link

/-! Frames popped lane by lane. -/

@[simp] theorem id_popFrame (f : Nat) (g : Group) (l : Nat) : (popFrame f g l).id = g.id := rfl
@[simp] theorem frontOf_popFrame (f : Nat) (g : Group) (l : Nat) : frontOf (popFrame f g l) = frontOf g := rfl

theorem spOf_popFrame (f : Nat) (g : Group) (l k : Nat) : spOf (popFrame f g l) k = if k = l then spOf g l - f else spOf g k := by
  have hlt : spOf g l < 2 ^ 64 := (stGet g.sp l).isLt
  show (stGet (stSet g.sp l (BitVec.ofNat 64 (spOf g l - f))) k).toNat = _
  rw [stGet_set]
  split_ifs
  · rw [BitVec.toNat_ofNat, Nat.mod_eq_of_lt (by omega)]
  · rfl

/-- A frame popped in each of some lanes. -/
abbrev popFrames (f : Nat → Nat) (ls : List Nat) (g : Group) : Group := ls.foldl (fun g l => popFrame (f l) g l) g

section popFrames
variable (f : Nat → Nat) (ls : List Nat) (g : Group)

theorem id_popFrames : (popFrames f ls g).id = g.id := by
  induction ls generalizing g with
  | nil => rfl
  | cons a r ih => exact ih (popFrame (f a) g a)

theorem frontOf_popFrames : frontOf (popFrames f ls g) = frontOf g := by
  induction ls generalizing g with
  | nil => rfl
  | cons a r ih => exact ih (popFrame (f a) g a)

theorem spOf_popFrames (hn : ls.Nodup) (k : Nat) : spOf (popFrames f ls g) k = if k ∈ ls then spOf g k - f k else spOf g k := by
  induction ls generalizing g with
  | nil => rfl
  | cons a r ih =>
    obtain ⟨ha, hr⟩ := List.nodup_cons.1 hn
    rw [popFrames, List.foldl_cons, ih _ hr, spOf_popFrame]
    by_cases hka : k = a
    · simp [hka, ha]
    · simp [hka]

end popFrames

@[simp] theorem spOf_retire (c : Ctx) (h : Hdr) (sw : Bool) (f : List Entry) (outs : List Outst) (dl : Option Nat) (g : Group)
    (l : Nat) : spOf (retire c h sw f outs dl g) l = spOf g l := by
  unfold spOf retire setFront
  split <;> rfl

/-! The two ends of RET (R258). -/

/-- The first lane of a mask in which a check fails. -/
theorem find_lane {m : LaneMask} {p : Nat → Bool} {l : Nat} (hl : l ∈ lanesOf m) (hp : p l = true)
    (before : ∀ k ∈ lanesOf m, k < l → p k = false) : (lanesOf m).find? p = some l := by
  obtain ⟨hlt, hbit⟩ := (mem_lanesOf m l).1 hl
  rw [lanesOf, List.find?_filter, List.find?_range_eq_some]
  refine ⟨by simp [hbit, hp], List.mem_range.2 hlt, fun k hk => ?_⟩
  by_cases hbit' : m.getLsbD k = true
  · simp [before k ((mem_lanesOf m k).2 ⟨by omega, hbit'⟩) hk]
  · simp [hbit']

theorem firstFault_eq_none {ls : List Nat} {f : Nat → Option ((Nat × Nat) × Ptr)} (h : ∀ l ∈ ls, f l = none) :
    firstFault ls f = none := by
  unfold firstFault
  induction ls with
  | nil => rfl
  | cons a r ih =>
    rw [List.foldl_cons, h a List.mem_cons_self]
    exact ih fun l hl => h l (List.mem_cons_of_mem _ hl)

section ret
variable {s : State} {c : Ctx} {x : OneA}

/-- Every link quad checks and every fill can be made: frames are popped and the lanes return. -/
theorem execRet_of_checks (hc : ctxOf s x.h = some c) (hchecks : ∀ l ∈ c.lanes, LinkChecks c.g x.a l)
    (hfill : ∀ l ∈ c.lanes, stackFault s c.t c.gr c.g l (spOf c.g l - 16 * linkFs c.g x.a l - stackCap c.g)
      (min (spOf c.g l - 16 * linkFs c.g x.a l) (loOf c.g l)) .read = none) :
    execRet x s = .next (complete c x.h true
      (.ok (putGroup c.s c.r (popFrames (fun l => 16 * linkFs c.g x.a l) c.lanes c.g))
        (gotoEach c (linkPtr c.g x.a) (linkPrio c.g x.a)) [] none)) := by
  have hfind : c.lanes.find? (fun l => !linkOk (srcQ c.g x.a l) (spOf c.g l)) = none :=
    List.find?_eq_none.2 fun l hl => by simp [(linkOk_iff_linkChecks c.g x.a l).2 (hchecks l hl)]
  obtain ⟨rfl, -⟩ := ctxOf_spec hc
  rw [execRet, withIssue_of hc]
  simp only [hfind, fld_linkFs, firstFault_eq_none hfill, ofNat_fld_linkPtr, ofNat_fld_linkPrio]

/-- The first active lane whose link quad does not check traps. -/
theorem execRet_of_fails (hc : ctxOf s x.h = some c) {l : Nat} (hl : l ∈ c.lanes)
    (before : ∀ k ∈ c.lanes, k < l → LinkChecks c.g x.a k) (hfails : ¬LinkChecks c.g x.a l) :
    execRet x s = .next (complete c x.h true (trapL cSTKLIM 4 l 0)) := by
  have hfind : c.lanes.find? (fun l => !linkOk (srcQ c.g x.a l) (spOf c.g l)) = some l := by
    refine find_lane hl ?_ fun k hk hkl => ?_
    · rwa [Bool.not_eq_true', Bool.eq_false_iff, Ne, linkOk_iff_linkChecks]
    · simpa [linkOk_iff_linkChecks] using before k hk hkl
  rw [execRet, withIssue_of hc]
  simp only [hfind]

end ret

theorem exec_ret (x : OneA) (s : State) : exec (.ret x) s = execRet x s := rfl

/-- Settles O10: with every link quad checked RET is a transfer out of the popped frames; else it is a trap of the first lane that fails. -/
theorem returns : Obligations.Returns := by
  unfold Obligations.Returns
  intro s c x hc _
  rw [exec_ret]
  refine ⟨fun hlanes room => ?_, fun can l hl before hfails => ?_⟩
  · rw [execRet_of_checks hc (fun l hl => (hlanes l hl).1) (fun l hl => (hlanes l hl).2)]
    refine transfers_gotoEach hc true [] none (groupOf_put c hc _ (id_popFrames ..)) (frontOf_popFrames ..) _ _ room ?_
    intro t f l _
    exact (spOf_retire ..).trans (spOf_popFrames _ c.lanes c.g (lanesOf_nodup c.act) l)
  · rw [execRet_of_fails hc hl before hfails]
    exact traps_of_trap hc can true ⟨cSTKLIM, 4, some l, 0, 0, false⟩

end Sys2Proof.Machine
end

section
/-! PROOFS. The teams and the grids of the machine: neither an access to memory, nor the work that a dropped pin or a freed allocation
leaves, changes them (R54, R57, R432). -/

namespace Sys2Proof.Machine

/-- The teams and the grids of a state. -/
def census (s : State) : List Team × List Grid := (s.teams, s.grids)

/-- What is folded over a list keeps what each of its steps keeps. -/
theorem foldl_keeps {σ α β : Type} (q : σ → β) {f : σ → α → σ} (hf : ∀ s x, q (f s x) = q s) (l : List α) (s : σ) :
    q (l.foldl f s) = q s := by
  induction l generalizing s with
  | nil => rfl
  | cons x r ih => exact (ih (f s x)).trans (hf s x)

section memory
variable (s : State)

/-! Stored bytes and the die caches. -/

theorem census_sramDrop (k : SramKey) : census (sramDrop s k) = census s := rfl
theorem census_freshSec (sec : Nat) (bs : List Byte) : census (freshSec s sec bs) = census s := rfl
theorem census_pokeBytes (pa : Nat) (bs : List Byte) : census (pokeBytes s pa bs) = census s := rfl
theorem census_setPkgReg (n x : Nat) : census (setPkgReg s n x) = census s := rfl

theorem census_sramDrops (ks : List SramKey) : census (ks.foldl sramDrop s) = census s := foldl_keeps census census_sramDrop ks s

theorem census_openLine (n : Nat) : census (openLine s n) = census s := by
  unfold openLine
  split <;> rfl

theorem census_poisonSec (sec : Nat) : census (poisonSec s sec) = census s := census_openLine s _

theorem census_dieWordOut (d : DLine) (k : SramKey) : census (dieWordOut s d k) = census s := by
  unfold dieWordOut
  split
  · rfl
  · dsimp only
    split
    · rw [census_sramDrop]
    · split
      · rw [census_pokeBytes, census_sramDrop]
      · rw [census_poisonSec, census_sramDrop]

theorem census_dieOut (d : DLine) : census (dieOut s d) = census s := by
  unfold dieOut
  split
  · rfl
  · exact foldl_keeps census (fun s _ => census_dieWordOut s d _) _ s

/-- The line that a request to a die cache displaces is all that reaches memory. -/
theorem census_dieAccess (line need put : Nat) : census (dieAccess s line need put) = census s := by
  unfold census
  simp only [dieAccess, colCmd]
  split
  · rfl
  · split
    · rfl
    · exact census_dieOut s _

/-! The event log. -/

theorem census_raiseMsix (ld vec : Nat) : census (raiseMsix s ld vec) = census s := by
  unfold raiseMsix
  split <;> rfl

theorem census_sectorWrite (pa : Nat) (bs : List Byte) : census (sectorWrite s pa bs) = census s :=
  foldl_keeps census (fun s _ => census_openLine s _) _ s

theorem census_logEvent (kind cause detail ld addr aux : Nat) : census (logEvent s kind cause detail ld addr aux) = census s := by
  simp only [logEvent]
  split
  · rw [census_raiseMsix, census_setPkgReg, census_sectorWrite, census_dieAccess]
  · rw [census_setPkgReg]

theorem census_logBad (sec : Nat) : census (logBad s sec) = census s := by
  rw [logBad, census_logEvent, census_poisonSec]

theorem census_corrected (pa : Nat) : census (corrected s pa) = census s := by
  simp only [corrected]
  split
  · exact foldl_keeps census (fun s _ => census_logEvent s ..) _ _
  · rfl

/-! Accesses. -/

theorem census_readSec (sec : Nat) : census (readSec s sec).2.2 = census s := by
  unfold readSec
  split
  · rfl
  · exact census_logBad s sec
  · rw [census_corrected, census_freshSec]
  · split
    · rfl
    · split
      · rfl
      · split
        · rfl
        · rw [census_logBad, census_sramDrops]

theorem census_readIn (pa k : Nat) : census (readIn s pa k).2.2 = census s := by
  unfold readIn
  split
  · exact census_readSec s _
  · rfl

theorem census_readLines (pa k : Nat) : census (readLines s pa k) = census s := by
  refine foldl_keeps census (fun s p => ?_) _ s
  split
  · exact census_dieAccess s _ _ _
  · rfl

theorem census_writeLines (pa k : Nat) : census (writeLines s pa k) = census s := by
  refine foldl_keeps census (fun s p => ?_) _ s
  split
  · exact census_dieAccess s _ _ _
  · rfl

theorem census_dieMerge (sec : Nat) (bs : List Byte) : census (dieMerge s sec bs) = census s := by
  unfold dieMerge
  split
  · rfl
  · split
    · rfl
    · rw [census_pokeBytes, census_sramDrops]

theorem census_writeIn (pa : Nat) (bs : List Byte) : census (writeIn s pa bs) = census s := by
  simp only [writeIn]
  split
  · split
    · rw [census_freshSec, census_dieMerge, census_openLine]
    · split
      · rw [census_pokeBytes, census_openLine]
      · split
        · rw [census_freshSec, census_dieMerge, census_readSec, census_openLine]
        · rw [census_readSec, census_openLine]
  · rw [census_pokeBytes, census_openLine]

theorem census_tableRead (pa k : Nat) : census (tableRead s pa k) = census s := by
  refine (foldl_keeps (fun acc : List Byte × RdSt × State => census acc.2.2) (fun acc p => ?_) _ _).trans (census_readLines s pa k)
  exact census_readIn acc.2.2 p.1 p.2

theorem census_hwWrite (pa : Nat) (bs : List Byte) : census (hwWrite s pa bs) = census s := by
  refine (foldl_keeps (fun acc : State × List Byte => census acc.1) (fun acc p => ?_) _ _).trans (census_writeLines s pa bs.length)
  exact census_writeIn acc.1 p.1 _

end memory

section pins
variable (s : State) (ld : Nat)

/-! Roots whose pins are dropped (R54, R57). -/

theorem census_setNode (pa st c : Nat) : census (setNode s pa st c) = census s := census_hwWrite s _ _

theorem census_releaseNode (n : Nat) : census (releaseNode s ld n).1 = census s :=
  (census_setNode _ n 0 0).trans (census_tableRead (dropCached s ld _) n 8192)

theorem census_dropNodeCount (node : Nat) : census (dropNodeCount s ld node) = census s := by
  simp only [dropNodeCount]
  split
  · exact (census_releaseNode (setNode s ..) ld node).trans (census_setNode ..)
  · exact census_setNode ..

theorem census_giveUpRoot (gen node : Nat) : census (giveUpRoot s ld gen node) = census s := census_dropNodeCount _ ld node

theorem census_changePins (gen : Nat) (f : Nat → Nat) : census (changePins s ld gen f) = census s := by
  simp only [changePins]
  split
  · rfl
  · split
    · rfl
    · split
      · exact census_giveUpRoot _ ld _ _
      · rfl

theorem census_dropPin (p : Option Pin) : census (dropPin s ld p) = census s := by
  cases p with
  | none => rfl
  | some p => exact census_changePins s ld p.gen _

end pins

section leave
variable (s : State)

/-! What a stopped team leaves (R92, R432). -/

theorem census_dropTeamPins (t : Team) : census (dropTeamPins s t) = census s := by
  simp only [dropTeamPins]
  rw [foldl_keeps census fun _ _ => census_dropPin .., foldl_keeps census fun _ _ => census_dropPin .., census_dropPin]

theorem census_addStale (ld store unit lo hi : Nat) : census (addStale s ld store unit lo hi) = census s := by
  simp only [addStale]
  split <;> rfl

theorem census_leaveWords (ld store unit lo hi : Nat) : census (leaveWords s ld store unit lo hi) = census s :=
  census_addStale _ ld store unit lo hi

theorem census_leaveRegs (ld core base n : Nat) : census (leaveRegs s ld core base n) = census s := census_leaveWords s ..

theorem census_dropHeld (core : Nat) (p : TeamRef → Bool) : census (dropHeld s core p) = census s := by
  unfold dropHeld
  split <;> rfl

theorem census_leaveTeam (t : Team) : census (leaveTeam s t) = census s := by
  simp only [leaveTeam]
  rw [census_addStale, census_addStale, census_dropHeld, foldl_keeps census fun _ _ => census_leaveWords ..,
    foldl_keeps census fun _ _ => census_leaveRegs ..]

theorem census_bury : census (bury s) = census s := by
  unfold bury
  split
  · rfl
  · refine foldl_keeps census (fun s t => ?_) _ s
    dsimp only
    split
    · rw [census_leaveTeam, census_dropTeamPins]
    · rw [census_dropTeamPins]

end leave

end Sys2Proof.Machine
end

section
/-! PROOFS. The failure of a grid (R432), and the trap of a logical device whose TRAPPC is zero (R431). -/

namespace Sys2Proof.Machine

/-! A change of a grid that keeps its name. -/

section modGrid
variable {s : State} {f : Grid → Grid} {ld id : Nat}

/-- Looking up a grid after a change of one. -/
theorem gridOf_modGrid (hname : ∀ g, ((f g).ld, (f g).id) = (g.ld, g.id)) (ld' id' : Nat) :
    gridOf (modGrid s ld id f) ld' id' = (gridOf s ld' id').map fun g => if g.ld == ld && g.id == id then f g else g := by
  have hfind : ((fun g : Grid => g.ld == ld' && g.id == id') ∘ fun g => if g.ld == ld && g.id == id then f g else g) =
      fun g => g.ld == ld' && g.id == id' := by
    funext g
    obtain ⟨hld, hid⟩ := Prod.mk_inj.1 (hname g)
    rw [Function.comp_apply]
    split
    · rw [hld, hid]
    · rfl
  rw [gridOf, modGrid, List.find?_map, hfind]
  rfl

theorem gridOf_modGrid_same (hname : ∀ g, ((f g).ld, (f g).id) = (g.ld, g.id)) {g : Grid} (hg : gridOf s ld id = some g) :
    gridOf (modGrid s ld id f) ld id = some (f g) := by
  have hfound : (g.ld == ld && g.id == id) = true := List.find?_some (p := fun g : Grid => g.ld == ld && g.id == id) hg
  rw [gridOf_modGrid hname, hg, Option.map_some, if_pos hfound]

/-- The failure that a grid keeps for its record, where the grid is there. -/
def failOf (s : State) (ld id : Nat) : Option (Option (Nat × Nat × Nat × Nat × Nat × DWord)) := (gridOf s ld id).map Grid.fail

theorem failOf_modGrid (hname : ∀ g, ((f g).ld, (f g).id) = (g.ld, g.id)) (hfail : ∀ g, (f g).fail = g.fail) (ld' id' : Nat) :
    failOf (modGrid s ld id f) ld' id' = failOf s ld' id' := by
  rw [failOf, gridOf_modGrid hname, Option.map_map, failOf]
  congr 1
  funext g
  rw [Function.comp_apply]
  split
  · exact hfail g
  · rfl

end modGrid

/-! What a failing grid does to its teams. -/

theorem teams_addEnds (s : State) (t : TeamRef) (ids : List Nat) : (addEnds s t ids).teams = s.teams := by
  unfold addEnds
  split <;> rfl

theorem failOf_addEnds (s : State) (t : TeamRef) (ids : List Nat) (ld id : Nat) : failOf (addEnds s t ids) ld id = failOf s ld id := by
  unfold addEnds
  split
  · rfl
  · rw [failOf_modGrid (fun _ => by rfl) (fun _ => by rfl)]

theorem teams_keepFlags (s : State) (p : Team → Bool) : (keepFlags s p).teams = s.teams := by
  refine foldl_keeps State.teams (fun s t => ?_) _ s
  rw [teams_addEnds, modGrid_teams]

theorem failOf_keepFlags (s : State) (p : Team → Bool) (ld id : Nat) : failOf (keepFlags s p) ld id = failOf s ld id := by
  refine foldl_keeps (failOf · ld id) (fun s t => ?_) _ s
  rw [failOf_addEnds, failOf_modGrid (fun _ => by rfl) (fun _ => by rfl)]

/-- Teams that stop are gone; the others and the grids are what they were. -/
theorem census_removeTeams (s : State) (p : Team → Bool) : census (removeTeams s p) = (s.teams.filter fun t => !p t, s.grids) :=
  census_bury _

theorem teams_removeTeams (s : State) (p : Team → Bool) : (removeTeams s p).teams = s.teams.filter fun t => !p t :=
  congrArg Prod.fst (census_removeTeams s p)

theorem grids_removeTeams (s : State) (p : Team → Bool) : (removeTeams s p).grids = s.grids :=
  congrArg Prod.snd (census_removeTeams s p)

theorem failOf_removeTeams (s : State) (p : Team → Bool) (ld id : Nat) : failOf (removeTeams s p) ld id = failOf s ld id := by
  rw [failOf, gridOf, grids_removeTeams]
  rfl

/-- The teams of a grid. -/
def ofGrid (ld id : Nat) (t : Team) : Bool := t.r.ld == ld && t.r.grid == id

/-- A failing grid is marked once its teams have stopped; its gangs are gone. -/
theorem failGrid_eq (s : State) (ld id : Nat) (x : Nat × Nat × Nat × Nat × Nat × DWord) :
    ∃ ks, failGrid s ld id x = modGrid { removeTeams (keepFlags s (ofGrid ld id)) (ofGrid ld id) with gangs := ks } ld id
      fun g => { g with fail := some (g.fail.getD x) } := ⟨_, rfl⟩

/-- A grid that has not failed fails with what `failGrid` is given, and none of its teams is left (R432). -/
theorem gridFails_failGrid {s : State} {ld id : Nat} {gr : Grid} (hgr : gridOf s ld id = some gr) (hfail : gr.fail = none)
    (status cause detail team : Nat) (a : DWord) :
    GridFails (failGrid s ld id (status, cause, detail, 0, team, a)) ld id status cause detail team a := by
  obtain ⟨ks, heq⟩ := failGrid_eq s ld id (status, cause, detail, 0, team, a)
  rw [heq]
  constructor
  · have hnone : failOf (removeTeams (keepFlags s (ofGrid ld id)) (ofGrid ld id)) ld id = some none := by
      rw [failOf_removeTeams, failOf_keepFlags, failOf, hgr, Option.map_some, hfail]
    obtain ⟨g, hg, hgfail⟩ := Option.map_eq_some_iff.1 hnone
    refine ⟨_, gridOf_modGrid_same (fun _ => by rfl) hg, ?_⟩
    simp only [hgfail, Option.getD_none]
  · intro u hu hld hgrid
    rw [modGrid_teams, teams_removeTeams] at hu
    have hout := (List.mem_filter.1 hu).2
    simp [ofGrid, hld, hgrid] at hout

/-! The places where a cause is taken (R426, R431). -/

section taken
variable {s : State} {r : GroupRef} {t : Team} {g : Group} {x : Trap}

theorem enterTrap_of_zero (ht : teamOf s r.team = some t) (hg : groupOf s r = some g) (hpc : qbWord s r.team.ld 0x260 = 0) :
    enterTrap s r x = failGrid s r.team.ld r.team.grid (0x08, x.cause, x.detail % 256, 0, r.team.team, x.pc) := by
  simp only [enterTrap, ht, hg, hpc, if_true]

/-- A trap that waited for far results is taken once none is outstanding. -/
theorem takePending_of (hg : groupOf s r = some g) (hpend : g.pendTrap = some x) (hfar : awaitsFar g = false) :
    takePending s r = enterTrap s r x := by
  simp [takePending, hg, hpend, hfar]

/-- The trap of the highest-ranked parked entry is raised where none is held and no handler runs. -/
theorem raiseParked_of (hg : groupOf s r = some g) (hhandler : g.handler = none) (hpend : g.pendTrap = none)
    (htop : (topEntry (g.frontier.filter fun e => (parkTrap e).isSome)).bind parkTrap = some x) :
    raiseParked s r = raiseTrap s r x := by
  simp [raiseParked, hg, hhandler, hpend, htop]

end taken

/-- Settles O52: the three places where a cause is taken enter the trap, and without a handler that fails the grid. -/
theorem noHandler : Obligations.NoHandler := by
  unfold Obligations.NoHandler
  intro s r t g gr x ht hg hgr hfail hhandler hfar hpc fails
  have henter : fails (enterTrap s r x) := by
    rw [enterTrap_of_zero ht hg hpc]
    exact gridFails_failGrid hgr hfail ..
  have hraise : g.pendTrap = none → fails (raiseTrap s r x) := fun hpend => by
    rwa [raiseTrap_of x hg hhandler hpend hfar]
  refine ⟨hraise, fun hpend => ?_, fun hpend htop => ?_⟩
  · rwa [takePending_of hg hpend hfar]
  · rw [raiseParked_of hg hhandler hpend htop]
    exact hraise hpend

end Sys2Proof.Machine
end

section
/-! PROOFS. The instruction word (spec/07_instruction_format.md R174, R177, R178, R190 to R192 and the encoding tables of the class
chapters): what the decoder reads in the fields that the encoder writes, class of opcodes by class, and that a decoded instruction fits
the word it was decoded from. -/

set_option Elab.async false

namespace Sys2Proof

/-! Fields of concatenations. -/

section fields
variable {v w i k : Nat} {x : BitVec v} {y : BitVec w}

theorem field_lo (h : i + k ≤ w) : (x ++ y).extractLsb' i k = y.extractLsb' i k := BitVec.extractLsb'_append_eq_of_add_le h

theorem field_hi (h : w ≤ i) : (x ++ y).extractLsb' i k = x.extractLsb' (i - w) k := BitVec.extractLsb'_append_eq_of_le h

theorem bit_lo (h : i < w) : (x ++ y).getLsbD i = y.getLsbD i := by
  simp [BitVec.getLsbD_append, h]

theorem bit_hi (h : w ≤ i) : (x ++ y).getLsbD i = x.getLsbD (i - w) := by
  simp [BitVec.getLsbD_append, Nat.not_lt.2 h]

end fields

theorem getLsbD_ofBool_zero (b : Bool) : (BitVec.ofBool b).getLsbD 0 = b := by
  cases b <;> rfl

theorem ofBool_getLsbD {n : Nat} (w : BitVec n) (i : Nat) : BitVec.ofBool (w.getLsbD i) = w.extractLsb' i 1 := by
  ext j hj
  simp [show j = 0 by omega]

@[simp] theorem Opnd.ofBits_bits (o : Opnd) : Opnd.ofBits o.bits = o := by
  cases o <;> simp (disch := omega) only [Opnd.bits, Opnd.ofBits, field_hi,
    field_lo, Nat.reduceSub, BitVec.extractLsb'_eq_self] <;> simp

/-! The fields of a word (R174). -/

theorem Raw.ofWord_toWord (r : Raw) : Raw.ofWord r.toWord = r := by
  obtain ⟨opc, md, d, a, b, imm, gp, neg, sw, lr, yh, dly, top⟩ := r
  simp (disch := omega) only [Raw.ofWord, Raw.toWord, BitVec.cast_eq, field_hi,
    field_lo, Nat.reduceSub, BitVec.extractLsb'_eq_self, bit_lo, bit_hi, getLsbD_ofBool_zero]

theorem Raw.toWord_ofWord (w : InsWord) : (Raw.ofWord w).toWord = w := by
  simp only [Raw.ofWord, Raw.toWord, ofBool_getLsbD, BitVec.extractLsb'_append_extractLsb'_eq_extractLsb', BitVec.cast_eq,
    BitVec.extractLsb'_eq_self]

/-! Codes of enumerations. -/

theorem Ty.of_code (t : Ty) : Ty.of t.code = some t := by cases t <;> rfl
theorem Rnd.of_code (x : Rnd) : Rnd.of x.code = some x := by cases x <;> rfl
theorem FCond.of_code (x : FCond) : FCond.of x.code = some x := by cases x <;> rfl
theorem MovW.of_code (x : MovW) : MovW.of x.code = some x := by cases x <;> rfl
theorem PsetOp.of_code (x : PsetOp) : PsetOp.of x.code = some x := by cases x <;> rfl
theorem Special.of_code (x : Special) : Special.of x.code = some x := by cases x <;> rfl
theorem PartSz.of_code (x : PartSz) : PartSz.of x.code = some x := by cases x <;> rfl
theorem VoteMode.of_code (x : VoteMode) : VoteMode.of x.code = some x := by cases x <;> rfl
theorem ShflMode.of_code (x : ShflMode) : ShflMode.of x.code = some x := by cases x <;> rfl
theorem RedOp.of_code (x : RedOp) : RedOp.of x.code = some x := by cases x <;> rfl
theorem Sz.of_code (x : Sz) : Sz.of x.code = some x := by cases x <;> rfl
theorem Fe.of_code (x : Fe) : Fe.of x.code = some x := by cases x <;> rfl
theorem Tf.of_code (x : Tf) : Tf.of x.code = some x := by cases x <;> rfl
theorem FragKind.of_code (x : FragKind) : FragKind.of x.code = some x := by cases x <;> rfl
theorem Buf.of_code (x : Buf) : Buf.of x.code = some x := by cases x <;> rfl
theorem Scope.of_code (x : Scope) : Scope.of x.code = some x := by cases x <;> rfl
theorem Ord.of_code (x : Ord) : Ord.of x.code = some x := by cases x <;> rfl
theorem AtomOp.of_code (x : AtomOp) : AtomOp.of x.code = some x := by cases x <;> rfl
theorem MKind.of_code (x : MKind) : MKind.of x.code = some x := by cases x <;> rfl
theorem LstatSel.of_code (x : LstatSel) : LstatSel.of x.code = some x := by cases x <;> rfl

/-! Fields of the words that the encoder builds. -/

section
variable (opc md : BitVec 8) (h : Hdr) (d a b : BitVec 10) (o : Opnd) (e : BitVec 22) (t : BitVec 10) (imm : BitVec 32)

theorem h_mk : (mk opc md h d a b imm).h = h := rfl

theorem oD_mk : (mk opc md h o.bits a b imm).oD = o := o.ofBits_bits

theorem oA_mk : (mk opc md h d o.bits b imm).oA = o := o.ofBits_bits

theorem oB_mk : (mk opc md h d a o.bits imm).oB = o := o.ofBits_bits

theorem immT_lo : (immT e t).extractLsb' 0 10 = t := by
  simp (disch := omega) only [immT, field_lo, BitVec.extractLsb'_eq_self]

theorem immT_hi : (immT e t).extractLsb' 10 22 = e := by
  simp (disch := omega) only [immT, field_hi, BitVec.extractLsb'_eq_self, Nat.reduceSub]

theorem ext_mk : (mk opc md h d a b (immT e t)).ext = e := immT_hi e t

theorem oT_mk : (mk opc md h d a b (immT e o.bits)).oT = o := by
  rw [Raw.oT, Raw.tbits, mk, immT_lo, Opnd.ofBits_bits]

theorem md_mk : (mk opc md h d a b imm).md = md := rfl

theorem opc_mk : (mk opc md h d a b imm).opc = opc := rfl

theorem imm_mk : (mk opc md h d a b imm).imm = imm := rfl
end
/-! The shapes that several opcodes share. -/

theorem iUn_enc (opc : BitVec 8) (x : IUn) : (encIUn opc x).iUn = some x := by
  simp (disch := omega) only [Raw.iUn, encIUn, h_mk, oD_mk, oA_mk, Raw.m03, Raw.mb, md_mk, modInt,  field_hi,
    field_lo, Nat.reduceSub, BitVec.extractLsb'_eq_self, Ty.of_code, bit_lo, bit_hi, getLsbD_ofBool_zero, Option.map_some]

theorem addr_of_fields {r : Raw} {a : Addr} (ham : r.md.extractLsb' 5 2 = a.am) (himm : r.imm = a.imm) : r.addr = some a := by
  cases a with
  | off o => simp [Raw.addr, ham, himm, Addr.am, Addr.imm]
  | post o => simp [Raw.addr, ham, himm, Addr.am, Addr.imm]
  | modulo t o => simp [Raw.addr, ham, himm, Addr.am, Addr.imm, Raw.oT, Raw.tbits, Raw.ext, immT_lo, immT_hi]

theorem immT_bit (e : BitVec 22) (t : BitVec 10) : (immT e t).getLsbD 10 = e.getLsbD 0 := by
  simp (disch := omega) only [immT, bit_hi, Nat.reduceSub]

theorem immT_sub (e : BitVec 22) (t : BitVec 10) {k : Nat} (h : k ≤ 10) : (immT e t).extractLsb' 0 k = t.extractLsb' 0 k := by
  simp (disch := omega) only [immT, field_lo]

theorem iBin_enc (opc : BitVec 8) (x : IBin) : (encIBin opc x).iBin = some x := by
  simp (disch := omega) only [Raw.iBin, encIBin, h_mk, oD_mk, oA_mk, oB_mk, Raw.m03, Raw.mb, md_mk, modInt, field_lo, field_hi,
    Nat.reduceSub, BitVec.extractLsb'_eq_self, Ty.of_code, bit_lo, bit_hi, getLsbD_ofBool_zero, Option.map_some]

theorem iTern_enc (opc : BitVec 8) (x : ITern) : (encITern opc x).iTern = some x := by
  simp (disch := omega) only [Raw.iTern, encITern, h_mk, oD_mk, oA_mk, oB_mk, oT_mk, Raw.m03, Raw.mb, md_mk, modInt, field_lo, field_hi,
    Nat.reduceSub, BitVec.extractLsb'_eq_self, Ty.of_code, bit_lo, bit_hi, getLsbD_ofBool_zero, Option.map_some]

theorem fUn_enc (opc : BitVec 8) (x : FUn) : (encFUn opc x).fUn = some x := by
  simp (disch := omega) only [Raw.fUn, encFUn, h_mk, oD_mk, oA_mk, Raw.m03, md_mk, modFlt, field_lo, field_hi,
    Nat.reduceSub, BitVec.extractLsb'_eq_self, Rnd.of_code, Ty.of_code, Option.map_some, Option.bind_some]

theorem fBin_enc (opc : BitVec 8) (x : FBin) : (encFBin opc x).fBin = some x := by
  simp (disch := omega) only [Raw.fBin, encFBin, h_mk, oD_mk, oA_mk, oB_mk, Raw.m03, md_mk, modFlt, field_lo, field_hi,
    Nat.reduceSub, BitVec.extractLsb'_eq_self, Rnd.of_code, Ty.of_code, Option.map_some, Option.bind_some]

theorem fTern_enc (opc : BitVec 8) (x : FTern) : (encFTern opc x).fTern = some x := by
  simp (disch := omega) only [Raw.fTern, encFTern, h_mk, oD_mk, oA_mk, oB_mk, oT_mk, Raw.m03, md_mk, modFlt, field_lo, field_hi,
    Nat.reduceSub, BitVec.extractLsb'_eq_self, Rnd.of_code, Ty.of_code, Option.map_some, Option.bind_some]

theorem ld_enc (opc : BitVec 8) (x : LdA) : (encLd opc x).ld = some x := by
  have haddr : (encLd opc x).addr = some x.addr := addr_of_fields (by
    simp (disch := omega) only [encLd, md_mk, field_lo, field_hi, Nat.reduceSub, BitVec.extractLsb'_eq_self]) rfl
  rw [Raw.ld, haddr]
  simp (disch := omega) only [encLd, h_mk, oD_mk, oA_mk, Raw.m34, Raw.m02, Raw.mb, md_mk, field_lo, field_hi, Nat.reduceSub,
    BitVec.extractLsb'_eq_self, Fe.of_code, Sz.of_code, bit_hi, getLsbD_ofBool_zero, Option.map_some, Option.bind_some]

theorem st_enc (opc : BitVec 8) (x : StA) : (encSt opc x).st = some x := by
  have haddr : (encSt opc x).addr = some x.addr := addr_of_fields (by
    simp (disch := omega) only [encSt, md_mk, field_lo, field_hi, Nat.reduceSub, BitVec.extractLsb'_eq_self]) rfl
  rw [Raw.st, haddr]
  simp (disch := omega) only [encSt, h_mk, oD_mk, oA_mk, oB_mk, Raw.m34, Raw.m02, Raw.mb, md_mk, field_lo, field_hi, Nat.reduceSub,
    BitVec.extractLsb'_eq_self, Tf.of_code, Sz.of_code, bit_hi, getLsbD_ofBool_zero, Option.map_some, Option.bind_some]

theorem bar_enc (opc : BitVec 8) (x : BarA) : (encBar opc x).bar = some x := by
  simp (disch := omega) only [Raw.bar, encBar, h_mk, oA_mk, oB_mk, md_mk, imm_mk, field_lo, BitVec.extractLsb'_eq_self, if_true]

theorem fes_enc (opc : BitVec 8) (x : FesA) : (encFes opc x).fes = x := by
  simp (disch := omega) only [Raw.fes, encFes, h_mk, oA_mk, oB_mk, Raw.mb, md_mk, imm_mk, Nat.reduceSub, bit_lo, bit_hi,
    getLsbD_ofBool_zero]

theorem scopeOrd_mk (opc : BitVec 8) (h : Hdr) (d a b : BitVec 10) (imm : BitVec 32) (sc : Scope) (o : Ord)
    (sz : Sz) : (mk opc (modFar sc o sz) h d a b imm).scopeOrd = some (sc, o, sz) := by
  simp (disch := omega) only [Raw.scopeOrd, md_mk, modFar, Raw.m34, Raw.m02, field_lo, field_hi, Nat.reduceSub,
    BitVec.extractLsb'_eq_self, Scope.of_code, Ord.of_code, Sz.of_code, Option.map_some, Option.bind_some]

theorem opc_enc (opc : BitVec 8) :
    (∀ x, (encIUn opc x).opc = opc) ∧ (∀ x, (encIBin opc x).opc = opc) ∧ (∀ x, (encITern opc x).opc = opc) ∧
    (∀ x, (encFUn opc x).opc = opc) ∧ (∀ x, (encFBin opc x).opc = opc) ∧ (∀ x, (encFTern opc x).opc = opc) ∧
    (∀ x, (encLd opc x).opc = opc) ∧ (∀ x, (encSt opc x).opc = opc) ∧ (∀ x, (encBar opc x).opc = opc) ∧
    ∀ x, (encFes opc x).opc = opc := by
  refine ⟨?_, ?_, ?_, ?_, ?_, ?_, ?_, ?_, ?_, ?_⟩ <;> exact fun _ => rfl

/-! Each class of the decoder gives back what the encoder was given; an opcode of another class lies outside the class's range. -/

theorem not_lt_of_ble {m n : Nat} (h : Nat.ble m n = true) : ¬ n < m := Nat.not_lt.2 (Nat.le_of_ble_eq_true h)

theorem not_le_of_ble {m n : Nat} (h : Nat.ble (n + 1) m = true) : ¬ m ≤ n := Nat.not_le.2 (Nat.le_of_ble_eq_true h)

theorem not_between {lo hi n : Nat} (h : (Nat.ble lo n && Nat.blt n hi) = false) : ¬ (lo ≤ n ∧ n < hi) := by
  rintro ⟨hlo, hhi⟩
  rw [Nat.ble_eq_true_of_le hlo, Nat.blt, Nat.ble_eq_true_of_le hhi] at h
  exact Bool.noConfusion h

theorem cls_ne_zero (o : Opnd) : o.cls ≠ .zero := by
  cases o with
  | sp sel idx => simp only [Opnd.cls]; split_ifs <;> simp
  | v n => simp [Opnd.cls]
  | g n => simp [Opnd.cls]
  | im w => simp [Opnd.cls]

theorem buildInt_enc {i : Instr} {e : Raw} (he : encRaw i = some e) (hhi : e.opc.toNat < 0x20) :
    buildInt e = some i := by
  cases i <;> cases he
  case iadd x | isub x | imul x | imulh x | imin x | imax x | and x | or x | xor x | andn x | shl x | shr x | sar x | rol x | bfx x |
    icmp x | lea x => simp only [buildInt, opc_enc, BitVec.reduceToNat, iBin_enc, Option.map_some]
  case imad x | bfi x | iaddx x => simp only [buildInt, opc_enc, BitVec.reduceToNat, iTern_enc, Option.map_some]
  case iabs x | ineg x | not x | popc x | clz x | brev x => simp only [buildInt, opc_enc, BitVec.reduceToNat, iUn_enc, Option.map_some]
  case bsel x =>
    simp (disch := omega) only [buildInt, opc_mk, BitVec.reduceToNat, Raw.iBsel, modInt, Raw.m03, Raw.mb, Ty.of_code, h_mk, oD_mk, oA_mk,
      oB_mk, md_mk, imm_mk, field_lo, field_hi, Nat.reduceSub, BitVec.extractLsb'_eq_self, bit_lo, bit_hi, getLsbD_ofBool_zero,
      Option.map_some]
  all_goals exact absurd hhi (not_lt_of_ble rfl)

theorem buildFloat_enc {i : Instr} {e : Raw} (he : encRaw i = some e) (hlo : 0x20 ≤ e.opc.toNat) (hhi : e.opc.toNat < 0x40) :
    buildFloat e = some i := by
  cases i <;> cases he
  case fadd x | fsub x | fmul x | fmin x | fmax x | fscale x | padd2 x | pmul2 x | lsemrg x => simp only [buildFloat, opc_enc,
    BitVec.reduceToNat, fBin_enc, Option.map_some]
  case ffma x | pfma2 x => simp only [buildFloat, opc_enc, BitVec.reduceToNat, fTern_enc, Option.map_some]
  case frcp x | frsq x | fsqrt x | fex2 x | flg2 x | fsin x | fcos x => simp only [buildFloat, opc_enc, BitVec.reduceToNat, fUn_enc,
    Option.map_some]
  case fcmp x | fclass x | cvt x =>
    simp (disch := omega) only [buildFloat, opc_mk, BitVec.reduceToNat, Raw.fCmp, Raw.fClass, Raw.cvt, modFlt, Raw.m03, Raw.m47, Raw.mb,
      Rnd.of_code, FCond.of_code, Ty.of_code, h_mk, oD_mk, oA_mk, oB_mk, md_mk, imm_mk, field_lo, field_hi, Nat.reduceSub,
      BitVec.extractLsb'_eq_self, bit_hi, getLsbD_ofBool_zero, Option.map_some, Option.bind_some]
  all_goals exact absurd (And.intro hlo hhi) (not_between rfl)

theorem buildMove_enc {i : Instr} {e : Raw} (he : encRaw i = some e) (hlo : 0x40 ≤ e.opc.toNat) (hhi : e.opc.toNat < 0x50)
    (hwf : WellFormed i = true) :
    buildMove e = some i := by
  cases i <;> cases he
  case modset x =>
    obtain ⟨h, raw, d, a, b⟩ := x
    have hb : raw = true → b = .v 0 := fun hraw => by
      have := Machine.wf_class hwf (aB b [.zero] 1) (by simp [args, hraw])
      simpa [Arg.classOk, aB, cls_ne_zero] using this
    simp (disch := omega) only [buildMove, opc_mk, BitVec.reduceToNat, modBit, Raw.mb, h_mk, oD_mk, oA_mk, oB_mk, md_mk, bit_lo,
      getLsbD_ofBool_zero]
    split <;> simp_all
  case mov x | movi x | sel x | pset x | pmovTov x | pmovFromv x | sread x | bndset x =>
    simp (disch := omega) only [buildMove, opc_mk, BitVec.reduceToNat, reduceIte, Raw.m01, Raw.mb, modBit, MovW.of_code, PsetOp.of_code,
      Special.of_code, h_mk, oD_mk, oA_mk, oB_mk, oT_mk, md_mk, imm_mk, field_lo, Nat.reduceSub, BitVec.extractLsb'_eq_self, bit_lo,
      bit_hi, getLsbD_ofBool_zero, Option.map_some, BitVec.reduceGetLsb, Bool.false_eq_true]
  all_goals exact absurd (And.intro hlo hhi) (not_between rfl)

theorem buildControl_enc {i : Instr} {e : Raw} (he : encRaw i = some e) (hlo : 0x50 ≤ e.opc.toNat) (hhi : e.opc.toNat < 0x60) :
    buildControl e = some i := by
  cases i <;> cases he
  case bra x | brx x | call x | callx x | ret x | exit x | rcv x | yield x | sleep x =>
    simp (disch := omega) only [buildControl, opc_mk, BitVec.reduceToNat, reduceIte, encPlain, Raw.zeroMod, h_mk, oD_mk, oA_mk, md_mk,
      imm_mk, field_lo, field_hi, Nat.reduceSub, BitVec.extractLsb'_eq_self]
  all_goals exact absurd (And.intro hlo hhi) (not_between rfl)

theorem buildColl_enc {i : Instr} {e : Raw} (he : encRaw i = some e) (hlo : 0x60 ≤ e.opc.toNat) (hhi : e.opc.toNat < 0x70) :
    buildColl e = some i := by
  cases i <;> cases he
  case bara x | barw x | bars x => simp only [buildColl, opc_enc, BitVec.reduceToNat, bar_enc, Option.map_some]
  case part x | vote x | shfl x | reduce x | scan x | bcast x | tbar x | gbar x =>
    simp (disch := omega) only [buildColl, opc_mk, BitVec.reduceToNat, reduceIte, encPlain, Raw.m01, Raw.m03, Raw.m47, Raw.mb, modBit,
      PartSz.of_code, VoteMode.of_code, ShflMode.of_code, RedOp.of_code, Ty.of_code, MovW.of_code, h_mk, oD_mk, oA_mk, oB_mk, oT_mk, md_mk,
      imm_mk, field_lo, field_hi, Nat.reduceSub, BitVec.extractLsb'_eq_self, bit_lo, getLsbD_ofBool_zero, Option.map_some,
      Option.bind_some, BitVec.reduceGetLsb, Bool.false_eq_true, immT_bit]
  all_goals exact absurd (And.intro hlo hhi) (not_between rfl)

theorem buildBuf_enc {i : Instr} {e : Raw} (he : encRaw i = some e) (hlo : 0x70 ≤ e.opc.toNat) (hhi : e.opc.toNat < 0x80) :
    buildBuf e = some i := by
  cases i <;> cases he
  case ldw x | lda x | ldc x => simp only [buildBuf, opc_enc, BitVec.reduceToNat, ld_enc, Option.map_some]
  case sta x | stc x | acc x => simp only [buildBuf, opc_enc, BitVec.reduceToNat, st_enc, Option.map_some]
  case feset x | feclr x => simp only [buildBuf, opc_enc, BitVec.reduceToNat, fes_enc]
  case ldfrag x | stfrag x | feprobe x | lds x | sts x =>
    simp (disch := omega) only [buildBuf, opc_mk, BitVec.reduceToNat, reduceIte, Raw.m34, Raw.m02, Raw.m01, Raw.mb, Buf.of_code,
      FragKind.of_code, Sz.of_code, h_mk, oD_mk, oA_mk, oB_mk, oT_mk, md_mk, imm_mk, ext_mk, field_lo, field_hi, Nat.reduceSub,
      BitVec.extractLsb'_eq_self, bit_lo, bit_hi, getLsbD_ofBool_zero, Option.map_some, Option.bind_some, BitVec.reduceGetLsb,
      Bool.false_eq_true]
  all_goals exact absurd (And.intro hlo hhi) (not_between rfl)

theorem buildFar_enc {i : Instr} {e : Raw} (he : encRaw i = some e) (hlo : 0x80 ≤ e.opc.toNat) (hhi : e.opc.toNat < 0x90) :
    buildFar e = some i := by
  cases i <;> cases he
  case fld x | fst x | fatom x | fcas x | fence x =>
    simp (disch := omega) only [buildFar, opc_mk, BitVec.reduceToNat, reduceIte, encPlain, scopeOrd_mk, Tf.of_code, AtomOp.of_code, h_mk,
      oD_mk, oA_mk, oB_mk, oT_mk, imm_mk, ext_mk, field_lo, BitVec.extractLsb'_eq_self, Option.map_some, Option.bind_some, immT_sub]
  all_goals exact absurd (And.intro hlo hhi) (not_between rfl)

theorem buildMat_enc {i : Instr} {e : Raw} (he : encRaw i = some e) (hlo : 0x90 ≤ e.opc.toNat) (hhi : e.opc.toNat < 0xA0) :
    buildMat e = some i := by
  cases i <;> cases he
  case cbld x =>
    obtain ⟨h, few, bufA, a, off⟩ := x
    cases bufA <;> simp (disch := omega) only [buildMat, opc_mk, BitVec.reduceToNat, Raw.m34, Raw.mb, h_mk, oA_mk, md_mk, ext_mk, field_hi,
      Nat.reduceSub, bit_hi, getLsbD_ofBool_zero] <;> cases few <;> rfl
  case mma x | mmam x | scacc x | mdrain x | mdrainRaw x | mfill x | mfillRaw x =>
    simp (disch := omega) only [buildMat, opc_mk, BitVec.reduceToNat, reduceIte, Raw.mb, MKind.of_code, h_mk, oD_mk, oA_mk, oB_mk, oT_mk,
      md_mk, ext_mk, field_hi, Nat.reduceSub, BitVec.extractLsb'_eq_self, bit_lo, bit_hi, getLsbD_ofBool_zero, Option.map_some,
      BitVec.reduceGetLsb, Bool.false_eq_true]
  all_goals exact absurd (And.intro hlo hhi) (not_between rfl)

theorem buildEng_enc {i : Instr} {e : Raw} (he : encRaw i = some e) (hlo : 0xA0 ≤ e.opc.toNat) (hhi : e.opc.toNat < 0xB0)
    (hwf : WellFormed i = true) :
    buildEng e = some i := by
  cases i <;> cases he
  case creq x =>
    have haddr : (mk 0xA0 (0#1 ++ x.addr.am ++ 0#5) x.h 0 x.a.bits x.b.bits x.addr.imm).addr = some x.addr := addr_of_fields (by
      simp (disch := omega) only [md_mk, field_lo, field_hi, Nat.reduceSub, BitVec.extractLsb'_eq_self]) rfl
    simp only [buildEng, opc_mk, BitVec.reduceToNat, haddr, h_mk, oA_mk, oB_mk, Option.map_some]
  case kick x =>
    have haddr : (mk 0xA1 (0#1 ++ x.addr.am ++ 0#5) x.h 0 x.a.bits x.b.bits x.addr.imm).addr = some x.addr := addr_of_fields (by
      simp (disch := omega) only [md_mk, field_lo, field_hi, Nat.reduceSub, BitVec.extractLsb'_eq_self]) rfl
    simp only [buildEng, opc_mk, BitVec.reduceToNat, haddr, h_mk, oA_mk, oB_mk, Option.map_some]
    obtain ⟨h, a, b, addr⟩ := x
    cases addr <;> simp_all [WellFormed, canonical]
  case cseal x | cwait x | sbind x | sgo x | srel x | awaitObj x | awaitSlot x | astatObj x | astatSlot x | nbreq x | attq x | kvget x |
    kvput x | kvlnkSucc x | kvlnkTok x =>
    simp (disch := omega) only [buildEng, opc_mk, BitVec.reduceToNat, reduceIte, Raw.mb, Raw.zeroMod, h_mk, oD_mk, oA_mk, oB_mk, md_mk,
      imm_mk, field_lo, Nat.reduceSub, BitVec.extractLsb'_eq_self, bit_lo, bit_hi, getLsbD_ofBool_zero, BitVec.reduceGetLsb,
      Bool.false_eq_true, BitVec.reduceEq]
  all_goals exact absurd (And.intro hlo hhi) (not_between rfl)

theorem buildSys_enc {i : Instr} {e : Raw} (he : encRaw i = some e) (hlo : 0xB0 ≤ e.opc.toNat) (hwf : WellFormed i = true) :
    buildSys e = some i := by
  cases i <;> cases he
  case lstat x =>
    obtain ⟨h, sel, lad, d, rung⟩ := x
    have hr : ¬ (sel = .arr ∨ sel = .bin) → rung = 0 := by
      simp [WellFormed, canonical] at hwf
      grind
    simp (disch := omega) only [buildSys, opc_mk, BitVec.reduceToNat, Raw.m34, LstatSel.of_code, h_mk, oD_mk, md_mk, imm_mk, field_lo,
      field_hi, Nat.reduceSub, BitVec.extractLsb'_eq_self, Option.map_some]
    split <;> simp_all
  case tnode x =>
    obtain ⟨h, zero, a, b⟩ := x
    have hb : zero = true → b = .v 0 := by
      simp [WellFormed, canonical] at hwf
      grind
    simp (disch := omega) only [buildSys, opc_mk, BitVec.reduceToNat, Raw.mb, modBit, h_mk, oA_mk, oB_mk, md_mk, bit_lo,
      getLsbD_ofBool_zero]
    split <;> simp_all
  case lspawn x | lspawnClose x | lesc x | ldone x | syscall x | trap x | featq x | refresh x | bkpt x | nop x | eret x | eretSkip x |
    tset x | rswap x | rcopy x | rdrop x | rdropNode x | tinv x | ldreset x | diagstHbm x | diagstSram x | diagldHbm x |
    diagldSram x | swrite x | privrd x =>
    simp (disch := omega) only [buildSys, opc_mk, BitVec.reduceToNat, reduceIte, encPlain, encReg, Raw.m34, Raw.m02, Raw.m01, Raw.mb,
      Raw.tbits, Tf.of_code, Sz.of_code, h_mk, oD_mk, oA_mk, oB_mk, oT_mk, md_mk, imm_mk, field_lo, field_hi, Nat.reduceSub,
      BitVec.extractLsb'_eq_self, bit_lo, Option.map_some, Option.bind_some, BitVec.reduceGetLsb, Bool.false_eq_true, immT_sub]
  all_goals exact absurd hlo (not_le_of_ble rfl)

/-- The fields that the encoder builds for a well-formed instruction are those of that instruction. -/
theorem build_enc {i : Instr} {e : Raw} (he : encRaw i = some e) (hwf : WellFormed i = true) : build e = some i := by
  simp only [build]
  split_ifs with h1 h2 h3 h4 h5 h6 h7 h8 h9
  · exact buildInt_enc he h1
  · exact buildFloat_enc he (Nat.not_lt.1 h1) h2
  · exact buildMove_enc he (Nat.not_lt.1 h2) h3 hwf
  · exact buildControl_enc he (Nat.not_lt.1 h3) h4
  · exact buildColl_enc he (Nat.not_lt.1 h4) h5
  · exact buildBuf_enc he (Nat.not_lt.1 h5) h6
  · exact buildFar_enc he (Nat.not_lt.1 h6) h7
  · exact buildMat_enc he (Nat.not_lt.1 h7) h8
  · exact buildEng_enc he (Nat.not_lt.1 h8) h9 hwf
  · exact buildSys_enc he (Nat.not_lt.1 h9) hwf

theorem assigned_enc {i : Instr} {e : Raw} (he : encRaw i = some e) : assigned e.opc = true := by
  cases i <;> cases he <;> rfl

theorem isWord_enc {i : Instr} {e : Raw} (he : encRaw i = some e) : isWord i = true := by
  cases i <;> cases he <;> rfl

theorem enc_of_isWord {i : Instr} (h : isWord i = true) : ∃ e, encRaw i = some e := by
  cases i <;> cases h <;> exact ⟨_, rfl⟩

theorem privField_cases (n l : Nat) (b : Opnd) : privField n l b = none ∨ privField n l b = some 2 ∨ privField n l b = some 4 := by
  unfold privField
  split
  · exact .inl rfl
  · split_ifs <;> simp

theorem rsvErr_enc {i : Instr} {e : Raw} (he : encRaw i = some e) (hc : canonical i = true) : rsvErr e i = none := by
  have hp : privFieldOf i = none ∧ fsOver i = false := by
    cases i <;> simp_all [privFieldOf, fsOver, canonical]
  simp [rsvErr, he, hp]

/-! What the decoder builds fits the word. -/

/-- The encoder gives the instruction a word with the opcode, the guard and the scheduling fields of `r`. -/
def Fits (r : Raw) (i : Instr) : Prop := ∃ e, encRaw i = some e ∧ e.opc.toNat = r.opc.toNat ∧ e.h = r.h

/-- Every instruction that an option holds fits. -/
def AllFit (r : Raw) (o : Option Instr) : Prop := ∀ i, o = some i → Fits r i

section allFit
variable {r : Raw} {α : Type}

theorem allFit_none : AllFit r none := fun _ h => nomatch h

theorem allFit_some {i : Instr} : AllFit r (some i) ↔ Fits r i :=
  ⟨fun h => h i rfl, fun h j hj => Option.some.inj hj ▸ h⟩

theorem allFit_map {o : Option α} {f : α → Instr} : AllFit r (o.map f) ↔ ∀ x, o = some x → Fits r (f x) := by
  cases o <;> simp [allFit_none, allFit_some]

theorem allFit_bind {o : Option α} {f : α → Option Instr} : AllFit r (o.bind f) ↔ ∀ x, o = some x → AllFit r (f x) := by
  cases o <;> simp [allFit_none]

theorem allFit_ite {p : Prop} [Decidable p] {x y : Option Instr} : AllFit r (if p then x else y) ↔ (p → AllFit r x) ∧
    (¬p → AllFit r y) := by
  split <;> simp [*]

theorem allFit_some_ite {p : Prop} [Decidable p] {x y : Instr} :
    AllFit r (some (if p then x else y)) ↔ (p → Fits r x) ∧ (¬p → Fits r y) := by
  split <;> simp [allFit_some, *]
end allFit

theorem allFit_buildInt (r : Raw) : AllFit r (buildInt r) := by
  unfold buildInt
  split <;> rename_i hopc <;> simp [allFit_none, allFit_map, Fits, encRaw, hopc, encIBin, encIUn, encITern, opc_mk, h_mk, Raw.iBin,
    Raw.iUn, Raw.iTern, Raw.iBsel]

theorem allFit_buildFloat (r : Raw) : AllFit r (buildFloat r) := by
  unfold buildFloat
  split <;> rename_i hopc <;> simp [allFit_none, allFit_map, allFit_bind, Fits, encRaw, hopc, encFUn, encFBin, encFTern, opc_mk, h_mk,
    Raw.fUn, Raw.fBin, Raw.fTern, Raw.fCmp, Raw.fClass, Raw.cvt]

theorem allFit_buildMove (r : Raw) : AllFit r (buildMove r) := by
  unfold buildMove
  split <;> rename_i hopc <;> simp [allFit_none, allFit_some, allFit_map, allFit_ite, Fits, encRaw, hopc, opc_mk, h_mk]

theorem allFit_buildControl (r : Raw) : AllFit r (buildControl r) := by
  unfold buildControl
  split <;> rename_i hopc <;> simp [allFit_none, allFit_some, allFit_ite, Fits, encRaw, hopc, encPlain, opc_mk, h_mk, Raw.zeroMod]

theorem allFit_buildColl (r : Raw) : AllFit r (buildColl r) := by
  unfold buildColl
  split <;> rename_i hopc <;> simp [allFit_none, allFit_some, allFit_map, allFit_bind, allFit_ite, Fits, encRaw, hopc, encBar, encPlain,
    opc_mk, h_mk, Raw.bar]

theorem allFit_buildBuf (r : Raw) : AllFit r (buildBuf r) := by
  unfold buildBuf
  split <;> rename_i hopc <;> simp [allFit_none, allFit_some, allFit_map, allFit_bind, allFit_ite, Fits, encRaw, hopc, encLd, encSt,
    encFes, opc_mk, h_mk, Raw.ld, Raw.st, Raw.fes]

theorem allFit_buildFar (r : Raw) : AllFit r (buildFar r) := by
  unfold buildFar
  split <;> rename_i hopc <;> simp [allFit_none, allFit_some, allFit_map, allFit_bind, allFit_ite, Fits, encRaw, hopc, encPlain, opc_mk,
    h_mk]

theorem allFit_buildMat (r : Raw) : AllFit r (buildMat r) := by
  unfold buildMat
  split <;> rename_i hopc <;> simp [allFit_none, allFit_some, allFit_map, allFit_ite, Fits, encRaw, hopc, opc_mk, h_mk]

theorem allFit_buildEng (r : Raw) : AllFit r (buildEng r) := by
  unfold buildEng
  split <;> rename_i hopc <;> simp [allFit_none, allFit_some, allFit_map, allFit_ite, Fits, encRaw, hopc, opc_mk, h_mk, Raw.zeroMod]

theorem allFit_buildSys (r : Raw) : AllFit r (buildSys r) := by
  unfold buildSys
  split <;> rename_i hopc <;> simp [allFit_none, allFit_some, allFit_map, allFit_bind, allFit_ite, ↓allFit_some_ite, Fits, encRaw, hopc,
    encPlain, encReg, opc_mk, h_mk]

theorem allFit_build (r : Raw) : AllFit r (build r) := by
  simp only [build]
  split_ifs
  · exact allFit_buildInt r
  · exact allFit_buildFloat r
  · exact allFit_buildMove r
  · exact allFit_buildControl r
  · exact allFit_buildColl r
  · exact allFit_buildBuf r
  · exact allFit_buildFar r
  · exact allFit_buildMat r
  · exact allFit_buildEng r
  · exact allFit_buildSys r

/-- A decoded instruction holds zero in the fields that its form leaves zero. -/
theorem canonical_build {r : Raw} {i : Instr} (h : build r = some i) (hfs : fsOver i = false) (hp : privFieldOf i = none) :
    canonical i = true := by
  obtain ⟨e, he, hopc, -⟩ := allFit_build r i h
  cases i <;> cases he
  case kick x =>
    rw [opc_mk] at hopc
    simp only [build, ← hopc, BitVec.reduceToNat, Nat.reduceLT, reduceIte, buildEng, Option.map_eq_some_iff, Instr.kick.injEq] at h
    obtain ⟨ad, -, rfl⟩ := h
    cases ad <;> rfl
  case lstat x =>
    rw [opc_mk] at hopc
    simp only [build, ← hopc, BitVec.reduceToNat, Nat.reduceLT, reduceIte, buildSys, Option.map_eq_some_iff, Instr.lstat.injEq] at h
    obtain ⟨sel, -, rfl⟩ := h
    cases sel <;> rfl
  case tnode x =>
    rw [opc_mk] at hopc
    simp only [build, ← hopc, BitVec.reduceToNat, Nat.reduceLT, reduceIte, buildSys, Option.some.injEq, Instr.tnode.injEq] at h
    obtain rfl := h
    simp only [canonical]
    split <;> simp [*]
  case call x => simpa [fsOver, canonical] using hfs
  case callx x => simpa [fsOver, canonical] using hfs
  case swrite x => simpa [privFieldOf, canonical] using hp
  case privrd x => simpa [privFieldOf, canonical] using hp
  all_goals rfl

/-- Nothing reserved is set: every field is the one that the encoder writes. -/
theorem rsvErr_none {r e : Raw} {i : Instr} (he : encRaw i = some e) (h : rsvErr r i = none) :
    r.d = e.d ∧ r.a = e.a ∧ r.b = e.b ∧ r.imm.extractLsb' 0 10 = e.imm.extractLsb' 0 10 ∧
      r.imm.extractLsb' 10 22 = e.imm.extractLsb' 10 22 ∧
      r.md = e.md ∧ r.top = e.top ∧ fsOver i = false ∧ privFieldOf i = none := by
  have hp : privFieldOf i = none ∨ privFieldOf i = some 2 ∨ privFieldOf i = some 4 := by
    cases i <;> simp [privFieldOf, privField_cases]
  simp only [rsvErr, he] at h
  split_ifs at h
  simp_all

theorem imm_eq {x y : BitVec 32} (hlo : x.extractLsb' 0 10 = y.extractLsb' 0 10) (hhi : x.extractLsb' 10 22 = y.extractLsb' 10 22) :
    x = y := by
  have hsplit (z : BitVec 32) : (z.extractLsb' 10 22 ++ z.extractLsb' 0 10 : BitVec 32) = z :=
    (BitVec.extractLsb'_append_extractLsb'_eq_extractLsb' (show 10 = 0 + 10 from rfl)).trans BitVec.extractLsb'_eq_self
  rw [← hsplit x, ← hsplit y, hlo, hhi]

theorem Raw.eq_of_fields {r e : Raw} (hopc : e.opc = r.opc) (hh : e.h = r.h) (hd : r.d = e.d) (ha : r.a = e.a) (hb : r.b = e.b)
    (hlo : r.imm.extractLsb' 0 10 = e.imm.extractLsb' 0 10) (hhi : r.imm.extractLsb' 10 22 = e.imm.extractLsb' 10 22)
    (hmd : r.md = e.md) (htop : r.top = e.top) : e = r := by
  have himm := imm_eq hlo hhi
  cases r; cases e
  simp_all [Raw.h]

/-- What the decoder has checked of a word it accepts. -/
theorem decodeWord_ok_iff {w : InsWord} {i : Instr} : decodeWord w = .ok i ↔
    assigned (Raw.ofWord w).opc = true ∧ build (Raw.ofWord w) = some i ∧ modOk i = true ∧ guardOk i = true ∧
      rsvErr (Raw.ofWord w) i = none ∧ classErr i = none ∧ alignErr i = none := by
  have hlevel (j : Instr) : privErr .mgmt j = false := rfl
  simp only [decodeWord, decodeAt]
  constructor
  · intro h
    split at h
    · cases h
    split at h
    · cases h
    rename_i j hj
    simp only [hlevel] at h
    split_ifs at h
    repeat' (split at h)
    all_goals cases h
    simp_all
  · rintro ⟨h1, h2, h3, h4, h5, h6, h7⟩
    simp [h1, h2, h3, h4, h5, h6, h7, hlevel]

theorem wellFormed_iff {i : Instr} : WellFormed i = true ↔
    isWord i = true ∧ modOk i = true ∧ guardOk i = true ∧ canonical i = true ∧ classErr i = none ∧ alignErr i = none := by
  simp [WellFormed, and_assoc]

/-- Settles O54: the encoder's fields build the instruction again, and none of the decoder's checks fails on them. -/
theorem encodeThenDecode : Obligations.EncodeThenDecode := by
  unfold Obligations.EncodeThenDecode
  intro i hwf
  obtain ⟨hword, hmod, hguard, hcan, hclass, halign⟩ := wellFormed_iff.1 hwf
  obtain ⟨e, he⟩ := enc_of_isWord hword
  refine ⟨e.toWord, by rw [encode, he]; rfl, decodeWord_ok_iff.2 ?_⟩
  rw [Raw.ofWord_toWord]
  exact ⟨assigned_enc he, build_enc he hwf, hmod, hguard, rsvErr_enc he hcan, hclass, halign⟩

/-- Settles O55: the decoder compares every field of the word with the encoding of what it built. -/
theorem decodeThenEncode : Obligations.DecodeThenEncode := by
  unfold Obligations.DecodeThenEncode
  intro w i h
  obtain ⟨-, hbuild, hmod, hguard, hrsv, hclass, halign⟩ := decodeWord_ok_iff.1 h
  obtain ⟨e, he, hopc, hh⟩ := allFit_build _ i hbuild
  obtain ⟨hd, ha, hb, hlo, hhi, hmd, htop, hfs, hp⟩ := rsvErr_none he hrsv
  refine ⟨wellFormed_iff.2 ⟨isWord_enc he, hmod, hguard, canonical_build hbuild hfs hp, hclass, halign⟩, ?_⟩
  have heq := Raw.eq_of_fields (BitVec.eq_of_toNat_eq hopc) hh hd ha hb hlo hhi hmd htop
  rw [encode, he, heq, Option.map_some, Raw.toWord_ofWord]

end Sys2Proof
end

section
/-! PROOFS. What the package keeps through every step: memory in its canonical form, and its sixteen whole devices. -/

set_option Elab.async false

namespace Sys2Proof.Machine

/-- What every step keeps. -/
inductive Keep where
  | memory
  | devices

/-- The tables of a logical device have their lengths. -/
def Whole (d : LDev) : Prop := d.slots.length = 64 ∧ d.retired.length = 256 ∧ d.queues.length = 9

/-- Memory has its canonical form; the sixteen devices are whole. -/
def Sound : Keep → State → Prop
  | .memory, s => Memory.wf s.mem = true
  | .devices, s => ∀ i < 16, i < s.lds.length ∧ Whole (ldOf s i)

/-- A property of the value, where there is one. -/
def OptionAll {α : Type} (P : α → Prop) : Option α → Prop
  | some x => P x
  | none => True

/-- A property of the error, or of the value. -/
def ExceptAll {ε α : Type} (E : ε → Prop) (P : α → Prop) : Except ε α → Prop
  | .ok x => P x
  | .error e => E e

/-- The next state, where there is one. -/
def SoundOut (k : Keep) : Host.Outcome State Fault Refusal → Prop
  | .next s => Sound k s
  | _ => True
def SoundRes (k : Keep) : Res → Prop
  | .trapIn s _ | .kill s _ _ | .ok s _ _ _ => Sound k s
  | _ => True
def SoundIssued (k : Keep) : Issued → Prop
  | .stop s | .run _ s => Sound k s
def SoundStaged (k : Keep) : Staged → Prop
  | .ok s | .fault s _ _ | .poison s _ _ => Sound k s
def SoundMoved (k : Keep) : Moved → Prop
  | .moved s | .fault s _ | .killed s => Sound k s
def SoundFetched (k : Keep) : Fetched → Prop
  | .bytes _ s | .kill s _ _ => Sound k s
  | .fault .. => True

variable {k : Keep}

theorem via {α : Type} (P : α → Prop) {x y : α} (e : x = y) (h : P x) : P y := e ▸ h

/-- A function's value, by what the function is: the kernel compares the functions and evaluates no argument. -/
theorem unfold_head {α : Type} (P : α → Prop) {x y : α} (e : x = y) (h : P y) : P x := e ▸ h

theorem OptionAll.of_some {α : Type} {P : α → Prop} {x : α} (h : P x) : OptionAll P (some x) := h
theorem ExceptAll.of_ok {ε α : Type} {E : ε → Prop} {P : α → Prop} {x : α} (h : P x) : ExceptAll E P (.ok x) := h
theorem ExceptAll.of_error {ε α : Type} {E : ε → Prop} {P : α → Prop} {e : ε} (h : E e) : ExceptAll E P (.error e) := h

theorem OptionAll.true {α : Type} {o : Option α} : OptionAll (fun _ => True) o := by cases o <;> trivial
theorem ExceptAll.true {ε α : Type} {o : Except ε α} : ExceptAll (fun _ => True) (fun _ => True) o := by cases o <;> trivial

theorem OptionAll.bind {α β : Type} (P : α → Prop) {Q : β → Prop} {o : Option α} {f : α → Option β} (h : OptionAll P o)
    (hf : ∀ a, P a → OptionAll Q (f a)) : OptionAll Q (o.bind f) := by
  cases o with
  | none => trivial
  | some a => exact hf a h
theorem OptionAll.map {α β : Type} (P : α → Prop) {Q : β → Prop} {o : Option α} {f : α → β} (h : OptionAll P o)
    (hf : ∀ a, P a → Q (f a)) : OptionAll Q (o.map f) := by
  cases o with
  | none => trivial
  | some a => exact hf a h
theorem ExceptAll.bind {ε α β : Type} {E : ε → Prop} (P : α → Prop) {Q : β → Prop} {o : Except ε α} {f : α → Except ε β}
    (h : ExceptAll E P o) (hf : ∀ a, P a → ExceptAll E Q (f a)) : ExceptAll E Q (o.bind f) := by
  cases o with
  | error e => exact h
  | ok a => exact hf a h

theorem sound_of_fst {α : Type} {p : State × α} {s : State} {x : α} (e : p = (s, x)) (h : Sound k s) : Sound k p.1 := e ▸ h

theorem ExceptAll.map {ε α β : Type} {E : ε → Prop} (P : α → Prop) {Q : β → Prop} {o : Except ε α} {f : α → β}
    (h : ExceptAll E P o) (hf : ∀ a, P a → Q (f a)) : ExceptAll E Q (o.map f) := by
  cases o with
  | error e => exact h
  | ok a => exact hf a h

theorem OptionAll.findSome {α β : Type} {P : β → Prop} {l : List α} {f : α → Option β} (h : ∀ x, OptionAll P (f x)) :
    OptionAll P (l.findSome? f) := by
  induction l with
  | nil => trivial
  | cons x r ih =>
    rw [List.findSome?_cons]
    split
    · next e => exact via (OptionAll P) e (h x)
    · exact ih

/-- A property of a pair's first part, which a comparison of two such statements does not unfold. -/
def OnFst {α β : Type} (P : α → Prop) (x : α × β) : Prop := P x.1

theorem foldl_holds {α β : Type} {f : β → α → β} {l : List α} {b : β} (P : β → Prop) (h : P b) (hf : ∀ b x, P b → P (f b x)) :
    P (l.foldl f b) := by
  induction l generalizing b with
  | nil => exact h
  | cons x r ih => exact ih (hf b x h)

/-- What changes neither memory nor the devices keeps both. -/
theorem keep {s : State} {a0 : Nat} {a1 : Store 33} {a2 : List (Nat × Nat)} {a3 : Store 64} {a4 : List Nat} {a5 : List Grid} {a6 : List
    Gang} {a7 : List Team} {a8 : List Team} {a9 : List Req} {a10 : List MemOp} {a11 : List NetOp} {a12 : List Far} {a13 : List RelTag} {a14
    : List Wr} {a15 : List (Nat × List Nat)} {a16 : List RelTag} {a17 : List Hart} {a18 : List Hot} {a19 : List (Nat × Scrub)} {a20 : List
    BankRow} {a21 : List DLine} {a22 : Power} {a23 : List Nat} {a24 : List Nat} {a25 : List Nat} {a26 : List (Nat × Nat)} {a27 : Option
    (Nat × Option (List Byte))} {a28 : List (Nat × Nat × Nat × Nat × Nat)} {a29 : List Stale} {a30 : List Nat} {a31 : List (Nat × Nat)}
    {a32 : List Migration} {a33 : List (Nat × Nat × Nat × Nat)} {a34 : Store 8} {a35 : List DriveWrite} {a36 : Store 1} {a37 : Nat} {a38 :
    Nat} {a39 : Nat} {a40 : List (Nat × Nat × Nat × Nat)} {a41 : Nat} {a42 : List Instr} {a43 : Nat} {a44 : Nat} {a45 : Option Issuing} (h
    : Sound k s) :
    Sound k ⟨a0, s.mem, a1, a2, a3, a4, s.lds, a5, a6, a7, a8, a9, a10, a11, a12, a13, a14, a15, a16, a17, a18, a19, a20, a21, a22, a23,
      a24, a25, a26, a27, a28, a29, a30, a31, a32, a33, a34, a35, a36, a37, a38, a39, a40, a41, a42, a43, a44, a45⟩ := by
  cases k with
  | memory => exact h
  | devices => exact h

theorem lset_eq_set {α : Type} (l : List α) (n : Nat) (y : α) : lset l n y = l.set n y := by
  induction l generalizing n with
  | nil => rfl
  | cons x r ih => cases n <;> simp [lset, ih]

@[simp] theorem lset_length {α : Type} (l : List α) (n : Nat) (y : α) : (lset l n y).length = l.length := by
  rw [lset_eq_set, List.length_set]

theorem sound_pokeBytes {s : State} {pa : Nat} {bs : List Byte} (h : Sound k s) : Sound k (pokeBytes s pa bs) := by
  cases k with
  | memory => exact pokeBytes_safe s pa bs h
  | devices => exact h

theorem sound_openLine {s : State} {n : Nat} (h : Sound k s) : Sound k (openLine s n) := by
  cases k with
  | memory => exact openLine_safe s n h
  | devices => unfold openLine; split <;> exact h

theorem sound_poisonSec {s : State} {n : Nat} (h : Sound k s) : Sound k (poisonSec s n) := by
  cases k with
  | memory => exact poisonSec_safe s n h
  | devices => exact sound_openLine (k := .devices) h

theorem sound_modLd {s : State} {n : Nat} {f : LDev → LDev} (h : Sound k s) (hf : ∀ d, Whole d → Whole (f d)) :
    Sound k (modLd s n f) := by
  cases k with
  | memory => exact h
  | devices =>
    intro i hi
    obtain ⟨hl, hw⟩ := h i hi
    refine ⟨by simpa [modLd] using hl, ?_⟩
    rcases eq_or_ne n i with rfl | hne
    · simpa [modLd, ldOf, lset_eq_set, hl] using hf _ hw
    · simpa [modLd, ldOf, lset_eq_set, hne] using hw

/-- So does what changes each device for a whole one. -/
theorem keep_map {s t : State} {f : LDev → LDev} (h : Sound k s) (hf : ∀ d, Whole d → Whole (f d)) (hm : t.mem = s.mem)
    (hl : t.lds = s.lds.map f) : Sound k t := by
  cases k with
  | memory => exact (congrArg (Memory.wf · = true) hm).mpr h
  | devices =>
    intro i hi
    obtain ⟨hi', hw⟩ := h i hi
    have hr : ldOf t i = f (ldOf s i) := by
      simp [ldOf, hl, hi']
    exact ⟨by simpa [hl] using hi', hr ▸ hf _ hw⟩

theorem whole_resetLd (n : Nat) : Whole (resetLd n) := ⟨List.length_replicate, List.length_replicate, List.length_replicate⟩

theorem sound_State_reset : Sound k State.reset := by
  cases k with
  | memory => rfl
  | devices =>
    intro i hi
    have hr : ldOf State.reset i = resetLd i := by
      simp only [ldOf, State.reset, List.getD_eq_getElem?_getD, List.getElem?_map, List.getElem?_range hi, Option.map_some,
        Option.getD_some]
    exact ⟨hi, hr ▸ whole_resetLd i⟩
end Sys2Proof.Machine
end

section
/-! PROOFS. What Machine/Mem does keeps memory canonical and the devices whole. -/

namespace Sys2Proof.Machine
variable {k : Keep}

theorem sound_freshSec {s : State} {sec : Nat} {bs : List Byte} (h : Sound k s) :
    Sound k (freshSec s sec bs) := by
  unfold freshSec
  exact keep (sound_pokeBytes h)

theorem sound_setPkgReg {s : State} {n x : Nat} (h : Sound k s) :
    Sound k (setPkgReg s n x) := by
  unfold setPkgReg
  exact keep h

theorem sound_raiseMsix {s : State} {ld vec : Nat} (h : Sound k s) :
    Sound k (raiseMsix s ld vec) := by
  unfold raiseMsix
  split
  · exact h
  · exact keep h

theorem sound_sectorWrite {s : State} {pa : Nat} {bs : List Byte} (h : Sound k s) :
    Sound k (sectorWrite s pa bs) := by
  unfold sectorWrite
  exact keep (sound_pokeBytes (foldl_holds (Sound k) h (fun s1 x h1 => sound_openLine h1)))

theorem sound_colCmd {s : State} {b : Bool} {pa : Nat} (h : Sound k s) :
    Sound k (colCmd s b pa) := by
  unfold colCmd
  exact keep h

theorem sound_sramDrop {s : State} {kk : Nat × Nat × Nat} (h : Sound k s) :
    Sound k (sramDrop s kk) := by
  unfold sramDrop
  exact keep h

theorem sound_dieWordOut {s : State} {d : DLine} {kk : Nat × Nat × Nat} (h : Sound k s) :
    Sound k (dieWordOut s d kk) := by
  unfold dieWordOut
  split
  · exact h
  · split
    · dsimp only
      split
      · exact sound_sramDrop h
      · exact sound_pokeBytes (sound_sramDrop h)
    · dsimp only
      split
      · exact sound_sramDrop h
      · exact sound_poisonSec (sound_sramDrop h)

theorem sound_dieOut {s : State} {d : DLine} (h : Sound k s) :
    Sound k (dieOut s d) := by
  unfold dieOut
  split
  · exact h
  · exact foldl_holds (Sound k) h (fun s1 x h1 => sound_dieWordOut h1)

theorem sound_dieAccess {s : State} {line need put : Nat} (h : Sound k s) :
    Sound k (dieAccess s line need put) := by
  unfold dieAccess
  refine keep (sound_colCmd (sound_colCmd ?_))
  split
  · exact h
  · split
    · exact h
    · exact sound_dieOut h

theorem sound_dieDrop {s : State} {line mask : Nat} {back : Bool} (h : Sound k s) :
    Sound k (dieDrop s line mask back) := by
  unfold dieDrop
  split
  · exact h
  · refine keep (sound_colCmd ?_)
    refine foldl_holds (Sound k) ?_ ?_
    · exact h
    · intro s1 x h1
      split
      · refine foldl_holds (Sound k) ?_ ?_
        · exact h1
        · intro s2 x1 h2
          split
          · exact sound_dieWordOut h2
          · exact sound_sramDrop h2
      · exact h1

theorem sound_dieClean {s : State} {pa kk : Nat} (h : Sound k s) :
    Sound k (dieClean s pa kk) := by
  unfold dieClean
  exact foldl_holds (Sound k) h (fun s1 x h1 => keep (sound_colCmd (sound_dieOut h1)))

theorem sound_dieInval {s : State} {pa kk : Nat} (h : Sound k s) :
    Sound k (dieInval s pa kk) := by
  unfold dieInval
  exact keep (foldl_holds (Sound k) h (fun s1 x h1 => foldl_holds (Sound k) h1 (fun s2 x1 h2 => sound_sramDrop h2)))

theorem sound_logEvent {s : State} {kind cause detail ld addr aux : Nat} (h : Sound k s) :
    Sound k (logEvent s kind cause detail ld addr aux) := by
  unfold logEvent
  dsimp only
  split
  · exact sound_raiseMsix (sound_setPkgReg (sound_sectorWrite (sound_dieAccess h)))
  · exact sound_setPkgReg h

theorem sound_setScrub {s : State} {kk : Nat} {x : Scrub} (h : Sound k s) :
    Sound k (setScrub s kk x) := by
  unfold setScrub
  exact keep h

theorem sound_corrected {s : State} {pa : Nat} (h : Sound k s) :
    Sound k (corrected s pa) := by
  unfold corrected
  dsimp only
  split
  · exact foldl_holds (Sound k) (sound_setScrub (sound_setPkgReg h)) (fun s1 x h1 => sound_logEvent h1)
  · exact sound_setScrub (sound_setPkgReg h)

theorem sound_logBad {s : State} {sec : Nat} (h : Sound k s) :
    Sound k (logBad s sec) := by
  unfold logBad
  exact sound_logEvent (sound_poisonSec h)

theorem sound_readSec {s : State} {sec : Nat} (h : Sound k s) :
    Sound k (readSec s sec).2.2 := by
  unfold readSec
  split
  · exact h
  · exact sound_logBad h
  · exact sound_corrected (sound_freshSec h)
  · split
    · exact h
    · split
      · exact h
      · split
        · exact h
        · exact sound_logBad (foldl_holds (Sound k) h (fun s1 x h1 => sound_sramDrop h1))

theorem sound_readIn {s : State} {pa kk : Nat} (h : Sound k s) :
    Sound k (readIn s pa kk).2.2 := by
  unfold readIn
  split
  · exact sound_readSec h
  · exact h

theorem sound_readLines {s : State} {pa kk : Nat} (h : Sound k s) :
    Sound k (readLines s pa kk) := by
  unfold readLines
  refine foldl_holds (Sound k) ?_ ?_
  · exact h
  · intro s1 x h1
    split
    · exact sound_dieAccess h1
    · exact h1

theorem sound_readMem {s : State} {pa kk : Nat} (h : Sound k s) :
    Sound k (readMem s pa kk).2.2 := by
  unfold readMem
  exact foldl_holds (fun y : List Byte × RdSt × State => Sound k y.2.2) (sound_readLines h) (fun x x1 h1 => sound_readIn h1)

theorem sound_dieMerge {s : State} {sec : Nat} {bs : List Byte} (h : Sound k s) :
    Sound k (dieMerge s sec bs) := by
  unfold dieMerge
  split
  · exact h
  · split
    · exact h
    · exact sound_pokeBytes (foldl_holds (Sound k) h (fun s1 x h1 => sound_sramDrop h1))

theorem sound_writeIn {s : State} {pa : Nat} {bs : List Byte} (h : Sound k s) :
    Sound k (writeIn s pa bs) := by
  unfold writeIn
  split
  · split
    · exact sound_freshSec (sound_dieMerge (sound_openLine h))
    · dsimp only
      split
      · exact sound_pokeBytes (sound_openLine h)
      · split
        · exact sound_freshSec (sound_dieMerge (sound_readSec (sound_openLine h)))
        · exact sound_readSec (sound_openLine h)
  · exact sound_pokeBytes (sound_openLine h)

theorem sound_writeLines {s : State} {pa kk : Nat} (h : Sound k s) :
    Sound k (writeLines s pa kk) := by
  unfold writeLines
  refine foldl_holds (Sound k) ?_ ?_
  · exact h
  · intro s1 x h1
    split
    · exact sound_dieAccess h1
    · exact h1

theorem sound_writeMem {s : State} {pa : Nat} {bs : List Byte} (h : Sound k s) :
    Sound k (writeMem s pa bs) := by
  unfold writeMem
  exact foldl_holds (fun y : State × List Byte => Sound k y.1) (sound_writeLines h) (fun x x1 h1 => sound_writeIn h1)

theorem sound_hwWrite {s : State} {pa : Nat} {bs : List Byte} (h : Sound k s) :
    Sound k (hwWrite s pa bs) := by
  unfold hwWrite
  exact sound_writeMem h

theorem sound_tableRead {s : State} {pa kk : Nat} (h : Sound k s) :
    Sound k (tableRead s pa kk) := by
  unfold tableRead
  exact sound_readMem h

end Sys2Proof.Machine
end

section
/-! PROOFS. What Machine/Xlate does keeps memory canonical and the devices whole. -/

namespace Sys2Proof.Machine
variable {k : Keep}

theorem sound_setLdReg {s : State} {ld n x : Nat} (h : Sound k s) :
    Sound k (setLdReg s ld n x) := by
  unfold setLdReg
  exact sound_modLd h (fun x1 h1 => ‹_›)

theorem sound_setQb {s : State} {ld off : Nat} {x : BitVec 64} (h : Sound k s) :
    Sound k (setQb s ld off x) := by
  unfold setQb
  exact sound_modLd h (fun x1 h1 => ‹_›)

theorem sound_boundsRead {s : State} {ld slot : Nat} (h : Sound k s) :
    Sound k (boundsRead s ld slot) := by
  unfold boundsRead
  exact sound_tableRead (sound_tableRead (sound_tableRead h))

theorem sound_setFrameCount {s : State} {pa c : Nat} (h : Sound k s) :
    Sound k (setFrameCount s pa c) := by
  unfold setFrameCount
  split
  · exact h
  · exact sound_hwWrite h

theorem sound_setNode {s : State} {pa st c : Nat} (h : Sound k s) :
    Sound k (setNode s pa st c) := by
  unfold setNode
  exact sound_hwWrite h

theorem sound_walkReads {s : State} {ld : Nat} {r : Nat × Nat} {va : Nat} (h : Sound k s) :
    Sound k (walkReads s ld r va) := by
  unfold walkReads
  split
  · exact foldl_holds (Sound k) h (fun s1 x h1 => sound_tableRead h1)
  · split
    · exact foldl_holds (Sound k) h (fun s1 x h1 => sound_tableRead h1)
    · exact sound_tableRead (foldl_holds (Sound k) h (fun s1 x h1 => sound_tableRead h1))

theorem sound_walkRead {s : State} {ld : Nat} {r : Nat × Nat} {va : Nat} (h : Sound k s) :
    Sound k (walkRead s ld r va) := by
  unfold walkRead
  split
  · exact keep h
  · dsimp only
    split
    · exact h
    · exact sound_walkReads h

theorem sound_dropCached {s : State} {ld : Nat} {p : Cached → Bool} (h : Sound k s) :
    Sound k (dropCached s ld p) := by
  unfold dropCached
  exact sound_modLd h (fun x h1 => ‹_›)

theorem sound_releaseNode {s : State} {ld n : Nat} (h : Sound k s) :
    Sound k (releaseNode s ld n).1 := by
  unfold releaseNode
  exact sound_setNode (sound_tableRead (sound_dropCached h))

theorem sound_addReclaim {s : State} {ld : Nat} {ws : List Reclaim} (h : Sound k s) :
    Sound k (addReclaim s ld ws) := by
  unfold addReclaim
  exact sound_modLd h (fun x h1 => ‹_›)

theorem sound_dropNodeCount {s : State} {ld node : Nat} (h : Sound k s) :
    Sound k (dropNodeCount s ld node) := by
  unfold dropNodeCount
  dsimp only
  split
  · exact sound_addReclaim (sound_releaseNode (sound_setNode h))
  · exact sound_setNode h

theorem sound_giveUpRoot {s : State} {ld gen node : Nat} (h : Sound k s) :
    Sound k (giveUpRoot s ld gen node) := by
  unfold giveUpRoot
  exact sound_dropNodeCount (sound_dropCached h)

theorem sound_changePins {s : State} {ld gen : Nat} {f : Nat → Nat} (h : Sound k s) :
    Sound k (changePins s ld gen f) := by
  unfold changePins
  dsimp only
  split
  · refine sound_modLd ?_ ?_
    · exact h
    · intro x h1
      simpa only [Whole, lset_length, List.length_map] using ‹Whole _›
  · split
    · exact h
    · split
      · refine sound_giveUpRoot ?_
        refine sound_modLd ?_ ?_
        · exact h
        · intro x h1
          simpa only [Whole, lset_length, List.length_map] using ‹Whole _›
      · refine sound_modLd ?_ ?_
        · exact h
        · intro x h1
          simpa only [Whole, lset_length, List.length_map] using ‹Whole _›

theorem sound_takePin {s : State} {ld slot : Nat} (h : Sound k s) :
    Sound k (takePin s ld slot).2 := by
  unfold takePin
  dsimp only
  split
  · exact sound_changePins h
  · exact h

theorem sound_copyPin {s : State} {ld : Nat} {x2 : Option Pin} (h : Sound k s) :
    Sound k (copyPin s ld x2) := by
  unfold copyPin
  split
  · exact h
  · exact sound_changePins h

theorem sound_dropPin {s : State} {ld : Nat} {x2 : Option Pin} (h : Sound k s) :
    Sound k (dropPin s ld x2) := by
  unfold dropPin
  split
  · exact h
  · exact sound_changePins h

theorem sound_ringAppend {s : State} {ld : Nat} {w : BitVec 64} (h : Sound k s) :
    Sound k (ringAppend s ld w) := by
  unfold ringAppend
  exact sound_setLdReg (sound_hwWrite h)

theorem sound_dropFrameCount {s : State} {f : Nat} (h : Sound k s) :
    Sound k (dropFrameCount s f).1 := by
  unfold dropFrameCount
  exact sound_setFrameCount h

theorem sound_reclaimStep {s : State} {ld : Nat} (h : Sound k s) :
    Sound k (reclaimStep s ld) := by
  unfold reclaimStep
  split
  · exact h
  · split
    · split
      · exact sound_modLd (sound_ringAppend h) (fun x h1 => ‹_›)
      · exact h
    · dsimp only
      split
      · split
        · exact sound_modLd (sound_releaseNode (sound_setNode h)) (fun x h1 => ‹_›)
        · exact sound_modLd (sound_setNode h) (fun x h1 => ‹_›)
      · split
        · split
          · split
            · exact sound_modLd (sound_ringAppend (sound_dropFrameCount h)) (fun x h1 => ‹_›)
            · exact sound_modLd (sound_dropFrameCount h) (fun x h1 => ‹_›)
          · exact sound_modLd (sound_dropFrameCount h) (fun x h1 => ‹_›)
        · exact sound_modLd h (fun x h1 => ‹_›)

theorem sound_retireRoot {s : State} {ld slot : Nat} (h : Sound k s) :
    Sound k (retireRoot s ld slot) := by
  unfold retireRoot
  dsimp only
  split
  · refine sound_giveUpRoot ?_
    refine sound_modLd ?_ ?_
    · exact h
    · intro x h1
      simpa only [Whole, lset_length, List.length_map] using ‹Whole _›
  · split
    · refine sound_modLd ?_ ?_
      · exact h
      · intro x h1
        simpa only [Whole, lset_length, List.length_map] using ‹Whole _›
    · refine sound_modLd ?_ ?_
      · refine sound_modLd ?_ ?_
        · exact h
        · intro x h1
          simpa only [Whole, lset_length, List.length_map] using ‹Whole _›
      · intro x h1
        simpa only [Whole, lset_length, List.length_map] using ‹Whole _›

end Sys2Proof.Machine
end

section
/-! PROOFS. What Machine/Regs does keeps memory canonical and the devices whole. -/

namespace Sys2Proof.Machine
variable {k : Keep}

theorem sound_modTeam {s : State} {r : TeamRef} {f : Team → Team} (h : Sound k s) :
    Sound k (modTeam s r f) := by
  unfold modTeam
  exact keep h

theorem sound_modGroup {s : State} {r : GroupRef} {f : Group → Group} (h : Sound k s) :
    Sound k (modGroup s r f) := by
  unfold modGroup
  exact sound_modTeam h

theorem sound_modGrid {s : State} {ld id : Nat} {f : Grid → Grid} (h : Sound k s) :
    Sound k (modGrid s ld id f) := by
  unfold modGrid
  exact keep h

theorem sound_modGang {s : State} {kk : GangRef} {f : Gang → Gang} (h : Sound k s) :
    Sound k (modGang s kk f) := by
  unfold modGang
  exact keep h

end Sys2Proof.Machine
end

section
/-! PROOFS. What Machine/Order does keeps memory canonical and the devices whole. -/

namespace Sys2Proof.Machine
variable {k : Keep}

theorem sound_addJoin {s : State} {i : Nat} {ids : List Nat} (h : Sound k s) :
    Sound k (addJoin s i ids) := by
  unfold addJoin
  dsimp only
  split
  · exact h
  · exact keep h

theorem sound_trimOrd {s : State} (h : Sound k s) :
    Sound k (trimOrd s) := by
  unfold trimOrd
  exact keep h

theorem sound_dropTags {s : State} {loc n : Nat} (h : Sound k s) :
    Sound k (dropTags s loc n) := by
  unfold dropTags
  exact keep h

theorem sound_endTags {s : State} {loc n : Nat} (h : Sound k s) :
    Sound k (endTags s loc n) := by
  unfold endTags
  exact keep (sound_dropTags h)

theorem sound_addTag {s : State} {who : Party} {sc : Scope} {past : List Nat} {loc n : Nat} (h : Sound k s) :
    Sound k (addTag s who sc past loc n) := by
  unfold addTag
  dsimp only
  split
  · exact h
  · exact keep h

theorem sound_keepWrite {s0 s : State} {id loc : Nat} {old : List Byte} {loose : Bool} {grp : Option GroupRef} {pre : List Nat} {team :
    Option TeamRef} (ha : Sound k s0) (hb : Sound k s) :
    Sound k (keepWrite s0 s id loc old loose grp pre team) := by
  unfold keepWrite
  exact keep hb

theorem sound_viewTick {s : State} (h : Sound k s) :
    Sound k (viewTick s) := by
  unfold viewTick
  split
  · exact h
  · exact keep h

theorem sound_forgetWrite {s : State} (h : Sound k s) :
    Sound k (forgetWrite s) := by
  unfold forgetWrite
  exact sound_trimOrd (keep h)

end Sys2Proof.Machine
end

section
/-! PROOFS. What Machine/Sram does keeps memory canonical and the devices whole. -/

namespace Sys2Proof.Machine
variable {k : Keep}

theorem sound_sramRead {s : State} {kk : Nat × Nat × Nat} {core : Nat} {put : State → Nat → State} (ha : Sound k s) (hb : ∀ y0 y1,
    Sound k y0 → Sound k (put y0 y1)) :
    OptionAll (Sound k) (sramRead s kk core put) := by
  unfold sramRead
  split
  · exact OptionAll.of_some ha
  · split
    · exact trivial
    · split
      · exact OptionAll.of_some (hb _ _ (sound_sramDrop ha))
      · exact OptionAll.of_some (sound_setPkgReg (hb _ _ (sound_sramDrop ha)))

theorem sound_sramWrite {s : State} {kk : Nat × Nat × Nat} {put : State → Nat → State} (ha : Sound k s) (hb : ∀ y0 y1,
    Sound k y0 → Sound k (put y0 y1)) :
    Sound k (sramWrite s kk put) := by
  unfold sramWrite
  split
  · exact ha
  · split
    · exact sound_sramDrop ha
    · exact hb _ _ (sound_sramDrop ha)

theorem sound_sramPoke {s : State} {kk : Nat × Nat × Nat} {x : Nat} (h : Sound k s) :
    Sound k (sramPoke s kk x) := by
  unfold sramPoke
  split
  · split
    · exact h
    · exact sound_modGroup h
  · split
    · split
      · exact h
      · exact sound_modGroup h
    · split
      · split
        · exact h
        · split
          · exact h
          · exact sound_modGroup h
      · split
        · exact h
        · split
          · exact h
          · exact sound_modTeam h

theorem sound_readWords {s : State} {core : Nat} {ks : List SramKey} (h : Sound k s) :
    OptionAll (Sound k) (readWords s core ks) := by
  unfold readWords
  exact foldl_holds (OptionAll (Sound k)) (OptionAll.of_some h)
    (fun x x1 h1 => OptionAll.bind (Sound k) h1 (fun s1 h2 => sound_sramRead h2 (fun s2 x2 h3 => sound_sramPoke h3)))

theorem sound_freshWord {ps : List (Nat × Nat)} {r : GroupRef} {s : State} {p : Nat × Nat × SramKey} (h : Sound k s) :
    Sound k (freshWord ps r s p) := by
  unfold freshWord
  split
  · exact h
  · split
    · exact sound_sramDrop h
    · exact sound_modGroup (sound_sramDrop h)

theorem sound_freshRegs {s : State} {r : GroupRef} {ps : List (Nat × Nat)} (h : Sound k s) :
    Sound k (freshRegs s r ps) := by
  unfold freshRegs
  split
  · exact h
  · split
    · exact foldl_holds (Sound k) h (fun s1 x h1 => sound_freshWord h1)
    · exact h

theorem sound_freshDst {s : State} {r : GroupRef} {d : Opnd} {w : Nat} {ls : List Nat} (h : Sound k s) :
    Sound k (freshDst s r d w ls) := by
  unfold freshDst
  split
  · exact sound_freshRegs h
  · exact h

theorem sound_touchStack {s : State} {r : GroupRef} {key kk : Nat} (h : Sound k s) :
    OptionAll (Sound k) (touchStack s r key kk) := by
  unfold touchStack
  split
  · exact OptionAll.of_some h
  · split
    · exact OptionAll.of_some h
    · exact sound_readWords h

theorem sound_freshStack {s : State} {r : GroupRef} {key kk : Nat} (h : Sound k s) :
    Sound k (freshStack s r key kk) := by
  unfold freshStack
  split
  · exact h
  · split
    · exact h
    · exact foldl_holds (Sound k) h (fun s1 x h1 => sound_sramWrite h1 (fun s2 x1 h2 => sound_sramPoke h2))

theorem sound_dropStale {s : State} {store unit lo hi : Nat} (h : Sound k s) :
    Sound k (dropStale s store unit lo hi) := by
  unfold dropStale
  exact keep h

theorem sound_addStale {s : State} {ld store unit lo hi : Nat} (h : Sound k s) :
    Sound k (addStale s ld store unit lo hi) := by
  unfold addStale
  split
  · exact keep (sound_dropStale h)
  · exact sound_dropStale h

theorem sound_dropListed {s : State} {store unit lo hi : Nat} (h : Sound k s) :
    Sound k (dropListed s store unit lo hi) := by
  unfold dropListed
  exact keep h

theorem sound_zeroWords {s : State} {store unit lo hi : Nat} (h : Sound k s) :
    Sound k (zeroWords s store unit lo hi) := by
  unfold zeroWords
  exact sound_dropStale (sound_dropListed h)

theorem sound_leaveWords {s : State} {ld store unit lo hi : Nat} (h : Sound k s) :
    Sound k (leaveWords s ld store unit lo hi) := by
  unfold leaveWords
  exact sound_addStale (sound_dropListed h)

theorem sound_leaveRegs {s : State} {ld core base n : Nat} (h : Sound k s) :
    Sound k (leaveRegs s ld core base n) := by
  unfold leaveRegs
  exact sound_leaveWords h

theorem sound_dropHeld {s : State} {core : Nat} {p : TeamRef → Bool} (h : Sound k s) :
    Sound k (dropHeld s core p) := by
  unfold dropHeld
  split
  · exact h
  · exact keep h

theorem sound_leaveTeam {s : State} {t : Team} (h : Sound k s) :
    Sound k (leaveTeam s t) := by
  unfold leaveTeam
  exact sound_addStale (sound_addStale (sound_dropHeld (foldl_holds (Sound k)
    (foldl_holds (Sound k) h (fun s1 x h1 => sound_leaveRegs h1)) (fun s1 x h1 => sound_leaveWords h1))))

theorem sound_zeroLd {s : State} {ld : Nat} (h : Sound k s) :
    Sound k (zeroLd s ld) := by
  unfold zeroLd
  exact keep h

end Sys2Proof.Machine
end

section
/-! PROOFS. What Machine/Stack does keeps memory canonical and the devices whole. -/

namespace Sys2Proof.Machine
variable {k : Keep}

theorem sound_spillLane {s : State} {r : GroupRef} {lane : Nat} (h : Sound k s) :
    Sound k (spillLane s r lane) := by
  unfold spillLane
  split
  · split
    split
    · refine sound_modGroup ?_
      refine foldl_holds (Sound k) ?_ ?_
      · exact h
      · intro s1 x h1
        split
        · exact h1
        · dsimp only
          split
          · split
            · exact foldl_holds (Sound k) (sound_endTags (sound_writeMem (sound_walkRead h1))) (fun s2 x1 h2 => sound_poisonSec h2)
            · exact sound_endTags (sound_writeMem (sound_walkRead h1))
          · split
            · refine foldl_holds (Sound k) ?_ ?_
              · refine sound_endTags (sound_writeMem (sound_walkRead ?_))
                rename_i e _
                exact via (OptionAll (Sound k)) e (sound_touchStack h1)
              · exact fun s2 x1 h2 => sound_poisonSec h2
            · refine sound_endTags (sound_writeMem (sound_walkRead ?_))
              rename_i e _
              exact via (OptionAll (Sound k)) e (sound_touchStack h1)
    · exact h
  · exact h

theorem sound_fillLane {s : State} {t : Team} {gr : Grid} {g : Group} {l : Nat} (h : Sound k s) :
    Sound k (fillLane s t gr g l).1 := by
  obtain ⟨fillRange', e_fillRange⟩ : ∃ f, f = @fillRange := ⟨_, rfl⟩
  obtain ⟨stackPa', e_stackPa⟩ : ∃ f, f = @stackPa := ⟨_, rfl⟩
  apply unfold_head (fun f => Sound k (f s t gr g l).1) (x := @fillLane)
  · delta fillLane
    rfl
  · rw [← e_fillRange, ← e_stackPa]
    refine foldl_holds (fun y : State × Group × RdSt × Nat => Sound k y.1) ?_ ?_
    · exact h
    · intro x x1 h1
      split
      · exact h1
      · exact sound_readMem (sound_walkRead h1)

theorem sound_drainStacks {s : State} {t : TeamRef} (h : Sound k s) :
    Sound k (drainStacks s t) := by
  unfold drainStacks
  split
  · exact h
  · refine foldl_holds (Sound k) ?_ ?_
    · exact h
    · intro s1 x h1
      split
      · exact h1
      · refine foldl_holds (Sound k) ?_ ?_
        · exact h1
        · intro s2 x1 h2
          dsimp only
          split
          · split
            · split
              · exact sound_modGroup (sound_fillLane (sound_spillLane h2))
              · exact sound_spillLane h2
            · exact sound_spillLane h2
          · exact sound_spillLane h2

end Sys2Proof.Machine
end

section
/-! PROOFS. What Machine/Ops does keeps memory canonical and the devices whole. -/

namespace Sys2Proof.Machine
variable {k : Keep}

theorem sound_dropTeamPins {s : State} {t : Team} (h : Sound k s) :
    Sound k (dropTeamPins s t) := by
  unfold dropTeamPins
  exact foldl_holds (Sound k) (foldl_holds (Sound k) (sound_dropPin h) (fun s1 x h1 => sound_dropPin h1)) (fun s1 x h1 => sound_dropPin h1)

theorem sound_bury {s : State} (h : Sound k s) :
    Sound k (bury s) := by
  unfold bury
  split
  · exact h
  · refine keep ?_
    refine foldl_holds (Sound k) ?_ ?_
    · exact h
    · intro s1 x h1
      split
      · exact sound_leaveTeam (sound_dropTeamPins h1)
      · exact sound_dropTeamPins h1

theorem sound_removeTeams {s : State} {p : Team → Bool} (h : Sound k s) :
    Sound k (removeTeams s p) := by
  unfold removeTeams
  exact sound_bury (keep h)

theorem sound_freeTeam {s : State} {t : Team} (h : Sound k s) :
    Sound k (freeTeam s t) := by
  unfold freeTeam
  exact sound_bury (keep (sound_leaveTeam (sound_dropTeamPins h)))

theorem sound_addEnds {s : State} {t : TeamRef} {ids : List Nat} (h : Sound k s) :
    Sound k (addEnds s t ids) := by
  unfold addEnds
  split
  · exact h
  · exact sound_modGrid h

theorem sound_keepFlags {s : State} {p : Team → Bool} (h : Sound k s) :
    Sound k (keepFlags s p) := by
  unfold keepFlags
  exact foldl_holds (Sound k) h (fun s1 x h1 => sound_addEnds (sound_modGrid h1))

theorem sound_failGrid {s : State} {ld id : Nat} {x : Nat × Nat × Nat × Nat × Nat × DWord} (h : Sound k s) :
    Sound k (failGrid s ld id x) := by
  unfold failGrid
  exact sound_modGrid (keep (sound_removeTeams (sound_keepFlags h)))

theorem sound_stopGang {s : State} {kk : GangRef} (h : Sound k s) :
    Sound k (stopGang s kk) := by
  unfold stopGang
  exact sound_removeTeams (sound_keepFlags h)

theorem sound_killGang {s : State} {kk : GangRef} {cause pa : Nat} (h : Sound k s) :
    Sound k (killGang s kk cause pa) := by
  obtain ⟨logEvent', e_logEvent⟩ : ∃ f, f = @logEvent := ⟨_, rfl⟩
  have h_logEvent := @sound_logEvent k
  rw [← e_logEvent] at h_logEvent
  apply unfold_head (fun f => Sound k (f s kk cause pa)) (x := @killGang)
  · delta killGang
    rfl
  · rw [← e_logEvent]
    dsimp only
    split
    · split
      · exact sound_modGang (sound_modGrid (sound_stopGang (h_logEvent h)))
      · exact sound_failGrid (sound_stopGang (h_logEvent h))
    · exact sound_stopGang (h_logEvent h)

theorem sound_killTeam {s : State} {t : TeamRef} {cause pa : Nat} (h : Sound k s) :
    Sound k (killTeam s t cause pa) := by
  unfold killTeam
  exact sound_killGang h

theorem sound_enterTrap {s : State} {r : GroupRef} {x : Trap} (h : Sound k s) :
    Sound k (enterTrap s r x) := by
  unfold enterTrap
  split
  · dsimp only
    split
    · exact sound_failGrid h
    · exact sound_modGroup (keep h)
  · exact h

theorem sound_raiseTrap {s : State} {r : GroupRef} {x : Trap} (h : Sound k s) :
    Sound k (raiseTrap s r x) := by
  unfold raiseTrap
  split
  · exact h
  · split
    · exact sound_failGrid h
    · split
      · exact h
      · split
        · exact sound_modGroup h
        · exact sound_enterTrap h

theorem sound_trapEntry {s : State} {r : GroupRef} {e : Entry} {cause detail : Nat} {addr : BitVec 64} (h : Sound k s) :
    Sound k (trapEntry s r e cause detail addr) := by
  unfold trapEntry
  exact sound_raiseTrap h

theorem sound_raiseParked {s : State} {r : GroupRef} (h : Sound k s) :
    Sound k (raiseParked s r) := by
  unfold raiseParked
  split
  · exact h
  · split
    · exact h
    · split
      · exact h
      · exact sound_raiseTrap h

theorem sound_takePending {s : State} {r : GroupRef} (h : Sound k s) :
    Sound k (takePending s r) := by
  unfold takePending
  split
  · exact h
  · split
    · exact h
    · split
      · exact h
      · exact sound_enterTrap h

theorem sound_movePin {s : State} {ld slot : Nat} {p : Option Pin} (h : Sound k s) :
    Sound k (movePin s ld slot p).2 := by
  unfold movePin
  exact sound_dropPin (sound_takePin h)

theorem sound_refreshTeam {s : State} {r : TeamRef} {slot : Nat} {p : Group → Bool} (h : Sound k s) :
    OptionAll (Sound k) (refreshTeam s r slot p) := by
  unfold refreshTeam
  split
  · exact OptionAll.of_some h
  · split
    · exact trivial
    · exact OptionAll.of_some (sound_modTeam (sound_boundsRead (foldl_holds (Sound k)
        (sound_modTeam (sound_movePin (sound_drainStacks h))) (fun s1 x h1 => sound_modGroup (sound_movePin h1)))))

theorem sound_settleTbar {s : State} {r : TeamRef} (h : Sound k s) :
    Sound k (settleTbar s r) := by
  unfold settleTbar
  split
  · exact h
  · split
    · refine sound_modTeam ?_
      split
      · split
        · rename_i e
          exact via (OptionAll (Sound k)) e (sound_refreshTeam h)
        · exact sound_modTeam h
      · exact h
    · exact h

theorem sound_settleGbar {s : State} {kk : GangRef} (h : Sound k s) :
    Sound k (settleGbar s kk) := by
  unfold settleGbar
  dsimp only
  split
  · exact foldl_holds (Sound k) h (fun s1 x h1 => sound_modTeam h1)
  · exact h

theorem sound_settleSys {s : State} {r : TeamRef} (h : Sound k s) :
    Sound k (settleSys s r) := by
  unfold settleSys
  split
  · exact h
  · split
    · split <;> exact sound_modTeam h
    · exact h

theorem sound_settle {s : State} {r : TeamRef} (h : Sound k s) :
    Sound k (settle s r) := by
  unfold settle
  exact sound_settleGbar (sound_settleSys (sound_settleTbar h))

theorem sound_dropItem {s : State} {t : TeamRef} {it : Item} (h : Sound k s) :
    Sound k (dropItem s t it) := by
  unfold dropItem
  exact sound_modTeam h

theorem sound_dropItems {s : State} {r : GroupRef} {m : BitVec 32} (h : Sound k s) :
    Sound k (dropItems s r m) := by
  unfold dropItems
  split
  · exact h
  · exact sound_modGroup (foldl_holds (Sound k) h (fun s1 x h1 => sound_dropItem h1))

theorem sound_detach {s : State} {r : GroupRef} (h : Sound k s) :
    Sound k (detach s r) := by
  unfold detach
  exact keep h

theorem sound_endGroup {s : State} {r : GroupRef} (h : Sound k s) :
    Sound k (endGroup s r) := by
  unfold endGroup
  split
  · exact h
  · split
    · refine sound_modTeam (sound_modTeam ?_)
      split
      · exact sound_modTeam (sound_addEnds (sound_leaveRegs (sound_dropPin h)))
      · exact sound_detach (sound_modTeam (sound_addEnds (sound_leaveRegs (sound_dropPin h))))
    · exact h

theorem sound_stuckTest {s : State} {r : GroupRef} (h : Sound k s) :
    Sound k (stuckTest s r) := by
  unfold stuckTest
  split
  · exact h
  · split
    · split
      · exact h
      · exact sound_trapEntry h
    · exact h

theorem sound_trapW {cause detail : Nat} :
    SoundRes k (trapW cause detail) := by
  unfold trapW
  exact trivial

theorem sound_trapL {cause detail lane : Nat} {addr : BitVec 64} :
    SoundRes k (trapL cause detail lane addr) := by
  unfold trapL
  exact trivial

theorem sound_done {s : State} {outs : List Outst} (h : Sound k s) :
    SoundRes k (done s outs) := by
  unfold done
  exact h

theorem sound_takeTrap {s : State} {u : Issuing} {x : TrapInfo} (h : Sound k s) :
    Sound k (takeTrap s u x) := by
  unfold takeTrap
  exact sound_raiseTrap (keep h)

theorem sound_afterExit {s : State} {r : GroupRef} {m : BitVec 32} (h : Sound k s) :
    Sound k (afterExit s r m) := by
  unfold afterExit
  exact sound_settle (sound_endGroup (sound_dropItems h))

theorem sound_complete {c : Ctx} {hd : Hdr} {sw : Bool} {x : Res} (h : Sound k c.s) (hx : SoundRes k x) :
    Sound k (complete c hd sw x) := by
  unfold complete
  split
  · exact sound_takeTrap h
  · exact sound_takeTrap hx
  · exact sound_killTeam (keep hx)
  · exact keep (sound_modGroup hx)
  · exact keep hx
  · dsimp only
    split
    · exact sound_takeTrap h
    · split
      · exact sound_stuckTest (sound_afterExit (keep (sound_modGroup hx)))
      · exact sound_stuckTest (sound_settle (keep (sound_modGroup hx)))
      · split
        · exact sound_raiseTrap (keep (sound_modGroup hx))
        · exact sound_raiseParked (keep (sound_modGroup hx))
      · exact sound_stuckTest (keep (sound_modGroup hx))
      · exact (keep (sound_modGroup hx))

theorem sound_withIssue {x0 : Hdr} {sw : Bool} {s : State} {kk : Ctx → Res} (ha : Sound k s) (hb : ∀ y0,
    Sound k y0.s → SoundRes k (kk y0)) :
    SoundOut k (withIssue x0 sw s kk) := by
  unfold withIssue
  split
  · exact trivial
  · split
    · exact sound_complete ha (hb _ ha)
    · exact trivial

theorem sound_startHeld {s : State} {r : TeamRef} (h : Sound k s) :
    Sound k (startHeld s r) := by
  unfold startHeld
  exact sound_modTeam h

theorem sound_eret {s : State} {r : GroupRef} {skip : Bool} (h : Sound k s) :
    Sound k (eret s r skip) := by
  unfold eret
  split
  · exact h
  · refine sound_stuckTest (sound_raiseParked ?_)
    split
    · exact sound_startHeld (sound_modGroup h)
    · exact sound_modGroup h

theorem sound_handlerExit {s : State} {r : GroupRef} (h : Sound k s) :
    Sound k (handlerExit s r) := by
  unfold handlerExit
  split
  · exact h
  · refine sound_stuckTest (sound_raiseParked (sound_afterExit ?_))
    split
    · exact sound_startHeld (sound_modGroup h)
    · exact sound_modGroup h

end Sys2Proof.Machine
end

section
/-! PROOFS. What Machine/Operands does keeps memory canonical and the devices whole. -/

namespace Sys2Proof.Machine
variable {k : Keep}

theorem sound_putGroup {s : State} {r : GroupRef} {g : Group} (h : Sound k s) :
    Sound k (putGroup s r g) := by
  unfold putGroup
  exact sound_modGroup h

theorem sound_tick {s : State} (h : Sound k s) :
    Sound k (tick s) := by
  unfold tick
  exact keep h

theorem sound_resFixed {c : Ctx} {d : Opnd} {w lat : Nat} {g : Group} (h : Sound k c.s) :
    SoundRes k (resFixed c d w lat g) := by
  unfold resFixed
  exact sound_done (sound_putGroup h)

theorem sound_resFree {c : Ctx} {ks : List RegKey} {g : Group} (h : Sound k c.s) :
    SoundRes k (resFree c ks g) := by
  unfold resFree
  exact sound_done (sound_tick (sound_putGroup h))

theorem sound_putBufWord {r : TeamRef} {b : Buf} {w : Nat} {s : State} {x : Nat} (h : Sound k s) :
    Sound k (putBufWord r b w s x) := by
  unfold putBufWord
  exact sound_modTeam h

theorem sound_bufTouch {s : State} {r : TeamRef} {b : Buf} {off kk : Nat} (h : Sound k s) :
    OptionAll (Sound k) (bufTouch s r b off kk) := by
  unfold bufTouch
  split
  · exact OptionAll.of_some h
  · split
    · exact OptionAll.of_some h
    · exact foldl_holds (OptionAll (Sound k)) (OptionAll.of_some h)
        (fun x x1 h1 => OptionAll.bind (Sound k) h1 (fun s1 h2 => sound_sramRead h2 (fun s2 x2 h3 => sound_putBufWord h3)))

theorem sound_bufWrite {s : State} {r : TeamRef} {b : Buf} {off kk x : Nat} (h : Sound k s) :
    Sound k (bufWrite s r b off kk x) := by
  unfold bufWrite
  refine sound_modTeam ?_
  split
  · split
    · exact h
    · exact sound_endTags h
  · split
    · split
      · exact h
      · exact sound_endTags h
    · split
      · exact foldl_holds (Sound k) h (fun s1 x1 h1 => sound_sramWrite h1 (fun s2 x2 h2 => sound_putBufWord h2))
      · exact sound_endTags (foldl_holds (Sound k) h (fun s1 x1 h1 => sound_sramWrite h1 (fun s2 x2 h2 => sound_putBufWord h2)))

theorem sound_bufPut {s : State} {r : TeamRef} {b : Buf} {off kk x : Nat} (h : Sound k s) :
    Sound k (bufPut s r b off kk x) := by
  unfold bufPut
  exact sound_modTeam (sound_bufWrite h)

theorem sound_bufTrap {e : Nat × BufErr} :
    SoundRes k (bufTrap e) := by
  unfold bufTrap
  exact sound_trapL

theorem sound_withTouch {c : Ctx} {runs : List (TeamRef × Buf × Nat × Nat)} {kk : State → Res} (ha : Sound k c.s) (hb : ∀ y0,
    Sound k y0 → SoundRes k (kk y0)) :
    SoundRes k (withTouch c runs kk) := by
  unfold withTouch
  split
  · exact ha
  · refine hb _ ?_
    rename_i e
    exact via (OptionAll (Sound k)) e (foldl_holds (OptionAll (Sound k)) (OptionAll.of_some ha)
      (fun x x1 h => OptionAll.bind (Sound k) h (fun s h1 => sound_bufTouch h1)))

end Sys2Proof.Machine
end

section
/-! PROOFS. What Machine/Issue does keeps memory canonical and the devices whole. -/

namespace Sys2Proof.Machine
variable {k : Keep}

theorem sound_unpark {s : State} {r : GroupRef} (h : Sound k s) :
    Sound k (unpark s r) := by
  unfold unpark
  split
  · exact h
  · split
    · exact sound_modGroup (keep h)
    · exact h

theorem sound_delayEnd {s : State} {r : GroupRef} (h : Sound k s) :
    Sound k (delayEnd s r) := by
  unfold delayEnd
  split
  · exact h
  · exact keep h

theorem sound_fetchWalks {s : State} {t : Team} {g : Group} {pc : BitVec 64} (h : Sound k s) :
    Sound k (fetchWalks s t g pc) := by
  unfold fetchWalks
  refine foldl_holds (Sound k) ?_ ?_
  · exact h
  · intro s1 x h1
    split
    · exact h1
    · exact sound_walkRead h1

theorem sound_fetchBytes {s : State} {t : Team} {g : Group} {pc : BitVec 64} (h : Sound k s) :
    SoundFetched k (fetchBytes s t g pc) := by
  unfold fetchBytes
  split
  · dsimp only
    split
    · exact trivial
    · exact h
    · exact h
  · dsimp only
    split
    · exact trivial
    · exact trivial
    · split <;> exact foldl_holds (fun y : List Byte × RdSt × Nat × State => Sound k y.2.2.2) h (fun x x1 h1 => sound_readMem h1)

theorem sound_fetchAhead {s : State} (h : Sound k s) :
    Sound k (fetchAhead s) := by
  unfold fetchAhead
  dsimp only
  split
  · exact h
  · split
    · exact sound_tick h
    · split
      · exact sound_tick h
      · exact sound_tick (sound_modGroup (sound_readMem (sound_walkRead h)))

theorem sound_fetchCommand {s : State} (h : Sound k s) :
    Sound k (fetchCommand s) := by
  unfold fetchCommand
  dsimp only
  split
  · exact h
  · split
    · exact sound_tick h
    · split
      · exact sound_tick h
      · exact sound_tick (sound_modTeam (sound_readMem (sound_walkRead h)))

theorem sound_hostStore {s : State} (h : Sound k s) :
    Sound k (hostStore s) := by
  unfold hostStore
  exact sound_tick (sound_writeMem (sound_endTags h))

theorem sound_idleCycle {s : State} (h : Sound k s) :
    Sound k (idleCycle s) := by
  unfold idleCycle
  split
  · exact sound_fetchAhead h
  · exact sound_fetchCommand h
  · exact sound_tick (sound_forgetWrite h)
  · exact sound_hostStore h

theorem sound_issueCycle {s : State} {core q : Nat} (h : Sound k s) :
    Sound k (issueCycle s core q) := by
  unfold issueCycle
  dsimp only
  split
  · exact keep h
  · split
    · exact sound_idleCycle (keep h)
    · split
      · exact keep h
      · split
        · exact sound_modGroup (keep h)
        · exact keep (sound_modGroup (keep h))

theorem sound_touchRegs {s : State} {t : Team} {g : Group} {i : Instr} {act : BitVec 32} (h : Sound k s) :
    OptionAll (Sound k) (touchRegs s t g i act) := by
  unfold touchRegs
  split
  · exact OptionAll.of_some h
  · exact sound_readWords h

theorem sound_issueWord {s : State} {u : Issuing} {t : Team} {g : Group} {i : Instr} (h : Sound k s) :
    SoundIssued k (issueWord s u t g i) := by
  unfold issueWord
  split
  · exact sound_takeTrap h
  · split
    · exact sound_takeTrap h
    · split
      · exact sound_killTeam (keep h)
      · rename_i e
        exact via (OptionAll (Sound k)) e (sound_touchRegs h)

theorem sound_issueFetch {s : State} {u : Issuing} (h : Sound k s) :
    SoundIssued k (issueFetch s u) := by
  unfold issueFetch
  split
  · split
    · exact sound_takeTrap (sound_modGroup h)
    · split
      · exact sound_takeTrap h
      · split
        · exact sound_takeTrap (sound_fetchWalks h)
        · refine sound_killTeam (keep ?_)
          rename_i e
          exact via (SoundFetched k) e (sound_fetchBytes (sound_fetchWalks h))
        · split
          · refine sound_takeTrap ?_
            rename_i e _ _ _
            exact via (SoundFetched k) e (sound_fetchBytes (sound_fetchWalks h))
          · split
            · refine sound_takeTrap ?_
              rename_i e _ _ _ _ _
              exact via (SoundFetched k) e (sound_fetchBytes (sound_fetchWalks h))
            · refine sound_issueWord ?_
              rename_i e _ _ _ _ _
              exact via (SoundFetched k) e (sound_fetchBytes (sound_fetchWalks h))
  · exact keep h

theorem sound_nextOf {s : State} (h : Sound k s) :
    Sound k (nextOf s).2 := by
  unfold nextOf
  split <;> exact keep h

end Sys2Proof.Machine
end

section
/-! PROOFS. What Machine/Barrier does keeps memory canonical and the devices whole. -/

namespace Sys2Proof.Machine
variable {k : Keep}

theorem sound_barOp {c : Ctx} {x : BarA} {arrive wait : Bool} (h : Sound k c.s) :
    SoundRes k (barOp c x arrive wait) := by
  unfold barOp
  split
  · exact sound_done h
  · split
    · exact True.intro
    · split
      · split
        · dsimp only
          split
          · exact True.intro
          · split
            · exact True.intro
            · split
              · exact True.intro
              · split
                · exact sound_modGroup (sound_modTeam h)
                · exact sound_modTeam h
        · dsimp only
          split
          · exact True.intro
          · split
            · exact True.intro
            · split
              · exact True.intro
              · split <;> exact sound_modTeam h
      · split
        · dsimp only
          split
          · exact True.intro
          · split
            · exact True.intro
            · split
              · exact True.intro
              · split
                · exact sound_modGroup (sound_modTeam h)
                · exact sound_modTeam h
        · dsimp only
          split
          · exact True.intro
          · split
            · exact True.intro
            · split
              · exact True.intro
              · split <;> exact sound_modTeam h

theorem sound_execBara {x : BarA} {s : State} (h : Sound k s) :
    SoundOut k (execBara x s) := by
  unfold execBara
  exact sound_withIssue h (fun x1 h1 => sound_barOp h1)

theorem sound_execBarw {x : BarA} {s : State} (h : Sound k s) :
    SoundOut k (execBarw x s) := by
  unfold execBarw
  exact sound_withIssue h (fun x1 h1 => sound_barOp h1)

theorem sound_execBars {x : BarA} {s : State} (h : Sound k s) :
    SoundOut k (execBars x s) := by
  unfold execBars
  exact sound_withIssue h (fun x1 h1 => sound_barOp h1)

theorem sound_teamBar {c : Ctx} {w : Wait} (h : Sound k c.s) :
    SoundRes k (teamBar c w) := by
  unfold teamBar
  split
  · exact True.intro
  · split
    · exact True.intro
    · exact h

theorem sound_execTbar {x : TbarA} {s : State} (h : Sound k s) :
    SoundOut k (execTbar x s) := by
  unfold execTbar
  exact sound_withIssue h (fun x1 h1 => sound_teamBar h1)

theorem sound_execGbar {x0 : Hdr} {s : State} (h : Sound k s) :
    SoundOut k (execGbar x0 s) := by
  unfold execGbar
  exact sound_withIssue h (fun x h1 => sound_teamBar h1)

theorem sound_execDeadlockTest {kk : GangRef} {s : State} (h : Sound k s) :
    SoundOut k (execDeadlockTest kk s) := by
  unfold execDeadlockTest
  split
  · exact h
  · split
    · dsimp only
      split <;> exact h
    · dsimp only
      split
      · exact h
      · split
        · refine foldl_holds (Sound k) ?_ ?_
          · exact keep h
          · intro s1 x h1
            refine foldl_holds (Sound k) ?_ ?_
            · exact h1
            · intro s2 x1 h2
              split
              · exact h2
              · split
                · exact h2
                · exact sound_trapEntry h2
        · exact foldl_holds (Sound k) (keep h) (fun s1 x h1 => sound_modTeam h1)

end Sys2Proof.Machine
end

section
/-! PROOFS. What Machine/Control does keeps memory canonical and the devices whole. -/

namespace Sys2Proof.Machine
variable {k : Keep}

theorem sound_execBra {x : BraA} {s : State} (h : Sound k s) :
    SoundOut k (execBra x s) := by
  unfold execBra
  exact sound_withIssue h (fun x1 h1 => h1)

theorem sound_execBrx {x : BrxA} {s : State} (h : Sound k s) :
    SoundOut k (execBrx x s) := by
  unfold execBrx
  exact sound_withIssue h (fun x1 h1 => h1)

theorem sound_callTo {c : Ctx} {d : Opnd} {tprio : BitVec 8} {fs : Nat} {f : Nat → Ptr} (h : Sound k c.s) :
    SoundRes k (callTo c d tprio fs f) := by
  unfold callTo
  split
  · exact h
  · dsimp only
    split
    · exact True.intro
    · split
      · exact trivial
      · split
        · exact sound_trapL
        · exact sound_tick (sound_putGroup h)

theorem sound_execCall {x : CallA} {s : State} (h : Sound k s) :
    SoundOut k (execCall x s) := by
  unfold execCall
  exact sound_withIssue h (fun x1 h1 => sound_callTo h1)

theorem sound_execCallx {x : CallxA} {s : State} (h : Sound k s) :
    SoundOut k (execCallx x s) := by
  unfold execCallx
  exact sound_withIssue h (fun x1 h1 => sound_callTo h1)

theorem sound_execRet {x : OneA} {s : State} (h : Sound k s) :
    SoundOut k (execRet x s) := by
  unfold execRet
  refine sound_withIssue ?_ ?_
  · exact h
  · intro x1 h1
    dsimp only
    split
    · exact sound_trapL
    · split
      · exact sound_trapL
      · exact sound_putGroup h1

theorem sound_execExit {x0 : Hdr} {s : State} (h : Sound k s) :
    SoundOut k (execExit x0 s) := by
  unfold execExit
  refine sound_withIssue ?_ ?_
  · exact h
  · intro x h1
    split
    · exact h1
    · split
      · exact sound_handlerExit h1
      · exact h1

theorem sound_execRcv {x0 : Hdr} {s : State} (h : Sound k s) :
    SoundOut k (execRcv x0 s) := by
  unfold execRcv
  exact sound_withIssue h (fun x h1 => h1)

theorem sound_execRcvComplete {r : GroupRef} {pc : BitVec 64} {s : State} (h : Sound k s) :
    SoundOut k (execRcvComplete r pc s) := by
  unfold execRcvComplete
  split
  · exact h
  · dsimp only
    split
    · exact sound_modGroup h
    · exact h

theorem sound_execYield {x0 : Hdr} {s : State} (h : Sound k s) :
    SoundOut k (execYield x0 s) := by
  unfold execYield
  exact sound_withIssue h (fun x h1 => h1)

theorem sound_execSleep {x : SleepA} {s : State} (h : Sound k s) :
    SoundOut k (execSleep x s) := by
  unfold execSleep
  exact sound_withIssue h (fun x1 h1 => h1)

theorem sound_execIssue {core quarter : Nat} {s : State} (h : Sound k s) :
    SoundOut k (execIssue core quarter s) := by
  unfold execIssue
  exact sound_issueCycle h

theorem sound_execSwitchMarkerUnpark {r : GroupRef} {s : State} (h : Sound k s) :
    SoundOut k (execSwitchMarkerUnpark r s) := by
  unfold execSwitchMarkerUnpark
  exact sound_unpark h

theorem sound_execIssueDelayExpire {r : GroupRef} {s : State} (h : Sound k s) :
    SoundOut k (execIssueDelayExpire r s) := by
  unfold execIssueDelayExpire
  exact sound_delayEnd h

theorem sound_execStackSpill {r : GroupRef} {lane : Nat} {s : State} (h : Sound k s) :
    SoundOut k (execStackSpill r lane s) := by
  unfold execStackSpill
  split
  · exact h
  · exact sound_spillLane h

end Sys2Proof.Machine
end

section
/-! PROOFS. What Machine/BufOps does keeps memory canonical and the devices whole. -/

namespace Sys2Proof.Machine
variable {k : Keep}

theorem sound_noteRead {s : State} {r : GroupRef} {m : BitVec 32} {kept : List Nat} {tags : List RelTag} (h : Sound k s) :
    Sound k (noteRead s r m kept tags) := by
  unfold noteRead
  split
  · exact h
  · exact sound_modGroup h

theorem sound_bufStoreAs {r : GroupRef} {core l : Nat} {m : TeamRef} {b : Buf} {off kk x : Nat} {s : State} (h : Sound k s) :
    Sound k (bufStoreAs r core l m b off kk x s) := by
  unfold bufStoreAs
  split
  · exact sound_bufPut h
  · exact sound_modGroup (keep (sound_keepWrite h (keep (sound_bufPut h))))

theorem sound_relBuf {r : GroupRef} {core : Nat} {ls : List Nat} {m : TeamRef} {b : Buf} {runs : List (Nat × Nat)} {s : State} (h : Sound k
    s) :
    Sound k (relBuf r core ls m b runs s) := by
  unfold relBuf
  split
  · dsimp only
    split
    · exact h
    · exact keep h
  · dsimp only
    split
    · exact h
    · exact keep h

theorem sound_seeBuf {r : GroupRef} {ls : BitVec 32} {m : TeamRef} {b : Buf} {runs : List (Nat × Nat)} {s : State} (h : Sound k s) :
    Sound k (seeBuf r ls m b runs s) := by
  unfold seeBuf
  split
  · exact h
  · exact foldl_holds (Sound k) h (fun s1 x h1 => sound_noteRead h1)

theorem sound_loadStep {b : Buf} {x : LdA} {r : GroupRef} {act : BitVec 32} {s : State} {l : Nat} {p : BufAt} (h : Sound k s) :
    OptionAll (fun y => Sound k y.1) (loadStep b x r act s l p) := by
  unfold loadStep
  split
  · exact OptionAll.of_some h
  · refine OptionAll.map (Sound k) ?_ ?_
    · exact sound_bufTouch h
    · intro s1 h1
      split
      · split
        · exact sound_modTeam h1
        · split
          · split
            · exact sound_modGroup (sound_noteRead (sound_modTeam h1))
            · exact sound_noteRead (sound_modTeam h1)
          · exact sound_noteRead (sound_viewTick (sound_modTeam h1))
      · split
        · exact h1
        · split
          · split
            · exact sound_modGroup (sound_noteRead h1)
            · exact sound_noteRead h1
          · exact sound_noteRead (sound_viewTick h1)

theorem sound_loadRun {b : Buf} {x : LdA} {r : GroupRef} {act : LaneMask} {ps : List (Nat × BufAt)} {s : State} (h : Sound k s) :
    OptionAll (fun y => Sound k y.1) (loadRun b x r act ps s) := by
  induction ps generalizing s with
  | nil => exact h
  | cons p rest ih =>
    unfold loadRun
    split
    · split
      · trivial
      · next e =>
        exact OptionAll.map (fun y => Sound k y.1) (ih (via (OptionAll fun y => Sound k y.1) e (sound_loadStep h))) fun _ hq => hq
    · exact OptionAll.map (fun y => Sound k y.1) (ih h) fun _ hq => hq

theorem sound_loadBuf {b : Buf} {i : Instr} {x : LdA} {c : Ctx} (h : Sound k c.s) :
    SoundRes k (loadBuf b i x c) := by
  unfold loadBuf
  split
  · exact sound_done h
  · split
    · exact sound_bufTrap
    · split
      · exact h
      · refine sound_done (sound_tick (sound_modGroup ?_))
        rename_i e
        exact via (OptionAll (fun y : State × List (Nat × BufAt) × List (Nat × BitVec 128 × DWord) => Sound k y.1)) e (sound_loadRun h)
      · rename_i e
        exact via (OptionAll (fun y : State × List (Nat × BufAt) × List (Nat × BitVec 128 × DWord) => Sound k y.1)) e (sound_loadRun h)

theorem sound_execLdw {x : LdA} {s : State} (h : Sound k s) :
    SoundOut k (execLdw x s) := by
  unfold execLdw
  exact sound_withIssue h (fun x1 h1 => sound_loadBuf h1)

theorem sound_execLda {x : LdA} {s : State} (h : Sound k s) :
    SoundOut k (execLda x s) := by
  unfold execLda
  exact sound_withIssue h (fun x1 h1 => sound_loadBuf h1)

theorem sound_execLdc {x : LdA} {s : State} (h : Sound k s) :
    SoundOut k (execLdc x s) := by
  unfold execLdc
  exact sound_withIssue h (fun x1 h1 => sound_loadBuf h1)

theorem sound_boundTrap {c : Ctx} {t : Nat} {lane : Option Nat} {addr : BitVec 64} (h : Sound k c.s) :
    SoundRes k (boundTrap c t lane addr) := by
  unfold boundTrap
  exact sound_modTeam h

theorem sound_flagIf {c : Ctx} {t : Nat} {v : Bool} {s : State} (ha : Sound k c.s) (hb : Sound k s) :
    Sound k (flagIf c t v s) := by
  unfold flagIf
  split
  · exact sound_modTeam hb
  · exact hb

theorem sound_storeBuf_storeAll {b : Buf} {x : StA} {c : Ctx} {ps : List (Nat × BufAt)} {ws : List ((Nat × BufAt) × Bool × Nat)} (h : Sound
    k c.s) :
    SoundRes k (storeBuf.storeAll b x c ps ws) := by
  unfold storeBuf.storeAll
  exact sound_done (sound_tick (sound_modGroup (sound_flagIf h (foldl_holds (Sound k) h (fun s x1 h1 => sound_bufStoreAs h1)))))

theorem sound_storeBuf {b : Buf} {x : StA} {c : Ctx} (h : Sound k c.s) :
    SoundRes k (storeBuf b x c) := by
  unfold storeBuf
  split
  · exact sound_bufTrap
  · dsimp only
    split
    · split
      · exact sound_boundTrap h
      · exact sound_storeBuf_storeAll h
    · exact sound_storeBuf_storeAll h

theorem sound_execSta {x : StA} {s : State} (h : Sound k s) :
    SoundOut k (execSta x s) := by
  unfold execSta
  exact sound_withIssue h (fun x1 h1 => sound_storeBuf h1)

theorem sound_execStc {x : StA} {s : State} (h : Sound k s) :
    SoundOut k (execStc x s) := by
  unfold execStc
  exact sound_withIssue h (fun x1 h1 => sound_storeBuf h1)

theorem sound_accRun {c : Ctx} {bnd : BitVec 128} {ps : List (Nat × Nat × Nat)} {s : State} (h : Sound k s) :
    Sound k (accRun c bnd ps s).1 := by
  induction ps generalizing s with
  | nil => exact h
  | cons p rest ih => exact ih (sound_bufStoreAs h)

theorem sound_execAcc {x : StA} {s : State} (h : Sound k s) :
    SoundOut k (execAcc x s) := by
  unfold execAcc
  refine sound_withIssue ?_ ?_
  · exact h
  · intro x1 h1
    split
    · exact sound_bufTrap
    · refine sound_withTouch ?_ ?_
      · exact h1
      · intro s1 h2
        split
        · dsimp only
          split
          · exact sound_boundTrap h1
          · exact sound_done (sound_tick (sound_modGroup (sound_flagIf h1 (sound_accRun h2))))
        · dsimp only
          split
          · exact sound_boundTrap h1
          · exact sound_done (sound_tick (sound_modGroup (sound_flagIf h1 (sound_accRun h2))))

theorem sound_fragTrap {e : BufErr} :
    SoundRes k (fragTrap e) := by
  unfold fragTrap
  exact trivial

theorem sound_fragTouch {x : LdfragA} {m : TeamRef} {off pitch : Nat} {s : State} (h : Sound k s) :
    OptionAll (Sound k) (fragTouch x m off pitch s) := by
  unfold fragTouch
  split
  · exact OptionAll.of_some h
  · exact foldl_holds (OptionAll (Sound k)) (OptionAll.of_some h)
      (fun x1 x2 h1 => foldl_holds (OptionAll (Sound k)) h1 (fun x3 x4 h2 => OptionAll.bind (Sound k) h2 (fun s1 h3 => sound_bufTouch h3)))

theorem sound_fragFound {s : State} {x : LdfragA} {r : GroupRef} {u : Team} {off pitch : Nat} (h : Sound k s) :
    Sound k (fragFound s x r u off pitch).2 := by
  unfold fragFound
  split
  · exact h
  · split
    · exact sound_modGroup h
    · exact keep (foldl_holds (Sound k) h (fun s1 x1 h1 => foldl_holds (Sound k) h1 (fun s2 x2 h2 => sound_noteRead h2)))

theorem sound_fragRead {x : LdfragA} {r : GroupRef} {m : TeamRef} {off pitch : Nat} {s : State} (h : Sound k s) :
    OptionAll (Sound k) (fragRead x r m off pitch s) := by
  unfold fragRead
  refine OptionAll.map (Sound k) ?_ ?_
  · exact sound_fragTouch h
  · intro s1 h1
    split
    · exact h1
    · exact sound_modGroup (sound_fragFound h1)

theorem sound_execLdfrag {x : LdfragA} {s : State} (h : Sound k s) :
    SoundOut k (execLdfrag x s) := by
  unfold execLdfrag
  refine sound_withIssue ?_ ?_
  · exact h
  · intro x1 h1
    split
    · exact sound_done h1
    · dsimp only
      split
      · exact sound_fragTrap
      · split
        · split
          · exact h1
          · split
            · exact h1
            · refine sound_done (sound_tick ?_)
              rename_i e
              exact via (OptionAll (Sound k)) e (sound_fragRead h1)
        · split
          · exact h1
          · split
            · exact h1
            · refine sound_done (sound_tick ?_)
              rename_i e
              exact via (OptionAll (Sound k)) e (sound_fragRead h1)

theorem sound_execStfrag {x : StfragA} {s : State} (h : Sound k s) :
    SoundOut k (execStfrag x s) := by
  unfold execStfrag
  refine sound_withIssue ?_ ?_
  · exact h
  · intro x1 h1
    split
    · exact sound_done h1
    · split
      · dsimp only
        split
        · exact sound_fragTrap
        · split
          · exact sound_boundTrap h1
          · exact sound_done (sound_flagIf h1 (foldl_holds (Sound k)
              (foldl_holds (Sound k) h1 (fun s1 x2 h2 => foldl_holds (Sound k) h2 (fun s2 x3 h3 => sound_bufPut h3)))
              (fun s1 x2 h2 => sound_relBuf h2)))
      · dsimp only
        split
        · exact sound_fragTrap
        · split
          · exact sound_boundTrap h1
          · exact sound_done (sound_flagIf h1 (foldl_holds (Sound k)
              (foldl_holds (Sound k) h1 (fun s1 x2 h2 => foldl_holds (Sound k) h2 (fun s2 x3 h3 => sound_bufPut h3)))
              (fun s1 x2 h2 => sound_relBuf h2)))

theorem sound_fePlaces {c : Ctx} {mem bufA : Bool} {a b : Opnd} {off : BitVec 32} {limit : Nat} {perLane : Bool} (h : Sound k c.s) :
    ExceptAll (SoundRes k) (fun _ => True) (fePlaces c mem bufA a b off limit perLane) := by
  unfold fePlaces
  split
  · split
    · dsimp only
      split
      · exact ExceptAll.of_error True.intro
      · split
        · exact ExceptAll.of_error sound_bufTrap
        · exact ExceptAll.of_ok trivial
    · dsimp only
      split
      · exact ExceptAll.of_error True.intro
      · split
        · exact ExceptAll.of_error sound_bufTrap
        · exact ExceptAll.of_ok trivial
  · split
    · dsimp only
      split
      · exact ExceptAll.of_error True.intro
      · split
        · exact ExceptAll.of_error sound_bufTrap
        · exact ExceptAll.of_ok trivial
    · dsimp only
      split
      · exact ExceptAll.of_error True.intro
      · split
        · exact ExceptAll.of_error sound_bufTrap
        · exact ExceptAll.of_ok trivial

theorem sound_feOp {x : FesA} {full : Bool} {c : Ctx} (h : Sound k c.s) :
    SoundRes k (feOp x full c) := by
  unfold feOp
  split
  · exact sound_done h
  · split
    · rename_i e
      exact via (ExceptAll (SoundRes k) (fun _ => True)) e (sound_fePlaces h)
    · exact sound_done (foldl_holds (Sound k) h (fun s x1 h1 => sound_modTeam h1))

theorem sound_execFeset {x : FesA} {s : State} (h : Sound k s) :
    SoundOut k (execFeset x s) := by
  unfold execFeset
  exact sound_withIssue h (fun x1 h1 => sound_feOp h1)

theorem sound_execFeclr {x : FesA} {s : State} (h : Sound k s) :
    SoundOut k (execFeclr x s) := by
  unfold execFeclr
  exact sound_withIssue h (fun x1 h1 => sound_feOp h1)

theorem sound_execFeprobe {x : FeprobeA} {s : State} (h : Sound k s) :
    SoundOut k (execFeprobe x s) := by
  unfold execFeprobe
  refine sound_withIssue ?_ ?_
  · exact h
  · intro x1 h1
    split
    · exact sound_done h1
    · split
      · rename_i e
        exact via (ExceptAll (SoundRes k) (fun _ => True)) e (sound_fePlaces h1)
      · exact sound_resFree h1

theorem sound_frameTouch {s : State} {r : GroupRef} {i : Instr} {ps : List (Nat × Nat × BitVec 128)} (h : Sound k s) :
    OptionAll (Sound k) (frameTouch s r i ps) := by
  unfold frameTouch
  split
  · exact OptionAll.of_some h
  · split
    · exact foldl_holds (OptionAll (Sound k)) (OptionAll.of_some h)
        (fun x x1 h1 => OptionAll.bind (Sound k) h1 (fun s1 h2 => sound_touchStack h2))
    · exact OptionAll.of_some (foldl_holds (Sound k) h (fun s1 x h1 => sound_freshStack h1))
    · exact OptionAll.of_some h

theorem sound_frameRun {c : Ctx} {i : Instr} {ps : List (Nat × Nat × BitVec 128)} {ks : List RegKey} (h : Sound k c.s) :
    SoundRes k (frameRun c i ps ks) := by
  unfold frameRun
  split
  · split
    · exact h
    · refine sound_done (sound_tick (sound_modGroup ?_))
      rename_i e
      exact via (OptionAll (Sound k)) e (sound_frameTouch h)
  · exact h

theorem sound_execLds {x : LdsA} {s : State} (h : Sound k s) :
    SoundOut k (execLds x s) := by
  unfold execLds
  refine sound_withIssue ?_ ?_
  · exact h
  · intro x1 h1
    split
    · exact sound_bufTrap
    · exact sound_frameRun h1

theorem sound_execSts {x : StsA} {s : State} (h : Sound k s) :
    SoundOut k (execSts x s) := by
  unfold execSts
  refine sound_withIssue ?_ ?_
  · exact h
  · intro x1 h1
    split
    · exact sound_bufTrap
    · exact sound_frameRun h1

theorem sound_frameWake {s : State} {r : GroupRef} (h : Sound k s) :
    Sound k (frameWake s r) := by
  unfold frameWake
  split
  · exact h
  · refine foldl_holds (Sound k) ?_ ?_
    · exact h
    · intro s1 x h1
      split
      · split
        · split
          · exact sound_killTeam h1
          · refine sound_freshRegs (sound_modGroup ?_)
            rename_i e
            exact via (OptionAll (Sound k)) e (sound_frameTouch h1)
        · exact h1
      · exact h1

theorem sound_execStackFill {r : GroupRef} {lane : Nat} {s : State} (h : Sound k s) :
    SoundOut k (execStackFill r lane s) := by
  unfold execStackFill
  split
  · split
    · dsimp only
      split
      · exact sound_frameWake (sound_putGroup (sound_fillLane h))
      · exact sound_killTeam (sound_fillLane h)
      · exact sound_killTeam (sound_fillLane h)
    · exact h
  · exact h

theorem sound_feLoadLane {s : State} {r : GroupRef} {e : Entry} {i : Instr} {ls : List (Nat × Nat × Nat × DWord)} {got : List (Nat × BitVec
    128 × DWord)} {lane : Nat} (h : Sound k s) :
    Sound k (feLoadLane s r e i ls got lane) := by
  unfold feLoadLane
  split
  · split
    · dsimp only
      split
      · split
        · exact sound_killTeam h
        · split
          · refine sound_freshRegs (sound_modGroup ?_)
            rename_i e1 _
            exact via (OptionAll (fun y : State × BitVec 128 => Sound k y.1)) e1 (sound_loadStep h)
          · refine sound_modGroup ?_
            rename_i e1 _
            exact via (OptionAll (fun y : State × BitVec 128 => Sound k y.1)) e1 (sound_loadStep h)
      · exact h
    · dsimp only
      split
      · split
        · exact sound_killTeam h
        · split
          · refine sound_freshRegs (sound_modGroup ?_)
            rename_i e1 _
            exact via (OptionAll (fun y : State × BitVec 128 => Sound k y.1)) e1 (sound_loadStep h)
          · refine sound_modGroup ?_
            rename_i e1 _
            exact via (OptionAll (fun y : State × BitVec 128 => Sound k y.1)) e1 (sound_loadStep h)
      · exact h
  · exact h

theorem sound_feFragLane {s : State} {r : GroupRef} {e : Entry} {i : Instr} {m off pitch : Nat} (h : Sound k s) :
    Sound k (feFragLane s r e i m off pitch) := by
  unfold feFragLane
  split
  · split
    · exact h
    · split
      · split
        · exact sound_killTeam h
        · refine sound_freshRegs (sound_modGroup ?_)
          rename_i e1
          exact via (OptionAll (Sound k)) e1 (sound_fragRead h)
      · exact h
  · exact h

end Sys2Proof.Machine
end

section
/-! PROOFS. What Machine/FloatOps does keeps memory canonical and the devices whole. -/

namespace Sys2Proof.Machine
variable {k : Keep}

theorem sound_runF {x0 : Hdr} {d : Opnd} {lat : Nat} {s : State} {f : Group → Nat → Nat} (h : Sound k s) :
    SoundOut k (runF x0 d lat s f) := by
  unfold runF
  exact sound_withIssue h (fun x h1 => sound_resFixed h1)

theorem sound_execFadd {x : FBin} {s : State} (h : Sound k s) :
    SoundOut k (execFadd x s) := by
  unfold execFadd
  exact sound_runF h

theorem sound_execFsub {x : FBin} {s : State} (h : Sound k s) :
    SoundOut k (execFsub x s) := by
  unfold execFsub
  exact sound_runF h

theorem sound_execFmul {x : FBin} {s : State} (h : Sound k s) :
    SoundOut k (execFmul x s) := by
  unfold execFmul
  exact sound_runF h

theorem sound_execFfma {x : FTern} {s : State} (h : Sound k s) :
    SoundOut k (execFfma x s) := by
  unfold execFfma
  exact sound_runF h

theorem sound_execFmin {x : FBin} {s : State} (h : Sound k s) :
    SoundOut k (execFmin x s) := by
  unfold execFmin
  exact sound_runF h

theorem sound_execFmax {x : FBin} {s : State} (h : Sound k s) :
    SoundOut k (execFmax x s) := by
  unfold execFmax
  exact sound_runF h

theorem sound_execFcmp {x : FCmpA} {s : State} (h : Sound k s) :
    SoundOut k (execFcmp x s) := by
  unfold execFcmp
  exact sound_withIssue h (fun x1 h1 => sound_resFixed h1)

theorem sound_execFrcp {x : FUn} {s : State} (h : Sound k s) :
    SoundOut k (execFrcp x s) := by
  unfold execFrcp
  exact sound_runF h

theorem sound_execFrsq {x : FUn} {s : State} (h : Sound k s) :
    SoundOut k (execFrsq x s) := by
  unfold execFrsq
  exact sound_runF h

theorem sound_execFsqrt {x : FUn} {s : State} (h : Sound k s) :
    SoundOut k (execFsqrt x s) := by
  unfold execFsqrt
  exact sound_runF h

theorem sound_execFex2 {x : FUn} {s : State} (h : Sound k s) :
    SoundOut k (execFex2 x s) := by
  unfold execFex2
  exact sound_runF h

theorem sound_execFlg2 {x : FUn} {s : State} (h : Sound k s) :
    SoundOut k (execFlg2 x s) := by
  unfold execFlg2
  exact sound_runF h

theorem sound_execFsin {x : FUn} {s : State} (h : Sound k s) :
    SoundOut k (execFsin x s) := by
  unfold execFsin
  exact sound_runF h

theorem sound_execFcos {x : FUn} {s : State} (h : Sound k s) :
    SoundOut k (execFcos x s) := by
  unfold execFcos
  exact sound_runF h

theorem sound_execFclass {x : FClassA} {s : State} (h : Sound k s) :
    SoundOut k (execFclass x s) := by
  unfold execFclass
  exact sound_withIssue h (fun x1 h1 => sound_resFixed h1)

theorem sound_execFscale {x : FBin} {s : State} (h : Sound k s) :
    SoundOut k (execFscale x s) := by
  unfold execFscale
  exact sound_runF h

theorem sound_execPadd2 {x : FBin} {s : State} (h : Sound k s) :
    SoundOut k (execPadd2 x s) := by
  unfold execPadd2
  exact sound_runF h

theorem sound_execPmul2 {x : FBin} {s : State} (h : Sound k s) :
    SoundOut k (execPmul2 x s) := by
  unfold execPmul2
  exact sound_runF h

theorem sound_execPfma2 {x : FTern} {s : State} (h : Sound k s) :
    SoundOut k (execPfma2 x s) := by
  unfold execPfma2
  exact sound_runF h

theorem sound_execCvt {x : CvtA} {s : State} (h : Sound k s) :
    SoundOut k (execCvt x s) := by
  unfold execCvt
  exact sound_withIssue h (fun x1 h1 => sound_resFixed h1)

theorem sound_execLsemrg {x : FBin} {s : State} (h : Sound k s) :
    SoundOut k (execLsemrg x s) := by
  unfold execLsemrg
  exact sound_withIssue h (fun x1 h1 => sound_resFixed h1)

end Sys2Proof.Machine
end

section
/-! PROOFS. What Machine/IntOps does keeps memory canonical and the devices whole. -/

namespace Sys2Proof.Machine
variable {k : Keep}

theorem sound_runI {x0 : Hdr} {d : Opnd} {ty : Ty} {lat : Nat} {s : State} {f : Group → Nat → DWord} (h : Sound k s) :
    SoundOut k (runI x0 d ty lat s f) := by
  unfold runI
  exact sound_withIssue h (fun x h1 => sound_resFixed h1)

theorem sound_intBin {x : IBin} {lat : Nat} {s : State} {f : ℤ → ℤ → ℤ} (h : Sound k s) :
    SoundOut k (intBin x lat s f) := by
  unfold intBin
  exact sound_runI h

theorem sound_intUn {x : IUn} {lat : Nat} {s : State} {f : ℤ → ℤ} (h : Sound k s) :
    SoundOut k (intUn x lat s f) := by
  unfold intUn
  exact sound_runI h

theorem sound_patBin {x : IBin} {lat : Nat} {s : State} {f : Nat → Nat → Nat} (h : Sound k s) :
    SoundOut k (patBin x lat s f) := by
  unfold patBin
  exact sound_runI h

theorem sound_patUn {x : IUn} {lat : Nat} {s : State} {f : Nat → Nat} (h : Sound k s) :
    SoundOut k (patUn x lat s f) := by
  unfold patUn
  exact sound_runI h

theorem sound_execIadd {x : IBin} {s : State} (h : Sound k s) :
    SoundOut k (execIadd x s) := by
  unfold execIadd
  exact sound_intBin h

theorem sound_execIsub {x : IBin} {s : State} (h : Sound k s) :
    SoundOut k (execIsub x s) := by
  unfold execIsub
  exact sound_intBin h

theorem sound_execImul {x : IBin} {s : State} (h : Sound k s) :
    SoundOut k (execImul x s) := by
  unfold execImul
  exact sound_intBin h

theorem sound_execImulh {x : IBin} {s : State} (h : Sound k s) :
    SoundOut k (execImulh x s) := by
  unfold execImulh
  exact sound_intBin h

theorem sound_execImad {x : ITern} {s : State} (h : Sound k s) :
    SoundOut k (execImad x s) := by
  unfold execImad
  exact sound_runI h

theorem sound_execImin {x : IBin} {s : State} (h : Sound k s) :
    SoundOut k (execImin x s) := by
  unfold execImin
  exact sound_intBin h

theorem sound_execImax {x : IBin} {s : State} (h : Sound k s) :
    SoundOut k (execImax x s) := by
  unfold execImax
  exact sound_intBin h

theorem sound_execIabs {x : IUn} {s : State} (h : Sound k s) :
    SoundOut k (execIabs x s) := by
  unfold execIabs
  exact sound_intUn h

theorem sound_execIneg {x : IUn} {s : State} (h : Sound k s) :
    SoundOut k (execIneg x s) := by
  unfold execIneg
  exact sound_intUn h

theorem sound_execAnd {x : IBin} {s : State} (h : Sound k s) :
    SoundOut k (execAnd x s) := by
  unfold execAnd
  exact sound_patBin h

theorem sound_execOr {x : IBin} {s : State} (h : Sound k s) :
    SoundOut k (execOr x s) := by
  unfold execOr
  exact sound_patBin h

theorem sound_execXor {x : IBin} {s : State} (h : Sound k s) :
    SoundOut k (execXor x s) := by
  unfold execXor
  exact sound_patBin h

theorem sound_execAndn {x : IBin} {s : State} (h : Sound k s) :
    SoundOut k (execAndn x s) := by
  unfold execAndn
  exact sound_patBin h

theorem sound_execNot {x : IUn} {s : State} (h : Sound k s) :
    SoundOut k (execNot x s) := by
  unfold execNot
  exact sound_patUn h

theorem sound_shiftOp {x : IBin} {s : State} {f : Nat → Nat → Nat → Nat} (h : Sound k s) :
    SoundOut k (shiftOp x s f) := by
  unfold shiftOp
  exact sound_patBin h

theorem sound_execShl {x : IBin} {s : State} (h : Sound k s) :
    SoundOut k (execShl x s) := by
  unfold execShl
  exact sound_shiftOp h

theorem sound_execShr {x : IBin} {s : State} (h : Sound k s) :
    SoundOut k (execShr x s) := by
  unfold execShr
  exact sound_shiftOp h

theorem sound_execSar {x : IBin} {s : State} (h : Sound k s) :
    SoundOut k (execSar x s) := by
  unfold execSar
  exact sound_shiftOp h

theorem sound_execRol {x : IBin} {s : State} (h : Sound k s) :
    SoundOut k (execRol x s) := by
  unfold execRol
  exact sound_shiftOp h

theorem sound_execPopc {x : IUn} {s : State} (h : Sound k s) :
    SoundOut k (execPopc x s) := by
  unfold execPopc
  exact sound_patUn h

theorem sound_execClz {x : IUn} {s : State} (h : Sound k s) :
    SoundOut k (execClz x s) := by
  unfold execClz
  exact sound_patUn h

theorem sound_execBrev {x : IUn} {s : State} (h : Sound k s) :
    SoundOut k (execBrev x s) := by
  unfold execBrev
  exact sound_patUn h

theorem sound_execBfx {x : IBin} {s : State} (h : Sound k s) :
    SoundOut k (execBfx x s) := by
  unfold execBfx
  exact sound_patBin h

theorem sound_execBfi {x : ITern} {s : State} (h : Sound k s) :
    SoundOut k (execBfi x s) := by
  unfold execBfi
  exact sound_runI h

theorem sound_execBsel {x : IBsel} {s : State} (h : Sound k s) :
    SoundOut k (execBsel x s) := by
  unfold execBsel
  exact sound_runI h

theorem sound_execIcmp {x : IBin} {s : State} (h : Sound k s) :
    SoundOut k (execIcmp x s) := by
  unfold execIcmp
  exact sound_withIssue h (fun x1 h1 => sound_resFixed h1)

theorem sound_execLea {x : IBin} {s : State} (h : Sound k s) :
    SoundOut k (execLea x s) := by
  unfold execLea
  exact sound_intBin h

theorem sound_execIaddx {x : ITern} {s : State} (h : Sound k s) :
    SoundOut k (execIaddx x s) := by
  unfold execIaddx
  exact sound_withIssue h (fun x1 h1 => sound_done (sound_putGroup h1))

end Sys2Proof.Machine
end

section
/-! PROOFS. What Machine/Collect does keeps memory canonical and the devices whole. -/

namespace Sys2Proof.Machine
variable {k : Keep}

theorem sound_execPart {x : PartA} {s : State} (h : Sound k s) :
    SoundOut k (execPart x s) := by
  unfold execPart
  refine sound_withIssue ?_ ?_
  · exact h
  · intro x1 h1
    split
    · exact sound_done h1
    · dsimp only
      split
      · exact True.intro
      · exact sound_done (sound_modGroup h1)

theorem sound_collective {c : Ctx} {i : Instr} {a b : Nat → BitVec 128} (h : Sound k c.s) :
    SoundRes k (collective c i a b) := by
  unfold collective
  split
  · dsimp only
    split
    · exact sound_done h
    · split
      · exact sound_tick (sound_putGroup h)
      · exact h
  · dsimp only
    split
    · exact trivial
    · split
      · exact sound_tick (sound_putGroup h)
      · exact h

theorem sound_execVote {x : VoteA} {s : State} (h : Sound k s) :
    SoundOut k (execVote x s) := by
  unfold execVote
  exact sound_withIssue h (fun x1 h1 => sound_collective h1)

theorem sound_execShfl {x : ShflA} {s : State} (h : Sound k s) :
    SoundOut k (execShfl x s) := by
  unfold execShfl
  exact sound_withIssue h (fun x1 h1 => sound_collective h1)

theorem sound_execReduce {x : ReduceA} {s : State} (h : Sound k s) :
    SoundOut k (execReduce x s) := by
  unfold execReduce
  exact sound_withIssue h (fun x1 h1 => sound_collective h1)

theorem sound_execScan {x : ScanA} {s : State} (h : Sound k s) :
    SoundOut k (execScan x s) := by
  unfold execScan
  exact sound_withIssue h (fun x1 h1 => sound_collective h1)

theorem sound_execBcast {x : BcastA} {s : State} (h : Sound k s) :
    SoundOut k (execBcast x s) := by
  unfold execBcast
  exact sound_withIssue h (fun x1 h1 => sound_collective h1)

theorem sound_execCollectiveConverge {r : GroupRef} {lane : Nat} {s : State} (h : Sound k s) :
    SoundOut k (execCollectiveConverge r lane s) := by
  unfold execCollectiveConverge
  split
  · exact h
  · dsimp only
    split
    · exact h
    · split
      · exact sound_freshRegs (sound_modGroup h)
      · exact h

end Sys2Proof.Machine
end

section
/-! PROOFS. What Machine/Tree does keeps memory canonical and the devices whole. -/

namespace Sys2Proof.Machine
variable {k : Keep}

theorem sound_setNamedCount {s : State} {x : Named} {c : Nat} (h : Sound k s) :
    Sound k (setNamedCount s x c) := by
  unfold setNamedCount
  split
  · exact sound_setNode h
  · exact sound_setFrameCount h
  · exact h

theorem sound_treeTnode {s : State} {ld d : Nat} {src : Option Nat} (h : Sound k s) :
    ExceptAll (fun _ => True) (Sound k) (treeTnode s ld d src) := by
  unfold treeTnode
  split
  · dsimp only
    split
    · exact ExceptAll.of_error trivial
    · exact ExceptAll.of_ok (sound_setNode (foldl_holds (Sound k) (sound_hwWrite h) (fun s1 x h1 => sound_setNamedCount h1)))
  · dsimp only
    split
    · exact ExceptAll.of_error trivial
    · exact ExceptAll.of_ok (sound_setNode (foldl_holds (Sound k) (sound_hwWrite (sound_tableRead h))
        (fun s1 x h1 => sound_setNamedCount h1)))

theorem sound_dropNamed {s : State} {ld : Nat} {x : Named} (h : Sound k s) :
    Sound k (dropNamed s ld x) := by
  unfold dropNamed
  split
  · exact sound_dropNodeCount h
  · dsimp only
    split
    · split
      · exact sound_ringAppend (sound_dropFrameCount h)
      · exact sound_addReclaim (sound_dropFrameCount h)
    · exact sound_addReclaim (sound_dropFrameCount h)
  · exact h

theorem sound_treeTset {s : State} {ld n idx level e : Nat} (h : Sound k s) :
    ExceptAll (fun _ => True) (Sound k) (treeTset s ld n idx level e) := by
  unfold treeTset
  split
  · exact ExceptAll.of_error trivial
  · split
    · dsimp only
      split
      · exact ExceptAll.of_error trivial
      · split
        · exact ExceptAll.of_ok (sound_hwWrite h)
        · exact ExceptAll.of_ok (sound_dropNamed (sound_setNamedCount (sound_hwWrite h)))
    · dsimp only
      split
      · exact ExceptAll.of_error trivial
      · split
        · exact ExceptAll.of_ok (sound_hwWrite h)
        · exact ExceptAll.of_ok (sound_dropNamed (sound_setNamedCount (sound_hwWrite h)))

theorem sound_publishAll {fuel : Nat} {ns : List Nat} {s : State} (h : Sound k s) : Sound k (publishAll fuel ns s) := by
  induction fuel, ns, s using publishAll.induct with
  | case1 => exact h
  | case2 fuel s hf =>
    cases fuel with
    | zero => exact h
    | succ n => exact h
  | case3 fuel n rest s hn kids ih =>
    rw [publishAll, if_pos hn]
    exact ih (sound_setNode h)
  | case4 fuel n rest s hn ih =>
    rw [publishAll, if_neg hn]
    exact ih h

theorem sound_fillSlot {s : State} {ld kk n : Nat} {past : List Nat} (h : Sound k s) :
    Sound k (fillSlot s ld kk n past) := by
  unfold fillSlot
  refine sound_modLd ?_ ?_
  · exact sound_setNode h
  · intro x h1
    simpa only [Whole, lset_length, List.length_map] using ‹Whole _›

theorem sound_treeRswap {s : State} {ld kk n x : Nat} {past : List Nat} (h : Sound k s) :
    ExceptAll (fun _ => True) (fun y => Sound k y.1) (treeRswap s ld kk n x past) := by
  unfold treeRswap
  dsimp only
  split
  · exact ExceptAll.of_error trivial
  · split
    · split
      · exact ExceptAll.of_ok (sound_fillSlot (sound_setNode (sound_retireRoot (sound_setNode (sound_publishAll h)))))
      · exact ExceptAll.of_ok h
    · split
      · exact ExceptAll.of_ok (sound_fillSlot (sound_setNode (sound_setNode (sound_publishAll h))))
      · exact ExceptAll.of_ok h

theorem sound_treeRcopy {s : State} {ld j kk : Nat} {past : List Nat} (h : Sound k s) :
    ExceptAll (fun _ => True) (fun y => Sound k y.1) (treeRcopy s ld j kk past) := by
  unfold treeRcopy
  dsimp only
  split
  · exact ExceptAll.of_error trivial
  · exact ExceptAll.of_ok (sound_fillSlot h)

theorem sound_treeRdrop {s : State} {ld kk : Nat} (h : Sound k s) :
    ExceptAll (fun _ => True) (Sound k) (treeRdrop s ld kk) := by
  unfold treeRdrop
  split
  · exact ExceptAll.of_error trivial
  · exact ExceptAll.of_ok (sound_retireRoot h)

theorem sound_treeRdropNode {s : State} {ld n : Nat} (h : Sound k s) :
    ExceptAll (fun _ => True) (Sound k) (treeRdropNode s ld n) := by
  unfold treeRdropNode
  split
  · exact ExceptAll.of_error trivial
  · exact ExceptAll.of_ok (sound_addReclaim (sound_releaseNode h))

theorem sound_treeTinv {s : State} {ld gen : Nat} (h : Sound k s) :
    ExceptAll (fun _ => True) (Sound k) (treeTinv s ld gen) := by
  unfold treeTinv
  exact ExceptAll.of_ok (sound_dropCached h)

theorem sound_settleMove {s : State} {m : Migration} (h : Sound k s) :
    Sound k (settleMove s m) := by
  unfold settleMove
  split
  · split
    · dsimp only
      split
      · exact h
      · exact keep h
    · dsimp only
      split
      · exact h
      · split
        · exact keep h
        · exact sound_setLdReg (keep h)
  · split
    · dsimp only
      split
      · exact h
      · exact keep h
    · dsimp only
      split
      · exact h
      · split
        · exact keep h
        · exact sound_setLdReg (keep h)

theorem sound_settleMoves {s : State} {ld slot : Nat} (h : Sound k s) :
    Sound k (settleMoves s ld slot) := by
  unfold settleMoves
  exact foldl_holds (Sound k) h (fun s1 x h1 => sound_settleMove h1)

theorem sound_askMove {s : State} {ld slot va grid : Nat} (h : Sound k s) :
    Sound k (askMove s ld slot va grid) := by
  unfold askMove
  split
  · exact h
  · split
    · dsimp only
      split
      · exact h
      · exact keep h
    · dsimp only
      split
      · exact h
      · exact keep h

theorem sound_cacheSector {s : State} {sec : Nat} (h : Sound k s) :
    Sound k (cacheSector s sec) := by
  unfold cacheSector
  dsimp only
  split
  · exact h
  · exact sound_modLd h (fun x h1 => ‹_›)

end Sys2Proof.Machine
end

section
/-! PROOFS. What Machine/Reset does keeps memory canonical and the devices whole. -/

namespace Sys2Proof.Machine
variable {k : Keep}

theorem sound_agent {s : State} {f : State → State} (ha : Sound k s) (hb : ∀ y0, Sound k y0 → Sound k (f y0)) :
    SoundOut k (agent s f) := by
  unfold agent
  split
  · exact hb _ ha
  · exact ha

theorem sound_powered {s : State} {on : Bool} (h : Sound k s) : Sound k (powered s on) := by
  cases k with
  | memory => exact stWf_filter _ _ h
  | devices => exact sound_State_reset (k := .devices)

theorem sound_packageStop {s : State} (h : Sound k s) : Sound k (packageStop s) := by
  refine keep_map h (fun d hd => ?_) rfl rfl
  obtain ⟨hs, hr, hq⟩ := hd
  exact ⟨hs, hr, List.length_map _ |>.trans hq⟩

theorem sound_packageBoot {s : State} (h : Sound k s) : Sound k (packageBoot s) := by
  cases k with
  | memory => exact h
  | devices => exact sound_State_reset (k := .devices)

theorem sound_packageCool {s : State} (h : Sound k s) :
    Sound k (packageCool s) := by
  unfold packageCool
  split
  · exact sound_packageBoot h
  · exact h

theorem sound_packageReset {s : State} (h : Sound k s) :
    Sound k (packageReset s) := by
  unfold packageReset
  split
  · exact sound_packageCool (sound_packageStop h)
  · exact h

theorem sound_leaveShadow {s : State} {n : Nat} (h : Sound k s) :
    Sound k (leaveShadow s n) := by
  unfold leaveShadow
  exact foldl_holds (Sound k) h (fun s1 x h1 => sound_addStale h1)

theorem sound_ldStop {s : State} {n : Nat} (h : Sound k s) :
    Sound k (ldStop s n) := by
  unfold ldStop
  refine keep (sound_removeTeams (sound_leaveShadow ?_))
  refine sound_modLd ?_ ?_
  · exact h
  · intro x h1
    simpa only [Whole, lset_length, List.length_map] using ‹Whole _›

theorem sound_ldTrees {s : State} {n : Nat} {frames : List Nat} (h : Sound k s) : Sound k (ldTrees s n frames) := by
  unfold ldTrees
  refine sound_modLd (foldl_holds (Sound k) h fun s f hs => sound_setFrameCount ?_) fun d hd => ?_
  · split
    · exact foldl_holds (Sound k) hs fun s i hs => sound_setNode hs
    · exact hs
  · obtain ⟨_, _, hq⟩ := hd
    exact ⟨List.length_replicate, List.length_replicate, hq⟩

theorem sound_ldRegs {s : State} {n : Nat} (h : Sound k s) :
    Sound k (ldRegs s n) := by
  unfold ldRegs
  exact sound_modLd h (fun x h1 => ‹_›)

theorem sound_ldClear {s : State} {frames : List Nat} (h : Sound k s) :
    Sound k (ldClear s frames) := by
  unfold ldClear
  exact keep h

theorem sound_ldFinish {s : State} {n : Nat} (h : Sound k s) :
    Sound k (ldFinish s n) := by
  unfold ldFinish
  exact sound_raiseMsix (sound_logEvent (keep (sound_modLd (sound_ldClear (sound_ldRegs (sound_ldTrees (keep (sound_zeroLd h)))))
    (fun x h1 => ‹_›))))

theorem sound_sysDeliver {s : State} {r : TeamRef} {v : BitVec 64} (h : Sound k s) :
    Sound k (sysDeliver s r v) := by
  unfold sysDeliver
  split
  · exact h
  · exact sound_modTeam h

theorem sound_sysReply {s : State} {ld : Nat} {token v : BitVec 64} {past : List Nat} (h : Sound k s) :
    Sound k (sysReply s ld token v past) := by
  unfold sysReply
  split
  · exact sound_logEvent h
  · dsimp only
    split
    · split
      · exact sound_sysDeliver (sound_modTeam h)
      · exact sound_modGang (sound_modTeam (sound_modTeam h))
    · exact sound_modTeam h

end Sys2Proof.Machine
end

section
/-! PROOFS. What Machine/Devregs does keeps memory canonical and the devices whole. -/

namespace Sys2Proof.Machine
variable {k : Keep}

theorem sound_modQueue {s : State} {ld q : Nat} {f : Queue → Queue} (h : Sound k s) :
    Sound k (modQueue s ld q f) := by
  unfold modQueue
  refine sound_modLd ?_ ?_
  · exact h
  · intro x h1
    simpa only [Whole, lset_length, List.length_map] using ‹Whole _›

theorem sound_tailGain {s : State} {pa : Nat} {ids : List Nat} (h : Sound k s) :
    Sound k (tailGain s pa ids) := by
  unfold tailGain
  split
  · exact sound_modQueue h
  · exact h

theorem sound_netGain {s : State} {pa n : Nat} {ids : List Nat} (h : Sound k s) : Sound k (netGain s pa n ids) := by
  unfold netGain
  split
  · exact h
  · exact keep_map h (f := fun d => { d with netPast := (List.range 8).map (pairGain s pa n ids d) }) (fun _ hd => hd) rfl rfl

theorem sound_tellEngines {s : State} {pa kk : Nat} {tags : List RelTag} (h : Sound k s) :
    Sound k (tellEngines s pa kk tags) := by
  unfold tellEngines
  exact sound_netGain (sound_tailGain h)

theorem sound_setTail {s : State} {ld q : Nat} {v : BitVec 32} (h : Sound k s) :
    Sound k (setTail s ld q v) := by
  unfold setTail
  exact sound_modQueue h

theorem sound_setQueueWord {s : State} {ld q kk : Nat} {v : BitVec 64} (h : Sound k s) :
    Sound k (setQueueWord s ld q kk v) := by
  unfold setQueueWord
  split
  · exact sound_modQueue h
  · split
    · exact sound_modQueue h
    · split
      · exact sound_setQb (sound_modQueue h)
      · split
        · exact h
        · exact sound_setQb h

theorem sound_portDone {s : State} {x1 : Nat} {r : Except (Nat × Nat) (State × Option Nat)} (ha : Sound k s)
    (hb : ExceptAll (fun _ => True) (fun y => Sound k y.1) r) :
    Sound k (portDone s x1 r) := by
  unfold portDone
  split
  · exact keep ha
  · exact keep hb

theorem sound_portOp {s : State} {x1 : Nat} {w : BitVec 64} {opc mods : Nat} {f : Hart → Nat → Except (Nat × Nat)
    (State × Option Nat)} (ha : Sound k s) (hb : ∀ y0 y1, ExceptAll (fun _ => True) (fun y => Sound k y.1) (f y0 y1)) :
    Sound k (portOp s x1 w opc mods f) := by
  unfold portOp
  split
  · exact ha
  · split
    · dsimp only
      split <;> exact sound_portDone ha (ExceptAll.of_error trivial)
    · dsimp only
      split
      · exact sound_portDone ha (ExceptAll.of_error trivial)
      · exact sound_portDone ha (hb _ _)

theorem sound_noVal {r : Except (Nat × Nat) State} (h : ExceptAll (fun _ => True) (Sound k) r) :
    ExceptAll (fun _ => True) (fun y => Sound k y.1) (noVal r) := by
  unfold noVal
  exact ExceptAll.map (Sound k) h (fun s h1 => h1)

theorem sound_withVal {r : Except (Nat × Nat) (State × Nat)} (h : ExceptAll (fun _ => True) (fun y => Sound k y.1) r) :
    ExceptAll (fun _ => True) (fun y => Sound k y.1) (withVal r) := by
  unfold withVal
  exact ExceptAll.map (fun y : State × Nat => Sound k y.1) h (fun x h1 => h1)

theorem sound_portTnode {s : State} {x1 : Nat} {w : BitVec 64} (h : Sound k s) :
    Sound k (portTnode s x1 w) := by
  unfold portTnode
  exact sound_portOp h (fun x x2 => sound_noVal (sound_treeTnode h))

theorem sound_portTset {s : State} {x1 : Nat} {w : BitVec 64} (h : Sound k s) :
    Sound k (portTset s x1 w) := by
  unfold portTset
  exact sound_portOp h (fun x x2 => sound_noVal (sound_treeTset h))

theorem sound_portRswap {s : State} {x1 : Nat} {w : BitVec 64} (h : Sound k s) :
    Sound k (portRswap s x1 w) := by
  unfold portRswap
  refine sound_portOp ?_ ?_
  · exact h
  · intro x x2
    refine sound_withVal ?_
    refine ExceptAll.map (fun y : State × Nat => Sound k y.1) ?_ ?_
    · exact sound_treeRswap h
    · intro x3 h1
      split
      · exact h1
      · exact sound_settleMoves h1

theorem sound_portRcopy {s : State} {x1 : Nat} {w : BitVec 64} (h : Sound k s) :
    Sound k (portRcopy s x1 w) := by
  unfold portRcopy
  exact sound_portOp h (fun x x2 => sound_withVal (sound_treeRcopy h))

theorem sound_portRdrop {s : State} {x1 : Nat} {w : BitVec 64} (h : Sound k s) :
    Sound k (portRdrop s x1 w) := by
  unfold portRdrop
  refine sound_portOp ?_ ?_
  · exact h
  · intro x x2
    refine sound_noVal ?_
    split
    · exact sound_treeRdropNode h
    · exact sound_treeRdrop h

theorem sound_portTinv {s : State} {x1 : Nat} {w : BitVec 64} (h : Sound k s) :
    Sound k (portTinv s x1 w) := by
  unfold portTinv
  exact sound_portOp h (fun x x2 => sound_noVal (sound_treeTinv h))

theorem sound_portWrite {s : State} {x1 : Nat} {w : BitVec 64} (h : Sound k s) :
    Sound k (portWrite s x1 w) := by
  unfold portWrite
  dsimp only
  split
  · exact sound_portTnode h
  · split
    · exact sound_portTset h
    · split
      · exact sound_portRswap h
      · split
        · exact sound_portRcopy h
        · split
          · exact sound_portRdrop h
          · split
            · exact sound_portTinv h
            · exact sound_portDone h (ExceptAll.of_error trivial)

theorem sound_endGrid {s : State} {ld : Nat} {id : BitVec 64} (h : Sound k s) :
    Sound k (endGrid s ld id) := by
  unfold endGrid
  split
  · exact sound_failGrid h
  · exact h

theorem sound_qbWrite {s : State} {who : Who} {ld off : Nat} {v : BitVec 64} (h : Sound k s) :
    Sound k (qbWrite s who ld off v) := by
  unfold qbWrite
  split
  · split
    · exact sound_endGrid h
    · exact h
  · split
    · split
      · exact sound_setQb h
      · exact h
    · split
      · split
        · exact sound_setQb h
        · exact h
      · split
        · exact h
        · split
          · split
            · exact sound_setQb h
            · exact h
          · split
            · split
              · exact sound_sysReply h
              · exact h
            · split
              · split
                · exact keep h
                · exact h
              · split
                · split
                  · exact sound_packageReset h
                  · exact h
                · split
                  · exact sound_setQb h
                  · split
                    · exact sound_setQb h
                    · exact h

theorem sound_devWrite {s : State} {who : Who} {pa : Nat} {v : BitVec 64} (h : Sound k s) :
    Sound k (devWrite s who pa v) := by
  unfold devWrite
  split
  · exact h
  · exact sound_setQueueWord h
  · exact sound_qbWrite h
  · split
    · exact sound_portWrite h
    · split
      · exact keep h
      · split
        · exact keep h
        · split
          · exact keep h
          · exact h

theorem sound_devPut {s : State} {who : Who} {pa : Nat} {bs : List Byte} (h : Sound k s) :
    Sound k (devPut s who pa bs) := by
  unfold devPut
  exact foldl_holds (Sound k) h (fun s1 x h1 => sound_devWrite h1)

theorem sound_busRead {s : State} {who : Who} {pa kk : Nat} (h : Sound k s) :
    Sound k (busRead s who pa kk).2.2 := by
  unfold busRead
  split
  · exact h
  · exact sound_readMem h

theorem sound_busPut {s : State} {who : Who} {pa : Nat} {bs : List Byte} (h : Sound k s) :
    Sound k (busPut s who pa bs) := by
  unfold busPut
  split
  · exact sound_devPut h
  · exact sound_writeMem h

theorem sound_busWrite {s : State} {who : Who} {pa : Nat} {bs : List Byte} (h : Sound k s) :
    Sound k (busWrite s who pa bs) := by
  unfold busWrite
  exact sound_busPut (sound_endTags h)

theorem sound_busRelease {s : State} {who : Who} {by' : Party} {sc : Scope} {past : List Nat} {pa : Nat} {bs : List Byte} (h : Sound k s) :
    Sound k (busRelease s who by' sc past pa bs) := by
  unfold busRelease
  exact sound_addTag (sound_busWrite h)

theorem sound_privWrite {s : State} {ld n v idx : Nat} (h : Sound k s) :
    Sound k (privWrite s ld n v idx) := by
  unfold privWrite
  split
  · split
    · exact h
    · exact sound_hwWrite h
  · split
    · split
      · exact h
      · exact keep (sound_setPkgReg h)
    · split
      · split
        · exact keep h
        · exact h
      · split
        · split
          · exact sound_setPkgReg h
          · exact sound_setLdReg h
        · exact h

end Sys2Proof.Machine
end

section
/-! PROOFS. What Machine/Kv does keeps memory canonical and the devices whole. -/

namespace Sys2Proof.Machine
variable {k : Keep}

theorem sound_kvRead {s : State} {f : Nat} (h : Sound k s) :
    Sound k (kvRead s f).2.2 := by
  unfold kvRead
  exact sound_readMem h

theorem sound_kvWrite {s : State} {f x2 : Nat} (h : Sound k s) :
    Sound k (kvWrite s f x2) := by
  unfold kvWrite
  exact sound_writeMem h

theorem sound_kvPoison {s : State} {f : Nat} (h : Sound k s) :
    Sound k (kvPoison s f) := by
  unfold kvPoison
  dsimp only
  split
  · exact sound_kvWrite (sound_kvRead h)
  · exact sound_kvRead h

theorem sound_kvConsume {s : State} {pa : Nat} (h : Sound k s) :
    Sound k (kvConsume s pa) := by
  unfold kvConsume
  split
  · exact sound_kvPoison h
  · exact h

end Sys2Proof.Machine
end

section
/-! PROOFS. What Machine/Engine does keeps memory canonical and the devices whole. -/

namespace Sys2Proof.Machine
variable {k : Keep}

theorem sound_engGet {s : State} {e : Eng} {pa n : Nat} (h : Sound k s) :
    Sound k (engGet s e pa n).2.2.2 := by
  unfold engGet
  split
  · exact sound_busRead h
  · exact sound_viewTick (sound_busRead h)

theorem sound_engRead {s : State} {e : Eng} {p : BitVec 64} {n : Nat} (h : Sound k s) :
    ExceptAll (fun _ => True) (fun y => Sound k y.s) (engRead s e p n) := by
  unfold engRead
  exact foldl_holds (ExceptAll (fun _ => True) (fun y : EngRd => Sound k y.s)) (ExceptAll.of_ok h)
    (fun x x1 h1 => ExceptAll.bind (fun y : EngRd => Sound k y.s) h1 (fun x2 h2 => ExceptAll.map (fun _ => True) ExceptAll.true (fun x3 h3
      => sound_engGet (sound_walkRead h2))))

theorem sound_engWrote {s0 s : State} {e : Eng} {loc : Nat} {old : List Byte} {kept : List Nat} (ha : Sound k s0) (hb : Sound k s) :
    Sound k (engWrote s0 s e loc old kept) := by
  unfold engWrote
  exact sound_addJoin (sound_addJoin (sound_keepWrite ha (keep hb)))

theorem sound_engPut {s : State} {e : Eng} {pa : Nat} {bs : List Byte} {kept : List Nat} (h : Sound k s) :
    Sound k (engPut s e pa bs kept) := by
  unfold engPut
  split
  · exact sound_tailGain (sound_dropTags (sound_busPut h))
  · exact sound_engWrote h (sound_dropTags (sound_busPut h))

theorem sound_engWrite {s : State} {e : Eng} {p : BitVec 64} {bs : List Byte} (h : Sound k s) :
    ExceptAll (fun _ => True) (Sound k) (engWrite s e p bs) := by
  unfold engWrite
  exact ExceptAll.map (fun _ => True) ExceptAll.true (fun x h1 => foldl_holds (Sound k) h (fun s1 x1 h2 => sound_busWrite (sound_walkRead
      h2)))

theorem sound_mediumWrite {s : State} {w : DriveWrite} (h : Sound k s) :
    Sound k (mediumWrite s w) := by
  unfold mediumWrite
  exact keep h

theorem sound_driveSettle {s : State} (h : Sound k s) :
    Sound k (driveSettle s) := by
  unfold driveSettle
  exact keep (foldl_holds (Sound k) h (fun s1 x h1 => sound_mediumWrite h1))

theorem sound_driveSure {s : State} {p : DriveWrite → Bool} (h : Sound k s) :
    Sound k (driveSure s p) := by
  unfold driveSure
  exact sound_driveSettle (keep h)

theorem sound_driveFlush {s : State} {d : Nat} {after : List Nat} (h : Sound k s) :
    Sound k (driveFlush s d after) := by
  unfold driveFlush
  exact keep (sound_driveSure h)

theorem sound_drivePowerLoss {s : State} (h : Sound k s) :
    Sound k (drivePowerLoss s) := by
  unfold drivePowerLoss
  refine keep ?_
  refine foldl_holds (Sound k) ?_ ?_
  · exact h
  · intro s1 x h1
    split
    · exact sound_mediumWrite h1
    · split
      · exact sound_mediumWrite (sound_tick h1)
      · exact sound_tick h1

theorem sound_bufRd {s : State} {e : Eng} {t : TeamRef} {b : Buf} {off n : Nat} (h : Sound k s) :
    Sound k (bufRd s e t b off n).s := by
  unfold bufRd
  split
  · exact h
  · split
    · split
      · rename_i e1 _ _ _
        exact via (OptionAll (Sound k)) e1 (sound_bufTouch h)
      · refine sound_viewTick ?_
        rename_i e1 _ _ _
        exact via (OptionAll (Sound k)) e1 (sound_bufTouch h)
    · split
      · split
        · rename_i e1 _ _ _ _ _
          exact via (OptionAll (Sound k)) e1 (sound_bufTouch h)
        · refine sound_viewTick ?_
          rename_i e1 _ _ _ _ _
          exact via (OptionAll (Sound k)) e1 (sound_bufTouch h)
      · split
        · rename_i e1 _ _ _ _ _
          exact via (OptionAll (Sound k)) e1 (sound_bufTouch h)
        · refine sound_viewTick ?_
          rename_i e1 _ _ _ _ _
          exact via (OptionAll (Sound k)) e1 (sound_bufTouch h)

theorem sound_locRead {s : State} {e : Eng} {l : Loc} {n : Nat} (h : Sound k s) :
    Sound k (locRead s e l n).s := by
  unfold locRead
  split
  · split
    · rename_i e1
      exact via (ExceptAll (fun _ => True) (fun y : EngRd => Sound k y.s)) e1 (sound_engRead h)
    · exact h
  · exact sound_bufRd h
  · exact h
  · exact h

theorem sound_bufLand {s : State} {e : Eng} {t : TeamRef} {b : Buf} {off : Nat} {bs : List Byte} {kept : List Nat} {rest : List Piece} (h :
    Sound k s) :
    Sound k (bufLand s e t b off bs kept rest) := by
  unfold bufLand
  exact sound_engWrote h (sound_modTeam (sound_bufWrite h))

theorem sound_locWrite {s : State} {e : Eng} {l : Loc} {bs : List Byte} {kept : List Nat} {rest : List Piece} (h : Sound k s) :
    Sound k (locWrite s e l bs kept rest) := by
  unfold locWrite
  split
  · split
    · exact sound_engPut (sound_walkRead h)
    · exact h
  · exact sound_bufLand h
  · exact keep h
  · exact h

theorem sound_locPoison {s : State} {e : Eng} {l : Loc} {n : Nat} (h : Sound k s) :
    Sound k (locPoison s e l n) := by
  unfold locPoison
  split
  · split
    · split
      · exact sound_poisonSec h
      · exact h
    · exact h
  · exact h

theorem sound_pieceMove {s : State} {e : Eng} {rest : List Piece} {x : Piece} (h : Sound k s) :
    SoundMoved k (pieceMove s e rest x) := by
  unfold pieceMove
  split
  · exact h
  · split
    · dsimp only
      split
      · exact sound_locWrite (sound_locRead h)
      · exact sound_killTeam (sound_kvConsume (sound_locRead h))
    · dsimp only
      split
      · exact sound_locWrite (sound_locRead h)
      · exact sound_locPoison (sound_kvConsume (sound_locRead h))

theorem sound_arrMod {s : State} {t : TeamRef} {arr : Nat} {f : Nat → Nat} (h : Sound k s) :
    Sound k (arrMod s t arr f) := by
  unfold arrMod
  split
  · exact h
  · exact sound_bufPut h

theorem sound_arrError {s : State} {t : TeamRef} {arr cause detail : Nat} {ipt : Bool} (h : Sound k s) :
    Sound k (arrError s t arr cause detail ipt) := by
  unfold arrError
  exact sound_arrMod h

theorem sound_arrOvr {s : State} {t : TeamRef} {arr : Nat} (h : Sound k s) :
    Sound k (arrOvr s t arr) := by
  unfold arrOvr
  exact sound_arrMod h

theorem sound_arrJoin {s : State} {t : TeamRef} {arr op : Nat} (h : Sound k s) :
    Sound k (arrJoin s t arr op) := by
  unfold arrJoin
  split
  · exact h
  · exact sound_addJoin h

theorem sound_arrDec {s : State} {t : TeamRef} {arr op n cause detail : Nat} (h : Sound k s) :
    Sound k (arrDec s t arr op n cause detail) := by
  unfold arrDec
  exact sound_arrMod (sound_arrJoin h)

end Sys2Proof.Machine
end

section
/-! PROOFS. What Machine/Copy does keeps memory canonical and the devices whole. -/

namespace Sys2Proof.Machine
variable {k : Keep}

theorem sound_modReq {s : State} {id : Nat} {f : Req → Req} (h : Sound k s) :
    Sound k (modReq s id f) := by
  unfold modReq
  exact keep h

theorem sound_reqGone {s : State} {q : Req} (h : Sound k s) :
    Sound k (reqGone s q) := by
  unfold reqGone
  exact sound_bury (keep (sound_dropPin h))

theorem sound_reqFail {s : State} {q : Req} {cause detail left : Nat} {ipt : Bool} (h : Sound k s) :
    Sound k (reqFail s q cause detail left ipt) := by
  unfold reqFail
  split
  · dsimp only
    split
    · exact sound_reqGone h
    · exact sound_modReq (sound_dropPin h)
  · dsimp only
    split
    · exact sound_reqGone h
    · exact sound_modReq (sound_dropPin (sound_arrError h))

theorem sound_readIndex {s : State} {e : Eng} {p : BitVec 64} (h : Sound k s) :
    Sound k (readIndex s e p).1 := by
  unfold readIndex
  split
  · exact h
  · split
    · refine sound_addJoin ?_
      rename_i e1 _
      exact via (ExceptAll (fun _ => True) (fun y : EngRd => Sound k y.s)) e1 (sound_engRead h)
    · refine sound_kvConsume ?_
      rename_i e1 _
      exact via (ExceptAll (fun _ => True) (fun y : EngRd => Sound k y.s)) e1 (sound_engRead h)

theorem sound_reqIndex {s : State} {e : Eng} {t : Team} {q : Req} (h : Sound k s) :
    Sound k (reqIndex s e t q) := by
  obtain ⟨readIndex', e_readIndex⟩ : ∃ f, f = @readIndex := ⟨_, rfl⟩
  have h_readIndex := @sound_readIndex k
  rw [← e_readIndex] at h_readIndex
  apply unfold_head (fun f => Sound k (f s e t q)) (x := @reqIndex)
  · delta reqIndex
    rfl
  · rw [← e_readIndex]
    dsimp only
    split
    · exact sound_reqFail (h_readIndex (sound_tick h))
    · exact sound_modReq (h_readIndex (sound_tick h))

theorem sound_reqPiece {s : State} {e : Eng} {q : Req} {i : Nat} {x : Piece} (h : Sound k s) :
    Sound k (reqPiece s e q i x) := by
  unfold reqPiece
  dsimp only
  split
  · exact sound_modReq (sound_tick h)
  · split
    · refine sound_modReq ?_
      rename_i e1
      exact via (SoundMoved k) e1 (sound_pieceMove (sound_tick h))
    · refine sound_reqFail ?_
      rename_i e1
      exact via (SoundMoved k) e1 (sound_pieceMove (sound_tick h))
    · refine sound_reqGone ?_
      rename_i e1
      exact via (SoundMoved k) e1 (sound_pieceMove (sound_tick h))

theorem sound_reqStep {s : State} {refuse : Bool} {t : Team} {q : Req} (h : Sound k s) :
    Sound k (reqStep s refuse t q) := by
  unfold reqStep
  split
  · dsimp only
    split
    · exact sound_reqPiece h
    · exact h
  · dsimp only
    split
    · exact sound_reqPiece h
    · exact sound_reqIndex h

theorem sound_reqBegin {s : State} {t : Team} {q : Req} (h : Sound k s) :
    Sound k (reqBegin s t q) := by
  unfold reqBegin
  split
  · exact sound_arrOvr (sound_modReq h)
  · exact sound_modReq h

theorem sound_reqTake {s : State} {q : Req} (h : Sound k s) :
    Sound k (reqTake s q) := by
  unfold reqTake
  split
  · split
    · exact sound_reqGone h
    · split
      · dsimp only
        split
        · exact sound_reqBegin h
        · exact sound_reqGone h
      · dsimp only
        split
        · exact sound_reqBegin (sound_tick h)
        · exact sound_reqGone (sound_tick h)
  · split
    · exact sound_reqFail h
    · exact sound_reqBegin h

theorem sound_reqGo {s : State} {refuse : Bool} {q : Req} (h : Sound k s) :
    Sound k (reqGo s refuse q) := by
  unfold reqGo
  split
  · exact sound_reqGone h
  · split
    · exact sound_reqGone h
    · exact sound_reqStep h

theorem sound_reqNext {s : State} {refuse : Bool} {id : Nat} (h : Sound k s) :
    Sound k (reqNext s refuse id) := by
  unfold reqNext
  split
  · exact h
  · split
    · dsimp only
      split
      · exact sound_reqTake h
      · split
        · exact sound_reqGo (sound_reqTake h)
        · exact sound_reqTake h
    · dsimp only
      split
      · exact h
      · split
        · exact sound_reqGo h
        · exact h

theorem sound_engineStep {s : State} {core step : Nat} (h : Sound k s) :
    Sound k (engineStep s core step) := by
  unfold engineStep
  dsimp only
  split
  · exact h
  · exact sound_reqNext (sound_tick h)

theorem sound_execCopyLinear {core : Nat} {s : State} (h : Sound k s) :
    SoundOut k (execCopyLinear core s) := by
  unfold execCopyLinear
  exact sound_agent h (fun s1 h1 => sound_engineStep h1)

theorem sound_execCopyTiled {core : Nat} {s : State} (h : Sound k s) :
    SoundOut k (execCopyTiled core s) := by
  unfold execCopyTiled
  exact sound_agent h (fun s1 h1 => sound_engineStep h1)

theorem sound_execCopyGather {core : Nat} {s : State} (h : Sound k s) :
    SoundOut k (execCopyGather core s) := by
  unfold execCopyGather
  exact sound_agent h (fun s1 h1 => sound_engineStep h1)

theorem sound_execCopyScatter {core : Nat} {s : State} (h : Sound k s) :
    SoundOut k (execCopyScatter core s) := by
  unfold execCopyScatter
  exact sound_agent h (fun s1 h1 => sound_engineStep h1)

theorem sound_execCopyImage {core : Nat} {s : State} (h : Sound k s) :
    SoundOut k (execCopyImage core s) := by
  unfold execCopyImage
  exact sound_agent h (fun s1 h1 => sound_engineStep h1)

theorem sound_execStread {core : Nat} {s : State} (h : Sound k s) :
    SoundOut k (execStread core s) := by
  unfold execStread
  exact sound_agent h (fun s1 h1 => sound_engineStep h1)

theorem sound_execStwrite {core : Nat} {s : State} (h : Sound k s) :
    SoundOut k (execStwrite core s) := by
  unfold execStwrite
  exact sound_agent h (fun s1 h1 => sound_engineStep h1)

theorem sound_execStflush {core : Nat} {s : State} (h : Sound k s) :
    SoundOut k (execStflush core s) := by
  unfold execStflush
  exact sound_agent h (fun s1 h1 => sound_engineStep h1)

theorem sound_execDriveError {req : Nat} {status : BitVec 16} {s : State} (h : Sound k s) :
    SoundOut k (execDriveError req status s) := by
  unfold execDriveError
  refine sound_agent ?_ ?_
  · exact h
  · intro s1 h1
    split
    · exact h1
    · split
      · exact sound_reqFail (sound_logEvent h1)
      · exact h1

theorem sound_execCopyRequestDone {req : Nat} {s : State} (h : Sound k s) :
    SoundOut k (execCopyRequestDone req s) := by
  unfold execCopyRequestDone
  refine sound_agent ?_ ?_
  · exact h
  · intro s1 h1
    split
    · exact h1
    · split
      · exact h1
      · split
        · dsimp only
          split
          · exact sound_reqGone (sound_driveFlush h1)
          · exact sound_modReq (sound_dropPin (sound_driveFlush h1))
        · split
          · dsimp only
            split
            · exact sound_reqGone (sound_driveSure h1)
            · exact sound_modReq (sound_dropPin (sound_driveSure h1))
          · dsimp only
            split
            · exact sound_reqGone h1
            · exact sound_modReq (sound_dropPin h1)

theorem sound_execArrivalDecrement {op : Nat} {s : State} (h : Sound k s) :
    SoundOut k (execArrivalDecrement op s) := by
  unfold execArrivalDecrement
  refine sound_agent ?_ ?_
  · exact h
  · intro s1 h1
    split
    · split
      · exact h1
      · exact sound_modReq (sound_arrDec (sound_tick h1))
    · split
      · exact h1
      · split
        · exact h1
        · split
          · split
            · dsimp only
              split
              · exact sound_bury (keep (sound_dropPin h1))
              · exact keep h1
            · dsimp only
              split
              · exact sound_bury (keep (sound_dropPin (sound_arrDec (sound_tick h1))))
              · exact keep (sound_arrDec (sound_tick h1))
          · split
            · dsimp only
              split
              · exact sound_bury (keep (sound_dropPin h1))
              · exact keep h1
            · dsimp only
              split
              · exact sound_bury (keep (sound_dropPin (sound_arrDec (sound_tick h1))))
              · exact keep (sound_arrDec (sound_tick h1))

theorem sound_trapA {cause detail : Nat} {addr : BitVec 64} :
    SoundRes k (trapA cause detail addr) := by
  unfold trapA
  exact trivial

theorem sound_producer {c : Ctx} {kk : Res} (ha : Sound k c.s) (hb : SoundRes k kk) :
    SoundRes k (producer c kk) := by
  unfold producer
  split
  · exact sound_done ha
  · split
    · exact True.intro
    · exact hb

theorem sound_execCreq {x : CreqA} {s : State} (h : Sound k s) :
    SoundOut k (execCreq x s) := by
  unfold execCreq
  refine sound_withIssue ?_ ?_
  · exact h
  · intro x1 h1
    refine sound_producer ?_ ?_
    · exact h1
    · split
      · exact sound_trapA
      · split
        · exact sound_trapA
        · exact sound_done (sound_tick (sound_modGroup (sound_relBuf (sound_bufPut h1))))

theorem sound_submit {s : State} {r : GroupRef} {m : BitVec 32} {recs : List (Nat × Nat)} (h : Sound k s) :
    Sound k (submit s r m recs) := by
  unfold submit
  split
  · exact sound_modGroup (foldl_holds (Sound k) h (fun s1 x h1 => keep (sound_copyPin h1)))
  · exact h

theorem sound_execKick {x : CreqA} {s : State} (h : Sound k s) :
    SoundOut k (execKick x s) := by
  unfold execKick
  refine sound_withIssue ?_ ?_
  · exact h
  · intro x1 h1
    refine sound_producer ?_ ?_
    · exact h1
    · dsimp only
      split
      · exact sound_trapA
      · split
        · exact sound_done h1
        · split
          · exact sound_trapA
          · refine sound_withTouch ?_ ?_
            · exact h1
            · intro s1 h2
              split
              · exact h2
              · exact sound_done (sound_tick (sound_modGroup (sound_submit h2)))

theorem sound_execKickRoom {r : GroupRef} {lane : Nat} {s : State} (h : Sound k s) :
    SoundOut k (execKickRoom r lane s) := by
  unfold execKickRoom
  refine sound_agent ?_ ?_
  · exact h
  · intro s1 h1
    split
    · split
      · split
        · exact h1
        · exact sound_modGroup (sound_submit h1)
      · exact h1
    · exact h1

theorem sound_execCseal {x : OneD} {s : State} (h : Sound k s) :
    SoundOut k (execCseal x s) := by
  unfold execCseal
  refine sound_withIssue ?_ ?_
  · exact h
  · intro x1 h1
    refine sound_producer ?_ ?_
    · exact h1
    · split
      · exact h1
      · exact sound_done (sound_tick (sound_modGroup h1))

theorem sound_execCsealRoom {r : GroupRef} {lane : Nat} {s : State} (h : Sound k s) :
    SoundOut k (execCsealRoom r lane s) := by
  unfold execCsealRoom
  refine sound_agent ?_ ?_
  · exact h
  · intro s1 h1
    split
    · exact h1
    · split
      · split
        · exact h1
        · exact sound_modGroup h1
      · exact h1

theorem sound_dropBatches {s : State} {r : GroupRef} (h : Sound k s) :
    Sound k (dropBatches s r) := by
  unfold dropBatches
  split
  · exact h
  · exact keep (sound_modGroup h)

theorem sound_joinBatches {s : State} {r : GroupRef} {m : BitVec 32} {g : Group} (h : Sound k s) :
    Sound k (joinBatches s r m g).1 := by
  unfold joinBatches
  dsimp only
  split
  · exact sound_dropBatches (sound_modGroup h)
  · exact sound_dropBatches (sound_modGroup (sound_modGroup h))

theorem sound_execCwait {x : OneB} {s : State} (h : Sound k s) :
    SoundOut k (execCwait x s) := by
  unfold execCwait
  refine sound_withIssue ?_ ?_
  · exact h
  · intro x1 h1
    split
    · exact sound_done h1
    · split
      · dsimp only
        split
        · exact h1
        · refine sound_done ?_
          rename_i e _
          exact via (fun y : State × Option (Nat × Nat × Nat) => Sound k y.1) e (sound_joinBatches h1)
      · dsimp only
        split
        · exact h1
        · rename_i e _
          exact via (fun y : State × Option (Nat × Nat × Nat) => Sound k y.1) e (sound_joinBatches h1)

theorem sound_execCwaitReturn {r : GroupRef} {lane : Nat} {s : State} (h : Sound k s) :
    SoundOut k (execCwaitReturn r lane s) := by
  unfold execCwaitReturn
  refine sound_agent ?_ ?_
  · exact h
  · intro s1 h1
    split
    · exact h1
    · split
      · split
        · exact h1
        · split
          · refine sound_modGroup ?_
            rename_i e
            exact via (fun y : State × Option (Nat × Nat × Nat) => Sound k y.1) e (sound_joinBatches h1)
          · refine sound_trapEntry ?_
            rename_i e
            exact via (fun y : State × Option (Nat × Nat × Nat) => Sound k y.1) e (sound_joinBatches h1)
      · exact h1

end Sys2Proof.Machine
end

section
/-! PROOFS. What Machine/Far does keeps memory canonical and the devices whole. -/

namespace Sys2Proof.Machine
variable {k : Keep}

theorem sound_farIssue {c : Ctx} {op : FarOp} {base : Nat} {s : State} {l : Nat} {m : BitVec 32} {kk : FarKind} {pa leaf : Nat} {p : BitVec
    64} (ha : Sound k c.s) (hb : Sound k s) :
    Sound k (farIssue c op base s l m kk pa leaf p) := by
  unfold farIssue
  split
  · exact hb
  · exact keep (sound_modGroup hb)

theorem sound_farRun {c : Ctx} {op : FarOp} {single : Bool} {kind : Nat → FarKind} {note : List Nat → State → State} (ha : Sound k c.s)
    (hb : ∀ y0 y1, Sound k y1 → Sound k (note y0 y1)) :
    SoundRes k (farRun c op single kind note) := by
  unfold farRun
  split
  · dsimp only
    split
    · split
      · refine foldl_holds (Sound k) ?_ ?_
        · exact hb _ _ (foldl_holds (Sound k) (foldl_holds (Sound k) ha (fun s x h => sound_walkRead h)) (fun s x h => sound_farIssue ha h))
        · intro s x h
          split
          · exact sound_askMove h
          · exact h
      · refine foldl_holds (Sound k) ?_ ?_
        · exact hb _ _ (foldl_holds (Sound k) (foldl_holds (Sound k) ha (fun s x h => sound_walkRead h)) (fun s x h => sound_farIssue ha h))
        · intro s x h
          split
          · exact sound_askMove h
          · exact h
    · refine foldl_holds (Sound k) ?_ ?_
      · exact hb _ _ (foldl_holds (Sound k) (foldl_holds (Sound k) ha (fun s x h => sound_walkRead h)) (fun s x h => sound_farIssue ha h))
      · intro s x h
        split
        · exact sound_askMove h
        · exact h
  · dsimp only
    split
    · split
      · refine foldl_holds (Sound k) ?_ ?_
        · exact hb _ _ (foldl_holds (Sound k) (foldl_holds (Sound k) ha (fun s x h => sound_walkRead h)) (fun s x h => sound_farIssue ha h))
        · intro s x h
          split
          · exact sound_askMove h
          · exact h
      · refine foldl_holds (Sound k) ?_ ?_
        · exact hb _ _ (foldl_holds (Sound k) (foldl_holds (Sound k) ha (fun s x h => sound_walkRead h)) (fun s x h => sound_farIssue ha h))
        · intro s x h
          split
          · exact sound_askMove h
          · exact h
    · refine foldl_holds (Sound k) ?_ ?_
      · exact hb _ _ (foldl_holds (Sound k) (foldl_holds (Sound k) ha (fun s x h => sound_walkRead h)) (fun s x h => sound_farIssue ha h))
      · intro s x h
        split
        · exact sound_askMove h
        · exact h

theorem sound_execFld {x : FldA} {s : State} (h : Sound k s) :
    SoundOut k (execFld x s) := by
  unfold execFld
  refine sound_withIssue ?_ ?_
  · exact h
  · intro x1 h1
    split
    · exact sound_done h1
    · exact sound_farRun h1 (fun x2 s1 h2 => h2)

theorem sound_execFst {x : FstA} {s : State} (h : Sound k s) :
    SoundOut k (execFst x s) := by
  unfold execFst
  refine sound_withIssue ?_ ?_
  · exact h
  · intro x1 h1
    split
    · exact sound_done h1
    · dsimp only
      split
      · exact sound_modTeam h1
      · refine sound_farRun ?_ ?_
        · exact h1
        · intro x2 s1 h2
          split
          · exact sound_modTeam h2
          · exact h2

theorem sound_execFatom {x : FatomA} {s : State} (h : Sound k s) :
    SoundOut k (execFatom x s) := by
  unfold execFatom
  refine sound_withIssue ?_ ?_
  · exact h
  · intro x1 h1
    split
    · exact sound_done h1
    · exact sound_farRun h1 (fun x2 s1 h2 => h2)

theorem sound_execFcas {x : FcasA} {s : State} (h : Sound k s) :
    SoundOut k (execFcas x s) := by
  unfold execFcas
  refine sound_withIssue ?_ ?_
  · exact h
  · intro x1 h1
    split
    · exact sound_done h1
    · exact sound_farRun h1 (fun x2 s1 h2 => h2)

theorem sound_fenceLane {x : FenceA} {r : GroupRef} {core : Nat} {s : State} {l : Nat} (h : Sound k s) :
    Sound k (fenceLane x r core s l) := by
  unfold fenceLane
  split
  · exact h
  · refine sound_modGroup ?_
    split
    · split
      · split
        · exact keep (keep h)
        · exact keep h
      · split
        · exact keep (keep h)
        · exact keep h
    · split
      · split
        · exact keep h
        · exact h
      · split
        · exact keep h
        · exact h

theorem sound_execFence {x : FenceA} {s : State} (h : Sound k s) :
    SoundOut k (execFence x s) := by
  unfold execFence
  refine sound_withIssue ?_ ?_
  · exact h
  · intro x1 h1
    split
    · exact h1
    · dsimp only
      split
      · split
        · exact foldl_holds (Sound k) h1 (fun s1 x2 h2 => sound_fenceLane h2)
        · exact sound_done (foldl_holds (Sound k) h1 (fun s1 x2 h2 => sound_fenceLane h2))
      · split
        · exact foldl_holds (Sound k) h1 (fun s1 x2 h2 => sound_fenceLane h2)
        · exact sound_done (foldl_holds (Sound k) h1 (fun s1 x2 h2 => sound_fenceLane h2))

end Sys2Proof.Machine
end

section
/-! PROOFS. What Machine/Perform does keeps memory canonical and the devices whole. -/

namespace Sys2Proof.Machine
variable {k : Keep}

theorem sound_farHome {s : State} {f : Far} (h : Sound k s) :
    Sound k (farHome s f).1 := by
  unfold farHome
  split
  · exact sound_busRead h
  · exact sound_busPut h
  · dsimp only
    split
    · exact sound_busPut (sound_busRead h)
    · exact sound_busRead h
  · dsimp only
    split
    · exact sound_busPut (sound_busRead h)
    · exact sound_busRead h

theorem sound_recordWrite {s0 s : State} {f : Far} {rmw : Bool} (ha : Sound k s0) (hb : Sound k s) :
    Sound k (recordWrite s0 s f rmw) := by
  unfold recordWrite
  refine sound_tellEngines (keep ?_)
  split
  · split
    · exact hb
    · exact sound_keepWrite ha hb
  · refine sound_dropTags ?_
    split
    · exact hb
    · exact sound_keepWrite ha hb

theorem sound_farOrder {s0 s : State} {f : Far} {wrote : Option Bool} {v : View} (ha : Sound k s0) (hb : Sound k s) :
    Sound k (farOrder s0 s f wrote v) := by
  unfold farOrder
  refine sound_trimOrd (keep (sound_addJoin ?_))
  split
  · split
    · split
      · split
        · exact hb
        · exact sound_recordWrite ha hb
      · refine sound_modGroup ?_
        split
        · exact hb
        · exact sound_recordWrite ha hb
    · split
      · split
        · exact hb
        · exact sound_recordWrite ha hb
      · refine sound_modGroup ?_
        split
        · exact hb
        · exact sound_recordWrite ha hb
  · split
    · split
      · split
        · exact hb
        · exact sound_recordWrite ha hb
      · refine sound_modGroup ?_
        split
        · exact hb
        · exact sound_recordWrite ha hb
    · split
      · split
        · exact hb
        · exact sound_recordWrite ha hb
      · refine sound_modGroup ?_
        split
        · exact hb
        · exact sound_recordWrite ha hb

theorem sound_farResult {s : State} {f : Far} {v : Nat} (h : Sound k s) :
    Sound k (farResult s f v) := by
  unfold farResult
  split
  · split
    · exact sound_modGroup h
    · split
      · split
        · exact sound_freshDst (sound_modGroup h)
        · exact sound_modGroup h
      · exact sound_modGroup h
  · split
    · exact sound_modGroup h
    · split
      · split
        · exact sound_freshDst (sound_modGroup h)
        · exact sound_modGroup h
      · exact sound_modGroup h

theorem sound_farWake {s : State} (h : Sound k s) :
    Sound k (farWake s) := by
  unfold farWake
  refine foldl_holds (Sound k) ?_ ?_
  · exact keep h
  · intro s1 x h1
    refine foldl_holds (Sound k) ?_ ?_
    · exact h1
    · intro s2 x1 h2
      split
      · exact sound_takePending h2
      · exact h2

theorem sound_farPerform {s0 : State} {f : Far} (h : Sound k s0) :
    Sound k (farPerform s0 f) := by
  unfold farPerform
  dsimp only
  split
  · refine sound_farResult ?_
    split <;> exact sound_viewTick (sound_farOrder h (sound_farHome h))
  · split
    · split
      · exact sound_killTeam (sound_viewTick (sound_farOrder h (sound_farHome h)))
      · exact sound_viewTick (sound_farOrder h (sound_farHome h))
    · split
      · exact sound_killTeam (sound_kvConsume (sound_viewTick (sound_farOrder h (sound_farHome h))))
      · exact sound_kvConsume (sound_viewTick (sound_farOrder h (sound_farHome h)))
  · split
    · split
      · exact sound_killTeam (sound_viewTick (sound_farOrder h (sound_farHome h)))
      · exact sound_viewTick (sound_farOrder h (sound_farHome h))
    · split
      · exact sound_killTeam (sound_kvConsume (sound_viewTick (sound_farOrder h (sound_farHome h))))
      · exact sound_kvConsume (sound_viewTick (sound_farOrder h (sound_farHome h)))

theorem sound_farDrop {s : State} {f : Far} (h : Sound k s) :
    Sound k (farDrop s f) := by
  unfold farDrop
  exact sound_trimOrd (keep h)

theorem sound_farCome {s : State} {rs : List Far} (h : Sound k s) :
    Sound k (farCome s rs) := by
  unfold farCome
  split
  · exact sound_bury (sound_farWake (sound_tick (foldl_holds (Sound k) h (fun s1 x h1 => sound_farDrop h1))))
  · refine sound_bury (sound_farWake (sound_tick ?_))
    refine foldl_holds (Sound k) ?_ ?_
    · exact h
    · intro s1 x h1
      split
      · exact sound_farPerform h1
      · exact h1

theorem sound_execFarAccessPerformed {id : Nat} {s : State} (h : Sound k s) :
    SoundOut k (execFarAccessPerformed id s) := by
  unfold execFarAccessPerformed
  split
  · exact h
  · dsimp only
    split
    · exact h
    · exact sound_farCome h

theorem sound_forceFar {n : Nat} {ids : List Nat} {s : State} (h : Sound k s) : Sound k (forceFar n ids s) := by
  induction n generalizing s with
  | zero => exact h
  | succ n ih =>
    unfold forceFar
    split
    · exact h
    · exact ih (sound_farCome h)

theorem sound_forceAll {s : State} {ids : List Nat} (h : Sound k s) :
    Sound k (forceAll s ids) := by
  unfold forceAll
  split
  · exact h
  · exact sound_forceFar h

theorem sound_forceCow {s : State} {ld : Nat} (h : Sound k s) :
    Sound k (forceCow s ld) := by
  unfold forceCow
  exact sound_forceAll h

theorem sound_beforePort {s : State} {pa : Nat} {v : BitVec 64} (h : Sound k s) :
    Sound k (beforePort s pa v) := by
  unfold beforePort
  split
  · exact sound_forceCow h
  · exact h

theorem sound_forceIssue {s : State} {u : Issuing} {i : Instr} (h : Sound k s) :
    Sound k (forceIssue s u i) := by
  unfold forceIssue
  split
  · exact h
  · split
    · exact h
    · split
      · exact sound_forceAll h
      · split
        · exact sound_forceAll h
        · exact h

theorem sound_issueStep {s : State} {u : Issuing} (h : Sound k s) :
    SoundIssued k (issueStep s u) := by
  unfold issueStep
  split
  · rename_i e
    exact via (SoundIssued k) e (sound_issueFetch h)
  · split
    · rename_i e _
      exact via (SoundIssued k) e (sound_issueFetch h)
    · dsimp only
      split
      · refine sound_forceIssue ?_
        rename_i e _ _
        exact via (SoundIssued k) e (sound_issueFetch h)
      · refine keep (sound_forceIssue ?_)
        rename_i e _ _
        exact via (SoundIssued k) e (sound_issueFetch h)

theorem sound_closeFor {s : State} {u : Issuing} {i : Instr} (h : Sound k s) :
    Sound k (closeFor s u i) := by
  unfold closeFor
  split
  · exact h
  · split
    · exact h
    · exact sound_modGroup h

theorem sound_afterIssue {s : State} {u : Issuing} {i : Instr} {x : Host.Outcome State Fault Refusal} (hx : SoundOut k x) :
    SoundOut k (afterIssue s u i x) := by
  unfold afterIssue
  split
  · split
    · exact hx
    · split
      · exact hx
      · split
        · exact sound_modGroup (s := _) hx
        · split
          · exact hx
          · exact sound_freshRegs (s := _) hx
  · exact hx

theorem sound_farFail {s : State} {f : Far} (h : Sound k s) :
    Sound k (farFail s f) := by
  unfold farFail
  split
  · exact h
  · split
    · split
      · exact sound_modGroup h
      · exact sound_raiseTrap (sound_modGroup h)
    · exact sound_raiseParked (sound_modGroup (sound_modGroup h))

theorem sound_farLose {s : State} {f : Far} (h : Sound k s) :
    Sound k (farLose s f) := by
  unfold farLose
  split
  · exact sound_farDrop h
  · split
    · exact sound_farDrop (sound_tick h)
    · split
      · exact sound_farOrder (keep h) (sound_farHome (keep h))
      · exact keep h

theorem sound_linkLost {s : State} {port : Nat} (h : Sound k s) :
    Sound k (linkLost s port) := by
  unfold linkLost
  split
  · exact h
  · refine sound_farWake ?_
    refine foldl_holds (Sound k) ?_ ?_
    · exact sound_logEvent (sound_setPkgReg h)
    · intro s1 x h1
      split
      · exact sound_farFail (sound_farLose h1)
      · exact h1

theorem sound_execFarTimeout {id : Nat} {s : State} (h : Sound k s) :
    SoundOut k (execFarTimeout id s) := by
  unfold execFarTimeout
  split
  · exact h
  · split
    · exact sound_farWake (sound_farFail (sound_farLose (keep h)))
    · exact sound_linkLost (sound_farWake (sound_farFail (sound_farLose (keep h))))

end Sys2Proof.Machine
end

section
/-! PROOFS. What Machine/Dram does keeps memory canonical and the devices whole. -/

namespace Sys2Proof.Machine
variable {k : Keep}

theorem sound_execHotnessIntervalEnd {stack : Nat} {s : State} (h : Sound k s) :
    SoundOut k (execHotnessIntervalEnd stack s) := by
  unfold execHotnessIntervalEnd
  refine sound_agent ?_ ?_
  · exact h
  · intro s1 h1
    split
    · exact h1
    · refine keep ?_
      split
      · exact sound_setPkgReg (keep (foldl_holds (Sound k) h1 (fun s2 x h2 => sound_hwWrite h2)))
      · exact sound_setPkgReg h1

theorem sound_scrubSec {s : State} {pa : Nat} (h : Sound k s) :
    Sound k (scrubSec s pa) := by
  unfold scrubSec
  split
  · exact h
  · exact sound_readSec (sound_dieAccess h)

theorem sound_execPatrolScrub {stack pc : Nat} {s : State} (h : Sound k s) :
    SoundOut k (execPatrolScrub stack pc s) := by
  unfold execPatrolScrub
  refine sound_agent ?_ ?_
  · exact h
  · intro s1 h1
    split
    · exact h1
    · exact sound_setScrub (sound_scrubSec h1)

theorem sound_execHotListScrub {stack pc : Nat} {s : State} (h : Sound k s) :
    SoundOut k (execHotListScrub stack pc s) := by
  unfold execHotListScrub
  refine sound_agent ?_ ?_
  · exact h
  · intro s1 h1
    split
    · exact h1
    · exact foldl_holds (Sound k) h1 (fun s2 x h2 => foldl_holds (Sound k) h2 (fun s3 x1 h3 => sound_scrubSec h3))

theorem sound_closeRow {s : State} {stack pc bank : Nat} (h : Sound k s) :
    Sound k (closeRow s stack pc bank) := by
  unfold closeRow
  exact keep h

theorem sound_execRowCloseTimeout {stack pc bank : Nat} {s : State} (h : Sound k s) :
    SoundOut k (execRowCloseTimeout stack pc bank s) := by
  unfold execRowCloseTimeout
  refine sound_agent ?_ ?_
  · exact h
  · intro s1 h1
    split
    · exact sound_closeRow h1
    · exact h1

theorem sound_execDramRefresh {stack pc bank : Nat} {s : State} (h : Sound k s) :
    SoundOut k (execDramRefresh stack pc bank s) := by
  unfold execDramRefresh
  refine sound_agent ?_ ?_
  · exact h
  · intro s1 h1
    split
    · exact sound_closeRow h1
    · exact h1

end Sys2Proof.Machine
end

section
/-! PROOFS. What Machine/Stream does keeps memory canonical and the devices whole. -/

namespace Sys2Proof.Machine
variable {k : Keep}

theorem sound_modWin {s : State} {r : TeamRef} {w : Nat} {f : Window → Window} (h : Sound k s) :
    Sound k (modWin s r w f) := by
  unfold modWin
  exact sound_modTeam h

theorem sound_execSbind {x : SbindA} {s : State} (h : Sound k s) :
    SoundOut k (execSbind x s) := by
  unfold execSbind
  refine sound_withIssue ?_ ?_
  · exact h
  · intro x1 h1
    refine sound_producer ?_ ?_
    · exact h1
    · split
      · split
        · dsimp only
          split
          · exact sound_trapA
          · exact True.intro
        · dsimp only
          split
          · exact sound_trapA
          · refine sound_withTouch ?_ ?_
            · exact h1
            · intro s1 h2
              split
              · exact True.intro
              · split
                · exact sound_trapA
                · exact sound_done (sound_modWin h2)
      · split
        · dsimp only
          split
          · exact sound_trapA
          · exact True.intro
        · dsimp only
          split
          · exact sound_trapA
          · refine sound_withTouch ?_ ?_
            · exact h1
            · intro s1 h2
              split
              · exact True.intro
              · split
                · exact sound_trapA
                · exact sound_done (sound_modWin h2)

theorem sound_execSgo {x : SgoA} {s : State} (h : Sound k s) :
    SoundOut k (execSgo x s) := by
  unfold execSgo
  refine sound_withIssue ?_ ?_
  · exact h
  · intro x1 h1
    refine sound_producer ?_ ?_
    · exact h1
    · split
      · exact True.intro
      · exact sound_done (keep (sound_modWin (sound_copyPin h1)))

theorem sound_execSrel {x : TileA} {s : State} (h : Sound k s) :
    SoundOut k (execSrel x s) := by
  unfold execSrel
  refine sound_withIssue ?_ ?_
  · exact h
  · intro x1 h1
    split
    · exact sound_done h1
    · dsimp only
      split
      · exact True.intro
      · split
        · exact True.intro
        · exact sound_done (sound_modWin h1)

theorem sound_awaitRes {c : Ctx} {s : State} {x : Option (Option (Nat × Nat))} {ops : List Nat} {addr : BitVec 64} {w : Wait} (ha : Sound k
    c.s) (hb : Sound k s) :
    SoundRes k (awaitRes c s x ops addr w) := by
  unfold awaitRes
  split
  · exact hb
  · exact sound_done (sound_modGroup hb)
  · split <;> exact hb

theorem sound_execAwaitObj {x : AwaitObjA} {s : State} (h : Sound k s) :
    SoundOut k (execAwaitObj x s) := by
  unfold execAwaitObj
  refine sound_withIssue ?_ ?_
  · exact h
  · intro x1 h1
    split
    · exact sound_done h1
    · split
      · exact sound_trapA
      · exact sound_withTouch h1 (fun s1 h2 => sound_awaitRes h1 h2)

theorem sound_execAwaitSlot {x : TileA} {s : State} (h : Sound k s) :
    SoundOut k (execAwaitSlot x s) := by
  unfold execAwaitSlot
  refine sound_withIssue ?_ ?_
  · exact h
  · intro x1 h1
    split
    · exact sound_done h1
    · dsimp only
      split
      · exact True.intro
      · exact sound_awaitRes h1 h1

theorem sound_execAwaitReturn {r : GroupRef} {lane : Nat} {s : State} (h : Sound k s) :
    SoundOut k (execAwaitReturn r lane s) := by
  unfold execAwaitReturn
  refine sound_agent ?_ ?_
  · exact h
  · intro s1 h1
    split
    · split
      · exact h1
      · split
        · dsimp only
          split
          · exact h1
          · exact sound_modGroup h1
          · split
            · exact sound_killTeam h1
            · exact sound_trapEntry h1
        · dsimp only
          split
          · exact h1
          · exact sound_modGroup h1
          · split
            · exact sound_killTeam h1
            · exact sound_trapEntry h1
        · exact h1
    · exact h1

theorem sound_execAstatObj {x : AstatObjA} {s : State} (h : Sound k s) :
    SoundOut k (execAstatObj x s) := by
  unfold execAstatObj
  refine sound_withIssue ?_ ?_
  · exact h
  · intro x1 h1
    split
    · exact sound_done h1
    · split
      · exact sound_trapA
      · exact sound_withTouch h1 (fun s1 h2 => sound_done (sound_tick (sound_noteRead (sound_modGroup h2))))

theorem sound_execAstatSlot {x : AstatSlotA} {s : State} (h : Sound k s) :
    SoundOut k (execAstatSlot x s) := by
  unfold execAstatSlot
  refine sound_withIssue ?_ ?_
  · exact h
  · intro x1 h1
    split
    · exact sound_done h1
    · dsimp only
      split
      · exact True.intro
      · exact sound_resFree h1

theorem sound_winRead {s : State} {e : Eng} {p : BitVec 64} {n : Nat} (h : Sound k s) :
    Sound k (winRead s e p n).1 := by
  unfold winRead
  split
  · exact sound_tick h
  · split
    · refine sound_addJoin ?_
      rename_i e1 _
      exact via (ExceptAll (fun _ => True) (fun y : EngRd => Sound k y.s)) e1 (sound_engRead (sound_tick h))
    · refine sound_kvConsume ?_
      rename_i e1 _
      exact via (ExceptAll (fun _ => True) (fun y : EngRd => Sound k y.s)) e1 (sound_engRead (sound_tick h))

theorem sound_winFetch {s : State} {e : Eng} {x : Window} (h : Sound k s) :
    Sound k (winFetch s e x).1 := by
  unfold winFetch
  dsimp only
  split
  · exact sound_tick h
  · exact sound_winRead h

theorem sound_winEnd {s : State} {r : TeamRef} {w : Nat} (h : Sound k s) :
    Sound k (winEnd s r w) := by
  unfold winEnd
  split
  · exact h
  · exact sound_modWin (sound_dropPin h)

theorem sound_winStop {s : State} {r : TeamRef} {w cause detail : Nat} (h : Sound k s) :
    Sound k (winStop s r w cause detail) := by
  unfold winStop
  split
  · exact h
  · dsimp only
    split
    · exact sound_modWin (sound_dropPin h)
    · exact sound_arrError (sound_modWin (sound_dropPin h))

theorem sound_winGo {s : State} {r : TeamRef} {w : Nat} {pc : BitVec 64} (h : Sound k s) :
    Sound k (winGo s r w pc) := by
  unfold winGo
  exact sound_modWin h

theorem sound_command {code : Nat} {r : TeamRef} {w : Nat} {s : State} {kk : State → Team → Window → Nat → State} (ha : Sound k s)
    (hb : ∀ y0 y1 y2 y3, Sound k y0 → Sound k (kk y0 y1 y2 y3)) :
    SoundOut k (command code r w s kk) := by
  unfold command
  refine sound_agent ?_ ?_
  · exact ha
  · intro s1 h
    split
    · exact h
    · dsimp only
      split
      · exact h
      · split
        · split
          · exact hb _ _ _ _ (sound_winFetch h)
          · exact h
        · exact h

theorem sound_execStreamBadWord {t : TeamRef} {w : Nat} {s : State} (h : Sound k s) :
    SoundOut k (execStreamBadWord t w s) := by
  unfold execStreamBadWord
  refine sound_agent ?_ ?_
  · exact h
  · intro s1 h1
    split
    · exact h1
    · dsimp only
      split
      · exact h1
      · split
        · exact sound_winStop (sound_winFetch h1)
        · split
          · exact sound_winStop (sound_winFetch h1)
          · exact h1

theorem sound_fillBegin {s : State} {t : TeamRef} {w : Nat} {x : Window} {ps : List Piece} {rows : Nat} (h : Sound k s) :
    Sound k (fillBegin s t w x ps rows) := by
  unfold fillBegin
  exact keep (sound_modWin h)

theorem sound_fillPiece {s : State} {t : TeamRef} {w : Nat} {x : Window} {i : Nat} {p : Piece} (h : Sound k s) :
    Sound k (fillPiece s t w x i p) := by
  unfold fillPiece
  dsimp only
  split
  · refine sound_modWin ?_
    rename_i e
    exact via (SoundMoved k) e (sound_pieceMove (sound_tick h))
  · refine sound_winStop ?_
    rename_i e
    exact via (SoundMoved k) e (sound_pieceMove (sound_tick h))
  · rename_i e
    exact via (SoundMoved k) e (sound_pieceMove (sound_tick h))

theorem sound_fillStep {s : State} {t : TeamRef} {w : Nat} {x : Window} {index : State → State} (ha : Sound k s) (hb : ∀ y0,
    Sound k y0 → Sound k (index y0)) :
    Sound k (fillStep s t w x index) := by
  unfold fillStep
  split
  · dsimp only
    split
    · exact sound_fillPiece ha
    · exact ha
  · dsimp only
    split
    · exact sound_fillPiece ha
    · exact hb _ (sound_tick ha)

theorem sound_fillMore {code : Nat} {s : State} {t : TeamRef} {w : Nat} {index : State → Team → Window → Nat → State} (ha : Sound k s)
    (hb : ∀ y0 y1 y2 y3, Sound k y0 → Sound k (index y0 y1 y2 y3)) :
    Sound k (fillMore code s t w index) := by
  unfold fillMore
  split
  · exact ha
  · dsimp only
    split
    · exact sound_fillStep ha (fun s1 h => hb _ _ _ _ h)
    · exact ha

theorem sound_fillCommand {code : Nat} {bytes : Nat → Nat} {work : Team → Window → Nat → List Piece × Nat} {index : State →  TeamRef → Nat
    → Team → Window → Nat → State} {t : TeamRef} {w : Nat} {s : State} (ha : ∀ y0 y1 y2 y3 y4 y5,
    Sound k y0 → Sound k (index y0 y1 y2 y3 y4 y5)) (hb : Sound k s) :
    SoundOut k (fillCommand code bytes work index t w s) := by
  unfold fillCommand
  split
  · split
    · exact sound_agent hb (fun s1 h => sound_fillMore h (fun s2 x x1 x2 h1 => ha _ _ _ _ _ _ h1))
    · refine sound_command ?_ ?_
      · exact hb
      · intro s1 x x1 x2 h
        split
        · exact sound_winStop h
        · split
          · exact h
          · exact sound_fillMore (sound_fillBegin (sound_modWin h)) (fun s2 x3 x4 x5 h1 => ha _ _ _ _ _ _ h1)
  · exact hb

theorem sound_execStile {t : TeamRef} {w : Nat} {s : State} (h : Sound k s) :
    SoundOut k (execStile t w s) := by
  unfold execStile
  exact sound_fillCommand (fun s1 x x1 x2 x3 x4 h1 => h1) h

theorem sound_execStileFillDone {t : TeamRef} {w : Nat} {s : State} (h : Sound k s) :
    SoundOut k (execStileFillDone t w s) := by
  unfold execStileFillDone
  refine sound_agent ?_ ?_
  · exact h
  · intro s1 h1
    split
    · exact h1
    · dsimp only
      split
      · exact h1
      · split
        · exact h1
        · exact sound_modWin (sound_addJoin h1)

theorem sound_gatherIndex {s : State} {t : TeamRef} {w : Nat} {u : Team} {x : Window} {v : Nat} (h : Sound k s) :
    Sound k (gatherIndex s t w u x v) := by
  obtain ⟨readIndex', e_readIndex⟩ : ∃ f, f = @readIndex := ⟨_, rfl⟩
  have h_readIndex := @sound_readIndex k
  rw [← e_readIndex] at h_readIndex
  apply unfold_head (fun f => Sound k (f s t w u x v)) (x := @gatherIndex)
  · delta gatherIndex
    rfl
  · rw [← e_readIndex]
    dsimp only
    split
    · exact sound_winStop (h_readIndex h)
    · exact sound_modWin (h_readIndex h)

theorem sound_execSgather {t : TeamRef} {w : Nat} {s : State} (h : Sound k s) :
    SoundOut k (execSgather t w s) := by
  unfold execSgather
  exact sound_fillCommand (fun s1 x x1 x2 x3 x4 h1 => sound_gatherIndex h1) h

theorem sound_execSloop {t : TeamRef} {w : Nat} {s : State} (h : Sound k s) :
    SoundOut k (execSloop t w s) := by
  unfold execSloop
  refine sound_command ?_ ?_
  · exact h
  · intro s1 x x1 x2 h1
    split
    · dsimp only
      split
      · split
        · exact sound_winGo h1
        · exact sound_winStop h1
      · split
        · exact sound_winGo h1
        · exact sound_winStop h1
    · dsimp only
      split
      · split
        · exact sound_winGo h1
        · exact sound_modWin h1
      · split
        · exact sound_winGo h1
        · exact sound_modWin h1

theorem sound_execSnext {t : TeamRef} {w : Nat} {s : State} (h : Sound k s) :
    SoundOut k (execSnext t w s) := by
  unfold execSnext
  refine sound_command ?_ ?_
  · exact h
  · intro s1 x x1 x2 h1
    split
    · exact sound_winStop h1
    · split <;> exact sound_modWin h1

theorem sound_execScond {t : TeamRef} {w : Nat} {s : State} (h : Sound k s) :
    SoundOut k (execScond t w s) := by
  unfold execScond
  refine sound_command ?_ ?_
  · exact h
  · intro s1 x x1 x2 h1
    dsimp only
    split
    · refine sound_winStop ?_
      split
      · exact h1
      · split
        · exact h1
        · exact sound_winRead h1
    · refine sound_winGo ?_
      split
      · exact h1
      · split
        · exact h1
        · exact sound_winRead h1

theorem sound_execSjmp {t : TeamRef} {w : Nat} {s : State} (h : Sound k s) :
    SoundOut k (execSjmp t w s) := by
  unfold execSjmp
  exact sound_command h (fun s1 x x1 x2 h1 => sound_winGo h1)

theorem sound_execSwaitr {t : TeamRef} {w : Nat} {s : State} (h : Sound k s) :
    SoundOut k (execSwaitr t w s) := by
  unfold execSwaitr
  refine sound_command ?_ ?_
  · exact h
  · intro s1 x x1 x2 h1
    split
    · exact sound_winEnd h1
    · split
      · exact sound_winGo h1
      · exact sound_modWin h1

theorem sound_execSwaitrReleased {t : TeamRef} {w : Nat} {s : State} (h : Sound k s) :
    SoundOut k (execSwaitrReleased t w s) := by
  unfold execSwaitrReleased
  refine sound_agent ?_ ?_
  · exact h
  · intro s1 h1
    split
    · exact h1
    · dsimp only
      split
      · exact sound_winGo h1
      · exact h1

theorem sound_takeLatch {s : State} {t : TeamRef} {w : Nat} {pv : BitVec 32} (h : Sound k s) :
    Sound k (takeLatch s t w pv) := by
  unfold takeLatch
  exact sound_modWin h

theorem sound_execSwaitp {t : TeamRef} {w : Nat} {s : State} (h : Sound k s) :
    SoundOut k (execSwaitp t w s) := by
  unfold execSwaitp
  refine sound_command ?_ ?_
  · exact h
  · intro s1 x x1 x2 h1
    split
    · exact sound_winEnd h1
    · split
      · exact sound_takeLatch h1
      · exact sound_modWin h1

theorem sound_execSwaitpLatched {t : TeamRef} {w : Nat} {s : State} (h : Sound k s) :
    SoundOut k (execSwaitpLatched t w s) := by
  unfold execSwaitpLatched
  refine sound_agent ?_ ?_
  · exact h
  · intro s1 h1
    split
    · exact h1
    · dsimp only
      split
      · split
        · exact sound_takeLatch h1
        · exact h1
      · exact h1

theorem sound_execSsig {t : TeamRef} {w : Nat} {s : State} (h : Sound k s) :
    SoundOut k (execSsig t w s) := by
  unfold execSsig
  refine sound_command ?_ ?_
  · exact h
  · intro s1 x x1 x2 h1
    dsimp only
    split
    · exact sound_winStop h1
    · split
      · exact sound_winStop (sound_arrDec h1)
      · exact sound_winGo (sound_arrDec h1)

theorem sound_execShalt {t : TeamRef} {w : Nat} {s : State} (h : Sound k s) :
    SoundOut k (execShalt t w s) := by
  unfold execShalt
  exact sound_command h (fun s1 x x1 x2 h1 => sound_winEnd h1)

theorem sound_execSnop {t : TeamRef} {w : Nat} {s : State} (h : Sound k s) :
    SoundOut k (execSnop t w s) := by
  unfold execSnop
  exact sound_command h (fun s1 x x1 x2 h1 => sound_winGo h1)

theorem sound_execStreamAutoEnd {t : TeamRef} {w : Nat} {s : State} (h : Sound k s) :
    SoundOut k (execStreamAutoEnd t w s) := by
  unfold execStreamAutoEnd
  refine sound_agent ?_ ?_
  · exact h
  · intro s1 h1
    split
    · exact h1
    · dsimp only
      split
      · exact sound_winEnd h1
      · exact h1

end Sys2Proof.Machine
end

section
/-! PROOFS. What Machine/Ladder does keeps memory canonical and the devices whole. -/

namespace Sys2Proof.Machine
variable {k : Keep}

theorem sound_modLad {s : State} {r : TeamRef} {lad : Nat} {f : LadWin → LadWin} (h : Sound k s) :
    Sound k (modLad s r lad f) := by
  unfold modLad
  exact sound_modTeam h

theorem sound_modOwner {s : State} {host : TeamRef} {it : Item} {f : LadWin → LadWin} (h : Sound k s) :
    Sound k (modOwner s host it f) := by
  unfold modOwner
  exact sound_modLad h

theorem sound_enterBin {s : State} {t : Team} {lad rung : Nat} {its : List Item} (h : Sound k s) :
    Sound k (enterBin s t lad rung its) := by
  unfold enterBin
  exact sound_modGang h

theorem sound_firstBad {ls : List Nat} {f : Nat → Option (Nat × Nat × ℤ)} :
    OptionAll (SoundRes k) (firstBad ls f) := by
  unfold firstBad
  exact OptionAll.map (fun _ => True) OptionAll.true (fun x h => sound_trapL)

theorem sound_spawn {s : State} {r : GroupRef} {lad : Nat} {its : List (Nat × Nat × Nat)} (h : Sound k s) :
    Sound k (spawn s r lad its) := by
  unfold spawn
  split
  · exact sound_enterBin (sound_modLad h)
  · exact h

theorem sound_spawnChecks {t : Team} {fs base : Nat} {held ls : List Nat} {addr : Nat → ℤ} {seq : Nat → Nat} :
    OptionAll (SoundRes k) (spawnChecks t fs base held ls addr seq) := by
  unfold spawnChecks
  exact OptionAll.findSome (fun x => sound_firstBad)

theorem sound_execLspawn {x : LspawnA} {s : State} (h : Sound k s) :
    SoundOut k (execLspawn x s) := by
  unfold execLspawn
  refine sound_withIssue ?_ ?_
  · exact h
  · intro x1 h1
    split
    · exact sound_done h1
    · dsimp only
      split
      · exact True.intro
      · split
        · rename_i e
          exact via (OptionAll (SoundRes k)) e sound_spawnChecks
        · split
          · exact sound_withTouch h1 (fun s1 h2 => sound_done (sound_spawn h2))
          · exact h1

theorem sound_execLspawnClose {x : LcloseA} {s : State} (h : Sound k s) :
    SoundOut k (execLspawnClose x s) := by
  unfold execLspawnClose
  refine sound_withIssue ?_ ?_
  · exact h
  · intro x1 h1
    split
    · exact sound_done h1
    · dsimp only
      split
      · exact True.intro
      · exact sound_done (sound_modLad h1)

theorem sound_wakeTouch {s : State} {r : GroupRef} {runs : List (Nat × Nat)} {kk : State → State} (ha : Sound k s) (hb : ∀ y0,
    Sound k y0 → Sound k (kk y0)) :
    Sound k (wakeTouch s r runs kk) := by
  unfold wakeTouch
  split
  · exact sound_killTeam ha
  · refine hb _ ?_
    rename_i e
    exact via (OptionAll (Sound k)) e (foldl_holds (OptionAll (Sound k)) (OptionAll.of_some ha)
      (fun x x1 h => OptionAll.bind (Sound k) h (fun s1 h1 => sound_bufTouch h1)))

theorem sound_execLspawnRoom {r : GroupRef} {lane : Nat} {s : State} (h : Sound k s) :
    SoundOut k (execLspawnRoom r lane s) := by
  unfold execLspawnRoom
  refine sound_agent ?_ ?_
  · exact h
  · intro s1 h1
    split
    · split
      · split
        · exact sound_wakeTouch h1 (fun s2 h2 => sound_modGroup (sound_spawn h2))
        · exact h1
      · exact h1
    · exact h1

theorem sound_escalate {s : State} {r : GroupRef} {its : List (Nat × Nat)} (h : Sound k s) :
    Sound k (escalate s r its) := by
  unfold escalate
  split
  · split
    · exact h
    · exact sound_enterBin (foldl_holds (Sound k) (sound_modGroup h) (fun s1 x h1 => sound_modOwner h1))
  · exact h

theorem sound_execLesc {x : NbreqA} {s : State} (h : Sound k s) :
    SoundOut k (execLesc x s) := by
  unfold execLesc
  refine sound_withIssue ?_ ?_
  · exact h
  · intro x1 h1
    split
    · exact sound_done h1
    · split
      · exact True.intro
      · dsimp only
        split
        · rename_i e
          exact via (OptionAll (SoundRes k)) e sound_firstBad
        · split
          · exact sound_withTouch h1 (fun s1 h2 => sound_done (sound_escalate h2))
          · exact h1

theorem sound_execLescRoom {r : GroupRef} {lane : Nat} {s : State} (h : Sound k s) :
    SoundOut k (execLescRoom r lane s) := by
  unfold execLescRoom
  refine sound_agent ?_ ?_
  · exact h
  · intro s1 h1
    split
    · split
      · split
        · exact sound_wakeTouch h1 (fun s2 h2 => sound_modGroup (sound_escalate h2))
        · exact h1
      · exact h1
    · exact h1

theorem sound_execLdone {x : LdoneA} {s : State} (h : Sound k s) :
    SoundOut k (execLdone x s) := by
  unfold execLdone
  refine sound_withIssue ?_ ?_
  · exact h
  · intro x1 h1
    split
    · exact sound_done h1
    · split
      · exact True.intro
      · dsimp only
        split
        · split
          · exact sound_modTeam h1
          · exact trivial
        · rename_i e
          exact via (OptionAll (SoundRes k)) e sound_firstBad
        · refine sound_done ?_
          split
          · refine sound_modTeam (sound_modGroup ?_)
            refine foldl_holds (Sound k) ?_ ?_
            · exact h1
            · intro s1 x2 h2
              split
              · exact h2
              · exact sound_modOwner h2
          · refine sound_modGroup ?_
            refine foldl_holds (Sound k) ?_ ?_
            · exact h1
            · intro s1 x2 h2
              split
              · exact h2
              · exact sound_modOwner h2

theorem sound_commitWrite {s : State} {t : Team} {gr : Grid} {lad : Nat} {e : Done} {bs : List Byte} (h : Sound k s) :
    Sound k (commitWrite s t gr lad e bs) := by
  obtain ⟨farCheck', e_farCheck⟩ : ∃ f, f = @farCheck := ⟨_, rfl⟩
  apply unfold_head (fun f => Sound k (f s t gr lad e bs)) (x := @commitWrite)
  · delta commitWrite
    rfl
  · rw [← e_farCheck]
    dsimp only
    split
    · exact sound_modTeam h
    · split
      · exact sound_modTeam h
      · split
        · exact sound_modTeam h
        · rename_i e1
          exact via (ExceptAll (fun _ => True) (Sound k)) e1 (sound_engWrite h)

theorem sound_execCommitRun {t : TeamRef} {lad : Nat} {s : State} (h : Sound k s) :
    SoundOut k (execCommitRun t lad s) := by
  unfold execCommitRun
  refine sound_agent ?_ ?_
  · exact h
  · intro s1 h1
    split
    · split
      · exact h1
      · dsimp only
        split
        · exact sound_modLad (sound_commitWrite h1)
        · split
          · exact sound_modLad h1
          · exact h1
    · exact h1

theorem sound_execLstat {x : LstatA} {s : State} (h : Sound k s) :
    SoundOut k (execLstat x s) := by
  unfold execLstat
  refine sound_withIssue ?_ ?_
  · exact h
  · intro x1 h1
    split
    · exact sound_done h1
    · split
      · dsimp only
        split
        · exact True.intro
        · split
          · exact True.intro
          · exact sound_resFree h1
      · dsimp only
        split
        · exact True.intro
        · split
          · exact True.intro
          · exact sound_resFree h1
      · dsimp only
        split
        · exact True.intro
        · split
          · exact True.intro
          · exact sound_resFree h1
      · dsimp only
        split
        · exact True.intro
        · split
          · exact True.intro
          · exact sound_resFree h1

theorem sound_launchRung {s : State} {kk : GangRef} {gr : Grid} {b : Bin} {t : Team} {lad rung j : Nat} (h : Sound k s) :
    Sound k (launchRung s kk gr b t lad rung j) := by
  unfold launchRung
  exact sound_modGang (sound_modTeam (sound_takePin (sound_zeroWords (foldl_holds (Sound k) h (fun s1 x h1 => sound_bufPut h1)))))

theorem sound_execBinLaunch {kk : GangRef} {lad rung : Nat} {s : State} (h : Sound k s) :
    SoundOut k (execBinLaunch kk lad rung s) := by
  unfold execBinLaunch
  refine sound_agent ?_ ?_
  · exact h
  · intro s1 h1
    split
    · dsimp only
      split
      · split
        · exact h1
        · split
          · exact h1
          · exact sound_launchRung h1
      · split
        · exact h1
        · split
          · exact h1
          · exact sound_launchRung h1
    · exact h1

theorem sound_execBinStarveExpire {kk : GangRef} {lad rung : Nat} {s : State} (h : Sound k s) :
    SoundOut k (execBinStarveExpire kk lad rung s) := by
  unfold execBinStarveExpire
  refine sound_agent ?_ ?_
  · exact h
  · intro s1 h1
    split
    · exact h1
    · split
      · split
        · exact keep h1
        · exact h1
      · exact h1

theorem sound_execLadderPatch {t : TeamRef} {lad rung : Nat} {s : State} (h : Sound k s) :
    SoundOut k (execLadderPatch t lad rung s) := by
  unfold execLadderPatch
  refine sound_agent ?_ ?_
  · exact h
  · intro s1 h1
    split
    · dsimp only
      split
      · exact h1
      · split
        · exact sound_modLad h1
        · exact sound_modWin (sound_modLad h1)
    · exact h1

end Sys2Proof.Machine
end

section
/-! PROOFS. What Machine/Command does keeps memory canonical and the devices whole. -/

namespace Sys2Proof.Machine
variable {k : Keep}

theorem sound_cpPlace {s : State} {ld slot : Nat} {p : BitVec 64} {n : Nat} {kk : Acc} (h : Sound k s) :
    ExceptAll (fun y => Sound k y.s) (fun _ => True) (cpPlace s ld slot p n kk) := by
  unfold cpPlace
  dsimp only
  split
  · exact ExceptAll.of_error h
  · split
    · exact ExceptAll.of_error h
    · split
      · exact ExceptAll.of_error (sound_tick h)
      · exact ExceptAll.of_ok trivial

theorem sound_cpWalk {s : State} {ld slot : Nat} {p : BitVec 64} (h : Sound k s) :
    Sound k (cpWalk s ld slot p) := by
  unfold cpWalk
  exact sound_walkRead (sound_tableRead (sound_tableRead (sound_tableRead h)))

theorem sound_cpSee {s : State} {known : Option (List Nat)} {pa : Nat} {bs : List Byte} (h : Sound k s) :
    Sound k (cpSee s known pa bs).2 := by
  unfold cpSee
  split
  · exact h
  · split
    · exact h
    · exact sound_viewTick h

theorem sound_cpReadBy {known : Option (List Nat)} {s : State} {ld slot : Nat} {p : BitVec 64} {n : Nat} (h : Sound k s) :
    ExceptAll (fun y => Sound k y.s) (fun y => Sound k y.2) (cpReadBy known s ld slot p n) := by
  unfold cpReadBy
  refine foldl_holds (ExceptAll (fun y : CpErr => Sound k y.s) (fun y : List Byte × State => Sound k y.2)) ?_ ?_
  · exact ExceptAll.of_ok h
  · intro x x1 h1
    refine ExceptAll.bind (fun y : List Byte × State => Sound k y.2) ?_ ?_
    · exact h1
    · intro x2 h2
      refine ExceptAll.bind (fun _ => True) ?_ ?_
      · exact sound_cpPlace h2
      · intro x3 h3
        dsimp only
        split
        · exact ExceptAll.of_ok (sound_cpSee (sound_busRead (sound_cpWalk (sound_tick h2))))
        · exact ExceptAll.of_error (sound_kvConsume (sound_busRead (sound_cpWalk (sound_tick h2))))
        · exact ExceptAll.of_error (sound_kvConsume (sound_busRead (sound_cpWalk (sound_tick h2))))

theorem sound_cpRead {s : State} {ld slot : Nat} {p : BitVec 64} {n : Nat} (h : Sound k s) :
    ExceptAll (fun y => Sound k y.s) (fun y => Sound k y.2) (cpRead s ld slot p n) := by
  unfold cpRead
  exact sound_cpReadBy h

theorem sound_cpPlaces {s : State} {ld slot : Nat} {p : BitVec 64} {bs : List Byte} (h : Sound k s) :
    ExceptAll (fun y => Sound k y.s) (fun _ => True) (cpPlaces s ld slot p bs) := by
  unfold cpPlaces
  exact foldl_holds (ExceptAll (fun y : CpErr => Sound k y.s) (fun _ => True)) (ExceptAll.of_ok trivial)
    (fun x x1 h1 => ExceptAll.bind (fun _ => True) h1 (fun x2 h2 => ExceptAll.map (fun _ => True) (sound_cpPlace h) (fun x3 h3 => trivial)))

theorem sound_cpRelease {s : State} {ld slot : Nat} {p : BitVec 64} {bs : List Byte} {sc : Scope} {past : List Nat} (h : Sound k s) :
    ExceptAll (fun y => Sound k y.s) (Sound k) (cpRelease s ld slot p bs sc past) := by
  unfold cpRelease
  exact ExceptAll.map (fun _ => True) (sound_cpPlaces h) (fun x h1 => foldl_holds (Sound k) (sound_tick h)
    (fun s1 x1 h2 => sound_busRelease (sound_cpWalk h2)))

theorem sound_cpWrite {s : State} {ld slot : Nat} {p : BitVec 64} {bs : List Byte} (h : Sound k s) :
    ExceptAll (fun y => Sound k y.s) (Sound k) (cpWrite s ld slot p bs) := by
  unfold cpWrite
  exact sound_cpRelease h

theorem sound_cpNat {s : State} {ld slot : Nat} {p : BitVec 64} {n : Nat} (h : Sound k s) :
    ExceptAll (fun y => Sound k y.s) (fun y => Sound k y.2) (cpNat s ld slot p n) := by
  unfold cpNat
  exact ExceptAll.map (fun y : List Byte × State => Sound k y.2) (sound_cpRead h) (fun x h1 => h1)

theorem sound_stopQueue {s : State} {kk : QueueRef} {code : Nat} {ptr : BitVec 64} (h : Sound k s) :
    Sound k (stopQueue s kk code ptr) := by
  unfold stopQueue
  exact sound_raiseMsix (sound_modQueue h)

theorem sound_readCommand {s : State} {kk : QueueRef} (h : Sound k s) :
    ExceptAll (Sound k) (fun y => Sound k y.2) (readCommand s kk) := by
  unfold readCommand
  dsimp only
  split
  · exact ExceptAll.of_ok h
  · split
    · exact ExceptAll.of_error (sound_stopQueue h)
    · split
      · refine ExceptAll.of_error (sound_stopQueue ?_)
        rename_i e
        exact via (ExceptAll (fun y : CpErr => Sound k y.s) (fun y : Nat × State => Sound k y.2)) e (sound_cpNat h)
      · refine ExceptAll.of_ok ?_
        rename_i e
        exact via (ExceptAll (fun y : CpErr => Sound k y.s) (fun y : Nat × State => Sound k y.2)) e (sound_cpNat h)

theorem sound_queueCommand {kk : QueueRef} {sel : Nat → Bool} {s : State} {f : State → Queue → Nat → Ptr → State} (ha : Sound k s)
    (hb : ∀ y0 y1 y2 y3, Sound k y0 → Sound k (f y0 y1 y2 y3)) :
    SoundOut k (queueCommand kk sel s f) := by
  unfold queueCommand
  refine sound_agent ?_ ?_
  · exact ha
  · intro s1 h
    split
    · dsimp only
      split
      · exact h
      · rename_i e _
        exact via (ExceptAll (Sound k) (fun y : Nat × State => Sound k y.2)) e (sound_readCommand h)
    · split
      · dsimp only
        split <;> exact h
      · split
        · dsimp only
          split
          · exact h
          · refine sound_stopQueue ?_
            rename_i e _ _ _
            exact via (ExceptAll (Sound k) (fun y : Nat × State => Sound k y.2)) e (sound_readCommand h)
        · dsimp only
          split
          · exact h
          · refine hb _ _ _ _ ?_
            rename_i e _ _ _
            exact via (ExceptAll (Sound k) (fun y : Nat × State => Sound k y.2)) e (sound_readCommand h)

theorem sound_queueGo {s : State} {kk : QueueRef} {i : ℤ} (h : Sound k s) :
    Sound k (queueGo s kk i) := by
  unfold queueGo
  exact sound_modQueue h

theorem sound_queueGain {s : State} {kk : QueueRef} {ids : List Nat} (h : Sound k s) :
    Sound k (queueGain s kk ids) := by
  unfold queueGain
  split
  · exact h
  · exact sound_modQueue h

theorem sound_queueNat {s : State} {kk : QueueRef} {slot : Nat} {p : BitVec 64} {n : Nat} (h : Sound k s) :
    ExceptAll (fun y => Sound k y.s) (fun y => Sound k y.2) (queueNat s kk slot p n) := by
  unfold queueNat
  exact ExceptAll.map (fun y : Nat × State => Sound k y.2) (sound_cpNat h) (fun x h1 => sound_queueGain h1)

theorem sound_queueNext {s : State} {kk : QueueRef} (h : Sound k s) :
    Sound k (queueNext s kk) := by
  unfold queueNext
  exact sound_modQueue h

theorem sound_queueWait {s : State} {kk : QueueRef} {c : Nat} (h : Sound k s) :
    Sound k (queueWait s kk c) := by
  unfold queueWait
  exact sound_modQueue h

end Sys2Proof.Machine
end

section
/-! PROOFS. What Machine/Fabric does keeps memory canonical and the devices whole. -/

namespace Sys2Proof.Machine
variable {k : Keep}

theorem sound_hdmWalk {s : State} {ld off : Nat} (h : Sound k s) :
    Sound k (hdmWalk s ld off) := by
  unfold hdmWalk
  dsimp only
  split
  · exact sound_walkRead h
  · exact h

theorem sound_hostGain {s : State} {ld pa n : Nat} (h : Sound k s) :
    Sound k (hostGain s ld pa n) := by
  unfold hostGain
  dsimp only
  split
  · exact h
  · exact sound_modLd h (fun x h1 => ‹_›)

theorem sound_execHostHdmRead {ld off size : Nat} {s : State} (h : Sound k s) :
    SoundOut k (execHostHdmRead ld off size s) := by
  unfold execHostHdmRead
  refine sound_agent ?_ ?_
  · exact h
  · intro s1 h1
    split
    · exact h1
    · exact keep (sound_logEvent (sound_hdmWalk h1))
    · dsimp only
      split
      · exact keep (sound_hdmWalk h1)
      · refine keep ?_
        split
        · exact sound_readMem (sound_hostGain (sound_hdmWalk h1))
        · exact sound_kvConsume (sound_readMem (sound_hostGain (sound_hdmWalk h1)))

theorem sound_execHostHdmWrite {ld off : Nat} {bytes : List Byte} {s : State} (h : Sound k s) :
    SoundOut k (execHostHdmWrite ld off bytes s) := by
  unfold execHostHdmWrite
  refine sound_agent ?_ ?_
  · exact h
  · intro s1 h1
    split
    · exact h1
    · exact sound_logEvent (sound_hdmWalk h1)
    · dsimp only
      split
      · exact sound_hdmWalk h1
      · exact sound_busRelease (sound_hdmWalk h1)

theorem sound_modHart {s : State} {x1 : Nat} {f : Hart → Hart} (h : Sound k s) :
    Sound k (modHart s x1 f) := by
  unfold modHart
  exact keep h

theorem sound_hartRead {s : State} {x1 pa v : Nat} {st : RdSt} (h : Sound k s) :
    Sound k (hartRead s x1 pa v st) := by
  unfold hartRead
  refine sound_modHart (sound_tick ?_)
  split
  · exact h
  · exact sound_kvConsume h

theorem sound_hartSaw {s : State} {x1 pa n : Nat} {aq : Bool} (h : Sound k s) :
    Sound k (hartSaw s x1 pa n aq) := by
  unfold hartSaw
  split
  · exact h
  · exact sound_modHart h

theorem sound_hartWrote {s : State} {x1 pa n : Nat} {rl : Bool} (h : Sound k s) :
    Sound k (hartWrote s x1 pa n rl) := by
  unfold hartWrote
  exact sound_netGain (sound_tailGain (foldl_holds (Sound k) h (fun s1 x h1 => sound_addTag h1)))

theorem sound_hartFence {s : State} {x1 : Nat} {pr pw sr sw : Bool} (h : Sound k s) :
    Sound k (hartFence s x1 pr pw sr sw) := by
  unfold hartFence
  refine sound_modHart ?_
  split
  · split
    · split
      · exact keep h
      · exact h
    · split
      · exact keep h
      · exact h
  · split
    · exact keep h
    · exact h

theorem sound_hartLoad {s : State} {x1 pa size : Nat} {aq : Bool} (h : Sound k s) :
    Sound k (hartLoad s x1 pa size aq).1 := by
  unfold hartLoad
  exact sound_hartRead (sound_busRead (sound_hartSaw h))

theorem sound_hartStore {s : State} {x1 pa size : Nat} {v : BitVec 64} {rl : Bool} (h : Sound k s) :
    Sound k (hartStore s x1 pa size v rl) := by
  unfold hartStore
  exact sound_hartWrote (sound_busWrite (sound_beforePort h))

theorem sound_hartModify {s : State} {x1 pa size v : Nat} {rl : Bool} (h : Sound k s) :
    Sound k (hartModify s x1 pa size v rl) := by
  unfold hartModify
  exact sound_hartWrote (sound_busPut (keep h))

theorem sound_execNimbusHartAccess {hart : Nat} {op : HartOp} {s : State} (h : Sound k s) :
    SoundOut k (execNimbusHartAccess hart op s) := by
  unfold execNimbusHartAccess
  refine sound_agent ?_ ?_
  · exact h
  · intro s1 h1
    split
    · exact sound_hartFence h1
    · split
      · exact sound_hartLoad h1
      · exact h1
    · split
      · exact sound_hartStore h1
      · exact h1
    · split
      · exact h1
      · dsimp only
        split
        · exact sound_hartModify (sound_hartLoad h1)
        · exact sound_hartLoad h1
    · split
      · exact h1
      · exact sound_modHart (sound_hartLoad h1)
    · split
      · exact h1
      · split
        · dsimp only
          split
          · exact sound_hartModify (sound_hartSaw (sound_modHart (sound_tick h1)))
          · exact sound_modHart (sound_tick h1)
        · dsimp only
          split
          · exact sound_hartModify (sound_hartSaw (sound_modHart (sound_tick h1)))
          · exact sound_modHart (sound_tick h1)

theorem sound_modNet {s : State} {id : Nat} {f : NetOp → NetOp} (h : Sound k s) :
    Sound k (modNet s id f) := by
  unfold modNet
  exact keep h

theorem sound_execNetTailWrite {ld pair : Nat} {tail : BitVec 64} {s : State} (h : Sound k s) :
    SoundOut k (execNetTailWrite ld pair tail s) := by
  unfold execNetTailWrite
  refine sound_agent ?_ ?_
  · exact h
  · intro s1 h1
    split
    · exact h1
    · split
      · exact h1
      · split
        · exact h1
        · exact keep (sound_modLd h1 (fun x h2 => ‹_›))

theorem sound_netTables {s : State} {ld x : Nat} (h : Sound k s) :
    Sound k (netTables s ld x) := by
  unfold netTables
  split
  · exact h
  · split <;> exact sound_tableRead h

theorem sound_netEnd {s : State} {id st n : Nat} (h : Sound k s) :
    Sound k (netEnd s id st n) := by
  unfold netEnd
  exact sound_modNet h

theorem sound_netStart {op : Nat} {sel : Nat → Bool} {s : State} {f : State → NetOp → Nat → State} (ha : Sound k s) (hb : ∀ y0 y1 y2,
    Sound k y0 → Sound k (f y0 y1 y2)) :
    SoundOut k (netStart op sel s f) := by
  obtain ⟨cpReadBy', e_cpReadBy⟩ : ∃ f, f = @cpReadBy := ⟨_, rfl⟩
  have h_cpReadBy := @sound_cpReadBy k
  rw [← e_cpReadBy] at h_cpReadBy
  apply unfold_head (fun F => SoundOut k (F op sel s f)) (x := @netStart)
  · delta netStart
    rfl
  · rw [← e_cpReadBy]
    refine sound_agent ?_ ?_
    · exact ha
    · intro s1 h
      split
      · exact h
      · split
        · dsimp only
          split
          · refine sound_netEnd ?_
            rename_i e
            exact via (ExceptAll (fun y : CpErr => Sound k y.s) (fun y : List Byte × State => Sound k y.2)) e (h_cpReadBy h)
          · split
            · exact h
            · split
              · refine sound_netEnd (sound_modNet (sound_netTables ?_))
                rename_i e _ _ _ _
                exact via (ExceptAll (fun y : CpErr => Sound k y.s) (fun y : List Byte × State => Sound k y.2)) e (h_cpReadBy h)
              · refine hb _ _ _ (sound_modNet (sound_netTables ?_))
                rename_i e _ _ _
                exact via (ExceptAll (fun y : CpErr => Sound k y.s) (fun y : List Byte × State => Sound k y.2)) e (h_cpReadBy h)
        · dsimp only
          split
          · exact h
          · split
            · exact h
            · split
              · refine sound_netEnd (sound_modNet (sound_netTables ?_))
                rename_i e _ _ _ _
                exact via (ExceptAll (fun y : CpErr => Sound k y.s) (fun y : List Byte × State => Sound k y.2)) e (h_cpReadBy h)
              · refine hb _ _ _ (sound_modNet (sound_netTables ?_))
                rename_i e _ _ _
                exact via (ExceptAll (fun y : CpErr => Sound k y.s) (fun y : List Byte × State => Sound k y.2)) e (h_cpReadBy h)

theorem sound_netSend {s : State} {o : NetOp} {x : Nat} (h : Sound k s) :
    Sound k (netSend s o x) := by
  unfold netSend
  split
  · refine sound_netEnd (sound_tick ?_)
    rename_i e
    exact via (ExceptAll (fun y : CpErr => Sound k y.s) (fun y : List Byte × State => Sound k y.2)) e (sound_cpReadBy h)
  · refine sound_modNet ?_
    rename_i e
    exact via (ExceptAll (fun y : CpErr => Sound k y.s) (fun y : List Byte × State => Sound k y.2)) e (sound_cpReadBy h)

theorem sound_execNetWrite {op : Nat} {s : State} (h : Sound k s) :
    SoundOut k (execNetWrite op s) := by
  unfold execNetWrite
  exact sound_netStart h (fun s1 x x1 h1 => sound_netSend h1)

theorem sound_execNetWriteNotify {op : Nat} {s : State} (h : Sound k s) :
    SoundOut k (execNetWriteNotify op s) := by
  unfold execNetWriteNotify
  exact sound_netStart h (fun s1 x x1 h1 => sound_netSend h1)

theorem sound_netWrote {a : NetPut} {ld pa : Nat} {bs : List Byte} (h : Sound k a.s) :
    Sound k (netWrote a ld pa bs).s := by
  unfold netWrote
  split
  · exact sound_dropTags (sound_busPut h)
  · exact sound_keepWrite h (keep (sound_dropTags (sound_busPut h)))

theorem sound_netPut {s : State} {ld slot : Nat} {p : BitVec 64} {bs : List Byte} (h : Sound k s) :
    Sound k (netPut s ld slot p bs).s := by
  unfold netPut
  refine foldl_holds (fun y : NetPut => Sound k y.s) ?_ ?_
  · exact h
  · intro x x1 h1
    split
    · exact sound_tick h1
    · split
      · exact sound_netWrote (sound_cpWalk (sound_tick h1))
      · exact sound_cpWalk (sound_tick h1)

theorem sound_execNetRead {op : Nat} {s : State} (h : Sound k s) :
    SoundOut k (execNetRead op s) := by
  unfold execNetRead
  refine sound_netStart ?_ ?_
  · exact h
  · intro s1 x x1 h1
    split
    · exact sound_tick h1
    · exact sound_modNet (sound_netEnd (sound_netPut (keep h1)))

theorem sound_netRecord {s : State} {ld pair wrid len st op : Nat} {ids : List Nat} (h : Sound k s) :
    Sound k (netRecord s ld pair wrid len st op ids) := by
  obtain ⟨cpRelease', e_cpRelease⟩ : ∃ f, f = @cpRelease := ⟨_, rfl⟩
  have h_cpRelease := @sound_cpRelease k
  rw [← e_cpRelease] at h_cpRelease
  apply unfold_head (fun F => Sound k (F s ld pair wrid len st op ids)) (x := @netRecord)
  · delta netRecord
    rfl
  · rw [← e_cpRelease]
    dsimp only
    split
    · rename_i e
      exact via (ExceptAll (fun y : CpErr => Sound k y.s) (Sound k)) e (h_cpRelease (sound_modLd h (fun x h1 => ‹_›)))
    · rename_i e
      exact via (ExceptAll (fun y : CpErr => Sound k y.s) (Sound k)) e (h_cpRelease (sound_modLd h (fun x h1 => ‹_›)))

theorem sound_execNetCompletion {op : Nat} {s : State} (h : Sound k s) :
    SoundOut k (execNetCompletion op s) := by
  unfold execNetCompletion
  refine sound_agent ?_ ?_
  · exact h
  · intro s1 h1
    split
    · exact h1
    · split
      · exact keep h1
      · split
        · exact h1
        · exact sound_netRecord (keep (keep h1))

theorem sound_execNetRetransmitTimeout {op : Nat} {s : State} (h : Sound k s) :
    SoundOut k (execNetRetransmitTimeout op s) := by
  unfold execNetRetransmitTimeout
  refine sound_agent ?_ ?_
  · exact h
  · intro s1 h1
    split
    · exact h1
    · split
      · exact h1
      · split
        · exact h1
        · split
          · exact sound_modNet (keep h1)
          · dsimp only
            split
            · exact sound_netEnd (sound_tick (keep h1))
            · exact sound_hwWrite (sound_netEnd (sound_tick (keep h1)))

theorem sound_netServe {s : State} {ld : Nat} {p : Packet} (h : Sound k s) :
    Sound k (netServe s ld p) := by
  unfold netServe
  split
  · refine sound_logEvent ?_
    rename_i e
    exact via (ExceptAll (fun y : CpErr => Sound k y.s) (fun y : List Byte × State => Sound k y.2)) e (sound_cpRead h)
  · rename_i e
    exact via (ExceptAll (fun y : CpErr => Sound k y.s) (fun y : List Byte × State => Sound k y.2)) e (sound_cpRead h)

theorem sound_execNetReceive {p : Packet} {s : State} (h : Sound k s) :
    SoundOut k (execNetReceive p s) := by
  unfold execNetReceive
  refine sound_agent ?_ ?_
  · exact h
  · intro s1 h1
    split
    · exact h1
    · split
      · exact h1
      · split
        · exact sound_netServe h1
        · split
          · dsimp only
            split
            · exact sound_logEvent (sound_netPut h1)
            · exact sound_netRecord (sound_netPut h1)
          · dsimp only
            split
            · exact sound_logEvent (sound_netPut h1)
            · exact sound_netPut h1

end Sys2Proof.Machine
end

section
/-! PROOFS. What Machine/Loader does keeps memory canonical and the devices whole. -/

namespace Sys2Proof.Machine
variable {k : Keep}

theorem sound_Rejected_ofErr {status index : Nat} {e : CpErr} (h : Sound k e.s) :
    Sound k (Rejected.ofErr status index e).s := by
  unfold Rejected.ofErr
  exact h

theorem sound_badImage {s : State} {detail : Nat} (h : Sound k s) :
    Sound k (badImage s detail).s := by
  unfold badImage
  exact h

theorem sound_badImageRead {e : CpErr} (h : Sound k e.s) :
    Sound k (badImageRead e).s := by
  unfold badImageRead
  exact h

theorem sound_ioOf {α : Type} {P : α → Prop} {r : Except CpErr α} (h : ExceptAll (fun y => Sound k y.s) P r) :
    ExceptAll (fun y => Sound k y.s) P (ioOf r) := by
  cases r with
  | ok x => exact h
  | error e => exact h

theorem sound_readSide {s : State} {ld slot : Nat} {sec : Option Ptr} {kk : Nat} {starts : List Nat} (h : Sound k s) :
    ExceptAll (fun y => Sound k y.s) (fun y => Sound k y.2) (readSide s ld slot sec kk starts) := by
  obtain ⟨cpNat', e_cpNat⟩ : ∃ f, f = @cpNat := ⟨_, rfl⟩
  have h_cpNat := @sound_cpNat k
  rw [← e_cpNat] at h_cpNat
  obtain ⟨cpRead', e_cpRead⟩ : ∃ f, f = @cpRead := ⟨_, rfl⟩
  have h_cpRead := @sound_cpRead k
  rw [← e_cpRead] at h_cpRead
  apply unfold_head (fun F => ExceptAll (fun y => Sound k y.s) (fun y => Sound k y.2) (F s ld slot sec kk starts)) (x := @readSide)
  · delta readSide
    rfl
  · rw [← e_cpNat, ← e_cpRead]
    split
    · exact ExceptAll.of_ok h
    · dsimp only
      split
      · refine ExceptAll.of_error (sound_badImageRead ?_)
        rename_i e
        exact via (ExceptAll (fun y : CpErr => Sound k y.s) (fun y : Nat × State => Sound k y.2)) e (h_cpNat h)
      · split
        · refine ExceptAll.of_error (sound_badImage ?_)
          rename_i e _
          exact via (ExceptAll (fun y : CpErr => Sound k y.s) (fun y : Nat × State => Sound k y.2)) e (h_cpNat h)
        · split
          · refine ExceptAll.of_error (sound_badImageRead ?_)
            rename_i e
            refine via (ExceptAll (fun y : CpErr => Sound k y.s) (fun y : List Byte × State => Sound k y.2)) e (h_cpRead ?_)
            rename_i e1 _ _ _
            exact via (ExceptAll (fun y : CpErr => Sound k y.s) (fun y : Nat × State => Sound k y.2)) e1 (h_cpNat h)
          · split
            · refine ExceptAll.of_ok ?_
              rename_i e _
              refine via (ExceptAll (fun y : CpErr => Sound k y.s) (fun y : List Byte × State => Sound k y.2)) e (h_cpRead ?_)
              rename_i e1 _ _ _ _ _
              exact via (ExceptAll (fun y : CpErr => Sound k y.s) (fun y : Nat × State => Sound k y.2)) e1 (h_cpNat h)
            · refine ExceptAll.of_error (sound_badImage ?_)
              rename_i e _
              refine via (ExceptAll (fun y : CpErr => Sound k y.s) (fun y : List Byte × State => Sound k y.2)) e (h_cpRead ?_)
              rename_i e1 _ _ _ _ _
              exact via (ExceptAll (fun y : CpErr => Sound k y.s) (fun y : Nat × State => Sound k y.2)) e1 (h_cpNat h)

theorem sound_placeSec {s : State} {ld slot : Nat} {img : BitVec 64} {e : Nat} (h : Sound k s) :
    ExceptAll (fun y => Sound k y.s) (Sound k) (placeSec s ld slot img e) := by
  unfold placeSec
  split
  · exact ExceptAll.of_ok h
  · split
    · refine ExceptAll.of_error (sound_badImageRead ?_)
      rename_i e1
      exact via (ExceptAll (fun y : CpErr => Sound k y.s) (fun y : List Byte × State => Sound k y.2)) e1 (sound_cpRead h)
    · split
      · refine ExceptAll.of_error (sound_badImage ?_)
        rename_i e1
        refine via (ExceptAll (fun y : CpErr => Sound k y.s) (Sound k)) e1 (sound_cpWrite ?_)
        rename_i e2 _ _
        exact via (ExceptAll (fun y : CpErr => Sound k y.s) (fun y : List Byte × State => Sound k y.2)) e2 (sound_cpRead h)
      · refine ExceptAll.of_ok ?_
        rename_i e1
        refine via (ExceptAll (fun y : CpErr => Sound k y.s) (Sound k)) e1 (sound_cpWrite ?_)
        rename_i e2 _ _
        exact via (ExceptAll (fun y : CpErr => Sound k y.s) (fun y : List Byte × State => Sound k y.2)) e2 (sound_cpRead h)

theorem sound_kernRuns {s : State} {code : Ptr} {bytes : List Byte} {i : Nat} (h : Sound k s) :
    ExceptAll (fun y => Sound k y.s) (fun _ => True) (kernRuns s code bytes i) := by
  unfold kernRuns
  split
  · trivial
  · exact h

theorem sound_loadKernels {s : State} {ld slot : Nat} {code : BitVec 64} {bytes : List Byte} {side : Option Ptr} {ks : List Nat} (h : Sound
    k s) :
    ExceptAll (fun y => Sound k y.s) (fun y => Sound k y.2) (loadKernels s ld slot code bytes side ks) := by
  unfold loadKernels
  refine ExceptAll.bind (fun _ => True) ?_ ?_
  · exact foldl_holds (ExceptAll (fun y : Rejected => Sound k y.s) (fun _ => True)) (ExceptAll.of_ok trivial)
      (fun x x1 h1 => ExceptAll.bind (fun _ => True) h1 (fun x2 h2 => ExceptAll.map (fun _ => True) (sound_kernRuns h)
      (fun x3 h3 => trivial)))
  · intro x h1
    refine ExceptAll.bind (fun y : List (Nat × List Nat) × State => Sound k y.2) ?_ ?_
    · exact foldl_holds (ExceptAll (fun y : Rejected => Sound k y.s) (fun y : List (Nat × List Nat) × State => Sound k y.2))
        (ExceptAll.of_ok h) (fun x1 x2 h2 => ExceptAll.bind (fun y : List (Nat × List Nat) × State => Sound k y.2) h2 (fun x3 h3 =>
          ExceptAll.map (fun y : List Nat × State => Sound k y.2) (sound_readSide h3) (fun x4 h4 => h4)))
    · intro x1 h2
      split
      · exact ExceptAll.of_error (sound_badImage h2)
      · exact ExceptAll.of_ok h2

theorem sound_loadCode {s : State} {ld slot : Nat} {img : BitVec 64} {x4 : Nat} {es : List Nat} {c : Nat} (h : Sound k s) :
    ExceptAll (fun y => Sound k y.s) (fun y => Sound k y.2) (loadCode s ld slot img x4 es c) := by
  unfold loadCode
  refine ExceptAll.bind (Sound k) ?_ ?_
  · exact foldl_holds (ExceptAll (fun y : Rejected => Sound k y.s) (Sound k)) (ExceptAll.of_ok h)
      (fun x x1 h1 => ExceptAll.bind (Sound k) h1 (fun s1 h2 => sound_placeSec h2))
  · intro s1 h1
    refine ExceptAll.bind (fun y : List Byte × State => Sound k y.2) ?_ ?_
    · exact sound_ioOf (sound_cpRead h1)
    · intro x h2
      dsimp only
      split
      · exact ExceptAll.of_error (sound_badImage h2)
      · refine ExceptAll.bind (fun y : List Byte × State => Sound k y.2) ?_ ?_
        · exact sound_ioOf (sound_cpRead h2)
        · intro x1 h3
          split
          · exact ExceptAll.of_error (sound_badImage h3)
          · exact ExceptAll.map (fun y : List (Nat × List Nat) × State => Sound k y.2) (sound_loadKernels h3) (fun x2 h4 => h4)

theorem sound_loadImage {s : State} {ld slot : Nat} {img : BitVec 64} (h : Sound k s) :
    ExceptAll (fun y => Sound k y.s) (fun y => Sound k y.2) (loadImage s ld slot img) := by
  unfold loadImage
  refine ExceptAll.bind (fun y : Nat × State => Sound k y.2) ?_ ?_
  · exact sound_ioOf (sound_cpNat h)
  · intro x h1
    dsimp only
    split
    · exact ExceptAll.of_error (sound_badImage h1)
    · refine ExceptAll.bind (fun y : List Byte × State => Sound k y.2) ?_ ?_
      · exact sound_ioOf (sound_cpRead h1)
      · intro x1 h2
        split
        · exact ExceptAll.of_error (sound_badImage h2)
        · split
          · refine ExceptAll.of_error ?_
            dsimp only
            exact sound_badImage h2
          · exact sound_loadCode h2

theorem sound_imageOf {s : State} {ld slot : Nat} {img : BitVec 64} (h : Sound k s) :
    ExceptAll (fun y => Sound k y.s) (fun y => Sound k y.2) (imageOf s ld slot img) := by
  unfold imageOf
  dsimp only
  split
  · exact ExceptAll.of_ok h
  · refine ExceptAll.map (fun y : Image × State => Sound k y.2) ?_ ?_
    · exact sound_loadImage h
    · intro x h1
      dsimp only
      exact sound_modLd h1 (fun x1 h2 => ‹_›)

theorem sound_readRegions {s : State} {g : Grid} (h : Sound k s) :
    ExceptAll (fun y => Sound k y.s) (fun y => Sound k y.2) (readRegions s g) := by
  unfold readRegions
  refine foldl_holds (ExceptAll (fun y : Rejected => Sound k y.s) (fun y : List Nat × State => Sound k y.2)) ?_ ?_
  · exact ExceptAll.of_ok h
  · intro x x1 h1
    refine ExceptAll.bind (fun y : List Nat × State => Sound k y.2) ?_ ?_
    · exact h1
    · intro x2 h2
      split
      · refine ExceptAll.of_error (sound_Rejected_ofErr ?_)
        rename_i e
        exact via (ExceptAll (fun y : CpErr => Sound k y.s) (fun y : Nat × State => Sound k y.2)) e (sound_cpNat h2)
      · split
        · refine ExceptAll.of_ok ?_
          rename_i e _
          exact via (ExceptAll (fun y : CpErr => Sound k y.s) (fun y : Nat × State => Sound k y.2)) e (sound_cpNat h2)
        · refine ExceptAll.of_error ?_
          rename_i e _
          exact via (ExceptAll (fun y : CpErr => Sound k y.s) (fun y : Nat × State => Sound k y.2)) e (sound_cpNat h2)

theorem sound_readLadders {s : State} {g : Grid} {i : Image} {kk : Nat} (h : Sound k s) :
    ExceptAll (fun y => Sound k y.s) (fun y => Sound k y.2) (readLadders s g i kk) := by
  unfold readLadders
  refine ExceptAll.map (fun y : List Nat × LadUse × State => Sound k y.2.2) ?_ ?_
  · refine foldl_holds (ExceptAll (fun y : Rejected => Sound k y.s) (fun y : List Nat × LadUse × State => Sound k y.2.2)) ?_ ?_
    · exact ExceptAll.of_ok h
    · intro x x1 h1
      refine ExceptAll.bind (fun y : List Nat × LadUse × State => Sound k y.2.2) ?_ ?_
      · exact h1
      · intro x2 h2
        split
        · refine ExceptAll.of_error (sound_Rejected_ofErr ?_)
          rename_i e
          exact via (ExceptAll (fun y : CpErr => Sound k y.s) (fun y : Nat × State => Sound k y.2)) e (sound_cpNat h2)
        · split
          · refine ExceptAll.of_error ?_
            rename_i e _ _ _
            exact via (ExceptAll (fun y : CpErr => Sound k y.s) (fun y : Nat × State => Sound k y.2)) e (sound_cpNat h2)
          · refine ExceptAll.of_ok ?_
            rename_i e _ _ _
            exact via (ExceptAll (fun y : CpErr => Sound k y.s) (fun y : Nat × State => Sound k y.2)) e (sound_cpNat h2)
  · exact fun x h1 => h1

theorem sound_checkLaunch {s : State} {g : Grid} (h : Sound k s) :
    ExceptAll (fun y => Sound k y.s) (fun y => Sound k y.2) (checkLaunch s g) := by
  unfold checkLaunch
  split
  · exact ExceptAll.of_error h
  · refine ExceptAll.bind (fun y : Image × State => Sound k y.2) ?_ ?_
    · exact sound_imageOf h
    · intro x h1
      split
      · dsimp only
        split
        · exact ExceptAll.of_error h1
        · split
          · exact ExceptAll.of_error h1
          · refine ExceptAll.of_error (sound_Rejected_ofErr ?_)
            rename_i e _ _ _ _ _
            exact via (ExceptAll (fun y : CpErr => Sound k y.s) (fun y : List Byte × State => Sound k y.2)) e (sound_cpRead h1)
      · dsimp only
        split
        · exact ExceptAll.of_error h1
        · split
          · exact ExceptAll.of_error h1
          · refine ExceptAll.bind (fun y : List Nat × State => Sound k y.2) ?_ ?_
            · refine sound_readRegions ?_
              rename_i e _ _ _ _ _
              exact via (ExceptAll (fun y : CpErr => Sound k y.s) (fun y : List Byte × State => Sound k y.2)) e (sound_cpRead h1)
            · exact fun x1 h2 => ExceptAll.map (fun y : List Nat × State => Sound k y.2) (sound_readLadders h2) (fun x2 h3 => h3)

end Sys2Proof.Machine
end

section
/-! PROOFS. What Machine/Queue does keeps memory canonical and the devices whole. -/

namespace Sys2Proof.Machine
variable {k : Keep}

theorem sound_hostTail {s : State} {kk : QueueRef} (h : Sound k s) :
    Sound k (hostTail s kk) := by
  unfold hostTail
  exact sound_queueGain h

theorem sound_execQueueDescriptorWrite {kk : QueueRef} {word : Nat} {v : BitVec 64} {s : State} (h : Sound k s) :
    SoundOut k (execQueueDescriptorWrite kk word v s) := by
  unfold execQueueDescriptorWrite
  refine sound_agent ?_ ?_
  · exact h
  · intro s1 h1
    split
    · refine sound_setQueueWord ?_
      split
      · exact sound_hostTail h1
      · exact h1
    · exact h1

theorem sound_execQueueDoorbell {kk : QueueRef} {tail : BitVec 32} {s : State} (h : Sound k s) :
    SoundOut k (execQueueDoorbell kk tail s) := by
  unfold execQueueDoorbell
  refine sound_agent ?_ ?_
  · exact h
  · intro s1 h1
    split
    · exact h1
    · dsimp only
      split
      · split
        · rename_i e
          exact via (ExceptAll (Sound k) (fun y : Nat × State => Sound k y.2)) e (sound_readCommand (sound_setTail (sound_hostTail h1)))
        · exact sound_setTail (sound_hostTail h1)
      · exact sound_setTail (sound_hostTail h1)

theorem sound_launchDims {s : State} {kk : QueueRef} {slot c raw : Nat} (h : Sound k s) :
    ExceptAll (fun y => Sound k y.s) (fun y => Sound k y.2) (launchDims s kk slot c raw) := by
  unfold launchDims
  split
  · exact ExceptAll.map (fun y : Nat × State => Sound k y.2) (sound_queueNat h) (fun x h1 => h1)
  · exact ExceptAll.of_ok h

theorem sound_startGrid {s : State} {g : Grid} (h : Sound k s) :
    Sound k (startGrid s g) := by
  unfold startGrid
  split
  · refine keep ?_
    rename_i e
    exact via (ExceptAll (fun y : Rejected => Sound k y.s) (fun y : Grid × State => Sound k y.2)) e (sound_checkLaunch h)
  · refine keep (sound_tick ?_)
    rename_i e
    exact via (ExceptAll (fun y : Rejected => Sound k y.s) (fun y : Grid × State => Sound k y.2)) e (sound_checkLaunch h)

theorem sound_execLaunch {kk : QueueRef} {s : State} (h : Sound k s) :
    SoundOut k (execLaunch kk s) := by
  unfold execLaunch
  refine sound_queueCommand ?_ ?_
  · exact h
  · intro s1 x x1 x2 h1
    split
    · exact sound_queueWait h1
    · split
      · refine sound_stopQueue ?_
        rename_i e
        exact via (ExceptAll (fun y : CpErr => Sound k y.s) (fun y : Nat × State => Sound k y.2)) e (sound_cpNat h1)
      · split
        · refine sound_stopQueue ?_
          rename_i e
          refine via (ExceptAll (fun y : CpErr => Sound k y.s) (fun y : (Nat × Nat × Nat) × State => Sound k y.2)) e (sound_launchDims ?_)
          rename_i e1 _ _
          exact via (ExceptAll (fun y : CpErr => Sound k y.s) (fun y : Nat × State => Sound k y.2)) e1 (sound_cpNat h1)
        · refine sound_queueNext (sound_startGrid (sound_modQueue ?_))
          refine sound_modLd ?_ ?_
          · rename_i e
            refine via (ExceptAll (fun y : CpErr => Sound k y.s) (fun y : (Nat × Nat × Nat) × State => Sound k y.2)) e (sound_launchDims ?_)
            rename_i e1 _ _ _
            exact via (ExceptAll (fun y : CpErr => Sound k y.s) (fun y : Nat × State => Sound k y.2)) e1 (sound_cpNat h1)
          · exact fun x3 h2 => ‹_›

theorem sound_execLoop {kk : QueueRef} {s : State} (h : Sound k s) :
    SoundOut k (execLoop kk s) := by
  unfold execLoop
  refine sound_queueCommand ?_ ?_
  · exact h
  · intro s1 x x1 x2 h1
    split
    · split
      · split
        · refine sound_stopQueue ?_
          rename_i e
          exact via (ExceptAll (fun y : CpErr => Sound k y.s) (fun y : Nat × State => Sound k y.2)) e (sound_queueNat h1)
        · dsimp only
          split
          · refine sound_queueGo ?_
            rename_i e _
            exact via (ExceptAll (fun y : CpErr => Sound k y.s) (fun y : Nat × State => Sound k y.2)) e (sound_queueNat h1)
          · refine sound_stopQueue ?_
            rename_i e _
            exact via (ExceptAll (fun y : CpErr => Sound k y.s) (fun y : Nat × State => Sound k y.2)) e (sound_queueNat h1)
      · dsimp only
        split
        · exact sound_queueGo h1
        · exact sound_stopQueue h1
    · split
      · split
        · refine sound_stopQueue ?_
          rename_i e
          exact via (ExceptAll (fun y : CpErr => Sound k y.s) (fun y : Nat × State => Sound k y.2)) e (sound_queueNat h1)
        · dsimp only
          split
          · refine sound_queueGo ?_
            rename_i e _
            exact via (ExceptAll (fun y : CpErr => Sound k y.s) (fun y : Nat × State => Sound k y.2)) e (sound_queueNat h1)
          · refine sound_queueNext (sound_modQueue ?_)
            rename_i e _
            exact via (ExceptAll (fun y : CpErr => Sound k y.s) (fun y : Nat × State => Sound k y.2)) e (sound_queueNat h1)
      · dsimp only
        split
        · exact sound_queueGo h1
        · exact sound_queueNext (sound_modQueue h1)

theorem sound_execEndloop {kk : QueueRef} {s : State} (h : Sound k s) :
    SoundOut k (execEndloop kk s) := by
  unfold execEndloop
  refine sound_queueCommand ?_ ?_
  · exact h
  · intro s1 x x1 x2 h1
    split
    · exact sound_stopQueue h1
    · split
      · exact sound_queueGo (sound_modQueue h1)
      · exact sound_queueNext (sound_modQueue h1)

theorem sound_execCond {kk : QueueRef} {s : State} (h : Sound k s) :
    SoundOut k (execCond kk s) := by
  unfold execCond
  refine sound_queueCommand ?_ ?_
  · exact h
  · intro s1 x x1 x2 h1
    split
    · refine sound_stopQueue ?_
      rename_i e
      exact via (ExceptAll (fun y : CpErr => Sound k y.s) (fun y : Nat × State => Sound k y.2)) e (sound_queueNat h1)
    · split
      · dsimp only
        split
        · refine sound_queueNext ?_
          rename_i e _ _ _
          exact via (ExceptAll (fun y : CpErr => Sound k y.s) (fun y : Nat × State => Sound k y.2)) e (sound_queueNat h1)
        · refine sound_queueGo ?_
          rename_i e _ _ _
          exact via (ExceptAll (fun y : CpErr => Sound k y.s) (fun y : Nat × State => Sound k y.2)) e (sound_queueNat h1)
      · dsimp only
        split
        · refine sound_queueNext ?_
          rename_i e _ _ _
          exact via (ExceptAll (fun y : CpErr => Sound k y.s) (fun y : Nat × State => Sound k y.2)) e (sound_queueNat h1)
        · refine sound_queueGo ?_
          rename_i e _ _ _
          exact via (ExceptAll (fun y : CpErr => Sound k y.s) (fun y : Nat × State => Sound k y.2)) e (sound_queueNat h1)
      · dsimp only
        split
        · refine sound_queueNext ?_
          rename_i e _ _ _
          exact via (ExceptAll (fun y : CpErr => Sound k y.s) (fun y : Nat × State => Sound k y.2)) e (sound_queueNat h1)
        · refine sound_queueGo ?_
          rename_i e _ _ _
          exact via (ExceptAll (fun y : CpErr => Sound k y.s) (fun y : Nat × State => Sound k y.2)) e (sound_queueNat h1)
      · dsimp only
        split
        · refine sound_queueNext ?_
          rename_i e _ _ _ _ _
          exact via (ExceptAll (fun y : CpErr => Sound k y.s) (fun y : Nat × State => Sound k y.2)) e (sound_queueNat h1)
        · refine sound_queueGo ?_
          rename_i e _ _ _ _ _
          exact via (ExceptAll (fun y : CpErr => Sound k y.s) (fun y : Nat × State => Sound k y.2)) e (sound_queueNat h1)

theorem sound_execJump {kk : QueueRef} {s : State} (h : Sound k s) :
    SoundOut k (execJump kk s) := by
  unfold execJump
  refine sound_queueCommand ?_ ?_
  · exact h
  · intro s1 x x1 x2 h1
    split
    · exact sound_stopQueue h1
    · exact sound_queueGo h1

theorem sound_execHalt {kk : QueueRef} {s : State} (h : Sound k s) :
    SoundOut k (execHalt kk s) := by
  unfold execHalt
  exact sound_queueCommand h (fun s1 x x1 x2 h1 => sound_modQueue h1)

theorem sound_execInvalidCommand {kk : QueueRef} {s : State} (h : Sound k s) :
    SoundOut k (execInvalidCommand kk s) := by
  unfold execInvalidCommand
  exact sound_queueCommand h (fun s1 x x1 x2 h1 => sound_stopQueue h1)

theorem sound_waitWord {s : State} {kk : QueueRef} {x : Queue} {c : Nat} {p : BitVec 64} (h : Sound k s) :
    Sound k (waitWord s kk x c p) := by
  unfold waitWord
  split
  · refine sound_stopQueue ?_
    rename_i e
    exact via (ExceptAll (fun y : CpErr => Sound k y.s) (fun y : Nat × State => Sound k y.2)) e (sound_queueNat h)
  · split
    · refine sound_queueNext ?_
      rename_i e _
      exact via (ExceptAll (fun y : CpErr => Sound k y.s) (fun y : Nat × State => Sound k y.2)) e (sound_queueNat h)
    · refine sound_queueWait ?_
      rename_i e _
      exact via (ExceptAll (fun y : CpErr => Sound k y.s) (fun y : Nat × State => Sound k y.2)) e (sound_queueNat h)

theorem sound_execWait {kk : QueueRef} {s : State} (h : Sound k s) :
    SoundOut k (execWait kk s) := by
  unfold execWait
  refine sound_queueCommand ?_ ?_
  · exact h
  · intro s1 x x1 x2 h1
    split
    · exact h1
    · exact sound_waitWord h1

theorem sound_execWaitSatisfied {kk : QueueRef} {s : State} (h : Sound k s) :
    SoundOut k (execWaitSatisfied kk s) := by
  unfold execWaitSatisfied
  refine sound_queueCommand ?_ ?_
  · exact h
  · intro s1 x x1 x2 h1
    split
    · exact sound_waitWord h1
    · exact h1

theorem sound_execWrite {kk : QueueRef} {s : State} (h : Sound k s) :
    SoundOut k (execWrite kk s) := by
  unfold execWrite
  refine sound_queueCommand ?_ ?_
  · exact h
  · intro s1 x x1 x2 h1
    split
    · refine sound_stopQueue ?_
      rename_i e
      exact via (ExceptAll (fun y : CpErr => Sound k y.s) (Sound k)) e (sound_cpRelease h1)
    · refine sound_queueNext ?_
      rename_i e
      exact via (ExceptAll (fun y : CpErr => Sound k y.s) (Sound k)) e (sound_cpRelease h1)

theorem sound_execDrain {kk : QueueRef} {s : State} (h : Sound k s) :
    SoundOut k (execDrain kk s) := by
  unfold execDrain
  refine sound_queueCommand ?_ ?_
  · exact h
  · intro s1 x x1 x2 h1
    split
    · exact sound_queueNext h1
    · exact sound_queueWait h1

theorem sound_execDrainDone {kk : QueueRef} {s : State} (h : Sound k s) :
    SoundOut k (execDrainDone kk s) := by
  unfold execDrainDone
  refine sound_queueCommand ?_ ?_
  · exact h
  · intro s1 x x1 x2 h1
    split
    · exact sound_queueNext h1
    · exact h1

theorem sound_execMigrate {kk : QueueRef} {s : State} (h : Sound k s) :
    SoundOut k (execMigrate kk s) := by
  unfold execMigrate
  refine sound_queueCommand ?_ ?_
  · exact h
  · intro s1 x x1 x2 h1
    dsimp only
    split
    · exact sound_stopQueue h1
    · exact sound_queueNext (keep h1)

theorem sound_execMigrateResult {req : Nat} {s : State} (h : Sound k s) :
    SoundOut k (execMigrateResult req s) := by
  unfold execMigrateResult
  refine sound_agent ?_ ?_
  · exact h
  · intro s1 h1
    split
    · exact h1
    · split
      · exact h1
      · dsimp only
        split
        · rename_i e
          exact via (ExceptAll (fun y : CpErr => Sound k y.s) (Sound k)) e (sound_cpRelease (keep h1))
        · refine sound_stopQueue ?_
          rename_i e
          exact via (ExceptAll (fun y : CpErr => Sound k y.s) (Sound k)) e (sound_cpRelease (keep h1))

end Sys2Proof.Machine
end

section
/-! PROOFS. What Machine/Place does keeps memory canonical and the devices whole. -/

namespace Sys2Proof.Machine
variable {k : Keep}

theorem sound_depStatus {s : State} {g : Grid} {kk : Nat} (h : Sound k s) :
    ExceptAll (fun y => Sound k y.s) (fun y => Sound k y.2) (depStatus s g kk) := by
  unfold depStatus
  exact ExceptAll.bind (fun y : Nat × State => Sound k y.2) (sound_cpNat h)
    (fun x h1 => ExceptAll.map (fun y : Nat × State => Sound k y.2) (sound_cpNat h1) (fun x1 h2 => h2))

theorem sound_readDep {g : Grid} {acc : Deps × State} {kk : Nat} (h : Sound k acc.2) :
    Sound k (readDep g acc kk).2 := by
  unfold readDep
  split
  · exact h
  · split
    · rename_i e
      exact via (ExceptAll (fun y : CpErr => Sound k y.s) (fun y : (Nat × List Nat) × State => Sound k y.2)) e (sound_depStatus h)
    · split
      · split
        · rename_i e _ _
          exact via (ExceptAll (fun y : CpErr => Sound k y.s) (fun y : (Nat × List Nat) × State => Sound k y.2)) e (sound_depStatus h)
        · split
          · rename_i e _ _ _
            exact via (ExceptAll (fun y : CpErr => Sound k y.s) (fun y : (Nat × List Nat) × State => Sound k y.2)) e (sound_depStatus h)
          · rename_i e _ _ _
            exact via (ExceptAll (fun y : CpErr => Sound k y.s) (fun y : (Nat × List Nat) × State => Sound k y.2)) e (sound_depStatus h)
      · split
        · refine sound_modGrid ?_
          rename_i e _ _
          exact via (ExceptAll (fun y : CpErr => Sound k y.s) (fun y : (Nat × List Nat) × State => Sound k y.2)) e (sound_depStatus h)
        · split
          · refine sound_modGrid ?_
            rename_i e _ _ _
            exact via (ExceptAll (fun y : CpErr => Sound k y.s) (fun y : (Nat × List Nat) × State => Sound k y.2)) e (sound_depStatus h)
          · refine sound_modGrid ?_
            rename_i e _ _ _
            exact via (ExceptAll (fun y : CpErr => Sound k y.s) (fun y : (Nat × List Nat) × State => Sound k y.2)) e (sound_depStatus h)

theorem sound_readDeps {s : State} {g : Grid} (h : Sound k s) :
    Sound k (readDeps s g).2 := by
  unfold readDeps
  exact foldl_holds (fun y : Deps × State => Sound k y.2) h (fun x x1 h1 => sound_readDep h1)

theorem sound_execGridDependencesMet {ld grid : Nat} {s : State} (h : Sound k s) :
    SoundOut k (execGridDependencesMet ld grid s) := by
  unfold execGridDependencesMet
  refine sound_agent ?_ ?_
  · exact h
  · intro s1 h1
    split
    · exact h1
    · split
      · exact h1
      · split
        · rename_i e
          exact via (fun y : Deps × State => Sound k y.2) e (sound_readDeps h1)
        · refine sound_modGrid (keep ?_)
          rename_i e
          exact via (fun y : Deps × State => Sound k y.2) e (sound_readDeps h1)
        · refine sound_failGrid ?_
          rename_i e
          exact via (fun y : Deps × State => Sound k y.2) e (sound_readDeps h1)

theorem sound_noteUnfit {s : State} (h : Sound k s) :
    Sound k (noteUnfit s) := by
  unfold noteUnfit
  exact keep h

theorem sound_pick {s : State} {l : List Nat} (h : Sound k s) :
    Sound k (pick s l).2 := by
  unfold pick
  exact sound_tick h

theorem sound_pickRegs {s : State} {used : List (Nat × Nat)} {ns : List Nat} (h : Sound k s) :
    Sound k (pickRegs s used ns).2 := by
  induction ns generalizing s used with
  | nil => exact h
  | cons n r ih =>
    unfold pickRegs
    refine ih ?_
    split
    · exact sound_tick h
    · exact sound_pick h

theorem sound_allocate {s : State} {gr : Grid} {core : Nat} (h : Sound k s) :
    Sound k (allocate s gr core).2 := by
  unfold allocate
  exact sound_pickRegs (sound_pick (sound_pick (sound_pick (sound_pick h))))

theorem sound_zeroBuf {s : State} {b : Buf} {core base len : Nat} (h : Sound k s) :
    Sound k (zeroBuf s b core base len) := by
  unfold zeroBuf
  exact sound_zeroWords h

theorem sound_zeroAlloc {s : State} {gr : Grid} {core : Nat} {x : Alloc} (h : Sound k s) :
    Sound k (zeroAlloc s gr core x) := by
  unfold zeroAlloc
  exact sound_zeroBuf (sound_zeroBuf (sound_zeroBuf (foldl_holds (Sound k) h (fun s1 x1 h1 => sound_zeroWords h1))))

theorem sound_placeTeam {s : State} {gr : Grid} {r : TeamRef} {member core : Nat} {past : List Nat} (h : Sound k s) :
    Sound k (placeTeam s gr r member core past) := by
  unfold placeTeam
  exact sound_dropHeld (keep (foldl_holds (fun y : List Group × State => Sound k y.2)
    (sound_boundsRead (sound_takePin (sound_zeroAlloc (sound_allocate h)))) (fun x x1 h1 => sound_takePin h1)))

theorem sound_teamPlace {s : State} {t : Team} {p : BitVec 64} {n : Nat} {kk : Acc} (h : Sound k s) :
    ExceptAll (fun y => Sound k y.s) (fun _ => True) (teamPlace s t p n kk) := by
  unfold teamPlace
  split
  · exact ExceptAll.of_error h
  · split
    · exact ExceptAll.of_error (sound_tick h)
    · exact ExceptAll.of_ok trivial

theorem sound_teamRead {s : State} {t : Team} {p : BitVec 64} {n : Nat} (h : Sound k s) :
    ExceptAll (fun y => Sound k y.s) (fun y => Sound k y.2.2.2) (teamRead s t p n) := by
  unfold teamRead
  exact foldl_holds (ExceptAll (fun y : CpErr => Sound k y.s) (fun y : List Byte × RdSt × Nat × State => Sound k y.2.2.2))
    (ExceptAll.of_ok h) (fun x x1 h1 => ExceptAll.bind (fun y : List Byte × RdSt × Nat × State => Sound k y.2.2.2) h1 (fun x2 h2 =>
      ExceptAll.map (fun _ => True) (sound_teamPlace h2) (fun x3 h3 => sound_busRead (sound_walkRead (sound_tick h2)))))

theorem sound_teamWrite {s : State} {t : Team} {runs : List (Ptr × List Byte)} (h : Sound k s) :
    ExceptAll (fun y => Sound k y.s) (Sound k) (teamWrite s t runs) := by
  unfold teamWrite
  exact ExceptAll.map (fun _ => True) (foldl_holds (ExceptAll (fun y : CpErr => Sound k y.s) (fun _ => True)) (ExceptAll.of_ok trivial)
    (fun x x1 h1 => ExceptAll.bind (fun _ => True) h1 (fun x2 h2 => ExceptAll.map (fun _ => True) (sound_teamPlace h)
    (fun x3 h3 => trivial)))) (fun x h1 => foldl_holds (Sound k) (sound_tick h) (fun s1 x1 h2 => sound_busWrite (sound_walkRead h2)))

theorem sound_stageRows {s : State} {t : Team} {x n : Nat} {rs : List (Nat × Ptr)} (h : Sound k s) :
    ExceptAll (fun y => Sound k y.s) (fun y => Sound k y.2.2.2) (stageRows s t x n rs) := by
  induction rs generalizing s with
  | nil => exact h
  | cons r rest ih =>
    unfold stageRows
    refine ExceptAll.bind (fun y => Sound k y.2.2.2) (sound_teamRead h) fun y hy => ?_
    split
    · exact ExceptAll.map (fun z => Sound k z.2.2.2) (ih hy) fun _ hz => hz
    · exact hy

theorem sound_stageEntry {s : State} {t : Team} {i x : Nat} (h : Sound k s) :
    SoundStaged k (stageEntry s t i x) := by
  unfold stageEntry
  split
  · exact h
  · split
    · rename_i e
      exact via (ExceptAll (fun y : CpErr => Sound k y.s)
        (fun y : List (Nat × List Byte) × RdSt × Nat × State => Sound k y.2.2.2)) e (sound_stageRows h)
    · split
      · refine sound_kvConsume ?_
        rename_i e
        exact via (ExceptAll (fun y : CpErr => Sound k y.s)
          (fun y : List (Nat × List Byte) × RdSt × Nat × State => Sound k y.2.2.2)) e (sound_stageRows h)
      · refine sound_kvConsume ?_
        rename_i e
        exact via (ExceptAll (fun y : CpErr => Sound k y.s)
          (fun y : List (Nat × List Byte) × RdSt × Nat × State => Sound k y.2.2.2)) e (sound_stageRows h)
      · refine sound_modTeam ?_
        refine foldl_holds (Sound k) ?_ ?_
        · rename_i e
          exact via (ExceptAll (fun y : CpErr => Sound k y.s)
            (fun y : List (Nat × List Byte) × RdSt × Nat × State => Sound k y.2.2.2)) e (sound_stageRows h)
        · exact fun s1 x1 h1 => sound_bufPut h1

theorem sound_stageAll {s : State} {t : Team} {xs : List (Nat × Nat)} (h : Sound k s) : SoundStaged k (stageAll s t xs) := by
  induction xs generalizing s with
  | nil => exact h
  | cons p r ih =>
    have hs : SoundStaged k (stageEntry s t p.2 p.1) := sound_stageEntry h
    unfold stageAll
    split
    · next e => exact ih (via (SoundStaged k) e hs)
    · exact hs

theorem sound_stageTeam {s : State} {gr : Grid} {r : TeamRef} (h : Sound k s) :
    Sound k (stageTeam s gr r) := by
  unfold stageTeam
  split
  · exact h
  · split
    · rename_i e
      exact via (SoundStaged k) e (sound_stageAll h)
    · refine sound_killTeam ?_
      rename_i e
      exact via (SoundStaged k) e (sound_stageAll h)
    · refine sound_raiseTrap (sound_modTeam ?_)
      rename_i e
      exact via (SoundStaged k) e (sound_stageAll h)

theorem sound_placeGang {s : State} {gr : Grid} {kk : GangRef} {cores : List Nat} (h : Sound k s) :
    Sound k (placeGang s gr kk cores) := by
  unfold placeGang
  exact foldl_holds (Sound k) (keep (foldl_holds (Sound k) h (fun s1 x h1 => sound_placeTeam h1))) (fun s1 x h1 => sound_stageTeam h1)

theorem sound_execDispatchPlace {s : State} (h : Sound k s) :
    SoundOut k (execDispatchPlace s) := by
  unfold execDispatchPlace
  refine sound_agent ?_ ?_
  · exact h
  · intro s1 h1
    dsimp only
    split
    · exact sound_noteUnfit h1
    · exact sound_failGrid (keep (sound_noteUnfit h1))
    · split
      · exact sound_noteUnfit h1
      · exact sound_placeGang (keep (sound_modGrid (sound_noteUnfit h1)))

theorem sound_execGangRelaunch {kk : GangRef} {s : State} (h : Sound k s) :
    SoundOut k (execGangRelaunch kk s) := by
  unfold execGangRelaunch
  refine sound_agent ?_ ?_
  · exact h
  · intro s1 h1
    split
    · split
      · split
        · exact sound_placeGang (sound_modGang h1)
        · exact h1
      · exact h1
    · exact h1

theorem sound_execTeamStart {t : TeamRef} {s : State} (h : Sound k s) :
    SoundOut k (execTeamStart t s) := by
  unfold execTeamStart
  refine sound_agent ?_ ?_
  · exact h
  · intro s1 h1
    split
    · exact h1
    · split
      · exact sound_modTeam h1
      · exact h1

end Sys2Proof.Machine
end

section
/-! PROOFS. What Machine/Life does keeps memory canonical and the devices whole. -/

namespace Sys2Proof.Machine
variable {k : Keep}

theorem sound_execTeamExit {t : TeamRef} {s : State} (h : Sound k s) :
    SoundOut k (execTeamExit t s) := by
  unfold execTeamExit
  refine sound_agent ?_ ?_
  · exact h
  · intro s1 h1
    split
    · exact h1
    · split
      · exact sound_settleGbar (sound_modTeam h1)
      · exact h1

theorem sound_wbPut {s : State} {t : Team} {x i : Nat} {p : BitVec 64} {bs : List Byte} (h : Sound k s) :
    Sound k (wbPut s t x i p bs).1 := by
  unfold wbPut
  dsimp only
  split
  · rename_i e
    refine via (ExceptAll (fun y : CpErr => Sound k y.s) (Sound k)) e (sound_teamWrite ?_)
    split
    · exact sound_modTeam (sound_modTeam h)
    · exact sound_modTeam h
  · refine sound_modTeam ?_
    rename_i e
    refine via (ExceptAll (fun y : CpErr => Sound k y.s) (Sound k)) e (sound_teamWrite ?_)
    split
    · exact sound_modTeam (sound_modTeam h)
    · exact sound_modTeam h

theorem sound_wbGranule {r : TeamRef} {x i : Nat} {acc : State × Bool} {row : Nat × Ptr} {g : Nat × Nat} (h : Sound k acc.1) :
    Sound k (wbGranule r x i acc row g).1 := by
  unfold wbGranule
  split
  · dsimp only
    split
    · exact h
    · split
      · exact sound_killTeam h
      · split
        · exact h
        · refine sound_wbPut ?_
          rename_i e _ _ _
          exact via (OptionAll (Sound k)) e (sound_bufTouch h)
  · exact h

theorem sound_wbEntry {r : TeamRef} {s : State} {x i : Nat} (h : Sound k s) :
    Sound k (wbEntry r s x i) := by
  unfold wbEntry
  split
  · exact h
  · exact foldl_holds (fun y : State × Bool => Sound k y.1) h (fun x1 x2 h1 => foldl_holds (fun y : State × Bool => Sound k y.1) h1 (fun x3
        x4 h2 => sound_wbGranule h2))

theorem sound_releaseTeam {s : State} {t : Team} (h : Sound k s) :
    Sound k (releaseTeam s t) := by
  unfold releaseTeam
  exact sound_modGrid (sound_freeTeam h)

theorem sound_gangEnd {s : State} {kk : GangRef} (h : Sound k s) :
    Sound k (gangEnd s kk) := by
  unfold gangEnd
  split
  · exact h
  · split
    · exact keep h
    · exact sound_failGrid (keep h)

theorem sound_execWriteback {t : TeamRef} {s : State} (h : Sound k s) :
    SoundOut k (execWriteback t s) := by
  unfold execWriteback
  refine sound_agent ?_ ?_
  · exact h
  · intro s1 h1
    split
    · dsimp only
      split
      · exact h1
      · split
        · exact foldl_holds (Sound k) h1 (fun s2 x h2 => sound_wbEntry h2)
        · split
          · exact sound_gangEnd (sound_releaseTeam (sound_modGang (foldl_holds (Sound k) h1 (fun s2 x h2 => sound_wbEntry h2))))
          · exact sound_releaseTeam (sound_modGang (foldl_holds (Sound k) h1 (fun s2 x h2 => sound_wbEntry h2)))
    · exact h1

theorem sound_writeRecord {s : State} {g : Grid} (h : Sound k s) :
    ExceptAll (Sound k) (Sound k) (writeRecord s g) := by
  unfold writeRecord
  split
  · exact ExceptAll.of_error h
  · dsimp only
    split
    · refine ExceptAll.of_ok ?_
      rename_i e
      exact via (ExceptAll (fun y : CpErr => Sound k y.s) (Sound k)) e (sound_cpRelease h)
    · refine ExceptAll.of_error ?_
      rename_i e
      exact via (ExceptAll (fun y : CpErr => Sound k y.s) (Sound k)) e (sound_cpRelease h)

theorem sound_execGridComplete {ld grid : Nat} {s : State} (h : Sound k s) :
    SoundOut k (execGridComplete ld grid s) := by
  unfold execGridComplete
  refine sound_agent ?_ ?_
  · exact h
  · intro s1 h1
    split
    · exact h1
    · split
      · exact h1
      · split
        · refine keep (sound_modQueue ?_)
          rename_i e
          exact via (ExceptAll (Sound k) (Sound k)) e (sound_writeRecord h1)
        · refine keep (sound_modQueue (sound_stopQueue (sound_logEvent ?_)))
          rename_i e
          exact via (ExceptAll (Sound k) (Sound k)) e (sound_writeRecord h1)

theorem sound_execEndgrid {ld : Nat} {grid : BitVec 64} {s : State} (h : Sound k s) :
    SoundOut k (execEndgrid ld grid s) := by
  unfold execEndgrid
  refine sound_agent ?_ ?_
  · exact h
  · intro s1 h1
    split
    · exact sound_endGrid h1
    · exact h1

end Sys2Proof.Machine
end

section
/-! PROOFS. What Machine/Matrix does keeps memory canonical and the devices whole. -/

namespace Sys2Proof.Machine
variable {k : Keep}

theorem sound_engDone {o : Opnd} {s : State} (h : Sound k s) :
    SoundRes k (engDone o s) := by
  unfold engDone
  exact sound_done (sound_tick h)

theorem sound_engineTurn {c : Ctx} {kk : Res} (ha : Sound k c.s) (hb : SoundRes k kk) :
    SoundRes k (engineTurn c kk) := by
  unfold engineTurn
  split
  · exact ha
  · exact hb

theorem sound_execMma {x : MmaA} {s : State} (h : Sound k s) :
    SoundOut k (execMma x s) := by
  unfold execMma
  refine sound_withIssue ?_ ?_
  · exact h
  · intro x1 h1
    split
    · exact sound_done h1
    · exact sound_engineTurn h1 (sound_engDone (sound_modGroup h1))

theorem sound_execMmam {x : MmamA} {s : State} (h : Sound k s) :
    SoundOut k (execMmam x s) := by
  unfold execMmam
  refine sound_withIssue ?_ ?_
  · exact h
  · intro x1 h1
    split
    · exact sound_done h1
    · exact sound_engineTurn h1 (sound_engDone (sound_modGroup h1))

theorem sound_execScacc {x : FourDABT} {s : State} (h : Sound k s) :
    SoundOut k (execScacc x s) := by
  unfold execScacc
  refine sound_withIssue ?_ ?_
  · exact h
  · intro x1 h1
    split
    · exact sound_done h1
    · exact sound_engineTurn h1 (sound_engDone (sound_modGroup h1))

theorem sound_cbRead {b : Buf} {off : Nat} {t : TeamRef} {s : State} (h : Sound k s) :
    OptionAll (Sound k) (cbRead b off t s) := by
  unfold cbRead
  exact OptionAll.map (Sound k) (sound_bufTouch h) (fun s1 h1 => sound_modTeam h1)

theorem sound_execCbld {x : CbldA} {s : State} (h : Sound k s) :
    SoundOut k (execCbld x s) := by
  unfold execCbld
  refine sound_withIssue ?_ ?_
  · exact h
  · intro x1 h1
    split
    · exact sound_done h1
    · refine sound_engineTurn ?_ ?_
      · exact h1
      · split
        · dsimp only
          split
          · exact sound_fragTrap
          · split
            · exact sound_fragTrap
            · split
              · exact h1
              · split
                · exact h1
                · refine sound_done (sound_seeBuf ?_)
                  rename_i e
                  exact via (OptionAll (Sound k)) e (sound_cbRead h1)
        · dsimp only
          split
          · exact sound_fragTrap
          · split
            · exact sound_fragTrap
            · split
              · exact h1
              · split
                · exact h1
                · refine sound_done (sound_seeBuf ?_)
                  rename_i e
                  exact via (OptionAll (Sound k)) e (sound_cbRead h1)

theorem sound_drainPlace {c : Ctx} {a : Opnd} {off : BitVec 22} {pitch : Option Nat} (h : Sound k c.s) :
    ExceptAll (SoundRes k) (fun _ => True) (drainPlace c a off pitch) := by
  unfold drainPlace
  split
  · dsimp only
    split
    · exact ExceptAll.of_error sound_fragTrap
    · split
      · exact ExceptAll.of_error sound_fragTrap
      · split
        · exact ExceptAll.of_error sound_fragTrap
        · exact ExceptAll.of_ok trivial
  · dsimp only
    split
    · exact ExceptAll.of_error sound_fragTrap
    · split
      · exact ExceptAll.of_error sound_fragTrap
      · split
        · exact ExceptAll.of_error sound_fragTrap
        · exact ExceptAll.of_ok trivial

theorem sound_execMdrain {x : MdrainA} {s : State} (h : Sound k s) : SoundOut k (execMdrain x s) := by
  unfold execMdrain
  refine sound_withIssue h fun c hc => ?_
  split
  · exact sound_done hc
  · refine sound_engineTurn hc ?_
    extract_lets +onlyGivenNames pitch
    split
    · next e => exact via (ExceptAll (SoundRes k) (fun _ => True)) e (sound_drainPlace hc)
    · refine sound_withTouch hc fun s hs => ?_
      extract_lets ws viol s1 s2
      split
      · exact sound_boundTrap hc
      · exact sound_done (sound_modGroup (sound_flagIf hc (sound_relBuf (foldl_holds (Sound k) hs fun s w hs => sound_bufPut hs))))

theorem sound_execMdrainRaw {x : MdrainRawA} {s : State} (h : Sound k s) :
    SoundOut k (execMdrainRaw x s) := by
  unfold execMdrainRaw
  refine sound_withIssue ?_ ?_
  · exact h
  · intro x1 h1
    split
    · exact sound_done h1
    · refine sound_engineTurn ?_ ?_
      · exact h1
      · split
        · rename_i e
          exact via (ExceptAll (SoundRes k) (fun _ => True)) e (sound_drainPlace h1)
        · exact sound_done (sound_relBuf (sound_bufPut (foldl_holds (Sound k) h1 (fun s1 x2 h2 => sound_bufPut h2))))

theorem sound_execMfill {x : MfillA} {s : State} (h : Sound k s) : SoundOut k (execMfill x s) := by
  unfold execMfill
  refine sound_withIssue h fun c hc => ?_
  split
  · exact sound_done hc
  · refine sound_engineTurn hc ?_
    extract_lets +onlyGivenNames pitch
    split
    · next e => exact via (ExceptAll (SoundRes k) (fun _ => True)) e (sound_drainPlace hc)
    · generalize elems16.map _ = es
      exact sound_withTouch hc fun s hs => sound_engDone (sound_seeBuf (sound_modGroup hs))

theorem sound_execMfillRaw {x : MfillRawA} {s : State} (h : Sound k s) :
    SoundOut k (execMfillRaw x s) := by
  unfold execMfillRaw
  refine sound_withIssue ?_ ?_
  · exact h
  · intro x1 h1
    split
    · exact sound_done h1
    · refine sound_engineTurn ?_ ?_
      · exact h1
      · split
        · rename_i e
          exact via (ExceptAll (SoundRes k) (fun _ => True)) e (sound_drainPlace h1)
        · exact sound_withTouch h1 (fun s1 h2 => sound_engDone (sound_seeBuf (sound_modGroup h2)))

theorem sound_feCbldLane {s : State} {r : GroupRef} {e : Entry} {i : Instr} {off : Nat} (h : Sound k s) :
    Sound k (feCbldLane s r e i off) := by
  unfold feCbldLane
  split
  · split
    · dsimp only
      split
      · split
        · exact sound_killTeam h
        · refine sound_modGroup ?_
          rename_i e1
          exact via (OptionAll (Sound k)) e1 (sound_cbRead h)
      · exact h
    · dsimp only
      split
      · split
        · exact sound_killTeam h
        · refine sound_modGroup ?_
          rename_i e1
          exact via (OptionAll (Sound k)) e1 (sound_cbRead h)
      · exact h
  · exact h

theorem sound_engineAgain {s : State} {r : GroupRef} {e : Entry} (h : Sound k s) :
    Sound k (engineAgain s r e) := by
  unfold engineAgain
  exact sound_modGroup h

theorem sound_execFeWaitSatisfied {r : GroupRef} {lane : Nat} {s : State} (h : Sound k s) :
    SoundOut k (execFeWaitSatisfied r lane s) := by
  unfold execFeWaitSatisfied
  split
  · exact sound_feLoadLane h
  · exact sound_feFragLane h
  · exact sound_feCbldLane h
  · exact sound_engineAgain h
  · exact h

end Sys2Proof.Machine
end

section
/-! PROOFS. What Machine/MoveOps does keeps memory canonical and the devices whole. -/

namespace Sys2Proof.Machine
variable {k : Keep}

theorem sound_execMov {x : MovA} {s : State} (h : Sound k s) :
    SoundOut k (execMov x s) := by
  unfold execMov
  exact sound_withIssue h (fun x1 h1 => sound_resFree h1)

theorem sound_execMovi {x : MoviA} {s : State} (h : Sound k s) :
    SoundOut k (execMovi x s) := by
  unfold execMovi
  exact sound_withIssue h (fun x1 h1 => sound_resFree h1)

theorem sound_execSel {x : SelA} {s : State} (h : Sound k s) :
    SoundOut k (execSel x s) := by
  unfold execSel
  exact sound_withIssue h (fun x1 h1 => sound_resFree h1)

theorem sound_execPset {x : PsetA} {s : State} (h : Sound k s) :
    SoundOut k (execPset x s) := by
  unfold execPset
  exact sound_withIssue h (fun x1 h1 => sound_resFree h1)

theorem sound_execPmovTov {x : OneD} {s : State} (h : Sound k s) :
    SoundOut k (execPmovTov x s) := by
  unfold execPmovTov
  exact sound_withIssue h (fun x1 h1 => sound_resFree h1)

theorem sound_execPmovFromv {x : PmovFromA} {s : State} (h : Sound k s) :
    SoundOut k (execPmovFromv x s) := by
  unfold execPmovFromv
  exact sound_withIssue h (fun x1 h1 => sound_resFree h1)

theorem sound_execSread {x : SreadA} {s : State} (h : Sound k s) :
    SoundOut k (execSread x s) := by
  unfold execSread
  exact sound_withIssue h (fun x1 h1 => sound_resFree h1)

theorem sound_execModset {x : ModsetA} {s : State} (h : Sound k s) :
    SoundOut k (execModset x s) := by
  unfold execModset
  exact sound_withIssue h (fun x1 h1 => sound_resFree h1)

theorem sound_execBndset {x : ThreeDAB} {s : State} (h : Sound k s) :
    SoundOut k (execBndset x s) := by
  unfold execBndset
  refine sound_withIssue ?_ ?_
  · exact h
  · intro x1 h1
    split
    · exact sound_done (sound_tick (sound_modTeam h1))
    · exact sound_done h1

end Sys2Proof.Machine
end

section
/-! PROOFS. What Machine/NearBank does keeps memory canonical and the devices whole. -/

namespace Sys2Proof.Machine
variable {k : Keep}

theorem sound_memReq {c : Ctx} {x : NbreqA} {att : Bool} (h : Sound k c.s) :
    SoundRes k (memReq c x att) := by
  unfold memReq
  split
  · exact sound_done h
  · split
    · dsimp only
      split
      · exact sound_trapA
      · exact sound_withTouch h (fun s h1 => sound_done (keep (sound_copyPin h1)))
    · dsimp only
      split
      · exact sound_trapA
      · exact sound_withTouch h (fun s h1 => sound_done (keep (sound_copyPin h1)))

theorem sound_execNbreq {x : NbreqA} {s : State} (h : Sound k s) :
    SoundOut k (execNbreq x s) := by
  unfold execNbreq
  exact sound_withIssue h (fun x1 h1 => sound_memReq h1)

theorem sound_execAttq {x : NbreqA} {s : State} (h : Sound k s) :
    SoundOut k (execAttq x s) := by
  unfold execAttq
  exact sound_withIssue h (fun x1 h1 => sound_memReq h1)

theorem sound_memGone {s : State} {m : MemOp} (h : Sound k s) :
    Sound k (memGone s m) := by
  unfold memGone
  exact sound_bury (keep (sound_dropPin h))

theorem sound_memFail {s : State} {m : MemOp} {arr cause detail wrote : Nat} (h : Sound k s) :
    Sound k (memFail s m arr cause detail wrote) := by
  unfold memFail
  split
  · exact sound_memGone (sound_arrError h)
  · exact keep (sound_arrError h)

theorem sound_memDone {s : State} {m : MemOp} {n : Nat} (h : Sound k s) :
    Sound k (memDone s m n) := by
  unfold memDone
  split
  · exact sound_memGone h
  · exact keep h

theorem sound_nbRead {e : Eng} {a : NbRead} {it : NbItem} (h : Sound k a.s) :
    Sound k (nbRead e a it).s := by
  unfold nbRead
  refine foldl_holds (fun y : State × Option (List Nat) × List Nat => Sound k y.1) ?_ ?_
  · exact h
  · intro x x1 h1
    split
    · exact h1
    · split
      · rename_i e1 _
        exact via (ExceptAll (fun _ => True) (fun y : EngRd => Sound k y.s)) e1 (sound_engRead h1)
      · refine sound_kvConsume ?_
        rename_i e1 _
        exact via (ExceptAll (fun _ => True) (fun y : EngRd => Sound k y.s)) e1 (sound_engRead h1)

theorem sound_nbRun {s : State} {e : Eng} {gone : Bool} {raw : Nat} {items : List NbItem} (h : Sound k s) :
    Sound k (nbRun s e gone raw items) := by
  unfold nbRun
  refine foldl_holds (Sound k) ?_ ?_
  · refine foldl_holds (Sound k) ?_ ?_
    · exact foldl_holds (fun y : NbRead => Sound k y.s) (foldl_holds (Sound k) h (fun s1 x h1 => sound_dieClean h1))
        (fun x x1 h1 => sound_nbRead h1)
    · intro s1 x h1
      split
      · dsimp only
        split
        · exact sound_locWrite h1
        · exact sound_locPoison h1
      · split
        · exact sound_tick h1
        · dsimp only
          split
          · exact sound_locWrite (sound_tick h1)
          · exact sound_locPoison (sound_tick h1)
  · exact fun s1 x h1 => sound_dieInval h1

theorem sound_nbStep {op : Nat} {takes : Nat → Bool} {items : Nat → List NbItem} {s : State} (h : Sound k s) :
    SoundOut k (nbStep op takes items s) := by
  unfold nbStep
  refine sound_agent ?_ ?_
  · exact h
  · intro s1 h1
    split
    · exact h1
    · split
      · exact h1
      · split
        · exact sound_memGone (sound_tick h1)
        · dsimp only
          split
          · exact sound_memFail (sound_tick h1)
          · exact sound_memDone (sound_nbRun (sound_tick h1))

theorem sound_execNbCopy {op : Nat} {s : State} (h : Sound k s) :
    SoundOut k (execNbCopy op s) := by
  unfold execNbCopy
  exact sound_nbStep h

theorem sound_execNbRelayout {op : Nat} {s : State} (h : Sound k s) :
    SoundOut k (execNbRelayout op s) := by
  unfold execNbRelayout
  exact sound_nbStep h

theorem sound_execNbReduce {op : Nat} {s : State} (h : Sound k s) :
    SoundOut k (execNbReduce op s) := by
  unfold execNbReduce
  exact sound_nbStep h

theorem sound_execNbScale {op : Nat} {s : State} (h : Sound k s) :
    SoundOut k (execNbScale op s) := by
  unfold execNbScale
  exact sound_nbStep h

theorem sound_atToken {dh scale : Nat} {q : List FVal} {f u : Nat} {r : AtRun} (h : Sound k r.s) :
    Sound k (atToken dh scale q f u r).s := by
  unfold atToken
  split
  · exact h
  · dsimp only
    split
    · exact sound_kvPoison (sound_readMem h)
    · exact sound_readMem h

theorem sound_atFetch {f : Nat} {r : AtRun} (h : Sound k r.s) :
    Sound k (atFetch f r).s := by
  unfold atFetch
  exact sound_tableRead (sound_kvRead h)

theorem sound_atAhead {tenant n : Nat} {r : AtRun} (h : Sound k r.s) : Sound k (atAhead tenant n r).s := by
  induction n generalizing r with
  | zero => exact h
  | succ n ih =>
    unfold atAhead
    split
    · exact h
    · split
      · exact ih (sound_atFetch h)
      · exact h

theorem sound_atWalk {dh scale tenant fuel : Nat} {q : List FVal} {r : AtRun} (h : Sound k r.s) :
    Sound k (atWalk dh scale tenant q fuel r).s := by
  induction fuel generalizing r with
  | zero =>
    unfold atWalk
    split <;> exact h
  | succ fuel ih =>
    unfold atWalk
    split
    · exact h
    · split
      · exact h
      · split
        · dsimp only
          split
          · exact h
          · exact sound_kvConsume h
        · exact ih (foldl_holds (fun r : AtRun => Sound k r.s) (sound_atAhead h) fun r u hr => sound_atToken hr)

theorem sound_atStart {s : State} {head : Nat} {r : AtRun} (ha : Sound k s) (hb : Sound k r.s) :
    Sound k (atStart s head r).s := by
  unfold atStart
  split
  · exact hb
  · split
    · exact hb
    · exact sound_atFetch ha

theorem sound_atPut {s : State} {m : MemOp} {l : List (Nat × Nat × Nat × Nat)} (h : Sound k s) :
    Sound k (atPut s m l) := by
  unfold atPut
  exact sound_bufLand h

theorem sound_execAttentionCommand {op : Nat} {s : State} (h : Sound k s) :
    SoundOut k (execAttentionCommand op s) := by
  unfold execAttentionCommand
  refine sound_agent ?_ ?_
  · exact h
  · intro s1 h1
    split
    · exact h1
    · split
      · exact h1
      · split
        · exact sound_memGone h1
        · split
          · exact sound_memFail h1
          · dsimp only
            split
            · refine sound_memDone (sound_atPut ?_)
              split
              · exact sound_atWalk (sound_atStart (sound_bufRd h1) (sound_bufRd h1))
              · exact sound_bufRd h1
            · split
              · refine sound_memFail (sound_atPut ?_)
                split
                · exact sound_atWalk (sound_atStart (sound_bufRd h1) (sound_bufRd h1))
                · exact sound_bufRd h1
              · refine sound_memFail ?_
                split
                · exact sound_atWalk (sound_atStart (sound_bufRd h1) (sound_bufRd h1))
                · exact sound_bufRd h1

theorem sound_setPoolCount {s : State} {ld st n : Nat} (h : Sound k s) :
    Sound k (setPoolCount s ld st n) := by
  unfold setPoolCount
  exact sound_hwWrite h

theorem sound_kvLog {s : State} {f : Nat} (h : Sound k s) :
    Sound k (kvLog s f) := by
  unfold kvLog
  exact sound_logEvent h

theorem sound_poolRead {s : State} {ld st off : Nat} (h : Sound k s) :
    Sound k (poolRead s ld st off) := by
  unfold poolRead
  split
  · exact h
  · exact sound_tableRead h

theorem sound_poolPush {s : State} {ld st f : Nat} (h : Sound k s) :
    Sound k (poolPush s ld st f) := by
  unfold poolPush
  dsimp only
  split
  · exact sound_kvLog (sound_poolRead h)
  · exact sound_setPoolCount (sound_hwWrite (sound_poolRead h))

theorem sound_poolPop {ld st fuel : Nat} {s : State} (h : Sound k s) : Sound k (poolPop ld st fuel s).2 := by
  induction fuel generalizing s with
  | zero => exact h
  | succ fuel ih =>
    unfold poolPop
    extract_lets n s1 s2 f s3
    have h1 : Sound k s1 := sound_poolRead h
    have h3 : Sound k s3 := sound_setPoolCount (sound_poolRead h1)
    clear_value s3
    split
    · exact h1
    · split
      · exact h3
      · exact ih (sound_kvLog h3)

theorem sound_poolBorrow {s : State} {ld st lender : Nat} (h : Sound k s) :
    Sound k (poolBorrow s ld st lender) := by
  unfold poolBorrow
  refine foldl_holds (Sound k) ?_ ?_
  · exact h
  · intro s1 x h1
    split
    · refine sound_poolPush ?_
      rename_i e
      exact via (fun y : Option Nat × State => Sound k y.2) e (sound_poolPop h1)
    · rename_i e
      exact via (fun y : Option Nat × State => Sound k y.2) e (sound_poolPop h1)

theorem sound_kvAlloc {s : State} {ld st : Nat} (h : Sound k s) :
    Sound k (kvAlloc s ld st).2 := by
  unfold kvAlloc
  dsimp only
  split
  · exact sound_poolPop h
  · split
    · exact sound_poolPop (sound_poolBorrow (sound_poolPop h))
    · exact sound_poolPop (sound_poolBorrow (sound_poolPop (sound_poolBorrow (sound_poolPop h))))

theorem sound_kvHeader {s : State} {f : Nat} (h : Sound k s) :
    Sound k (kvHeader s f).2 := by
  unfold kvHeader
  dsimp only
  split
  · exact sound_kvRead h
  · exact keep (sound_kvConsume (sound_kvRead h))

theorem sound_kvCheck {s : State} {ld tenant f : Nat} (h : Sound k s) :
    ExceptAll (fun y => Sound k y.2.2) (fun y => Sound k y.2) (kvCheck s ld tenant f) := by
  unfold kvCheck
  split
  · exact ExceptAll.of_error h
  · dsimp only
    split
    · exact ExceptAll.of_error (sound_kvHeader h)
    · split
      · exact ExceptAll.of_error (sound_kvHeader h)
      · exact ExceptAll.of_ok (sound_kvHeader h)

theorem sound_kvTrap {e : Nat × Nat × State} (h : Sound k e.2.2) :
    SoundRes k (kvTrap e) := by
  unfold kvTrap
  exact h

theorem sound_kvGone {s : State} {f : Nat} (h : Sound k s) :
    Sound k (kvGone s f) := by
  unfold kvGone
  exact keep h

theorem sound_kvFree {ld tenant fuel f : Nat} {s : State} (h : Sound k s) : Sound k (kvFree ld tenant fuel f s) := by
  induction fuel generalizing f s with
  | zero => exact h
  | succ fuel ih =>
    unfold kvFree
    split
    · exact h
    · split
      · next e => exact via (ExceptAll (fun y : Nat × Nat × State => Sound k y.2.2) fun y : Nat × State => Sound k y.2) e (sound_kvCheck h)
      · next hd s1 e =>
        have h1 : Sound k s1 := via (ExceptAll (fun y : Nat × Nat × State => Sound k y.2.2) fun y : Nat × State => Sound k y.2) e
            (sound_kvCheck h)
        dsimp only
        split
        · exact sound_kvWrite h1
        · refine ih ?_
          split
          · exact sound_poolPush (sound_kvWrite (sound_kvGone h1))
          · exact sound_kvLog (sound_kvWrite (sound_kvGone h1))

theorem sound_execKvget {x : ThreeDAB} {s : State} (h : Sound k s) :
    SoundOut k (execKvget x s) := by
  unfold execKvget
  refine sound_withIssue ?_ ?_
  · exact h
  · intro x1 h1
    split
    · exact sound_done h1
    · dsimp only
      split
      · exact True.intro
      · split
        · rename_i e
          exact via (fun y : Option Nat × State => Sound k y.2) e (sound_kvAlloc h1)
        · refine sound_done (sound_tick (sound_modGroup (keep (sound_kvWrite ?_))))
          rename_i e
          exact via (fun y : Option Nat × State => Sound k y.2) e (sound_kvAlloc h1)

theorem sound_execKvput {x : OneA} {s : State} (h : Sound k s) :
    SoundOut k (execKvput x s) := by
  unfold execKvput
  refine sound_withIssue ?_ ?_
  · exact h
  · intro x1 h1
    split
    · exact sound_done h1
    · dsimp only
      split
      · refine sound_kvTrap ?_
        rename_i e
        exact via (ExceptAll (fun y : Nat × Nat × State => Sound k y.2.2) (fun y : Nat × State => Sound k y.2)) e (sound_kvCheck h1)
      · exact sound_done (sound_kvFree h1)

theorem sound_execKvlnkSucc {x : TwoAB} {s : State} (h : Sound k s) :
    SoundOut k (execKvlnkSucc x s) := by
  unfold execKvlnkSucc
  refine sound_withIssue ?_ ?_
  · exact h
  · intro x1 h1
    split
    · exact sound_done h1
    · dsimp only
      split
      · refine sound_kvTrap ?_
        rename_i e
        exact via (ExceptAll (fun y : Nat × Nat × State => Sound k y.2.2) (fun y : Nat × State => Sound k y.2)) e (sound_kvCheck h1)
      · split
        · refine sound_done (sound_kvFree (sound_kvWrite ?_))
          rename_i e _
          exact via (ExceptAll (fun y : Nat × Nat × State => Sound k y.2.2) (fun y : Nat × State => Sound k y.2)) e (sound_kvCheck h1)
        · split
          · refine sound_kvTrap ?_
            rename_i e
            refine via (ExceptAll (fun y : Nat × Nat × State => Sound k y.2.2) (fun y : Nat × State => Sound k y.2)) e (sound_kvCheck ?_)
            rename_i e1 _ _ _
            exact via (ExceptAll (fun y : Nat × Nat × State => Sound k y.2.2) (fun y : Nat × State => Sound k y.2)) e1 (sound_kvCheck h1)
          · split
            · rename_i e _
              refine via (ExceptAll (fun y : Nat × Nat × State => Sound k y.2.2) (fun y : Nat × State => Sound k y.2)) e (sound_kvCheck ?_)
              rename_i e1 _ _ _ _ _
              exact via (ExceptAll (fun y : Nat × Nat × State => Sound k y.2.2) (fun y : Nat × State => Sound k y.2)) e1 (sound_kvCheck h1)
            · refine sound_done (sound_kvFree (sound_kvWrite (sound_kvWrite ?_)))
              rename_i e _
              refine via (ExceptAll (fun y : Nat × Nat × State => Sound k y.2.2) (fun y : Nat × State => Sound k y.2)) e (sound_kvCheck ?_)
              rename_i e1 _ _ _ _ _
              exact via (ExceptAll (fun y : Nat × Nat × State => Sound k y.2.2) (fun y : Nat × State => Sound k y.2)) e1 (sound_kvCheck h1)

theorem sound_execKvlnkTok {x : TwoAB} {s : State} (h : Sound k s) :
    SoundOut k (execKvlnkTok x s) := by
  unfold execKvlnkTok
  refine sound_withIssue ?_ ?_
  · exact h
  · intro x1 h1
    split
    · exact sound_done h1
    · dsimp only
      split
      · refine sound_kvTrap ?_
        rename_i e
        exact via (ExceptAll (fun y : Nat × Nat × State => Sound k y.2.2) (fun y : Nat × State => Sound k y.2)) e (sound_kvCheck h1)
      · refine sound_done (sound_kvWrite ?_)
        rename_i e
        exact via (ExceptAll (fun y : Nat × Nat × State => Sound k y.2.2) (fun y : Nat × State => Sound k y.2)) e (sound_kvCheck h1)

end Sys2Proof.Machine
end

section
/-! PROOFS. What Machine/Power does keeps memory canonical and the devices whole. -/

namespace Sys2Proof.Machine
variable {k : Keep}

theorem sound_execPowerOn {s : State} (h : Sound k s) :
    SoundOut k (execPowerOn s) := by
  unfold execPowerOn
  split
  · exact h
  · exact sound_powered h

theorem sound_execPowerDown {s : State} (h : Sound k s) :
    SoundOut k (execPowerDown s) := by
  unfold execPowerDown
  split
  · exact sound_powered (sound_drivePowerLoss h)
  · exact h

theorem sound_execCxlConventionalReset {s : State} (h : Sound k s) :
    SoundOut k (execCxlConventionalReset s) := by
  unfold execCxlConventionalReset
  exact sound_packageReset h

theorem sound_execPkgrst {v : BitVec 64} {s : State} (h : Sound k s) :
    SoundOut k (execPkgrst v s) := by
  unfold execPkgrst
  exact sound_qbWrite h

theorem sound_execPowerLimitExceeded {s : State} (h : Sound k s) :
    SoundOut k (execPowerLimitExceeded s) := by
  unfold execPowerLimitExceeded
  exact sound_agent h (fun s1 h1 => keep h1)

theorem sound_execPowerDrawWithinLimit {s : State} (h : Sound k s) :
    SoundOut k (execPowerDrawWithinLimit s) := by
  unfold execPowerDrawWithinLimit
  exact sound_agent h (fun s1 h1 => keep h1)

theorem sound_dieHot {s : State} {die : Nat} (h : Sound k s) :
    Sound k (dieHot s die) := by
  unfold dieHot
  split
  · exact h
  · exact keep h

theorem sound_thermalEvent {s : State} {die detail : Nat} (h : Sound k s) :
    Sound k (thermalEvent s die detail) := by
  unfold thermalEvent
  exact sound_raiseMsix (sound_logEvent h)

theorem sound_execThermalIssueLimit {die : Nat} {s : State} (h : Sound k s) :
    SoundOut k (execThermalIssueLimit die s) := by
  unfold execThermalIssueLimit
  split
  · exact h
  · dsimp only
    split
    · exact sound_dieHot h
    · exact sound_thermalEvent (sound_dieHot h)

theorem sound_execThermalHalt {die : Nat} {s : State} (h : Sound k s) :
    SoundOut k (execThermalHalt die s) := by
  unfold execThermalHalt
  split
  · exact h
  · dsimp only
    split
    · exact sound_dieHot h
    · exact keep (sound_thermalEvent (sound_dieHot h))

theorem sound_execDieCooled {die : Nat} {s : State} (h : Sound k s) :
    SoundOut k (execDieCooled die s) := by
  unfold execDieCooled
  split
  · exact sound_packageCool (keep h)
  · exact h

theorem sound_execExpanderLinkDown {port : Nat} {s : State} (h : Sound k s) :
    SoundOut k (execExpanderLinkDown port s) := by
  unfold execExpanderLinkDown
  refine sound_agent ?_ ?_
  · exact h
  · intro s1 h1
    split
    · exact sound_linkLost h1
    · exact h1

theorem sound_execExplink {port : Nat} {v : BitVec 64} {s : State} (h : Sound k s) :
    SoundOut k (execExplink port v s) := by
  unfold execExplink
  refine sound_agent ?_ ?_
  · exact h
  · intro s1 h1
    split
    · exact sound_privWrite h1
    · exact h1

theorem sound_execExpanderLinkTrained {port : Nat} {s : State} (h : Sound k s) :
    SoundOut k (execExpanderLinkTrained port s) := by
  unfold execExpanderLinkTrained
  refine sound_agent ?_ ?_
  · exact h
  · intro s1 h1
    split
    · exact keep (sound_setPkgReg h1)
    · exact h1

theorem sound_execNetworkPortLinkChange {eth : Bool} {port : Nat} {up : Bool} {s : State} (h : Sound k s) :
    SoundOut k (execNetworkPortLinkChange eth port up s) := by
  unfold execNetworkPortLinkChange
  split
  · exact h
  · split
    · split
      · exact keep h
      · exact h
    · split
      · exact keep h
      · exact h

theorem sound_refuseFar {s : State} {f : Far} (h : Sound k s) :
    Sound k (refuseFar s f) := by
  unfold refuseFar
  exact sound_farWake (sound_farFail (sound_farDrop h))

theorem sound_execHostRefusal {id : Nat} {s : State} (h : Sound k s) :
    SoundOut k (execHostRefusal id s) := by
  unfold execHostRefusal
  refine sound_agent ?_ ?_
  · exact h
  · intro s1 h1
    split
    · split
      · exact sound_refuseFar h1
      · exact h1
    · split
      · exact h1
      · split
        · exact sound_reqNext h1
        · exact h1

end Sys2Proof.Machine
end

section
/-! PROOFS. What Machine/System does keeps memory canonical and the devices whole. -/

namespace Sys2Proof.Machine
variable {k : Keep}

theorem sound_execSyscall {x : SyscallA} {s : State} (h : Sound k s) :
    SoundOut k (execSyscall x s) := by
  unfold execSyscall
  refine sound_withIssue ?_ ?_
  · exact h
  · intro x1 h1
    split
    · exact True.intro
    · split
      · exact True.intro
      · exact h1

theorem sound_execSyscallPost {r : TeamRef} {s : State} (h : Sound k s) :
    SoundOut k (execSyscallPost r s) := by
  unfold execSyscallPost
  refine sound_agent ?_ ?_
  · exact h
  · intro s1 h1
    split
    · exact h1
    · split
      · exact h1
      · split
        · exact h1
        · exact sound_modTeam (sound_setQb (sound_addTag (sound_addTag (sound_writeMem (sound_endTags h1)))))

theorem sound_execReplytok {hart ld : Nat} {token : BitVec 64} {s : State} (h : Sound k s) :
    SoundOut k (execReplytok hart ld token s) := by
  unfold execReplytok
  refine sound_agent ?_ ?_
  · exact h
  · intro s1 h1
    split
    · exact sound_devWrite h1
    · exact h1

theorem sound_execTrap {x : TrapA} {s : State} (h : Sound k s) :
    SoundOut k (execTrap x s) := by
  unfold execTrap
  refine sound_withIssue ?_ ?_
  · exact h
  · intro x1 h1
    split
    · exact True.intro
    · exact sound_done h1

theorem sound_execBkpt {x : TrapA} {s : State} (h : Sound k s) :
    SoundOut k (execBkpt x s) := by
  unfold execBkpt
  refine sound_withIssue ?_ ?_
  · exact h
  · intro x1 h1
    split
    · exact True.intro
    · exact sound_done h1

theorem sound_execFeatq {x : FeatqA} {s : State} (h : Sound k s) :
    SoundOut k (execFeatq x s) := by
  unfold execFeatq
  exact sound_withIssue h (fun x1 h1 => sound_resFree h1)

theorem sound_execRefresh {x0 : Hdr} {s : State} (h : Sound k s) :
    SoundOut k (execRefresh x0 s) := by
  unfold execRefresh
  refine sound_withIssue ?_ ?_
  · exact h
  · intro x h1
    split
    · exact sound_done h1
    · split
      · exact True.intro
      · refine sound_done ?_
        rename_i e
        exact via (OptionAll (Sound k)) e (sound_refreshTeam h1)

theorem sound_execNop {x0 : Hdr} {s : State} (h : Sound k s) :
    SoundOut k (execNop x0 s) := by
  unfold execNop
  exact sound_withIssue h (fun x h1 => sound_done h1)

end Sys2Proof.Machine
end

section
/-! PROOFS. What Machine/Supervisor does keeps memory canonical and the devices whole. -/

namespace Sys2Proof.Machine
variable {k : Keep}

theorem sound_mgmtOp {c : Ctx} {kk : Res} (ha : Sound k c.s) (hb : SoundRes k kk) :
    SoundRes k (mgmtOp c kk) := by
  unfold mgmtOp
  split
  · exact sound_done ha
  · split
    · exact True.intro
    · exact hb

theorem sound_handlerEnd {c : Ctx} {skip : Bool} (h : Sound k c.s) :
    SoundRes k (handlerEnd c skip) := by
  unfold handlerEnd
  split
  · exact sound_done h
  · split
    · exact True.intro
    · exact sound_eret h

theorem sound_execEret {x0 : Hdr} {s : State} (h : Sound k s) :
    SoundOut k (execEret x0 s) := by
  unfold execEret
  exact sound_withIssue h (fun x h1 => sound_handlerEnd h1)

theorem sound_execEretSkip {x0 : Hdr} {s : State} (h : Sound k s) :
    SoundOut k (execEretSkip x0 s) := by
  unfold execEretSkip
  exact sound_withIssue h (fun x h1 => sound_handlerEnd h1)

theorem sound_execHandlerWatchdog {r : GroupRef} {s : State} (h : Sound k s) :
    SoundOut k (execHandlerWatchdog r s) := by
  unfold execHandlerWatchdog
  refine sound_agent ?_ ?_
  · exact h
  · intro s1 h1
    split
    · split
      · exact sound_raiseTrap (keep h1)
      · exact h1
    · exact h1

theorem sound_afterCow {c : Ctx} {kk : State → Res} (ha : Sound k c.s) (hb : ∀ y0, Sound k y0 → SoundRes k (kk y0)) :
    SoundRes k (afterCow c kk) := by
  unfold afterCow
  dsimp only
  split
  · exact hb _ (sound_forceCow ha)
  · exact sound_forceCow ha

theorem sound_treeRun {r : Except (Nat × Nat) State} (h : ExceptAll (fun _ => True) (Sound k) r) :
    SoundRes k (treeRun r) := by
  unfold treeRun
  split
  · exact True.intro
  · exact sound_done h

theorem sound_treeGive {c : Ctx} {d : Opnd} {r : Except (Nat × Nat) (State × Nat)} (ha : Sound k c.s) (hb : ExceptAll (fun _ => True)
    (fun y => Sound k y.1) r) :
    SoundRes k (treeGive c d r) := by
  unfold treeGive
  split
  · exact True.intro
  · exact sound_done (sound_tick (sound_modGroup hb))

theorem sound_execTnode {x : TnodeA} {s : State} (h : Sound k s) :
    SoundOut k (execTnode x s) := by
  unfold execTnode
  refine sound_withIssue ?_ ?_
  · exact h
  · intro x1 h1
    split
    · exact sound_done h1
    · exact sound_afterCow h1 (fun s1 h2 => sound_treeRun (sound_treeTnode h2))

theorem sound_execTset {x : TsetA} {s : State} (h : Sound k s) :
    SoundOut k (execTset x s) := by
  unfold execTset
  refine sound_withIssue ?_ ?_
  · exact h
  · intro x1 h1
    split
    · exact sound_done h1
    · exact sound_afterCow h1 (fun s1 h2 => sound_treeRun (sound_treeTset h2))

theorem sound_execRswap {x : FourDABT} {s : State} (h : Sound k s) :
    SoundOut k (execRswap x s) := by
  unfold execRswap
  refine sound_withIssue ?_ ?_
  · exact h
  · intro x1 h1
    split
    · exact sound_done h1
    · refine sound_afterCow ?_ ?_
      · exact h1
      · intro s1 h2
        refine sound_treeGive ?_ ?_
        · exact h1
        · refine ExceptAll.map (fun y : State × Nat => Sound k y.1) ?_ ?_
          · exact sound_treeRswap h2
          · intro x2 h3
            split
            · exact h3
            · exact sound_settleMoves h3

theorem sound_execRcopy {x : ThreeDAB} {s : State} (h : Sound k s) :
    SoundOut k (execRcopy x s) := by
  unfold execRcopy
  refine sound_withIssue ?_ ?_
  · exact h
  · intro x1 h1
    split
    · exact sound_done h1
    · exact sound_afterCow h1 (fun s1 h2 => sound_treeGive h1 (sound_treeRcopy h2))

theorem sound_execRdrop {x : OneA} {s : State} (h : Sound k s) :
    SoundOut k (execRdrop x s) := by
  unfold execRdrop
  refine sound_withIssue ?_ ?_
  · exact h
  · intro x1 h1
    split
    · exact sound_done h1
    · exact sound_treeRun (sound_treeRdrop h1)

theorem sound_execRdropNode {x : OneA} {s : State} (h : Sound k s) :
    SoundOut k (execRdropNode x s) := by
  unfold execRdropNode
  refine sound_withIssue ?_ ?_
  · exact h
  · intro x1 h1
    split
    · exact sound_done h1
    · exact sound_treeRun (sound_treeRdropNode h1)

theorem sound_execTinv {x : OneA} {s : State} (h : Sound k s) :
    SoundOut k (execTinv x s) := by
  unfold execTinv
  refine sound_withIssue ?_ ?_
  · exact h
  · intro x1 h1
    split
    · exact sound_done h1
    · exact sound_treeRun (sound_treeTinv h1)

theorem sound_execReclaimRelease {ld : Nat} {s : State} (h : Sound k s) :
    SoundOut k (execReclaimRelease ld s) := by
  unfold execReclaimRelease
  refine sound_agent ?_ ?_
  · exact h
  · intro s1 h1
    split
    · exact h1
    · exact sound_reclaimStep h1

theorem sound_execRqcons {ld : Nat} {v : BitVec 64} {s : State} (h : Sound k s) :
    SoundOut k (execRqcons ld v s) := by
  unfold execRqcons
  refine sound_agent ?_ ?_
  · exact h
  · intro s1 h1
    split
    · exact sound_privWrite h1
    · exact h1

theorem sound_atPort {s : State} {x1 : Nat} {w : BitVec 64} {f : State → State} (ha : Sound k s) (hb : ∀ y0, Sound k y0 → Sound k (f y0)) :
    SoundOut k (atPort s x1 w f) := by
  unfold atPort
  refine sound_agent ?_ ?_
  · exact ha
  · intro s1 h
    split
    · exact hb _ (sound_forceCow h)
    · exact h

theorem sound_execTreeportTnode {hart : Nat} {w : BitVec 64} {s : State} (h : Sound k s) :
    SoundOut k (execTreeportTnode hart w s) := by
  unfold execTreeportTnode
  exact sound_atPort h (fun s1 h1 => sound_portTnode h1)

theorem sound_execTreeportTset {hart : Nat} {w : BitVec 64} {s : State} (h : Sound k s) :
    SoundOut k (execTreeportTset hart w s) := by
  unfold execTreeportTset
  exact sound_atPort h (fun s1 h1 => sound_portTset h1)

theorem sound_execTreeportRswap {hart : Nat} {w : BitVec 64} {s : State} (h : Sound k s) :
    SoundOut k (execTreeportRswap hart w s) := by
  unfold execTreeportRswap
  exact sound_atPort h (fun s1 h1 => sound_portRswap h1)

theorem sound_execTreeportRcopy {hart : Nat} {w : BitVec 64} {s : State} (h : Sound k s) :
    SoundOut k (execTreeportRcopy hart w s) := by
  unfold execTreeportRcopy
  exact sound_atPort h (fun s1 h1 => sound_portRcopy h1)

theorem sound_execTreeportRdrop {hart : Nat} {w : BitVec 64} {s : State} (h : Sound k s) :
    SoundOut k (execTreeportRdrop hart w s) := by
  unfold execTreeportRdrop
  exact sound_atPort h (fun s1 h1 => sound_portRdrop h1)

theorem sound_execTreeportTinv {hart : Nat} {w : BitVec 64} {s : State} (h : Sound k s) :
    SoundOut k (execTreeportTinv hart w s) := by
  unfold execTreeportTinv
  exact sound_atPort h (fun s1 h1 => sound_portTinv h1)

theorem sound_execLdreset {x : OneA} {s : State} (h : Sound k s) :
    SoundOut k (execLdreset x s) := by
  unfold execLdreset
  refine sound_withIssue ?_ ?_
  · exact h
  · intro x1 h1
    refine sound_mgmtOp ?_ ?_
    · exact h1
    · dsimp only
      split
      · exact True.intro
      · split
        · exact h1
        · exact sound_ldStop h1

theorem sound_execLdresetComplete {ld : Nat} {s : State} (h : Sound k s) :
    SoundOut k (execLdresetComplete ld s) := by
  unfold execLdresetComplete
  refine sound_agent ?_ ?_
  · exact h
  · intro s1 h1
    split
    · exact sound_ldFinish h1
    · exact h1

theorem sound_execClearPendingLine {line : Nat} {s : State} (h : Sound k s) :
    SoundOut k (execClearPendingLine line s) := by
  unfold execClearPendingLine
  refine sound_agent ?_ ?_
  · exact h
  · intro s1 h1
    split
    · dsimp only
      split
      · exact sound_logEvent (sound_openLine (sound_colCmd h1))
      · exact sound_openLine (sound_colCmd h1)
    · exact h1

theorem sound_diagBlock {c : Ctx} {o : Opnd} {size : Nat} {kk : Nat → Res} (ha : Sound k c.s) (hb : ∀ y0, SoundRes k (kk y0)) :
    SoundRes k (diagBlock c o size kk) := by
  unfold diagBlock
  dsimp only
  split
  · exact trivial
  · split
    · exact trivial
    · exact hb _

theorem sound_diagRead {c : Ctx} {off size : Nat} {kk : State → Nat → Res} (ha : Sound k c.s) (hb : ∀ y0 y1,
    Sound k y0 → SoundRes k (kk y0 y1)) :
    SoundRes k (diagRead c off size kk) := by
  unfold diagRead
  exact sound_withTouch ha (fun s h => hb _ _ h)

theorem sound_execDiagstHbm {x : TwoAB} {s : State} (h : Sound k s) :
    SoundOut k (execDiagstHbm x s) := by
  unfold execDiagstHbm
  refine sound_withIssue ?_ ?_
  · exact h
  · intro x1 h1
    refine sound_mgmtOp ?_ ?_
    · exact h1
    · refine sound_diagBlock ?_ ?_
      · exact h1
      · intro x2
        dsimp only
        split
        · exact True.intro
        · exact sound_diagRead h1 (fun s1 x3 h2 => sound_done (keep (sound_endTags (sound_pokeBytes (sound_openLine (sound_colCmd
              (sound_dieDrop (sound_cacheSector h2))))))))

theorem sound_dieBack {s : State} {pa : Nat} (h : Sound k s) :
    Sound k (dieBack s pa) := by
  unfold dieBack
  split
  · exact h
  · split
    · exact h
    · exact keep (sound_dieDrop h)

theorem sound_execDiagldHbm {x : TwoAB} {s : State} (h : Sound k s) :
    SoundOut k (execDiagldHbm x s) := by
  unfold execDiagldHbm
  refine sound_withIssue ?_ ?_
  · exact h
  · intro x1 h1
    refine sound_mgmtOp ?_ ?_
    · exact h1
    · refine sound_diagBlock ?_ ?_
      · exact h1
      · intro x2
        dsimp only
        split
        · exact True.intro
        · exact sound_done (sound_bufPut (sound_colCmd (sound_dieBack h1)))

theorem sound_execDiagstSram {x : TwoAB} {s : State} (h : Sound k s) :
    SoundOut k (execDiagstSram x s) := by
  unfold execDiagstSram
  refine sound_withIssue ?_ ?_
  · exact h
  · intro x1 h1
    refine sound_mgmtOp ?_ ?_
    · exact h1
    · refine sound_diagBlock ?_ ?_
      · exact h1
      · intro x2
        split
        · exact True.intro
        · exact sound_diagRead h1 (fun s1 x3 h2 => sound_done (keep (sound_sramPoke (sound_sramDrop h2))))

theorem sound_execDiagldSram {x : TwoAB} {s : State} (h : Sound k s) :
    SoundOut k (execDiagldSram x s) := by
  unfold execDiagldSram
  refine sound_withIssue ?_ ?_
  · exact h
  · intro x1 h1
    refine sound_mgmtOp ?_ ?_
    · exact h1
    · refine sound_diagBlock ?_ ?_
      · exact h1
      · intro x2
        split
        · exact True.intro
        · refine sound_done (sound_bufPut ?_)
          split
          · exact keep (sound_sramDrop (sound_tick h1))
          · exact sound_tick h1

theorem sound_execSwrite {x : SwriteA} {s : State} (h : Sound k s) :
    SoundOut k (execSwrite x s) := by
  unfold execSwrite
  refine sound_withIssue ?_ ?_
  · exact h
  · intro x1 h1
    split
    · exact sound_done h1
    · dsimp only
      split
      · exact True.intro
      · split
        · exact True.intro
        · split
          · exact True.intro
          · split
            · exact True.intro
            · exact sound_done (sound_privWrite h1)

theorem sound_execPrivrd {x : PrivrdA} {s : State} (h : Sound k s) :
    SoundOut k (execPrivrd x s) := by
  unfold execPrivrd
  refine sound_withIssue ?_ ?_
  · exact h
  · intro x1 h1
    split
    · exact sound_done h1
    · dsimp only
      split
      · exact True.intro
      · exact sound_resFree h1

theorem sound_execRegisterWrite {pa : Nat} {v : BitVec 64} {s : State} (h : Sound k s) :
    SoundOut k (execRegisterWrite pa v s) := by
  unfold execRegisterWrite
  refine sound_agent ?_ ?_
  · exact h
  · intro s1 h1
    split
    · dsimp only
      split
      · exact h1
      · split
        · exact h1
        · exact sound_privWrite h1
    · exact sound_devWrite (sound_beforePort h1)

end Sys2Proof.Machine
end

section
/-! PROOFS. What Machine/Preempt does keeps memory canonical and the devices whole. -/

namespace Sys2Proof.Machine
variable {k : Keep}

theorem sound_modGangGroups {s : State} {kk : GangRef} {f : Group → Group} (h : Sound k s) :
    Sound k (modGangGroups s kk f) := by
  unfold modGangGroups
  exact foldl_holds (Sound k) h (fun s1 x h1 => sound_modTeam h1)

theorem sound_catchUp {s : State} {kk : GangRef} (h : Sound k s) :
    Sound k (catchUp s kk) := by
  unfold catchUp
  refine foldl_holds (Sound k) ?_ ?_
  · exact h
  · intro s1 x h1
    split
    · exact sound_sysDeliver h1
    · exact sound_settle h1

theorem sound_saveWords {s : State} {kk : GangRef} (h : Sound k s) :
    Sound k (saveWords s kk).2 := by
  unfold saveWords
  refine foldl_holds (fun y : Bool × State => Sound k y.2) ?_ ?_
  · exact h
  · intro x x1 h1
    split
    · exact h1
    · split
      · exact h1
      · split
        · exact sound_sramDrop h1
        · split
          · exact sound_sramDrop h1
          · rename_i e
            exact via (OptionAll (Sound k)) e (sound_sramRead h1 (fun s1 x2 h2 => sound_sramPoke h2))

theorem sound_poolWrite {s : State} {r : GangRef} (h : Sound k s) : Sound k (poolWrite s r) := by
  cases k with
  | memory => exact sound_writeMem (k := .memory) h
  | devices => exact h

theorem sound_leaveCores {s : State} {kk : GangRef} {dest : Where} (h : Sound k s) :
    Sound k (leaveCores s kk dest) := by
  unfold leaveCores
  refine sound_modGang ?_
  split
  · exact sound_dropStale (foldl_holds (Sound k) (sound_modGangGroups (sound_saveWords (keep h))) (fun s1 x h1 => sound_leaveTeam h1))
  · exact sound_poolWrite (foldl_holds (Sound k) (sound_modGangGroups (sound_saveWords (keep h))) (fun s1 x h1 => sound_leaveTeam h1))

theorem sound_regainTeam {s : State} {t : Team} (h : Sound k s) :
    Sound k (regainTeam s t) := by
  unfold regainTeam
  exact sound_zeroBuf (sound_zeroBuf (sound_zeroBuf (foldl_holds (Sound k) h (fun s1 x h1 => sound_zeroWords h1))))

theorem sound_resumeGang {s : State} {kk : GangRef} (h : Sound k s) :
    Sound k (resumeGang s kk) := by
  unfold resumeGang
  split
  · dsimp only
    split
    · exact sound_killGang (sound_modGang (foldl_holds (Sound k) (sound_addStale h) (fun s1 x h1 => sound_modTeam (sound_regainTeam h1))))
    · exact sound_catchUp (sound_modGang (foldl_holds (Sound k) (sound_addStale h) (fun s1 x h1 => sound_modTeam (sound_regainTeam h1))))
  · dsimp only
    split
    · exact sound_killGang (sound_modGang (foldl_holds (Sound k) h (fun s1 x h1 => sound_modTeam (sound_regainTeam h1))))
    · exact sound_catchUp (sound_modGang (foldl_holds (Sound k) h (fun s1 x h1 => sound_modTeam (sound_regainTeam h1))))

theorem sound_replaceTeam {s : State} {gr : Grid} {r : TeamRef} {core : Nat} (h : Sound k s) :
    Sound k (replaceTeam s gr r core) := by
  unfold replaceTeam
  exact sound_modTeam (sound_allocate h)

theorem sound_comeBack {s : State} {gr : Grid} {kk : GangRef} {cores : List Nat} (h : Sound k s) :
    Sound k (comeBack s gr kk cores) := by
  unfold comeBack
  exact sound_resumeGang (keep (foldl_holds (Sound k) h (fun s1 x h1 => sound_replaceTeam h1)))

theorem sound_tryLeave {s : State} {kk : GangRef} (h : Sound k s) :
    Sound k (tryLeave s kk) := by
  unfold tryLeave
  split
  · exact h
  · split
    · exact h
    · split
      · exact sound_leaveCores h
      · exact sound_catchUp (sound_modGang (sound_modGangGroups h))

theorem sound_beginPreempt {s : State} {kk : GangRef} (h : Sound k s) :
    Sound k (beginPreempt s kk) := by
  unfold beginPreempt
  exact sound_tryLeave (sound_modGang (sound_modGangGroups h))

theorem sound_execPreemptTrigger {ld : Nat} {s : State} (h : Sound k s) :
    SoundOut k (execPreemptTrigger ld s) := by
  unfold execPreemptTrigger
  refine sound_agent ?_ ?_
  · exact h
  · intro s1 h1
    dsimp only
    split
    · split
      · exact sound_noteUnfit h1
      · split
        · exact sound_noteUnfit h1
        · split
          · exact sound_beginPreempt (keep (sound_noteUnfit h1))
          · exact keep (sound_noteUnfit h1)
    · exact sound_noteUnfit h1

theorem sound_execPreemptSafeSave {r : GroupRef} {s : State} (h : Sound k s) :
    SoundOut k (execPreemptSafeSave r s) := by
  unfold execPreemptSafeSave
  refine sound_agent ?_ ?_
  · exact h
  · intro s1 h1
    split
    · split
      · exact h1
      · split
        · exact h1
        · exact sound_tryLeave (sound_modGroup (keep h1))
    · exact h1

theorem sound_execPrewinExpire {kk : GangRef} {s : State} (h : Sound k s) :
    SoundOut k (execPrewinExpire kk s) := by
  unfold execPrewinExpire
  refine sound_agent ?_ ?_
  · exact h
  · intro s1 h1
    split
    · exact h1
    · exact sound_tryLeave (sound_modGangGroups (keep h1))

theorem sound_execPreemptRetry {kk : GangRef} {s : State} (h : Sound k s) :
    SoundOut k (execPreemptRetry kk s) := by
  unfold execPreemptRetry
  refine sound_agent ?_ ?_
  · exact h
  · intro s1 h1
    split
    · exact h1
    · split
      · exact h1
      · exact sound_beginPreempt (keep h1)

theorem sound_execPreemptReturn {kk : GangRef} {s : State} (h : Sound k s) :
    SoundOut k (execPreemptReturn kk s) := by
  unfold execPreemptReturn
  refine sound_agent ?_ ?_
  · exact h
  · intro s1 h1
    split
    · exact h1
    · exact sound_comeBack h1

theorem sound_execSyscallSwapOut {kk : GangRef} {s : State} (h : Sound k s) :
    SoundOut k (execSyscallSwapOut kk s) := by
  unfold execSyscallSwapOut
  refine sound_agent ?_ ?_
  · exact h
  · intro s1 h1
    split
    · exact h1
    · split
      · exact h1
      · split
        · dsimp only
          split <;> exact sound_leaveCores (sound_modGangGroups h1)
        · dsimp only
          split
          · exact sound_leaveCores (sound_modGangGroups h1)
          · exact h1

theorem sound_execSyscallGangReturn {kk : GangRef} {s : State} (h : Sound k s) :
    SoundOut k (execSyscallGangReturn kk s) := by
  unfold execSyscallGangReturn
  refine sound_agent ?_ ?_
  · exact h
  · intro s1 h1
    split
    · exact h1
    · exact sound_comeBack h1

theorem sound_moveCalls {s : State} {cl : List Nat} (h : Sound k s) :
    Sound k (moveCalls s cl) := by
  unfold moveCalls
  refine foldl_holds (Sound k) ?_ ?_
  · exact h
  · intro s1 x h1
    split
    · exact sound_modGang (sound_poolWrite h1)
    · exact h1

theorem sound_swapOut {s : State} {kk : QueueRef} {c ld : Nat} {cl : List Nat} (h : Sound k s) :
    Sound k (swapOut s kk c ld cl) := by
  unfold swapOut
  dsimp only
  split
  · exact sound_moveCalls (foldl_holds (Sound k) h (fun s1 x h1 => sound_beginPreempt h1))
  · split
    · exact sound_queueNext (keep (foldl_holds (Sound k) (foldl_holds (Sound k)
        (sound_moveCalls (foldl_holds (Sound k) h (fun s1 x h1 => sound_beginPreempt h1))) (fun s1 x h1 => sound_modGangGroups h1))
        (fun s1 x h1 => sound_leaveCores h1)))
    · exact sound_queueWait (foldl_holds (Sound k) (sound_moveCalls (foldl_holds (Sound k) h (fun s1 x h1 => sound_beginPreempt h1)))
        (fun s1 x h1 => sound_modGangGroups h1))

theorem sound_execPswapOut {kk : QueueRef} {s : State} (h : Sound k s) :
    SoundOut k (execPswapOut kk s) := by
  unfold execPswapOut
  refine sound_queueCommand ?_ ?_
  · exact h
  · intro s1 x x1 x2 h1
    split
    · exact sound_stopQueue h1
    · exact sound_swapOut (sound_queueWait h1)

theorem sound_execPswapIn {kk : QueueRef} {s : State} (h : Sound k s) :
    SoundOut k (execPswapIn kk s) := by
  unfold execPswapIn
  refine sound_queueCommand ?_ ?_
  · exact h
  · intro s1 x x1 x2 h1
    split
    · exact sound_stopQueue h1
    · dsimp only
      split
      · exact sound_queueWait h1
      · exact sound_queueNext (keep (foldl_holds (Sound k) h1 (fun s2 x3 h2 => sound_resumeGang h2)))

end Sys2Proof.Machine
end

section
/-! PROOFS. What Machine/Dispatch does keeps memory canonical and the devices whole. -/

namespace Sys2Proof.Machine
variable {k : Keep}

theorem sound_exec {i : Instr} {s : State} (h : Sound k s) :
    SoundOut k (exec i s) := by
  unfold exec
  split
  · exact sound_execPowerOn h
  · exact sound_execPowerDown h
  · exact sound_execCxlConventionalReset h
  · exact sound_execPkgrst h
  · exact sound_execPowerLimitExceeded h
  · exact sound_execThermalIssueLimit h
  · exact sound_execThermalHalt h
  · exact sound_execExpanderLinkDown h
  · exact sound_execExplink h
  · exact sound_execExpanderLinkTrained h
  · exact sound_execNetworkPortLinkChange h
  · exact sound_execDriveError h
  · exact sound_execIssue h
  · exact sound_execSwitchMarkerUnpark h
  · exact sound_execIssueDelayExpire h
  · exact sound_execIadd h
  · exact sound_execIsub h
  · exact sound_execImul h
  · exact sound_execImulh h
  · exact sound_execImad h
  · exact sound_execImin h
  · exact sound_execImax h
  · exact sound_execIabs h
  · exact sound_execIneg h
  · exact sound_execAnd h
  · exact sound_execOr h
  · exact sound_execXor h
  · exact sound_execAndn h
  · exact sound_execNot h
  · exact sound_execShl h
  · exact sound_execShr h
  · exact sound_execSar h
  · exact sound_execRol h
  · exact sound_execPopc h
  · exact sound_execClz h
  · exact sound_execBrev h
  · exact sound_execBfx h
  · exact sound_execBfi h
  · exact sound_execBsel h
  · exact sound_execIcmp h
  · exact sound_execLea h
  · exact sound_execIaddx h
  · exact sound_execFadd h
  · exact sound_execFsub h
  · exact sound_execFmul h
  · exact sound_execFfma h
  · exact sound_execFmin h
  · exact sound_execFmax h
  · exact sound_execFcmp h
  · exact sound_execFrcp h
  · exact sound_execFrsq h
  · exact sound_execFsqrt h
  · exact sound_execFex2 h
  · exact sound_execFlg2 h
  · exact sound_execFsin h
  · exact sound_execFcos h
  · exact sound_execFclass h
  · exact sound_execFscale h
  · exact sound_execCvt h
  · exact sound_execPadd2 h
  · exact sound_execPmul2 h
  · exact sound_execPfma2 h
  · exact sound_execLsemrg h
  · exact sound_execMov h
  · exact sound_execMovi h
  · exact sound_execSel h
  · exact sound_execPset h
  · exact sound_execPmovTov h
  · exact sound_execPmovFromv h
  · exact sound_execSread h
  · exact sound_execModset h
  · exact sound_execBndset h
  · exact sound_execBra h
  · exact sound_execBrx h
  · exact sound_execCall h
  · exact sound_execCallx h
  · exact sound_execRet h
  · exact sound_execExit h
  · exact sound_execRcv h
  · exact sound_execRcvComplete h
  · exact sound_execYield h
  · exact sound_execSleep h
  · exact sound_execPart h
  · exact sound_execVote h
  · exact sound_execShfl h
  · exact sound_execReduce h
  · exact sound_execScan h
  · exact sound_execBcast h
  · exact sound_execCollectiveConverge h
  · exact sound_execBara h
  · exact sound_execBarw h
  · exact sound_execBars h
  · exact sound_execTbar h
  · exact sound_execGbar h
  · exact sound_execLdw h
  · exact sound_execLda h
  · exact sound_execLdc h
  · exact sound_execSta h
  · exact sound_execStc h
  · exact sound_execAcc h
  · exact sound_execFeWaitSatisfied h
  · exact sound_execLdfrag h
  · exact sound_execStfrag h
  · exact sound_execFeset h
  · exact sound_execFeclr h
  · exact sound_execFeprobe h
  · exact sound_execLds h
  · exact sound_execSts h
  · exact sound_execStackSpill h
  · exact sound_execStackFill h
  · exact sound_execFld h
  · exact sound_execFst h
  · exact sound_execFatom h
  · exact sound_execFcas h
  · exact sound_execFence h
  · exact sound_execFarAccessPerformed h
  · exact sound_execFarTimeout h
  · exact sound_execHostRefusal h
  · exact sound_execMma h
  · exact sound_execMmam h
  · exact sound_execScacc h
  · exact sound_execCbld h
  · exact sound_execMdrain h
  · exact sound_execMdrainRaw h
  · exact sound_execMfill h
  · exact sound_execMfillRaw h
  · exact sound_execCreq h
  · exact sound_execKick h
  · exact sound_execKickRoom h
  · exact sound_execCseal h
  · exact sound_execCsealRoom h
  · exact sound_execCwait h
  · exact sound_execCwaitReturn h
  · exact sound_execCopyLinear h
  · exact sound_execCopyTiled h
  · exact sound_execCopyGather h
  · exact sound_execCopyScatter h
  · exact sound_execCopyImage h
  · exact sound_execStread h
  · exact sound_execStwrite h
  · exact sound_execStflush h
  · exact sound_execCopyRequestDone h
  · exact sound_execArrivalDecrement h
  · exact sound_execSbind h
  · exact sound_execSgo h
  · exact sound_execSrel h
  · exact sound_execAwaitObj h
  · exact sound_execAwaitSlot h
  · exact sound_execAwaitReturn h
  · exact sound_execAstatObj h
  · exact sound_execAstatSlot h
  · exact sound_execStile h
  · exact sound_execStileFillDone h
  · exact sound_execSgather h
  · exact sound_execSloop h
  · exact sound_execSnext h
  · exact sound_execScond h
  · exact sound_execSjmp h
  · exact sound_execSwaitr h
  · exact sound_execSwaitrReleased h
  · exact sound_execSwaitp h
  · exact sound_execSwaitpLatched h
  · exact sound_execSsig h
  · exact sound_execShalt h
  · exact sound_execSnop h
  · exact sound_execStreamBadWord h
  · exact sound_execStreamAutoEnd h
  · exact sound_execNbreq h
  · exact sound_execNbCopy h
  · exact sound_execNbRelayout h
  · exact sound_execNbReduce h
  · exact sound_execNbScale h
  · exact sound_execAttq h
  · exact sound_execAttentionCommand h
  · exact sound_execKvget h
  · exact sound_execKvput h
  · exact sound_execKvlnkSucc h
  · exact sound_execKvlnkTok h
  · exact sound_execLspawn h
  · exact sound_execLspawnClose h
  · exact sound_execLspawnRoom h
  · exact sound_execLesc h
  · exact sound_execLescRoom h
  · exact sound_execLdone h
  · exact sound_execLstat h
  · exact sound_execBinLaunch h
  · exact sound_execBinStarveExpire h
  · exact sound_execCommitRun h
  · exact sound_execLadderPatch h
  · exact sound_execSyscall h
  · exact sound_execSyscallPost h
  · exact sound_execSyscallSwapOut h
  · exact sound_execSyscallGangReturn h
  · exact sound_execReplytok h
  · exact sound_execTrap h
  · exact sound_execBkpt h
  · exact sound_execFeatq h
  · exact sound_execRefresh h
  · exact sound_execNop h
  · exact sound_execEret h
  · exact sound_execEretSkip h
  · exact sound_execHandlerWatchdog h
  · exact sound_execTnode h
  · exact sound_execTset h
  · exact sound_execRswap h
  · exact sound_execRcopy h
  · exact sound_execRdrop h
  · exact sound_execRdropNode h
  · exact sound_execTinv h
  · exact sound_execReclaimRelease h
  · exact sound_execRqcons h
  · exact sound_execTreeportTnode h
  · exact sound_execTreeportTset h
  · exact sound_execTreeportRswap h
  · exact sound_execTreeportRcopy h
  · exact sound_execTreeportRdrop h
  · exact sound_execTreeportTinv h
  · exact sound_execLdreset h
  · exact sound_execLdresetComplete h
  · exact sound_execClearPendingLine h
  · exact sound_execDiagstHbm h
  · exact sound_execDiagstSram h
  · exact sound_execDiagldHbm h
  · exact sound_execDiagldSram h
  · exact sound_execSwrite h
  · exact sound_execPrivrd h
  · exact sound_execRegisterWrite h
  · exact sound_execQueueDescriptorWrite h
  · exact sound_execQueueDoorbell h
  · exact sound_execLaunch h
  · exact sound_execLoop h
  · exact sound_execEndloop h
  · exact sound_execCond h
  · exact sound_execJump h
  · exact sound_execWait h
  · exact sound_execWaitSatisfied h
  · exact sound_execWrite h
  · exact sound_execDrain h
  · exact sound_execDrainDone h
  · exact sound_execHalt h
  · exact sound_execPswapOut h
  · exact sound_execPswapIn h
  · exact sound_execMigrate h
  · exact sound_execMigrateResult h
  · exact sound_execInvalidCommand h
  · exact sound_execGridDependencesMet h
  · exact sound_execDispatchPlace h
  · exact sound_execTeamStart h
  · exact sound_execTeamExit h
  · exact sound_execWriteback h
  · exact sound_execGridComplete h
  · exact sound_execPreemptTrigger h
  · exact sound_execPreemptSafeSave h
  · exact sound_execPrewinExpire h
  · exact sound_execPreemptRetry h
  · exact sound_execPreemptReturn h
  · exact sound_execDeadlockTest h
  · exact sound_execGangRelaunch h
  · exact sound_execEndgrid h
  · exact sound_execHostHdmRead h
  · exact sound_execHostHdmWrite h
  · exact sound_execNetTailWrite h
  · exact sound_execNetWrite h
  · exact sound_execNetWriteNotify h
  · exact sound_execNetRead h
  · exact sound_execNetReceive h
  · exact sound_execNetCompletion h
  · exact sound_execNetRetransmitTimeout h
  · exact sound_execHotnessIntervalEnd h
  · exact sound_execPatrolScrub h
  · exact sound_execHotListScrub h
  · exact sound_execRowCloseTimeout h
  · exact sound_execDieCooled h
  · exact sound_execPowerDrawWithinLimit h
  · exact sound_execNimbusHartAccess h
  · exact sound_execDramRefresh h

end Sys2Proof.Machine
end

section
/-! PROOFS. A step keeps memory canonical and the devices whole (O58, O59). -/

namespace Sys2Proof.Machine
variable {k : Keep}

/-- One step of the package keeps both. -/
theorem sound_step {s : State} (h : Sound k s) : SoundOut k (step s) := by
  unfold step
  split
  · next u _ =>
    split
    · next e => exact via (SoundIssued k) e (sound_issueStep h)
    · next i s1 e =>
      have h1 : Sound k s1 := via (SoundIssued k) e (sound_issueStep h)
      exact sound_afterIssue (sound_exec (sound_closeFor h1))
  · split
    next i s1 e => exact sound_exec (via (fun y : Instr × State => Sound k y.2) e (sound_nextOf h))

end Sys2Proof.Machine

open Sys2Proof Sys2Proof.Machine

/-- Settles O58: every operation of the machine keeps memory canonical, and a step is composed of them. -/
theorem stepKeepsSafe : Obligations.StepKeepsSafe := by
  unfold Obligations.StepKeepsSafe
  intro s t hs e
  exact via (SoundOut .memory) e (sound_step hs)

/-- Settles O59: every operation of the machine keeps the sixteen devices whole, and a step is composed of them. -/
theorem stepKeepsDevices : Obligations.StepKeepsDevices := by
  unfold Obligations.StepKeepsDevices
  intro s t hs e ld hld
  have h : Sound .devices s := fun i hi => by
    obtain ⟨hl, -, hw⟩ := hs i hi
    exact ⟨hl, hw⟩
  obtain ⟨hl, hw⟩ := via (SoundOut .devices) e (sound_step h) ld hld
  exact ⟨hl, hld, hw⟩
end

section
/-! PROOFS. What a write to clean bytes of HBM leaves behind (spec/04_device_memory.md R96, R100, R101; R441): the bytes read back, every
other clean byte reads as before, and clean sectors stay clean (O57). -/

set_option Elab.async false

namespace Sys2Proof.Machine

/-- What a byte whose sector has computed check bytes reads as. -/
def look (s : State) (b : Nat) : Byte := if isPend s (b / 128) then 0 else stGet s.mem b

/-- A byte outside HBM, or of a sector with computed check bytes. -/
def CleanByte (s : State) (b : Nat) : Prop := isHbm b = true → (stGet s.ecc (b / 32)).getLsbD 32 = false

theorem cleanAt_iff {s : State} {pa n : Nat} : CleanAt s pa n ↔ ∀ i < n, CleanByte s (pa + i) := Iff.rfl

theorem CleanAt.sub {s : State} {pa n b m : Nat} (h : CleanAt s pa n) (h1 : pa ≤ b) (h2 : b + m ≤ pa + n) : CleanAt s b m := fun i hi => by
  have := h (b - pa + i) (by omega)
  rwa [show pa + (b - pa + i) = b + i by omega] at this

theorem peekBytes_clean {s : State} {pa n : Nat} (h : CleanAt s pa n) :
    peekBytes s pa n = (List.range n).map fun i => look s (pa + i) := by
  refine List.map_congr_left fun i hi => ?_
  have hc := h i (List.mem_range.1 hi)
  by_cases hb : isHbm (pa + i) = true
  · rw [look, if_pos hb, hc hb, if_neg Bool.false_ne_true]
  · rw [look, if_neg hb]

/-! Clear-pending lines. -/

theorem isPend_dropLine (rs : List (Nat × Nat)) (n m : Nat) :
    ((dropLine rs n).any fun r => r.1 ≤ m && m < r.2) = (m ≠ n && rs.any fun r => r.1 ≤ m && m < r.2) := by
  induction rs with
  | nil => simp [dropLine]
  | cons r rest ih =>
    rw [dropLine, List.flatMap_cons, List.any_append, ← dropLine, ih, List.any_cons]
    by_cases hr : r.1 ≤ n ∧ n < r.2
    · rw [if_pos hr]
      have h : ((if r.1 < n then [(r.1, n)] else []) ++ (if n + 1 < r.2 then [(n + 1, r.2)] else [])).any
          (fun r => decide (r.1 ≤ m) && decide (m < r.2)) = (decide (m ≠ n) && (decide (r.1 ≤ m) && decide (m < r.2))) := by
        rw [Bool.eq_iff_iff]
        split <;> split <;> simp <;> omega
      rw [h, Bool.and_or_distrib_left]
    · rw [if_neg hr]
      have h : ([r].any fun r => decide (r.1 ≤ m) && decide (m < r.2)) = (decide (m ≠ n) && (decide (r.1 ≤ m) && decide (m < r.2))) := by
        rw [Bool.eq_iff_iff]
        simp
        omega
      rw [h, Bool.and_or_distrib_left]

theorem isPend_openLine (s : State) (n m : Nat) : isPend (openLine s n) m = (m ≠ n && isPend s m) := by
  unfold openLine
  split
  · exact isPend_dropLine s.clearPend n m
  · next h =>
    by_cases hm : m = n
    · subst hm; simpa using h
    · simp [hm]

theorem stGet_clear {w : Nat} (s : Store w) (lo hi a : Nat) : stGet (stClear s lo hi) a = if lo ≤ a ∧ a < hi then 0 else stGet s a := by
  induction s with
  | nil => simp [stClear, stGet]
  | cons x r ih =>
    obtain ⟨k, v⟩ := x
    have hc : stClear ((k, v) :: r) lo hi = if k < lo ∨ hi ≤ k then (k, v) :: stClear r lo hi else stClear r lo hi := by
      simp [stClear, List.filter_cons]
    rw [hc]
    by_cases hk : k < lo ∨ hi ≤ k
    · rw [if_pos hk]
      simp only [stGet]
      rw [ih]
      by_cases hak : a = k
      · subst hak; rw [if_pos rfl, if_pos rfl, if_neg (by omega)]
      · rw [if_neg hak, if_neg hak]
    · rw [if_neg hk, ih]
      simp only [stGet]
      by_cases hak : a = k
      · subst hak; rw [if_pos (by omega), if_pos (by omega)]
      · rw [if_neg hak]

/-! One step of a write. -/

@[simp] theorem look_openLine (s : State) (n b : Nat) : look (openLine s n) b = look s b := by
  rw [look, isPend_openLine, look]
  by_cases hn : b / 128 = n
  · subst hn
    by_cases hp : isPend s (b / 128) = true
    · rw [openLine, if_pos hp]
      simp only [stGet_clear, hp]
      rw [if_pos (show 128 * (b / 128) ≤ b ∧ b < 128 * (b / 128) + 128 by omega)]
      simp
    · rw [openLine, if_neg hp]
      simp [hp]
  · have hm : stGet (openLine s n).mem b = stGet s.mem b := by
      unfold openLine
      split
      · simp only [stGet_clear]
        rw [if_neg (by omega)]
      · rfl
    simp [hn, hm]

theorem clean_openLine {s : State} {b : Nat} (n : Nat) (h : CleanByte s b) : CleanByte (openLine s n) b := fun hb => by
  unfold openLine
  split
  · simp only [stGet_clear]
    split
    · simp
    · exact h hb
  · exact h hb

@[simp] theorem openLine_sram (s : State) (n : Nat) : (openLine s n).sram = s.sram := by unfold openLine; split <;> rfl

theorem stGet_poke (m : Store 8) (pa n : Nat) (f : Nat → Byte) (b : Nat) :
    stGet (stSetAll m ((List.range n).map fun i => (pa + i, f i))) b = if pa ≤ b ∧ b < pa + n then f (b - pa) else stGet m b := by
  induction n with
  | zero => rw [if_neg (by omega)]; rfl
  | succ n ih =>
    have hs : stSetAll m ((List.range (n + 1)).map fun i => (pa + i, f i)) =
        stSet (stSetAll m ((List.range n).map fun i => (pa + i, f i))) (pa + n) (f n) := by
      simp [stSetAll, List.range_succ]
    rw [hs, stGet_set, ih]
    by_cases hb : b = pa + n
    · subst hb; rw [if_pos rfl, if_pos (by omega)]; congr 1; omega
    · rw [if_neg hb]
      by_cases h : pa ≤ b ∧ b < pa + n
      · rw [if_pos h, if_pos (by omega)]
      · rw [if_neg h, if_neg (by omega)]

theorem pokeBytes_mem (s : State) (pa : Nat) (bs : List Byte) (b : Nat) :
    stGet (pokeBytes s pa bs).mem b = if pa ≤ b ∧ b < pa + bs.length then bs.getD (b - pa) 0 else stGet s.mem b :=
  stGet_poke s.mem pa bs.length _ b

/-! A write. -/

/-- A machine in which bytes have been written: they read back, every other byte reads as before, and clean sectors are clean. -/
structure Wrote (s t : State) (pa : Nat) (bs : List Byte) : Prop where
  sram : t.sram = []
  look : ∀ b, look t b = if pa ≤ b ∧ b < pa + bs.length then bs.getD (b - pa) 0 else look s b
  clean : ∀ b, CleanByte s b → CleanByte t b

theorem Wrote.nil {s : State} {pa : Nat} (h : s.sram = []) : Wrote s s pa [] :=
  ⟨h, fun b => by rw [if_neg (by simp)], fun _ h => h⟩

theorem Wrote.append {s t u : State} {pa : Nat} {xs ys : List Byte} (h1 : Wrote s t pa xs) (h2 : Wrote t u (pa + xs.length) ys) :
    Wrote s u pa (xs ++ ys) := by
  refine ⟨h2.sram, fun b => ?_, fun b h => h2.clean b (h1.clean b h)⟩
  rw [h2.look, h1.look, List.length_append]
  by_cases hx : pa ≤ b ∧ b < pa + xs.length
  · rw [if_neg (by omega), if_pos hx, if_pos (by omega)]
    simp [List.getElem?_append_left (show b - pa < xs.length by omega)]
  · by_cases hy : pa + xs.length ≤ b ∧ b < pa + xs.length + ys.length
    · rw [if_pos hy, if_pos (by omega)]
      simp [List.getElem?_append_right (show xs.length ≤ b - pa by omega), show b - pa - xs.length = b - (pa + xs.length) by omega]
    · rw [if_neg hy, if_neg hx, if_neg (by omega)]

/-- Bytes stored within a line that has been opened. -/
theorem wrote_poke {s t : State} {pa : Nat} {bs : List Byte} (hs : s.sram = []) (hl : pa / 128 = (pa + bs.length - 1) / 128)
    (hm : t.mem = (pokeBytes (openLine s (pa / 128)) pa bs).mem) (hc : t.clearPend = (openLine s (pa / 128)).clearPend)
    (hr : t.sram = s.sram) (he : ∀ b, CleanByte s b → CleanByte t b) : Wrote s t pa bs := by
  refine ⟨hr.trans hs, fun b => ?_, he⟩
  have hp (n : Nat) : isPend t n = isPend (openLine s (pa / 128)) n := by unfold isPend; rw [hc]
  by_cases hb : pa ≤ b ∧ b < pa + bs.length
  · have hbl : b / 128 = pa / 128 := by omega
    rw [if_pos hb, look, hp, isPend_openLine, hm, pokeBytes_mem, if_pos hb]
    simp [hbl]
  · rw [if_neg hb, ← look_openLine s (pa / 128) b, look, look, hp, hm, pokeBytes_mem, if_neg hb]

/-- A write within a clean sector of HBM. -/
theorem wrote_writeIn {s : State} {pa : Nat} {bs : List Byte} (hs : s.sram = []) (hb : isHbm pa = true) (hc : CleanByte s pa)
    (h0 : 0 < bs.length) (hl : pa % 32 + bs.length ≤ 32) : Wrote s (writeIn s pa bs) pa bs := by
  have ho : (openLine s (pa / 128)).sram = [] := by rw [openLine_sram, hs]
  have he := clean_openLine (pa / 128) hc hb
  have hline : pa / 128 = (pa + bs.length - 1) / 128 := by omega
  by_cases h32 : bs.length = 32
  · have hw : writeIn s pa bs = freshSec (openLine s (pa / 128)) (pa / 32) bs := by
      simp only [writeIn, if_pos hb, if_pos h32, dieMerge, ho, List.isEmpty_nil, if_true]
    have hpa : 32 * (pa / 32) = pa := by omega
    rw [hw]
    refine wrote_poke hs hline (by rw [freshSec, hpa]) rfl (openLine_sram s _) fun b h => fun hbb => ?_
    have hk := clean_openLine (pa / 128) h hbb
    simp only [freshSec, pokeBytes, stGet_set]
    split
    · simp
    · exact hk
  · have hw : writeIn s pa bs = pokeBytes (openLine s (pa / 128)) pa bs := by
      simp only [writeIn, if_pos hb, if_neg h32, he, ho, List.isEmpty_nil, Bool.not_false, Bool.and_self, if_true]
    rw [hw]
    exact wrote_poke hs hline rfl rfl (openLine_sram s _) fun b h => clean_openLine (pa / 128) h

/-- A write in pieces of sectors. -/
theorem wrote_pieces (fuel : Nat) (s : State) (pa : Nat) (bs : List Byte) (hs : s.sram = [])
    (hb : ∀ i < bs.length, isHbm (pa + i) = true) (hc : CleanAt s pa bs.length) (hf : bs.length = 0 ∨ pa % 32 + bs.length ≤ 32 * fuel) :
    Wrote s ((pieces fuel pa bs.length).foldl (fun (acc : State × List Byte) p =>
      (writeIn acc.1 p.1 (acc.2.take p.2), acc.2.drop p.2)) (s, bs)).1 pa bs := by
  induction fuel generalizing s pa bs with
  | zero =>
    obtain rfl : bs = [] := List.eq_nil_of_length_eq_zero (by omega)
    exact Wrote.nil hs
  | succ fuel ih =>
    unfold pieces piecesBy
    by_cases h0 : bs.length = 0
    · obtain rfl : bs = [] := List.eq_nil_of_length_eq_zero h0
      exact Wrote.nil hs
    · rw [if_neg h0]
      have hm : (bs.take (min bs.length (32 - pa % 32))).length = min bs.length (32 - pa % 32) := by simp
      have hw : Wrote s (writeIn s pa (bs.take (min bs.length (32 - pa % 32)))) pa (bs.take (min bs.length (32 - pa % 32))) :=
        wrote_writeIn hs (by simpa using hb 0 (by omega)) (by simpa [CleanByte] using hc 0 (by omega)) (by omega) (by omega)
      have hd : (bs.drop (min bs.length (32 - pa % 32))).length = bs.length - min bs.length (32 - pa % 32) := by simp
      have hrest := ih (writeIn s pa (bs.take (min bs.length (32 - pa % 32)))) (pa + min bs.length (32 - pa % 32))
        (bs.drop (min bs.length (32 - pa % 32))) hw.sram
        (fun i hi => by rw [Nat.add_assoc]; exact hb _ (by omega))
        (fun i hi => hw.clean _ (by rw [Nat.add_assoc]; exact hc _ (by omega))) (by rw [hd]; omega)
      rw [hd] at hrest
      have := hw.append (by rwa [hm])
      rwa [List.take_append_drop] at this

/-- The line requests of a write leave what is stored alone. -/
theorem dieAccess_stored {s : State} (line need put : Nat) (hs : s.sram = []) : (dieAccess s line need put).mem = s.mem ∧
    (dieAccess s line need put).ecc = s.ecc ∧ (dieAccess s line need put).clearPend = s.clearPend ∧ (dieAccess s line need put).sram = [] := by
  simp [dieAccess, colCmd, hs]

theorem writeLines_stored {s : State} (pa n : Nat) (hs : s.sram = []) : (writeLines s pa n).mem = s.mem ∧
    (writeLines s pa n).ecc = s.ecc ∧ (writeLines s pa n).clearPend = s.clearPend ∧ (writeLines s pa n).sram = [] := by
  unfold writeLines
  generalize piecesBy 128 (n / 128 + 2) pa n = ps
  induction ps generalizing s with
  | nil => exact ⟨rfl, rfl, rfl, hs⟩
  | cons p r ih =>
    rw [List.foldl_cons]
    split
    · obtain ⟨h1, h2, h3, h4⟩ := dieAccess_stored (s := s) (p.1 / 128)
        (if isPend s (p.1 / 128) then 0 else maskLess (sectorMask p.1 p.2) (wholeMask p.1 p.2)) (sectorMask p.1 p.2) hs
      rw [← h1, ← h2, ← h3]
      exact ih h4
    · exact ih hs

/-- A write to clean bytes of HBM. -/
theorem wrote_writeMem {s : State} {pa : Nat} {bs : List Byte} (hs : s.sram = []) (hb : ∀ i < bs.length, isHbm (pa + i) = true)
    (hc : CleanAt s pa bs.length) : Wrote s (writeMem s pa bs) pa bs := by
  obtain ⟨hm, he, hp, hr⟩ := writeLines_stored pa bs.length hs
  have hcl (b : Nat) : CleanByte (writeLines s pa bs.length) b ↔ CleanByte s b := by unfold CleanByte; rw [he]
  have hlk (b : Nat) : look (writeLines s pa bs.length) b = look s b := by unfold look isPend; rw [hm, hp]
  have h := wrote_pieces (bs.length / 32 + 2) (writeLines s pa bs.length) pa bs hr hb (fun i hi => (hcl _).2 (hc i hi)) (.inr (by omega))
  exact ⟨h.sram, fun b => by rw [writeMem, h.look, hlk], fun b hb => h.clean b ((hcl b).2 hb)⟩

/-- Bytes that have been written read back. -/
theorem Wrote.peek_same {s t : State} {pa : Nat} {bs : List Byte} (h : Wrote s t pa bs) (hc : CleanAt s pa bs.length) :
    peekBytes t pa bs.length = bs := by
  rw [peekBytes_clean fun i hi => h.clean _ (hc i hi)]
  refine List.ext_getElem (by simp) fun i h1 h2 => ?_
  simp [h.look, h2]

/-- Every other clean byte reads as before. -/
theorem Wrote.peek_other {s t : State} {pa b n : Nat} {bs : List Byte} (h : Wrote s t pa bs) (hc : CleanAt s b n)
    (hd : b + n ≤ pa ∨ pa + bs.length ≤ b) : peekBytes t b n = peekBytes s b n := by
  rw [peekBytes_clean fun i hi => h.clean _ (hc i hi), peekBytes_clean hc]
  refine List.map_congr_left fun i hi => ?_
  have hi := List.mem_range.1 hi
  rw [h.look, if_neg (by omega)]

end Sys2Proof.Machine

open Sys2Proof Sys2Proof.Machine

/-- Settles O57: each operation keeps the form (Laws/Mem); a write goes sector by sector, and each piece stores its bytes in an opened line. -/
theorem memoryCanonical : Obligations.MemoryCanonical := by
  unfold Obligations.MemoryCanonical
  refine ⟨fun s pa bs h => ⟨writeMem_safe s pa bs h, hwWrite_safe s pa bs h, pokeBytes_safe s pa bs h⟩,
    fun s n h => ⟨openLine_safe s n h, poisonSec_safe s n h⟩, fun s pa bs hs hb hc => ?_⟩
  have hcl (b n : Nat) : CleanAt s b n := fun i _ hi => hc (b + i) 0 Nat.one_pos hi
  have hw := wrote_writeMem hs hb (hcl pa bs.length)
  exact ⟨hw.peek_same (hcl _ _), fun b hbd => hw.peek_other (hcl b 1) (by omega)⟩
end

section
/-! PROOFS. The package after power-on reset (O51), and words written out from the encodings (O56). -/

set_option Elab.async false

namespace Sys2Proof.Machine

/-- Each logical device is reset. -/
theorem ldOf_reset (i : Nat) : ldOf State.reset i = resetLd i := by
  by_cases hi : i < 16
  · simp only [ldOf, State.reset, List.getD_eq_getElem?_getD, List.getElem?_map, List.getElem?_range hi, Option.map_some, Option.getD_some]
  · rw [ldOf, List.getD_eq_default]
    simpa [State.reset] using hi

theorem queueOf_reset {ld q : Nat} (h : q < 9) : queueOf State.reset ld q = resetQueue := by
  rw [queueOf, ldOf_reset]
  exact List.getD_replicate _ h

theorem hasDev_reset {ld : Nat} (h : ld < 16) : HasDev State.reset ld := by
  obtain ⟨hl, hs, hr, hq⟩ := sound_State_reset (k := .devices) ld h
  exact ⟨hl, h, hs, hr, hq⟩

end Sys2Proof.Machine

open Sys2Proof Sys2Proof.Machine

/-- Settles O51: package values by evaluation, and each device is the one that `resetLd` gives. -/
theorem resetState : Obligations.ResetState := by
  unfold Obligations.ResetState
  refine ⟨reset_safe, rfl, rfl, rfl, rfl, rfl, by decide, by decide, by decide, fun ld hld => ⟨hasDev_reset hld, ?_⟩⟩
  simp only [ldReg, qbWord, ldOf_reset]
  refine ⟨rfl, rfl, rfl, rfl, rfl, rfl, rfl, fun n hn => ?_, fun q hq => ?_⟩
  · exact congrArg RootRec.full (List.getD_replicate _ hn)
  · rw [queueOf_reset hq]
    decide

/-- Settles O56: each word is decoded. -/
theorem decodeWords : Obligations.DecodeWords := by
  unfold Obligations.DecodeWords
  decide
end

section
/-! PROOFS. Integer arithmetic (spec/09_scalar_vector_instructions.md R222, R226, R230, R231): the value that the machine delivers is the
exact value, saturated or taken modulo 2^n and extended (O1). -/

set_option Elab.async false

namespace Sys2Proof.Machine

theorem tyWidth_pos (ty : Ty) : 0 < ty.width := by cases ty <;> decide

/-- The pattern of an integer, read back as its type says. -/
theorem toIntN_ofIntN {n : Nat} (hn : 0 < n) (sg : Bool) (y : Int) :
    toIntN n sg (ofIntN n y) = if sg then Int.bmod y (2 ^ n) else y % 2 ^ n := by
  obtain ⟨m, rfl⟩ : ∃ m, n = m + 1 := ⟨n - 1, by omega⟩
  have h2 : (2 : Nat) ^ (m + 1) = 2 * 2 ^ m := Nat.pow_succ'
  have hc : ((2 : Int) ^ (m + 1)) = ((2 ^ (m + 1) : Nat) : Int) := by push_cast; rfl
  simp only [toIntN, ofIntN, Int.bmod, Nat.add_sub_cancel, hc]
  generalize (2 : Nat) ^ (m + 1) = p at *
  have hp : 0 < p := by have := Nat.two_pow_pos m; omega
  have h0 := Int.emod_nonneg y (b := (p : Int)) (by omega)
  have h1 := Int.emod_lt_of_pos y (b := (p : Int)) (by omega)
  have hmod : (y % (p : Int)).toNat % p = (y % (p : Int)).toNat := Nat.mod_eq_of_lt (by omega)
  rw [hmod]
  cases sg with
  | false => simp; omega
  | true =>
    simp only [Bool.true_and, decide_eq_true_eq, if_true]
    split <;> split <;> omega

/-- The least and the greatest value of a type (R205), as the statements write them. -/
theorem intRange_eq (ty : Ty) : intRange ty.width ty.isSigned =
    (if ty.isSigned then -(2 ^ (ty.width - 1)) else 0, if ty.isSigned then 2 ^ (ty.width - 1) - 1 else 2 ^ ty.width - 1) := by
  unfold intRange
  split <;> push_cast <;> rfl

theorem clampInt_eq (n : Nat) (sg : Bool) (x : Int) (h : (intRange n sg).1 ≤ (intRange n sg).2) :
    clampInt n sg x = max (intRange n sg).1 (min (intRange n sg).2 x) := by
  simp only [clampInt]
  split <;> [skip; split] <;> omega

theorem intRange_le (ty : Ty) : (intRange ty.width ty.isSigned).1 ≤ (intRange ty.width ty.isSigned).2 := by
  cases ty <;> decide

/-- A value of a type's range is its own pattern's reading. -/
theorem wrap_of_range (ty : Ty) (z : Int) (h1 : (intRange ty.width ty.isSigned).1 ≤ z) (h2 : z ≤ (intRange ty.width ty.isSigned).2) :
    (if ty.isSigned then Int.bmod z (2 ^ ty.width) else z % 2 ^ ty.width) = z := by
  rw [intRange_eq] at h1 h2
  have hp : (2 : Nat) ^ ty.width = 2 * 2 ^ (ty.width - 1) := by
    rw [← Nat.pow_succ']
    congr 1
    have := tyWidth_pos ty
    omega
  split
  · next hs =>
    simp only [hs, if_true] at h1 h2
    have hc : ((2 : Int) ^ (ty.width - 1)) = ((2 ^ (ty.width - 1) : Nat) : Int) := by push_cast; rfl
    rw [hc] at h1 h2
    exact Int.bmod_eq_of_le (by rw [hp]; omega) (by rw [hp]; omega)
  · next hs =>
    simp only [hs] at h1 h2
    exact Int.emod_eq_of_lt h1 (by simpa using Int.lt_of_le_sub_one h2)

/-- The value that the machine delivers (R226) is the one that the statements name. -/
theorem deliverI_eq (ty : Ty) (sat : Bool) (x : Int) : deliverI ty sat x = delivered ty sat x := by
  simp only [deliverI, extendI, delivered]
  rw [toIntN_ofIntN (tyWidth_pos ty)]
  congr 1
  cases sat with
  | false => rfl
  | true =>
    have hle := intRange_le ty
    simp only [if_true]
    rw [clampInt_eq _ _ _ hle, wrap_of_range ty _ (by omega) (by omega), intRange_eq]

/-- An integer instruction with a fixed latency computes a vector or uniform destination. -/
theorem computes_runI {s : State} {h : Hdr} {c : Ctx} (hc : ctxOf s h = some c) (d : Opnd) (ty : Ty) (lat : Nat) (f : Group → Nat → DWord)
    (hd : d.isV = true ∨ d.isG = true) : Computes c (runI h d ty lat s f) d ty.regs fun l => f c.g l := by
  unfold runI
  rw [withIssue_of hc]
  exact computes_fixed hc false d ty.regs lat _ hd

/-- An instruction with two sources that runs as `intBin` delivers what `intBin` is given. -/
theorem intLaw_of_intBin {con : IBin → Instr} {f : IBin → Int → Int → Int} (lat : IBin → Nat)
    (hexec : ∀ x s, exec (con x) s = intBin x (lat x) s (f x)) (hargs : ∀ x, args (con x) = x.args) : IntLaw con f := by
  intro s c x hc hwf
  have hmem : aD x.d cVU x.ty.regs ∈ args (con x) := by simp [hargs, IBin.args]
  rw [hexec, intBin]
  simp only [← deliverI_eq]
  exact computes_runI hc x.d x.ty (lat x) _ (wf_dst hwf _ hmem rfl)

/-- The same with one source. -/
theorem intLaw1_of_intUn {con : IUn → Instr} {f : Int → Int} (lat : IUn → Nat) (hexec : ∀ x s, exec (con x) s = intUn x (lat x) s f)
    (hargs : ∀ x, args (con x) = x.args) (s : State) (c : Ctx) (x : IUn) (hc : ctxOf s x.h = some c) (hwf : WellFormed (con x) = true) :
    Computes c (exec (con x) s) x.d x.ty.regs fun l => delivered x.ty x.sat (f (srcI c.g x.a x.ty l)) := by
  have hmem : aD x.d cVU x.ty.regs ∈ args (con x) := by simp [hargs, IUn.args]
  rw [hexec, intUn]
  simp only [← deliverI_eq]
  exact computes_runI hc x.d x.ty (lat x) _ (wf_dst hwf _ hmem rfl)

theorem computes_imad {s : State} {c : Ctx} {x : ITern} (hc : ctxOf s x.h = some c) (hwf : WellFormed (.imad x) = true) :
    Computes c (exec (.imad x) s) x.d x.ty.regs fun l =>
      delivered x.ty x.sat (srcI c.g x.a x.ty l * srcI c.g x.b x.ty l + srcI c.g x.t x.ty l) := by
  have hmem : aD x.d cVU x.ty.regs ∈ args (.imad x) := List.mem_cons_self
  simp only [← deliverI_eq]
  exact computes_runI hc x.d x.ty 5 (fun g l => deliverI x.ty x.sat (srcI g x.a x.ty l * srcI g x.b x.ty l + srcI g x.t x.ty l))
    (wf_dst hwf _ hmem rfl)

theorem exec_imulh (x : IBin) (s : State) : exec (.imulh x) s = intBin x 5 s fun a b => Int.fdiv (a * b) (2 ^ x.ty.width) := by
  have h (a b : Int) : Int.fdiv (a * b) (2 ^ x.ty.width) = a * b / (2 ^ x.ty.width : Nat) := by
    rw [Int.fdiv_eq_ediv_of_nonneg _ (by positivity)]
    push_cast
    rfl
  simp only [h]
  rfl

theorem exec_lea (x : IBin) (s : State) : exec (.lea x) s = intBin x (intLat x.ty) s fun a b => a + b * 2 ^ x.x.toNat := by
  have h (a b : Int) : a + b * 2 ^ x.x.toNat = a + b * (2 ^ x.x.toNat : Nat) := by push_cast; rfl
  simp only [h]
  rfl

theorem exec_iabs (x : IUn) (s : State) : exec (.iabs x) s = intUn x (intLat x.ty) s fun a => |a| := by
  simp only [Int.abs_eq_natAbs]
  rfl

/-! ICMP. -/

theorem icmpCond_eq (x : BitVec 3) (a b : Int) : icmpCond x a b = match x.toNat with
    | 0 => a == b
    | 1 => a != b
    | 2 => decide (a < b)
    | 3 => decide (a ≤ b)
    | 4 => decide (a > b)
    | _ => decide (a ≥ b) := by
  have h : x = 0 ∨ x = 1 ∨ x = 2 ∨ x = 3 ∨ x = 4 ∨ x = 5 ∨ x = 6 ∨ x = 7 := by revert x; decide
  rcases h with rfl | rfl | rfl | rfl | rfl | rfl | rfl | rfl <;> simp [icmpCond, bne, beq_eq_decide]

theorem decides_icmp {s : State} {c : Ctx} {x : IBin} (hc : ctxOf s x.h = some c) (hwf : WellFormed (.icmp x) = true) :
    Decides c (exec (.icmp x) s) x.d.tag fun l => icmpCond x.x (srcI c.g x.a x.ty l) (srcI c.g x.b x.ty l) := by
  have hmem : aD x.d [.pred] 1 ∈ args (.icmp x) := List.mem_cons_self
  show Decides c (execIcmp x s) _ _
  rw [execIcmp, withIssue_of hc]
  exact decides_fixed hc false x.d 1 (intLat x.ty) _ (wf_pred hwf _ hmem rfl)

/-! IADDX. -/

/-- What a lane reads in a vector destination and a predicate that have been written together. -/
theorem read_setP_setDst (g : Group) (n : BitVec 8) (w p l m : Nat) (x : DWord) (b : Bool) (hl : l < 32) (hm : m < 32) :
    (srcD (setP (setDst g (.v n) w l x) p l b) (.v n) w m, getP (setP (setDst g (.v n) w l x) p l b) p m) =
      if m = l then (seen (.v n) w x, p == 7 || b) else (srcD g (.v n) w m, getP g p m) := by
  have hv : srcD (setP (setDst g (.v n) w l x) p l b) (.v n) w m = srcD (setDst g (.v n) w l x) (.v n) w m := by simp [srcD]
  have hp : getP (setDst g (.v n) w l x) p m = getP g p m := by unfold setDst; simp only; split <;> simp
  rw [hv, getP_setP _ _ _ _ _ _ hl hm, hp]
  by_cases h : m = l
  · subst h
    rw [if_pos rfl, srcD_setDst_same _ _ _ _ _ hl (.inl rfl)]
    by_cases h7 : p = 7
    · simp [h7, getP]
    · simp [h7]
  · rw [if_neg h, srcD_setDst_lane _ _ _ _ _ _ hl hm h rfl, if_neg (by tauto)]

/-- The carry out of an addition, the borrow out of a subtraction, with the result mod 2^n, of patterns of n bits. -/
theorem addCarry_eq {n a b : Nat} (sub cin : Bool) (ha : a < 2 ^ n) :
    let r : Int := if sub then (a : Int) - b - (if cin then 1 else 0) else (a : Int) + b + (if cin then 1 else 0)
    ((addCarry n sub a b cin).1 : Int) = r % 2 ^ n ∧ (addCarry n sub a b cin).2 = if sub then decide (r < 0) else decide (2 ^ n ≤ r) := by
  have hc : ((2 : Int) ^ n) = ((2 ^ n : Nat) : Int) := by push_cast; rfl
  have hp : 0 < 2 ^ n := Nat.two_pow_pos n
  cases sub
  · simp only [addCarry, hc]
    cases cin <;> simp <;> omega
  · simp only [addCarry, ofIntN, hc]
    generalize (2 : Nat) ^ n = p at *
    have h0 (y : Int) := Int.emod_nonneg y (b := (p : Int)) (by omega)
    cases cin <;> simp [h0] <;> omega

/-- A pattern of a type's width is seen whole in the registers of the type. -/
theorem seen_of_lt (n : BitVec 8)
    (ty : Ty) {x : Nat} (hx : x < 2 ^ ty.width) : seen (.v n) ty.regs (BitVec.ofNat 64 x) = BitVec.ofNat 64 x := by
  unfold seen
  simp only [discards, Bool.false_eq_true, if_false]
  split
  · next h =>
    have hw : ty.width ≤ 32 := by
      revert h
      cases ty <;> simp [Opnd.isV, Opnd.cls, Ty.regs, Ty.width]
    have h32 : x < 2 ^ 32 := lt_of_lt_of_le hx (Nat.pow_le_pow_right (by omega) hw)
    apply BitVec.eq_of_toNat_eq
    simp
    omega
  · rfl

theorem srcN_lt (g : Group) (o : Opnd) (n l : Nat) : srcN g o n l < 2 ^ n := Nat.mod_lt _ (Nat.two_pow_pos n)

theorem addCarry_lt (n : Nat) (sub : Bool) (a b : Nat) (cin : Bool) : (addCarry n sub a b cin).1 < 2 ^ n := by
  have hp : 0 < 2 ^ n := Nat.two_pow_pos n
  cases sub
  · exact Nat.mod_lt _ hp
  · simp only [addCarry, ofIntN]
    have h1 := Int.emod_lt_of_pos ((a : Int) - b - (if cin then 1 else 0 : Nat)) (b := ((2 ^ n : Nat) : Int)) (by omega)
    have h0 := Int.emod_nonneg ((a : Int) - b - (if cin then 1 else 0 : Nat)) (b := ((2 ^ n : Nat) : Int)) (by omega)
    simp only [if_true]
    omega

theorem isV_iff {o : Opnd} : o.isV = true ↔ ∃ n, o = .v n := by
  cases o with
  | v n => exact ⟨fun _ => ⟨n, rfl⟩, fun _ => rfl⟩
  | g n => exact ⟨fun h => absurd h (by simp [Opnd.isV, Opnd.cls]), fun ⟨_, h⟩ => nomatch h⟩
  | im w => exact ⟨fun h => absurd h (by simp [Opnd.isV, Opnd.cls]), fun ⟨_, h⟩ => nomatch h⟩
  | sp sel idx => exact ⟨fun h => absurd h (by simp [sp_notV]), fun ⟨_, h⟩ => nomatch h⟩

theorem goesOn_iaddx {s : State} {c : Ctx} {x : ITern} (hc : ctxOf s x.h = some c) (hwf : WellFormed (.iaddx x) = true) :
    GoesOn c (exec (.iaddx x) s) fun _ g => ∀ l ∈ c.lanes,
      let n := x.ty.width
      let a : Int := srcN c.g x.a n l
      let b : Int := srcN c.g x.b n l
      let k : Int := if srcP c.g x.t l then 1 else 0
      let r := if x.x = 0 then a + b + k else a - b - k
      srcD g x.d x.ty.regs l = BitVec.ofInt 64 (r % 2 ^ n) ∧
      getP g x.t.tag l = (x.t.tag == 7 || if x.x = 0 then decide (2 ^ n ≤ r) else decide (r < 0)) := by
  have hv : x.d.isV = true := wf_vec hwf (aD x.d [.vec] x.ty.regs) List.mem_cons_self rfl
  obtain ⟨d, hd⟩ := isV_iff.1 hv
  have hx : x.x = 0 ∨ x.x = 1 := by
    have hmod : modOk (.iaddx x) = true := (wellFormed_iff.1 hwf).2.1
    have hlt : x.x.toNat < 2 := by
      simp only [modOk, Bool.and_eq_true, decide_eq_true_eq] at hmod
      exact hmod.1.1
    rcases Nat.lt_succ_iff_lt_or_eq.1 hlt with h | h
    · exact .inl (BitVec.eq_of_toNat_eq (by simpa using h))
    · exact .inr (BitVec.eq_of_toNat_eq (by simpa using h))
  show GoesOn c (execIaddx x s) _
  rw [execIaddx, withIssue_of hc]
  refine goesOn_done c x.h false _ _ _ (groupOf_put c hc _ ?_) ?_ fun l hl => ?_
  · exact foldl_holds (fun g : Group => g.id = c.g.id) rfl fun g l hg => by rw [id_setP, id_setDst, hg]
  · exact foldl_holds (fun g : Group => frontOf g = frontOf c.g) rfl fun g l hg => by rw [frontOf_setP, frontOf_setDst, hg]
  · rw [srcD_retire, getP_retire, hd]
    have h := foldl_lane c.lanes (lanesOf_nodup c.act) (fun g l =>
        let r := addCarry x.ty.width (x.x.getLsbD 0) (srcN c.g x.a x.ty.width l) (srcN c.g x.b x.ty.width l) (srcP c.g x.t l)
        setP (setDst g (.v d) x.ty.regs l (BitVec.ofNat 64 r.1)) x.t.tag l r.2)
      (fun g l => (srcD g (.v d) x.ty.regs l, getP g x.t.tag l)) _
      (fun g l hl => by rw [read_setP_setDst _ _ _ _ _ _ _ _ (c.lanes_lt l hl) (c.lanes_lt l hl), if_pos rfl])
      (fun g l m hl hm hne => by rw [read_setP_setDst _ _ _ _ _ _ _ _ (c.lanes_lt l hl) (c.lanes_lt m hm), if_neg hne]) c.g l hl
    obtain ⟨h1, h2⟩ := Prod.mk.inj h
    obtain ⟨r1, r2⟩ := addCarry_eq (b := srcN c.g x.b x.ty.width l) (x.x.getLsbD 0) (srcP c.g x.t l) (srcN_lt c.g x.a x.ty.width l)
    rw [h1, h2, r2, seen_of_lt _ _ (addCarry_lt _ _ _ _ _), ← BitVec.ofInt_natCast, r1]
    rcases hx with hx | hx <;> simp [hx]

end Sys2Proof.Machine

open Sys2Proof Sys2Proof.Machine

/-- Settles O1: each instruction runs as one of a few shapes, and the value delivered is the exact one, wrapped or clamped. -/
theorem integerArithmetic : Obligations.IntegerArithmetic := by
  unfold Obligations.IntegerArithmetic
  refine ⟨⟨intLaw_of_intBin (fun x => intLat x.ty) (fun _ _ => rfl) fun _ => rfl, intLaw_of_intBin (fun x => intLat x.ty)
    (fun _ _ => rfl) fun _ => rfl,
    intLaw_of_intBin (fun _ => 5) (fun _ _ => rfl) fun _ => rfl, intLaw_of_intBin (fun _ => 5) exec_imulh fun _ => rfl,
    intLaw_of_intBin (fun x => intLat x.ty) (fun _ _ => rfl) fun _ => rfl,
    intLaw_of_intBin (fun x => intLat x.ty) (fun _ _ => rfl) fun _ => rfl, intLaw_of_intBin (fun x => intLat x.ty) exec_lea fun _ => rfl,
    fun s c x hc hwf => computes_imad hc hwf, intLaw1_of_intUn (fun x => intLat x.ty) exec_iabs fun _ => rfl,
    intLaw1_of_intUn (fun x => intLat x.ty) (fun _ _ => rfl) fun _ => rfl⟩, fun s c x hc hwf => ?_, fun s c x hc hwf => goesOn_iaddx hc hwf⟩
  have h := decides_icmp hc hwf
  simp only [icmpCond_eq] at h
  exact h
end

section
/-! PROOFS. Bitwise instructions, shifts, counts and bit fields (spec/09_scalar_vector_instructions.md R226 to R229): the pattern that the
machine computes is, mod 2^n, the value that the statement names (O2). -/

set_option Elab.async false

namespace Sys2Proof.Machine

/-- What a pattern is extended to depends on it mod 2^n alone. -/
theorem extendI_eq (ty : Ty) {p : Nat} {z : Int} (h : (p : Int) % 2 ^ ty.width = z % 2 ^ ty.width) : extendI ty p = delivered ty false z :=
    by
  have hc : ((2 : Int) ^ ty.width) = ((2 ^ ty.width : Nat) : Int) := by push_cast; rfl
  have hp := Nat.two_pow_pos ty.width
  have hmod : p % 2 ^ ty.width = ofIntN ty.width z % 2 ^ ty.width := by
    rw [hc] at h
    have h0 := Int.emod_nonneg z (b := ((2 ^ ty.width : Nat) : Int)) (by omega)
    have h1 := Int.emod_lt_of_pos z (b := ((2 ^ ty.width : Nat) : Int)) (by omega)
    rw [ofIntN, Nat.mod_eq_of_lt (a := (z % _).toNat) (by omega)]
    omega
  rw [← deliverI_eq]
  simp only [deliverI, extendI, toIntN, hmod, Bool.false_eq_true, if_false]

theorem patLaw_of_patBin {con : IBin → Instr} {f : IBin → Nat → Nat → Int} (lat : IBin → Nat) (q : IBin → Nat → Nat → Nat)
    (hexec : ∀ x s, exec (con x) s = patBin x (lat x) s (q x)) (hargs : ∀ x, args (con x) = x.args)
    (hval : ∀ (x : IBin) (a b : Nat),
      a < 2 ^ x.ty.width → b < 2 ^ x.ty.width → (q x a b : Int) % 2 ^ x.ty.width = f x a b % 2 ^ x.ty.width) :
    PatLaw con f := by
  intro s c x hc hwf
  have hmem : aD x.d cVU x.ty.regs ∈ args (con x) := by simp [hargs, IBin.args]
  rw [hexec, patBin]
  simp only [← extendI_eq x.ty (hval x _ _ (srcN_lt _ _ _ _) (srcN_lt _ _ _ _))]
  exact computes_runI hc x.d x.ty (lat x) _ (wf_dst hwf _ hmem rfl)

theorem patLaw1_of_patUn {con : IUn → Instr} {f : IUn → Nat → Int} (lat : IUn → Nat) (q : IUn → Nat → Nat)
    (hexec : ∀ x s, exec (con x) s = patUn x (lat x) s (q x)) (hargs : ∀ x, args (con x) = x.args)
    (hval : ∀ (x : IUn) (a : Nat), a < 2 ^ x.ty.width → (q x a : Int) % 2 ^ x.ty.width = f x a % 2 ^ x.ty.width) :
    PatLaw1 con f := by
  intro s c x hc hwf
  have hmem : aD x.d cVU x.ty.regs ∈ args (con x) := by simp [hargs, IUn.args]
  rw [hexec, patUn]
  simp only [← extendI_eq x.ty (hval x _ (srcN_lt _ _ _ _))]
  exact computes_runI hc x.d x.ty (lat x) _ (wf_dst hwf _ hmem rfl)

/-! The values. -/

theorem ofIntN_emod (n : Nat) (z : Int) : (ofIntN n z : Int) % 2 ^ n = z % 2 ^ n := by
  have hc : ((2 : Int) ^ n) = ((2 ^ n : Nat) : Int) := by push_cast; rfl
  have hp := Nat.two_pow_pos n
  have h0 := Int.emod_nonneg z (b := ((2 ^ n : Nat) : Int)) (by omega)
  rw [ofIntN, hc, Int.toNat_of_nonneg h0, Int.emod_emod]

/-- `toIntN` of a pattern is the two's complement or the unsigned reading of its low bits. -/
theorem toIntN_eq (n : Nat) (hn : 0 < n) (sg : Bool) (p : Nat) :
    toIntN n sg p = if sg then Int.bmod p (2 ^ n) else ((p % 2 ^ n : Nat) : Int) := by
  have h := toIntN_ofIntN hn sg (p : Int)
  have hp : ofIntN n (p : Int) = p % 2 ^ n := by
    rw [ofIntN, ← Int.natCast_emod, Int.toNat_natCast]
  rw [hp] at h
  have h2 : toIntN n sg (p % 2 ^ n) = toIntN n sg p := by simp [toIntN]
  rw [← h2, h]
  push_cast
  rfl

theorem andn_val {n a b : Nat} (hb : b < 2 ^ n) (ha : a < 2 ^ n) :
    a &&& (2 ^ n - 1 - b) = (BitVec.ofNat n a &&& ~~~ BitVec.ofNat n b).toNat := by
  simp [BitVec.toNat_and, BitVec.toNat_not, Nat.mod_eq_of_lt ha, Nat.mod_eq_of_lt hb]

theorem not_val {n a : Nat} (ha : a < 2 ^ n) : 2 ^ n - 1 - a = (~~~ BitVec.ofNat n a).toNat := by
  simp [BitVec.toNat_not, Nat.mod_eq_of_lt ha]

theorem shlN_emod (n a k : Nat) : shlN n a k % 2 ^ n = a * 2 ^ k % 2 ^ n := by
  unfold shlN
  split
  · next h => rw [Nat.mod_eq_zero_of_dvd (Dvd.dvd.mul_left (Nat.pow_dvd_pow 2 h) a)]; simp
  · simp

theorem shrN_eq {n a k : Nat} (ha : a < 2 ^ n) : shrN n a k = a / 2 ^ k := by
  unfold shrN
  split
  · next h => exact (Nat.div_eq_of_lt (lt_of_lt_of_le ha (Nat.pow_le_pow_right (by omega) h))).symm
  · rfl

/-- Shifting a signed value of n bits by n or more leaves its sign alone. -/
theorem toInt_div_two_pow {n k : Nat} (x : BitVec n) (h : n ≤ k) : x.toInt / 2 ^ n = x.toInt / 2 ^ k := by
  have hc (m : Nat) : ((2 : Int) ^ m) = ((2 ^ m : Nat) : Int) := by push_cast; rfl
  have hle : 2 ^ n ≤ 2 ^ k := Nat.pow_le_pow_right (by omega) h
  have h1 := BitVec.two_mul_toInt_lt (x := x)
  have h2 := BitVec.le_two_mul_toInt (x := x)
  rw [hc] at h1 h2 ⊢
  rw [hc]
  by_cases h0 : 0 ≤ x.toInt
  · rw [Int.ediv_eq_zero_of_lt h0 (by omega), Int.ediv_eq_zero_of_lt h0 (by omega)]
  · rw [Int.ediv_eq_neg_one_of_neg_of_le (by omega) (by omega), Int.ediv_eq_neg_one_of_neg_of_le (by omega) (by omega)]

theorem sarN_emod {n a : Nat} (hn : 0 < n) (k : Nat) : (sarN n a k : Int) % 2 ^ n = (BitVec.ofNat n a).toInt / 2 ^ k % 2 ^ n := by
  have ht : toIntN n true a = (BitVec.ofNat n a).toInt := by
    rw [BitVec.toInt_eq_toNat_bmod, toIntN_eq n hn, if_pos rfl, BitVec.toNat_ofNat]
    exact_mod_cast (Int.emod_bmod a (2 ^ n)).symm
  rw [sarN, ofIntN_emod, ht]
  push_cast
  rcases Nat.le_total k n with h | h
  · rw [Nat.min_eq_left h]
  · rw [Nat.min_eq_right h, toInt_div_two_pow _ h]

theorem rolN_eq {n a k : Nat} (hn : 0 < n) (ha : a < 2 ^ n) : rolN n a k = ((BitVec.ofNat n a).rotateLeft k).toNat := by
  have hk : k % n < n := Nat.mod_lt _ hn
  have hsplit : 2 ^ n = 2 ^ (k % n) * 2 ^ (n - k % n) := by rw [← Nat.pow_add]; congr 1; omega
  have hhigh : a * 2 ^ (k % n) % 2 ^ n = 2 ^ (k % n) * (a % 2 ^ (n - k % n)) := by rw [Nat.mul_comm, hsplit, Nat.mul_mod_mul_left]
  have hlow : a / 2 ^ (n - k % n) < 2 ^ (k % n) := Nat.div_lt_of_lt_mul (by rw [Nat.mul_comm, ← hsplit]; exact ha)
  rw [BitVec.toNat_rotateLeft, BitVec.toNat_ofNat, Nat.mod_eq_of_lt ha, Nat.shiftLeft_eq, Nat.shiftRight_eq_div_pow, rolN, hhigh,
    Nat.two_pow_add_eq_or_of_lt hlow]

theorem popcN_eq (n a : Nat) : popcN n a = (List.range n).countP fun i => a.testBit i := by
  rw [popcN, List.countP_eq_length_filter]

theorem brevN_eq {n a : Nat} (ha : a < 2 ^ n) : brevN n a = (BitVec.ofNat n a).reverse.toNat := by
  refine Nat.eq_of_testBit_eq fun j => ?_
  rw [brevN, testBit_sumBits n fun i => a.testBit (n - 1 - i), ← BitVec.getLsbD, BitVec.getLsbD_reverse, BitVec.getMsbD_eq_getLsbD, BitVec.getLsbD_ofNat]
  by_cases hj : j < n
  · simp [hj]
    intro; omega
  · simp [hj]

theorem bfxN_emod {n a pos len : Nat} (sg : Bool) : (bfxN n sg a pos len : Int) % 2 ^ n =
    (if len = 0 ∨ n ≤ pos then 0 else if sg then Int.bmod (a / 2 ^ pos) (2 ^ min len (n - pos))
      else (a / 2 ^ pos % 2 ^ min len (n - pos) : Nat)) % 2 ^ n := by
  unfold bfxN
  split
  · simp
  · next h =>
    dsimp only
    rw [ofIntN_emod, toIntN_eq _ (by omega)]
    push_cast
    rfl

theorem bfiN_eq (n a t pos len : Nat) : (bfiN n a t pos len : Int) =
    if len = 0 ∨ n ≤ pos then (t : Int)
    else (t % 2 ^ pos + a % 2 ^ min len (n - pos) * 2 ^ pos + t / 2 ^ (pos + min len (n - pos)) * 2 ^ (pos + min len (n - pos)) : Nat) := by
  unfold bfiN
  split
  · rfl
  · generalize min len (n - pos) = m
    have h1 := Nat.div_add_mod t (2 ^ pos)
    have h2 := Nat.div_add_mod (t / 2 ^ pos) (2 ^ m)
    simp only [fld, Nat.pow_zero, Nat.div_one]
    rw [Nat.pow_add, ← Nat.div_div_eq_div_mul]
    have h3 : t = 2 ^ pos * (2 ^ m * (t / 2 ^ pos / 2 ^ m)) + t / 2 ^ pos % 2 ^ m * 2 ^ pos + t % 2 ^ pos := by
      calc t = 2 ^ pos * (t / 2 ^ pos) + t % 2 ^ pos := h1.symm
        _ = 2 ^ pos * (2 ^ m * (t / 2 ^ pos / 2 ^ m) + t / 2 ^ pos % 2 ^ m) + t % 2 ^ pos := by rw [h2]
        _ = _ := by ring
    have h4 : t - t / 2 ^ pos % 2 ^ m * 2 ^ pos = 2 ^ pos * (2 ^ m * (t / 2 ^ pos / 2 ^ m)) + t % 2 ^ pos := by omega
    rw [h4]
    push_cast
    ring

/-- A pattern of 32 bits extended to a register. -/
theorem extendI_n32 {p : Nat} (h : p < 2 ^ 32) : extendI .n32 p = BitVec.ofNat 64 p := by
  rw [extendI, toIntN_eq _ (by decide), if_neg (by decide), BitVec.ofInt_natCast]
  congr 1
  exact Nat.mod_eq_of_lt h

theorem fld_byte (a i : Nat) : fld a (8 * i) 8 = a / 256 ^ i % 256 := by
  rw [fld, Nat.pow_mul]
  rfl

theorem bselN_eq (ctl : BitVec 20) (a b : Nat) : bselN ctl.toNat a b =
    let src (k : Nat) : Nat := if k < 4 then a / 256 ^ k % 256 else b / 256 ^ (k - 4) % 256
    let own (i : Nat) : Nat := if ctl.getLsbD (12 + i) then 0 else src (ctl.toNat / 2 ^ (3 * i) % 8)
    let rep (i : Nat) (prev : Nat) : Nat := if ctl.getLsbD (16 + i) && !ctl.getLsbD (12 + i) then prev else own i
    let r0 := own 0
    let r1 := rep 1 r0
    let r2 := rep 2 r1
    let r3 := rep 3 r2
    r0 + r1 * 256 + r2 * 65536 + r3 * 16777216 := by
  have hstep (i : Nat) (hi : 1 ≤ i) (p q : Bool) (prev y : Nat) : (if p then 0 else if 1 ≤ i ∧ q = true then prev else y) =
      if q && !p then prev else if p then 0 else y := by cases p <;> cases q <;> simp [hi]
  have hfirst (q : Bool) (x y : Nat) : (if 1 ≤ 0 ∧ q = true then x else y) = y := if_neg (by simp)
  have hr : List.range 4 = [0, 1, 2, 3] := rfl
  simp only [bselN, hr, List.foldl_cons, List.foldl_nil, fld_byte, BitVec.getLsbD, hfirst, hstep 1 (by decide), hstep 2 (by decide),
    hstep 3 (by decide)]
  simp only [fld, Nat.mul_zero, Nat.pow_zero, Nat.mul_one, Nat.zero_add]
  rfl

theorem bselN_lt (ctl a b : Nat) : bselN ctl a b < 2 ^ 32 := by
  have hr : List.range 4 = [0, 1, 2, 3] := rfl
  have hbyte (x i : Nat) : fld x i 8 < 256 := Nat.mod_lt _ (by decide)
  have hif (p q : Prop) [Decidable p] [Decidable q] (x y : Nat) (hx : x < 256) (hy : y < 256) :
      (if p then 0 else if q then x else y) < 256 := by split <;> [omega; split <;> assumption]
  have hval (k : Nat) : (if k < 4 then fld a (8 * k) 8 else fld b (8 * (k - 4)) 8) < 256 := by split <;> exact hbyte _ _
  have h0 := hif (ctl.testBit (12 + 0)) (1 ≤ 0 ∧ ctl.testBit (16 + 0)) 0 _ (by decide) (hval (fld ctl (3 * 0) 3))
  have h1 := hif (ctl.testBit (12 + 1)) (1 ≤ 1 ∧ ctl.testBit (16 + 1)) _ _ h0 (hval (fld ctl (3 * 1) 3))
  have h2 := hif (ctl.testBit (12 + 2)) (1 ≤ 2 ∧ ctl.testBit (16 + 2)) _ _ h1 (hval (fld ctl (3 * 2) 3))
  have h3 := hif (ctl.testBit (12 + 3)) (1 ≤ 3 ∧ ctl.testBit (16 + 3)) _ _ h2 (hval (fld ctl (3 * 3) 3))
  simp only [bselN, hr, List.foldl_cons, List.foldl_nil]
  norm_num only [Nat.zero_add] at h0 h1 h2 h3 ⊢
  omega

theorem computes_bfi {s : State} {c : Ctx} {x : ITern} (hc : ctxOf s x.h = some c) (hwf : WellFormed (.bfi x) = true) :
    Computes c (exec (.bfi x) s) x.d x.ty.regs fun l => extendI x.ty (bfiN x.ty.width (srcN c.g x.a x.ty.width l)
      (srcN c.g x.t x.ty.width l) (srcN c.g x.b x.ty.width l % 256) (srcN c.g x.b x.ty.width l / 256 % 256)) :=
  computes_runI hc x.d x.ty 3 (fun g l => extendI x.ty (bfiN x.ty.width (srcN g x.a x.ty.width l)
      (srcN g x.t x.ty.width l) (srcN g x.b x.ty.width l % 256) (srcN g x.b x.ty.width l / 256 % 256)))
    (wf_dst hwf (aD x.d cVU x.ty.regs) List.mem_cons_self rfl)

theorem computes_bsel {s : State} {c : Ctx} {x : IBsel} (hc : ctxOf s x.h = some c) (hwf : WellFormed (.bsel x) = true) :
    Computes c (exec (.bsel x) s) x.d 1 fun l => BitVec.ofNat 64 (bselN x.ctl.toNat (srcN c.g x.a 32 l) (srcN c.g x.b 32 l)) := by
  simp only [← extendI_n32 (bselN_lt _ _ _)]
  exact computes_runI hc x.d .n32 3 (fun g l => extendI .n32 (bselN x.ctl.toNat (srcN g x.a 32 l) (srcN g x.b 32 l)))
    (wf_dst hwf (aD x.d cVU 1) List.mem_cons_self rfl)

end Sys2Proof.Machine

open Sys2Proof Sys2Proof.Machine

/-- Settles O2: each instruction computes a pattern that is, mod 2^n, the value named. -/
theorem logicAndBitFields : Obligations.LogicAndBitFields := by
  unfold Obligations.LogicAndBitFields
  refine ⟨⟨patLaw_of_patBin (fun x => intLat x.ty) (fun _ a b => a &&& b) (fun _ _ => rfl) (fun _ => rfl) fun _ _ _ _ _ => rfl,
    patLaw_of_patBin (fun x => intLat x.ty) (fun _ a b => a ||| b) (fun _ _ => rfl) (fun _ => rfl) fun _ _ _ _ _ => rfl,
    patLaw_of_patBin (fun x => intLat x.ty) (fun _ a b => a ^^^ b) (fun _ _ => rfl) (fun _ => rfl) fun _ _ _ _ _ => rfl,
    patLaw_of_patBin (fun x => intLat x.ty) (fun x a b => a &&& (2 ^ x.ty.width - 1 - b)) (fun _ _ => rfl) (fun _ => rfl)
      fun x a b ha hb => by rw [andn_val hb ha],
    patLaw1_of_patUn (fun x => intLat x.ty) (fun x a => 2 ^ x.ty.width - 1 - a) (fun _ _ => rfl) (fun _ => rfl)
      fun x a ha => by rw [not_val ha],
    patLaw_of_patBin (fun x => intLat x.ty) (fun x a b => shlN x.ty.width a (b % 256)) (fun _ _ => rfl) (fun _ => rfl)
      fun x a b _ _ => by exact_mod_cast shlN_emod x.ty.width a (b % 256),
    patLaw_of_patBin (fun x => intLat x.ty) (fun x a b => shrN x.ty.width a (b % 256)) (fun _ _ => rfl) (fun _ => rfl)
      fun x a b ha _ => by rw [shrN_eq ha],
    patLaw_of_patBin (fun x => intLat x.ty) (fun x a b => sarN x.ty.width a (b % 256)) (fun _ _ => rfl) (fun _ => rfl)
      fun x a b _ _ => sarN_emod (tyWidth_pos _) _,
    patLaw_of_patBin (fun x => intLat x.ty) (fun x a b => rolN x.ty.width a (b % 256)) (fun _ _ => rfl) (fun _ => rfl)
      fun x a b ha _ => by rw [rolN_eq (tyWidth_pos _) ha]⟩,
    patLaw1_of_patUn (fun _ => 3) (fun x a => popcN x.ty.width a) (fun _ _ => rfl) (fun _ => rfl) fun x a _ => by rw [popcN_eq],
    patLaw1_of_patUn (fun _ => 3) (fun x a => clzN x.ty.width a) (fun _ _ => rfl) (fun _ => rfl) fun x a _ => rfl,
    patLaw1_of_patUn (fun _ => 3) (fun x a => brevN x.ty.width a) (fun _ _ => rfl) (fun _ => rfl) fun x a ha => by rw [brevN_eq ha],
    patLaw_of_patBin (fun _ => 3) (fun x a b => bfxN x.ty.width x.ty.isSigned a (b % 256) (b / 256 % 256)) (fun _ _ => rfl) (fun _ => rfl)
      fun x a b _ _ => bfxN_emod _, fun s c x hc hwf => ?_, fun s c x hc hwf => ?_⟩
  · have h := computes_bfi hc hwf
    simp only [extendI_eq x.ty rfl, bfiN_eq] at h
    exact h
  · have h := computes_bsel hc hwf
    simp only [bselN_eq] at h
    exact h
end

section
/-! PROOFS. Float and packed arithmetic (spec/09_scalar_vector_instructions.md R233, R238): each instruction runs as the shared shape of
the float instructions (O3). -/

set_option Elab.async false

namespace Sys2Proof.Machine

/-- `fltLaw_of_runF` for an instruction with three sources. -/
theorem fltLaw3_of_runF {con : FTern → Instr} {f : FTern → Group → Nat → Nat} (lat : Nat)
    (hexec : ∀ x s, exec (con x) s = runF x.h x.d lat s (f x)) (hargs : ∀ x, args (con x) = x.args) : FltLaw3 con f := by
  intro s c x hc hwf
  have hmem : aD x.d cVU 1 ∈ args (con x) := by simp [hargs, FTern.args]
  rw [hexec]
  exact computes_runF hc x.d lat (f x) (wf_dst hwf _ hmem rfl)

/-- The two halves of a packed result, side by side. -/
theorem packHalves_eq (f : Nat → Nat) : packHalves f = f 0 + f 1 * 65536 := rfl

theorem exec_padd2 (x : FBin) (s : State) : exec (.padd2 x) s = runF x.h x.d 5 s fun g l =>
    let r (e : Nat) := roundF (Ty.fmt x.ty) x.rnd 0 false (FVal.add x.rnd (srcHalf (Ty.fmt x.ty) g x.a e l)
      (srcHalf (Ty.fmt x.ty) g x.b e l))
    r 0 + r 1 * 65536 := by
  simp only [← packHalves_eq]
  rfl

theorem exec_pmul2 (x : FBin) (s : State) : exec (.pmul2 x) s = runF x.h x.d 5 s fun g l =>
    let r (e : Nat) := roundF (Ty.fmt x.ty) x.rnd 0 false (FVal.mul (srcHalf (Ty.fmt x.ty) g x.a e l) (srcHalf (Ty.fmt x.ty) g x.b e l))
    r 0 + r 1 * 65536 := by
  simp only [← packHalves_eq]
  rfl

theorem exec_pfma2 (x : FTern) (s : State) : exec (.pfma2 x) s = runF x.h x.d 5 s fun g l =>
    let r (e : Nat) := roundF (Ty.fmt x.ty) x.rnd 0 false
      (FVal.add x.rnd (FVal.mul (srcHalf (Ty.fmt x.ty) g x.a e l) (srcHalf (Ty.fmt x.ty) g x.b e l)) (srcHalf (Ty.fmt x.ty) g x.t e l))
    r 0 + r 1 * 65536 := by
  simp only [← packHalves_eq]
  rfl

end Sys2Proof.Machine

open Sys2Proof Sys2Proof.Machine

/-- Settles O3: each instruction runs as `runF` of the rounded value named. -/
theorem floatArithmetic : Obligations.FloatArithmetic := by
  unfold Obligations.FloatArithmetic
  exact ⟨⟨fltLaw_of_runF 5 (fun _ _ => rfl) fun _ => rfl, fltLaw_of_runF 5 (fun _ _ => rfl) fun _ => rfl,
    fltLaw_of_runF 5 (fun _ _ => rfl) fun _ => rfl, fltLaw3_of_runF 5 (fun _ _ => rfl) fun _ => rfl,
    fltLaw_of_runF 5 (fun _ _ => rfl) fun _ => rfl⟩, fltLaw_of_runF 5 exec_padd2 fun _ => rfl,
    fltLaw_of_runF 5 exec_pmul2 fun _ => rfl, fltLaw3_of_runF 5 exec_pfma2 fun _ => rfl⟩
end

section
/-! PROOFS. Float functions, comparisons and classes (spec/09_scalar_vector_instructions.md R235 to R237): the special values of the table,
and the conditions of a comparison (O5). -/

set_option Elab.async false

namespace Sys2Proof.Machine

theorem fltLaw1_of_runF {con : FUn → Instr} {f : FVal → Nat} (lat : Nat)
    (hexec : ∀ x s, exec (con x) s = runF x.h x.d lat s fun g l => f (srcF g x.a l)) (hargs : ∀ x, args (con x) = x.args) :
    FltLaw1 con f := by
  intro s c x hc hwf
  have hmem : aD x.d cVU 1 ∈ args (con x) := by simp [hargs, FUn.args]
  rw [hexec]
  exact computes_runF hc x.d lat (fun g l => f (srcF g x.a l)) (wf_dst hwf _ hmem rfl)

/-- The sine of a whole multiple of π is a zero. -/
theorem sinPiPat_of_dvd {zneg neg : Bool} {t p : Nat} (h : 2 ^ p ∣ t) : sinPiPat zneg neg t p = fF32.signed zneg 0 := by
  have hu : t % (2 * 2 ^ p) % 2 ^ p = 0 := by
    rw [Nat.mod_mul_left_mod]
    exact Nat.mod_eq_zero_of_dvd h
  simp [sinPiPat, hu]

/-- The sine of π/2 is one. -/
theorem sinPiPat_half (zneg : Bool) (p : Nat) : sinPiPat zneg false (2 ^ p) (p + 1) = 0x3F800000 := by
  have h2 : 2 ^ (p + 1) = 2 * 2 ^ p := Nat.pow_succ'
  have hp := Nat.two_pow_pos p
  have hr : 2 ^ p % (2 * 2 ^ (p + 1)) = 2 ^ p := Nat.mod_eq_of_lt (by omega)
  have hu : 2 ^ p % 2 ^ (p + 1) = 2 ^ p := Nat.mod_eq_of_lt (by omega)
  have hpi : roundMag fF32 .rne 0 false false 1 0 false = 0x3F800000 := by decide
  simp only [sinPiPat, hr, hu, ← h2]
  rw [if_neg (lt_irrefl _), if_neg (by omega), if_pos h2.symm, decide_eq_false (by omega)]
  exact hpi

theorem signed_zero (b : Bool) : fF32.signed b 0 = if b then 0x80000000 else 0 := rfl

theorem fsinPat_natural (s : Bool) (m k : Nat) : fsinPat (.fin s m k) = if s then 0x80000000 else 0 := by
  simp only [fsinPat, asFrac, Int.natCast_nonneg, ge_iff_le, if_true, Int.toNat_natCast, signed_zero]
  split
  · rfl
  · rw [sinPiPat_of_dvd (p := 1) ⟨m * 2 ^ k, by ring⟩]
    rfl

/-- A magnitude with a whole part and its fraction: asFrac of m × 2^-k. -/
theorem asFrac_neg (m k : Nat) : asFrac (m * 2 ^ (k + 1)) (-(k + 1 : Nat)) = (m * 2 ^ (k + 1) * 2, k + 2) := by
  rw [asFrac, if_neg (by omega)]
  simp

theorem fsinPat_whole (s : Bool) (m k : Nat) : fsinPat (.fin s (m * 2 ^ k) (-(k : Int))) = if s then 0x80000000 else 0 := by
  cases k with
  | zero => simpa using fsinPat_natural s m 0
  | succ k =>
    simp only [fsinPat, asFrac_neg]
    split
    · rfl
    · rw [sinPiPat_of_dvd ⟨m, by ring⟩]
      rfl

theorem fcosPat_half_odd (s : Bool) (m k : Nat) : fcosPat (.fin s ((2 * m + 1) * 2 ^ k) (-(k + 1 : Nat))) = 0 := by
  have h : asFrac ((2 * m + 1) * 2 ^ k) (-(k + 1 : Nat)) = ((2 * m + 1) * 2 ^ k * 2, k + 2) := by
    rw [asFrac, if_neg (by omega)]
    simp
  simp only [fcosPat, h]
  exact sinPiPat_of_dvd ⟨m + 1, by rw [show k + 2 - 1 = k + 1 from rfl]; ring⟩

theorem fcosPat_zero (s : Bool) (e : Int) : fcosPat (.fin s 0 e) = 0x3F800000 := by
  simp only [fcosPat, asFrac]
  split
  · rw [Nat.zero_mul, Nat.zero_mul, Nat.zero_add]
    exact sinPiPat_half false 0
  · rw [Nat.zero_mul, Nat.zero_add, Nat.add_sub_cancel]
    exact sinPiPat_half false _

theorem fex2Pat_zero (s : Bool) (e : Int) : fex2Pat (.fin s 0 e) = 0x3F800000 := by
  have h : roundMag fF32 .rne 0 false false 1 0 false = 0x3F800000 := by decide
  simpa [fex2Pat, exp2Pat] using h

theorem fsqrtPat_two_pow : fsqrtPat (.fin false 1 2) = 0x40000000 := by decide +kernel

theorem fcmpCond_eq (k : FCond) (a b : FVal) : fcmpCond k a b =
    if a = .nan ∨ b = .nan then k == .ne || k == .nan
    else match k with
      | .eq => FVal.cmp a b == 0
      | .ne => FVal.cmp a b != 0
      | .lt => decide (FVal.cmp a b < 0)
      | .le => decide (FVal.cmp a b ≤ 0)
      | .gt => decide (FVal.cmp a b > 0)
      | .ge => decide (FVal.cmp a b ≥ 0)
      | .num => true
      | .nan => false := by
  have hn (v : FVal) : v.isNan = decide (v = .nan) := by cases v <;> rfl
  simp only [fcmpCond, hn]
  by_cases h : a = .nan ∨ b = .nan
  · rw [if_pos h, ← Bool.decide_or, decide_eq_true h]
    cases k <;> rfl
  · rw [if_neg h, ← Bool.decide_or, decide_eq_false h]
    cases k <;> rfl

theorem fclassBit_eq (p : Nat) : fclassBit p =
    let p := p % 2 ^ 32
    if p = 0xFF800000 then 0
    else if 0x80800000 ≤ p ∧ p ≤ 0xFF7FFFFF then 1
    else if 0x80000001 ≤ p ∧ p ≤ 0x807FFFFF then 2
    else if p = 0x80000000 then 3
    else if p = 0 then 4
    else if 1 ≤ p ∧ p ≤ 0x7FFFFF then 5
    else if 0x800000 ≤ p ∧ p ≤ 0x7F7FFFFF then 6
    else if p = 0x7F800000 then 7
    else 8 := by
  have h : p % 2 ^ 31 = if 2 ^ 31 ≤ p % 2 ^ 32 then p % 2 ^ 32 - 2 ^ 31 else p % 2 ^ 32 := by split <;> omega
  have hlt : p % 2 ^ 32 < 2 ^ 32 := Nat.mod_lt _ (by decide)
  simp only [fclassBit, h]
  generalize p % 2 ^ 32 = q at *
  by_cases hq : 2 ^ 31 ≤ q
  · simp only [hq, if_true, decide_true]
    split
    · rw [if_neg (by omega), if_neg (by omega), if_neg (by omega), if_neg (by omega), if_neg (by omega), if_neg (by omega),
        if_neg (by omega), if_neg (by omega)]
    split
    · rw [if_pos (by omega)]
    split
    · rw [if_neg (by omega), if_pos (by omega)]
    split
    · rw [if_neg (by omega), if_neg (by omega), if_pos (by omega)]
    · rw [if_neg (by omega), if_neg (by omega), if_neg (by omega), if_pos (by omega)]
  · simp only [hq, if_false, decide_false, Bool.false_eq_true]
    split
    · rw [if_neg (by omega), if_neg (by omega), if_neg (by omega), if_neg (by omega), if_neg (by omega), if_neg (by omega),
        if_neg (by omega), if_neg (by omega)]
    split
    · rw [if_neg (by omega), if_neg (by omega), if_neg (by omega), if_neg (by omega), if_neg (by omega), if_neg (by omega),
        if_neg (by omega)]
    split
    · rw [if_neg (by omega), if_neg (by omega), if_neg (by omega), if_neg (by omega), if_neg (by omega), if_neg (by omega),
        if_pos (by omega)]
    split
    · rw [if_neg (by omega), if_neg (by omega), if_neg (by omega), if_neg (by omega), if_pos (by omega)]
    · rw [if_neg (by omega), if_neg (by omega), if_neg (by omega), if_neg (by omega), if_pos (by omega)]

theorem decides_fcmp {s : State} {c : Ctx} {x : FCmpA} (hc : ctxOf s x.h = some c) (hwf : WellFormed (.fcmp x) = true) :
    Decides c (exec (.fcmp x) s) x.d.tag fun l => fcmpCond x.cond (srcF c.g x.a l) (srcF c.g x.b l) := by
  have hmem : aD x.d [.pred] 1 ∈ args (.fcmp x) := List.mem_cons_self
  show Decides c (execFcmp x s) _ _
  rw [execFcmp, withIssue_of hc]
  exact decides_fixed hc false x.d 1 5 _ (wf_pred hwf _ hmem rfl)

theorem decides_fclass {s : State} {c : Ctx} {x : FClassA} (hc : ctxOf s x.h = some c) (hwf : WellFormed (.fclass x) = true) :
    Decides c (exec (.fclass x) s) x.d.tag fun l => x.mask.getLsbD (fclassBit (srcPat c.g x.a l)) := by
  have hmem : aD x.d [.pred] 1 ∈ args (.fclass x) := List.mem_cons_self
  show Decides c (execFclass x s) _ _
  rw [execFclass, withIssue_of hc]
  exact decides_fixed hc false x.d 1 5 _ (wf_pred hwf _ hmem rfl)

end Sys2Proof.Machine

open Sys2Proof Sys2Proof.Machine

/-- Settles O5: the shared shapes of the float instructions, and the table's special values one by one. -/
theorem floatFunctionsAndCompare : Obligations.FloatFunctionsAndCompare := by
  unfold Obligations.FloatFunctionsAndCompare
  refine ⟨⟨fltLaw1_of_runF 14 (fun _ _ => rfl) fun _ => rfl, fltLaw1_of_runF 14 (fun _ _ => rfl) fun _ => rfl,
    fltLaw1_of_runF 14 (fun _ _ => rfl) fun _ => rfl, fltLaw1_of_runF 14 (fun _ _ => rfl) fun _ => rfl,
    fltLaw1_of_runF 14 (fun _ _ => rfl) fun _ => rfl, fltLaw1_of_runF 14 (fun _ _ => rfl) fun _ => rfl,
    fltLaw1_of_runF 14 (fun _ _ => rfl) fun _ => rfl, ?_, fun e => ⟨rfl, ?_, ?_, rfl⟩, ?_, ?_, ?_, fsqrtPat_two_pow,
    fun s m k => ⟨fsinPat_natural s m k, fsinPat_whole s m k, fcosPat_half_odd s m k⟩⟩, fun s c x hc hwf => ?_, fun s c x hc hwf => ?_⟩
  · simp only [List.forall_mem_cons]
    exact ⟨rfl, rfl, rfl, rfl, rfl, rfl, rfl, fun _ h => nomatch h⟩
  · simp only [List.map_cons, List.map_nil, fcosPat_zero, fex2Pat_zero]
    rfl
  · simp only [List.map_cons, List.map_nil, fcosPat_zero, fex2Pat_zero]
    rfl
  · intro m e hm
    simp only [frsqPat, fsqrtPat, flg2Pat, hm, if_false, if_true]
    exact ⟨rfl, rfl, rfl⟩
  · decide
  · decide
  · have h := decides_fcmp hc hwf
    simp only [fcmpCond_eq] at h
    exact h
  · have h := decides_fclass hc hwf
    simp only [fclassBit_eq] at h
    exact h
end

section
/-! PROOFS. Moves, selects, special values, predicates, modulo and bound registers (spec/09_scalar_vector_instructions.md R245 to R253;
O7 and O8). -/

set_option Elab.async false

namespace Sys2Proof.Machine

/-- What holds after an instruction that goes on may be weakened. -/
theorem GoesOn.imp {c : Ctx} {o : Out} {P Q : State → Group → Prop} (h : GoesOn c o P) (hPQ : ∀ t g, P t g → Q t g) : GoesOn c o Q := by
  obtain ⟨t, g, he, hf, hP⟩ := h
  exact ⟨t, g, he, hf, hPQ t g hP⟩

theorem srcW_narrow (g : Group) (o : Opnd) (l : Nat) : srcW g o false l = ((srcD g o 1 l).setWidth 32).setWidth 64 := by
  apply BitVec.eq_of_toNat_eq
  simp [srcW, srcN]

theorem srcW_eq (g : Group) (o : Opnd) (wide : Bool) (l : Nat) :
    srcW g o wide l = if wide then srcD g o 2 l else ((srcD g o 1 l).setWidth 32).setWidth 64 := by
  cases wide
  · exact srcW_narrow g o l
  · rfl

/-- An operand that an instruction accepts in one class alone is of that class. -/
theorem wf_cls {i : Instr} (h : WellFormed i = true) (a : Arg) (ha : a ∈ args i) {k : Cls} (hacc : a.acc = [k]) (hk : k ≠ .zero) :
    a.o.cls = k := by
  have hok := wf_class h a ha
  have hz : Cls.zero ≠ k := fun e => hk e.symm
  simpa [Arg.classOk, hacc, hz] using hok

theorem srcW_wide (g : Group) (o : Opnd) (l : Nat) : srcW g o true l = srcD g o 2 l := rfl

/-! MOV, MOVI, SEL and SREAD. -/

section mov
variable {s : State} {c : Ctx} {x : MovA} (hc : ctxOf s x.h = some c) (hwf : WellFormed (.mov x) = true)
include hc hwf

theorem computes_mov_b32 (hw : x.w = .b32) : Computes c (exec (.mov x) s) x.d 1 fun l => ((srcD c.g x.a 1 l).setWidth 32).setWidth 64 := by
  have hd := wf_dst hwf (aD x.d cVU 1) (by simp [args, hw, MovW.regs]) rfl
  show Computes c (execMov x s) _ _ _
  rw [execMov, withIssue_of hc]
  simp only [hw, srcW_narrow]
  exact computes_free hc false x.d 1 _ _ hd

theorem computes_mov_b64 (hw : x.w = .b64) : Computes c (exec (.mov x) s) x.d 2 fun l => srcD c.g x.a 2 l := by
  have hd := wf_dst hwf (aD x.d cVU 2) (by simp [args, hw, MovW.regs]) rfl
  show Computes c (execMov x s) _ _ _
  rw [execMov, withIssue_of hc]
  simp only [hw, srcW_wide]
  exact computes_free hc false x.d 2 _ _ hd

theorem goesOn_mov_b128 (hw : x.w = .b128) : GoesOn c (exec (.mov x) s) fun _ g => ∀ l ∈ c.lanes, ∀ i < 4,
    getV g (x.d.vIdx + i) l = getV c.g (x.a.vIdx + i) l := by
  have hd := wf_vec hwf (aD x.d [.vec] 4) (by simp [args, hw, MovW.regs]) rfl
  show GoesOn c (execMov x s) _
  rw [execMov, withIssue_of hc]
  simp only [hw]
  refine goesOn_free hc false _ _ ?_ ?_ fun outs l hl i hi => ?_
  · exact runLanes_keeps c x.d _ Group.id fun g l => id_setQ ..
  · exact runLanes_keeps c x.d _ frontOf fun g l => frontOf_setQ ..
  · rw [getV_retire, runLanes_setQ c x.d _ hd l hl i hi, part_srcQ _ _ _ _ hi]

end mov

/-- MOVI reads in D what D held before the instruction: each lane writes its own. -/
theorem computes_movi {s : State} {c : Ctx} {x : MoviA} (hc : ctxOf s x.h = some c) (hwf : WellFormed (.movi x) = true) :
    Computes c (exec (.movi x) s) x.d (if x.wide then 2 else 1) fun l => moviVal x (srcD c.g x.d (if x.wide then 2 else 1) l) := by
  have hd := wf_dst hwf ⟨0, x.d, cVU, if x.wide then 2 else 1, x.hi, true⟩ List.mem_cons_self rfl
  show Computes c (execMovi x s) _ _ _
  rw [execMovi, withIssue_of hc]
  exact computes_free hc false x.d _ _ (fun l => moviVal x (srcD c.g x.d (if x.wide then 2 else 1) l)) hd

theorem computes_sel {s : State} {c : Ctx} {x : SelA} (hc : ctxOf s x.h = some c) (hwf : WellFormed (.sel x) = true) :
    Computes c (exec (.sel x) s) x.d (if x.wide then 2 else 1) fun l => srcW c.g (if getP c.g x.t.tag l then x.a else x.b) x.wide l := by
  have hd := wf_dst hwf (aD x.d cVU (if x.wide then 2 else 1)) List.mem_cons_self rfl
  show Computes c (execSel x s) _ _ _
  rw [execSel, withIssue_of hc]
  exact computes_free hc false x.d _ _ (fun l => srcW c.g (if srcP c.g x.t l then x.a else x.b) x.wide l) hd

theorem computes_sread {s : State} {c : Ctx} {x : SreadA} (hc : ctxOf s x.h = some c) (hwf : WellFormed (.sread x) = true) :
    Computes c (exec (.sread x) s) x.d (if x.sel.wide then 2 else 1) fun l => specialVal c x.sel l := by
  have hd : x.d.isV = true ∨ x.d.isG = true := by
    have hmem : aD x.d (if x.sel.perLane then [.vec] else cVU) (if x.sel.wide then 2 else 1) ∈ args (.sread x) := List.mem_cons_self
    by_cases hp : x.sel.perLane = true
    · exact .inl (wf_vec hwf _ hmem (if_pos hp))
    · exact wf_dst hwf _ hmem (if_neg hp)
  show Computes c (execSread x s) _ _ _
  rw [execSread, withIssue_of hc]
  exact computes_free hc false x.d _ _ (fun l => specialVal c x.sel l) hd

theorem Ctx.team_ref {s : State} {h : Hdr} {c : Ctx} (hc : ctxOf s h = some c) : c.t.r = c.r.team := by
  obtain ⟨hs, -, ht, -⟩ := ctxOf_spec hc
  have h := List.find?_some (show c.s.teams.find? (fun t => t.r == c.r.team) = some c.t by rw [hs]; exact ht)
  exact beq_iff_eq.1 h

theorem specialVal_eq {s : State} {h : Hdr} {c : Ctx} (hc : ctxOf s h = some c) (sel : Special) (l : Nat) : specialVal c sel l =
    let t := c.r.team.team
    match sel with
    | .laneid => BitVec.ofNat 64 l
    | .groupid => BitVec.ofNat 64 c.g.id
    | .teamid => BitVec.ofNat 64 t
    | .teamx => BitVec.ofNat 64 (t % c.gr.gx)
    | .teamy => BitVec.ofNat 64 (t / c.gr.gx % c.gr.gy)
    | .teamz => BitVec.ofNat 64 (t / (c.gr.gx * c.gr.gy))
    | .ngroups => BitVec.ofNat 64 (c.gr.cgrp + 1)
    | .member => BitVec.ofNat 64 c.t.member
    | .gridid => BitVec.ofNat 64 c.gr.id
    | .core => BitVec.ofNat 64 c.t.core
    | .cluster => BitVec.ofNat 64 (c.t.core / 8)
    | .die => BitVec.ofNat 64 (c.t.core / 88)
    | .ldid => BitVec.ofNat 64 c.ld
    | .cycles => BitVec.ofNat 64 s.cycle
    | .rootgen => match c.g.pin with
      | some p => BitVec.ofNat 64 p.gen
      | none => 0
    | .bndflag => c.t.bflags.setWidth 64
    | .srstate => (stGet c.g.sr l).setWidth 64
    | .entrymask => c.u.mask.setWidth 64 := by
  obtain ⟨hs, -⟩ := ctxOf_spec hc
  have hr := Ctx.team_ref hc
  cases sel with
  | teamz => simp only [specialVal, hr, Nat.div_div_eq_div_mul]
  | rootgen => unfold specialVal; cases c.g.pin <;> rfl
  | cycles => simp only [specialVal, hs]
  | _ => simp only [specialVal, hr]

/-! PSET and PMOV. -/

theorem decides_pset {s : State} {c : Ctx} {x : PsetA} (hc : ctxOf s x.h = some c) (hwf : WellFormed (.pset x) = true) :
    Decides c (exec (.pset x) s) x.d.tag fun l =>
      let a := getP c.g x.a.tag l ^^ x.na
      let b := getP c.g x.b.tag l ^^ x.nb
      match x.op with
      | .and => a && b
      | .or => a || b
      | .xor => a ^^ b := by
  have hd := wf_pred hwf (aD x.d [.pred] 1) List.mem_cons_self rfl
  have hop (op : PsetOp) (a b : Bool) : psetOp op a b = match op with
      | .and => a && b
      | .or => a || b
      | .xor => a ^^ b := by cases op <;> rfl
  show Decides c (execPset x s) _ _
  rw [execPset, withIssue_of hc]
  simp only [hop]
  exact decides_free hc false x.d _ _ hd

theorem goesOn_pmovTov {s : State} {c : Ctx} {x : OneD} (hc : ctxOf s x.h = some c) (hwf : WellFormed (.pmovTov x) = true) :
    GoesOn c (exec (.pmovTov x) s) fun _ g => ∀ l ∈ c.lanes, ∀ i < 32,
      (getV g x.d.vIdx l).getLsbD i = (decide (i < 8) && getP c.g i l) := by
  have hv : x.d.isV = true := wf_vec hwf (aD x.d [.vec] 1) List.mem_cons_self rfl
  obtain ⟨d, hd⟩ := isV_iff.1 hv
  show GoesOn c (execPmovTov x s) _
  rw [execPmovTov, withIssue_of hc]
  obtain ⟨t, g, he, hf, hP⟩ := computes_free hc false x.d 1 (keysOf x.d 1) (fun l => BitVec.ofNat 64 (predByte c.g l)) (.inl hv)
  refine ⟨t, g, he, hf, fun l hl i hi => ?_⟩
  have h := congrArg (fun v : DWord => v.getLsbD i) (hP l hl)
  simp only [hd, srcD, seen, laneFor, discards, Opnd.isV, Opnd.cls] at h
  simp [hi, show i < 64 by omega, predByte_bit] at h
  rw [← BitVec.getLsbD_eq_getElem hi, ← BitVec.getLsbD_eq_getElem hi, BitVec.getLsbD_ofNat, predByte_bit, decide_eq_true hi,
    Bool.true_and] at h
  rw [hd]
  exact h

/-- The predicates of a list written in one lane. -/
theorem getP_foldl_setP (b : Nat → Bool) (l : Nat) (hl : l < 32) (is : List Nat) (g : Group) (m k : Nat) (hk : k < 32) :
    getP (is.foldl (fun g i => setP g i l (b i)) g) m k = if k = l ∧ m ∈ is ∧ m ≠ 7 then b m else getP g m k := by
  induction is generalizing g with
  | nil => simp
  | cons i is ih =>
    rw [List.foldl_cons, ih, getP_setP _ _ _ _ _ _ hl hk]
    by_cases h1 : k = l ∧ m ∈ is ∧ m ≠ 7
    · rw [if_pos h1, if_pos ⟨h1.1, List.mem_cons_of_mem _ h1.2.1, h1.2.2⟩]
    · rw [if_neg h1]
      by_cases h2 : m = i ∧ k = l ∧ i ≠ 7
      · obtain ⟨rfl, h3, h4⟩ := h2
        rw [if_pos ⟨rfl, h3, h4⟩, if_pos ⟨h3, List.mem_cons_self, h4⟩]
      · rw [if_neg h2, if_neg]
        rintro ⟨h3, h4, h5⟩
        rcases List.mem_cons.1 h4 with rfl | h4
        · exact h2 ⟨rfl, h3, h5⟩
        · exact h1 ⟨h3, h4, h5⟩

theorem goesOn_pmovFromv {s : State} {c : Ctx} {x : PmovFromA} (hc : ctxOf s x.h = some c) (hwf : WellFormed (.pmovFromv x) = true) :
    GoesOn c (exec (.pmovFromv x) s) fun _ g => ∀ l ∈ c.lanes, ∀ i < 7,
      getP g i l = if x.mask.getLsbD i then (getV c.g x.a.vIdx l).getLsbD i else getP c.g i l := by
  have hv : x.a.isV = true := wf_vec hwf (aA x.a [.vec] 1) List.mem_cons_self rfl
  obtain ⟨a, ha⟩ := isV_iff.1 hv
  show GoesOn c (execPmovFromv x s) _
  rw [execPmovFromv, withIssue_of hc]
  refine goesOn_free hc false _ _ ?_ ?_ fun outs l hl i hi => ?_
  · exact foldl_holds (fun g : Group => g.id = c.g.id) rfl fun g l hg =>
      foldl_holds (fun g : Group => g.id = c.g.id) hg fun g i hg => by rw [id_setP, hg]
  · exact foldl_holds (fun g : Group => frontOf g = frontOf c.g) rfl fun g l hg =>
      foldl_holds (fun g : Group => frontOf g = frontOf c.g) hg fun g i hg => by rw [frontOf_setP, hg]
  · have hlane := c.lanes_lt
    have hbit : (srcD c.g x.a 1 l).getLsbD i = (getV c.g x.a.vIdx l).getLsbD i := by
      simp [ha, srcD, Opnd.vIdx, show i < 64 by omega]
    rw [getP_retire, ← hbit]
    refine foldl_lane_old c.lanes (lanesOf_nodup c.act) _ (fun g l => getP g i l) (fun g l => getP g i l)
      (fun l => if x.mask.getLsbD i then (srcD c.g x.a 1 l).getLsbD i else getP c.g i l) c.g (fun h l hl ho => ?_)
        (fun h l k hl hk hne => ?_)
      (fun h l k hl hk hne => ?_) l hl
    · rw [getP_foldl_setP _ _ (hlane l hl) _ _ _ _ (hlane l hl), ← ho]
      by_cases hm : x.mask.getLsbD i = true
      · rw [if_pos ⟨rfl, by simp [hi, hm], by omega⟩, if_pos hm]
      · rw [if_neg (by simp [hm]), if_neg hm]
    · rw [getP_foldl_setP _ _ (hlane l hl) _ _ _ _ (hlane k hk), if_neg (by tauto)]
    · rw [getP_foldl_setP _ _ (hlane l hl) _ _ _ _ (hlane k hk), if_neg (by tauto)]

/-! MODSET and BNDSET. -/

theorem modImage_toNat (raw : Bool) (a b : DWord) : (modImage raw a b).toNat = if raw then a.toNat
    else (if a.toNat < 2 ^ 20 ∧ b.toNat < 2 ^ 20 then 2 ^ 63 else 0) + b.toNat % 2 ^ 20 * 2 ^ 24 + a.toNat % 2 ^ 20 := by
  have hx (v : DWord) : v.extractLsb' 20 44 ≠ 0 ↔ ¬ v.toNat < 2 ^ 20 := by
    rw [ne_eq, ← BitVec.toNat_inj, BitVec.extractLsb'_toNat, Nat.shiftRight_eq_div_pow]
    have hv := v.isLt
    have h0 : (0 : BitVec 44).toNat = 0 := rfl
    omega
  have ha := a.isLt
  have hb := b.isLt
  cases raw with
  | true => rfl
  | false =>
    simp only [modImage, Bool.false_eq_true, if_false, hx]
    generalize a.toNat = m at *
    generalize b.toNat = n at *
    by_cases h : m < 2 ^ 20 ∧ n < 2 ^ 20
    · rw [if_neg (by omega), if_pos h, BitVec.toNat_ofNat, Nat.mod_eq_of_lt (by omega)]
    · rw [if_pos (by omega), if_neg h, BitVec.toNat_ofNat, Nat.mod_eq_of_lt (by omega), Nat.zero_add]

theorem goesOn_modset {s : State} {c : Ctx} {x : ModsetA} (hc : ctxOf s x.h = some c) (hwf : WellFormed (.modset x) = true)
    (hne : c.lanes ≠ []) : GoesOn c (exec (.modset x) s) fun _ g =>
      getM g x.d.tag = modImage x.raw (srcD c.g x.a 1 c.low) (srcD c.g x.b 1 c.low) := by
  have hcl : x.d.cls = .modr := wf_cls hwf (aD x.d [.modr] 1) List.mem_cons_self rfl (by decide)
  obtain ⟨l, hl⟩ := List.exists_mem_of_ne_nil _ hne
  have hany := c.any_of_lane l hl
  have hrun (f : Group → Nat → Group) : runLanes c x.d f = f c.g c.low := by simp [runLanes, hcl, Opnd.isV, hany]
  show GoesOn c (execModset x s) _
  rw [execModset, withIssue_of hc]
  refine goesOn_free hc false _ _ ?_ ?_ fun outs => ?_
  · rw [hrun, id_setM]
  · rw [hrun, frontOf_setM]
  · rw [getM_retire, hrun, getM_setM, if_pos rfl]

/-- The team of the issuing group after an effect that is done: what the effect left, with the group retired. -/
theorem teamOf_afterDone (c : Ctx) (h : Hdr) (sw : Bool) (outs : List Outst) (s' : State) :
    teamOf (afterDone c h sw outs s') c.r.team =
      (teamOf s' c.r.team).map fun t => t.modGroup c.r.g fun g => retire c h sw (movedFront c (frontOf g)) outs none g :=
  teamOf_modGroup_same s' c.r _

theorem bndImage_toNat (a b : DWord) : (bndImage a b).toNat = a.toNat * 2 ^ 64 + b.toNat / 16 % 2 * 16 + b.toNat % 4 := by
  have ha := a.isLt
  rw [bndImage, BitVec.toNat_ofNat]
  simp only [fld, Nat.pow_zero, Nat.div_one]
  generalize a.toNat = m at *
  generalize b.toNat = n at *
  exact Nat.mod_eq_of_lt (by omega)

theorem getB_setBound (n : Nat) (x : BitVec 128) (t : Team) : getB (setBound n x t) n = if n = 0 then 0 else x := by
  unfold getB setBound
  split
  · rfl
  · exact stGet_set_same ..

theorem bflags_setBound (n : Nat) (x : BitVec 128) (t : Team) (k : Nat) (hk : k < 16) :
    (setBound n x t).bflags.getLsbD k = (t.bflags.getLsbD k && !(n != 0 && k == n)) := by
  unfold setBound
  split
  · next h => simp [h]
  · next h =>
    have h0 : (n == 0) = false := beq_false_of_ne h
    simp [hk, h0, BitVec.getLsbD_twoPow, bne, beq_eq_decide, eq_comm]

theorem goesOn_bndset {s : State} {c : Ctx} {x : ThreeDAB} (hc : ctxOf s x.h = some c) (hne : c.lanes ≠ []) :
    GoesOn c (exec (.bndset x) s) fun t _ => ∃ u, teamOf t c.r.team = some u ∧
      getB u x.d.tag = (if x.d.tag = 0 then 0 else bndImage (srcD c.g x.a 1 c.low) (srcD c.g x.b 1 c.low)) ∧
      ∀ k < 16, u.bflags.getLsbD k = (c.t.bflags.getLsbD k && !(x.d.tag != 0 && k == x.d.tag)) := by
  obtain ⟨hs, -, ht, hg, -⟩ := ctxOf_spec hc
  have hr := Ctx.team_ref hc
  obtain ⟨l, hl⟩ := List.exists_mem_of_ne_nil _ hne
  have hkeep (v : BitVec 128) (t : Team) : (setBound x.d.tag v t).r = t.r ∧ (setBound x.d.tag v t).groups = t.groups := by
    unfold setBound; split <;> exact ⟨rfl, rfl⟩
  have hteam (v : BitVec 128) : teamOf (modTeam c.s c.t.r (setBound x.d.tag v)) c.r.team = some (setBound x.d.tag v c.t) := by
    rw [hr, hs, teamOf_modTeam_same _ _ _ fun t h => by rw [(hkeep v t).1, h], ht]
    rfl
  have hgroup (v : BitVec 128) : groupOf (modTeam c.s c.t.r (setBound x.d.tag v)) c.r = some c.g := by
    rw [groupOf, ht] at hg
    rw [groupOf, hteam, Option.bind_some, groupIn, (hkeep v c.t).2]
    exact hg
  show GoesOn c (execBndset x s) _
  rw [execBndset, withIssue_of hc, if_pos (c.any_of_lane l hl)]
  exact goesOn_done c x.h false _ (tick _) c.g ((groupOf_tick ..).trans (hgroup _)) rfl
    ⟨_, (teamOf_afterDone ..).trans (congrArg (Option.map _) ((teamOf_tick ..).trans (hteam _))), getB_setBound ..,
      fun k hk => bflags_setBound _ _ _ k hk⟩

end Sys2Proof.Machine

open Sys2Proof Sys2Proof.Machine

/-- Settles O7: each move computes its source's value, SREAD the special value. -/
theorem movesAndSpecialValues : Obligations.MovesAndSpecialValues := by
  unfold Obligations.MovesAndSpecialValues
  refine ⟨⟨fun s c x hc hwf => ⟨computes_mov_b32 hc hwf, computes_mov_b64 hc hwf, goesOn_mov_b128 hc hwf⟩, fun s c x hc hwf => ?_,
    fun s c x hc hwf => ?_⟩, fun s c x hc hwf => ?_⟩
  · have h := computes_movi hc hwf
    have hval (l : Nat) : moviVal x (srcD c.g x.d (if x.wide then 2 else 1) l) =
        if !x.wide then x.imm.setWidth 64
        else if x.hi then x.imm ++ (srcD c.g x.d 2 l).extractLsb' 0 32
        else x.imm.signExtend 64 := by
      cases hw : x.wide <;> simp [moviVal, hw]
    simp only [hval] at h
    exact h
  · have h := computes_sel hc hwf
    simp only [srcW_eq] at h
    exact h
  · have h := computes_sread hc hwf
    simp only [specialVal_eq hc] at h
    exact h

/-- Settles O8: the predicates lane by lane, the modulo and bound registers for the lowest active lane. -/
theorem predicatesModuloBounds : Obligations.PredicatesModuloBounds := by
  unfold Obligations.PredicatesModuloBounds
  refine ⟨⟨fun s c x hc hwf => decides_pset hc hwf, fun s c x hc hwf => goesOn_pmovTov hc hwf, fun s c x hc hwf => goesOn_pmovFromv hc hwf⟩,
    fun s c x hc hwf hne => ?_, fun s c x hc hwf hne => ?_⟩
  · exact (goesOn_modset hc hwf hne).imp fun t g hm => (congrArg BitVec.toNat hm).trans (modImage_toNat ..)
  · refine (goesOn_bndset hc hne).imp fun t g ⟨u, hu, hb, hk⟩ => ⟨u, hu, ?_, hk⟩
    rw [hb]
    split
    · rfl
    · exact bndImage_toNat ..
end

section
/-! PROOFS. Branches and calls (spec/10_control_instructions.md R255 to R257; spec/03_on_chip_memories.md R85, R86): the targets, the frame
that a call pushes in each active lane, and the stack limits (O9). -/

set_option Elab.async false

namespace Sys2Proof.Machine

/-! Targets. -/

theorem ptrAdd_eq (p : Ptr) (z : Int) : ptrAdd p z = p.extractLsb' 56 8 ++ (p.extractLsb' 0 56 + BitVec.ofInt 56 z) := by
  apply BitVec.eq_of_toNat_eq
  have hr := (p.extractLsb' 56 8).isLt
  rw [toNat_append_add, BitVec.toNat_add, ptrAdd, mkPtr, BitVec.toNat_ofNat, ptrRid, ptrVa, BitVec.toNat_ofInt]
  generalize (p.extractLsb' 56 8).toNat = r at *
  generalize (p.extractLsb' 0 56).toNat = v at *
  have h0 := Int.emod_nonneg z (b := ((2 ^ 56 : Nat) : Int)) (by decide)
  omega

theorem relTarget_eq {n : Nat} (pc : Ptr) (off : BitVec n) :
    relTarget pc off.toInt = pc.extractLsb' 56 8 ++ (pc.extractLsb' 0 56 + 12 + 4 * off.signExtend 56) := by
  have h : BitVec.ofInt 56 (12 + 4 * off.toInt) = 12 + 4 * off.signExtend 56 := by
    rw [BitVec.ofInt_add, BitVec.ofInt_mul]
    rfl
  rw [relTarget, ptrAdd_eq, h, BitVec.add_assoc]

/-- Room for the targets is room for the targets with one priority. -/
theorem roomFor_prio {c : Ctx} {dest : Nat → Ptr} (prio : BitVec 8) (h : RoomFor c (c.lanes.map dest)) :
    RoomFor c (c.lanes.map fun l => (dest l, prio)) := by
  have hinj : Function.Injective fun p : Ptr => (p, prio) := fun a b e => congrArg Prod.fst e
  have hmap : (c.lanes.map fun l => (dest l, prio)) = (c.lanes.map dest).map fun p => (p, prio) := by rw [List.map_map]; rfl
  have hlen : (c.lanes.map fun l => (dest l, prio)).dedup.length = (c.lanes.map dest).dedup.length := by
    rw [hmap, List.dedup_map_of_injective hinj, List.length_map]
  rw [RoomFor, hlen]
  exact h

/-- The active lanes go to a target each with one priority. -/
theorem transfers_goLanes {s : State} {h : Hdr} {c : Ctx} (hc : ctxOf s h = some c) (outs : List Outst) {s' : State} {g' : Group}
    (hg : groupOf s' c.r = some g') (hf : frontOf g' = frontOf c.g) (dest : Nat → Ptr) (prio : BitVec 8)
      (room : RoomFor c (c.lanes.map dest))
    {P : State → Group → Prop} (hP : ∀ t f, P t (retire c h true f outs none g')) :
    Transfers c (.next (complete c h true (.ok s' (goLanes c prio dest) outs none))) dest (fun _ => prio) P :=
  transfers_gotoEach hc true outs none hg hf dest (fun _ => prio) (roomFor_prio prio room) hP

theorem groupOf_ctx {s : State} {h : Hdr} {c : Ctx} (hc : ctxOf s h = some c) : groupOf c.s c.r = some c.g := by
  obtain ⟨hs, -, -, hg, -⟩ := ctxOf_spec hc
  rw [hs, hg]

theorem transfers_bra {s : State} {c : Ctx} {x : BraA} (hc : ctxOf s x.h = some c)
    (room : RoomFor c (c.lanes.map fun _ => relTarget c.u.pc x.off.toInt)) :
    Transfers c (exec (.bra x) s) (fun _ => relTarget c.u.pc x.off.toInt) (fun _ => x.tprio) fun _ _ => True := by
  show Transfers c (execBra x s) _ _ _
  rw [execBra, withIssue_of hc]
  exact transfers_goLanes hc [] (groupOf_ctx hc) rfl _ _ room fun _ _ => trivial

theorem transfers_brx {s : State} {c : Ctx} {x : BrxA} (hc : ctxOf s x.h = some c) (room : RoomFor c (c.lanes.map (srcD c.g x.a 2))) :
    Transfers c (exec (.brx x) s) (srcD c.g x.a 2) (fun _ => x.tprio) fun _ _ => True := by
  show Transfers c (execBrx x s) _ _ _
  rw [execBrx, withIssue_of hc]
  exact transfers_goLanes hc [] (groupOf_ctx hc) rfl _ _ room fun _ _ => trivial

/-! The frame that a call pushes. -/

theorem getD_lset_same {α : Type} (xs : List α) (i : Nat) (y d : α) (h : i < xs.length) : (lset xs i y).getD i d = y := by
  rw [lset_eq_set]
  simp [h]

theorem getD_lset_other {α : Type} (xs : List α) (i k : Nat) (y d : α) (h : k ≠ i) : (lset xs i y).getD k d = xs.getD k d := by
  rw [lset_eq_set]
  simp [h.symm]

/-- What a call leaves in a lane: the stack pointer, the frames and the four words of the link quad. -/
abbrev callLane (d : Opnd) (g : Group) (l : Nat) : Nat × List Nat × (Fin 4 → Word) :=
  (spOf g l, g.frames.getD l [], fun i => getV g (d.vIdx + i) l)

/-- What a call's frame push needs of a lane. -/
abbrev frameLane (g : Group) (l : Nat) : Nat × List Nat × Nat := (spOf g l, g.frames.getD l [], g.frames.length)

/-- One lane's part of a call: the frame pushed and the link quad written. -/
abbrev callStep (d : Opnd) (sz : Nat) (q : BitVec 128) (g : Group) (l : Nat) : Group := setQ (pushFrame sz g l) d l q

section callStep
variable (d : Opnd) (sz : Nat) (q : BitVec 128) (g : Group)

/-- `setQ` writes vector registers alone. -/
theorem setQ_eq (l : Nat) : ∃ v, setQ g d l q = { g with v := v } := ⟨_, rfl⟩

theorem spOf_setQ (l k : Nat) : spOf (setQ g d l q) k = spOf g k := by
  obtain ⟨v, h⟩ := setQ_eq d q g l
  rw [h]
  rfl

theorem frames_setQ (l : Nat) : (setQ g d l q).frames = g.frames := by
  obtain ⟨v, h⟩ := setQ_eq d q g l
  rw [h]

theorem id_callStep (l : Nat) : (callStep d sz q g l).id = g.id := by
  obtain ⟨v, h⟩ := setQ_eq d q (pushFrame sz g l) l
  exact (congrArg Group.id h :)

theorem frontOf_callStep (l : Nat) : frontOf (callStep d sz q g l) = frontOf g := frontOf_setQ ..

theorem getV_pushFrame (l n k : Nat) : getV (pushFrame sz g l) n k = getV g n k := rfl

theorem spOf_pushFrame (l k : Nat) : spOf (pushFrame sz g l) k = if k = l then (spOf g l + sz) % 2 ^ 64 else spOf g k := by
  show (stGet (stSet g.sp l (BitVec.ofNat 64 (spOf g l + sz))) k).toNat = _
  rw [stGet_set]
  split
  · exact BitVec.toNat_ofNat ..
  · rfl

theorem callLane_callStep_same (l : Nat) (hl : l < 32) (hf : l < g.frames.length) : callLane d (callStep d sz q g l) l =
    ((spOf g l + sz) % 2 ^ 64, sz :: g.frames.getD l [], fun i : Fin 4 => BitVec.extractLsb' (32 * i) 32 q) := by
  unfold callLane callStep
  rw [spOf_setQ, frames_setQ, spOf_pushFrame, if_pos rfl]
  refine Prod.ext rfl (Prod.ext ?_ (funext fun i => ?_))
  · exact getD_lset_same _ _ _ _ hf
  · show getV (setQ _ _ _ _) _ _ = _
    rw [getV_setQ _ _ _ _ _ _ hl hl, if_pos ⟨rfl, by omega, by omega⟩, Nat.add_sub_cancel_left]

theorem frameLane_callStep_other (l k : Nat) (h : k ≠ l) : frameLane (callStep d sz q g l) k = frameLane g k := by
  unfold frameLane callStep
  rw [spOf_setQ, frames_setQ, spOf_pushFrame, if_neg h]
  refine Prod.ext rfl (Prod.ext ?_ ?_)
  · exact getD_lset_other _ _ _ _ _ h
  · exact lset_length ..

theorem callLane_callStep_other (l k : Nat) (hl : l < 32) (hk : k < 32)
    (h : k ≠ l) : callLane d (callStep d sz q g l) k = callLane d g k := by
  have hframe := frameLane_callStep_other d sz q g l k h
  simp only [frameLane, Prod.mk.injEq] at hframe
  obtain ⟨hsp, hfr, -⟩ := hframe
  refine Prod.ext hsp (Prod.ext hfr (funext fun i => ?_))
  show getV (setQ _ _ _ _) _ _ = _
  rw [getV_setQ _ _ _ _ _ _ hl hk, if_neg (fun e => h e.1), getV_pushFrame]

end callStep

/-- What a call leaves in each active lane. -/
theorem callLane_call (c : Ctx) (d : Opnd) (sz : Nat) (q : BitVec 128) (hf : ∀ l ∈ c.lanes, l < c.g.frames.length) (l : Nat)
    (hl : l ∈ c.lanes) :
    callLane d (c.lanes.foldl (callStep d sz q) c.g) l =
      ((spOf c.g l + sz) % 2 ^ 64, sz :: c.g.frames.getD l [], fun i : Fin 4 => BitVec.extractLsb' (32 * i) 32 q) := by
  refine foldl_lane_old c.lanes (lanesOf_nodup c.act) (callStep d sz q) frameLane (callLane d)
    (fun l => ((spOf c.g l + sz) % 2 ^ 64, sz :: c.g.frames.getD l [], fun i : Fin 4 => BitVec.extractLsb' (32 * i) 32 q)) c.g
    (fun g l hl ho => ?_) (fun g l k hl hk hne => frameLane_callStep_other d sz q g l k hne)
    (fun g l k hl hk hne => callLane_callStep_other d sz q g l k (c.lanes_lt l hl) (c.lanes_lt k hk) hne) l hl
  simp only [frameLane, Prod.mk.injEq] at ho
  obtain ⟨hsp, hfr, hlen⟩ := ho
  have hlt : l < g.frames.length := hlen ▸ hf l hl
  rw [callLane_callStep_same d sz q g l (c.lanes_lt l hl) hlt, hsp, hfr]

theorem linkQuad_toNat (ret : Ptr) (fs : Nat) (prio : BitVec 8) (hfs : fs < 512) :
    (linkQuad ret fs prio).toNat = ret.toNat + (fs * 256 + prio.toNat) * 2 ^ 64 := by
  have hr := ret.isLt
  have hp := prio.isLt
  have h8 : (2 : Nat) ^ 8 = 256 := by norm_num
  rw [linkQuad, h8, BitVec.toNat_ofNat, Nat.mod_eq_of_lt (by omega)]

theorem linkQuad_part {ret : Ptr} {fs : Nat} {prio : BitVec 8} (hfs : fs < 512) (k : Nat) :
    (BitVec.extractLsb' k 32 (linkQuad ret fs prio)).toNat = (ret.toNat + (fs * 256 + prio.toNat) * 2 ^ 64) / 2 ^ k % 2 ^ 32 := by
  rw [BitVec.extractLsb'_toNat, Nat.shiftRight_eq_div_pow, linkQuad_toNat ret fs prio hfs]

/-- The four words of a link quad (R257). -/
theorem linkQuad_words {ret : Ptr} {fs : Nat} {prio : BitVec 8} (hfs : fs < 512) {w0 w1 w2 w3 : Word}
    (h0 : w0 = BitVec.extractLsb' 0 32 (linkQuad ret fs prio)) (h1 : w1 = BitVec.extractLsb' 32 32 (linkQuad ret fs prio))
    (h2 : w2 = BitVec.extractLsb' 64 32 (linkQuad ret fs prio)) (h3 : w3 = BitVec.extractLsb' 96 32 (linkQuad ret fs prio)) :
    w1 ++ w0 = ret ∧ w2 = BitVec.ofNat 32 (fs * 256 + prio.toNat) ∧ w3 = 0 := by
  have hr := ret.isLt
  have hp := prio.isLt
  refine ⟨BitVec.eq_of_toNat_eq ?_, BitVec.eq_of_toNat_eq ?_, BitVec.eq_of_toNat_eq ?_⟩
  · rw [toNat_append_add, h0, h1, linkQuad_part hfs, linkQuad_part hfs]
    omega
  · rw [h2, linkQuad_part hfs, BitVec.toNat_ofNat]
    omega
  · rw [h3, linkQuad_part hfs]
    have hz : (0 : Word).toNat = 0 := rfl
    omega

theorem frames_retire (c : Ctx) (h : Hdr) (sw : Bool) (f : List Entry) (outs : List Outst) (dl : Option Nat) (g : Group) :
    (retire c h sw f outs dl g).frames = g.frames := by
  unfold retire setFront
  split <;> rfl

section callTo
variable {s : State} {h : Hdr} {c : Ctx} (hc : ctxOf s h = some c) (d : Opnd) (tprio : BitVec 8) (fs : BitVec 9) (target : Nat → Ptr)
include hc

theorem transfers_callTo (hne : c.lanes ≠ []) (hcap : 16 * fs.toNat ≤ stackCap c.g)
    (hlim : ∀ l ∈ c.lanes, spOf c.g l + 16 * fs.toNat ≤ c.g.slimit) (hframes : ∀ l ∈ c.lanes, c.g.frames.length > l)
    (hspill : ∀ l ∈ c.lanes, stackFault s c.t c.gr c.g l (max (loOf c.g l) (spOf c.g l - stackCap c.g))
      (spOf c.g l + 16 * fs.toNat - stackCap c.g) .write = none)
    (room : RoomFor c (c.lanes.map target)) :
    Transfers c (.next (complete c h true (callTo c d tprio fs.toNat target))) target (fun _ => tprio) fun _ g => ∀ l ∈ c.lanes,
      spOf g l = (spOf c.g l + 16 * fs.toNat) % 2 ^ 64 ∧ g.frames.getD l [] = 16 * fs.toNat :: c.g.frames.getD l [] ∧
      getV g (d.vIdx + 1) l ++ getV g d.vIdx l = nextPc c.u.pc ∧
      getV g (d.vIdx + 2) l = BitVec.ofNat 32 (fs.toNat * 256 + c.u.prio.toNat) ∧ getV g (d.vIdx + 3) l = 0 := by
  obtain ⟨k, hk⟩ := List.exists_mem_of_ne_nil _ hne
  obtain ⟨hs, -⟩ := ctxOf_spec hc
  have habove : (c.lanes.filter fun l => decide (c.g.slimit < spOf c.g l + 16 * fs.toNat)) = [] := by
    rw [List.filter_eq_nil_iff]
    intro l hl
    have := hlim l hl
    simp only [decide_eq_true_eq]
    omega
  have hcall : callTo c d tprio fs.toNat target = .ok (tick (putGroup c.s c.r (c.lanes.foldl
      (callStep d (16 * fs.toNat) (linkQuad (nextPc c.u.pc) fs.toNat c.u.prio)) c.g))) (goLanes c tprio target)
      (outFree c.s (keysOf d 4)) none := by
    simp only [callTo, c.any_of_lane k hk, Bool.not_true, Bool.false_eq_true, if_false, Nat.not_lt.2 hcap, habove, List.isEmpty_nil, hs]
    rw [firstFault_eq_none hspill]
  rw [hcall]
  refine transfers_goLanes hc _ 
    (g' := c.lanes.foldl (callStep d (16 * fs.toNat) (linkQuad (nextPc c.u.pc) fs.toNat c.u.prio)) c.g) ?_ ?_ _ _ room fun t f l hl => ?_
  · exact (groupOf_tick ..).trans (groupOf_put c hc _ (foldl_holds (fun g : Group => g.id = c.g.id) rfl fun g l hg => (id_callStep
        ..).trans hg))
  · exact foldl_holds (fun g : Group => frontOf g = frontOf c.g) rfl fun g l hg => (frontOf_callStep ..).trans hg
  · have hlane := callLane_call c d (16 * fs.toNat) (linkQuad (nextPc c.u.pc) fs.toNat c.u.prio) hframes l hl
    simp only [callLane, Prod.mk.injEq] at hlane
    obtain ⟨hsp, hfr, hv⟩ := hlane
    have hwords := linkQuad_words fs.isLt (congrFun hv 0) (congrFun hv 1) (congrFun hv 2) (congrFun hv 3)
    simp only [spOf_retire, getV_retire]
    exact ⟨hsp, (congrArg (·.getD l []) (frames_retire ..)).trans hfr, hwords⟩

theorem traps_callTo_cap (can : CanTrap c) (hne : c.lanes ≠ []) (hcap : stackCap c.g < 16 * fs.toNat) :
    Traps c (.next (complete c h true (callTo c d tprio fs.toNat target))) cSTKLIM 2 (lowest c.u.mask) 0 := by
  obtain ⟨k, hk⟩ := List.exists_mem_of_ne_nil _ hne
  have hcall : callTo c d tprio fs.toNat target = trapW cSTKLIM 2 := by
    simp only [callTo, c.any_of_lane k hk, Bool.not_true, Bool.false_eq_true, if_false, hcap, if_true]
  rw [hcall]
  exact traps_of_trap hc can true ⟨cSTKLIM, 2, none, 0, 0, false⟩

theorem traps_callTo_limit (can : CanTrap c) {l : Nat} (hl : l ∈ c.lanes) (hcap : 16 * fs.toNat ≤ stackCap c.g)
    (before : ∀ k ∈ c.lanes, k < l → spOf c.g k + 16 * fs.toNat ≤ c.g.slimit) (hover : c.g.slimit < spOf c.g l + 16 * fs.toNat) :
    Traps c (.next (complete c h true (callTo c d tprio fs.toNat target))) cSTKLIM 1 l 0 := by
  have hhead : (c.lanes.filter fun l => decide (c.g.slimit < spOf c.g l + 16 * fs.toNat)).head? = some l := by
    rw [List.head?_filter]
    exact find_lane hl (decide_eq_true hover) fun k hk hlt => decide_eq_false (Nat.not_lt.2 (before k hk hlt))
  have hsome : (c.lanes.filter fun l => decide (c.g.slimit < spOf c.g l + 16 * fs.toNat)).isEmpty = false := by
    cases hf : c.lanes.filter fun l => decide (c.g.slimit < spOf c.g l + 16 * fs.toNat) with
    | nil => rw [hf] at hhead; cases hhead
    | cons => rfl
  have hcall : callTo c d tprio fs.toNat target = .trap ⟨cSTKLIM, 1, some l, 0,
      maskOf (c.lanes.filter fun l => decide (c.g.slimit < spOf c.g l + 16 * fs.toNat)), false⟩ := by
    simp only [callTo, c.any_of_lane l hl, Bool.not_true, Bool.false_eq_true, if_false, Nat.not_lt.2 hcap, hsome, Bool.not_false, if_true,
      hhead]
  rw [hcall]
  exact traps_of_trap hc can true ⟨cSTKLIM, 1, some l, 0, _, false⟩

end callTo

/-- CALL and CALLX run as `callTo`. -/
theorem exec_call {s : State} {c : Ctx} {x : CallA} (hc : ctxOf s x.h = some c) :
    exec (.call x) s = .next (complete c x.h true (callTo c x.d x.tprio x.fs.toNat fun _ => relTarget c.u.pc x.off.toInt)) := by
  show execCall x s = _
  rw [execCall, withIssue_of hc]

theorem exec_callx {s : State} {c : Ctx} {x : CallxA} (hc : ctxOf s x.h = some c) :
    exec (.callx x) s = .next (complete c x.h true (callTo c x.d x.tprio x.fs.toNat (srcD c.g x.a 2))) := by
  show execCallx x s = _
  rw [execCallx, withIssue_of hc]

end Sys2Proof.Machine

open Sys2Proof Sys2Proof.Machine

/-- Settles O9: a branch is a move of lanes, a call the same after a frame pushed in each lane. -/
theorem branchesAndCalls : Obligations.BranchesAndCalls := by
  unfold Obligations.BranchesAndCalls
  refine ⟨⟨fun s c x hc _ room => ?_, fun s c x hc _ room => transfers_brx hc room, ?_⟩, ?_⟩
  · simp only [← relTarget_eq] at room ⊢
    exact transfers_bra hc room
  · rintro s c h d tprio fs i target (⟨off, rfl, rfl⟩ | ⟨a, rfl, rfl⟩) hc - hne hcap hlim hframes hspill room
    · simp only [← relTarget_eq] at room ⊢
      rw [exec_call (x := ⟨h, tprio, d, off, fs⟩) hc]
      exact transfers_callTo hc d tprio fs _ hne hcap hlim hframes hspill room
    · rw [exec_callx (x := ⟨h, tprio, d, a, fs⟩) hc]
      exact transfers_callTo hc d tprio fs _ hne hcap hlim hframes hspill room
  · rintro s c i h fs (⟨x, rfl, rfl, rfl⟩ | ⟨x, rfl, rfl, rfl⟩) hc - can hne
    · rw [exec_call hc]
      exact ⟨traps_callTo_cap hc _ _ _ _ can hne, fun l hl hcap before hover => traps_callTo_limit hc _ _ _ _ can hl hcap before hover⟩
    · rw [exec_callx hc]
      exact ⟨traps_callTo_cap hc _ _ _ _ can hne, fun l hl hcap before hover => traps_callTo_limit hc _ _ _ _ can hl hcap before hover⟩
end

section
/-! PROOFS. What the memory, pin and stack operations leave alone: a view of the state in which what they may change is blanked out. -/

set_option Elab.async false

namespace Sys2Proof.Machine

/-- The parts of a state outside memory that an operation may change: the devices' tables, the teams' and groups' contents. -/
structure Span where
  devices : Bool
  contents : Bool

/-- A group as the scheduler sees it: its frontiers and what it waits for, without its registers, stack and pins. -/
def bareGroup (g : Group) : Group :=
  { g with
    v := [], bank := { g.bank with g := [] }, stk := [], stkLo := [], pin := none, ahead := [], ords := []
    handler := g.handler.map fun h => { h with bank := { h.bank with g := [] } } }

/-- A team without its groups, buffers, pin and bounds. -/
def bareTeam (t : Team) : Team := { t with groups := [], w := [], a := [], c := [], pin := none, bounds := [], tenant := 0 }

/-- A state without what a memory access changes, and without what a span covers; with its teams and groups as they are found. -/
structure Shown where
  rest : State
  team : TeamRef → Option Team
  group : GroupRef → Option Group

/-- The view of a state. -/
def view (L : Span) (s : State) : Shown where
  rest := { s with
    mem := [], ecc := [], clearPend := [], preg := [], hot := [], scrub := [], banks := [], dcache := [], msix := [], sram := []
    lds := if L.devices then [] else s.lds
    stale := if L.devices then [] else s.stale
    hist := if L.contents then [] else s.hist
    rels := if L.contents then [] else s.rels
    teams := if L.contents then [] else s.teams }
  team r := (teamOf s r).map bareTeam
  group r := (groupOf s r).map bareGroup

/-- A state has a view. -/
def Same (L : Span) (base : Shown) (s : State) : Prop := view L s = base

variable {L : Span} {base : Shown}

/-- What changes only what a memory access changes keeps every view. -/
theorem same_keep {s : State} {a0 : List Host.Cell} {a1 : Store 33} {a2 : List (Nat × Nat)} {a3 : Store 64} {a18 : List Hot} {a19 : List
    (Nat × Scrub)} {a20 : List BankRow} {a21 : List DLine} {a26 : List (Nat × Nat)} {a28 : List (Nat × Nat × Nat × Nat × Nat)} (h : Same L
    base s) :
    Same L base { s with
      mem := a0, ecc := a1, clearPend := a2, preg := a3, hot := a18, scrub := a19, banks := a20, dcache := a21
      msix := a26, sram := a28 } := h

theorem same_pokeBytes {s : State} {pa : Nat} {bs : List Byte} (h : Same L base s) : Same L base (pokeBytes s pa bs) := h

theorem same_openLine {s : State} {n : Nat} (h : Same L base s) : Same L base (openLine s n) := by
  unfold openLine
  split
  · exact h
  · exact h

theorem same_poisonSec {s : State} {n : Nat} (h : Same L base s) : Same L base (poisonSec s n) :=
  (same_openLine h : Same L base (openLine s _))

theorem same_freshSec {s : State} {sec : Nat} {bs : List Byte} (h : Same L base s) :
    Same L base (freshSec s sec bs) := by
  unfold freshSec
  exact same_keep (same_pokeBytes h)

theorem same_setPkgReg {s : State} {n x : Nat} (h : Same L base s) :
    Same L base (setPkgReg s n x) := by
  unfold setPkgReg
  exact h

theorem same_raiseMsix {s : State} {ld vec : Nat} (h : Same L base s) :
    Same L base (raiseMsix s ld vec) := by
  unfold raiseMsix
  split
  · exact h
  · exact h

theorem same_sectorWrite {s : State} {pa : Nat} {bs : List Byte} (h : Same L base s) :
    Same L base (sectorWrite s pa bs) := by
  unfold sectorWrite
  exact same_keep (same_pokeBytes (foldl_holds (Same L base) h (fun s1 x h1 => same_openLine h1)))

theorem same_colCmd {s : State} {b : Bool} {pa : Nat} (h : Same L base s) :
    Same L base (colCmd s b pa) := by
  unfold colCmd
  exact h

theorem same_sramDrop {s : State} {kk : Nat × Nat × Nat} (h : Same L base s) :
    Same L base (sramDrop s kk) := by
  unfold sramDrop
  exact h

theorem same_dieWordOut {s : State} {d : DLine} {kk : Nat × Nat × Nat} (h : Same L base s) :
    Same L base (dieWordOut s d kk) := by
  unfold dieWordOut
  split
  · exact h
  · split
    · dsimp only
      split
      · exact same_sramDrop h
      · exact same_pokeBytes (same_sramDrop h)
    · dsimp only
      split
      · exact same_sramDrop h
      · exact same_poisonSec (same_sramDrop h)

theorem same_dieOut {s : State} {d : DLine} (h : Same L base s) :
    Same L base (dieOut s d) := by
  unfold dieOut
  split
  · exact h
  · exact foldl_holds (Same L base) h (fun s1 x h1 => same_dieWordOut h1)

theorem same_dieAccess {s : State} {line need put : Nat} (h : Same L base s) :
    Same L base (dieAccess s line need put) := by
  unfold dieAccess
  refine same_keep (same_colCmd (same_colCmd ?_))
  split
  · exact h
  · split
    · exact h
    · exact same_dieOut h

theorem same_logEvent {s : State} {kind cause detail ld addr aux : Nat} (h : Same L base s) :
    Same L base (logEvent s kind cause detail ld addr aux) := by
  unfold logEvent
  dsimp only
  split
  · exact same_raiseMsix (same_setPkgReg (same_sectorWrite (same_dieAccess h)))
  · exact same_setPkgReg h

theorem same_setScrub {s : State} {kk : Nat} {x : Scrub} (h : Same L base s) :
    Same L base (setScrub s kk x) := by
  unfold setScrub
  exact h

theorem same_corrected {s : State} {pa : Nat} (h : Same L base s) :
    Same L base (corrected s pa) := by
  unfold corrected
  dsimp only
  split
  · exact foldl_holds (Same L base) (same_setScrub (same_setPkgReg h)) (fun s1 x h1 => same_logEvent h1)
  · exact same_setScrub (same_setPkgReg h)

theorem same_logBad {s : State} {sec : Nat} (h : Same L base s) :
    Same L base (logBad s sec) := by
  unfold logBad
  exact same_logEvent (same_poisonSec h)

theorem same_readSec {s : State} {sec : Nat} (h : Same L base s) :
    Same L base (readSec s sec).2.2 := by
  unfold readSec
  split
  · exact h
  · exact same_logBad h
  · exact same_corrected (same_freshSec h)
  · split
    · exact h
    · split
      · exact h
      · split
        · exact h
        · exact same_logBad (foldl_holds (Same L base) h (fun s1 x h1 => same_sramDrop h1))

theorem same_readIn {s : State} {pa kk : Nat} (h : Same L base s) :
    Same L base (readIn s pa kk).2.2 := by
  unfold readIn
  split
  · exact same_readSec h
  · exact h

theorem same_readLines {s : State} {pa kk : Nat} (h : Same L base s) :
    Same L base (readLines s pa kk) := by
  unfold readLines
  refine foldl_holds (Same L base) ?_ ?_
  · exact h
  · intro s1 x h1
    split
    · exact same_dieAccess h1
    · exact h1

theorem same_readMem {s : State} {pa kk : Nat} (h : Same L base s) :
    Same L base (readMem s pa kk).2.2 := by
  unfold readMem
  exact foldl_holds (fun y : List Byte × RdSt × State => Same L base y.2.2) (same_readLines h) (fun x x1 h1 => same_readIn h1)

theorem same_dieMerge {s : State} {sec : Nat} {bs : List Byte} (h : Same L base s) :
    Same L base (dieMerge s sec bs) := by
  unfold dieMerge
  split
  · exact h
  · split
    · exact h
    · exact same_pokeBytes (foldl_holds (Same L base) h (fun s1 x h1 => same_sramDrop h1))

theorem same_writeIn {s : State} {pa : Nat} {bs : List Byte} (h : Same L base s) :
    Same L base (writeIn s pa bs) := by
  unfold writeIn
  split
  · split
    · exact same_freshSec (same_dieMerge (same_openLine h))
    · dsimp only
      split
      · exact same_pokeBytes (same_openLine h)
      · split
        · exact same_freshSec (same_dieMerge (same_readSec (same_openLine h)))
        · exact same_readSec (same_openLine h)
  · exact same_pokeBytes (same_openLine h)

theorem same_writeLines {s : State} {pa kk : Nat} (h : Same L base s) :
    Same L base (writeLines s pa kk) := by
  unfold writeLines
  refine foldl_holds (Same L base) ?_ ?_
  · exact h
  · intro s1 x h1
    split
    · exact same_dieAccess h1
    · exact h1

theorem same_writeMem {s : State} {pa : Nat} {bs : List Byte} (h : Same L base s) :
    Same L base (writeMem s pa bs) := by
  unfold writeMem
  exact foldl_holds (fun y : State × List Byte => Same L base y.1) (same_writeLines h) (fun x x1 h1 => same_writeIn h1)

theorem same_hwWrite {s : State} {pa : Nat} {bs : List Byte} (h : Same L base s) :
    Same L base (hwWrite s pa bs) := by
  unfold hwWrite
  exact same_writeMem h

theorem same_tableRead {s : State} {pa kk : Nat} (h : Same L base s) :
    Same L base (tableRead s pa kk) := by
  unfold tableRead
  exact same_readMem h

theorem same_walkReads {s : State} {ld : Nat} {r : Nat × Nat} {va : Nat} (h : Same L base s) :
    Same L base (walkReads s ld r va) := by
  unfold walkReads
  split
  · exact foldl_holds (Same L base) h (fun s1 x h1 => same_tableRead h1)
  · split
    · exact foldl_holds (Same L base) h (fun s1 x h1 => same_tableRead h1)
    · exact same_tableRead (foldl_holds (Same L base) h (fun s1 x h1 => same_tableRead h1))

theorem same_walkRead {s : State} {ld : Nat} {r : Nat × Nat} {va : Nat} (h : Same L base s) :
    Same L base (walkRead s ld r va) := by
  unfold walkRead
  split
  · exact h
  · dsimp only
    split
    · exact h
    · exact same_walkReads h

theorem same_modLd {s : State} {n : Nat} {f : LDev → LDev} (h : Same L base s) (hL : L.devices = true := by assumption) :
    Same L base (modLd s n f) := by
  have e : view L (modLd s n f) = view L s := by
    simp only [view, hL, if_true, modLd, teamOf, groupOf]
  exact e.trans h

theorem same_boundsRead {s : State} {ld slot : Nat} (h : Same L base s) (hL : L.devices = true := by assumption) :
    Same L base (boundsRead s ld slot) := by
  unfold boundsRead
  exact same_tableRead (same_tableRead (same_tableRead h))

theorem same_setNode {s : State} {pa st c : Nat} (h : Same L base s) (hL : L.devices = true := by assumption) :
    Same L base (setNode s pa st c) := by
  unfold setNode
  exact same_hwWrite h

theorem same_dropCached {s : State} {ld : Nat} {p : Cached → Bool} (h : Same L base s) (hL : L.devices = true := by assumption) :
    Same L base (dropCached s ld p) := by
  unfold dropCached
  exact same_modLd h

theorem same_releaseNode {s : State} {ld n : Nat} (h : Same L base s) (hL : L.devices = true := by assumption) :
    Same L base (releaseNode s ld n).1 := by
  unfold releaseNode
  exact same_setNode (same_tableRead (same_dropCached h))

theorem same_addReclaim {s : State} {ld : Nat} {ws : List Reclaim} (h : Same L base s) (hL : L.devices = true := by assumption) :
    Same L base (addReclaim s ld ws) := by
  unfold addReclaim
  exact same_modLd h

theorem same_dropNodeCount {s : State} {ld node : Nat} (h : Same L base s) (hL : L.devices = true := by assumption) :
    Same L base (dropNodeCount s ld node) := by
  unfold dropNodeCount
  dsimp only
  split
  · exact same_addReclaim (same_releaseNode (same_setNode h))
  · exact same_setNode h

theorem same_giveUpRoot {s : State} {ld gen node : Nat} (h : Same L base s) (hL : L.devices = true := by assumption) :
    Same L base (giveUpRoot s ld gen node) := by
  unfold giveUpRoot
  exact same_dropNodeCount (same_dropCached h)

theorem same_changePins {s : State} {ld gen : Nat} {f : Nat → Nat} (h : Same L base s) (hL : L.devices = true := by assumption) :
    Same L base (changePins s ld gen f) := by
  unfold changePins
  dsimp only
  split
  · exact same_modLd h
  · split
    · exact h
    · split
      · refine same_giveUpRoot ?_
        exact same_modLd h
      · exact same_modLd h

theorem same_takePin {s : State} {ld slot : Nat} (h : Same L base s) (hL : L.devices = true := by assumption) :
    Same L base (takePin s ld slot).2 := by
  unfold takePin
  dsimp only
  split
  · exact same_changePins h
  · exact h

theorem same_dropPin {s : State} {ld : Nat} {x2 : Option Pin} (h : Same L base s) (hL : L.devices = true := by assumption) :
    Same L base (dropPin s ld x2) := by
  unfold dropPin
  split
  · exact h
  · exact same_changePins h

theorem same_movePin {s : State} {ld slot : Nat} {p : Option Pin} (h : Same L base s) (hL : L.devices = true := by assumption) :
    Same L base (movePin s ld slot p).2 := by
  unfold movePin
  exact same_dropPin (same_takePin h)

/-- What keeps a team and each of its groups, but for their contents, keeps the view. -/
theorem same_modTeam {s : State} {r : TeamRef} {f : Team → Team} (h : Same L base s) (hf : ∀ t, t.r = r → bareTeam (f t) = bareTeam t)
    (hg : ∀ t, teamOf s r = some t → ∀ n, (groupIn (f t) n).map bareGroup = (groupIn t n).map bareGroup)
      (hT : L.contents = true := by assumption) :
    Same L base (modTeam s r f) := by
  have hr (t : Team) (ht : t.r = r) : (f t).r = r := (congrArg Team.r (hf t ht)).trans ht
  have hteam (q : TeamRef) : (teamOf (modTeam s r f) q).map bareTeam = (teamOf s q).map bareTeam := by
    by_cases hq : q = r
    · subst hq
      rw [teamOf_modTeam_same _ _ _ hr]
      cases ht : teamOf s q with
      | none => rfl
      | some t => exact congrArg some (hf t (beq_iff_eq.1 (List.find?_some ht :)))
    · rw [teamOf_modTeam_other _ _ _ _ hr hq]
  have hgroup (q : GroupRef) : (groupOf (modTeam s r f) q).map bareGroup = (groupOf s q).map bareGroup := by
    unfold groupOf
    by_cases hq : q.team = r
    · rw [hq, teamOf_modTeam_same _ _ _ hr]
      cases ht : teamOf s r with
      | none => rfl
      | some t => exact hg t ht q.g
    · rw [teamOf_modTeam_other _ _ _ _ hr hq]
  have e : view L (modTeam s r f) = view L s := by
    simp only [view, hT, if_true, funext hteam, funext hgroup]
    rfl
  exact e.trans h

/-- What keeps a group, but for its contents, keeps the view. -/
theorem same_modGroup {s : State} {r : GroupRef} {f : Group → Group} (h : Same L base s) (hid : ∀ g, g.id = r.g → (f g).id = r.g)
    (hf : ∀ g, groupOf s r = some g → bareGroup (f g) = bareGroup g) (hT : L.contents = true := by assumption) :
    Same L base (modGroup s r f) := by
  refine same_modTeam h (fun t _ => rfl) fun t ht n => ?_
  by_cases hn : n = r.g
  · subst hn
    rw [groupIn_modGroup_same _ _ _ hid]
    cases hg : groupIn t r.g with
    | none => rfl
    | some g => exact congrArg some (hf g (by rw [groupOf, ht]; exact hg))
  · rw [groupIn_modGroup_other _ _ _ _ hid hn]

theorem same_dropTags {s : State} {loc n : Nat} (h : Same L base s) (hT : L.contents = true := by assumption) :
    Same L base (dropTags s loc n) := by
  have e : view L (dropTags s loc n) = view L s := by simp only [view, hT, if_true, dropTags, teamOf, groupOf]
  exact e.trans h

theorem same_endTags {s : State} {loc n : Nat} (h : Same L base s) (hT : L.contents = true := by assumption) :
    Same L base (endTags s loc n) := by
  have e : view L (endTags s loc n) = view L s := by simp only [view, hT, if_true, endTags, dropTags, teamOf, groupOf]
  exact e.trans h

theorem same_sramRead {s : State} {kk : Nat × Nat × Nat} {core : Nat} {put : State → Nat → State} (ha : Same L base s) (hb : ∀ y0 y1,
    Same L base y0 → Same L base (put y0 y1)) :
    OptionAll (Same L base) (sramRead s kk core put) := by
  unfold sramRead
  split
  · exact OptionAll.of_some ha
  · split
    · exact trivial
    · split
      · exact OptionAll.of_some (hb _ _ (same_sramDrop ha))
      · exact OptionAll.of_some (same_setPkgReg (hb _ _ (same_sramDrop ha)))

theorem bareGroup_setV (g : Group) (n l : Nat) (x : Word) : bareGroup (setV g n l x) = bareGroup g := rfl

theorem same_sramPoke {s : State} {kk : Nat × Nat × Nat} {x : Nat} (h : Same L base s) (hT : L.contents = true := by assumption) :
    Same L base (sramPoke s kk x) := by
  unfold sramPoke
  split
  · split
    · exact h
    · refine same_modGroup h (fun g hg => ?_) fun g _ => ?_
      · dsimp only
        split <;> exact hg
      · dsimp only
        split <;> rfl
  · split
    · split
      · exact h
      · exact same_modGroup h (fun g hg => hg) fun g _ => rfl
    · split
      · split
        · exact h
        · split
          · exact h
          · exact same_modGroup h (fun g hg => hg) fun g _ => rfl
      · split
        · exact h
        · split
          · exact h
          · refine same_modTeam h (fun t _ => ?_) fun t _ n => ?_
            · unfold setBuf
              split <;> rfl
            · unfold setBuf
              split <;> rfl

theorem same_readWords {s : State} {core : Nat} {ks : List SramKey} (h : Same L base s) (hT : L.contents = true := by assumption) :
    OptionAll (Same L base) (readWords s core ks) := by
  unfold readWords
  exact foldl_holds (OptionAll (Same L base)) (OptionAll.of_some h)
    (fun x x1 h1 => OptionAll.bind (Same L base) h1 (fun s1 h2 => same_sramRead h2 (fun s2 x2 h3 => same_sramPoke h3)))

theorem same_freshWord {ps : List (Nat × Nat)} {r : GroupRef} {s : State} {p : Nat × Nat × SramKey} (h : Same L base s)
    (hT : L.contents = true := by assumption) :
    Same L base (freshWord ps r s p) := by
  unfold freshWord
  split
  · exact h
  · split
    · exact same_sramDrop h
    · refine same_modGroup (same_sramDrop h) (fun g hg => ?_) fun g _ => ?_
      · dsimp only
        split <;> split <;> exact hg
      · dsimp only
        split <;> split <;> rfl

theorem same_freshRegs {s : State} {r : GroupRef} {ps : List (Nat × Nat)} (h : Same L base s) (hT : L.contents = true := by assumption) :
    Same L base (freshRegs s r ps) := by
  unfold freshRegs
  split
  · exact h
  · split
    · exact foldl_holds (Same L base) h (fun s1 x h1 => same_freshWord h1)
    · exact h

theorem same_touchStack {s : State} {r : GroupRef} {key kk : Nat} (h : Same L base s) (hT : L.contents = true := by assumption) :
    OptionAll (Same L base) (touchStack s r key kk) := by
  unfold touchStack
  split
  · exact OptionAll.of_some h
  · split
    · exact OptionAll.of_some h
    · exact same_readWords h

theorem same_spillLane {s : State} {r : GroupRef} {lane : Nat} (h : Same L base s) (hT : L.contents = true := by assumption) :
    Same L base (spillLane s r lane) := by
  unfold spillLane
  split
  · split
    split
    · refine same_modGroup ?_ (fun g hg => hg) fun g _ => rfl
      refine foldl_holds (Same L base) ?_ ?_
      · exact h
      · intro s1 x h1
        split
        · exact h1
        · dsimp only
          split
          · split
            · exact foldl_holds (Same L base) (same_endTags (same_writeMem (same_walkRead h1))) (fun s2 x1 h2 => same_poisonSec h2)
            · exact same_endTags (same_writeMem (same_walkRead h1))
          · split
            · refine foldl_holds (Same L base) ?_ ?_
              · refine same_endTags (same_writeMem (same_walkRead ?_))
                rename_i e _
                exact via (OptionAll (Same L base)) e (same_touchStack h1)
              · exact fun s2 x1 h2 => same_poisonSec h2
            · refine same_endTags (same_writeMem (same_walkRead ?_))
              rename_i e _
              exact via (OptionAll (Same L base)) e (same_touchStack h1)
    · exact h
  · exact h

theorem same_fillLane {s : State} {t : Team} {gr : Grid} {g : Group} {l : Nat} (h : Same L base s)
    (hT : L.contents = true := by assumption) :
    Same L base (fillLane s t gr g l).1 := by
  obtain ⟨fillRange', e_fillRange⟩ : ∃ f, f = @fillRange := ⟨_, rfl⟩
  obtain ⟨stackPa', e_stackPa⟩ : ∃ f, f = @stackPa := ⟨_, rfl⟩
  apply unfold_head (fun f => Same L base (f s t gr g l).1) (x := @fillLane)
  · delta fillLane
    rfl
  · rw [← e_fillRange, ← e_stackPa]
    refine foldl_holds (fun y : State × Group × RdSt × Nat => Same L base y.1) ?_ ?_
    · exact h
    · intro x x1 h1
      split
      · exact h1
      · exact same_readMem (same_walkRead h1)

theorem bareGroup_fillLane (s : State) (t : Team) (gr : Grid) (g : Group)
    (l : Nat) : bareGroup (fillLane s t gr g l).2.1 = bareGroup g := by
  obtain ⟨fillRange', e_fillRange⟩ : ∃ f, f = @fillRange := ⟨_, rfl⟩
  obtain ⟨stackPa', e_stackPa⟩ : ∃ f, f = @stackPa := ⟨_, rfl⟩
  apply unfold_head (fun f => bareGroup (f s t gr g l).2.1 = bareGroup g) (x := @fillLane)
  · delta fillLane
    rfl
  · rw [← e_fillRange, ← e_stackPa]
    refine foldl_holds (fun y : State × Group × RdSt × Nat => bareGroup y.2.1 = bareGroup g) rfl fun x x1 h1 => ?_
    split
    · exact h1
    · exact h1

/-- The group that a filled lane is put into is, but for its contents, the one that is there. -/
theorem same_putFilled {s : State} {r : GroupRef} {t : Team} {gr : Grid} {g : Group} {l : Nat} (h : Same L base s)
    (hg : groupOf s r = some g)
    (hT : L.contents = true := by assumption) : Same L base (modGroup (fillLane s t gr g l).1 r fun _ => (fillLane s t gr g l).2.1) := by
  have hbare := bareGroup_fillLane s t gr g l
  have hq := same_fillLane (t := t) (gr := gr) (g := g) (l := l) h
  have hsame : (groupOf (fillLane s t gr g l).1 r).map bareGroup = some (bareGroup g) := by
    have e := congrFun (congrArg Shown.group (hq.trans h.symm : view L _ = view L s)) r
    exact e.trans (congrArg (Option.map bareGroup) hg)
  refine same_modGroup hq (fun _ _ => ?_) fun x hx => ?_
  · have hid : (bareGroup (fillLane s t gr g l).2.1).id = (bareGroup g).id := by rw [hbare]
    have hr : g.id = r.g := groupOf_id _ _ _ hg
    exact hid.trans hr
  · rw [hx] at hsame
    exact hbare.trans (Option.some.inj hsame).symm

theorem same_drainStacks {s : State} {t : TeamRef} (h : Same L base s) (hT : L.contents = true := by assumption) :
    Same L base (drainStacks s t) := by
  unfold drainStacks
  split
  · exact h
  · refine foldl_holds (Same L base) h fun s1 x h1 => ?_
    split
    · exact h1
    · refine foldl_holds (Same L base) h1 fun s2 x1 h2 => ?_
      dsimp only
      split
      · next hg _ =>
        split
        · split
          · rw [groupOf_id _ _ _ hg]
            exact same_putFilled (same_spillLane h2) hg
          · exact same_spillLane h2
        · exact same_spillLane h2
      · exact same_spillLane h2

end Sys2Proof.Machine
end

section
/-! PROOFS. What a group's frontier keeps while barriers and calls that others wait at are settled (spec/06_execution_model.md R155,
  R167): an
entry that waits for something else stays, a ready one too, and no lane comes in. -/

set_option Elab.async false

namespace Sys2Proof.Machine

/-- Does an entry wait at a team or gang barrier, or for a system call: what `settle` may end. -/
def synced (e : Entry) : Bool := e.waits fun w => w.isSys || w.isTbar || w.isGbar

/-- A frontier while others are woken in it. -/
structure FrontStep (f f' : List Entry) : Prop where
  keeps : ∀ e ∈ f, e.st = .ready →
    ∃ e' ∈ f', e'.st = e.st ∧ e'.pc = e.pc ∧ e'.prio = e.prio ∧ ∀ l, e.mask.getLsbD l = true → e'.mask.getLsbD l = true
  stays : ∀ e ∈ f, e.st ≠ .ready → synced e = false → e ∈ f'
  lanes : ∀ e' ∈ f', ∀ l, e'.mask.getLsbD l = true → ∃ e ∈ f, e.mask.getLsbD l = true
  same : (∀ e ∈ f, synced e = false) → f' = f

theorem FrontStep.refl (f : List Entry) : FrontStep f f :=
  ⟨fun e he _ => ⟨e, he, rfl, rfl, rfl, fun _ h => h⟩, fun _ h _ _ => h, fun e he _ hl => ⟨e, he, hl⟩, fun _ => rfl⟩

theorem FrontStep.trans {f g h : List Entry} (a : FrontStep f g) (b : FrontStep g h) : FrontStep f h where
  keeps e he hst := by
    obtain ⟨e₁, he₁, hst₁, hpc₁, hprio₁, hmask₁⟩ := a.keeps e he hst
    obtain ⟨e₂, he₂, hst₂, hpc₂, hprio₂, hmask₂⟩ := b.keeps e₁ he₁ (hst₁.trans hst)
    exact ⟨e₂, he₂, hst₂.trans hst₁, hpc₂.trans hpc₁, hprio₂.trans hprio₁, fun l hl => hmask₂ l (hmask₁ l hl)⟩
  stays e he hst hs := b.stays e (a.stays e he hst hs) hst hs
  lanes e he l hl := by
    obtain ⟨e₁, he₁, hl₁⟩ := b.lanes e he l hl
    exact a.lanes e₁ he₁ l hl₁
  same hs := by
    have hg := a.same hs
    exact (b.same (by rw [hg]; exact hs)).trans hg

theorem FrontStep.standsAt {f f' : List Entry} (hk : FrontStep f f') {l : Nat} {pc : Ptr} {prio : BitVec 8} (h : StandsAt f l pc prio) :
    StandsAt f' l pc prio := by
  obtain ⟨e, he, hst, hpc, hprio, hmask⟩ := h
  obtain ⟨e', he', hst', hpc', hprio', hmask'⟩ := hk.keeps e he hst
  exact ⟨e', he', hst'.trans hst, hpc'.trans hpc, hprio'.trans hprio, hmask' l hmask⟩

theorem mem_addReady_of_not_ready {f : List Entry} {e x : Entry} (h : e ∈ f) (hst : e.st ≠ .ready) : e ∈ addReady f x := by
  induction f with
  | nil => cases h
  | cons a r ih =>
    unfold addReady
    split
    · next ha =>
      rcases List.mem_cons.1 h with rfl | h
      · exact absurd ha.1 hst
      · exact List.mem_cons_of_mem _ h
    · rcases List.mem_cons.1 h with rfl | h
      · exact List.mem_cons_self
      · exact List.mem_cons_of_mem _ (ih h)

theorem lanes_addReady {f : List Entry} {x e : Entry} (h : e ∈ addReady f x) {l : Nat} (hl : e.mask.getLsbD l = true) :
    x.mask.getLsbD l = true ∨ ∃ e' ∈ f, e'.mask.getLsbD l = true := by
  induction f with
  | nil =>
    rw [addReady, List.mem_singleton] at h
    exact .inl (h ▸ hl)
  | cons a r ih =>
    unfold addReady at h
    split at h
    · rcases List.mem_cons.1 h with rfl | h
      · simp only [BitVec.getLsbD_or, Bool.or_eq_true] at hl
        exact hl.symm.imp id fun ha => ⟨a, List.mem_cons_self, ha⟩
      · exact .inr ⟨e, List.mem_cons_of_mem _ h, hl⟩
    · rcases List.mem_cons.1 h with rfl | h
      · exact .inr ⟨e, List.mem_cons_self, hl⟩
      · exact (ih h).imp id fun ⟨e', he', hl'⟩ => ⟨e', List.mem_cons_of_mem _ he', hl'⟩

/-- Ready entries put in one by one. -/
abbrev addAll (es : List Entry) (f : List Entry) : List Entry :=
  es.foldl (fun a e => addReady a ⟨nextPc e.pc, e.prio, e.mask, 0, .ready⟩) f

theorem keeps_addAll (es f : List Entry) : Keeps f (addAll es f) := by
  induction es generalizing f with
  | nil => exact Keeps.refl f
  | cons a r ih => exact (keeps_addReady f _).trans (ih _)

theorem mem_addAll_of_not_ready (es : List Entry) {f : List Entry} {e : Entry} (h : e ∈ f) (hst : e.st ≠ .ready) : e ∈ addAll es f := by
  induction es generalizing f with
  | nil => exact h
  | cons a r ih => exact ih (mem_addReady_of_not_ready h hst)

theorem lanes_addAll {es f : List Entry} {e : Entry} (h : e ∈ addAll es f) {l : Nat} (hl : e.mask.getLsbD l = true) :
    ∃ e' ∈ es ++ f, e'.mask.getLsbD l = true := by
  induction es generalizing f with
  | nil => exact ⟨e, h, hl⟩
  | cons a r ih =>
    obtain ⟨e', he', hl'⟩ := ih h
    rcases List.mem_append.1 he' with he' | he'
    · exact ⟨e', by simp [he'], hl'⟩
    · rcases lanes_addReady he' hl' with ha | ⟨e'', he'', hl''⟩
      · exact ⟨a, by simp, ha⟩
      · exact ⟨e'', by simp [he''], hl''⟩

theorem frontStep_wakeList {p : Entry → Bool} (hp : ∀ e, p e = true → synced e = true) (f : List Entry) : FrontStep f (wakeList p f) where
  keeps e he hst := by
    have hn : p e = false := by
      by_contra hc
      have := hp e (by simpa using hc)
      simp [synced, Entry.waits, hst] at this
    exact keeps_addAll _ _ e (by simp [he, hn])
  stays e he hst hs := by
    have hn : p e = false := by
      by_contra hc
      exact absurd (hp e (by simpa using hc)) (by simp [hs])
    exact mem_addAll_of_not_ready _ (by simp [he, hn]) hst
  lanes e he l hl := by
    obtain ⟨e', he', hl'⟩ := lanes_addAll he hl
    rcases List.mem_append.1 he' with h | h
    · exact ⟨e', (List.mem_filter.1 h).1, hl'⟩
    · exact ⟨e', (List.mem_filter.1 h).1, hl'⟩
  same hs := by
    have hn (e : Entry) (he : e ∈ f) : p e = false := by
      by_contra hc
      exact absurd (hp e (by simpa using hc)) (by simp [hs e he])
    have h0 : f.filter p = [] := List.filter_eq_nil_iff.2 fun e he => by simp [hn e he]
    have h1 : (f.filter fun e => !p e) = f := List.filter_eq_self.2 fun e he => by simp [hn e he]
    rw [wakeList, h0, h1]
    rfl

/-- An entry whose wait is over while a trap is held (`meetList`). -/
def metEntry (p : Entry → Bool) (e : Entry) : Entry := match e.st with
  | .waiting _ since => if p e then { e with st := .waiting .met since } else e
  | _ => e

theorem meetList_eq (p : Entry → Bool) (f : List Entry) : meetList p f = f.map (metEntry p) := rfl

theorem metEntry_of_not {p : Entry → Bool} {e : Entry} (h : p e = false) : metEntry p e = e := by
  unfold metEntry
  split
  · rw [if_neg (by simp [h])]
  · rfl

theorem mask_metEntry (p : Entry → Bool) (e : Entry) : (metEntry p e).mask = e.mask := by
  unfold metEntry
  split
  · split <;> rfl
  · rfl

theorem frontStep_meetList {p : Entry → Bool} (hp : ∀ e, p e = true → synced e = true) (f : List Entry) : FrontStep f (meetList p f) := by
  have hnot (e : Entry) (hs : synced e = false) : metEntry p e = e := by
    refine metEntry_of_not ?_
    by_contra hc
    exact absurd (hp e (by simpa using hc)) (by simp [hs])
  rw [meetList_eq]
  refine ⟨fun e he hst => ⟨e, ?_, rfl, rfl, rfl, fun _ h => h⟩, fun e he _ hs => ?_, fun e he l hl => ?_, fun hs => ?_⟩
  · exact List.mem_map.2 ⟨e, he, hnot e (by simp [synced, Entry.waits, hst])⟩
  · exact List.mem_map.2 ⟨e, he, hnot e hs⟩
  · obtain ⟨e', he', rfl⟩ := List.mem_map.1 he
    exact ⟨e', he', mask_metEntry p e' ▸ hl⟩
  · exact (List.map_congr_left fun e he => hnot e (hs e he)).trans (List.map_id f)

/-- A group while others are woken: its frontier in force steps, its kind stays. -/
structure Woke (g g' : Group) : Prop where
  front : FrontStep (frontOf g) (frontOf g')
  handler : g'.handler.isSome = g.handler.isSome
  pend : g'.pendTrap = g.pendTrap

theorem Woke.refl (g : Group) : Woke g g := ⟨.refl _, rfl, rfl⟩
theorem Woke.trans {a b c : Group} (h : Woke a b) (k : Woke b c) : Woke a c :=
  ⟨h.front.trans k.front, k.handler.trans h.handler, k.pend.trans h.pend⟩

theorem frontOf_bareGroup (g : Group) : frontOf (bareGroup g) = frontOf g := by
  unfold frontOf bareGroup
  cases g.handler <;> rfl

theorem woke_of_bare {g g' : Group} (h : bareGroup g' = bareGroup g) : Woke g g' where
  front := by rw [← frontOf_bareGroup g', h, frontOf_bareGroup]; exact .refl _
  handler := by
    have e : (bareGroup g').handler.isSome = (bareGroup g).handler.isSome := by rw [h]
    simpa [bareGroup] using e
  pend := by
    have e : (bareGroup g').pendTrap = (bareGroup g).pendTrap := by rw [h]
    exact e

theorem woke_wakeIf {p : Entry → Bool} (hp : ∀ e, p e = true → synced e = true) (g : Group) : Woke g (wakeIf p g) where
  front := by
    unfold frontOf wakeIf
    cases hh : g.handler with
    | some h => exact frontStep_wakeList hp _
    | none =>
      simp only [Option.map_none, Option.isSome_none, Bool.false_or]
      split
      · exact frontStep_meetList hp _
      · exact frontStep_wakeList hp _
  handler := by simp [wakeIf]
  pend := rfl

theorem bareGroup_addPast (m : LaneMask) (ids : List Nat) (g : Group) : bareGroup (addPast m ids g) = bareGroup g := by
  unfold addPast
  split
  · rfl
  · exact foldl_holds (fun x => bareGroup x = bareGroup g) rfl fun x l hx => hx

theorem woke_sync {q : Wait → Bool} (hq : ∀ w, q w = true → (w.isSys || w.isTbar || w.isGbar) = true) (ids : List Nat) (g : Group) :
    Woke g (joinPast ids (wakeIf (fun e => e.waits q) g)) := by
  refine (woke_wakeIf (fun e he => ?_) g).trans (woke_of_bare (bareGroup_addPast _ _ _))
  unfold synced Entry.waits at *
  split at he
  · next hst => simpa [hst] using hq _ he
  · cases he


/-! The state while barriers and calls are settled. -/

/-- No entry starts to issue, and the group named stays, woken at most. -/
structure WokeIn (r : GroupRef) (s s' : State) : Prop where
  issuing : s'.issuing = s.issuing
  group : ∀ g, groupOf s r = some g → ∃ g', groupOf s' r = some g' ∧ Woke g g'

theorem WokeIn.refl (r : GroupRef) (s : State) : WokeIn r s s := ⟨rfl, fun g hg => ⟨g, hg, .refl g⟩⟩

theorem WokeIn.trans {r : GroupRef} {s t u : State} (a : WokeIn r s t) (b : WokeIn r t u) : WokeIn r s u := by
  refine ⟨b.issuing.trans a.issuing, fun g hg => ?_⟩
  obtain ⟨g₁, hg₁, hw₁⟩ := a.group g hg
  obtain ⟨g₂, hg₂, hw₂⟩ := b.group g₁ hg₁
  exact ⟨g₂, hg₂, hw₁.trans hw₂⟩

/-- The widest view. -/
abbrev wide : Span := ⟨true, true⟩

theorem wokeIn_of_same {s s' : State} (r : GroupRef) (h : Same wide (view wide s) s') : WokeIn r s s' := by
  have hi : (view wide s').rest.issuing = (view wide s).rest.issuing := by rw [h]
  have hg := congrFun (congrArg Shown.group h) r
  refine ⟨hi, fun g hs => ?_⟩
  have e : (groupOf s' r).map bareGroup = some (bareGroup g) := hg.trans (congrArg (Option.map bareGroup) hs)
  obtain ⟨g', hg', hb⟩ := Option.map_eq_some_iff.1 e
  exact ⟨g', hg', woke_of_bare hb⟩

theorem wokeIn_modTeam (q : GroupRef) {s : State} {r : TeamRef} {f : Team → Team} (hr : ∀ t, t.r = r → (f t).r = r)
    (hf : ∀ t n g, groupIn t n = some g → ∃ g', groupIn (f t) n = some g' ∧ Woke g g') : WokeIn q s (modTeam s r f) := by
  refine ⟨rfl, fun g hg => ?_⟩
  unfold groupOf at hg ⊢
  by_cases hq : q.team = r
  · subst hq
    rw [teamOf_modTeam_same _ _ _ hr]
    obtain ⟨t, ht, hg⟩ := Option.bind_eq_some_iff.1 hg
    rw [ht]
    exact hf t q.g g hg
  · rw [teamOf_modTeam_other _ _ _ _ hr hq]
    exact ⟨g, hg, .refl g⟩

theorem wokeIn_modGroup (q : GroupRef) {s : State} {r : GroupRef} {f : Group → Group} (hid : ∀ g, g.id = r.g → (f g).id = r.g)
    (hf : ∀ g, Woke g (f g)) : WokeIn q s (modGroup s r f) := by
  refine wokeIn_modTeam q (fun _ h => h) fun t n g hg => ?_
  by_cases hn : n = r.g
  · subst hn
    rw [groupIn_modGroup_same _ _ _ hid, hg]
    exact ⟨f g, rfl, hf g⟩
  · rw [groupIn_modGroup_other _ _ _ _ hid hn]
    exact ⟨g, hg, .refl g⟩

/-- A function of a team's groups that keeps their numbers. -/
theorem groupIn_map {t : Team} {F : Group → Group} (hid : ∀ g, (F g).id = g.id) {n : Nat} {g : Group} (hg : groupIn t n = some g) :
    groupIn { t with groups := t.groups.map F } n = some (F g) := by
  have h : (t.groups.map F).find? (fun x => x.id == n) = (t.groups.find? fun x => x.id == n).map F := by
    rw [List.find?_map]
    congr 1
    exact List.find?_congr fun x _ => by simp [hid]
  exact h.trans (congrArg (Option.map F) hg)

theorem id_wakeIf (p : Entry → Bool) (g : Group) : (wakeIf p g).id = g.id := rfl

theorem id_joinPast (ids : List Nat) (g : Group) : (joinPast ids g).id = g.id := by
  have h : (bareGroup (joinPast ids g)).id = (bareGroup g).id := by rw [joinPast, bareGroup_addPast]
  exact h

/-- A team whose groups are woken from one kind of wait. -/
theorem wokeIn_sync {q : Wait → Bool} (hq : ∀ w, q w = true → (w.isSys || w.isTbar || w.isGbar) = true) (ids : List Nat) (u : GroupRef)
    (s : State)
    (r : TeamRef) : WokeIn u s (modTeam s r fun t =>
      { t with groups := t.groups.map fun g => joinPast ids (wakeIf (fun e => e.waits q) g) }) :=
  wokeIn_modTeam u (fun _ h => h) fun _ _ g hg =>
    ⟨_, groupIn_map (fun g => by rw [id_joinPast, id_wakeIf]) hg, woke_sync hq ids g⟩

theorem wokeIn_settleSys (u : GroupRef) (s : State) (r : TeamRef) : WokeIn u s (settleSys s r) := by
  unfold settleSys
  split
  · exact .refl u s
  · split
    · split
      · exact wokeIn_modTeam u (fun _ h => h) fun _ _ g hg => ⟨g, hg, .refl g⟩
      · exact wokeIn_sync (fun w h => by simp [h]) _ u s r
    · exact .refl u s

theorem wokeIn_settleGbar (u : GroupRef) (s : State) (k : GangRef) : WokeIn u s (settleGbar s k) := by
  unfold settleGbar
  dsimp only
  split
  · exact foldl_holds (WokeIn u s) (.refl u s) fun s' t h => h.trans (wokeIn_sync (fun w h => by simp [h]) _ u s' t.r)
  · exact .refl u s

theorem same_refreshTeam {s : State} {r : TeamRef} {slot : Nat} {p : Group → Bool} {base : Shown} (h : Same wide base s) :
    OptionAll (Same wide base) (refreshTeam s r slot p) := by
  have hL : wide.devices = true := rfl
  have hT : wide.contents = true := rfl
  unfold refreshTeam
  split
  · exact OptionAll.of_some h
  · split
    · exact trivial
    · refine OptionAll.of_some (same_modTeam (same_boundsRead (foldl_holds (Same wide base) ?_ fun s' x h' => ?_))
        (fun _ _ => rfl) fun _ _ _ => rfl)
      · exact same_modTeam (same_movePin (same_drainStacks h)) (fun _ _ => rfl) fun _ _ _ => rfl
      · refine same_modGroup (same_movePin h') (fun g hg => ?_) fun g _ => ?_
        · rw [id_joinPast]; exact hg
        · rw [joinPast, bareGroup_addPast]; rfl

theorem wokeIn_settleTbar (u : GroupRef) (s : State) (r : TeamRef) : WokeIn u s (settleTbar s r) := by
  unfold settleTbar
  split
  · exact .refl u s
  · split
    · dsimp only
      refine WokeIn.trans ?_ (wokeIn_sync (fun w h => by simp [h]) _ u _ r)
      split
      · split
        · next e => exact wokeIn_of_same u (via (OptionAll (Same wide (view wide s))) e (same_refreshTeam rfl))
        · exact wokeIn_modTeam u (fun _ h => h) fun _ _ g hg => ⟨_, groupIn_map (F := fun g => { g with emptySlot := !g.ended })
            (fun _ => rfl) hg, ⟨FrontStep.refl _, rfl, rfl⟩⟩
      · exact .refl u s
    · exact .refl u s

theorem wokeIn_settle (u : GroupRef) (s : State) (r : TeamRef) : WokeIn u s (settle s r) :=
  ((wokeIn_settleTbar u s r).trans (wokeIn_settleSys u _ r)).trans (wokeIn_settleGbar u _ _)


/-! An entry that begins to wait. -/

/-- A wait that only other lanes of the group can end: at an RCV or a collective. -/
def Wait.amongLanes : Wait → Bool
  | .rcv => true
  | .coll _ _ _ _ => true
  | _ => false

/-- A group with an entry that something else can move is not stuck. -/
theorem stuck_of_free {g : Group} {e : Entry} (he : e ∈ frontOf g) (hw : e.waits Wait.amongLanes = false) : stuck g = false := by
  have hall : (frontOf g).all (fun e => e.waits Wait.amongLanes) = false := List.all_eq_false.2 ⟨e, he, by simp [hw]⟩
  have hs : stuck g = (!(frontOf g).isEmpty && (frontOf g).all (fun e => e.waits Wait.amongLanes) && !rcvReady (frontOf g) &&
      !(frontOf g).any (collReady g (frontOf g))) := rfl
  rw [hs, hall, Bool.and_false, Bool.false_and, Bool.false_and]

/-- The entry that an instruction leaves waiting. -/
abbrev waiter (c : Ctx) (w : Wait) : Entry := ⟨c.u.pc, c.u.prio, c.u.mask, 0, .waiting w c.s.cycle⟩

/-- The state after an instruction that waits, before barriers are settled. -/
abbrev afterWait (c : Ctx) (h : Hdr) (sw : Bool) (w : Wait) (outs : List Outst) (dl : Option Nat) (s' : State) (g' : Group) : State :=
  { (modGroup s' c.r (retire c h sw (others c.u (frontOf g') ++ [waiter c w]) outs dl)) with issuing := none }

section wait
variable {c : Ctx} (h : Hdr) (sw : Bool) (w : Wait) (outs : List Outst) (dl : Option Nat) {s' : State} {g' : Group}

theorem complete_wait (hg : groupOf s' c.r = some g') (room : (others c.u (frontOf g')).length < depthOf c.g) :
    complete c h sw (.ok s' (.wait w) outs dl) = stuckTest (settle (afterWait c h sw w outs dl s' g') c.r.team) c.r := by
  have hlen : ¬ (others c.u (frontOf g') ++ [waiter c w]).length > depthOf c.g := by
    rw [List.length_append, List.length_singleton]
    omega
  simp only [complete, hg, Option.getD_some, advance]
  rw [if_neg hlen]

theorem groupOf_afterWait (hg : groupOf s' c.r = some g') : groupOf (afterWait c h sw w outs dl s' g') c.r =
    some (retire c h sw (others c.u (frontOf g') ++ [waiter c w]) outs dl g') := by
  show groupOf (modGroup s' c.r _) c.r = _
  rw [groupOf_modGroup_same _ _ _ fun g hid => by rw [id_retire]; exact hid, hg]
  rfl

/-- What holds once barriers are settled, where the group is not stuck. -/
theorem exists_complete_wait (hg : groupOf s' c.r = some g') (room : (others c.u (frontOf g')).length < depthOf c.g)
    (hstuck : ∀ g, FrontStep (others c.u (frontOf g') ++ [waiter c w]) (frontOf g) → stuck g = false) :
    ∃ t g, EndsIn c (.next (complete c h sw (.ok s' (.wait w) outs dl))) t g ∧
      FrontStep (others c.u (frontOf g') ++ [waiter c w]) (frontOf g) := by
  obtain ⟨hi, hgroup⟩ := wokeIn_settle c.r (afterWait c h sw w outs dl s' g') c.r.team
  obtain ⟨g, hg2, hwoke⟩ := hgroup _ (groupOf_afterWait h sw w outs dl hg)
  have hstep := hwoke.front
  rw [frontOf_retire] at hstep
  have htest : stuckTest (settle (afterWait c h sw w outs dl s' g') c.r.team) c.r = settle (afterWait c h sw w outs dl s' g') c.r.team := by
    unfold stuckTest
    rw [hg2]
    simp only [hstuck g hstep, Bool.false_and, Bool.false_eq_true, if_false]
  refine ⟨_, g, ⟨rfl, ?_, ?_⟩, hstep⟩
  · rw [complete_wait h sw w outs dl hg room, htest, hi]
  · rw [complete_wait h sw w outs dl hg room, htest, hg2]

/-- A wait for something that neither a barrier nor a call ends: the entry stands waiting. -/
theorem waits_of_wait (hg : groupOf s' c.r = some g') (hf : frontOf g' = frontOf c.g)
    (room : (others c.u (frontOf c.g)).length < depthOf c.g)
    (hsync : (w.isSys || w.isTbar || w.isGbar) = false) (hfree : w.amongLanes = false) :
    Waits c (.next (complete c h sw (.ok s' (.wait w) outs dl))) w := by
  have hmem (g : Group) (hk : FrontStep (others c.u (frontOf g') ++ [waiter c w]) (frontOf g)) : waiter c w ∈ frontOf g :=
    hk.stays _ (by simp) (by simp) hsync
  obtain ⟨t, g, he, hk⟩ := exists_complete_wait h sw w outs dl hg (hf ▸ room) fun g hk => stuck_of_free (hmem g hk) hfree
  exact ⟨t, g, he, hmem g hk⟩

end wait

end Sys2Proof.Machine
end

section
/-! PROOFS. EXIT, RCV, YIELD, SLEEP and NOP (spec/10_control_instructions.md R259 to R262; spec/06_execution_model.md R164): O11. -/

set_option Elab.async false

namespace Sys2Proof.Machine

/-- The state after an effect whose lanes move to PC + 12, with a delay of its own. -/
abbrev afterNext (c : Ctx) (h : Hdr) (sw : Bool) (outs : List Outst) (dl : Option Nat) (s' : State) : State :=
  { (modGroup s' c.r fun g => retire c h sw (movedFront c (frontOf g)) outs dl g) with issuing := none }

theorem goesOn_next (c : Ctx) (h : Hdr) (sw : Bool) (outs : List Outst) (dl : Option Nat) {s' : State} {g' : Group}
    (hg : groupOf s' c.r = some g') (hf : frontOf g' = frontOf c.g) {P : State → Group → Prop}
    (hP : P (afterNext c h sw outs dl s') (retire c h sw (movedFront c (frontOf g')) outs dl g')) :
    GoesOn c (.next (complete c h sw (.ok s' .next outs dl))) P := by
  refine ⟨_, _, ⟨rfl, rfl, ?_⟩, by rw [frontOf_retire, hf], hP⟩
  show groupOf (modGroup s' c.r _) c.r = _
  rw [groupOf_modGroup_same _ _ _ (fun g hg => by rw [id_retire]; exact hg), hg]
  rfl

/-! YIELD, SLEEP and NOP. -/

theorem goesOn_idle {s : State} {h : Hdr} {c : Ctx} (hc : ctxOf s h = some c) (sw : Bool) (dl : Option Nat) :
    GoesOn c (.next (complete c h sw (.ok c.s .next [] dl))) fun t g =>
      g.v = c.g.v ∧ bankOf g = bankOf c.g ∧ t.mem = s.mem ∧ g.delay = s.cycle + 1 + dl.getD h.dly.toNat := by
  obtain ⟨hs, -⟩ := ctxOf_spec hc
  refine goesOn_next c h sw [] dl (groupOf_ctx hc) rfl ⟨v_retire .., bankOf_retire .., ?_, ?_⟩
  · rw [← hs]; rfl
  · rw [← hs]; rfl

theorem Ctx.any_eq_false (c : Ctx) (h : c.lanes = []) : c.any = false := by
  have h0 : c.act = 0 := by
    refine BitVec.eq_of_getLsbD_eq fun l hl => ?_
    by_contra hx
    have hmem : l ∈ c.lanes := (mem_lanesOf c.act l).2 ⟨hl, by simpa using hx⟩
    rw [h] at hmem
    cases hmem
  simp [Ctx.any, h0]

/-! EXIT. -/

theorem wokeIn_dropItems (r : GroupRef) (s : State) (m : LaneMask) : WokeIn r s (dropItems s r m) := by
  unfold dropItems
  split
  · exact .refl r s
  · dsimp only
    have hfold (l : List (Nat × Item)) : WokeIn r s (l.foldl (fun s p => dropItem s r.team p.2) s) :=
      foldl_holds (WokeIn r s) (.refl r s) fun s' p h => h.trans (wokeIn_modTeam r (fun _ h => h) fun _ _ g hg => ⟨g, hg, .refl g⟩)
    exact (hfold _).trans (wokeIn_modGroup r (fun _ h => h) fun g => ⟨.refl _, rfl, rfl⟩)

theorem getLsbD_liveLanes (f : List Entry) (l : Nat) : (f.foldl (fun m e => m ||| e.mask)
    (0 : LaneMask)).getLsbD l = f.any fun e => e.mask.getLsbD l := by
  have h (f : List Entry)
      (m : LaneMask) : (f.foldl (fun m e => m ||| e.mask) m).getLsbD l = (m.getLsbD l || f.any fun e => e.mask.getLsbD l) := by
    induction f generalizing m with
    | nil => simp
    | cons e r ih => rw [List.foldl_cons, ih, BitVec.getLsbD_or, List.any_cons, Bool.or_assoc]
  rw [h]
  simp

theorem getLsbD_others {c : Ctx} {l : Nat} (hl : c.u.mask.getLsbD l = true)
    (hapart : ∀ e ∈ others c.u (frontOf c.g), e.mask &&& c.u.mask = 0) {e : Entry} (he : e ∈ others c.u (frontOf c.g)) :
    e.mask.getLsbD l = false := by
  have hb := congrArg (fun m : LaneMask => m.getLsbD l) (hapart e he)
  simpa [hl] using hb

/-- A group with an entry in its frontier has not ended. -/
theorem endGroup_of_entry {s : State} {r : GroupRef} {g : Group} (hg : groupOf s r = some g) {e : Entry} (he : e ∈ frontOf g) :
    endGroup s r = s := by
  have hend : g.ended = false := by
    unfold Group.ended
    cases hh : g.handler with
    | some h => simp
    | none =>
      have hf : frontOf g = g.frontier := by rw [frontOf, hh]
      rw [hf] at he
      cases hfr : g.frontier with
      | nil => rw [hfr] at he; cases he
      | cons => rfl
  unfold endGroup
  rw [hg]
  simp only [hend, Bool.false_eq_true, if_false]

/-- The entry that an EXIT leaves of its entry. -/
abbrev leftEntry (c : Ctx) : Entry := ⟨nextPc c.u.pc, c.u.prio, c.u.mask &&& ~~~c.act, 0, .ready⟩

theorem exists_exit {s : State} {h : Hdr} {c : Ctx} (hc : ctxOf s h = some c) {k : Nat} (hk : k < 32) (hku : c.u.mask.getLsbD k = true)
    (hka : k ∉ c.lanes) (room : (others c.u (frontOf c.g)).length < depthOf c.g) :
    ∃ t g, EndsIn c (.next (complete c h true (.ok c.s (.exit c.act) [] none))) t g ∧ g.handler.isSome = c.g.handler.isSome ∧
      FrontStep (addReady (others c.u (frontOf c.g)) (leftEntry c)) (frontOf g) := by
  have hgroup := groupOf_ctx hc
  have hbit : (leftEntry c).mask.getLsbD k = true := by
    have hn : c.act.getLsbD k = false := by
      by_contra hx
      exact hka ((mem_lanesOf c.act k).2 ⟨hk, by simpa using hx⟩)
    rw [BitVec.getLsbD_and, BitVec.getLsbD_not, hku, hn, decide_eq_true hk]
    rfl
  have hleft : c.u.mask &&& ~~~c.act ≠ 0 := fun e => by simp [leftEntry, e] at hbit
  have hadv : advance c (frontOf c.g) (.exit c.act) = addReady (others c.u (frontOf c.g)) (leftEntry c) := by
    simp only [advance, hleft, if_false]
  have hlen : ¬ (addReady (others c.u (frontOf c.g)) (leftEntry c)).length > depthOf c.g := by
    have := length_addReady_le (others c.u (frontOf c.g)) (leftEntry c)
    omega
  generalize hf : addReady (others c.u (frontOf c.g)) (leftEntry c) = f at *
  have hstands : StandsAt f k (leftEntry c).pc (leftEntry c).prio := hf ▸ standsAt_addReady _ _ rfl k hbit
  have hcomp : complete c h true (.ok c.s (.exit c.act) [] none) =
      stuckTest (afterExit { (modGroup c.s c.r (retire c h true f [] none)) with issuing := none } c.r c.act) c.r := by
    simp only [complete, hgroup, Option.getD_some, hadv]
    rw [if_neg hlen]
  generalize hs1 : ({ (modGroup c.s c.r (retire c h true f [] none)) with issuing := none } : State) = s1 at *
  have hg1 : groupOf s1 c.r = some (retire c h true f [] none c.g) := by
    rw [← hs1]
    show groupOf (modGroup c.s c.r _) c.r = _
    rw [groupOf_modGroup_same _ _ _ fun g hid => by rw [id_retire]; exact hid, hgroup]
    rfl
  have hdrop := wokeIn_dropItems c.r s1 c.act
  obtain ⟨g2, hg2, hw2⟩ := hdrop.group _ hg1
  have hfront2 : FrontStep f (frontOf g2) := by
    have := hw2.front
    rwa [frontOf_retire] at this
  obtain ⟨e2, he2, -⟩ := hfront2.standsAt hstands
  have hend : afterExit s1 c.r c.act = settle (dropItems s1 c.r c.act) c.r.team := by rw [afterExit, endGroup_of_entry hg2 he2]
  have hall := hdrop.trans (wokeIn_settle c.r (dropItems s1 c.r c.act) c.r.team)
  obtain ⟨g, hg, hw⟩ := hall.group _ hg1
  have hfront : FrontStep f (frontOf g) := by
    have := hw.front
    rwa [frontOf_retire] at this
  obtain ⟨e, he, hst, -⟩ := hfront.standsAt hstands
  have htest : stuckTest (settle (dropItems s1 c.r c.act) c.r.team) c.r = settle (dropItems s1 c.r c.act) c.r.team := by
    unfold stuckTest
    rw [hg]
    simp only [stuck_of_free he (by simp [Entry.waits, hst]), Bool.false_and, Bool.false_eq_true, if_false]
  refine ⟨_, g, ⟨rfl, ?_, ?_⟩, ?_, hfront⟩
  · rw [hcomp, hend, htest, hall.issuing, ← hs1]
  · rw [hcomp, hend, htest, hg]
  · rw [hw.handler]
    unfold retire setFront
    split <;> simp_all

theorem liveLanes_eq_false {g : Group} {l : Nat} (h : ∀ e ∈ g.frontier, e.mask.getLsbD l = false) : (liveLanes g).getLsbD l = false := by
  rw [liveLanes, getLsbD_liveLanes, List.any_eq_false]
  intro e he
  simp [h e he]

theorem exec_exit {s : State} {h : Hdr} {c : Ctx} (hc : ctxOf s h = some c) (hh : c.g.handler = none) (hne : c.lanes ≠ []) :
    exec (.exit h) s = .next (complete c h true (.ok c.s (.exit c.act) [] none)) := by
  obtain ⟨k, hk⟩ := List.exists_mem_of_ne_nil _ hne
  have hin : c.inHandler = false := by simp [Ctx.inHandler, hh]
  show execExit h s = _
  rw [execExit, withIssue_of hc]
  simp only [c.any_of_lane k hk, hin, Bool.not_true, Bool.false_eq_true, if_false]

theorem exit_completes {s : State} {h : Hdr} {c : Ctx} (hc : ctxOf s h = some c) (hh : c.g.handler = none) (hne : c.lanes ≠ [])
    (hapart : ∀ e ∈ others c.u (frontOf c.g), e.mask &&& c.u.mask = 0) (hleft : ∃ l < 32, c.u.mask.getLsbD l = true ∧ l ∉ c.lanes)
    (room : (others c.u (frontOf c.g)).length < depthOf c.g) :
    ∃ t g, EndsIn c (exec (.exit h) s) t g ∧ (∀ l ∈ c.lanes, (liveLanes g).getLsbD l = false) ∧
      ∀ l < 32, c.u.mask.getLsbD l = true → l ∉ c.lanes → StandsAt g.frontier l (nextPc c.u.pc) c.u.prio := by
  obtain ⟨k, hk, hku, hka⟩ := hleft
  obtain ⟨t, g, he, hhg, hfront⟩ := exists_exit hc hk hku hka room
  have hfg : frontOf g = g.frontier := by
    have hn : g.handler = none := by simpa [hh] using hhg
    rw [frontOf, hn]
  refine ⟨t, g, exec_exit hc hh hne ▸ he, fun l hl => liveLanes_eq_false fun e he => ?_, fun l hl hlu hla => ?_⟩
  · have hlu : c.u.mask.getLsbD l = true := ((mem_lanesOf _ _).1 (mem_mask_of_lane hc hl)).2
    have hlact : c.act.getLsbD l = true := ((mem_lanesOf _ _).1 hl).2
    by_contra hx
    obtain ⟨e1, he1, hl1⟩ := hfront.lanes e (hfg ▸ he) l (by simpa using hx)
    rcases lanes_addReady he1 hl1 with hx | ⟨e2, he2, hl2⟩
    · rw [BitVec.getLsbD_and, BitVec.getLsbD_not, hlact] at hx
      simp at hx
    · rw [getLsbD_others hlu hapart he2] at hl2
      cases hl2
  · rw [← hfg]
    refine hfront.standsAt (standsAt_addReady _ (leftEntry c) rfl l ?_)
    have hn : c.act.getLsbD l = false := by
      by_contra hx
      exact hla ((mem_lanesOf c.act l).2 ⟨hl, by simpa using hx⟩)
    rw [BitVec.getLsbD_and, BitVec.getLsbD_not, hlu, hn, decide_eq_true hl]
    rfl

theorem exit_without_lanes {s : State} {h : Hdr} {c : Ctx} (hc : ctxOf s h = some c) (hne : c.lanes = []) :
    GoesOn c (exec (.exit h) s) fun _ g => g.v = c.g.v := by
  have hany := c.any_eq_false hne
  show GoesOn c (execExit h s) _
  rw [execExit, withIssue_of hc]
  simp only [hany, Bool.not_false, if_true]
  exact (goesOn_idle hc true none).imp fun t g hP => hP.1

/-! RCV. -/

theorem rcvReady_of_all {f : List Entry} {pc : Ptr} (hne : f ≠ []) (hall : ∀ e ∈ f, e.pc = pc ∧ ∃ n,
    e.st = .waiting .rcv n) : rcvReady f = true := by
  cases f with
  | nil => exact absurd rfl hne
  | cons a r =>
    simp only [rcvReady, List.all_eq_true, Bool.and_eq_true]
    intro e he
    obtain ⟨hpc, n, hst⟩ := hall e he
    exact ⟨by simp [Entry.waits, hst, Wait.isRcv], by simp [hpc, (hall a List.mem_cons_self).1]⟩

theorem ready_of_frontStep {f f' : List Entry} (hk : FrontStep f f') {e : Entry} (he : e ∈ f) (hst : e.st = .ready) :
    ∃ e' ∈ f', e'.st = .ready := by
  obtain ⟨e', he', hst', -⟩ := hk.keeps e he hst
  exact ⟨e', he', hst'.trans hst⟩

/-- A group one of whose entries is ready, or all of whose entries wait at one RCV, is not stuck after an RCV. -/
theorem stuck_after_rcv {c : Ctx} (hothers : (∃ e ∈ others c.u (frontOf c.g), e.st = .ready) ∨
      ∀ e ∈ others c.u (frontOf c.g), e.pc = c.u.pc ∧ ∃ n, e.st = .waiting .rcv n) (g : Group)
    (hk : FrontStep (others c.u (frontOf c.g) ++ [waiter c .rcv]) (frontOf g)) : stuck g = false := by
  rcases hothers with ⟨e, he, hst⟩ | hall
  · obtain ⟨e', he', hst'⟩ := ready_of_frontStep hk (List.mem_append_left _ he) hst
    exact stuck_of_free he' (by simp [Entry.waits, hst'])
  · have hwait : ∀ e ∈ others c.u (frontOf c.g) ++ [waiter c .rcv], e.pc = c.u.pc ∧ ∃ n, e.st = .waiting .rcv n := by
      intro e he
      rcases List.mem_append.1 he with he | he
      · exact hall e he
      · rw [List.mem_singleton.1 he]
        exact ⟨rfl, _, rfl⟩
    have hsame : frontOf g = others c.u (frontOf c.g) ++ [waiter c .rcv] := hk.same fun e he => by
      obtain ⟨-, n, hst⟩ := hwait e he
      simp [synced, Entry.waits, hst, Wait.isSys, Wait.isTbar, Wait.isGbar]
    have hready : rcvReady (frontOf g) = true := by
      rw [hsame]
      exact rcvReady_of_all (by simp) hwait
    simp only [stuck, hready, Bool.not_true, Bool.and_false, Bool.false_and]

theorem waits_rcv {s : State} {h : Hdr} {c : Ctx} (hc : ctxOf s h = some c)
    (hothers : (∃ e ∈ others c.u (frontOf c.g), e.st = .ready) ∨
      ∀ e ∈ others c.u (frontOf c.g), e.pc = c.u.pc ∧ ∃ n, e.st = .waiting .rcv n)
    (room : (others c.u (frontOf c.g)).length < depthOf c.g) : Waits c (exec (.rcv h) s) .rcv := by
  show Waits c (execRcv h s) _
  rw [execRcv, withIssue_of hc]
  obtain ⟨t, g, he, hk⟩ := exists_complete_wait h true .rcv [] none (groupOf_ctx hc) room (stuck_after_rcv hothers)
  exact ⟨t, g, he, hk.stays _ (by simp) (by simp) rfl⟩

theorem groupOf_wakeable {s : State} {r : GroupRef} {g : Group} (h : wakeable s r = some g) : groupOf s r = some g := by
  unfold wakeable at h
  split at h
  · exact (Option.filter_eq_some_iff.1 h).1
  · cases h

/-- The highest priority of some entries. -/
theorem foldl_prio (f : List Entry) (p : BitVec 8) :
    let m := f.foldl (fun p e => if p < e.prio then e.prio else p) p
    p ≤ m ∧ (∀ e ∈ f, e.prio ≤ m) ∧ (m = p ∨ ∃ e ∈ f, e.prio = m) := by
  induction f generalizing p with
  | nil => exact ⟨BitVec.le_refl p, fun e he => absurd he List.not_mem_nil, Or.inl rfl⟩
  | cons a r ih =>
    obtain ⟨hp, hall, hmem⟩ := ih (if p < a.prio then a.prio else p)
    simp only [List.foldl_cons]
    generalize r.foldl (fun p e => if p < e.prio then e.prio else p) (if p < a.prio then a.prio else p) = m at *
    have hstep : p ≤ m ∧ a.prio ≤ m := by
      simp only [BitVec.le_def, BitVec.lt_def] at *
      split at hp <;> omega
    refine ⟨hstep.1, fun e he => ?_, ?_⟩
    · rcases List.mem_cons.1 he with rfl | he
      · exact hstep.2
      · exact hall e he
    · rcases hmem with hm | ⟨e, he, hm⟩
      · split at hm
        · exact .inr ⟨a, List.mem_cons_self, hm.symm⟩
        · exact .inl hm
      · exact .inr ⟨e, List.mem_cons_of_mem _ he, hm⟩

theorem rcv_completes {s : State} {r : GroupRef} {g : Group} {pc : Ptr} (hw : wakeable s r = some g) (hne : frontOf g ≠ [])
    (hall : ∀ e ∈ frontOf g, e.pc = pc ∧ ∃ n, e.st = .waiting .rcv n) :
    ∃ t g' e, exec (.rcvComplete r pc) s = .next t ∧ groupOf t r = some g' ∧ frontOf g' = [e] ∧ e.pc = nextPc pc ∧
      e.age = 0 ∧ e.st = .ready ∧ (∀ l < 32, e.mask.getLsbD l = (frontOf g).any fun x => x.mask.getLsbD l) ∧
      (∃ x ∈ frontOf g, x.prio = e.prio) ∧ ∀ x ∈ frontOf g, x.prio ≤ e.prio := by
  have hpc : (frontOf g).all (fun e => e.pc == pc) = true := by
    rw [List.all_eq_true]
    exact fun e he => beq_iff_eq.2 (hall e he).1
  obtain ⟨-, hmax, hmem⟩ := foldl_prio (frontOf g) 0
  refine ⟨modGroup s r fun g' => setFront g' [rcvMerge (frontOf g) pc], setFront g [rcvMerge (frontOf g) pc], rcvMerge (frontOf g) pc, ?_,
    ?_,
    frontOf_setFront .., rfl, rfl, rfl, fun l hl => getLsbD_liveLanes _ l, ?_, hmax⟩
  · show execRcvComplete r pc s = _
    unfold execRcvComplete
    rw [hw]
    simp only [rcvReady_of_all hne hall, hpc, Bool.and_self, if_true]
  · rw [groupOf_modGroup_same _ _ _ fun g h => by rw [id_setFront]; exact h, groupOf_wakeable hw]
    rfl
  · rcases hmem with hm | ⟨e, he, hm⟩
    · obtain ⟨e, he⟩ := List.exists_mem_of_ne_nil _ hne
      refine ⟨e, he, BitVec.le_antisymm (hmax e he) ?_⟩
      show (frontOf g).foldl (fun p e => if p < e.prio then e.prio else p) 0 ≤ _
      rw [hm]
      simp [BitVec.le_def]
    · exact ⟨e, he, hm⟩

end Sys2Proof.Machine

open Sys2Proof Sys2Proof.Machine

/-- Settles O11: an EXIT and an RCV end with the barriers settled, which keeps what stands in the frontier. -/
theorem exitReconvergeYield : Obligations.ExitReconvergeYield := by
  unfold Obligations.ExitReconvergeYield
  refine ⟨⟨fun s c h hc hh _ hne hapart hleft room => exit_completes hc hh hne hapart hleft room,
    fun s c h hc hne => exit_without_lanes hc hne⟩,
    ⟨fun s c h hc _ _ _ hothers room => waits_rcv hc hothers room, fun s r g pc hw hne hall => rcv_completes hw hne hall⟩, ?_, ?_⟩
  · rintro s c h i (rfl | rfl) hc
    · show GoesOn c (execYield h s) _
      rw [execYield, withIssue_of hc]
      exact goesOn_idle hc true none
    · show GoesOn c (execNop h s) _
      rw [execNop, withIssue_of hc]
      exact goesOn_idle hc false none
  · intro s c x hc
    show GoesOn c (execSleep x s) _
    rw [execSleep, withIssue_of hc]
    refine (goesOn_idle hc true _).imp fun t g ⟨hv, hb, hm, hd⟩ => ⟨hv, hb, hm, hd.trans ?_⟩
    by_cases hne : c.lanes = []
    · simp [c.any_eq_false hne, hne]
    · obtain ⟨k, hk⟩ := List.exists_mem_of_ne_nil _ hne
      simp [c.any_of_lane k hk, hne]
end

section
/-! PROOFS. Refutations by a lane number of 32: `Kept` and the frame of `RegOnlyFrame` speak of every lane number, and "lane 32" of
register n is the place of lane 0 of register n + 1. So an instruction that writes v(n+1) in lane 0 does not keep v(n) "in every lane".
With lane numbers below 32 the clauses would have to be settled on their own. -/

set_option Elab.async false

namespace Sys2Proof.Machine

/-- Lane number 32 of a vector register is lane 0 of the next one. -/
theorem getV_lane_32 (g : Group) (n : Nat) : getV g n 32 = getV g (n + 1) 0 := by
  simp only [getV]; congr 1

/-- Where `Kept` names no vector register n, lane 0 of register n + 1 has its old value. -/
theorem Kept.lane_zero {g g' : Group} {ks : List RegKey} (h : Kept g g' ks) {n : Nat} (hn : .v n ∉ ks) :
    getV g' (n + 1) 0 = getV g (n + 1) 0 := by
  obtain ⟨hv, -, -, -⟩ := h
  rw [← getV_lane_32, ← getV_lane_32, hv n 32 hn]

/-! The machine of the counterexamples: one team of one group of one live lane, whose buffers and stack begin with a byte 1. -/

/-- An instruction header with an always true guard and no hints. -/
def plainHdr : Hdr := ⟨false, 7, false, 0, false, 0⟩

/-- A group of one live lane, lane 0, with an open frame of 16 bytes whose first byte is 1. -/
def loneGroup : Group :=
  { newGroup ⟨0, 0, 0⟩ 0 none 256 0 32 (mkPtr 1 0) 1 65536 16 none with
    sp := [(0, 16)]
    frames := List.replicate 32 [16]
    stk := [(0, 0x101)] }

/-- The same group with the f16 pattern of 1 in lane 0 of v16 and v24, and the scale 0xFF in v4. -/
def matrixGroup : Group := { loneGroup with v := [(32 * 4, 0xFF), (32 * 16, 0x3C00), (32 * 24, 0x3C00)] }

/-- A running team of one group; byte 0 of its buffers is 1, and granule 0 of W and of A is full. -/
def loneTeam (g : Group) : Team :=
  { newTeam ⟨0, 0, 0⟩ 0 0 (0, 786432, 0, 786432, 0, 262144, 0) [] 0 none 0 [g] with
    stage := .running
    w := [(0, 1)]
    a := [(0, 1)]
    c := [(0, 1)]
    wfe := [(0, 1)]
    afe := [(0, 1)] }

/-- The machine after reset with that team, whose group issues. -/
def loneState (g : Group) : State :=
  { State.reset with
    grids := [benchGrid]
    gangs := [⟨⟨0, 0, 0⟩, 1, .resident, 0, [], none, false, 0, none, false, []⟩]
    teams := [loneTeam g]
    issuing := some ⟨⟨⟨0, 0, 0⟩, 0⟩, mkPtr 1 0, 128, 1⟩ }

/-- The context in which an instruction of that group runs. -/
def loneCtx (g : Group) : Ctx := ⟨loneState g, loneTeam g, g, benchGrid, ⟨⟨⟨0, 0, 0⟩, 0⟩, mkPtr 1 0, 128, 1⟩, 1⟩

theorem ctxOf_lone : ctxOf (loneState loneGroup) plainHdr = some (loneCtx loneGroup) := rfl

/-- The lone group after a step satisfies a test. -/
def endsWith (o : Out) (p : Group → Bool) : Bool := match o with
  | .next t => (groupOf t ⟨⟨0, 0, 0⟩, 0⟩).any p
  | _ => false

theorem EndsIn.holds {o : Out} {t : State} {g q : Group} (h : EndsIn (loneCtx q) o t g) {p : Group → Bool} (hp : endsWith o p = true) :
    p g = true := by
  obtain ⟨rfl, -, hg⟩ := h
  change groupOf t ⟨⟨0, 0, 0⟩, 0⟩ = some g at hg
  simpa only [endsWith, hg, Option.any_some] using hp

/-- An instruction that leaves a value in lane 0 of v(n+1) does not keep v n in every lane number. -/
theorem not_goesOn_kept {o : Out} {q : Group} {ks : List RegKey} {n : Nat} {P : State → Group → Prop} (hn : .v n ∉ ks)
    (hq : getV q (n + 1) 0 = 0) (hv : endsWith o (fun g => getV g (n + 1) 0 != 0) = true) (hP : ∀ t g, P t g → Kept q g ks) :
    ¬ GoesOn (loneCtx q) o P := by
  rintro ⟨t, g, hends, -, hp⟩
  have hne := hends.holds hv
  rw [(hP t g hp).lane_zero hn, hq] at hne
  exact absurd hne (by decide)

theorem eq_ok_of_toOption {ε α : Type} {e : Except ε α} {a : α} (h : e.toOption = some a) : e = .ok a := by
  cases e with
  | error _ => cases h
  | ok b => cases h; rfl

/-- MOVI of 1 to v3. -/
def moviOne : MoviA := ⟨plainHdr, false, false, .v 3, 1⟩

end Sys2Proof.Machine

open Sys2Proof Sys2Proof.Machine

/-- Refutes O60: MOVI v3 := 1 changes "lane 32" of v2, which it does not name as a result. -/
theorem not_regOnlyFrame : ¬ Obligations.RegOnlyFrame := by
  unfold Obligations.RegOnlyFrame
  intro h
  have hwf : WellFormed (.movi moviOne) = true := by decide
  obtain ⟨t, g, hends, -, -⟩ := computes_movi (x := moviOne) ctxOf_lone hwf
  have hone : decide (getV g 3 0 = 1) = true := hends.holds (p := fun g => decide (getV g 3 0 = 1)) (by decide)
  have hhandler : g.handler.isNone = true := hends.holds (p := fun g => g.handler.isNone) (by decide)
  obtain ⟨hkept, -⟩ := h (loneState loneGroup) (loneCtx loneGroup) (.movi moviOne) t g rfl hwf ctxOf_lone hends
    (by rw [Option.isNone_iff_eq_none.mp hhandler]; rfl)
  have hold := hkept.lane_zero (n := 2) (by decide)
  rw [of_decide_eq_true hone] at hold
  exact absurd hold (by decide)

/-- Refutes O15: LDW of the bytes at 0 to v3 changes "lane 32" of v2. -/
theorem not_bufferLoads : ¬ Obligations.BufferLoads := by
  unfold Obligations.BufferLoads
  rintro ⟨⟨hw, -, -⟩, -⟩
  let x : LdA := ⟨plainHdr, false, .plain, .b32, .v 3, .im 0, .off 0⟩
  have hgo := (hw (loneState loneGroup) (loneCtx loneGroup) x [(0, ⟨0, 0, 0⟩)] ctxOf_lone (by decide) rfl (by decide)
    (eq_ok_of_toOption (by decide +kernel))).1 (.inl rfl)
  exact not_goesOn_kept (n := 2) (by decide) rfl (by decide +kernel) (fun _ _ h => h.2.2.1) hgo

/-- Refutes O16: STA with a vector address register that it moves on (v3 += 16) changes "lane 32" of v2. -/
theorem not_bufferStores : ¬ Obligations.BufferStores := by
  unfold Obligations.BufferStores
  rintro ⟨⟨ha, -⟩, -⟩
  let x : StA := ⟨plainHdr, false, .none, .b32, .sp 2 0, .v 3, .im 0, .post 16⟩
  have hgo := (ha (loneState loneGroup) (loneCtx loneGroup) x [(0, ⟨0, 0, 16⟩)] ctxOf_lone (by decide) rfl (by decide)
    (eq_ok_of_toOption (by decide +kernel))).1 (.inl (by decide))
  exact not_goesOn_kept (n := 2) (by decide) rfl (by decide +kernel) (fun _ _ h => h.2.1) hgo

/-- Refutes O18: FEPROBE of granule 0 to v3 changes "lane 32" of v2. -/
theorem not_fragmentsAndFullBits : ¬ Obligations.FragmentsAndFullBits := by
  unfold Obligations.FragmentsAndFullBits
  rintro ⟨-, -, hprobe⟩
  let x : FeprobeA := ⟨plainHdr, false, false, .v 3, .im 0, .im 1, 0⟩
  have hgo := (hprobe (loneState loneGroup) (loneCtx loneGroup) x ctxOf_lone (by decide) (by decide)).2 1 [(0, ⟨0, 0, 0⟩)]
    (eq_ok_of_toOption (by decide +kernel))
  exact not_goesOn_kept (n := 2) (by decide) rfl (by decide +kernel) (fun _ _ h => h.2.1) hgo

/-- Refutes O19: LDS of the first byte of the frame to v3 changes "lane 32" of v2. -/
theorem not_stackAccesses : ¬ Obligations.StackAccesses := by
  unfold Obligations.StackAccesses
  rintro ⟨⟨hlds, -⟩, -⟩
  let x : LdsA := ⟨plainHdr, .b8, .v 3, .im 0, 0⟩
  have hgo := hlds (loneState loneGroup) (loneCtx loneGroup) x ctxOf_lone (by decide) rfl
  have hplace : placeAll (loneCtx loneGroup).lanes (framePlace (loneCtx loneGroup).g x.a x.off x.sz.bytes) = .ok [(0, 0)] := rfl
  rw [hplace] at hgo
  exact not_goesOn_kept (n := 2) (by decide) rfl (by decide +kernel) (fun _ _ h => h.2.2.1) (hgo.1 (by decide))

/-- Refutes O24: MMA into the octet v8 … v15, whose element (0, 0) becomes 1 · 1, changes "lane 32" of v7. -/
theorem not_matrixProducts : ¬ Obligations.MatrixProducts := by
  unfold Obligations.MatrixProducts
  rintro ⟨hmma, -, -⟩
  let x : MmaA := ⟨plainHdr, .f16, true, .v 8, .v 16, .v 24⟩
  have hgo := hmma (loneState matrixGroup) (loneCtx matrixGroup) x rfl (by decide +kernel) (by decide) (by decide)
  exact not_goesOn_kept (n := 7) (by decide) (by decide) (by decide +kernel) (fun _ _ h => h.2.1) hgo

/-- Refutes O25: SCACC into the octet v8 … v15 with the scale 0xFF, which makes element (0, 0) the NaN, changes "lane 32" of v7. -/
theorem not_scalesAndCodebook : ¬ Obligations.ScalesAndCodebook := by
  unfold Obligations.ScalesAndCodebook
  rintro ⟨⟨hscacc, -, -⟩, -⟩
  let x : FourDABT := ⟨plainHdr, .v 8, .v 40, .v 4, .v 6⟩
  have hgo := hscacc (loneState matrixGroup) (loneCtx matrixGroup) x rfl (by decide +kernel) (by decide) (by decide)
  exact not_goesOn_kept (n := 7) (by decide) (by decide) (by decide +kernel) (fun _ _ h => h.2.1) hgo

/-- Refutes O26: MFILL of the matrix at 0 of C, whose element (0, 0) is not zero, into the octet v8 … v15 changes "lane 32" of v7. -/
theorem not_matrixDrainsAndFills : ¬ Obligations.MatrixDrainsAndFills := by
  unfold Obligations.MatrixDrainsAndFills
  rintro ⟨-, hfill, -⟩
  let x : MfillA := ⟨plainHdr, .v 8, .g 0, .im 64, 0⟩
  have hgo := (hfill (loneState loneGroup) (loneCtx loneGroup) x ctxOf_lone (by decide) rfl (by decide) (by decide)).2 0
    (by decide) (by decide) (by decide) (by decide) (by decide)
  exact not_goesOn_kept (n := 7) (by decide) (by decide) (by decide +kernel) (fun _ _ h => h.2.1) hgo

end

section
/-! PROOFS. A collective that waits in a group whose trap has not been taken. -/

set_option Elab.async false

namespace Sys2Proof.Machine

/-- VOTE.all of p0 to p1 on partition 0. -/
def votes : VoteA := ⟨plainHdr, .all, .sp 0 1, .sp 0 0, .sp 3 0⟩

/-- Lane 0 waits in the vote, and a trap is still to be taken. -/
def heldVoteGroup : Group :=
  { loneGroup with
    frontier := [⟨mkPtr 1 0, 128, 1, 0, .waiting (.coll (.vote votes) 1 [] []) 0⟩]
    pendTrap := some default }

/-- The machine in which that group's entry does not issue. -/
def heldVoteState : State := { loneState heldVoteGroup with issuing := none }

end Sys2Proof.Machine

open Sys2Proof Sys2Proof.Machine

/-- Refutes O12: the clause for a wait that has converged does not ask that no trap is held, and a group with a held trap goes on with
no collective. -/
theorem not_partitionsAndWaits : ¬ Obligations.PartitionsAndWaits := by
  unfold Obligations.PartitionsAndWaits
  rintro ⟨-, -, hwait⟩
  obtain ⟨t, g, hexec, hg, -, -, hgone⟩ := hwait heldVoteState ⟨⟨0, 0, 0⟩, 0⟩ heldVoteGroup 0 _ (.vote votes) 1 [] [] 0 rfl rfl rfl
  have hsame : exec (.collectiveConverge ⟨⟨0, 0, 0⟩, 0⟩ 0) heldVoteState = .next heldVoteState := rfl
  obtain rfl : heldVoteState = t := by rw [hsame] at hexec; injection hexec
  obtain rfl : heldVoteGroup = g := by injection hg
  obtain ⟨e, he, hready, -⟩ := hgone 0 (by decide) rfl
  obtain rfl := List.mem_singleton.mp he
  cases hready

end

section
/-! PROOFS. Buffers: what their bytes and full bits are after a write, byte by byte. -/

set_option Elab.async false

namespace Sys2Proof.Machine

/-! Stores of bytes. -/

/-- A number is known by its base-256 digits. -/
theorem eq_of_digits {k x y : Nat} (hx : x < 256 ^ k) (hy : y < 256 ^ k)
    (h : ∀ i < k, x / 256 ^ i % 256 = y / 256 ^ i % 256) : x = y := by
  suffices ∀ j ≤ k, x % 256 ^ j = y % 256 ^ j by
    rw [← Nat.mod_eq_of_lt hx, ← Nat.mod_eq_of_lt hy]; exact this k le_rfl
  intro j hj
  induction j with
  | zero => simp [Nat.mod_one]
  | succ j ih => rw [Nat.pow_succ, Nat.mod_mul, Nat.mod_mul, ih (by omega), h j (by omega)]

theorem stGet_setBytes (m : Store 8) (a k x b : Nat) :
    stGet (stSetBytes m a k x) b = if a ≤ b ∧ b < a + k then BitVec.ofNat 8 (x / 256 ^ (b - a)) else stGet m b :=
  stGet_poke m a k (fun i => BitVec.ofNat 8 (x / 256 ^ i)) b

theorem stBytes_succ (m : Store 8) (a k : Nat) : stBytes m a (k + 1) = stBytes m a k + (stGet m (a + k)).toNat * 256 ^ k := by
  simp [stBytes, List.range_succ]

theorem stBytes_lt (m : Store 8) (a k : Nat) : stBytes m a k < 256 ^ k := by
  induction k with
  | zero => simp [stBytes]
  | succ k ih =>
    have hb : (stGet m (a + k)).toNat * 256 ^ k ≤ 255 * 256 ^ k := Nat.mul_le_mul_right _ (by omega)
    rw [stBytes_succ, Nat.pow_succ]; omega

/-- The digits of a run of bytes are the bytes. -/
theorem stBytes_digit (m : Store 8) (a k i : Nat) (hi : i < k) : stBytes m a k / 256 ^ i % 256 = (stGet m (a + i)).toNat := by
  induction k with
  | zero => omega
  | succ k ih =>
    rw [stBytes_succ]
    by_cases h : i = k
    · subst h
      rw [Nat.add_mul_div_right _ _ (by positivity), Nat.div_eq_of_lt (stBytes_lt m a i), Nat.zero_add, Nat.mod_eq_of_lt (by omega)]
    · obtain ⟨j, rfl⟩ : ∃ j, k = i + (j + 1) := ⟨k - i - 1, by omega⟩
      rw [show (stGet m (a + (i + (j + 1)))).toNat * 256 ^ (i + (j + 1)) =
        (stGet m (a + (i + (j + 1)))).toNat * 256 ^ j * 256 * 256 ^ i by ring, Nat.add_mul_div_right _ _ (by positivity),
        Nat.add_mul_mod_self_right, ih (by omega)]

theorem stBytes_congr {m m' : Store 8} {a a' k : Nat} (h : ∀ i < k, stGet m (a + i) = stGet m' (a' + i)) :
    stBytes m a k = stBytes m' a' k := by
  induction k with
  | zero => rfl
  | succ k ih => rw [stBytes_succ, stBytes_succ, h k (by omega), ih fun i hi => h i (by omega)]

/-- The bytes of a number, put together again. -/
theorem stBytes_setBytes_same (m : Store 8) (a k x : Nat) : stBytes (stSetBytes m a k x) a k = x % 256 ^ k := by
  have hget (i : Nat) (hi : i < k) : stGet (stSetBytes m a k x) (a + i) = BitVec.ofNat 8 (x / 256 ^ i) := by
    rw [stGet_setBytes, if_pos ⟨by omega, by omega⟩, Nat.add_sub_cancel_left]
  suffices ∀ j ≤ k, stBytes (stSetBytes m a k x) a j = x % 256 ^ j from this k le_rfl
  intro j hj
  induction j with
  | zero => simp [stBytes, Nat.mod_one]
  | succ j ih =>
    rw [stBytes_succ, ih (by omega), hget j (by omega), BitVec.toNat_ofNat, pow_succ 256 j, @Nat.mod_mul (256 ^ j) 256 x,
      Nat.mul_comm (256 ^ j)]

/-! Buffers of a team. -/

@[simp] theorem bufOf_setBuf (t : Team) (b b' : Buf) (m : Store 8) : bufOf (setBuf t b m) b' = if b' = b then m else bufOf t b' := by
  cases b <;> cases b' <;> rfl

@[simp] theorem feOf_setBuf (t : Team) (b b' : Buf) (m : Store 8) : feOf (setBuf t b m) b' = feOf t b' := by
  cases b <;> cases b' <;> rfl

@[simp] theorem bufOf_markFe (t : Team) (b b' : Buf) (off k : Nat) (f : Bool) : bufOf (markFe t b off k f) b' = bufOf t b' := by
  cases b <;> cases b' <;> rfl

theorem setFeOf_c (t : Team) (m : Store 1) : setFeOf t .c m = t := rfl

@[simp] theorem feOf_setFeOf (t : Team) (b b' : Buf) (m : Store 1) :
    feOf (setFeOf t b m) b' = if b' = b ∧ b ≠ .c then m else feOf t b' := by
  cases b <;> cases b' <;> rfl

@[simp] theorem setBuf_groups (t : Team) (b : Buf) (m : Store 8) : (setBuf t b m).groups = t.groups := by cases b <;> rfl
@[simp] theorem setBuf_r (t : Team) (b : Buf) (m : Store 8) : (setBuf t b m).r = t.r := by cases b <;> rfl
@[simp] theorem markFe_groups (t : Team) (b : Buf) (off k : Nat) (f : Bool) : (markFe t b off k f).groups = t.groups := by cases b <;> rfl
@[simp] theorem markFe_r (t : Team) (b : Buf) (off k : Nat) (f : Bool) : (markFe t b off k f).r = t.r := by cases b <;> rfl

theorem mem_granules {off k i : Nat} : i ∈ granules off k ↔ 0 < k ∧ off / 16 ≤ i ∧ i ≤ (off + k - 1) / 16 := by
  unfold granules
  split
  · next h => simp [h]
  · next h =>
    have hle : off / 16 ≤ (off + k - 1) / 16 := Nat.div_le_div_right (by omega)
    simp only [List.mem_map, List.mem_range]
    constructor
    · rintro ⟨j, hj, rfl⟩; omega
    · rintro ⟨-, h1, h2⟩; exact ⟨i - off / 16, by omega, by omega⟩

/-- A store after some keys have been given one value. -/
theorem stGet_setAll_const {n : Nat} (m : Store n) (ks : List Nat) (x : BitVec n) (a : Nat) :
    stGet (stSetAll m (ks.map fun k => (k, x))) a = if a ∈ ks then x else stGet m a := by
  unfold stSetAll
  induction ks generalizing m with
  | nil => simp
  | cons k ks ih =>
    rw [List.map_cons, List.foldl_cons, ih, stGet_set]
    by_cases h : a ∈ ks
    · simp [h]
    · by_cases ha : a = k <;> simp [h, ha]

/-- A full bit after granules have been marked. -/
theorem stGet_feOf_markFe (t : Team) (b b' : Buf) (off k i : Nat) (f : Bool) :
    stGet (feOf (markFe t b off k f) b') i =
      if b' = b ∧ b ≠ .c ∧ i ∈ granules off k then (if f then 1 else 0) else stGet (feOf t b') i := by
  unfold markFe
  rw [feOf_setFeOf]
  by_cases h : b' = b ∧ b ≠ .c
  · rw [if_pos h, stGet_setAll_const, h.1]
    by_cases hi : i ∈ granules off k
    · simp [hi, h.2]
    · rw [if_neg hi, if_neg fun h => hi h.2.2]
  · rw [if_neg h, if_neg fun h' => h ⟨h'.1, h'.2.1⟩]

/-! Buffers of a machine. -/

theorem bufGet_of_team {s : State} {r : TeamRef} {t : Team} (h : teamOf s r = some t) (b : Buf) (off k : Nat) :
    bufGet s r b off k = stBytes (bufOf t b) off k := by rw [bufGet, h]

theorem bufGet_of_none {s : State} {r : TeamRef} (h : teamOf s r = none) (b : Buf) (off k : Nat) : bufGet s r b off k = 0 := by
  rw [bufGet, h]

theorem bufByte_of_team {s : State} {r : TeamRef} {t : Team} (h : teamOf s r = some t) (b : Buf) (k : Nat) :
    bufByte s r b k = (stGet (bufOf t b) k).toNat := by
  rw [bufByte, bufGet_of_team h]; simp [stBytes]

theorem bufGet_lt (s : State) (r : TeamRef) (b : Buf) (off k : Nat) : bufGet s r b off k < 256 ^ k := by
  unfold bufGet; split
  · positivity
  · exact stBytes_lt ..

theorem bufGet_digit (s : State) (r : TeamRef) (b : Buf) (off k i : Nat) (hi : i < k) :
    bufGet s r b off k / 256 ^ i % 256 = bufByte s r b (off + i) := by
  unfold bufByte bufGet
  split
  · simp
  · rw [stBytes_digit _ _ _ _ hi]; simp [stBytes]

/-- Equal bytes make equal numbers. -/
theorem bufGet_congr {s s' : State} {r r' : TeamRef} {b b' : Buf} {off off' k : Nat}
    (h : ∀ i < k, bufByte s r b (off + i) = bufByte s' r' b' (off' + i)) : bufGet s r b off k = bufGet s' r' b' off' k := by
  refine eq_of_digits (bufGet_lt ..) (bufGet_lt ..) fun i hi => ?_
  rw [bufGet_digit _ _ _ _ _ _ hi, bufGet_digit _ _ _ _ _ _ hi, h i hi]

theorem bufByte_congr {s s' : State} {r : TeamRef} (h : teamOf s' r = teamOf s r) (b : Buf) (k : Nat) :
    bufByte s' r b k = bufByte s r b k := by unfold bufByte bufGet; rw [h]

theorem fullBit_of_team {s : State} {r : TeamRef} {t : Team} (h : teamOf s r = some t) (b : Buf) (i : Nat) :
    fullBit s r b i = (stGet (feOf t b) i == 1) := by rw [fullBit, h]

/-- A team after a write to its buffer: its bytes, and the granules they lie in are full. -/
def putBytes (b : Buf) (off k x : Nat) (t : Team) : Team := markFe (setBuf t b (stSetBytes (bufOf t b) off k x)) b off k true

@[simp] theorem putBytes_r (b : Buf) (off k x : Nat) (t : Team) : (putBytes b off k x t).r = t.r := by simp [putBytes]
@[simp] theorem putBytes_groups (b : Buf) (off k x : Nat) (t : Team) : (putBytes b off k x t).groups = t.groups := by simp [putBytes]

/-- The machine before a write of a buffer where DIAGST.sram has written no word: only tags and recorded writes end. -/
def untagged (s : State) (loc k : Nat) : State := if s.hist.isEmpty && s.rels.isEmpty then s else endTags s loc k

@[simp] theorem untagged_teams (s : State) (loc k : Nat) : (untagged s loc k).teams = s.teams := by unfold untagged; split <;> rfl

theorem bufPut_eq {s : State} (hs : s.sram = []) (r : TeamRef) (b : Buf) (off k x : Nat) :
    bufPut s r b off k x = modTeam (untagged s (bufLoc r b off) k) r (putBytes b off k x) := by
  have h (u : State) : modTeam (modTeam u r fun t => setBuf t b (stSetBytes (bufOf t b) off k x)) r (fun t => markFe t b off k true) =
      modTeam u r (putBytes b off k x) := by
    unfold modTeam
    simp only [List.map_map]
    congr 1
    refine List.map_congr_left fun t _ => ?_
    by_cases ht : t.r = r <;> simp [ht, putBytes]
  unfold bufPut bufWrite
  rw [h]
  simp [hs, untagged]

theorem teamOf_bufPut_same {s : State} (hs : s.sram = []) (r : TeamRef) (b : Buf) (off k x : Nat) :
    teamOf (bufPut s r b off k x) r = (teamOf s r).map (putBytes b off k x) := by
  rw [bufPut_eq hs, teamOf_modTeam_same _ _ _ fun t ht => by simpa using ht]
  simp [teamOf]

theorem teamOf_bufPut_other {s : State} (hs : s.sram = []) {r q : TeamRef} (h : q ≠ r) (b : Buf) (off k x : Nat) :
    teamOf (bufPut s r b off k x) q = teamOf s q := by
  rw [bufPut_eq hs, teamOf_modTeam_other _ _ _ _ (fun t ht => by simpa using ht) h]
  simp [teamOf]

theorem groupOf_bufPut {s : State} (hs : s.sram = []) (r : TeamRef) (b : Buf) (off k x : Nat) (q : GroupRef) :
    groupOf (bufPut s r b off k x) q = groupOf s q := by
  unfold groupOf
  by_cases h : q.team = r
  · rw [h, teamOf_bufPut_same hs]
    cases teamOf s r <;> simp [groupIn]
  · rw [teamOf_bufPut_other hs h]

theorem bufPut_mem {s : State} (hs : s.sram = []) (r : TeamRef) (b : Buf) (off k x : Nat) : (bufPut s r b off k x).mem = s.mem := by
  rw [bufPut_eq hs]; unfold untagged; split <;> rfl

/-- A byte of a buffer after a write. -/
theorem bufByte_bufPut {s : State} (hs : s.sram = []) {r : TeamRef} {t : Team} (ht : teamOf s r = some t) (b : Buf) (off k x : Nat)
    (q : TeamRef) (b' : Buf) (i : Nat) : bufByte (bufPut s r b off k x) q b' i =
      if q = r ∧ b' = b ∧ off ≤ i ∧ i < off + k then x / 256 ^ (i - off) % 256 else bufByte s q b' i := by
  by_cases hq : q = r
  · subst hq
    rw [bufByte_of_team (t := putBytes b off k x t) (by rw [teamOf_bufPut_same hs, ht]; rfl), bufByte_of_team ht]
    simp only [putBytes, bufOf_markFe, bufOf_setBuf]
    by_cases hb : b' = b
    · subst hb
      rw [if_pos rfl, stGet_setBytes]
      by_cases hi : off ≤ i ∧ i < off + k
      · rw [if_pos hi, if_pos ⟨trivial, rfl, hi⟩, BitVec.toNat_ofNat]
      · rw [if_neg hi, if_neg fun h => hi h.2.2]
    · rw [if_neg hb, if_neg fun h => hb h.2.1]
  · rw [if_neg fun h => hq h.1, bufByte_congr (teamOf_bufPut_other hs hq ..)]

/-- A full bit after a write of a buffer. -/
theorem fullBit_bufPut {s : State} (hs : s.sram = []) {r : TeamRef} {t : Team} (ht : teamOf s r = some t) (b : Buf) (off k x : Nat)
    (q : TeamRef) (b' : Buf) (i : Nat) : fullBit (bufPut s r b off k x) q b' i =
      (decide (q = r ∧ b' = b ∧ b ≠ .c ∧ i ∈ granules off k) || fullBit s q b' i) := by
  by_cases hq : q = r
  · subst hq
    rw [fullBit_of_team (t := putBytes b off k x t) (by rw [teamOf_bufPut_same hs, ht]; rfl), fullBit_of_team ht]
    simp only [putBytes, stGet_feOf_markFe, feOf_setBuf, true_and, if_true]
    by_cases h : b' = b ∧ b ≠ .c ∧ i ∈ granules off k
    · simp [h]
    · simp [h]
  · have : fullBit (bufPut s r b off k x) q b' i = fullBit s q b' i := by
      unfold fullBit; rw [teamOf_bufPut_other hs hq]
    simp [this, hq]

/-- The bytes written read back. -/
theorem bufGet_bufPut_same {s : State} (hs : s.sram = []) {r : TeamRef} {t : Team} (ht : teamOf s r = some t) (b : Buf) (off k x : Nat) :
    bufGet (bufPut s r b off k x) r b off k = x % 256 ^ k := by
  rw [bufGet_of_team (t := putBytes b off k x t) (by rw [teamOf_bufPut_same hs, ht]; rfl)]
  simp only [putBytes, bufOf_markFe, bufOf_setBuf, if_true, stBytes_setBytes_same]

/-! A write by an engine. -/

theorem addJoin_eq (s : State) (i : Nat) (ids : List Nat) : ∃ j, addJoin s i ids = { s with joins := j } := by
  unfold addJoin
  simp only
  split
  · exact ⟨s.joins, rfl⟩
  · exact ⟨_, rfl⟩

theorem engWrote_eq (s0 s : State) (e : Eng) (loc : Nat) (old : List Byte) (kept : List Nat) :
    ∃ n h j, engWrote s0 s e loc old kept = { s with nextId := n, hist := h, joins := j } := by
  unfold engWrote
  simp only
  obtain ⟨j, hj⟩ := addJoin_eq (keepWrite s0 { s with nextId := s0.nextId + 1 } s0.nextId loc old true none
    (farLive s0 (union kept e.after)) (some e.t)) s0.nextId (union kept e.after)
  obtain ⟨j', hj'⟩ := addJoin_eq (addJoin (keepWrite s0 { s with nextId := s0.nextId + 1 } s0.nextId loc old true none
    (farLive s0 (union kept e.after)) (some e.t)) s0.nextId (union kept e.after)) e.id (s0.nextId :: kept)
  rw [hj', hj]
  exact ⟨_, _, _, rfl⟩

/-- A team after bytes have landed in its buffer: the granules that no piece still to be moved writes are full. -/
def landed (r : TeamRef) (b : Buf) (off : Nat) (bs : List Byte) (rest : List Piece) (u : Team) : Team :=
  ((granules off bs.length).filter fun i => !rest.any fun x => x.touches r b i).foldl (fun u i => markFe u b (16 * i) 1 true)
    (setBuf u b (stSetBytes (bufOf u b) off bs.length (ofBytes bs)))

theorem foldl_markFe_keeps {α : Type} (f : Team → α) (hf : ∀ u b off k x, f (markFe u b off k x) = f u) (b : Buf) (is : List Nat) (u : Team) :
    f (is.foldl (fun u i => markFe u b (16 * i) 1 true) u) = f u := by
  induction is generalizing u with
  | nil => rfl
  | cons i is ih => rw [List.foldl_cons, ih, hf]

@[simp] theorem landed_r (r : TeamRef) (b : Buf) (off : Nat) (bs : List Byte) (rest : List Piece) (u : Team) :
    (landed r b off bs rest u).r = u.r := by
  unfold landed; rw [foldl_markFe_keeps Team.r (fun _ _ _ _ _ => markFe_r ..), setBuf_r]

@[simp] theorem landed_groups (r : TeamRef) (b : Buf) (off : Nat) (bs : List Byte) (rest : List Piece) (u : Team) :
    (landed r b off bs rest u).groups = u.groups := by
  unfold landed; rw [foldl_markFe_keeps Team.groups (fun _ _ _ _ _ => markFe_groups ..), setBuf_groups]

@[simp] theorem landed_member (r : TeamRef) (b : Buf) (off : Nat) (bs : List Byte) (rest : List Piece) (u : Team) :
    (landed r b off bs rest u).member = u.member := by
  unfold landed; rw [foldl_markFe_keeps Team.member fun _ b _ _ _ => by cases b <;> rfl]; cases b <;> rfl

@[simp] theorem landed_alen (r : TeamRef) (b : Buf) (off : Nat) (bs : List Byte) (rest : List Piece) (u : Team) :
    (landed r b off bs rest u).alen = u.alen := by
  unfold landed; rw [foldl_markFe_keeps Team.alen fun _ b _ _ _ => by cases b <;> rfl]; cases b <;> rfl

theorem bufOf_landed (r : TeamRef) (b : Buf) (off : Nat) (bs : List Byte) (rest : List Piece) (u : Team) (b' : Buf) :
    bufOf (landed r b off bs rest u) b' =
      if b' = b then stSetBytes (bufOf u b) off bs.length (ofBytes bs) else bufOf u b' := by
  unfold landed
  rw [foldl_markFe_keeps (bufOf · b') (fun _ _ _ _ _ => bufOf_markFe ..), bufOf_setBuf]

/-- Where the engine's bytes land, the machine changes in that team and in what orders memory. -/
theorem bufLand_eq {s : State} (hs : s.sram = []) (e : Eng) (r : TeamRef) (b : Buf) (off : Nat) (bs : List Byte) (kept : List Nat)
    (rest : List Piece) : ∃ n h j, bufLand s e r b off bs kept rest =
      { modTeam (untagged s (bufLoc r b off) bs.length) r (landed r b off bs rest) with nextId := n, hist := h, joins := j } := by
  have hm (u : State) : modTeam (modTeam u r fun t => setBuf t b (stSetBytes (bufOf t b) off bs.length (ofBytes bs))) r
      (fun t => ((granules off bs.length).filter fun i => !rest.any fun x => x.touches r b i).foldl
        (fun u i => markFe u b (16 * i) 1 true) t) = modTeam u r (landed r b off bs rest) := by
    unfold modTeam
    simp only [List.map_map]
    congr 1
    refine List.map_congr_left fun t _ => ?_
    by_cases ht : t.r = r <;> simp [ht, landed]
  have hw : bufWrite s r b off bs.length (ofBytes bs) =
      modTeam (untagged s (bufLoc r b off) bs.length) r fun t => setBuf t b (stSetBytes (bufOf t b) off bs.length (ofBytes bs)) := by
    unfold bufWrite; simp [hs, untagged]
  unfold bufLand
  simp only [hw, hm]
  exact engWrote_eq ..

theorem teamOf_bufLand_same {s : State} (hs : s.sram = []) (e : Eng) (r : TeamRef) (b : Buf) (off : Nat) (bs : List Byte)
    (kept : List Nat) (rest : List Piece) :
    teamOf (bufLand s e r b off bs kept rest) r = (teamOf s r).map (landed r b off bs rest) := by
  obtain ⟨n, h, j, heq⟩ := bufLand_eq hs e r b off bs kept rest
  rw [heq]
  exact (teamOf_modTeam_same _ _ _ fun t ht => by simpa using ht).trans (by simp [teamOf])

theorem teamOf_bufLand_other {s : State} (hs : s.sram = []) (e : Eng) {r q : TeamRef} (hq : q ≠ r) (b : Buf) (off : Nat) (bs : List Byte)
    (kept : List Nat) (rest : List Piece) : teamOf (bufLand s e r b off bs kept rest) q = teamOf s q := by
  obtain ⟨n, h, j, heq⟩ := bufLand_eq hs e r b off bs kept rest
  rw [heq]
  exact (teamOf_modTeam_other _ _ _ _ (fun t ht => by simpa using ht) hq).trans (by simp [teamOf])

theorem bufLand_sram {s : State} (hs : s.sram = []) (e : Eng) (r : TeamRef) (b : Buf) (off : Nat) (bs : List Byte) (kept : List Nat)
    (rest : List Piece) : (bufLand s e r b off bs kept rest).sram = [] := by
  obtain ⟨n, h, j, heq⟩ := bufLand_eq hs e r b off bs kept rest
  rw [heq]
  show (untagged s _ _).sram = []
  unfold untagged; split <;> exact hs

theorem bufLand_grids {s : State} (hs : s.sram = []) (e : Eng) (r : TeamRef) (b : Buf) (off : Nat) (bs : List Byte) (kept : List Nat)
    (rest : List Piece) : (bufLand s e r b off bs kept rest).grids = s.grids := by
  obtain ⟨n, h, j, heq⟩ := bufLand_eq hs e r b off bs kept rest
  rw [heq]
  show (untagged s _ _).grids = _
  unfold untagged; split <;> rfl

end Sys2Proof.Machine

end

section
/-! PROOFS. An attention command whose arrival object lies in its output. -/

set_option Elab.async false

namespace Sys2Proof.Machine

/-- An ATTQ command over 64 elements, from page 1: Q, O and the arrival object all lie at 0 of A. -/
def overlapOp : MemOp := ⟨0, true, ⟨0, 0, 0⟩, 0, 1 + 2 ^ 176, none, [], 0, [], none⟩

/-- The machine with that command; the header of page 1 says that the page is poisoned (STATE 2, tenant 0). -/
def overlapState : State :=
  { loneState loneGroup with
    issuing := none
    power := ⟨true, false, false, [], false⟩
    memOps := [overlapOp]
    mem := [(2 ^ 16 + 26, 0x80)] }

/-- The error goes to the arrival object after the quads have been written. -/
def afterPoison (t : State) : State :=
  memFail (atPut t overlapOp (List.replicate 32 (0x7FC00000, 0x7FC00000, 0x7FC00000, 0x7FC00000))) overlapOp 0 cPOISON 1 512

/-- The machine after the read of page 1. -/
def pageRead : State := tableRead (kvRead overlapState 1).2.2 (kvPa 1) (2 ^ 16)

theorem pageRead_quiet : Quiet overlapState pageRead :=
  .trans (readMem_quiet rfl rfl _ _).2 (tableRead_quiet rfl rfl _ _)

/-- The prefetcher's first page, as it stands in memory. -/
def poisonedPage : AtPage := ⟨1, (kvRead overlapState 1).1, (kvRead overlapState 1).2.1⟩

/-- A walk whose first page is poisoned ends there. -/
theorem atWalk_poisoned {dh scale tenant n : Nat} {q : List FVal} {t : State} {quads : List (Nat × Nat × Nat × Nat)} {p : AtPage}
    (h : atHeadErr p tenant dh = some (cPOISON, 1)) (hok : p.st = .ok) :
    atWalk dh scale tenant q (n + 1) ⟨t, quads, 1, [p], none⟩ = ⟨t, quads, 1, [p], some (cPOISON, 1)⟩ := by
  simp [atWalk, h, hok]

theorem exec_attention : exec (.attentionCommand 0) overlapState = .next (afterPoison pageRead) := by
  have hfind : overlapState.memOps.find? (fun m => m.id == 0 && m.att && m.left.isNone) = some overlapOp := rfl
  have hready : forkReady overlapState overlapOp.after = true := rfl
  have hteam : (teamOf overlapState overlapOp.t).isNone = false := rfl
  have hvalid : atValid overlapState overlapOp = true := by decide +kernel
  have hread : ∃ bs, bufRd overlapState (memEng overlapState overlapOp) (memberA overlapState overlapOp.t (atQ overlapOp.raw)) .a
      (atQ overlapOp.raw % 2 ^ 20) (4 * 64) = ⟨bs, .ok, 0, [], overlapState⟩ := ⟨_, rfl⟩
  have hstart (l : Nat) (quads : List (Nat × Nat × Nat × Nat)) : atStart overlapState (atHead overlapOp.raw) ⟨overlapState, quads, l, [], none⟩ =
      ⟨pageRead, quads, l, [poisonedPage], none⟩ := by
    have hone : atHead overlapOp.raw = 1 := by decide +kernel
    simp [hone, atStart, kvHbm, atFetch, pageRead, poisonedPage]
  have hmax : (if atMax overlapOp.raw = 0 then 2 ^ 64 else atMax overlapOp.raw) = 1 := by decide +kernel
  have hdh : atDh overlapOp.raw = 64 := by decide +kernel
  have harr : atArr overlapOp.raw = 0 := by decide +kernel
  obtain ⟨bs, hbs⟩ := hread
  have hwalk (q : List FVal) (quads : List (Nat × Nat × Nat × Nat)) :
      atWalk 64 (atScale overlapOp.raw) overlapOp.tenant q 65536 ⟨pageRead, quads, 1, [poisonedPage], none⟩ =
        ⟨pageRead, quads, 1, [poisonedPage], some (cPOISON, 1)⟩ := atWalk_poisoned (by decide +kernel) (by decide +kernel)
  show execAttentionCommand 0 overlapState = _
  have hrun : (overlapState.power.on && !overlapState.power.halted) = true := rfl
  unfold execAttentionCommand agent
  simp only [hrun, hfind, hready, hteam, hvalid, hbs, hmax, hstart, hdh, hwalk, harr, Bool.not_true, Bool.false_eq_true, if_false, if_true]
  rfl

/-- Where the arrival object is, in a machine in which the team's place and length are as before. -/
theorem arrAt_zero {t : State} {u : Team} (hu : teamOf t ⟨0, 0, 0⟩ = some u) (hr : u.r = ⟨0, 0, 0⟩) (hm : u.member = 0)
    (hl : u.alen = 786432) (hg : t.grids = overlapState.grids) : arrAt t ⟨0, 0, 0⟩ 0 = some (⟨0, 0, 0⟩, 0) := by
  have hsize : gangSize t ⟨0, 0, 0⟩ = gangSize overlapState ⟨0, 0, 0⟩ := by simp only [gangSize, gridOf, hg]
  have hone : gangSize overlapState ⟨0, 0, 0⟩ = 1 := by decide +kernel
  have hself : memberRef u 0 = ⟨0, 0, 0⟩ := by simp [memberRef, hr]
  simp [arrAt, hu, hself, fld, hsize, hone, hl, hr]

/-- The top byte of an arrival object that has been written to is a multiple of 32: its five bits below FLAGS are cleared. -/
theorem word_memFail {t : State} {u : Team} (hs : t.sram = []) (hu : teamOf t ⟨0, 0, 0⟩ = some u) (hr : u.r = ⟨0, 0, 0⟩)
    (hm : u.member = 0) (hl : u.alen = 786432) (hg : t.grids = overlapState.grids) :
    bufGet (memFail t overlapOp 0 cPOISON 1 512) ⟨0, 0, 0⟩ .a 4 4 ≠ 0x7FC00000 := by
  intro hword
  obtain ⟨v, hv⟩ : ∃ v, v = arrErrVal cPOISON 1 false (bufGet t ⟨0, 0, 0⟩ .a 0 8) := ⟨_, rfl⟩
  have hput : arrError t ⟨0, 0, 0⟩ 0 cPOISON 1 false = bufPut t ⟨0, 0, 0⟩ .a 0 8 (v - fld v 56 5 * 2 ^ 56) := by
    rw [arrError, arrMod, arrAt_zero hu hr hm hl hg, hv]
  have hdigit := bufGet_digit (memFail t overlapOp 0 cPOISON 1 512) ⟨0, 0, 0⟩ .a 4 4 3 (by decide)
  have hbyte : bufByte (memFail t overlapOp 0 cPOISON 1 512) ⟨0, 0, 0⟩ .a (4 + 3) = (v - fld v 56 5 * 2 ^ 56) / 256 ^ (7 - 0) % 256 := by
    show bufByte (arrError t ⟨0, 0, 0⟩ 0 cPOISON 1 false) _ _ _ = _
    rw [hput, bufByte_bufPut hs hu, if_pos ⟨rfl, rfl, by decide, by decide⟩]
  rw [hword, hbyte, fld] at hdigit
  norm_num at hdigit
  omega

/-- What the second word of A is in the end. -/
theorem word_afterPoison {t : State} (h : Quiet overlapState t) : bufGet (afterPoison t) ⟨0, 0, 0⟩ .a 4 4 ≠ 0x7FC00000 := by
  have hs : t.sram = [] := by rw [h]; rfl
  have hg : t.grids = overlapState.grids := by rw [h]
  have ht : teamOf t ⟨0, 0, 0⟩ = some (loneTeam loneGroup) := by rw [h]; rfl
  have hmember : memberA t ⟨0, 0, 0⟩ (atO overlapOp.raw) = ⟨0, 0, 0⟩ := by rw [memberA, ht]; decide +kernel
  unfold afterPoison atPut
  rw [show overlapOp.t = ⟨0, 0, 0⟩ from rfl, hmember]
  refine word_memFail (bufLand_sram hs ..) ((teamOf_bufLand_same hs ..).trans (by rw [ht]; rfl)) ?_ ?_ ?_ ?_
  · rw [landed_r]; rfl
  · rw [landed_member]; rfl
  · rw [landed_alen]; rfl
  · rw [bufLand_grids hs, hg]

end Sys2Proof.Machine

open Sys2Proof Sys2Proof.Machine

/-- Refutes O32: where an attention command meets poison, its quads are written before the error goes to the arrival object, which may
lie among them. -/
theorem not_memorySideCommands : ¬ Obligations.MemorySideCommands := by
  unfold Obligations.MemorySideCommands
  rintro ⟨-, -, hatt, -⟩
  obtain ⟨-, hpoison, -⟩ := hatt overlapState 0 overlapOp (loneTeam loneGroup)
    ⟨⟨rfl, rfl⟩, rfl, rfl, by decide, rfl⟩ rfl (by decide +kernel) ⟨rfl, rfl, rfl, rfl⟩ (by
      intro y hy
      obtain rfl : loneTeam loneGroup = y := Option.some.inj hy
      decide)
  obtain ⟨t, ht, -, hquads⟩ := hpoison 1 (by decide +kernel)
  have hword : bufGet t ⟨0, 0, 0⟩ .a 4 4 = 0x7FC00000 := hquads 0 (by decide) 1 (by decide)
  rw [exec_attention] at ht
  injection ht with ht
  exact word_afterPoison pageRead_quiet (ht ▸ hword)

end

section
/-! PROOFS. KVPUT of page 0, which the walk of a chain takes for the chain's end. -/

set_option Elab.async false

namespace Sys2Proof.Machine

/-- A machine in which page 0 is a page of LD 0's pool 0, with two sharers and STATE 1. -/
def pageZeroState : State :=
  { setLdReg (loneState loneGroup) 0 0x411 1 with mem := [(20, 2), (26, 0x40)] }

/-- The context in which the lone group issues there. -/
def pageZeroCtx : Ctx := { loneCtx loneGroup with s := pageZeroState }

/-- KVPUT of page 0. -/
def putZero : OneA := ⟨plainHdr, .im 0⟩

/-- The header of page 0 after a step. -/
def zeroHeader (o : Out) : Option Nat := match o with
  | .next t => some (kvRead t 0).1
  | _ => none

theorem zeroHeader_kvput : zeroHeader (exec (.kvput putZero) pageZeroState) = some (2 ^ 161 + 2 ^ 214) := by decide +kernel

end Sys2Proof.Machine

open Sys2Proof Sys2Proof.Machine

/-- Refutes O33: KVPUT of page 0 passes its checks and changes nothing, where its count of sharers was to fall. -/
theorem not_kvPages : ¬ Obligations.KvPages := by
  unfold Obligations.KvPages
  rintro ⟨-, hput, -⟩
  have hcheck : kvCheck pageZeroState 0 (kvCtxTenant pageZeroCtx) 0 = .ok (kvHeader pageZeroState 0) := by
    have hpooled : kvPooled pageZeroState 0 0 = true := by decide +kernel
    have hstate : kvState (kvHeader pageZeroState 0).1 ≠ 0 := by decide +kernel
    have htenant : kvTenant (kvHeader pageZeroState 0).1 = kvCtxTenant pageZeroCtx := by decide +kernel
    simp only [kvCheck, hpooled, hstate, htenant, Bool.not_true, Bool.false_eq_true, ne_eq, not_true_eq_false, if_false]
  obtain ⟨t, g, hends, -, -, hheader⟩ := ((hput pageZeroState pageZeroCtx putZero rfl (by decide) ⟨rfl, rfl, rfl, rfl⟩).2 _ hcheck).1
    (by decide +kernel)
  have hzero := zeroHeader_kvput
  rw [hends.1] at hzero
  have hafter : (kvRead t 0).1 = 2 ^ 161 + 2 ^ 214 := Option.some.inj hzero
  have hbefore : kvClean ((kvRead pageZeroState 0).1 - 2 ^ 160) = 2 ^ 160 + 2 ^ 214 := by decide +kernel
  have hfall : (kvRead t 0).1 = kvClean ((kvRead pageZeroState 0).1 - 2 ^ 160) := hheader
  rw [hafter, hbefore] at hfall
  omega

end

section
/-! PROOFS. A wait that ends while a trap is held: the entry has met what it waited for and stays until the trap has been taken. The
clauses for room in the copy engine's queue, in a list of batches and in a bin ask that its lanes go on, and do not ask that no trap is
held. -/

set_option Elab.async false

namespace Sys2Proof.Machine

/-- The entry of lane 0, waiting. -/
def heldEntry (w : Wait) : Entry := ⟨mkPtr 1 0, 128, 1, 0, .waiting w 0⟩

/-- The lone group, its lane waiting and a trap still to be taken. -/
def heldGroup (w : Wait) : Group :=
  { loneGroup with
    frontier := [heldEntry w]
    pendTrap := some default }

theorem waitAt_heldGroup (w : Wait) : waitAt (heldGroup w) 0 = some (heldEntry w, w) := by
  simp [waitAt, heldGroup, heldEntry, loneGroup, newGroup, frontOf, Entry.waits]

/-- The machine with that group; its gang has one empty bin. -/
def heldState (w : Wait) : State :=
  { loneState (heldGroup w) with
    gangs := [⟨⟨0, 0, 0⟩, 1, .resident, 0, [[⟨[], none⟩]], none, false, 0, none, false, []⟩]
    power := ⟨true, false, false, [], false⟩
    issuing := none }

/-- No entry of the group is ready after a step. -/
def noneReady (o : Out) : Bool := match o with
  | .next t => (groupOf t ⟨⟨0, 0, 0⟩, 0⟩).any fun g => (frontOf g).all fun e => e.st != .ready
  | _ => false

/-- Where no entry is ready after a step, no entry has gone on. -/
theorem not_becomes_wentOn {o : Out} {e : Entry} {P : State → Group → Prop} (h : noneReady o = true) (he : e.mask.getLsbD 0 = true) :
    ¬ Becomes o fun u => WentOn u ⟨⟨0, 0, 0⟩, 0⟩ e (P u) := by
  rintro ⟨u, rfl, g, hg, -, hgone⟩
  obtain ⟨e', hmem, hready, -⟩ := hgone 0 (by decide) he
  have hall : (frontOf g).all (fun e => e.st != .ready) = true := by simpa only [noneReady, hg, Option.any_some] using h
  have hne := List.all_eq_true.mp hall e' hmem
  rw [hready] at hne
  exact absurd hne (by decide)

end Sys2Proof.Machine

open Sys2Proof Sys2Proof.Machine

/-- Refutes O27: CSEAL, waiting for room, does not go on while a trap is held. -/
theorem not_copyRequests : ¬ Obligations.CopyRequests := by
  unfold Obligations.CopyRequests
  rintro ⟨-, -, -, -, -, hroom, -⟩
  let x : OneD := ⟨plainHdr, .g 1⟩
  refine not_becomes_wentOn (e := heldEntry _) ?_ (by rw [heldEntry]; decide)
    (hroom (heldState (.cseal (.cseal x))) ⟨⟨0, 0, 0⟩, 0⟩ (heldGroup (.cseal (.cseal x))) 0 (heldEntry (.cseal (.cseal x))) x
      ⟨rfl, rfl⟩ rfl (waitAt_heldGroup _) rfl)
  decide +kernel

/-- Refutes O34: LSPAWN, waiting for room in a bin, does not go on while a trap is held. -/
theorem not_ladderInstructions : ¬ Obligations.LadderInstructions := by
  unfold Obligations.LadderInstructions
  rintro ⟨-, -, hroom, -⟩
  refine not_becomes_wentOn (e := heldEntry _) ?_ (by rw [heldEntry]; decide)
    (hroom (heldState (.lspawn 0 [])) ⟨⟨0, 0, 0⟩, 0⟩ (loneTeam (heldGroup (.lspawn 0 []))) (heldGroup (.lspawn 0 [])) benchGrid 0
      (heldEntry (.lspawn 0 [])) 0 [] ⟨rfl, rfl⟩ rfl rfl rfl rfl (waitAt_heldGroup _)
      (by decide +kernel) (by decide +kernel) (by decide +kernel))
  decide +kernel

end

section
/-! PROOFS. A piece of a copy that is written to a device register: a write of the end-grid register of a queue block ends the grid,
and the buffers of its teams are gone with it. -/

set_option Elab.async false

namespace Sys2Proof.Machine

/-- A piece from W to the register by which a grid of LD 0 is ended, through the page that maps the queue block. -/
def endingPiece : Piece := ⟨.buf ⟨0, 0, 0⟩ .w 0, .mem (mkPtr 1 0x270), 8⟩

/-- A LINEAR request under way with that piece left. -/
def endingReq : Req where
  id := 5
  r := ⟨⟨0, 0, 0⟩, 0⟩
  core := 0
  raw := 2 ^ 408
  addr := 0
  st := .moving
  pin := some ⟨63, 1, 0x100000⟩
  bounds := [(1, BitVec.ofNat 128 ((2 ^ 56 - 1) * 2 ^ 64 + 31 * 2 ^ 59))]
  after := []
  left := 0
  todo := [endingPiece]
  rows := 0

/-- The machine with that request: the bench's tree, whose page maps the queue block of LD 0; byte 100 of W is 1. -/
def endingState : State :=
  { sectorWrite (bench State.reset []) 0x106000 (bytesOf (0xFF0000000000 + 0x47) 8) with
    issuing := none
    teams := [{ loneTeam loneGroup with w := [(100, 1)] }]
    reqs := [endingReq] }

/-- Byte 100 of W after a step. -/
def byteAfter (o : Out) : Option Nat := match o with
  | .next t => some (bufByte t ⟨0, 0, 0⟩ .w 100)
  | _ => none

theorem byteAfter_ending : byteAfter (exec (.copyLinear 0) endingState) = some 0 := by decide +kernel

theorem endingPiece_whole : endingPiece.Whole := ⟨by decide, by decide +kernel, by decide +kernel, fun _ => by simp [endingPiece]⟩

theorem pieceErr_endingPiece (f : Nat) :
    pieceErr { endingState with frees := f } (reqEng endingState endingReq false) endingPiece = none :=
  ((alike_frees endingState f).pieceErr (by decide +kernel) (by decide +kernel) (by decide +kernel)).trans (by decide +kernel)

end Sys2Proof.Machine

open Sys2Proof Sys2Proof.Machine

/-- Refutes O28: a LINEAR piece that is written to the end-grid register takes the buffers of the grid's teams with it. -/
theorem not_copyMoves : ¬ Obligations.CopyMoves := by
  unfold Obligations.CopyMoves
  rintro ⟨-, hmoves, -⟩
  have hacts : ActsOn endingState 0 1 endingReq := ⟨⟨rfl, rfl⟩, by decide +kernel, rfl⟩
  obtain ⟨u, hu, hmoved⟩ := hmoves endingState 0 1 endingReq { loneTeam loneGroup with w := [(100, 1)] } (.copyLinear 0) (by decide)
    hacts rfl (by refine ⟨?_, ?_, ?_, ?_⟩ <;> decide +kernel) (.inr rfl) (.inl (by decide))
    (fun x hx => by
      obtain rfl := List.mem_singleton.mp hx
      exact ⟨endingPiece_whole, pieceErr_endingPiece⟩)
    (fun h => absurd rfl h)
  obtain ⟨k, x, hk, hpiece, -⟩ | ⟨hrows, -⟩ := hmoved
  · obtain rfl : x = endingPiece := by
      have hmem : x ∈ [endingPiece] := List.mem_of_getElem? hk
      exact List.mem_singleton.mp hmem
    obtain ⟨hbuf, -⟩ := hpiece
    have hbefore : bufByte endingState ⟨0, 0, 0⟩ .w 100 = 1 := by decide +kernel
    have hafter := byteAfter_ending
    rw [hu] at hafter
    have hgone : bufByte u ⟨0, 0, 0⟩ .w 100 = 0 := Option.some.inj hafter
    rw [hbuf ⟨0, 0, 0⟩ .w 100, hbefore] at hgone
    exact absurd hgone (by decide)
  · exact hrows rfl

end

section
/-! PROOFS. A fill under way that has a piece to write to a device register: nothing in its clause says that a fill's pieces go to the
window's buffer. -/

set_option Elab.async false

namespace Sys2Proof.Machine

/-- A window whose STILE is under way and has a piece left that ends the grid. -/
def endingWindow : Window :=
  { freeWindow with
    st := .running
    pin := some ⟨63, 1, 0x100000⟩
    bounds := [(1, BitVec.ofNat 128 ((2 ^ 56 - 1) * 2 ^ 64 + 31 * 2 ^ 59))]
    filling := some 0
    todo := [endingPiece]
    ahead := [(0, 1)] }

/-- The team of the window; byte 100 of its W is 1. -/
def endingTeam : Team :=
  { loneTeam loneGroup with
    w := [(100, 1)]
    wins := [endingWindow] }

/-- The machine in which that window's program runs. -/
def fillingState : State :=
  { endingState with
    teams := [endingTeam]
    reqs := [] }

theorem byteAfter_stile : byteAfter (exec (.stile ⟨0, 0, 0⟩ 0) fillingState) = some 0 := by decide +kernel

theorem pieceErr_fill (f : Nat) :
    pieceErr { fillingState with frees := f } (winEng fillingState ⟨0, 0, 0⟩ endingWindow) endingPiece = none :=
  ((alike_frees fillingState f).pieceErr (by decide +kernel) (by decide +kernel) (by decide +kernel)).trans (by decide +kernel)

end Sys2Proof.Machine

open Sys2Proof Sys2Proof.Machine

/-- Refutes O31: the next step of a fill that has a piece for the end-grid register takes the buffers of the grid's teams with it. -/
theorem not_streamCommands : ¬ Obligations.StreamCommands := by
  unfold Obligations.StreamCommands
  rintro ⟨-, hfill, -⟩
  obtain ⟨u, hu, hsteps⟩ := hfill fillingState ⟨0, 0, 0⟩ 0 1 (.stile ⟨0, 0, 0⟩ 0) endingTeam 0 ⟨rfl, rfl⟩ rfl (by decide) rfl rfl
    (by decide +kernel) (.inl (by decide +kernel)) (fun _ => rfl) (by decide +kernel)
    (by refine ⟨?_, ?_, ?_, ?_⟩ <;> decide +kernel)
    ⟨.inl (by decide +kernel), fun x hx => by
      obtain rfl := List.mem_singleton.mp hx
      exact ⟨endingPiece_whole, pieceErr_fill⟩, fun h => absurd rfl h⟩
  obtain ⟨k, x, hk, hpiece, -⟩ | ⟨hrows, -⟩ := hsteps
  · obtain rfl : x = endingPiece := by
      have hmem : x ∈ [endingPiece] := List.mem_of_getElem? hk
      exact List.mem_singleton.mp hmem
    obtain ⟨hbuf, -⟩ := hpiece
    have hbefore : bufByte fillingState ⟨0, 0, 0⟩ .w 100 = 1 := by decide +kernel
    have hafter := byteAfter_stile
    rw [hu] at hafter
    have hgone : bufByte u ⟨0, 0, 0⟩ .w 100 = 0 := Option.some.inj hafter
    rw [hbuf ⟨0, 0, 0⟩ .w 100, hbefore] at hgone
    exact absurd hgone (by decide)
  · exact hrows rfl

end

section
/-! PROOFS. RSWAP of a node into a slot whose old root is not the node and has the node's place in the node table. -/

set_option Elab.async false

namespace Sys2Proof.Machine

/-- The root record of slot 0: generation 1, and an address that is the node's but for its low bits. -/
def aliasRoot : RootRec := ⟨true, 1, 0, 0, 0x100001, []⟩

/-- The lone group with the node's address in g2. -/
def aliasGroup : Group := setG loneGroup 2 0x100000

/-- The bench, with 0x100000 a published node that nothing counts, and that record in slot 0 of LD 0. -/
def aliasState : State :=
  let s := bench State.reset []
  { modLd (sectorWrite s (nodeEntPa s 0x100000) (bytesOf (2 ^ 63) 8)) 0 fun d => { d with slots := lset d.slots 0 aliasRoot } with
    grids := [benchGrid]
    teams := [loneTeam aliasGroup]
    issuing := some ⟨⟨⟨0, 0, 0⟩, 0⟩, mkPtr 1 0, 128, 1⟩ }

/-- The context in which the lone group issues there. -/
def aliasCtx : Ctx := { loneCtx aliasGroup with s := aliasState }

/-- RSWAP of that node into slot 0 where its generation is 1. -/
def aliasSwap : FourDABT := ⟨plainHdr, .g 1, .im 0, .g 2, .im 1⟩

/-- STATE of the node after a step. -/
def nodeAfter (o : Out) : Option Nat := match o with
  | .next t => some (nodeState t 0x100000)
  | _ => none

theorem nodeAfter_aliasSwap : nodeAfter (exec (.rswap aliasSwap) aliasState) = some 0 := by decide +kernel

end Sys2Proof.Machine

open Sys2Proof Sys2Proof.Machine

/-- Refutes O38: the old root's count falls at the node's place in the table, to zero, and frees the node that is published. -/
theorem not_treeInstructions : ¬ Obligations.TreeInstructions := by
  unfold Obligations.TreeInstructions
  rintro ⟨-, -, hswap, -⟩
  obtain ⟨-, -, -, -, -, hdone⟩ := hswap aliasState aliasCtx aliasSwap rfl (by decide +kernel) (by decide)
    (by refine ⟨?_, ?_, ?_, ?_, ?_⟩ <;> decide +kernel) (fun f hf => by cases hf) (by refine ⟨?_, ?_, ?_, ?_⟩ <;> decide +kernel)
  obtain ⟨t, g, hends, -, -, -, hstate, -⟩ := hdone (by decide +kernel) (by decide +kernel) (by decide +kernel) (by decide +kernel)
    (by decide +kernel) (fun _ hroot => absurd hroot (by decide +kernel))
  have hafter := nodeAfter_aliasSwap
  rw [hends.1] at hafter
  have hfree : nodeState t 0x100000 = 0 := Option.some.inj hafter
  have hpublished : nodeState t 0x100000 = 2 := hstate
  rw [hpublished] at hfree
  exact absurd hfree (by decide)

end

section
/-! PROOFS. What an issue quarter chooses, and the ends of parks and delays. -/

set_option Elab.async false

namespace Sys2Proof.Machine

/-! The buffers of teams that change elsewhere. -/

theorem teamOf_modTeam {s : State} {r : TeamRef} {f : Team → Team} (hf : ∀ t, t.r = r → (f t).r = r) (q : TeamRef) :
    teamOf (modTeam s r f) q = if q = r then (teamOf s r).map f else teamOf s q := by
  split
  · next h => subst h; exact teamOf_modTeam_same s q f hf
  · next h => exact teamOf_modTeam_other s r q f hf h

/-- A change of a team that keeps its buffers keeps every byte of all buffers. -/
theorem bytesKept_modTeam {s : State} {r : TeamRef} {f : Team → Team} (hr : ∀ t, t.r = r → (f t).r = r)
    (hf : ∀ t b, bufOf (f t) b = bufOf t b) : BytesKept s (modTeam s r f) := by
  refine ⟨rfl, fun q b k => ?_⟩
  by_cases hq : q = r
  · subst hq
    unfold bufByte bufGet
    rw [teamOf_modTeam_same _ _ _ hr]
    cases teamOf s q with
    | none => rfl
    | some t => simp only [Option.map_some, hf]
  · exact bufByte_congr (teamOf_modTeam_other _ _ _ _ hr hq) b k

theorem bytesKept_modGroup (s : State) (r : GroupRef) (f : Group → Group) : BytesKept s (modGroup s r f) :=
  bytesKept_modTeam (fun _ h => h) (fun _ b => by cases b <;> rfl)

/-! The choice of an entry. -/

theorem outranks_iff (a b : Entry) : outranks a b = true ↔ b.prio < a.prio ∨ (a.prio = b.prio ∧ a.pc < b.pc) := by
  simp [outranks]

theorem not_outranks (a b : Entry) : outranks a b = false ↔ a.prio < b.prio ∨ (a.prio = b.prio ∧ b.pc ≤ a.pc) := by
  rw [Bool.eq_false_iff, ne_eq, outranks_iff]
  bv_omega

theorem topEntry_none {f : List Entry} (h : topEntry f = none) : f = [] := by
  cases f with
  | nil => rfl
  | cons b r => rw [topEntry] at h; split at h <;> [cases h; (split at h <;> cases h)]

/-- The top entry of a frontier is one of it that no other outranks. -/
theorem topEntry_spec (f : List Entry) {e : Entry} (h : topEntry f = some e) : e ∈ f ∧ ∀ x ∈ f, outranks x e = false := by
  induction f generalizing e with
  | nil => cases h
  | cons a r ih =>
    rw [topEntry] at h
    cases hr : topEntry r with
    | none =>
      rw [hr] at h
      obtain rfl : a = e := Option.some.inj h
      obtain rfl := topEntry_none hr
      exact ⟨List.mem_cons_self .., fun x hx => by
        obtain rfl := List.mem_singleton.mp hx
        exact (not_outranks ..).2 (.inr ⟨rfl, BitVec.le_refl _⟩)⟩
    | some b =>
      obtain ⟨hb, htop⟩ := ih hr
      rw [hr] at h
      dsimp only at h
      split at h
      · next hout =>
        obtain rfl : b = e := Option.some.inj h
        refine ⟨List.mem_cons_of_mem _ hb, fun x hx => ?_⟩
        rcases List.mem_cons.mp hx with rfl | hx
        · rw [not_outranks]
          exact ((outranks_iff ..).1 hout).imp id fun ⟨hp, hpc⟩ => ⟨hp.symm, BitVec.le_of_lt hpc⟩
        · exact htop x hx
      · next hout =>
        obtain rfl : a = e := Option.some.inj h
        have hout := (not_outranks ..).1 (Bool.eq_false_iff.2 hout)
        refine ⟨List.mem_cons_self .., fun x hx => ?_⟩
        rw [not_outranks]
        rcases List.mem_cons.mp hx with rfl | hx
        · exact .inr ⟨rfl, BitVec.le_refl _⟩
        · have hx := (not_outranks ..).1 (htop x hx)
          bv_omega

/-- The chosen entry is aged where an issuable one is, and no issuable entry of its sort outranks it. -/
theorem chooseEntry_spec {gr : Grid} {g : Group} {e : Entry} (h : chooseEntry gr g = some e) :
    e ∈ frontOf g ∧ issuable gr g e = true ∧ ∀ f ∈ frontOf g, issuable gr g f = true →
      (1024 ≤ f.age → 1024 ≤ e.age) ∧ ((1024 ≤ f.age ∨ e.age < 1024) → outranks f e = false) := by
  unfold chooseEntry at h
  extract_lets f at h
  split at h
  · next x hx =>
    obtain rfl : x = e := Option.some.inj h
    obtain ⟨hmem, htop⟩ := topEntry_spec _ hx
    obtain ⟨hmem, hage⟩ := List.mem_filter.mp hmem
    obtain ⟨hin, hiss⟩ := List.mem_filter.mp hmem
    have hage : 1024 ≤ x.age := of_decide_eq_true hage
    exact ⟨hin, hiss, fun f hf hi => ⟨fun _ => hage, fun hor =>
      htop f (List.mem_filter.mpr ⟨List.mem_filter.mpr ⟨hf, hi⟩, decide_eq_true (by omega)⟩)⟩⟩
  · next hnone =>
    obtain ⟨hmem, htop⟩ := topEntry_spec _ h
    obtain ⟨hin, hiss⟩ := List.mem_filter.mp hmem
    have hyoung : ∀ f ∈ frontOf g, issuable gr g f = true → ¬1024 ≤ f.age := fun f hf hi hage =>
      List.not_mem_nil (topEntry_none hnone ▸ List.mem_filter.mpr ⟨List.mem_filter.mpr ⟨hf, hi⟩, decide_eq_true hage⟩)
    exact ⟨hin, hiss, fun f hf hi => ⟨fun hage => absurd hage (hyoung f hf hi), fun _ => htop f (List.mem_filter.mpr ⟨hf, hi⟩)⟩⟩

/-! The choice of a group. -/

theorem leastRecent_none {l : List (Grid × Team × Group)} (h : leastRecent l = none) : l = [] := by
  cases l with
  | nil => rfl
  | cons b r => rw [leastRecent] at h; split at h <;> [cases h; (split at h <;> cases h)]

theorem leastRecent_spec (l : List (Grid × Team × Group)) {x : Grid × Team × Group} (h : leastRecent l = some x) :
    x ∈ l ∧ ∀ y ∈ l, x.2.2.stamp ≤ y.2.2.stamp := by
  induction l generalizing x with
  | nil => cases h
  | cons a r ih =>
    rw [leastRecent] at h
    cases hr : leastRecent r with
    | none =>
      rw [hr] at h
      obtain rfl : a = x := Option.some.inj h
      obtain rfl := leastRecent_none hr
      exact ⟨List.mem_cons_self .., fun y hy => (congrArg (·.2.2.stamp) (List.mem_singleton.mp hy)).ge⟩
    | some b =>
      obtain ⟨hb, hleast⟩ := ih hr
      rw [hr] at h
      dsimp only at h
      split at h
      · next hlt =>
        obtain rfl : b = x := Option.some.inj h
        refine ⟨List.mem_cons_of_mem _ hb, fun y hy => ?_⟩
        rcases List.mem_cons.mp hy with rfl | hy
        · exact hlt.le
        · exact hleast y hy
      · next hge =>
        obtain rfl : a = x := Option.some.inj h
        refine ⟨List.mem_cons_self .., fun y hy => ?_⟩
        rcases List.mem_cons.mp hy with rfl | hy
        · exact le_refl _
        · exact (Nat.le_of_not_lt hge).trans (hleast y hy)

theorem mem_quarterGroups {s : State} {core q now : Nat} {gr : Grid} {t : Team} {g : Group} (h : (gr, t, g) ∈ quarterGroups s core q now) :
    t ∈ s.teams ∧ t.core = core ∧ g ∈ t.groups ∧ g.id % 4 = q := by
  obtain ⟨u, hu, hg⟩ := List.mem_flatMap.mp h
  obtain ⟨hu, hcore⟩ := List.mem_filter.mp hu
  split at hg
  · cases hg
  · obtain ⟨y, hy, heq⟩ := List.mem_map.mp hg
    obtain ⟨rfl, rfl, rfl⟩ : _ = gr ∧ u = t ∧ y = g := by simpa using heq
    obtain ⟨hy, hq⟩ := List.mem_filter.mp hy
    simp only [Bool.and_eq_true, beq_iff_eq] at hcore hq
    exact ⟨hu, hcore.1.1, hy, hq.1⟩

/-! An issue quarter's cycle. -/

theorem groupOf_modGroup_some {s : State} {r : GroupRef} {g : Group} (f : Group → Group) (hf : ∀ g, g.id = r.g → (f g).id = r.g)
    (h : groupOf s r = some g) : groupOf (modGroup s r f) r = some (f g) := by rw [groupOf_modGroup_same s r f hf, h]; rfl

/-- The machine at another cycle. -/
def atCycle (s : State) (n : Nat) : State := { s with cycle := n }

/-- A group that parks with the results that are still out. -/
def parkWith (out : List Outst) (g : Group) : Group := { g with outst := out, swPark := true }

/-- A group whose park is over. -/
def unparked (g : Group) : Group := { g with swPark := false, outst := [] }

/-- A group of which an entry issues in a cycle. -/
def issuedAt (out : List Outst) (e : Entry) (now : Nat) (g : Group) : Group :=
  { setFront g (ageAll (frontOf g) e) with outst := out, stamp := now }

section
variable {s : State} {core q : Nat} {gr : Grid} {t : Team} {g : Group} {e : Entry}

/-- The cycle in which the quarter's group and entry are chosen. -/
theorem issueCycle_of (hrun : Running s)
    (hleast : leastRecent (quarterGroups (atCycle s (s.cycle + 1)) core q (s.cycle + 1)) = some (gr, t, g))
    (hchoose : chooseEntry gr g = some e) : issueCycle s core q =
      if (e.mask &&& g.last == 0 && !(stillOut g.outst (s.cycle + 1)).isEmpty) = true then
        modGroup (atCycle s (s.cycle + 1)) ⟨t.r, g.id⟩ (parkWith (stillOut g.outst (s.cycle + 1)))
      else { modGroup (atCycle s (s.cycle + 1)) ⟨t.r, g.id⟩ (issuedAt (stillOut g.outst (s.cycle + 1)) e (s.cycle + 1)) with
        issuing := some ⟨⟨t.r, g.id⟩, e.pc, e.prio, e.mask⟩ } := by
  obtain ⟨hon, hhalt⟩ := hrun
  unfold atCycle at hleast
  simp only [issueCycle, hon, hhalt, hleast, hchoose, Bool.not_true, Bool.or_false, if_false, Bool.false_eq_true]
  rfl

end

theorem unpark_of {s : State} {r : GroupRef} {g : Group} (hw : wakeable s r = some g) (hpark : g.swPark = true) (hfar : awaitsFar g = false) :
    unpark s r = modGroup (atCycle s (lastDue g s.cycle)) r unparked := by
  rw [unpark, hw]
  simp only [hpark, hfar, Bool.not_false, Bool.and_self, if_true]
  rfl

/-- The cycle by which an outstanding result is written, from a cycle on. -/
def dueBy (n : Nat) (o : Outst) : Nat := match o.due with
  | .cycle k => max n k
  | .far _ => n

theorem le_dueBy (n : Nat) (o : Outst) : n ≤ dueBy n o := by
  unfold dueBy; split
  · exact le_max_left ..
  · exact le_refl n

theorem le_foldl_dueBy (l : List Outst) (n : Nat) :
    n ≤ l.foldl dueBy n ∧ ∀ o ∈ l, ∀ k, o.due = .cycle k → k ≤ l.foldl dueBy n := by
  induction l generalizing n with
  | nil => exact ⟨le_refl n, fun o ho => absurd ho List.not_mem_nil⟩
  | cons a r ih =>
    obtain ⟨hle, hmem⟩ := ih (dueBy n a)
    refine ⟨(le_dueBy n a).trans hle, fun o ho k hk => ?_⟩
    rcases List.mem_cons.mp ho with rfl | ho
    · refine le_trans ?_ hle
      rw [dueBy, hk]
      exact le_max_right n k
    · exact hmem o ho k hk

end Sys2Proof.Machine

open Sys2Proof Sys2Proof.Machine

/-- Settles O50: the choices of an entry and of a group, and what the cycle and the ends of parks and delays then are. -/
theorem issueOrder : Obligations.IssueOrder := by
  unfold Obligations.IssueOrder
  refine ⟨fun gr g e h => ?_, fun s core q gr t g e hrun hleast hchoose => ?_, fun s r g hw hpark hfar => ?_, fun s r g hw => ?_⟩
  · obtain ⟨hmem, hiss, hall⟩ := chooseEntry_spec h
    exact ⟨hmem, hiss, fun f hf hi => ⟨(hall f hf hi).1, fun hor => (not_outranks f e).1 ((hall f hf hi).2 hor)⟩⟩
  · obtain ⟨hmem, hall⟩ := leastRecent_spec _ hleast
    obtain ⟨-, hcore, -, hq⟩ := mem_quarterGroups hmem
    have hcycle := issueCycle_of hrun hleast hchoose
    refine ⟨⟨hq, hcore, hall⟩, fun hissue => ⟨_, congrArg Host.Outcome.next hcycle, ?_⟩, fun hlast hout ht hg => ⟨_, congrArg Host.Outcome.next hcycle, ?_⟩⟩
    · rw [if_neg fun hcond => by
        obtain ⟨hlast, hout⟩ : e.mask &&& g.last = 0 ∧ stillOut g.outst (s.cycle + 1) ≠ [] := by simpa using hcond
        exact hissue.elim (fun h => h hlast) hout]
      exact ⟨rfl, rfl, bytesKept_modGroup (atCycle s (s.cycle + 1)) _ _⟩
    · rw [if_pos (by simp [hlast, hout])]
      have hof : groupOf (atCycle s (s.cycle + 1)) ⟨t.r, g.id⟩ = some g := by
        show (teamOf s t.r).bind _ = _
        rw [ht, Option.bind_some, hg]
      exact ⟨rfl, _, groupOf_modGroup_some _ (fun _ h => h) hof, rfl⟩
  · have hof : groupOf (atCycle s (lastDue g s.cycle)) r = some g := groupOf_wakeable hw
    exact ⟨_, congrArg Host.Outcome.next (unpark_of hw hpark hfar), bytesKept_modGroup (atCycle s (lastDue g s.cycle)) _ _, _,
      groupOf_modGroup_some _ (fun _ h => h) hof, rfl, rfl, rfl, rfl, fun o ho n hn => (le_foldl_dueBy g.outst s.cycle).2 o ho n hn⟩
  · show Host.Outcome.next (delayEnd s r) = _
    rw [delayEnd, hw]

end

section
/-! PROOFS. A buffer access that fails a check. -/

set_option Elab.async false

namespace Sys2Proof.Machine

variable {s : State} {c : Ctx}

theorem traps_bufTrap {h : Hdr} (hc : ctxOf s h = some c) (can : CanTrap c) (sw : Bool) (e : Nat × BufErr) :
    Traps c (.next (complete c h sw (bufTrap e))) e.2.cause e.2.detail e.1 e.2.addr := by
  exact traps_of_trap hc can sw _

theorem traps_loadBuf {x : LdA} (hc : ctxOf s x.h = some c) (hne : c.lanes ≠ []) (can : CanTrap c) {b : Buf} {i : Instr} {e : Nat × BufErr}
    (hexec : exec i s = withIssue x.h false s (loadBuf b i x))
    (he : placeAll (accLanes c x.a.isV) (bufAddr s c.t c.g b x.mem x.a x.addr x.sz.bytes) = .error e) :
    Traps c (exec i s) e.2.cause e.2.detail e.1 e.2.addr := by
  have hs := (ctxOf_spec hc).1
  have hload : loadBuf b i x c = bufTrap e := by 
    obtain ⟨l, hl⟩ := List.exists_mem_of_ne_nil _ hne
    rw [loadBuf, c.any_of_lane l hl, hs, he]
    rfl
  rw [hexec, withIssue_of hc, hload]
  exact traps_bufTrap hc can false e

theorem traps_storeBuf {x : StA} (hc : ctxOf s x.h = some c) (can : CanTrap c) {b : Buf} {i : Instr} {e : Nat × BufErr}
    (hexec : exec i s = withIssue x.h false s (storeBuf b x))
    (he : placeAll (accLanes c (x.a.isV || x.b.isV)) (bufAddr s c.t c.g b x.mem x.a x.addr x.sz.bytes) = .error e) :
    Traps c (exec i s) e.2.cause e.2.detail e.1 e.2.addr := by
  have hs := (ctxOf_spec hc).1
  have hstore : storeBuf b x c = bufTrap e := by rw [storeBuf, hs, he]
  rw [hexec, withIssue_of hc, hstore]
  exact traps_bufTrap hc can false e

theorem traps_acc {x : StA} (hc : ctxOf s x.h = some c) (can : CanTrap c) {e : Nat × BufErr}
    (he : placeAll c.lanes (bufAddr s c.t c.g .c x.mem x.a x.addr x.sz.bytes) = .error e) :
    Traps c (exec (.acc x) s) e.2.cause e.2.detail e.1 e.2.addr := by
  have hs := (ctxOf_spec hc).1
  show Traps c (execAcc x s) _ _ _ _
  rw [execAcc, withIssue_of hc]
  simp only [hs, he]
  exact traps_bufTrap hc can false e

/-! The checks of an address. -/

section
variable {t : Team} {b : Buf} {mem : Bool} {a : Int} {size align : Nat} {upd : DWord}

/-- The member that an address names, and its offset there. -/
def namedMember (t : Team) (b : Buf) (mem : Bool) (a : Int) : Nat := if b = .a ∧ mem = true then a.toNat / 2 ^ 20 else t.member
def namedOffset (b : Buf) (a : Int) : Nat := if b = .a then a.toNat % 2 ^ 20 else a.toNat

/-- The address as a trap describes it. -/
def namedAddr (t : Team) (b : Buf) (mem : Bool) (a : Int) : DWord :=
  BitVec.ofNat 64 (if b = .a then namedMember t b mem a * 2 ^ 20 + namedOffset b a else namedOffset b a)

/-- The team that an address names: none outside the gang. -/
def namedTeam (s : State) (t : Team) (b : Buf) (mem : Bool) (a : Int) : Option Team :=
  if namedMember t b mem a < gangSize s t.r then teamOf s (memberRef t (namedMember t b mem a)) else none

theorem bufPlace_beyond (h : a < 0 ∨ (2 ^ bufWidth b : Nat) ≤ a) :
    bufPlace s t b mem a size align upd = .error ⟨cBUFRANGE, 1, BitVec.ofInt 64 a⟩ := by rw [bufPlace, if_pos h]

theorem bufCheck_named : bufCheck s t b (namedMember t b mem a) (namedOffset b a) size align = match namedTeam s t b mem a with
    | none => some (cGANGADDR, 0)
    | some u => if bufLen u b < namedOffset b a + size then some (cBUFRANGE, 1)
      else if namedOffset b a % align ≠ 0 then some (cBUFRANGE, 2) else none := by
  unfold bufCheck namedTeam
  by_cases hm : namedMember t b mem a < gangSize s t.r
  · cases hteam : teamOf s (memberRef t (namedMember t b mem a)) <;> simp only [hteam, if_neg (Nat.not_le.2 hm), if_pos hm]
  · rw [if_pos (Nat.le_of_not_lt hm), if_neg hm]

theorem bufPlace_within (h : ¬(a < 0 ∨ (2 ^ bufWidth b : Nat) ≤ a)) : bufPlace s t b mem a size align upd =
    match bufCheck s t b (namedMember t b mem a) (namedOffset b a) size align with
    | some e => .error ⟨e.1, e.2, namedAddr t b mem a⟩
    | none => .ok ⟨namedMember t b mem a, namedOffset b a, upd⟩ := by
  rw [bufPlace, if_neg h]; rfl

theorem bufPlace_nobody (h : ¬(a < 0 ∨ (2 ^ bufWidth b : Nat) ≤ a)) (hu : namedTeam s t b mem a = none) :
    bufPlace s t b mem a size align upd = .error ⟨cGANGADDR, 0, namedAddr t b mem a⟩ := by
  rw [bufPlace_within h, bufCheck_named, hu]

theorem bufPlace_past {u : Team} (h : ¬(a < 0 ∨ (2 ^ bufWidth b : Nat) ≤ a)) (hu : namedTeam s t b mem a = some u)
    (hlen : bufLen u b < namedOffset b a + size) : bufPlace s t b mem a size align upd = .error ⟨cBUFRANGE, 1, namedAddr t b mem a⟩ := by
  rw [bufPlace_within h, bufCheck_named, hu]
  simp only [if_pos hlen]

theorem bufPlace_misaligned {u : Team} (h : ¬(a < 0 ∨ (2 ^ bufWidth b : Nat) ≤ a)) (hu : namedTeam s t b mem a = some u)
    (hlen : ¬bufLen u b < namedOffset b a + size) (halign : namedOffset b a % align ≠ 0) :
    bufPlace s t b mem a size align upd = .error ⟨cBUFRANGE, 2, namedAddr t b mem a⟩ := by
  rw [bufPlace_within h, bufCheck_named, hu]
  simp only [if_neg hlen, if_pos halign]

theorem bufPlace_legal {u : Team} (h : ¬(a < 0 ∨ (2 ^ bufWidth b : Nat) ≤ a)) (hu : namedTeam s t b mem a = some u)
    (hlen : ¬bufLen u b < namedOffset b a + size) (halign : ¬namedOffset b a % align ≠ 0) :
    bufPlace s t b mem a size align upd = .ok ⟨namedMember t b mem a, namedOffset b a, upd⟩ := by
  rw [bufPlace_within h, bufCheck_named, hu]
  simp only [if_neg hlen, if_neg halign]

end

end Sys2Proof.Machine

open Sys2Proof Sys2Proof.Machine

/-- Settles O17: the access functions trap with what the placing of their lanes reports, and that is the first check that fails. -/
theorem bufferChecks : Obligations.BufferChecks := by
  unfold Obligations.BufferChecks
  refine ⟨fun s c x e hc hne can p hp he => ?_, fun s c x e hc hne can => ⟨fun p hp he => ?_, traps_acc hc can⟩,
    fun s t b mem a size align upd => ?_⟩
  · simp only [List.mem_cons, List.not_mem_nil, or_false] at hp
    rcases hp with rfl | rfl | rfl
    · exact traps_loadBuf hc hne can rfl he
    · exact traps_loadBuf hc hne can rfl he
    · exact traps_loadBuf hc hne can rfl he
  · simp only [List.mem_cons, List.not_mem_nil, or_false] at hp
    rcases hp with rfl | rfl
    · exact traps_storeBuf hc can rfl he
    · exact traps_storeBuf hc can rfl he
  · intro m off addr r width
    have hwidth : width = bufWidth b := by cases b <;> rfl
    rw [hwidth]
    split
    · next h => exact bufPlace_beyond h
    · next h =>
      split
      · next hu => exact bufPlace_nobody h hu
      · next u hu =>
        split
        all_goals
          split
          · next hlen => exact bufPlace_past h hu hlen
          · next hlen =>
            split
            · next halign => exact bufPlace_misaligned h hu hlen halign
            · next halign => exact bufPlace_legal h hu hlen halign

end

section
/-! PROOFS. Reads and writes of bytes whose sectors have computed check bytes, wherever they lie. -/

set_option Elab.async false

namespace Sys2Proof.Machine

/-! Reads of clean bytes. -/

theorem isHbm_sector {pa i : Nat} (h : pa % 32 + i < 32) : isHbm (pa + i) = isHbm pa := by
  simp only [isHbm, decide_eq_decide]
  omega

theorem readSec_good {s : State} (hs : s.sram = []) {sec : Nat} {b : List Byte} (h : secDecode s sec = .good b) :
    readSec s sec = (b, .ok, s) := by
  simp only [readSec, h, hs, List.isEmpty_nil, if_true]

theorem secDecode_clean {s : State} {sec : Nat} (h : (stGet s.ecc sec).getLsbD 32 = false) :
    secDecode s sec = .good ((List.range 32).map fun i => look s (32 * sec + i)) := by
  have hline (i : Nat) (hi : i < 32) : (32 * sec + i) / 128 = sec / 4 := by omega
  unfold secDecode
  split
  · next hp =>
    refine congrArg SecSt.good (List.ext_getElem (by simp) fun i h1 _ => ?_)
    have hi : i < 32 := by simpa using h1
    rw [List.getElem_replicate]
    simp [look, hline i hi, hp]
  · next hp =>
    simp only [h, Bool.not_false, if_true]
    refine congrArg SecSt.good (List.ext_getElem (by simp [storedBytes]) fun i h1 _ => ?_)
    have hi : i < 32 := by simpa [storedBytes] using h1
    simp [look, hline i hi, hp, storedBytes]

/-- A read of clean bytes within a sector. -/
theorem readIn_look {s : State} (hs : s.sram = []) {pa k : Nat} (hk : pa % 32 + k ≤ 32) (hc : CleanByte s pa) :
    readIn s pa k = ((List.range k).map fun i => look s (pa + i), .ok, s) := by
  unfold readIn
  split
  · next hb =>
    rw [readSec_good hs (secDecode_clean (hc hb))]
    refine Prod.ext (List.ext_getElem (by simp; omega) fun i h1 h2 => ?_) rfl
    simp [show 32 * (pa / 32) + (pa % 32 + i) = pa + i by omega]
  · next hb =>
    refine Prod.ext ?_ rfl
    split
    · next hp =>
      refine List.ext_getElem (by simp) fun i h1 _ => ?_
      have hi : i < k := by simpa using h1
      simp [look, show (pa + i) / 128 = pa / 128 by omega, hp]
    · next hp =>
      refine List.map_congr_left fun i hi => ?_
      have hi := List.mem_range.1 hi
      simp [look, show (pa + i) / 128 = pa / 128 by omega, hp]

theorem look_congr {s t : State} (hm : t.mem = s.mem) (hp : t.clearPend = s.clearPend) (b : Nat) : look t b = look s b := by
  unfold look isPend; rw [hm, hp]

/-- The pieces of a read of clean bytes. -/
theorem foldl_readIn {s : State} (hs : s.sram = []) (fuel pa k : Nat) (bs : List Byte) (hc : CleanAt s pa k) (hf : k = 0 ∨ pa % 32 + k ≤ 32 * fuel) :
    (pieces fuel pa k).foldl (fun (acc : List Byte × RdSt × State) p =>
      let r := readIn acc.2.2 p.1 p.2
      (acc.1 ++ r.1, if acc.2.1 = .ok then r.2.1 else acc.2.1, r.2.2)) (bs, .ok, s) =
      (bs ++ (List.range k).map fun i => look s (pa + i), .ok, s) := by
  induction fuel generalizing pa k bs with
  | zero =>
    obtain rfl : k = 0 := by omega
    simp [pieces, piecesBy]
  | succ fuel ih =>
    unfold pieces piecesBy
    by_cases h0 : k = 0
    · subst h0; simp
    · rw [if_neg h0, List.foldl_cons]
      have hm : pa % 32 + min k (32 - pa % 32) ≤ 32 := by omega
      have hread : readIn s pa (min k (32 - pa % 32)) = _ := readIn_look hs hm (by simpa [CleanByte] using hc 0 (by omega))
      have hrest := ih (pa + min k (32 - pa % 32)) (k - min k (32 - pa % 32))
        (bs ++ (List.range (min k (32 - pa % 32))).map fun i => look s (pa + i)) (hc.sub (by omega) (by omega)) (by omega)
      dsimp only
      rw [hread]
      dsimp only
      rw [if_pos rfl]
      refine hrest.trans (Prod.ext ?_ rfl)
      dsimp only
      rw [List.append_assoc]
      congr 1
      conv_rhs => rw [show k = min k (32 - pa % 32) + (k - min k (32 - pa % 32)) by omega, List.range_add, List.map_append, List.map_map]
      refine congrArg _ (List.map_congr_left fun i _ => ?_)
      simp [Nat.add_assoc]

/-- A read of clean bytes gives them, ends well and is quiet. -/
theorem readMem_look {s : State} (hs : s.sram = []) {pa k : Nat} (hc : CleanAt s pa k) :
    ∃ t, Quiet s t ∧ readMem s pa k = ((List.range k).map fun i => look s (pa + i), .ok, t) := by
  have hq := readLines_quiet hs pa k
  refine ⟨readLines s pa k, hq, ?_⟩
  have hs' : (readLines s pa k).sram = [] := hq.sram.trans hs
  have hc' : CleanAt (readLines s pa k) pa k := by unfold CleanAt; rw [hq.ecc]; exact hc
  have hlook (b : Nat) : look (readLines s pa k) b = look s b := look_congr hq.alike.mem hq.alike.pend b
  unfold readMem
  rw [foldl_readIn hs' _ pa k [] hc' (.inr (by omega))]
  simp [hlook]

theorem readMem_clean {s : State} (hs : s.sram = []) {pa k : Nat} (hc : CleanAt s pa k) :
    ∃ t, Quiet s t ∧ readMem s pa k = (peekBytes s pa k, .ok, t) := by
  rw [peekBytes_clean hc]; exact readMem_look hs hc

theorem Quiet.bytesKept {s t : State} (h : Quiet s t) : BytesKept s t := by rw [h]; exact ⟨rfl, fun _ _ _ => rfl⟩

/-! Writes of clean bytes. -/

/-- A write within a clean sector, in HBM or not. -/
theorem wrote_writeIn_any {s : State} {pa : Nat} {bs : List Byte} (hs : s.sram = []) (hc : CleanByte s pa)
    (h0 : 0 < bs.length) (hl : pa % 32 + bs.length ≤ 32) : Wrote s (writeIn s pa bs) pa bs := by
  by_cases hb : isHbm pa = true
  · exact wrote_writeIn hs hb hc h0 hl
  · rw [writeIn, if_neg hb]
    exact wrote_poke hs (by omega) rfl rfl (openLine_sram s _) fun b h => clean_openLine (pa / 128) h

theorem wrote_pieces_any (fuel : Nat) (s : State) (pa : Nat) (bs : List Byte) (hs : s.sram = [])
    (hc : CleanAt s pa bs.length) (hf : bs.length = 0 ∨ pa % 32 + bs.length ≤ 32 * fuel) :
    Wrote s ((pieces fuel pa bs.length).foldl (fun (acc : State × List Byte) p =>
      (writeIn acc.1 p.1 (acc.2.take p.2), acc.2.drop p.2)) (s, bs)).1 pa bs := by
  induction fuel generalizing s pa bs with
  | zero =>
    obtain rfl : bs = [] := List.eq_nil_of_length_eq_zero (by omega)
    exact Wrote.nil hs
  | succ fuel ih =>
    unfold pieces piecesBy
    by_cases h0 : bs.length = 0
    · obtain rfl : bs = [] := List.eq_nil_of_length_eq_zero h0
      exact Wrote.nil hs
    · rw [if_neg h0]
      have hm : (bs.take (min bs.length (32 - pa % 32))).length = min bs.length (32 - pa % 32) := by simp
      have hw : Wrote s (writeIn s pa (bs.take (min bs.length (32 - pa % 32)))) pa (bs.take (min bs.length (32 - pa % 32))) :=
        wrote_writeIn_any hs (by simpa [CleanByte] using hc 0 (by omega)) (by omega) (by omega)
      have hd : (bs.drop (min bs.length (32 - pa % 32))).length = bs.length - min bs.length (32 - pa % 32) := by simp
      have hrest := ih (writeIn s pa (bs.take (min bs.length (32 - pa % 32)))) (pa + min bs.length (32 - pa % 32))
        (bs.drop (min bs.length (32 - pa % 32))) hw.sram
        (fun i hi => hw.clean _ (by rw [Nat.add_assoc]; exact hc _ (by omega))) (by rw [hd]; omega)
      rw [hd] at hrest
      have := hw.append (by rwa [hm])
      rwa [List.take_append_drop] at this

/-- A write to clean bytes. -/
theorem wrote_writeMem_any {s : State} {pa : Nat} {bs : List Byte} (hs : s.sram = []) (hc : CleanAt s pa bs.length) :
    Wrote s (writeMem s pa bs) pa bs := by
  obtain ⟨hm, he, hp, hr⟩ := writeLines_stored pa bs.length hs
  have hcl (b : Nat) : CleanByte (writeLines s pa bs.length) b ↔ CleanByte s b := by unfold CleanByte; rw [he]
  have h := wrote_pieces_any (bs.length / 32 + 2) (writeLines s pa bs.length) pa bs hr (fun i hi => (hcl _).2 (hc i hi)) (.inr (by omega))
  exact ⟨h.sram, fun b => by rw [writeMem, h.look, look_congr hm hp], fun b hb => h.clean b ((hcl b).2 hb)⟩

/-! Numbers in memory. -/

theorem ofBytes_cons (b : Byte) (bs : List Byte) : ofBytes (b :: bs) = b.toNat + 256 * ofBytes bs := rfl

theorem bytesOf_succ (x n : Nat) : bytesOf x (n + 1) = BitVec.ofNat 8 x :: bytesOf (x / 256) n := by
  refine List.ext_getElem (by simp [bytesOf]) fun i h1 _ => ?_
  cases i with
  | zero => simp [bytesOf]
  | succ i => simp [bytesOf, Nat.div_div_eq_div_mul, pow_succ, mul_comm]

@[simp] theorem length_bytesOf (x n : Nat) : (bytesOf x n).length = n := by simp [bytesOf]

theorem ofBytes_bytesOf (x n : Nat) : ofBytes (bytesOf x n) = x % 256 ^ n := by
  induction n generalizing x with
  | zero => simp [bytesOf, ofBytes, Nat.mod_one]
  | succ n ih =>
    have hstep : x % 256 ^ (n + 1) = x % 256 + 256 * (x / 256 % 256 ^ n) := by rw [pow_succ, mul_comm, Nat.mod_mul]
    rw [bytesOf_succ, ofBytes_cons, ih, BitVec.toNat_ofNat, hstep]

theorem ofBytes_append (xs ys : List Byte) : ofBytes (xs ++ ys) = ofBytes xs + 256 ^ xs.length * ofBytes ys := by
  induction xs with
  | nil => simp [ofBytes]
  | cons b bs ih => rw [List.cons_append, ofBytes_cons, ih, ofBytes_cons, List.length_cons, pow_succ]; ring

theorem ofBytes_lt (bs : List Byte) : ofBytes bs < 256 ^ bs.length := by
  induction bs with
  | nil => simp [ofBytes]
  | cons b bs ih => rw [ofBytes_cons, List.length_cons, pow_succ]; have := b.isLt; omega

/-- The number that a run of written bytes reads as. -/
theorem Wrote.peek_bytesOf {s t : State} {pa x n : Nat} (h : Wrote s t pa (bytesOf x n)) (hc : CleanAt s pa n) : peek t pa n = x % 256 ^ n := by
  have hread := h.peek_same (by rwa [length_bytesOf])
  rw [length_bytesOf] at hread
  rw [peek, hread, ofBytes_bytesOf]

end Sys2Proof.Machine
end

section
/-! PROOFS. A step runs the instruction that the fetched word decodes to: what the fetch leaves alone, and the bytes that it reads. -/

set_option Elab.async false

namespace Sys2Proof.Machine

/-- Nothing but what a memory access changes. -/
def narrow : Span := ⟨false, false⟩

theorem same_fetchWalks {L : Span} {base : Shown} {s : State} (t : Team) (g : Group) (pc : Ptr) (h : Same L base s) :
    Same L base (fetchWalks s t g pc) := by
  refine foldl_holds (Same L base) h fun s1 x h1 => ?_
  split
  · exact h1
  · exact same_walkRead h1

theorem same_fetchBytes {L : Span} {base : Shown} {s s1 : State} {t : Team} {g : Group} {pc : Ptr} {bs : List Byte} (h : Same L base s)
    (hb : fetchBytes s t g pc = .bytes bs s1) : Same L base s1 := by
  unfold fetchBytes at hb
  dsimp only at hb
  split at hb
  · cases hb
  · split at hb <;> cases hb
    exact h
  · split at hb
    · cases hb
      exact h
    · split at hb <;> cases hb
      exact foldl_holds (fun y : List Byte × RdSt × Nat × State => Same L base y.2.2.2) h fun y x h1 => same_readMem h1

theorem octets_of_same {L : Span} {s s1 : State} {r : GroupRef} {g g1 : Group} (h : Same L (view L s) s1) (hg : groupOf s r = some g)
    (hg1 : groupOf s1 r = some g1) : g1.octets = g.octets := by
  have hbare : (groupOf s1 r).map bareGroup = (groupOf s r).map bareGroup := congrFun (congrArg Shown.group h) r
  rw [hg, hg1] at hbare
  simpa [bareGroup] using congrArg Group.octets (Option.some.inj hbare)

section
variable {s s1 : State} {u : Issuing} {t : Team} {g : Group}

theorem step_of_stop (hu : s.issuing = some u) (h : issueFetch s u = .stop s1) : step s = .next s1 := by
  simp only [step, hu, issueStep, h]

theorem step_of_run {i : Instr} (hu : s.issuing = some u) (h : issueFetch s u = .run i s1) (hg : (groupOf (forceIssue s1 u i) u.r).isSome = true) :
    step s = afterIssue (forceIssue s1 u i) u i (exec i (closeFor (forceIssue s1 u i) u i)) := by
  simp only [step, hu, issueStep, h]
  by_cases hf : s1.far.isEmpty = true
  · have hs : forceIssue s1 u i = s1 := if_pos hf
    rw [if_pos hf, hs]
  · rw [if_neg hf, if_pos hg]

/-- An entry whose group has no octets, where no word is kept as it was read, runs its instruction and nothing else. -/
theorem step_of_plain {i : Instr} (hu : s.issuing = some u) (h : issueFetch s u = .run i s1) (hf : s1.far = []) (hs : s1.sram = [])
    (hg : ∀ g1, groupOf s1 u.r = some g1 → g1.octets = []) : step s = exec i s1 := by
  have hclose : closeFor s1 u i = s1 := by
    unfold closeFor
    cases hq : groupOf s1 u.r with
    | none => rfl
    | some q => simp [hg q hq]
  simp only [step, hu, issueStep, h, hf, List.isEmpty_nil, if_true, hclose]
  unfold afterIssue
  split
  next t1 g1 hrun hq => simp [hg g1 hq, hs, hrun]
  next => rfl

variable (ht : teamOf s u.r.team = some t) (hg : groupOf s u.r = some g) (hslot : g.emptySlot = false)
include ht hg hslot

theorem issueFetch_misaligned (hpc : u.pc.extractLsb' 0 2 ≠ 0) : issueFetch s u = .stop (takeTrap s u ⟨cILLOP, 3, none, 0, 0, false⟩) := by
  simp only [issueFetch, ht, hg, hslot, Bool.false_eq_true, if_false, if_pos hpc]

theorem issueFetch_fetched (hpc : u.pc.extractLsb' 0 2 = 0) : issueFetch s u = match fetchBytes (fetchWalks s t g u.pc) t g u.pc with
      | .fault c d => .stop (takeTrap (fetchWalks s t g u.pc) u ⟨c, d, none, u.pc, 0, false⟩)
      | .kill s c pa => .stop (killTeam { s with issuing := none } u.r.team c pa)
      | .bytes bs s => match wordMisuse (wordOfBytes bs) with
        | some d => .stop (takeTrap s u ⟨cILLOP, d, none, 0, 0, false⟩)
        | none => match decodeAt (levelFor s t.r g) (wordOfBytes bs) with
        | .error e => .stop (takeTrap s u ⟨(rejectTrap e).1, (rejectTrap e).2, none, 0, 0, collWord (wordOfBytes bs)⟩)
        | .ok i => issueWord s u t g i := by
  simp only [issueFetch, ht, hg, hslot, hpc, Bool.false_eq_true, if_false, ne_eq, not_true_eq_false] <;> rfl

end

/-- A fetch that passes its check at a place in HBM whose bytes are clean gives them. -/
theorem fetchBytes_clean {s : State} {t : Team} {g : Group} {pc : Ptr} {gr : Grid} {pa e : Nat} (hgr : gridOf s t.r.ld t.r.grid = some gr)
    (hw : gr.words = []) (hpage : ptrVa pc % 2 ^ 16 + 12 ≤ 2 ^ 16)
    (hchk : farCheck s t.r.ld (pinRoot g.pin) t.bounds (levelFor s t.r g == .user) pc 12 .fetch = .ok (pa, e)) (hh : isHbm pa = true)
    (hc : CleanAt s pa 12) (hs : s.sram = []) (ha : g.ahead = []) :
    ∃ s1, fetchBytes s t g pc = .bytes (peekBytes s pa 12) s1 ∧ BytesKept s s1 := by
  obtain ⟨s1, hq, hread⟩ := readMem_clean hs hc
  refine ⟨s1, ?_, hq.bytesKept⟩
  have hparts : fetchParts pc = [(pc, 12)] := if_neg (by omega)
  have hup : linkDown s pa = false := by
    unfold linkDown
    rw [areaOf_hbm hh]
    rfl
  have hload : asLoaded s t.r pc (peekBytes s pa 12) = peekBytes s pa 12 := by simp [asLoaded, hgr, hw]
  simp [fetchBytes, hparts, hchk, hup, allAhead, ha, hread, hload, withAhead]

end Sys2Proof.Machine

open Sys2Proof Sys2Proof.Machine

/-- Settles O53: the cases of a step, of a fetch and of an issue. -/
theorem stepRunsDecoded : Obligations.StepRunsDecoded := by
  unfold Obligations.StepRunsDecoded
  refine ⟨fun s u t g hu ht hg hslot => ⟨fun hpc => step_of_stop hu (issueFetch_misaligned ht hg hslot hpc), fun hpc => ?_⟩,
    fun s t g pc gr pa e => fetchBytes_clean, ?_, ?_⟩
  · have hfetch := issueFetch_fetched ht hg hslot hpc
    refine ⟨fun cause d hb => step_of_stop hu ?_, fun s1 cause pa hb => step_of_stop hu ?_, fun bs s1 hb => ?_⟩
    · rw [hfetch, hb]
    · rw [hfetch, hb]
    rw [hb] at hfetch
    refine ⟨fun d hd => step_of_stop hu ?_, fun hd e he => step_of_stop hu ?_, fun i hd hi => ?_⟩
    · simp only [hfetch, hd]
    · simp only [hfetch, hd, he]
    simp only [hd, hi] at hfetch
    refine ⟨fun f hf => step_of_stop hu ?_, fun hbudget f hf => step_of_stop hu ?_, fun hbudget hrun => ⟨fun htouch => step_of_stop hu ?_, ?_, ?_⟩⟩
    · simp only [hfetch, issueWord, hf]
    · simp only [hfetch, issueWord, hbudget, hf]
    · simp only [hfetch, issueWord, hbudget, hrun, htouch]
    · intro hfar hsram hoct
      refine step_of_plain hu ?_ hfar hsram fun g1 hg1 => ?_
      · have htouch : touchRegs s1 t g i (activeMask g (hdrOf i) u.mask) = some s1 := by simp [touchRegs, hsram]
        simp only [hfetch, issueWord, hbudget, hrun, htouch]
      · have hsame : Same narrow (view narrow s) s1 := same_fetchBytes (same_fetchWalks t g u.pc rfl) hb
        rw [octets_of_same hsame hg hg1, hoct]
    · intro s2 htouch
      exact step_of_run hu (by simp only [hfetch, issueWord, hbudget, hrun, htouch])
  · intro s i r hu hr
    simp only [step, hu, nextOf, hr]
  · intro s hu hr
    simp only [step, hu, nextOf, hr]

end

section
/-! PROOFS. A write of clean memory touches nothing but memory; the entries of the frame table; the registers of the package and of a
device. -/

set_option Elab.async false

namespace Sys2Proof.Machine

/-! Writes. -/

/-- A machine that differs from another at most in memory and in what its banks and caches hold. -/
def MemOnly (s t : State) : Prop :=
  t = { s with mem := t.mem, ecc := t.ecc, clearPend := t.clearPend, hot := t.hot, banks := t.banks, dcache := t.dcache, frees := t.frees }

theorem MemOnly.refl (s : State) : MemOnly s s := rfl

theorem MemOnly.trans {s t u : State} (a : MemOnly s t) (b : MemOnly t u) : MemOnly s u := by
  unfold MemOnly at *; rw [a] at b; exact b

theorem Quiet.memOnly {s t : State} (h : Quiet s t) : MemOnly s t := by unfold MemOnly; rw [h]

theorem MemOnly.lds {s t : State} (h : MemOnly s t) : t.lds = s.lds := by rw [h]
theorem MemOnly.preg {s t : State} (h : MemOnly s t) : t.preg = s.preg := by rw [h]
theorem MemOnly.teams {s t : State} (h : MemOnly s t) : t.teams = s.teams := by rw [h]
theorem MemOnly.groupOf {s t : State} (h : MemOnly s t) (r : GroupRef) : groupOf t r = groupOf s r := by rw [h]; rfl
theorem MemOnly.teamOf {s t : State} (h : MemOnly s t) (r : TeamRef) : teamOf t r = teamOf s r := by rw [h]; rfl
theorem MemOnly.bufByte {s t : State} (h : MemOnly s t) (r : TeamRef) (b : Buf) (k : Nat) : bufByte t r b k = bufByte s r b k := by
  rw [h]; rfl

theorem memOnly_openLine (s : State) (n : Nat) : MemOnly s (openLine s n) := by unfold openLine; split <;> rfl

theorem memOnly_writeIn {s : State} {pa : Nat} {bs : List Byte} (hs : s.sram = []) (hc : CleanByte s pa) : MemOnly s (writeIn s pa bs) := by
  have hopen := memOnly_openLine s (pa / 128)
  have hsram : (openLine s (pa / 128)).sram = [] := (openLine_sram s _).trans hs
  have hclean : CleanByte (openLine s (pa / 128)) pa := clean_openLine _ hc
  unfold writeIn
  split
  next hb =>
    dsimp only
    split
    · rw [dieMerge, if_pos (by rw [hsram]; rfl)]
      exact hopen.trans rfl
    · rw [if_pos (by rw [hclean hb, hsram]; rfl)]
      exact hopen.trans rfl
  next => exact hopen.trans rfl

theorem memOnly_pieces (fuel : Nat) (s : State) (pa : Nat) (bs : List Byte) (hs : s.sram = [])
    (hc : CleanAt s pa bs.length) (hf : bs.length = 0 ∨ pa % 32 + bs.length ≤ 32 * fuel) :
    MemOnly s ((pieces fuel pa bs.length).foldl (fun (acc : State × List Byte) p =>
      (writeIn acc.1 p.1 (acc.2.take p.2), acc.2.drop p.2)) (s, bs)).1 := by
  induction fuel generalizing s pa bs with
  | zero =>
    obtain rfl : bs = [] := List.eq_nil_of_length_eq_zero (by omega)
    exact .refl s
  | succ fuel ih =>
    unfold pieces piecesBy
    by_cases h0 : bs.length = 0
    · rw [if_pos h0]
      exact .refl s
    · rw [if_neg h0]
      have hm : (bs.take (min bs.length (32 - pa % 32))).length = min bs.length (32 - pa % 32) := by simp
      have hpa : CleanByte s pa := by simpa [CleanByte] using hc 0 (by omega)
      have hw : Wrote s (writeIn s pa (bs.take (min bs.length (32 - pa % 32)))) pa (bs.take (min bs.length (32 - pa % 32))) :=
        wrote_writeIn_any hs hpa (by omega) (by omega)
      have hd : (bs.drop (min bs.length (32 - pa % 32))).length = bs.length - min bs.length (32 - pa % 32) := by simp
      have hrest := ih (writeIn s pa (bs.take (min bs.length (32 - pa % 32)))) (pa + min bs.length (32 - pa % 32))
        (bs.drop (min bs.length (32 - pa % 32))) hw.sram
        (fun i hi => hw.clean _ (by rw [Nat.add_assoc]; exact hc _ (by omega))) (by rw [hd]; omega)
      rw [hd] at hrest
      exact (memOnly_writeIn hs hpa).trans hrest

theorem writeLines_quiet {s : State} (hs : s.sram = []) (pa k : Nat) : Quiet s (writeLines s pa k) := by
  unfold writeLines
  refine foldl_holds (Quiet s) (.refl s) fun t p ht => ?_
  split
  · exact ht.trans (dieAccess_quiet (ht.sram.trans hs) ..)
  · exact ht

theorem memOnly_writeMem {s : State} {pa : Nat} {bs : List Byte} (hs : s.sram = []) (hc : CleanAt s pa bs.length) :
    MemOnly s (writeMem s pa bs) := by
  have hq := writeLines_quiet hs pa bs.length
  have h := memOnly_pieces (bs.length / 32 + 2) (writeLines s pa bs.length) pa bs (hq.sram.trans hs)
    (by unfold CleanAt; rw [hq.ecc]; exact hc) (.inr (by omega))
  exact hq.memOnly.trans h

/-! What an effect that is done leaves of memory and of the buffers. -/

theorem BytesKept.trans {s t u : State} (a : BytesKept s t) (b : BytesKept t u) : BytesKept s u :=
  ⟨b.1.trans a.1, fun r d k => (b.2 r d k).trans (a.2 r d k)⟩

theorem bytesKept_afterDone (c : Ctx) (h : Hdr) (sw : Bool) (outs : List Outst) (s' : State) : BytesKept s' (afterDone c h sw outs s') :=
  (bytesKept_modGroup s' c.r _).trans ⟨rfl, fun _ _ _ => rfl⟩

theorem bytesKept_put (s : State) (r : GroupRef) (g : Group) : BytesKept s (tick (putGroup s r g)) :=
  (bytesKept_modGroup s r _).trans ⟨rfl, fun _ _ _ => rfl⟩

/-! Clean memory. -/

theorem cleanAt_of_nil {s : State} (h : s.ecc = []) (pa n : Nat) : CleanAt s pa n := fun i _ => by simp [h, stGet]

/-! The frame table. -/

theorem frameEntPa_congr {s t : State} (h : t.preg = s.preg) (pa : Nat) : frameEntPa t pa = frameEntPa s pa := by
  unfold frameEntPa pkgReg; rw [h]

theorem frameEnt_of {s : State} {pa a : Nat} (h : frameEntPa s pa = some a) : frameEnt s pa = peek s a 8 := by rw [frameEnt, h]

end Sys2Proof.Machine
end

section
/-! PROOFS. SWRITE, PRIVRD and writes through the device-register area. -/

set_option Elab.async false

namespace Sys2Proof.Machine

/-! The registers that are not read-only, and what a read of each gives. -/

theorem writable_ranges {n : Nat} {r : PrivReg} (hr : privReg n = some r) (hro : r.ro = false) :
    n ≠ 4 ∧ ¬(0x100 ≤ n ∧ n < 0x180) ∧ ¬(0x200 ≤ n ∧ n < 0x400) ∧ n < 0x900 := by
  unfold privReg at hr
  split at hr
  · omega
  split at hr
  · cases hr; cases hro
  split at hr
  · omega
  split at hr
  · omega
  split at hr
  · cases hr; cases hro
  · cases hr

theorem privRead_plain {s : State} {ld n idx : Nat} {r : PrivReg} (hr : privReg n = some r) (h4 : n ≠ 4) (h1 : ¬(0x100 ≤ n ∧ n < 0x180))
    (h2 : ¬(0x200 ≤ n ∧ n < 0x400)) (h404 : n ≠ 0x404) :
    privRead s ld n idx = if r.pkg then stGet s.preg n else stGet (ldOf s ld).preg n := by
  simp only [privRead, if_neg h4, if_neg h1, if_neg h2, if_neg h404, hr]

theorem privRead_writable {s : State} {ld n idx : Nat} {r : PrivReg} (hr : privReg n = some r) (hro : r.ro = false) (h404 : n ≠ 0x404) :
    privRead s ld n idx = if r.pkg then stGet s.preg n else stGet (ldOf s ld).preg n := by
  obtain ⟨h4, h1, h2, -⟩ := writable_ranges hr hro
  exact privRead_plain hr h4 h1 h2 h404

/-- What a read gives depends on the register itself and on the device's root records alone. -/
theorem privRead_congr {s t : State} {ld m : Nat} (h404 : m ≠ 0x404) (hpkg : stGet t.preg m = stGet s.preg m)
    (hld : stGet (ldOf t ld).preg m = stGet (ldOf s ld).preg m) (hpub : (ldOf t ld).pubNext = (ldOf s ld).pubNext)
    (hslots : (ldOf t ld).slots = (ldOf s ld).slots) (hret : (ldOf t ld).retired = (ldOf s ld).retired) :
    privRead t ld m 0 = privRead s ld m 0 := by
  simp only [privRead, if_neg h404, hpkg, hld, hpub, hslots, hret]

theorem ldOf_modLd {s : State} {n : Nat} (h : n < s.lds.length) (f : LDev → LDev) : ldOf (modLd s n f) n = f (ldOf s n) := by
  exact getD_lset_same _ _ _ _ h

/-- A write of a plain register: it reads back, and every other reads as before. -/
theorem privWrite_plain {s : State} {ld n v idx : Nat} {r : PrivReg} (hr : privReg n = some r) (hro : r.ro = false) (h404 : n ≠ 0x404)
    (hcc : ¬(0x800 ≤ n ∧ n < 0x808)) (hlink : ¬(0x820 ≤ n ∧ n < 0x824)) (hld : ld < s.lds.length) :
    privWrite s ld n v idx = (if r.pkg then setPkgReg s n v else setLdReg s ld n v) ∧
    privRead (privWrite s ld n v idx) ld n 0 = BitVec.ofNat 64 v ∧
    ∀ m, m ≠ n → m ≠ 0x404 → privRead (privWrite s ld n v idx) ld m 0 = privRead s ld m 0 := by
  have hw : privWrite s ld n v idx = if r.pkg then setPkgReg s n v else setLdReg s ld n v := by
    simp only [privWrite, if_neg h404, if_neg hcc, if_neg hlink, hr]
  refine ⟨hw, ?_, fun m hm hm404 => ?_⟩
  · rw [privRead_writable hr hro h404, hw]
    cases r.pkg
    · simp [setLdReg, ldOf_modLd hld]
    · simp [setPkgReg]
  · rw [hw]
    cases r.pkg
    · refine privRead_congr hm404 rfl ?_ ?_ ?_ ?_ <;> simp [setLdReg, ldOf_modLd hld, stGet_set_other _ _ _ _ hm]
    · exact privRead_congr hm404 (stGet_set_other _ _ _ _ hm) rfl rfl rfl rfl

theorem bytesKept_privWrite {s : State} {ld n v idx : Nat} (h404 : n ≠ 0x404) : BytesKept s (privWrite s ld n v idx) ∧
    ∀ r, groupOf (privWrite s ld n v idx) r = groupOf s r := by
  unfold privWrite
  rw [if_neg h404]
  split
  · split <;> exact ⟨⟨rfl, fun _ _ _ => rfl⟩, fun _ => rfl⟩
  split
  · split <;> exact ⟨⟨rfl, fun _ _ _ => rfl⟩, fun _ => rfl⟩
  split
  · split <;> exact ⟨⟨rfl, fun _ _ _ => rfl⟩, fun _ => rfl⟩
  · exact ⟨⟨rfl, fun _ _ _ => rfl⟩, fun _ => rfl⟩

/-! The checks. -/

section
variable {s : State} {c : Ctx} {h : Hdr} {num ld idx : Nat} {b : Opnd} {r : PrivReg}

theorem privCheck_unlisted (hr : privReg num = none) : privCheck c num ld b idx = some (cILLOP, 5) := by
  simp only [privCheck, hr]

theorem privField_index (hr : privReg num = some r) (h404 : num ≠ 0x404) (hb : b ≠ .v 0) : privField num ld b = some 2 := by
  simp only [privField, hr, if_pos (And.intro h404 hb)]

theorem privField_device (hr : privReg num = some r) (hidx : num ≠ 0x404 → b = .v 0) (hpkg : r.pkg = true) (hld : ld ≠ 0) :
    privField num ld b = some 4 := by
  have h2 : ¬(num ≠ 0x404 ∧ b ≠ .v 0) := fun ⟨hn, hb⟩ => hb (hidx hn)
  simp only [privField, hr, if_neg h2, if_pos (And.intro hpkg hld)]

theorem privField_none (hr : privReg num = some r) (hidx : num ≠ 0x404 → b = .v 0) (hld : r.pkg = true → ld = 0) :
    privField num ld b = none := by
  have h2 : ¬(num ≠ 0x404 ∧ b ≠ .v 0) := fun ⟨hn, hb⟩ => hb (hidx hn)
  have h4 : ¬(r.pkg = true ∧ ld ≠ 0) := fun ⟨hp, hl⟩ => hl (hld hp)
  simp only [privField, hr, if_neg h2, if_neg h4]

theorem privCheck_field {f : Nat} (hr : privReg num = some r) (hf : privField num ld b = some f) :
    privCheck c num ld b idx = some (cRSVFLD, f) := by
  simp only [privCheck, hr, hf]

theorem privCheck_level (hr : privReg num = some r) (hf : privField num ld b = none) (hl : c.level ≠ .mgmt)
    (hreg : r.mgmt = true ∨ (r.pkg = false ∧ ld ≠ c.ld)) : privCheck c num ld b idx = some (cPRIV, 2) := by
  simp only [privCheck, hr, hf]
  rw [if_pos]
  rcases hreg with hm | ⟨hp, hd⟩
  · exact .inl ⟨hm, hl⟩
  · exact .inr ⟨by simp [hp], hd, hl⟩

theorem privCheck_passed (hr : privReg num = some r) (hf : privField num ld b = none)
    (hl : c.level = .mgmt ∨ (r.mgmt = false ∧ (r.pkg = true ∨ ld = c.ld))) :
    privCheck c num ld b idx = if num = 0x404 ∧ (frameEntPa c.s (idx * 2 ^ 16)).isNone then some (cILLOP, 7) else none := by
  simp only [privCheck, hr, hf]
  rw [if_neg]
  rintro (⟨hm, hn⟩ | ⟨hp, hd, hn⟩)
  · rcases hl with hl | ⟨hm', -⟩
    · exact hn hl
    · simp [hm] at hm'
  · rcases hl with hl | ⟨-, hp' | hd'⟩
    · exact hn hl
    · simp [hp'] at hp
    · exact hd hd'

end

/-- A trap of a system instruction at its lowest lane. -/
theorem traps_trapW {s : State} {c : Ctx} {h : Hdr} (hc : ctxOf s h = some c) (can : CanTrap c) (cause detail : Nat) :
    Traps c (.next (complete c h false (trapW cause detail))) cause detail (lowest c.u.mask) 0 :=
  traps_of_trap hc can false _

theorem Ctx.any_of_ne (c : Ctx) (hne : c.lanes ≠ []) : c.any = true := by
  obtain ⟨l, hl⟩ := List.exists_mem_of_ne_nil _ hne
  exact c.any_of_lane l hl

section
variable {s : State} {c : Ctx} {x : SwriteA} (hc : ctxOf s x.h = some c) (hne : c.lanes ≠ [])
include hc hne

theorem exec_swrite : exec (.swrite x) s = .next (complete c x.h false (
    if (privReg x.num.toNat).any PrivReg.ro then trapW cILLOP 6
    else match privCheck c x.num.toNat x.ld.toNat x.b (privIndex c x.b) with
    | some e => trapW e.1 e.2
    | none =>
      if !privFits x.num.toNat (sysVal c x.a) then trapW cILLOP 7
      else if x.num.toNat = 0x404 ∧ frameCount c.s (privIndex c x.b * 2 ^ 16) ≠ 0 then trapW cTREEOP 8
      else done (privWrite c.s x.ld.toNat x.num.toNat (sysVal c x.a) (privIndex c x.b)) [])) := by
  show execSwrite x s = _
  rw [execSwrite, withIssue_of hc, c.any_of_ne hne] <;> rfl

theorem exec_swrite_readOnly {r : PrivReg} (hr : privReg x.num.toNat = some r) (hro : r.ro = true) :
    exec (.swrite x) s = .next (complete c x.h false (trapW cILLOP 6)) := by
  rw [exec_swrite hc hne, if_pos (by simp [hr, hro])]

theorem exec_swrite_checked {e : Nat × Nat} (hro : ∀ r, privReg x.num.toNat = some r → r.ro = false)
    (he : privCheck c x.num.toNat x.ld.toNat x.b (privIndex c x.b) = some e) :
    exec (.swrite x) s = .next (complete c x.h false (trapW e.1 e.2)) := by
  have hno : ¬(privReg x.num.toNat).any PrivReg.ro = true := by
    cases hr : privReg x.num.toNat with
    | none => simp
    | some r => simp [hro r hr]
  rw [exec_swrite hc hne, if_neg hno, he]

theorem exec_swrite_passed {r : PrivReg} (hr : privReg x.num.toNat = some r) (hro : r.ro = false)
    (he : privCheck c x.num.toNat x.ld.toNat x.b (privIndex c x.b) = none) :
    exec (.swrite x) s = .next (complete c x.h false (
      if !privFits x.num.toNat (sysVal c x.a) then trapW cILLOP 7
      else if x.num.toNat = 0x404 ∧ frameCount c.s (privIndex c x.b * 2 ^ 16) ≠ 0 then trapW cTREEOP 8
      else done (privWrite c.s x.ld.toNat x.num.toNat (sysVal c x.a) (privIndex c x.b)) [])) := by
  rw [exec_swrite hc hne, if_neg (by simp [hr, hro]), he]

end

theorem exec_privrd {s : State} {c : Ctx} {x : PrivrdA} (hc : ctxOf s x.h = some c) (hne : c.lanes ≠ []) :
    exec (.privrd x) s = .next (complete c x.h false (
      match privCheck c x.num.toNat x.ld.toNat x.b (privIndex c x.b) with
      | some e => trapW e.1 e.2
      | none => resFree c (keysOf x.d 1) (setDst c.g x.d 1 c.low (privRead c.s x.ld.toNat x.num.toNat (privIndex c x.b))))) := by
  show execPrivrd x s = _
  rw [execPrivrd, withIssue_of hc, c.any_of_ne hne] <;> rfl

theorem exec_privrd_checked {s : State} {c : Ctx} {x : PrivrdA} (hc : ctxOf s x.h = some c) (hne : c.lanes ≠ []) {e : Nat × Nat}
    (he : privCheck c x.num.toNat x.ld.toNat x.b (privIndex c x.b) = some e) :
    exec (.privrd x) s = .next (complete c x.h false (trapW e.1 e.2)) := by
  rw [exec_privrd hc hne, he]

/-- The checks that SWRITE and PRIVRD share, for what either does with the one that fails. -/
def CheckTraps (c : Ctx) (num ld : Nat) (b : Opnd) (o : Out) : Prop :=
  ∀ e, privCheck c num ld b (privIndex c b) = some e → Traps c o e.1 e.2 (lowest c.u.mask) 0

theorem CheckTraps.clauses {c : Ctx} {num ld : Nat} {b : Opnd} {o : Out} (h : CheckTraps c num ld b o) {r : PrivReg}
    (hr : privReg num = some r) :
    (num ≠ 0x404 → b ≠ .v 0 → Traps c o cRSVFLD 2 (lowest c.u.mask) 0) ∧
    ((num ≠ 0x404 → b = .v 0) →
      (r.pkg = true → ld ≠ 0 → Traps c o cRSVFLD 4 (lowest c.u.mask) 0) ∧
      ((r.pkg = true → ld = 0) → c.level ≠ .mgmt → (r.mgmt = true ∨ (r.pkg = false ∧ ld ≠ c.ld)) →
        Traps c o cPRIV 2 (lowest c.u.mask) 0) ∧
      ((r.pkg = true → ld = 0) → (c.level = .mgmt ∨ (r.mgmt = false ∧ (r.pkg = true ∨ ld = c.ld))) →
        num = 0x404 → frameEntPa c.s (privIndex c b * 2 ^ 16) = none → Traps c o cILLOP 7 (lowest c.u.mask) 0)) := by
  refine ⟨fun h404 hb => h _ (privCheck_field hr (privField_index hr h404 hb)), fun hidx => ⟨fun hp hl => ?_, fun hl hlev hreg => ?_,
    fun hl hlev h404 hent => ?_⟩⟩
  · exact h _ (privCheck_field hr (privField_device hr hidx hp hl))
  · exact h _ (privCheck_level hr (privField_none hr hidx hl) hlev hreg)
  · refine h (cILLOP, 7) ?_
    rw [privCheck_passed hr (privField_none hr hidx hl) hlev, if_pos ⟨h404, by rw [hent]; rfl⟩]

theorem checkTraps_swrite {s : State} {c : Ctx} {x : SwriteA} (hc : ctxOf s x.h = some c) (hne : c.lanes ≠ []) (can : CanTrap c)
    (hro : ∀ r, privReg x.num.toNat = some r → r.ro = false) : CheckTraps c x.num.toNat x.ld.toNat x.b (exec (.swrite x) s) := fun e he => by
  rw [exec_swrite_checked hc hne hro he]
  exact traps_trapW hc can ..

theorem checkTraps_privrd {s : State} {c : Ctx} {x : PrivrdA} (hc : ctxOf s x.h = some c) (hne : c.lanes ≠ []) (can : CanTrap c) :
    CheckTraps c x.num.toNat x.ld.toNat x.b (exec (.privrd x) s) := fun e he => by
  rw [exec_privrd_checked hc hne he]
  exact traps_trapW hc can ..

/-! SWRITE past its checks. -/

theorem kept_retire (c : Ctx) (h : Hdr) (sw : Bool) (f : List Entry) (outs : List Outst) (dl : Option Nat) :
    Kept c.g (retire c h sw f outs dl c.g) [] := by
  have hv : (retire c h sw f outs dl c.g).v = c.g.v := v_retire ..
  have hb : bankOf (retire c h sw f outs dl c.g) = bankOf c.g := bankOf_retire ..
  refine ⟨fun n l _ => ?_, fun n _ => ?_, fun n l _ => ?_, fun n _ => ?_⟩
  · rw [getV, hv]; rfl
  · rw [getG, hb]; rfl
  · rw [getP, hb]; rfl
  · rw [getM, hb]; rfl

/-- What a done effect leaves that keeps the group: the machine's tables and memory as the effect left them. -/
theorem goesOn_effect {s : State} {h : Hdr} {c : Ctx} (hc : ctxOf s h = some c) {s' : State} (hg : groupOf s' c.r = groupOf c.s c.r)
    {P : State → Group → Prop} (hP : ∀ outs f, P (afterDone c h false outs s') (retire c h false f outs none c.g)) :
    GoesOn c (.next (complete c h false (done s' []))) P :=
  goesOn_done c h false [] s' c.g (hg.trans (groupOf_ctx hc)) rfl (hP _ _)

section
variable {s : State} {c : Ctx} {x : SwriteA} {r : PrivReg} (hc : ctxOf s x.h = some c) (hne : c.lanes ≠ [])
  (hr : privReg x.num.toNat = some r) (hro : r.ro = false) (hpkg : r.pkg = true → x.ld.toNat = 0)
  (hlev : c.level = .mgmt ∨ (r.mgmt = false ∧ (r.pkg = true ∨ x.ld.toNat = c.ld)))
include hc hne hr hro hpkg hlev

theorem exec_swrite_plain (h404 : x.num.toNat ≠ 0x404) (hb : x.b = .v 0) :
    exec (.swrite x) s = .next (complete c x.h false (
      if !privFits x.num.toNat (sysVal c x.a) then trapW cILLOP 7
      else done (privWrite c.s x.ld.toNat x.num.toNat (sysVal c x.a) (privIndex c x.b)) [])) := by
  have he : privCheck c x.num.toNat x.ld.toNat x.b (privIndex c x.b) = none := by
    rw [privCheck_passed hr (privField_none hr (fun _ => hb) hpkg) hlev, if_neg fun h => h404 h.1]
  have hno : ¬(x.num.toNat = 0x404 ∧ frameCount c.s (privIndex c x.b * 2 ^ 16) ≠ 0) := fun h => h404 h.1
  rw [exec_swrite_passed hc hne hr hro he, if_neg hno]

theorem exec_swrite_frame {a : Nat} (h404 : x.num.toNat = 0x404) (ha : frameEntPa c.s (privIndex c x.b * 2 ^ 16) = some a)
    (hfits : privFits x.num.toNat (sysVal c x.a) = true) :
    exec (.swrite x) s = .next (complete c x.h false (
      if frameCount c.s (privIndex c x.b * 2 ^ 16) ≠ 0 then trapW cTREEOP 8
      else done (privWrite c.s x.ld.toNat x.num.toNat (sysVal c x.a) (privIndex c x.b)) [])) := by
  have he : privCheck c x.num.toNat x.ld.toNat x.b (privIndex c x.b) = none := by
    rw [privCheck_passed hr (privField_none hr (fun h => absurd h404 h) hpkg) hlev, ha, if_neg fun h => Bool.false_ne_true h.2]
  rw [exec_swrite_passed hc hne hr hro he, if_neg (by simp [hfits])]
  simp only [h404, true_and]

theorem traps_swrite_unfit (h404 : x.num.toNat ≠ 0x404) (hb : x.b = .v 0) (hfits : privFits x.num.toNat (sysVal c x.a) = false)
    (can : CanTrap c) : Traps c (exec (.swrite x) s) cILLOP 7 (lowest c.u.mask) 0 := by
  rw [exec_swrite_plain hc hne hr hro hpkg hlev h404 hb, if_pos (by simp [hfits])]
  exact traps_trapW hc can ..

theorem goesOn_swrite (h404 : x.num.toNat ≠ 0x404) (hb : x.b = .v 0) (hfits : privFits x.num.toNat (sysVal c x.a) = true)
    {P : State → Group → Prop}
    (hP : ∀ outs f, P (afterDone c x.h false outs (privWrite c.s x.ld.toNat x.num.toNat (sysVal c x.a) (privIndex c x.b)))
      (retire c x.h false f outs none c.g)) : GoesOn c (exec (.swrite x) s) P := by
  rw [exec_swrite_plain hc hne hr hro hpkg hlev h404 hb, if_neg (by simp [hfits])]
  exact goesOn_effect hc ((bytesKept_privWrite h404).2 c.r) hP

end

theorem sysVal_lt (c : Ctx) (o : Opnd) : sysVal c o < 2 ^ 64 := BitVec.isLt _

/-- A once-written register: what it holds is kept, or written and marked. -/
theorem privRead_once {s : State} {ld n v idx : Nat} (h1 : 0x800 ≤ n) (h2 : n < 0x808) (hv : v < 2 ^ 64) :
    (privRead (privWrite s ld n v idx) ld n 0).toNat = if s.ccSet.contains (n - 0x800) then (privRead s ld n 0).toNat else v := by
  have h404 : n ≠ 0x404 := by omega
  rw [privWrite, if_neg h404, if_pos ⟨h1, h2⟩]
  split
  · rfl
  · have hr : privReg n = some ⟨true, true, false⟩ := by
      unfold privReg
      rw [if_neg (by omega), if_neg (by omega), if_neg (by omega), if_pos (by omega)]
    rw [privRead_writable hr rfl h404]
    simpa [setPkgReg] using hv

theorem fld_lt (x i n : Nat) : fld x i n < 2 ^ n := Nat.mod_lt _ (by positivity)

/-- A frame-table entry that has been written, its count being zero. -/
theorem frame_privWrite {s : State} {ld v idx a : Nat} (ha : frameEntPa s (idx * 2 ^ 16) = some a) (hcount : frameCount s (idx * 2 ^ 16) = 0)
    (hclean : AllClean s) : MemOnly s (privWrite s ld 0x404 v idx) ∧
      frameKind (privWrite s ld 0x404 v idx) (idx * 2 ^ 16) = fld v 58 2 ∧
      frameOwner (privWrite s ld 0x404 v idx) (idx * 2 ^ 16) = fld v 60 4 ∧ frameCount (privWrite s ld 0x404 v idx) (idx * 2 ^ 16) = 0 := by
  obtain ⟨hecc, hsram, -⟩ := hclean
  have hw : privWrite s ld 0x404 v idx = writeMem s a (bytesOf (fld v 58 6 * 2 ^ 58) 8) := by
    rw [frameCount] at hcount
    rw [privWrite, if_pos rfl, ha]
    simp only [hcount, Nat.zero_add]
    rfl
  have hc (n : Nat) : CleanAt s a n := cleanAt_of_nil hecc a n
  have honly := memOnly_writeMem (bs := bytesOf (fld v 58 6 * 2 ^ 58) 8) hsram (hc _)
  have hwrote := wrote_writeMem_any (bs := bytesOf (fld v 58 6 * 2 ^ 58) 8) hsram (hc _)
  rw [hw]
  have hent : frameEnt (writeMem s a (bytesOf (fld v 58 6 * 2 ^ 58) 8)) (idx * 2 ^ 16) = fld v 58 6 * 2 ^ 58 := by
    rw [frameEnt_of ((frameEntPa_congr honly.preg _).trans ha), hwrote.peek_bytesOf (hc 8), Nat.mod_eq_of_lt]
    have := fld_lt v 58 6
    omega
  refine ⟨honly, ?_, ?_, ?_⟩
  · rw [frameKind, hent]; simp only [fld]; omega
  · rw [frameOwner, hent]; simp only [fld]; omega
  · rw [frameCount, hent]; simp only [fld]; omega

theorem privRead_afterDone (c : Ctx) (h : Hdr) (sw : Bool) (outs : List Outst) (s' : State) (ld n idx : Nat) :
    privRead (afterDone c h sw outs s') ld n idx = privRead s' ld n idx := rfl

theorem frameEnt_afterDone (c : Ctx) (h : Hdr) (sw : Bool) (outs : List Outst) (s' : State) (pa : Nat) :
    frameEnt (afterDone c h sw outs s') pa = frameEnt s' pa := rfl

section
variable {s : State} {c : Ctx} {x : SwriteA} {r : PrivReg} (hc : ctxOf s x.h = some c) (hne : c.lanes ≠ [])
  (hr : privReg x.num.toNat = some r) (hro : r.ro = false) (hpkg : r.pkg = true → x.ld.toNat = 0) (hdev : HasDev s x.ld.toNat)
  (hlev : c.level = .mgmt ∨ (r.mgmt = false ∧ (r.pkg = true ∨ x.ld.toNat = c.ld)))
include hc hne hr hro hpkg hdev hlev

theorem goesOn_swrite_plain (h404 : x.num.toNat ≠ 0x404) (hb : x.b = .v 0) (hfits : privFits x.num.toNat (sysVal c x.a) = true)
    (hcc : ¬(0x800 ≤ x.num.toNat ∧ x.num.toNat < 0x808)) (hlink : ¬(0x820 ≤ x.num.toNat ∧ x.num.toNat < 0x824)) :
    GoesOn c (exec (.swrite x) s) fun t g => Kept c.g g [] ∧ BytesKept s t ∧
      (privRead t x.ld.toNat x.num.toNat 0).toNat = sysVal c x.a ∧
      ∀ m, m ≠ x.num.toNat → m ≠ 0x404 → privRead t x.ld.toNat m 0 = privRead s x.ld.toNat m 0 := by
  obtain ⟨hs, -⟩ := ctxOf_spec hc
  subst hs
  obtain ⟨-, hread, hother⟩ := privWrite_plain (v := sysVal c x.a) (idx := privIndex c x.b) hr hro h404 hcc hlink hdev.1
  refine goesOn_swrite hc hne hr hro hpkg hlev h404 hb hfits fun outs f => ⟨kept_retire .., ?_, ?_, fun m hm hm404 => ?_⟩
  · exact (bytesKept_privWrite h404).1.trans (bytesKept_afterDone ..)
  · rw [privRead_afterDone, hread]
    exact Nat.mod_eq_of_lt (sysVal_lt c x.a)
  · rw [privRead_afterDone, hother m hm hm404]

theorem goesOn_swrite_once (h1 : 0x800 ≤ x.num.toNat) (h2 : x.num.toNat < 0x808) (hb : x.b = .v 0)
    (hfits : privFits x.num.toNat (sysVal c x.a) = true) : GoesOn c (exec (.swrite x) s) fun t g => Kept c.g g [] ∧
      (privRead t x.ld.toNat x.num.toNat 0).toNat =
        if s.ccSet.contains (x.num.toNat - 0x800) then (privRead s x.ld.toNat x.num.toNat 0).toNat else sysVal c x.a := by
  obtain ⟨hs, -⟩ := ctxOf_spec hc
  subst hs
  refine goesOn_swrite hc hne hr hro hpkg hlev (by omega) hb hfits fun outs f => ⟨kept_retire .., ?_⟩
  rw [privRead_afterDone, privRead_once h1 h2 (sysVal_lt c x.a)]

theorem goesOn_swrite_frame {a : Nat} (h404 : x.num.toNat = 0x404) (ha : frameEntPa s (privIndex c x.b * 2 ^ 16) = some a)
    (hfits : privFits x.num.toNat (sysVal c x.a) = true) :
    (frameCount s (privIndex c x.b * 2 ^ 16) ≠ 0 → CanTrap c → Traps c (exec (.swrite x) s) cTREEOP 8 (lowest c.u.mask) 0) ∧
    (frameCount s (privIndex c x.b * 2 ^ 16) = 0 → AllClean s → GoesOn c (exec (.swrite x) s) fun t g => Kept c.g g [] ∧
      frameKind t (privIndex c x.b * 2 ^ 16) = fld (sysVal c x.a) 58 2 ∧ frameOwner t (privIndex c x.b * 2 ^ 16) = fld (sysVal c x.a) 60 4 ∧
      frameCount t (privIndex c x.b * 2 ^ 16) = 0) := by
  obtain ⟨hs, -⟩ := ctxOf_spec hc
  subst hs
  rw [exec_swrite_frame hc hne hr hro hpkg hlev h404 ha hfits]
  refine ⟨fun hcount can => ?_, fun hcount hclean => ?_⟩
  · rw [if_pos hcount]
    exact traps_trapW hc can ..
  · rw [if_neg (fun h => h hcount), h404]
    obtain ⟨honly, hframe⟩ := frame_privWrite (ld := x.ld.toNat) (v := sysVal c x.a) ha hcount hclean
    refine goesOn_effect hc (honly.groupOf c.r) fun outs f => ⟨kept_retire .., ?_⟩
    simp only [frameKind, frameOwner, frameCount, frameEnt_afterDone]
    exact hframe

end

/-! PRIVRD past its checks. -/

theorem uniform_of_cls {d : Opnd} (h : d.cls = .uni) : ∃ n, d = .g n := by
  cases d with
  | g n => exact ⟨n, rfl⟩
  | v n => cases h
  | im w => cases h
  | sp a b => simp only [Opnd.cls] at h; split_ifs at h

theorem kept_setG (g : Group) (n : Nat) (x : DWord) : Kept g (setG g n x) (if n = 0 then [] else [.g n]) := by
  refine ⟨fun m l _ => ?_, fun m hm => ?_, fun m l _ => ?_, fun m _ => ?_⟩
  · unfold setG; split <;> simp
  · rw [getG_setG, if_neg]
    rintro ⟨rfl, h0⟩
    simp [h0] at hm
  · unfold setG; split <;> simp [getP]
  · unfold setG; split <;> simp [getM]

/-- A uniform destination: what it reads as once written, and what the write leaves alone. -/
theorem srcD_setDst_uniform {g : Group} {d : Opnd} (hd : d.cls = .uni) (l w w' : Nat) (x : DWord) :
    srcD (setDst g d w l x) d w' l = seen d w' x ∧ Kept g (setDst g d w l x) (keysOf d w) := by
  obtain ⟨n, rfl⟩ := uniform_of_cls hd
  have hn : n = 0 ↔ n.toNat = 0 := ⟨fun h => by simp [h], fun h => BitVec.eq_of_toNat_eq (by simpa using h)⟩
  constructor
  · show getG (setG g n.toNat x) n.toNat = _
    rw [getG_setG]
    by_cases h0 : n.toNat = 0
    · simp [seen, discards, hn.2 h0, getG]
    · have h0' : ¬n = 0#6 := fun h => h0 (hn.1 h)
      simp [seen, discards, h0, h0', Opnd.isV, Opnd.cls]
  · have hk := kept_setG g n.toNat x
    have he : keysOf (.g n) w = if n.toNat = 0 then [] else [.g n.toNat] := by simp only [keysOf, hn]
    rw [he]
    exact hk

theorem Kept.retire {c : Ctx} {h : Hdr} {g' : Group} {ks : List RegKey} (hk : Kept c.g g' ks) (sw : Bool) (f : List Entry)
    (outs : List Outst) (dl : Option Nat) : Kept c.g (retire c h sw f outs dl g') ks := by
  have hv : (Sys2Proof.Machine.retire c h sw f outs dl g').v = g'.v := v_retire ..
  have hb : bankOf (Sys2Proof.Machine.retire c h sw f outs dl g') = bankOf g' := bankOf_retire ..
  obtain ⟨kv, kg, kp, km⟩ := hk
  refine ⟨fun n l hn => ?_, fun n hn => ?_, fun n l hn => ?_, fun n hn => ?_⟩
  · rw [← kv n l hn, getV, hv]; rfl
  · rw [← kg n hn, getG, hb]; rfl
  · rw [← kp n l hn, getP, hb]; rfl
  · rw [← km n hn, getM, hb]; rfl

section
variable {s : State} {c : Ctx} {x : PrivrdA} {r : PrivReg} (hc : ctxOf s x.h = some c) (hwf : WellFormed (.privrd x) = true)
  (hne : c.lanes ≠ []) (hr : privReg x.num.toNat = some r) (hpkg : r.pkg = true → x.ld.toNat = 0)
  (hlev : c.level = .mgmt ∨ (r.mgmt = false ∧ (r.pkg = true ∨ x.ld.toNat = c.ld)))
  (hidx : x.num.toNat ≠ 0x404 → x.b = .v 0)
  (hent : x.num.toNat = 0x404 → frameEntPa s (privIndex c x.b * 2 ^ 16) ≠ none)
include hc hwf hne hr hpkg hlev hidx hent

theorem goesOn_privrd : GoesOn c (exec (.privrd x) s) fun t g => BytesKept s t ∧ Kept c.g g (keysOf x.d 1) ∧
    srcD g x.d 2 c.low = seen x.d 2 (privRead s x.ld.toNat x.num.toNat (privIndex c x.b)) := by
  obtain ⟨hs, -⟩ := ctxOf_spec hc
  have hd : x.d.cls = .uni := wf_cls hwf (aD x.d [.uni] 1) (by simp [args]) rfl (by decide)
  have hpass : privCheck c x.num.toNat x.ld.toNat x.b (privIndex c x.b) = none := by
    rw [privCheck_passed hr (privField_none hr hidx hpkg) hlev, if_neg]
    rintro ⟨h404, hnone⟩
    exact hent h404 (by rw [← hs]; simpa using hnone)
  rw [exec_privrd hc hne, hpass, hs]
  obtain ⟨hread, hkept⟩ := srcD_setDst_uniform (g := c.g) hd c.low 1 2 (privRead s x.ld.toNat x.num.toNat (privIndex c x.b))
  refine goesOn_free hc false _ _ (by simp) (by simp) fun outs => ⟨?_, hkept.retire .., ?_⟩
  · rw [← hs]; exact (bytesKept_put ..).trans (bytesKept_afterDone ..)
  · rw [srcD_retire]; exact hread

end

/-! What a read of a root record's words gives. -/

theorem rootBits_low (r : RootRec) : (BitVec.ofNat 64 (rootBits r)).getLsbD 0 = r.full ∧
    ((BitVec.ofNat 64 (rootBits r)).extractLsb' 2 39).toNat = fld r.root 13 39 ∧
    ((BitVec.ofNat 64 (rootBits r)).extractLsb' 42 6).toNat = r.slot % 64 := by
  have hroot := fld_lt r.root 13 39
  have hslot := Nat.mod_lt r.slot (show 0 < 64 by decide)
  have hpins := Nat.mod_lt r.pins (show 0 < 2 ^ 32 by decide)
  obtain ⟨b, hb, hfull⟩ : ∃ b : Nat, b ≤ 1 ∧ rootBits r = r.gen * 2 ^ 80 + r.pins % 2 ^ 32 * 2 ^ 48 + r.slot % 64 * 2 ^ 42 + fld r.root 13 39 * 4 + b ∧
      (b % 2 = 1 ↔ r.full = true) := by
    refine ⟨if r.full then 1 else 0, by split <;> omega, rfl, ?_⟩
    cases r.full <;> simp
  refine ⟨?_, ?_, ?_⟩
  · rw [BitVec.getLsbD_ofNat, Nat.testBit_zero, Bool.eq_iff_iff]
    simp only [Nat.zero_lt_succ, decide_true, Bool.true_and, decide_eq_true_eq]
    rw [← hfull.2, hfull.1]
    omega
  · rw [BitVec.extractLsb'_toNat, BitVec.toNat_ofNat, hfull.1, Nat.shiftRight_eq_div_pow]
    omega
  · rw [BitVec.extractLsb'_toNat, BitVec.toNat_ofNat, hfull.1, Nat.shiftRight_eq_div_pow]
    omega

theorem rootBits_high (r : RootRec) : ((BitVec.ofNat 64 (rootBits r / 2 ^ 64)).extractLsb' 16 48).toNat = r.gen % 2 ^ 48 := by
  have hroot := fld_lt r.root 13 39
  have hslot := Nat.mod_lt r.slot (show 0 < 64 by decide)
  have hpins := Nat.mod_lt r.pins (show 0 < 2 ^ 32 by decide)
  have hb : (if r.full then 1 else 0) ≤ 1 := by split <;> omega
  rw [BitVec.extractLsb'_toNat, BitVec.toNat_ofNat, Nat.shiftRight_eq_div_pow, rootBits]
  omega

theorem privRead_slot (s : State) (ld : Nat) {k i : Nat} (hk : k < 64) (hi : i < 2) (idx : Nat) :
    privRead s ld (0x100 + i + 2 * k) idx =
      BitVec.ofNat 64 (rootBits { (ldOf s ld).slots.getD k emptyRoot with slot := k } / 2 ^ (64 * i)) := by
  have hdiv : (0x100 + i + 2 * k - 0x100) / 2 = k := by omega
  have hmod : (0x100 + i + 2 * k) % 2 = i := by omega
  simp only [privRead, if_neg (show ¬0x100 + i + 2 * k = 4 by omega),
    if_pos (show 0x100 ≤ 0x100 + i + 2 * k ∧ 0x100 + i + 2 * k < 0x180 by omega), hdiv, hmod]

theorem privRead_frame (s : State) (ld idx : Nat) : (privRead s ld 0x404 idx).toNat =
    fld (frameEnt s (idx * 2 ^ 16)) 58 6 * 2 ^ 58 + fld (frameEnt s (idx * 2 ^ 16)) 0 32 := by
  have h1 := fld_lt (frameEnt s (idx * 2 ^ 16)) 58 6
  have h2 := fld_lt (frameEnt s (idx * 2 ^ 16)) 0 32
  show (BitVec.ofNat 64 _).toNat = _
  rw [BitVec.toNat_ofNat]
  omega

/-! Writes through the device-register area. -/

theorem low44_and_mask (v : DWord) : (v &&& 0x00000FFFFFFFFFFF#64).extractLsb' 0 44 = v.extractLsb' 0 44 := by
  refine BitVec.eq_of_getLsbD_eq fun i hi => ?_
  have hmask : (0x00000FFFFFFFFFFF#64).getLsbD i = true := by
    rw [show 0x00000FFFFFFFFFFF#64 = BitVec.ofNat 64 (2 ^ 44 - 1) from rfl, BitVec.getLsbD_ofNat, Nat.testBit_two_pow_sub_one]
    simp [hi, show i < 64 by omega]
  simp [hi, hmask]

/-- The place of a register of a device's queue block in the device-register area. -/
def blockPlace (ld off : Nat) : Nat := 0xFF0000000000 + ld * 2 ^ 16 + off

theorem devWord_block {ld off : Nat} (hld : ld < 16) (hoff : 0x240 ≤ off ∧ off ≤ 0x270) : devWord (blockPlace ld off) = .qb ld off := by
  have hdev : (blockPlace ld off - 0xFF0000000000) / 2 ^ 16 = ld := by unfold blockPlace; omega
  have hmod : blockPlace ld off % 2 ^ 16 = off := by unfold blockPlace; omega
  have hin : 0xFF0000000000 ≤ blockPlace ld off ∧ blockPlace ld off < 0xFF0000100000 := by unfold blockPlace; omega
  simp only [devWord, if_pos hin, hdev, hmod]
  rw [if_neg (by omega), if_pos (.inl hoff)]

theorem exec_registerWrite_block {s : State} {ld off : Nat} {v : DWord} (hrun : Running s) (hld : ld < 16)
    (hoff : 0x240 ≤ off ∧ off ≤ 0x270) (h8 : off % 8 = 0) :
    exec (.registerWrite (blockPlace ld off) v) s = .next (qbWrite s (.sup 0) ld off v) := by
  obtain ⟨hon, hhalt⟩ := hrun
  have hbig : ¬blockPlace ld off < 2 ^ 20 := by unfold blockPlace; omega
  have hmod : blockPlace ld off % 2 ^ 16 = off := by unfold blockPlace; omega
  have hround : blockPlace ld off / 8 * 8 = blockPlace ld off := by unfold blockPlace; omega
  show execRegisterWrite _ v s = _
  simp only [execRegisterWrite, agent, hon, hhalt, Bool.not_false, Bool.and_self, if_true, if_neg hbig, hmod, hround, beforePort, devWrite,
    devWord_block hld hoff]
  rw [if_neg (by omega)]

theorem qbWord_setQb {s : State} {ld : Nat} (h : ld < s.lds.length) (off : Nat) (x : DWord) : qbWord (setQb s ld off x) ld off = x := by
  simp [qbWord, setQb, ldOf_modLd h]

theorem exec_registerWrite_plain {s : State} {ld num : Nat} {v : DWord} {r : PrivReg} (hrun : Running s) (hld : ld < 16)
    (hr : privReg num = some r) (hro : r.ro = false) (hpkg : r.pkg = true → ld = 0) (h404 : num ≠ 0x404)
    (hfits : privFits num v.toNat = true) :
    exec (.registerWrite (ld * 2 ^ 16 + num) v) s = .next (privWrite s ld num v.toNat 0) := by
  obtain ⟨hon, hhalt⟩ := hrun
  obtain ⟨-, -, -, hnum⟩ := writable_ranges hr hro
  have hsmall : ld * 2 ^ 16 + num < 2 ^ 20 := by omega
  have hmod : (ld * 2 ^ 16 + num) % 2 ^ 16 = num := by omega
  have hdiv : (ld * 2 ^ 16 + num) / 2 ^ 16 = ld := by omega
  have hgood : (r.ro || (r.pkg && ld != 0) || num == 0x404 || !privFits num v.toNat) = false := by
    cases hp : r.pkg
    · simp [hro, h404, hfits]
    · simp [hro, h404, hfits, hpkg hp]
  show execRegisterWrite _ v s = _
  simp only [execRegisterWrite, agent, hon, hhalt, Bool.not_false, Bool.and_self, if_true, if_pos hsmall, hmod, hdiv, hr, hgood,
    Bool.false_eq_true, if_false]

end Sys2Proof.Machine

open Sys2Proof Sys2Proof.Machine

/-- Settles O40: the checks in their order, then the register that is written or read. -/
theorem privilegedRegisters : Obligations.PrivilegedRegisters := by
  unfold Obligations.PrivilegedRegisters
  refine ⟨fun s c h i num ld b wr hi hc hne can => ?_, fun s c x r hc hne => ?_, fun s c x r hc hwf hne => ?_, fun s ld v hrun hdev => ⟨?_, ?_, ?_, ?_⟩⟩
  · obtain ⟨hs, -⟩ := ctxOf_spec (h := h) hc
    have hchk : (wr = true → ∀ r, privReg num = some r → r.ro = false) → CheckTraps c num ld b (exec i s) := fun hro => by
      rcases hi with ⟨x, rfl, rfl, rfl, rfl, rfl, rfl⟩ | ⟨x, rfl, rfl, rfl, rfl, rfl, rfl⟩
      · exact checkTraps_swrite hc hne can (hro rfl)
      · exact checkTraps_privrd hc hne can
    refine ⟨fun hr => ?_, fun r hr => ⟨fun hwr hro => ?_, fun hro => ?_⟩⟩
    · exact hchk (fun _ r hr' => by rw [hr] at hr'; cases hr') _ (privCheck_unlisted hr)
    · rcases hi with ⟨x, rfl, rfl, rfl, rfl, rfl, -⟩ | ⟨x, -, -, -, -, -, hwr'⟩
      · rw [exec_swrite_readOnly hc hne hr hro]
        exact traps_trapW hc can ..
      · rw [hwr] at hwr'; cases hwr'
    · have hclauses := (hchk fun hwr r' hr' => by rw [hr] at hr'; cases hr'; exact hro hwr).clauses hr
      rw [hs] at hclauses
      exact hclauses
  · intro num ld idx v hr hro hpkg hdev hlev
    exact ⟨traps_swrite_unfit hc hne hr hro hpkg hlev, goesOn_swrite_plain hc hne hr hro hpkg hdev hlev,
      goesOn_swrite_once hc hne hr hro hpkg hdev hlev, fun h404 a ha hfits => goesOn_swrite_frame hc hne hr hro hpkg hdev hlev h404 ha hfits⟩
  · intro num ld idx hr hpkg hlev hidx hent
    refine (goesOn_privrd hc hwf hne hr hpkg hlev hidx hent).imp fun t g ⟨hbytes, hkept, hread⟩ => ⟨hbytes, hkept, _, hread, ?_, ?_, ?_, ?_, ?_⟩
    · rintro h4
      show privRead s ld num idx = _
      rw [h4]
      rfl
    · rintro h404
      show (privRead s ld num idx).toNat = _
      rw [h404]
      exact privRead_frame s ld idx
    · rintro k hk hnum
      show (privRead s ld num idx).getLsbD 0 = _ ∧ ((privRead s ld num idx).extractLsb' 2 39).toNat = _ ∧ ((privRead s ld num idx).extractLsb' 42 6).toNat = _
      rw [hnum, privRead_slot s ld (i := 0) hk (by omega) idx, Nat.mul_zero, Nat.pow_zero, Nat.div_one]
      exact rootBits_low _
    · rintro k hk hnum
      show ((privRead s ld num idx).extractLsb' 16 48).toNat = _
      rw [hnum, show 0x101 + 2 * k = 0x100 + 1 + 2 * k by rfl, privRead_slot s ld (i := 1) hk (by omega) idx]
      exact rootBits_high _
    · intro hnum
      have h4 : num ≠ 4 := by
        rintro h4
        omega
      exact privRead_plain hr h4 (by omega) (by omega) (by omega)
  · refine ⟨_, exec_registerWrite_block hrun hdev.2.1 (by omega) (by omega), ⟨rfl, fun _ _ _ => rfl⟩, ?_⟩
    exact qbWord_setQb hdev.1 ..
  · refine ⟨_, exec_registerWrite_block hrun hdev.2.1 (by omega) (by omega), ⟨rfl, fun _ _ _ => rfl⟩, ?_⟩
    exact qbWord_setQb hdev.1 ..
  · refine ⟨_, exec_registerWrite_block hrun hdev.2.1 (by omega) (by omega), ⟨rfl, fun _ _ _ => rfl⟩, ?_⟩
    have hq : qbWord (qbWrite s (.sup 0) ld 0x258 v) ld 0x258 = v &&& 0x00000FFFFFFFFFFF#64 := qbWord_setQb hdev.1 ..
    rw [hq]
    exact low44_and_mask v
  · intro num r hr hro hpkg h404 hfits hcc hlink
    refine ⟨_, exec_registerWrite_plain hrun hdev.2.1 hr hro hpkg h404 hfits, (bytesKept_privWrite h404).1, ?_⟩
    rw [(privWrite_plain hr hro h404 hcc hlink hdev.1).2.1]
    simp

end

section
/-! PROOFS. Memory without stored check bytes or SRAM overlays: reads give what stands there, writes change their bytes alone; node-table
and frame-table entries after a write. -/

set_option Elab.async false

namespace Sys2Proof.Machine

/-- No sector is flagged and no word is overlaid. -/
def Spotless (s : State) : Prop := s.sram = [] ∧ ∀ b, CleanByte s b

theorem AllClean.spotless {s : State} (h : AllClean s) : Spotless s := ⟨h.2.1, fun b _ => by rw [h.1]; simp [stGet]⟩

theorem Spotless.cleanAt {s : State} (h : Spotless s) (pa n : Nat) : CleanAt s pa n := fun i _ => h.2 (pa + i)

/-- A machine after bytes have been written. -/
structure Stored (s t : State) (pa : Nat) (bs : List Byte) : Prop where
  wrote : Wrote s t pa bs
  only : MemOnly s t
  spotless : Spotless t

theorem Spotless.writeMem {s : State} (h : Spotless s) (pa : Nat) (bs : List Byte) : Stored s (writeMem s pa bs) pa bs :=
  have hw := wrote_writeMem_any h.1 (h.cleanAt pa bs.length)
  ⟨hw, memOnly_writeMem h.1 (h.cleanAt pa bs.length), hw.sram, fun b => hw.clean b (h.2 b)⟩

theorem Stored.peek_same {s t : State} {pa x n : Nat} (hs : Spotless s) (h : Stored s t pa (bytesOf x n)) : peek t pa n = x % 256 ^ n :=
  h.wrote.peek_bytesOf (hs.cleanAt pa n)

theorem Stored.peek_other {s t : State} {pa b n : Nat} {bs : List Byte} (hs : Spotless s) (h : Stored s t pa bs)
    (hd : b + n ≤ pa ∨ pa + bs.length ≤ b) : peek t b n = peek s b n := by
  rw [peek, peek, h.wrote.peek_other (hs.cleanAt b n) hd]

theorem tableRead_only {s : State} (h : Spotless s) (pa k : Nat) : Quiet s (tableRead s pa k) ∧ Spotless (tableRead s pa k) := by
  obtain ⟨t, hq, hr⟩ := readMem_clean h.1 (h.cleanAt pa k)
  have ht : tableRead s pa k = t := by rw [tableRead, hr]
  rw [ht]
  exact ⟨hq, hq.sram.trans h.1, fun b => by unfold CleanByte; rw [hq.ecc]; exact h.2 b⟩

theorem Quiet.peek {s t : State} (h : Quiet s t) (pa k : Nat) : peek t pa k = peek s pa k := by rw [h]; rfl

theorem ldOf_congr {s t : State} (h : t.lds = s.lds) (ld : Nat) : ldOf t ld = ldOf s ld := by unfold ldOf; rw [h]

theorem ldReg_modLd {s : State} {ld n : Nat} {f : LDev → LDev} (h : ld < s.lds.length) (hf : (f (ldOf s ld)).preg = (ldOf s ld).preg) :
    ldReg (modLd s ld f) ld n = ldReg s ld n := by
  rw [ldReg, ldReg, ldOf_modLd h, hf]

/-! The node table. -/

theorem nodeEntPa_congr {s t : State} (h : t.preg = s.preg) (pa : Nat) : nodeEntPa t pa = nodeEntPa s pa := by
  unfold nodeEntPa pkgReg; rw [h]

theorem inNodes_nodeEnt {s : State} (pa : Nat) {a : Nat} (h1 : nodeEntPa s pa ≤ a) (h2 : a < nodeEntPa s pa + 8) : InNodes s a := by
  have := fld_lt pa 13 26
  unfold nodeEntPa at h1 h2
  unfold InNodes
  omega

theorem inFrames_frameEnt {s : State} {pa e a : Nat} (h : frameEntPa s pa = some e) (h1 : e ≤ a) (h2 : a < e + 8) : InFrames s a := by
  unfold frameEntPa at h
  unfold InFrames
  split at h
  next hh =>
    have h := Option.some.inj h
    have hb : pa < 2 ^ 39 := by simpa [isHbm] using hh
    omega
  split at h
  · dsimp only at h
    split at h
    · have h := Option.some.inj h
      omega
    · cases h
  · cases h

theorem setNode_stored {s : State} (hs : Spotless s) (pa st c : Nat) :
    Stored s (setNode s pa st c) (nodeEntPa s pa) (bytesOf (st * 2 ^ 62 + c % 2 ^ 32) 8) := hs.writeMem ..

theorem nodeEnt_setNode {s : State} (hs : Spotless s) {pa st c : Nat} (hst : st < 4) :
    nodeEnt (setNode s pa st c) pa = st * 2 ^ 62 + c % 2 ^ 32 := by
  have h := setNode_stored hs pa st c
  rw [nodeEnt, nodeEntPa_congr h.only.preg, h.peek_same hs, Nat.mod_eq_of_lt]
  omega

theorem nodeState_setNode {s : State} (hs : Spotless s) {pa st c : Nat} (hst : st < 3) : nodeState (setNode s pa st c) pa = st := by
  rw [nodeState, nodeEnt_setNode hs (by omega)]
  simp only [fld]
  omega

theorem nodeCount_setNode {s : State} (hs : Spotless s) {pa st c : Nat} (hst : st < 3) : nodeCount (setNode s pa st c) pa = c % 2 ^ 32 := by
  rw [nodeCount, nodeEnt_setNode hs (by omega)]
  simp only [fld]
  omega

theorem nodeState_lt (s : State) (pa : Nat) : nodeState s pa < 3 := Nat.mod_lt _ (by decide)
theorem nodeCount_lt (s : State) (pa : Nat) : nodeCount s pa < 2 ^ 32 := fld_lt _ 0 32
theorem frameCount_lt (s : State) (pa : Nat) : frameCount s pa < 2 ^ 32 := fld_lt _ 0 32

/-- A write to the node table leaves a node's entries, where the tables lie apart from it. -/
theorem nodeEntries_setNode {s : State} (hs : Spotless s) {n : Nat} (hn : ∀ a, n ≤ a → a < n + 8192 → ¬InNodes s a) (pa st c : Nat) :
    nodeEntries (setNode s pa st c) n = nodeEntries s n := by
  have h := setNode_stored hs pa st c
  unfold nodeEntries
  refine congrArg _ (List.map_congr_left fun i hi => ?_)
  have hi := List.mem_range.1 hi
  refine h.peek_other hs ?_
  rw [length_bytesOf]
  by_contra hover
  rw [not_or, Nat.not_le, Nat.not_le] at hover
  obtain ⟨h1, h2⟩ := hover
  exact hn (max (n + 8 * i) (nodeEntPa s pa)) (by omega) (by omega) (inNodes_nodeEnt pa (by omega) (by omega))

/-! The frame table. -/

theorem setFrameCount_stored {s : State} (hs : Spotless s) {pa a : Nat} (ha : frameEntPa s pa = some a) (c : Nat) :
    Stored s (setFrameCount s pa c) a (bytesOf (frameEnt s pa / 2 ^ 32 * 2 ^ 32 + c % 2 ^ 32) 8) := by
  unfold setFrameCount
  rw [ha]
  exact hs.writeMem ..

theorem peek_lt (s : State) (pa n : Nat) : peek s pa n < 256 ^ n := by
  have h := ofBytes_lt (peekBytes s pa n)
  have hl : (peekBytes s pa n).length = n := by simp [peekBytes]
  rw [hl] at h
  exact h

theorem frameEnt_setFrameCount {s : State} (hs : Spotless s) {pa a : Nat} (ha : frameEntPa s pa = some a) (c : Nat) :
    frameEnt (setFrameCount s pa c) pa = frameEnt s pa / 2 ^ 32 * 2 ^ 32 + c % 2 ^ 32 := by
  have h := setFrameCount_stored hs ha c
  have hlt : frameEnt s pa < 256 ^ 8 := by rw [frameEnt_of ha]; exact peek_lt ..
  rw [frameEnt_of ((frameEntPa_congr h.only.preg pa).trans ha), h.peek_same hs, Nat.mod_eq_of_lt]
  omega

theorem frameCount_setFrameCount {s : State} (hs : Spotless s) {pa a : Nat} (ha : frameEntPa s pa = some a) (c : Nat) :
    frameCount (setFrameCount s pa c) pa = c % 2 ^ 32 := by
  rw [frameCount, frameEnt_setFrameCount hs ha]
  simp only [fld]
  omega

theorem frameKind_setFrameCount {s : State} (hs : Spotless s) {pa a : Nat} (ha : frameEntPa s pa = some a) (c : Nat) :
    frameKind (setFrameCount s pa c) pa = frameKind s pa := by
  rw [frameKind, frameKind, frameEnt_setFrameCount hs ha]
  simp only [fld]
  omega

end Sys2Proof.Machine
end

section
/-! PROOFS. Tree ports and reclamation. -/

set_option Elab.async false

namespace Sys2Proof.Machine

/-! Tree ports. -/

theorem fld_toNat {m : Nat} (w : BitVec m) (i n : Nat) : fld w.toNat i n = (w.extractLsb' i n).toNat := by
  rw [BitVec.extractLsb'_toNat, Nat.shiftRight_eq_div_pow]
  rfl

theorem expand_nil (s : State) : expand s [] = [] := by
  have hby (n : Nat) : expandBy s n [] = [] := by
    induction n with
    | zero => rfl
    | succ n ih =>
      rw [expandBy]
      have hnone : s.joins.filter (fun j => ([] : List Nat).contains j.1) = [] := by simp
      rw [hnone]
      exact ih
  unfold expand
  split
  · rfl
  · exact hby _

theorem forceCow_none {s : State} {ld : Nat} (h : NoCow s ld) : forceCow s ld = s := by
  have hnone : s.far.filter (fun f => f.cow && f.r.team.ld == ld) = [] := by
    refine List.filter_eq_nil_iff.2 fun f hf hb => ?_
    rw [Bool.and_eq_true, beq_iff_eq] at hb
    exact h f hf hb.1 hb.2
  rw [forceCow, hnone]
  simp [forceAll, pending, expand_nil]

/-- What an operation at a port leaves in the hart's registers: status 0 and a value in D, or a cause and detail. -/
def PortEnds (s : State) (hart : Nat) (o : Out) (r : Except (Nat × Nat) (State × Option Nat)) : Prop := match r with
  | .ok (u, d) => u.harts = s.harts → o = .next { u with
      harts := lset s.harts hart { s.harts.getD hart default with
        status := 0
        d := match d with
          | some n => BitVec.ofNat 64 n
          | none => (s.harts.getD hart default).d } }
  | .error (cause, detail) => o = .next { s with
      harts := lset s.harts hart { s.harts.getD hart default with status := BitVec.ofNat 64 (cause + detail * 2 ^ 8) } }

theorem portEnds_portDone {s : State} {hart : Nat} (r : Except (Nat × Nat) (State × Option Nat)) :
    PortEnds s hart (.next (portDone s hart r)) r := by
  cases r with
  | error e => rfl
  | ok x =>
    obtain ⟨u, d⟩ := x
    intro hu
    cases d <;> simp only [portDone, hu] <;> rfl

section
variable {s : State} {hart : Nat} {w : DWord} (hrun : Running s) (hhart : hart < 20) (hnocow : NoCow s (w.extractLsb' 16 4).toNat)
  (hres : w.extractLsb' 20 44 = 0)
include hrun hhart hnocow

theorem atPort_runs (f : State → State) : atPort s hart w f = .next (f s) := by
  obtain ⟨hon, hhalt⟩ := hrun
  have hld : portLd w = (w.extractLsb' 16 4).toNat := fld_toNat w 16 4
  simp only [atPort, agent, hon, hhalt, Bool.not_false, Bool.and_self, if_true, if_pos hhart, hld, forceCow_none hnocow]

include hres

theorem portEnds_portOp {opc : BitVec 8} {mods : Nat} {f : State → Nat → Hart → Nat → Except (Nat × Nat) (State × Option Nat)}
    (hop : w.extractLsb' 0 8 = opc) (hmod : (w.extractLsb' 8 8).toNat ≤ mods) :
    PortEnds s hart (atPort s hart w fun s => portOp s hart w opc.toNat mods (f s (portLd w)))
      (f s (w.extractLsb' 16 4).toNat (s.harts.getD hart default) (w.extractLsb' 8 8).toNat) := by
  have hld : portLd w = (w.extractLsb' 16 4).toNat := fld_toNat w 16 4
  rw [atPort_runs hrun hhart hnocow, hld]
  have hfits : ¬mods < (w.extractLsb' 8 8).toNat := by omega
  have hzero : ¬(w.extractLsb' 20 44).toNat ≠ 0 := by simp [hres]
  simp only [portOp, fld_toNat, hop, ne_eq, not_true_eq_false, if_false, if_neg hfits, if_neg hzero]
  exact portEnds_portDone _

/-! What each operation does with the operand words of a port, by the name of its instruction. -/

theorem portEnds_tnode (hop : w.extractLsb' 0 8 = 0xC1) (hmod : (w.extractLsb' 8 8).toNat ≤ 1) :
    let x := s.harts.getD hart default
    PortEnds s hart (exec (.treeportTnode hart w) s)
      (noVal (treeTnode s (w.extractLsb' 16 4).toNat x.opA.toNat (if (w.extractLsb' 8 8).toNat = 1 then none else some x.opB.toNat))) :=
  portEnds_portOp (f := fun s ld x md => noVal (treeTnode s ld x.opA.toNat (if md = 1 then none else some x.opB.toNat)))
    hrun hhart hnocow hres hop hmod

theorem portEnds_tset (hop : w.extractLsb' 0 8 = 0xC2) (hmod : (w.extractLsb' 8 8).toNat ≤ 3) :
    let x := s.harts.getD hart default
    PortEnds s hart (exec (.treeportTset hart w) s)
      (noVal (treeTset s (w.extractLsb' 16 4).toNat x.opA.toNat x.opT.toNat (w.extractLsb' 8 8).toNat x.opB.toNat)) :=
  portEnds_portOp (f := fun s ld x md => noVal (treeTset s ld x.opA.toNat x.opT.toNat md x.opB.toNat)) hrun hhart hnocow hres hop hmod

/-- RSWAP on the operand words of a port. -/
def portSwap (hart : Nat) (s : State) (ld : Nat) (x : Hart) (_ : Nat) : Except (Nat × Nat) (State × Option Nat) :=
  withVal ((treeRswap s ld x.opA.toNat x.opB.toNat (x.opT.toNat % 2 ^ 48) (whoPast s (.hart hart))).map fun y =>
    (if y.2 = 0 then y.1 else settleMoves y.1 ld x.opA.toNat, y.2))

theorem portEnds_rswap (hop : w.extractLsb' 0 8 = 0xC3) (hmod : (w.extractLsb' 8 8).toNat = 0) :
    PortEnds s hart (exec (.treeportRswap hart w) s) (portSwap hart s (w.extractLsb' 16 4).toNat (s.harts.getD hart default) 0) := by
  have h := portEnds_portOp (f := portSwap hart) hrun hhart hnocow hres hop (Nat.le_of_eq hmod)
  rw [hmod] at h
  exact h

theorem portEnds_rcopy (hop : w.extractLsb' 0 8 = 0xC4) (hmod : (w.extractLsb' 8 8).toNat = 0) :
    let x := s.harts.getD hart default
    PortEnds s hart (exec (.treeportRcopy hart w) s)
      (withVal (treeRcopy s (w.extractLsb' 16 4).toNat x.opA.toNat x.opB.toNat (whoPast s (.hart hart)))) :=
  portEnds_portOp (f := fun s ld x _ => withVal (treeRcopy s ld x.opA.toNat x.opB.toNat (whoPast s (.hart hart))))
    hrun hhart hnocow hres hop (by omega)

theorem portEnds_rdrop (hop : w.extractLsb' 0 8 = 0xC5) (hmod : (w.extractLsb' 8 8).toNat ≤ 1) :
    let x := s.harts.getD hart default
    PortEnds s hart (exec (.treeportRdrop hart w) s) (noVal (if (w.extractLsb' 8 8).toNat = 1
      then treeRdropNode s (w.extractLsb' 16 4).toNat x.opA.toNat else treeRdrop s (w.extractLsb' 16 4).toNat x.opA.toNat)) :=
  portEnds_portOp (f := fun s ld x md => noVal (if md = 1 then treeRdropNode s ld x.opA.toNat else treeRdrop s ld x.opA.toNat))
    hrun hhart hnocow hres hop hmod

theorem portEnds_tinv (hop : w.extractLsb' 0 8 = 0xC6) (hmod : (w.extractLsb' 8 8).toNat = 0) :
    let x := s.harts.getD hart default
    PortEnds s hart (exec (.treeportTinv hart w) s) (noVal (treeTinv s (w.extractLsb' 16 4).toNat (x.opA.toNat % 2 ^ 48))) :=
  portEnds_portOp (f := fun s ld x _ => noVal (treeTinv s ld (x.opA.toNat % 2 ^ 48))) hrun hhart hnocow hres hop (by omega)

end

/-! Reclamation. -/

section
variable {s : State} {ld : Nat} {rest : List Reclaim}

theorem exec_reclaim (hrun : Running s) (hreset : (ldOf s ld).resetting = false) :
    exec (.reclaimRelease ld) s = .next (reclaimStep s ld) := by
  obtain ⟨hon, hhalt⟩ := hrun
  show execReclaimRelease ld s = _
  simp [execReclaimRelease, agent, hon, hhalt, hreset]

/-- The list of a device's reclamation work is replaced. -/
def putWork (s : State) (ld : Nat) (ws : List Reclaim) : State := modLd s ld fun d => { d with reclaim := ws }

theorem reclaim_putWork (h : ld < s.lds.length) (ws : List Reclaim) : (ldOf (putWork s ld ws) ld).reclaim = ws := by
  rw [putWork, ldOf_modLd h]

theorem ldReg_putWork (h : ld < s.lds.length) (ws : List Reclaim) (n : Nat) : ldReg (putWork s ld ws) ld n = ldReg s ld n :=
  ldReg_modLd h rfl

theorem peek_putWork (s : State) (ld : Nat) (ws : List Reclaim) (pa k : Nat) : peek (putWork s ld ws) pa k = peek s pa k := rfl
theorem nodeCount_putWork (s : State) (ld : Nat) (ws : List Reclaim) (n : Nat) : nodeCount (putWork s ld ws) n = nodeCount s n := rfl
theorem nodeState_putWork (s : State) (ld : Nat) (ws : List Reclaim) (n : Nat) : nodeState (putWork s ld ws) n = nodeState s n := rfl
theorem frameCount_putWork (s : State) (ld : Nat) (ws : List Reclaim) (f : Nat) : frameCount (putWork s ld ws) f = frameCount s f := rfl

theorem peek_setLdReg (s : State) (ld n x pa k : Nat) : peek (setLdReg s ld n x) pa k = peek s pa k := rfl

/-- The word that a ring takes, at the place that PROD names. -/
theorem ringAppend_spec (hs : Spotless s) (hld : ld < s.lds.length) (w : DWord) :
    Spotless (ringAppend s ld w) ∧ peek (ringAppend s ld w) (fld (peek s (ldReg s ld 0x1) 8) 0 52 + 8 * (ldReg s ld 0x2 % 4096)) 8 = w.toNat ∧
      ldReg (ringAppend s ld w) ld 0x2 = (ldReg s ld 0x2 + 1) % 2 ^ 32 ∧ (ringAppend s ld w).lds.length = s.lds.length ∧
      (ringAppend s ld w).preg = s.preg ∧
      ∀ b n, b + n ≤ fld (peek s (ldReg s ld 0x1) 8) 0 52 ∨ fld (peek s (ldReg s ld 0x1) 8) 0 52 + 2 ^ 15 ≤ b →
        peek (ringAppend s ld w) b n = peek s b n := by
  obtain ⟨t, hap, hst⟩ : ∃ t, ringAppend s ld w = setLdReg t ld 0x2 ((ldReg s ld 0x2 + 1) % 2 ^ 32) ∧
      Stored s t (fld (peek s (ldReg s ld 0x1) 8) 0 52 + 8 * (ldReg s ld 0x2 % 4096)) (bytesOf w.toNat 8) := ⟨_, rfl, hs.writeMem ..⟩
  have hlen : ld < t.lds.length := by rw [hst.only.lds]; exact hld
  rw [hap]
  refine ⟨hst.spotless, ?_, ?_, ?_, hst.only.preg, fun b n hbn => ?_⟩
  · rw [peek_setLdReg, hst.peek_same hs]
    exact Nat.mod_eq_of_lt w.isLt
  · rw [ldReg, setLdReg, ldOf_modLd hlen]
    simp only [stGet_set_same, BitVec.toNat_ofNat]
    omega
  · show (lset _ _ _).length = _
    rw [lset_eq_set, List.length_set, hst.only.lds]
  · have hslot := Nat.mod_lt (ldReg s ld 0x2) (show 0 < 4096 by decide)
    rw [peek_setLdReg]
    refine hst.peek_other hs ?_
    rw [length_bytesOf]
    omega

theorem reclaimStep_append {v : DWord} (hw : (ldOf s ld).reclaim = .append v :: rest) :
    reclaimStep s ld = if ringRoom s ld then putWork (ringAppend s ld v) ld rest else s := by
  unfold reclaimStep
  simp only [hw] <;> rfl

theorem reclaimStep_dropNode {e : DWord} (hw : (ldOf s ld).reclaim = .dropEntry e :: rest) (hn : namesNode s e.toNat = true) :
    reclaimStep s ld =
      if nodeCount s (entNode e.toNat) - 1 = 0 then
        putWork (releaseNode (setNode s (entNode e.toNat) (nodeState s (entNode e.toNat)) (nodeCount s (entNode e.toNat) - 1)) ld (entNode e.toNat)).1 ld
          ((releaseNode (setNode s (entNode e.toNat) (nodeState s (entNode e.toNat)) (nodeCount s (entNode e.toNat) - 1)) ld (entNode e.toNat)).2 ++ rest)
      else putWork (setNode s (entNode e.toNat) (nodeState s (entNode e.toNat)) (nodeCount s (entNode e.toNat) - 1)) ld rest := by
  unfold reclaimStep
  rw [hw]
  dsimp only
  rw [if_pos hn] <;> rfl

theorem reclaimStep_dropFrame {e : DWord} (hw : (ldOf s ld).reclaim = .dropEntry e :: rest) (hn : namesNode s e.toNat = false)
    (hc : frameCounted s (entFrame e.toNat) = true) :
    reclaimStep s ld =
      let u := setFrameCount s (entFrame e.toNat) (frameCount s (entFrame e.toNat) - 1)
      if frameCount s (entFrame e.toNat) - 1 = 0 then
        if ringRoom u ld then putWork (ringAppend u ld (frameRecord u (entFrame e.toNat))) ld rest
        else putWork u ld (.append (frameRecord u (entFrame e.toNat)) :: rest)
      else putWork u ld rest := by
  unfold reclaimStep
  rw [hw]
  dsimp only
  rw [if_neg (by rw [hn]; decide), if_pos hc]
  by_cases h0 : frameCount s (entFrame e.toNat) - 1 = 0
  · simp only [dropFrameCount, if_pos h0]
    split <;> rfl
  · simp only [dropFrameCount, if_neg h0] <;> rfl

theorem releaseNode_spec (hs : Spotless s) (hld : ld < s.lds.length) {n : Nat} (hn : ∀ a, n ≤ a → a < n + 8192 → ¬InNodes s a) :
    (releaseNode s ld n).2 = .append (BitVec.ofNat 64 (n + 1)) :: (nodeEntries s n).map (fun e => .dropEntry (BitVec.ofNat 64 e)) ∧
      nodeState (releaseNode s ld n).1 n = 0 ∧ nodeCount (releaseNode s ld n).1 n = 0 ∧ ld < (releaseNode s ld n).1.lds.length := by
  have hdrop : Spotless (dropCached s ld fun c => c.node == n) := hs
  obtain ⟨hq, hs'⟩ := tableRead_only hdrop n 8192
  have hlen : ld < (dropCached s ld fun c => c.node == n).lds.length := by
    show ld < (lset _ _ _).length
    rw [lset_eq_set, List.length_set]
    exact hld
  refine ⟨rfl, nodeState_setNode hs' (by decide), nodeCount_setNode hs' (by decide), ?_⟩
  show ld < (setNode _ n 0 0).lds.length
  rw [(setNode_stored hs' n 0 0).only.lds, hq.memOnly.lds]
  exact hlen

end

/-! The clauses. -/

section
variable {s : State} {ld : Nat} {rest : List Reclaim} (hrun : Running s) (hdev : HasDev s ld) (hreset : (ldOf s ld).resetting = false)
  (hclean : AllClean s)
include hrun hdev hreset hclean

theorem reclaim_append {v : DWord} (hw : (ldOf s ld).reclaim = .append v :: rest) :
    (ringRoom s ld = true → Becomes (exec (.reclaimRelease ld) s) fun u =>
      peek u (fld (peek s (ldReg s ld 0x1) 8) 0 52 + 8 * (ldReg s ld 0x2 % 4096)) 8 = v.toNat ∧
      ldReg u ld 0x2 = (ldReg s ld 0x2 + 1) % 2 ^ 32 ∧ (ldOf u ld).reclaim = rest) ∧
    (ringRoom s ld = false → exec (.reclaimRelease ld) s = .next s) := by
  rw [exec_reclaim hrun hreset, reclaimStep_append hw]
  obtain ⟨-, hpeek, hprod, hlen, -⟩ := ringAppend_spec (w := v) hclean.spotless hdev.1
  have hld : ld < (ringAppend s ld v).lds.length := hlen ▸ hdev.1
  refine ⟨fun hroom => ?_, fun hroom => ?_⟩
  · rw [if_pos hroom]
    refine ⟨_, rfl, ?_, (ldReg_putWork hld rest 0x2).trans hprod, reclaim_putWork hld rest⟩
    rw [peek_putWork, hpeek]
  · rw [if_neg (by rw [hroom]; decide)]

theorem reclaim_dropNode {e : DWord} (hw : (ldOf s ld).reclaim = .dropEntry e :: rest) (hname : namesNode s e.toNat = true)
    (hapart : TablesApart s (entNode e.toNat)) :
    Becomes (exec (.reclaimRelease ld) s) fun u => nodeCount u (entNode e.toNat) = nodeCount s (entNode e.toNat) - 1 ∧
      (1 < nodeCount s (entNode e.toNat) → nodeState u (entNode e.toNat) = nodeState s (entNode e.toNat) ∧ (ldOf u ld).reclaim = rest) ∧
      (nodeCount s (entNode e.toNat) ≤ 1 → nodeState u (entNode e.toNat) = 0 ∧ (ldOf u ld).reclaim =
        .append (BitVec.ofNat 64 (entNode e.toNat + 1)) :: (nodeEntries s (entNode e.toNat)).map (fun e => .dropEntry (BitVec.ofNat 64 e)) ++ rest) := by
  rw [exec_reclaim hrun hreset, reclaimStep_dropNode hw hname]
  generalize entNode e.toNat = n at *
  have hs := hclean.spotless
  have hst := setNode_stored hs n (nodeState s n) (nodeCount s n - 1)
  have hlen : ld < (setNode s n (nodeState s n) (nodeCount s n - 1)).lds.length := by rw [hst.only.lds]; exact hdev.1
  have hcount := nodeCount_lt s n
  obtain ⟨-, hout, -⟩ := hapart
  by_cases h1 : nodeCount s n ≤ 1
  · rw [if_pos (by omega)]
    have hout' : ∀ a, n ≤ a → a < n + 8192 → ¬InNodes (setNode s n (nodeState s n) (nodeCount s n - 1)) a := fun a ha hb => by
      unfold InNodes pkgReg
      rw [hst.only.preg]
      exact (hout a ha hb).2
    obtain ⟨hwork, hstate, hzero, hlen'⟩ := releaseNode_spec hst.spotless hlen hout'
    rw [nodeEntries_setNode hs fun a ha hb => (hout a ha hb).2] at hwork
    refine ⟨_, rfl, ?_, fun h => absurd h (by omega), fun _ => ⟨?_, ?_⟩⟩
    · rw [nodeCount_putWork, hzero]
      omega
    · rw [nodeState_putWork, hstate]
    · rw [reclaim_putWork hlen', hwork]
  · rw [if_neg (by omega)]
    refine ⟨_, rfl, ?_, fun _ => ⟨?_, reclaim_putWork hlen rest⟩, fun h => absurd h h1⟩
    · rw [nodeCount_putWork, nodeCount_setNode hs (nodeState_lt s n)]
      omega
    · rw [nodeState_putWork, nodeState_setNode hs (nodeState_lt s n)]

theorem reclaim_dropFrame {e : DWord} (hw : (ldOf s ld).reclaim = .dropEntry e :: rest) (hname : namesNode s e.toNat = false)
    (hframe : frameCounted s (entFrame e.toNat) = true) (hapart : RingApart s ld (fun _ => False)) :
    Becomes (exec (.reclaimRelease ld) s) fun u => frameCount u (entFrame e.toNat) = frameCount s (entFrame e.toNat) - 1 ∧
      if 1 < frameCount s (entFrame e.toNat) then (ldOf u ld).reclaim = rest ∧ ldReg u ld 0x2 = ldReg s ld 0x2
      else if ringRoom s ld then (ldOf u ld).reclaim = rest ∧ ldReg u ld 0x2 = (ldReg s ld 0x2 + 1) % 2 ^ 32
      else (ldOf u ld).reclaim = .append (BitVec.ofNat 64 (entFrame e.toNat + if 2 ≤ frameKind s (entFrame e.toNat) then 3 else 2)) :: rest := by
  rw [exec_reclaim hrun hreset, reclaimStep_dropFrame hw hname hframe]
  generalize entFrame e.toNat = f at *
  obtain ⟨a, ha⟩ := Option.isSome_iff_exists.1 hframe
  have hs := hclean.spotless
  have hst := setFrameCount_stored hs ha (frameCount s f - 1)
  have hcount := frameCount_lt s f
  have hnew := frameCount_setFrameCount hs ha (frameCount s f - 1)
  have hrec : frameRecord (setFrameCount s f (frameCount s f - 1)) f = BitVec.ofNat 64 (f + if 2 ≤ frameKind s f then 3 else 2) := by
    rw [frameRecord, frameKind_setFrameCount hs ha]
  have hreg (n : Nat) : ldReg (setFrameCount s f (frameCount s f - 1)) ld n = ldReg s ld n := by
    rw [ldReg, ldReg, ldOf_congr hst.only.lds]
  have hpeek (b n : Nat) (hb : ∀ i < n, ¬InFrames s (b + i)) : peek (setFrameCount s f (frameCount s f - 1)) b n = peek s b n := by
    by_cases h0 : n = 0
    · subst h0; rfl
    refine hst.peek_other hs ?_
    rw [length_bytesOf]
    by_contra hover
    rw [not_or, Nat.not_le, Nat.not_le] at hover
    refine hb (max b a - b) (by omega) (inFrames_frameEnt ha (by omega) (by omega))
  have hhead (i : Nat) (hi : i < 32) : ¬InFrames s (ldReg s ld 0x1 + i) := (hapart _ (.inl ⟨by omega, by omega⟩)).1
  have hroom : ringRoom (setFrameCount s f (frameCount s f - 1)) ld = ringRoom s ld := by
    simp only [ringRoom, hreg, hpeek _ _ hhead]
  have hlen : ld < (setFrameCount s f (frameCount s f - 1)).lds.length := by rw [hst.only.lds]; exact hdev.1
  dsimp only
  rw [hroom, hrec]
  generalize setFrameCount s f (frameCount s f - 1) = u at *
  by_cases h1 : 1 < frameCount s f
  · rw [if_neg (by omega)]
    refine ⟨_, rfl, by rw [frameCount_putWork, hnew]; omega, ?_⟩
    rw [if_pos h1]
    exact ⟨reclaim_putWork hlen rest, (ldReg_putWork hlen rest _).trans (hreg _)⟩
  · rw [if_pos (by omega)]
    by_cases hr : ringRoom s ld = true
    · rw [if_pos hr]
      obtain ⟨-, -, hprod, hlen', hpreg, hkeep⟩ := ringAppend_spec (w := BitVec.ofNat 64 (f + if 2 ≤ frameKind s f then 3 else 2)) hst.spotless hlen
      have hld := hlen'.symm ▸ hlen
      refine ⟨_, rfl, ?_, ?_⟩
      · refine (frameCount_putWork ..).trans (Eq.trans ?_ (hnew.trans (by omega)))
        have hent : frameEntPa (ringAppend u ld (BitVec.ofNat 64 (f + if 2 ≤ frameKind s f then 3 else 2))) f = some a :=
          (frameEntPa_congr (hpreg.trans hst.only.preg) f).trans ha
        rw [frameCount, frameCount, frameEnt_of hent, frameEnt_of ((frameEntPa_congr hst.only.preg f).trans ha), hkeep]
        rw [hreg, hpeek _ _ fun i hi => hhead i (by omega)]
        by_contra hover
        rw [not_or, Nat.not_le, Nat.not_le] at hover
        obtain ⟨ho1, ho2⟩ := hover
        exact (hapart (max a (fld (peek s (ldReg s ld 0x1) 8) 0 52)) (.inr ⟨by omega, by omega⟩)).1
          (inFrames_frameEnt ha (by omega) (by omega))
      · rw [if_neg h1, if_pos hr]
        exact ⟨reclaim_putWork hld rest, (ldReg_putWork hld rest _).trans (hprod.trans (by rw [hreg]))⟩
    · rw [if_neg hr]
      refine ⟨_, rfl, by rw [frameCount_putWork, hnew]; omega, ?_⟩
      rw [if_neg h1, if_neg hr]
      exact reclaim_putWork hlen _

end

theorem becomes_rqcons {s : State} {ld : Nat} {v : DWord} (hrun : Running s) (hdev : HasDev s ld) :
    Becomes (exec (.rqcons ld v) s) fun u => u.mem = s.mem ∧ ldReg u ld 0x3 = v.toNat := by
  obtain ⟨hon, hhalt⟩ := hrun
  refine ⟨privWrite s ld 3 v.toNat 0, ?_, rfl, ?_⟩
  · show execRqcons ld v s = _
    have hfits : privFits 3 v.toNat = true := rfl
    simp [execRqcons, agent, hon, hhalt, hdev.2.1, hfits]
  · show ldReg (setLdReg s ld 3 v.toNat) ld 0x3 = _
    rw [ldReg, setLdReg, ldOf_modLd hdev.1]
    simp

end Sys2Proof.Machine

open Sys2Proof Sys2Proof.Machine

/-- Settles O39: an operation at a port is the instruction's, and each kind of reclamation work is one write to its table or ring. -/
theorem treePortsAndReclamation : Obligations.TreePortsAndReclamation := by
  unfold Obligations.TreePortsAndReclamation
  refine ⟨fun s hart w hrun hhart _ hres => ?_, fun s ld rest hrun hdev hreset hclean => ⟨fun v hw => reclaim_append hrun hdev hreset hclean hw,
    fun e hw => ⟨reclaim_dropNode hrun hdev hreset hclean hw, reclaim_dropFrame hrun hdev hreset hclean hw⟩⟩, fun s ld v => becomes_rqcons⟩
  intro x md ld ends noVal val past hnocow
  have hends {o : Out} {r : Except (Nat × Nat) (State × Option Nat)} (h : PortEnds s hart o r) : ends o r := by
    cases r with
    | error e => exact h
    | ok y => exact h
  refine ⟨fun hop hmod => hends (portEnds_tnode hrun hhart hnocow hres hop hmod), fun hop hmod => hends (portEnds_tset hrun hhart hnocow hres hop hmod),
    fun hop hmod => hends (portEnds_rswap hrun hhart hnocow hres hop hmod), fun hop hmod => hends (portEnds_rcopy hrun hhart hnocow hres hop hmod),
    fun hop hmod => ?_, fun hop hmod => ?_, fun hop hmod => hends (portEnds_tinv hrun hhart hnocow hres hop hmod)⟩
  · have h := portEnds_rdrop hrun hhart hnocow hres hop (Nat.le_trans (Nat.le_of_eq hmod) (Nat.zero_le 1))
    dsimp only at h
    rw [if_neg (show ¬(w.extractLsb' 8 8).toNat = 1 from fun h1 => absurd (hmod.symm.trans h1) (by decide))] at h
    exact hends h
  · have h := portEnds_rdrop hrun hhart hnocow hres hop (Nat.le_of_eq hmod)
    dsimp only at h
    rw [if_pos (show (w.extractLsb' 8 8).toNat = 1 from hmod)] at h
    exact hends h

end

section
/-! PROOFS. FENCE: the sets of accesses that a lane follows and releases, and what the fence of a lane adds to them. -/

set_option Elab.async false

namespace Sys2Proof.Machine

/-! Sets of numbers. -/

theorem mem_union {a b : List Nat} {i : Nat} : i ∈ union a b ↔ i ∈ a ∨ i ∈ b := by
  unfold union
  induction b generalizing a with
  | nil => simp
  | cons x b ih =>
    rw [List.foldl_cons, ih]
    by_cases h : a.contains x = true
    · rw [if_pos h]
      have hx : x ∈ a := by simpa using h
      constructor
      · rintro (h | h)
        · exact .inl h
        · exact .inr (List.mem_cons_of_mem _ h)
      · rintro (h | h)
        · exact .inl h
        · rcases List.mem_cons.1 h with rfl | h
          · exact .inl hx
          · exact .inr h
    · rw [if_neg h]
      simp [or_assoc]

theorem mem_foldl_union {α : Type} {f : α → List Nat} {l : List α} {a : List Nat} {i : Nat} :
    i ∈ l.foldl (fun a x => union a (f x)) a ↔ i ∈ a ∨ ∃ x ∈ l, i ∈ f x := by
  induction l generalizing a with
  | nil => simp
  | cons x l ih => rw [List.foldl_cons, ih, mem_union]; simp [or_assoc]

theorem mem_expandBy {s : State} {i : Nat} (n : Nat) {ids : List Nat} (h : i ∈ ids) : i ∈ expandBy s n ids := by
  induction n generalizing ids with
  | zero => exact h
  | succ n ih => exact ih (mem_union.2 (.inl h))

theorem mem_expand {s : State} {i : Nat} {ids : List Nat} (h : i ∈ ids) : i ∈ expand s ids := by
  unfold expand
  split
  · exact h
  · exact mem_expandBy _ h

theorem mem_pending {s : State} {f : Far} {ids : List Nat} (hf : f ∈ s.far) (h : f.id ∈ ids) : f.id ∈ pending s ids :=
  List.mem_filter.2 ⟨mem_expand h, List.any_eq_true.2 ⟨f, hf, by simp⟩⟩

theorem idLive_far {s : State} {i : Nat} (h : i ∈ s.far.map Far.id) : idLive s i = true := by
  obtain ⟨f, hf, rfl⟩ := List.mem_map.1 h
  have : s.far.any (fun x => x.id == f.id) = true := List.any_eq_true.2 ⟨f, hf, by simp⟩
  simp [idLive, this]

theorem mem_farLive {s : State} {i : Nat} {ids : List Nat} (h : i ∈ s.far.map Far.id) : i ∈ farLive s ids ↔ i ∈ ids := by
  unfold farLive
  rw [List.mem_filter]
  exact and_iff_left (idLive_far h)

/-! The order of a lane. -/

theorem laneOrd_setOrd_same (g : Group) (o : LaneOrd) : laneOrd (setOrd g o) o.lane = o := by
  have hrest : (g.ords.filter fun x => x.lane != o.lane).find? (fun x => x.lane == o.lane) = none := by
    refine List.find?_eq_none.2 fun x hx => ?_
    have hne := (List.mem_filter.1 hx).2
    simpa using hne
  unfold laneOrd setOrd
  dsimp only
  split
  next h =>
    rw [hrest]
    obtain ⟨l, p, f, s, b⟩ := o
    simp only [Bool.and_eq_true, List.isEmpty_iff] at h
    obtain ⟨⟨⟨rfl, rfl⟩, rfl⟩, rfl⟩ := h
    rfl
  next => simp

theorem laneOrd_setOrd_other (g : Group) (o : LaneOrd) {l : Nat} (h : l ≠ o.lane) : laneOrd (setOrd g o) l = laneOrd g l := by
  have hrest : (g.ords.filter fun x => x.lane != o.lane).find? (fun x => x.lane == l) = g.ords.find? fun x => x.lane == l := by
    rw [List.find?_filter]
    congr 1
    funext x
    by_cases hx : x.lane = l
    · simp [hx, h]
    · simp [hx]
  unfold laneOrd setOrd
  dsimp only
  split
  · rw [hrest]
  · rw [List.find?_cons_of_neg (by simpa using fun e => h e.symm), hrest]

theorem lane_laneOrd (g : Group) (l : Nat) : (laneOrd g l).lane = l := by
  unfold laneOrd
  cases h : g.ords.find? fun o => o.lane == l with
  | none => rfl
  | some o => simpa using List.find?_some h

/-- The accesses that the fences of a lane release. -/
def fenceIds (o : LaneOrd) : List Nat := o.fences.foldl (fun a f => union a f.2) []

theorem mem_fenceIds {o : LaneOrd} {i : Nat} : i ∈ fenceIds o ↔ ∃ f ∈ o.fences, i ∈ f.2 := by
  unfold fenceIds
  rw [mem_foldl_union (f := Prod.snd)]
  simp

/-! A fence in a lane. -/

/-- What of an access says whose it is and what it does. -/
def farKey (f : Far) : Nat × GroupRef × Nat × FarKind := (f.id, f.r, f.lane, f.kind)

/-- A machine after the fences of some lanes of a group: its accesses are those that it had, and only the orders of the group's lanes
have changed. -/
structure FencesDone (x : FenceA) (r : GroupRef) (s0 : State) (g0 : Group) (ls : List Nat) (s : State) : Prop where
  bytes : BytesKept s0 s
  far : s.far.map farKey = s0.far.map farKey
  group : ∃ g, groupOf s r = some g ∧ g = { g0 with ords := g.ords } ∧
    ∀ l ∈ ls, ∀ f ∈ s0.far, f.r = r → f.lane = l →
      (ordAcq x.ord = true → f.kind.reads = true → f.id ∈ (laneOrd g l).past) ∧ (ordRel x.ord = true → f.id ∈ fenceIds (laneOrd g l))

/-- The order of a lane after a fence, in the machine in which its reads have been marked. -/
def fencedOrd (x : FenceA) (r : GroupRef) (core : Nat) (s s1 : State) (g : Group) (l : Nat) : LaneOrd :=
  let o := laneOrd g l
  let reads := (s.far.filter fun f => f.r == r && f.lane == l && f.kind.reads).map Far.id
  let seen := if ordAcq x.ord then union (acquired s1 (.lane r core) [x.scope] o.seen) (union (obsOf s1 g l) (storesSeen s1 o.obs)) else []
  let earlier := if x.ord = .ar then acquired s1 (.lane r core) [x.scope] s1.arDone else []
  let past := union (pastOf s1 g l) (union earlier (if ordAcq x.ord then union reads seen else []))
  let before := union (union (pendOf s1 r l) (obsOf s1 g l)) past
  { o with
    past := if x.ord = .ar then before else past
    fences := if ordRel x.ord && !before.isEmpty then o.fences ++ [(x.scope, before)] else o.fences }

/-- The machine in which the reads of a lane have been marked as acquiring. -/
def markReads (x : FenceA) (r : GroupRef) (s : State) (l : Nat) : State :=
  if ordAcq x.ord then
    let reads := (s.far.filter fun f => f.r == r && f.lane == l && f.kind.reads).map Far.id
    { s with far := s.far.map fun f => if reads.contains f.id then { f with acqs := f.acqs ++ [x.scope] } else f }
  else s

theorem markReads_keys (x : FenceA) (r : GroupRef) (s : State) (l : Nat) :
    markReads x r s l = { s with far := (markReads x r s l).far } ∧ (markReads x r s l).far.map farKey = s.far.map farKey := by
  unfold markReads
  split
  · refine ⟨rfl, ?_⟩
    rw [List.map_map]
    refine List.map_congr_left fun f _ => ?_
    simp only [Function.comp]
    split <;> rfl
  · exact ⟨rfl, rfl⟩

theorem arDone_ite (b : Bool) (s : State) (a : List RelTag) : (if b = true then { s with arDone := a } else s) =
    { s with arDone := (if b = true then { s with arDone := a } else s).arDone } := by cases b <;> rfl

theorem fenceLane_eq {x : FenceA} {r : GroupRef} {core : Nat} {s : State} {g : Group} {l : Nat} (hg : groupOf s r = some g) :
    ∃ s2, s2 = { markReads x r s l with arDone := s2.arDone } ∧
      fenceLane x r core s l = modGroup s2 r fun g' => setOrd g' (fencedOrd x r core s (markReads x r s l) g l) := by
  unfold fenceLane
  rw [hg]
  exact ⟨_, arDone_ite .., rfl⟩

/-- What the fence of a lane leaves in its order: what was of consequence, the lane's reads where it acquires, every access of the lane
where it releases. -/
theorem fencedOrd_spec (x : FenceA) (r : GroupRef) (core : Nat) (s s1 : State) (g : Group) (l : Nat) (hfar : s1.far.map farKey = s.far.map farKey)
    {f : Far} (hf : f ∈ s.far) :
    (f.id ∈ (laneOrd g l).past → f.id ∈ (fencedOrd x r core s s1 g l).past) ∧
    (f.id ∈ fenceIds (laneOrd g l) → f.id ∈ fenceIds (fencedOrd x r core s s1 g l)) ∧
    (f.r = r → f.lane = l → (ordAcq x.ord = true → f.kind.reads = true → f.id ∈ (fencedOrd x r core s s1 g l).past) ∧
      (ordRel x.ord = true → f.id ∈ fenceIds (fencedOrd x r core s s1 g l))) := by
  have hid : f.id ∈ s1.far.map Far.id := by
    have h : f.id ∈ (s.far.map farKey).map Prod.fst := List.mem_map.2 ⟨farKey f, List.mem_map_of_mem hf, rfl⟩
    rw [← hfar, List.map_map] at h
    exact h
  have hpend : f.r = r → f.lane = l → f.id ∈ pendOf s1 r l := fun hr hl => by
    have hk : farKey f ∈ s1.far.map farKey := by rw [hfar]; exact List.mem_map_of_mem hf
    obtain ⟨f1, hf1, hk⟩ := List.mem_map.1 hk
    simp only [farKey, Prod.mk.injEq] at hk
    obtain ⟨hi, hr1, hl1, -⟩ := hk
    exact List.mem_map.2 ⟨f1, List.mem_filter.2 ⟨hf1, by simp [hr1, hl1, hr, hl]⟩, hi⟩
  refine ⟨fun h => ?_, fun h => ?_, fun hr hl => ⟨fun hacq hreads => ?_, fun hrel => ?_⟩⟩
  · have hold : f.id ∈ pastOf s1 g l := (mem_farLive hid).2 h
    simp only [fencedOrd]
    split <;> simp [mem_union, hold]
  · rw [mem_fenceIds] at h ⊢
    obtain ⟨p, hp, hi⟩ := h
    have hgrow (b : Bool) (m : List (Scope × List Nat)) : p ∈ if b = true then (laneOrd g l).fences ++ m else (laneOrd g l).fences := by
      cases b <;> simp [hp]
    exact ⟨p, hgrow _ _, hi⟩
  · have hread : f.id ∈ (s.far.filter fun f => f.r == r && f.lane == l && f.kind.reads).map Far.id :=
      List.mem_map.2 ⟨f, List.mem_filter.2 ⟨hf, by simp [hr, hl, hreads]⟩, rfl⟩
    simp only [fencedOrd]
    split <;> simp only [mem_union, hacq, if_true, hread, true_or, or_true]
  · have hp := hpend hr hl
    rw [mem_fenceIds]
    simp only [fencedOrd, hrel, Bool.true_and]
    rw [if_pos]
    · exact ⟨_, List.mem_append_right _ (List.mem_singleton.2 rfl), by simp [mem_union, hp]⟩
    · rw [Bool.not_eq_true', List.isEmpty_eq_false_iff]
      exact List.ne_nil_of_mem (mem_union.2 (.inl (mem_union.2 (.inl hp))))

theorem FencesDone.step {x : FenceA} {r : GroupRef} {core : Nat} {s0 s : State} {g0 : Group} {ls : List Nat} (h : FencesDone x r s0 g0 ls s)
    (l : Nat) : FencesDone x r s0 g0 (l :: ls) (fenceLane x r core s l) := by
  obtain ⟨hbytes, hfar, g, hg, hords, hdone⟩ := h
  obtain ⟨s2, hs2, heq⟩ := fenceLane_eq (x := x) (core := core) (l := l) hg
  obtain ⟨hs1, hkeys⟩ := markReads_keys x r s l
  have hsame : BytesKept s s2 := by
    rw [hs2, hs1]
    exact ⟨rfl, fun _ _ _ => rfl⟩
  have hgroup : groupOf s2 r = some g := by
    rw [hs2, hs1]
    exact hg
  have hfar2 : s2.far.map farKey = s0.far.map farKey := by
    rw [hs2]
    exact hkeys.trans hfar
  rw [heq]
  refine ⟨(hbytes.trans hsame).trans (bytesKept_modGroup s2 r _), hfar2, _, groupOf_modGroup_some _ (fun _ h => h) hgroup, ?_, ?_⟩
  · rw [hords]; rfl
  · intro k hk f0 hf0 hr hl
    -- the access as it now stands
    obtain ⟨f, hf, hkey⟩ : ∃ f ∈ s.far, farKey f = farKey f0 := by
      have h : farKey f0 ∈ s.far.map farKey := by rw [hfar]; exact List.mem_map_of_mem hf0
      exact List.mem_map.1 h
    simp only [farKey, Prod.mk.injEq] at hkey
    obtain ⟨hi, hr', hl', hkind⟩ := hkey
    obtain ⟨hpast, hfence, hnew⟩ := fencedOrd_spec x r core s (markReads x r s l) g l hkeys hf
    have hlane : (fencedOrd x r core s (markReads x r s l) g l).lane = l := lane_laneOrd g l
    by_cases hkl : k = l
    · subst hkl
      have hsame := laneOrd_setOrd_same g (fencedOrd x r core s (markReads x r s k) g k)
      rw [hlane] at hsame
      rw [hsame, ← hi, ← hkind]
      exact hnew (hr'.trans hr) (hl'.trans hl)
    · rw [laneOrd_setOrd_other _ _ (by rw [hlane]; exact hkl)]
      exact hdone k ((List.mem_cons.1 hk).resolve_left hkl) f0 hf0 hr hl

theorem fencesDone_foldl {x : FenceA} {r : GroupRef} {core : Nat} {s0 : State} {g0 : Group} (ls : List Nat) {done : List Nat} {s : State}
    (h : FencesDone x r s0 g0 done s) : FencesDone x r s0 g0 (ls.reverse ++ done) (ls.foldl (fenceLane x r core) s) := by
  induction ls generalizing done s with
  | nil => exact h
  | cons l ls ih =>
    have := ih (h.step (core := core) l)
    rwa [List.reverse_cons, List.append_assoc]

theorem FencesDone.refl {x : FenceA} {r : GroupRef} {s : State} {g : Group} (hg : groupOf s r = some g) : FencesDone x r s g [] s :=
  ⟨⟨rfl, fun _ _ _ => rfl⟩, rfl, g, hg, rfl, fun _ h => by cases h⟩

theorem FencesDone.far_ids {x : FenceA} {r : GroupRef} {s0 s : State} {g0 : Group} {ls : List Nat} (h : FencesDone x r s0 g0 ls s)
    {f : Far} (hf : f ∈ s0.far) : f.id ∈ s.far.map Far.id := by
  have hk : f.id ∈ (s0.far.map farKey).map Prod.fst := List.mem_map.2 ⟨farKey f, List.mem_map_of_mem hf, rfl⟩
  rw [← h.far, List.map_map] at hk
  exact hk

theorem ords_retire (c : Ctx) (h : Hdr) (sw : Bool) (f : List Entry) (outs : List Outst) (dl : Option Nat) (g : Group) :
    (retire c h sw f outs dl g).ords = g.ords := by
  unfold retire setFront
  split <;> rfl

theorem laneOrd_retire (c : Ctx) (h : Hdr) (sw : Bool) (f : List Entry) (outs : List Outst) (dl : Option Nat) (g : Group) (l : Nat) :
    laneOrd (retire c h sw f outs dl g) l = laneOrd g l := by
  unfold laneOrd
  rw [ords_retire]

/-! The instruction. -/

section
variable {s : State} {c : Ctx} {x : FenceA} (hc : ctxOf s x.h = some c) (hpoll : c.g.polled = none ∨ x.scope = .grp)
include hc hpoll

theorem exec_fence : exec (.fence x) s = .next (complete c x.h false (
    let s' := c.lanes.foldl (fenceLane x c.r c.t.core) c.s
    let ids := match groupOf s' c.r with
      | none => []
      | some g => pending s' (beforeOf s' c.r g c.act)
    if x.ord = .ar && !ids.isEmpty then .ok s' (.wait (.far ids)) [] none else done s' [])) := by
  have hlive : (if c.any && ordAcq x.ord && x.scope != .grp then c.g.polled else none) = none := by
    rcases hpoll with h | h
    · rw [h, ite_self]
    · simp [h]
  show execFence x s = _
  rw [execFence, withIssue_of hc, hlive] <;> rfl

theorem goesOn_fence (hgo : x.ord ≠ .ar ∨ s.far = []) : GoesOn c (exec (.fence x) s) fun t g => BytesKept s t ∧ Kept c.g g [] ∧
    ∀ l ∈ c.lanes, ∀ f ∈ s.far, f.r = c.r → f.lane = l →
      (ordAcq x.ord = true → f.kind.reads = true → f.id ∈ pastOf t g l) ∧ (ordRel x.ord = true → f.id ∈ fencedOf t g l) := by
  obtain ⟨hs, -⟩ := ctxOf_spec hc
  have hfold := fencesDone_foldl (x := x) (core := c.t.core) c.lanes (FencesDone.refl (groupOf_ctx hc))
  rw [exec_fence hc hpoll, hs]
  rw [hs] at hfold
  dsimp only
  generalize c.lanes.foldl (fenceLane x c.r c.t.core) s = s' at *
  obtain ⟨g, hg, hords, hlanes⟩ := hfold.group
  have hfront : frontOf g = frontOf c.g := by rw [hords]; rfl
  have hno : (decide (x.ord = .ar) && !(pending s' (beforeOf s' c.r g c.act)).isEmpty) = false := by
    rcases hgo with hord | hnone
    · simp [hord]
    · have hfar : s'.far = [] := by
        have hk := hfold.far
        rwa [hnone, List.map_nil, List.map_eq_nil_iff] at hk
      simp [pending, hfar]
  simp only [hg]
  rw [hno, if_neg Bool.false_ne_true]
  refine goesOn_done c x.h false [] s' g hg hfront ⟨hfold.bytes.trans (bytesKept_afterDone ..), Kept.retire ?_ .., ?_⟩
  · rw [hords]
    exact ⟨fun _ _ _ => rfl, fun _ _ => rfl, fun _ _ _ => rfl, fun _ _ => rfl⟩
  · intro l hl f hf hr hlane
    obtain ⟨hacq, hrel⟩ := hlanes l (by simpa using hl) f hf hr hlane
    have hid : f.id ∈ (afterDone c x.h false [] s').far.map Far.id := hfold.far_ids hf
    unfold pastOf fencedOf
    rw [laneOrd_retire]
    exact ⟨fun ha hk => (mem_farLive hid).2 (hacq ha hk), fun hk => (mem_farLive hid).2 (hrel hk)⟩

theorem waits_fence (hord : x.ord = .ar) (hsome : ∃ f ∈ s.far, f.r = c.r ∧ f.lane ∈ c.lanes)
    (hroom : (others c.u (frontOf c.g)).length < depthOf c.g) :
    ∃ ids, Waits c (exec (.fence x) s) (.far ids) ∧ ∀ f ∈ s.far, f.r = c.r → f.lane ∈ c.lanes → f.id ∈ ids := by
  obtain ⟨hs, -⟩ := ctxOf_spec hc
  have hfold := fencesDone_foldl (x := x) (core := c.t.core) c.lanes (FencesDone.refl (groupOf_ctx hc))
  rw [exec_fence hc hpoll, hs]
  rw [hs] at hfold
  dsimp only
  generalize c.lanes.foldl (fenceLane x c.r c.t.core) s = s' at *
  obtain ⟨g, hg, hords, -⟩ := hfold.group
  have hfront : frontOf g = frontOf c.g := by rw [hords]; rfl
  have hall : ∀ f ∈ s.far, f.r = c.r → f.lane ∈ c.lanes → f.id ∈ pending s' (beforeOf s' c.r g c.act) := fun f hf hr hl => by
    obtain ⟨f', hf', hkey⟩ : ∃ f' ∈ s'.far, farKey f' = farKey f := by
      have h : farKey f ∈ s'.far.map farKey := by rw [hfold.far]; exact List.mem_map_of_mem hf
      exact List.mem_map.1 h
    simp only [farKey, Prod.mk.injEq] at hkey
    obtain ⟨hi, hr', hl', -⟩ := hkey
    rw [← hi]
    refine mem_pending hf' ?_
    have hsome : noOrder s' = false := by
      simp [noOrder, List.ne_nil_of_mem hf']
    unfold beforeOf
    rw [hsome, if_neg Bool.false_ne_true, mem_foldl_union (f := beforeLane s' c.r g)]
    refine .inr ⟨f.lane, hl, mem_union.2 (.inl (mem_union.2 (.inl ?_)))⟩
    exact List.mem_map.2 ⟨f', List.mem_filter.2 ⟨hf', by simp [hr', hl', hr]⟩, rfl⟩
  simp only [hg]
  obtain ⟨f, hf, hr, hl⟩ := hsome
  rw [if_pos (by simpa [hord] using List.ne_nil_of_mem (hall f hf hr hl))]
  exact ⟨_, waits_of_wait x.h false _ [] none hg hfront hroom rfl rfl, hall⟩

end

end Sys2Proof.Machine

open Sys2Proof Sys2Proof.Machine

/-- Settles O21: the fence of each lane adds its reads to what its later accesses follow and its accesses to what its later writes release. -/
theorem fences : Obligations.Fences := by
  unfold Obligations.Fences
  exact fun s c x hc _ hpoll => ⟨goesOn_fence hc hpoll, fun hord hsome hroom => waits_fence hc hpoll hord hsome hroom⟩

end

section
/-! PROOFS. Queue descriptors, doorbells and commands: what a read of the command processor leaves alone, and what each command does to
its queue. -/

set_option Elab.async false

namespace Sys2Proof.Machine

/-! The devices' records through the reads of the command processor. -/

theorem lds_of_same {s t : State} (h : Same narrow (view narrow s) t) : t.lds = s.lds := congrArg (fun v : Shown => v.rest.lds) h

/-- A result, good or bad, carries a machine of which something holds. -/
def Carries {α : Type} (P : State → Prop) : Except CpErr (α × State) → Prop
  | .ok x => P x.2
  | .error e => P e.s

theorem lds_walkRead (s : State) (ld : Nat) (r : RootKey) (va : Nat) : (walkRead s ld r va).lds = s.lds := lds_of_same (same_walkRead rfl)
theorem lds_tableRead (s : State) (pa k : Nat) : (tableRead s pa k).lds = s.lds := lds_of_same (same_tableRead rfl)
theorem lds_readMem (s : State) (pa k : Nat) : (readMem s pa k).2.2.lds = s.lds := lds_of_same (same_readMem rfl)
theorem lds_writeMem (s : State) (pa : Nat) (bs : List Byte) : (writeMem s pa bs).lds = s.lds := lds_of_same (same_writeMem rfl)

theorem lds_cpWalk (s : State) (ld slot : Nat) (p : Ptr) : (cpWalk s ld slot p).lds = s.lds := by
  unfold cpWalk
  simp only [lds_walkRead, lds_tableRead]

theorem lds_busRead (s : State) (who : Who) (pa k : Nat) : (busRead s who pa k).2.2.lds = s.lds := by
  unfold busRead
  split
  · rfl
  · exact lds_readMem ..

theorem lds_kvConsume (s : State) (pa : Nat) : (kvConsume s pa).lds = s.lds := by
  unfold kvConsume kvPoison
  split
  · dsimp only
    split
    · exact (lds_writeMem ..).trans (lds_readMem ..)
    · exact lds_readMem ..
  · rfl

theorem lds_cpPlace {s : State} {ld slot : Nat} {p : Ptr} {n : Nat} {k : Acc} {e : CpErr} (h : cpPlace s ld slot p n k = .error e) :
    e.s.lds = s.lds := by
  unfold cpPlace at h
  dsimp only at h
  split at h
  · cases h; rfl
  · split at h
    · cases h; rfl
    · split at h <;> cases h
      rfl

theorem carries_cpRead (s : State) (ld slot : Nat) (p : Ptr) (n : Nat) : Carries (fun t => t.lds = s.lds) (cpRead s ld slot p n) := by
  refine foldl_holds (Carries fun t => t.lds = s.lds) rfl fun acc c hacc => ?_
  cases acc with
  | error e => exact hacc
  | ok x =>
    have hx : x.2.lds = s.lds := hacc
    simp only [Except.bind]
    split
    next e he => exact (lds_cpPlace he).trans hx
    next pa hpa =>
      have hread : (busRead (cpWalk (tick x.2) ld slot (ptrAdd p c.1)) (.sup ld) pa c.2).2.2.lds = s.lds :=
        (lds_busRead ..).trans ((lds_cpWalk ..).trans hx)
      split
      · exact hread
      · exact (lds_kvConsume ..).trans hread
      · exact (lds_kvConsume ..).trans hread

theorem carries_cpNat (s : State) (ld slot : Nat) (p : Ptr) (n : Nat) : Carries (fun t => t.lds = s.lds) (cpNat s ld slot p n) := by
  have h := carries_cpRead s ld slot p n
  unfold cpNat
  cases hr : cpRead s ld slot p n with
  | error e => rw [hr] at h; exact h
  | ok x => rw [hr] at h; exact h

/-! Queues. -/

theorem lds_modQueue (s : State) (ld q : Nat) (f : Queue → Queue) : (modQueue s ld q f).lds.length = s.lds.length := by
  show (lset _ _ _).length = _
  rw [lset_eq_set, List.length_set]

/-- A queue's record stands in the machine. -/
def HasQueue (s : State) (k : QueueRef) : Prop := k.ld < s.lds.length ∧ k.q < (ldOf s k.ld).queues.length

theorem HasQueue.of_lds {s t : State} {k : QueueRef} (h : HasQueue s k) (hl : t.lds = s.lds) : HasQueue t k := by
  unfold HasQueue
  rw [hl, ldOf_congr hl]
  exact h

theorem hasQueue_of_dev {s : State} {k : QueueRef} (hdev : HasDev s k.ld) (hq : k.q < 9) : HasQueue s k := by
  obtain ⟨hlen, -, -, -, hqueues⟩ := hdev
  exact ⟨hlen, by rw [hqueues]; exact hq⟩

theorem queueOf_congr {s t : State} (h : t.lds = s.lds) (ld q : Nat) : queueOf t ld q = queueOf s ld q := by
  unfold queueOf; rw [ldOf_congr h]

theorem queueOf_modQueue {s : State} {k : QueueRef} (h : HasQueue s k) (f : Queue → Queue) :
    queueOf (modQueue s k.ld k.q f) k.ld k.q = f (queueOf s k.ld k.q) := by
  rw [queueOf, modQueue, ldOf_modLd h.1]
  exact getD_lset_same _ _ _ _ h.2

theorem HasQueue.modQueue {s : State} {k : QueueRef} (h : HasQueue s k) (f : Queue → Queue) : HasQueue (modQueue s k.ld k.q f) k := by
  refine ⟨by rw [lds_modQueue]; exact h.1, ?_⟩
  rw [Sys2Proof.Machine.modQueue, ldOf_modLd h.1]
  show _ < (lset _ _ _).length
  rw [lset_eq_set, List.length_set]
  exact h.2

theorem queueOf_stopQueue {s : State} {k : QueueRef} (h : HasQueue s k) (code : Nat) (p : Ptr) : StoppedWith (stopQueue s k code p) k code p := by
  have hq : queueOf (stopQueue s k code p) k.ld k.q =
      { queueOf s k.ld k.q with err := true, estat := BitVec.ofNat 8 code, eaddr := p, en := false, waiting := none } := by
    rw [← queueOf_modQueue h fun x => { x with err := true, estat := BitVec.ofNat 8 code, eaddr := p, en := false, waiting := none }]
    unfold stopQueue raiseMsix
    split <;> rfl
  unfold StoppedWith
  rw [hq]
  exact ⟨rfl, rfl, rfl, rfl⟩

theorem goneTo_queueGo {s : State} {k : QueueRef} (h : HasQueue s k) (i : Int) : GoneTo (queueGo s k i) k i (queueOf s k.ld k.q).loops := by
  unfold GoneTo queueGo
  rw [queueOf_modQueue h]
  exact ⟨rfl, rfl, rfl⟩

theorem goneTo_queueNext {s : State} {k : QueueRef} (h : HasQueue s k) :
    GoneTo (queueNext s k) k ((queueOf s k.ld k.q).head.toNat + 1) (queueOf s k.ld k.q).loops := by
  unfold GoneTo queueNext
  rw [queueOf_modQueue h]
  refine ⟨?_, rfl, rfl⟩
  show (queueOf s k.ld k.q).head + 1 = _
  bv_omega

theorem holds_queueWait {s : State} {k : QueueRef} (h : HasQueue s k) (c : Nat) : Holds (queueWait s k c) k (queueOf s k.ld k.q) c := by
  unfold Holds queueWait
  rw [queueOf_modQueue h]
  exact ⟨rfl, rfl⟩

/-! A read that an acquire of the queue follows. -/

/-- A queue that differs at most in the accesses it follows. -/
def SameButPast (x y : Queue) : Prop := y = { x with past := y.past }

theorem queueGain_spec {s : State} {k : QueueRef} (h : HasQueue s k) (ids : List Nat) :
    HasQueue (queueGain s k ids) k ∧ SameButPast (queueOf s k.ld k.q) (queueOf (queueGain s k ids) k.ld k.q) := by
  unfold queueGain
  split
  · exact ⟨h, rfl⟩
  · refine ⟨h.modQueue _, ?_⟩
    rw [queueOf_modQueue h]
    rfl

theorem queueNat_ok {s t : State} {k : QueueRef} {slot n v : Nat} {p : Ptr} (h : HasQueue s k) (hr : queueNat s k slot p n = .ok (v, t)) :
    HasQueue t k ∧ SameButPast (queueOf s k.ld k.q) (queueOf t k.ld k.q) ∧ ∃ t', cpNat s k.ld slot p n = .ok (v, t') := by
  unfold queueNat at hr
  have hc := carries_cpNat s k.ld slot p n
  cases hn : cpNat s k.ld slot p n with
  | error e => rw [hn] at hr; cases hr
  | ok r =>
    rw [hn] at hr hc
    have hl : r.2.lds = s.lds := hc
    injection hr with hr
    obtain ⟨rfl, rfl⟩ := Prod.mk.inj hr
    obtain ⟨hq, hsame⟩ := queueGain_spec (h.of_lds hl) (cpGained s k.ld slot p n)
    rw [queueOf_congr hl] at hsame
    exact ⟨hq, hsame, r.2, rfl⟩

theorem queueNat_error {s : State} {k : QueueRef} {slot n : Nat} {p : Ptr} {e : CpErr} (h : HasQueue s k)
    (hr : cpNat s k.ld slot p n = .error e) : queueNat s k slot p n = .error e ∧ HasQueue e.s k := by
  have hc := carries_cpNat s k.ld slot p n
  rw [hr] at hc
  exact ⟨by simp only [queueNat, hr]; rfl, h.of_lds hc⟩

/-! Commands. -/

theorem readCommand_lds {s s1 : State} {k : QueueRef} {c : Nat} (h : readCommand s k = .ok (c, s1)) : s1.lds = s.lds := by
  unfold readCommand at h
  dsimp only at h
  split at h
  · cases h; rfl
  · split at h
    · cases h
    · have hc := carries_cpNat s k.ld (queueOf s k.ld k.q).slot.toNat (commandPtr (queueOf s k.ld k.q) (queueOf s k.ld k.q).head.toNat) 64
      split at h
      · cases h
      next r hr =>
        rw [hr] at hc
        cases h
        exact hc

theorem exec_command {s s1 : State} {k : QueueRef} {x : Queue} {c : Nat} {sel : Nat → Bool} {f : State → Queue → Nat → Ptr → State}
    (hrun : Running s) (hdev : HasDev s k.ld) (hq : k.q < 9) (hres : (ldOf s k.ld).resetting = false)
    (hbusy : queueBusy (queueOf s k.ld k.q) = true) (hread : readCommand s k = .ok (c, s1)) (hx : x = queueOf s1 k.ld k.q) (hsel : sel c = true) :
    queueCommand k sel s f = .next (if cmdBad c then stopQueue s1 k 0x0C (commandPtr x x.head.toNat) else f s1 x c (commandPtr x x.head.toNat)) ∧
      HasQueue s1 k := by
  obtain ⟨hon, hhalt⟩ := hrun
  have hlds := readCommand_lds hread
  have hsame : queueOf s1 k.ld k.q = queueOf s k.ld k.q := queueOf_congr hlds ..
  subst hx
  refine ⟨?_, ?_⟩
  · simp only [queueCommand, agent, hon, hhalt, hbusy, hdev.2.1, hq, hres, hread, hsel, hsame, decide_true, Bool.not_false, Bool.and_self,
      Bool.not_true, Bool.false_eq_true, if_true, if_false]
  · exact (show HasQueue s k from hasQueue_of_dev hdev hq).of_lds hlds

theorem HasCommand.code {s s1 : State} {k : QueueRef} {x : Queue} {c code : Nat} (h : HasCommand s k s1 x c code) : cmdCode c = code := by
  obtain ⟨-, -, -, -, -, -, -, hcode, -⟩ := h
  exact hcode

theorem HasCommand.good {s s1 : State} {k : QueueRef} {x : Queue} {c code : Nat} (h : HasCommand s k s1 x c code) : cmdBad c = false := by
  obtain ⟨-, -, -, -, -, -, -, -, hgood⟩ := h
  exact hgood

theorem HasCommand.runs {s s1 : State} {k : QueueRef} {x : Queue} {c code : Nat} (h : HasCommand s k s1 x c code) {sel : Nat → Bool}
    {f : State → Queue → Nat → Ptr → State} (hsel : sel c = true) :
    queueCommand k sel s f = .next (f s1 x c (commandPtr x x.head.toNat)) ∧ HasQueue s1 k ∧ x = queueOf s1 k.ld k.q ∧ cmdCode c = code := by
  obtain ⟨hrun, hdev, hq, hres, hbusy, hread, hx, hcode, hgood⟩ := h
  obtain ⟨he, hqueue⟩ := exec_command (f := f) hrun hdev hq hres hbusy hread hx hsel
  rw [hgood, if_neg Bool.false_ne_true] at he
  exact ⟨he, hqueue, hx, hcode⟩

/-! Descriptors and doorbells. -/

theorem queueOf_setQb {s : State} {k : QueueRef} (h : k.ld < s.lds.length) (off : Nat) (v : DWord) :
    queueOf (setQb s k.ld off v) k.ld k.q = queueOf s k.ld k.q := by
  rw [queueOf, setQb, ldOf_modLd h]
  rfl

theorem bytesKept_modQueue (s : State) (ld q : Nat) (f : Queue → Queue) : BytesKept s (modQueue s ld q f) := ⟨rfl, fun _ _ _ => rfl⟩

section
variable {s : State} {k : QueueRef} (hrun : Running s) (hdev : HasDev s k.ld) (hq : k.q < 9)
include hrun hdev hq

theorem exec_descriptorWrite {w : Nat} (hw : w < 8) (v : DWord) :
    exec (.queueDescriptorWrite k w v) s = .next (setQueueWord (if w = 2 then hostTail s k else s) k.ld k.q w v) := by
  obtain ⟨hon, hhalt⟩ := hrun
  show execQueueDescriptorWrite k w v s = _
  simp only [execQueueDescriptorWrite, agent, hon, hhalt, hdev.2.1, hq, hw, Bool.not_false, Bool.and_self, and_self, if_true]

theorem becomes_descriptor_zero (v : DWord) : Becomes (exec (.queueDescriptorWrite k 0 v) s) fun u =>
    queueOf u k.ld k.q = { queueOf s k.ld k.q with base := v } ∧ BytesKept s u :=
  ⟨modQueue s k.ld k.q fun x => { x with base := v }, exec_descriptorWrite hrun hdev hq (by decide) v,
    queueOf_modQueue (hasQueue_of_dev hdev hq) _, bytesKept_modQueue ..⟩

theorem becomes_descriptor_one (v : DWord) : Becomes (exec (.queueDescriptorWrite k 1 v) s) fun u =>
    queueOf u k.ld k.q = { queueOf s k.ld k.q with size := v.extractLsb' 0 32 } ∧ BytesKept s u :=
  ⟨modQueue s k.ld k.q fun x => { x with size := v.extractLsb' 0 32 }, exec_descriptorWrite hrun hdev hq (by decide) v,
    queueOf_modQueue (hasQueue_of_dev hdev hq) _, bytesKept_modQueue ..⟩

theorem becomes_descriptor_two (v : DWord) : Becomes (exec (.queueDescriptorWrite k 2 v) s) fun u =>
    queueOf u k.ld k.q = { queueOf s k.ld k.q with
      tail := v.extractLsb' 0 32, slot := v.extractLsb' 32 6, en := v.getLsbD 38, err := (queueOf s k.ld k.q).err && !v.getLsbD 38
      waiting := if v.getLsbD 38 then (queueOf s k.ld k.q).waiting else none, past := (queueOf (hostTail s k) k.ld k.q).past } ∧ BytesKept s u := by
  obtain ⟨hgain, hsame⟩ := queueGain_spec (hasQueue_of_dev hdev hq) (whoPast s (.host k.ld))
  refine ⟨_, exec_descriptorWrite hrun hdev hq (by decide) v, ?_, ?_⟩
  · refine (queueOf_setQb (hgain.modQueue _).1 _ _).trans ((queueOf_modQueue hgain _).trans ?_)
    exact congrArg (fun x : Queue => { x with
      tail := v.extractLsb' 0 32, slot := v.extractLsb' 32 6, en := v.getLsbD 38
      waiting := if v.getLsbD 38 then x.waiting else none
      err := x.err && !v.getLsbD 38 }) hsame
  · rw [if_pos rfl, hostTail, queueGain]
    split <;> exact ⟨rfl, fun _ _ _ => rfl⟩

theorem exec_doorbell (tail : Word) : exec (.queueDoorbell k tail) s = .next (
    if queueBusy (queueOf (setTail (hostTail s k) k.ld k.q tail) k.ld k.q) then
      match readCommand (setTail (hostTail s k) k.ld k.q tail) k with
      | .error s => s
      | .ok _ => setTail (hostTail s k) k.ld k.q tail
    else setTail (hostTail s k) k.ld k.q tail) := by
  obtain ⟨hon, hhalt⟩ := hrun
  show execQueueDoorbell k tail s = _
  simp only [execQueueDoorbell, agent, hon, hhalt, hdev.2.1, hq, decide_true, Bool.not_false, Bool.and_self, Bool.not_true, Bool.false_eq_true,
    if_true, if_false] <;> rfl

omit hrun in
/-- The queue after a doorbell has set TAIL. -/
theorem queueOf_rung (tail : Word) : HasQueue (setTail (hostTail s k) k.ld k.q tail) k ∧
    queueOf (setTail (hostTail s k) k.ld k.q tail) k.ld k.q =
      { queueOf s k.ld k.q with tail := tail, past := (queueOf (hostTail s k) k.ld k.q).past } := by
  obtain ⟨hgain, hsame⟩ := queueGain_spec (hasQueue_of_dev hdev hq) (whoPast s (.host k.ld))
  exact ⟨hgain.modQueue _, (queueOf_modQueue hgain _).trans (congrArg (fun x : Queue => { x with tail := tail }) hsame)⟩

theorem becomes_doorbell (tail : Word)
    (h : (queueOf s k.ld k.q).en = false ∨ tail = (queueOf s k.ld k.q).head ∨ (queueOf s k.ld k.q).waiting ≠ none) :
    Becomes (exec (.queueDoorbell k tail) s) fun u =>
      queueOf u k.ld k.q = { queueOf s k.ld k.q with tail := tail, past := (queueOf (hostTail s k) k.ld k.q).past } := by
  obtain ⟨-, hrung⟩ := queueOf_rung hdev hq tail
  refine ⟨_, exec_doorbell hrun hdev hq tail, ?_⟩
  split
  next hbusy =>
    rw [hrung] at hbusy
    simp only [queueBusy, Bool.and_eq_true, bne_iff_ne] at hbusy
    obtain ⟨hen, hne⟩ := hbusy
    obtain ⟨c, hc⟩ : ∃ c, (queueOf s k.ld k.q).waiting = some c := by
      rcases h with h | h | h
      · rw [hen] at h; cases h
      · exact absurd h hne
      · exact Option.ne_none_iff_exists'.1 h
    have hread : readCommand (setTail (hostTail s k) k.ld k.q tail) k = .ok (c, setTail (hostTail s k) k.ld k.q tail) := by
      simp only [readCommand, hrung, hc]
    rw [hread]
    exact hrung
  next => exact hrung

theorem becomes_doorbell_invalid (tail : Word) (hen : (queueOf s k.ld k.q).en = true) (hne : tail ≠ (queueOf s k.ld k.q).head)
    (hw : (queueOf s k.ld k.q).waiting = none)
    (hbad : (∀ i, 4 ≤ i → i ≤ 20 → (queueOf s k.ld k.q).size.toNat ≠ 2 ^ i) ∨ (queueOf s k.ld k.q).base.toNat % 64 ≠ 0 ∨
      (queueOf s k.ld k.q).slot = 63 ∨ (queueOf s k.ld k.q).size.toNat < (tail - (queueOf s k.ld k.q).head).toNat) :
    Becomes (exec (.queueDoorbell k tail) s) fun u =>
      StoppedWith u k 0x0B (commandPtr (queueOf s k.ld k.q) (queueOf s k.ld k.q).head.toNat) := by
  obtain ⟨hqueue, hrung⟩ := queueOf_rung hdev hq tail
  refine ⟨_, exec_doorbell hrun hdev hq tail, ?_⟩
  have hbusy : queueBusy (queueOf (setTail (hostTail s k) k.ld k.q tail) k.ld k.q) = true := by
    rw [hrung]
    simp [queueBusy, hen, hne]
  have hdesc : descBad (setTail (hostTail s k) k.ld k.q tail) k (queueOf (setTail (hostTail s k) k.ld k.q tail) k.ld k.q) = true := by
    rw [hrung]
    unfold descBad
    rcases hbad with h | h | h | h
    · have hany : ((List.range 17).any fun i => (queueOf s k.ld k.q).size.toNat == 2 ^ (i + 4)) = false := by
        refine List.any_eq_false.2 fun i hi => ?_
        have hi := List.mem_range.1 hi
        simpa using h (i + 4) (by omega) (by omega)
      simp [hany]
    · simp [h]
    · simp [h]
    · dsimp only
      simp only [decide_eq_true h, Bool.or_true, Bool.true_or]
  have hread : readCommand (setTail (hostTail s k) k.ld k.q tail) k = .error (stopQueue (setTail (hostTail s k) k.ld k.q tail) k 0x0B
      (commandPtr (queueOf s k.ld k.q) (queueOf s k.ld k.q).head.toNat)) := by
    have hwait : (queueOf (setTail (hostTail s k) k.ld k.q tail) k.ld k.q).waiting = none := by rw [hrung]; exact hw
    have hptr : commandPtr (queueOf (setTail (hostTail s k) k.ld k.q tail) k.ld k.q)
        (queueOf (setTail (hostTail s k) k.ld k.q tail) k.ld k.q).head.toNat = commandPtr (queueOf s k.ld k.q) (queueOf s k.ld k.q).head.toNat := by
      rw [hrung]; rfl
    simp only [readCommand, hwait, hdesc, if_true, hptr]
  rw [if_pos hbusy, hread]
  exact queueOf_stopQueue hqueue ..

end

/-! The commands that steer. -/

theorem cmdFlags_lt {c code : Nat} (hcode : cmdCode c = code) (hmask : cmdMask code = 3) (hgood : cmdBad c = false) : cmdFlags c < 4 := by
  have hlt : cmdFlags c < 2 ^ 8 := fld_lt ..
  have hbit (i : Nat) (h2 : 2 ≤ i) (hi : i < 8) : cmdFlags c / 2 ^ i % 2 = 0 := by
    have hany : ((List.range 8).any fun i => bit1 (cmdFlags c) i && !bit1 (cmdMask (cmdCode c)) i) = false := by
      unfold cmdBad at hgood
      exact (Bool.or_eq_false_iff.1 hgood).2
    have h := List.any_eq_false.1 hany i (List.mem_range.2 hi)
    rw [hcode, hmask] at h
    have h3 : bit1 3 i = false := by interval_cases i <;> rfl
    rw [h3] at h
    have hodd : (cmdFlags c).testBit i = false := by simpa [bit1] using h
    rw [Nat.testBit_eq_decide_div_mod_eq] at hodd
    have := of_decide_eq_false hodd
    omega
  have := hbit 2 (by omega) (by omega)
  have := hbit 3 (by omega) (by omega)
  have := hbit 4 (by omega) (by omega)
  have := hbit 5 (by omega) (by omega)
  have := hbit 6 (by omega) (by omega)
  have := hbit 7 (by omega) (by omega)
  omega

theorem toIntN_word (n : Nat) : toIntN 32 true n = (BitVec.ofNat 32 n).toInt := by
  rw [BitVec.toInt_eq_toNat_cond, BitVec.toNat_ofNat]
  simp only [toIntN, Bool.true_and, decide_eq_true_eq]
  split <;> split <;> omega

section
variable {s s1 : State} {k : QueueRef} {x : Queue} {c : Nat}

/-- The effect of LOOP with a count. -/
def loopBy (s : State) (k : QueueRef) (x : Queue) (c : Nat) (p : Ptr) (n : Nat) : State :=
  if n = 0 then queueGo s k (x.head.toNat + fld (cmdVal c) 0 16 + 1 : Nat)
  else if 4 ≤ x.loops.length then stopQueue s k 0x0C p
  else queueNext (modQueue s k.ld k.q fun x => { x with loops := ((x.head + 1).toNat, n, 0) :: x.loops }) k

theorem loopBy_spec {t : State} (ht : HasQueue t k) (hsame : SameButPast x (queueOf t k.ld k.q)) (c : Nat) (p : Ptr) :
    GoneTo (loopBy t k x c p 0) k (x.head.toNat + fld (cmdVal c) 0 16 + 1) x.loops ∧
    ∀ m, 0 < m → (x.loops.length < 4 → GoneTo (loopBy t k x c p m) k (x.head.toNat + 1) (((x.head + 1).toNat, m, 0) :: x.loops)) ∧
      (4 ≤ x.loops.length → StoppedWith (loopBy t k x c p m) k 0x0C p) := by
  have hloops : (queueOf t k.ld k.q).loops = x.loops := by rw [hsame]
  have hhead : (queueOf t k.ld k.q).head = x.head := by rw [hsame]
  refine ⟨?_, fun m hm => ⟨fun hlen => ?_, fun hlen => ?_⟩⟩
  · have h := goneTo_queueGo ht (x.head.toNat + fld (cmdVal c) 0 16 + 1 : Nat)
    rw [hloops] at h
    simpa [loopBy] using h
  · have h := goneTo_queueNext (ht.modQueue fun x => { x with loops := ((x.head + 1).toNat, m, 0) :: x.loops })
    rw [queueOf_modQueue ht] at h
    dsimp only at h
    rw [hloops, hhead] at h
    rw [loopBy, if_neg (by omega), if_neg (by omega)]
    exact h
  · rw [loopBy, if_neg (by omega), if_pos hlen]
    exact queueOf_stopQueue ht ..

/-- What a read for a command gives, with the acquire of its queue. -/
theorem queueNat_of_ok {s2 : State} {slot n v : Nat} {p : Ptr} (h : HasQueue s k) (hr : cpNat s k.ld slot p n = .ok (v, s2)) :
    ∃ t, queueNat s k slot p n = .ok (v, t) ∧ HasQueue t k ∧ SameButPast (queueOf s k.ld k.q) (queueOf t k.ld k.q) := by
  have he : queueNat s k slot p n = .ok (v, queueGain s2 k (cpGained s k.ld slot p n)) := by
    unfold queueNat
    rw [hr]
    rfl
  obtain ⟨hq, hsame, -⟩ := queueNat_ok h he
  exact ⟨_, he, hq, hsame⟩

theorem command_loop (h : HasCommand s k s1 x c 2) :
    let p := commandPtr x x.head.toNat
    let n : Option Nat := if bit1 (cmdFlags c) 0 then match cpNat s1 k.ld x.slot.toNat (cmdP c) 4 with
      | .ok r => some r.1
      | .error _ => none
      else some (cmdImm c)
    (n = none → Becomes (exec (.loop k) s) fun u => StoppedWith u k 0x0E p) ∧
    (n = some 0 → Becomes (exec (.loop k) s) fun u => GoneTo u k (x.head.toNat + fld (cmdVal c) 0 16 + 1) x.loops) ∧
    (∀ m, n = some m → 0 < m → x.loops.length < 4 → Becomes (exec (.loop k) s) fun u =>
      GoneTo u k (x.head.toNat + 1) (((x.head + 1).toNat, m, 0) :: x.loops)) ∧
    (∀ m, n = some m → 0 < m → 4 ≤ x.loops.length → Becomes (exec (.loop k) s) fun u => StoppedWith u k 0x0C p) := by
  have hcode := h.code
  obtain ⟨he, hq, hx, -⟩ := h.runs (sel := fun c => cmdCode c == 2) (f := fun s x c p =>
    if bit1 (cmdFlags c) 0 then match queueNat s k x.slot.toNat (cmdP c) 4 with
      | .error e => stopQueue e.s k 0x0E p
      | .ok r => loopBy r.2 k x c p r.1
    else loopBy s k x c p (cmdImm c)) (by simp [hcode])
  have he : exec (.loop k) s = .next (if bit1 (cmdFlags c) 0 then match queueNat s1 k x.slot.toNat (cmdP c) 4 with
      | .error e => stopQueue e.s k 0x0E (commandPtr x x.head.toNat)
      | .ok r => loopBy r.2 k x c (commandPtr x x.head.toNat) r.1
    else loopBy s1 k x c (commandPtr x x.head.toNat) (cmdImm c)) := he
  intro p n
  -- the count with the machine in which the loop is entered
  have hcases : (n = none ∧ Becomes (exec (.loop k) s) fun u => StoppedWith u k 0x0E p) ∨
      ∃ m t, n = some m ∧ HasQueue t k ∧ SameButPast x (queueOf t k.ld k.q) ∧ exec (.loop k) s = .next (loopBy t k x c p m) := by
    by_cases hflag : bit1 (cmdFlags c) 0 = true
    · rw [if_pos hflag] at he
      cases hr : cpNat s1 k.ld x.slot.toNat (cmdP c) 4 with
      | error e =>
        obtain ⟨hn, hqe⟩ := queueNat_error hq hr
        rw [hn] at he
        exact .inl ⟨by simp only [n, if_pos hflag, hr], _, he, queueOf_stopQueue hqe ..⟩
      | ok r =>
        obtain ⟨t, ht, hqt, hsame⟩ := queueNat_of_ok hq hr
        rw [ht] at he
        exact .inr ⟨r.1, t, by simp only [n, if_pos hflag, hr], hqt, hx ▸ hsame, he⟩
    · rw [if_neg hflag] at he
      exact .inr ⟨cmdImm c, s1, if_neg hflag, hq, by rw [← hx]; rfl, he⟩
  rcases hcases with ⟨hn, hstop⟩ | ⟨m, t, hn, ht, hsame, he⟩
  · rw [hn]
    exact ⟨fun _ => hstop, fun h => (by cases h), fun _ h => (by cases h), fun _ h => (by cases h)⟩
  · rw [hn]
    obtain ⟨hzero, hpos⟩ := loopBy_spec ht hsame c p
    refine ⟨fun h => (by cases h), fun h => ?_, fun m' h hm hlen => ?_, fun m' h hm hlen => ?_⟩
    all_goals obtain rfl := Option.some.inj h
    · exact ⟨_, he, hzero⟩
    · exact ⟨_, he, (hpos _ hm).1 hlen⟩
    · exact ⟨_, he, (hpos _ hm).2 hlen⟩

theorem command_endloop (h : HasCommand s k s1 x c 3) :
    (x.loops = [] → Becomes (exec (.endloop k) s) fun u => StoppedWith u k 0x0C (commandPtr x x.head.toNat)) ∧
    ∀ first n i rest, x.loops = (first, n, i) :: rest → Becomes (exec (.endloop k) s) fun u =>
      if i + 1 < n then GoneTo u k first ((first, n, i + 1) :: rest) else GoneTo u k (x.head.toNat + 1) rest := by
  have hcode := h.code
  obtain ⟨he, hq, hx, -⟩ := h.runs (sel := fun c => cmdCode c == 3) (f := fun s x _ p => match x.loops with
    | [] => stopQueue s k 0x0C p
    | (first, n, i) :: r =>
      if i + 1 < n then queueGo (modQueue s k.ld k.q fun x => { x with loops := (first, n, i + 1) :: r }) k first
      else queueNext (modQueue s k.ld k.q fun x => { x with loops := r }) k) (by simp [hcode])
  refine ⟨fun hl => ⟨_, he, ?_⟩, fun first n i rest hl => ⟨_, he, ?_⟩⟩
  · simp only [hl]
    exact queueOf_stopQueue hq ..
  · simp only [hl]
    by_cases hi : i + 1 < n
    · rw [if_pos hi, if_pos hi]
      have hgo := goneTo_queueGo (hq.modQueue fun x => { x with loops := (first, n, i + 1) :: rest }) first
      rwa [queueOf_modQueue hq] at hgo
    · rw [if_neg hi, if_neg hi]
      have hgo := goneTo_queueNext (hq.modQueue fun x => { x with loops := rest })
      rw [queueOf_modQueue hq, ← hx] at hgo
      exact hgo

/-- Does the condition of COND hold of a word. -/
def condHolds (c v : Nat) : Prop :=
  (cmdFlags c = 0 ∧ v = cmdVal c) ∨ (cmdFlags c = 1 ∧ v ≠ cmdVal c) ∨ (cmdFlags c = 2 ∧ v < cmdVal c) ∨ (cmdFlags c = 3 ∧ cmdVal c ≤ v)

/-- COND's own test. -/
def condTest (c v : Nat) : Bool := match cmdFlags c with
  | 0 => v == cmdVal c
  | 1 => v != cmdVal c
  | 2 => v < cmdVal c
  | _ => cmdVal c ≤ v

theorem condTest_iff {c v : Nat} (h : cmdFlags c < 4) : condTest c v = true ↔ condHolds c v := by
  unfold condTest condHolds
  generalize cmdFlags c = f at *
  interval_cases f <;> simp

theorem command_cond {s2 : State} {v : Nat} (h : HasCommand s k s1 x c 4) (hr : cpNat s1 k.ld x.slot.toNat (cmdP c) 8 = .ok (v, s2)) :
    (condHolds c v → Becomes (exec (.cond k) s) fun u => GoneTo u k (x.head.toNat + 1) x.loops) ∧
    (¬condHolds c v → Becomes (exec (.cond k) s) fun u => GoneTo u k (x.head.toNat + 1 + cmdImm c) x.loops) := by
  have hgood := h.good
  have hcode := h.code
  obtain ⟨he, hq, hx, -⟩ := h.runs (sel := fun c => cmdCode c == 4) (f := fun s x c p => match queueNat s k x.slot.toNat (cmdP c) 8 with
    | .error e => stopQueue e.s k 0x0E p
    | .ok (v, s) => if condTest c v then queueNext s k else queueGo s k (x.head.toNat + 1 + cmdImm c : Nat)) (by simp [hcode])
  obtain ⟨t, ht, hqt, hsame⟩ := queueNat_of_ok hq hr
  rw [← hx] at hsame
  have hloops : (queueOf t k.ld k.q).loops = x.loops := by rw [hsame]
  have hhead : (queueOf t k.ld k.q).head = x.head := by rw [hsame]
  simp only [ht] at he
  have hrun : exec (.cond k) s = .next (if condTest c v then queueNext t k else queueGo t k (x.head.toNat + 1 + cmdImm c : Nat)) := he
  have hiff := condTest_iff (v := v) (cmdFlags_lt hcode rfl hgood)
  refine ⟨fun hc => ⟨_, hrun, ?_⟩, fun hc => ⟨_, hrun, ?_⟩⟩
  · rw [if_pos (hiff.2 hc), ← hloops, ← hhead]
    exact goneTo_queueNext hqt
  · rw [if_neg fun ht => hc (hiff.1 ht), ← hloops]
    have hgo := goneTo_queueGo hqt (x.head.toNat + 1 + cmdImm c : Nat)
    simpa using hgo

theorem command_jump (h : HasCommand s k s1 x c 5) :
    (cmdImm c = 0 → Becomes (exec (.jump k) s) fun u => StoppedWith u k 0x0C (commandPtr x x.head.toNat)) ∧
    (cmdImm c ≠ 0 → Becomes (exec (.jump k) s) fun u => GoneTo u k (x.head.toNat + (BitVec.ofNat 32 (cmdImm c)).toInt) x.loops) := by
  have hcode := h.code
  obtain ⟨he, hq, hx, -⟩ := h.runs (sel := fun c => cmdCode c == 5) (f := fun s x c p =>
    if cmdImm c = 0 then stopQueue s k 0x0C p else queueGo s k (x.head.toNat + toIntN 32 true (cmdImm c))) (by simp [hcode])
  refine ⟨fun hz => ⟨_, he, ?_⟩, fun hz => ⟨_, he, ?_⟩⟩
  · dsimp only
    rw [if_pos hz]
    exact queueOf_stopQueue hq ..
  · dsimp only
    rw [if_neg hz, toIntN_word]
    have hgo := goneTo_queueGo hq (x.head.toNat + (BitVec.ofNat 32 (cmdImm c)).toInt)
    rwa [← hx] at hgo

theorem command_wait {s2 : State} {v : Nat} (h : HasCommand s k s1 x c 6) (hr : cpNat s1 k.ld x.slot.toNat (cmdP c) 8 = .ok (v, s2)) {i : Instr}
    (hi : (i = .wait k ∧ x.waiting = none) ∨ (i = .waitSatisfied k ∧ x.waiting = some c)) :
    (cmdVal c ≤ v → Becomes (exec i s) fun u => GoneTo u k (x.head.toNat + 1) x.loops) ∧
    (v < cmdVal c → Becomes (exec i s) fun u => Holds u k x c) := by
  have hcode := h.code
  have hrun : exec i s = .next (waitWord s1 k x c (commandPtr x x.head.toNat)) := by
    rcases hi with ⟨rfl, hw⟩ | ⟨rfl, hw⟩
    · have he := (h.runs (sel := fun c => cmdCode c == 6) (f := fun s x c p => if x.waiting.isSome then s else waitWord s k x c p)
        (by simp [hcode])).1
      rw [hw] at he
      exact he
    · have he := (h.runs (sel := fun c => cmdCode c == 6) (f := fun s x c p => if x.waiting.isSome then waitWord s k x c p else s)
        (by simp [hcode])).1
      rw [hw] at he
      exact he
  obtain ⟨-, hq, hx, -⟩ := h.runs (sel := fun c => cmdCode c == 6) (f := fun s _ _ _ => s) (by simp [hcode])
  obtain ⟨t, ht, hqt, hsame⟩ := queueNat_of_ok hq hr
  rw [← hx] at hsame
  have hloops : (queueOf t k.ld k.q).loops = x.loops := by rw [hsame]
  have hhead : (queueOf t k.ld k.q).head = x.head := by rw [hsame]
  simp only [waitWord, ht] at hrun
  refine ⟨fun hv => ⟨_, hrun, ?_⟩, fun hv => ⟨_, hrun, ?_⟩⟩
  · rw [if_pos hv, ← hloops, ← hhead]
    exact goneTo_queueNext hqt
  · rw [if_neg (by omega)]
    obtain ⟨hw, hh⟩ := holds_queueWait hqt c
    exact ⟨hw, hh.trans hhead⟩

theorem command_drain (h : HasCommand s k s1 x c 8) :
    (x.live = [] → Becomes (exec (.drain k) s) fun u => GoneTo u k (x.head.toNat + 1) x.loops) ∧
    (x.live ≠ [] → Becomes (exec (.drain k) s) fun u => Holds u k x c) ∧
    (x.live = [] → x.waiting = some c → Becomes (exec (.drainDone k) s) fun u => GoneTo u k (x.head.toNat + 1) x.loops) := by
  have hcode := h.code
  obtain ⟨he, hq, hx, -⟩ := h.runs (sel := fun c => cmdCode c == 8)
    (f := fun s x c _ => if x.live.isEmpty then queueNext s k else queueWait s k c) (by simp [hcode])
  obtain ⟨hd, -⟩ := h.runs (sel := fun c => cmdCode c == 8)
    (f := fun s x _ _ => if x.waiting.isSome && x.live.isEmpty then queueNext s k else s) (by simp [hcode])
  have hnext : GoneTo (queueNext s1 k) k (x.head.toNat + 1) x.loops := by
    rw [hx]
    exact goneTo_queueNext hq
  refine ⟨fun hl => ⟨_, he, ?_⟩, fun hl => ⟨_, he, ?_⟩, fun hl hw => ⟨_, hd, ?_⟩⟩
  · dsimp only
    rw [if_pos (by simp [hl])]
    exact hnext
  · dsimp only
    rw [if_neg (by simpa using hl), hx]
    exact holds_queueWait hq c
  · dsimp only
    rw [if_pos (by simp [hl, hw])]
    exact hnext

theorem command_halt (h : HasCommand s k s1 x c 9) : Becomes (exec (.halt k) s) fun u => queueOf u k.ld k.q = { x with en := false } := by
  have hcode := h.code
  obtain ⟨he, hq, hx, -⟩ := h.runs (sel := fun c => cmdCode c == 9) (f := fun s _ _ _ => modQueue s k.ld k.q fun x => { x with en := false })
    (by simp [hcode])
  refine ⟨_, he, ?_⟩
  rw [hx]
  exact queueOf_modQueue hq _

end

/-! A clean byte through reads of any memory: a read that finds a bad or corrected sector writes that sector, which is another one,
and a record of the event log, whose sectors it cleans. -/

/-- No word is overlaid and a byte is clean. -/
def StaysClean (b : Nat) (s : State) : Prop := s.sram = [] ∧ CleanByte s b

section
variable {b : Nat} {s : State}

theorem StaysClean.quiet {t : State} (h : StaysClean b s) (hq : Quiet s t) : StaysClean b t :=
  ⟨hq.sram.trans h.1, by unfold CleanByte; rw [hq.ecc]; exact h.2⟩

theorem StaysClean.openLine (h : StaysClean b s) (n : Nat) : StaysClean b (openLine s n) :=
  ⟨(openLine_sram s n).trans h.1, clean_openLine n h.2⟩

theorem StaysClean.sectorWrite (h : StaysClean b s) (pa : Nat) (bs : List Byte) : StaysClean b (sectorWrite s pa bs) := by
  have hopen : StaysClean b ((List.range ((pa + bs.length + 127) / 128 - pa / 128)).foldl
      (fun s i => Sys2Proof.Machine.openLine s (pa / 128 + i)) s) := foldl_holds (StaysClean b) h fun t i ht => ht.openLine _
  refine ⟨hopen.1, fun hb => ?_⟩
  unfold Sys2Proof.Machine.sectorWrite
  dsimp only
  rw [stGet_clear]
  split
  · rfl
  · exact hopen.2 hb

theorem StaysClean.raiseMsix (h : StaysClean b s) (ld vec : Nat) : StaysClean b (raiseMsix s ld vec) := by
  unfold Sys2Proof.Machine.raiseMsix
  split <;> exact h

theorem StaysClean.setPkgReg (h : StaysClean b s) (n x : Nat) : StaysClean b (setPkgReg s n x) := h

theorem StaysClean.logEvent (h : StaysClean b s) (kind cause detail ld addr aux : Nat) :
    StaysClean b (logEvent s kind cause detail ld addr aux) := by
  unfold Sys2Proof.Machine.logEvent
  dsimp only
  split
  · exact (((h.quiet (dieAccess_quiet h.1 ..)).sectorWrite ..).setPkgReg ..).raiseMsix ..
  · exact h.setPkgReg ..

theorem StaysClean.poisonSec (h : StaysClean b s) {sec : Nat} (hsec : sec ≠ b / 32) : StaysClean b (poisonSec s sec) := by
  obtain ⟨hs, hc⟩ := h.openLine (sec / 4)
  have hsram : (Sys2Proof.Machine.poisonSec s sec).sram = (Sys2Proof.Machine.openLine s (sec / 4)).sram := rfl
  have hecc : (Sys2Proof.Machine.poisonSec s sec).ecc = stSet (Sys2Proof.Machine.openLine s (sec / 4)).ecc sec 0x1FFFFFFFF#33 := rfl
  refine ⟨hsram.trans hs, fun hb => ?_⟩
  rw [hecc, stGet_set_other _ _ _ _ (Ne.symm hsec)]
  exact hc hb

theorem StaysClean.logBad (h : StaysClean b s) {sec : Nat} (hsec : sec ≠ b / 32) : StaysClean b (logBad s sec) :=
  (h.poisonSec hsec).logEvent ..

theorem StaysClean.corrected (h : StaysClean b s) (pa : Nat) : StaysClean b (corrected s pa) := by
  unfold Sys2Proof.Machine.corrected
  dsimp only
  split
  · exact foldl_holds (StaysClean b) h fun t f ht => ht.logEvent ..
  · exact h

theorem StaysClean.freshSec (h : StaysClean b s) (sec : Nat) (bs : List Byte) : StaysClean b (freshSec s sec bs) := by
  refine ⟨h.1, fun hb => ?_⟩
  unfold Sys2Proof.Machine.freshSec
  dsimp only
  rw [stGet_set]
  split
  · rfl
  · exact h.2 hb

theorem StaysClean.readSec (h : StaysClean b s) (hb : isHbm b = true) (sec : Nat) : StaysClean b (readSec s sec).2.2 := by
  unfold Sys2Proof.Machine.readSec
  split
  · exact h
  next hbad =>
    refine h.logBad ?_
    rintro rfl
    rw [secDecode_clean (h.2 hb)] at hbad
    cases hbad
  · exact (h.freshSec _ _).corrected _
  · rw [if_pos (by rw [h.1]; rfl)]
    exact h

theorem StaysClean.readMem (h : StaysClean b s) (hb : isHbm b = true) (pa k : Nat) : StaysClean b (readMem s pa k).2.2 := by
  unfold Sys2Proof.Machine.readMem
  refine foldl_holds (fun y : List Byte × RdSt × State => StaysClean b y.2.2) (h.quiet (readLines_quiet h.1 pa k)) fun y x hy => ?_
  show StaysClean b (readIn y.2.2 x.1 x.2).2.2
  unfold readIn
  split
  · exact hy.readSec hb _
  · exact hy

theorem StaysClean.tableRead (h : StaysClean b s) (hb : isHbm b = true) (pa k : Nat) : StaysClean b (tableRead s pa k) := h.readMem hb pa k

theorem StaysClean.walkRead (h : StaysClean b s) (hb : isHbm b = true) (ld : Nat) (r : RootKey) (va : Nat) :
    StaysClean b (walkRead s ld r va) := by
  have hreads : StaysClean b (walkReads s ld r va) := by
    unfold walkReads
    split
    · exact foldl_holds (StaysClean b) h fun t x ht => ht.tableRead hb ..
    · split
      · exact foldl_holds (StaysClean b) h fun t x ht => ht.tableRead hb ..
      · exact StaysClean.tableRead (foldl_holds (StaysClean b) h fun t x ht => ht.tableRead hb ..) hb ..
  unfold Sys2Proof.Machine.walkRead
  dsimp only
  split
  · exact h
  · split
    · exact h
    · exact hreads

theorem StaysClean.cpWalk (h : StaysClean b s) (hb : isHbm b = true) (ld slot : Nat) (p : Ptr) : StaysClean b (cpWalk s ld slot p) := by
  unfold Sys2Proof.Machine.cpWalk
  exact (((h.tableRead hb ..).tableRead hb ..).tableRead hb ..).walkRead hb ..

end

/-! WRITE. -/

theorem leafPa_low (e va : Nat) : leafPa e va % 32 = va % 32 := by
  unfold leafPa entFrame
  split <;> omega

theorem translate_low {s : State} {ld : Nat} {root : RootKey} {user : Bool} {va : Nat} {k : Acc} {r : Nat × Nat}
    (h : translate s ld root user va k = .ok r) : r.1 % 32 = va % 32 := by
  unfold translate at h
  split at h
  · cases h
  · dsimp only at h
    split_ifs at h
    cases h
    exact leafPa_low ..

theorem farCheck_low {s : State} {ld : Nat} {root : RootKey} {bounds : Store 128} {user : Bool} {p : Ptr} {n : Nat} {k : Acc} {r : Nat × Nat}
    (h : farCheck s ld root bounds user p n k = .ok r) : r.1 % 32 = ptrVa p % 32 := by
  unfold farCheck at h
  split at h
  · cases h
  · exact translate_low h

theorem cpPlace_low {s : State} {ld slot : Nat} {p : Ptr} {n pa : Nat} {k : Acc} (h : cpPlace s ld slot p n k = .ok pa) :
    pa % 32 = ptrVa p % 32 := by
  unfold cpPlace at h
  dsimp only at h
  split at h
  · cases h
  · split at h
    · cases h
    next r hr =>
      split at h <;> cases h
      exact farCheck_low hr

theorem ptrAdd_zero (p : Ptr) : ptrAdd p ((0 : Nat) : Int) = p := by
  rw [ptrAdd_eq, show BitVec.ofInt 56 ((0 : Nat) : Int) = 0#56 from rfl, BitVec.add_zero]
  refine BitVec.eq_of_getLsbD_eq fun i hi => ?_
  rw [BitVec.getLsbD_append]
  by_cases h : i < 56
  · simp [h]
  · simp [h, show i - 56 < 8 by omega, show 56 + (i - 56) = i by omega]

theorem cpPlaces_sector {s : State} {ld slot pa : Nat} {p : Ptr} {bs : List Byte} (h0 : 0 < bs.length) (hn : pa % 32 + bs.length ≤ 32)
    (h : cpPlace s ld slot p bs.length .write = .ok pa) : cpPlaces s ld slot p bs = .ok [(ptrAdd p ((0 : Nat) : Int), pa, bs)] := by
  have hlow := cpPlace_low h
  have hp : ptrAdd p ((0 : Nat) : Int) = p := ptrAdd_zero p
  unfold cpPlaces
  rw [cutMem_sector h0 (by omega)]
  simp only [List.foldl_cons, List.foldl_nil, Except.bind, hp, h, Except.map, List.nil_append, List.drop_zero, List.take_length]

theorem addTag_lds (s : State) (who : Party) (sc : Scope) (past : List Nat) (loc n : Nat) : (addTag s who sc past loc n).lds = s.lds := by
  unfold addTag
  dsimp only
  split <;> rfl

theorem peek_addTag (s : State) (who : Party) (sc : Scope) (past : List Nat) (loc n pa k : Nat) :
    peek (addTag s who sc past loc n) pa k = peek s pa k := by
  unfold addTag
  dsimp only
  split <;> rfl

/-- A release of HBM bytes that are clean: the bytes stand there, and the devices' records are as before. -/
theorem busRelease_hbm {s : State} {pa : Nat} {bs : List Byte} (hs : s.sram = []) (hb : isHbm pa = true) (hc : CleanAt s pa bs.length)
    (who : Who) (by' : Party) (sc : Scope) (past : List Nat) :
    (busRelease s who by' sc past pa bs).lds = s.lds ∧ ∃ t, Wrote (endTags s pa bs.length) t pa bs ∧
      ∀ a k, peek (busRelease s who by' sc past pa bs) a k = peek t a k := by
  have hput : busPut (endTags s pa bs.length) who pa bs = writeMem (endTags s pa bs.length) pa bs :=
    if_neg (by rw [areaOf_hbm hb]; intro h; cases h)
  refine ⟨?_, writeMem (endTags s pa bs.length) pa bs, wrote_writeMem_any hs hc, fun a k => ?_⟩
  · rw [busRelease, addTag_lds, busWrite, hput, lds_writeMem]
    rfl
  · rw [busRelease, peek_addTag, busWrite, hput]

theorem cmdVal_lt (c : Nat) : cmdVal c < 2 ^ 64 := fld_lt ..

theorem peek_queueNext (s : State) (k : QueueRef) (pa n : Nat) : peek (queueNext s k) pa n = peek s pa n := rfl

section
variable {s s1 : State} {k : QueueRef} {x : Queue} {c : Nat}

theorem command_write {pa : Nat} (h : HasCommand s k s1 x c 7) (hplace : cpPlace s1 k.ld x.slot.toNat (cmdP c) 8 .write = .ok pa)
    (hsec : pa % 32 + 8 ≤ 32) (hb : isHbm pa = true) (hc : CleanAt s1 pa 8) (hs : s1.sram = []) :
    Becomes (exec (.write k) s) fun u => GoneTo u k (x.head.toNat + 1) x.loops ∧ peek u pa 8 = cmdVal c := by
  obtain ⟨he, hq, hx, -⟩ := h.runs (sel := fun c => cmdCode c == 7) (f := fun s x c p =>
    match cpRelease s k.ld x.slot.toNat (cmdP c) (bytesOf (cmdVal c) 8) .sys x.past with
    | .error e => stopQueue e.s k 0x0E p
    | .ok s => queueNext s k) (by simp [h.code])
  have hlen : (bytesOf (cmdVal c) 8).length = 8 := length_bytesOf ..
  have hplaces : cpPlaces s1 k.ld x.slot.toNat (cmdP c) (bytesOf (cmdVal c) 8) = .ok [(ptrAdd (cmdP c) ((0 : Nat) : Int), pa, bytesOf (cmdVal c) 8)] :=
    cpPlaces_sector (by rw [hlen]; omega) (by rw [hlen]; omega) (by rw [hlen]; exact hplace)
  -- the machine after the command processor's walk
  obtain ⟨w, hw⟩ : ∃ w, w = cpWalk (tick s1) k.ld x.slot.toNat (ptrAdd (cmdP c) ((0 : Nat) : Int)) := ⟨_, rfl⟩
  have hrel : cpRelease s1 k.ld x.slot.toNat (cmdP c) (bytesOf (cmdVal c) 8) .sys x.past =
      .ok (busRelease w (.sup k.ld) .service .sys x.past pa (bytesOf (cmdVal c) 8)) := by
    rw [hw, cpRelease, hplaces]
    rfl
  have hclean (i : Nat) (hi : i < 8) : StaysClean (pa + i) w := by
    rw [hw]
    by_cases hbi : isHbm (pa + i) = true
    · exact StaysClean.cpWalk (s := tick s1) ⟨hs, hc i hi⟩ hbi ..
    · rw [isHbm_sector (by omega)] at hbi
      exact absurd hb hbi
  have hws : w.sram = [] := (hclean 0 (by omega)).1
  have hwc : CleanAt w pa (bytesOf (cmdVal c) 8).length := by
    rw [hlen]
    exact fun i hi => (hclean i hi).2
  have hwl : w.lds = s1.lds := by rw [hw]; exact lds_cpWalk ..
  obtain ⟨hlds, t, hwrote, hpeek⟩ := busRelease_hbm hws hb hwc (.sup k.ld) .service .sys x.past
  simp only [hrel] at he
  have hqt := hq.of_lds (hlds.trans hwl)
  refine ⟨_, he, ?_, ?_⟩
  · have hgo := goneTo_queueNext hqt
    rwa [queueOf_congr (hlds.trans hwl), ← hx] at hgo
  · rw [peek_queueNext, hpeek, hwrote.peek_bytesOf (n := 8) (by rw [hlen] at hwc; exact hwc)]
    exact Nat.mod_eq_of_lt (cmdVal_lt c)

end

/-! Commands that are invalid. -/

/-- An event acts on a command of some code; PSWAP's two events are told apart by its flag. -/
def ActsAs (k : QueueRef) (c : Nat) (i : Instr) : Prop :=
  (i = .launch k ∧ cmdCode c = 1) ∨
    (i = .loop k ∧ cmdCode c = 2) ∨ (i = .endloop k ∧ cmdCode c = 3) ∨ (i = .cond k ∧ cmdCode c = 4) ∨ (i = .jump k ∧ cmdCode c = 5) ∨
    (i = .wait k ∧ cmdCode c = 6) ∨ (i = .write k ∧ cmdCode c = 7) ∨ (i = .drain k ∧ cmdCode c = 8) ∨ (i = .halt k ∧ cmdCode c = 9) ∨
    (i = .migrate k ∧ cmdCode c = 11) ∨ (i = .pswapOut k ∧ cmdCode c = 10 ∧ bit1 (cmdFlags c) 0 = false) ∨
    (i = .pswapIn k ∧ cmdCode c = 10 ∧ bit1 (cmdFlags c) 0 = true)

/-- An outcome is that of a command for the codes that a test selects. -/
def CommandFor (k : QueueRef) (c : Nat) (s : State) (o : Out) : Prop := ∃ sel f, sel c = true ∧ o = queueCommand k sel s f

theorem CommandFor.of {k : QueueRef} {c : Nat} {s : State} {o : Out} {sel : Nat → Bool} {f : State → Queue → Nat → Ptr → State}
    (h : o = queueCommand k sel s f) (hsel : sel c = true) : CommandFor k c s o := ⟨sel, f, hsel, h⟩

theorem ActsAs.command {k : QueueRef} {c : Nat} {i : Instr} (h : ActsAs k c i) (s : State) : CommandFor k c s (exec i s) := by
  rcases h with ⟨rfl, h⟩ | ⟨rfl, h⟩ | ⟨rfl, h⟩ | ⟨rfl, h⟩ | ⟨rfl, h⟩ | ⟨rfl, h⟩ | ⟨rfl, h⟩ | ⟨rfl, h⟩ | ⟨rfl, h⟩ | ⟨rfl, h⟩ | ⟨rfl, h, hf⟩ |
    ⟨rfl, h, hf⟩
  · exact .of (execLaunch.eq_1 k s) (by simp [h])
  · exact .of (execLoop.eq_1 k s) (by simp [h])
  · exact .of (execEndloop.eq_1 k s) (by simp [h])
  · exact .of (execCond.eq_1 k s) (by simp [h])
  · exact .of (execJump.eq_1 k s) (by simp [h])
  · exact .of (execWait.eq_1 k s) (by simp [h])
  · exact .of (execWrite.eq_1 k s) (by simp [h])
  · exact .of (execDrain.eq_1 k s) (by simp [h])
  · exact .of (execHalt.eq_1 k s) (by simp [h])
  · exact .of (execMigrate.eq_1 k s) (by simp [h])
  · exact .of (execPswapOut.eq_1 k s) (by simp [h, hf])
  · exact .of (execPswapIn.eq_1 k s) (by simp [h, hf])

end Sys2Proof.Machine

open Sys2Proof Sys2Proof.Machine

/-- Settles O42: what a descriptor, a doorbell and each command leave in the queue; a read of the command processor changes no queue. -/
theorem queues : Obligations.Queues := by
  unfold Obligations.Queues
  refine ⟨⟨fun s k v hrun hdev hq => ?_, fun s k tail hrun hdev hq => ⟨becomes_doorbell hrun hdev hq tail, becomes_doorbell_invalid hrun hdev hq tail⟩⟩,
    fun s s1 k x c => command_loop, fun s s1 k x c => command_endloop, fun s s1 s2 k x c v => command_cond, fun s s1 k x c => command_jump,
    fun s s1 s2 k x c v h hr i => command_wait h hr, fun s s1 k x c pa => command_write, fun s s1 k x c => command_drain,
    fun s s1 k x c => command_halt, fun s s1 k x c i hrun hdev hq hres hbusy hread hx hi => ?_⟩
  · exact ⟨becomes_descriptor_zero hrun hdev hq v, becomes_descriptor_one hrun hdev hq v, becomes_descriptor_two hrun hdev hq v,
      ⟨s, exec_descriptorWrite hrun hdev hq (by decide) v, rfl, rfl, fun _ _ _ => rfl⟩⟩
  · have hstop {sel : Nat → Bool} {f : State → Queue → Nat → Ptr → State} (hsel : sel c = true) (hbad : cmdBad c = true) :
        queueCommand k sel s f = .next (stopQueue s1 k 0x0C (commandPtr x x.head.toNat)) ∧ HasQueue s1 k := by
      have h := exec_command (f := f) hrun hdev hq hres hbusy hread hx hsel
      rwa [hbad, if_pos rfl] at h
    rcases hi with ⟨rfl, hcode⟩ | ⟨hbad, hacts⟩
    · obtain ⟨he, hqueue⟩ := exec_command (sel := fun c => cmdCode c == 0 || 0x0C ≤ cmdCode c) (f := fun s _ _ p => stopQueue s k 0x0C p)
        hrun hdev hq hres hbusy hread hx (by simpa using hcode)
      rw [ite_self] at he
      exact ⟨_, he, queueOf_stopQueue hqueue ..⟩
    · obtain ⟨sel, f, hsel, hexec⟩ := ActsAs.command (i := i) hacts s
      obtain ⟨he, hqueue⟩ := hstop (f := f) hsel hbad
      exact ⟨_, hexec.trans he, queueOf_stopQueue hqueue ..⟩

end

section
/-! PROOFS. A far store that names a destination. -/

set_option Elab.async false

namespace Sys2Proof.Machine

/-- A far store of lane 0 under way, of 5 to the word at 0x110100, with v3 as its destination. -/
def storeToReg : Far :=
  ⟨7, 7, ⟨⟨0, 0, 0⟩, 0⟩, 0, 0, .store 5, 0x110100, .b32, [], [], [], some (.v 3), 1, mkPtr 1 0, 128, mkPtr 1 0x100, 100, false, false, false⟩

/-- The group that owes v3 to it. -/
def owingGroup : Group := { loneGroup with outst := [⟨.v 3, .far 7, false⟩] }

/-- The machine in which that store is under way, and the word is 1. -/
def storeToRegState : State := { sectorWrite (loneState owingGroup) 0x110100 (bytesOf 1 4) with far := [storeToReg] }

/-- v3 of the group in lane 0 after a step. -/
def v3After (o : Out) : Option Word := match o with
  | .next t => (groupOf t ⟨⟨0, 0, 0⟩, 0⟩).map fun g => getV g 3 0
  | _ => none

theorem v3After_storeToReg : v3After (exec (.farAccessPerformed 7) storeToRegState) = some 0 := by decide +kernel

theorem peek_storeToReg : ofBytes (peekBytes storeToRegState 0x110100 4) = 1 := by decide +kernel

end Sys2Proof.Machine

open Sys2Proof Sys2Proof.Machine

/-- Refutes O22: the clause for the destination does not ask that the access reads; a store that names a register leaves 0 there where
the word was 1. -/
theorem not_farAccessesPerform : ¬ Obligations.FarAccessesPerform := by
  unfold Obligations.FarAccessesPerform
  rintro ⟨hperform, -⟩
  obtain ⟨t, hexec, -, g', hg, -, hloaded⟩ := hperform storeToRegState 7 storeToReg owingGroup rfl (by decide +kernel) (by decide +kernel) rfl
    (by intro t ht g hg; obtain rfl := List.mem_singleton.1 ht; obtain rfl := List.mem_singleton.1 hg; rfl) rfl rfl (by decide +kernel) (by decide +kernel)
  have hload : (getV g' 3 0).setWidth 64 = 1#64 :=
    (hloaded (by decide +kernel) rfl (.v 3) rfl (.inl rfl) 0 (by decide +kernel)).trans (congrArg (fun x => seen (.v 3) 1 (.ofNat 64 x)) peek_storeToReg)
  have hafter := v3After_storeToReg
  rw [hexec] at hafter
  have hzero : getV g' 3 0 = 0 := by
    refine Option.some.inj (Eq.trans ?_ hafter)
    exact (congrArg (Option.map fun g => getV g 3 0) hg).symm
  rw [hzero] at hload
  exact absurd hload (by decide)

end

section
/-! PROOFS. What drives read as while the write cache settles, and the steps that end a storage request (spec/15_copy_engine.md R325,
  R327, R330, R335). -/

set_option Elab.async false

namespace Sys2Proof.Machine

/-! Drives. -/

/-- A byte of a drive after one of the cached writes. -/
def overWritten (d a : Nat) (v : Byte) (w : DriveWrite) : Byte :=
  if w.drive = d ∧ w.addr ≤ a ∧ a < w.addr + w.bytes.length then w.bytes.getD (a - w.addr) 0 else v

theorem driveByteAt_eq (s : State) (d a : Nat) : driveByteAt s d a = s.driveCache.foldl (overWritten d a) (mediumByte s d a) := rfl

/-- The write lies below the addresses that a drive has. -/
abbrev InDrive (w : DriveWrite) : Prop := w.addr + w.bytes.length ≤ 2 ^ 61

theorem driveKey_inj {d d' a a' : Nat} (ha : a < 2 ^ 61) (ha' : a' < 2 ^ 61) (h : driveKey d a = driveKey d' a') : d = d' ∧ a = a' := by
  unfold driveKey at h
  omega

theorem stGet_setAll_range {n : Nat} (m : Store n) (f : Nat → Nat) (g : Nat → BitVec n) (hf : ∀ i j, f i = f j → i = j) (len a : Nat) :
    stGet (stSetAll m ((List.range len).map fun i => (f i, g i))) a =
      if h : ∃ i < len, f i = a then g h.choose else stGet m a := by
  induction len with
  | zero => simp [stSetAll]
  | succ n ih =>
    have hs : stSetAll m ((List.range (n + 1)).map fun i => (f i, g i)) =
        stSet (stSetAll m ((List.range n).map fun i => (f i, g i))) (f n) (g n) := by
      simp [stSetAll, List.range_succ]
    rw [hs, stGet_set, ih]
    by_cases ha : a = f n
    · have h : ∃ i < n + 1, f i = a := ⟨n, by omega, ha.symm⟩
      rw [if_pos ha, dif_pos h, hf _ _ (h.choose_spec.2.trans ha)]
    · rw [if_neg ha]
      by_cases h : ∃ i < n, f i = a
      · have h' : ∃ i < n + 1, f i = a := h.imp fun i hi => ⟨by omega, hi.2⟩
        rw [dif_pos h, dif_pos h', hf _ _ (h.choose_spec.2.trans h'.choose_spec.2.symm)]
      · rw [dif_neg h, dif_neg]
        rintro ⟨i, hi, he⟩
        have hne : i ≠ n := fun hin => ha (by rw [← he, hin])
        exact h ⟨i, by omega, he⟩

theorem mediumByte_write {s : State} {w : DriveWrite} (hw : InDrive w) {d a : Nat} (ha : a < 2 ^ 61) :
    mediumByte (mediumWrite s w) d a = overWritten d a (mediumByte s d a) w := by
  have hkeys : ((List.range w.bytes.length).map fun i => (driveKey w.drive (w.addr + i), w.bytes.getD i 0)).map (fun k => (k.1, (1 : BitVec 1))) =
      (List.range w.bytes.length).map fun i => (driveKey w.drive (w.addr + i), 1) := by simp
  have hinj (i j : Nat) (h : driveKey w.drive (w.addr + i) = driveKey w.drive (w.addr + j)) : i = j := by
    unfold driveKey at h
    omega
  unfold mediumByte mediumWrite
  simp only [hkeys]
  rw [stGet_setAll_range _ (fun i => driveKey w.drive (w.addr + i)) _ hinj, stGet_setAll_range _ (fun i => driveKey w.drive (w.addr + i)) _ hinj]
  by_cases hin : w.drive = d ∧ w.addr ≤ a ∧ a < w.addr + w.bytes.length
  · obtain ⟨hd, hlo, hhi⟩ := hin
    have hex : ∃ i < w.bytes.length, driveKey w.drive (w.addr + i) = driveKey d a :=
      ⟨a - w.addr, by omega, by rw [hd]; congr 1; omega⟩
    have hi : hex.choose = a - w.addr := by
      obtain ⟨hlt, he⟩ := hex.choose_spec
      have := (driveKey_inj (by unfold InDrive at hw; omega) ha he).2
      omega
    rw [dif_pos hex, dif_pos hex, if_pos rfl, overWritten, if_pos ⟨hd, hlo, hhi⟩, hi]
  · have hno : ¬ ∃ i < w.bytes.length, driveKey w.drive (w.addr + i) = driveKey d a := by
      rintro ⟨i, hi, he⟩
      obtain ⟨hd, hae⟩ := driveKey_inj (by unfold InDrive at hw; omega) ha he
      exact hin ⟨hd, by omega, by omega⟩
    rw [dif_neg hno, dif_neg hno, overWritten, if_neg hin]

theorem mediumByte_writes {s : State} {ws : List DriveWrite} (hw : ∀ w ∈ ws, InDrive w) {d a : Nat} (ha : a < 2 ^ 61) :
    mediumByte (ws.foldl mediumWrite s) d a = ws.foldl (overWritten d a) (mediumByte s d a) := by
  induction ws generalizing s with
  | nil => rfl
  | cons w r ih =>
    rw [List.foldl_cons, List.foldl_cons, ih fun x hx => hw x (List.mem_cons_of_mem _ hx), mediumByte_write (hw w List.mem_cons_self) ha]

/-- Writes that settle leave what a drive reads as. -/
theorem driveByteAt_settle {s : State} (hw : ∀ w ∈ s.driveCache, InDrive w) {d a : Nat} (ha : a < 2 ^ 61) :
    driveByteAt (driveSettle s) d a = driveByteAt s d a := by
  have hmedium (ws : List DriveWrite) (c : List DriveWrite) : mediumByte { ws.foldl mediumWrite s with driveCache := c } d a =
      mediumByte (ws.foldl mediumWrite s) d a := rfl
  rw [driveByteAt_eq, driveByteAt_eq]
  unfold driveSettle
  rw [hmedium, mediumByte_writes (fun w h => hw w (List.takeWhile_subset _ h)) ha, ← List.foldl_append]
  exact congrArg (fun l => List.foldl (overWritten d a) (mediumByte s d a) l) List.takeWhile_append_dropWhile

theorem driveByteAt_sure {s : State} (hw : ∀ w ∈ s.driveCache, InDrive w) (p : DriveWrite → Bool) {d a : Nat} (ha : a < 2 ^ 61) :
    driveByteAt (driveSure s p) d a = driveByteAt s d a := by
  unfold driveSure
  rw [driveByteAt_settle _ ha, driveByteAt_eq, driveByteAt_eq]
  · simp only [List.foldl_map]
    refine congrArg (fun f => List.foldl f (mediumByte s d a) s.driveCache) ?_
    funext v w
    split <;> rfl
  · intro w hwm
    obtain ⟨x, hx, rfl⟩ := List.mem_map.1 hwm
    split
    · exact hw x hx
    · exact hw x hx

/-- What is left in the cache has been there, and what was to be made sure is. -/
theorem mem_driveSure {s : State} {p : DriveWrite → Bool} {w : DriveWrite} (h : w ∈ (driveSure s p).driveCache) :
    ∃ x ∈ s.driveCache, w.drive = x.drive ∧ w.req = x.req ∧ (p x = true → w.sure = true) := by
  obtain ⟨x, hx, rfl⟩ := List.mem_map.1 ((List.dropWhile_sublist _).subset h)
  refine ⟨x, hx, ?_⟩
  by_cases hp : p x = true
  · rw [if_pos hp]
    exact ⟨rfl, rfl, fun _ => rfl⟩
  · rw [if_neg hp]
    exact ⟨rfl, rfl, fun h => absurd h hp⟩

/-- Only what drives hold, and the free choices, are changed. -/
structure DrivesOnly (s t : State) : Prop where
  teams : t.teams = s.teams
  reqs : t.reqs = s.reqs

theorem drivesOnly_driveSure (s : State) (p : DriveWrite → Bool) : DrivesOnly s (driveSure s p) := by
  have hmed (ws : List DriveWrite) (x : State) (h : DrivesOnly s x) : DrivesOnly s (ws.foldl mediumWrite x) :=
    foldl_holds (DrivesOnly s) h fun y w hy => ⟨hy.teams, hy.reqs⟩
  have h := hmed ((s.driveCache.map fun w => if p w then { w with sure := true } else w).takeWhile DriveWrite.sure)
    { s with driveCache := s.driveCache.map fun w => if p w then { w with sure := true } else w } ⟨rfl, rfl⟩
  exact ⟨h.teams, h.reqs⟩

/-- The writes that the end of a request makes durable. -/
def settledBy (s : State) (q : Req) : State :=
  if q.kind = 8 then driveFlush s q.drive q.after
  else if q.kind = 7 && q.fua then driveSure s fun w => w.req == q.id else s

theorem drivesOnly_settledBy (s : State) (q : Req) : DrivesOnly s (settledBy s q) := by
  unfold settledBy
  split
  · exact ⟨(drivesOnly_driveSure s _).teams, (drivesOnly_driveSure s _).reqs⟩
  · split
    · exact drivesOnly_driveSure s _
    · exact ⟨rfl, rfl⟩

theorem driveByteAt_settledBy {s : State} (q : Req) (hw : ∀ w ∈ s.driveCache, InDrive w) {d a : Nat} (ha : a < 2 ^ 61) :
    driveByteAt (settledBy s q) d a = driveByteAt s d a := by
  unfold settledBy
  split
  · exact driveByteAt_sure hw _ ha
  · split
    · exact driveByteAt_sure hw _ ha
    · rfl

theorem sure_settledBy {s : State} {q : Req} (hk : q.kind = 8) {w : DriveWrite} (h : w ∈ (settledBy s q).driveCache) (hd : w.drive = q.drive)
    (hr : w.req ∈ expand s q.after) : w.sure = true := by
  unfold settledBy at h
  rw [if_pos hk] at h
  obtain ⟨x, hx, hxd, hxr, hs⟩ := mem_driveSure (show w ∈ (driveSure s _).driveCache from h)
  refine hs ?_
  rw [hxd] at hd
  rw [hxr] at hr
  simp [hd, hr]

/-! Requests. -/

theorem find_modReq {s : State} {id : Nat} {q : Req} {f : Req → Req} (hf : s.reqs.find? (fun x => x.id == id) = some q)
    (hid : ∀ x, (f x).id = x.id) : (modReq s id f).reqs.find? (fun x => x.id == id) = some (f q) := by
  show (s.reqs.map fun q => if q.id == id then f q else q).find? _ = _
  rw [List.find?_map]
  have hcomp : ((fun x : Req => x.id == id) ∘ fun q => if q.id == id then f q else q) = fun x => x.id == id := by
    funext x
    by_cases hx : x.id = id <;> simp [hx, hid]
  rw [hcomp, hf]
  simp [show q.id = id by simpa using List.find?_some hf]

theorem reqs_of_same {s t : State} (h : Same narrow (view narrow s) t) : t.reqs = s.reqs := congrArg (fun v : Shown => v.rest.reqs) h
theorem teams_of_same {s t : State} (h : Same narrow (view narrow s) t) : t.teams = s.teams := congrArg (fun v : Shown => v.rest.teams) h

theorem reqs_dropPin (s : State) (ld : Nat) (p : Option Pin) : (dropPin s ld p).reqs = s.reqs := by
  have hL : (⟨true, false⟩ : Span).devices = true := rfl
  exact congrArg (fun v : Shown => v.rest.reqs) (same_dropPin (L := ⟨true, false⟩) (s := s) rfl)

/-- What a piece of drive traffic leaves: nothing here but the cache. -/
theorem driveCache_dropPin (s : State) (ld : Nat) (p : Option Pin) : (dropPin s ld p).driveCache = s.driveCache ∧
    (dropPin s ld p).drives = s.drives ∧ (dropPin s ld p).driveWritten = s.driveWritten := by
  have hL : (⟨true, false⟩ : Span).devices = true := rfl
  have h := same_dropPin (L := ⟨true, false⟩) (s := s) (ld := ld) (x2 := p) rfl
  exact ⟨congrArg (fun v : Shown => v.rest.driveCache) h, congrArg (fun v : Shown => v.rest.drives) h, congrArg (fun v : Shown => v.rest.driveWritten) h⟩

theorem driveByteAt_congr {s t : State} (hc : t.driveCache = s.driveCache) (hd : t.drives = s.drives) (hw : t.driveWritten = s.driveWritten)
    (d a : Nat) : driveByteAt t d a = driveByteAt s d a := by
  unfold driveByteAt mediumByte
  rw [hc, hd, hw]

/-- A request with nothing left to move is done (R330, R335). -/
theorem copyRequestDone_done {s : State} {id : Nat} {q : Req} (hrun : Running s) (hf : s.reqs.find? (fun x => x.id == id) = some q)
    (hg : (groupOf s q.r).isSome = true) (hst : q.st = .moving) (htodo : q.todo = []) (hrows : q.rows = 0) (hleft : q.left = 0) :
    exec (.copyRequestDone id) s = .next (modReq (dropPin (settledBy s q) q.r.team.ld q.pin) id fun x => { x with st := .done, pin := none }) := by
  obtain ⟨hon, hhalt⟩ := hrun
  have hmoves : reqMoves q = false := by simp [reqMoves, htodo, hrows]
  have hgone : (groupOf (settledBy s q) q.r).isNone = false := by
    have heq : groupOf (settledBy s q) q.r = groupOf s q.r := by
      unfold groupOf teamOf
      rw [(drivesOnly_settledBy s q).teams]
    rw [heq, Option.isNone_eq_false_iff, hg]
  refine (execCopyRequestDone.eq_1 id s).trans ?_
  simp only [agent, hon, hhalt, Bool.not_false, Bool.and_self, if_true, hf, hmoves, hst, hleft, ne_eq, not_true, Bool.false_eq_true, false_and, or_self,
    if_false]
  exact congrArg Host.Outcome.next (if_neg (by rw [← settledBy, hgone]; exact Bool.false_ne_true))

theorem arrivals_done {s : State} {id : Nat} {q : Req} (hrun : Running s) (hf : s.reqs.find? (fun x => x.id == id) = some q)
    (hg : (groupOf s q.r).isSome = true) (hst : q.st = .moving) (htodo : q.todo = []) (hrows : q.rows = 0) (hleft : q.left = 0)
    (hw : ∀ w ∈ s.driveCache, InDrive w) : Becomes (exec (.copyRequestDone id) s) fun u =>
      (ReqIs u id fun q' => q'.st = .done) ∧ (∀ a < 2 ^ 61, driveByteAt u q.drive a = driveByteAt s q.drive a) ∧
      (q.kind = 8 → ∀ w ∈ u.driveCache, w.drive = q.drive → w.req ∈ expand s q.after → w.sure = true) := by
  obtain ⟨hc, hd, hwr⟩ := driveCache_dropPin (settledBy s q) q.r.team.ld q.pin
  refine ⟨_, copyRequestDone_done hrun hf hg hst htodo hrows hleft, ⟨_, find_modReq (q := q) ?_ fun _ => rfl, rfl⟩, fun a ha => ?_, fun hk w hwm hwd hwr => ?_⟩
  · rw [reqs_dropPin, (drivesOnly_settledBy s q).reqs, hf]
  · exact (driveByteAt_congr hc hd hwr q.drive a).trans (driveByteAt_settledBy q hw ha)
  · exact sure_settledBy hk (hc ▸ hwm) hwd hwr

/-- A flush that starts has nothing to move (R335). -/
theorem stflush_starts {s : State} {core : Nat} {q : Req} {t : Team} (hacts : ActsOn s core 8 q) (ht : teamOf s q.r.team = some t)
    (hst : q.st = .queued) (hok : reqErr s t q = none) :
    exec (.stflush core) s = .next (modReq (tick s) q.id fun x => { x with st := .moving, todo := [], rows := 0 }) := by
  obtain ⟨⟨hon, hhalt⟩, hpick, hfind⟩ := hacts
  have hkind : q.kind = 8 := by
    obtain ⟨-, hq⟩ := List.mem_filter.1 (List.mem_of_getElem? hpick)
    simp only [kindTaken, Bool.and_eq_true, Bool.or_eq_true, beq_iff_eq] at hq
    omega
  have hfind' : (tick s).reqs.find? (fun x => x.id == q.id) = some q := hfind
  have htake : reqTake (tick s) q = modReq (tick s) q.id fun x => { x with st := .moving, todo := [], rows := 0 } := by
    have ht' : teamOf (tick s) q.r.team = some t := ht
    have hok' : reqErr (tick s) t q = none := hok
    have hwork : reqWork t q = ([], 0) := by simp [reqWork, hkind]
    have h5 : (q.kind = 5) = False := by simp [hkind]
    unfold reqTake
    rw [ht']
    simp only [hok', reqBegin, hwork, h5, decide_false, Bool.false_and, Bool.false_eq_true, if_false]
  have hgo := find_modReq (s := tick s) (f := fun x => { x with st := .moving, todo := [], rows := 0 }) hfind' fun _ => rfl
  refine (execStflush.eq_1 core s).trans ?_
  simp only [agent, hon, hhalt, Bool.not_false, Bool.and_self, if_true, engineStep, hpick, reqNext, hfind', hst, beq_self_eq_true, htake, hgo, reqMoves,
    List.isEmpty_nil, Bool.not_true, bne_self_eq_false, Bool.or_self, Bool.and_false, Bool.false_eq_true, if_false]

/-! Arrival objects. -/

/-- The bits of an object's word after the subtraction of n from its count, and after the bits that read as zero are cleared. -/
theorem count_sub {v n : Nat} (h : n ≤ v % 2 ^ 40) : (v - n - fld (v - n) 56 5 * 2 ^ 56) % 2 ^ 40 = v % 2 ^ 40 - n ∧
    ∀ k ∈ [61, 62, 63], (v - n - fld (v - n) 56 5 * 2 ^ 56).testBit k = v.testBit k := by
  have hfld : fld (v - n) 56 5 * 2 ^ 56 ≤ v - n := by unfold fld; omega
  unfold fld at *
  refine ⟨by omega, fun k hk => ?_⟩
  simp only [List.mem_cons, List.not_mem_nil, or_false] at hk
  rcases hk with rfl | rfl | rfl
  · simp only [Nat.testBit_eq_decide_div_mod_eq]
    congr 2
    omega
  · simp only [Nat.testBit_eq_decide_div_mod_eq]
    congr 2
    omega
  · simp only [Nat.testBit_eq_decide_div_mod_eq]
    congr 2
    omega

theorem stepOf_spec (s : State) {left : Nat} (h : 0 < left) : 1 ≤ stepOf s left ∧ stepOf s left ≤ left := by
  unfold stepOf
  split
  · omega
  · have := Nat.mod_lt (Config.freeNat s.frees) h
    omega

theorem teamOf_of_arrAt {s : State} {t : TeamRef} {arr : Nat} {r : TeamRef} {off : Nat} (h : arrAt s t arr = some (r, off)) :
    ∃ v, teamOf s r = some v := by
  unfold arrAt at h
  split at h
  · cases h
  · dsimp only at h
    split at h
    · cases h
    next v hv =>
      split at h
      · injection h with h
        injection h with hr hoff
        refine ⟨v, ?_⟩
        have hvr := by simpa using List.find?_some hv
        rw [← hr, hvr, hv]
      · cases h

theorem reqs_bufWrite (s : State) (r : TeamRef) (b : Buf) (off k x : Nat) : (bufWrite s r b off k x).reqs = s.reqs := by
  have hword (u : State) (k : SramKey) (w : Nat) : (sramWrite u k (putBufWord r b w)).reqs = u.reqs := by
    unfold sramWrite
    split
    · rfl
    · split <;> rfl
  have hend (u : State) (loc n : Nat) : (endTags u loc n).reqs = u.reqs := rfl
  unfold bufWrite
  dsimp only
  have hfirst : (if s.sram.isEmpty then s else match teamOf s r with
    | none => s
    | some t => (bufWords t b off k).foldl (fun s w => sramWrite s (bufStore b, t.core, w) (putBufWord r b w)) s).reqs = s.reqs := by
    split
    · rfl
    · split
      · rfl
      · exact foldl_holds (fun u : State => u.reqs = s.reqs) rfl fun u w hu => (hword ..).trans hu
  generalize (if s.sram.isEmpty then s else match teamOf s r with
    | none => s
    | some t => (bufWords t b off k).foldl (fun s w => sramWrite s (bufStore b, t.core, w) (putBufWord r b w)) s) = u at hfirst ⊢
  show (if u.hist.isEmpty && u.rels.isEmpty then u else endTags u (bufLoc r b off) k).reqs = s.reqs
  split
  · exact hfirst
  · exact hfirst

theorem reqs_bufPut (s : State) (r : TeamRef) (b : Buf) (off k x : Nat) : (bufPut s r b off k x).reqs = s.reqs := reqs_bufWrite s r b off k x

/-- A moved request subtracts bytes from its object (R327). -/
theorem arrivalDecrement_counts {s : State} {id : Nat} {q : Req} {r : TeamRef} {off : Nat} (hrun : Running s)
    (hf : s.reqs.find? (fun x => x.id == id) = some q) (hst : q.st ≠ .queued) (hleft : 0 < q.left) (hs : s.sram = [])
    (harr : arrAt s q.r.team q.arr = some (r, off)) (hle : q.left ≤ bufGet s r .a off 8 % 2 ^ 40) :
    Becomes (exec (.arrivalDecrement id) s) fun u => ∃ n, 1 ≤ n ∧ n ≤ q.left ∧
      (ReqIs u id fun q' => q'.left = q.left - n) ∧
      bufGet u r .a off 8 % 2 ^ 40 = bufGet s r .a off 8 % 2 ^ 40 - n ∧
      ∀ k ∈ [61, 62, 63], (bufGet u r .a off 8).testBit k = (bufGet s r .a off 8).testBit k := by
  obtain ⟨hon, hhalt⟩ := hrun
  obtain ⟨h1, hn⟩ := stepOf_spec s hleft
  obtain ⟨v, hv⟩ := teamOf_of_arrAt harr
  obtain ⟨j, hj⟩ := addJoin_eq (tick s) (bufLoc r .a off) (expand (tick s) [id])
  have harr' : arrAt (tick s) q.r.team q.arr = some (r, off) := harr
  obtain ⟨y, hy⟩ : ∃ y : State, y = { tick s with joins := j } := ⟨_, rfl⟩
  rw [← hy] at hj
  have hys : y.sram = [] := hy ▸ hs
  have hyf : y.reqs.find? (fun x => x.id == id) = some q := hy ▸ hf
  have hyarr : arrAt y q.r.team q.arr = some (r, off) := hy ▸ harr
  have hyv : teamOf y r = some v := hy ▸ hv
  have hbuf : bufGet y r .a off 8 = bufGet s r .a off 8 := hy ▸ rfl
  have hfld : fld (bufGet s r .a off 8) 0 40 = bufGet s r .a off 8 % 2 ^ 40 := by simp [fld]
  have hdec : arrDec (tick s) q.r.team q.arr id (stepOf s q.left) cCPYVAL 6 = bufPut y r .a off 8
      (bufGet s r .a off 8 - stepOf s q.left - fld (bufGet s r .a off 8 - stepOf s q.left) 56 5 * 2 ^ 56) := by
    unfold arrDec arrJoin arrMod
    rw [harr']
    dsimp only
    rw [hj, hyarr]
    dsimp only
    rw [hbuf, if_neg (by rw [hfld]; omega)]
  have hexec : exec (.arrivalDecrement id) s = .next (modReq (bufPut y r .a off 8
      (bufGet s r .a off 8 - stepOf s q.left - fld (bufGet s r .a off 8 - stepOf s q.left) 56 5 * 2 ^ 56)) id
        fun x => { x with left := x.left - stepOf s q.left }) := by
    refine (execArrivalDecrement.eq_1 id s).trans ?_
    simp only [agent, hon, hhalt, Bool.not_false, Bool.and_self, if_true, hf, hst, show q.left ≠ 0 by omega, or_self, if_false, hdec]
  obtain ⟨hcount, hbits⟩ := count_sub (show stepOf s q.left ≤ bufGet s r .a off 8 % 2 ^ 40 by omega)
  have hget (u : State) (f : Req → Req) : bufGet (modReq u id f) r .a off 8 = bufGet u r .a off 8 := rfl
  have hsmall := ((Nat.sub_le _ (fld (bufGet s r .a off 8 - stepOf s q.left) 56 5 * 2 ^ 56)).trans (Nat.sub_le _ (stepOf s q.left))).trans_lt
    (bufGet_lt s r .a off 8)
  rw [hexec]
  refine ⟨_, rfl, stepOf s q.left, h1, hn, ⟨_, find_modReq (q := q) ?_ fun _ => rfl, rfl⟩, ?_, ?_⟩
  · rw [reqs_bufPut, hyf]
  · rw [hget, bufGet_bufPut_same hys hyv, Nat.mod_eq_of_lt hsmall]
    exact hcount
  · rw [hget, bufGet_bufPut_same hys hyv, Nat.mod_eq_of_lt hsmall]
    exact hbits

/-! A drive's error. -/

theorem reqs_arrError (s : State) (t : TeamRef) (arr cause detail : Nat) (ipt : Bool) : (arrError s t arr cause detail ipt).reqs = s.reqs := by
  unfold arrError arrMod
  split
  · rfl
  · exact reqs_bufPut ..

/-- A drive's error fails its request. -/
theorem driveError_fails {s : State} {q : Req} (status : BitVec 16) (hrun : Running s) (hf : s.reqs.find? (fun x => x.id == q.id) = some q)
    (ht : (teamOf s q.r.team).isSome = true) (hst : q.st = .moving) (h6 : 6 ≤ q.kind) (h8 : q.kind ≤ 8) :
    Becomes (exec (.driveError q.id status) s) fun u => ReqIs u q.id fun q' => q'.st = .failed cCPYFAULT 0xFF := by
  obtain ⟨hon, hhalt⟩ := hrun
  have hlog := same_logEvent (L := narrow) (base := view narrow s) (s := s) (kind := 0x06) (cause := 0) (detail := 0) (ld := q.r.team.ld)
    (addr := 0) (aux := status.toNat + q.drive * 2 ^ 16) rfl
  have hexec : exec (.driveError q.id status) s =
      .next (reqFail (logEvent s 0x06 0 0 q.r.team.ld 0 (status.toNat + q.drive * 2 ^ 16)) q cCPYFAULT 0xFF q.left false) := by
    refine (execDriveError.eq_1 q.id status s).trans ?_
    simp only [agent, hon, hhalt, Bool.not_false, Bool.and_self, if_true, hf, h6, h8, hst, and_self]
  generalize logEvent s 0x06 0 0 q.r.team.ld 0 (status.toNat + q.drive * 2 ^ 16) = u at hlog hexec
  have hteam : (teamOf u q.r.team).isNone = false := by
    unfold teamOf at ht ⊢
    rw [teams_of_same hlog, Option.isNone_eq_false_iff, ht]
  rw [hexec]
  unfold reqFail
  dsimp only
  rw [if_neg (by rw [hteam]; exact Bool.false_ne_true)]
  refine ⟨_, rfl, _, find_modReq (q := q) ?_ fun _ => rfl, rfl⟩
  rw [reqs_dropPin]
  split
  · rw [reqs_of_same hlog, hf]
  · rw [reqs_arrError, reqs_of_same hlog, hf]

end Sys2Proof.Machine

open Sys2Proof Sys2Proof.Machine

/-- Settles O29: a write that settles moves from the cache to the medium in order; a step of a request changes that request, and its
object's word. -/
theorem storageAndArrivals : Obligations.StorageAndArrivals := by
  unfold Obligations.StorageAndArrivals
  refine ⟨fun s core q t hacts ht hst hok => ?_, fun s id q hrun hf hg hst htodo hrows hleft hw =>
    arrivals_done hrun hf hg hst htodo hrows hleft hw, fun s id q r off hrun hf hst hleft hs harr hle =>
    arrivalDecrement_counts hrun hf hst hleft hs harr hle, fun s q status hrun hf ht hst h6 h8 => driveError_fails status hrun hf ht hst h6 h8⟩
  refine ⟨_, stflush_starts hacts ht hst hok, ⟨rfl, fun _ _ _ => rfl⟩, fun _ _ => rfl, _, find_modReq (q := q) ?_ fun _ => rfl, rfl, rfl, rfl, rfl⟩
  exact hacts.2.2

end

section
/-! PROOFS. Windows, arrival objects and the entries that wait for them (spec/16_stream_engines.md R339, R341, R342, R348 to R350). -/

set_option Elab.async false

namespace Sys2Proof.Machine

/-! What is kept of the orders of a group's lanes changes nothing else of it. -/

/-- A group that differs from another by the orders of its lanes alone. -/
def Reordered (g g' : Group) : Prop := ∃ o, g' = { g with ords := o }

theorem Reordered.refl (g : Group) : Reordered g g := ⟨g.ords, rfl⟩
theorem Reordered.trans {g g' g'' : Group} (a : Reordered g g') (b : Reordered g' g'') : Reordered g g'' := by
  obtain ⟨o, rfl⟩ := a
  obtain ⟨p, rfl⟩ := b
  exact ⟨p, rfl⟩

theorem reordered_setOrd (g : Group) (o : LaneOrd) : Reordered g (setOrd g o) := ⟨_, rfl⟩

theorem reordered_addPast (m : LaneMask) (ids : List Nat) (g : Group) : Reordered g (addPast m ids g) := by
  unfold addPast
  split
  · exact .refl g
  · exact foldl_holds (Reordered g) (.refl g) fun x l hx => hx.trans (reordered_setOrd ..)

theorem reordered_addObs (s : State) (m : LaneMask) (ids : List Nat) (g : Group) : Reordered g (addObs s m ids g) := by
  unfold addObs
  split
  · exact .refl g
  · exact foldl_holds (Reordered g) (.refl g) fun x l hx => hx.trans (reordered_setOrd ..)

theorem Reordered.front {g g' : Group} (h : Reordered g g') : frontOf g' = frontOf g := by
  obtain ⟨o, rfl⟩ := h
  rfl

theorem Reordered.id {g g' : Group} (h : Reordered g g') : g'.id = g.id := by
  obtain ⟨o, rfl⟩ := h
  rfl

theorem Reordered.kept {g g' : Group} (h : Reordered g g') : Kept g g' [] := by
  obtain ⟨o, rfl⟩ := h
  exact ⟨fun _ _ _ => rfl, fun _ _ => rfl, fun _ _ _ => rfl, fun _ _ => rfl⟩

theorem Reordered.srcD {g g' : Group} (h : Reordered g g') (o : Opnd) (w l : Nat) : srcD g' o w l = Sys2Proof.Machine.srcD g o w l := by
  obtain ⟨o, rfl⟩ := h
  rfl

theorem Kept.mono {g g' : Group} {ks : List RegKey} (h : Kept g g' []) : Kept g g' ks := by
  obtain ⟨kv, kg, kp, km⟩ := h
  exact ⟨fun n l _ => kv n l (by simp), fun n _ => kg n (by simp), fun n l _ => kp n l (by simp), fun n _ => km n (by simp)⟩

theorem Kept.then {g g' g'' : Group} {ks : List RegKey} (a : Kept g g' ks) (b : Kept g' g'' ks) : Kept g g'' ks := by
  obtain ⟨kv, kg, kp, km⟩ := a
  obtain ⟨kv', kg', kp', km'⟩ := b
  exact ⟨fun n l h => (kv' n l h).trans (kv n l h), fun n h => (kg' n h).trans (kg n h), fun n l h => (kp' n l h).trans (kp n l h),
    fun n h => (km' n h).trans (km n h)⟩

/-- An effect that reorders the issuing group. -/
theorem goesOn_reordered {s : State} {h : Hdr} {c : Ctx} (hc : ctxOf s h = some c) (ids : List Nat) :
    GoesOn c (.next (complete c h false (done (modGroup c.s c.r (addPast c.act ids)) []))) fun t g => BytesKept s t ∧ Kept c.g g [] := by
  obtain ⟨hs, -⟩ := ctxOf_spec hc
  have hr := reordered_addPast c.act ids c.g
  have hg : groupOf (modGroup c.s c.r (addPast c.act ids)) c.r = some (addPast c.act ids c.g) := by
    rw [groupOf_modGroup_same _ _ _ fun g hg => ((reordered_addPast c.act ids g).id).trans hg, groupOf_ctx hc]
    rfl
  refine goesOn_done c h false [] _ _ hg hr.front ⟨?_, (hr.kept).retire ..⟩
  rw [← hs]
  exact (bytesKept_modGroup ..).trans (bytesKept_afterDone ..)

theorem withTouch_nil {c : Ctx} (hs : c.s.sram = []) (r : TeamRef) (b : Buf) (off k : Nat) (f : State → Res) :
    withTouch c [(r, b, off, k)] f = f c.s := by
  simp [withTouch, bufTouch, hs]

/-! Windows. -/

theorem winIs_afterDone {c : Ctx} {h : Hdr} {sw : Bool} {outs : List Outst} {s' : State} {w : Nat} {P : Window → Prop}
    (hw : WinIs s' c.r.team w P) : WinIs (afterDone c h sw outs s') c.r.team w P := by
  obtain ⟨u, hu, hP⟩ := hw
  refine ⟨u.modGroup c.r.g fun g => retire c h sw (movedFront c (frontOf g)) outs none g, ?_, hP⟩
  rw [teamOf_afterDone, hu]
  rfl

/-- A team with one of its windows changed. -/
def withWin (w : Nat) (f : Window → Window) (u : Team) : Team := { u with wins := lset u.wins w (f (winOf u w)) }

theorem teamOf_modWin (s : State) (r : TeamRef) (w : Nat) (f : Window → Window) : teamOf (modWin s r w f) r = (teamOf s r).map (withWin w f) :=
  teamOf_modTeam_same s r (withWin w f) fun _ h => h

theorem winIs_modWin {s : State} {r : TeamRef} {u : Team} {w : Nat} {f : Window → Window} {P : Window → Prop} (hu : teamOf s r = some u)
    (hw : w < u.wins.length) (hP : P (f (winOf u w))) : WinIs (modWin s r w f) r w P := by
  refine ⟨withWin w f u, by rw [teamOf_modWin, hu]; rfl, ?_⟩
  have hwin : winOf (withWin w f u) w = f (winOf u w) := getD_lset_same _ _ _ _ hw
  rw [hwin]
  exact hP

theorem groupOf_modWin (s : State) (r : TeamRef) (w : Nat) (f : Window → Window) (q : GroupRef) : groupOf (modWin s r w f) q = groupOf s q := by
  unfold groupOf
  by_cases h : q.team = r
  · rw [h, teamOf_modWin]
    cases teamOf s r <;> rfl
  · exact congrArg (Option.bind · _) (teamOf_modTeam_other s r q.team (withWin w f) (fun _ h => h) h)

theorem bytesKept_modWin (s : State) (r : TeamRef) (w : Nat) (f : Window → Window) : BytesKept s (modWin s r w f) :=
  bytesKept_modTeam (f := withWin w f) (fun _ h => h) fun _ b => by cases b <;> rfl

/-- A window that has been bound is one of the team's. -/
theorem winOf_free {u : Team} {w : Nat} (h : u.wins.length ≤ w) : winOf u w = freeWindow := by
  unfold winOf
  rw [List.getD_eq_getElem?_getD, List.getElem?_eq_none h]
  rfl

theorem lt_wins {u : Team} {w : Nat} (h : (winOf u w).st ≠ .unbound) : w < u.wins.length := by
  by_contra hn
  exact h (by rw [winOf_free (by omega)]; rfl)

/-- An effect that only changes a window. -/
theorem goesOn_modWin {s : State} {h : Hdr} {c : Ctx} (hc : ctxOf s h = some c) {w : Nat} {f : Window → Window} {P : Window → Prop}
    (hw : w < c.t.wins.length) (hP : P (f (winOf c.t w))) :
    GoesOn c (.next (complete c h false (done (modWin c.s c.t.r w f) []))) fun t g => BytesKept s t ∧ Kept c.g g [] ∧ WinIs t c.r.team w P := by
  obtain ⟨hs, -, ht, -⟩ := ctxOf_spec hc
  rw [Ctx.team_ref hc]
  refine goesOn_effect hc (groupOf_modWin ..) fun outs f => ⟨?_, kept_retire .., winIs_afterDone (winIs_modWin (hs ▸ ht) hw hP)⟩
  rw [← hs]
  exact (bytesKept_modWin ..).trans (bytesKept_afterDone ..)

/-! SBIND. -/

section
variable {s : State} {c : Ctx}

theorem exec_producer (hp : Producer c) (k : Res) : producer c k = k := by
  obtain ⟨hne, hid, hrung⟩ := hp
  simp [producer, c.any_of_ne hne, hid, hrung]

theorem recPlace_ok {n : Nat} (h64 : n % 64 = 0) (hlen : n + 64 ≤ c.t.alen) : recPlace c n = .ok n := by
  unfold recPlace
  dsimp only
  rw [if_neg (by omega), if_neg (by omega)]
  rfl

/-- SBIND of a record that lies in A. -/
theorem exec_sbind {x : SbindA} {n : Nat} (hc : ctxOf s x.h = some c) (hp : Producer c) (hsram : s.sram = [])
    (ha : ((match x.a with | .im w => w.toInt | o => ((srcD c.g o 1 c.low).toNat : Int)) : Int) = n) (h64 : n % 64 = 0)
    (hlen : n + 64 ≤ c.t.alen) : exec (.sbind x) s = .next (complete c x.h false (
      if (winOf c.t x.win.toNat).st = .running then trapW cSTRPROG 5
      else if bindingBad (bufGet s c.r.team .a n 64) (bindingOf (bufGet s c.r.team .a n 64)) then trapW cSTRPROG 7
      else match bindingFits s c.t (bindingOf (bufGet s c.r.team .a n 64)) with
        | some e => trapA e.cause e.detail e.addr
        | none => done (modWin c.s c.t.r x.win.toNat fun _ => boundWindow (bindingOf (bufGet s c.r.team .a n 64))) [])) := by
  obtain ⟨hs, -⟩ := ctxOf_spec hc
  refine (execSbind.eq_1 x s).trans ((withIssue_of hc false _).trans ?_)
  dsimp only
  rw [exec_producer hp]
  simp only [withTouch_nil (hs ▸ hsram)]
  rw [hs, Ctx.team_ref hc]
  cases hxa : x.a <;> simp only [hxa] at ha ⊢ <;> rw [ha, recPlace_ok h64 hlen] <;> rfl

theorem sbind_traps {x : SbindA} {n : Nat} (hc : ctxOf s x.h = some c) (hp : Producer c) (hsram : s.sram = [])
    (ha : ((match x.a with | .im w => w.toInt | o => ((srcD c.g o 1 c.low).toNat : Int)) : Int) = n) (h64 : n % 64 = 0)
    (hlen : n + 64 ≤ c.t.alen) (can : CanTrap c) :
    ((winOf c.t x.win.toNat).st = .running → Traps c (exec (.sbind x) s) cSTRPROG 5 (lowest c.u.mask) 0) ∧
    ((winOf c.t x.win.toNat).st ≠ .running →
      bindingBad (bufGet s c.r.team .a n 64) (bindingOf (bufGet s c.r.team .a n 64)) = true →
      Traps c (exec (.sbind x) s) cSTRPROG 7 (lowest c.u.mask) 0) := by
  rw [exec_sbind hc hp hsram ha h64 hlen]
  refine ⟨fun hst => ?_, fun hst hbad => ?_⟩
  · rw [if_pos hst]
    exact traps_trapW hc can ..
  · rw [if_neg hst, if_pos hbad]
    exact traps_trapW hc can ..

theorem sbind_binds {x : SbindA} {n : Nat} (hc : ctxOf s x.h = some c) (hp : Producer c) (hsram : s.sram = [])
    (ha : ((match x.a with | .im w => w.toInt | o => ((srcD c.g o 1 c.low).toNat : Int)) : Int) = n) (h64 : n % 64 = 0)
    (hlen : n + 64 ≤ c.t.alen) (hst : (winOf c.t x.win.toNat).st ≠ .running)
    (hgood : bindingBad (bufGet s c.r.team .a n 64) (bindingOf (bufGet s c.r.team .a n 64)) = false)
    (hfits : bindingFits s c.t (bindingOf (bufGet s c.r.team .a n 64)) = none) (hwin : x.win.toNat < c.t.wins.length) :
    let raw := bufGet s c.r.team .a n 64
    GoesOn c (exec (.sbind x) s) fun t g => BytesKept s t ∧ Kept c.g g [] ∧ WinIs t c.r.team x.win.toNat fun w =>
      w.st = .bound ∧ w.b.prog.toNat = raw % 2 ^ 64 ∧ w.b.sbase.toNat = raw / 2 ^ 64 % 2 ^ 64 ∧ w.b.wbase = raw / 2 ^ 128 % 2 ^ 20 ∧
      w.b.slots = raw / 2 ^ 152 % 16 + 1 ∧ w.b.rc = raw / 2 ^ 156 % 16 + 1 ∧ w.b.ssz = raw / 2 ^ 160 % 2 ^ 16 ∧
      w.fills = List.replicate w.b.slots 0 ∧ w.rels = List.replicate w.b.slots 0 ∧ w.pc = w.b.prog := by
  intro raw
  rw [exec_sbind hc hp hsram ha h64 hlen, if_neg hst, if_neg (by rw [hgood]; exact Bool.false_ne_true), hfits]
  refine goesOn_modWin hc hwin ⟨rfl, ?_, ?_, rfl, rfl, rfl, rfl, rfl, rfl, rfl⟩
  · show (BitVec.ofNat 64 (fld raw 0 64)).toNat = _
    rw [BitVec.toNat_ofNat]
    simp [fld]
  · show (BitVec.ofNat 64 (fld raw 64 64)).toNat = _
    rw [BitVec.toNat_ofNat]
    simp [fld]

/-! SGO. -/

theorem exec_sgo {x : SgoA} (hc : ctxOf s x.h = some c) (hp : Producer c) : exec (.sgo x) s = .next (complete c x.h false (
    if (winOf c.t x.win.toNat).st ≠ .bound then trapW cSTRPROG 5
    else
      let after := forkOf c.s c.g c.u.mask
      let s := copyPin c.s c.ld c.g.pin
      done { modWin s c.t.r x.win.toNat fun w =>
        { w with st := .running, pin := c.g.pin, bounds := c.t.bounds, after := after, pid := s.nextId, ahead := [] } with
        nextId := s.nextId + 1 } [])) := by
  refine (execSgo.eq_1 x s).trans ((withIssue_of hc false _).trans ?_)
  dsimp only
  rw [exec_producer hp]

/-- A pin that is taken once more changes the device's records alone. -/
theorem copyPin_teams (ld : Nat) (p : Option Pin) : (copyPin s ld p).teams = s.teams ∧ (copyPin s ld p).mem = s.mem := by
  unfold copyPin
  split
  · exact ⟨rfl, rfl⟩
  · unfold changePins
    dsimp only
    split
    · exact ⟨rfl, rfl⟩
    · split
      · exact ⟨rfl, rfl⟩
      · rw [if_neg fun h => Nat.succ_ne_zero _ h.1]
        exact ⟨rfl, rfl⟩

theorem sgo_starts {x : SgoA} (hc : ctxOf s x.h = some c) (hp : Producer c) (hst : (winOf c.t x.win.toNat).st = .bound) :
    GoesOn c (exec (.sgo x) s) fun t g => BytesKept s t ∧ Kept c.g g [] ∧ WinIs t c.r.team x.win.toNat fun y =>
      y.st = .running ∧ y.b = (winOf c.t x.win.toNat).b ∧ y.pc = (winOf c.t x.win.toNat).pc ∧ y.pin = c.g.pin ∧ y.bounds = c.t.bounds := by
  obtain ⟨hs, -, ht, -⟩ := ctxOf_spec hc
  obtain ⟨hteams, hmem⟩ := copyPin_teams (s := c.s) c.ld c.g.pin
  have hteam (r : TeamRef) : teamOf (copyPin c.s c.ld c.g.pin) r = teamOf c.s r := by
    unfold teamOf
    rw [hteams]
  rw [exec_sgo hc hp, if_neg (by simp [hst]), Ctx.team_ref hc]
  dsimp only
  generalize copyPin c.s c.ld c.g.pin = s' at *
  generalize forkOf c.s c.g c.u.mask = after
  have hw := lt_wins (u := c.t) (w := x.win.toNat) (by rw [hst]; exact WinSt.noConfusion)
  have hwin := winIs_modWin (s := s') (r := c.r.team) (w := x.win.toNat) (f := fun w =>
      { w with st := .running, pin := c.g.pin, bounds := c.t.bounds, after := after, pid := s'.nextId, ahead := [] })
    (P := fun y => y.st = .running ∧ y.b = (winOf c.t x.win.toNat).b ∧ y.pc = (winOf c.t x.win.toNat).pc ∧ y.pin = c.g.pin ∧ y.bounds = c.t.bounds)
    ((hteam c.r.team).trans (hs ▸ ht)) hw ⟨rfl, rfl, rfl, rfl, rfl⟩
  have hbytes := bytesKept_modWin s' c.r.team x.win.toNat fun w =>
      { w with st := .running, pin := c.g.pin, bounds := c.t.bounds, after := after, pid := s'.nextId, ahead := [] }
  have hgroup := groupOf_modWin s' c.r.team x.win.toNat (fun w =>
      { w with st := .running, pin := c.g.pin, bounds := c.t.bounds, after := after, pid := s'.nextId, ahead := [] }) c.r
  generalize modWin s' c.r.team x.win.toNat _ = s'' at *
  have hkeep : groupOf s' c.r = groupOf c.s c.r := congrArg (Option.bind · _) (hteam c.r.team)
  obtain ⟨s₂, hs₂⟩ : ∃ s₂ : State, s₂ = { s'' with nextId := s'.nextId + 1 } := ⟨_, rfl⟩
  have hg₂ : groupOf s₂ c.r = groupOf c.s c.r := hs₂ ▸ hgroup.trans hkeep
  have hb₂ : BytesKept s s₂ := by
    refine ⟨hs₂ ▸ (hbytes.1.trans (hmem.trans (congrArg State.mem hs))), fun r b k => ?_⟩
    have h1 : bufByte s₂ r b k = bufByte s'' r b k := hs₂ ▸ rfl
    rw [h1, hbytes.2 r b k, bufByte_congr (hteam r), hs]
  have hw₂ : WinIs s₂ c.r.team x.win.toNat fun y => y.st = .running ∧ y.b = (winOf c.t x.win.toNat).b ∧
      y.pc = (winOf c.t x.win.toNat).pc ∧ y.pin = c.g.pin ∧ y.bounds = c.t.bounds := by
    rw [hs₂]
    exact hwin
  rw [← hs₂]
  exact goesOn_effect hc hg₂ fun outs f => ⟨hb₂.trans (bytesKept_afterDone ..), kept_retire .., winIs_afterDone hw₂⟩

/-! SREL. -/

theorem exec_srel {x : TileA} (hc : ctxOf s x.h = some c) (hne : c.lanes ≠ []) {w : Window} {n k : Nat}
    (hw : winOf c.t x.win.toNat = w) (hn : tileNo c x.b = n) (hk : n % w.b.slots = k) : exec (.srel x) s = .next (complete c x.h false (
    if !w.started then trapW cSTRPROG 5
    else if w.fills.getD k 0 ≠ n / w.b.slots + 1 ∨ w.b.rc ≤ w.rels.getD k 0 then trapW cWINOVF 2
    else done (modWin c.s c.t.r x.win.toNat fun w => { w with
        rels := lset w.rels k (w.rels.getD k 0 + 1)
        rpast := lset w.rpast k (union (w.rpast.getD k []) (beforeOf c.s c.r c.g (BitVec.allOnes 32))) }) [])) := by
  subst hw hn hk
  refine (execSrel.eq_1 x s).trans ((withIssue_of hc false _).trans ?_)
  rw [c.any_of_ne hne]
  rfl

theorem lt_wins_of_started {u : Team} {w : Nat} (h : (winOf u w).started = true) : w < u.wins.length := by
  refine lt_wins fun hst => ?_
  rw [Window.started, hst] at h
  cases h

theorem getD_lset_succ {xs : List Nat} {k : Nat} (hk : k < xs.length) (j : Nat) :
    (lset xs k (xs.getD k 0 + 1)).getD j 0 = xs.getD j 0 + if j = k then 1 else 0 := by
  by_cases h : j = k
  · subst h
    rw [getD_lset_same _ _ _ _ hk, if_pos rfl]
  · rw [getD_lset_other _ _ _ _ _ h, if_neg h, Nat.add_zero]

theorem srel_releases {x : TileA} (hc : ctxOf s x.h = some c) (hne : c.lanes ≠ []) :
    let w := winOf c.t x.win.toNat
    let n := (srcD c.g x.b 1 c.low).toNat % 2 ^ 32
    let k := n % w.b.slots
    (w.started = false → CanTrap c → Traps c (exec (.srel x) s) cSTRPROG 5 (lowest c.u.mask) 0) ∧
    (w.started = true → w.fills.getD k 0 ≠ n / w.b.slots + 1 ∨ w.b.rc ≤ w.rels.getD k 0 → CanTrap c →
      Traps c (exec (.srel x) s) cWINOVF 2 (lowest c.u.mask) 0) ∧
    (w.started = true → w.fills.getD k 0 = n / w.b.slots + 1 → w.rels.getD k 0 < w.b.rc → k < w.rels.length →
      GoesOn c (exec (.srel x) s) fun t g => BytesKept s t ∧ Kept c.g g [] ∧ WinIs t c.r.team x.win.toNat fun y =>
        y.fills = w.fills ∧ ∀ j, y.rels.getD j 0 = w.rels.getD j 0 + if j = k then 1 else 0) := by
  intro w n k
  rw [exec_srel hc hne (w := w) (n := n) (k := k) rfl rfl rfl]
  refine ⟨fun hst can => ?_, fun hst hbad can => ?_, fun hst hfill hrel hk => ?_⟩
  · rw [if_pos (by rw [hst]; rfl)]
    exact traps_trapW hc can ..
  · rw [if_neg (by rw [hst]; exact Bool.false_ne_true), if_pos hbad]
    exact traps_trapW hc can ..
  · rw [if_neg (by rw [hst]; exact Bool.false_ne_true), if_neg (not_or.2 ⟨not_not.2 hfill, Nat.not_le.2 hrel⟩)]
    exact goesOn_modWin hc (lt_wins_of_started hst) ⟨rfl, getD_lset_succ hk⟩

/-! AWAIT. -/

/-- AWAIT on what is found of an object or a slot. -/
theorem awaitRes_ends {h : Hdr} (hc : ctxOf s h = some c) (ops : List Nat) (addr : DWord) (wt : Wait) (found : Option (Option (Nat × Nat)))
    (hsync : (wt.isSys || wt.isTbar || wt.isGbar) = false) (hfree : wt.amongLanes = false) :
    (found = some none → GoesOn c (.next (complete c h false (awaitRes c c.s found ops addr wt))) fun t g => BytesKept s t ∧ Kept c.g g []) ∧
    (∀ cause d, found = some (some (cause, d)) → isPoison cause = false → CanTrap c →
      Traps c (.next (complete c h false (awaitRes c c.s found ops addr wt))) cause d (lowest c.u.mask) addr) ∧
    (found = none → (others c.u (frontOf c.g)).length < depthOf c.g →
      Waits c (.next (complete c h false (awaitRes c c.s found ops addr wt))) wt) := by
  refine ⟨fun hf => ?_, fun cause d hf hp can => ?_, fun hf hroom => ?_⟩
  · subst hf
    exact goesOn_reordered hc ops
  · subst hf
    simp only [awaitRes, hp, Bool.false_eq_true, if_false]
    exact traps_of_trap hc can false ⟨cause, d, none, addr, 0, false⟩
  · subst hf
    exact waits_of_wait h false wt [] none (groupOf_ctx hc) rfl hroom hsync hfree

theorem exec_awaitObj {x : AwaitObjA} {p : BufAt} (hc : ctxOf s x.h = some c) (hne : c.lanes ≠ []) (hsram : s.sram = [])
    (hp : objPlace c x.mem x.a x.off = .ok p) : exec (.awaitObj x) s = .next (complete c x.h false
      (awaitRes c c.s (objFound c.s c.t p.m p.off) (objOps c.s c.t p.m p.off) (BitVec.ofNat 64 (p.m * 2 ^ 20 + p.off)) (.obj p.m p.off))) := by
  obtain ⟨hs, -⟩ := ctxOf_spec hc
  refine (execAwaitObj.eq_1 x s).trans ((withIssue_of hc false _).trans ?_)
  simp only [c.any_of_ne hne, hp, withTouch_nil (hs ▸ hsram), Bool.not_true, Bool.false_eq_true, if_false]

theorem exec_awaitSlot {x : TileA} (hc : ctxOf s x.h = some c) (hne : c.lanes ≠ []) (hst : (winOf c.t x.win.toNat).started = true) :
    exec (.awaitSlot x) s = .next (complete c x.h false (awaitRes c c.s (slotFound (winOf c.t x.win.toNat) (tileNo c x.b))
      (slotOps c.s (winOf c.t x.win.toNat) (tileNo c x.b)) 0 (.slot x.win.toNat (tileNo c x.b)))) := by
  refine (execAwaitSlot.eq_1 x s).trans ((withIssue_of hc false _).trans ?_)
  simp only [c.any_of_ne hne, hst, Bool.not_true, Bool.false_eq_true, if_false]

/-! ASTAT. -/

theorem exec_astatSlot {x : AstatSlotA} (hc : ctxOf s x.h = some c) (hne : c.lanes ≠ []) :
    exec (.astatSlot x) s = .next (complete c x.h false (if !(winOf c.t x.win.toNat).started then trapW cSTRPROG 5
      else resFree c (keysOf x.d 1) (setDst c.g x.d 2 c.low
        (BitVec.ofNat 64 (slotWord (winOf c.t x.win.toNat) (tileNo c x.b % (winOf c.t x.win.toNat).b.slots)))))) := by
  refine (execAstatSlot.eq_1 x s).trans ((withIssue_of hc false _).trans ?_)
  simp only [c.any_of_ne hne, Bool.not_true, Bool.false_eq_true, if_false]

theorem astatSlot_reads {x : AstatSlotA} (hc : ctxOf s x.h = some c) (hwf : WellFormed (.astatSlot x) = true) (hne : c.lanes ≠ []) :
    let w := winOf c.t x.win.toNat
    (w.started = false → CanTrap c → Traps c (exec (.astatSlot x) s) cSTRPROG 5 (lowest c.u.mask) 0) ∧
    (w.started = true → GoesOn c (exec (.astatSlot x) s) fun t g => BytesKept s t ∧ Kept c.g g (keysOf x.d 1) ∧
      srcD g x.d 2 c.low = seen x.d 2 (BitVec.ofNat 64 (slotWord w ((srcD c.g x.b 1 c.low).toNat % 2 ^ 32 % w.b.slots)))) := by
  intro w
  obtain ⟨hs, -⟩ := ctxOf_spec hc
  have hd : x.d.cls = .uni := wf_cls hwf (aD x.d [.uni] 1) (by simp [args]) rfl (by decide)
  rw [exec_astatSlot hc hne]
  refine ⟨fun hst can => ?_, fun hst => ?_⟩
  · rw [if_pos (by rw [hst]; rfl)]
    exact traps_trapW hc can ..
  · rw [if_neg (by rw [hst]; exact Bool.false_ne_true)]
    obtain ⟨hread, hkept⟩ := srcD_setDst_uniform (g := c.g) hd c.low 2 2 (BitVec.ofNat 64 (slotWord w (tileNo c x.b % w.b.slots)))
    have hkeys : keysOf x.d 1 = keysOf x.d 2 := by
      obtain ⟨n, hn⟩ := uniform_of_cls hd
      rw [hn]
      rfl
    refine goesOn_free hc false _ _ (by simp) (by simp) fun outs => ⟨?_, (hkeys ▸ hkept).retire .., ?_⟩
    · rw [← hs]
      exact (bytesKept_put ..).trans (bytesKept_afterDone ..)
    · rw [srcD_retire]
      exact hread

/-- A read that is noted reorders the group that makes it. -/
theorem noteRead_reorders {u : State} {r : GroupRef} {g : Group} (m : LaneMask) (kept : List Nat) (tags : List RelTag) (hg : groupOf u r = some g) :
    BytesKept u (noteRead u r m kept tags) ∧ ∃ g', groupOf (noteRead u r m kept tags) r = some g' ∧ Reordered g g' := by
  unfold noteRead
  split
  · exact ⟨⟨rfl, fun _ _ _ => rfl⟩, g, hg, .refl g⟩
  · have hre (x : Group) : Reordered x ((lanesOf m).foldl (fun g l =>
        let o := laneOrd g l
        setOrd g { o with seen := o.seen ++ tags }) (addObs u m kept x)) :=
      foldl_holds (Reordered x) (reordered_addObs ..) fun y l hy => hy.trans (reordered_setOrd ..)
    refine ⟨bytesKept_modGroup .., _, ?_, hre g⟩
    rw [groupOf_modGroup_same _ _ _ fun x hx => (hre x).id.trans hx, hg]
    rfl

/-- The group that ASTAT leaves, before its read is noted. -/
def polledGroup (d : Opnd) (l v : Nat) (poison : Option Nat) (g : Group) : Group :=
  { setDst g d 2 l (BitVec.ofNat 64 v) with polled := if poison.isSome then poison else g.polled }

theorem exec_astatObj {x : AstatObjA} {p : BufAt} (hc : ctxOf s x.h = some c) (hne : c.lanes ≠ []) (hsram : s.sram = [])
    (hp : objPlace c x.mem x.a x.off = .ok p) : ∃ poison tags, exec (.astatObj x) s = .next (complete c x.h false
      (done (tick (noteRead (modGroup s c.r (polledGroup x.d c.low (bufGet s (memberRef c.t p.m) .a p.off 8) poison)) c.r c.act [] tags))
        (outFree c.s (keysOf x.d 1)))) := by
  obtain ⟨hs, -⟩ := ctxOf_spec hc
  subst hs
  have hrun : exec (.astatObj x) c.s = .next (complete c x.h false (if !c.any then done c.s [] else _)) :=
    (execAstatObj.eq_1 x c.s).trans (withIssue_of hc false _)
  simp only [c.any_of_ne hne, hp, withTouch_nil hsram, Bool.not_true, Bool.false_eq_true, if_false] at hrun
  exact ⟨_, _, hrun⟩

theorem astatObj_reads {x : AstatObjA} {p : BufAt} (hc : ctxOf s x.h = some c) (hwf : WellFormed (.astatObj x) = true) (hne : c.lanes ≠ [])
    (hsram : s.sram = []) (hp : objPlace c x.mem x.a x.off = .ok p) :
    GoesOn c (exec (.astatObj x) s) fun t g => BytesKept s t ∧ Kept c.g g (keysOf x.d 1) ∧
      srcD g x.d 2 c.low = seen x.d 2 (BitVec.ofNat 64 (bufGet s (memberRef c.t p.m) .a p.off 8)) := by
  obtain ⟨hs, -⟩ := ctxOf_spec hc
  have hd : x.d.cls = .uni := wf_cls hwf (aD x.d [.uni] 1) (by simp [args]) rfl (by decide)
  obtain ⟨n, hn⟩ := uniform_of_cls hd
  have hkeys : keysOf x.d 1 = keysOf x.d 2 := by
    rw [hn]
    rfl
  obtain ⟨poison, tags, hexec⟩ := exec_astatObj hc hne hsram hp
  rw [hexec, hkeys]
  generalize bufGet s (memberRef c.t p.m) .a p.off 8 = v
  obtain ⟨hread, hkept⟩ := srcD_setDst_uniform (g := c.g) hd c.low 2 2 (BitVec.ofNat 64 v)
  have hkept' : Kept c.g (polledGroup x.d c.low v poison c.g) (keysOf x.d 2) := hkept
  have hread' : srcD (polledGroup x.d c.low v poison c.g) x.d 2 c.low = seen x.d 2 (BitVec.ofNat 64 v) := by
    rw [hn] at hread ⊢
    exact hread
  have hg : groupOf (modGroup s c.r (polledGroup x.d c.low v poison)) c.r = some (polledGroup x.d c.low v poison c.g) := by
    have hgs := groupOf_ctx hc
    rw [hs] at hgs
    rw [groupOf_modGroup_same _ _ (polledGroup x.d c.low v poison) fun g hg => (id_setDst g x.d 2 c.low _).trans hg, hgs]
    rfl
  obtain ⟨hbytes, g', hg', hre⟩ := noteRead_reorders c.act [] tags hg
  have hfront : frontOf (polledGroup x.d c.low v poison c.g) = frontOf c.g := frontOf_setDst c.g x.d 2 c.low _
  refine goesOn_done c x.h false _ (tick _) g' hg' (hre.front.trans hfront) ⟨?_, ((hkept'.then hre.kept.mono)).retire .., ?_⟩
  · exact ((bytesKept_modGroup ..).trans hbytes).trans (bytesKept_afterDone ..)
  · rw [srcD_retire, hre.srcD, hread']

end

/-! An entry that has waited goes on. -/

theorem standsAt_addAll {es f : List Entry} {e : Entry} (he : e ∈ es) {l : Nat} (hl : e.mask.getLsbD l = true) :
    StandsAt (addAll es f) l (nextPc e.pc) e.prio := by
  induction es generalizing f with
  | nil => cases he
  | cons a r ih =>
    rcases List.mem_cons.1 he with rfl | he
    · exact (keeps_addAll r _).standsAt (standsAt_addReady f ⟨nextPc e.pc, e.prio, e.mask, 0, .ready⟩ rfl l hl)
    · exact ih he

theorem standsAt_wakeList {p : Entry → Bool} {f : List Entry} {e : Entry} (he : e ∈ f) (hp : p e = true) {l : Nat} (hl : e.mask.getLsbD l = true) :
    StandsAt (wakeList p f) l (nextPc e.pc) e.prio := standsAt_addAll (List.mem_filter.2 ⟨he, hp⟩) hl

/-- The entry of a lane that waits is one of the frontier's. -/
theorem waitAt_mem {g : Group} {lane : Nat} {e : Entry} {w : Wait} (h : waitAt g lane = some (e, w)) :
    e ∈ frontOf g ∧ e.waits (fun _ => true) = true := by
  unfold waitAt at h
  split at h
  · cases h
  · split at h
    · cases h
    · next x hx =>
      split at h
      · injection h with h
        injection h with he _
        subst he
        exact ⟨List.mem_of_find?_eq_some hx, by simpa using (Bool.and_eq_true _ _ ▸ List.find?_some hx).2⟩
      · cases h

theorem kept_setFront (g : Group) (f : List Entry) : Kept g (setFront g f) [] := by
  refine ⟨fun n l _ => ?_, fun n _ => ?_, fun n l _ => ?_, fun n _ => ?_⟩
  · simp [getV]
  · simp [getG]
  · simp [getP]
  · simp [getM]

theorem id_moveOn (m : LaneMask) (g : Group) : (moveOn m g).id = g.id := id_setFront ..

/-- The lanes of an entry that waits go on, in a group that holds no trap. -/
theorem moveOn_wentOn {s : State} {r : GroupRef} {g : Group} (hg : groupOf s r = some g) (hpend : g.pendTrap = none) {e : Entry} {lane : Nat} {w : Wait}
    (hw : waitAt g lane = some (e, w)) (ops : List Nat) :
    WentOn (modGroup s r fun g => moveOn e.mask (addPast e.mask ops g)) r e fun g' => Kept g g' [] := by
  obtain ⟨hmem, hwaits⟩ := waitAt_mem hw
  have hre := reordered_addPast e.mask ops g
  have hpend' : (addPast e.mask ops g).pendTrap.isSome = false := by
    obtain ⟨o, ho⟩ := hre
    rw [ho]
    show g.pendTrap.isSome = false
    rw [hpend]
    rfl
  refine ⟨moveOn e.mask (addPast e.mask ops g), ?_, hre.kept.then (kept_setFront ..), fun l _ hl => ?_⟩
  · rw [groupOf_modGroup_same _ _ _ fun x hx => ((id_moveOn ..).trans (reordered_addPast ..).id).trans hx, hg]
    rfl
  · unfold moveOn
    dsimp only
    rw [hpend', frontOf_setFront, hre.front, if_neg Bool.false_ne_true]
    exact standsAt_wakeList hmem (by simp [hwaits]) hl

theorem awaitReturn_goes {s : State} {r : GroupRef} {t : Team} {g : Group} {lane : Nat} {e : Entry} (hrun : Running s)
    (ht : teamOf s r.team = some t) (hg : groupOf s r = some g) (hpend : g.pendTrap = none) (hhere : gangHere s t = true)
    (hw : (∃ m off, waitAt g lane = some (e, .obj m off) ∧ objFound s t m off = some none) ∨
      (∃ w n, waitAt g lane = some (e, .slot w n) ∧ slotFound (winOf t w) n = some none)) :
    Becomes (exec (.awaitReturn r lane) s) fun u => WentOn u r e fun g' => Kept g g' [] := by
  obtain ⟨hon, hhalt⟩ := hrun
  rcases hw with ⟨m, off, hwait, hfound⟩ | ⟨w, n, hwait, hfound⟩
  · refine ⟨_, ?_, moveOn_wentOn hg hpend hwait (objOps s t m off)⟩
    refine (execAwaitReturn.eq_1 r lane s).trans ?_
    simp only [agent, hon, hhalt, Bool.not_false, Bool.and_self, if_true, ht, hg, hpend, hhere, hwait, hfound, Option.isSome_none, Bool.not_true,
      Bool.or_self, Bool.false_eq_true, if_false]
  · refine ⟨_, ?_, moveOn_wentOn hg hpend hwait (slotOps s (winOf t w) n)⟩
    refine (execAwaitReturn.eq_1 r lane s).trans ?_
    simp only [agent, hon, hhalt, Bool.not_false, Bool.and_self, if_true, ht, hg, hpend, hhere, hwait, hfound, Option.isSome_none, Bool.not_true,
      Bool.or_self, Bool.false_eq_true, if_false]

end Sys2Proof.Machine

open Sys2Proof Sys2Proof.Machine

/-- Settles O30: each instruction, past its checks, changes a window, reorders the issuing group, or waits. -/
theorem streamControl : Obligations.StreamControl := by
  unfold Obligations.StreamControl
  refine ⟨fun s c x n hc _ hp hsram ha h64 hlen => ?_, fun s c x hc hp => ⟨fun hst can => ?_, fun hst => sgo_starts hc hp hst⟩,
    fun s c x hc _ hne => srel_releases hc hne, fun s c i h addr wt found hc hne hsram hi => ?_,
    fun s r t g lane e hrun ht hg hpend hhere hw => awaitReturn_goes hrun ht hg hpend hhere hw,
    fun s c x p hc hwf hne hsram hp => astatObj_reads hc hwf hne hsram hp, fun s c x hc hwf hne => astatSlot_reads hc hwf hne⟩
  · exact ⟨fun hst can => (sbind_traps hc hp hsram ha h64 hlen can).1 hst, fun hst hbad can => (sbind_traps hc hp hsram ha h64 hlen can).2 hst hbad,
      fun hst hgood hfits hwin => sbind_binds hc hp hsram ha h64 hlen hst hgood hfits hwin⟩
  · rw [exec_sgo hc hp, if_pos hst]
    exact traps_trapW hc can ..
  · obtain ⟨hs, -⟩ := ctxOf_spec hc
    rcases hi with ⟨x, p, rfl, rfl, hp, rfl, rfl, rfl⟩ | ⟨x, rfl, rfl, hst, rfl, rfl, rfl⟩
    · rw [exec_awaitObj hc hne hsram hp, hs]
      have h := awaitRes_ends hc (objOps c.s c.t p.m p.off) (BitVec.ofNat 64 (p.m * 2 ^ 20 + p.off)) (.obj p.m p.off) (objFound c.s c.t p.m p.off) rfl rfl
      rwa [hs] at h
    · rw [exec_awaitSlot hc hne hst]
      exact awaitRes_ends hc _ 0 (.slot x.win.toNat (tileNo c x.b)) _ rfl rfl

end

section
/-! PROOFS. What the memory, pin, trap and far operations leave of the package's registers: all but the event log's and the counters of
corrected errors. -/

set_option Elab.async false

namespace Sys2Proof.Machine

/-- The package's registers below the error counters, without the event log's producer index and its counter of lost records. -/
def RegsHeld (b : Nat → DWord) (s : State) : Prop := ∀ n, n < 0xA60 → n ≠ 0x81A → n ≠ 0x81C → stGet s.preg n = b n

theorem RegsHeld.rfl (s : State) : RegsHeld (stGet s.preg) s := fun _ _ _ _ => Eq.refl _

variable {b : Nat → DWord}

/-- What leaves the registers alone. -/
theorem regs_keep {s : State} {a0 : Nat} {a1 : Store 33} {a2 : List (Nat × Nat)} {m : List Host.Cell} {l : List LDev} {a4 : List Nat} {a5 : List Grid} {a6 : List
    Gang} {a7 : List Team} {a8 : List Team} {a9 : List Req} {a10 : List MemOp} {a11 : List NetOp} {a12 : List Far} {a13 : List RelTag} {a14
    : List Wr} {a15 : List (Nat × List Nat)} {a16 : List RelTag} {a17 : List Hart} {a18 : List Hot} {a19 : List (Nat × Scrub)} {a20 : List
    BankRow} {a21 : List DLine} {a22 : Power} {a23 : List Nat} {a24 : List Nat} {a25 : List Nat} {a26 : List (Nat × Nat)} {a27 : Option
    (Nat × Option (List Byte))} {a28 : List (Nat × Nat × Nat × Nat × Nat)} {a29 : List Stale} {a30 : List Nat} {a31 : List (Nat × Nat)}
    {a32 : List Migration} {a33 : List (Nat × Nat × Nat × Nat)} {a34 : Store 8} {a35 : List DriveWrite} {a36 : Store 1} {a37 : Nat} {a38 :
    Nat} {a39 : Nat} {a40 : List (Nat × Nat × Nat × Nat)} {a41 : Nat} {a42 : List Instr} {a43 : Nat} {a44 : Nat} {a45 : Option Issuing} (h
    : RegsHeld b s) :
    RegsHeld b ⟨a0, m, a1, a2, s.preg, a4, l, a5, a6, a7, a8, a9, a10, a11, a12, a13, a14, a15, a16, a17, a18, a19, a20, a21, a22, a23,
      a24, a25, a26, a27, a28, a29, a30, a31, a32, a33, a34, a35, a36, a37, a38, a39, a40, a41, a42, a43, a44, a45⟩ := h

theorem regs_setPkgReg {s : State} {n x : Nat} (h : RegsHeld b s) (hn : n = 0x81A ∨ n = 0x81C ∨ 0xA60 ≤ n) : RegsHeld b (setPkgReg s n x) :=
  fun m h1 h2 h3 => (stGet_set_other _ _ _ _ (by omega)).trans (h m h1 h2 h3)

theorem regs_pokeBytes {s : State} {pa : Nat} {bs : List Byte} (h : RegsHeld b s) : RegsHeld b (pokeBytes s pa bs) := h

theorem regs_openLine {s : State} {n : Nat} (h : RegsHeld b s) : RegsHeld b (openLine s n) := by
  unfold openLine
  split
  · exact h
  · exact h

theorem regs_poisonSec {s : State} {n : Nat} (h : RegsHeld b s) : RegsHeld b (poisonSec s n) :=
  (regs_openLine h : RegsHeld b (openLine s (n / 4)))

theorem regs_modLd {s : State} {n : Nat} {f : LDev → LDev} (h : RegsHeld b s) : RegsHeld b (modLd s n f) := h

theorem regs_freshSec {s : State} {n : Nat} {bs : List Byte} (h : RegsHeld b s) : RegsHeld b (freshSec s n bs) := h

theorem regs_setScrub {s : State} {n : Nat} {x : Scrub} (h : RegsHeld b s) : RegsHeld b (setScrub s n x) := h

theorem regs_raiseMsix {s : State} {ld vec : Nat} (h : RegsHeld b s) :
    RegsHeld b (raiseMsix s ld vec) := by
  unfold raiseMsix
  split
  · exact h
  · exact regs_keep h

theorem regs_sectorWrite {s : State} {pa : Nat} {bs : List Byte} (h : RegsHeld b s) :
    RegsHeld b (sectorWrite s pa bs) := by
  unfold sectorWrite
  exact regs_keep (regs_pokeBytes (foldl_holds (RegsHeld b) h (fun s1 x h1 => regs_openLine h1)))

theorem regs_colCmd {s : State} {cmd : Bool} {pa : Nat} (h : RegsHeld b s) :
    RegsHeld b (colCmd s cmd pa) := by
  unfold colCmd
  exact regs_keep h

theorem regs_sramDrop {s : State} {kk : Nat × Nat × Nat} (h : RegsHeld b s) :
    RegsHeld b (sramDrop s kk) := by
  unfold sramDrop
  exact regs_keep h

theorem regs_dieWordOut {s : State} {d : DLine} {kk : Nat × Nat × Nat} (h : RegsHeld b s) :
    RegsHeld b (dieWordOut s d kk) := by
  unfold dieWordOut
  split
  · exact h
  · split
    · dsimp only
      split
      · exact regs_sramDrop h
      · exact regs_pokeBytes (regs_sramDrop h)
    · dsimp only
      split
      · exact regs_sramDrop h
      · exact regs_poisonSec (regs_sramDrop h)

theorem regs_dieOut {s : State} {d : DLine} (h : RegsHeld b s) :
    RegsHeld b (dieOut s d) := by
  unfold dieOut
  split
  · exact h
  · exact foldl_holds (RegsHeld b) h (fun s1 x h1 => regs_dieWordOut h1)

theorem regs_dieAccess {s : State} {line need put : Nat} (h : RegsHeld b s) :
    RegsHeld b (dieAccess s line need put) := by
  unfold dieAccess
  refine regs_keep (regs_colCmd (regs_colCmd ?_))
  split
  · exact h
  · split
    · exact h
    · exact regs_dieOut h

theorem regs_logEvent {s : State} {kind cause detail ld addr aux : Nat} (h : RegsHeld b s) :
    RegsHeld b (logEvent s kind cause detail ld addr aux) := by
  unfold logEvent
  dsimp only
  split
  · exact regs_raiseMsix (regs_setPkgReg (regs_sectorWrite (regs_dieAccess h)) (.inl rfl))
  · exact regs_setPkgReg h (.inr (.inl rfl))

theorem regs_corrected {s : State} {pa : Nat} (h : RegsHeld b s) : RegsHeld b (corrected s pa) := by
  have hcount (n : Nat) : RegsHeld b (setPkgReg s (0xA60 + pa / 2 ^ 36) n) := regs_setPkgReg h (.inr (.inr (by omega)))
  unfold corrected
  dsimp only
  split
  · exact foldl_holds (RegsHeld b) (regs_setScrub (hcount _)) fun s1 x h1 => regs_logEvent h1
  · exact regs_setScrub (hcount _)

theorem regs_logBad {s : State} {sec : Nat} (h : RegsHeld b s) :
    RegsHeld b (logBad s sec) := by
  unfold logBad
  exact regs_logEvent (regs_poisonSec h)

theorem regs_readSec {s : State} {sec : Nat} (h : RegsHeld b s) :
    RegsHeld b (readSec s sec).2.2 := by
  unfold readSec
  split
  · exact h
  · exact regs_logBad h
  · exact regs_corrected (regs_freshSec h)
  · split
    · exact h
    · split
      · exact h
      · split
        · exact h
        · exact regs_logBad (foldl_holds (RegsHeld b) h (fun s1 x h1 => regs_sramDrop h1))

theorem regs_readIn {s : State} {pa kk : Nat} (h : RegsHeld b s) :
    RegsHeld b (readIn s pa kk).2.2 := by
  unfold readIn
  split
  · exact regs_readSec h
  · exact h

theorem regs_readLines {s : State} {pa kk : Nat} (h : RegsHeld b s) :
    RegsHeld b (readLines s pa kk) := by
  unfold readLines
  refine foldl_holds (RegsHeld b) ?_ ?_
  · exact h
  · intro s1 x h1
    split
    · exact regs_dieAccess h1
    · exact h1

theorem regs_readMem {s : State} {pa kk : Nat} (h : RegsHeld b s) :
    RegsHeld b (readMem s pa kk).2.2 := by
  unfold readMem
  exact foldl_holds (fun y : List Byte × RdSt × State => RegsHeld b y.2.2) (regs_readLines h) (fun x x1 h1 => regs_readIn h1)

theorem regs_dieMerge {s : State} {sec : Nat} {bs : List Byte} (h : RegsHeld b s) :
    RegsHeld b (dieMerge s sec bs) := by
  unfold dieMerge
  split
  · exact h
  · split
    · exact h
    · exact regs_pokeBytes (foldl_holds (RegsHeld b) h (fun s1 x h1 => regs_sramDrop h1))

theorem regs_writeIn {s : State} {pa : Nat} {bs : List Byte} (h : RegsHeld b s) :
    RegsHeld b (writeIn s pa bs) := by
  unfold writeIn
  split
  · split
    · exact regs_freshSec (regs_dieMerge (regs_openLine h))
    · dsimp only
      split
      · exact regs_pokeBytes (regs_openLine h)
      · split
        · exact regs_freshSec (regs_dieMerge (regs_readSec (regs_openLine h)))
        · exact regs_readSec (regs_openLine h)
  · exact regs_pokeBytes (regs_openLine h)

theorem regs_writeLines {s : State} {pa kk : Nat} (h : RegsHeld b s) :
    RegsHeld b (writeLines s pa kk) := by
  unfold writeLines
  refine foldl_holds (RegsHeld b) ?_ ?_
  · exact h
  · intro s1 x h1
    split
    · exact regs_dieAccess h1
    · exact h1

theorem regs_writeMem {s : State} {pa : Nat} {bs : List Byte} (h : RegsHeld b s) :
    RegsHeld b (writeMem s pa bs) := by
  unfold writeMem
  exact foldl_holds (fun y : State × List Byte => RegsHeld b y.1) (regs_writeLines h) (fun x x1 h1 => regs_writeIn h1)

theorem regs_hwWrite {s : State} {pa : Nat} {bs : List Byte} (h : RegsHeld b s) :
    RegsHeld b (hwWrite s pa bs) := by
  unfold hwWrite
  exact regs_writeMem h

theorem regs_tableRead {s : State} {pa kk : Nat} (h : RegsHeld b s) :
    RegsHeld b (tableRead s pa kk) := by
  unfold tableRead
  exact regs_readMem h

theorem regs_setNode {s : State} {pa st c : Nat} (h : RegsHeld b s) :
    RegsHeld b (setNode s pa st c) := by
  unfold setNode
  exact regs_hwWrite h

theorem regs_walkReads {s : State} {ld : Nat} {r : Nat × Nat} {va : Nat} (h : RegsHeld b s) :
    RegsHeld b (walkReads s ld r va) := by
  unfold walkReads
  split
  · exact foldl_holds (RegsHeld b) h (fun s1 x h1 => regs_tableRead h1)
  · split
    · exact foldl_holds (RegsHeld b) h (fun s1 x h1 => regs_tableRead h1)
    · exact regs_tableRead (foldl_holds (RegsHeld b) h (fun s1 x h1 => regs_tableRead h1))

theorem regs_walkRead {s : State} {ld : Nat} {r : Nat × Nat} {va : Nat} (h : RegsHeld b s) :
    RegsHeld b (walkRead s ld r va) := by
  unfold walkRead
  split
  · exact regs_keep h
  · dsimp only
    split
    · exact h
    · exact regs_walkReads h

theorem regs_dropCached {s : State} {ld : Nat} {p : Cached → Bool} (h : RegsHeld b s) :
    RegsHeld b (dropCached s ld p) := by
  unfold dropCached
  exact regs_modLd h

theorem regs_releaseNode {s : State} {ld n : Nat} (h : RegsHeld b s) :
    RegsHeld b (releaseNode s ld n).1 := by
  unfold releaseNode
  exact regs_setNode (regs_tableRead (regs_dropCached h))

theorem regs_addReclaim {s : State} {ld : Nat} {ws : List Reclaim} (h : RegsHeld b s) :
    RegsHeld b (addReclaim s ld ws) := by
  unfold addReclaim
  exact regs_modLd h

theorem regs_dropNodeCount {s : State} {ld node : Nat} (h : RegsHeld b s) :
    RegsHeld b (dropNodeCount s ld node) := by
  unfold dropNodeCount
  dsimp only
  split
  · exact regs_addReclaim (regs_releaseNode (regs_setNode h))
  · exact regs_setNode h

theorem regs_giveUpRoot {s : State} {ld gen node : Nat} (h : RegsHeld b s) :
    RegsHeld b (giveUpRoot s ld gen node) := by
  unfold giveUpRoot
  exact regs_dropNodeCount (regs_dropCached h)

theorem regs_changePins {s : State} {ld gen : Nat} {f : Nat → Nat} (h : RegsHeld b s) :
    RegsHeld b (changePins s ld gen f) := by
  unfold changePins
  dsimp only
  split
  · exact regs_modLd h
  · split
    · exact h
    · split
      · refine regs_giveUpRoot ?_
        exact regs_modLd h
      · exact regs_modLd h

theorem regs_dropPin {s : State} {ld : Nat} {x2 : Option Pin} (h : RegsHeld b s) :
    RegsHeld b (dropPin s ld x2) := by
  unfold dropPin
  split
  · exact h
  · exact regs_changePins h

theorem regs_modTeam {s : State} {r : TeamRef} {f : Team → Team} (h : RegsHeld b s) :
    RegsHeld b (modTeam s r f) := by
  unfold modTeam
  exact regs_keep h

theorem regs_modGroup {s : State} {r : GroupRef} {f : Group → Group} (h : RegsHeld b s) :
    RegsHeld b (modGroup s r f) := by
  unfold modGroup
  exact regs_modTeam h

theorem regs_modGrid {s : State} {ld id : Nat} {f : Grid → Grid} (h : RegsHeld b s) :
    RegsHeld b (modGrid s ld id f) := by
  unfold modGrid
  exact regs_keep h

theorem regs_addJoin {s : State} {i : Nat} {ids : List Nat} (h : RegsHeld b s) :
    RegsHeld b (addJoin s i ids) := by
  unfold addJoin
  dsimp only
  split
  · exact h
  · exact regs_keep h

theorem regs_trimOrd {s : State} (h : RegsHeld b s) :
    RegsHeld b (trimOrd s) := by
  unfold trimOrd
  exact regs_keep h

theorem regs_dropTags {s : State} {loc n : Nat} (h : RegsHeld b s) :
    RegsHeld b (dropTags s loc n) := by
  unfold dropTags
  exact regs_keep h

theorem regs_keepWrite {s0 s : State} {id loc : Nat} {old : List Byte} {loose : Bool} {grp : Option GroupRef} {pre : List Nat} {team :
    Option TeamRef} (ha : RegsHeld b s0) (hb : RegsHeld b s) :
    RegsHeld b (keepWrite s0 s id loc old loose grp pre team) := by
  unfold keepWrite
  exact regs_keep hb

theorem regs_dropStale {s : State} {store unit lo hi : Nat} (h : RegsHeld b s) :
    RegsHeld b (dropStale s store unit lo hi) := by
  unfold dropStale
  exact regs_keep h

theorem regs_addStale {s : State} {ld store unit lo hi : Nat} (h : RegsHeld b s) :
    RegsHeld b (addStale s ld store unit lo hi) := by
  unfold addStale
  split
  · exact regs_keep (regs_dropStale h)
  · exact regs_dropStale h

theorem regs_dropListed {s : State} {store unit lo hi : Nat} (h : RegsHeld b s) :
    RegsHeld b (dropListed s store unit lo hi) := by
  unfold dropListed
  exact regs_keep h

theorem regs_leaveWords {s : State} {ld store unit lo hi : Nat} (h : RegsHeld b s) :
    RegsHeld b (leaveWords s ld store unit lo hi) := by
  unfold leaveWords
  exact regs_addStale (regs_dropListed h)

theorem regs_leaveRegs {s : State} {ld core base n : Nat} (h : RegsHeld b s) :
    RegsHeld b (leaveRegs s ld core base n) := by
  unfold leaveRegs
  exact regs_leaveWords h

theorem regs_dropHeld {s : State} {core : Nat} {p : TeamRef → Bool} (h : RegsHeld b s) :
    RegsHeld b (dropHeld s core p) := by
  unfold dropHeld
  split
  · exact h
  · exact regs_keep h

theorem regs_leaveTeam {s : State} {t : Team} (h : RegsHeld b s) :
    RegsHeld b (leaveTeam s t) := by
  unfold leaveTeam
  exact regs_addStale (regs_addStale (regs_dropHeld (foldl_holds (RegsHeld b)
    (foldl_holds (RegsHeld b) h (fun s1 x h1 => regs_leaveRegs h1)) (fun s1 x h1 => regs_leaveWords h1))))

theorem regs_dropTeamPins {s : State} {t : Team} (h : RegsHeld b s) :
    RegsHeld b (dropTeamPins s t) := by
  unfold dropTeamPins
  exact foldl_holds (RegsHeld b) (foldl_holds (RegsHeld b) (regs_dropPin h) (fun s1 x h1 => regs_dropPin h1)) (fun s1 x h1 => regs_dropPin h1)

theorem regs_bury {s : State} (h : RegsHeld b s) :
    RegsHeld b (bury s) := by
  unfold bury
  split
  · exact h
  · refine regs_keep ?_
    refine foldl_holds (RegsHeld b) ?_ ?_
    · exact h
    · intro s1 x h1
      split
      · exact regs_leaveTeam (regs_dropTeamPins h1)
      · exact regs_dropTeamPins h1

theorem regs_removeTeams {s : State} {p : Team → Bool} (h : RegsHeld b s) :
    RegsHeld b (removeTeams s p) := by
  unfold removeTeams
  exact regs_bury (regs_keep h)

theorem regs_addEnds {s : State} {t : TeamRef} {ids : List Nat} (h : RegsHeld b s) :
    RegsHeld b (addEnds s t ids) := by
  unfold addEnds
  split
  · exact h
  · exact regs_modGrid h

theorem regs_keepFlags {s : State} {p : Team → Bool} (h : RegsHeld b s) :
    RegsHeld b (keepFlags s p) := by
  unfold keepFlags
  exact foldl_holds (RegsHeld b) h (fun s1 x h1 => regs_addEnds (regs_modGrid h1))

theorem regs_failGrid {s : State} {ld id : Nat} {x : Nat × Nat × Nat × Nat × Nat × DWord} (h : RegsHeld b s) :
    RegsHeld b (failGrid s ld id x) := by
  unfold failGrid
  exact regs_modGrid (regs_keep (regs_removeTeams (regs_keepFlags h)))

theorem regs_enterTrap {s : State} {r : GroupRef} {x : Trap} (h : RegsHeld b s) :
    RegsHeld b (enterTrap s r x) := by
  unfold enterTrap
  split
  · dsimp only
    split
    · exact regs_failGrid h
    · exact regs_modGroup (regs_keep h)
  · exact h

theorem regs_raiseTrap {s : State} {r : GroupRef} {x : Trap} (h : RegsHeld b s) :
    RegsHeld b (raiseTrap s r x) := by
  unfold raiseTrap
  split
  · exact h
  · split
    · exact regs_failGrid h
    · split
      · exact h
      · split
        · exact regs_modGroup h
        · exact regs_enterTrap h

theorem regs_raiseParked {s : State} {r : GroupRef} (h : RegsHeld b s) :
    RegsHeld b (raiseParked s r) := by
  unfold raiseParked
  split
  · exact h
  · split
    · exact h
    · split
      · exact h
      · exact regs_raiseTrap h

theorem regs_takePending {s : State} {r : GroupRef} (h : RegsHeld b s) :
    RegsHeld b (takePending s r) := by
  unfold takePending
  split
  · exact h
  · split
    · exact h
    · split
      · exact h
      · exact regs_enterTrap h

theorem regs_tick {s : State} (h : RegsHeld b s) :
    RegsHeld b (tick s) := by
  unfold tick
  exact regs_keep h

theorem regs_modQueue {s : State} {ld q : Nat} {f : Queue → Queue} (h : RegsHeld b s) :
    RegsHeld b (modQueue s ld q f) := by
  unfold modQueue
  exact regs_modLd h

theorem regs_tailGain {s : State} {pa : Nat} {ids : List Nat} (h : RegsHeld b s) :
    RegsHeld b (tailGain s pa ids) := by
  unfold tailGain
  split
  · exact regs_modQueue h
  · exact h

theorem regs_netGain {s : State} {pa n : Nat} {ids : List Nat} (h : RegsHeld b s) : RegsHeld b (netGain s pa n ids) := by
  unfold netGain
  split
  · exact h
  · exact h

theorem regs_tellEngines {s : State} {pa kk : Nat} {tags : List RelTag} (h : RegsHeld b s) :
    RegsHeld b (tellEngines s pa kk tags) := by
  unfold tellEngines
  exact regs_netGain (regs_tailGain h)

theorem regs_recordWrite {s0 s : State} {f : Far} {rmw : Bool} (ha : RegsHeld b s0) (hb : RegsHeld b s) :
    RegsHeld b (recordWrite s0 s f rmw) := by
  unfold recordWrite
  refine regs_tellEngines (regs_keep ?_)
  split
  · split
    · exact hb
    · exact regs_keepWrite ha hb
  · refine regs_dropTags ?_
    split
    · exact hb
    · exact regs_keepWrite ha hb

theorem regs_farWake {s : State} (h : RegsHeld b s) :
    RegsHeld b (farWake s) := by
  unfold farWake
  refine foldl_holds (RegsHeld b) ?_ ?_
  · exact regs_keep h
  · intro s1 x h1
    refine foldl_holds (RegsHeld b) ?_ ?_
    · exact h1
    · intro s2 x1 h2
      split
      · exact regs_takePending h2
      · exact h2

theorem regs_farDrop {s : State} {f : Far} (h : RegsHeld b s) :
    RegsHeld b (farDrop s f) := by
  unfold farDrop
  exact regs_trimOrd (regs_keep h)

theorem regs_farFail {s : State} {f : Far} (h : RegsHeld b s) :
    RegsHeld b (farFail s f) := by
  unfold farFail
  split
  · exact h
  · split
    · split
      · exact regs_modGroup h
      · exact regs_raiseTrap (regs_modGroup h)
    · exact regs_raiseParked (regs_modGroup (regs_modGroup h))
/-! A far access that is lost with its link. -/

theorem regs_busRead {s : State} {who : Who} {pa n : Nat} (h : RegsHeld b s) : RegsHeld b (busRead s who pa n).2.2 := by
  unfold busRead
  split
  · exact h
  · exact regs_readMem h

theorem regs_busPut {s : State} {who : Who} {pa : Nat} {bs : List Byte} (h : RegsHeld b s) (hpa : areaOf pa ≠ .regs) :
    RegsHeld b (busPut s who pa bs) := by
  unfold busPut
  rw [if_neg hpa]
  exact regs_writeMem h

theorem regs_farHome {s : State} {f : Far} (h : RegsHeld b s) (hpa : areaOf f.pa ≠ .regs) : RegsHeld b (farHome s f).1 := by
  unfold farHome
  split
  · exact regs_busRead h
  · exact regs_busPut h hpa
  · dsimp only
    split
    · exact regs_busPut (regs_busRead h) hpa
    · exact regs_busRead h
  · dsimp only
    split
    · exact regs_busPut (regs_busRead h) hpa
    · exact regs_busRead h

theorem regs_farOrder {s0 s : State} {f : Far} {wrote : Option Bool} {v : View} (h0 : RegsHeld b s0) (h : RegsHeld b s) :
    RegsHeld b (farOrder s0 s f wrote v) := by
  have hrec : RegsHeld b (match wrote with
      | none => s
      | some rmw => recordWrite s0 s f rmw) := by
    cases wrote with
    | none => exact h
    | some rmw => exact regs_recordWrite h0 h
  unfold farOrder
  dsimp only
  exact regs_trimOrd (regs_keep (regs_addJoin (iteInduction (fun _ => hrec) fun _ => regs_modGroup hrec)))

theorem regs_farLose {s : State} {f : Far} (h : RegsHeld b s) (hpa : areaOf f.pa ≠ .regs) : RegsHeld b (farLose s f) := by
  unfold farLose
  split
  · exact regs_farDrop h
  · split
    · exact regs_farDrop (regs_tick h)
    · split
      · exact regs_farOrder (regs_keep h) (regs_farHome (regs_keep h) hpa)
      · exact regs_keep h

end Sys2Proof.Machine
end

section
/-! PROOFS. Power, links and the event log. -/

set_option Elab.async false

namespace Sys2Proof.Machine

/-! The stored bytes of a sector write, in any machine. -/

theorem isPend_openLines (s : State) (l n m : Nat) :
    isPend ((List.range n).foldl (fun s i => openLine s (l + i)) s) m = (decide (m < l ∨ l + n ≤ m) && isPend s m) := by
  induction n with
  | zero => simp; omega
  | succ n ih =>
    rw [List.range_succ, List.foldl_concat, isPend_openLine, ih]
    by_cases hm : m = l + n
    · simp [hm]
    · have hiff : (m < l ∨ l + (n + 1) ≤ m) ↔ m < l ∨ l + n ≤ m := by omega
      simp [hm, hiff]

theorem look_sectorWrite (s : State) {pa i : Nat} {bs : List Byte} (hi : i < bs.length) :
    look (sectorWrite s pa bs) (pa + i) = bs.getD i 0 := by
  have hopen : isPend (sectorWrite s pa bs) ((pa + i) / 128) = false := by
    refine (isPend_openLines s (pa / 128) ((pa + bs.length + 127) / 128 - pa / 128) ((pa + i) / 128)).trans ?_
    rw [decide_eq_false (by omega), Bool.false_and]
  rw [look, hopen]
  refine (pokeBytes_mem _ pa bs (pa + i)).trans ?_
  rw [if_pos (by omega), Nat.add_sub_cancel_left]

theorem clean_sectorWrite (s : State) {pa i : Nat} {bs : List Byte} (hi : i < bs.length) :
    CleanByte (sectorWrite s pa bs) (pa + i) := fun _ => by
  show (stGet (stClear _ _ _) _).getLsbD 32 = false
  rw [stGet_clear, if_pos (by omega)]
  rfl

/-- A part of a number written with a sector write. -/
theorem peek_sectorWrite (s : State) (pa x n : Nat) {i k : Nat} (h : i + k ≤ n) :
    peek (sectorWrite s pa (bytesOf x n)) (pa + i) k = x / 256 ^ i % 256 ^ k := by
  rw [peek, peekBytes_clean fun j hj => by
    rw [Nat.add_assoc]
    exact clean_sectorWrite s (by simp; omega), ← ofBytes_bytesOf]
  refine congrArg ofBytes (List.map_congr_left fun j hj => ?_)
  have hj := List.mem_range.1 hj
  have hin : i + j < (bytesOf x n).length := by simp; omega
  rw [Nat.add_assoc, look_sectorWrite s hin, List.getD_eq_getElem _ _ hin]
  simp [bytesOf, pow_add, Nat.div_div_eq_div_mul]

/-! The event log (R462). -/

theorem pkgReg_setPkgReg (s : State) (n x : Nat) : pkgReg (setPkgReg s n x) n = x % 2 ^ 64 := by
  simp [pkgReg, setPkgReg, stGet_set]

theorem pkgReg_setPkgReg_other (s : State) {n m : Nat} (x : Nat) (h : m ≠ n) : pkgReg (setPkgReg s n x) m = pkgReg s m := by
  simp [pkgReg, setPkgReg, stGet_set_other _ _ _ _ h]

theorem mem_raiseMsix (s : State) (ld vec : Nat) : (ld, vec) ∈ (raiseMsix s ld vec).msix := by
  unfold raiseMsix
  split
  · next h => simpa using h
  · simp

theorem peek_raiseMsix (s : State) (ld vec pa k : Nat) : peek (raiseMsix s ld vec) pa k = peek s pa k := by
  unfold raiseMsix
  split <;> rfl

theorem peek_setPkgReg (s : State) (n x pa k : Nat) : peek (setPkgReg s n x) pa k = peek s pa k := rfl

theorem preg_raiseMsix (s : State) (ld vec : Nat) : (raiseMsix s ld vec).preg = s.preg := by
  unfold raiseMsix
  split <;> rfl

theorem mem_raiseMsix_eq (s : State) (ld vec : Nat) : (raiseMsix s ld vec).mem = s.mem := by
  unfold raiseMsix
  split <;> rfl

theorem pkgReg_raiseMsix (s : State) (ld vec n : Nat) : pkgReg (raiseMsix s ld vec) n = pkgReg s n := by
  rw [pkgReg, preg_raiseMsix]; rfl

/-- The record of an event. -/
def eventWord (s : State) (kind cause detail ld addr aux : Nat) : Nat :=
  kind + cause * 2 ^ 8 + detail % 256 * 2 ^ 16 + ld * 2 ^ 28 + addr % 2 ^ 64 * 2 ^ 64 + aux % 2 ^ 64 * 2 ^ 128 + s.cycle % 2 ^ 64 * 2 ^ 192

theorem power_of_view {s t : State} (h : view ⟨false, false⟩ s = view ⟨false, false⟩ t) : s.power = t.power :=
  congrArg (fun v => v.rest.power) h

theorem teams_of_view {s t : State} (h : view ⟨false, false⟩ s = view ⟨false, false⟩ t) : s.teams = t.teams :=
  congrArg (fun v => v.rest.teams) h

section log
variable {s : State} {kind cause detail ld addr aux : Nat}

/-- An event that the ring has room for. -/
theorem logEvent_room (h : (pkgReg s 0x81A + 2 ^ 64 - pkgReg s 0x81B) % 2 ^ 32 < pkgReg s 0x819) : ∃ u,
    logEvent s kind cause detail ld addr aux = raiseMsix (setPkgReg
      (sectorWrite u (pkgReg s 0x818 + 32 * (pkgReg s 0x81A % pkgReg s 0x819)) (bytesOf (eventWord s kind cause detail ld addr aux) 32))
      0x81A ((pkgReg s 0x81A + 1) % 2 ^ 32)) 0 2 :=
  ⟨_, by unfold logEvent; dsimp only; rw [if_pos h]; rfl⟩

/-- An event that it has none for. -/
theorem logEvent_full (h : ¬(pkgReg s 0x81A + 2 ^ 64 - pkgReg s 0x81B) % 2 ^ 32 < pkgReg s 0x819) :
    logEvent s kind cause detail ld addr aux = setPkgReg s 0x81C (pkgReg s 0x81C + 1) := by
  unfold logEvent; dsimp only; rw [if_neg h]

/-- What a record of the ring reads as. -/
theorem peek_logEvent (h : (pkgReg s 0x81A + 2 ^ 64 - pkgReg s 0x81B) % 2 ^ 32 < pkgReg s 0x819) {i k : Nat} (hik : i + k ≤ 32) :
    peek (logEvent s kind cause detail ld addr aux) (pkgReg s 0x818 + 32 * (pkgReg s 0x81A % pkgReg s 0x819) + i) k =
      eventWord s kind cause detail ld addr aux / 256 ^ i % 256 ^ k := by
  obtain ⟨u, hu⟩ := logEvent_room (kind := kind) (cause := cause) (detail := detail) (ld := ld) (addr := addr) (aux := aux) h
  rw [hu, peek_raiseMsix, peek_setPkgReg]
  exact peek_sectorWrite u _ _ 32 hik

theorem view_logEvent (L : Span) : view L (logEvent s kind cause detail ld addr aux) = view L s :=
  same_logEvent (rfl : Same L (view L s) s)

theorem power_logEvent : (logEvent s kind cause detail ld addr aux).power = s.power := power_of_view (view_logEvent _)

theorem teams_logEvent : (logEvent s kind cause detail ld addr aux).teams = s.teams := teams_of_view (view_logEvent _)

end log

/-- A record of the event log, or a lost one. -/
theorem eventLogged (s : State) (kind cause detail ld addr aux : Nat) :
    let u := logEvent s kind cause detail ld addr aux
    let prod := pkgReg s 0x81A
    let at' := pkgReg s 0x818 + 32 * (prod % pkgReg s 0x819)
    ((prod + 2 ^ 64 - pkgReg s 0x81B) % 2 ^ 32 < pkgReg s 0x819 → kind < 2 ^ 8 → cause < 2 ^ 8 → ld < 16 →
      peek u at' 1 = kind ∧ peek u (at' + 1) 1 = cause ∧ peek u (at' + 2) 1 = detail % 256 ∧ peek u (at' + 3) 1 = 16 * ld ∧
      peek u (at' + 4) 4 = 0 ∧ peek u (at' + 8) 8 = addr % 2 ^ 64 ∧ peek u (at' + 16) 8 = aux % 2 ^ 64 ∧
      peek u (at' + 24) 8 = s.cycle % 2 ^ 64 ∧ pkgReg u 0x81A = (prod + 1) % 2 ^ 32 ∧ (0, 2) ∈ u.msix) ∧
    (¬(prod + 2 ^ 64 - pkgReg s 0x81B) % 2 ^ 32 < pkgReg s 0x819 →
      pkgReg u 0x81C = (pkgReg s 0x81C + 1) % 2 ^ 64 ∧ pkgReg u 0x81A = prod ∧ u.mem = s.mem) := by
  dsimp only
  refine ⟨fun h hk hc hl => ?_, fun h => ?_⟩
  · obtain ⟨u, hu⟩ := logEvent_room (kind := kind) (cause := cause) (detail := detail) (ld := ld) (addr := addr) (aux := aux) h
    have hpeek {i k : Nat} (hik : i + k ≤ 32) := peek_logEvent (kind := kind) (cause := cause) (detail := detail) (ld := ld) (addr := addr)
      (aux := aux) h hik
    have ha := Nat.mod_lt addr (show 2 ^ 64 > 0 by decide)
    have hx := Nat.mod_lt aux (show 2 ^ 64 > 0 by decide)
    have ht := Nat.mod_lt s.cycle (show 2 ^ 64 > 0 by decide)
    have hd := Nat.mod_lt detail (show 256 > 0 by decide)
    have h0 := hpeek (i := 0) (k := 1) (by decide)
    rw [Nat.add_zero] at h0
    refine ⟨h0.trans ?_, (hpeek (by decide)).trans ?_, (hpeek (by decide)).trans ?_, (hpeek (by decide)).trans ?_, (hpeek (by decide)).trans ?_,
      (hpeek (by decide)).trans ?_, (hpeek (by decide)).trans ?_, (hpeek (by decide)).trans ?_, ?_, ?_⟩
    iterate 8
      unfold eventWord
      generalize addr % 2 ^ 64 = a at *
      generalize aux % 2 ^ 64 = x at *
      generalize s.cycle % 2 ^ 64 = t at *
      generalize detail % 256 = d at *
      omega
    · rw [hu, pkgReg_raiseMsix, pkgReg_setPkgReg]
      omega
    · rw [hu]
      exact mem_raiseMsix _ 0 2
  · rw [logEvent_full h, pkgReg_setPkgReg, pkgReg_setPkgReg_other _ _ (by decide)]
    exact ⟨rfl, rfl, rfl⟩

/-! Power and package reset (R9, R11, R12, R440). -/

theorem mem_powered (s : State) (on : Bool) (a : Nat) : stGet (powered s on).mem a = if isHbm a = true then 0 else stGet s.mem a := by
  show stGet (s.mem.filter fun c => !isHbm c.1) a = _
  generalize s.mem = m
  induction m with
  | nil => simp [stGet]
  | cons c r ih =>
    obtain ⟨n, x⟩ := c
    by_cases hn : isHbm n = true <;> by_cases ha : a = n
    · subst ha
      simpa [hn, stGet] using ih
    · simpa [hn, stGet, ha] using ih
    · subst ha
      simp [hn, stGet]
    · simpa [hn, stGet, ha] using ih

/-- The package as it is powered on or off. -/
theorem powered_spec (s : State) (on : Bool) : (powered s on).power.on = on ∧ (powered s on).power.halted = false ∧ (powered s on).teams = [] ∧
    (powered s on).grids = [] ∧ (powered s on).preg = State.reset.preg ∧ (powered s on).lds = State.reset.lds :=
  ⟨rfl, rfl, rfl, rfl, rfl, rfl⟩

theorem mem_mediumWrite (s : State) (w : DriveWrite) : (mediumWrite s w).mem = s.mem := rfl

theorem mem_drivePowerLoss (s : State) : (drivePowerLoss s).mem = s.mem := by
  unfold drivePowerLoss
  refine foldl_holds (fun t : State => t.mem = s.mem) rfl fun t w ht => ?_
  split
  · exact ht
  · split
    · exact ht
    · exact ht

theorem exec_powerOn {s : State} (hoff : s.power.on = false) : exec .powerOn s = .next (powered s true) :=
  congrArg Host.Outcome.next (if_neg (by simp [hoff]))

theorem exec_powerDown {s : State} (hon : s.power.on = true) : exec .powerDown s = .next (powered (drivePowerLoss s) false) := by
  rw [show exec .powerDown s = .next (if s.power.on then powered (drivePowerLoss s) false else s) from rfl, if_pos hon]

/-- The package as it comes up, and as it waits for its hot dies. -/
theorem packageReset_of_on {s : State} (hon : s.power.on = true) :
    packageReset s = if s.power.hotDies = [] then packageBoot (packageStop s) else packageStop s := by
  simp [packageReset, hon, packageCool, packageStop, List.isEmpty_iff]

theorem isPend_packageBoot (s : State) {line : Nat} (h : line < 2 ^ 32) : isPend (packageBoot s) line = true := by
  simp [isPend, packageBoot]
  omega

theorem pkgrst_reset (s : State) : exec (.pkgrst 0x52535445) s = .next (packageReset s) := rfl

theorem pkgrst_other {s : State} {v : DWord} (h : v ≠ 0x52535445) : exec (.pkgrst v) s = .next s := by
  have hv : ¬((0 : Nat) = 0 ∧ Who.host 0 = .host 0 ∧ v = 0x52535445#64) := fun hh => h hh.2.2
  exact congrArg Host.Outcome.next (if_neg hv)

theorem exec_dieCooled {s : State} (hon : s.power.on = true) (die : Nat) : exec (.dieCooled die) s =
    .next (packageCool { s with power := { s.power with hotDies := s.power.hotDies.filter fun d => d != die } }) :=
  congrArg Host.Outcome.next (if_pos hon)

/-! Hot dies (R10). -/

theorem mem_dieHot (s : State) (die : Nat) : die ∈ (dieHot s die).power.hotDies := by
  unfold dieHot
  split
  · next h => simpa using h
  · simp

theorem halted_dieHot (s : State) (die : Nat) : (dieHot s die).power.halted = s.power.halted := by
  unfold dieHot
  split <;> rfl

theorem teams_dieHot (s : State) (die : Nat) : (dieHot s die).teams = s.teams := by
  unfold dieHot
  split <;> rfl

theorem power_raiseMsix (s : State) (ld vec : Nat) : (raiseMsix s ld vec).power = s.power := by
  unfold raiseMsix
  split <;> rfl

theorem teams_raiseMsix (s : State) (ld vec : Nat) : (raiseMsix s ld vec).teams = s.teams := by
  unfold raiseMsix
  split <;> rfl

theorem power_thermalEvent (s : State) (die detail : Nat) : (thermalEvent s die detail).power = s.power :=
  (power_raiseMsix _ 0 3).trans power_logEvent

theorem teams_thermalEvent (s : State) (die detail : Nat) : (thermalEvent s die detail).teams = s.teams :=
  (teams_raiseMsix _ 0 3).trans teams_logEvent

theorem msix_thermalEvent (s : State) (die detail : Nat) : (0, 3) ∈ (thermalEvent s die detail).msix := mem_raiseMsix _ 0 3

theorem exec_thermalIssueLimit {s : State} {die : Nat} (hon : s.power.on = true) (hh : s.power.halted = false) (hd : die < 4)
    (hn : die ∉ s.power.hotDies) : exec (.thermalIssueLimit die) s = .next (thermalEvent (dieHot s die) die 0) := by
  have hskip : ¬((!s.power.on || decide (4 ≤ die) || s.power.hotDies.contains die) = true) := by simpa [hon, hn] using hd
  exact congrArg Host.Outcome.next ((if_neg hskip).trans (if_neg (show ¬(dieHot s die).power.halted = true by simp [halted_dieHot, hh])))

/-- A package that halts. -/
def haltedNow (s : State) : State := { s with power := { s.power with halted := true }, issuing := none }

theorem haltedNow_spec (s : State) : (haltedNow s).power.halted = true ∧ (haltedNow s).power.hotDies = s.power.hotDies ∧
    (haltedNow s).msix = s.msix ∧ (haltedNow s).issuing = none := ⟨rfl, rfl, rfl, rfl⟩

theorem exec_thermalHalt {s : State} {die : Nat} (hon : s.power.on = true) (hh : s.power.halted = false) (hd : die < 4) :
    exec (.thermalHalt die) s = .next (haltedNow (thermalEvent (dieHot s die) die 1)) := by
  have hskip : ¬((!s.power.on || decide (4 ≤ die)) = true) := by simpa [hon] using hd
  have hgoes : ¬(dieHot s die).power.halted = true := by simp [halted_dieHot, hh]
  exact congrArg Host.Outcome.next ((if_neg hskip).trans (if_neg hgoes))

/-! Links (R450, R463). -/

section links
variable {s : State} {port : Nat}

theorem agent_of_running (hrun : Running s) (f : State → State) : agent s f = .next (f s) := by
  rw [agent, hrun.1, hrun.2]; rfl

theorem exec_powerLimitExceeded (hrun : Running s) :
    exec .powerLimitExceeded s = .next { s with power := { s.power with limited := true } } :=
  agent_of_running hrun fun s => { s with power := { s.power with limited := true } }

theorem exec_powerDrawWithinLimit (hrun : Running s) :
    exec .powerDrawWithinLimit s = .next { s with power := { s.power with limited := false } } :=
  agent_of_running hrun fun s => { s with power := { s.power with limited := false } }

theorem exec_expanderLinkDown (hrun : Running s) (hp : port < 4) : exec (.expanderLinkDown port) s = .next (linkLost s port) := by
  rw [show exec (.expanderLinkDown port) s = agent s fun s => if port < 4 then linkLost s port else s from rfl, agent_of_running hrun,
    if_pos hp]

theorem linkLost_idle (h : pkgReg s (0x820 + port) % 2 = 0) : linkLost s port = s := if_pos h

/-- A link that goes down leaves its register at 0, whatever becomes of the accesses through it. -/
theorem pkgReg_linkLost (hp : port < 4) (h : pkgReg s (0x820 + port) % 2 = 1) : pkgReg (linkLost s port) (0x820 + port) = 0 := by
  have hdown : RegsHeld (stGet (setPkgReg s (0x820 + port) 0).preg) (linkLost s port) := by
    unfold linkLost
    rw [if_neg (by omega)]
    refine regs_farWake (List.foldlRecOn (motive := RegsHeld _) _ _ (regs_logEvent (RegsHeld.rfl _)) fun t ht f hf => ?_)
    split
    · refine regs_farFail (regs_farLose ht fun harea => ?_)
      have hport := (List.mem_filter.1 hf).2
      simp [portOf, harea] at hport
    · exact ht
  rw [pkgReg, hdown _ (by omega) (by omega) (by omega)]
  exact pkgReg_setPkgReg s _ 0

theorem exec_explink (hrun : Running s) (hp : port < 4) (v : DWord) (hv : v.toNat ≤ 1) :
    exec (.explink port v) s = .next (privWrite s 0 (0x820 + port) v.toNat 0) := by
  refine (agent_of_running hrun _).trans (congrArg Host.Outcome.next (if_pos ⟨hp, ?_⟩))
  obtain rfl | rfl | rfl | rfl : port = 0 ∨ port = 1 ∨ port = 2 ∨ port = 3 := by omega
  all_goals exact decide_eq_true hv

theorem privWrite_link (hp : port < 4) (v : Nat) : privWrite s 0 (0x820 + port) v 0 =
    if v = 1 ∧ pkgReg s (0x820 + port) = 0 then { s with retrain := if s.retrain.contains port then s.retrain else port :: s.retrain } else s := by
  unfold privWrite
  rw [if_neg (by omega), if_neg (by omega), if_pos (by omega), Nat.add_sub_cancel_left]

theorem mem_retrain (s : State) (port : Nat) : port ∈ (if s.retrain.contains port then s.retrain else port :: s.retrain) := by
  split
  · next h => simpa using h
  · simp

theorem exec_expanderLinkTrained (hrun : Running s) (hp : port < 4) : exec (.expanderLinkTrained port) s =
    .next (if s.retrain.contains port then { setPkgReg s (0x820 + port) 1 with retrain := s.retrain.filter fun p => p != port } else s) := by
  refine (agent_of_running hrun _).trans (congrArg Host.Outcome.next ?_)
  simp only [hp, true_and]

theorem mem_portChange (l : List Nat) (port p : Nat) (up : Bool) :
    p ∈ portChange l port up ↔ if p = port then up = true else p ∈ l := by
  unfold portChange
  cases up
  · by_cases h : p = port <;> simp [h]
  · by_cases h : p = port
    · subst h
      by_cases hin : p ∈ l <;> simp [hin]
    · by_cases hin : port ∈ l <;> simp [hin, h]

theorem exec_networkPort_eth (hon : s.power.on = true) (hp : port < 2) (up : Bool) :
    exec (.networkPortLinkChange true port up) s = .next { s with ethUp := portChange s.ethUp port up } := by
  refine congrArg Host.Outcome.next ?_
  simp only [hon, Bool.not_true, Bool.false_eq_true, if_false, if_true, hp]

theorem exec_networkPort_strait (hon : s.power.on = true) (hp : port < 36) (up : Bool) :
    exec (.networkPortLinkChange false port up) s = .next { s with straitUp := portChange s.straitUp port up } := by
  refine congrArg Host.Outcome.next ?_
  simp only [hon, Bool.not_true, Bool.false_eq_true, if_false, if_true, hp]

end links

/-! The obligation's clauses. -/

/-- The package after a reset (R12). -/
theorem booted_packageBoot (s t : State) (hm : t.mem = s.mem) : (packageBoot t).power.on = true ∧ (packageBoot t).power.halted = false ∧
    (packageBoot t).power.resetWait = false ∧ (packageBoot t).teams = [] ∧ (packageBoot t).grids = [] ∧
    (packageBoot t).preg = State.reset.preg ∧ (packageBoot t).lds = State.reset.lds ∧ (packageBoot t).mem = s.mem ∧
    (∀ line < 2 ^ 32, isPend (packageBoot t) line = true) ∧ (packageBoot t).issuing = none :=
  ⟨rfl, rfl, rfl, rfl, rfl, rfl, rfl, hm, fun _ h => isPend_packageBoot t h, rfl⟩

theorem exec_reset {s : State} {i : Instr} (hi : i = .cxlConventionalReset ∨ i = .pkgrst 0x52535445) (hon : s.power.on = true) :
    exec i s = .next (if s.power.hotDies = [] then packageBoot (packageStop s) else packageStop s) := by
  rw [← packageReset_of_on hon]
  rcases hi with rfl | rfl
  · rfl
  · exact pkgrst_reset s

theorem dieCooled_boots {s : State} {die : Nat} (hon : s.power.on = true) (hw : s.power.resetWait = true)
    (hall : ∀ d ∈ s.power.hotDies, d = die) : ∃ t, t.mem = s.mem ∧ exec (.dieCooled die) s = .next (packageBoot t) := by
  have hnone : (s.power.hotDies.filter fun d => d != die) = [] := List.filter_eq_nil_iff.2 fun d hd => by simp [hall d hd]
  refine ⟨{ s with power := { s.power with hotDies := s.power.hotDies.filter fun d => d != die } }, rfl, ?_⟩
  rw [exec_dieCooled hon]
  exact congrArg Host.Outcome.next (if_pos (by simp [hw, hnone]))

theorem dieCooled_waits {s : State} {die : Nat} (hon : s.power.on = true)
    (hw : s.power.resetWait = false ∨ ∃ d ∈ s.power.hotDies, d ≠ die) : exec (.dieCooled die) s =
      .next { s with power := { s.power with hotDies := s.power.hotDies.filter fun d => d != die } } := by
  rw [exec_dieCooled hon]
  refine congrArg Host.Outcome.next (if_neg ?_)
  rcases hw with hw | ⟨d, hd, hne⟩
  · simp [hw]
  · have hmem : d ∈ s.power.hotDies.filter fun d => d != die := List.mem_filter.2 ⟨hd, by simpa using hne⟩
    simp [List.ne_nil_of_mem hmem]

theorem issue_halted {s : State} (core q : Nat) (hh : s.power.halted = true) :
    exec (.issue core q) s = .next { s with cycle := s.cycle + 1 } := by
  have hskip : (!s.power.on || s.power.halted) = true := by simp [hh]
  exact congrArg Host.Outcome.next (if_pos hskip)

end Sys2Proof.Machine

open Sys2Proof Sys2Proof.Machine

/-- Settles O47: each event's effect, case by case; no memory, trap or far operation that follows a link's loss writes the link's
register, and a record of the log is a sector write whose bytes read back. -/
theorem powerLinksAndLog : Obligations.PowerLinksAndLog := by
  unfold Obligations.PowerLinksAndLog
  refine ⟨⟨fun s hoff => ?_, fun s hon => ?_, fun s i hi hon => ⟨fun hcool => ?_, fun hhot => ?_⟩, fun s v hv => pkgrst_other hv,
      fun s die hon => ⟨fun hw hall => ?_, fun hw => ?_⟩, fun s die hon hh hd => ⟨fun hn => ?_, ?_⟩,
      fun s hrun => ⟨exec_powerLimitExceeded hrun, exec_powerDrawWithinLimit hrun⟩, fun s core q hh => issue_halted core q hh⟩,
    fun s port hrun hp => ⟨fun hup => ?_, fun hdown => ?_, fun hdown => ?_, fun hup => ?_, ?_, fun hin => ?_, fun hout => ?_⟩,
    fun s port up hon => ⟨fun hp => ?_, fun hp => ?_⟩, eventLogged⟩
  · obtain ⟨h1, h2, h3, h4, h5, h6⟩ := powered_spec s true
    exact ⟨powered s true, exec_powerOn hoff, h1, h2, h3, h4, h5, h6, mem_powered s true⟩
  · obtain ⟨h1, -, h3, h4, -, -⟩ := powered_spec (drivePowerLoss s) false
    refine ⟨powered (drivePowerLoss s) false, exec_powerDown hon, h1, h3, h4, fun a => ?_⟩
    rw [mem_powered, mem_drivePowerLoss]
  · refine ⟨packageBoot (packageStop s), ?_, booted_packageBoot s _ rfl⟩
    rw [exec_reset hi hon, if_pos hcool]
  · refine ⟨packageStop s, ?_, ⟨rfl, rfl, rfl, rfl, rfl, rfl, rfl, rfl, rfl⟩, rfl⟩
    rw [exec_reset hi hon, if_neg hhot]
  · obtain ⟨t, hm, ht⟩ := dieCooled_boots hon hw hall
    exact ⟨_, ht, booted_packageBoot s t hm⟩
  · exact ⟨_, dieCooled_waits hon hw, rfl, rfl⟩
  · refine ⟨_, exec_thermalIssueLimit hon hh hd hn, ?_, ?_, ?_, msix_thermalEvent _ die 0⟩
    · rw [power_thermalEvent]
      exact mem_dieHot s die
    · rw [power_thermalEvent, halted_dieHot, hh]
    · rw [teams_thermalEvent, teams_dieHot]
  · obtain ⟨h1, h2, h3, h4⟩ := haltedNow_spec (thermalEvent (dieHot s die) die 1)
    refine ⟨_, exec_thermalHalt hon hh hd, h1, ?_, ?_, h4⟩
    · rw [h2, power_thermalEvent]
      exact mem_dieHot s die
    · rw [h3]
      exact msix_thermalEvent _ die 1
  · exact ⟨_, exec_expanderLinkDown hrun hp, pkgReg_linkLost hp hup⟩
  · rw [exec_expanderLinkDown hrun hp, linkLost_idle hdown]
  · refine ⟨_, exec_explink hrun hp 1 (by decide), ?_⟩
    rw [privWrite_link hp, if_pos ⟨by decide, hdown⟩]
    exact ⟨mem_retrain s port, hdown⟩
  · rw [exec_explink hrun hp 1 (by decide), privWrite_link hp, if_neg fun h => hup h.2]
  · rw [exec_explink hrun hp 0 (by decide), privWrite_link hp, if_neg (by simp)]
  · refine ⟨_, exec_expanderLinkTrained hrun hp, ?_⟩
    rw [if_pos (by simpa using hin)]
    exact ⟨pkgReg_setPkgReg s _ 1, by simp, rfl⟩
  · rw [exec_expanderLinkTrained hrun hp, if_neg (by simpa using hout)]
  · refine ⟨_, exec_networkPort_eth hon hp up, (mem_portChange ..).trans (by simp), fun p hne => (mem_portChange ..).trans (by simp [hne]), rfl⟩
  · refine ⟨_, exec_networkPort_strait hon hp up, (mem_portChange ..).trans (by simp), fun p hne => (mem_portChange ..).trans (by simp [hne]),
      rfl⟩

end

section
/-! PROOFS. Far accesses that time out or are refused: the lanes are parked, and the trap is held or taken. -/

set_option Elab.async false

namespace Sys2Proof.Machine

/-! Held traps. -/

/-- No group but one holds a trap that is still to be taken. -/
def HeldOnly (r : GroupRef) (s : State) : Prop := ∀ t ∈ s.teams, ∀ g ∈ t.groups, g.pendTrap.isSome = true → (⟨t.r, g.id⟩ : GroupRef) = r

theorem heldOnly_of_none {s : State} (h : NoneHeld s) (r : GroupRef) : HeldOnly r s := fun t ht g hg hp => by
  rw [h t ht g hg] at hp
  cases hp

theorem pendTrap_of_none {s : State} (h : NoneHeld s) {r : GroupRef} {g : Group} (hg : groupOf s r = some g) : g.pendTrap = none := by
  obtain ⟨t, ht, hgt⟩ := Option.bind_eq_some_iff.1 hg
  exact h t (List.mem_of_find?_eq_some ht) g (List.mem_of_find?_eq_some hgt)

/-- A change of the group that keeps its number. -/
theorem HeldOnly.modGroup {r : GroupRef} {s : State} (h : HeldOnly r s) (f : Group → Group) (hid : ∀ g, (f g).id = g.id) :
    HeldOnly r (modGroup s r f) := by
  intro t' ht' g' hg' hp
  obtain ⟨t, ht, rfl⟩ := List.mem_map.1 ht'
  by_cases hr : (t.r == r.team) = true
  · rw [if_pos hr] at hg' ⊢
    obtain ⟨g, hg, rfl⟩ := List.mem_map.1 hg'
    by_cases hn : (g.id == r.g) = true
    · rw [if_pos hn, hid]
      show (⟨t.r, g.id⟩ : GroupRef) = r
      rw [eq_of_beq hr, eq_of_beq hn]
    · rw [if_neg hn] at hp ⊢
      exact h t ht g hg hp
  · rw [if_neg hr] at hg' ⊢
    exact h t ht g' hg' hp

/-! What a far access's end brings to the entries that wait for it. -/

/-- Is an entry's far wait over. -/
def farOver (s : State) (e : Entry) : Bool := e.waits fun w => match w with
  | .far ids => (pending s ids).isEmpty
  | _ => false

/-- A group whose entries that waited for it go on. -/
def farWoken (s : State) (g : Group) : Group :=
  if (g.frontier ++ (g.handler.map Handler.frontier).getD []).any (farOver s) then wakeIf (farOver s) g else g

/-- The machine in which they do. -/
def farMoved (s : State) : State := { s with teams := s.teams.map fun t => { t with groups := t.groups.map (farWoken s) } }

theorem farWake_eq (s : State) : farWake s = (farMoved s).teams.foldl (fun s t => t.groups.foldl (fun s g =>
    if g.pendTrap.isSome then takePending s ⟨t.r, g.id⟩ else s) s) (farMoved s) := rfl

theorem farWoken_cases (s : State) (g : Group) : farWoken s g = g ∨ farWoken s g = wakeIf (farOver s) g := by
  unfold farWoken
  split
  · exact .inr rfl
  · exact .inl rfl

theorem id_farWoken (s : State) (g : Group) : (farWoken s g).id = g.id := by
  rcases farWoken_cases s g with h | h <;> rw [h]; rfl

theorem pendTrap_farWoken (s : State) (g : Group) : (farWoken s g).pendTrap = g.pendTrap := by
  rcases farWoken_cases s g with h | h <;> rw [h]; rfl

theorem outst_farWoken (s : State) (g : Group) : (farWoken s g).outst = g.outst := by
  rcases farWoken_cases s g with h | h <;> rw [h]; rfl

theorem v_farWoken (s : State) (g : Group) : (farWoken s g).v = g.v := by
  rcases farWoken_cases s g with h | h <;> rw [h]; rfl

/-- A parked entry stays in the frontier of a group that holds a trap or runs a handler. -/
theorem parked_farWoken {s : State} {g : Group} {m : LaneMask} {pc : Ptr} {prio : BitVec 8} {cause detail : Nat} {addr : Ptr}
    (hg : g.handler.isSome = true ∨ g.pendTrap.isSome = true) (h : Parked g m pc prio cause detail addr) :
    Parked (farWoken s g) m pc prio cause detail addr := by
  rcases farWoken_cases s g with hw | hw
  · rwa [hw]
  · obtain ⟨e, he, hm, hpc, hprio, lane, hst⟩ := h
    have hmeet : (wakeIf (farOver s) g).frontier = meetList (farOver s) g.frontier := if_pos (by simpa using hg)
    refine ⟨e, ?_, hm, hpc, hprio, lane, hst⟩
    rw [hw, hmeet]
    exact List.mem_map.2 ⟨e, he, by rw [hst]⟩

/-- Where only one group may hold a trap and it holds none that it could take, the wake takes no trap. -/
theorem farWake_eq_moved {s : State} {r : GroupRef} {g : Group} (hg : groupOf s r = some g) (honly : HeldOnly r s)
    (hkeep : g.pendTrap = none ∨ awaitsFar g = true) : farWake s = farMoved s ∧ groupOf (farMoved s) r = some (farWoken s g) := by
  have hgroup : groupOf (farMoved s) r = some (farWoken s g) := by
    obtain ⟨t, ht, hgt⟩ := Option.bind_eq_some_iff.1 hg
    have hteam : teamOf (farMoved s) r.team = some { t with groups := t.groups.map (farWoken s) } := by
      refine (List.find?_map ..).trans ?_
      exact congrArg (Option.map _) ht
    exact Option.bind_eq_some_iff.2 ⟨_, hteam, groupIn_map (id_farWoken s) hgt⟩
  refine ⟨?_, hgroup⟩
  have hnot : takePending (farMoved s) r = farMoved s := by
    unfold takePending
    rw [hgroup]
    rcases hkeep with hnone | hfar
    · simp [pendTrap_farWoken, hnone]
    · have hawait : awaitsFar (farWoken s g) = true := by rwa [awaitsFar, outst_farWoken]
      simp [hawait]
      split <;> rfl
  rw [farWake_eq]
  refine List.foldlRecOn (motive := fun u => u = farMoved s) _ _ rfl fun u hu t ht => ?_
  refine List.foldlRecOn (motive := fun u => u = farMoved s) _ _ hu fun u hu q hq => ?_
  subst hu
  split
  · next hp =>
    obtain ⟨t0, ht0, rfl⟩ := List.mem_map.1 ht
    obtain ⟨q0, hq0, rfl⟩ := List.mem_map.1 hq
    have hr : (⟨t0.r, (farWoken s q0).id⟩ : GroupRef) = r := by
      rw [id_farWoken]
      exact honly t0 ht0 q0 hq0 (by rwa [pendTrap_farWoken] at hp)
    rw [hr]
    exact hnot
  · rfl

/-! The lanes of an access that failed. -/

theorem liveLanes_eq (g : Group) : g.frontier.foldl (fun m e => m ||| e.mask) 0 = liveLanes g := rfl

/-- The lanes of the access are parked at its instruction (R163, R294). -/
theorem parked_parkFar {f : Far} {g : Group} (hlanes : f.lanes ≠ 0) (hlive : f.lanes &&& liveLanes g = f.lanes) :
    Parked (parkFar f g) f.lanes f.pc f.prio cFARTIMEOUT 0 f.ptr := by
  have hpull : farPull f cFARTIMEOUT g.frontier =
      ((g.frontier.map fun e => { e with mask := e.mask &&& ~~~f.lanes }).filter fun e => e.mask != 0) ++
        [⟨f.pc, f.prio, f.lanes, 0, .parked cFARTIMEOUT 0 f.ptr (lowest f.lanes)⟩] := by
    unfold farPull
    dsimp only
    rw [liveLanes_eq, hlive, if_neg hlanes]
  have hin : (⟨f.pc, f.prio, f.lanes, 0, .parked cFARTIMEOUT 0 f.ptr (lowest f.lanes)⟩ : Entry) ∈ (parkFar f g).frontier := by
    unfold parkFar
    dsimp only
    split
    · next heq =>
      rw [← heq, hpull]
      simp
    · show _ ∈ farPull f cFARTIMEOUT g.frontier
      rw [hpull]
      simp
  exact ⟨_, hin, rfl, rfl, rfl, _, rfl⟩

/-- What parking leaves of a group. -/
theorem parkFar_spec (f : Far) {g : Group} (hp : g.pendTrap = none) : (parkFar f g).id = g.id ∧ (parkFar f g).v = g.v ∧
    (parkFar f g).outst = g.outst ∧ (parkFar f g).handler = g.handler ∧ (parkFar f g).pendTrap = none := by
  unfold parkFar
  dsimp only
  split
  · exact ⟨rfl, rfl, rfl, rfl, hp⟩
  · exact ⟨rfl, rfl, rfl, rfl, rfl⟩

theorem id_parkFar (f : Far) (g : Group) : (parkFar f g).id = g.id := by
  unfold parkFar
  dsimp only
  split <;> rfl

/-- A frontier with a parked entry has a trap to raise. -/
theorem exists_parkTrap {fs : List Entry} {e : Entry} (he : e ∈ fs) (hpark : (parkTrap e).isSome = true) :
    ∃ x, (topEntry (fs.filter fun e => (parkTrap e).isSome)).bind parkTrap = some x := by
  have hne : fs.filter (fun e => (parkTrap e).isSome) ≠ [] := List.ne_nil_of_mem (List.mem_filter.2 ⟨he, hpark⟩)
  obtain ⟨y, hy⟩ : ∃ y, topEntry (fs.filter fun e => (parkTrap e).isSome) = some y :=
    Option.ne_none_iff_exists'.1 fun hnone => hne (topEntry_none hnone)
  have hin := (topEntry_spec _ hy).1
  obtain ⟨x, hx⟩ := Option.isSome_iff_exists.1 (List.mem_filter.1 hin).2
  exact ⟨x, by rw [hy]; exact hx⟩

/-- What becomes of the group of an access that failed: its lanes are parked, the access is owed no more, and the trap has been taken, or
is held for the far results still to come. -/
structure FailedTo (s t : State) (f : Far) (g : Group) (g' : Group) : Prop where
  group : groupOf t f.r = some g'
  only : HeldOnly f.r t
  held : g'.pendTrap = none ∧ g'.handler.isSome = true ∨ g'.pendTrap.isSome = true ∧ awaitsFar g' = true
  v : g'.v = g.v
  owed : owes g' f.id = false
  parked : Parked g' f.lanes f.pc f.prio cFARTIMEOUT 0 f.ptr
  mem : t.mem = s.mem
  far : t.far = s.far
  cycle : s.cycle ≤ t.cycle

theorem owes_settled (id : Nat) (g : Group) : owes (settled id g) id = false := by
  simp [owes, settled]

theorem le_lastDue (g : Group) (now : Nat) : now ≤ lastDue g now := by
  unfold lastDue
  refine List.foldlRecOn (motive := fun m => now ≤ m) _ _ le_rfl fun m hm o _ => ?_
  split
  · exact le_max_of_le_left hm
  · exact hm

theorem farFail_parks {s : State} {f : Far} {g : Group} (hg : groupOf s f.r = some g) (hh : g.handler = none) (hhand : f.hand = false)
    (hlanes : f.lanes ≠ 0) (hlive : f.lanes &&& liveLanes g = f.lanes) (hpc : qbWord s f.r.team.ld 0x260 ≠ 0) (hnone : NoneHeld s) :
    ∃ g', FailedTo s (farFail s f) f g g' := by
  have hp := pendTrap_of_none hnone hg
  have hset : groupOf (modGroup s f.r (settled f.id)) f.r = some (settled f.id g) := groupOf_modGroup_some _ (fun _ h => h) hg
  obtain ⟨s1, hs1⟩ : ∃ s1, s1 = modGroup (modGroup s f.r (settled f.id)) f.r (parkFar f) := ⟨_, rfl⟩
  obtain ⟨g1, hg1⟩ : ∃ g1, g1 = parkFar f (settled f.id g) := ⟨_, rfl⟩
  have hgs1 : groupOf s1 f.r = some g1 := by
    rw [hs1, hg1]
    exact groupOf_modGroup_some _ (fun x hx => (id_parkFar f x).trans hx) hset
  obtain ⟨-, hv1, hout1, hh1, hp1⟩ := parkFar_spec f (g := settled f.id g) hp
  rw [← hg1] at hv1 hout1 hh1 hp1
  have hh1 : g1.handler = none := hh1.trans hh
  have hpark1 : Parked g1 f.lanes f.pc f.prio cFARTIMEOUT 0 f.ptr := by
    rw [hg1]
    exact parked_parkFar hlanes hlive
  have howe1 : owes g1 f.id = false := by
    rw [owes, hout1]
    exact owes_settled f.id g
  have honly1 : HeldOnly f.r s1 := by
    rw [hs1]
    exact ((heldOnly_of_none hnone f.r).modGroup (settled f.id) fun _ => rfl).modGroup _ (id_parkFar f)
  have hfail : farFail s f = raiseParked s1 f.r := by
    rw [hs1]
    unfold farFail
    rw [hg]
    dsimp only
    rw [if_neg (by rw [hhand]; decide)]
  obtain ⟨e, he, -, -, -, lane, hst⟩ := hpark1
  obtain ⟨x, hx⟩ := exists_parkTrap he (by simp [parkTrap, hst])
  have hpark1 : Parked g1 f.lanes f.pc f.prio cFARTIMEOUT 0 f.ptr := by
    rw [hg1]
    exact parked_parkFar hlanes hlive
  have hraise : farFail s f = raiseTrap s1 f.r x := hfail.trans (raiseParked_of hgs1 hh1 hp1 hx)
  have hmem1 : s1.mem = s.mem ∧ s1.far = s.far ∧ s1.cycle = s.cycle ∧ qbWord s1 f.r.team.ld 0x260 ≠ 0 := by
    rw [hs1]
    exact ⟨rfl, rfl, rfl, hpc⟩
  obtain ⟨hmem, hfar, hcyc, hpc1⟩ := hmem1
  by_cases haw : awaitsFar g1 = true
  · have hheld : farFail s f = modGroup s1 f.r fun g => { g with pendTrap := some x } := by
      rw [hraise, raiseTrap, hgs1]
      dsimp only
      rw [hh1]
      dsimp only
      rw [if_neg (by rw [hp1]; decide), if_pos haw]
    rw [hheld]
    exact ⟨{ g1 with pendTrap := some x }, groupOf_modGroup_some _ (fun _ h => h) hgs1, honly1.modGroup _ fun _ => rfl, .inr ⟨rfl, haw⟩, hv1,
      howe1, hpark1, hmem, hfar, le_of_eq hcyc.symm⟩
  · obtain ⟨t1, ht1, -⟩ := Option.bind_eq_some_iff.1 hgs1
    have henter : farFail s f = modGroup { s1 with cycle := lastDue g1 s1.cycle } f.r
        (enteredGroup s1 t1 x (qbWord s1 f.r.team.ld 0x260) (lastDue g1 s1.cycle)) := by
      rw [hraise, raiseTrap_of x hgs1 hh1 hp1 (by simpa using haw), enterTrap_of x ht1 hgs1 hpc1]
    rw [henter]
    exact ⟨enteredGroup s1 t1 x (qbWord s1 f.r.team.ld 0x260) (lastDue g1 s1.cycle) g1, groupOf_modGroup_some _ (fun _ h => h) hgs1,
      HeldOnly.modGroup honly1 _ fun _ => rfl, .inl ⟨rfl, rfl⟩, hv1, rfl, hpark1, hmem, hfar,
      hcyc ▸ le_lastDue g1 s1.cycle⟩

/-- What an access that failed comes to, once the waits for it are over. -/
theorem farFail_wakes {s t : State} {f : Far} {g g' : Group} (h : FailedTo s t f g g') : (farWake t).mem = s.mem ∧ (farWake t).far = s.far ∧
    s.cycle ≤ (farWake t).cycle ∧ ∃ q, groupOf (farWake t) f.r = some q ∧ q.v = g.v ∧ owes q f.id = false ∧
      Parked q f.lanes f.pc f.prio cFARTIMEOUT 0 f.ptr := by
  obtain ⟨hmoved, hgroup⟩ := farWake_eq_moved h.group h.only (h.held.imp And.left And.right)
  rw [hmoved]
  refine ⟨h.mem, h.far, h.cycle, _, hgroup, (v_farWoken ..).trans h.v, ?_, parked_farWoken (h.held.imp And.right And.left) h.parked⟩
  rw [owes, outst_farWoken]
  exact h.owed

theorem farDrop_spec (s : State) (f : Far) : (farDrop s f).mem = s.mem ∧ (farDrop s f).teams = s.teams ∧ (farDrop s f).cycle = s.cycle ∧
    (farDrop s f).lds = s.lds ∧ ∀ x ∈ (farDrop s f).far, x.id ≠ f.id := by
  refine ⟨rfl, rfl, rfl, rfl, fun x hx => ?_⟩
  have hx : x ∈ s.far.filter fun x => x.id != f.id := hx
  simpa using (List.mem_filter.1 hx).2

end Sys2Proof.Machine

open Sys2Proof Sys2Proof.Machine

/-- Settles O23: the access is dropped, its lanes are pulled out of the frontier into a parked entry, and the entry's trap is taken, or is
held until no far result is outstanding; the waits that end then leave the parked entry. -/
theorem farTimeouts : Obligations.FarTimeouts := by
  unfold Obligations.FarTimeouts
  intro s id f g hfind hg hh hhand hlive hpc hnone gone
  have hlanes : f.lanes ≠ 0 := by
    have hp := List.find?_some hfind
    simp only [Bool.and_eq_true, bne_iff_ne] at hp
    exact hp.1.2
  /- The access is dropped from a machine that differs from s in its cycle at most. -/
  have hdrop (u : State) (hm : u.mem = s.mem) (ht : u.teams = s.teams) (hl : u.lds = s.lds) :
      u.cycle ≤ (farWake (farFail (farDrop u f) f)).cycle ∧ gone (farWake (farFail (farDrop u f) f)) := by
    obtain ⟨hmem, hteams, hcyc, hlds, hfar⟩ := farDrop_spec u f
    have hgu : groupOf (farDrop u f) f.r = some g := by
      rw [groupOf, teamOf, hteams, ht]
      exact hg
    have hpcu : qbWord (farDrop u f) f.r.team.ld 0x260 ≠ 0 := by
      rw [qbWord, ldOf, hlds, hl]
      exact hpc
    have hnoneu : NoneHeld (farDrop u f) := by
      rw [NoneHeld, hteams, ht]
      exact hnone
    obtain ⟨g', hfail⟩ := farFail_parks hgu hh hhand hlanes hlive hpcu hnoneu
    obtain ⟨h1, h2, h3, q, hq⟩ := farFail_wakes hfail
    exact ⟨hcyc ▸ h3, h2 ▸ hfar, h1.trans (hmem.trans hm), q, hq⟩
  refine ⟨fun hport hload => ?_, fun hon hhalt hhost hready => ?_⟩
  · have hlose : farLose { s with cycle := max s.cycle f.due } f = farDrop { s with cycle := max s.cycle f.due } f :=
      if_pos (by rw [hload]; rfl)
    obtain ⟨hcyc, hgone⟩ := hdrop { s with cycle := max s.cycle f.due } rfl rfl rfl
    refine ⟨_, ?_, (le_max_right s.cycle f.due).trans hcyc, hgone⟩
    rw [show exec (.farTimeout id) s = execFarTimeout id s from rfl, execFarTimeout, hfind]
    dsimp only
    rw [hport, hlose]
  · refine ⟨refuseFar s f, ?_, (hdrop s rfl rfl rfl).2⟩
    rw [show exec (.hostRefusal id) s = execHostRefusal id s from rfl, execHostRefusal, agent_of_running ⟨hon, hhalt⟩, hfind]
    dsimp only
    rw [if_pos (by rw [hhost, hready]; rfl)]

end

section
/-! PROOFS. Rung groups, bins, commits and patches (spec/18_ladders.md R365 to R367, R371, R372, R375). -/

set_option Elab.async false

namespace Sys2Proof.Machine

/-! What a launch leaves of teams and gangs until its group is added. -/

/-- The gangs, and each team's groups, are those of another machine. -/
structure Seated (s0 s : State) : Prop where
  gangs : s.gangs = s0.gangs
  groups : ∀ r, (teamOf s r).map Team.groups = (teamOf s0 r).map Team.groups

theorem Seated.refl (s : State) : Seated s s := ⟨rfl, fun _ => rfl⟩

theorem Seated.trans {s t u : State} (a : Seated s t) (b : Seated t u) : Seated s u :=
  ⟨b.gangs.trans a.gangs, fun r => (b.groups r).trans (a.groups r)⟩

theorem Seated.of_eq {s t : State} (hg : t.gangs = s.gangs) (ht : t.teams = s.teams) : Seated s t := ⟨hg, fun r => by rw [teamOf, ht, teamOf]⟩

theorem seated_modTeam (s : State) (r : TeamRef) {f : Team → Team} (hr : ∀ t, (f t).r = t.r) (hg : ∀ t, (f t).groups = t.groups) :
    Seated s (modTeam s r f) := by
  refine ⟨rfl, fun q => ?_⟩
  by_cases hq : q = r
  · subst hq
    rw [teamOf_modTeam_same s q f fun t ht => (hr t).trans ht, Option.map_map]
    exact congrArg (fun h => (teamOf s q).map h) (funext hg)
  · rw [teamOf_modTeam_other s r q f (fun t ht => (hr t).trans ht) hq]

theorem seated_sramDrop (s : State) (k : SramKey) : Seated s (sramDrop s k) := .of_eq rfl rfl

theorem seated_endTags (s : State) (loc n : Nat) : Seated s (endTags s loc n) := .of_eq rfl rfl

theorem setFeOf_r (t : Team) (b : Buf) (m : Store 1) : (setFeOf t b m).r = t.r := by cases b <;> rfl

theorem setFeOf_groups (t : Team) (b : Buf) (m : Store 1) : (setFeOf t b m).groups = t.groups := by cases b <;> rfl

theorem seated_putBufWord (r : TeamRef) (b : Buf) (w : Nat) (s : State) (x : Nat) : Seated s (putBufWord r b w s x) :=
  seated_modTeam s r (fun t => by split <;> simp only [setBuf_r]) fun t => by split <;> simp only [setBuf_groups]

theorem seated_sramWrite {s : State} (k : SramKey) {put : State → Nat → State} (h : ∀ s x, Seated s (put s x)) :
    Seated s (sramWrite s k put) := by
  unfold sramWrite
  split
  · exact .refl s
  · split
    · exact seated_sramDrop s k
    · exact (seated_sramDrop s k).trans (h _ _)

theorem seated_bufWrite (s : State) (r : TeamRef) (b : Buf) (off k x : Nat) : Seated s (bufWrite s r b off k x) := by
  have hwords : Seated s (if s.sram.isEmpty then s else match teamOf s r with
      | none => s
      | some t => (bufWords t b off k).foldl (fun s w => sramWrite s (bufStore b, t.core, w) (putBufWord r b w)) s) := by
    split
    · exact .refl s
    · split
      · exact .refl s
      · exact foldl_holds (Seated s) (.refl s) fun u w hu => hu.trans (seated_sramWrite _ (seated_putBufWord r b w))
  unfold bufWrite
  dsimp only
  refine hwords.trans (.trans ?_ (seated_modTeam _ r (fun t => setBuf_r t b _) fun t => setBuf_groups t b _))
  exact iteInduction (fun _ => .refl _) fun _ => seated_endTags ..

theorem seated_bufPut (s : State) (r : TeamRef) (b : Buf) (off k x : Nat) : Seated s (bufPut s r b off k x) :=
  (seated_bufWrite s r b off k x).trans (seated_modTeam _ r (fun t => setFeOf_r t b _) fun t => setFeOf_groups t b _)

theorem seated_takePin (s : State) (ld slot : Nat) : Seated s (takePin s ld slot).2 := by
  have h : view ⟨true, false⟩ (takePin s ld slot).2 = view ⟨true, false⟩ s := same_takePin (rfl : Same _ (view ⟨true, false⟩ s) s) rfl
  exact .of_eq (congrArg (fun v => v.rest.gangs) h) (congrArg (fun v => v.rest.teams) h)

/-! A rung group as it starts. -/

/-- A register of a rung group with a value for each item, in its lane. -/
def rungFill (its : List Item) (g : Group) (n : Nat) (f : Nat → Item → Nat) : Group :=
  (its.zipIdx).foldl (fun g p => setV g n p.2 (BitVec.ofNat 32 (f p.2 p.1))) g

theorem rungFill_concat (its : List Item) (it : Item) (g : Group) (n : Nat) (f : Nat → Item → Nat) :
    rungFill (its ++ [it]) g n f = setV (rungFill its g n f) n its.length (BitVec.ofNat 32 (f its.length it)) := by
  simp [rungFill, List.zipIdx_append]

theorem rungFill_shape (its : List Item) (g : Group) (n : Nat) (f : Nat → Item → Nat) : ∃ v, rungFill its g n f = { g with v := v } := by
  induction its using List.reverseRecOn with
  | nil => exact ⟨g.v, rfl⟩
  | append_singleton its it ih =>
    obtain ⟨v, hv⟩ := ih
    rw [rungFill_concat, hv]
    exact ⟨_, rfl⟩

theorem getV_rungFill (its : List Item) (g : Group) (n : Nat) (f : Nat → Item → Nat) (hlen : its.length ≤ 32) (m : Nat) {l : Nat} (hl : l < 32) :
    getV (rungFill its g n f) m l = if m = n ∧ l < its.length then BitVec.ofNat 32 ((its[l]?.map (f l)).getD 0) else getV g m l := by
  induction its using List.reverseRecOn with
  | nil => simp [rungFill]
  | append_singleton its it ih =>
    rw [List.length_append, List.length_singleton] at hlen
    rw [rungFill_concat, getV_setV _ _ _ _ _ _ (by omega) hl, ih (by omega), List.length_append, List.length_singleton]
    by_cases hm : m = n
    · rcases Nat.lt_trichotomy l its.length with h | h | h
      · rw [if_neg (by omega), if_pos ⟨hm, h⟩, if_pos ⟨hm, by omega⟩, List.getElem?_append_left h]
      · subst h
        simp [hm]
      · rw [if_neg (by omega), if_neg (by omega), if_neg (by omega)]
    · simp [hm]

/-- A rung group and what it holds when it starts (R366, R367). -/
structure RungStarts (gr : Grid) (lad rung j : Nat) (its : List Item) (q : Group) : Prop where
  id : q.id = rungGroup gr lad rung j
  slot : q.rung = some (lad, rung, j)
  items : q.items = its.zipIdx.map fun p => (p.2, p.1)
  front : q.frontier = [⟨ptrAdd gr.code (rungEntry (rungRaw (ladRaw gr lad) rung)), 128, BitVec.ofNat 32 (2 ^ its.length - 1), 0, .ready⟩]
  argp : getG q 1 = ladArgp (ladRaw gr lad)
  regs : ∀ l < its.length, ∀ it, its[l]? = some it → getV q 0 l = BitVec.ofNat 32 it.seq ∧
    getV q 1 l = BitVec.ofNat 32 (rungFoff (rungRaw (ladRaw gr lad) rung) + (32 * j + l) * rungFs (rungRaw (ladRaw gr lad) rung)) ∧
    getV q 2 l = BitVec.ofNat 32 it.member

theorem RungStarts.reordered {gr : Grid} {lad rung j : Nat} {its : List Item} {q q' : Group} (h : RungStarts gr lad rung j its q)
    (hr : Reordered q q') : RungStarts gr lad rung j its q' := by
  obtain ⟨o, rfl⟩ := hr
  exact ⟨h.id, h.slot, h.items, h.front, h.argp, h.regs⟩

/-- The group before its items and ARGP are set. -/
def rungFilled (gr : Grid) (t : Team) (lad rung j : Nat) (its : List Item) (pin : Option Pin) : Group :=
  let e := rungRaw (ladRaw gr lad) rung
  let id := rungGroup gr lad rung j
  let g := newGroup t.r id (some (lad, rung, j)) (rungBud e) (t.vregs.getD id (0, 0)).1 gr.depth (ptrAdd gr.code (rungEntry e))
    (BitVec.ofNat 32 (2 ^ its.length - 1)) 0 0 pin
  rungFill its (rungFill its (rungFill its g 0 fun _ i => i.seq) 1 fun l _ => rungFoff e + (32 * j + l) * rungFs e) 2 fun _ i => i.member

theorem rungStart_eq (gr : Grid) (t : Team) (lad rung j : Nat) (its : List Item) (pin : Option Pin) :
    ∃ ids, rungStart gr t lad rung j its pin = setG ((its.zipIdx).foldl (fun g p => addPast (maskOf [p.2]) p.1.past g)
      { joinPast ids (rungFilled gr t lad rung j its pin) with items := its.zipIdx.map fun p => (p.2, p.1) }) 1 (ladArgp (ladRaw gr lad)) :=
  ⟨_, rfl⟩

theorem rungFilled_regs (gr : Grid) (t : Team) (lad rung j : Nat) {its : List Item} (pin : Option Pin) (hlen : its.length ≤ 32)
    {l : Nat} (hl : l < its.length) {it : Item} (hit : its[l]? = some it) : getV (rungFilled gr t lad rung j its pin) 0 l = BitVec.ofNat 32 it.seq ∧
      getV (rungFilled gr t lad rung j its pin) 1 l =
        BitVec.ofNat 32 (rungFoff (rungRaw (ladRaw gr lad) rung) + (32 * j + l) * rungFs (rungRaw (ladRaw gr lad) rung)) ∧
      getV (rungFilled gr t lad rung j its pin) 2 l = BitVec.ofNat 32 it.member := by
  have hl32 : l < 32 := by omega
  unfold rungFilled
  dsimp only
  simp only [getV_rungFill _ _ _ _ hlen _ hl32, hit, hl]
  simp

theorem rungFilled_shape (gr : Grid) (t : Team) (lad rung j : Nat) (its : List Item) (pin : Option Pin) :
    ∃ v, rungFilled gr t lad rung j its pin = { newGroup t.r (rungGroup gr lad rung j) (some (lad, rung, j))
      (rungBud (rungRaw (ladRaw gr lad) rung)) (t.vregs.getD (rungGroup gr lad rung j) (0, 0)).1 gr.depth
      (ptrAdd gr.code (rungEntry (rungRaw (ladRaw gr lad) rung))) (BitVec.ofNat 32 (2 ^ its.length - 1)) 0 0 pin with v := v } := by
  unfold rungFilled
  dsimp only
  obtain ⟨v, hv⟩ := rungFill_shape its (newGroup t.r (rungGroup gr lad rung j) (some (lad, rung, j))
    (rungBud (rungRaw (ladRaw gr lad) rung)) (t.vregs.getD (rungGroup gr lad rung j) (0, 0)).1 gr.depth
    (ptrAdd gr.code (rungEntry (rungRaw (ladRaw gr lad) rung))) (BitVec.ofNat 32 (2 ^ its.length - 1)) 0 0 pin) 0 fun _ i => i.seq
  rw [hv]
  obtain ⟨v, hv⟩ := rungFill_shape its _ 1 fun l _ => rungFoff (rungRaw (ladRaw gr lad) rung) + (32 * j + l) * rungFs (rungRaw (ladRaw gr lad) rung)
  rw [hv]
  obtain ⟨v, hv⟩ := rungFill_shape its _ 2 fun _ i => i.member
  rw [hv]
  exact ⟨v, rfl⟩

theorem rungStarts_rungStart (gr : Grid) (t : Team) (lad rung j : Nat) {its : List Item} (pin : Option Pin) (hlen : its.length ≤ 32) :
    RungStarts gr lad rung j its (rungStart gr t lad rung j its pin) := by
  obtain ⟨ids, heq⟩ := rungStart_eq gr t lad rung j its pin
  have hregs (l : Nat) (hl : l < its.length) (it : Item) (hit : its[l]? = some it) := rungFilled_regs gr t lad rung j pin hlen hl hit
  obtain ⟨v, hv⟩ := rungFilled_shape gr t lad rung j its pin
  obtain ⟨o, ho⟩ : Reordered (rungFilled gr t lad rung j its pin) (joinPast ids (rungFilled gr t lad rung j its pin)) := reordered_addPast ..
  have hre (g : Group) : Reordered g ((its.zipIdx).foldl (fun g p => addPast (maskOf [p.2]) p.1.past g) g) :=
    foldl_holds (Reordered g) (.refl g) fun x p hx => hx.trans (reordered_addPast ..)
  obtain ⟨o', ho'⟩ := hre { joinPast ids (rungFilled gr t lad rung j its pin) with items := its.zipIdx.map fun p => (p.2, p.1) }
  rw [heq, ho', ho]
  rw [hv] at hregs ⊢
  exact ⟨rfl, rfl, rfl, rfl, by rw [getG_setG]; simp, hregs⟩

/-! A launch. -/

theorem gangOf_modGang {s : State} {k : GangRef} {g : Gang} {f : Gang → Gang} (hr : ∀ g, (f g).r = g.r) (hg : gangOf s k = some g) :
    gangOf (modGang s k f) k = some (f g) := by
  have hfind : ((fun g : Gang => g.r == k) ∘ fun g => if g.r == k then f g else g) = fun g => g.r == k := by
    funext x
    rw [Function.comp_apply]
    split
    · rw [hr]
    · rfl
  rw [gangOf, modGang, List.find?_map, hfind]
  have hk : (g.r == k) = true := List.find?_some (p := fun g : Gang => g.r == k) hg
  exact (congrArg (Option.map _) hg).trans (congrArg some (if_pos hk))

theorem binOf_setBin {g : Gang} {lad rung : Nat} (hl : lad < g.bins.length) (hr : rung < (g.bins.getD lad []).length) (b : Bin) :
    binOf (setBin lad rung b g) lad rung = b := by
  unfold binOf setBin
  dsimp only
  rw [getD_lset_same _ _ _ _ hl, getD_lset_same _ _ _ _ hr]

theorem groupIn_append {t : Team} {id : Nat} {q : Group} (hopen : slotOpen t id = true) (hid : q.id = id) :
    groupIn { t with groups := t.groups ++ [q] } id = some q := by
  have hnone : t.groups.find? (fun g => g.id == id) = none := Option.isNone_iff_eq_none.1 hopen
  show (t.groups ++ [q]).find? (fun g => g.id == id) = some q
  rw [List.find?_append, hnone, Option.none_or]
  simp [hid]

theorem launchRung_adds {s : State} {k : GangRef} {g : Gang} {gr : Grid} {b : Bin} {t : Team} {lad rung j : Nat} (hg : gangOf s k = some g)
    (ht : teamOf s t.r = some t) (hopen : slotOpen t (rungGroup gr lad rung j) = true) (hl : lad < g.bins.length)
    (hr : rung < (g.bins.getD lad []).length) :
    (∃ k', gangOf (launchRung s k gr b t lad rung j) k = some k' ∧ (binOf k' lad rung).items = b.items.drop 32) ∧
      ∃ q, groupOf (launchRung s k gr b t lad rung j) ⟨t.r, rungGroup gr lad rung j⟩ = some q ∧
        RungStarts gr lad rung j (b.items.take 32) q := by
  obtain ⟨s1, hs1, hseat⟩ : ∃ s1, s1 = (takePin (zeroWords (((b.items.take 32).zipIdx).foldl (fun s p => bufPut s t.r .a
      (rungFoff (rungRaw (ladRaw gr lad) rung) + (32 * j + p.2) * rungFs (rungRaw (ladRaw gr lad) rung))
      (rungFs (rungRaw (ladRaw gr lad) rung)) (ofBytes p.1.frame)) s) 0 t.core (16 * (t.vregs.getD (rungGroup gr lad rung j) (0, 0)).1)
      (16 * ((t.vregs.getD (rungGroup gr lad rung j) (0, 0)).1 + (t.vregs.getD (rungGroup gr lad rung j) (0, 0)).2))) t.r.ld gr.slot).2 ∧
      Seated s s1 := by
    refine ⟨_, rfl, .trans ?_ (seated_takePin ..)⟩
    exact .trans (foldl_holds (Seated s) (.refl s) fun u p hu => hu.trans (seated_bufPut ..)) (.of_eq rfl rfl)
  obtain ⟨pin, ids, n, heq⟩ : ∃ pin ids n, launchRung s k gr b t lad rung j =
      modGang (modTeam s1 t.r fun t' => { t' with groups := t'.groups ++ [joinPast ids (rungStart gr t lad rung j (b.items.take 32) pin)] }) k
        (setBin lad rung ⟨b.items.drop 32, n⟩) := by
    rw [hs1]
    exact ⟨_, _, _, rfl⟩
  rw [heq]
  have hgangs : (modTeam s1 t.r fun t' => { t' with
      groups := t'.groups ++ [joinPast ids (rungStart gr t lad rung j (b.items.take 32) pin)] }).gangs = s.gangs := hseat.gangs
  refine ⟨⟨_, gangOf_modGang (fun _ => rfl) (by rw [gangOf, hgangs]; exact hg), ?_⟩, ?_⟩
  · rw [binOf_setBin hl hr]
  · have hq : RungStarts gr lad rung j (b.items.take 32) (joinPast ids (rungStart gr t lad rung j (b.items.take 32) pin)) :=
      (rungStarts_rungStart gr t lad rung j pin (by simp)).reordered (reordered_addPast ..)
    obtain ⟨t1, ht1, hgroups⟩ : ∃ t1, teamOf s1 t.r = some t1 ∧ t1.groups = t.groups := by
      have h := hseat.groups t.r
      rw [ht] at h
      exact Option.map_eq_some_iff.1 h
    have hopen1 : slotOpen t1 (rungGroup gr lad rung j) = true := by rwa [slotOpen, groupIn, hgroups]
    have hteam := (teamOf_modTeam_same s1 t.r (fun t' => { t' with
      groups := t'.groups ++ [joinPast ids (rungStart gr t lad rung j (b.items.take 32) pin)] }) fun _ h => h).trans
      (congrArg (Option.map _) ht1)
    exact ⟨_, Option.bind_eq_some_iff.2 ⟨_, hteam, groupIn_append hopen1 hq.id⟩, hq⟩

theorem freeRung_open {gr : Grid} {ts : List Team} {lad rung j : Nat} {t : Team} (h : freeRung gr ts lad rung = some (t, j)) :
    slotOpen t (rungGroup gr lad rung j) = true := by
  obtain ⟨m, -, hm⟩ := List.exists_of_findSome?_eq_some h
  obtain ⟨t', -, ht'⟩ := Option.bind_eq_some_iff.1 hm
  obtain ⟨j', hj', heq⟩ := Option.map_eq_some_iff.1 ht'
  cases heq
  exact List.find?_some (p := fun j => slotOpen t (rungGroup gr lad rung j)) hj'

/-- A ripe bin of a gang on its cores launches where a slot is free. -/
theorem exec_binLaunch {s : State} {k : GangRef} {g : Gang} {gr : Grid} {lad rung j : Nat} {t : Team} (hrun : Running s)
    (hg : gangOf s k = some g) (hgr : gridOf s k.ld k.grid = some gr) (hplace : g.place = .resident) (hpre : g.preempt = none)
    (hsys : inSyscall (gangTeams s k) = false) (hsaved : ∀ u ∈ gangTeams s k, ∀ q ∈ u.groups, q.saved = false)
    (hripe : 32 ≤ (binOf g lad rung).items.length ∨ (binOf g lad rung).items ≠ [] ∧ ∃ d, (binOf g lad rung).due = some d ∧ d ≤ s.cycle)
    (hfree : freeRung gr (gangTeams s k) lad rung = some (t, j)) :
    exec (.binLaunch k lad rung) s = .next (launchRung s k gr (binOf g lad rung) t lad rung j) := by
  have hnone : ((gangTeams s k).any fun t => t.groups.any Group.saved) = false := by
    simp only [List.any_eq_false, Bool.not_eq_true]
    exact hsaved
  rw [show exec (.binLaunch k lad rung) s = execBinLaunch k lad rung s from rfl, execBinLaunch, agent_of_running hrun, hg, hgr]
  dsimp only
  rw [hplace, hpre, hsys, hnone, hfree]
  refine congrArg Host.Outcome.next (if_neg ?_)
  rcases hripe with h | ⟨hne, d, hd, hle⟩
  · simp [h]
  · simp [hd, hne, hle]

/-! Ladder windows. -/

theorem teamOf_modLad (s : State) (r : TeamRef) (lad : Nat) (f : LadWin → LadWin) :
    teamOf (modLad s r lad f) r = (teamOf s r).map fun t => { t with lads := lset t.lads lad (f (ladOf t lad)) } :=
  teamOf_modTeam_same s r _ fun _ h => h

theorem ladIs_modLad {s : State} {r : TeamRef} {t : Team} {lad : Nat} {f : LadWin → LadWin} {P : LadWin → Prop} (ht : teamOf s r = some t)
    (hl : lad < t.lads.length) (hP : P (f (ladOf t lad))) : LadIs (modLad s r lad f) r lad P := by
  refine ⟨_, by rw [teamOf_modLad, ht]; rfl, ?_⟩
  show P ((lset t.lads lad (f (ladOf t lad))).getD lad freeLad)
  rwa [getD_lset_same _ _ _ _ hl]

theorem bytesKept_modLad (s : State) (r : TeamRef) (lad : Nat) (f : LadWin → LadWin) : BytesKept s (modLad s r lad f) :=
  bytesKept_modTeam (fun _ h => h) fun _ b => by cases b <;> rfl

/-! Commits. -/

theorem teamOf_ref {s : State} {r : TeamRef} {t : Team} (h : teamOf s r = some t) : t.r = r :=
  eq_of_beq (List.find?_some (p := fun t : Team => t.r == r) h)

theorem engPlace_low {s : State} {e : Eng} {p : Ptr} {n pa : Nat} {k : Acc} (h : engPlace s e p n k = .ok pa) :
    ∃ x, farCheck s e.t.ld e.root e.bounds e.user p n k = .ok x ∧ x.1 = pa ∧ linkDown s pa = false ∧ pa % 32 = ptrVa p % 32 := by
  unfold engPlace at h
  split at h
  · cases h
  · next x hx =>
    split at h
    · cases h
    · next hlink =>
      cases h
      exact ⟨x, hx, rfl, by simpa using fun hd => hlink (.inl hd), farCheck_low hx⟩

/-- The place of an access does not depend on what the access follows. -/
theorem engPlace_congr {s : State} {e e' : Eng} (ht : e'.t = e.t) (hr : e'.root = e.root) (hb : e'.bounds = e.bounds) (hu : e'.user = e.user)
    (hf : e'.refuse = e.refuse) (p : Ptr) (n : Nat) (k : Acc) : engPlace s e' p n k = engPlace s e p n k := by
  unfold engPlace
  rw [ht, hr, hb, hu, hf]

theorem endTags_spec (s : State) (loc n : Nat) : (endTags s loc n).sram = s.sram ∧ (endTags s loc n).ecc = s.ecc ∧
    (endTags s loc n).teams = s.teams := ⟨rfl, rfl, rfl⟩

theorem busWrite_hbm {pa : Nat} (hb : isHbm pa = true) (s : State) (who : Who) (bs : List Byte) :
    busWrite s who pa bs = writeMem (endTags s pa bs.length) pa bs :=
  if_neg (by rw [areaOf_hbm hb]; intro h; cases h)

/-- One piece more of a write of the copy engine, with its place. -/
def engNext (s : State) (e : Eng) (p : Ptr) (acc : Except Nat (List (Nat × Nat × Nat))) (c : Nat × Nat) : Except Nat (List (Nat × Nat × Nat)) :=
  acc.bind fun l => (engPlace s e (ptrAdd p c.1) c.2 .write).map fun pa => l ++ [(pa, c.1, c.2)]

/-- The pieces of a write of the copy engine, each with its place. -/
def engPlaces (s : State) (e : Eng) (p : Ptr) (bs : List Byte) : Except Nat (List (Nat × Nat × Nat)) :=
  (cutMem (bs.length / 32 + 2) (ptrVa p) 0 bs.length).foldl (fun acc c => acc.bind fun l =>
    (engPlace s e (ptrAdd p c.1) c.2 .write).map fun pa => l ++ [(pa, c.1, c.2)]) (.ok [])

/-- The pieces written. -/
def engStores (s : State) (e : Eng) (p : Ptr) (bs : List Byte) (l : List (Nat × Nat × Nat)) : State :=
  l.foldl (fun s x => busWrite (walkRead s e.t.ld e.root (ptrVa p + x.2.1)) (.sup e.t.ld) x.1 ((bs.drop x.2.1).take x.2.2)) s

theorem engWrite_eq (s : State) (e : Eng) (p : Ptr) (bs : List Byte) : engWrite s e p bs = (engPlaces s e p bs).map (engStores s e p bs) := rfl

theorem cutMem_zero (fuel va i : Nat) : cutMem fuel va i 0 = [] := by
  cases fuel
  · rfl
  · rw [cutMem, if_pos rfl]

theorem engPlaces_nil (s : State) (e : Eng) (p : Ptr) : engPlaces s e p [] = .ok [] := by
  unfold engPlaces
  rw [List.length_nil, cutMem_zero]
  rfl

theorem engPlaces_eq (s : State) (e : Eng) (p : Ptr) (bs : List Byte) : engPlaces s e p bs =
    (cutMem (bs.length / 32 + 2) (ptrVa p) 0 bs.length).foldl (engNext s e p) (.ok []) := rfl

theorem engPlaces_sector {s : State} {e : Eng} {p : Ptr} {bs : List Byte} {pa : Nat} (h : engPlace s e p bs.length .write = .ok pa)
    (h0 : bs.length ≠ 0) (hl : ptrVa p % 32 + bs.length ≤ 32) : engPlaces s e p bs = .ok [(pa, 0, bs.length)] := by
  rw [engPlaces_eq, cutMem_sector (by omega) hl, List.foldl_cons, List.foldl_nil]
  unfold engNext
  rw [show ptrAdd p (((0, bs.length) : Nat × Nat).1 : Int) = p from ptrAdd_zero p]
  simp only [Except.bind, h, Except.map, List.nil_append]

theorem engStores_one (s : State) (e : Eng) (p : Ptr) (bs : List Byte) (pa : Nat) : engStores s e p bs [(pa, 0, bs.length)] =
    busWrite (walkRead s e.t.ld e.root (ptrVa p + 0)) (.sup e.t.ld) pa bs := by
  unfold engStores
  simp only [List.foldl_cons, List.foldl_nil, List.drop_zero, List.take_length]
/-- A write of the copy engine within a sector, where its translation does not fail. -/
theorem engWrite_sector {s : State} {e : Eng} {p : Ptr} {bs : List Byte} {pa : Nat} (he : s.ecc = []) (hs : s.sram = [])
    (h : engPlace s e p bs.length .write = .ok pa) (hn : pa % 32 + bs.length ≤ 32) (hb : isHbm pa = true) :
    ∃ u, engWrite s e p bs = .ok u ∧ u.teams = s.teams ∧ peekBytes u pa bs.length = bs := by
  obtain ⟨-, -, -, -, hlow⟩ := engPlace_low h
  by_cases h0 : bs.length = 0
  · obtain rfl := List.eq_nil_of_length_eq_zero h0
    exact ⟨s, by rw [engWrite_eq, engPlaces_nil]; rfl, rfl, rfl⟩
  · have hwrite : engWrite s e p bs = .ok (busWrite (walkRead s e.t.ld e.root (ptrVa p + 0)) (.sup e.t.ld) pa bs) := by
      rw [engWrite_eq, engPlaces_sector h h0 (by omega), ← engStores_one]
      rfl
    have hq := walkRead_quiet he hs e.t.ld e.root (ptrVa p + 0)
    have hteams : (walkRead s e.t.ld e.root (ptrVa p + 0)).teams = s.teams := teams_of_view (same_walkRead rfl)
    generalize walkRead s e.t.ld e.root (ptrVa p + 0) = w at hwrite hq hteams
    obtain ⟨h1, h2, h3⟩ := endTags_spec w pa bs.length
    have hclean : CleanAt (endTags w pa bs.length) pa bs.length := cleanAt_of_nil (h2.trans (hq.ecc.trans he)) _ _
    refine ⟨_, hwrite, ?_, ?_⟩
    · rw [busWrite_hbm hb]
      exact (teams_of_view (same_writeMem rfl)).trans (h3.trans hteams)
    · rw [busWrite_hbm hb]
      exact (wrote_writeMem_any (h1.trans (hq.sram.trans hs)) hclean).peek_same hclean

/-- A commit whose place and write do not fail (the place is compared, not evaluated). -/
theorem commitWrite_ok {s u : State} {t : Team} {gr : Grid} {lad : Nat} {d : Done} {bs : List Byte} {x : Nat × Nat}
    (hx : farCheck s t.r.ld (pinRoot t.pin) t.bounds (engUser s t.r) (resultPtr gr t.r.team lad d.seq) bs.length .write = .ok x)
    (hlink : linkDown s x.1 = false)
    (hu : engWrite s ⟨t.r, pinRoot t.pin, t.bounds, engUser s t.r, false, s.nextId, d.after⟩ (resultPtr gr t.r.team lad d.seq) bs = .ok u) :
    commitWrite s t gr lad d bs = u := by
  obtain ⟨farCheck', e_farCheck⟩ : ∃ f, f = @farCheck := ⟨_, rfl⟩
  rw [← e_farCheck] at hx
  apply unfold_head (fun f => f s t gr lad d bs = u) (x := @commitWrite)
  · delta commitWrite
    rfl
  · rw [← e_farCheck]
    dsimp only
    rw [hx]
    dsimp only
    rw [hlink, if_neg (by decide), hu]
theorem resultPtr_eq (gr : Grid) (team lad seq : Nat) : resultPtr gr team lad seq =
    ptrAdd (ladResult (ladRaw gr lad)) (team * ladStride (ladRaw gr lad) + seq * ladRsz (ladRaw gr lad) : Nat) := rfl

theorem WritesAt.place {s : State} {e : Eng} {p : Ptr} {n pa : Nat} (h : WritesAt s e p n pa) : engPlace s e p n .write = .ok pa := h.1 s.frees

theorem commitWrite_wrote {s : State} {r : TeamRef} {t : Team} {gr : Grid} {lad : Nat} {d : Done} {bs : List Byte} {pa : Nat}
    (ht : teamOf s r = some t) (he : s.ecc = []) (hs : s.sram = [])
    (h : WritesAt s ⟨r, pinRoot t.pin, t.bounds, engUser s r, false, 0, []⟩ (resultPtr gr r.team lad d.seq) bs.length pa) :
    (commitWrite s t gr lad d bs).teams = s.teams ∧ peekBytes (commitWrite s t gr lad d bs) pa bs.length = bs := by
  have hplace := h.place
  obtain ⟨-, hn, hb⟩ := h
  have href : t.r = r := teamOf_ref ht
  subst href
  rw [← engPlace_congr (e := ⟨t.r, pinRoot t.pin, t.bounds, engUser s t.r, false, 0, []⟩) (e' := ⟨t.r, pinRoot t.pin, t.bounds, engUser s t.r, false, s.nextId, d.after⟩) rfl rfl rfl rfl rfl] at hplace
  obtain ⟨x, hx, rfl, hlink, -⟩ := engPlace_low hplace
  obtain ⟨u, hu, hteams, hpeek⟩ := engWrite_sector he hs hplace hn hb
  rw [commitWrite_ok hx hlink hu]
  exact ⟨hteams, hpeek⟩

/-- The commit of a ladder of a team on its core. -/
theorem exec_commitRun {s : State} {r : TeamRef} {lad : Nat} {t : Team} {gr : Grid} (hrun : Running s) (ht : teamOf s r = some t)
    (hgr : gridOf s r.ld r.grid = some gr) (hhere : gangHere s t = true) (hl : lad < t.lads.length) :
    exec (.commitRun r lad) s = .next (match nextWrite s (ladOf t lad) (doneRun (ladOf t lad) (ladOf t lad).done.length (ladOf t lad).base) with
      | some e => modLad (commitWrite s t gr lad e (e.res.getD [])) r lad fun w =>
          { w with done := w.done.map fun d => if d.seq == e.seq then { d with res := none } else d }
      | none =>
        if (doneRun (ladOf t lad) (ladOf t lad).done.length (ladOf t lad).base).all fun e => e.res.isNone && forkReady s e.after then
          modLad s r lad fun w => { w with
            base := w.base + (doneRun (ladOf t lad) (ladOf t lad).done.length (ladOf t lad).base).length
            done := w.done.filter fun e => !((doneRun (ladOf t lad) (ladOf t lad).done.length (ladOf t lad).base).map Done.seq).contains e.seq
            held := w.held.filter fun n => !((doneRun (ladOf t lad) (ladOf t lad).done.length (ladOf t lad).base).map Done.seq).contains n }
        else s) := by
  rw [show exec (.commitRun r lad) s = execCommitRun r lad s from rfl, execCommitRun, agent_of_running hrun, ht, hgr]
  dsimp only
  rw [hhere, hasLad, decide_eq_true hl]
  rfl

/-- The unbroken run of a ladder's done entries. -/
abbrev runOf (t : Team) (lad : Nat) : List Done := doneRun (ladOf t lad) (ladOf t lad).done.length (ladOf t lad).base

/-- A ladder's window once an entry's result has been written. -/
def resultGone (e : Done) (w : LadWin) : LadWin :=
  { w with done := w.done.map fun d => if d.seq == e.seq then { d with res := none } else d }

theorem exec_commitRun_some {s : State} {r : TeamRef} {lad : Nat} {t : Team} {gr : Grid} {d : Done} {bs : List Byte} (hrun : Running s)
    (ht : teamOf s r = some t) (hgr : gridOf s r.ld r.grid = some gr) (hhere : gangHere s t = true) (hl : lad < t.lads.length)
    (hnext : nextWrite s (ladOf t lad) (runOf t lad) = some d) (hres : d.res = some bs) :
    exec (.commitRun r lad) s = .next (modLad (commitWrite s t gr lad d bs) r lad (resultGone d)) := by
  rw [exec_commitRun hrun ht hgr hhere hl, hnext]
  dsimp only
  rw [hres, Option.getD_some]
  rfl

theorem resultGone_spec (e : Done) (w : LadWin) : (resultGone e w).base = w.base ∧ ∀ d ∈ (resultGone e w).done, d.seq = e.seq → d.res = none := by
  refine ⟨rfl, fun d hd heq => ?_⟩
  obtain ⟨d', -, rfl⟩ := List.mem_map.1 hd
  split
  · rfl
  · next hne =>
    rw [if_neg hne] at heq
    exact absurd (beq_iff_eq.2 heq) hne

theorem peek_modLad (s : State) (r : TeamRef) (lad : Nat) (f : LadWin → LadWin) (pa n : Nat) : peek (modLad s r lad f) pa n = peek s pa n := rfl

theorem notIn_filter {run : List Done} {e : Done} (he : e ∈ run) (h : (!(run.map Done.seq).contains e.seq) = true) : False := by
  have hin : (run.map Done.seq).contains e.seq = true := List.contains_iff_mem.2 (List.mem_map_of_mem he)
  rw [hin] at h
  cases h

theorem exec_ladderPatch {s : State} {r : TeamRef} {lad rung : Nat} {t : Team} {gr : Grid} (hrun : Running s) (ht : teamOf s r = some t)
    (hgr : gridOf s r.ld r.grid = some gr) (hhere : gangHere s t = true) (hl : lad < t.lads.length)
    (howed : (owedRungs gr t lad).head? = some rung) (hfinal : arrivedFinal s t lad rung = true) :
    exec (.ladderPatch r lad rung) s = .next (if (winOf t (rungPwin (rungRaw (ladRaw gr lad) rung))).st = .unbound then
      modLad s r lad fun w => { w with patched := w.patched ++ [rung] }
    else modWin (modLad s r lad fun w => { w with patched := w.patched ++ [rung] }) r (rungPwin (rungRaw (ladRaw gr lad) rung)) fun v =>
      { v with latch := some (BitVec.ofNat 32 ((ladOf t lad).arrived.getD rung 0)) }) := by
  rw [show exec (.ladderPatch r lad rung) s = execLadderPatch r lad rung s from rfl, execLadderPatch, agent_of_running hrun, ht, hgr]
  dsimp only
  rw [hhere, hasLad, decide_eq_true hl, howed, hfinal, if_neg (by simp)]

end Sys2Proof.Machine

open Sys2Proof Sys2Proof.Machine

/-- Settles O35: a launch adds its group to a team whose slot has none and cuts its bin; a commit writes within one sector, or takes the
unbroken run off the window; a patch latches its count. -/
theorem ladderEvents : Obligations.LadderEvents := by
  unfold Obligations.LadderEvents
  refine ⟨?_, ?_, ?_, ?_⟩
  · intro s k g gr lad rung j t hrun hg hgr hplace hpre hsys hsaved b e n hripe hfree ht hl hr
    obtain ⟨hbin, q, hq, hstart⟩ := launchRung_adds hg (gr := gr) (b := b) ht (freeRung_open hfree) hl hr
    have hlen : (b.items.take 32).length = n := List.length_take
    refine ⟨_, exec_binLaunch hrun hg hgr hplace hpre hsys hsaved hripe hfree, hbin, q, hq, hstart.slot, hstart.items, ?_, hstart.argp,
      fun l hln it hit => ?_⟩
    · rw [hstart.front, hlen]
    · exact hstart.regs l (by omega) it (by rw [List.getElem?_take, if_pos (by omega)]; exact hit)
  · intro s k g lad rung d hrun hg hplace hdue
    refine ⟨{ s with cycle := max s.cycle d }, ?_, rfl, rfl, fun _ _ _ => rfl⟩
    rw [show exec (.binStarveExpire k lad rung) s = execBinStarveExpire k lad rung s from rfl, execBinStarveExpire, agent_of_running hrun, hg]
    dsimp only
    rw [hdue]
    exact congrArg Host.Outcome.next (if_pos hplace)
  · intro s r lad t gr hrun ht hgr hhere hl w run
    refine ⟨fun d pa bs hnext hres hat he hs => ?_, fun hnext hall => ?_⟩
    · rw [← resultPtr_eq] at hat
      obtain ⟨hteams, hpeek⟩ := commitWrite_wrote (gr := gr) (lad := lad) (d := d) (bs := bs) ht he hs hat
      refine ⟨_, exec_commitRun_some hrun ht hgr hhere hl hnext hres, ?_, ladIs_modLad (by rw [teamOf, hteams]; exact ht) hl
        (resultGone_spec d w)⟩
      rw [peek_modLad, peek, hpeek]
    · refine ⟨_, exec_commitRun hrun ht hgr hhere hl, ?_⟩
      rw [hnext]
      dsimp only
      rw [if_pos (List.all_eq_true.2 fun e he => by simp [hall e he])]
      refine ⟨bytesKept_modLad .., ladIs_modLad ht hl ⟨rfl, fun e he => ⟨fun hin => ?_, fun f hf heq => ?_⟩⟩⟩
      · exact notIn_filter he (List.mem_filter.1 hin).2
      · have hout := (List.mem_filter.1 hf).2
        rw [heq] at hout
        exact notIn_filter he hout
  · intro s r lad rung t gr hrun ht hgr hhere hl howed hfinal x
    refine ⟨_, exec_ladderPatch hrun ht hgr hhere hl howed hfinal, ?_⟩
    by_cases hst : (winOf t x).st = .unbound
    · rw [if_pos hst]
      exact ⟨ladIs_modLad ht hl rfl, fun h => absurd hst h⟩
    · rw [if_neg hst]
      have hteam := (teamOf_modLad s r lad fun w => { w with patched := w.patched ++ [rung] }).trans (congrArg (Option.map _) ht)
      refine ⟨?_, fun _ => winIs_modWin hteam (lt_wins hst) rfl⟩
      refine ⟨_, by rw [teamOf_modWin, hteam]; rfl, ?_⟩
      show ((lset t.lads lad _).getD lad freeLad).patched = _
      rw [getD_lset_same _ _ _ _ hl]

end

section
/-! PROOFS. Conversions, the rounding of values that a format holds, and the merge of attention triples (spec/08_number_formats.md R202 to
R209; spec/09_scalar_vector_instructions.md R241, R243). -/

set_option Elab.async false

namespace Sys2Proof.Machine

/-! Rounding a value that the format holds (R208). -/

theorem ilog2_spec {m : Nat} (h : m ≠ 0) : 2 ^ ilog2 m ≤ m ∧ m < 2 ^ (ilog2 m + 1) := (Nat.log2_eq_iff h).1 rfl

theorem ilog2_eq {m k : Nat} (h : m ≠ 0) (h1 : 2 ^ k ≤ m) (h2 : m < 2 ^ (k + 1)) : ilog2 m = k := (Nat.log2_eq_iff h).2 ⟨h1, h2⟩

theorem ilog2_shift {m : Nat} (h : m ≠ 0) (j : Nat) : ilog2 (m * 2 ^ j) = ilog2 m + j := by
  obtain ⟨h1, h2⟩ := ilog2_spec h
  refine ilog2_eq (Nat.mul_ne_zero h (by positivity)) ?_ ?_
  · rw [pow_add]
    exact Nat.mul_le_mul_right _ h1
  · rw [show ilog2 m + j + 1 = ilog2 m + 1 + j by omega, pow_add 2 (ilog2 m + 1)]
    exact Nat.mul_lt_mul_of_pos_right h2 (by positivity)

theorem roundUnits_exact (mode : Rnd) (neg : Bool) (r q k : Nat) : roundUnits mode neg r q 0 k false = q := by
  have hk : 0 < 2 ^ k := by positivity
  cases mode <;> simp [roundUnits]
  omega

/-- A significand with its exponent, as the pattern's fields give them. -/
def fieldSig (f : Fmt) (e m : Nat) : Nat := if e = 0 then m else 2 ^ f.mbits + m

/-- The exponent of the significand's unit. -/
def fieldExp (f : Fmt) (e : Nat) : Int := if e = 0 then f.emin - f.mbits else (e : Int) - f.bias - f.mbits

/-- A value that the format holds, in units of any smaller power of two, rounds to its pattern in every mode. -/
theorem roundMag_exact (f : Fmt) (mode : Rnd) (r : Nat) (sat neg : Bool) {e m : Nat} (hm : m < 2 ^ f.mbits) (hne : fieldSig f e m ≠ 0)
    (hpat : e * 2 ^ f.mbits + m ≤ f.maxPat) (hexp : (e : Int) ≤ 3 * f.bias + 4) (j : Nat) :
    roundMag f mode r sat neg (fieldSig f e m * 2 ^ j) (fieldExp f e - j) false = f.signed neg (e * 2 ^ f.mbits + m) := by
  obtain ⟨hlo, hhi⟩ := ilog2_spec hne
  have hlog : (ilog2 (fieldSig f e m * 2 ^ j) : Int) = ilog2 (fieldSig f e m) + j := by rw [ilog2_shift hne]; push_cast; rfl
  have hlg : (ilog2 (fieldSig f e m) : Int) + fieldExp f e = if e = 0 then (ilog2 m : Int) + (f.emin - f.mbits) else (e : Int) - f.bias := by
    unfold fieldSig fieldExp at *
    split
    · rfl
    · next he =>
      rw [if_neg he] at hne
      rw [ilog2_eq (k := f.mbits) hne (by omega) (by rw [pow_succ]; omega)]
      ring
  have hunit : max ((ilog2 (fieldSig f e m) : Int) + fieldExp f e) f.emin = fieldExp f e + f.mbits := by
    rw [hlg]
    unfold fieldExp
    by_cases he : e = 0
    · have hlt : ilog2 m < f.mbits := by
        have hm0 : m ≠ 0 := by simpa [fieldSig, he] using hne
        exact (Nat.pow_lt_pow_iff_right (by decide)).1 ((ilog2_spec hm0).1.trans_lt hm)
      simp only [he, if_true]
      omega
    · simp only [he, if_false, Fmt.emin]
      omega
  have hle : (ilog2 (fieldSig f e m) : Int) + fieldExp f e ≤ 2 * (f.bias : Int) + 4 := by
    rw [hlg]
    by_cases he : e = 0
    · have hlt : ilog2 m < f.mbits := by
        have hm0 : m ≠ 0 := by simpa [fieldSig, he] using hne
        exact (Nat.pow_lt_pow_iff_right (by decide)).1 ((ilog2_spec hm0).1.trans_lt hm)
      simp only [he, if_true, Fmt.emin]
      omega
    · simp only [he, if_false]
      omega
  have hk : fieldExp f e + f.mbits - f.mbits - (fieldExp f e - j) = (j : Int) := by ring
  have hsum : (ilog2 (fieldSig f e m) : Int) + j + (fieldExp f e - j) = ilog2 (fieldSig f e m) + fieldExp f e := by ring
  have hunits : (if (j : Int) ≤ 0 then fieldSig f e m * 2 ^ j * 2 ^ (-(j : Int)).toNat
      else if (j : Int) > (ilog2 (fieldSig f e m) : Int) + j + 40 then roundUnits mode neg r 0 1 40 false
      else roundUnits mode neg r (fieldSig f e m * 2 ^ j / 2 ^ (j : Int).toNat) (fieldSig f e m * 2 ^ j % 2 ^ (j : Int).toNat) (j : Int).toNat false) =
      fieldSig f e m := by
    by_cases hj : (j : Int) ≤ 0
    · obtain rfl : j = 0 := by omega
      simp
    · rw [if_neg hj, if_neg (by omega), Int.toNat_natCast, Nat.mul_div_cancel _ (by positivity), Nat.mul_mod_left, roundUnits_exact]
  have hpatn : (if fieldSig f e m < 2 ^ f.mbits then fieldSig f e m
      else ((fieldExp f e + f.mbits + f.bias).toNat) * 2 ^ f.mbits + (fieldSig f e m - 2 ^ f.mbits)) = e * 2 ^ f.mbits + m := by
    unfold fieldSig fieldExp
    by_cases he : e = 0
    · simp [he, hm]
    · simp only [he, if_false]
      rw [if_neg (by omega), Nat.add_sub_cancel_left]
      congr 2
      omega
  unfold roundMag
  dsimp only
  rw [hlog, hsum, hunit, hk, hunits, hpatn, if_neg (by omega), if_neg (by omega)]

/-- The pattern's fields of a finite value. -/
theorem decodeF_finite {f : Fmt} {p : Nat} (hp : p < 2 ^ f.bits) (hinf : ∀ neg, decodeF f p ≠ .inf neg) (hnan : decodeF f p ≠ .nan) :
    p % f.signBit ≤ f.maxPat ∧ decodeF f p = .fin (decide (f.signBit ≤ p)) (fieldSig f (p % f.signBit / 2 ^ f.mbits) (p % f.signBit % 2 ^ f.mbits))
      (fieldExp f (p % f.signBit / 2 ^ f.mbits)) := by
  have hmod : p % 2 ^ f.bits = p := Nat.mod_eq_of_lt hp
  by_cases hmax : f.maxPat < p % f.signBit
  · exfalso
    unfold decodeF at hinf hnan
    dsimp only at hinf hnan
    rw [hmod, if_pos hmax] at hnan
    simp only [hmod, if_pos hmax] at hinf
    split at hnan
    · next h => exact hinf _ (if_pos h)
    · exact hnan rfl
  · refine ⟨by omega, ?_⟩
    unfold decodeF fieldSig fieldExp
    dsimp only
    rw [hmod, if_neg hmax]
    split <;> rfl

/-- What the six formats have in common. -/
structure Fmt.Fits (f : Fmt) : Prop where
  bits : 2 ^ f.bits = 2 * f.signBit
  max : f.maxPat < f.signBit
  exp : f.maxPat / 2 ^ f.mbits ≤ 3 * f.bias + 4

theorem signed_eq {f : Fmt} (hf : f.Fits) {p : Nat} (hp : p < 2 ^ f.bits) : f.signed (decide (f.signBit ≤ p)) (p % f.signBit) = p := by
  have hb := hf.bits
  unfold Fmt.signed
  by_cases h : f.signBit ≤ p
  · rw [if_pos (by simpa using h), Nat.mod_eq_sub_mod h, Nat.mod_eq_of_lt (by omega)]
    omega
  · rw [if_neg (by simpa using h), Nat.mod_eq_of_lt (by omega)]

/-- A finite pattern's value in any smaller unit rounds to the pattern. -/
theorem roundF_scaled {f : Fmt} (hf : f.Fits) (mode : Rnd) (r : Nat) (sat : Bool) {p : Nat} (hp : p < 2 ^ f.bits)
    (hmax : p % f.signBit ≤ f.maxPat) (j : Nat) :
    roundF f mode r sat (.fin (decide (f.signBit ≤ p)) (fieldSig f (p % f.signBit / 2 ^ f.mbits) (p % f.signBit % 2 ^ f.mbits) * 2 ^ j)
      (fieldExp f (p % f.signBit / 2 ^ f.mbits) - j)) = p := by
  have hpos : 0 < 2 ^ f.mbits := by positivity
  have hpat : p % f.signBit / 2 ^ f.mbits * 2 ^ f.mbits + p % f.signBit % 2 ^ f.mbits = p % f.signBit := by
    rw [Nat.mul_comm]; exact Nat.div_add_mod ..
  show (if _ * 2 ^ j = 0 then f.signed _ 0 else _) = p
  by_cases hz : fieldSig f (p % f.signBit / 2 ^ f.mbits) (p % f.signBit % 2 ^ f.mbits) = 0
  · rw [if_pos (by rw [hz, Nat.zero_mul])]
    have h0 : p % f.signBit = 0 := by
      unfold fieldSig at hz
      split at hz
      · next he => rw [← hpat, he, hz, Nat.zero_mul]
      · omega
    have hs := signed_eq hf hp
    rwa [h0] at hs
  · rw [if_neg (Nat.mul_ne_zero hz (by positivity)), roundMag_exact f mode r sat _ (Nat.mod_lt _ hpos) hz (by omega) ?_ j, hpat]
    · exact signed_eq hf hp
    · have hle := (Nat.div_le_div_right (c := 2 ^ f.mbits) hmax).trans hf.exp
      omega

theorem roundF_decodeF {f : Fmt} (hf : f.Fits) (mode : Rnd) (r : Nat) (sat : Bool) {p : Nat} (hp : p < 2 ^ f.bits)
    (hinf : ∀ neg, decodeF f p ≠ .inf neg) (hnan : decodeF f p ≠ .nan) : roundF f mode r sat (decodeF f p) = p := by
  obtain ⟨hmax, hdec⟩ := decodeF_finite hp hinf hnan
  have h := roundF_scaled hf mode r sat hp hmax 0
  rw [pow_zero, Nat.mul_one, Nat.cast_zero, sub_zero] at h
  rw [hdec, h]

theorem fits_of_mem {f : Fmt} (h : f ∈ [fF32, fBf16, fF16, fE4m3, fE5m2, fE2m1]) : f.Fits := by
  simp only [List.mem_cons, List.not_mem_nil, or_false] at h
  rcases h with rfl | rfl | rfl | rfl | rfl | rfl <;> exact ⟨by decide, by decide, by decide⟩

/-! Sums and comparisons of values (R208, R235). -/

theorem FVal.add_comm (mode : Rnd) (x y : FVal) : FVal.add mode x y = FVal.add mode y x := by
  cases x with
  | nan => cases y <;> rfl
  | inf s =>
    cases y with
    | nan => rfl
    | inf t => cases s <;> cases t <;> rfl
    | fin t n g => rfl
  | fin s m e =>
    cases y with
    | nan => rfl
    | inf t => rfl
    | fin t n g =>
      unfold FVal.add
      by_cases hm : m = 0 <;> by_cases hn : n = 0
      · cases s <;> cases t <;> simp [hm, hn]
      · simp [hm, hn]
      · simp [hm, hn]
      · simp [hm, hn, min_comm e g, Int.add_comm (scaled s m e (min g e))]

theorem FVal.cmp_self (x : FVal) : FVal.cmp x x = 0 := by
  have := FVal.cmp_swap x x
  omega

/-! The merge of two quads (R243). -/

/-- The eight patterns of two quads. -/
def eightOf (q r : Nat × Nat × Nat × Nat) : List Nat := [q.1, q.2.1, q.2.2.1, q.2.2.2, r.1, r.2.1, r.2.2.1, r.2.2.2]

/-- Does a merge give four NaNs. -/
def mergeNan (q r : Nat × Nat × Nat × Nat) : Bool :=
  (eightOf q r).any (fun x => (decodeF fF32 x).isNan) || decodeF fF32 q.1 = .inf false || decodeF fF32 r.1 = .inf false

/-- The greater score. -/
def mergeMax (a b : Nat) : Nat :=
  if FVal.cmp (decodeF fF32 a) (decodeF fF32 b) < 0 then b
  else if FVal.cmp (decodeF fF32 a) (decodeF fF32 b) = 0 then (if a ≥ b then b else a) else a

/-- The weight of a quad's sums against the greater score. -/
def mergeWeight (m x : Nat) : FVal :=
  if decodeF fF32 x = .inf true then .fin false 0 0
  else decodeF fF32 (exp2Of (FVal.add .rne (decodeF fF32 x) (decodeF fF32 m).neg))

/-- Two sums weighted. -/
def mergeMix (cx cy : FVal) (x y : Nat) : Nat := roundN32 (FVal.add .rne (FVal.mul (decodeF fF32 x) cx) (FVal.mul (decodeF fF32 y) cy))

theorem lseMerge_eq (q r : Nat × Nat × Nat × Nat) : lseMerge q r =
    if mergeNan q r then (fF32.nan, fF32.nan, fF32.nan, fF32.nan)
    else
      let c := mergeWeight (mergeMax q.1 r.1)
      (mergeMax q.1 r.1, mergeMix (c q.1) (c r.1) q.2.1 r.2.1, mergeMix (c q.1) (c r.1) q.2.2.1 r.2.2.1,
        mergeMix (c q.1) (c r.1) q.2.2.2 r.2.2.2) := by
  obtain ⟨ma, sa, a0, a1⟩ := q
  obtain ⟨mb, sb, b0, b1⟩ := r
  rfl

theorem mergeNan_comm (q r : Nat × Nat × Nat × Nat) : mergeNan q r = mergeNan r q := by
  have hperm : (eightOf q r).Perm (eightOf r q) :=
    List.perm_append_comm (l₁ := [q.1, q.2.1, q.2.2.1, q.2.2.2]) (l₂ := [r.1, r.2.1, r.2.2.1, r.2.2.2])
  unfold mergeNan
  rw [hperm.any_eq, Bool.or_assoc, Bool.or_assoc, Bool.or_comm (decide (decodeF fF32 q.1 = .inf false))]

theorem mergeMax_comm (a b : Nat) : mergeMax a b = mergeMax b a := by
  unfold mergeMax
  rw [FVal.cmp_swap (decodeF fF32 a) (decodeF fF32 b)]
  generalize FVal.cmp (decodeF fF32 a) (decodeF fF32 b) = z
  split_ifs <;> omega

theorem mergeMix_comm (cx cy : FVal) (x y : Nat) : mergeMix cx cy x y = mergeMix cy cx y x := by
  rw [mergeMix, FVal.add_comm]
  rfl

theorem lseMerge_comm (q r : Nat × Nat × Nat × Nat) : lseMerge q r = lseMerge r q := by
  rw [lseMerge_eq, lseMerge_eq, mergeNan_comm, mergeMax_comm]
  dsimp only
  rw [mergeMix_comm _ _ q.2.1, mergeMix_comm _ _ q.2.2.1, mergeMix_comm _ _ q.2.2.2]

/-- The greater score is one of the two, and no less than either. -/
theorem mergeMax_spec (a b : Nat) : (mergeMax a b = a ∨ mergeMax a b = b) ∧ 0 ≤ FVal.cmp (decodeF fF32 (mergeMax a b)) (decodeF fF32 a) ∧
    0 ≤ FVal.cmp (decodeF fF32 (mergeMax a b)) (decodeF fF32 b) := by
  have hswap := FVal.cmp_swap (decodeF fF32 a) (decodeF fF32 b)
  have ha := FVal.cmp_self (decodeF fF32 a)
  have hb := FVal.cmp_self (decodeF fF32 b)
  unfold mergeMax
  split_ifs with h1 h2 h3
  · exact ⟨.inr rfl, by omega, by omega⟩
  · exact ⟨.inr rfl, by omega, by omega⟩
  · exact ⟨.inl rfl, by omega, by omega⟩
  · exact ⟨.inl rfl, by omega, by omega⟩

theorem mergeNan_iff (q r : Nat × Nat × Nat × Nat) : mergeNan q r = true ↔
    (∃ x ∈ eightOf q r, decodeF fF32 x = .nan) ∨ decodeF fF32 q.1 = .inf false ∨ decodeF fF32 r.1 = .inf false := by
  simp only [mergeNan, Bool.or_eq_true, List.any_eq_true, FVal.isNan_iff, decide_eq_true_eq, or_assoc]

/-! A quad with a score of -∞. -/

/-- Half of a sum that has the whole weight. -/
def oneF : FVal := .fin false (2 ^ 23) (-23)

theorem decodeF_one : decodeF fF32 0x3F800000 = oneF := by decide

theorem add_neg_self {s : Bool} {m : Nat} {e : Int} : FVal.add .rne (.fin s m e) (FVal.neg (.fin s m e)) = .fin false 0 0 := by
  unfold FVal.neg FVal.add
  by_cases hm : m = 0
  · cases s <;> simp [hm]
  · cases s <;> simp [hm, scaled]

theorem mergeWeight_self {m : Nat} (h : (decodeF fF32 m).isSpecial = false) : mergeWeight m m = oneF := by
  obtain ⟨s, n, e, heq⟩ : ∃ s n e, decodeF fF32 m = .fin s n e := by
    cases hd : decodeF fF32 m with
    | nan => rw [hd] at h; cases h
    | inf s => rw [hd] at h; cases h
    | fin s n e => exact ⟨s, n, e, rfl⟩
  unfold mergeWeight
  rw [heq, if_neg (by intro h; cases h), add_neg_self, ← decodeF_one]
  rfl

theorem isSpecial_false {x : FVal} (h : x.isSpecial = false) : x ≠ .nan ∧ ∀ s, x ≠ .inf s := by
  constructor
  · rintro rfl
    cases h
  · rintro s rfl
    cases h

/-- A sum with the whole weight, and one with none: the first is what it was. -/
theorem mergeMix_one {x y : Nat} (hx : x < 2 ^ 32) (hfx : (decodeF fF32 x).isSpecial = false) (hfy : (decodeF fF32 y).isSpecial = false)
    (hne : x ≠ 0x80000000) : mergeMix oneF (.fin false 0 0) x y = x := by
  have hfits : fF32.Fits := fits_of_mem (by decide)
  have hp : x < 2 ^ fF32.bits := hx
  obtain ⟨hnan, hinf⟩ := isSpecial_false hfx
  obtain ⟨hmax, hdx⟩ := decodeF_finite hp hinf hnan
  obtain ⟨t, n, g, hdy⟩ : ∃ t n g, decodeF fF32 y = .fin t n g := by
    cases hd : decodeF fF32 y with
    | nan => exact absurd hd (isSpecial_false hfy).1
    | inf s => exact absurd hd ((isSpecial_false hfy).2 s)
    | fin t n g => exact ⟨t, n, g, rfl⟩
  have hscaled := roundF_scaled hfits .rne 0 false hp hmax 23
  unfold mergeMix oneF
  rw [hdx, hdy]
  by_cases hz : fieldSig fF32 (x % fF32.signBit / 2 ^ fF32.mbits) (x % fF32.signBit % 2 ^ fF32.mbits) = 0
  · have hzero : x % 2 ^ 31 = 0 := by
      have hpos : 0 < 2 ^ fF32.mbits := by decide
      have hdiv := Nat.div_add_mod (x % fF32.signBit) (2 ^ fF32.mbits)
      unfold fieldSig at hz
      split at hz
      · next he =>
        rw [he, hz] at hdiv
        exact hdiv.symm
      · omega
    obtain rfl : x = 0 := by omega
    cases t <;> simp [fieldSig, fF32, Fmt.signBit, FVal.mul, FVal.add, roundN32, roundF, Fmt.signed]
  · have hmul : fieldSig fF32 (x % fF32.signBit / 2 ^ fF32.mbits) (x % fF32.signBit % 2 ^ fF32.mbits) * 2 ^ 23 ≠ 0 :=
      Nat.mul_ne_zero hz (by decide)
    unfold FVal.mul FVal.add
    dsimp only
    rw [Nat.mul_zero, if_neg (by simpa using fun h => absurd h hz), if_neg hmul, if_pos rfl, Bool.bne_false]
    exact hscaled

/-- A quad of finite patterns comes back from a merge with a score of -∞. -/
theorem lseMerge_negInf {q r : Nat × Nat × Nat × Nat} (hlt : ∀ x ∈ eightOf q r, x < 2 ^ 32) (hr : r.1 = 0xFF800000)
    (hfin : ∀ x ∈ (eightOf q r).eraseIdx 4, (decodeF fF32 x).isSpecial = false)
    (hne : ∀ x ∈ [q.2.1, q.2.2.1, q.2.2.2], x ≠ 0x80000000) : lseMerge q r = q := by
  have hinf : decodeF fF32 r.1 = .inf true := by rw [hr]; decide
  have hq1 : (decodeF fF32 q.1).isSpecial = false := hfin _ (by simp [eightOf])
  have hmax : mergeMax q.1 r.1 = q.1 := by
    obtain ⟨hnan, hni⟩ := isSpecial_false hq1
    unfold mergeMax
    rw [hinf]
    cases hd : decodeF fF32 q.1 with
    | nan => exact absurd hd hnan
    | inf s => exact absurd hd (hni s)
    | fin s m e => rfl
  have hnone : mergeNan q r = false := by
    rw [Bool.eq_false_iff]
    intro h
    rcases (mergeNan_iff q r).1 h with ⟨x, hx, hnan⟩ | hpos | hpos
    · simp only [eightOf, List.mem_cons, List.not_mem_nil, or_false] at hx
      have hspec : x = r.1 ∨ (decodeF fF32 x).isSpecial = false := by
        rcases hx with h | h | h | h | h | h | h | h
        · exact .inr (hfin x (by simp [eightOf, h]))
        · exact .inr (hfin x (by simp [eightOf, h]))
        · exact .inr (hfin x (by simp [eightOf, h]))
        · exact .inr (hfin x (by simp [eightOf, h]))
        · exact .inl h
        · exact .inr (hfin x (by simp [eightOf, h]))
        · exact .inr (hfin x (by simp [eightOf, h]))
        · exact .inr (hfin x (by simp [eightOf, h]))
      rcases hspec with rfl | hspec
      · rw [hinf] at hnan
        cases hnan
      · exact (isSpecial_false hspec).1 hnan
    · exact (isSpecial_false hq1).2 _ hpos
    · rw [hinf] at hpos
      cases hpos
  have hwr : mergeWeight q.1 r.1 = .fin false 0 0 := by
    unfold mergeWeight
    rw [if_pos hinf]
  have hmix {x y : Nat} (hx : x ∈ [q.2.1, q.2.2.1, q.2.2.2]) (hy : y ∈ [r.2.1, r.2.2.1, r.2.2.2]) :
      mergeMix oneF (.fin false 0 0) x y = x := by
    simp only [List.mem_cons, List.not_mem_nil, or_false] at hx hy
    refine mergeMix_one (hlt x ?_) (hfin x ?_) (hfin y ?_) (hne x (by simpa using hx))
    · rcases hx with rfl | rfl | rfl <;> simp [eightOf]
    · rcases hx with rfl | rfl | rfl <;> simp [eightOf]
    · rcases hy with rfl | rfl | rfl <;> simp [eightOf]
  rw [lseMerge_eq, hnone]
  dsimp only
  rw [hmax, mergeWeight_self hq1, hwr, hmix (by simp) (by simp), hmix (by simp) (by simp), hmix (by simp) (by simp)]
  rfl

/-! CVT (R241). -/

/-- The register that a conversion writes: the extended value, or the slot put among the others of the old register. -/
def cvtVal (x : CvtA) (old : Nat) (p : Nat) : DWord :=
  if x.dty.width < 32 then
    BitVec.ofNat 64 (old - old / 2 ^ (x.dty.width * x.dsel.toNat) % 2 ^ x.dty.width * 2 ^ (x.dty.width * x.dsel.toNat) +
      p * 2 ^ (x.dty.width * x.dsel.toNat))
  else if x.dty.isInt then BitVec.ofInt 64 (toIntN x.dty.width x.dty.isSigned p) else BitVec.ofNat 64 p

/-- What a conversion draws in a lane. -/
def cvtDraw (x : CvtA) (g : Group) (l : Nat) : Nat := if x.rnd = .sr then (srStep (stGet g.sr l)).toNat else 0

theorem regs_of_narrow {ty : Ty} (h : ty.width < 32) : ty.regs = 1 := by
  unfold Ty.regs
  rw [if_neg]
  simp only [beq_iff_eq]
  omega

theorem cvtPut_eq (g : Group) (x : CvtA) (l p : Nat) : cvtPut g x l p =
    setDst g x.d x.dty.regs l (cvtVal x (srcD g x.d x.dty.regs l).toNat p) := by
  unfold cvtPut cvtVal
  dsimp only
  split
  · next h => rw [regs_of_narrow h]; rfl
  · split <;> rfl

/-- A lane's conversion, from the registers before the instruction. -/
theorem cvtLane_eq (x : CvtA) (g0 g : Group) (l : Nat) : ∃ sr, cvtLane x g0 g l = setDst { g with sr := sr } x.d x.dty.regs l
    (cvtVal x (srcD g x.d x.dty.regs l).toNat (cvtPat x (cvtSrc g0 x l) (cvtDraw x g0 l))) := by
  have hsrc (sr : Store 32) (o : Opnd) (w k : Nat) : srcD { g with sr := sr } o w k = srcD g o w k := by cases o <;> rfl
  unfold cvtLane cvtDraw
  dsimp only
  by_cases hr : x.rnd = .sr
  · rw [if_pos (by rw [cvtDraws, hr]; rfl), if_pos hr, cvtPut_eq, hsrc]
    exact ⟨_, rfl⟩
  · rw [if_neg (by simpa [cvtDraws] using hr), if_neg hr, cvtPut_eq]
    exact ⟨g.sr, rfl⟩

/-- Serving every active lane of a destination with a value of what the lane held before. -/
theorem runLanes_setDst_old (c : Ctx) (d : Opnd) (w : Nat) (f : Group → Nat → Group) (F : DWord → Nat → DWord)
    (hf : ∀ g l, ∃ sr, f g l = setDst { g with sr := sr } d w l (F (srcD g d w l) l)) (hd : d.isV = true ∨ d.isG = true) {l : Nat}
    (hl : l ∈ c.lanes) : srcD (runLanes c d f) d w l = seen d w (F (srcD c.g d w (laneFor c d l)) (laneFor c d l)) := by
  have hsrc (g : Group) (sr : Store 32) (k : Nat) : srcD { g with sr := sr } d w k = srcD g d w k := by cases d <;> rfl
  unfold runLanes laneFor
  by_cases hv : d.isV = true
  · simp only [hv, Bool.true_or, if_true]
    refine foldl_lane_old c.lanes (lanesOf_nodup c.act) f (fun g l => srcD g d w l) (fun g l => srcD g d w l)
      (fun l => seen d w (F (srcD c.g d w l) l)) c.g (fun h k hk hold => ?_) (fun h k m hk hm hne => ?_) (fun h k m hk hm hne => ?_) l hl
    · obtain ⟨sr, he⟩ := hf h k
      have hold : srcD h d w k = srcD c.g d w k := hold
      rw [he, srcD_setDst_same _ d w k _ (c.lanes_lt k hk) hd, hold]
    · obtain ⟨sr, he⟩ := hf h k
      rw [he, srcD_setDst_lane _ d w k m _ (c.lanes_lt k hk) (c.lanes_lt m hm) hne hv, hsrc]
    · obtain ⟨sr, he⟩ := hf h k
      rw [he, srcD_setDst_lane _ d w k m _ (c.lanes_lt k hk) (c.lanes_lt m hm) hne hv, hsrc]
  · have hg : d.isG = true := by simpa [hv] using hd
    obtain ⟨n, rfl⟩ : ∃ n, d = .g n := by
      cases d with
      | v n => simp [Opnd.isG, Opnd.cls] at hg
      | g n => exact ⟨n, rfl⟩
      | im _ => simp [Opnd.isG, Opnd.cls] at hg
      | sp sel idx => simp [sp_notG] at hg
    have hp : (Opnd.g n).isV = false ∧ ((Opnd.g n).cls == Cls.pred) = false := ⟨rfl, rfl⟩
    simp only [hp.1, hp.2, Bool.or_self, if_false, Bool.false_eq_true, c.any_of_lane l hl, if_true]
    obtain ⟨sr, he⟩ := hf c.g c.low
    rw [he]
    exact srcD_setDst_same { c.g with sr := sr } (.g n) w c.low _ (c.lanes_lt _ (c.low_mem l hl)) hd

theorem goesOn_cvt {s : State} {c : Ctx} {x : CvtA} (hc : ctxOf s x.h = some c) (hwf : WellFormed (.cvt x) = true) :
    GoesOn c (exec (.cvt x) s) fun _ g => ∀ l ∈ c.lanes, srcD g x.d x.dty.regs l = seen x.d x.dty.regs
      (cvtVal x (srcD c.g x.d x.dty.regs (laneFor c x.d l)).toNat
        (cvtPat x (cvtSrc c.g x (laneFor c x.d l)) (cvtDraw x c.g (laneFor c x.d l)))) := by
  have hd : x.d.isV = true ∨ x.d.isG = true := wf_dst hwf ⟨0, x.d, cVU, x.dty.regs, x.dty.width < 32, true⟩ (by simp [args]) rfl
  rw [show exec (.cvt x) s = execCvt x s from rfl, execCvt, withIssue_of hc]
  refine goesOn_fixed hc false x.d x.dty.regs 6 _ (runLanes_keeps c x.d _ Group.id fun g l => ?_)
    (runLanes_keeps c x.d _ frontOf fun g l => ?_) fun outs l hl => ?_
  · obtain ⟨sr, he⟩ := cvtLane_eq x c.g g l
    rw [he, id_setDst]
  · obtain ⟨sr, he⟩ := cvtLane_eq x c.g g l
    rw [he, frontOf_setDst]
    rfl
  · rw [srcD_retire]
    exact runLanes_setDst_old c x.d x.dty.regs (cvtLane x c.g)
      (fun old l => cvtVal x old.toNat (cvtPat x (cvtSrc c.g x l) (cvtDraw x c.g l))) (cvtLane_eq x c.g) hd hl

/-! LSEMRG (R243). -/

/-- One part of a quad. -/
def quadPart (r : Nat × Nat × Nat × Nat) : Nat → Nat
  | 0 => r.1
  | 1 => r.2.1
  | 2 => r.2.2.1
  | _ => r.2.2.2

theorem getV_putQuad (g : Group) (o : Opnd) (r : Nat × Nat × Nat × Nat) {l k : Nat} (hl : l < 32) (hk : k < 32) {i : Nat} (hi : i < 4) :
    getV (putQuad g o l r) (o.vIdx + i) k = if k = l then BitVec.ofNat 32 (quadPart r i) else getV g (o.vIdx + i) k := by
  unfold putQuad
  dsimp only
  rw [getV_setV _ _ _ _ _ _ hl hk, getV_setV _ _ _ _ _ _ hl hk, getV_setV _ _ _ _ _ _ hl hk, getV_setV _ _ _ _ _ _ hl hk]
  by_cases hkl : k = l
  · obtain rfl | rfl | rfl | rfl : i = 0 ∨ i = 1 ∨ i = 2 ∨ i = 3 := by omega
    · simp [hkl, quadPart]
    · simp [hkl, quadPart]
    · simp [hkl, quadPart]
    · simp [hkl, quadPart]
  · simp [hkl]

theorem id_putQuad (g : Group) (o : Opnd) (l : Nat) (r : Nat × Nat × Nat × Nat) : (putQuad g o l r).id = g.id := rfl

theorem frontOf_putQuad (g : Group) (o : Opnd) (l : Nat) (r : Nat × Nat × Nat × Nat) : frontOf (putQuad g o l r) = frontOf g := rfl

theorem goesOn_lsemrg {s : State} {c : Ctx} {x : FBin} (hc : ctxOf s x.h = some c) (hwf : WellFormed (.lsemrg x) = true) :
    GoesOn c (exec (.lsemrg x) s) fun _ g => ∀ l ∈ c.lanes, ∀ i < 4, getV g (x.d.vIdx + i) l =
      BitVec.ofNat 32 (quadPart (lseMerge (quadOf c.g x.a l) (quadOf c.g x.b l)) i) := by
  have hd : x.d.isV = true := wf_vec hwf (aD x.d [.vec] 4) (by simp [args]) rfl
  rw [show exec (.lsemrg x) s = execLsemrg x s from rfl, execLsemrg, withIssue_of hc]
  refine goesOn_fixed hc false x.d 4 16 _ (runLanes_keeps c x.d _ Group.id fun g l => id_putQuad ..)
    (runLanes_keeps c x.d _ frontOf fun g l => frontOf_putQuad ..) fun outs l hl i hi => ?_
  rw [getV_retire]
  unfold runLanes
  simp only [hd, Bool.true_or, if_true]
  refine foldl_lane c.lanes (lanesOf_nodup c.act) _ (fun g l => getV g (x.d.vIdx + i) l)
    (fun l => BitVec.ofNat 32 (quadPart (lseMerge (quadOf c.g x.a l) (quadOf c.g x.b l)) i)) (fun g l h => ?_) (fun g l k h hk hne => ?_)
    c.g l hl
  · rw [getV_putQuad _ _ _ (c.lanes_lt l h) (c.lanes_lt l h) hi, if_pos rfl]
  · rw [getV_putQuad _ _ _ (c.lanes_lt l h) (c.lanes_lt k hk) hi, if_neg hne]

end Sys2Proof.Machine

open Sys2Proof Sys2Proof.Machine

/-- Settles O6: each lane's conversion is put into its register; a value that a format holds lies on the grid that rounding takes it to; the
merge is symmetric, and a quad of score -∞ has no weight in it. -/
theorem conversionAndMerge : Obligations.ConversionAndMerge := by
  unfold Obligations.ConversionAndMerge
  refine ⟨fun s c x hc hwf => (goesOn_cvt hc hwf).imp fun _ g h l hl => ?_, fun f hf mode r sat p hp hinf hnan =>
    roundF_decodeF (fits_of_mem hf) mode r sat hp hinf hnan, fun s c x hc hwf => (goesOn_lsemrg hc hwf).imp fun _ g h l hl => ?_,
    lseMerge_comm, fun q r h => ?_, fun q r hnan hq hr => ?_, fun q r hlt hr hfin hne => lseMerge_negInf hlt hr hfin hne, ?_⟩
  · rw [h l hl]
    by_cases hn : x.dty.width < 32
    · rw [cvtVal, if_pos hn, regs_of_narrow hn]
      exact congrArg (seen x.d 1) (if_pos hn).symm
    · rw [cvtVal, if_neg hn]
      exact congrArg (seen x.d x.dty.regs) (if_neg hn).symm
  · exact ⟨h l hl 0 (by decide), h l hl 1 (by decide), h l hl 2 (by decide), h l hl 3 (by decide)⟩
  · rw [lseMerge_eq, if_pos ((mergeNan_iff q r).2 h), show fF32.nan = 0x7FC00000 by decide +kernel]
  · have hnone : mergeNan q r = false := by
      rw [Bool.eq_false_iff]
      intro h
      rcases (mergeNan_iff q r).1 h with ⟨x, hx, hxn⟩ | h | h
      · exact hnan x hx hxn
      · exact hq h
      · exact hr h
    have hm : (lseMerge q r).1 = mergeMax q.1 r.1 := by
      rw [lseMerge_eq, if_neg (by rw [hnone]; exact Bool.false_ne_true)]
    dsimp only
    rw [hm]
    exact mergeMax_spec q.1 r.1
  · decide +kernel

end

section
/-! PROOFS. Collectives whose sub-groups have converged (spec/10_control_instructions.md R265 to R267; spec/06_execution_model.md R167): no
other entry joins, every participant reads what its sub-group held before, and the frontier moves on. -/

set_option Elab.async false

namespace Sys2Proof.Machine

/-! Sub-groups. -/

theorem lanes_cases (p : Part) : p.lanes = 0 ∨ p.lanes ∈ [4, 8, 16] := by
  unfold Part.lanes
  split <;> simp

theorem subMask_bit : ∀ n ∈ [4, 8, 16], ∀ b ∈ (List.range (32 / n)).map (· * n), ∀ k < 32,
    (subMask n b).getLsbD k = (k / n * n == b) := by decide +kernel

theorem nodup_bases : ∀ n ∈ [4, 8, 16], ((List.range (32 / n)).map (· * n)).Nodup := by decide +kernel

theorem base_mem : ∀ n ∈ [4, 8, 16], ∀ k < 32, k / n * n ∈ (List.range (32 / n)).map (· * n) := by decide +kernel

section parts
variable {p : Part} (hp : p.lanes ≠ 0)
include hp

theorem lanes_mem : p.lanes ∈ [4, 8, 16] := (lanes_cases p).resolve_left hp

theorem bases_eq : p.bases = (List.range (32 / p.lanes)).map (· * p.lanes) := if_neg hp

theorem getLsbD_subMask {b k : Nat} (hb : b ∈ p.bases) (hk : k < 32) : (subMask p.lanes b).getLsbD k = (k / p.lanes * p.lanes == b) :=
  subMask_bit _ (lanes_mem hp) b (bases_eq hp ▸ hb) k hk

theorem mem_bases {k : Nat} (hk : k < 32) : k / p.lanes * p.lanes ∈ p.bases := bases_eq hp ▸ base_mem _ (lanes_mem hp) k hk

theorem same_base {k l : Nat} : k / p.lanes * p.lanes = l / p.lanes * p.lanes ↔ k / p.lanes = l / p.lanes :=
  ⟨fun h => Nat.eq_of_mul_eq_mul_right (Nat.pos_of_ne_zero hp) h, fun h => by rw [h]⟩

/-- The participants of the sub-group at a base. -/
theorem lanesOf_sub (c : Ctx) {l : Nat} (hl : l < 32) :
    lanesOf (c.act &&& p.mem &&& subMask p.lanes (l / p.lanes * p.lanes)) = participants c p l := by
  show List.filter _ _ = List.filter _ (List.filter _ _)
  rw [List.filter_filter]
  refine List.filter_congr fun k hk => ?_
  have hk := List.mem_range.1 hk
  rw [BitVec.getLsbD_and, BitVec.getLsbD_and, getLsbD_subMask hp (mem_bases hp hl) hk, Bool.and_assoc, Bool.and_comm]
  congr 2
  rw [Bool.eq_iff_iff, beq_iff_eq, beq_iff_eq, same_base hp]

end parts

theorem mem_participants {c : Ctx} {p : Part} {l k : Nat} :
    k ∈ participants c p l ↔ k ∈ c.lanes ∧ p.mem.getLsbD k = true ∧ k / p.lanes = l / p.lanes := by
  simp only [participants, List.mem_filter, Bool.and_eq_true, beq_iff_eq]

/-- What is captured of the active lanes. -/
theorem capOf_lane {c : Ctx} (a : Nat → BitVec 128) {k : Nat} (hk : k ∈ c.lanes) : capOf (c.lanes.map fun l => (l, a l)) k = a k := by
  unfold capOf
  rw [List.find?_map]
  have hf : c.lanes.find? ((fun v : Nat × BitVec 128 => v.1 == k) ∘ fun l => (l, a l)) = some k := by
    have hs : (c.lanes.find? ((fun v : Nat × BitVec 128 => v.1 == k) ∘ fun l => (l, a l))).isSome = true := by
      rw [List.find?_isSome]
      exact ⟨k, hk, beq_self_eq_true k⟩
    obtain ⟨x, hx⟩ := Option.isSome_iff_exists.1 hs
    have hxk := List.find?_some hx
    rw [hx, show x = k from eq_of_beq hxk]
  rw [hf]
  rfl

/-! Serving the participants. -/

section run
variable (i : Instr) (c : Ctx) (av bv : List (Nat × BitVec 128))

/-- A lane of a collective, served with the participants of its sub-group. -/
def collServe (p : Part) (g : Group) (l : Nat) : Group := collLane i p.lanes (l / p.lanes * p.lanes) (participants c p l) av bv g l

/-- The lanes that a collective serves, in its order. -/
def collOrder (p : Part) : List Nat := p.bases.flatMap fun b => lanesOf (c.act &&& p.mem &&& subMask p.lanes b)

variable {c} {p : Part} (hp : p.lanes ≠ 0)
include hp

theorem base_of_mem {b l : Nat} (hb : b ∈ p.bases) (hl : l ∈ lanesOf (c.act &&& p.mem &&& subMask p.lanes b)) :
    l < 32 ∧ c.act.getLsbD l = true ∧ p.mem.getLsbD l = true ∧ l / p.lanes * p.lanes = b := by
  obtain ⟨hlt, hbit⟩ := (mem_lanesOf _ l).1 hl
  rw [BitVec.getLsbD_and, BitVec.getLsbD_and, getLsbD_subMask hp hb hlt, Bool.and_eq_true, Bool.and_eq_true, beq_iff_eq] at hbit
  obtain ⟨⟨hact, hmem⟩, hbase⟩ := hbit
  exact ⟨hlt, hact, hmem, hbase⟩

theorem mem_collOrder {l : Nat} : l ∈ collOrder c p ↔ l ∈ c.lanes ∧ p.mem.getLsbD l = true := by
  constructor
  · intro h
    obtain ⟨b, hb, hl⟩ := List.mem_flatMap.1 h
    obtain ⟨hlt, hact, hmem, -⟩ := base_of_mem hp hb hl
    exact ⟨(mem_lanesOf _ l).2 ⟨hlt, hact⟩, hmem⟩
  · rintro ⟨hl, hmem⟩
    have hlt := c.lanes_lt l hl
    refine List.mem_flatMap.2 ⟨_, mem_bases hp hlt, ?_⟩
    rw [lanesOf_sub hp c hlt, mem_participants]
    exact ⟨hl, hmem, rfl⟩

theorem nodup_collOrder : (collOrder c p).Nodup := by
  refine List.nodup_flatMap.2 ⟨fun b _ => lanesOf_nodup _, ?_⟩
  refine (bases_eq hp ▸ nodup_bases _ (lanes_mem hp)).pairwise_of_forall_ne fun b hb d hd hne l hl hm => ?_
  exact hne ((base_of_mem hp hb hl).2.2.2.symm.trans (base_of_mem hp hd hm).2.2.2)

end run

theorem collRun_eq (i : Instr) (c : Ctx) (av bv : List (Nat × BitVec 128)) (hp : (partOf c.g (collPart i)).lanes ≠ 0) :
    collRun i c.g c.act av bv =
      (collOrder c (partOf c.g (collPart i))).foldl (collServe i c av bv (partOf c.g (collPart i))) c.g := by
  unfold collRun collOrder
  rw [List.foldl_flatMap]
  refine List.foldl_ext _ _ _ fun g b hb => List.foldl_ext _ _ _ fun g l hl => ?_
  obtain ⟨hlt, -, -, rfl⟩ := base_of_mem hp hb hl
  rw [collServe, lanesOf_sub hp c hlt]

/-! Nothing joins, and the entry goes on. -/

/-- An entry that stands elsewhere, or with another priority, does not join. -/
theorem joinOnce_apart (p : Part) (a : Arrived) (h : ∀ x ∈ a.rest, x.pc ≠ a.e.pc ∨ x.prio ≠ a.e.prio) : joinOnce p a = a := by
  have hfold : ∀ (xs pre : List Entry), (∀ x ∈ xs, x.pc ≠ a.e.pc ∨ x.prio ≠ a.e.prio) →
      xs.foldl (fun acc x => match x.st with
        | .waiting (.coll _ act av bv) _ =>
          if x.pc = a.e.pc ∧ x.prio = a.e.prio ∧ x.mask &&& subsOf p acc.e.mask ≠ 0 then
            { acc with e := { acc.e with mask := acc.e.mask ||| x.mask }, act := acc.act ||| act, av := acc.av ++ av, bv := acc.bv ++ bv }
          else { acc with rest := acc.rest ++ [x] }
        | _ => { acc with rest := acc.rest ++ [x] }) { a with rest := pre } = { a with rest := pre ++ xs } := by
    intro xs
    induction xs with
    | nil => intro pre _; rw [List.append_nil]; rfl
    | cons x r ih =>
      intro pre hx
      rw [List.foldl_cons]
      have hno : ¬ (x.pc = a.e.pc ∧ x.prio = a.e.prio ∧ x.mask &&& subsOf p a.e.mask ≠ 0) := by
        rintro ⟨h1, h2, -⟩
        rcases hx x (List.mem_cons_self ..) with h | h
        · exact h h1
        · exact h h2
      have := ih (pre ++ [x]) fun y hy => hx y (List.mem_cons_of_mem _ hy)
      rw [List.append_assoc, List.singleton_append] at this
      rw [← this]
      congr 1
      split
      · exact if_neg hno
      · rfl
  exact (hfold a.rest [] h).trans (by rw [List.nil_append])

theorem joinColl_apart (p : Part) (a : Arrived) (h : ∀ x ∈ a.rest, x.pc ≠ a.e.pc ∨ x.prio ≠ a.e.prio) : joinColl p a = a := by
  unfold joinColl
  generalize List.range a.rest.length = ks
  induction ks with
  | nil => rfl
  | cons k r ih => rw [List.foldl_cons, joinOnce_apart p a h, ih]

theorem getLsbD_orMasks (es : List Entry) (m : LaneMask) (l : Nat) :
    (es.foldl (fun m e => m ||| e.mask) m).getLsbD l = (m.getLsbD l || es.any fun e => e.mask.getLsbD l) := by
  induction es generalizing m with
  | nil => simp
  | cons e r ih => rw [List.foldl_cons, ih, BitVec.getLsbD_or, List.any_cons, Bool.or_assoc]

theorem zero_bit (l : Nat) : (0 : LaneMask).getLsbD l = false := BitVec.getLsbD_zero

theorem mem_ready_addReady (f : List Entry) (e : Entry) (h : e.st = .ready) : ∃ x ∈ addReady f e, x.st = .ready := by
  induction f with
  | nil => exact ⟨e, List.mem_singleton.2 rfl, h⟩
  | cons y r ih =>
    unfold addReady
    split
    · next hy => exact ⟨_, List.mem_cons_self .., hy.1⟩
    · obtain ⟨x, hx, hs⟩ := ih
      exact ⟨x, List.mem_cons_of_mem _ hx, hs⟩

/-- The entry as a collective meets it. -/
abbrev collEntry (c : Ctx) : Entry := ⟨c.u.pc, c.u.prio, c.u.mask, 0, .ready⟩

theorem converged_of {c : Ctx} {k : Nat} (hc : Converged c (partOf c.g k)) :
    converged c.g (collEntry c :: others c.u (frontOf c.g)) c.u.pc c.u.prio c.u.mask k = true := by
  obtain ⟨hp, -, hapart⟩ := hc
  refine List.all_eq_true.2 fun b hb => ?_
  dsimp only
  by_cases hz : (c.u.mask &&& subMask (partOf c.g k).lanes b == 0) = true
  · rw [hz, Bool.true_or]
  · obtain ⟨m, hm⟩ : ∃ m, (c.u.mask &&& subMask (partOf c.g k).lanes b).getLsbD m = true := by
      by_contra hno
      exact hz (beq_iff_eq.2 (BitVec.eq_of_getLsbD_eq fun m _ => by
        rw [zero_bit]
        exact Bool.eq_false_iff.2 fun h => hno ⟨m, h⟩))
    have hm32 : m < 32 := BitVec.lt_of_getLsbD hm
    rw [BitVec.getLsbD_and, getLsbD_subMask hp hb hm32, Bool.and_eq_true, beq_iff_eq] at hm
    obtain ⟨hmu, hmb⟩ := hm
    rw [Bool.or_eq_true]
    refine .inr (beq_iff_eq.2 (BitVec.eq_of_getLsbD_eq fun l hl => ?_))
    rw [zero_bit, BitVec.getLsbD_and, BitVec.getLsbD_and, BitVec.getLsbD_and, BitVec.getLsbD_not, BitVec.getLsbD_or, getLsbD_orMasks,
      getLsbD_subMask hp hb hl, List.any_cons, Bool.eq_false_iff]
    intro h
    simp only [Bool.and_eq_true, beq_iff_eq, Bool.or_eq_true, zero_bit, Bool.false_eq_true, false_or, List.any_eq_true,
      Bool.not_eq_true', Bool.or_eq_false_iff] at h
    obtain ⟨⟨⟨hlb, hlm⟩, hlive⟩, -, hlu, -⟩ := h
    rcases hlive with hlive | ⟨e, he, hle⟩
    · exact Bool.false_ne_true (hlu.symm.trans hlive)
    · exact (hapart e he).2 l hl hle hlm m hm32 hmu ((same_base hp).1 (hmb.trans hlb.symm))

/-- An instruction that gives the frontier in which its entry has moved on. -/
theorem goesOn_placed {c : Ctx} {h : Hdr} {sw : Bool} {s' : State} {g' : Group} {outs : List Outst} (hg : groupOf s' c.r = some g')
    (room : (others c.u (frontOf c.g)).length < depthOf c.g) {P : State → Group → Prop}
    (hP : P { (modGroup s' c.r (retire c h sw (movedFront c (frontOf c.g)) outs none)) with issuing := none }
      (retire c h sw (movedFront c (frontOf c.g)) outs none g')) :
    GoesOn c (.next (complete c h sw (.ok s' (.placed (movedFront c (frontOf c.g))) outs none))) P := by
  have hlen : ¬ (movedFront c (frontOf c.g)).length > depthOf c.g := by
    have := length_addReady_le (others c.u (frontOf c.g)) ⟨nextPc c.u.pc, c.u.prio, c.u.mask, 0, .ready⟩
    unfold movedFront
    omega
  have hgroup : groupOf { (modGroup s' c.r (retire c h sw (movedFront c (frontOf c.g)) outs none)) with issuing := none } c.r =
      some (retire c h sw (movedFront c (frontOf c.g)) outs none g') := by
    show groupOf (modGroup s' c.r _) c.r = _
    rw [groupOf_modGroup_same _ _ _ fun g hid => by rw [id_retire]; exact hid, hg]
    rfl
  obtain ⟨e, he, hst⟩ : ∃ e ∈ movedFront c (frontOf c.g), e.st = .ready := mem_ready_addReady _ _ rfl
  have htest : stuckTest { (modGroup s' c.r (retire c h sw (movedFront c (frontOf c.g)) outs none)) with issuing := none } c.r =
      { (modGroup s' c.r (retire c h sw (movedFront c (frontOf c.g)) outs none)) with issuing := none } := by
    have hfree : stuck (retire c h sw (movedFront c (frontOf c.g)) outs none g') = false :=
      stuck_of_free (e := e) (by rw [frontOf_retire]; exact he) (by unfold Entry.waits; rw [hst])
    unfold stuckTest
    rw [hgroup]
    simp only [hfree, Bool.false_and, Bool.false_eq_true, if_false]
  refine ⟨_, _, ⟨congrArg Host.Outcome.next ?_, ?_, hgroup⟩, frontOf_retire .., hP⟩
  · show (if _ then _ else _) = _
    rw [if_neg (by simpa only [advance] using hlen)]
    exact htest
  · rfl

/-! What a collective computes. -/

theorem getV_congr {g h : Group} (hv : g.v = h.v) : getV g = getV h := by funext n k; unfold getV; rw [hv]

theorem srcD_congr {g h : Group} (hv : g.v = h.v) (hb : bankOf g = bankOf h) (o : Opnd) (w l : Nat) : srcD g o w l = srcD h o w l := by
  have hG : getG g = getG h := by funext n; unfold getG; rw [hb]
  have hP : getP g = getP h := by funext n k; unfold getP; rw [hb]
  have hM : getM g = getM h := by funext n; unfold getM; rw [hb]
  unfold srcD
  rw [getV_congr hv, hG, hP, hM]

/-- What serving a lane leaves in any field of the group that no write of a register reaches. -/
theorem collLane_keeps {α : Type} (q : Group → α) (hP : ∀ g n l b, q (setP g n l b) = q g) (hD : ∀ g o w l x, q (setDst g o w l x) = q g)
    (hQ : ∀ g o l x, q (setQ g o l x) = q g) (i : Instr) (size base : Nat) (ls : List Nat) (av bv : List (Nat × BitVec 128)) (g : Group) (l : Nat) :
    q (collLane i size base ls av bv g l) = q g := by
  unfold collLane
  dsimp only
  split
  · split
    · exact hP ..
    · exact hP ..
    · exact hP ..
    · exact hD ..
  · exact hD ..
  · split
    · rfl
    · split
      · exact hD ..
      · exact hD ..
      · exact hQ ..
  · exact hD ..
  · exact hD ..
  · rfl

theorem collRun_keeps {α : Type} (q : Group → α) (hP : ∀ g n l b, q (setP g n l b) = q g) (hD : ∀ g o w l x, q (setDst g o w l x) = q g)
    (hQ : ∀ g o l x, q (setQ g o l x) = q g) (i : Instr) (g : Group) (act : LaneMask) (av bv : List (Nat × BitVec 128)) :
    q (collRun i g act av bv) = q g :=
  foldl_holds (fun h => q h = q g) rfl fun h b hb => foldl_holds (fun h => q h = q g) hb fun h l hl => by rw [collLane_keeps q hP hD hQ, hl]

theorem collEnd_eq (i : Instr) (g : Group) (e : Entry) (act : LaneMask) (av bv : List (Nat × BitVec 128)) :
    ∃ sk, collEnd i g e act av bv = { collRun i g act av bv with skipped := sk } := ⟨_, rfl⟩

theorem reordered_collJoin (s : State) (r : GroupRef) (i : Instr) (act : LaneMask) (g : Group) : Reordered g (collJoin s r i act g) := by
  unfold collJoin
  split
  · exact .refl g
  · exact foldl_holds (Reordered g) (.refl g) fun x b hx => hx.trans (reordered_addPast ..)

theorem Reordered.regs {g g' : Group} (h : Reordered g g') : g'.v = g.v ∧ bankOf g' = bankOf g := by
  obtain ⟨o, rfl⟩ := h
  exact ⟨rfl, rfl⟩

/-- The values that a collective captures. -/
abbrev captured (c : Ctx) (a : Nat → BitVec 128) : List (Nat × BitVec 128) := c.lanes.map fun l => (l, a l)

theorem collective_eq {c : Ctx} (i : Instr) (a b : Nat → BitVec 128) (hconv : Converged c (partOf c.g (collPart i))) :
    collective c i a b = .ok (tick (putGroup c.s c.r (collJoin c.s c.r i c.act
      (collEnd i c.g (collEntry c) c.act (captured c a) (captured c b))))) (.placed (movedFront c (frontOf c.g)))
      (if c.act = 0 then [] else outFree c.s (collKeys i)) none := by
  have hjoin : joinColl (partOf c.g (collPart i)) ⟨collEntry c, c.act, captured c a, captured c b, others c.u (frontOf c.g)⟩ =
      ⟨collEntry c, c.act, captured c a, captured c b, others c.u (frontOf c.g)⟩ :=
    joinColl_apart _ _ fun x hx => (hconv.2.2 x hx).1
  unfold collective
  dsimp only
  rw [if_neg hconv.1, hjoin]
  dsimp only
  rw [if_pos (converged_of hconv)]
  rfl

/-- A group once a collective has ended, by the registers that it has computed. -/
theorem collJoin_spec (s : State) (r : GroupRef) (i : Instr) (g : Group) (e : Entry) (act : LaneMask) (av bv : List (Nat × BitVec 128)) :
    (collJoin s r i act (collEnd i g e act av bv)).id = g.id ∧ (collJoin s r i act (collEnd i g e act av bv)).v = (collRun i g act av bv).v ∧
      bankOf (collJoin s r i act (collEnd i g e act av bv)) = bankOf (collRun i g act av bv) := by
  have hre := reordered_collJoin s r i act (collEnd i g e act av bv)
  have hkept := collRun_keeps Group.id id_setP id_setDst id_setQ i g act av bv
  obtain ⟨sk, hend⟩ := collEnd_eq i g e act av bv
  generalize collJoin s r i act (collEnd i g e act av bv) = g2 at *
  rw [hend] at hre
  generalize collRun i g act av bv = g0 at *
  exact ⟨hre.id.trans hkept, hre.regs.1, hre.regs.2⟩

theorem goesOn_collective {s : State} {h : Hdr} {c : Ctx} (hc : ctxOf s h = some c) (i : Instr) (a b : Nat → BitVec 128)
    (hconv : Converged c (partOf c.g (collPart i))) :
    GoesOn c (.next (complete c h false (collective c i a b))) fun _ g => g.v = (collRun i c.g c.act (captured c a) (captured c b)).v ∧
      bankOf g = bankOf (collRun i c.g c.act (captured c a) (captured c b)) := by
  obtain ⟨hid, hv, hb⟩ := collJoin_spec c.s c.r i c.g (collEntry c) c.act (captured c a) (captured c b)
  rw [collective_eq i a b hconv]
  generalize collJoin c.s c.r i c.act (collEnd i c.g (collEntry c) c.act (captured c a) (captured c b)) = g' at *
  have hg : groupOf (tick (putGroup c.s c.r g')) c.r = some g' := groupOf_put c hc g' hid
  refine goesOn_placed hg hconv.2.1 ?_
  rw [v_retire, bankOf_retire]
  exact ⟨hv, hb⟩

section serve
variable {c : Ctx} {i : Instr} {av bv : List (Nat × BitVec 128)} (hp : (partOf c.g (collPart i)).lanes ≠ 0)
include hp

/-- What every participant reads after a collective, where a lane's service depends on what that lane held before. -/
theorem collRun_lane {α β : Type} (old : Group → Nat → β) (read : Group → Nat → α) (v : Nat → α)
    (hsame : ∀ g l, l ∈ c.lanes → old g l = old c.g l → read (collServe i c av bv (partOf c.g (collPart i)) g l) l = v l)
    (hold : ∀ g l k, l ∈ c.lanes → k ∈ c.lanes → k ≠ l → old (collServe i c av bv (partOf c.g (collPart i)) g l) k = old g k)
    (hother : ∀ g l k, l ∈ c.lanes → k ∈ c.lanes → k ≠ l → read (collServe i c av bv (partOf c.g (collPart i)) g l) k = read g k)
    {l : Nat} (hl : l ∈ c.lanes) (hm : (partOf c.g (collPart i)).mem.getLsbD l = true) :
    read (collRun i c.g c.act av bv) l = v l := by
  have hmem {k : Nat} (hk : k ∈ collOrder c (partOf c.g (collPart i))) : k ∈ c.lanes := ((mem_collOrder hp).1 hk).1
  rw [collRun_eq i c av bv hp]
  exact foldl_lane_old _ (nodup_collOrder hp) _ old read v c.g (fun g k hk => hsame g k (hmem hk))
    (fun g k m hk hm => hold g k m (hmem hk) (hmem hm)) (fun g k m hk hm => hother g k m (hmem hk) (hmem hm)) l
    ((mem_collOrder hp).2 ⟨hl, hm⟩)

/-- A collective that writes a vector register. -/
theorem collRun_setDst {d : Opnd} {w : Nat} (hd : d.isV = true) (F : Nat → DWord)
    (hserve : ∀ g, ∀ l ∈ c.lanes, collServe i c av bv (partOf c.g (collPart i)) g l = setDst g d w l (F l)) {l : Nat} (hl : l ∈ c.lanes)
    (hm : (partOf c.g (collPart i)).mem.getLsbD l = true) : srcD (collRun i c.g c.act av bv) d w l = seen d w (F l) := by
  refine collRun_lane hp (fun _ _ => ()) (fun g l => srcD g d w l) (fun l => seen d w (F l)) (fun g k hk _ => ?_) (fun _ _ _ _ _ _ => rfl)
    (fun g k m hk hm hne => ?_) hl hm
  · rw [hserve g k hk]
    exact srcD_setDst_same g d w k _ (c.lanes_lt k hk) (.inl hd)
  · rw [hserve g k hk]
    exact srcD_setDst_lane g d w k m _ (c.lanes_lt k hk) (c.lanes_lt m hm) hne hd

/-- A collective that writes a predicate. -/
theorem collRun_setP {n : Nat} (F : Nat → Bool) (hserve : ∀ g l, collServe i c av bv (partOf c.g (collPart i)) g l = setP g n l (F l))
    {l : Nat} (hl : l ∈ c.lanes) (hm : (partOf c.g (collPart i)).mem.getLsbD l = true) :
    getP (collRun i c.g c.act av bv) n l = (n == 7 || F l) := by
  refine collRun_lane hp (fun _ _ => ()) (fun g l => getP g n l) (fun l => n == 7 || F l) (fun g k hk _ => ?_) (fun _ _ _ _ _ _ => rfl)
    (fun g k m hk hm hne => ?_) hl hm
  · rw [hserve, getP_setP _ _ _ _ _ _ (c.lanes_lt k hk) (c.lanes_lt k hk)]
    by_cases h7 : n = 7
    · simp [h7, getP]
    · simp [h7]
  · rw [hserve, getP_setP _ _ _ _ _ _ (c.lanes_lt k hk) (c.lanes_lt m hm), if_neg fun h => hne h.2.1]

end serve

/-- A register that a vector destination names. -/
theorem getV_setDst (g : Group) {d : Opnd} (hd : d.isV = true) {w l k i : Nat} (x : DWord) (hl : l < 32) (hk : k < 32) (hi : i < 2) (hw : i < w) :
    getV (setDst g d w l x) (d.vIdx + i) k = if k = l then x.extractLsb' (32 * i) 32 else getV g (d.vIdx + i) k := by
  cases d with
  | v n =>
    show getV (if 2 ≤ w then setV (setV g n.toNat l _) (n.toNat + 1) l _ else setV g n.toNat l _) (n.toNat + i) k = _
    obtain rfl | rfl : i = 0 ∨ i = 1 := by omega
    · have hz : x.setWidth 32 = x.extractLsb' 0 32 := by ext j hj; simp
      split
      · rw [getV_setV _ _ _ _ _ _ hl hk, if_neg (by omega), getV_setV _ _ _ _ _ _ hl hk, hz]
        simp [Opnd.vIdx]
      · rw [getV_setV _ _ _ _ _ _ hl hk, hz]
        simp [Opnd.vIdx]
    · rw [if_pos (by omega), getV_setV _ _ _ _ _ _ hl hk]
      by_cases h : k = l
      · simp [h]
      · rw [if_neg fun e => h e.2, if_neg h, getV_setV _ _ _ _ _ _ hl hk, if_neg fun e => h e.2]
        rfl
  | g n => simp [Opnd.isV, Opnd.cls] at hd
  | im _ => simp [Opnd.isV, Opnd.cls] at hd
  | sp sel idx => simp [sp_notV] at hd

/-- A part of a vector register's value. -/
theorem part_srcD (g : Group) {a : Opnd} (ha : a.isV = true) {w l i : Nat} (hi : i < 2) (hw : i < w) :
    (((srcD g a w l).setWidth 128).setWidth 64).extractLsb' (32 * i) 32 = getV g (a.vIdx + i) l := by
  cases a with
  | v n =>
    rw [BitVec.setWidth_setWidth_of_le _ (by decide), BitVec.setWidth_eq]
    show ((if 2 ≤ w then getV g (n.toNat + 1) l ++ getV g n.toNat l else (getV g n.toNat l).setWidth 64) : DWord).extractLsb' (32 * i) 32 = _
    obtain rfl | rfl : i = 0 ∨ i = 1 := by omega
    · split
      · ext j hj
        simp only [BitVec.getElem_extractLsb', Opnd.vIdx, Nat.mul_zero, Nat.zero_add, Nat.add_zero]
        exact (BitVec.getLsbD_append ..).trans (by simp [hj])
      · ext j hj
        simp [BitVec.getElem_extractLsb', hj, Opnd.vIdx]
        omega
    · rw [if_pos (by omega)]
      ext j hj
      simp only [BitVec.getElem_extractLsb', Opnd.vIdx, Nat.mul_one]
      exact (BitVec.getLsbD_append ..).trans (by simp [hj])
  | g n => simp [Opnd.isV, Opnd.cls] at ha
  | im _ => simp [Opnd.isV, Opnd.cls] at ha
  | sp sel idx => simp [sp_notV] at ha

/-! The instructions. -/

theorem lane_of_participant {c : Ctx} {p : Part} {l k : Nat} (h : k ∈ participants c p l) : k ∈ c.lanes := (mem_participants.1 h).1

/-- The values captured of a sub-group are those that its lanes held. -/
theorem map_capOf {c : Ctx} {p : Part} {l : Nat} (a : Nat → BitVec 128) (q : List Nat) (hq : ∀ k ∈ q, k ∈ participants c p l) :
    q.map (capOf (captured c a)) = q.map a :=
  List.map_congr_left fun k hk => capOf_lane a (lane_of_participant (hq k hk))

section vote
variable {s : State} {c : Ctx} {x : VoteA} (hc : ctxOf s x.h = some c) (hconv : Converged c (partOf c.g x.t.tag))
include hc hconv

theorem goesOn_vote : GoesOn c (exec (.vote x) s) fun _ g =>
    g.v = (collRun (.vote x) c.g c.act (captured c fun l => if srcP c.g x.a l then 1 else 0) (captured c fun _ => 0)).v ∧
    bankOf g = bankOf (collRun (.vote x) c.g c.act (captured c fun l => if srcP c.g x.a l then 1 else 0) (captured c fun _ => 0)) := by
  rw [show exec (.vote x) s = execVote x s from rfl, execVote, withIssue_of hc]
  exact goesOn_collective hc (.vote x) _ _ hconv

end vote

theorem captured_bit {c : Ctx} (a : Nat → Bool) {k : Nat} (hk : k ∈ c.lanes) :
    (capOf (captured c fun l => if a l then 1 else 0) k).getLsbD 0 = a k := by
  rw [capOf_lane _ hk]
  cases a k <;> decide

theorem all_captured {c : Ctx} {p : Part} {l : Nat} (a : Nat → Bool) :
    ((participants c p l).all fun k => (capOf (captured c fun l => if a l then 1 else 0) k).getLsbD 0) = (participants c p l).all a := by
  rw [Bool.eq_iff_iff, List.all_eq_true, List.all_eq_true]
  exact forall₂_congr fun k hk => by rw [captured_bit a (lane_of_participant hk)]

theorem any_captured {c : Ctx} {p : Part} {l : Nat} (a : Nat → Bool) :
    ((participants c p l).any fun k => (capOf (captured c fun l => if a l then 1 else 0) k).getLsbD 0) = (participants c p l).any a := by
  rw [Bool.eq_iff_iff, List.any_eq_true, List.any_eq_true]
  exact exists_congr fun k => and_congr_right fun hk => by rw [captured_bit a (lane_of_participant hk)]

theorem collects_vote (x : VoteA) : Collects (.vote x) x.h x.t fun c p g l =>
    let q := participants c p l
    let a (k : Nat) : Bool := getP c.g x.a.tag k
    match x.mode with
    | .all => getP g x.d.tag l = (x.d.tag == 7 || q.all a)
    | .any => getP g x.d.tag l = (x.d.tag == 7 || q.any a)
    | .uni => getP g x.d.tag l = (x.d.tag == 7 || q.all a || !q.any a)
    | .ballot => ∀ j < 32, (getV g x.d.vIdx l).getLsbD j = (q.contains j && a j) := by
  intro s c hc hwf hconv
  refine (goesOn_vote hc hconv).imp fun _ g hg l hl hm => ?_
  obtain ⟨hv, hb⟩ := hg
  have hP (n : Nat) : getP g n l = getP (collRun (.vote x) c.g c.act (captured c fun l => if srcP c.g x.a l then 1 else 0) (captured c fun _ => 0)) n l := by
    unfold getP
    rw [hb]
  have hV (n : Nat) : getV g n l = getV (collRun (.vote x) c.g c.act (captured c fun l => if srcP c.g x.a l then 1 else 0) (captured c fun _ => 0)) n l := by
    unfold getV
    rw [hv]
  dsimp only
  cases hmode : x.mode with
  | all =>
    dsimp only
    rw [hP, collRun_setP (i := .vote x) hconv.1 (fun l => (participants c (partOf c.g x.t.tag) l).all (srcP c.g x.a)) (fun g l => ?_) hl hm]
    · rfl
    · rw [← all_captured]
      simp only [collServe, collLane, hmode]
      rfl
  | any =>
    dsimp only
    rw [hP, collRun_setP (i := .vote x) hconv.1 (fun l => (participants c (partOf c.g x.t.tag) l).any (srcP c.g x.a)) (fun g l => ?_) hl hm]
    · rfl
    · rw [← any_captured]
      simp only [collServe, collLane, hmode]
      rfl
  | uni =>
    dsimp only
    rw [hP, collRun_setP (i := .vote x) hconv.1 (fun l => (participants c (partOf c.g x.t.tag) l).all (srcP c.g x.a) ||
      !(participants c (partOf c.g x.t.tag) l).any (srcP c.g x.a)) (fun g l => ?_) hl hm]
    · rw [Bool.or_assoc]
      rfl
    · rw [← all_captured, ← any_captured]
      simp only [collServe, collLane, hmode]
      rfl
  | ballot =>
    intro j hj
    have hd : x.d.isV = true := wf_vec hwf (aD x.d [.vec] 1) (by simp [args, hmode]) rfl
    rw [hV]
    rw [collRun_lane (i := .vote x) hconv.1 (fun _ _ => ()) (fun g l => getV g x.d.vIdx l)
      (fun l => maskOf ((participants c (partOf c.g x.t.tag) l).filter fun k =>
        (capOf (captured c fun l => if srcP c.g x.a l then 1 else 0) k).getLsbD 0)) (fun g k hk _ => ?_) (fun _ _ _ _ _ _ => rfl)
      (fun g k m hk hm hne => ?_) hl hm]
    · rw [getLsbD_maskOf, decide_eq_true hj, Bool.true_and, Bool.eq_iff_iff, decide_eq_true_iff, List.mem_filter, Bool.and_eq_true,
        List.contains_iff_mem]
      exact and_congr_right fun hk => by rw [captured_bit _ (lane_of_participant hk)]; rfl
    · simp only [collServe, collLane, hmode]
      have := getV_setDst g hd (w := 1) (i := 0) ((maskOf ((participants c (partOf c.g x.t.tag) k).filter fun k =>
        (capOf (captured c fun l => if srcP c.g x.a l then 1 else 0) k).getLsbD 0)).setWidth 64) (c.lanes_lt k hk) (c.lanes_lt k hk) (by decide) (by decide)
      rw [Nat.add_zero, if_pos rfl] at this
      refine this.trans ?_
      ext b hb
      simp [BitVec.getElem_extractLsb', hb]
      omega
    · simp only [collServe, collLane, hmode]
      have := getV_setDst g hd (w := 1) (i := 0) ((maskOf ((participants c (partOf c.g x.t.tag) k).filter fun k =>
        (capOf (captured c fun l => if srcP c.g x.a l then 1 else 0) k).getLsbD 0)).setWidth 64) (c.lanes_lt k hk) (c.lanes_lt m hm) (by decide) (by decide)
      rw [Nat.add_zero, if_neg hne] at this
      exact this

/-- The lane that a shuffle reads, which is the lane itself where its source is no participant. -/
def shflFrom (m : ShflMode) (size base l b : Nat) (q : List Nat) : Nat :=
  match shflLane m size base l b with
  | some j => if q.contains j then j else l
  | none => l

theorem shflFrom_eq (m : ShflMode) (size base l b : Nat) (q : List Nat) : shflFrom m size base l b q =
    let src : Int := match m with
      | .idx => (base + b % size : Nat)
      | .up => (l : Int) - (b : Int)
      | .down => (l + b : Nat)
      | .xor => (base + ((l - base) ^^^ b) : Nat)
    if q.any fun k => (k : Int) == src then src.toNat else l := by
  have hnat (j : Nat) : (if q.contains j then j else l) = if q.any (fun k => (k : Int) == (j : Int)) then (j : Int).toNat else l := by
    have he : q.contains j = q.any (fun k => (k : Int) == (j : Int)) := by
      rw [Bool.eq_iff_iff, List.contains_iff_mem, List.any_eq_true]
      simp
    rw [he, Int.toNat_natCast]
  unfold shflFrom
  unfold shflLane
  cases m with
  | idx => exact hnat _
  | up =>
    dsimp only
    by_cases hb : b ≤ l
    · rw [if_pos hb, ← Int.natCast_sub hb]
      exact hnat _
    · rw [if_neg hb, if_neg]
      simp only [List.any_eq_true, beq_iff_eq, not_exists, not_and]
      intro k _ hk
      omega
  | down => exact hnat _
  | xor => exact hnat _

theorem shflFrom_lane {c : Ctx} {p : Part} {m : ShflMode} {size base l b : Nat} (hl : l ∈ c.lanes) :
    shflFrom m size base l b (participants c p l) ∈ c.lanes := by
  unfold shflFrom
  split
  · split
    · next h => exact lane_of_participant (List.contains_iff_mem.1 h)
    · exact hl
  · exact hl

theorem collServe_shfl (x : ShflA) (c : Ctx) (av bv : List (Nat × BitVec 128)) (p : Part) (g : Group) (l : Nat) :
    collServe (.shfl x) c av bv p g l = setDst g x.d (if x.wide then 2 else 1) l ((capOf av (shflFrom x.mode p.lanes (l / p.lanes * p.lanes) l
      ((capOf bv l).toNat % 2 ^ 32) (participants c p l))).setWidth 64) := rfl

/-- A value read from a vector register and written to one. -/
theorem seen_srcD (g : Group) {d a : Opnd} (hd : d.isV = true) (ha : a.isV = true) (w l : Nat) : seen d w (srcD g a w l) = srcD g a w l := by
  cases d with
  | v m =>
    cases a with
    | v n =>
      unfold seen srcD
      by_cases hw : 2 ≤ w
      · simp [discards, Opnd.isV, Opnd.cls, hw, show ¬ w < 2 by omega]
      · simp [discards, Opnd.isV, Opnd.cls, hw, show w < 2 by omega]
    | g n => simp [Opnd.isV, Opnd.cls] at ha
    | im _ => simp [Opnd.isV, Opnd.cls] at ha
    | sp sel idx => simp [sp_notV] at ha
  | g n => simp [Opnd.isV, Opnd.cls] at hd
  | im _ => simp [Opnd.isV, Opnd.cls] at hd
  | sp sel idx => simp [sp_notV] at hd

theorem narrow_widen (x : DWord) : (x.setWidth 128).setWidth 64 = x := by
  rw [BitVec.setWidth_setWidth_of_le _ (by decide), BitVec.setWidth_eq]

theorem toNat_widen (x : DWord) : (x.setWidth 128).toNat = x.toNat := by
  rw [BitVec.toNat_setWidth, Nat.mod_eq_of_lt (x.isLt.trans (by decide))]

theorem collects_shfl (x : ShflA) : Collects (.shfl x) x.h x.t fun c p g l =>
    let q := participants c p l
    let base := l / p.lanes * p.lanes
    let b : Nat := (srcD c.g x.b 1 l).toNat % 2 ^ 32
    let src : Int := match x.mode with
      | .idx => (base + b % p.lanes : Nat)
      | .up => (l : Int) - (b : Int)
      | .down => (l + b : Nat)
      | .xor => (base + ((l - base) ^^^ b) : Nat)
    let w := if x.wide then 2 else 1
    srcD g x.d w l = srcD c.g x.a w (if q.any fun k => (k : Int) == src then src.toNat else l) := by
  intro s c hc hwf hconv
  have hd : x.d.isV = true := wf_vec hwf (aD x.d [.vec] (if x.wide then 2 else 1)) (by simp [args]) rfl
  have ha : x.a.isV = true := wf_vec hwf (aA x.a [.vec] (if x.wide then 2 else 1)) (by simp [args]) rfl
  rw [show exec (.shfl x) s = execShfl x s from rfl, execShfl, withIssue_of hc]
  refine (goesOn_collective hc (.shfl x) _ _ hconv).imp fun _ g hg l hl hm => ?_
  obtain ⟨hv, hb⟩ := hg
  intro q base b src w
  rw [srcD_congr hv hb, collRun_setDst (i := .shfl x) hconv.1 hd (fun l => srcD c.g x.a w (shflFrom x.mode (partOf c.g x.t.tag).lanes
    (l / (partOf c.g x.t.tag).lanes * (partOf c.g x.t.tag).lanes) l ((srcD c.g x.b 1 l).toNat % 2 ^ 32)
    (participants c (partOf c.g x.t.tag) l))) (fun g l hl => ?_) hl hm]
  · rw [seen_srcD c.g hd ha, shflFrom_eq]
  · rw [collServe_shfl, capOf_lane _ hl, capOf_lane _ (shflFrom_lane hl), toNat_widen, narrow_widen]
    rfl

theorem collects_reduce (x : ReduceA) : Collects (.reduce x) x.h x.t fun c p g l =>
    srcD g x.d x.ty.regs l = seen x.d x.ty.regs
      (combine x.op x.ty ((participants c p l).map fun k => (srcD c.g x.a x.ty.regs k).setWidth 128)) := by
  intro s c hc hwf hconv
  have hd : x.d.isV = true := wf_vec hwf (aD x.d [.vec] x.ty.regs) (by simp [args]) rfl
  rw [show exec (.reduce x) s = execReduce x s from rfl, execReduce, withIssue_of hc]
  refine (goesOn_collective hc (.reduce x) _ _ hconv).imp fun _ g hg l hl hm => ?_
  obtain ⟨hv, hb⟩ := hg
  rw [srcD_congr hv hb]
  refine collRun_setDst (i := .reduce x) hconv.1 hd (fun l => combine x.op x.ty ((participants c (partOf c.g x.t.tag) l).map fun k =>
    (srcD c.g x.a x.ty.regs k).setWidth 128)) (fun g l hl => ?_) hl hm
  rw [← map_capOf _ _ fun k hk => hk]
  rfl

theorem collects_scan (x : ScanA) : Collects (.scan x) x.h x.t fun c p g l =>
    srcD g x.d x.ty.regs l = seen x.d x.ty.regs
      (combine x.op x.ty (((participants c p l).filter fun k => if x.excl then decide (k < l) else decide (k ≤ l)).map fun k =>
        (srcD c.g x.a x.ty.regs k).setWidth 128)) := by
  intro s c hc hwf hconv
  have hd : x.d.isV = true := wf_vec hwf (aD x.d [.vec] x.ty.regs) (by simp [args]) rfl
  rw [show exec (.scan x) s = execScan x s from rfl, execScan, withIssue_of hc]
  refine (goesOn_collective hc (.scan x) _ _ hconv).imp fun _ g hg l hl hm => ?_
  obtain ⟨hv, hb⟩ := hg
  rw [srcD_congr hv hb]
  refine collRun_setDst (i := .scan x) hconv.1 hd (fun l => combine x.op x.ty (((participants c (partOf c.g x.t.tag) l).filter fun k =>
    if x.excl then decide (k < l) else decide (k ≤ l)).map fun k => (srcD c.g x.a x.ty.regs k).setWidth 128)) (fun g l hl => ?_) hl hm
  rw [← map_capOf _ _ fun k hk => List.mem_of_mem_filter hk]
  rfl

/-- The lane that a broadcast reads. -/
def bcastFrom (p : Part) (l b : Nat) : Nat := l / p.lanes * p.lanes + b % p.lanes

/-- The value that a broadcast captures of a lane. -/
def bcastVal (x : BcastA) (g : Group) (l : Nat) : BitVec 128 := if x.w = .b128 then srcQ g x.a l else (srcD g x.a x.w.regs l).setWidth 128

/-- What a broadcast does in a lane whose source is a participant. -/
def bcastPut (x : BcastA) (g : Group) (l : Nat) (v : BitVec 128) : Group :=
  match x.w with
  | .b32 => setDst g x.d 1 l (v.setWidth 64)
  | .b64 => setDst g x.d 2 l (v.setWidth 64)
  | .b128 => setQ g x.d l v

theorem collServe_bcast (x : BcastA) (c : Ctx) (av bv : List (Nat × BitVec 128)) (p : Part) (g : Group) (l : Nat) :
    collServe (.bcast x) c av bv p g l = if !(participants c p l).contains (bcastFrom p l ((capOf bv l).toNat % 2 ^ 32)) then g
      else bcastPut x g l (capOf av (bcastFrom p l ((capOf bv l).toNat % 2 ^ 32))) := by
  obtain ⟨h, w, d, a, b, t⟩ := x
  cases w with
  | b32 => rfl
  | b64 => rfl
  | b128 => rfl

theorem getV_bcastPut {x : BcastA} (hd : x.d.isV = true) (ha : x.a.isV = true) (g h : Group) {l k m i : Nat} (hl : l < 32) (hm : m < 32)
    (hi : i < x.w.regs) : getV (bcastPut x g l (bcastVal x h k)) (x.d.vIdx + i) m =
      if m = l then getV h (x.a.vIdx + i) k else getV g (x.d.vIdx + i) m := by
  unfold bcastPut bcastVal
  cases hw : x.w with
  | b32 =>
    rw [hw] at hi
    have hi : i < 1 := hi
    simp only [MovW.regs, reduceCtorEq, if_false]
    rw [getV_setDst g hd _ hl hm (by omega) hi, part_srcD h ha (by omega) hi]
  | b64 =>
    rw [hw] at hi
    have hi : i < 2 := hi
    simp only [MovW.regs, reduceCtorEq, if_false]
    rw [getV_setDst g hd _ hl hm hi hi, part_srcD h ha hi hi]
  | b128 =>
    rw [hw] at hi
    have hi : i < 4 := hi
    simp only [if_true]
    rw [getV_setQ _ _ _ _ _ _ hl hm, Nat.add_sub_cancel_left, part_srcQ h x.a k i hi]
    by_cases hml : m = l
    · rw [if_pos ⟨hml, by omega, by omega⟩, if_pos hml]
    · rw [if_neg fun e => hml e.1, if_neg hml]

theorem bcast_other {x : BcastA} (hd : x.d.isV = true) (ha : x.a.isV = true) {c : Ctx} {bv : List (Nat × BitVec 128)} {p : Part} {g : Group}
    {l k i : Nat} (hl : l ∈ c.lanes) (hk : k ∈ c.lanes) (hne : k ≠ l) (hi : i < x.w.regs) :
    getV (collServe (.bcast x) c (captured c (bcastVal x c.g)) bv p g l) (x.d.vIdx + i) k = getV g (x.d.vIdx + i) k := by
  rw [collServe_bcast]
  split
  · rfl
  · next hyes =>
    rw [capOf_lane _ (lane_of_participant (List.contains_iff_mem.1 (by simpa using hyes))),
      getV_bcastPut hd ha g c.g (c.lanes_lt l hl) (c.lanes_lt k hk) hi, if_neg hne]

theorem collects_bcast (x : BcastA) : Collects (.bcast x) x.h x.t fun c p g l =>
    let b := (srcD c.g x.b 1 l).toNat % 2 ^ 32
    let src := l / p.lanes * p.lanes + b % p.lanes
    ∀ i < x.w.regs, getV g (x.d.vIdx + i) l =
      if (participants c p l).contains src then getV c.g (x.a.vIdx + i) src else getV c.g (x.d.vIdx + i) l := by
  intro s c hc hwf hconv
  have hd : x.d.isV = true := wf_vec hwf (aD x.d [.vec] x.w.regs) (by simp [args]) rfl
  have ha : x.a.isV = true := wf_vec hwf (aA x.a [.vec] x.w.regs) (by simp [args]) rfl
  rw [show exec (.bcast x) s = execBcast x s from rfl, execBcast, withIssue_of hc]
  refine (goesOn_collective hc (.bcast x) _ _ hconv).imp fun _ g hg l hl hm => ?_
  obtain ⟨hv, -⟩ := hg
  intro b src i hi
  rw [getV_congr hv]
  refine collRun_lane (i := .bcast x) hconv.1 (fun g l => getV g (x.d.vIdx + i) l) (fun g l => getV g (x.d.vIdx + i) l)
    (fun l => if (participants c (partOf c.g x.t.tag) l).contains (bcastFrom (partOf c.g x.t.tag) l ((srcD c.g x.b 1 l).toNat % 2 ^ 32))
      then getV c.g (x.a.vIdx + i) (bcastFrom (partOf c.g x.t.tag) l ((srcD c.g x.b 1 l).toNat % 2 ^ 32)) else getV c.g (x.d.vIdx + i) l) (fun g k hk hold => ?_) (fun g k m hk hm hne => ?_) (fun g k m hk hm hne => ?_) hl hm
  · rw [collServe_bcast, capOf_lane _ hk, toNat_widen, show collPart (.bcast x) = x.t.tag from rfl]
    split
    · next hno => rw [hold, if_neg (by simpa using hno)]
    · next hyes =>
      have hyes : (participants c (partOf c.g x.t.tag) k).contains (bcastFrom (partOf c.g x.t.tag) k ((srcD c.g x.b 1 k).toNat % 2 ^ 32)) = true := by
        simpa using hyes
      rw [if_pos hyes]
      refine (congrArg (fun v => getV (bcastPut x g k v) (x.d.vIdx + i) k) (capOf_lane _ (lane_of_participant (List.contains_iff_mem.1 hyes)))).trans ?_
      exact (getV_bcastPut hd ha g c.g (c.lanes_lt k hk) (c.lanes_lt k hk) hi).trans (if_pos rfl)
  · exact bcast_other hd ha hk hm hne hi
  · exact bcast_other hd ha hk hm hne hi

/-! What REDUCE and SCAN combine (R266). -/

/-- A fold that a value of a kind absorbs gives that value, where it is met. -/
theorem foldl_absorbs {α : Type} (f : Int → Int → Int) (P : Int → Prop) (z : α → Int) (m : Int) (hclosed : ∀ a b, P a → P b → P (f a b))
    (hleft : ∀ b, P b → f m b = m) (hright : ∀ a, P a → f a m = m) (vs : List α) (a : Int) (ha : P a) (hall : ∀ v ∈ vs, P (z v))
    (hm : a = m ∨ ∃ v ∈ vs, z v = m) : vs.foldl (fun a v => f a (z v)) a = m := by
  induction vs generalizing a with
  | nil =>
    rcases hm with h | ⟨v, hv, -⟩
    · exact h
    · exact absurd hv List.not_mem_nil
  | cons v r ih =>
    have hv := hall v (List.mem_cons_self ..)
    rw [List.foldl_cons]
    refine ih _ (hclosed _ _ ha hv) (fun w hw => hall w (List.mem_cons_of_mem _ hw)) ?_
    rcases hm with rfl | ⟨w, hw, hz⟩
    · exact .inl (hleft _ hv)
    · rcases List.mem_cons.1 hw with rfl | hw
      · rw [hz]
        exact .inl (hright _ ha)
      · exact .inr ⟨w, hw, hz⟩

theorem toIntN_range {n : Nat} (hn : 0 < n) (sg : Bool) (p : Nat) : (intRange n sg).1 ≤ toIntN n sg p ∧ toIntN n sg p ≤ (intRange n sg).2 := by
  obtain ⟨m, rfl⟩ : ∃ m, n = m + 1 := ⟨n - 1, by omega⟩
  have h2 : (2 : Nat) ^ (m + 1) = 2 * 2 ^ m := Nat.pow_succ'
  have hlt := Nat.mod_lt p (Nat.two_pow_pos (m + 1))
  unfold intRange toIntN
  cases sg with
  | false => simp only [Bool.false_and, Bool.false_eq_true, if_false]; omega
  | true =>
    simp only [Bool.true_and, if_true, decide_eq_true_eq, Nat.add_sub_cancel]
    split <;> omega

theorem toIntN_mod (n : Nat) (sg : Bool) (p : Nat) : toIntN n sg (p % 2 ^ n) = toIntN n sg p := by simp [toIntN]

theorem toIntN_emod {n : Nat} (hn : 0 < n) (sg : Bool) (p : Nat) : toIntN n sg p % 2 ^ n = (p : Int) % 2 ^ n := by
  have hc : ((2 : Int) ^ n) = ((2 ^ n : Nat) : Int) := by push_cast; rfl
  rw [toIntN_eq n hn, hc]
  cases sg with
  | false => simp
  | true => exact Int.bmod_emod

/-- The sum of the patterns is the sum of their values mod 2^n. -/
theorem foldl_add_emod {n : Nat} (hn : 0 < n) (sg : Bool) (vs : List (BitVec 128)) (a : Nat) :
    (((vs.map fun v => v.toNat % 2 ^ n).foldl (fun a v => (a + v) % 2 ^ n) a : Nat) : Int) % 2 ^ n =
      ((a : Int) + (vs.map fun v => toIntN n sg v.toNat).sum) % 2 ^ n := by
  have hc : ((2 : Int) ^ n) = ((2 ^ n : Nat) : Int) := by push_cast; rfl
  induction vs generalizing a with
  | nil => simp
  | cons v r ih =>
    rw [List.map_cons, List.foldl_cons, ih, List.map_cons, List.sum_cons]
    have hv := toIntN_emod hn sg v.toNat
    rw [hc] at hv ⊢
    push_cast
    push_cast at hv
    rw [Int.emod_add_emod, ← Int.add_assoc]
    refine Int.emod_add_cancel_right _ |>.2 ?_
    rw [Int.add_emod, Int.emod_emod, ← hv, ← Int.add_emod]

theorem foldl_values {n : Nat} (sg : Bool) (f : Int → Int → Int) (vs : List (BitVec 128)) (a : Int) :
    (vs.map fun v => v.toNat % 2 ^ n).foldl (fun a v => f a (toIntN n sg v)) a = vs.foldl (fun a v => f a (toIntN n sg v.toNat)) a := by
  rw [List.foldl_map]
  simp only [toIntN_mod]

section combine
variable {ty : Ty} (hw : ty.isWide = true)
include hw

theorem combine_int (op : RedOp) (vs : List (BitVec 128)) :
    combine op ty vs = extendI ty (combineI op ty (vs.map fun v => v.toNat % 2 ^ ty.width)) := by
  have hne : ty ≠ .f32 := by
    rintro rfl
    exact absurd hw (by decide)
  exact if_neg hne

theorem combine_add (vs : List (BitVec 128)) :
    combine .add ty vs = delivered ty false (vs.map fun v => toIntN ty.width ty.isSigned v.toNat).sum := by
  rw [combine_int hw]
  refine extendI_eq ty ?_
  have h := foldl_add_emod (tyWidth_pos ty) ty.isSigned vs 0
  rw [Nat.cast_zero, Int.zero_add] at h
  exact h

theorem combine_least {vs : List (BitVec 128)} {m : Int} (hm : ∃ w ∈ vs, m = toIntN ty.width ty.isSigned w.toNat)
    (hle : ∀ w ∈ vs, m ≤ toIntN ty.width ty.isSigned w.toNat) : combine .min ty vs = delivered ty false m := by
  obtain ⟨w, hw', rfl⟩ := hm
  have hfold : vs.foldl (fun a v => min a (toIntN ty.width ty.isSigned v.toNat)) (intRange ty.width ty.isSigned).2 =
      toIntN ty.width ty.isSigned w.toNat :=
    foldl_absorbs min (toIntN ty.width ty.isSigned w.toNat ≤ ·) (fun v : BitVec 128 => toIntN ty.width ty.isSigned v.toNat) _
      (fun _ _ => le_min) (fun _ => min_eq_left) (fun _ => min_eq_right) vs _ (toIntN_range (tyWidth_pos ty) ..).2 hle (.inr ⟨w, hw', rfl⟩)
  rw [combine_int hw]
  refine extendI_eq ty ?_
  show (ofIntN ty.width (List.foldl _ _ _) : Int) % _ = _
  rw [ofIntN_emod, foldl_values, hfold]

theorem combine_greatest {vs : List (BitVec 128)} {m : Int} (hm : ∃ w ∈ vs, m = toIntN ty.width ty.isSigned w.toNat)
    (hle : ∀ w ∈ vs, toIntN ty.width ty.isSigned w.toNat ≤ m) : combine .max ty vs = delivered ty false m := by
  obtain ⟨w, hw', rfl⟩ := hm
  have hfold : vs.foldl (fun a v => max a (toIntN ty.width ty.isSigned v.toNat)) (intRange ty.width ty.isSigned).1 =
      toIntN ty.width ty.isSigned w.toNat :=
    foldl_absorbs max (· ≤ toIntN ty.width ty.isSigned w.toNat) (fun v : BitVec 128 => toIntN ty.width ty.isSigned v.toNat) _
      (fun _ _ => max_le) (fun _ => max_eq_left) (fun _ => max_eq_right) vs _ (toIntN_range (tyWidth_pos ty) ..).1 hle (.inr ⟨w, hw', rfl⟩)
  rw [combine_int hw]
  refine extendI_eq ty ?_
  show (ofIntN ty.width (List.foldl _ _ _) : Int) % _ = _
  rw [ofIntN_emod, foldl_values, hfold]

theorem combine_none (op : RedOp) : combine op ty [] = extendI ty (combineI op ty []) := combine_int hw op []

theorem wide_cases : ty = .s32 ∨ ty = .n32 ∨ ty = .s64 ∨ ty = .n64 := by
  revert hw
  cases ty <;> decide

end combine

end Sys2Proof.Machine

open Sys2Proof Sys2Proof.Machine

/-- Settles O13: the sub-groups have converged, so that no entry joins, and the fold over the participants leaves each its own result. -/
theorem collectives : Obligations.Collectives := by
  unfold Obligations.Collectives
  refine ⟨⟨collects_vote, collects_shfl, collects_bcast⟩, collects_reduce, collects_scan, fun ty vs hw => ?_, ?_⟩
  · refine ⟨combine_add hw vs, fun m => combine_least hw, fun m => combine_greatest hw, ?_⟩
    rcases wide_cases hw with rfl | rfl | rfl | rfl <;> decide +kernel
  · decide +kernel

end

section
/-! PROOFS. Accesses of hosts and harts, scrubs and the ends of hotness intervals (spec/25_host_and_fabric.md R145, R146, R449;
spec/04_device_memory.md R97, R103 to R106; spec/02_translation_trees.md R61 to R63). -/

set_option Elab.async false

namespace Sys2Proof.Machine

/-! What the bytes of memory depend on. -/

/-- Two states hold the same bytes, check bytes and clear-pending lines, and no word of the die caches is held apart. -/
structure Cells (s t : State) : Prop where
  mem : t.mem = s.mem
  ecc : t.ecc = s.ecc
  pend : t.clearPend = s.clearPend
  sram : t.sram = s.sram

theorem Cells.refl (s : State) : Cells s s := ⟨rfl, rfl, rfl, rfl⟩

theorem Cells.trans {s t u : State} (a : Cells s t) (b : Cells t u) : Cells s u :=
  ⟨b.mem.trans a.mem, b.ecc.trans a.ecc, b.pend.trans a.pend, b.sram.trans a.sram⟩

theorem Cells.symm {s t : State} (a : Cells s t) : Cells t s := ⟨a.mem.symm, a.ecc.symm, a.pend.symm, a.sram.symm⟩

theorem Quiet.cells {s t : State} (h : Quiet s t) : Cells s t := by rw [h]; exact ⟨rfl, rfl, rfl, rfl⟩

section cells
variable {s t : State} (h : Cells s t)
include h

theorem Cells.look (b : Nat) : look t b = look s b := look_congr h.mem h.pend b

theorem Cells.cleanByte {b : Nat} : CleanByte t b ↔ CleanByte s b := by unfold CleanByte; rw [h.ecc]

theorem Cells.cleanAt {pa k : Nat} : CleanAt t pa k ↔ CleanAt s pa k := forall₂_congr fun _ _ => h.cleanByte

theorem Cells.secDecode (n : Nat) : secDecode t n = secDecode s n := by
  unfold Sys2Proof.Machine.secDecode storedBytes isPend
  rw [h.mem, h.ecc, h.pend]

theorem Cells.peekBytes (a k : Nat) : peekBytes t a k = peekBytes s a k := by
  have hp : isPend t = isPend s := by funext n; unfold isPend; rw [h.pend]
  have hd : Sys2Proof.Machine.secDecode t = Sys2Proof.Machine.secDecode s := funext h.secDecode
  unfold Sys2Proof.Machine.peekBytes
  rw [h.mem, h.ecc, hp, hd]

theorem Cells.peek (a k : Nat) : peek t a k = peek s a k := by
  unfold Sys2Proof.Machine.peek
  rw [h.peekBytes]

/-- Bytes written in a state that holds the same as another are written in that. -/
theorem Cells.wrote {u : State} {pa : Nat} {bs : List Byte} (w : Wrote t u pa bs) : Wrote s u pa bs :=
  ⟨w.sram, fun b => by rw [w.look, h.look], fun b hb => w.clean b (h.cleanByte.2 hb)⟩

/-- What holds the same as a state in which bytes are written. -/
theorem Wrote.cells {r : State} {pa : Nat} {bs : List Byte} (w : Wrote r s pa bs) : Wrote r t pa bs :=
  ⟨h.sram.trans w.sram, fun b => by rw [h.look, w.look], fun b hb => h.cleanByte.2 (w.clean b hb)⟩

end cells

theorem cells_addTag (s : State) (who : Party) (sc : Scope) (past : List Nat) (loc n : Nat) : Cells s (addTag s who sc past loc n) := by
  unfold addTag
  dsimp only
  split
  · exact .refl s
  · exact ⟨rfl, rfl, rfl, rfl⟩

theorem cells_endTags (s : State) (loc n : Nat) : Cells s (endTags s loc n) := ⟨rfl, rfl, rfl, rfl⟩

/-- Clean bytes outside the register area, written over the bus. -/
theorem busPut_wrote {s : State} {who : Who} {pa : Nat} {bs : List Byte} (hs : s.sram = []) (ha : areaOf pa ≠ .regs)
    (hc : CleanAt s pa bs.length) : Wrote s (busPut s who pa bs) pa bs := by
  rw [busPut, if_neg ha]
  exact wrote_writeMem_any hs hc

theorem busRelease_wrote {s : State} {who : Who} {by' : Party} {sc : Scope} {past : List Nat} {pa : Nat} {bs : List Byte} (hs : s.sram = [])
    (ha : areaOf pa ≠ .regs) (hc : CleanAt s pa bs.length) : Wrote s (busRelease s who by' sc past pa bs) pa bs :=
  ((cells_endTags s pa bs.length).wrote (busPut_wrote hs ha hc)).cells (cells_addTag ..)

/-! A host's window (R24, R146, R449). -/

theorem areaOf_regs_iff (pa : Nat) : areaOf pa = .regs ↔ 0xFF00 ≤ pa / 2 ^ 21 / 2 ^ 11 ∧ pa / 2 ^ 21 / 2 ^ 11 < 0x10000 := by
  rw [Nat.div_div_eq_div_mul, Nat.le_div_iff_mul_le (by decide), Nat.div_lt_iff_lt_mul (by decide)]
  have htop : pa / 2 ^ 48 = 0 ↔ pa < 2 ^ 48 := Nat.div_eq_zero_iff.trans (or_iff_right (by decide))
  have hreg : 0xFF00 * (2 ^ 21 * 2 ^ 11) = 0xFF0000000000 ∧ 0x10000 * (2 ^ 21 * 2 ^ 11) = 2 ^ 48 := by decide
  rw [hreg.1, hreg.2, ← htop]
  unfold areaOf
  dsimp only
  split_ifs with h1 h2 h3 h4 h5
  · exact iff_of_false nofun fun h => absurd (h1.trans (by decide)) (not_lt.2 h.1)
  · exact iff_of_true rfl ⟨h3, h2⟩
  · exact iff_of_false nofun fun h => h3 h.1
  · exact iff_of_false nofun fun h => h2 h.2
  · exact iff_of_false nofun fun h => h2 h.2
  · exact iff_of_false nofun fun h => h2 h.2

/-- A page's bytes lie in the area of its frame, as far as the registers go. -/
theorem areaOf_leafPa {e va : Nat} (h : areaOf (leafPa e va) = .regs) : areaOf (entFrame e) = .regs := by
  have hq : fld e 21 31 = fld e 16 36 / 32 := by
    unfold fld
    rw [show 2 ^ 21 = 2 ^ 16 * 32 by decide, ← Nat.div_div_eq_div_mul]
    generalize e / 2 ^ 16 = q
    omega
  have hframe : entFrame e / 2 ^ 21 = fld e 16 36 / 32 := by
    unfold entFrame
    omega
  have hpage : leafPa e va / 2 ^ 21 = fld e 16 36 / 32 := by
    unfold leafPa entFrame
    rw [hq]
    split <;> omega
  rw [areaOf_regs_iff] at h ⊢
  rwa [hframe, ← hpage]

/-- No user access is translated into the register area. -/
theorem translate_user {s : State} {ld : Nat} {root : RootKey} {va : Nat} {k : Acc} {pa e : Nat}
    (h : translate s ld root true va k = .ok (pa, e)) : areaOf pa ≠ .regs := by
  unfold translate at h
  split at h
  · cases h
  · next e' nodes _ =>
    dsimp only at h
    split_ifs at h with h1 h2 h3 h4
    all_goals
      cases h
      intro hr
      refine h4 ?_
      unfold ownerDenied
      dsimp only
      rw [areaOf_leafPa hr]

theorem quiet_hdmWalk {s : State} (he : s.ecc = []) (hs : s.sram = []) (ld off : Nat) : Quiet s (hdmWalk s ld off) := by
  unfold hdmWalk
  dsimp only
  split
  · exact walkRead_quiet he hs ..
  · rfl

theorem cells_hostGain (s : State) (ld pa n : Nat) : Cells s (hostGain s ld pa n) := by
  unfold hostGain
  dsimp only
  split
  · exact .refl s
  · exact ⟨rfl, rfl, rfl, rfl⟩

/-- The root that a host's window uses. -/
abbrev hdmRoot (s : State) (ld : Nat) : RootRec := (ldOf s ld).slots.getD 63 emptyRoot

section window
variable {s : State} {ld off size : Nat}

/-- The window is a device's, and the bytes lie in it. -/
def InWindow (s : State) (ld off size : Nat) : Prop :=
  ld < 16 ∧ 0 < size ∧ off % 64 + size ≤ 64 ∧ off + size ≤ 2 ^ 21 * ldReg s ld 0x401 ∧ (ldOf s ld).resetting = false

theorem hdmPlace_eq (hin : InWindow s ld off size) (k : Acc) : hdmPlace s ld off size k =
    some (if !(hdmRoot s ld).full then .error (cNOTMAPPED, 10) else (translate s ld (hdmRoot s ld).key true off k).map Prod.fst) := by
  obtain ⟨h1, h2, h3, h4, h5⟩ := hin
  unfold hdmPlace
  rw [if_neg (by simp only [h1, h2, h3, h4, h5, decide_true, Bool.and_self, Bool.not_true, Bool.or_self, Bool.false_eq_true, not_false_eq_true])]

theorem hdmPlace_refused (hin : InWindow s ld off size) {k : Acc}
    (h : (hdmRoot s ld).full = false ∨ ∃ e, translate s ld (hdmRoot s ld).key true off k = .error e) :
    ∃ e, hdmPlace s ld off size k = some (.error e) := by
  rw [hdmPlace_eq hin]
  rcases h with h | ⟨e, h⟩
  · exact ⟨_, by rw [h]; rfl⟩
  · cases hf : (hdmRoot s ld).full with
    | false => exact ⟨_, rfl⟩
    | true => exact ⟨e, by rw [h]; rfl⟩

theorem hdmPlace_ok (hin : InWindow s ld off size) {k : Acc} {pa e : Nat} (hf : (hdmRoot s ld).full = true)
    (h : translate s ld (hdmRoot s ld).key true off k = .ok (pa, e)) : hdmPlace s ld off size k = some (.ok pa) := by
  rw [hdmPlace_eq hin, hf, h]
  rfl

variable (hrun : Running s) (he : s.ecc = []) (hs : s.sram = []) (hin : InWindow s ld off size)
include hrun hin

theorem hdmRead_refused (h : (hdmRoot s ld).full = false ∨ ∃ e, translate s ld (hdmRoot s ld).key true off .read = .error e) :
    Becomes (exec (.hostHdmRead ld off size) s) fun u => u.hdmRead = some (ld, none) := by
  obtain ⟨e, hp⟩ := hdmPlace_refused hin h
  rw [show exec (.hostHdmRead ld off size) s = execHostHdmRead ld off size s from rfl, execHostHdmRead, agent_of_running hrun, hp]
  exact ⟨_, rfl, rfl⟩

include he hs

theorem hdmRead_ok {pa e : Nat} (hf : (hdmRoot s ld).full = true) (h : translate s ld (hdmRoot s ld).key true off .read = .ok (pa, e)) :
    (linkDown s pa = true → Becomes (exec (.hostHdmRead ld off size) s) fun u => u.hdmRead = some (ld, none) ∧ u.mem = s.mem) ∧
    (linkDown s pa = false → Becomes (exec (.hostHdmRead ld off size) s) fun u =>
      u.hdmRead = some (ld, some (peekBytes s pa size)) ∧ u.mem = s.mem) := by
  have hq := quiet_hdmWalk he hs ld off
  have hdown : linkDown (hdmWalk s ld off) pa = linkDown s pa := by unfold linkDown; rw [hq.alike.pkgReg]
  have hcells : Cells s (hostGain (hdmWalk s ld off) ld pa size) := hq.cells.trans (cells_hostGain ..)
  obtain ⟨t, hread, hr⟩ := readMem_clean (s := hostGain (hdmWalk s ld off) ld pa size) (hcells.sram.trans hs) (pa := pa) (k := size)
    (cleanAt_of_nil (hcells.ecc.trans he) _ _)
  rw [show exec (.hostHdmRead ld off size) s = execHostHdmRead ld off size s from rfl, execHostHdmRead, agent_of_running hrun,
    hdmPlace_ok hin hf h]
  dsimp only
  rw [hdown, hr, hcells.peekBytes]
  constructor
  · intro hl
    rw [if_pos hl]
    exact ⟨_, rfl, rfl, hq.cells.mem⟩
  · intro hl
    rw [if_neg (by rw [hl]; exact Bool.false_ne_true)]
    exact ⟨_, rfl, rfl, (hcells.trans hread.cells).mem⟩

theorem hdmWrite_refused {bs : List Byte} (hbs : bs.length = size) (hlog : pkgReg s 0x819 = 0)
    (h : (hdmRoot s ld).full = false ∨ ∃ e, translate s ld (hdmRoot s ld).key true off .write = .error e) :
    Becomes (exec (.hostHdmWrite ld off bs) s) fun u => u.mem = s.mem := by
  obtain ⟨e, hp⟩ := hdmPlace_refused hin h
  have hq := quiet_hdmWalk he hs ld off
  rw [show exec (.hostHdmWrite ld off bs) s = execHostHdmWrite ld off bs s from rfl, execHostHdmWrite, agent_of_running hrun, hbs, hp]
  refine ⟨_, rfl, ?_⟩
  rw [logEvent_full (by rw [hq.alike.pkgReg 0x819, hlog]; exact Nat.not_lt_zero _)]
  exact hq.cells.mem

theorem hdmWrite_ok {bs : List Byte} (hbs : bs.length = size) {pa e : Nat} (hf : (hdmRoot s ld).full = true)
    (h : translate s ld (hdmRoot s ld).key true off .write = .ok (pa, e)) :
    (linkDown s pa = true → Becomes (exec (.hostHdmWrite ld off bs) s) fun u => u.mem = s.mem) ∧
    (linkDown s pa = false → Becomes (exec (.hostHdmWrite ld off bs) s) fun u => peekBytes u pa size = bs ∧
      ∀ a, a < pa ∨ pa + size ≤ a → peekBytes u a 1 = peekBytes s a 1) := by
  have hq := quiet_hdmWalk he hs ld off
  have hdown : linkDown (hdmWalk s ld off) pa = linkDown s pa := by unfold linkDown; rw [hq.alike.pkgReg]
  rw [show exec (.hostHdmWrite ld off bs) s = execHostHdmWrite ld off bs s from rfl, execHostHdmWrite, agent_of_running hrun, hbs,
    hdmPlace_ok hin hf h]
  dsimp only
  rw [hdown]
  constructor
  · intro hl
    rw [if_pos hl]
    exact ⟨_, rfl, hq.cells.mem⟩
  · intro hl
    rw [if_neg (by rw [hl]; exact Bool.false_ne_true)]
    have hw : Wrote s (busRelease (hdmWalk s ld off) (.host ld) (.host ld) .sys (whoPast (hdmWalk s ld off) (.host ld)) pa bs) pa bs :=
      hq.cells.wrote (busRelease_wrote (hq.sram.trans hs) (translate_user h) (cleanAt_of_nil (hq.ecc.trans he) _ _))
    refine ⟨_, rfl, ?_, fun a ha => hw.peek_other (cleanAt_of_nil he a 1) (by omega)⟩
    rw [← hbs]
    exact hw.peek_same (cleanAt_of_nil he _ _)

end window

/-! A hart's accesses (R145, R146). -/

/-- What a hart last read, and its reservation, are as they were. -/
structure HartKept (h : Nat) (s t : State) : Prop where
  len : t.harts.length = s.harts.length
  rd : (hartOf t h).rd = (hartOf s h).rd
  resv : (hartOf t h).resv = (hartOf s h).resv

theorem HartKept.refl (h : Nat) (s : State) : HartKept h s s := ⟨rfl, rfl, rfl⟩

theorem HartKept.trans {h : Nat} {s t u : State} (a : HartKept h s t) (b : HartKept h t u) : HartKept h s u :=
  ⟨b.len.trans a.len, b.rd.trans a.rd, b.resv.trans a.resv⟩

theorem hartKept_of_harts {s t : State} (e : t.harts = s.harts) (h : Nat) : HartKept h s t := by
  refine ⟨by rw [e], ?_, ?_⟩
  · unfold hartOf; rw [e]
  · unfold hartOf; rw [e]

theorem Quiet.hartKept {s t : State} (h : Quiet s t) (n : Nat) : HartKept n s t := hartKept_of_harts (by rw [h]) n

theorem hartOf_modHart {s : State} {h : Nat} (hlt : h < s.harts.length) (f : Hart → Hart) : hartOf (modHart s h f) h = f (hartOf s h) :=
  getD_lset_same _ _ _ _ hlt

theorem length_modHart (s : State) (h : Nat) (f : Hart → Hart) : (modHart s h f).harts.length = s.harts.length := by
  show (lset s.harts h _).length = _
  rw [lset_eq_set, List.length_set]

theorem hartKept_modHart {s : State} {h : Nat} (hlt : h < s.harts.length) {f : Hart → Hart} (hrd : ∀ x, (f x).rd = x.rd)
    (hresv : ∀ x, (f x).resv = x.resv) : HartKept h s (modHart s h f) :=
  ⟨length_modHart s h f, by rw [hartOf_modHart hlt, hrd], by rw [hartOf_modHart hlt, hresv]⟩

theorem cells_modHart (s : State) (h : Nat) (f : Hart → Hart) : Cells s (modHart s h f) := ⟨rfl, rfl, rfl, rfl⟩

theorem cells_hartSaw (s : State) (h pa n : Nat) (aq : Bool) : Cells s (hartSaw s h pa n aq) := by
  unfold hartSaw
  split
  · exact .refl s
  · exact cells_modHart ..

theorem hartKept_hartSaw {s : State} {h : Nat} (hlt : h < s.harts.length) (pa n : Nat) (aq : Bool) : HartKept h s (hartSaw s h pa n aq) := by
  unfold hartSaw
  split
  · exact .refl h s
  · exact hartKept_modHart hlt (fun _ => rfl) fun _ => rfl

/-- Cells and harts both stay. -/
structure Beside (h : Nat) (s t : State) : Prop where
  cells : Cells s t
  hart : HartKept h s t

theorem Beside.refl (h : Nat) (s : State) : Beside h s s := ⟨.refl s, .refl h s⟩

theorem Beside.trans {h : Nat} {s t u : State} (a : Beside h s t) (b : Beside h t u) : Beside h s u :=
  ⟨a.cells.trans b.cells, a.hart.trans b.hart⟩

theorem beside_addTag (h : Nat) (s : State) (who : Party) (sc : Scope) (past : List Nat) (loc n : Nat) :
    Beside h s (addTag s who sc past loc n) := by
  refine ⟨cells_addTag .., hartKept_of_harts ?_ h⟩
  unfold addTag
  dsimp only
  split <;> rfl

theorem beside_tailGain (h : Nat) (s : State) (pa : Nat) (ids : List Nat) : Beside h s (tailGain s pa ids) := by
  unfold tailGain
  split
  · exact ⟨⟨rfl, rfl, rfl, rfl⟩, hartKept_of_harts (by rfl) h⟩
  · exact .refl h s

theorem beside_netGain (h : Nat) (s : State) (pa k : Nat) (ids : List Nat) : Beside h s (netGain s pa k ids) := by
  unfold netGain
  split
  · exact .refl h s
  · exact ⟨⟨rfl, rfl, rfl, rfl⟩, hartKept_of_harts (by rfl) h⟩

theorem beside_hartWrote (s : State) (h pa n : Nat) (rl : Bool) : Beside h s (hartWrote s h pa n rl) :=
  ((foldl_holds (Beside h s) (.refl h s) fun t _ ht => ht.trans (beside_addTag ..)).trans (beside_tailGain ..)).trans (beside_netGain ..)

theorem harts_writeMem (s : State) (pa : Nat) (bs : List Byte) : (writeMem s pa bs).harts = s.harts :=
  congrArg (fun v => v.rest.harts) (same_writeMem (rfl : Same ⟨false, false⟩ (view ⟨false, false⟩ s) s))

theorem hartReaches_of {s : State} {pa size : Nat} (hsize : size ∈ [1, 2, 4, 8]) (hal : pa % size = 0) (hpa : pa < 2 ^ 52)
    (hres : areaOf pa ≠ .reserved) (hlink : linkDown s pa = false) : hartReaches s pa size = true := by
  simp only [hartReaches, Bool.and_eq_true, List.contains_iff_mem, beq_iff_eq, decide_eq_true_eq, bne_iff_ne, Bool.not_eq_true']
  exact ⟨⟨⟨⟨hsize, hal⟩, hpa⟩, hres⟩, hlink⟩

/-- An aligned access of a hart to memory, where no link is down. -/
structure HartAt (s : State) (h pa size : Nat) : Prop where
  lt : h < s.harts.length
  reaches : hartReaches s pa size = true
  regs : areaOf pa ≠ .regs
  clean : CleanAt s pa size
  sram : s.sram = []
  small : size ≤ 8

section hart
variable {s : State} {h pa size : Nat} (ha : HartAt s h pa size)
include ha

/-- What a hart reads: the bytes, in a state that holds the same. -/
theorem hartLoad_spec (aq : Bool) : ∃ t, Cells s t ∧ t.harts.length = s.harts.length ∧ (hartOf t h).rd = BitVec.ofNat 64 (peek s pa size) ∧
    (hartOf t h).resv = (hartOf s h).resv ∧ hartLoad s h pa size aq = (t, peek s pa size, .ok) := by
  have hc := cells_hartSaw s h pa size aq
  have hk := hartKept_hartSaw ha.lt pa size aq
  obtain ⟨t, hq, hr⟩ := readMem_clean (hc.sram.trans ha.sram) (hc.cleanAt.2 ha.clean)
  have hkt := hk.trans (hq.hartKept h)
  have hload : hartLoad s h pa size aq =
      (modHart (tick t) h (fun x => { x with rd := BitVec.ofNat 64 (peek s pa size) }), peek s pa size, .ok) := by
    unfold hartLoad
    rw [busRead, if_neg ha.regs, hr, hc.peekBytes]
    rfl
  have hlt : h < (tick t).harts.length := lt_of_lt_of_eq ha.lt hkt.len.symm
  refine ⟨_, (hc.trans hq.cells).trans ((⟨rfl, rfl, rfl, rfl⟩ : Cells t (tick t)).trans (cells_modHart ..)),
    (length_modHart ..).trans hkt.len, ?_, ?_, hload⟩
  · rw [hartOf_modHart hlt]
  · rw [hartOf_modHart hlt]
    exact hkt.resv

/-- What a hart stores: its bytes alone, and its own read and reservation stay. -/
theorem hartModify_spec {t : State} (hc : Cells s t) (v : Nat) (rl : Bool) :
    Wrote s (hartModify t h pa size v rl) pa (bytesOf v size) ∧ HartKept h t (hartModify t h pa size v rl) := by
  unfold hartModify
  have hc' : Cells s { t with hist := t.hist.filter fun w => !overlap w.loc w.old.length pa size } := hc.trans ⟨rfl, rfl, rfl, rfl⟩
  have hbeside := beside_hartWrote (busPut { t with hist := t.hist.filter fun w => !overlap w.loc w.old.length pa size } (.hart h) pa
    (bytesOf v size)) h pa size rl
  refine ⟨(hc'.wrote (busPut_wrote (hc'.sram.trans ha.sram) ha.regs (hc'.cleanAt.2 ?_))).cells hbeside.cells, HartKept.trans ?_ hbeside.hart⟩
  · rw [length_bytesOf]
    exact ha.clean
  · refine hartKept_of_harts ?_ h
    rw [busPut, if_neg ha.regs, harts_writeMem]

theorem HartAt.read_lt : peek s pa size < 2 ^ 64 := by
  have hlt := ofBytes_lt (peekBytes s pa size)
  have hlen : (peekBytes s pa size).length = size := by simp [peekBytes]
  rw [hlen] at hlt
  exact hlt.trans_le ((Nat.pow_le_pow_right (by decide) ha.small).trans (by decide))

omit ha in
theorem hartModified {u : State} {v : Nat} (hc : CleanAt s pa size) (hw : Wrote s u pa (bytesOf v size)) :
    peek u pa size = v % 2 ^ (8 * size) ∧ ∀ a, a < pa ∨ pa + size ≤ a → CleanAt s a 1 → peekBytes u a 1 = peekBytes s a 1 := by
  refine ⟨?_, fun a hout hca => hw.peek_other hca (by rw [length_bytesOf]; omega)⟩
  rw [hw.peek_bytesOf hc, Nat.pow_mul]

/-- What a hart's store, or the second half of an atomic access, leaves. -/
def HartPut (s u : State) (pa size v : Nat) : Prop :=
  peek u pa size = v % 2 ^ (8 * size) ∧ ∀ a, a < pa ∨ pa + size ≤ a → CleanAt s a 1 → peekBytes u a 1 = peekBytes s a 1

theorem exec_hartLoad (hrun : Running s) : Becomes (exec (.nimbusHartAccess h (.load pa size)) s) fun u =>
    (hartOf u h).rd.toNat = peek s pa size ∧ u.mem = s.mem := by
  obtain ⟨t, hc, -, hrd, -, hload⟩ := hartLoad_spec ha false
  rw [show exec (.nimbusHartAccess h (.load pa size)) s = execNimbusHartAccess h (.load pa size) s from rfl, execNimbusHartAccess,
    agent_of_running hrun]
  dsimp only
  rw [if_pos ha.reaches, hload]
  exact ⟨t, rfl, by rw [hrd, BitVec.toNat_ofNat, Nat.mod_eq_of_lt ha.read_lt], hc.mem⟩

omit ha in
theorem beforePort_outside {pa : Nat} (hr : areaOf pa ≠ .regs) (s : State) (v : DWord) : beforePort s pa v = s := by
  have hword : ∀ p k, devWord (pa / 8 * 8) ≠ .port p k := by
    intro p k hp
    refine hr ((areaOf_regs_iff pa).2 ?_)
    have hbound : 0xFF1000000000 ≤ pa / 8 * 8 ∧ pa / 8 * 8 < 0xFF1000000000 + 64 * 20 := by
      unfold devWord at hp
      dsimp only at hp
      split_ifs at hp with h1 h2 h3 h4
      exact h4
    have hdiv : pa / 8 * 8 / 2 ^ 21 / 2 ^ 11 = pa / 2 ^ 21 / 2 ^ 11 := by omega
    rw [← hdiv, Nat.div_div_eq_div_mul, Nat.le_div_iff_mul_le (by decide), Nat.div_lt_iff_lt_mul (by decide)]
    exact ⟨le_trans (by decide) hbound.1, lt_trans hbound.2 (by decide)⟩
  unfold beforePort
  split
  · next p k hp => exact absurd hp (hword p k)
  · rfl

theorem exec_hartStore (hrun : Running s) (v : DWord) : Becomes (exec (.nimbusHartAccess h (.store pa size v)) s) fun u =>
    HartPut s u pa size v.toNat := by
  rw [show exec (.nimbusHartAccess h (.store pa size v)) s = execNimbusHartAccess h (.store pa size v) s from rfl, execNimbusHartAccess,
    agent_of_running hrun]
  dsimp only
  rw [if_pos ha.reaches, hartStore, beforePort_outside ha.regs]
  refine ⟨_, rfl, hartModified ha.clean (Wrote.cells (s := busWrite s (.hart h) pa (bytesOf v.toNat size)) (beside_hartWrote ..).cells ?_)⟩
  refine (cells_endTags s pa _).wrote (busPut_wrote ha.sram ha.regs ?_)
  rw [length_bytesOf]
  exact ha.clean

theorem exec_hartAmo (hrun : Running s) (hsize : 4 ≤ size) (o : AtomOp) (v : DWord) (aq rl : Bool) :
    Becomes (exec (.nimbusHartAccess h (.amo o pa size v aq rl)) s) fun u => (hartOf u h).rd.toNat = peek s pa size ∧
      HartPut s u pa size (amoVal o (8 * size) (peek s pa size) (v.toNat % 2 ^ (8 * size))) := by
  obtain ⟨t, hc, -, hrd, -, hload⟩ := hartLoad_spec ha aq
  obtain ⟨hw, hk⟩ := hartModify_spec ha hc (amoVal o (8 * size) (peek s pa size) (v.toNat % 2 ^ (8 * size))) rl
  rw [show exec (.nimbusHartAccess h (.amo o pa size v aq rl)) s = execNimbusHartAccess h (.amo o pa size v aq rl) s from rfl,
    execNimbusHartAccess, agent_of_running hrun]
  dsimp only
  rw [if_neg (by simp [ha.reaches]; omega), hload, if_pos rfl]
  exact ⟨_, rfl, by rw [hk.rd, hrd, BitVec.toNat_ofNat, Nat.mod_eq_of_lt ha.read_lt], hartModified ha.clean hw⟩

theorem exec_hartLr (hrun : Running s) (hsize : 4 ≤ size) : Becomes (exec (.nimbusHartAccess h (.lr pa size)) s) fun u =>
    (hartOf u h).rd.toNat = peek s pa size ∧ u.mem = s.mem ∧ (hartOf u h).resv = some (pa, size, bytesOf (peek s pa size) size) := by
  obtain ⟨t, hc, hlen, hrd, -, hload⟩ := hartLoad_spec ha false
  rw [show exec (.nimbusHartAccess h (.lr pa size)) s = execNimbusHartAccess h (.lr pa size) s from rfl, execNimbusHartAccess,
    agent_of_running hrun]
  dsimp only
  rw [if_neg (by simp [ha.reaches]; omega), hload]
  have hlt : h < t.harts.length := lt_of_lt_of_eq ha.lt hlen.symm
  refine ⟨_, rfl, ?_, hc.mem, ?_⟩
  · rw [hartOf_modHart hlt]
    exact (congrArg BitVec.toNat hrd).trans (by rw [BitVec.toNat_ofNat, Nat.mod_eq_of_lt ha.read_lt])
  · rw [hartOf_modHart hlt, if_pos rfl]

/-- Does a hart's reservation still hold. -/
def scHeld (s : State) (h pa size : Nat) : Bool :=
  match (hartOf s h).resv with
  | some (a, n, bs) => a == pa && n == size && (busRead s (.hart h) pa size).1 == bs
  | none => false

/-- The reservation is gone, and the hart has its answer. -/
def scAnswered (s : State) (h : Nat) (ok : Bool) : State :=
  modHart (tick s) h fun x => { x with resv := none, rd := if ok then 0 else 1 }

/-- The end of a conditional store. -/
def scEnd (s : State) (h pa size v : Nat) (aq rl ok : Bool) : State :=
  if ok then hartModify (hartSaw (scAnswered s h ok) h pa size aq) h pa size v rl else scAnswered s h ok

omit ha in
theorem bytesOf_ofBytes (bs : List Byte) : bytesOf (ofBytes bs) bs.length = bs := by
  induction bs with
  | nil => rfl
  | cons b r ih =>
    rw [List.length_cons, bytesOf_succ, ofBytes_cons]
    have hb := b.isLt
    have h1 : BitVec.ofNat 8 (b.toNat + 256 * ofBytes r) = b := by
      apply BitVec.eq_of_toNat_eq
      rw [BitVec.toNat_ofNat]
      omega
    rw [h1, show (b.toNat + 256 * ofBytes r) / 256 = ofBytes r by omega, ih]

/-- A reservation that still holds names the access and the bytes there. -/
theorem resv_of_held (hheld : scHeld s h pa size = true) : (hartOf s h).resv = some (pa, size, bytesOf (peek s pa size) size) := by
  obtain ⟨t, hq, hr⟩ := readMem_clean ha.sram ha.clean
  unfold scHeld at hheld
  rw [busRead, if_neg ha.regs, hr] at hheld
  split at hheld
  · next a n bs he =>
    simp only [Bool.and_eq_true, beq_iff_eq] at hheld
    obtain ⟨⟨rfl, rfl⟩, rfl⟩ := hheld
    rw [he, peek]
    have hlen : (peekBytes s a n).length = n := by simp [peekBytes]
    have hbytes := bytesOf_ofBytes (peekBytes s a n)
    rw [hlen] at hbytes
    rw [hbytes]
  · cases hheld

theorem scEnd_spec (v : Nat) (aq rl ok : Bool) : (hartOf (scEnd s h pa size v aq rl ok) h).resv = none ∧
    (hartOf (scEnd s h pa size v aq rl ok) h).rd = (if ok then 0 else 1) ∧
    (ok = false → (scEnd s h pa size v aq rl ok).mem = s.mem) ∧ (ok = true → Wrote s (scEnd s h pa size v aq rl ok) pa (bytesOf v size)) := by
  have hlt : h < (tick s).harts.length := ha.lt
  have hc : Cells s (scAnswered s h ok) := ⟨rfl, rfl, rfl, rfl⟩
  have hof : (hartOf (scAnswered s h ok) h).resv = none ∧ (hartOf (scAnswered s h ok) h).rd = if ok then 0 else 1 := by
    unfold scAnswered
    rw [hartOf_modHart hlt]
    exact ⟨rfl, rfl⟩
  have hlt' : h < (scAnswered s h ok).harts.length := by
    unfold scAnswered
    rw [length_modHart]
    exact hlt
  unfold scEnd
  cases ok with
  | false => exact ⟨hof.1, hof.2, fun _ => hc.mem, nofun⟩
  | true =>
    have hk1 := hartKept_hartSaw hlt' pa size aq
    obtain ⟨hw, hk2⟩ := hartModify_spec ha (hc.trans (cells_hartSaw _ h pa size aq)) v rl
    have hk := hk1.trans hk2
    exact ⟨hk.resv.trans hof.1, hk.rd.trans hof.2, nofun, fun _ => hw⟩

theorem exec_hartSc (hrun : Running s) (hsize : 4 ≤ size) (v : DWord) (aq rl : Bool) :
    Becomes (exec (.nimbusHartAccess h (.sc pa size v aq rl)) s) fun u => (hartOf u h).resv = none ∧
      (((hartOf u h).rd.toNat = 1 ∧ u.mem = s.mem) ∨
        ((hartOf u h).rd.toNat = 0 ∧ HartPut s u pa size v.toNat ∧ (hartOf s h).resv = some (pa, size, bytesOf (peek s pa size) size))) := by
  rw [show exec (.nimbusHartAccess h (.sc pa size v aq rl)) s = execNimbusHartAccess h (.sc pa size v aq rl) s from rfl, execNimbusHartAccess,
    agent_of_running hrun]
  dsimp only
  rw [if_neg (by simp [ha.reaches]; omega)]
  refine ⟨scEnd s h pa size v.toNat aq rl (scHeld s h pa size && Config.freeBool s.frees), rfl, ?_⟩
  obtain ⟨hresv, hrd, hno, hyes⟩ := scEnd_spec ha v.toNat aq rl (scHeld s h pa size && Config.freeBool s.frees)
  refine ⟨hresv, ?_⟩
  rw [hrd]
  by_cases hok : (scHeld s h pa size && Config.freeBool s.frees) = true
  · rw [if_pos hok]
    exact .inr ⟨rfl, hartModified ha.clean (hyes hok), resv_of_held ha (Bool.and_eq_true _ _ ▸ hok).1⟩
  · rw [if_neg hok]
    exact .inl ⟨rfl, hno (Bool.eq_false_iff.2 hok)⟩

end hart

theorem exec_hartFence {s : State} {h : Nat} (hrun : Running s) (hlt : h < s.harts.length) (pr pw sr sw : Bool) :
    Becomes (exec (.nimbusHartAccess h (.fence pr pw sr sw)) s) fun u => BytesKept s u ∧ (hartOf u h).rd.toNat = (hartOf s h).rd.toNat := by
  rw [show exec (.nimbusHartAccess h (.fence pr pw sr sw)) s = execNimbusHartAccess h (.fence pr pw sr sw) s from rfl, execNimbusHartAccess,
    agent_of_running hrun]
  refine ⟨_, rfl, ?_⟩
  dsimp only
  unfold hartFence
  dsimp only
  have hkept {t : State} {f : Hart → Hart} (hb : BytesKept s t) (hh : t.harts = s.harts) (hrd : ∀ x, (f x).rd = x.rd) :
      BytesKept s (modHart t h f) ∧ (hartOf (modHart t h f) h).rd.toNat = (hartOf s h).rd.toNat := by
    refine ⟨⟨hb.1, hb.2⟩, ?_⟩
    rw [hartOf_modHart (by rw [hh]; exact hlt), hrd, (hartKept_of_harts hh h).rd]
  have hdone (b : Bool) (tags : List RelTag) : BytesKept s (if b then { s with arDone := tags } else s) ∧
      (if b then { s with arDone := tags } else s).harts = s.harts := by
    cases b with
    | false => exact ⟨⟨rfl, fun _ _ _ => rfl⟩, rfl⟩
    | true => exact ⟨⟨rfl, fun _ _ _ => rfl⟩, rfl⟩
  split
  · exact hkept (hdone ..).1 (hdone ..).2 fun _ => rfl
  · exact hkept (hdone ..).1 (hdone ..).2 fun _ => rfl

/-! The order of the hot list (R61). -/

/-- One row does not come after another. -/
def notAfter (a b : Nat × Nat) : Prop := b.2 < a.2 ∨ (a.2 = b.2 ∧ a.1 ≤ b.1)

theorem hotInsert_perm (x : Nat × Nat) (l : List (Nat × Nat)) : (hotInsert x l).Perm (x :: l) := by
  induction l with
  | nil => exact .refl _
  | cons y r ih =>
    unfold hotInsert
    split
    · exact .refl _
    · exact (ih.cons y).trans (.swap x y r)

theorem hotInsert_sorted (x : Nat × Nat) {l : List (Nat × Nat)} (h : l.Pairwise notAfter) : (hotInsert x l).Pairwise notAfter := by
  induction l with
  | nil => exact List.pairwise_singleton _ _
  | cons y r ih =>
    obtain ⟨hy, hr⟩ := List.pairwise_cons.1 h
    unfold hotInsert
    split
    · next hx =>
      have hxy : notAfter x y := by
        simp only [hotterThan, Bool.or_eq_true, Bool.and_eq_true, decide_eq_true_eq, beq_iff_eq] at hx
        unfold notAfter
        omega
      refine List.pairwise_cons.2 ⟨fun z hz => ?_, h⟩
      rcases List.mem_cons.1 hz with rfl | hz
      · exact hxy
      · have hyz := hy z hz
        unfold notAfter at *
        omega
    · next hx =>
      refine List.pairwise_cons.2 ⟨fun z hz => ?_, ih hr⟩
      rcases List.mem_cons.1 ((hotInsert_perm x r).mem_iff.1 hz) with rfl | hz
      · simp only [hotterThan, Bool.or_eq_true, Bool.and_eq_true, decide_eq_true_eq, beq_iff_eq] at hx
        unfold notAfter
        omega
      · exact hy z hz

theorem hotSort_spec (l : List (Nat × Nat)) : (hotSort l).Perm l ∧ (hotSort l).Pairwise notAfter := by
  have hfold (xs a : List (Nat × Nat)) (ha : a.Pairwise notAfter) : (xs.foldl (fun a x => hotInsert x a) a).Perm (a ++ xs) ∧
      (xs.foldl (fun a x => hotInsert x a) a).Pairwise notAfter := by
    induction xs generalizing a with
    | nil => exact ⟨by rw [List.append_nil]; exact .refl _, ha⟩
    | cons x r ih =>
      obtain ⟨hp, hs⟩ := ih (hotInsert x a) (hotInsert_sorted x ha)
      exact ⟨hp.trans (((hotInsert_perm x a).append_right r).trans List.perm_middle.symm), hs⟩
  exact hfold l [] List.Pairwise.nil

/-! The end of a hotness interval (R62). -/

theorem hotRecord_lt (iv stack frame est : Nat) (hs : stack < 8) : hotRecord iv stack frame est < 256 ^ 8 := by
  unfold hotRecord
  have h1 := Nat.mod_lt iv (show 0 < 256 by decide)
  have h2 := Nat.mod_lt frame (show 0 < 2 ^ 36 by decide)
  have h3 := Nat.mod_lt est (show 0 < 2 ^ 16 by decide)
  generalize iv % 256 = a at *
  generalize frame % 2 ^ 36 = b at *
  generalize est % 2 ^ 16 = c at *
  calc a * 2 ^ 56 + stack * 2 ^ 52 + b * 2 ^ 16 + c
    _ ≤ 255 * 2 ^ 56 + 7 * 2 ^ 52 + (2 ^ 36 - 1) * 2 ^ 16 + (2 ^ 16 - 1) := by gcongr <;> omega
    _ < 256 ^ 8 := by decide

/-- Clean memory, and the number of the controllers' sketches. -/
def Sketched (n : Nat) (s : State) : Prop := Spotless s ∧ s.hot.length = n

theorem length_hotAfter (s : State) (pa : Nat) : (hotAfter s pa).length = s.hot.length := by
  rw [hotAfter, lset_eq_set, List.length_set]

section sketched
variable {n : Nat} {s : State} (h : Sketched n s)
include h

theorem sketched_colCmd (b : Bool) (pa : Nat) : Sketched n (colCmd s b pa) := by
  refine ⟨h.1, ?_⟩
  unfold colCmd
  dsimp only
  split
  · rw [length_hotAfter]
    exact h.2
  · exact h.2

theorem sketched_dieAccess (line need put : Nat) : Sketched n (dieAccess s line need put) := by
  unfold dieAccess
  dsimp only
  rw [if_pos (by rw [h.1.1]; rfl)]
  exact sketched_colCmd (sketched_colCmd h _ _) _ _

theorem sketched_openLine (line : Nat) : Sketched n (openLine s line) := by
  refine ⟨⟨(openLine_sram s line).trans h.1.1, fun b => clean_openLine line (h.1.2 b)⟩, ?_⟩
  unfold openLine
  split
  · exact h.2
  · exact h.2

theorem sketched_pokeBytes (pa : Nat) (bs : List Byte) : Sketched n (pokeBytes s pa bs) := h

theorem sketched_freshSec (sec : Nat) (bs : List Byte) : Sketched n (freshSec s sec bs) := by
  refine ⟨⟨h.1.1, fun b hb => ?_⟩, h.2⟩
  show (stGet (stSet s.ecc sec 0) (b / 32)).getLsbD 32 = false
  rw [stGet_set]
  split
  · decide
  · exact h.1.2 b hb

theorem sketched_writeIn (pa : Nat) (bs : List Byte) : Sketched n (writeIn s pa bs) := by
  have ho := sketched_openLine h (pa / 128)
  unfold writeIn
  split
  · next hb =>
    dsimp only
    split
    · rw [dieMerge, if_pos (by rw [ho.1.1]; rfl)]
      exact sketched_freshSec ho _ _
    · rw [if_pos (by rw [ho.1.2 pa hb, ho.1.1]; rfl)]
      exact ho
  · exact ho

theorem sketched_writeMem (pa : Nat) (bs : List Byte) : Sketched n (writeMem s pa bs) := by
  unfold writeMem
  refine foldl_holds (fun x : State × List Byte => Sketched n x.1) ?_ fun x p hx => sketched_writeIn hx _ _
  refine foldl_holds (Sketched n) h fun t p ht => ?_
  split
  · exact sketched_dieAccess ht _ _ _
  · exact ht

end sketched

/-- The writes of a list of numbers to places of their own. -/
def numbersWritten (f : Nat → Nat) (xs : List (Nat × Nat)) (s : State) : State :=
  xs.foldl (fun s r => hwWrite s (f r.2) (bytesOf r.1 8)) s

section numbers
variable {f : Nat → Nat} {xs : List (Nat × Nat)}

theorem sketched_numbersWritten {n : Nat} {s : State} (h : Sketched n s) : Sketched n (numbersWritten f xs s) :=
  foldl_holds (Sketched n) h fun _ _ ht => sketched_writeMem ht _ _

theorem regs_numbersWritten {b : Nat → DWord} {s : State} (h : RegsHeld b s) : RegsHeld b (numbersWritten f xs s) :=
  foldl_holds (RegsHeld b) h fun _ _ ht => regs_writeMem ht

theorem peek_numbersWritten_other {s : State} (hs : Spotless s) {a : Nat} (hout : ∀ x ∈ xs, a + 8 ≤ f x.2 ∨ f x.2 + 8 ≤ a) :
    peek (numbersWritten f xs s) a 8 = peek s a 8 := by
  induction xs generalizing s with
  | nil => rfl
  | cons x r ih =>
    have hw := hs.writeMem (f x.2) (bytesOf x.1 8)
    refine (ih hw.spotless fun y hy => hout y (List.mem_cons_of_mem _ hy)).trans (hw.peek_other hs ?_)
    rw [length_bytesOf]
    exact hout x (List.mem_cons_self ..)

theorem peek_numbersWritten {s : State} (hs : Spotless s) (hapart : xs.Pairwise fun x y => f x.2 + 8 ≤ f y.2 ∨ f y.2 + 8 ≤ f x.2)
    {x : Nat × Nat} (hx : x ∈ xs) : peek (numbersWritten f xs s) (f x.2) 8 = x.1 % 256 ^ 8 := by
  induction xs generalizing s with
  | nil => cases hx
  | cons y r ih =>
    obtain ⟨hy, hr⟩ := List.pairwise_cons.1 hapart
    have hw := hs.writeMem (f y.2) (bytesOf y.1 8)
    rcases List.mem_cons.1 hx with rfl | hx
    · exact (peek_numbersWritten_other hw.spotless hy).trans (Stored.peek_same hs hw)
    · exact ih hw.spotless hr hx

end numbers

/-- The place of a record in the ring of hot records. -/
def hotPlace (base prod size i : Nat) : Nat := base + 8 * ((prod + i) % 2 ^ 32 % size)

theorem hotPlace_apart {base prod size i j : Nat} (hsize : size ∣ 2 ^ 32) (h32 : 32 ≤ size) (hi : i < 32) (hj : j < 32) (hne : i ≠ j) :
    hotPlace base prod size i + 8 ≤ hotPlace base prod size j ∨ hotPlace base prod size j + 8 ≤ hotPlace base prod size i := by
  have hmod : (prod + i) % size ≠ (prod + j) % size := by
    intro h
    have h := Nat.ModEq.add_left_cancel' prod h
    unfold Nat.ModEq at h
    rw [Nat.mod_eq_of_lt (by omega), Nat.mod_eq_of_lt (by omega)] at h
    exact hne h
  unfold hotPlace
  rw [Nat.mod_mod_of_dvd _ hsize, Nat.mod_mod_of_dvd _ hsize]
  omega

theorem dvd_of_pow2In {v lo hi : Nat} (h : pow2In v lo hi = true) (h0 : v ≠ 0) (hhi : hi ≤ 2 ^ 32) : lo ≤ v ∧ v ∣ 2 ^ 32 := by
  simp only [pow2In, Bool.or_eq_true, beq_iff_eq, Bool.and_eq_true, decide_eq_true_eq] at h
  obtain ⟨⟨hlo, hle⟩, hp⟩ := h.resolve_left h0
  refine ⟨hlo, ?_⟩
  rw [← hp] at hle ⊢
  exact Nat.pow_dvd_pow 2 ((Nat.pow_le_pow_iff_right (by decide)).1 (hle.trans hhi))

theorem RegsHeld.trans {s t u : State} (h : RegsHeld (stGet s.preg) t) (h' : RegsHeld (stGet t.preg) u) : RegsHeld (stGet s.preg) u :=
  fun n h1 h2 h3 => (h' n h1 h2 h3).trans (h n h1 h2 h3)

theorem RegsHeld.pkgReg {s t : State} (h : RegsHeld (stGet s.preg) t) {n : Nat} (h1 : n < 0xA60) (h2 : n ≠ 0x81A) (h3 : n ≠ 0x81C) :
    pkgReg t n = pkgReg s n := by
  unfold Sys2Proof.Machine.pkgReg
  rw [h n h1 h2 h3]

/-- The ring's base stays while its records are written. -/
theorem hotWritten_eq {b s : State} (h : RegsHeld (stGet b.preg) s) (prod size : Nat) (xs : List (Nat × Nat)) :
    xs.foldl (fun s r => hwWrite s (pkgReg s 0x813 + 8 * ((prod + r.2) % 2 ^ 32 % size)) (bytesOf r.1 8)) s =
      numbersWritten (hotPlace (pkgReg b 0x813) prod size) xs s := by
  induction xs generalizing s with
  | nil => rfl
  | cons x r ih =>
    have hbase : pkgReg s 0x813 = pkgReg b 0x813 := h.pkgReg (by decide) (by decide) (by decide)
    rw [List.foldl_cons, numbersWritten, List.foldl_cons, hbase]
    exact ih (regs_writeMem h)

/-- The sketch of a stack with its next interval begun. -/
abbrev nextHot (s : State) (stack : Nat) : State :=
  { s with hot := lset s.hot stack ⟨[], [], (s.hot.getD stack ⟨[], [], 0⟩).ivl + 1⟩ }

/-- The end of an interval once its records are written. -/
abbrev hotEnded (s : State) (stack : Nat) (t : State) : State :=
  { setPkgReg { t with frees := s.frees + 32 } 0x815 ((pkgReg s 0x815 + 32) % 2 ^ 32) with
    hot := lset t.hot stack ⟨[], [], (s.hot.getD stack ⟨[], [], 0⟩).ivl + 1⟩ }

section interval
variable {s : State} {stack : Nat} (hrun : Running s) (hstack : stack < 8) (hlen : s.hot.length = 8)
include hrun hstack hlen

/-- Is there room in the ring of hot records. -/
abbrev HotRoom (s : State) : Prop := (pkgReg s 0x815 + 2 ^ 64 - pkgReg s 0x816) % 2 ^ 32 + 32 ≤ pkgReg s 0x814

theorem exec_intervalEnd_full (hno : ¬HotRoom s) : Becomes (exec (.hotnessIntervalEnd stack) s) fun u => u.mem = s.mem ∧
    pkgReg u 0x815 = pkgReg s 0x815 ∧ pkgReg u 0x817 = (pkgReg s 0x817 + 1) % 2 ^ 64 ∧
    u.hot.getD stack ⟨[], [], 0⟩ = ⟨[], [], (s.hot.getD stack ⟨[], [], 0⟩).ivl + 1⟩ := by
  have hexec : exec (.hotnessIntervalEnd stack) s = .next (nextHot (setPkgReg s 0x817 (pkgReg s 0x817 + 1)) stack) := by
    rw [show exec (.hotnessIntervalEnd stack) s = execHotnessIntervalEnd stack s from rfl, execHotnessIntervalEnd, agent_of_running hrun,
      if_neg (by omega)]
    dsimp only
    rw [if_neg hno]
    rfl
  rw [hexec]
  refine ⟨_, rfl, rfl, pkgReg_setPkgReg_other s _ (by decide), pkgReg_setPkgReg s _ _, ?_⟩
  exact getD_lset_same _ _ _ _ (lt_of_lt_of_eq hstack hlen.symm)

omit hlen in
theorem exec_intervalEnd_eq (hroom : HotRoom s) : exec (.hotnessIntervalEnd stack) s = .next (hotEnded s stack
    (numbersWritten (hotPlace (pkgReg s 0x813) (pkgReg s 0x815) (pkgReg s 0x814))
      (hotRecords s stack (s.hot.getD stack ⟨[], [], 0⟩)).zipIdx s)) := by
  rw [show exec (.hotnessIntervalEnd stack) s = execHotnessIntervalEnd stack s from rfl, execHotnessIntervalEnd, agent_of_running hrun,
    if_neg (by omega)]
  dsimp only
  rw [if_pos hroom, hotWritten_eq (.rfl s)]
  generalize numbersWritten _ _ s = t
  rfl

theorem exec_intervalEnd_room (hroom : HotRoom s) (he : s.ecc = []) (hs : s.sram = []) (hpow : pow2In (pkgReg s 0x814) 256 (2 ^ 20) = true) :
    Becomes (exec (.hotnessIntervalEnd stack) s) fun u => pkgReg u 0x815 = (pkgReg s 0x815 + 32) % 2 ^ 32 ∧
      u.hot.getD stack ⟨[], [], 0⟩ = ⟨[], [], (s.hot.getD stack ⟨[], [], 0⟩).ivl + 1⟩ ∧
      ∀ i < 32, ∀ e, (hotSort (s.hot.getD stack ⟨[], [], 0⟩).list)[i]? = some e →
        peek u (hotPlace (pkgReg s 0x813) (pkgReg s 0x815) (pkgReg s 0x814) i) 8 = hotRecord (s.hot.getD stack ⟨[], [], 0⟩).ivl stack e.1 e.2 := by
  have hsketch : Sketched 8 s := ⟨⟨hs, fun b _ => by simp [he, stGet]⟩, hlen⟩
  obtain ⟨h256, hdvd⟩ := dvd_of_pow2In hpow (by omega) (by decide)
  obtain ⟨t, ht⟩ : ∃ t, t = numbersWritten (hotPlace (pkgReg s 0x813) (pkgReg s 0x815) (pkgReg s 0x814))
    (hotRecords s stack (s.hot.getD stack ⟨[], [], 0⟩)).zipIdx s := ⟨_, rfl⟩
  have hts : Sketched 8 t := ht ▸ sketched_numbersWritten hsketch
  have hexec := exec_intervalEnd_eq hrun hstack hroom
  rw [← ht] at hexec
  rw [hexec]
  refine ⟨_, rfl, ?_, getD_lset_same _ _ _ _ (lt_of_lt_of_eq hstack hts.2.symm), fun i hi e hget => ?_⟩
  · refine (pkgReg_setPkgReg _ _ _).trans ?_
    omega
  · have hcells : Cells t (hotEnded s stack t) := ⟨rfl, rfl, rfl, rfl⟩
    have hlen32 : (hotRecords s stack (s.hot.getD stack ⟨[], [], 0⟩)).length = 32 := by simp [hotRecords]
    have hrec : (hotRecords s stack (s.hot.getD stack ⟨[], [], 0⟩))[i]? =
        some (hotRecord (s.hot.getD stack ⟨[], [], 0⟩).ivl stack e.1 e.2) := by
      simp only [hotRecords, List.getElem?_map, List.getElem?_range hi, Option.map_some, hget]
    have hmem : (hotRecord (s.hot.getD stack ⟨[], [], 0⟩).ivl stack e.1 e.2, i) ∈
        (hotRecords s stack (s.hot.getD stack ⟨[], [], 0⟩)).zipIdx := List.mem_zipIdx_iff_getElem?.2 hrec
    rw [hcells.peek, ht]
    refine (peek_numbersWritten hsketch.1 ?_ hmem).trans (Nat.mod_eq_of_lt (hotRecord_lt _ _ _ _ hstack))
    refine List.pairwise_iff_getElem.2 fun a b ha hb hab => ?_
    rw [List.length_zipIdx, hlen32] at ha hb
    rw [List.getElem_zipIdx, List.getElem_zipIdx]
    exact hotPlace_apart hdvd (by omega) (by omega) (by omega) (by omega)

end interval

/-! Scrubs (R103 to R106). -/

/-- No sector can be logged: the event log has no room. -/
abbrev LogClosed (s : State) : Prop := pkgReg s 0x819 = 0

theorem logEvent_closed {s : State} (h : LogClosed s) (kind cause detail ld addr aux : Nat) :
    logEvent s kind cause detail ld addr aux = setPkgReg s 0x81C (pkgReg s 0x81C + 1) :=
  logEvent_full (by rw [h]; exact Nat.not_lt_zero _)

theorem RegsHeld.logClosed {s t : State} (h : RegsHeld (stGet s.preg) t) (hl : LogClosed s) : LogClosed t :=
  (h.pkgReg (by decide) (by decide) (by decide)).trans hl

theorem cells_setPkgReg (s : State) (n x : Nat) : Cells s (setPkgReg s n x) := ⟨rfl, rfl, rfl, rfl⟩

theorem cells_setScrub (s : State) (k : Nat) (x : Scrub) : Cells s (setScrub s k x) := ⟨rfl, rfl, rfl, rfl⟩

/-- Events that the log has no room for touch no byte. -/
theorem cells_logEvents {α : Type} (kind cause detail ld addr aux : State → α → Nat) (xs : List α) {s : State} (hl : LogClosed s) :
    Cells s (xs.foldl (fun s x => logEvent s (kind s x) (cause s x) (detail s x) (ld s x) (addr s x) (aux s x)) s) := by
  induction xs generalizing s with
  | nil => exact .refl s
  | cons x r ih =>
    rw [List.foldl_cons, logEvent_closed hl]
    exact (cells_setPkgReg ..).trans (ih ((pkgReg_setPkgReg_other s _ (by decide)).trans hl))

theorem cells_corrected {s : State} (hl : LogClosed s) (pa : Nat) : Cells s (corrected s pa) := by
  have hcount := cells_setPkgReg s (0xA60 + pa / 2 ^ 36) (pkgReg s (0xA60 + pa / 2 ^ 36) + 1)
  have hclosed : LogClosed (setPkgReg s (0xA60 + pa / 2 ^ 36) (pkgReg s (0xA60 + pa / 2 ^ 36) + 1)) :=
    (pkgReg_setPkgReg_other s _ (by omega)).trans hl
  unfold corrected
  dsimp only
  generalize setPkgReg s (0xA60 + pa / 2 ^ 36) (pkgReg s (0xA60 + pa / 2 ^ 36) + 1) = t at *
  refine hcount.trans ?_
  split
  · exact (cells_setScrub ..).trans (cells_logEvents (fun _ _ => 2) (fun _ _ => 0) (fun _ _ => 0) (fun s f => fld (frameEnt s f) 60 4)
      (fun _ f => f) (fun _ _ => _) _ hclosed)
  · exact cells_setScrub ..

theorem length_of_corrected {s : State} {sec : Nat} {b : List Byte} (h : secDecode s sec = .corrected b) : b.length = 32 := by
  unfold secDecode at h
  dsimp only at h
  split_ifs at h
  split at h
  · cases h
  · next sym fixed hd =>
    have hlen : sym.length = 36 := by
      unfold rsDecode at hd
      dsimp only at hd
      split at hd
      · obtain ⟨rfl, -⟩ := Prod.mk.inj (Option.some.inj hd)
        simp [storedBytes, bytesOf]
      · split at hd
        · cases hd
        · obtain ⟨rfl, -⟩ := Prod.mk.inj (Option.some.inj hd)
          simp [lset_eq_set, storedBytes, bytesOf]
    split at h
    · cases h
      simp [hlen]
    · cases h

section sector
variable {s : State} {sec : Nat} (hp : isPend s (sec / 4) = false)
include hp

theorem openLine_closed : openLine s (sec / 4) = s := by
  unfold openLine
  rw [if_neg (by rw [hp]; exact Bool.false_ne_true)]

theorem secDecode_freshSec {b : List Byte} (hb : b.length = 32) : secDecode (freshSec s sec b) sec = .good b := by
  have hecc : stGet (freshSec s sec b).ecc sec = 0 := by
    show stGet (stSet s.ecc sec 0) sec = 0
    rw [stGet_set, if_pos rfl]
  have hpend : isPend (freshSec s sec b) (sec / 4) = false := hp
  unfold secDecode
  dsimp only
  rw [if_neg (by rw [hpend]; exact Bool.false_ne_true), hecc, if_pos (by decide)]
  refine congrArg SecSt.good (List.ext_getElem (by simp [storedBytes, hb]) fun i h1 h2 => ?_)
  have hi : i < b.length := h2
  simp only [storedBytes, List.getElem_map, List.getElem_range]
  show stGet (pokeBytes s (32 * sec) b).mem (32 * sec + i) = _
  rw [pokeBytes_mem, if_pos (by omega)]
  simp [hi]

theorem secDecode_poisonSec : secDecode (poisonSec s sec) sec = .poisoned := by
  have hpend : isPend (poisonSec s sec) (sec / 4) = false := by
    unfold poisonSec
    dsimp only
    rw [openLine_closed hp]
    exact hp
  have hecc : stGet (poisonSec s sec).ecc sec = 0x1FFFFFFFF#33 := by
    show stGet (stSet (openLine s (sec / 4)).ecc sec 0x1FFFFFFFF#33) sec = _
    rw [stGet_set, if_pos rfl]
  have hzero : (storedBytes (poisonSec s sec) (32 * sec) 32).all (· == 0) = true := by
    refine List.all_eq_true.2 fun x hx => ?_
    obtain ⟨i, hi, rfl⟩ := List.mem_map.1 hx
    have hi := List.mem_range.1 hi
    show (stGet (stClear _ (32 * sec) (32 * sec + 32)) (32 * sec + i) == 0) = true
    rw [stGet_clear, if_pos (by omega)]
    rfl
  unfold secDecode
  dsimp only
  rw [if_neg (by rw [hpend]; exact Bool.false_ne_true), hecc, if_neg (by decide), if_pos ⟨by decide, hzero⟩]

omit hp in
/-- What another sector's bytes and check bytes depend on. -/
theorem secDecode_elsewhere {t : State} {n : Nat} (hpend : t.clearPend = s.clearPend) (hecc : stGet t.ecc n = stGet s.ecc n)
    (hmem : ∀ i < 32, stGet t.mem (32 * n + i) = stGet s.mem (32 * n + i)) : secDecode t n = secDecode s n := by
  have hstored : storedBytes t (32 * n) 32 = storedBytes s (32 * n) 32 := List.map_congr_left fun i hi => hmem i (List.mem_range.1 hi)
  have hisp : isPend t = isPend s := by funext k; unfold isPend; rw [hpend]
  unfold secDecode
  rw [hisp, hecc, hstored]

omit hp in
theorem secDecode_freshSec_other {b : List Byte} (hb : b.length = 32) {n : Nat} (hn : n ≠ sec) :
    secDecode (freshSec s sec b) n = secDecode s n := by
  refine secDecode_elsewhere rfl ?_ fun i hi => ?_
  · show stGet (stSet s.ecc sec 0) n = _
    rw [stGet_set, if_neg hn]
  · show stGet (pokeBytes s (32 * sec) b).mem (32 * n + i) = _
    rw [pokeBytes_mem, if_neg (by omega)]

theorem secDecode_poisonSec_other {n : Nat} (hn : n ≠ sec) : secDecode (poisonSec s sec) n = secDecode s n := by
  have hopen := openLine_closed hp
  refine secDecode_elsewhere ?_ ?_ fun i hi => ?_
  · show (openLine s (sec / 4)).clearPend = _
    rw [hopen]
  · show stGet (stSet (openLine s (sec / 4)).ecc sec 0x1FFFFFFFF#33) n = _
    rw [hopen, stGet_set, if_neg hn]
  · show stGet (stClear (openLine s (sec / 4)).mem (32 * sec) (32 * sec + 32)) (32 * n + i) = _
    rw [hopen, stGet_clear, if_neg (by omega)]

end sector

/-- What a scrub of a sector leaves: no corrected error there, a corrected sector's bytes stored, a good one's as they were, every other sector as
before. -/
structure Scrubbed (s t : State) (sec : Nat) : Prop where
  sram : t.sram = s.sram
  regs : RegsHeld (stGet s.preg) t
  sound : ∀ b, secDecode t sec ≠ .corrected b
  mended : ∀ b, secDecode s sec = .corrected b → secDecode t sec = .good b
  kept : ∀ b, secDecode s sec = .good b → t.mem = s.mem ∧ t.scrub = s.scrub
  other : ∀ n, n ≠ sec → secDecode t n = secDecode s n

theorem sram_poisonSec (s : State) (sec : Nat) : (poisonSec s sec).sram = s.sram := openLine_sram s _

theorem readSec_scrubs {s : State} (hs : s.sram = []) (hl : LogClosed s) {sec : Nat} (hp : isPend s (sec / 4) = false) :
    Scrubbed s (readSec s sec).2.2 sec := by
  have hregs : RegsHeld (stGet s.preg) (readSec s sec).2.2 := regs_readSec (.rfl s)
  cases hd : secDecode s sec with
  | good b =>
    rw [readSec_good hs hd]
    exact ⟨rfl, .rfl s, fun b' h => SecSt.noConfusion (hd.symm.trans h), fun b' h => SecSt.noConfusion (hd.symm.trans h), fun _ _ => ⟨rfl, rfl⟩, fun _ _ => rfl⟩
  | poisoned =>
    have hr : (readSec s sec).2.2 = s := by unfold readSec; rw [hd]
    rw [hr]
    exact ⟨rfl, .rfl s, fun b' h => SecSt.noConfusion (hd.symm.trans h), fun b' h => SecSt.noConfusion (hd.symm.trans h), fun b' h => SecSt.noConfusion (hd.symm.trans h), fun _ _ => rfl⟩
  | bad =>
    have hpoison : LogClosed (poisonSec s sec) :=
      (regs_poisonSec (.rfl s) : RegsHeld (stGet s.preg) (poisonSec s sec)).logClosed hl
    have hcells : Cells (poisonSec s sec) (readSec s sec).2.2 := by
      unfold readSec
      rw [hd]
      unfold logBad
      rw [logEvent_closed hpoison]
      exact cells_setPkgReg ..
    refine ⟨hcells.sram.trans (sram_poisonSec s sec), hregs, fun b h => ?_, fun b h => SecSt.noConfusion (hd.symm.trans h), fun b h => SecSt.noConfusion (hd.symm.trans h), fun n hn => ?_⟩
    · rw [hcells.secDecode, secDecode_poisonSec hp] at h
      cases h
    · rw [hcells.secDecode, secDecode_poisonSec_other hp hn]
  | corrected b =>
    have hb := length_of_corrected hd
    have hcells : Cells (freshSec s sec b) (readSec s sec).2.2 := by
      unfold readSec
      rw [hd]
      exact cells_corrected (s := freshSec s sec b) hl _
    have hgood : secDecode (readSec s sec).2.2 sec = .good b := by rw [hcells.secDecode, secDecode_freshSec hp hb]
    refine ⟨hcells.sram, hregs, fun b' h => SecSt.noConfusion (hgood.symm.trans h), fun b' h => ?_, fun b' h => SecSt.noConfusion (hd.symm.trans h), fun n hn => ?_⟩
    · rw [hd] at h
      cases h
      exact hgood
    · rw [hcells.secDecode, secDecode_freshSec_other hb hn]

theorem scrubSec_scrubs {s : State} (hs : s.sram = []) (hl : LogClosed s) (pa : Nat) : Scrubbed s (scrubSec s pa) (pa / 32) := by
  have hline : pa / 32 / 4 = pa / 128 := Nat.div_div_eq_div_mul ..
  unfold scrubSec
  split
  · next hp =>
    have hgood : secDecode s (pa / 32) = .good (List.replicate 32 0) := by
      unfold secDecode
      rw [hline, if_pos hp]
    exact ⟨rfl, .rfl s, fun b h => SecSt.noConfusion (hgood.symm.trans h), fun b h => SecSt.noConfusion (hgood.symm.trans h), fun _ _ => ⟨rfl, rfl⟩, fun _ _ => rfl⟩
  · next hp =>
    have hq := dieAccess_quiet hs (pa / 128) (sectorMask pa 32) 0
    generalize dieAccess s (pa / 128) (sectorMask pa 32) 0 = d at *
    have hpreg : stGet d.preg = stGet s.preg := by rw [hq.alike.preg]
    have hr := readSec_scrubs (s := d) (sec := pa / 32) (hq.sram.trans hs) ((hq.alike.pkgReg _).trans hl)
      (by rw [hline]; unfold isPend; rw [hq.alike.pend]; exact Bool.eq_false_iff.2 hp)
    have hdec := hq.cells.secDecode
    refine ⟨hr.sram.trans hq.sram, hpreg ▸ hr.regs, hr.sound, fun b h => hr.mended b ((hdec _).trans h), fun b h => ?_,
      fun n hn => (hr.other n hn).trans (hdec n)⟩
    obtain ⟨hm, hsc⟩ := hr.kept b ((hdec _).trans h)
    exact ⟨hm.trans hq.cells.mem, hsc.trans (by rw [hq])⟩

theorem scrubOf_setScrub (s : State) (k : Nat) (x : Scrub) : scrubOf (setScrub s k x) k = x := by
  unfold scrubOf setScrub
  rw [List.find?_cons_of_pos (by simp)]
  rfl

theorem pos_passRow (x : Scrub) (row bank : Nat) : (passRow x row bank).pos = x.pos := by
  unfold passRow setScore
  dsimp only
  split
  · rfl
  · split <;> rfl

/-- A row's entry in a list of scores. -/
abbrev scoreEntry (row bank : Nat) (e : Nat × Nat × Nat) : Bool := e.1 == row && e.2.1 == bank

theorem find_scored (row bank sc : Nat) (l : List (Nat × Nat × Nat)) :
    (l.map fun e => if e.1 = row ∧ e.2.1 = bank then (row, bank, sc) else e).find? (scoreEntry row bank) =
      (l.find? (scoreEntry row bank)).map fun _ => (row, bank, sc) := by
  induction l with
  | nil => rfl
  | cons e r ih =>
    rw [List.map_cons]
    by_cases he : e.1 = row ∧ e.2.1 = bank
    · rw [if_pos he, List.find?_cons_of_pos (by simp), List.find?_cons_of_pos (by simp [he.1, he.2])]
      rfl
    · have hno : ¬ scoreEntry row bank e = true := by simpa using he
      rw [if_neg he, List.find?_cons_of_neg hno, List.find?_cons_of_neg hno, ih]

/-- A row's score is halved once the patrol has passed it, unless it is the greatest (R105). -/
theorem scoreOf_passRow (x : Scrub) (row bank : Nat) :
    scoreOf (passRow x row bank) row bank = if scoreOf x row bank = 255 then 255 else scoreOf x row bank / 2 := by
  unfold passRow
  dsimp only
  by_cases h255 : scoreOf x row bank = 255
  · rw [if_pos h255, if_pos h255, h255]
  · rw [if_neg h255, if_neg h255]
    unfold setScore
    by_cases h0 : scoreOf x row bank / 2 = 0
    · rw [if_pos h0, h0]
      unfold scoreOf
      dsimp only
      rw [List.find?_filter, List.find?_eq_none.2 (by simp; tauto)]
      rfl
    · rw [if_neg h0]
      obtain ⟨e, he⟩ : ∃ e, x.scores.find? (scoreEntry row bank) = some e := by
        cases hf : x.scores.find? (scoreEntry row bank) with
        | some e => exact ⟨e, rfl⟩
        | none =>
          refine absurd ?_ h0
          unfold scoreOf
          rw [hf]
          rfl
      have hput := find_scored row bank (scoreOf x row bank / 2) x.scores
      rw [he] at hput
      exact congrArg (fun o => (o.map (·.2.2)).getD 0) hput

section scrub
variable {s : State} {stack pc : Nat} (hrun : Running s) (hstack : stack < 8) (hpc : pc < 64) (hs : s.sram = []) (hl : LogClosed s)
include hrun hstack hpc hs hl

/-- The sector of a patrol's position. -/
abbrev patrolled (s : State) (stack pc p : Nat) : Nat := dramAddr s stack pc (p / 2048) (p / 64 % 32) (32 * (p % 64))

/-- The controller's scores once the patrol has gone on. -/
def afterPatrol (x : Scrub) (p : Nat) : Scrub :=
  if p % 64 = 63 then passRow { x with pos := (p + 1) % 2 ^ 25 } (p / 2048) (p / 64 % 32) else { x with pos := (p + 1) % 2 ^ 25 }

omit hs hl in
theorem exec_patrolScrub : exec (.patrolScrub stack pc) s =
    .next (setScrub (scrubSec s (patrolled s stack pc (scrubOf s (64 * stack + pc)).pos)) (64 * stack + pc)
      (afterPatrol (scrubOf (scrubSec s (patrolled s stack pc (scrubOf s (64 * stack + pc)).pos)) (64 * stack + pc))
        (scrubOf s (64 * stack + pc)).pos)) := by
  rw [show exec (.patrolScrub stack pc) s = execPatrolScrub stack pc s from rfl, execPatrolScrub, agent_of_running hrun,
    if_neg (by simp; omega)]
  rfl

theorem patrolScrub_spec : Becomes (exec (.patrolScrub stack pc) s) fun u =>
    (scrubOf u (64 * stack + pc)).pos = ((scrubOf s (64 * stack + pc)).pos + 1) % 2 ^ 25 ∧
    (∀ b, secDecode u (patrolled s stack pc (scrubOf s (64 * stack + pc)).pos / 32) ≠ .corrected b) ∧
    (∀ b, secDecode s (patrolled s stack pc (scrubOf s (64 * stack + pc)).pos / 32) = .corrected b →
      secDecode u (patrolled s stack pc (scrubOf s (64 * stack + pc)).pos / 32) = .good b) ∧
    (∀ b, secDecode s (patrolled s stack pc (scrubOf s (64 * stack + pc)).pos / 32) = .good b → u.mem = s.mem ∧
      scrubOf u (64 * stack + pc) = afterPatrol (scrubOf s (64 * stack + pc)) (scrubOf s (64 * stack + pc)).pos) := by
  rw [exec_patrolScrub hrun hstack hpc]
  have hscrub := scrubSec_scrubs hs hl (patrolled s stack pc (scrubOf s (64 * stack + pc)).pos)
  generalize scrubSec s (patrolled s stack pc (scrubOf s (64 * stack + pc)).pos) = t at *
  have hcells := cells_setScrub t (64 * stack + pc) (afterPatrol (scrubOf t (64 * stack + pc)) (scrubOf s (64 * stack + pc)).pos)
  refine ⟨_, rfl, ?_, fun b h => hscrub.sound b ((hcells.secDecode _).symm.trans h), fun b h => (hcells.secDecode _).trans (hscrub.mended b h),
    fun b h => ?_⟩
  · rw [scrubOf_setScrub]
    unfold afterPatrol
    split
    · exact pos_passRow ..
    · rfl
  · obtain ⟨hmem, hsc⟩ := hscrub.kept b h
    refine ⟨hmem, ?_⟩
    rw [scrubOf_setScrub]
    unfold scrubOf
    rw [hsc]

/-- A scrub of a list of sectors, whose places depend on the state's registers alone. -/
def scrubAll {α : Type} (f : State → α → Nat) (xs : List α) (s : State) : State := xs.foldl (fun s x => scrubSec s (f s x)) s

omit hrun hstack hpc hs hl in
theorem scrubAll_scrubs {α : Type} {f : State → α → Nat} (hf : ∀ s t x, RegsHeld (stGet s.preg) t → f t x = f s x) (xs : List α) {s : State}
    (hs : s.sram = []) (hl : LogClosed s) : (scrubAll f xs s).sram = [] ∧ RegsHeld (stGet s.preg) (scrubAll f xs s) ∧
      (∀ x ∈ xs, ∀ b, secDecode (scrubAll f xs s) (f s x / 32) ≠ .corrected b) ∧
      (∀ n, (∀ b, secDecode s n ≠ .corrected b) → ∀ b, secDecode (scrubAll f xs s) n ≠ .corrected b) := by
  induction xs generalizing s with
  | nil => exact ⟨hs, .rfl s, nofun, fun n h => h⟩
  | cons x r ih =>
    have hx := scrubSec_scrubs hs hl (f s x)
    obtain ⟨h1, h2, h3, h4⟩ := ih (s := scrubSec s (f s x)) (hx.sram.trans hs) (hx.regs.logClosed hl)
    refine ⟨h1, hx.regs.trans h2, fun y hy => ?_, fun n hn => h4 n ?_⟩
    · rcases List.mem_cons.1 hy with rfl | hy
      · exact h4 _ hx.sound
      · have := h3 y hy
        rwa [hf _ _ _ hx.regs] at this
    · by_cases hns : n = f s x / 32
      · rw [hns]
        exact hx.sound
      · rw [hx.other n hns]
        exact hn

omit hrun hpc hs hl in
theorem dramAddr_held {t : State} (h : RegsHeld (stGet s.preg) t) (row bank col : Nat) :
    dramAddr t stack pc row bank col = dramAddr s stack pc row bank col := by
  unfold dramAddr
  rw [h.pkgReg (by omega) (by omega) (by omega)]

/-- The sectors of a hot list. -/
def hotSectors (l : List (Nat × Nat)) : List ((Nat × Nat) × Nat) := l.flatMap fun h => (List.range 64).map fun i => (h, i)

theorem hotListScrub_spec : Becomes (exec (.hotListScrub stack pc) s) fun u => ∀ h ∈ (scrubOf s (64 * stack + pc)).hot, ∀ i < 64, ∀ b,
    secDecode u (dramAddr s stack pc h.1 h.2 (32 * i) / 32) ≠ .corrected b := by
  have hexec : exec (.hotListScrub stack pc) s = .next (scrubAll (fun s x => dramAddr s stack pc x.1.1 x.1.2 (32 * x.2))
      (hotSectors (scrubOf s (64 * stack + pc)).hot) s) := by
    rw [show exec (.hotListScrub stack pc) s = execHotListScrub stack pc s from rfl, execHotListScrub, agent_of_running hrun,
      if_neg (by simp; omega), scrubAll, hotSectors, List.foldl_flatMap]
    simp only [List.foldl_map]
  obtain ⟨-, -, hall, -⟩ := scrubAll_scrubs (f := fun s (x : (Nat × Nat) × Nat) => dramAddr s stack pc x.1.1 x.1.2 (32 * x.2))
    (fun s t x h => dramAddr_held hstack h ..) (hotSectors (scrubOf s (64 * stack + pc)).hot) hs hl
  rw [hexec]
  exact ⟨_, rfl, fun h hh i hi => hall (h, i) (List.mem_flatMap.2 ⟨h, hh, List.mem_map.2 ⟨i, List.mem_range.2 hi, rfl⟩⟩)⟩

end scrub

/-! Rows (R97). -/

theorem closeRow_spec {s : State} {stack pc bank : Nat} {i : Instr} (hi : i = .rowCloseTimeout stack pc bank ∨ i = .dramRefresh stack pc bank)
    (hrun : Running s) (hstack : stack < 8) (hpc : pc < 64) (hbank : bank < 32) : Becomes (exec i s) fun u => u.mem = s.mem ∧
      (∀ b ∈ u.banks, b.key = (64 * stack + pc) * 32 + bank → b.row = none) ∧
      ∀ b ∈ s.banks, b.key ≠ (64 * stack + pc) * 32 + bank → b ∈ u.banks := by
  have hexec : exec i s = .next (closeRow s stack pc bank) := by
    rcases hi with rfl | rfl
    · rw [show exec (.rowCloseTimeout stack pc bank) s = execRowCloseTimeout stack pc bank s from rfl, execRowCloseTimeout,
        agent_of_running hrun, if_pos ⟨hstack, hpc, hbank⟩]
    · rw [show exec (.dramRefresh stack pc bank) s = execDramRefresh stack pc bank s from rfl, execDramRefresh,
        agent_of_running hrun, if_pos ⟨hstack, hpc, hbank⟩]
  rw [hexec]
  refine ⟨_, rfl, rfl, fun b hb hk => ?_, fun b hb hk => List.mem_map.2 ⟨b, hb, if_neg hk⟩⟩
  obtain ⟨x, -, rfl⟩ := List.mem_map.1 hb
  split at hk
  · next h => rw [if_pos h]
  · next h => exact absurd hk h

end Sys2Proof.Machine

open Sys2Proof Sys2Proof.Machine

/-- Settles O48: in clean memory an access of a host or a hart reads and writes its bytes alone; a scrub leaves every other sector as it was;
the records of an interval lie in places of their own. -/
theorem hostHartsControllers : Obligations.HostHartsControllers := by
  unfold Obligations.HostHartsControllers
  refine ⟨⟨fun s ld off size hrun hld h0 h64 hin hreset he hs => ?_, fun s h pa size v hrun hh hsize hal hpa hres hreg hlink hc hs => ?_⟩,
    hotSort_spec, fun s stack hrun hstack hlen => ?_, fun s stack pc hrun hstack hpc hs hl => ?_,
    fun s stack pc hrun hstack hpc hs hl => hotListScrub_spec hrun hstack hpc hs hl, fun s stack pc bank i hi hrun hstack hpc hbank =>
    closeRow_spec hi hrun hstack hpc hbank⟩
  · have hw : InWindow s ld off size := ⟨hld, h0, h64, hin, hreset⟩
    exact ⟨hdmRead_refused hrun hw, fun pa e hf h => hdmRead_ok hrun he hs hw hf h, fun bs hbs =>
      ⟨fun h hlog => hdmWrite_refused hrun he hs hw hbs hlog h, fun pa e hf h => hdmWrite_ok hrun he hs hw hbs hf h⟩⟩
  · have hle : size ≤ 8 := by
      simp only [List.mem_cons, List.not_mem_nil, or_false] at hsize
      omega
    have ha : HartAt s h pa size := ⟨hh, hartReaches_of hsize hal hpa hres hlink, hreg, hc, hs, hle⟩
    exact ⟨exec_hartFence hrun hh, exec_hartLoad ha hrun, exec_hartStore ha hrun v, fun h4 aq rl =>
      ⟨fun o => exec_hartAmo ha hrun h4 o v aq rl, exec_hartLr ha hrun h4, exec_hartSc ha hrun h4 v aq rl⟩⟩
  · exact ⟨fun hroom he hs hpow => exec_intervalEnd_room hrun hstack hlen hroom he hs hpow, exec_intervalEnd_full hrun hstack hlen⟩
  · obtain ⟨u, hu, hpos, hsound, hmend, hkept⟩ := patrolScrub_spec hrun hstack hpc hs hl
    refine ⟨u, hu, hpos, hsound, hmend, fun b hb => ?_⟩
    obtain ⟨hmem, hsc⟩ := hkept b hb
    refine ⟨hmem, ?_⟩
    rw [hsc, afterPatrol]
    split
    · exact scoreOf_passRow ..
    · rfl

end

section
/-! PROOFS. A refresh of a team: what drained stacks and moved pins leave of the root slots, of clean memory and of a group's registers
(spec/20_system_instructions.md R391; spec/02_translation_trees.md R47 to R58). -/

set_option Elab.async false

namespace Sys2Proof.Machine

/-! Clean memory stays clean. -/

theorem Spotless.of_stays {s t : State} (h : Spotless s) (hst : ∀ b, isHbm b = true → StaysClean b s → StaysClean b t) : Spotless t :=
  ⟨(hst 0 (by decide) ⟨h.1, h.2 0⟩).1, fun b hb => (hst b hb ⟨h.1, h.2 b⟩).2 hb⟩

theorem Spotless.walkRead {s : State} (h : Spotless s) (ld : Nat) (r : RootKey) (va : Nat) : Spotless (walkRead s ld r va) :=
  h.of_stays fun _ hb hs => hs.walkRead hb ..

theorem Spotless.readMem {s : State} (h : Spotless s) (pa k : Nat) : Spotless (readMem s pa k).2.2 := (tableRead_only h pa k).2

/-! The current root of a slot. -/

/-- The record of a root slot. -/
abbrev rootAt (s : State) (ld slot : Nat) : RootRec := (ldOf s ld).slots.getD slot emptyRoot

/-- What names a root: is its slot full, its generation, its node. -/
def rootName (r : RootRec) : Bool × Nat × Nat := (r.full, r.gen, r.root)

/-- Clean memory stays clean, and a slot's root the same. -/
structure Rooted (ld slot : Nat) (s t : State) : Prop where
  spotless : Spotless s → Spotless t
  root : rootName (rootAt t ld slot) = rootName (rootAt s ld slot)

section rooted
variable {ld slot : Nat} {s t u : State}

theorem Rooted.refl (ld slot : Nat) (s : State) : Rooted ld slot s s := ⟨id, rfl⟩

theorem Rooted.trans (a : Rooted ld slot s t) (b : Rooted ld slot t u) : Rooted ld slot s u :=
  ⟨fun h => b.spotless (a.spotless h), b.root.trans a.root⟩

theorem Rooted.of_lds (hl : t.lds = s.lds) (hs : Spotless s → Spotless t) : Rooted ld slot s t := ⟨hs, by rw [rootAt, ldOf_congr hl]⟩

theorem ldOf_modLd_cases (s : State) (n m : Nat) (f : LDev → LDev) : ldOf (modLd s m f) n = ldOf s n ∨ ldOf (modLd s m f) n = f (ldOf s n) := by
  by_cases hm : n = m
  · subst hm
    by_cases hlen : n < s.lds.length
    · exact .inr (ldOf_modLd hlen f)
    · left
      unfold ldOf modLd
      rw [lset_eq_set, List.set_eq_of_length_le (by omega)]
  · exact .inl (getD_lset_other _ _ _ _ _ hm)

theorem rooted_modLd {m : Nat} {f : LDev → LDev}
    (hf : ∀ d : LDev, rootName ((f d).slots.getD slot emptyRoot) = rootName (d.slots.getD slot emptyRoot)) : Rooted ld slot s (modLd s m f) := by
  refine ⟨id, ?_⟩
  rcases ldOf_modLd_cases s ld m f with h | h
  · rw [rootAt, h]
  · rw [rootAt, h, hf]

theorem rooted_tableRead (pa k : Nat) : Rooted ld slot s (tableRead s pa k) := .of_lds (lds_tableRead s pa k) fun h => (tableRead_only h pa k).2

theorem rooted_setNode (pa st c : Nat) : Rooted ld slot s (setNode s pa st c) :=
  .of_lds (lds_of_same (same_hwWrite rfl)) fun h => (setNode_stored h pa st c).spotless

theorem rooted_dropCached (m : Nat) (p : Cached → Bool) : Rooted ld slot s (dropCached s m p) := rooted_modLd fun _ => rfl

theorem rooted_addReclaim (m : Nat) (ws : List Reclaim) : Rooted ld slot s (addReclaim s m ws) := rooted_modLd fun _ => rfl

theorem rooted_releaseNode (m n : Nat) : Rooted ld slot s (releaseNode s m n).1 := by
  unfold releaseNode
  exact ((rooted_dropCached ..).trans (rooted_tableRead ..)).trans (rooted_setNode ..)

theorem rooted_dropNodeCount (m n : Nat) : Rooted ld slot s (dropNodeCount s m n) := by
  unfold dropNodeCount
  dsimp only
  split
  · exact ((rooted_setNode ..).trans (rooted_releaseNode ..)).trans (rooted_addReclaim ..)
  · exact rooted_setNode ..

theorem rooted_giveUpRoot (m gen n : Nat) : Rooted ld slot s (giveUpRoot s m gen n) := by
  unfold giveUpRoot
  exact (rooted_dropCached ..).trans (rooted_dropNodeCount ..)

theorem rooted_changePins (m gen : Nat) (f : Nat → Nat) : Rooted ld slot s (changePins s m gen f) := by
  unfold changePins
  dsimp only
  split
  · refine rooted_modLd fun d => ?_
    rw [List.getD_eq_getElem?_getD, List.getD_eq_getElem?_getD, List.getElem?_map]
    cases d.slots[slot]? with
    | none => rfl
    | some r =>
      rw [Option.map_some, Option.getD_some, Option.getD_some]
      split <;> rfl
  · split
    · exact .refl ld slot s
    · split
      · refine Rooted.trans ?_ (rooted_giveUpRoot ..)
        exact rooted_modLd fun _ => rfl
      · exact rooted_modLd fun _ => rfl

theorem rooted_dropPin (m : Nat) (p : Option Pin) : Rooted ld slot s (dropPin s m p) := by
  unfold dropPin
  split
  · exact .refl ld slot s
  · exact rooted_changePins ..

theorem rooted_movePin (m k : Nat) (p : Option Pin) : Rooted ld slot s (movePin s m k p).2 := by
  refine Rooted.trans (t := (takePin s m k).2) ?_ (rooted_dropPin ..)
  unfold takePin
  dsimp only
  split
  · exact rooted_changePins ..
  · exact .refl ld slot s

end rooted

/-- The pin that a full slot gives. -/
theorem movePin_pin {s : State} {ld slot : Nat} (h : (rootAt s ld slot).full = true) (p : Option Pin) :
    (movePin s ld slot p).1 = some ⟨slot, (rootAt s ld slot).gen, (rootAt s ld slot).root⟩ := by
  show (takePin s ld slot).1 = _
  unfold takePin
  dsimp only
  rw [if_pos h]

/-! Drained stacks. -/

/-- Only what of a lane's stack is cached has changed. -/
def StackOnly (g g' : Group) : Prop := ∃ b lo, g' = { g with stk := b, stkLo := lo }

theorem StackOnly.refl (g : Group) : StackOnly g g := ⟨g.stk, g.stkLo, rfl⟩

theorem StackOnly.trans {g g' g'' : Group} (a : StackOnly g g') (b : StackOnly g' g'') : StackOnly g g'' := by
  obtain ⟨x, y, rfl⟩ := a
  obtain ⟨z, w, rfl⟩ := b
  exact ⟨z, w, rfl⟩

/-- A clean machine in which stacks have been drained: its devices are the same, and a group but for its cached stack. -/
structure Drained (r : GroupRef) (s t : State) : Prop where
  spotless : Spotless t
  lds : t.lds = s.lds
  group : ∀ g, groupOf s r = some g → ∃ g', groupOf t r = some g' ∧ StackOnly g g'

section drained
variable {r : GroupRef} {s t u : State}

theorem Drained.refl (r : GroupRef) {s : State} (hs : Spotless s) : Drained r s s := ⟨hs, rfl, fun g h => ⟨g, h, .refl g⟩⟩

theorem Drained.trans (a : Drained r s t) (b : Drained r t u) : Drained r s u := by
  refine ⟨b.spotless, b.lds.trans a.lds, fun g hg => ?_⟩
  obtain ⟨g', hg', h1⟩ := a.group g hg
  obtain ⟨g'', hg'', h2⟩ := b.group g' hg'
  exact ⟨g'', hg'', h1.trans h2⟩

theorem Drained.of_teams (hl : t.lds = s.lds) (ht : t.teams = s.teams) (hs : Spotless t) : Drained r s t := by
  refine ⟨hs, hl, fun g hg => ⟨g, ?_, .refl g⟩⟩
  rw [← hg]
  unfold groupOf teamOf
  rw [ht]

theorem drained_modGroup (hs : Spotless s) {q : GroupRef} {f : Group → Group} (hf : ∀ g, groupOf s q = some g → StackOnly g (f g))
    (hid : ∀ g, g.id = q.g → (f g).id = q.g) : Drained r s (modGroup s q f) := by
  refine ⟨hs, rfl, fun g hg => ?_⟩
  by_cases hq : r = q
  · subst hq
    exact ⟨f g, groupOf_modGroup_some f hid hg, hf g hg⟩
  · exact ⟨g, (groupOf_modGroup_other s q r f hid hq).trans hg, .refl g⟩

theorem teams_walkRead (s : State) (ld : Nat) (k : RootKey) (va : Nat) : (walkRead s ld k va).teams = s.teams :=
  teams_of_view (same_walkRead (L := ⟨false, false⟩) rfl)

theorem teams_readMem (s : State) (pa k : Nat) : (readMem s pa k).2.2.teams = s.teams := teams_of_view (same_readMem (L := ⟨false, false⟩) rfl)

theorem teams_writeMem (s : State) (pa : Nat) (bs : List Byte) : (writeMem s pa bs).teams = s.teams :=
  teams_of_view (same_writeMem (L := ⟨false, false⟩) rfl)

/-- A piece of a lane's stack written to memory. -/
theorem drained_spill (hs : Spotless s) (ld : Nat) (k : RootKey) (va pa n : Nat) (bs : List Byte) :
    Drained r s (endTags (writeMem (walkRead s ld k va) pa bs) pa n) := by
  have hw := (hs.walkRead ld k va).writeMem pa bs
  refine .of_teams ?_ ?_ hw.spotless
  · exact (lds_writeMem ..).trans (lds_walkRead ..)
  · exact (teams_writeMem ..).trans (teams_walkRead ..)

theorem touchStack_clean (hs : Spotless s) (q : GroupRef) (key k : Nat) : touchStack s q key k = some s := by
  unfold touchStack
  rw [if_pos (by rw [hs.1]; rfl)]

theorem drained_spillLane (hs : Spotless s) (q : GroupRef) (lane : Nat) : Drained r s (spillLane s q lane) := by
  unfold spillLane
  split
  · split
    split
    · have hfold : ∀ (ps : List (Nat × Nat)) (f : State → Nat × Nat → State), (∀ u p, Spotless u → Drained r u (f u p)) →
          Drained r s (ps.foldl f s) := fun ps f hf =>
        foldl_holds (Drained r s) (.refl r hs) fun u p hu => hu.trans (hf u p hu.spotless)
      refine Drained.trans (hfold _ _ fun u p hu => ?_) (drained_modGroup (hfold _ _ fun u p hu => ?_).spotless (fun g _ => ⟨_, _, rfl⟩) fun _ h => h)
      all_goals
        split
        · exact .refl r hu
        · simp only [touchStack_clean hu, Bool.false_and, Bool.false_eq_true, if_false]
          exact drained_spill hu ..
    · exact .refl r hs
  · exact .refl r hs

/-- What a read from a lane's stack leaves, and what the bytes read leave of the group. -/
def Refilled (r : GroupRef) (s : State) (g : Group) (a : State × Group × RdSt × Nat) : Prop := Drained r s a.1 ∧ StackOnly g a.2.1

theorem Refilled.put {a : State × Group × RdSt × Nat} {v : State} {g : Group} (h : Refilled r s g a) (hl : v.lds = a.1.lds)
    (ht : v.teams = a.1.teams) (hv : Spotless v) (addr : Nat) (bs : List Byte) (q : RdSt × Nat) :
    Refilled r s g (v, stkPut a.2.1 addr bs, q) := ⟨h.1.trans (.of_teams hl ht hv), h.2.trans ⟨_, _, rfl⟩⟩

/-- A read of a piece of a lane's stack. -/
theorem walked_clean (hs : Spotless s) (ld : Nat) (k : RootKey) (va pa n : Nat) : (readMem (walkRead s ld k va) pa n).2.2.lds = s.lds ∧
    (readMem (walkRead s ld k va) pa n).2.2.teams = s.teams ∧ Spotless (readMem (walkRead s ld k va) pa n).2.2 :=
  ⟨(lds_readMem ..).trans (lds_walkRead ..), (teams_readMem ..).trans (teams_walkRead ..), (hs.walkRead ..).readMem ..⟩

theorem fillLane_spec (hs : Spotless s) (t : Team) (gr : Grid) (g : Group) (l : Nat) :
    Drained r s (fillLane s t gr g l).1 ∧ StackOnly g (fillLane s t gr g l).2.1 := by
  unfold fillLane
  split
  next lo hi _ =>
  generalize hF : List.foldl _ (s, g, RdSt.ok, 0) _ = F
  have hP : Refilled r s g F := by
    rw [← hF]
    refine foldl_holds (Refilled r s g) ⟨.refl r hs, .refl g⟩ fun a p ha => ?_
    split
    · exact ha
    · next pa _ =>
      obtain ⟨h1, h2, h3⟩ := walked_clean ha.1.spotless t.r.ld (pinRoot t.pin) (ptrVa (stackPtr gr t.r g l p.1)) pa p.2
      generalize readMem _ pa p.2 = v at *
      exact ha.put h1 h2 h3 ..
  exact ⟨hP.1, hP.2.trans ⟨_, _, rfl⟩⟩

theorem StackOnly.id {g g' : Group} (h : StackOnly g g') : g'.id = g.id := by
  obtain ⟨_, _, rfl⟩ := h
  rfl

/-- A lane drained: its bytes written out, and its cache filled again. -/
theorem drained_refill (hs : Spotless s) {q : GroupRef} {g : Group} (hg : groupOf s q = some g) (t : Team) (gr : Grid) (l : Nat) :
    Drained r s (modGroup (fillLane s t gr g l).1 q fun _ => (fillLane s t gr g l).2.1) := by
  obtain ⟨hd, hstack⟩ := fillLane_spec (r := r) hs t gr g l
  obtain ⟨hdq, -⟩ := fillLane_spec (r := q) hs t gr g l
  obtain ⟨g', hg', hk⟩ := hdq.group g hg
  refine hd.trans (drained_modGroup hd.spotless (fun x hx => ?_) fun x _ => ?_)
  · rw [hg'] at hx
    cases hx
    obtain ⟨_, _, rfl⟩ := hk
    obtain ⟨b, lo, hfill⟩ := hstack
    exact ⟨b, lo, hfill⟩
  · rw [hstack.id]
    exact groupOf_id _ _ _ hg

theorem drained_drainStacks (hs : Spotless s) (t : TeamRef) : Drained r s (drainStacks s t) := by
  unfold drainStacks
  split
  · exact .refl r hs
  · refine foldl_holds (Drained r s) (.refl r hs) fun u g hu => hu.trans ?_
    have hu := hu.spotless
    split
    · exact .refl r hu
    · refine foldl_holds (Drained r u) (.refl r hu) fun v l hv => hv.trans ?_
      have hspill := drained_spillLane (r := r) hv.spotless ⟨t, g.id⟩ l
      refine hspill.trans ?_
      have hclean := hspill.spotless
      dsimp only
      generalize spillLane v ⟨t, g.id⟩ l = w at *
      split
      · next u' g' gr _ hg _ =>
        split
        · split
          · have hid : g'.id = g.id := groupOf_id _ _ _ hg
            rw [hid]
            exact drained_refill hclean hg u' gr l
          · exact .refl r hclean
        · exact .refl r hclean
      · exact .refl r hclean

end drained

/-! The refresh (R391). -/

/-- A group's pin moved to the current root of a slot. -/
def refreshStep (r : TeamRef) (slot : Nat) (s : State) (g : Group) : State :=
  modGroup (movePin s r.ld slot g.pin).2 ⟨r, g.id⟩ fun x =>
    joinPast (pinPast (movePin s r.ld slot g.pin).2 r.ld (movePin s r.ld slot g.pin).1) { x with pin := (movePin s r.ld slot g.pin).1, ahead := [] }

/-- A team's pin moved. -/
def refreshPin (r : TeamRef) (slot : Nat) (t : Team) (s : State) : State :=
  modTeam (movePin s r.ld slot t.pin).2 r fun t' => { t' with pin := (movePin s r.ld slot t.pin).1 }

/-- A team's bounds read again. -/
def refreshBounds (r : TeamRef) (slot : Nat) (s : State) : State :=
  modTeam (boundsRead s r.ld slot) r fun t => { t with bounds := (readBounds s r.ld slot).1, tenant := (readBounds s r.ld slot).2 }

theorem refreshTeam_eq {s : State} {r : TeamRef} {slot : Nat} {p : Group → Bool} {t : Team} (ht : teamOf s r = some t)
    (hfull : (rootAt s r.ld slot).full = true) : refreshTeam s r slot p =
      some (refreshBounds r slot ((t.groups.filter fun g => p g && !g.ended).foldl (refreshStep r slot) (refreshPin r slot t (drainStacks s r)))) := by
  unfold refreshTeam
  rw [ht]
  dsimp only
  rw [if_neg (by rw [hfull]; decide)]
  rfl

theorem refreshTeam_none {s : State} {r : TeamRef} {slot : Nat} {p : Group → Bool} {t : Team} (ht : teamOf s r = some t)
    (hfull : (rootAt s r.ld slot).full = false) : refreshTeam s r slot p = none := by
  unfold refreshTeam
  rw [ht]
  dsimp only
  rw [if_pos (by rw [hfull]; decide)]

/-- The pin of a slot's root. -/
def rootPin (slot : Nat) (x : RootRec) : Option Pin := some ⟨slot, x.gen, x.root⟩

theorem movePin_rooted {s : State} {ld slot : Nat} {x : RootRec} (hx : x.full = true) (h : rootName (rootAt s ld slot) = rootName x) (p : Option Pin) :
    (movePin s ld slot p).1 = rootPin slot x := by
  have hfull : (rootAt s ld slot).full = x.full := congrArg Prod.fst h
  have hgen : (rootAt s ld slot).gen = x.gen := congrArg (fun n => n.2.1) h
  have hroot : (rootAt s ld slot).root = x.root := congrArg (fun n => n.2.2) h
  rw [movePin_pin (hfull.trans hx), hgen, hroot]
  rfl

/-- Only what a refresh changes of a group has changed: its cached stack, its pin and the order of its accesses. -/
def Renewed (g g' : Group) : Prop := ∃ b lo p a o, g' = { g with stk := b, stkLo := lo, pin := p, ahead := a, ords := o }

section renewed
variable {g g' g'' : Group}

theorem StackOnly.renewed (h : StackOnly g g') : Renewed g g' := by
  obtain ⟨b, lo, rfl⟩ := h
  exact ⟨b, lo, g.pin, g.ahead, g.ords, rfl⟩

theorem Reordered.renewed (h : Reordered g g') : Renewed g g' := by
  obtain ⟨o, rfl⟩ := h
  exact ⟨g.stk, g.stkLo, g.pin, g.ahead, o, rfl⟩

theorem renewed_pin (g : Group) (p : Option Pin) : Renewed g { g with pin := p, ahead := [] } := ⟨g.stk, g.stkLo, p, [], g.ords, rfl⟩

theorem Renewed.trans (h : Renewed g g') (k : Renewed g' g'') : Renewed g g'' := by
  obtain ⟨_, _, _, _, _, rfl⟩ := h
  obtain ⟨b, lo, p, a, o, rfl⟩ := k
  exact ⟨b, lo, p, a, o, rfl⟩

theorem Renewed.id (h : Renewed g g') : g'.id = g.id := by
  obtain ⟨_, _, _, _, _, rfl⟩ := h
  rfl

theorem Renewed.front (h : Renewed g g') : frontOf g' = frontOf g := by
  obtain ⟨_, _, _, _, _, rfl⟩ := h
  rfl

theorem Renewed.kept (h : Renewed g g') : Kept g g' [] := by
  obtain ⟨_, _, _, _, _, rfl⟩ := h
  exact ⟨fun _ _ _ => rfl, fun _ _ => rfl, fun _ _ _ => rfl, fun _ _ => rfl⟩

end renewed

/-- A group of which a refresh has moved the pin. -/
def repinned (ids : List Nat) (p : Option Pin) (g : Group) : Group := joinPast ids { g with pin := p, ahead := [] }

theorem repinned_spec (ids : List Nat) (p : Option Pin) (g : Group) : Renewed g (repinned ids p g) ∧ (repinned ids p g).pin = p := by
  have h : Reordered { g with pin := p, ahead := [] } (repinned ids p g) := reordered_addPast ..
  refine ⟨(renewed_pin g p).trans h.renewed, ?_⟩
  obtain ⟨o, ho⟩ := h
  rw [ho]

/-- How far a refresh of group n of a team has come: the root is the one it began with, and the team has its pin. -/
structure Refreshing (r : TeamRef) (n slot : Nat) (x : RootRec) (g : Group) (s : State) : Prop where
  spotless : Spotless s
  root : rootName (rootAt s r.ld slot) = rootName x
  team : ∃ t, teamOf s r = some t ∧ t.pin = rootPin slot x
  group : ∃ g', groupOf s ⟨r, n⟩ = some g' ∧ Renewed g g'

theorem teams_movePin (s : State) (ld slot : Nat) (p : Option Pin) : (movePin s ld slot p).2.teams = s.teams := by
  have hL : (⟨true, false⟩ : Span).devices = true := rfl
  exact congrArg (fun v : Shown => v.rest.teams) (same_movePin (L := ⟨true, false⟩) (base := view ⟨true, false⟩ s) rfl)

theorem teamOf_modTeam_some {s : State} {r : TeamRef} {t : Team} {f : Team → Team} (h : teamOf s r = some t) (hf : ∀ t, t.r = r → (f t).r = r) :
    teamOf (modTeam s r f) r = some (f t) := by
  rw [teamOf_modTeam_same s r f hf, h]
  rfl

/-- A team changed but for its groups keeps each of them. -/
theorem groupOf_modTeam_groups {s : State} {r : TeamRef} {f : Team → Team} (hr : ∀ t, t.r = r → (f t).r = r) (hf : ∀ t, (f t).groups = t.groups)
    (n : Nat) : groupOf (modTeam s r f) ⟨r, n⟩ = groupOf s ⟨r, n⟩ := by
  unfold groupOf
  rw [teamOf_modTeam_same s r f hr]
  cases teamOf s r with
  | none => rfl
  | some t =>
    rw [Option.map_some, Option.bind_some, Option.bind_some]
    unfold groupIn
    rw [hf]

theorem groupOf_of_teams {s t : State} (h : t.teams = s.teams) (r : GroupRef) : groupOf t r = groupOf s r := by
  unfold groupOf teamOf
  rw [h]

theorem teamOf_of_teams {s t : State} (h : t.teams = s.teams) (r : TeamRef) : teamOf t r = teamOf s r := by
  unfold teamOf
  rw [h]

section refreshing
variable {r : TeamRef} {n slot : Nat} {x : RootRec} {g : Group} {s : State}

theorem Refreshing.moved (h : Refreshing r n slot x g s) (p : Option Pin) : Refreshing r n slot x g (movePin s r.ld slot p).2 := by
  have hroot := rooted_movePin (ld := r.ld) (slot := slot) (s := s) r.ld slot p
  have hteams := teams_movePin s r.ld slot p
  generalize (movePin s r.ld slot p).2 = u at *
  exact ⟨hroot.spotless h.spotless, hroot.root.trans h.root, by rw [teamOf_of_teams hteams]; exact h.team,
    by rw [groupOf_of_teams hteams]; exact h.group⟩

theorem Refreshing.repin (h : Refreshing r n slot x g s) (m : Nat) (ids : List Nat) (p : Option Pin) :
    Refreshing r n slot x g (modGroup s ⟨r, m⟩ (repinned ids p)) := by
  obtain ⟨t, ht, hpin⟩ := h.team
  obtain ⟨g', hg', hren⟩ := h.group
  have hid (g : Group) (hm : g.id = m) : (repinned ids p g).id = m := (repinned_spec ids p g).1.id.trans hm
  refine ⟨h.spotless, h.root, ⟨t.modGroup m (repinned ids p), ?_, hpin⟩, ?_⟩
  · exact (teamOf_modTeam_same s r (fun t => t.modGroup m (repinned ids p)) fun _ h => h).trans (congrArg _ ht)
  · by_cases hm : n = m
    · subst hm
      exact ⟨_, groupOf_modGroup_some _ hid hg', hren.trans (repinned_spec ids p g').1⟩
    · refine ⟨g', ?_, hren⟩
      rw [← hg']
      exact groupOf_modGroup_other _ _ _ _ hid fun he => hm (congrArg GroupRef.g he)

theorem Refreshing.step (h : Refreshing r n slot x g s) (y : Group) : Refreshing r n slot x g (refreshStep r slot s y) := by
  have hm := h.moved y.pin
  unfold refreshStep
  exact hm.repin y.id _ _

theorem Refreshing.steps (h : Refreshing r n slot x g s) (gs : List Group) : Refreshing r n slot x g (gs.foldl (refreshStep r slot) s) :=
  foldl_holds (Refreshing r n slot x g) h fun _ y hu => hu.step y

/-- The group whose turn it is gets the pin of the root. -/
theorem Refreshing.step_pin (h : Refreshing r n slot x g s) (hx : x.full = true) {y : Group} (hy : y.id = n) :
    ∃ g', groupOf (refreshStep r slot s y) ⟨r, n⟩ = some g' ∧ g'.pin = rootPin slot x := by
  have hpin := movePin_rooted hx h.root y.pin
  obtain ⟨g', hg', -⟩ := (h.moved y.pin).group
  subst hy
  refine ⟨_, groupOf_modGroup_some _ (fun g hg => (repinned_spec _ _ g).1.id.trans hg) hg', ?_⟩
  rw [← hpin]
  exact (repinned_spec ..).2

end refreshing

theorem Quiet.spotless {s t : State} (h : Quiet s t) (hs : Spotless s) : Spotless t :=
  ⟨h.sram.trans hs.1, fun b => by unfold CleanByte; rw [h.ecc]; exact hs.2 b⟩

theorem boundsRead_quiet {s : State} (h : Spotless s) (ld slot : Nat) : Quiet s (boundsRead s ld slot) := by
  unfold boundsRead
  obtain ⟨q1, h1⟩ := tableRead_only h (ldReg s ld 1) 32
  obtain ⟨q2, h2⟩ := tableRead_only h1 (ldReg s ld 1 + 32 + 16 * slot) 16
  exact (q1.trans q2).trans (tableRead_only h2 ..).1

theorem readBounds_quiet {s t : State} (h : Quiet s t) (hl : t.lds = s.lds) (ld slot : Nat) : readBounds t ld slot = readBounds s ld slot := by
  have hreg (k : Nat) : ldReg t ld k = ldReg s ld k := by unfold ldReg; rw [ldOf_congr hl]
  unfold readBounds
  simp only [h.peek, hreg]

/-- A refreshed team and group. -/
theorem refreshTeam_spec {s : State} {r : TeamRef} {n slot : Nat} {t : Team} {g : Group} (hs : Spotless s) (ht : teamOf s r = some t)
    (hg : groupOf s ⟨r, n⟩ = some g) (hend : g.ended = false) (hfull : (rootAt s r.ld slot).full = true) :
    ∃ u t' g', refreshTeam s r slot (fun x => x.id == n) = some u ∧ teamOf u r = some t' ∧ groupOf u ⟨r, n⟩ = some g' ∧ Renewed g g' ∧
      g'.pin = rootPin slot (rootAt s r.ld slot) ∧ t'.pin = rootPin slot (rootAt s r.ld slot) ∧ t'.bounds = (readBounds u r.ld slot).1 := by
  obtain ⟨hdrained, hlds, hgroup⟩ := drained_drainStacks (r := ⟨r, n⟩) hs r
  obtain ⟨g₁, hg₁, hk₁⟩ := hgroup g hg
  have hroot₁ : rootName (rootAt (drainStacks s r) r.ld slot) = rootName (rootAt s r.ld slot) := by rw [rootAt, ldOf_congr hlds]
  obtain ⟨t₁, ht₁, -⟩ := Option.bind_eq_some_iff.1 hg₁
  -- the team's pin
  have hstart : Refreshing r n slot (rootAt s r.ld slot) g (refreshPin r slot t (drainStacks s r)) := by
    have hpin := movePin_rooted hfull hroot₁ t.pin
    have hm := rooted_movePin (ld := r.ld) (slot := slot) (s := drainStacks s r) r.ld slot t.pin
    have hteams := teams_movePin (drainStacks s r) r.ld slot t.pin
    unfold refreshPin
    rw [hpin]
    generalize (movePin (drainStacks s r) r.ld slot t.pin).2 = w at *
    have hw : groupOf w ⟨r, n⟩ = some g₁ := (groupOf_of_teams hteams _).trans hg₁
    have htw : teamOf w r = some t₁ := (teamOf_of_teams hteams _).trans ht₁
    refine ⟨hm.spotless hdrained, hm.root.trans hroot₁, ⟨_, teamOf_modTeam_some htw (by exact fun _ h => h), rfl⟩,
      g₁, (groupOf_modTeam_groups ?_ ?_ n).trans hw, hk₁.renewed⟩
    · exact fun _ h => h
    · exact fun _ => rfl
  -- the groups' pins, the last of them the group's own
  obtain ⟨gs, hgs⟩ : ∃ gs, gs = t.groups.filter fun x => x.id == n && !x.ended := ⟨_, rfl⟩
  have hlast : ∃ us y, gs = us ++ [y] ∧ y.id = n := by
    have hmem : g ∈ gs := by
      rw [hgs, List.mem_filter]
      have hin : groupIn t n = some g := by
        obtain ⟨t', ht', hin⟩ := Option.bind_eq_some_iff.1 hg
        rw [ht] at ht'
        cases ht'
        exact hin
      have hid : g.id = n := groupOf_id _ _ _ hg
      exact ⟨List.mem_of_find?_eq_some hin, by rw [hid, hend]; simp⟩
    rcases List.eq_nil_or_concat gs with h | ⟨us, y, h⟩
    · exact absurd hmem (by rw [h]; exact List.not_mem_nil)
    · rw [List.concat_eq_append] at h
      refine ⟨us, y, h, ?_⟩
      have hy : y ∈ t.groups.filter fun x => x.id == n && !x.ended := by rw [← hgs, h]; simp
      have hy := (List.mem_filter.1 hy).2
      rw [Bool.and_eq_true, beq_iff_eq] at hy
      exact hy.1
  obtain ⟨us, y, hus, hy⟩ := hlast
  have hfold := hstart.steps us
  have hdone := hfold.step y
  obtain ⟨g₂, hg₂, hpin₂⟩ := hfold.step_pin hfull hy
  obtain ⟨g₃, hg₃, hk₃⟩ := hdone.group
  obtain ⟨t₂, ht₂, htpin⟩ := hdone.team
  rw [refreshTeam_eq ht hfull, ← hgs, hus, List.foldl_append, List.foldl_cons, List.foldl_nil]
  generalize refreshStep r slot _ y = w at *
  rw [hg₂] at hg₃
  cases hg₃
  have hq := boundsRead_quiet hdone.spotless r.ld slot
  have hl : (boundsRead w r.ld slot).lds = w.lds := by simp only [boundsRead, lds_tableRead]
  have hteams : (boundsRead w r.ld slot).teams = w.teams := by rw [hq]
  unfold refreshBounds
  generalize hv : boundsRead w r.ld slot = v at *
  have hbounds : readBounds (modTeam v r fun t => { t with bounds := (readBounds w r.ld slot).1, tenant := (readBounds w r.ld slot).2 }) r.ld slot =
      readBounds w r.ld slot := readBounds_quiet hq hl ..
  refine ⟨_, _, g₂, rfl, teamOf_modTeam_some ((teamOf_of_teams hteams r).trans ht₂) (by exact fun _ h => h), ?_, hk₃, hpin₂, htpin, ?_⟩
  · exact (groupOf_modTeam_groups (by exact fun _ h => h) (by exact fun _ => rfl) n).trans ((groupOf_of_teams hteams _).trans hg₂)
  · rw [hbounds]

end Sys2Proof.Machine
end

section
/-! PROOFS. Traps: TRAP and BKPT, the frame, the watchdog, ERET and REFRESH (spec/20_system_instructions.md R391, R393;
spec/22_traps_faults.md R424 to R431). -/

set_option Elab.async false

namespace Sys2Proof.Machine

/-! TRAP and BKPT. -/

theorem goesOn_none {s : State} {h : Hdr} {c : Ctx} (hc : ctxOf s h = some c) :
    GoesOn c (.next (complete c h false (done c.s []))) fun t g => BytesKept s t ∧ Kept c.g g [] := by
  obtain ⟨hs, -⟩ := ctxOf_spec hc
  refine goesOn_effect hc rfl fun outs f => ⟨?_, Kept.retire ⟨fun _ _ _ => rfl, fun _ _ => rfl, fun _ _ _ => rfl, fun _ _ => rfl⟩ ..⟩
  rw [← hs]
  exact bytesKept_afterDone ..

/-- The two instructions that trap with a code. -/
theorem exec_trapBy {s : State} {c : Ctx} {x : TrapA} {i : Instr} {cause : Nat} (hi : (i = .trap x ∧ cause = cSWTRAP) ∨ (i = .bkpt x ∧ cause = cBKPT))
    (hc : ctxOf s x.h = some c) :
    exec i s = .next (complete c x.h false (if c.any then trapW cause x.code.toNat else done c.s [])) := by
  rcases hi with ⟨rfl, rfl⟩ | ⟨rfl, rfl⟩
  · rw [show exec (.trap x) s = execTrap x s from rfl, execTrap, withIssue_of hc]
  · rw [show exec (.bkpt x) s = execBkpt x s from rfl, execBkpt, withIssue_of hc]

/-- What a Whole trap of the issuing entry says of itself. -/
def wholeTrap (c : Ctx) (cause detail : Nat) : Trap :=
  ⟨cause, detail, c.u.mask, lowest c.u.mask, c.u.pc, c.u.prio, 0, 0, false, false, false⟩

theorem complete_trapW (c : Ctx) (h : Hdr) (sw : Bool) (cause detail : Nat) :
    complete c h sw (trapW cause detail) = raiseTrap { c.s with issuing := none } c.u.r (wholeTrap c cause detail) := rfl

/-- A trap in a handler, or without one, fails the grid (R429, R431). -/
theorem raiseTrap_fails {s : State} {r : GroupRef} {g : Group} {gr : Grid} {x : Trap} {a : DWord} (hg : groupOf s r = some g)
    (hgr : gridOf s r.team.ld r.team.grid = some gr) (hfail : gr.fail = none)
    (h : raiseTrap s r x = failGrid s r.team.ld r.team.grid (0x08, x.cause, x.detail % 256, 0, r.team.team, a)) :
    GridFails (raiseTrap s r x) r.team.ld r.team.grid 0x08 x.cause (x.detail % 256) r.team.team a := by
  rw [h]
  exact gridFails_failGrid hgr hfail ..

theorem raiseTrap_nested {s : State} {r : GroupRef} {g : Group} {h : Handler} {x : Trap} (hg : groupOf s r = some g) (hh : g.handler = some h) :
    raiseTrap s r x = failGrid s r.team.ld r.team.grid (0x08, x.cause, x.detail % 256, 0, r.team.team, h.trap.pc) := by
  unfold raiseTrap
  rw [hg]
  dsimp only
  rw [hh]

theorem enterTrap_none {s : State} {r : GroupRef} {t : Team} {g : Group} {x : Trap} (ht : teamOf s r.team = some t) (hg : groupOf s r = some g)
    (hv : qbWord s r.team.ld 0x260 = 0) :
    enterTrap s r x = failGrid s r.team.ld r.team.grid (0x08, x.cause, x.detail % 256, 0, r.team.team, x.pc) := by
  unfold enterTrap
  rw [ht, hg]
  exact if_pos hv

/-! The trap frame (R428). -/

section frame
variable {s : State} {t : Team} {g : Group} {x : Trap}

/-- The word of the frame that describes the trap. -/
def trapWord (x : Trap) : Nat :=
  x.mask.toNat * 2 ^ 32 + x.lane * 2 ^ 26 + (if x.coll then 2 ^ 25 else 0) + (if x.parked then 2 ^ 24 else 0) + x.detail % 2 ^ 16 * 2 ^ 8 + x.cause % 256

/-- The word of the frame that says where it was taken. -/
def placeWord (t : Team) (g : Group) (x : Trap) : Nat :=
  x.lmask.toNat * 2 ^ 32 + x.prio.toNat * 2 ^ 24 + t.member * 2 ^ 21 + t.r.ld * 2 ^ 17 + g.id * 2 ^ 12 + g.vbase % 2 ^ 12

theorem getG_frame (pc : Ptr) (n k : Nat) : getG (enteredGroup s t x pc n g) k =
    if k = 6 then qbWord s t.r.ld 0x268 else if k = 5 then BitVec.ofNat 64 (t.core * 2 ^ 32 + t.r.team % 2 ^ 32)
    else if k = 4 then BitVec.ofNat 64 (placeWord t g x) else if k = 3 then x.addr else if k = 2 then x.pc
    else if k = 1 then BitVec.ofNat 64 (trapWord x) else 0 := by
  show (if k = 0 then 0 else stGet (stSetAll [] [(1, BitVec.ofNat 64 (trapWord x)), (2, x.pc), (3, x.addr),
    (4, BitVec.ofNat 64 (placeWord t g x)), (5, BitVec.ofNat 64 (t.core * 2 ^ 32 + t.r.team % 2 ^ 32)), (6, qbWord s t.r.ld 0x268)]) k) = _
  by_cases hk : k = 0
  · rw [hk]
    rfl
  · rw [if_neg hk]
    simp only [stSetAll, List.foldl_cons, List.foldl_nil, stGet_set]
    rfl

theorem extract_ofNat (N i n : Nat) (h : N < 2 ^ 64) : ((BitVec.ofNat 64 N).extractLsb' i n).toNat = N / 2 ^ i % 2 ^ n := by
  rw [BitVec.extractLsb'_toNat, BitVec.toNat_ofNat, Nat.mod_eq_of_lt h, Nat.shiftRight_eq_div_pow]

theorem trapWord_fields (hl : x.lane < 32) (hd : x.detail < 2 ^ 16) (hc : x.cause < 2 ^ 8) : trapWord x < 2 ^ 64 ∧
    trapWord x / 2 ^ 32 % 2 ^ 32 = x.mask.toNat ∧ trapWord x / 2 ^ 26 % 2 ^ 5 = x.lane ∧ trapWord x / 2 ^ 31 % 2 = 0 ∧
    trapWord x / 2 ^ 25 % 2 = x.coll.toNat ∧ trapWord x / 2 ^ 24 % 2 = x.parked.toNat ∧ trapWord x / 2 ^ 8 % 2 ^ 16 = x.detail ∧
    trapWord x / 2 ^ 0 % 2 ^ 8 = x.cause := by
  have hm := x.mask.isLt
  have hif (b : Bool) (n : Nat) : (if b then n else 0) = b.toNat * n := by cases b <;> simp
  have hcoll := x.coll.toNat_lt
  have hparked := x.parked.toNat_lt
  unfold trapWord
  rw [hif, hif]
  generalize x.mask.toNat = m at *
  generalize x.coll.toNat = a at *
  generalize x.parked.toNat = b at *
  refine ⟨?_, ?_, ?_, ?_, ?_, ?_, ?_, ?_⟩ <;> omega

theorem placeWord_fields (hm : t.member < 8) (hld : t.r.ld < 16) (hid : g.id < 32) (hv : g.vbase < 2 ^ 12) : placeWord t g x < 2 ^ 64 ∧
    placeWord t g x / 2 ^ 32 % 2 ^ 32 = x.lmask.toNat ∧ placeWord t g x / 2 ^ 24 % 2 ^ 8 = x.prio.toNat ∧
    placeWord t g x / 2 ^ 21 % 2 ^ 3 = t.member ∧ placeWord t g x / 2 ^ 17 % 2 ^ 4 = t.r.ld ∧ placeWord t g x / 2 ^ 12 % 2 ^ 5 = g.id ∧
    placeWord t g x / 2 ^ 0 % 2 ^ 12 = g.vbase := by
  have h1 := x.lmask.isLt
  have h2 := x.prio.isLt
  unfold placeWord
  generalize x.lmask.toNat = a at *
  generalize x.prio.toNat = b at *
  refine ⟨?_, ?_, ?_, ?_, ?_, ?_, ?_⟩ <;> omega

theorem bit_ofNat (N i : Nat) (h : N < 2 ^ 64) (b : Bool) (hb : N / 2 ^ i % 2 = b.toNat) (hi : i < 64) : (BitVec.ofNat 64 N).getLsbD i = b := by
  rw [BitVec.getLsbD_ofNat, decide_eq_true hi, Bool.true_and, Nat.testBit_eq_decide_div_mod_eq, hb]
  cases b <;> rfl

end frame

/-- The group that a trap enters, with its frame. -/
theorem raiseTrap_frame {s : State} {r : GroupRef} {t : Team} {g : Group} {x : Trap} (ht : teamOf s r.team = some t) (hg : groupOf s r = some g)
    (hh : g.handler = none) (hp : g.pendTrap = none) (hf : awaitsFar g = false) (hv : qbWord s r.team.ld 0x260 ≠ 0) :
    groupOf (raiseTrap s r x) r = some (enteredGroup s t x (qbWord s r.team.ld 0x260) (lastDue g s.cycle) g) := by
  rw [raiseTrap_of x hg hh hp hf]
  exact groupOf_enterTrap x ht hg hv

/-! The watchdog (R430). -/

theorem watchdog_fails {s : State} {r : GroupRef} {t : Team} {g : Group} {h : Handler} {gr : Grid} (hrun : Running s)
    (ht : teamOf s r.team = some t) (hg : groupOf s r = some g) (hh : g.handler = some h) (hhere : gangHere s t = true)
    (hgr : gridOf s r.team.ld r.team.grid = some gr) (hfail : gr.fail = none) :
    Becomes (exec (.handlerWatchdog r) s) fun u => GridFails u r.team.ld r.team.grid 0x08 cWATCHDOG 0 r.team.team h.trap.pc := by
  have hexec : exec (.handlerWatchdog r) s = .next (raiseTrap { s with cycle := max s.cycle (h.since + 2 ^ 32) } r
      ⟨cWATCHDOG, 0, BitVec.allOnes 32, 0, 0, 0, 0, 0, false, false, false⟩) := by
    rw [show exec (.handlerWatchdog r) s = execHandlerWatchdog r s from rfl, execHandlerWatchdog, agent_of_running hrun, ht, hg]
    simp only [Option.bind_some, hh, hhere, if_true]
  have hg' : groupOf { s with cycle := max s.cycle (h.since + 2 ^ 32) } r = some g := hg
  have hgr' : gridOf { s with cycle := max s.cycle (h.since + 2 ^ 32) } r.team.ld r.team.grid = some gr := hgr
  rw [hexec]
  exact ⟨_, rfl, raiseTrap_fails hg' hgr' hfail (raiseTrap_nested hg' hh)⟩

/-! ERET (R393). -/

theorem keeps_wakeList (p : Entry → Bool) (f : List Entry) {e : Entry} (he : e ∈ f) (hp : p e = false) {l : Nat} (hl : e.mask.getLsbD l = true) :
    ∃ e' ∈ wakeList p f, e'.st = e.st ∧ e'.pc = e.pc ∧ e'.prio = e.prio ∧ e'.mask.getLsbD l = true := by
  obtain ⟨e', he', hst, hpc, hprio, hmask⟩ :=
    keeps_addAll (f.filter p) (f.filter fun e => !p e) e (List.mem_filter.2 ⟨he, by simp [hp]⟩)
  exact ⟨e', he', hst, hpc, hprio, hmask l hl⟩

/-- Only entries that were there, and ready ones, are in a frontier to which ready entries are added. -/
theorem mem_addReady_st {f : List Entry} {e x : Entry} (hx : x ∈ addReady f e) (he : e.st = .ready) : x.st = .ready ∨ x ∈ f := by
  induction f with
  | nil =>
    rw [addReady, List.mem_singleton] at hx
    exact .inl (hx ▸ he)
  | cons y r ih =>
    unfold addReady at hx
    split at hx
    · next hy =>
      rcases List.mem_cons.1 hx with rfl | hx
      · exact .inl hy.1
      · exact .inr (List.mem_cons_of_mem _ hx)
    · rcases List.mem_cons.1 hx with rfl | hx
      · exact .inr (List.mem_cons_self ..)
      · exact (ih hx).imp_right (List.mem_cons_of_mem _)

theorem mem_wakeList_st {p : Entry → Bool} {f : List Entry} {x : Entry} (hx : x ∈ wakeList p f) : x.st = .ready ∨ x ∈ f := by
  have hfold (es a : List Entry) (hx : x ∈ addAll es a) : x.st = .ready ∨ x ∈ a := by
    induction es generalizing a with
    | nil => exact .inr hx
    | cons e r ih =>
      rcases ih _ hx with h | h
      · exact .inl h
      · exact mem_addReady_st h rfl
  exact (hfold (f.filter p) (f.filter fun e => !p e) hx).imp_right fun h => List.mem_of_mem_filter h

/-- A group that has come back from its handler. -/
def returned (g : Group) (x : Trap) (pc : Ptr) (skip : Bool) : Group :=
  if skip && x.coll then { resumeGroup x pc g with skipped := (resumeGroup x pc g).skipped ++ [(x.pc, x.prio, x.mask)] } else resumeGroup x pc g

theorem returned_spec (g : Group) (x : Trap) (pc : Ptr) (skip : Bool) : (returned g x pc skip).id = g.id ∧ (returned g x pc skip).handler = none ∧
    (returned g x pc skip).v = g.v ∧ (returned g x pc skip).bank = g.bank ∧
    (returned g x pc skip).frontier = addReady (keptFront x g) ⟨pc, x.prio, x.mask, 0, .ready⟩ := by
  unfold returned
  split <;> exact ⟨rfl, rfl, rfl, rfl, rfl⟩

/-- The frontier of a group that has come back: its trapped lanes are ready, every other entry stays or goes on. -/
theorem resumed_front (g : Group) (x : Trap) (pc : Ptr) :
    (∀ l < 32, x.mask.getLsbD l = true → StandsAt (addReady (keptFront x g) ⟨pc, x.prio, x.mask, 0, .ready⟩) l pc x.prio) ∧
    ∀ e ∈ g.frontier, e.mask ≠ x.mask → ∀ l < 32, e.mask.getLsbD l = true →
      if e.waits Wait.isMet then StandsAt (addReady (keptFront x g) ⟨pc, x.prio, x.mask, 0, .ready⟩) l (nextPc e.pc) e.prio
      else ∃ e' ∈ addReady (keptFront x g) ⟨pc, x.prio, x.mask, 0, .ready⟩, e'.st = e.st ∧ e'.pc = e.pc ∧ e'.prio = e.prio ∧
        e'.mask.getLsbD l = true := by
  refine ⟨fun l _ hl => standsAt_addReady _ ⟨pc, x.prio, x.mask, 0, .ready⟩ rfl l hl, fun e he hne l _ hl => ?_⟩
  have hkept : e ∈ g.frontier.filter fun e => e.mask != x.mask := List.mem_filter.2 ⟨he, by simpa using hne⟩
  have hadd := keeps_addReady (keptFront x g) ⟨pc, x.prio, x.mask, 0, .ready⟩
  split
  · next hw => exact hadd.standsAt (standsAt_wakeList hkept hw hl)
  · next hw =>
    obtain ⟨a, ha, h1, h2, h3, h4⟩ := keeps_wakeList (fun e => e.waits Wait.isMet) _ hkept (Bool.eq_false_iff.2 hw) hl
    obtain ⟨b, hb, k1, k2, k3, k4⟩ := hadd a ha
    exact ⟨b, hb, k1.trans h1, k2.trans h2, k3.trans h3, k4 l h4⟩

theorem resumed_unparked {g : Group} {x : Trap} {pc : Ptr} (h : ∀ e ∈ g.frontier, parkTrap e = none) :
    ∀ e ∈ addReady (keptFront x g) ⟨pc, x.prio, x.mask, 0, .ready⟩, parkTrap e = none := by
  intro e he
  have hready (e : Entry) (hs : e.st = .ready) : parkTrap e = none := by
    unfold parkTrap
    rw [hs]
  rcases mem_addReady_st he rfl with hs | he
  · exact hready e hs
  · rcases mem_wakeList_st he with hs | he
    · exact hready e hs
    · exact h e (List.mem_of_mem_filter he)

/-- Nothing parked is raised where nothing is parked. -/
theorem raiseParked_free {s : State} {r : GroupRef} {g : Group} (hg : groupOf s r = some g) (h : ∀ e ∈ g.frontier, parkTrap e = none) :
    raiseParked s r = s := by
  unfold raiseParked
  rw [hg]
  dsimp only
  split
  · rfl
  · rw [List.filter_eq_nil_iff.2 fun e he => by rw [h e he]; exact Bool.false_ne_true]
    rfl

theorem stuckTest_free {s : State} {r : GroupRef} {g : Group} (hg : groupOf s r = some g) (h : stuck g = false) : stuckTest s r = s := by
  unfold stuckTest
  rw [hg]
  dsimp only
  rw [h]
  rfl

/-- The team's other groups start too where the handler's trap held them. -/
def startedIf (b : Bool) (s : State) (r : TeamRef) : State := if b then startHeld s r else s

theorem groupOf_startedIf {b : Bool} {s : State} {r : GroupRef} {g : Group} (hg : groupOf s r = some g) :
    ∃ k, groupOf (startedIf b s r.team) r = some { g with held := k } := by
  cases b with
  | false => exact ⟨g.held, hg⟩
  | true =>
    obtain ⟨t, ht, hin⟩ := Option.bind_eq_some_iff.1 hg
    refine ⟨false, ?_⟩
    show (teamOf (modTeam s r.team _) r.team).bind _ = _
    rw [teamOf_modTeam_same, ht]
    · exact groupIn_map (F := fun g => { g with held := false }) (fun _ => rfl) hin
    · exact fun _ h => h

theorem eret_spec {s : State} {r : GroupRef} {g : Group} {k : Handler} (hg : groupOf s r = some g) (hh : g.handler = some k)
    (hpark : ∀ e ∈ g.frontier, parkTrap e = none) (skip : Bool) : (eret s r skip).mem = s.mem ∧
    ∃ u, groupOf (eret s r skip) r = some u ∧ u.handler = none ∧ u.v = g.v ∧ u.bank = g.bank ∧ u.frontier =
      addReady (keptFront k.trap g) ⟨if skip && !k.trap.staging then nextPc k.trap.pc else k.trap.pc, k.trap.prio, k.trap.mask, 0, .ready⟩ := by
  obtain ⟨pc, hpc⟩ : ∃ pc, pc = if skip && !k.trap.staging then nextPc k.trap.pc else k.trap.pc := ⟨_, rfl⟩
  have heret : eret s r skip = stuckTest (raiseParked (startedIf k.trap.staging (modGroup s r fun g => returned g k.trap pc skip) r.team) r) r := by
    unfold eret
    rw [hg, Option.bind_some, hh, hpc]
    rfl
  obtain ⟨hid, hhandler, hv, hbank, hfront⟩ := returned_spec g k.trap pc skip
  have h1 : groupOf (modGroup s r fun g => returned g k.trap pc skip) r = some (returned g k.trap pc skip) :=
    groupOf_modGroup_some _ (fun x hx => (returned_spec x k.trap pc skip).1.trans hx) hg
  obtain ⟨b, h2⟩ := groupOf_startedIf (b := k.trap.staging) h1
  have hmem : (startedIf k.trap.staging (modGroup s r fun g => returned g k.trap pc skip) r.team).mem = s.mem := by
    unfold startedIf
    split <;> rfl
  obtain ⟨e, he, hst⟩ := mem_ready_addReady (keptFront k.trap g) ⟨pc, k.trap.prio, k.trap.mask, 0, .ready⟩ rfl
  rw [← hpc]
  generalize startedIf k.trap.staging (modGroup s r fun g => returned g k.trap pc skip) r.team = t at *
  generalize returned g k.trap pc skip = u at *
  have hfree : stuck { u with held := b } = false := by
    refine stuck_of_free (e := e) ?_ (by unfold Entry.waits; rw [hst])
    show e ∈ (match u.handler with | some h => h.frontier | none => u.frontier)
    rw [hhandler, hfront]
    exact he
  have hparked : raiseParked t r = t := raiseParked_free h2 (by rw [hfront]; exact resumed_unparked hpark)
  rw [heret, hparked, stuckTest_free h2 hfree]
  exact ⟨hmem, _, h2, hhandler, hv, hbank, hfront⟩

theorem exec_handlerEnd {s : State} {c : Ctx} {h : Hdr} {i : Instr} {skip : Bool} (hi : (i = .eret h ∧ skip = false) ∨ (i = .eretSkip h ∧ skip = true))
    (hc : ctxOf s h = some c) : exec i s = .next (complete c h false (handlerEnd c skip)) := by
  rcases hi with ⟨rfl, rfl⟩ | ⟨rfl, rfl⟩
  · rw [show exec (.eret h) s = execEret h s from rfl, execEret, withIssue_of hc]
  · rw [show exec (.eretSkip h) s = execEretSkip h s from rfl, execEretSkip, withIssue_of hc]

theorem endsIn_eret {s : State} {c : Ctx} {h : Hdr} {k : Handler} (hc : ctxOf s h = some c) (hne : c.lanes ≠ []) (hh : c.g.handler = some k)
    (hpark : ∀ e ∈ c.g.frontier, parkTrap e = none) (skip : Bool) :
    ∃ t g, EndsIn c (.next (complete c h false (handlerEnd c skip))) t g ∧ t.mem = s.mem ∧ g.handler = none ∧ g.v = c.g.v ∧ g.bank = c.g.bank ∧
      g.frontier = addReady (keptFront k.trap c.g)
        ⟨if skip && !k.trap.staging then nextPc k.trap.pc else k.trap.pc, k.trap.prio, k.trap.mask, 0, .ready⟩ := by
  obtain ⟨hs, -⟩ := ctxOf_spec hc
  obtain ⟨hmem, u, hu, hrest⟩ := eret_spec (groupOf_ctx hc) hh hpark skip
  have hend : handlerEnd c skip = .ok (eret c.s c.r skip) .left [] none := by
    have hin : c.inHandler = true := by rw [Ctx.inHandler, hh]; rfl
    unfold handlerEnd
    rw [c.any_of_ne hne, hin]
    rfl
  rw [hend]
  generalize eret c.s c.r skip = t at *
  exact ⟨{ t with issuing := none }, u, ⟨rfl, rfl, hu⟩, hmem.trans (by rw [hs]), hrest⟩

/-! REFRESH (R391). -/

theorem exec_refresh_trap {s : State} {c : Ctx} {h : Hdr} (hc : ctxOf s h = some c) (hne : c.lanes ≠ [])
    (hfull : (rootAt s c.t.r.ld c.gr.slot).full = false) : exec (.refresh h) s = .next (complete c h false (trapW cNOTMAPPED 10)) := by
  obtain ⟨hs, -, ht, -⟩ := ctxOf_spec hc
  have hnone : refreshTeam c.s c.t.r c.gr.slot (fun g => g.id == c.g.id) = none := by
    rw [Ctx.team_ref hc] at hfull ⊢
    rw [hs]
    exact refreshTeam_none ht hfull
  rw [show exec (.refresh h) s = execRefresh h s from rfl, execRefresh, withIssue_of hc, c.any_of_ne hne, hnone]
  rfl

theorem pin_setFront (g : Group) (f : List Entry) : (setFront g f).pin = g.pin := by unfold setFront; split <;> rfl

theorem goesOn_refresh {s : State} {c : Ctx} {h : Hdr} (hc : ctxOf s h = some c) (hne : c.lanes ≠ []) (hend : c.g.ended = false)
    (hfull : (rootAt s c.t.r.ld c.gr.slot).full = true) (hs : Spotless s) : GoesOn c (exec (.refresh h) s) fun t g => Kept c.g g [] ∧
      g.pin = rootPin c.gr.slot (rootAt s c.t.r.ld c.gr.slot) ∧
      TeamIs t c.r.team fun u => u.pin = rootPin c.gr.slot (rootAt s c.t.r.ld c.gr.slot) ∧ u.bounds = (readBounds t c.t.r.ld c.gr.slot).1 := by
  obtain ⟨hcs, -, ht, hg, -⟩ := ctxOf_spec hc
  have hr := Ctx.team_ref hc
  have hid : c.g.id = c.r.g := groupOf_id _ _ _ hg
  rw [hr] at hfull ⊢
  obtain ⟨u, t', g', hu, ht', hg', hren, hpin, htpin, hbounds⟩ := refreshTeam_spec hs ht hg hend hfull
  have hexec : exec (.refresh h) s = .next (complete c h false (done u [])) := by
    rw [show exec (.refresh h) s = execRefresh h s from rfl, execRefresh, withIssue_of hc, c.any_of_ne hne, hr, hid, hcs]
    unfold Ctx.r at hu ⊢
    rw [hu]
    rfl
  rw [hexec]
  generalize rootPin c.gr.slot (rootAt s c.r.team.ld c.gr.slot) = p at *
  refine goesOn_done c h false [] u g' hg' hren.front ⟨Kept.retire hren.kept .., (pin_setFront ..).trans hpin, _, (teamOf_afterDone ..).trans (congrArg _ ht'), htpin, hbounds⟩

end Sys2Proof.Machine

open Sys2Proof Sys2Proof.Machine

/-- Settles O37: a trap is taken at once, fails the grid of a handler or of a kernel without one, or enters the handler with the frame's
fields in the words of its bank; the return and the refresh change only what their rules name. -/
theorem trapHandling : Obligations.TrapHandling := by
  unfold Obligations.TrapHandling
  refine ⟨fun s c x i cause hi hc => ?_, fun s r t g x ht hg hh hp hf hv hlane hdetail hcause hm hld hid hvb hcore => ?_,
    fun s r t g h gr hrun ht hg hh hhere hgr hfail => watchdog_fails hrun ht hg hh hhere hgr hfail, fun s c h i skip hi hc => ?_,
    fun s c h hc hne hend => ?_⟩
  · obtain ⟨hs, -, ht, hg, hgr, -⟩ := ctxOf_spec hc
    rw [exec_trapBy hi hc]
    have hg' : groupOf { c.s with issuing := none } c.r = some c.g := by rw [hs]; exact hg
    have hgr' : gridOf { c.s with issuing := none } c.r.team.ld c.r.team.grid = some c.gr := by rw [hs]; exact hgr
    refine ⟨fun hnil => ?_, fun hne can => ?_, fun hne hfail k hk => ?_, fun hne hfail hh hp hf hv => ?_⟩
    · rw [if_neg (by rw [c.any_eq_false hnil]; decide)]
      exact goesOn_none hc
    · rw [if_pos (c.any_of_ne hne)]
      exact traps_trapW hc can ..
    · rw [if_pos (c.any_of_ne hne), complete_trapW]
      exact ⟨_, rfl, raiseTrap_fails hg' hgr' hfail (raiseTrap_nested hg' hk)⟩
    · rw [if_pos (c.any_of_ne hne), complete_trapW]
      have ht' : teamOf { c.s with issuing := none } c.r.team = some c.t := by rw [hs]; exact ht
      have hv' : qbWord { c.s with issuing := none } c.r.team.ld 0x260 = 0 := by rw [hs]; exact hv
      exact ⟨_, rfl, raiseTrap_fails hg' hgr' hfail ((raiseTrap_of _ hg' hh hp hf).trans (enterTrap_none ht' hg' hv'))⟩
  · refine ⟨_, raiseTrap_frame ht hg hh hp hf hv, ?_⟩
    obtain ⟨hx, hmask, hlane', hzero, hcoll, hpark, hdet, hcau⟩ := trapWord_fields hlane hdetail hcause
    obtain ⟨hy, hlm, hprio, hmem, hlds, hgid, hvbase⟩ := placeWord_fields (x := x) hm hld hid hvb
    have href := teamOf_ref ht
    have h1 : getG (enteredGroup s t x (qbWord s r.team.ld 0x260) (lastDue g s.cycle) g) 1 = BitVec.ofNat 64 (trapWord x) := getG_frame ..
    have h4 : getG (enteredGroup s t x (qbWord s r.team.ld 0x260) (lastDue g s.cycle) g) 4 = BitVec.ofNat 64 (placeWord t g x) := getG_frame ..
    have h5 : getG (enteredGroup s t x (qbWord s r.team.ld 0x260) (lastDue g s.cycle) g) 5 =
      BitVec.ofNat 64 (t.core * 2 ^ 32 + t.r.team % 2 ^ 32) := getG_frame ..
    have hplace : t.core * 2 ^ 32 + t.r.team % 2 ^ 32 < 2 ^ 64 := by omega
    rw [h1, h4, h5]
    refine ⟨?_, ?_, ?_, ?_, ?_, ?_, ?_, getG_frame .., getG_frame .., ?_, ?_, ?_, ?_, ?_, ?_, ?_, ?_, (getG_frame ..).trans (by rw [href]; rfl),
      fun k hk => (getG_frame ..).trans ?_, fun k hk l => ?_, fun k => rfl, rfl, rfl, rfl, rfl⟩
    · exact BitVec.eq_of_toNat_eq ((extract_ofNat _ _ _ hx).trans hmask)
    · exact (extract_ofNat _ _ _ hx).trans hlane'
    · exact bit_ofNat _ _ hx false hzero (by decide)
    · exact bit_ofNat _ _ hx _ hcoll (by decide)
    · exact bit_ofNat _ _ hx _ hpark (by decide)
    · exact (extract_ofNat _ _ _ hx).trans hdet
    · exact (extract_ofNat _ _ _ hx).trans hcau
    · exact BitVec.eq_of_toNat_eq ((extract_ofNat _ _ _ hy).trans hlm)
    · exact BitVec.eq_of_toNat_eq ((extract_ofNat _ _ _ hy).trans hprio)
    · exact (extract_ofNat _ _ _ hy).trans hmem
    · exact (extract_ofNat _ _ _ hy).trans hlds
    · exact (extract_ofNat _ _ _ hy).trans hgid
    · exact (extract_ofNat _ _ _ hy).trans hvbase
    · rw [extract_ofNat _ _ _ hplace]
      omega
    · refine BitVec.eq_of_toNat_eq ((extract_ofNat _ _ _ hplace).trans ?_)
      show _ = 0
      omega
    · simp only [show k ≠ 6 by omega, show k ≠ 5 by omega, show k ≠ 4 by omega, show k ≠ 3 by omega, show k ≠ 2 by omega, show k ≠ 1 by omega, if_false]
    · show (k == 7 || (0 : LaneMask).getLsbD l) = false
      rw [zero_bit, Bool.or_false]
      exact beq_false_of_ne (by omega)
  · rw [exec_handlerEnd hi hc]
    refine ⟨fun hnil => ?_, fun hne can => ?_, fun hne k hk hpark => ?_⟩
    · unfold handlerEnd
      rw [c.any_eq_false hnil]
      exact goesOn_none hc
    · have hout : c.inHandler = false := by rw [Ctx.inHandler, can.1]; rfl
      unfold handlerEnd
      rw [c.any_of_ne hne, hout]
      exact traps_trapW hc can ..
    · obtain ⟨t, g, hend, hmem, hh, hv, hb, hfront⟩ := endsIn_eret hc hne hk hpark skip
      obtain ⟨h1, h2⟩ := resumed_front c.g k.trap (if skip && !k.trap.staging then nextPc k.trap.pc else k.trap.pc)
      rw [← hfront] at h1 h2
      exact ⟨t, g, hend, hmem, hh, hv, hb, h1, h2⟩
  · refine ⟨fun hfull can => ?_, fun hfull hecc hsram => ?_⟩
    · rw [exec_refresh_trap hc hne hfull]
      exact traps_trapW hc can ..
    · exact goesOn_refresh hc hne hend hfull ⟨hsram, fun b => by simp [CleanByte, hecc, stGet]⟩
end

section
/-! PROOFS. A return from pre-emption (spec/21_scheduling.md R420) of a team in which two groups have the same number: a barrier with
refresh that is complete refills the groups' stacks by number, and the second group ends with the first's registers. -/

set_option Elab.async false

namespace Sys2Proof.Machine

/-- A saved group that waits at a team barrier with refresh; v0 of its lane 0 is given, and its cached stack is to be filled. -/
def twinGroup (x : BitVec 32) : Group :=
  { loneGroup with
    v := [(0, x)]
    full := true
    saved := true
    stk := []
    stkLo := [(0, 16)]
    frontier := [⟨mkPtr 1 0, 128, 1, 0, .waiting (.tbar true) 0⟩] }

/-- The first logical device with a root in the slot of the grid. -/
def twinDev : LDev := { ldOf State.reset 0 with slots := lset (ldOf State.reset 0).slots 63 ⟨true, 1, 0, 0, 0, []⟩ }

/-- A pre-empted gang of one team with two such groups, both numbered 0. -/
def twinState : State :=
  { setQb { State.reset with lds := lset State.reset.lds 0 twinDev } 0 0x258 1 with
    power := ⟨true, false, false, [], false⟩
    grids := [benchGrid]
    gangs := [⟨⟨0, 0, 0⟩, 1, .preempted, 0, [], none, false, 0, none, false, []⟩]
    teams := [{ loneTeam (twinGroup 1) with groups := [twinGroup 1, twinGroup 2] }]
    issuing := none }

/-- No group has 2 in v0 of its lane 0 after a step. -/
def noneHoldsTwo (o : Out) : Bool := match o with
  | .next u => u.teams.all fun t => t.groups.all fun g => getV g 0 0 != 2
  | _ => false

theorem noneHoldsTwo_preemptReturn : noneHoldsTwo (exec (.preemptReturn ⟨0, 0, 0⟩) twinState) = true := by decide +kernel

theorem turnOf_twin : turnOf twinState ⟨0, 0, 0⟩ (fun w => w == .preempted) = some (benchGrid, [0]) := by decide +kernel

end Sys2Proof.Machine

open Sys2Proof Sys2Proof.Machine

/-- Refutes O46: of two groups numbered alike that come back waiting at a TBAR.refresh, the second does not come back with its
registers. -/
theorem not_preemption : ¬ Obligations.Preemption := by
  unfold Obligations.Preemption
  rintro ⟨-, -, -, -, hreturn⟩
  obtain ⟨u, hu, -, hteams⟩ := hreturn twinState ⟨0, 0, 0⟩ ⟨⟨0, 0, 0⟩, 1, .preempted, 0, [], none, false, 0, none, false, []⟩ benchGrid [0]
    (by decide +kernel) rfl rfl rfl (by decide +kernel) turnOf_twin
  obtain ⟨t, ht, -, hgroups⟩ := hteams { loneTeam (twinGroup 1) with groups := [twinGroup 1, twinGroup 2] } (by decide +kernel)
  obtain ⟨q, hq, -, -, -, hv⟩ := hgroups (twinGroup 2) (by simp)
  have htwo : getV q 0 0 = 2 := hv 0 0 (by decide)
  have hnone := noneHoldsTwo_preemptReturn
  rw [hu] at hnone
  have hmem : t ∈ u.teams := List.mem_of_find?_eq_some ht
  have hq2 := List.all_eq_true.1 (List.all_eq_true.1 hnone t hmem) q hq
  rw [htwo] at hq2
  exact absurd hq2 (by decide)
end

section
/-! PROOFS. An entry that waits for what has not come about stays while barriers and calls are settled, and a call that an active
lane makes waits (spec/06_execution_model.md R155, R167; spec/20_system_instructions.md R387). -/

set_option Elab.async false

namespace Sys2Proof.Machine

/-- A group outside a handler has an entry in its frontier. -/
def HasEntry (r : GroupRef) (e : Entry) (s : State) : Prop := ∃ g, groupOf s r = some g ∧ g.handler = none ∧ e ∈ g.frontier

section entry
variable {r : GroupRef} {e : Entry} {s : State}

theorem HasEntry.of_bare {t : State} (h : HasEntry r e s) (hs : Same wide (view wide s) t) : HasEntry r e t := by
  obtain ⟨g, hg, hh, he⟩ := h
  have hmap : (groupOf t r).map bareGroup = some (bareGroup g) := (congrFun (congrArg Shown.group hs) r).trans (congrArg (Option.map bareGroup) hg)
  obtain ⟨g', hg', hb⟩ := Option.map_eq_some_iff.1 hmap
  have hhandler : (bareGroup g').handler = none := by rw [hb, bareGroup, hh]; rfl
  have hfront : (bareGroup g').frontier = (bareGroup g).frontier := by rw [hb]
  have hfront : g'.frontier = g.frontier := hfront
  exact ⟨g', hg', Option.map_eq_none_iff.1 hhandler, hfront ▸ he⟩

/-- A function of a team's groups that keeps their numbers and the entry. -/
theorem HasEntry.mapGroups {q : TeamRef} {F : Group → Group} (h : HasEntry r e s) (hid : ∀ g, (F g).id = g.id)
    (hF : ∀ g, g.handler = none → e ∈ g.frontier → (F g).handler = none ∧ e ∈ (F g).frontier) :
    HasEntry r e (modTeam s q fun t => { t with groups := t.groups.map F }) := by
  obtain ⟨g, hg, hh, he⟩ := h
  by_cases hq : r.team = q
  · subst hq
    obtain ⟨t, ht, hin⟩ := Option.bind_eq_some_iff.1 hg
    refine ⟨F g, ?_, hF g hh he⟩
    unfold groupOf
    rw [teamOf_modTeam_some ht (by exact fun _ h => h), Option.bind_some]
    exact groupIn_map hid hin
  · refine ⟨g, ?_, hh, he⟩
    unfold groupOf
    rw [teamOf_modTeam_other]
    · exact hg
    · exact fun _ h => h
    · exact hq

theorem mem_wakeIf {p : Entry → Bool} {g : Group} (hst : e.st ≠ .ready) (hp : p e = false) (he : e ∈ g.frontier) : e ∈ (wakeIf p g).frontier := by
  show e ∈ (if g.handler.isSome || g.pendTrap.isSome then meetList p g.frontier else wakeList p g.frontier)
  split
  · rw [meetList_eq]
    exact List.mem_map.2 ⟨e, he, metEntry_of_not hp⟩
  · exact mem_addAll_of_not_ready _ (List.mem_filter.2 ⟨he, by simp [hp]⟩) hst

/-- The groups of a team woken from one kind of wait: an entry that waits for another stays. -/
theorem HasEntry.sync {q : Wait → Bool} (h : HasEntry r e s) (hst : e.st ≠ .ready) (hp : e.waits q = false) (ids : List Nat) (t : TeamRef) :
    HasEntry r e (modTeam s t fun t => { t with groups := t.groups.map fun g => joinPast ids (wakeIf (fun e => e.waits q) g) }) := by
  refine h.mapGroups (fun g => by rw [id_joinPast, id_wakeIf]) fun g hh he => ?_
  obtain ⟨o, ho⟩ : Reordered (wakeIf (fun e => e.waits q) g) (joinPast ids (wakeIf (fun e => e.waits q) g)) := reordered_addPast ..
  rw [ho]
  exact ⟨by rw [wakeIf, hh]; rfl, mem_wakeIf hst hp he⟩

theorem HasEntry.settleTbar (h : HasEntry r e s) (hst : e.st ≠ .ready) (t : TeamRef)
    (hp : e.waits Wait.isTbar = false ∨ ∀ u, teamOf s t = some u → teamArrived Wait.isTbar u = false) : HasEntry r e (settleTbar s t) := by
  unfold Machine.settleTbar
  split
  · exact h
  · next u hu =>
    split
    · next harr =>
      rcases hp with hp | hp
      · dsimp only
        refine HasEntry.sync ?_ hst hp _ t
        split
        · split
          · next hr => exact h.of_bare (via (OptionAll (Same wide (view wide s))) hr (same_refreshTeam rfl))
          · exact h.mapGroups (fun _ => rfl) fun g hh he => ⟨hh, he⟩
        · exact h
      · rw [hp u hu] at harr
        cases harr
    · exact h

theorem HasEntry.settleSys (h : HasEntry r e s) (hst : e.st ≠ .ready) (t : TeamRef)
    (hp : e.waits Wait.isSys = false ∨ r.team = t ∧ e.sysActive = true) : HasEntry r e (settleSys s t) := by
  unfold Machine.settleSys
  split
  · exact h
  · next u hu =>
    split
    · split
      · obtain ⟨g, hg, hh, he⟩ := h
        refine ⟨g, ?_, hh, he⟩
        rw [← hg]
        by_cases hr : r.team = t
        · subst hr
          exact groupOf_modTeam_groups (by exact fun _ h => h) (by exact fun _ => rfl) r.g
        · unfold groupOf
          rw [teamOf_modTeam_other]
          · exact fun _ h => h
          · exact hr
      · next hno =>
        refine h.sync hst ?_ _ t
        rcases hp with hp | ⟨hr, hact⟩
        · exact hp
        · obtain ⟨g, hg, -, he⟩ := h
          obtain ⟨u', hu', hin⟩ := Option.bind_eq_some_iff.1 hg
          rw [hr, hu] at hu'
          cases hu'
          exact absurd (List.any_eq_true.2 ⟨g, List.mem_of_find?_eq_some hin, List.any_eq_true.2 ⟨e, he, hact⟩⟩) hno
    · exact h

theorem HasEntry.settleGbar (h : HasEntry r e s) (hst : e.st ≠ .ready) (k : GangRef)
    (hp : e.waits Wait.isGbar = false ∨ (gangTeams s k).all gbarTeam = false) : HasEntry r e (settleGbar s k) := by
  unfold Machine.settleGbar
  dsimp only
  split
  · next hall =>
    rw [Bool.and_eq_true] at hall
    rcases hp with hp | hp
    · exact foldl_holds (HasEntry r e) h fun s' t hs' => hs'.sync hst hp _ t.r
    · rw [hp] at hall
      cases hall.2
  · exact h

end entry

section waiting
variable {c : Ctx} (h : Hdr) (sw : Bool) (w : Wait) (outs : List Outst) (dl : Option Nat) {s' : State} {g' : Group}

theorem hasEntry_afterWait (hg : groupOf s' c.r = some g') (hh : g'.handler = none) : HasEntry c.r (waiter c w) (afterWait c h sw w outs dl s' g') := by
  refine ⟨_, groupOf_afterWait h sw w outs dl hg, ?_, ?_⟩
  · show (setFront g' _).handler = none
    rw [setFront, hh]
  · show _ ∈ (setFront g' _).frontier
    rw [setFront, hh]
    simp

/-- An entry that begins to wait stands waiting where what it waits for has not come about. -/
theorem waits_of_hasEntry (hg : groupOf s' c.r = some g') (room : (others c.u (frontOf g')).length < depthOf c.g)
    (hfree : w.amongLanes = false) (hst : HasEntry c.r (waiter c w) (settle (afterWait c h sw w outs dl s' g') c.r.team)) :
    Waits c (.next (complete c h sw (.ok s' (.wait w) outs dl))) w := by
  obtain ⟨hi, -⟩ := wokeIn_settle c.r (afterWait c h sw w outs dl s' g') c.r.team
  obtain ⟨g, hg2, hh, he⟩ := hst
  have hfront : waiter c w ∈ frontOf g := by rw [frontOf, hh]; exact he
  have htest : stuckTest (settle (afterWait c h sw w outs dl s' g') c.r.team) c.r = settle (afterWait c h sw w outs dl s' g') c.r.team :=
    stuckTest_free hg2 (stuck_of_free hfront hfree)
  refine ⟨_, g, ⟨rfl, ?_, ?_⟩, hfront⟩
  · rw [complete_wait h sw w outs dl hg room, htest, hi]
  · rw [complete_wait h sw w outs dl hg room, htest, hg2]

end waiting

end Sys2Proof.Machine
end

section
/-! PROOFS. A gang that comes back on its cores (spec/21_scheduling.md R415, R420; spec/20_system_instructions.md R389, R390): its place, and
the cores of its teams. -/

set_option Elab.async false

namespace Sys2Proof.Machine

/-- The gangs are the same, and every team is on the same core. -/
structure Placed (s t : State) : Prop where
  gangs : t.gangs = s.gangs
  core : ∀ r, (teamOf t r).map Team.core = (teamOf s r).map Team.core

section placed
variable {s t u : State}

theorem Placed.refl (s : State) : Placed s s := ⟨rfl, fun _ => rfl⟩

theorem Placed.trans (a : Placed s t) (b : Placed t u) : Placed s u := ⟨b.gangs.trans a.gangs, fun r => (b.core r).trans (a.core r)⟩

theorem Placed.of_teams (hg : t.gangs = s.gangs) (ht : t.teams = s.teams) : Placed s t := ⟨hg, fun r => by rw [teamOf_of_teams ht]⟩

theorem Placed.of_same (h : Same wide (view wide s) t) : Placed s t := by
  refine ⟨congrArg (fun v : Shown => v.rest.gangs) h, fun r => ?_⟩
  have hteam : (teamOf t r).map bareTeam = (teamOf s r).map bareTeam := congrFun (congrArg Shown.team h) r
  have hcore (x : State) : (teamOf x r).map Team.core = ((teamOf x r).map bareTeam).map Team.core := by
    rw [Option.map_map]
    rfl
  rw [hcore, hteam, ← hcore]

theorem placed_modTeam {r : TeamRef} {f : Team → Team} (hr : ∀ t, t.r = r → (f t).r = r) (hf : ∀ t, (f t).core = t.core) :
    Placed s (modTeam s r f) := by
  refine ⟨rfl, fun q => ?_⟩
  rw [teamOf_modTeam hr]
  split
  · next h =>
    subst h
    rw [Option.map_map]
    exact congrArg (fun f => (teamOf s q).map f) (funext hf)
  · rfl

theorem placed_settleTbar (s : State) (r : TeamRef) : Placed s (settleTbar s r) := by
  unfold settleTbar
  split
  · exact .refl s
  · split
    · dsimp only
      refine Placed.trans ?_ (placed_modTeam (fun _ h => h) fun _ => rfl)
      split
      · split
        · next e => exact .of_same (via (OptionAll (Same wide (view wide s))) e (same_refreshTeam rfl))
        · exact placed_modTeam (fun _ h => h) fun _ => rfl
      · exact .refl s
    · exact .refl s

theorem placed_settleSys (s : State) (r : TeamRef) : Placed s (settleSys s r) := by
  unfold settleSys
  split
  · exact .refl s
  · split
    · split
      · exact placed_modTeam (fun _ h => h) fun _ => rfl
      · exact placed_modTeam (fun _ h => h) fun _ => rfl
    · exact .refl s

theorem placed_settleGbar (s : State) (k : GangRef) : Placed s (settleGbar s k) := by
  unfold settleGbar
  dsimp only
  split
  · exact foldl_holds (Placed s) (.refl s) fun x t hx => hx.trans (placed_modTeam (fun _ h => h) fun _ => rfl)
  · exact .refl s

theorem placed_settle (s : State) (r : TeamRef) : Placed s (settle s r) :=
  ((placed_settleTbar s r).trans (placed_settleSys _ r)).trans (placed_settleGbar ..)

theorem placed_sysDeliver (s : State) (r : TeamRef) (v : DWord) : Placed s (sysDeliver s r v) := by
  unfold sysDeliver
  split
  · exact .refl s
  · exact placed_modTeam (fun _ h => h) fun _ => rfl

theorem placed_catchUp (s : State) (k : GangRef) : Placed s (catchUp s k) := by
  unfold catchUp
  refine foldl_holds (Placed s) (.refl s) fun x t hx => hx.trans ?_
  split
  · exact placed_sysDeliver ..
  · exact placed_settle ..

theorem placed_dropStale (s : State) (store unit lo hi : Nat) : Placed s (dropStale s store unit lo hi) := .of_teams rfl rfl

theorem placed_addStale (s : State) (ld store unit lo hi : Nat) : Placed s (addStale s ld store unit lo hi) := by
  unfold addStale
  dsimp only
  split
  · exact .of_teams rfl rfl
  · exact .of_teams rfl rfl

theorem placed_zeroWords (s : State) (store unit lo hi : Nat) : Placed s (zeroWords s store unit lo hi) := .of_teams rfl rfl

theorem placed_regainTeam (s : State) (t : Team) : Placed s (regainTeam s t) := by
  unfold regainTeam zeroBuf
  refine Placed.trans ?_ (((placed_zeroWords ..).trans (placed_zeroWords ..)).trans (placed_zeroWords ..))
  exact foldl_holds (Placed s) (.refl s) fun x v hx => hx.trans (placed_zeroWords ..)

/-- The state of a gang's teams once their memory has been given back to them. -/
def regained (s : State) (k : GangRef) (now : Nat) : State :=
  (gangTeams s k).foldl (fun s t => modTeam (regainTeam s t) t.r fun t =>
    resumeTeam { t with groups := t.groups.map (handlerClock fun n => now - n) }) s

theorem placed_regained (s : State) (k : GangRef) (now : Nat) : Placed s (regained s k now) :=
  foldl_holds (Placed s) (.refl s) fun _ _ hx => (hx.trans (placed_regainTeam ..)).trans (placed_modTeam (fun _ h => h) fun _ => rfl)

/-- The gang's save, of a gang that was saved in a cluster, is stale. -/
def savedStale (s : State) (k : GangRef) : State := match (gangOf s k).bind fun g => g.place.cluster with
  | some c => addStale s k.ld 6 c 0 2621440
  | none => s

theorem placed_savedStale (s : State) (k : GangRef) : Placed s (savedStale s k) := by
  unfold savedStale
  split
  · exact placed_addStale ..
  · exact .refl s

/-- A gang that has come back: on its cores, its timers started. -/
def cameBack (now : Nat) (g : Gang) : Gang := { startTimers now g with place := .resident, preempt := none, wanted := false, retry := 0, ue := false }

theorem resumeGang_eq {s : State} {k : GangRef} (hbad : ((gangOf s k).any fun g => g.ue || shadowBad s g.place) = false) :
    resumeGang s k = catchUp (modGang (regained (savedStale s k) k s.cycle) k (cameBack s.cycle)) k := by
  unfold resumeGang
  rw [hbad]
  rfl

theorem shadowBad_nil {s : State} (h : s.sram = []) (w : Where) : shadowBad s w = false := by
  unfold shadowBad
  rw [h]
  cases w.cluster with
  | none => rfl
  | some _ => rfl

theorem resumeGang_spec {s : State} {k : GangRef} {g : Gang} (hg : gangOf s k = some g) (hue : g.ue = false) (hok : shadowBad s g.place = false) :
    (∀ r, (teamOf (resumeGang s k) r).map Team.core = (teamOf s r).map Team.core) ∧
    (resumeGang s k).gangs = s.gangs.map (fun x => if x.r == k then cameBack s.cycle x else x) := by
  rw [resumeGang_eq (by rw [hg, Option.any_some, hue, hok]; rfl)]
  have h := (placed_savedStale s k).trans (placed_regained (savedStale s k) k s.cycle)
  generalize regained (savedStale s k) k s.cycle = w at *
  have hc := placed_catchUp (modGang w k (cameBack s.cycle)) k
  refine ⟨fun r => (hc.core r).trans (h.core r), hc.gangs.trans ?_⟩
  rw [← h.gangs]
  rfl

theorem gangOf_cameBack {s t : State} {k : GangRef} {g : Gang} {now : Nat} (hg : gangOf s k = some g)
    (ht : t.gangs = s.gangs.map fun x => if x.r == k then cameBack now x else x) : gangOf t k = some (cameBack now g) := by
  have h := gangOf_modGang (f := cameBack now) (fun _ => rfl) hg
  rw [← h]
  unfold gangOf
  rw [ht]
  rfl

/-! The cores that the teams come back on. -/

@[simp] theorem gangs_pick (s : State) (l : List Nat) : (pick s l).2.gangs = s.gangs := rfl
@[simp] theorem teams_pick (s : State) (l : List Nat) : (pick s l).2.teams = s.teams := rfl
@[simp] theorem sram_pick (s : State) (l : List Nat) : (pick s l).2.sram = s.sram := rfl

theorem pickRegs_same (s : State) (used : List (Nat × Nat)) (l : List Nat) : (pickRegs s used l).2.gangs = s.gangs ∧
    (pickRegs s used l).2.teams = s.teams ∧ (pickRegs s used l).2.sram = s.sram := by
  induction l generalizing s used with
  | nil => exact ⟨rfl, rfl, rfl⟩
  | cons n r ih =>
    unfold pickRegs
    dsimp only
    split
    · exact ih ..
    · exact ih ..

theorem allocate_same (s : State) (gr : Grid) (core : Nat) : (allocate s gr core).2.gangs = s.gangs ∧ (allocate s gr core).2.teams = s.teams ∧
    (allocate s gr core).2.sram = s.sram := by
  unfold allocate
  dsimp only
  refine ⟨(pickRegs_same ..).1.trans ?_, (pickRegs_same ..).2.1.trans ?_, (pickRegs_same ..).2.2.trans ?_⟩
  · simp only [gangs_pick]
  · simp only [teams_pick]
  · simp only [sram_pick]

/-- A team's new place on a core. -/
theorem replaceTeam_spec (s : State) (gr : Grid) (r : TeamRef) (core : Nat) : (replaceTeam s gr r core).gangs = s.gangs ∧
    (replaceTeam s gr r core).sram = s.sram ∧
    ∀ q, (teamOf (replaceTeam s gr r core) q).map Team.core = if q = r then (teamOf s r).map fun _ => core else (teamOf s q).map Team.core := by
  obtain ⟨h1, h2, h3⟩ := allocate_same s gr core
  unfold replaceTeam
  generalize allocate s gr core = x at *
  refine ⟨h1, h3, fun q => ?_⟩
  rw [teamOf_modTeam (by exact fun _ h => h), teamOf_of_teams h2, teamOf_of_teams h2]
  split
  · rw [Option.map_map]
    rfl
  · rfl

/-- The teams of a list, each on its core. -/
theorem replaceTeams_spec (gr : Grid) (core : Team → Nat) (ts : List Team) (s : State) :
    let u := ts.foldl (fun s t => replaceTeam s gr t.r (core t)) s
    u.gangs = s.gangs ∧ u.sram = s.sram ∧ (∀ q, (∀ t ∈ ts, t.r ≠ q) → (teamOf u q).map Team.core = (teamOf s q).map Team.core) ∧
      ((ts.map Team.r).Nodup → ∀ t ∈ ts, (teamOf u t.r).map Team.core = (teamOf s t.r).map fun _ => core t) := by
  induction ts generalizing s with
  | nil => exact ⟨rfl, rfl, fun _ _ => rfl, fun _ t ht => absurd ht List.not_mem_nil⟩
  | cons a ts ih =>
    obtain ⟨h1, h2, h3, h4⟩ := ih (replaceTeam s gr a.r (core a))
    obtain ⟨k1, k2, k3⟩ := replaceTeam_spec s gr a.r (core a)
    refine ⟨h1.trans k1, h2.trans k2, fun q hq => ?_, fun hnd t ht => ?_⟩
    · rw [List.foldl_cons, h3 q fun t ht => hq t (List.mem_cons_of_mem _ ht), k3, if_neg fun h => hq a List.mem_cons_self h.symm]
    · rw [List.map_cons, List.nodup_cons] at hnd
      obtain ⟨hout, hnd⟩ := hnd
      have hmem (t : Team) (ht : t ∈ ts) : t.r ≠ a.r := fun h => hout (h ▸ List.mem_map_of_mem ht)
      rw [List.foldl_cons]
      rcases List.mem_cons.1 ht with rfl | ht
      · rw [h3 t.r hmem, k3, if_pos rfl]
      · rw [h4 hnd t ht]
        have hsome : ((teamOf (replaceTeam s gr a.r (core a)) t.r).map Team.core).isSome = ((teamOf s t.r).map Team.core).isSome := by
          rw [k3, if_neg (hmem t ht)]
        rw [Option.isSome_map, Option.isSome_map] at hsome
        cases h : teamOf (replaceTeam s gr a.r (core a)) t.r <;> cases h' : teamOf s t.r <;> simp_all

/-- The gang is back on its cores. -/
theorem comeBack_spec {s : State} {k : GangRef} {g : Gang} (gr : Grid) (cores : List Nat) (hg : gangOf s k = some g) (hue : g.ue = false)
    (hs : s.sram = []) (hnd : ((gangTeams s k).map Team.r).Nodup) : GangIs (comeBack s gr k cores) k (fun g' => g'.place = .resident ∧ g'.wanted = false) ∧
      ∀ t ∈ gangTeams s k, TeamIs (comeBack s gr k cores) t.r fun t' => t'.core = cores.getD t.member 0 := by
  obtain ⟨h1, h2, -, h4⟩ := replaceTeams_spec gr (fun t => cores.getD t.member 0) (gangTeams s k) s
  unfold comeBack
  dsimp only
  generalize (gangTeams s k).foldl (fun s t => replaceTeam s gr t.r (cores.getD t.member 0)) s = w at *
  have hg' : gangOf { w with lastCore := cores.getLastD w.lastCore, lastLd := k.ld } k = some g := by rw [← hg]; unfold gangOf; rw [← h1]
  have hcore (q : TeamRef) : teamOf { w with lastCore := cores.getLastD w.lastCore, lastLd := k.ld } q = teamOf w q := rfl
  have hsram : ({ w with lastCore := cores.getLastD w.lastCore, lastLd := k.ld } : State).sram = [] := h2.trans hs
  generalize ({ w with lastCore := cores.getLastD w.lastCore, lastLd := k.ld } : State) = v at *
  obtain ⟨k1, k2⟩ := resumeGang_spec hg' hue (shadowBad_nil hsram g.place)
  refine ⟨⟨_, gangOf_cameBack hg' k2, rfl, rfl⟩, fun t ht => ?_⟩
  have hmap := (k1 t.r).trans ((congrArg (Option.map Team.core) (hcore t.r)).trans (h4 hnd t ht))
  have hin : (teamOf s t.r).isSome = true := List.find?_isSome.2 ⟨t, (List.mem_filter.1 ht).1, beq_self_eq_true _⟩
  obtain ⟨x, hx⟩ := Option.isSome_iff_exists.1 hin
  rw [hx] at hmap
  obtain ⟨y, hy, hyc⟩ := Option.map_eq_some_iff.1 hmap
  exact ⟨y, hy, hyc⟩

end placed

end Sys2Proof.Machine
end

section
/-! PROOFS. SYSCALL, its request and its reply; FEATQ (spec/20_system_instructions.md R387 to R392; spec/25_host_and_fabric.md R451, R452). -/

set_option Elab.async false

namespace Sys2Proof.Machine

/-! SYSCALL (R387). -/

theorem waits_syscall {s : State} {c : Ctx} {x : SyscallA} (hc : ctxOf s x.h = some c) (hne : c.lanes ≠ []) (hh : c.g.handler = none)
    (hrung : c.g.rung = none) (room : (others c.u (frontOf c.g)).length < depthOf c.g) :
    Waits c (exec (.syscall x) s) (.sys c.act x.d x.svc.toNat (srcD c.g x.a 2 c.low) (srcD c.g x.b 2 c.low)) := by
  have hexec : exec (.syscall x) s = .next (complete c x.h false
      (.ok c.s (.wait (.sys c.act x.d x.svc.toNat (srcD c.g x.a 2 c.low) (srcD c.g x.b 2 c.low))) [] none)) := by
    have hin : c.inHandler = false := by rw [Ctx.inHandler, hh]; rfl
    rw [show exec (.syscall x) s = execSyscall x s from rfl, execSyscall, withIssue_of hc, hin, hrung]
    rfl
  have hact : (c.act != 0) = true := bne_iff_ne.2 fun h => hne (by
    rw [Ctx.lanes, h]
    exact List.filter_eq_nil_iff.2 fun l _ => by rw [zero_bit]; exact Bool.false_ne_true)
  rw [hexec]
  refine waits_of_hasEntry x.h false _ [] none (groupOf_ctx hc) room rfl ?_
  have hst : (waiter c (.sys c.act x.d x.svc.toNat (srcD c.g x.a 2 c.low) (srcD c.g x.b 2 c.low))).st ≠ .ready := by
    exact fun h => by cases h
  have hstart := hasEntry_afterWait x.h false (.sys c.act x.d x.svc.toNat (srcD c.g x.a 2 c.low) (srcD c.g x.b 2 c.low)) [] none (groupOf_ctx hc) hh
  exact ((hstart.settleTbar hst c.r.team (.inl rfl)).settleSys hst c.r.team (.inr ⟨rfl, hact⟩)).settleGbar hst _ (.inl rfl)

theorem traps_syscall {s : State} {c : Ctx} {x : SyscallA} (hc : ctxOf s x.h = some c) (hrung : c.g.rung ≠ none) (can : CanTrap c) :
    Traps c (exec (.syscall x) s) cLADFRAME 4 (lowest c.u.mask) 0 := by
  have hin : c.inHandler = false := by rw [Ctx.inHandler, can.1]; rfl
  have hr : c.g.rung.isSome = true := Option.isSome_iff_ne_none.2 hrung
  rw [show exec (.syscall x) s = execSyscall x s from rfl, execSyscall, withIssue_of hc, hin, hr]
  exact traps_trapW hc can ..

/-! The request (R451). -/

/-- A part of a number that has been written. -/
theorem Wrote.peek_part {s t : State} {pa x n : Nat} (h : Wrote s t pa (bytesOf x n)) (hc : CleanAt s pa n) {i k : Nat} (hik : i + k ≤ n) :
    peek t (pa + i) k = x / 256 ^ i % 256 ^ k := by
  have hclean : CleanAt t (pa + i) k := fun j hj => by
    rw [Nat.add_assoc]
    exact h.clean _ (hc (i + j) (by omega))
  rw [peek, peekBytes_clean hclean, ← ofBytes_bytesOf]
  refine congrArg ofBytes (List.map_congr_left fun j hj => ?_)
  have hj := List.mem_range.1 hj
  have hin : i + j < (bytesOf x n).length := by simp; omega
  rw [Nat.add_assoc, h.look, if_pos ⟨by omega, by omega⟩, Nat.add_sub_cancel_left, List.getD_eq_getElem _ _ hin]
  simp [bytesOf, pow_add, Nat.div_div_eq_div_mul]

theorem field_mod {a w : Nat} (h : a < w) (y : Nat) : (a + w * y) % w = a := by rw [Nat.add_mul_mod_self_left, Nat.mod_eq_of_lt h]

theorem field_div {a w : Nat} (h : a < w) (y : Nat) : (a + w * y) / w = y := by
  rw [Nat.add_mul_div_left _ _ (Nat.zero_lt_of_lt h), Nat.div_eq_of_lt h, Nat.zero_add]

/-- The fields of a request record. -/
theorem sysRecord_fields (t : Team) (token : DWord) (x : Nat × Nat × DWord × DWord) :
    sysRecord t token x / 256 ^ 0 % 256 ^ 8 = x.2.2.1.toNat ∧ sysRecord t token x / 256 ^ 8 % 256 ^ 8 = x.2.2.2.toNat ∧
    sysRecord t token x / 256 ^ 16 % 256 ^ 2 = x.2.1 % 2 ^ 16 ∧ sysRecord t token x / 256 ^ 20 % 256 ^ 4 = t.r.team % 2 ^ 32 ∧
    sysRecord t token x / 256 ^ 24 % 256 ^ 8 = t.r.grid % 2 ^ 64 ∧ sysRecord t token x / 256 ^ 32 % 256 ^ 8 = token.toNat := by
  have ha : x.2.2.1.toNat < 256 ^ 8 := x.2.2.1.isLt
  have hb : x.2.2.2.toNat < 256 ^ 8 := x.2.2.2.isLt
  have hd : token.toNat < 256 ^ 8 := token.isLt
  have he : x.2.1 % 2 ^ 16 < 256 ^ 2 := Nat.mod_lt _ (by decide)
  have hl : t.r.ld % 16 < 256 ^ 2 := (Nat.mod_lt _ (by decide)).trans (by decide)
  have hm : t.r.team % 2 ^ 32 < 256 ^ 4 := Nat.mod_lt _ (by decide)
  have hg : t.r.grid % 2 ^ 64 < 256 ^ 8 := Nat.mod_lt _ (by decide)
  unfold sysRecord
  generalize x.2.2.1.toNat = a at *
  generalize x.2.2.2.toNat = b at *
  generalize token.toNat = d at *
  generalize x.2.1 % 2 ^ 16 = e at *
  generalize t.r.ld % 16 = l at *
  generalize t.r.team % 2 ^ 32 = m at *
  generalize t.r.grid % 2 ^ 64 = g at *
  have hnest : a + b * 2 ^ 64 + e * 2 ^ 128 + l * 2 ^ 144 + m * 2 ^ 160 + g * 2 ^ 192 + d * 2 ^ 256 =
      a + 256 ^ 8 * (b + 256 ^ 8 * (e + 256 ^ 2 * (l + 256 ^ 2 * (m + 256 ^ 4 * (g + 256 ^ 8 * d))))) := by ring
  rw [hnest, show (256 : Nat) ^ 16 = 256 ^ 8 * 256 ^ 8 from rfl, show (256 : Nat) ^ 20 = 256 ^ 8 * 256 ^ 8 * 256 ^ 2 * 256 ^ 2 from rfl,
    show (256 : Nat) ^ 24 = 256 ^ 8 * 256 ^ 8 * 256 ^ 2 * 256 ^ 2 * 256 ^ 4 from rfl,
    show (256 : Nat) ^ 32 = 256 ^ 8 * 256 ^ 8 * 256 ^ 2 * 256 ^ 2 * 256 ^ 4 * 256 ^ 8 from rfl]
  simp only [← Nat.div_div_eq_div_mul, field_div ha, field_div hb, field_div he, field_div hl, field_div hm, field_div hg]
  rw [pow_zero, Nat.div_one]
  exact ⟨field_mod ha _, field_mod hb _, field_mod he _, field_mod hm _, field_mod hg _, Nat.mod_eq_of_lt hd⟩

theorem addTag_nil (s : State) (who : Party) (sc : Scope) (loc n : Nat) : addTag s who sc [] loc n = s := rfl

/-- A request posted. -/
theorem syscallPost_spec {s : State} {r : TeamRef} {t : Team} {x : Nat × Nat × DWord × DWord} (hrun : Running s) (hdev : HasDev s r.ld)
    (ht : teamOf s r = some t) (hpost : t.sys = .posting) (hhere : gangHere s t = true) (hpast : beforeTeams s [t] = [])
    (hroom : requestRingFull s r.ld = false) (hx : supplyingCall t = some x) {slot : Nat} (hslot : slot =
      (qbWord s r.ld 0x280).toNat + 64 * ((qbWord s r.ld 0x290).toNat % (qbWord s r.ld 0x288).toNat)) (hc : CleanAt s slot 64) (hs : s.sram = []) :
    Becomes (exec (.syscallPost r) s) fun u => Wrote s u slot (bytesOf (sysRecord t (Config.teamToken r.ld r.grid r.team) x) 64) ∧
      qbWord u r.ld 0x290 = BitVec.ofNat 64 (((qbWord s r.ld 0x290).toNat + 1) % 2 ^ 32) ∧
      TeamIs u r fun v => v.sys = .waiting (Config.teamToken r.ld r.grid r.team) := by
  have hpend : (pending s []).isEmpty = true := by rw [pending, expand_nil]; rfl
  rw [show exec (.syscallPost r) s = execSyscallPost r s from rfl, execSyscallPost, agent_of_running hrun]
  refine ⟨_, rfl, ?_⟩
  simp only [ht, hpost, hhere, hpast, hpend, addTag_nil, hroom, hx, ← hslot, bne_self_eq_false, Bool.not_true, Bool.or_self, Bool.false_eq_true, if_false]
  generalize sysRecord t (Config.teamToken r.ld r.grid r.team) x = n
  have hw : Wrote s (writeMem (endTags s slot 64) slot (bytesOf n 64)) slot (bytesOf n 64) :=
    (cells_endTags s slot 64).wrote (wrote_writeMem_any hs (by rw [length_bytesOf]; exact hc))
  have hlds : (writeMem (endTags s slot 64) slot (bytesOf n 64)).lds = s.lds := lds_writeMem ..
  have hteams : (writeMem (endTags s slot 64) slot (bytesOf n 64)).teams = s.teams := teams_writeMem ..
  generalize writeMem (endTags s slot 64) slot (bytesOf n 64) = w at *
  refine ⟨Wrote.cells (s := w) (by exact ⟨rfl, rfl, rfl, rfl⟩) hw, qbWord_setQb (by rw [hlds]; exact hdev.1) .., _, teamOf_modTeam_some ((teamOf_of_teams hteams r).trans ht) (by exact fun _ h => h), rfl⟩

/-! The reply (R388, R452). -/

theorem devWord_reply {ld : Nat} (hld : ld < 16) : devWord (0xFF0000000000 + ld * 2 ^ 16 + 0x2A0) = .qb ld 0x2A0 := by
  have hdev : (0xFF0000000000 + ld * 2 ^ 16 + 0x2A0 - 0xFF0000000000) / 2 ^ 16 = ld := by omega
  have hmod : (0xFF0000000000 + ld * 2 ^ 16 + 0x2A0) % 2 ^ 16 = 0x2A0 := by omega
  have hin : 0xFF0000000000 ≤ 0xFF0000000000 + ld * 2 ^ 16 + 0x2A0 ∧ 0xFF0000000000 + ld * 2 ^ 16 + 0x2A0 < 0xFF0000100000 := by omega
  simp only [devWord, if_pos hin, hdev, hmod]
  rfl

/-- The value of a reply written to D of an entry that had an active lane. -/
def replyStep (v : DWord) (g : Group) (e : Entry) : Group := match e.st with
  | .waiting (.sys act d _ _ _) _ => if act = 0 then g else match d with
    | .g n => setG g n.toNat v
    | _ => g
  | _ => g

/-- A group to which a reply has gone. -/
def replied (ids : List Nat) (v : DWord) (g : Group) : Group :=
  joinPast ids (wakeIf (fun e => e.waits Wait.isSys) (g.frontier.foldl (replyStep v) g))

theorem sysDeliver_eq {s : State} {r : TeamRef} {t : Team} (v : DWord) (ht : teamOf s r = some t) :
    sysDeliver s r v = modTeam s r fun t' => { t' with sys := .none, groups := t'.groups.map (replied (beforeTeams s [t]) v) } := by
  unfold sysDeliver
  rw [ht]
  rfl

/-- Only the registers of a group's bank have changed. -/
def BankOnly (g g' : Group) : Prop := ∃ b, g' = { g with bank := b }

theorem bankOnly_setG {g : Group} (hh : g.handler = none) (n : Nat) (x : DWord) : BankOnly g (setG g n x) := by
  unfold setG
  split
  · exact ⟨g.bank, rfl⟩
  · unfold setBank
    split
    · next e => rw [hh] at e; cases e
    · exact ⟨_, rfl⟩

theorem replyStep_eq (v : DWord) (g : Group) (e : Entry) : replyStep v g e = g ∨ ∃ n, replyStep v g e = setG g n v := by
  unfold replyStep
  split
  · split
    · exact .inl rfl
    · split
      · exact .inr ⟨_, rfl⟩
      · exact .inl rfl
  · exact .inl rfl

theorem bankOnly_replies {g : Group} (hh : g.handler = none) (v : DWord) (es : List Entry) : BankOnly g (es.foldl (replyStep v) g) := by
  refine foldl_holds (BankOnly g) ⟨g.bank, rfl⟩ fun x e hx => ?_
  obtain ⟨b, rfl⟩ := hx
  rcases replyStep_eq v { g with bank := b } e with h | ⟨n, h⟩
  · exact ⟨b, h⟩
  · obtain ⟨b', hb'⟩ := bankOnly_setG (g := { g with bank := b }) hh n v
    exact ⟨b', h.trans hb'⟩

/-- Every D that the reply goes to reads as its value. -/
theorem getG_replies {v : DWord} {g : Group} {es : List Entry} {e : Entry} (he : e ∈ es) {act : LaneMask} {k : BitVec 6} {svc n : Nat} {a0 a1 : DWord}
    (hst : e.st = .waiting (.sys act (.g k) svc a0 a1) n) (hact : act ≠ 0) :
    getG (es.foldl (replyStep v) g) k.toNat = if k.toNat = 0 then 0 else v := by
  by_cases hk : k.toNat = 0
  · rw [hk]
    rfl
  · obtain ⟨l₁, l₂, rfl⟩ := List.append_of_mem he
    rw [if_neg hk, List.foldl_append, List.foldl_cons]
    refine foldl_holds (fun x => getG x k.toNat = v) ?_ fun x y hx => ?_
    · have hstep (x : Group) : replyStep v x e = setG x k.toNat v := by
        unfold replyStep
        rw [hst]
        exact if_neg hact
      rw [hstep, getG_setG, if_pos ⟨rfl, hk⟩]
    · rcases replyStep_eq v x y with h | ⟨m, h⟩
      · rw [h]; exact hx
      · rw [h, getG_setG]
        split
        · rfl
        · exact hx

/-- What a reply leaves of a group that runs its kernel. -/
theorem replied_spec (ids : List Nat) (v : DWord) {g : Group} (hh : g.handler = none) (hp : g.pendTrap = none) :
    (replied ids v g).id = g.id ∧ (replied ids v g).frontier = wakeList (fun e => e.waits Wait.isSys) g.frontier ∧
    ∀ k, getG (replied ids v g) k = getG (g.frontier.foldl (replyStep v) g) k := by
  obtain ⟨b, hb⟩ := bankOnly_replies hh v g.frontier
  obtain ⟨o, ho⟩ : Reordered _ (replied ids v g) := reordered_addPast (BitVec.allOnes 32) ids _
  rw [ho, hb]
  refine ⟨rfl, ?_, fun k => ?_⟩
  · show (if g.handler.isSome || g.pendTrap.isSome then _ else _) = _
    rw [hh, hp]
    rfl
  · unfold getG bankOf wakeIf
    rw [hh]
    rfl

theorem replyTok_spec {s : State} {hart ld : Nat} {token v : DWord} {t : Team} (hrun : Running s) (hhart : hart < 20) (hld : ld < 16)
    (hv : (s.harts.getD hart default).replyval = v)
    (hfind : (s.teams.find? fun t => t.r.ld == ld && t.sys == .waiting token) = some t) (ht : teamOf s t.r = some t)
    (hhere : gangHere s t = true) (hsaved : ∀ q ∈ t.groups, q.saved = false) :
    Becomes (exec (.replytok hart ld token) s) fun u => ∃ past ids, TeamIs u t.r fun t' => t'.sys = .none ∧
      t'.groups = (t.groups.map (joinPast past)).map (replied ids (replyValue t v)) := by
  rw [show exec (.replytok hart ld token) s = execReplytok hart ld token s from rfl, execReplytok, agent_of_running hrun]
  refine ⟨_, rfl, whoPast s (.hart hart), ?_⟩
  rw [if_pos ⟨hhart, hld⟩, devWrite, devWord_reply hld]
  show ∃ ids, TeamIs (sysReply s ld token (s.harts.getD hart default).replyval (whoPast s (.hart hart))) t.r _
  rw [hv]
  unfold sysReply
  rw [hfind]
  dsimp only
  obtain ⟨k, hk, hplace⟩ : ∃ k, gangOf s ⟨t.r.ld, t.r.grid, t.r.team / gangSize s t.r⟩ = some k ∧ k.place = .resident := by
    unfold gangHere at hhere
    split at hhere
    · next k hk => exact ⟨k, hk, beq_iff_eq.1 hhere⟩
    · cases hhere
  have hany : t.groups.any Group.saved = false := List.any_eq_false.2 fun q hq => by rw [hsaved q hq]; exact Bool.false_ne_true
  generalize whoPast s (.hart hart) = past
  generalize replyValue t v = x
  have hm : teamOf (modTeam s t.r fun t => { t with groups := t.groups.map (joinPast past) }) t.r =
      some { t with groups := t.groups.map (joinPast past) } := teamOf_modTeam_some ht (by exact fun _ h => h)
  have hk' : gangOf (modTeam s t.r fun t => { t with groups := t.groups.map (joinPast past) })
      ⟨t.r.ld, t.r.grid, t.r.team / gangSize (modTeam s t.r fun t => { t with groups := t.groups.map (joinPast past) }) t.r⟩ = some k := hk
  generalize (modTeam s t.r fun t => { t with groups := t.groups.map (joinPast past) }) = w at *
  rw [hk']
  dsimp only
  rw [if_pos ⟨hplace, by rw [hany]; rfl⟩, sysDeliver_eq x hm]
  exact ⟨_, _, teamOf_modTeam_some hm (by exact fun _ h => h), rfl, rfl⟩

/-! A gang that waits whole leaves its cores (R389). -/

theorem gangs_modGangGroups (s : State) (k : GangRef) (f : Group → Group) : (modGangGroups s k f).gangs = s.gangs :=
  foldl_holds (fun u : State => u.gangs = s.gangs) rfl fun _ _ h => h

theorem gangs_sramPoke (s : State) (k : SramKey) (x : Nat) : (sramPoke s k x).gangs = s.gangs := by
  unfold sramPoke
  split
  · split <;> rfl
  · split
    · split <;> rfl
    · split
      · split
        · rfl
        · split <;> rfl
      · split
        · rfl
        · split <;> rfl

theorem gangs_sramRead {s t : State} {k : SramKey} {core : Nat} (h : sramRead s k core (fun s x => sramPoke s k x) = some t) : t.gangs = s.gangs := by
  unfold sramRead at h
  split at h
  · rw [← Option.some.inj h]
  · split at h
    · cases h
    · dsimp only at h
      split at h <;> rw [← Option.some.inj h]
      · exact gangs_sramPoke ..
      · exact gangs_sramPoke ..

theorem gangs_saveWords (s : State) (k : GangRef) : (saveWords s k).2.gangs = s.gangs := by
  unfold saveWords
  refine foldl_holds (fun a : Bool × State => a.2.gangs = s.gangs) rfl fun a key ha => ?_
  split
  · exact ha
  · split
    · exact ha
    · split
      · exact ha
      · split
        · exact ha
        · next h => exact (gangs_sramRead h).trans ha

theorem gangs_addStale (s : State) (ld store unit lo hi : Nat) : (addStale s ld store unit lo hi).gangs = s.gangs := (placed_addStale ..).gangs

theorem gangs_dropHeld (s : State) (core : Nat) (p : TeamRef → Bool) : (dropHeld s core p).gangs = s.gangs := by
  unfold dropHeld
  dsimp only
  split <;> rfl

theorem gangs_leaveWords (s : State) (ld store unit lo hi : Nat) : (leaveWords s ld store unit lo hi).gangs = s.gangs := by
  unfold leaveWords
  exact gangs_addStale ..

theorem gangs_leaveTeam (s : State) (t : Team) : (leaveTeam s t).gangs = s.gangs := by
  have hregs : (t.vregs.foldl (fun s v => leaveRegs s t.r.ld t.core v.1 v.2) s).gangs = s.gangs :=
    foldl_holds (fun u : State => u.gangs = s.gangs) rfl fun _ _ h => (gangs_leaveWords ..).trans h
  unfold leaveTeam
  dsimp only
  rw [gangs_addStale, gangs_addStale, gangs_dropHeld]
  exact foldl_holds (fun u : State => u.gangs = s.gangs) hregs fun _ _ h => (gangs_leaveWords ..).trans h

/-- A gang that leaves its cores is where it was to go. -/
theorem leaveCores_spec {s : State} {k : GangRef} {g : Gang} (hg : gangOf s k = some g) (dest : Where) :
    ∃ g', gangOf (leaveCores s k dest) k = some g' ∧ g'.place = dest ∧ g'.preempt = none ∧ g'.retry = g.retry ∧ g'.r = g.r := by
  unfold leaveCores
  dsimp only
  generalize hx : saveWords _ k = x
  have hsave : x.2.gangs = s.gangs := by
    rw [← hx]
    exact gangs_saveWords ..
  generalize (gangTeams s k).foldl _ s.cycle = now at *
  have hgroups := (gangs_modGangGroups x.2 k fun g => handlerClock (fun n => now - n) { g with outst := [], swPark := false, delay := 0 }).trans hsave
  generalize modGangGroups x.2 k (fun g => handlerClock (fun n => now - n) { g with outst := [], swPark := false, delay := 0 }) = y at *
  have hteams : ((gangTeams y k).foldl leaveTeam y).gangs = s.gangs :=
    foldl_holds (fun u : State => u.gangs = s.gangs) hgroups fun _ _ h => (gangs_leaveTeam ..).trans h
  generalize (gangTeams y k).foldl leaveTeam y = z at *
  have hz : gangOf z k = some g := by rw [← hg]; unfold gangOf; rw [hteams]
  split
  · exact ⟨_, gangOf_modGang (fun _ => rfl) hz, rfl, rfl, rfl, rfl⟩
  · exact ⟨_, gangOf_modGang (fun _ => rfl) hz, rfl, rfl, rfl, rfl⟩

theorem swapOut_leaves {s : State} {k : GangRef} {g : Gang} (hrun : Running s) (hg : gangOf s k = some g) (hplace : g.place = .resident)
    (hpre : g.preempt = none) (hall : allWait s k = true) :
    let c := (((gangTeams s k).head?).map Team.core).getD 0 / 8
    (shadowRoom s c k = true → Becomes (exec (.syscallSwapOut k) s) fun u => GangIs u k fun g' => g'.place = .call (some c)) ∧
    (shadowRoom s c k = false → poolRoom s k = true → Becomes (exec (.syscallSwapOut k) s) fun u => GangIs u k fun g' => g'.place = .call none) := by
  have hg' : gangOf (modGangGroups s k fullSave) k = some g := by rw [← hg]; unfold gangOf; rw [gangs_modGangGroups]
  have hexec : exec (.syscallSwapOut k) s = .next (if shadowRoom s ((((gangTeams s k).head?).map Team.core).getD 0 / 8) k then
      leaveCores (modGangGroups s k fullSave) k (.call (some ((((gangTeams s k).head?).map Team.core).getD 0 / 8)))
      else if poolRoom s k then leaveCores (modGangGroups s k fullSave) k (.call none) else s) := by
    rw [show exec (.syscallSwapOut k) s = execSyscallSwapOut k s from rfl, execSyscallSwapOut, agent_of_running hrun, hg]
    simp only [hplace, hpre, hall, beq_self_eq_true, Option.isNone_none, Bool.and_self, Bool.not_true, Bool.false_eq_true, if_false]
  rw [hexec]
  generalize (((gangTeams s k).head?).map Team.core).getD 0 / 8 = c
  refine ⟨fun h => ?_, fun h hp => ?_⟩
  · rw [if_pos h]
    obtain ⟨g', hg', hp, -⟩ := leaveCores_spec hg' (.call (some c))
    exact ⟨_, rfl, g', hg', hp⟩
  · rw [if_neg (by rw [h]; decide), if_pos hp]
    obtain ⟨g', hg', hp, -⟩ := leaveCores_spec hg' (.call none)
    exact ⟨_, rfl, g', hg', hp⟩

/-! FEATQ (R392). -/

theorem goesOn_featq {s : State} {c : Ctx} {x : FeatqA} (hc : ctxOf s x.h = some c) (hwf : WellFormed (.featq x) = true) (hne : c.lanes ≠ []) :
    GoesOn c (exec (.featq x) s) fun t g => BytesKept s t ∧ Kept c.g g (keysOf x.d 1) ∧
      srcD g x.d 2 c.low = seen x.d 2 (featWord s c.ld x.word.toNat) := by
  obtain ⟨hs, -⟩ := ctxOf_spec hc
  have hd : x.d.cls = .uni := wf_cls hwf (aD x.d [.uni] 1) (by simp [args]) rfl (by decide)
  obtain ⟨hread, hkept⟩ := srcD_setDst_uniform (g := c.g) hd c.low 1 2 (featWord s c.ld x.word.toNat)
  rw [show exec (.featq x) s = execFeatq x s from rfl, execFeatq, withIssue_of hc, c.any_of_ne hne, hs]
  refine goesOn_free hc false _ _ (by simp) (by simp) fun outs => ⟨?_, hkept.retire .., ?_⟩
  · rw [← hs]; exact (bytesKept_put ..).trans (bytesKept_afterDone ..)
  · rw [srcD_retire]; exact hread

/-- Word 1 of the features. -/
theorem featWord_one (s : State) (ld : Nat) : (featWord s ld 1).extractLsb' 0 10 = BitVec.allOnes 10 ∧
    ((featWord s ld 1).getLsbD 10 = true ↔ s.straitUp ≠ []) ∧ ((featWord s ld 1).getLsbD 11 = true ↔ s.ethUp ≠ []) ∧
    ((featWord s ld 1).getLsbD 12 = true ↔ ldReg s ld 0x405 ≠ 0) ∧ (featWord s ld 1).extractLsb' 14 50 = 0 := by
  obtain ⟨a, hA, ha⟩ : ∃ a : Bool, (if s.straitUp.isEmpty then 0 else 2 ^ 10) = a.toNat * 2 ^ 10 ∧ (a = true ↔ s.straitUp ≠ []) := by
    refine ⟨!s.straitUp.isEmpty, ?_, by simp⟩
    cases s.straitUp.isEmpty <;> rfl
  obtain ⟨b, hB, hb⟩ : ∃ b : Bool, (if s.ethUp.isEmpty then 0 else 2 ^ 11) = b.toNat * 2 ^ 11 ∧ (b = true ↔ s.ethUp ≠ []) := by
    refine ⟨!s.ethUp.isEmpty, ?_, by simp⟩
    cases s.ethUp.isEmpty <;> rfl
  obtain ⟨d, hD, hd⟩ : ∃ d : Bool, (if ldReg s ld 0x405 = 0 then 0 else 2 ^ 12) = d.toNat * 2 ^ 12 ∧ (d = true ↔ ldReg s ld 0x405 ≠ 0) := by
    refine ⟨decide (ldReg s ld 0x405 ≠ 0), ?_, by simp⟩
    by_cases h : ldReg s ld 0x405 = 0 <;> simp [h]
  obtain ⟨e, hE⟩ : ∃ e : Bool, (if ownsExpander s ld then 2 ^ 13 else 0) = e.toNat * 2 ^ 13 := by
    refine ⟨ownsExpander s ld, ?_⟩
    cases ownsExpander s ld <;> rfl
  have hword : featWord s ld 1 = BitVec.ofNat 64 (0x3FF + a.toNat * 2 ^ 10 + b.toNat * 2 ^ 11 + d.toNat * 2 ^ 12 + e.toNat * 2 ^ 13) := by
    rw [← hA, ← hB, ← hD, ← hE]
    rfl
  have ha1 := a.toNat_lt
  have hb1 := b.toNat_lt
  have hd1 := d.toNat_lt
  have he1 := e.toNat_lt
  rw [hword, ← ha, ← hb, ← hd]
  generalize hN : 0x3FF + a.toNat * 2 ^ 10 + b.toNat * 2 ^ 11 + d.toNat * 2 ^ 12 + e.toNat * 2 ^ 13 = N
  have hlt : N < 2 ^ 64 := by omega
  refine ⟨?_, ?_, ?_, ?_, ?_⟩
  · refine BitVec.eq_of_toNat_eq ((extract_ofNat N 0 10 hlt).trans ?_)
    show _ = 1023
    omega
  · rw [bit_ofNat N 10 hlt a (by omega) (by decide)]
  · rw [bit_ofNat N 11 hlt b (by omega) (by decide)]
  · rw [bit_ofNat N 12 hlt d (by omega) (by decide)]
  · refine BitVec.eq_of_toNat_eq ((extract_ofNat N 14 50 hlt).trans ?_)
    show _ = 0
    omega

theorem featWord_three {s : State} {ld : Nat} (h1 : ldReg s ld 0x401 < 2 ^ 32) (h5 : ldReg s ld 0x405 < 2 ^ 16) (h0 : ldReg s ld 0x400 < 2 ^ 16) :
    (featWord s ld 3).toNat = ldReg s ld 0x401 * 2 ^ 32 + ldReg s ld 0x405 * 2 ^ 16 + ldReg s ld 0x400 := by
  show (BitVec.ofNat 64 _).toNat = _
  rw [BitVec.toNat_ofNat]
  omega

end Sys2Proof.Machine

open Sys2Proof Sys2Proof.Machine

/-- Settles O36: a call waits because its entry is the active one that posts it; the request is one number whose fields are the words of
the record; the reply wakes each waiting entry; the gang's place and cores follow it out and back. -/
theorem systemCalls : Obligations.SystemCalls := by
  unfold Obligations.SystemCalls
  refine ⟨⟨fun s c x hc hne hh => ⟨waits_syscall hc hne hh, traps_syscall hc⟩, fun s r t x hrun hdev ht hpost hhere hpast hroom hx => ?_,
    fun s hart ld token v t hrun hhart hld hv hfind ht hhere hsaved => ?_,
    fun s k g hrun hg hplace hpre hall => swapOut_leaves hrun hg hplace hpre hall,
    fun s k g gr cores hrun hg hue hs hnd hturn => ?_⟩, fun s c x hc hwf hne => ?_⟩
  · dsimp only
    intro hclean hsram
    obtain ⟨u, hu, hw, htail, hsys⟩ := syscallPost_spec hrun hdev ht hpost hhere hpast hroom hx rfl hclean hsram
    obtain ⟨h0, h8, h16, h20, h24, h32⟩ := sysRecord_fields t (Config.teamToken r.ld r.grid r.team) x
    exact ⟨u, hu, (hw.peek_part (i := 0) hclean (by decide)).trans h0, (hw.peek_part hclean (by decide)).trans h8,
      (hw.peek_part hclean (by decide)).trans h16, (hw.peek_part hclean (by decide)).trans h20, (hw.peek_part hclean (by decide)).trans h24,
      (hw.peek_part hclean (by decide)).trans h32, htail, hsys⟩
  · obtain ⟨u, hu, past, ids, t', ht', hsys, hgroups⟩ := replyTok_spec hrun hhart hld hv hfind ht hhere hsaved
    refine ⟨u, hu, t', ht', hsys, fun q hq hh hp e he act d svc a0 a1 n hm hst => ?_⟩
    obtain ⟨o, ho⟩ : Reordered q (joinPast past q) := reordered_addPast ..
    obtain ⟨hid, hfront, hget⟩ := replied_spec ids (replyValue t v) (g := joinPast past q) (by rw [ho]; exact hh) (by rw [ho]; exact hp)
    have hsame : (joinPast past q).frontier = q.frontier := by rw [ho]
    refine ⟨replied ids (replyValue t v) (joinPast past q), ?_, hid.trans (id_joinPast ..), fun l _ hl => ?_, fun hact k hd => ?_⟩
    · rw [hgroups]
      exact List.mem_map_of_mem (List.mem_map_of_mem hq)
    · rw [hfront, hsame]
      exact standsAt_wakeList he (by simp [Entry.waits, hst, Wait.isSys]) hl
    · subst hd
      rw [hget, getG_replies (e := e) (by rw [hsame]; exact he) hst hact]
      rfl
  · have hexec : exec (.syscallGangReturn k) s = .next (comeBack s gr k cores) := by
      rw [show exec (.syscallGangReturn k) s = execSyscallGangReturn k s from rfl, execSyscallGangReturn, agent_of_running hrun]
      refine congrArg Host.Outcome.next ?_
      split
      · next h => exact absurd (h.symm.trans hturn) (by simp)
      · next x h =>
        cases h.symm.trans hturn
        rfl
    rw [hexec]
    exact ⟨_, rfl, comeBack_spec gr cores hg hue hs hnd⟩
  · refine (goesOn_featq hc hwf hne).imp fun t g ⟨hb, hk, hv⟩ => ⟨hb, hk, _, hv, fun h => ?_, fun h => ?_, fun h => ?_, fun h => ?_, fun h => ?_⟩
    · rw [h]; rfl
    · rw [h]; exact featWord_one s c.ld
    · rw [h]; rfl
    · rw [h]; exact featWord_three
    · unfold featWord
      rw [if_neg (by omega), if_neg (by omega), if_neg (by omega), if_neg (by omega)]
end
